-- ==== Sys2Proof/Word.lean ====
section
/-!
DEFINITION. The words of the Borid 48 fabric and the one finite map that every sparse table of the state uses.
Numbers and bit fields are those of spec/00_scope.md R3 to R7: bit 0 is the least significant bit and
multi-byte values lie in memory little-endian.
-/

namespace Sys2Proof

/-- A byte of memory. -/
abbrev Byte := BitVec 8
/-- A register row: 32 bits (R14). -/
abbrev Word := BitVec 32
/-- A dword: an instruction word, a queue entry or a register pair (R24, R28, R29). -/
abbrev DWord := BitVec 64
/-- A 64-byte line of memory, of a cell or of a cache (R16, R211). -/
abbrev Line := BitVec 512

/-- Bits `[lo + w - 1 : lo]` of a natural number (R4). -/
def bitsOf (x lo w : Nat) : Nat := x / 2 ^ lo % 2 ^ w

/-- Bit `n` of a natural number. -/
def bitOf (x n : Nat) : Bool := bitsOf x n 1 == 1

/-- The numeral of a bit. -/
def bitNat (b : Bool) : Nat := if b then 1 else 0

/-- A `w`-bit natural number read as a two's complement integer (SignExtend of R9). -/
def signedOf (x w : Nat) : Int :=
  if x % 2 ^ w < 2 ^ (w - 1) then (x % 2 ^ w : Nat) else ((x % 2 ^ w : Nat) : Int) - 2 ^ w

/-- A finite map with natural keys: a list of pairs with strictly rising keys, so that equal maps are equal lists. -/
abbrev FMap (α : Type) := List (Nat × α)

/-- The entry at a key, if there is one. -/
def FMap.find {α : Type} : FMap α → Nat → Option α
  | [], _ => none
  | (k, v) :: t, n => if n = k then some v else FMap.find t n

/-- Puts an entry at its place in the rising order of keys. -/
def FMap.put {α : Type} : FMap α → Nat → α → FMap α
  | [], n, x => [(n, x)]
  | (k, v) :: t, n, x =>
    if n < k then (n, x) :: (k, v) :: t
    else if n = k then (n, x) :: t
    else (k, v) :: FMap.put t n x

/-- Removes the entry at a key. -/
def FMap.del {α : Type} : FMap α → Nat → FMap α
  | [], _ => []
  | (k, v) :: t, n => if n = k then FMap.del t n else (k, v) :: FMap.del t n

/-- The entry at a key, or a default. -/
def FMap.findD {α : Type} (m : FMap α) (n : Nat) (d : α) : α := (FMap.find m n).getD d

/-- Puts an entry, or removes it when it equals the default `d` (the canonical form of a total map). -/
def FMap.store {α : Type} [DecidableEq α] (d : α) (m : FMap α) (n : Nat) (x : α) : FMap α :=
  if x = d then FMap.del m n else FMap.put m n x

/-- Changes the entry at a key, if there is one. -/
def FMap.adjust {α : Type} (m : FMap α) (n : Nat) (f : α → α) : FMap α :=
  m.map fun p => if p.1 = n then (p.1, f p.2) else p

/-- The values of a map, in rising order of keys. -/
def FMap.vals {α : Type} (m : FMap α) : List α := m.map Prod.snd

/-- The keys of a map, rising. -/
def FMap.keys {α : Type} (m : FMap α) : List Nat := m.map Prod.fst

/-- The keys rise strictly. -/
def FMap.sorted {α : Type} : FMap α → Bool
  | [] => true
  | [_] => true
  | (k, _) :: (k', v') :: t => decide (k < k') && FMap.sorted ((k', v') :: t)

/-- Replaces element `n` of a list; a list that is too short is left as it is. -/
def listSet {α : Type} : List α → Nat → α → List α
  | [], _, _ => []
  | _ :: t, 0, x => x :: t
  | a :: t, n + 1, x => a :: listSet t n x

/-- The numbers `lo, lo + 1, …, lo + n - 1`. -/
def upFrom (lo : Nat) : Nat → List Nat
  | 0 => []
  | n + 1 => lo :: upFrom (lo + 1) n

/-- Byte `i` of a little-endian number. -/
def byteOf (x i : Nat) : Nat := x / 2 ^ (8 * i) % 256

/-- The number whose little-endian bytes are given, lowest first. -/
def leNat : List Byte → Nat
  | [] => 0
  | b :: t => b.toNat + 256 * leNat t

/-- The `n` little-endian bytes of a number. -/
def leBytes (x : Nat) : Nat → List Byte
  | 0 => []
  | n + 1 => BitVec.ofNat 8 (x % 256) :: leBytes (x / 256) n

end Sys2Proof
end

