-- ==== Sys2Proof/Syntax.lean ====
section
/-!
DEFINITION. The instructions and steps of the device as data: one constructor of `Instr` per row of
spec/opcode_table.json. A full word carries its header (stall count, guard and release hint, R25) and its operands;
an event of the device carries what tells one such event from another (which queue, which block, what the host wrote).
-/

namespace Sys2Proof

/-- A quarter release hint (R42): the target (RETENTION, or OFF) and the register quarter. -/
structure QHint where
  off : Bool
  quarter : Fin 4
  deriving DecidableEq, Repr

/-- The fields that every full word has (R25): stall count, guard and release hint. -/
structure Hdr where
  stall : Fin 16
  pneg : Bool
  pred : Fin 8
  hint : Option QHint
  deriving DecidableEq, Repr

/-- A register field (R26, Table 2-2). -/
inductive Reg where
  | v (n : Fin 240)
  | q (k : Fin 8)
  | zero
  deriving DecidableEq, Repr

/-- The B source of a form with an immediate form (R27): a register, or the 18-bit immediate as its pattern. -/
inductive Src where
  | reg (r : Reg)
  | imm (c : Fin 262144)
  deriving DecidableEq, Repr

/-- A predicate source `[!]pK`. -/
structure PSrc where
  k : Fin 8
  neg : Bool
  deriving DecidableEq, Repr

/-- Rounding modes (Table 2-3). -/
inductive Rnd where
  | rn | rz | rd | ru
  deriving DecidableEq, Repr

/-- Access sizes (Table 2-3). -/
inductive Size where
  | b8 | b16 | b32 | b64 | b128
  deriving DecidableEq, Repr

/-- Float formats (Table 2-3). -/
inductive FFmt where
  | f32 | h2 | bh2 | f16 | bf16
  deriving DecidableEq, Repr

/-- Scopes (Table 2-3, Table 10-1). -/
inductive Scope where
  | blk | cls | slc | dev | sys
  deriving DecidableEq, Repr

/-- Memory orders (Table 2-3). -/
inductive Order where
  | rlx | acq | rel | ar | sc
  deriving DecidableEq, Repr

/-- Cache hints (Table 2-3, Table 8-6). -/
inductive Hint where
  | ca | cg | st
  deriving DecidableEq, Repr

/-- Integer comparisons (Table 6-3). -/
inductive Cmp where
  | eq | ne | lt | le | gt | ge
  deriving DecidableEq, Repr

/-- Floating-point comparisons (Table 7-7). -/
inductive FCmp where
  | eq | ne | lt | le | gt | ge | num | nan | equ | neu | ltu | leu | gtu | geu
  deriving DecidableEq, Repr

/-- The combining operation of ISETP, ISETP64 and FSETP (R143). -/
inductive PComb where
  | none | and | or | xor
  deriving DecidableEq, Repr

/-- The operation of PSET (R143). -/
inductive PsetOp where
  | and | or | xor
  deriving DecidableEq, Repr

/-- SHFL modes (R143). -/
inductive ShflMode where
  | idx | up | down | bfly
  deriving DecidableEq, Repr

/-- VOTE modes (R143). -/
inductive VoteMode where
  | ballot | all | any | eq
  deriving DecidableEq, Repr

/-- CVT type codes (R163). -/
inductive CvtType where
  | f32 | f16 | bf16 | s8 | z8 | s16 | z16 | s32 | z32 | s64 | z64
  deriving DecidableEq, Repr

/-- Atomic operations (Table 10-5). -/
inductive AtomOp where
  | add | and | or | xor | exch | smin | smax | zmin | zmax | inc | dec | fadd | faddH2 | faddBh2 | fmin | fmax
  deriving DecidableEq, Repr

/-- CCTL operations (R194). -/
inductive CctlOp where
  | ivl | ivall | ivtlb
  deriving DecidableEq, Repr

/-- C4 block lengths of LDCB (R194). -/
inductive CbLen where
  | l4 | l8 | l16
  deriving DecidableEq, Repr

/-- The select field of CALL, CALLX, RET and REFORM (R116): the stack or plain form, or an even register pair. -/
inductive Sel where
  | stack
  | link (n : Fin 240)
  deriving DecidableEq, Repr

/-- The operand of BAR, BARA and BARW (R247). -/
inductive BarArg where
  | imm (id : Fin 16) (count : Fin 2048)
  | reg (r : Reg)
  deriving DecidableEq, Repr

/-- Formats of OBRES (R300). -/
inductive ObFmt where
  | bf16 | c4 | c4e8
  deriving DecidableEq, Repr

/-- Formats of MOUT (R300). -/
inductive MoutFmt where
  | bf16 | f16 | c4e8
  deriving DecidableEq, Repr

/-- Engine kinds (Table 11-1). -/
inductive EngKind where
  | cgs | vox | sort | sec
  deriving DecidableEq, Repr

/-- Bindings of a queue register (R275, R277). -/
inductive QBinding where
  | none | cgs | vox
  deriving DecidableEq, Repr

/-- The 24 pair-slot operations (Table 2-8), NOP apart. -/
inductive PairOp where
  | mov | iadd | isub | imul | and | or | xor | shl | shrZ | shrS | iminS | imaxS | iminZ | imaxZ | lea
  | fadd | fsub | fmul | fmin | fmax | faddH2 | fmulH2 | cvtF32S32
  deriving DecidableEq, Repr

/-- The B operand of a pair slot (Table 2-7). -/
inductive PairSrc where
  | reg (r : Reg)
  | imm (b : Fin 256)
  deriving DecidableEq, Repr

/-- A pair slot (Table 2-7); `rnd` is .rn where Table 2-8 assigns no rounding. -/
inductive PairSlot where
  | nop
  | op (o : PairOp) (da : Reg) (b : PairSrc) (rnd : Rnd)
  deriving DecidableEq, Repr

/-- Why a 64-bit pattern is not an instruction (R50, Table 2-18). All but `pairRule` raise ILLEGAL-OP; `pairRule`
raises ILLEGAL-PAIR. -/
inductive DecodeError where
  /-- an OPC outside Tables 2-10 to 2-17, or a pair OPC6 from 0x18 -/
  | unassignedOpcode
  /-- 249 to 254 in a register field, or 255 outside B, or 255 in B of a form with no immediate form -/
  | badRegister
  /-- an unused field or unassigned modifier bit that is not zero (R31), or a required-zero bit of an entry -/
  | unusedNonzero
  /-- a reserved modifier code in an assigned field (R32), or a code that the entry does not allow -/
  | reservedCode
  /-- QH[21] = 0 with QH[20:18] nonzero (R42) -/
  | badHint
  /-- a 64-bit operand with an odd number, or a register range that is not aligned as its entry requires -/
  | oddRegister
  /-- a queue register in a position that the entry does not allow -/
  | queueRegister
  /-- one queue register in two source fields (R29) -/
  | queueTwice
  /-- pair word with bit 56 set -/
  | pairReserved
  /-- a rule of R44 is broken; `top` is one more than the highest register number that the word names, for the allotment
  test of R30, whose cause is recorded in its place (R34) -/
  | pairRule (top : Nat)
  deriving DecidableEq, Repr

/-- A register bank or scratchpad bank that finishes waking (R137). -/
inductive WakeTarget where
  | reg (thread quarter : Nat)
  | spad (core bank : Nat)
  deriving DecidableEq, Repr

/-- Who makes a request to DRAM (R354). -/
inductive DramSource where
  /-- an access, page walk, ACP or MLOOP fetch of a thread, as 1024 x core + slot -/
  | thread (t : Nat)
  /-- an engine access for the block that pushed the command -/
  | engine (block : Nat)
  /-- traffic to the overlay pool for a context -/
  | pool (tag : Nat)
  | host
  | refresh
  deriving DecidableEq, Repr

/-- A request to DRAM as the group that serves it meets it (Table 14-3): its bursts of 64 bytes, and whether it needs a row activation
and is the first after a turnaround. -/
structure DramRequest where
  src : DramSource
  group : Nat
  bursts : Nat
  row : Bool
  turn : Bool
  deriving DecidableEq, Repr

/-- A data fault of Table 13-3 or Table 15-8 as it is found; `retryOk` is what its one retry gives. -/
structure DataFault where
  /-- the thread whose access met it, as 1024 x core + slot -/
  thread : Nat
  /-- the virtual address concerned -/
  addr : Nat
  /-- the structure code of Table 15-8, or 3 for an L2 or DRAM read, 4 for a flit -/
  struct : Nat
  retryOk : Bool
  deriving DecidableEq, Repr

/-- A host access (R378). -/
inductive HostAccess where
  | read (pa size : Nat)
  | write (pa : Nat) (bytes : List Byte)
  deriving DecidableEq, Repr

/-- A request from a link peer (R388). -/
inductive PeerAccess where
  | read (pa size : Nat)
  | write (pa : Nat) (bytes : List Byte)
  deriving DecidableEq, Repr

/-- A flit as it arrives (R385, R370): its sequence number, the outcome of its CRC and of its tag, and its stream. -/
structure Flit where
  seq : Nat
  crcOk : Bool
  tagOk : Bool
  stream : Option Nat
  /-- cumulative acknowledgement carried in the header -/
  ack : Nat
  /-- a replay request naming the expected sequence number -/
  replayFrom : Option Nat
  deriving DecidableEq, Repr

/-- What the power controller measures in one interval (R358), in units of 1/8 W: the power outside the fabric, and that of each
core in rising number. -/
structure PowerReading where
  px : Nat
  cores : List Nat
  deriving DecidableEq, Repr

/-- A flow of the network-on-chip (R361): a pair of ports in a world. -/
structure Flow where
  src : Nat
  dst : Nat
  world : Nat
  deriving DecidableEq, Repr

/-- A composite public key (R374): its Ed25519 and its ML-DSA-65 part, as little-endian numbers. -/
structure CompositeKey where
  ed : BitVec 256
  mlDsa : BitVec 15616
  deriving DecidableEq, Repr

/-- What a link peer sends to prove its identity (R386): its port number, its identity key with the certificate chain, and its
signature. -/
structure PeerProof where
  port : Nat
  key : CompositeKey
  chain : List Byte
  signature : List Byte
  deriving DecidableEq, Repr

/-- The result of one step of bring-up (R395). -/
structure BootResult where
  step : Nat
  ok : Bool
  /-- fitted and trained channel groups, one bit each (step 4) -/
  fitted : Nat
  /-- common capacity: 0 8 GiB, 1 16 GiB (step 4) -/
  cap : Nat
  deriving DecidableEq, Repr

/-- One constructor per row of spec/opcode_table.json. -/
inductive Instr where
  -- class 0, integer and address (R143)
  | nop (h : Hdr)
  | mov (h : Hdr) (d : Reg) (b : Src)
  | movhi (h : Hdr) (d a : Reg) (imm : Fin 262144)
  | iadd (h : Hdr) (d a : Reg) (b : Src)
  | isub (h : Hdr) (d a : Reg) (b : Src)
  | iadds (h : Hdr) (sg : Bool) (d a : Reg) (b : Src)
  | isubs (h : Hdr) (sg : Bool) (d a : Reg) (b : Src)
  | imul (h : Hdr) (d a : Reg) (b : Src)
  | imulh (h : Hdr) (sg : Bool) (d a : Reg) (b : Src)
  | imad (h : Hdr) (d a b c : Reg)
  | imadw (h : Hdr) (sg : Bool) (d a b c : Reg)
  | iadd64 (h : Hdr) (d a : Reg) (b : Src)
  | isub64 (h : Hdr) (d a : Reg) (b : Src)
  | lea (h : Hdr) (n : Fin 8) (d a : Reg) (b : Src)
  | lea64 (h : Hdr) (n : Fin 8) (sg : Bool) (d a : Reg) (b : Src)
  | imin (h : Hdr) (sg : Bool) (d a : Reg) (b : Src)
  | imax (h : Hdr) (sg : Bool) (d a : Reg) (b : Src)
  | iabs (h : Hdr) (d a : Reg)
  | iand (h : Hdr) (d a : Reg) (b : Src)
  | ior (h : Hdr) (d a : Reg) (b : Src)
  | ixor (h : Hdr) (d a : Reg) (b : Src)
  | bmux (h : Hdr) (f1 f0 : Fin 16) (d a b c : Reg)
  | shl (h : Hdr) (d a : Reg) (b : Src)
  | shr (h : Hdr) (sg : Bool) (d a : Reg) (b : Src)
  | shf (h : Hdr) (left : Bool) (d a b c : Reg)
  | rot (h : Hdr) (d a : Reg) (b : Src)
  | popc (h : Hdr) (d a : Reg)
  | clz (h : Hdr) (d a : Reg)
  | brev (h : Hdr) (d a : Reg)
  | bfe (h : Hdr) (sg : Bool) (d a : Reg) (b : Src)
  | bfi (h : Hdr) (d a b c : Reg)
  | prmt (h : Hdr) (d a b c : Reg)
  | isetp (h : Hdr) (cmp : Cmp) (sg : Bool) (op : PComb) (p : PSrc) (pd : Fin 8) (a : Reg) (b : Src)
  | isetp64 (h : Hdr) (cmp : Cmp) (sg : Bool) (op : PComb) (p : PSrc) (pd : Fin 8) (a : Reg) (b : Src)
  | iset (h : Hdr) (cmp : Cmp) (sg : Bool) (d a b : Reg)
  | sel (h : Hdr) (p : PSrc) (d a b : Reg)
  | pset (h : Hdr) (op : PsetOp) (pd : Fin 8) (pa pb : PSrc)
  | p2v (h : Hdr) (d : Reg)
  | v2p (h : Hdr) (mask : Fin 128) (a : Reg)
  | hash32 (h : Hdr) (d a : Reg) (b : Src)
  | shfl (h : Hdr) (mode : ShflMode) (d a : Reg) (b : Src)
  | vote (h : Hdr) (mode : VoteMode) (p : PSrc) (d : Reg)
  | s2v (h : Hdr) (sr : Fin 21) (d : Reg)
  | v2s (h : Hdr) (a : Reg)
  | imul64 (h : Hdr) (d a : Reg) (b : Src)
  | mov64 (h : Hdr) (d : Reg) (b : Src)
  -- class 1, floating point and conversion (R163)
  | fadd (h : Hdr) (fmt : FFmt) (rnd : Rnd) (d a : Reg) (b : Src)
  | fsub (h : Hdr) (fmt : FFmt) (rnd : Rnd) (d a : Reg) (b : Src)
  | fmul (h : Hdr) (fmt : FFmt) (rnd : Rnd) (d a : Reg) (b : Src)
  | ffma (h : Hdr) (fmt : FFmt) (rnd : Rnd) (d a b c : Reg)
  | fmin (h : Hdr) (fmt : FFmt) (d a : Reg) (b : Src)
  | fmax (h : Hdr) (fmt : FFmt) (d a : Reg) (b : Src)
  | fsetp (h : Hdr) (cmp : FCmp) (op : PComb) (p : PSrc) (pd : Fin 8) (a : Reg) (b : Src)
  | fset (h : Hdr) (cmp : FCmp) (fmt : FFmt) (d a b : Reg)
  | fclass (h : Hdr) (fmt : FFmt) (d a : Reg)
  | frcp (h : Hdr) (d a : Reg)
  | frsq (h : Hdr) (d a : Reg)
  | fsqrt (h : Hdr) (rnd : Rnd) (d a : Reg)
  | fexp2 (h : Hdr) (d a : Reg)
  | flog2 (h : Hdr) (d a : Reg)
  | fsin (h : Hdr) (d a : Reg)
  | fcos (h : Hdr) (d a : Reg)
  | ftanh (h : Hdr) (d a : Reg)
  | fscale (h : Hdr) (rnd : Rnd) (d a : Reg) (b : Src)
  | frnd (h : Hdr) (rnd : Rnd) (d a : Reg)
  | fdot2 (h : Hdr) (fmt : FFmt) (rnd : Rnd) (d a b c : Reg)
  | fmed3 (h : Hdr) (fmt : FFmt) (d a b c : Reg)
  | cvt (h : Hdr) (dst src : CvtType) (rnd : Rnd) (d a : Reg)
  | cvtpk (h : Hdr) (fmt : FFmt) (rnd : Rnd) (d a b : Reg)
  | cbenc (h : Hdr) (d a : Reg) (cb : Fin 240) (c : Reg)
  | cbdec (h : Hdr) (n : Fin 8) (d a : Reg) (cb : Fin 240) (c : Reg)
  -- class 2, control and launch (R94, R116)
  | bra (h : Hdr) (off : Fin 262144)
  | brd (h : Hdr) (off : Fin 262144)
  | brx (h : Hdr) (a : Reg)
  | call (h : Hdr) (sel : Sel) (off : Fin 262144)
  | callx (h : Hdr) (sel : Sel) (a : Reg)
  | ret (h : Hdr) (sel : Sel)
  | land (h : Hdr)
  | reform (h : Hdr) (sel : Sel)
  | gpin (h : Hdr)
  | gfree (h : Hdr)
  | exit (h : Hdr)
  | yield (h : Hdr) (n : Option (Fin 262144))
  | bloop (h : Hdr) (a : Reg) (off : Fin 262144)
  | ipref (h : Hdr) (arg : Option (Fin 262144)) (a b : Reg)
  | iprefInv (h : Hdr) (a b : Reg)
  | launch (h : Hdr) (d a : Reg) (b : Src)
  | evwait (h : Hdr) (sc : Scope) (d a : Reg) (b : Src)
  | evsig (h : Hdr) (sc : Scope) (a : Reg) (b : Src)
  | nopw (h : Hdr) (n : Option (Fin 262144))
  -- class 3, memory (R194)
  | ld (h : Hdr) (size : Size) (sg : Bool) (hint : Hint) (d a : Reg) (b : Src) (disp : Fin 256)
  | st (h : Hdr) (size : Size) (hint : Hint) (d a : Reg) (b : Src) (disp : Fin 256)
  | lds (h : Hdr) (size : Size) (sg : Bool) (d a : Reg) (b : Src) (disp : Fin 256)
  | sts (h : Hdr) (size : Size) (d a : Reg) (b : Src) (disp : Fin 256)
  | ldl (h : Hdr) (size : Size) (sg : Bool) (hint : Hint) (d a : Reg) (b : Src) (disp : Fin 256)
  | stl (h : Hdr) (size : Size) (hint : Hint) (d a : Reg) (b : Src) (disp : Fin 256)
  | ldw (h : Hdr) (d a : Reg) (imm : Fin 262144)
  | stw (h : Hdr) (d a : Reg) (imm : Fin 262144)
  | ldk (h : Hdr) (size : Size) (hint : Hint) (d a : Reg) (b : Src) (disp : Fin 256)
  | pref (h : Hdr) (hint : Hint) (a : Reg) (b : Src)
  | cctl (h : Hdr) (op : CctlOp) (a : Reg) (b : Src)
  | acp (h : Hdr) (tag : Fin 8) (hint : Hint) (d a : Reg) (b : Src)
  | acwait (h : Hdr) (mask n : Fin 256)
  | acqry (h : Hdr) (d : Reg)
  | ldcb (h : Hdr) (len : CbLen) (d a : Reg) (b : Src)
  | xlq (h : Hdr) (d a : Reg) (b : Src)
  -- class 4, atomics, ordering and contexts (R221, R247)
  | amo (h : Hdr) (op : AtomOp) (size : Size) (ord : Order) (sc : Scope) (d a b : Reg)
  | cas (h : Hdr) (size : Size) (ord : Order) (sc : Scope) (d a b c : Reg)
  | red (h : Hdr) (op : AtomOp) (size : Size) (ord : Order) (sc : Scope) (a b : Reg)
  | fence (h : Hdr) (ord : Order) (sc : Scope)
  | bar (h : Hdr) (arg : BarArg)
  | bara (h : Hdr) (arg : BarArg)
  | barw (h : Hdr) (arg : BarArg)
  | gbar (h : Hdr)
  | ssync (h : Hdr)
  | waitv (h : Hdr) (cmp : Cmp) (sg : Bool) (size : Size) (sc : Scope) (d a b : Reg)
  | ctxopen (h : Hdr) (sc : Scope) (set : Bool) (try_ : Option (Fin 8)) (d : Reg)
  | ctxset (h : Hdr) (a : Reg)
  | ctxsettle (h : Hdr) (a : Reg)
  | ctxvoid (h : Hdr) (a : Reg)
  | ctxq (h : Hdr) (d a : Reg)
  | ldcx (h : Hdr) (size : Size) (sg : Bool) (d a b c : Reg)
  | ctxwait (h : Hdr) (sc : Scope) (d a : Reg)
  | ordhead (h : Hdr)
  -- class 5, matrix (R300)
  | obres (h : Hdr) (fmt : ObFmt) (len : Fin 4) (r : Fin 8) (a b : Reg)
  | obset (h : Hdr) (r : Fin 8) (b : Src)
  | obfree (h : Hdr) (r : Fin 8)
  | cbld (h : Hdr) (r : Fin 8) (cb : Fin 240)
  | mloop (h : Hdr) (d : Reg) (desc : Fin 240)
  | mwait (h : Hdr) (a : Reg)
  | mzero (h : Hdr) (t : Fin 8)
  | accld (h : Hdr) (t : Fin 8) (a : Reg) (b : Src)
  | accst (h : Hdr) (t : Fin 8) (a : Reg) (b : Src)
  | mrd (h : Hdr) (d : Reg) (t : Fin 8) (b : Src)
  | mout (h : Hdr) (fmt : MoutFmt) (t : Fin 8) (r : Fin 8) (a b : Reg)
  | mprog (h : Hdr) (d a : Reg)
  | keybind (h : Hdr) (r : Fin 8) (a : Reg)
  -- class 6, engines, queues and banks (R150, R277)
  | push (h : Hdr) (pd : Fin 8) (kind : EngKind) (cmd : Fin 240)
  | qbind (h : Hdr) (q : Fin 8) (b : QBinding)
  | qpeek (h : Hdr) (d : Reg) (q : Fin 8) (b : Src)
  | qcnt (h : Hdr) (d : Reg) (q : Fin 8)
  | qdrain (h : Hdr) (d : Reg) (q : Fin 8)
  | bkqry (h : Hdr) (d : Reg)
  | bkwake (h : Hdr) (mask : Fin 16)
  | bkdrop (h : Hdr) (off : Bool) (mask : Fin 16)
  | spwake (h : Hdr) (d : Reg) (b : Src)
  | spdrop (h : Hdr) (d : Reg) (b : Src)
  -- class 7, system and trap (R334)
  | trap (h : Hdr) (code : Fin 262144)
  | tret (h : Hdr)
  | tclr (h : Hdr) (a : Reg)
  | trd (h : Hdr) (d : Reg) (b : Src)
  | tmask (h : Hdr) (d a b : Reg)
  | ologq (h : Hdr) (d : Reg) (b : Src)
  | brk (h : Hdr) (code : Fin 262144)
  | sysrd (h : Hdr) (d : Reg) (b : Src)
  | syswr (h : Hdr) (a : Reg) (b : Src)
  | cntrd (h : Hdr) (d : Reg) (b : Src)
  | psafe (h : Hdr) (pd : Fin 8)
  | ilq (h : Hdr) (d : Reg)
  | halt (h : Hdr)
  | mbox (h : Hdr) (sec : Bool) (d a : Reg)
  -- words that are not full words
  | illegalEncoding (e : DecodeError)
  | pairWord (stall : Fin 8) (pred : Fin 8) (s0 s1 : PairSlot)
  -- events of the sequencers and of memory
  | icacheFill (seq : Nat)
  | scoreboardResult (id : Nat)
  | storeAck (id : Nat)
  | loggedAccessFault (entry : Nat)
  | bankWakeComplete (w : WakeTarget)
  | binCandidateTimeout (seq bin : Nat)
  | slotWaitTimeout (group : Nat)
  | yieldExpiry (group : Nat)
  | joinRelease (seq recno : Nat)
  | gpinRelease (block pinned : Nat)
  | evwaitMet (group : Nat)
  | barrierPhaseComplete (block side k : Nat)
  | gbarPhaseComplete (launch gang : Nat)
  | ssyncComplete (launch : Nat)
  | waitvMet (group : Nat)
  | waitvReread (group : Nat)
  | acwaitMet (group : Nat)
  | acpComplete (id : Nat)
  | ordheadReached (group : Nat)
  | ctxwaitReturn (group : Nat)
  | psafeResolve (group : Nat)
  | mboxReply (group : Nat)
  | queueReadResume (group : Nat)
  | handlerEntry (group : Nat)
  | mintGrant (part : Nat)
  | contextSettle (tag : Nat)
  | contextVoid (tag : Nat)
  | ctxPoolTimeout (entry : Nat)
  | clearingSettle (launch : Nat)
  -- events of launch and dispatch
  | recordCheck (q : Nat)
  | launchReady (l : Nat)
  | blockDispatch (part : Nat)
  | blockExit (b : Nat)
  | launchComplete (l : Nat)
  | gangReserveTimeout (l : Nat)
  | exchangeTimeout (b : Nat)
  | preemptDeadlineTimeout (l : Nat)
  | preemptTierTimeout (l : Nat)
  | noticeWindowExpiry (b : Nat)
  | drainTimeout (b : Nat)
  | save (b : Nat)
  | restore (b : Nat)
  | flush (b : Nat)
  | checkedFlush (b : Nat)
  | schedEntryEnd (core : Nat)
  | overrunWatchdog (b : Nat)
  -- events of checked execution
  | pairModeChange (slice : Nat)
  | pairDrainTimeout (slice : Nat)
  | autoPair (part : Nat)
  | autoUnpairTimeout (slice : Nat)
  | assayTimeout (b : Nat)
  | assayMismatch (b : Nat)
  | assayPass (b : Nat)
  -- events of the matrix unit and the engines
  | mloopStart (core : Nat)
  | mloopFetchFault (core : Nat)
  | mloopEnd (core : Nat)
  | engineAccept (inst : Nat)
  | receiptPost (inst : Nat)
  | copy (inst : Nat)
  | gather (inst : Nat)
  | scatter (inst : Nat)
  | fill (inst : Nat)
  | stream (inst : Nat)
  | lookup (inst : Nat)
  | insert (inst : Nat)
  | sort (inst : Nat)
  | merge (inst : Nat)
  | hash (inst : Nat)
  | sign (inst : Nat)
  -- events of the attachment, power and package
  | linkDownTimeout (port : Nat)
  | lowRailHoldExpiry (cluster : Nat)
  | railChangeComplete (cluster : Nat)
  | hostCoherenceDrain (tenant lines : Nat)
  | operandLogEntryFreed (entry : Nat)
  | iprefInvComplete (id : Nat)
  | ssvInboxMessageTaken (tenant : Nat)
  -- inputs: what the host and the world outside do, and measure
  | hostMemoryAccess (a : HostAccess)
  | registerWrite (pa : Nat) (v : DWord)
  | bringUp (r : BootResult)
  | sqtailWrite (q : Nat) (v : Word)
  | sqctlResume (q : Nat)
  | sqctlSkip (q : Nat)
  | eventCounterHostAdd (n : Nat) (v : DWord)
  | dataFaultRetry (f : DataFault)
  | pairctlWrite (slice : Nat) (v : DWord)
  | icinvWrite (v : DWord)
  | xlinvWrite (v : DWord)
  | launchabortWrite (v : DWord)
  | playoutWrite (v : DWord)
  | pengWrite (f : Nat) (v : DWord)
  | pevtWrite (f : Nat) (v : DWord)
  | pmintWrite (f : Nat) (v : DWord)
  | tenantWrite (u : Nat) (v : DWord)
  | qownWrite (n : Nat) (v : DWord)
  | floorWrite (t : Nat) (v : DWord)
  | lowrailWrite (v : DWord)
  | railcntClear (c : Nat)
  | linkctlRetrain (p : Nat)
  | peerLinkRequest (port : Nat) (a : PeerAccess)
  | linkFlitReceive (port : Nat) (f : Flit)
  | linkTraining (port : Nat) (proof : PeerProof)
  | nocPacketReceive (w : Flow) (crcOk tagOk : Bool) (f : DataFault)
  | powerControlTick (r : PowerReading)
  | dramModeCheck (group report : Nat)
  | undervoltInterval (s : Nat)
  | lowRailUncorrectable (cluster : Nat) (f : DataFault)
  | junctionCrossing (slice level : Nat) (rising : Bool) (celsius : Int)
  -- events and inputs without operands
  | icinvComplete
  | xlinvComplete
  | cfgerrClear
  | evrctlOverflowClear
  | evrlostClear
  | mbxreplyRead
  | bind
  | unbind
  | lock
  | start
  | unlock
  | query
  | keyprov
  | keyrevoke
  | extend
  | secBadMessage
  | getVersion
  | getCapabilities
  | negotiateAlgorithms
  | getDigests
  | getCertificate
  | challenge
  | getMeasurements
  | spdmUnsupportedRequest
  | dramWindow
  | coldReset
  deriving DecidableEq, Repr

end Sys2Proof
end

