-- ==== Sys2Proof/Config.lean ====
section
/-!
DEFINITION. What is fixed for the device (unit counts, latencies, addresses of the manual) and the free values: constants
with no body, whose values nothing in Lean can compute. Every use of a free value is named in notes/assumptions.
-/

namespace Sys2Proof
namespace Config

-- Units (R11, R12, R16)
/-- Cores of the device (R11). -/
def cores : Nat := 48
/-- Slices of the device (R11). -/
def slices : Nat := 12
/-- Group slots of a sequencer (R101). -/
def groupSlots : Nat := 32
/-- Bins of a thread quarter (R102). -/
def binsPerQuarter : Nat := 16
/-- Entries of a sequencer's operand log (R191). -/
def logEntries : Nat := 64
/-- Issue opportunities after which a waiting group or bin becomes a candidate (R101, R103). -/
def waitOpps : Nat := 64
/-- Lines of the shared instruction cache: 4 MiB of 64 bytes (R106). -/
def icacheLines : Nat := 65536
/-- Places of the matrix queue of a core (R292). -/
def mloopPlaces : Nat := 8
/-- Commands that one engine instance holds (R259). -/
def engPlaces : Nat := 8
/-- Entries of a queue register (R275). -/
def queuePlaces : Nat := 64
/-- Messages of an SSV inbox (R345). -/
def inboxPlaces : Nat := 16

-- Time, in units of 1/114 ns: the one unit in which both clocks of Table 1-5 have whole periods
/-- Period of the high-rail clock, 1/1.9 GHz (Table 1-5). -/
def highPeriod : Nat := 60
/-- Period of the low-rail clock, 1/1.2 GHz (Table 1-5). -/
def lowPeriod : Nat := 95
/-- One nanosecond. -/
def ns : Nat := 114
/-- One microsecond. -/
def us : Nat := 114000

-- Physical map (R179, Table 15-1)
/-- First address of the on-chip physical map. -/
def coreBase : Nat := 0xF0000000000
/-- Stride of one core in the map (R179). -/
def coreStride : Nat := 0x4000000
/-- First address of the fabric control window. -/
def ctlBase : Nat := 0xF00C0000000
/-- First address of the device-wide readback window. -/
def rbBase : Nat := 0xF00C1000000
/-- First address past the device-wide readback window. -/
def rbEnd : Nat := 0xF00C2000000

-- Windows of the virtual address space (Table 8-1)
/-- First address past the translated region. -/
def transEnd : Nat := 0xFFD0000000000
/-- PEER window. -/
def peerBase : Nat := 0xFFD0000000000
/-- SCRATCH window. -/
def scratchBase : Nat := 0xFFE0000000000
/-- PRIVATE window. -/
def privBase : Nat := 0xFFF0000000000

-- Free values. None of these has a value that Lean can compute.
/-- Log 8. Whether an early read with checking off takes the new value (true) or the old one (R38), given the free counter,
the thread and the register (256 + k for predicate k). -/
opaque earlyNew : Nat → Nat → Nat → Bool
/-- Log 20. A free 32-bit value, by the count of the moves and words so far and an index: tile contents that R294 leaves open, and the like. -/
opaque freeWord : (count : Nat) → (index : Nat) → BitVec 32
/-- Log 20. A free byte: results that the manual leaves open byte by byte. -/
opaque freeByte : (count : Nat) → (index : Nat) → BitVec 8
/-- Log 9. What the special-function pipe returns for an operand, before the bound of R162 is applied: one fixed value
for each form (0 FRCP, 1 FRSQ, 2 FEXP2, 3 FLOG2, 4 FSIN, 5 FCOS, 6 FTANH) and operand. -/
opaque special : Nat → BitVec 32 → BitVec 32
/-- Log 18. A core's draw for a tier, scaled from the grant budget and rail that it ran at to G = 16 on the high rail (R358). -/
opaque scaledDraw : (g : Nat) → (high : Bool) → (draw : Nat) → Nat
/-- Log 18. The estimated draw of a tier at grant budget G on a rail (true: high), given its demand (R358). -/
opaque estimatedDraw : (tier : Nat) → (g : Nat) → (high : Bool) → (demand : Nat) → Nat
/-- Log 22. A byte of a readback entry whose inner layout the manual does not give (R332). -/
opaque readbackByte : (count : Nat) → (address : Nat) → BitVec 8
/-- Log 23. A byte that a link peer's memory returns (R388). -/
opaque peerByte : (port : Nat) → (off : Nat) → (count : Nat) → BitVec 8
/-- Log 23. Whether the peer admits an access within its LINKWBASE and LINKWSIZE (R388). -/
opaque peerAdmits : Nat → Nat → Bool
/-- Log 19. A device key of the SEC, 0 to 15: whether the slot holds a key (R373). -/
opaque deviceKeyPresent : Nat → Bool
/-- Log 19. The Ed25519 signature of a message by a device key (R374), 64 bytes as a number. -/
opaque edSign : (slot : Nat) → (message : List (BitVec 8)) → BitVec 512
/-- Log 19. The ML-DSA-65 signature of a message by a device key with an empty context (R374), 3,309 bytes as a number. -/
opaque mlDsaSign : (slot : Nat) → (message : List (BitVec 8)) → BitVec 26472
/-- Log 19. Whether an Ed25519 signature of a message verifies under a key. -/
opaque edVerify : (key : BitVec 256) → (message : List (BitVec 8)) → (signature : BitVec 512) → Bool
/-- Log 19. Whether an ML-DSA-65 signature of a message verifies under a key. -/
opaque mlDsaVerify : (key : BitVec 15616) → (message : List (BitVec 8)) → (signature : BitVec 26472) → Bool
/-- Log 19. The vendor's root key (R375), and the digest of it that is fused. -/
opaque rootEd : BitVec 256
/-- Log 19. The ML-DSA-65 part of the root key. -/
opaque rootMlDsa : BitVec 15616
/-- Log 19. The fused SHA-384 digest of the root key. -/
opaque rootDigest : BitVec 384
/-- Log 19. A boot image (R375), by the measurement register that takes it: 0 to 3. -/
opaque bootImage : Nat → List (BitVec 8)
/-- Log 19. The composite signature that comes with a boot image. -/
opaque bootSignature : Nat → List (BitVec 8)
/-- Log 19. The security version of a boot image. -/
opaque bootVersion : Nat → Nat
/-- Log 19. The fused counter against which the version of a boot image is held. -/
opaque fusedVersion : Nat → Nat
/-- Log 19. Whether a certificate chain leads from the root key of a digest to an identity key (R376, R386). -/
opaque chainLeads : (chain : List (BitVec 8)) → (root : BitVec 384) → (key : List (BitVec 8)) → Bool
/-- Log 19. The bytes of the two port numbers in what a link peer signs (R386), the signer's port first. -/
opaque portBytes : Nat → Nat → List (BitVec 8)
/-- Log 56. A key of the network-on-chip as the SEC draws it (R361), by the count of the moves so far and the world. -/
opaque nocKey : (count : Nat) → (world : Nat) → BitVec 256
/-- Log 19. The ML-KEM-768 decapsulation of a key blob's ciphertext under the device's key-transport key, or none when it
fails (R371). -/
opaque decapsulate : List (BitVec 8) → Option (BitVec 256)
/-- Log 19. AES-256-GCM opening of the 32-byte key of a blob under a shared secret (R371). -/
opaque gcmOpen : BitVec 256 → List (BitVec 8) → Option (BitVec 256)
/-- Log 19. The SHA-384 digest that boot takes of an image (R375). -/
opaque imageDigest : Nat → BitVec 384
/-- Log 21. What a signed SPDM response signs: the transcript of the connection up to the response, given the request and the response
before its signature. -/
opaque spdmTranscript : (count : Nat) → List (BitVec 8) → List (BitVec 8) → List (BitVec 8)
/-- Log 21. Byte `i` of the SPDM response to a request (R376): the message bodies follow SPDM 1.2. -/
opaque spdmByte : Nat → List (BitVec 8) → Nat → BitVec 8
/-- Log 21. Length of the SPDM response to a request. -/
opaque spdmLength : Nat → List (BitVec 8) → Nat
/-- Log 19. The info under which a link key of a stream, port and direction is derived: the manual names its parts and not their
layout (R369). -/
opaque linkInfo : (stream : Nat) → (port : Nat) → (dir : Nat) → BitVec 384
/-- Log 19. The digest that MEAS5 takes of the configuration registers, whose order and layout the manual does not give (Table 14-7). -/
opaque configDigest : List (BitVec 64) → BitVec 384
/-- Log 27. How many row deliveries and steps a running MLOOP makes while time goes on (R295): the manual gives no rate. -/
opaque loopMoves : (count : Nat) → (core : Nat) → Nat
/-- Log 36. The requests that DRAM serves while time goes on (R354): which they are depends on the contents of L2 and the open rows. -/
opaque dramRequests : (count : Nat) → List DramRequest
/-- Log 52. Which of a settling context's cells merges next: the manual gives the merges of different lines no order (R242). -/
opaque mergeOrder : (count : Nat) → (tag : Nat) → Nat
/-- Log 37. Whether a fetch of a line whose cached copy is out of date finds the new contents (R109). -/
opaque fetchNew : (count : Nat) → (line : Nat) → Bool
/-- Log 30. The L2 set whose cell ways serve a physical line: the manual does not say how lines are placed in slices, banks and
sets. -/
opaque cellSet : Nat → Nat
/-- Log 28. Junction temperature limits in °C are those of the ordering code; this is the code fitted: 0 A, 1 I, 2 M (Table 0-1). -/
opaque orderingCode : Nat

end Config
end Sys2Proof
end

