-- ==== Sys2Proof/Machine/Crypto.lean ====
section
/-!
DEFINITION. The cryptographic functions that the manual names by their standards: SHA-384 (R274, R375), HMAC and HKDF over
SHA-384 (R370, R371), AES-256 and XTS (R291, R371); and the composite signature (R374).
-/

namespace Sys2Proof
namespace Machine

/-! ## SHA-384

Its constants are fractional parts of roots of the first primes, and they are computed as such. The words of the message schedule are
formed as the rounds use them: a window holds the next 16. -/

/-- The first 80 primes. -/
def shaPrimes : List Nat := (List.range 410).filter fun p => decide (2 ≤ p) && ((List.range p).drop 2).all fun d => p % d != 0

/-- The bits of the `k`-th root of a number, tried from bit `n - 1` down. -/
def rootBits (k x : Nat) : Nat → Nat → Nat
  | 0, r => r
  | n + 1, r => rootBits k x n (if (r + 2 ^ n) ^ k ≤ x then r + 2 ^ n else r)

/-- The first 64 bits of the fractional part of the `k`-th root of a number below 1,024. -/
def rootFraction (k p : Nat) : DWord := BitVec.ofNat 64 (rootBits k (p * 2 ^ (64 * k)) 69 0)

/-- The constants of the 80 rounds: cube roots. -/
def shaConstants : List DWord := shaPrimes.map (rootFraction 3)
/-- The value from which the hash starts: square roots of the ninth to the sixteenth prime. -/
def shaStart : List DWord := ((shaPrimes.drop 8).take 8).map (rootFraction 2)

/-- The big-endian number of some bytes. -/
def beNat (l : List Byte) : Nat := l.foldl (fun x b => 256 * x + b.toNat) 0
/-- The `n` big-endian bytes of a number. -/
def beBytes (x n : Nat) : List Byte := (leBytes x n).reverse

/-- The sum without carry of three right rotations. -/
def turns (i j k : Nat) (x : DWord) : DWord := x.rotateRight i ^^^ x.rotateRight j ^^^ x.rotateRight k

/-- The word of the schedule that comes 16 places after the first of a window. -/
def windowNext (w : List DWord) : DWord :=
  let mixed (at_ i j shift : Nat) : DWord :=
    let x := w.getD at_ 0
    x.rotateRight i ^^^ x.rotateRight j ^^^ (x >>> shift)
  mixed 14 19 61 6 + w.getD 9 0 + mixed 1 1 8 7 + w.getD 0 0

/-- The eight working words, as the four that a sum enters and the four that the other enters. -/
structure ShaWork where
  up : List DWord
  down : List DWord
  deriving DecidableEq, Repr

/-- One round, given its constant plus its schedule word. -/
def ShaWork.round (v : ShaWork) (kw : DWord) : ShaWork :=
  let u (i : Nat) : DWord := v.up.getD i 0
  let d (i : Nat) : DWord := v.down.getD i 0
  let pick := d 2 ^^^ (d 0 &&& (d 1 ^^^ d 2))
  let most := (u 0 &&& u 1) ||| (u 2 &&& (u 0 ||| u 1))
  let t := d 3 + turns 14 18 41 (d 0) + pick + kw
  ⟨(t + turns 28 34 39 (u 0) + most) :: v.up.take 3, (u 3 + t) :: v.down.take 3⟩

/-- The rounds of one block over the window of its schedule. -/
def shaRounds : List DWord → List DWord → ShaWork → ShaWork
  | [], _, v => v
  | k :: ks, w, v => shaRounds ks (w.drop 1 ++ [windowNext w]) (v.round (k + w.getD 0 0))

/-- A hash value after one block of 128 bytes. -/
def shaAbsorb (h : List DWord) (block : List Byte) : List DWord :=
  let w := (upFrom 0 16).map fun i => BitVec.ofNat 64 (beNat ((block.drop (8 * i)).take 8))
  let v := shaRounds shaConstants w ⟨h.take 4, h.drop 4⟩
  List.zipWith (· + ·) h (v.up ++ v.down)

/-- SHA-384 of a message: it is padded to whole blocks with a 1 bit, zeros, and its length in bits as 128 bits. -/
def sha384 (m : List Byte) : List Byte :=
  let blocks := (m.length + 17 + 127) / 128
  let padded := m ++ [0x80] ++ List.replicate (128 * blocks - m.length - 17) 0 ++ beBytes (8 * m.length) 16
  let h := (upFrom 0 blocks).foldl (fun h i => shaAbsorb h ((padded.drop (128 * i)).take 128)) shaStart
  (h.flatMap fun d => beBytes d.toNat 8).take 48

/-- HMAC with SHA-384. -/
def hmac384 (key msg : List Byte) : List Byte :=
  let k0 := if 128 < key.length then sha384 key else key
  let k := k0 ++ List.replicate (128 - k0.length) 0
  sha384 ((k.map (· ^^^ 0x5c)) ++ sha384 ((k.map (· ^^^ 0x36)) ++ msg))

/-- HKDF-SHA-384 with an empty salt, at most 48 bytes of output: extract, then one block of expand. -/
def hkdf384 (ikm info : List Byte) (n : Nat) : List Byte :=
  let prk := hmac384 (List.replicate 48 0) ikm
  (hmac384 prk (info ++ [1])).take n

/-! ## AES-256 -/

/-- The product in GF(2^8) with the polynomial of AES; the number bounds the bits of the second factor. -/
def gfMul : Nat → Nat → Nat → Nat
  | 0, _, _ => 0
  | n + 1, a, b =>
    let r := gfMul n (if a < 128 then 2 * a else (BitVec.ofNat 8 (2 * a) ^^^ 0x1b).toNat) (b / 2)
    if b % 2 = 1 then (BitVec.ofNat 8 a ^^^ BitVec.ofNat 8 r).toNat else r

/-- The inverse in GF(2^8), 0 for 0: the power 254. -/
def gfInv (a : Nat) : Nat :=
  let m (x y : Nat) : Nat := gfMul 8 x y
  let a2 := m a a
  let a3 := m a2 a
  let a6 := m a3 a3
  let a12 := m a6 a6
  let a15 := m a12 a3
  let a30 := m a15 a15
  let a60 := m a30 a30
  let a120 := m a60 a60
  let a240 := m a120 a120
  let a252 := m a240 a12
  m a252 a2

/-- The S-box of AES. -/
def aesSub (x : Byte) : Byte :=
  let b := BitVec.ofNat 8 (gfInv x.toNat)
  b ^^^ b.rotateLeft 1 ^^^ b.rotateLeft 2 ^^^ b.rotateLeft 3 ^^^ b.rotateLeft 4 ^^^ 0x63
/-- The inverse S-box. -/
def aesInvSub (x : Byte) : Byte :=
  let b := x.rotateLeft 1 ^^^ x.rotateLeft 3 ^^^ x.rotateLeft 6 ^^^ 0x05
  BitVec.ofNat 8 (gfInv b.toNat)

/-- Byte-wise exclusive or. -/
def xorBytes (a b : List Byte) : List Byte := (a.zip b).map fun p => p.1 ^^^ p.2

/-- The words of the AES-256 key schedule, newest first: word `8 + k` onward. -/
def aesExpand : Nat → Nat → Nat → List (List Byte) → List (List Byte)
  | 0, _, _, w => w
  | n + 1, k, rcon, w =>
    let prev := w.getD 0 []
    let t :=
      if k % 8 = 0 then xorBytes ((prev.drop 1 ++ prev.take 1).map aesSub) [BitVec.ofNat 8 rcon, 0, 0, 0]
      else if k % 8 = 4 then prev.map aesSub
      else prev
    aesExpand n (k + 1) (if k % 8 = 0 then gfMul 8 rcon 2 else rcon) (xorBytes (w.getD 7 []) t :: w)

/-- The 15 round keys of a 32-byte key. -/
def aesKeys (key : List Byte) : List (List Byte) :=
  let w0 := ((List.range 8).map fun i => (key.drop (4 * i)).take 4).reverse
  let w := (aesExpand 52 8 1 w0).reverse
  (List.range 15).map fun r => ((w.drop (4 * r)).take 4).flatten

/-- A permutation of the 16 bytes of a block. -/
def aesPerm (step : Nat) (b : List Byte) : List Byte :=
  (List.range 16).map fun i => b.getD ((4 * (i / 4 + i % 4 * step) + i % 4) % 16) 0

/-- A column operation with the coefficients of the first row. -/
def aesMix (c : List Nat) (b : List Byte) : List Byte :=
  (List.range 16).map fun i =>
    let col := i / 4 * 4
    (List.range 4).foldl (fun x j => x ^^^ BitVec.ofNat 8 (gfMul 8 (b.getD (col + j) 0).toNat (c.getD ((j + 4 - i % 4) % 4) 0)))
      (0 : Byte)

/-- Encryption of a 16-byte block. -/
def aesEncrypt (ks : List (List Byte)) (b : List Byte) : List Byte :=
  let start := xorBytes b (ks.getD 0 [])
  let mid := ((ks.drop 1).take 13).foldl (fun x k => xorBytes (aesMix [2, 3, 1, 1] (aesPerm 1 (x.map aesSub))) k) start
  xorBytes (aesPerm 1 (mid.map aesSub)) (ks.getD 14 [])

/-- Decryption of a 16-byte block. -/
def aesDecrypt (ks : List (List Byte)) (b : List Byte) : List Byte :=
  let start := xorBytes b (ks.getD 14 [])
  let mid := (((ks.drop 1).take 13).reverse).foldl (fun x k =>
    aesMix [14, 11, 13, 9] (xorBytes ((aesPerm 3 x).map aesInvSub) k)) start
  xorBytes ((aesPerm 3 mid).map aesInvSub) (ks.getD 0 [])

/-- The next tweak of XTS: multiplication by 2 of a little-endian 128-bit number. -/
def xtsNext (t : List Byte) : List Byte :=
  let x := leNat t
  leBytes (if x < 2 ^ 127 then 2 * x else ((BitVec.ofNat 128 (2 * x)) ^^^ 0x87).toNat) 16

/-- XTS decryption of whole 16-byte blocks with a tweak; the number bounds the blocks. -/
def xtsBlocks (ks : List (List Byte)) : Nat → List Byte → List Byte → List Byte
  | 0, _, _ => []
  | n + 1, t, d =>
    if d.isEmpty then []
    else xorBytes (aesDecrypt ks (xorBytes (d.take 16) t)) t ++ xtsBlocks ks n (xtsNext t) (d.drop 16)

/-- AES-256-XTS decryption under a data key and a tweak key, with a data-unit number. -/
def xtsDecrypt (dataKey tweakKey : List Byte) (unit : Nat) (d : List Byte) : List Byte :=
  xtsBlocks (aesKeys dataKey) (d.length / 16) (aesEncrypt (aesKeys tweakKey) (leBytes unit 16)) d

/-! ## Composite signatures (R374) -/

/-- A composite public key as bytes: the 32 of Ed25519, then the 1,952 of ML-DSA-65. -/
def keyBytes (k : CompositeKey) : List Byte := leBytes k.ed.toNat 32 ++ leBytes k.mlDsa.toNat 1952

/-- The composite signature of a message by a device key: the 64 bytes of Ed25519, then the 3,309 of ML-DSA-65. -/
def compositeSign (slot : Nat) (m : List Byte) : List Byte :=
  leBytes (Config.edSign slot m).toNat 64 ++ leBytes (Config.mlDsaSign slot m).toNat 3309

/-- A composite signature is valid only when it has its length and both of its signatures verify. -/
def compositeValid (k : CompositeKey) (m sig : List Byte) : Bool :=
  sig.length == 3373 && Config.edVerify k.ed m (BitVec.ofNat 512 (leNat (sig.take 64))) &&
    Config.mlDsaVerify k.mlDsa m (BitVec.ofNat 26472 (leNat (sig.drop 64)))

/-- The vendor's root key. -/
def rootKey : CompositeKey := ⟨Config.rootEd, Config.rootMlDsa⟩

/-- A boot image may start (R375): the root key is the fused one, the image verifies under it, and its version does not lie below the
fused counter. -/
def imageStarts (k : Nat) : Bool :=
  compositeValid rootKey (Config.bootImage k) (Config.bootSignature k) && decide (Config.fusedVersion k ≤ Config.bootVersion k) &&
    leNat (sha384 (keyBytes rootKey)) == Config.rootDigest.toNat

end Machine
end Sys2Proof
end

