-- ==== Sys2Proof/Machine/Bits.lean ====
section
/-!
DEFINITION. Arithmetic helpers of the meanings: HASH32 (R147), bit counts, sign extension to words.
-/

namespace Sys2Proof
namespace Machine

/-- HASH32 (R147). -/
def hash32 (a b : Word) : Word :=
  let h := a ^^^ (b * 0x9E3779B9)
  let h := (h ^^^ (h >>> 16)) * 0x7FEB352D
  let h := (h ^^^ (h >>> 15)) * 0x846CA68B
  h ^^^ (h >>> 16)

/-- The number of ones among the low `n` bits. -/
def popCount (x : Nat) : Nat → Nat
  | 0 => 0
  | n + 1 => popCount x n + bitsOf x n 1

/-- The number of leading zeros of an `n`-bit number. -/
def leadingZeros (x : Nat) : Nat → Nat
  | 0 => 0
  | n + 1 => if bitOf x n then 0 else 1 + leadingZeros x n

/-- The low `n` bits of a number in reverse order. -/
def reverseBits (x : Nat) : Nat → Nat
  | 0 => 0
  | n + 1 => (if bitOf x 0 then 2 ^ n else 0) + reverseBits (x / 2) n

/-- The floor of the base-2 logarithm of a positive number. -/
def log2 (x : Nat) : Nat := Nat.log2 x

/-- A byte of a word, by place. -/
def wordByte (w : Word) (i : Nat) : Byte := BitVec.ofNat 8 (byteOf w.toNat i)

/-- The 64-bit value of two words, low word first (R28). -/
def pairOf (lo hi : Word) : DWord := BitVec.ofNat 64 (lo.toNat + hi.toNat * 2 ^ 32)

/-- The low word of a dword. -/
def lowWord (d : DWord) : Word := BitVec.ofNat 32 d.toNat
/-- The high word of a dword. -/
def highWord (d : DWord) : Word := BitVec.ofNat 32 (d.toNat / 2 ^ 32)

/-- The least of a list of numbers, or a default. -/
def minOf (d : Nat) : List Nat → Nat
  | [] => d
  | x :: r => min x (minOf x r)

/-- The greatest of a list of numbers, 0 for none. -/
def maxOf (l : List Nat) : Nat := l.foldl max 0

/-- The sum of a list. -/
def sumOf (l : List Nat) : Nat := l.foldl (· + ·) 0

/-- Rounds up to a multiple. -/
def roundUp (x m : Nat) : Nat := (x + m - 1) / m * m

/-- Inclusive clamp. -/
def clampInt (lo hi x : Int) : Int := if x < lo then lo else if hi < x then hi else x

/-- The 18-bit immediate as a signed integer (R27). -/
def imm18 (c : Fin 262144) : Int := signedOf c.val 18

end Machine
end Sys2Proof
end

