-- ==== Sys2Proof/Machine/State.lean ====
section
/-!
DEFINITION. The state of the device as plain data, the reasons a step can stop, and the state right after reset.
Tables that are mostly empty (threads, groups, blocks, launches, contexts, …) are finite maps (Sys2Proof.FMap).
A thread is keyed by 1024 x core + slot; a sequencer by 4 x core + quarter.
-/

namespace Sys2Proof
namespace Machine

/-- Why a step stops the model. -/
inductive Fault where
  /-- Raised by every meaning of a word when no issue group is selected in `State.cur` or the selected group is not there.
  Safe: no run of `step` reaches it, because `step` selects the group before it executes the word. -/
  | noIssuingGroup
  deriving DecidableEq, Repr

/-- Why a step has no meaning. -/
inductive Refusal where
  /-- Raised by an arm of exec for an instruction that has no meaning yet. Safe. -/
  | notModelled (mnemonic : String)
  deriving DecidableEq, Repr

/-- States of a register quarter or scratchpad bank (R135, R140). -/
inductive QState where
  | full | ret | off
  deriving DecidableEq, Repr

/-- A register or predicate as the target of a write. -/
inductive WDest where
  | reg (n : Nat)
  | pred (k : Nat)
  deriving DecidableEq, Repr

/-- An outstanding fixed-latency write (R35, R38): when it becomes readable and what an early read may still see. -/
structure FixedWrite where
  dest : WDest
  ready : Nat
  old : Word
  deriving DecidableEq, Repr

/-- A register write to come. -/
structure RegWrite where
  thread : Nat
  dest : WDest
  val : Word
  deriving DecidableEq, Repr

/-- A record of a join stack (R112, Table 5-3). -/
structure JoinRec where
  recno : Nat
  pc : Nat
  deriving DecidableEq, Repr

/-- Where a thread is: in an issue group (which may wait at a join or at GPIN), in a bin, or ended. -/
inductive Disp where
  | group (g : Nat)
  | bin (n : Nat)
  | exited
  deriving DecidableEq, Repr

/-- A thread (Table 1-9). Its program counter is that of its group or bin. `quarters` are the states of Q0 to Q3 after
every change that an issued word has asked for; `wakes` holds the quarters that are still waking, with the cycle at which
they are FULL; a pending write with a number below `lost` of its quarter was overtaken by a change to OFF (R136). `lowered` holds,
for a quarter that was lowered, the state that its rows keep while the change waits, and the number of the change (R136, R192).
`ctx` and `ctxGen` are the tag and the generation of %ctx (R206). `again` marks a word that has retired and is issued again after a
save (R148). -/
structure Thread where
  block : Nat
  role : Nat
  grp : Nat
  pgrp : Nat
  ix : List Nat
  tid : Nat
  regs : FMap Word
  preds : BitVec 8
  retStack : List Nat
  joinStack : List JoinRec
  disp : Disp
  pinned : Bool
  quarters : List QState
  wakes : FMap Nat
  lost : FMap Nat
  lowered : FMap (QState × Nat)
  fixed : List FixedWrite
  ctx : Nat
  ctxGen : Nat
  rcnt : DWord
  acp : List Nat
  acpEcc : FMap Nat
  barPending : BitVec 16
  again : Bool
  deriving DecidableEq, Repr

/-- One lane of a wait or of a logged access: the thread, its context tag at issue, whether that context was not OPEN then
(R228), the source values it read, and the generation of the context. -/
structure LaneSrc where
  thread : Nat
  ctx : Nat
  bad : Bool
  a : Nat
  b : Nat
  c : Nat
  d : Nat
  gen : Nat
  deriving DecidableEq, Repr

/-- What holds the later memory words of a group (R224, R251, R238): the retirement of a context, a release, or the earlier loads
of some threads. -/
inductive MemHold where
  | retire (tag gen : Nat)
  | release (sc : Scope)
  | loads (threads : List Nat)
  deriving DecidableEq, Repr

/-- The waits of a group (R101 and the entries of each form). `lanes` holds what the active lanes read at issue;
`met` the lanes whose test has been met, with the value that met it. The lanes of BARW carry the number of their barrier. -/
inductive Wait where
  | join
  | gpin
  | bar (k : Nat) (lanes : List Nat)
  | barw (lanes : List (Nat × Nat))
  | evwait (sc : Scope) (d : Reg) (lanes : List LaneSrc) (met : FMap Nat)
  | waitv (entry : Nat)
  | ctxwait (sc : Scope) (d : Reg) (lanes : List LaneSrc)
  | ordhead (lanes : List Nat)
  | acwait (mask n : Nat) (lanes : List Nat)
  | gbar
  | ssync
  | psafe (pd : Nat) (lanes : List Nat)
  | mbox (sec : Bool) (d : Reg) (msg : DWord) (lanes : List Nat)
  | replay
  | queue (qs : List Nat) (m : Nat)
  deriving DecidableEq, Repr

/-- A fault record (R312). -/
structure FaultRec where
  addr : DWord
  detail : DWord
  deriving DecidableEq, Repr

/-- A recorded cause that is not delivered yet (R313, R314): the resume point of the handler. -/
structure Deliver where
  resumePc : Nat
  lanes : List Nat
  deriving DecidableEq, Repr

/-- An issue group (R98) with its cause state (R310 to R312). `lanes` lists its threads in rising home lane, `enterAt` is the cycle
at which its entry into the handler is complete (R314), and `paused` is the wait at GBAR, SSYNC or MBOX to which TRET returns (R313). -/
structure Group where
  core : Nat
  quarter : Nat
  block : Nat
  pc : Nat
  lanes : List Nat
  slot : Option Nat
  readyAt : Nat
  since : Nat
  oppsAt : Nat
  candidate : Bool
  yieldLeft : Nat
  wait : Option Wait
  causes : DWord
  masks : FMap Word
  faults : FMap FaultRec
  inHandler : Bool
  enterAt : Nat
  resumePc : Nat
  resumeMask : Word
  deliver : Option Deliver
  memHold : List MemHold
  paused : Option Wait
  deriving DecidableEq, Repr

/-- A bin (R102): its key, its threads, the cycle in which its oldest thread came, whether it has become a candidate, when each
thread came (time, and issue opportunities or turns), and what its threads bring with them from their groups (R36, R310, R314): the
stall bound, the cause and handler state and the holds on memory words; the other fields of `carry` mean nothing. -/
structure Bin where
  block : Nat
  pc : Nat
  threads : List Nat
  since : Nat
  candidate : Bool
  came : FMap (Nat × Nat)
  carry : Group
  deriving DecidableEq, Repr

/-- A sequencer (R104, R108, R133, R341). `lastIssue` is the cycle of its last issue, plus one; it issues nothing before it is over.
`grants` are the register reads that its last word took, as (cycle, number) (R134), and `words` counts the words that it has issued for
each tier in the present power interval (R358). -/
structure Seqr where
  opps : Nat
  slips : Nat
  wakeWait : Nat
  grantWait : Nat
  lastIssue : Nat
  frozen : Option Nat
  grants : List (Nat × Nat)
  words : FMap Nat
  deriving DecidableEq, Repr

/-- A cause met by one lane, with the fault address and SEALED subcode that its record holds. -/
structure LaneCause where
  thread : Nat
  cause : Nat
  addr : Nat
  sub : Nat
  deriving DecidableEq, Repr

/-- An operand-log entry (R191): the word, the sources that its remaining lanes read (so the pins), its active lanes and
those that have faulted. `queued` marks the lanes of a PUSH whose command has entered an engine queue, and the lanes of a
WAITV that have met their test. `replay` marks the replay of faulted lanes by TRET. `freed` marks an entry whose lanes have
passed every check: it has left the log (R191), and the word still waits to be performed; `since` is then the time of that. `age` is
the number of the word's issue, which entries split from it keep (R193), and `poolAt` one more than the time at which a write of it
first met a full overlay, 0 for none (R214). -/
structure LogEntry where
  seq : Nat
  block : Nat
  instr : Instr
  pc : Nat
  active : Word
  faulted : Word
  causes : List LaneCause
  lanes : List LaneSrc
  queued : List Nat
  replay : Bool
  freed : Bool
  since : Nat
  age : Nat
  poolAt : Nat
  deriving DecidableEq, Repr

/-- A scoreboard-tracked result on its way (R37). `drops` are the scratchpad banks, under 16 x core + bank, that it sets to a state
once the block's earlier accesses to them are over (R153). -/
structure Inflight where
  block : Nat
  origin : Nat
  writes : List RegWrite
  isLoad : Bool
  ready : Nat
  drops : List (Nat × QState)
  deriving DecidableEq, Repr

/-- A store, atomic or ACP fill that has not been acknowledged (R196, R237). -/
structure PendStore where
  block : Nat
  side : Nat
  tenant : Nat
  ctx : Nat
  lines : Nat
  deriving DecidableEq, Repr

/-- An asynchronous copy in flight (R201): the physical runs of its source bytes, its place in the core's scratchpad, the generation of
its context, the number of its word's issue, and the virtual address of its source. -/
structure AcpCopy where
  thread : Nat
  block : Nat
  ctx : Nat
  tag : Nat
  srcs : List (Nat × Nat)
  dst : Nat
  gen : Nat
  age : Nat
  vaddr : Nat
  deriving DecidableEq, Repr

/-- A line of an L1 (R183), with the physical line it holds. -/
structure L1Line where
  core : Nat
  vline : Nat
  tag : Nat
  tenant : Nat
  pline : Nat
  data : Line
  deriving DecidableEq, Repr

/-- A TLB entry (R184): the page-table entry's first dword under its tags. -/
structure TlbEntry where
  cluster : Nat
  page : Nat
  tenant : Nat
  pte : DWord
  deriving DecidableEq, Repr

/-- States of a context (Table 9-1); retired contexts keep their outcome (R210). -/
inductive CtxState where
  | retired | opened | settling | voiding
  deriving DecidableEq, Repr

/-- The words of a launch record, 32 dwords (R67). -/
abbrev RecWords := List DWord

/-- An engine command (R260) with its pusher, its context (R265) and its progress (R263): `entry` is the PUSH's log entry,
`heldDm1` marks a command that a settle has issued, `next` is the first element not done, `ended` the receipt to post, `owned` the
physical lines it owns as runs, `maps` the translations it took at acceptance, by virtual 4 KiB page, `accNo` its place in the order of
acceptance, `poolAt` one more than the time at which a write of it met a full overlay, 0 for none (R214), and `bad` the virtual line whose
reads stay uncorrectable, while such a fault is looked at (R266). -/
structure EngCmd where
  id : Nat
  kind : EngKind
  dwords : List DWord
  thread : Nat
  block : Nat
  ctx : Nat
  tenant : Nat
  world : Nat
  part : Nat
  entry : Nat
  heldDm1 : Bool
  accepted : Bool
  next : Nat
  new : Nat
  unplaced : Nat
  ended : Option (DWord × DWord)
  owned : List (Nat × Nat)
  maps : FMap DWord
  accNo : Nat
  poolAt : Nat
  bad : Option Nat
  deriving DecidableEq, Repr

/-- Held work of a context (R217). -/
inductive Held where
  | launch (words : RecWords) (q part tenant world tier : Nat)
  | evsig (n : Nat) (v : DWord)
  | red (op : AtomOp) (size : Nat) (e : Nat) (v : Nat) (thread tenant world : Nat) (ctx : Nat)
  | eng (c : EngCmd)
  deriving DecidableEq, Repr

/-- A context (R205). `merging` says that the release of its settle is made, so that its merges go on (R215). -/
structure Ctx where
  gen : Nat
  parent : Nat
  depth : Nat
  scope : Scope
  owner : Nat
  tenant : Nat
  part : Nat
  state : CtxState
  exposed : Bool
  held : List Held
  settled : Bool
  isBlock : Bool
  waitStores : Nat
  merging : Bool
  deriving DecidableEq, Repr

/-- A cell (R211). -/
structure Cell where
  data : Line
  mask : DWord
  deriving DecidableEq, Repr

/-- A request at the mint (R209): a CTXOPEN of a group, with the number of its issue, or the context of a block. -/
inductive MintReq where
  | open_ (group : Nat) (lanes : List Nat) (parent : Nat) (sc : Scope) (set : Bool) (pd : Option Nat) (d : Reg) (origin : Nat)
  | block (launch index : Nat)
  deriving DecidableEq, Repr

/-- The registers of a stream queue (Table 4-5), with why it stopped (R80): a failed check, or, with `launchStop`, a launch that ended with
FAULT or ABORTED. `last` is the launch of the last record that passed its check (R81). -/
structure StreamQ where
  enable : Bool
  devSub : Bool
  overlap : Bool
  notify : Bool
  stopped : Bool
  status : Nat
  part : Nat
  world : Nat
  cls : Nat
  base : Nat
  size : Nat
  head : Nat
  tail : Nat
  failedCheck : Bool
  skipMade : Bool
  last : Option Nat
  launchStop : Bool
  deriving DecidableEq, Repr

/-- A level of a launch record (Table 4-1). -/
structure Level where
  gang : Bool
  scope : Scope
  domain : Nat
  extent : Nat
  deriving DecidableEq, Repr

/-- A role of a launch record (Table 4-1). -/
structure Role where
  entry : Nat
  allot : Nat
  groups : Nat
  deriving DecidableEq, Repr

/-- A launch record as it was copied at its check (Table 4-1). -/
structure LRec where
  codeBase : Nat
  ticket : Nat
  tenant : Nat
  deadline : Nat
  world : Nat
  pref : Nat
  tier : Nat
  idem : Bool
  ctxPol : Bool
  dm : Nat
  il : Nat
  spad : Nat
  progress : Nat
  stride : Nat
  obquota : Nat
  privBase : Nat
  waitEn : Bool
  waitCtr : Nat
  threshold : DWord
  sigInc : Nat
  sigEn : Bool
  sigCtr : Nat
  status : Nat
  arg : DWord
  levels : List Level
  roles : List Role
  deriving DecidableEq, Repr

/-- States of a launch (R81, R82). -/
inductive LState where
  | checked | ready | complete
  deriving DecidableEq, Repr

/-- A launch that has passed its check. `prev` is the launch before it in its queue (R81), and `topSince` one more than the time since
which it has held the top rank while its gang waits for room, 0 while it does not (R88). -/
structure Launch where
  lrec : LRec
  queue : Nat
  part : Nat
  order : Nat
  prev : Option Nat
  state : LState
  readyAt : Nat
  noRoomSince : Nat
  nextBlock : Nat
  done : Nat
  head : Nat
  transient : Nat
  status : Nat
  ending : Bool
  gangRoom : Option Nat
  topSince : Nat
  deriving DecidableEq, Repr

/-- A queue register of a block (R275). `owed` counts the entries that a stream command took from the leader's side of a checked block
before this side pushed them. -/
structure QReg where
  entries : List DWord
  reserved : Nat
  binding : QBinding
  owed : Nat
  deriving DecidableEq, Repr

/-- A named barrier (R252). -/
structure Barrier where
  expected : Nat
  arrivals : Nat
  phase : Nat
  deriving DecidableEq, Repr

/-- A reservation record (Table 12-2). -/
structure Record where
  cbLoaded : Bool
  keyed : Option Nat
  fmt : ObFmt
  len : Nat
  scaleOff : Int
  size : Nat
  off : Nat
  codebook : BitVec 256
  deriving DecidableEq, Repr

/-- States of an MLOOP (R292, R296); an ended one stays until an MWAIT has covered it (R294). -/
inductive MState where
  | queued | running | stopped | ended
  deriving DecidableEq, Repr

/-- An MLOOP with its row progress (R292, R295). `kept` holds the delivered units of the rows below `rows`, `thread` its lane 0,
`spoiled` says that its tile was written before its end (R294), and `since` is the number of its issue. -/
structure MLoop where
  token : Nat
  desc : List DWord
  recA : Record
  recB : Record
  state : MState
  s : Nat
  rows : Nat
  kept : List Nat
  fault : Option LaneCause
  reported : Bool
  thread : Nat
  ctx : Nat
  spoiled : Bool
  since : Nat
  deriving DecidableEq, Repr

/-- Where a block is. -/
inductive Residence where
  | resident | saved | waiting | exited
  deriving DecidableEq, Repr

/-- An assay item (Table 13-5), of the leader (side 0) or the follower (side 1). `undo` holds the bytes that a leader's
store replaced, for the follower's own view (R327). -/
structure Item where
  side : Nat
  slot : Nat
  n : Nat
  kind : Nat
  pc : Nat
  addr : Nat
  data : Nat
  extra : Nat
  size : Nat
  ctx : Nat
  undo : List (Nat × Nat)
  since : Nat
  deriving DecidableEq, Repr

/-- The image of a saved block (R319): its size in the save area, its scratchpad bytes by offset, the states of the banks they
lay in as (offset, length, state), its tiles by local offset, its bins, and its operand-buffer bytes with the ranges whose bytes have no
layout of the manual's. The threads, groups, bins, log entries and the like of a saved block stay in the tables of the state,
under the slots of a core number that no core has (log 34). `opens` are the CTXOPEN requests that waited at the mint, which are made anew
after the restore (R222). -/
structure Image where
  size : Nat
  spad : FMap Byte
  banks : List (Nat × Nat × QState)
  tiles : FMap Byte
  bins : List Bin
  ob : FMap Byte
  obDirty : List (Nat × Nat)
  opens : List MintReq
  deriving DecidableEq, Repr

/-- What one side of a block holds (R326): its queue registers, barriers, trap state, matrix state and DM2 rotation. A
block that runs on one core has one side. -/
structure BSide where
  queues : List QReg
  barriers : FMap Barrier
  trapMask : DWord
  tvec : Nat
  token : Nat
  mloops : List MLoop
  records : FMap Record
  tiles : List Nat
  rotation : Nat
  turns : Nat
  retired : Nat
  deriving DecidableEq, Repr

/-- A block. `ran` counts the cycles that it was resident before its last dispatch or restore, `going` says that its issue has
stopped for a pre-emption, and `exchange` names the saved block that is to get its room (R93). `overrun` counts the cycles of its
continuous overrun of a schedule entry of `overLen` cycles (R322). -/
structure Block where
  launch : Nat
  index : Nat
  core : Nat
  follower : Option Nat
  gslots : List Nat
  spadAt : Nat
  obAt : Nat
  home : Nat
  ctx : Nat
  residence : Residence
  dispatchedAt : Nat
  waitingSince : Nat
  lead : BSide
  follow : BSide
  notice : Bool
  noticeAt : Nat
  chosen : Nat
  chosenAt : Nat
  ran : Nat
  going : Bool
  exchange : Option Nat
  overrun : Nat
  overLen : Nat
  rerun : Bool
  ownRerun : Bool
  items : List Item
  itemNo : FMap Nat
  matched : Nat
  gbarIn : List Nat
  ssyncIn : List Nat
  image : Option Image
  deriving DecidableEq, Repr

/-- Partition registers (Table 14-2) and partition system registers (Table 13-11). -/
structure PartRegs where
  peng : Nat
  pmint : Nat
  pevt : Nat
  ppoolbase : Nat
  ppoolsize : Nat
  psavebase : Nat
  psavesize : Nat
  noticewin : Nat
  drainth : Nat
  deriving DecidableEq, Repr

/-- The pairing state of a slice (R325): the request bits, the state read at [9:8], and the step of a change. -/
structure PairCtl where
  req : Bool
  auto : Bool
  state : Nat
  toPaired : Bool
  step : Nat
  stepAt : Nat
  deriving DecidableEq, Repr

/-- The rail and clock of a cluster (R18, R393). -/
structure Rail where
  high : Bool
  clk : Nat
  at_ : Nat
  holdUntil : Nat
  changing : Bool
  deriving DecidableEq, Repr

/-- A secure stream (R364, R366). -/
structure Stream where
  state : Nat
  owner : Nat
  ifs : List Nat
  reason : Nat
  deriving DecidableEq, Repr

/-- A weight-key slot (R371). -/
structure KeySlot where
  key : BitVec 256
  world : Nat
  tenant : Nat
  deriving DecidableEq, Repr

/-- The security controller (R363 to R377). A message of the queue comes from the host (0), or from group g on core n
(64 x (g + 1) + n + 1); replies to groups are kept under g + 1. The keys of the
network-on-chip are held by world, and the counters of its flows by flow number (R361). -/
structure Sec where
  queue : List (Nat × DWord)
  hostMsg : DWord
  hostReply : DWord
  hostReplyValid : Bool
  hostBusy : Bool
  spdmctl : DWord
  spdmLen : Nat
  spdmValid : Bool
  spdmBusy : Bool
  spdmOrder : Nat
  replies : FMap DWord
  streams : FMap Stream
  keys : FMap KeySlot
  linkSecret : Option (BitVec 256)
  linkKeys : FMap (BitVec 256)
  meas : FMap (BitVec 384)
  bootStep : Nat
  bootFailed : Bool
  nocKeys : FMap (BitVec 256)
  nocCounters : FMap DWord
  deriving DecidableEq, Repr

/-- A link port (Table 15-6, R385), with the port number and the identity digest of the peer that it was trained with (R377). -/
structure Link where
  enable : Bool
  state : Nat
  replayed : Nat
  wbase : Nat
  wsize : Nat
  expected : Nat
  acked : Nat
  sent : Nat
  replays : Nat
  waitReplay : Bool
  rxCounter : Nat
  txCounter : Nat
  lastAck : Nat
  peerPort : Nat
  peerDigest : BitVec 384
  deriving DecidableEq, Repr

/-- The host event ring (Table 15-2, R383). -/
structure EvRing where
  overflow : Bool
  irq : Bool
  enable : Bool
  base : Nat
  size : Nat
  head : Nat
  tail : Nat
  lost : Nat
  seq : Nat
  irqRaised : Nat
  deriving DecidableEq, Repr

/-- The low-rail controller (Table 15-10, R392, R393). `lastUncorr` and `raiseAt` are one more than the time of the last uncorrectable
error and of the first error of a raise, 0 for none; `counts` are the correctable and uncorrectable errors of each cluster, and
`checkedAt` is when the last interval of R392 ended. -/
structure LowRail where
  held : Bool
  auto : Bool
  ceiling : Nat
  floor : Nat
  setpoint : Nat
  thresh : Nat
  lastUncorr : Nat
  raiseAt : Nat
  counts : FMap (Nat × Nat)
  checkedAt : Nat
  deriving DecidableEq, Repr

/-- Configuration registers of firmware and the host (R186, R321, R347 to R357, R389). -/
structure CfgRegs where
  playout : Nat
  cfgerr : Nat
  parts : FMap PartRegs
  tenants : FMap DWord
  qown : FMap DWord
  xlroot : FMap DWord
  sched : FMap DWord
  hostacct : DWord
  pcap : Nat
  floors : FMap Nat
  dramcfg : Nat
  drammode : FMap Nat
  cellsel : DWord
  deriving DecidableEq, Repr

/-- A mismatch record (Table 13-6). -/
structure Mismatch where
  d0 : DWord
  d1 : DWord
  d2 : DWord
  d3 : DWord
  deriving DecidableEq, Repr

/-- A move of the agenda: an event of the device, an issue opportunity of a sequencer, or the passing of time. -/
inductive Move where
  | event (i : Instr)
  | issue (seq : Nat)
  | tick (dt : Nat)
  deriving DecidableEq, Repr

/-- The device. `spend` holds the charge units of an account in a channel group in this window, under 16 x account + group, account
256 being the host's, and `dramBudgets` the budgets that this window began with, 2^14 more for a guaranteed one (R352, R355);
`windowAt`, `modeAt` and `powerAt` are when the window began, a group's report was read last and the power was measured last (R354,
R390, R358). `assayed` holds the causes of the group slots whose groups a mismatch ended, under 32 x sequencer + slot (R331). -/
structure State where
  now : Nat
  agenda : List Move
  cur : Option Nat
  freeCtr : Nat
  nextId : Nat
  rotation : Nat
  threads : FMap Thread
  groups : FMap Group
  bins : FMap Bin
  seqs : FMap Seqr
  opLog : FMap LogEntry
  inflight : FMap Inflight
  pendStores : FMap PendStore
  drain : FMap Nat
  acps : FMap AcpCopy
  spadBanks : FMap QState
  spadWakes : FMap Nat
  l1 : List L1Line
  tlb : List TlbEntry
  icache : FMap Line
  icinv : Bool
  iprefInv : FMap (List Nat × List (Nat × Nat))
  xlinv : List DWord
  abortBusy : Bool
  mqueue : FMap (List (Nat × Nat))
  schedPos : FMap (Nat × Nat × Nat)
  schedOff : FMap Nat
  debt : FMap Nat
  mem : FMap Byte
  obDirty : List (Nat × Nat)
  cells : FMap Cell
  ctxs : FMap Ctx
  mintQ : FMap (List MintReq)
  teller : DWord
  sqs : FMap StreamQ
  submits : FMap (Nat × Nat × Nat)
  launches : FMap Launch
  counters : FMap DWord
  blocks : FMap Block
  engines : FMap (List EngCmd)
  cfg : CfgRegs
  spend : FMap Nat
  windowAt : Nat
  dramBudgets : FMap Nat
  modeAt : FMap Nat
  budgets : FMap Nat
  pairs : FMap PairCtl
  mismatches : List Mismatch
  mmSeq : Nat
  assayed : FMap DWord
  transient : FMap Nat
  inbox : FMap (List (DWord × DWord))
  sec : Sec
  evr : EvRing
  links : FMap Link
  rails : FMap Rail
  lowRail : LowRail
  junction : FMap Nat
  demand : FMap Nat
  powerAt : Nat
  hostReply : Option (List Byte)
  hostBusErr : Bool
  peerReply : Option (List Byte)
  deriving DecidableEq, Repr

/-- A sequencer at reset. -/
def Seqr.init : Seqr := ⟨0, 0, 0, 0, 0, none, [], []⟩
/-- A stream queue at reset: disabled (R394). -/
def StreamQ.init : StreamQ := ⟨false, false, false, false, false, 0, 0, 0, 0, 0, 0, 0, 0, false, false, none, false⟩
/-- Partition registers at reset: Table 14-2 reads zero (R349); NOTICEWIN and DRAINTH as Table 13-11. -/
def PartRegs.init : PartRegs := ⟨0, 0, 0, 0, 0, 0, 0, 4096, 16384⟩
/-- PAIRCTL at reset: reads 0 (R394). -/
def PairCtl.init : PairCtl := ⟨false, false, 0, false, 0, 0⟩
/-- A cluster at reset: on the high rail (R394). -/
def Rail.init : Rail := ⟨true, 0, 0, 0, false⟩
/-- A secure stream at reset: UNLOCKED with an empty set. -/
def Stream.init : Stream := ⟨0, 0, [], 0⟩
/-- A link port at reset: down and disabled. -/
def Link.init : Link := ⟨false, 0, 0, 0, 0, 0, 0, 0, 0, false, 0, 0, 0, 0, 0⟩
/-- The SEC at reset: no message, no stream, no key, every measurement zero (R375, R394). -/
def Sec.init : Sec := ⟨[], 0, 0, false, false, 0, 0, false, false, 0, [], [], [], none, [], [], 0, false, [], []⟩
/-- The event ring at reset: disabled (R394). -/
def EvRing.init : EvRing := ⟨false, false, false, 0, 0, 0, 0, 0, 0, 0⟩
/-- The low-rail controller at reset (Table 15-10). -/
def LowRail.init : LowRail := ⟨false, true, 700, 560, 620, 16, 0, 0, [], 0⟩
/-- Configuration at reset: PLAYOUT 0, every quarter unowned (R394), PCAP 1,200, floors 0 (R357). -/
def CfgRegs.init : CfgRegs := ⟨0, 0, [], [], [], [], [], 0, 1200, [], 0, [], 0⟩
/-- An empty, unbound queue register (R75). -/
def QReg.init : QReg := ⟨[], 0, .none, 0⟩
/-- A barrier before its first phase (R252). -/
def Barrier.init : Barrier := ⟨0, 0, 0⟩
/-- A side of a block at dispatch (R75, R311, R313, R292): queues empty and unbound, maskable trap bits 0, no handler. -/
def BSide.init : BSide := ⟨List.replicate 8 QReg.init, [], 0, 0, 0, [], [], [], 0, 0, 0⟩

/-- The device right after a cold reset (R394). -/
def State.reset : State where
  now := 0
  agenda := []
  cur := none
  freeCtr := 0
  nextId := 0
  rotation := 0
  threads := []
  groups := []
  bins := []
  seqs := []
  opLog := []
  inflight := []
  pendStores := []
  drain := []
  acps := []
  spadBanks := []
  spadWakes := []
  l1 := []
  tlb := []
  icache := []
  icinv := false
  iprefInv := []
  xlinv := []
  abortBusy := false
  mqueue := []
  schedPos := []
  schedOff := []
  debt := []
  mem := []
  obDirty := []
  cells := []
  ctxs := []
  mintQ := []
  teller := 0
  sqs := []
  submits := []
  launches := []
  counters := []
  blocks := []
  engines := []
  cfg := CfgRegs.init
  spend := []
  windowAt := 0
  dramBudgets := []
  modeAt := []
  budgets := []
  pairs := []
  mismatches := []
  mmSeq := 0
  assayed := []
  transient := []
  inbox := []
  sec := Sec.init
  evr := EvRing.init
  links := []
  rails := []
  lowRail := LowRail.init
  junction := []
  demand := []
  powerAt := 0
  hostReply := none
  hostBusErr := false
  peerReply := none

end Machine
end Sys2Proof
end

