-- ==== Sys2Proof/WellFormed.lean ====
section
/-!
DEFINITION. Which instructions the encoding admits (R26 to R32, R44 and the rules beside each encoding table): the
registers that a word names, in the order D, A, B, C, and the checks that its operands must pass. A word whose operands
fail a check is not an instruction (R50).
-/

namespace Sys2Proof

/-- A register operand of a word: its first register, how many registers it spans, whether they are read or written, and
whether a queue register may stand there (R29). -/
structure Use where
  r : Reg
  n : Nat
  rd : Bool
  wr : Bool
  q : Bool
  deriving DecidableEq, Repr

/-- A source of `n` registers. -/
def Use.src (r : Reg) (n : Nat := 1) (q : Bool := true) : Use := ⟨r, n, true, false, q⟩
/-- A destination of `n` registers. -/
def Use.dst (r : Reg) (n : Nat := 1) (q : Bool := true) : Use := ⟨r, n, false, true, q⟩

/-- The register of a B source, if it is one. -/
def Src.uses (b : Src) (n : Nat := 1) (q : Bool := true) : List Use :=
  match b with
  | .reg r => [Use.src r n q]
  | .imm _ => []

/-- A B source is an immediate. -/
def Src.isImm : Src → Bool
  | .reg _ => false
  | .imm _ => true

/-- The number of registers of data of an access size (R194, R28). -/
def Size.regs : Size → Nat
  | .b8 | .b16 | .b32 => 1
  | .b64 => 2
  | .b128 => 4

/-- The number of bytes of an access size. -/
def Size.bytes : Size → Nat
  | .b8 => 1
  | .b16 => 2
  | .b32 => 4
  | .b64 => 8
  | .b128 => 16

/-- The number of registers that an LDCB writes (R197). -/
def CbLen.regs : CbLen → Nat
  | .l4 => 1
  | .l8 => 2
  | .l16 => 4

/-- A CVT type is an integer type (R163). -/
def CvtType.isInt : CvtType → Bool
  | .f32 | .f16 | .bf16 => false
  | _ => true

/-- The number of registers of a CVT type. -/
def CvtType.regs : CvtType → Nat
  | .s64 | .z64 => 2
  | _ => 1

/-- The registers of a select field (R116). -/
def Sel.uses (s : Sel) (write : Bool) : List Use :=
  match s with
  | .stack => []
  | .link n => [⟨.v n, 2, !write, write, false⟩]

/-- The registers of a barrier operand (R247). -/
def BarArg.uses : BarArg → List Use
  | .imm _ _ => []
  | .reg r => [Use.src r 1 false]

/-- Reads its DA (Table 2-8). -/
def PairOp.readsDA : PairOp → Bool
  | .mov | .cvtF32S32 => false
  | _ => true

/-- Carries a rounding mode (Table 2-8). -/
def PairOp.rounds : PairOp → Bool
  | .fadd | .fsub | .fmul | .faddH2 | .fmulH2 | .cvtF32S32 => true
  | _ => false

/-- The register of the B operand of a pair slot. -/
def PairSrc.uses : PairSrc → List Use
  | .reg r => [Use.src r 1 false]
  | .imm _ => []

/-- The registers of a pair slot. -/
def PairSlot.uses : PairSlot → List Use
  | .nop => []
  | .op o da b _ => ⟨da, 1, o.readsDA, true, false⟩ :: b.uses

/-- The register operands of a word, in field order (Tables 4-6, 5-5, 6-5, 6-8, 7-6, 8-10, 9-3, 10-4, 11-12, 12-7, 13-9). -/
def Instr.uses : Instr → List Use
  | .nop _ => []
  | .mov _ d b => Use.dst d :: b.uses
  | .movhi _ d a _ => [Use.dst d, Use.src a]
  | .iadd _ d a b | .isub _ d a b | .iadds _ _ d a b | .isubs _ _ d a b | .imul _ d a b | .imulh _ _ d a b
  | .lea _ _ d a b | .imin _ _ d a b | .imax _ _ d a b | .iand _ d a b | .ior _ d a b | .ixor _ d a b | .shl _ d a b
  | .shr _ _ d a b | .rot _ d a b | .bfe _ _ d a b | .hash32 _ d a b | .shfl _ _ d a b =>
    Use.dst d :: Use.src a :: b.uses
  | .imad _ d a b c | .bmux _ _ _ d a b c | .shf _ _ d a b c | .bfi _ d a b c | .prmt _ d a b c =>
    [Use.dst d, Use.src a, Use.src b, Use.src c]
  | .imadw _ _ d a b c => [Use.dst d 2, Use.src a, Use.src b, Use.src c 2]
  | .iadd64 _ d a b | .isub64 _ d a b | .imul64 _ d a b => Use.dst d 2 :: Use.src a 2 :: b.uses 2
  | .lea64 _ _ _ d a b => Use.dst d 2 :: Use.src a 2 :: b.uses
  | .iabs _ d a | .popc _ d a | .clz _ d a | .brev _ d a => [Use.dst d, Use.src a]
  | .isetp _ _ _ _ _ _ a b => Use.src a :: b.uses
  | .isetp64 _ _ _ _ _ _ a b => Use.src a 2 :: b.uses 2
  | .iset _ _ _ d a b | .sel _ _ d a b => [Use.dst d, Use.src a, Use.src b]
  | .pset _ _ _ _ _ => []
  | .p2v _ d | .vote _ _ _ d => [Use.dst d]
  | .v2p _ _ a => [Use.src a]
  | .s2v _ sr d => [Use.dst d (if sr.val = 17 ∨ sr.val = 18 then 2 else 1)]
  | .v2s _ a => [Use.src a 2]
  | .mov64 _ d b => Use.dst d 2 :: b.uses 2
  | .fadd _ _ _ d a b | .fsub _ _ _ d a b | .fmul _ _ _ d a b | .fmin _ _ d a b | .fmax _ _ d a b
  | .fscale _ _ d a b => Use.dst d :: Use.src a :: b.uses
  | .ffma _ _ _ d a b c | .fdot2 _ _ _ d a b c | .fmed3 _ _ d a b c => [Use.dst d, Use.src a, Use.src b, Use.src c]
  | .fsetp _ _ _ _ _ a b => Use.src a :: b.uses
  | .fset _ _ _ d a b | .cvtpk _ _ _ d a b => [Use.dst d, Use.src a, Use.src b]
  | .fclass _ _ d a | .frcp _ d a | .frsq _ d a | .fsqrt _ _ d a | .fexp2 _ d a | .flog2 _ d a | .fsin _ d a
  | .fcos _ d a | .ftanh _ d a | .frnd _ _ d a => [Use.dst d, Use.src a]
  | .cvt _ dst src _ d a => [Use.dst d dst.regs, Use.src a src.regs]
  | .cbenc _ d a cb c | .cbdec _ _ d a cb c => [Use.dst d, Use.src a, Use.src (.v cb) 8 false, Use.src c]
  | .bra _ _ | .brd _ _ => []
  | .brx _ a => [Use.src a 2 false]
  | .call _ s _ => s.uses true
  | .callx _ s a => s.uses true ++ [Use.src a 2 false]
  | .ret _ s | .reform _ s => s.uses false
  | .land _ | .gpin _ | .gfree _ | .exit _ | .yield _ _ | .nopw _ _ => []
  | .bloop _ a _ => [⟨a, 1, true, true, false⟩]
  | .ipref _ (some _) _ _ => []
  | .ipref _ none a b | .iprefInv _ a b => [Use.src a 2 false, Use.src b 1 false]
  | .launch _ d a b => Use.dst d :: Use.src a 2 :: b.uses
  | .evwait _ _ d a b => Use.dst d 2 :: Use.src a :: b.uses 2
  | .evsig _ _ a b => Use.src a :: b.uses 2
  | .ld _ size _ _ d a b _ | .ldk _ size _ d a b _ =>
    Use.dst d size.regs (size != .b128) :: Use.src a 2 false :: b.uses 1 false
  | .ldl _ size _ _ d a b _ | .lds _ size _ d a b _ =>
    Use.dst d size.regs (size != .b128) :: Use.src a 1 false :: b.uses 1 false
  | .st _ size _ d a b _ => Use.src d size.regs false :: Use.src a 2 false :: b.uses 1 false
  | .stl _ size _ d a b _ | .sts _ size d a b _ => Use.src d size.regs false :: Use.src a 1 false :: b.uses 1 false
  | .ldw _ d a _ => [Use.dst d 2, Use.src a 2 false]
  | .stw _ d a _ => [Use.src d 2 false, Use.src a 2 false]
  | .pref _ _ a b | .cctl _ _ a b => Use.src a 2 :: b.uses
  | .acp _ _ _ d a b => Use.src d 1 false :: Use.src a 2 false :: b.uses 1 false
  | .acwait _ _ _ => []
  | .acqry _ d => [Use.dst d 2]
  | .ldcb _ len d a b => Use.dst d len.regs (len == .l4) :: Use.src a 2 false :: b.uses 1 false
  | .xlq _ d a b => Use.dst d 2 :: Use.src a 2 :: b.uses
  | .amo _ _ size _ _ d a b | .waitv _ _ _ size _ d a b =>
    [Use.dst d size.regs false, Use.src a 2 false, Use.src b size.regs false]
  | .cas _ size _ _ d a b c =>
    [Use.dst d size.regs false, Use.src a 2 false, Use.src b size.regs false, Use.src c size.regs false]
  | .red _ _ size _ _ a b => [Use.src a 2 false, Use.src b size.regs false]
  | .fence _ _ _ | .gbar _ | .ssync _ | .ordhead _ => []
  | .bar _ g | .bara _ g | .barw _ g => g.uses
  | .ctxopen _ _ _ _ d => [Use.dst d 1 false]
  | .ctxset _ a | .ctxsettle _ a | .ctxvoid _ a => [Use.src a 1 false]
  | .ctxq _ d a => [Use.dst d 2 false, Use.src a 1 false]
  | .ldcx _ size _ d a b c => [Use.dst d size.regs false, Use.src a 2 false, Use.src b 1 false, Use.src c 1 false]
  | .ctxwait _ _ d a => [Use.dst d 1 false, Use.src a 1 false]
  | .obres _ _ _ _ a b => [Use.src a 1 false, Use.src b 1 false]
  | .obset _ _ b => b.uses 1 false
  | .obfree _ _ => []
  | .cbld _ _ cb => [Use.src (.v cb) 8 false]
  | .mloop _ d desc => [Use.dst d 1 false, Use.src (.v desc) 16 false]
  | .mwait _ a => [Use.src a 1 false]
  | .mzero _ _ => []
  | .accld _ _ a b | .accst _ _ a b => Use.src a 2 false :: b.uses 1 false
  | .mrd _ d _ b => Use.dst d 1 false :: b.uses 1 false
  | .mout _ _ _ _ a b => [Use.src a 2 false, Use.src b 1 false]
  | .mprog _ d a => [Use.dst d 2 false, Use.src a 1 false]
  | .keybind _ _ a => [Use.src a 1 false]
  | .push _ _ _ cmd => [Use.src (.v cmd) 16 false]
  | .qbind _ _ _ => []
  | .qpeek _ d _ b => Use.dst d 2 false :: b.uses 1 false
  | .qcnt _ d _ | .qdrain _ d _ => [Use.dst d 1 false]
  | .bkqry _ d => [Use.dst d 2]
  | .bkwake _ _ | .bkdrop _ _ _ => []
  | .spwake _ d b | .spdrop _ d b => Use.dst d :: b.uses
  | .trap _ _ | .tret _ | .brk _ _ | .psafe _ _ | .halt _ => []
  | .tclr _ a => [Use.src a 2 false]
  | .trd _ d b | .ologq _ d b | .sysrd _ d b | .cntrd _ d b => Use.dst d 2 false :: b.uses 1 false
  | .tmask _ d a b => [Use.dst d 2 false, Use.src a 2 false, Use.src b 2 false]
  | .syswr _ a b => Use.src a 2 false :: b.uses 1 false
  | .ilq _ d => [Use.dst d 2 false]
  | .mbox _ _ d a => [Use.dst d 2 false, Use.src a 2 false]
  | .pairWord _ _ s0 s1 => s0.uses ++ s1.uses
  | _ => []

/-- The number of a queue register, if the register is one. -/
def Reg.queue? : Reg → Option Nat
  | .q k => some k.val
  | _ => none

/-- The register lies at a multiple of what its operand spans (R28, R163, R194, R277, R300). -/
def Use.aligned (u : Use) : Bool :=
  match u.r with
  | .v k => k.val % u.n == 0
  | _ => true

/-- A queue register stands only where the entry allows one (R29). -/
def Use.queueOk (u : Use) : Bool := u.q || u.r.queue?.isNone

/-- The queue registers named in source fields. -/
def srcQueues (l : List Use) : List Nat := l.filterMap fun u => if u.rd then u.r.queue? else none

/-- No queue register stands in two source fields (R29). -/
def queuesOnce (l : List Use) : Bool := decide (srcQueues l).Nodup

/-- The one setting of the modifiers that an immediate form takes (R27, and the defaults of each table). -/
def Instr.immDefault : Instr → Bool
  | .iadds _ sg _ _ b | .isubs _ sg _ _ b | .imulh _ sg _ _ b | .imin _ sg _ _ b | .imax _ sg _ _ b => !b.isImm || sg
  | .shr _ sg _ _ b | .bfe _ sg _ _ b => !b.isImm || !sg
  | .lea _ n _ _ b => !b.isImm || n == 2
  | .lea64 _ n sg _ _ b => !b.isImm || (n == 2 && sg)
  | .isetp _ _ _ op _ _ _ b | .isetp64 _ _ _ op _ _ _ b | .fsetp _ _ op _ _ _ b => !b.isImm || op == .none
  | .fadd _ fmt rnd _ _ b | .fsub _ fmt rnd _ _ b | .fmul _ fmt rnd _ _ b => !b.isImm || (fmt == .f32 && rnd == .rn)
  | .fmin _ fmt _ _ b | .fmax _ fmt _ _ b => !b.isImm || fmt == .f32
  | .fscale _ rnd _ _ b => !b.isImm || rnd == .rn
  | .evwait _ sc _ _ b | .evsig _ sc _ b => !b.isImm || sc == .dev
  | .ld _ size sg hint _ _ b disp | .ldl _ size sg hint _ _ b disp =>
    !b.isImm || (size == .b32 && !sg && hint == .ca && disp == 0)
  | .lds _ size sg _ _ b disp => !b.isImm || (size == .b32 && !sg && disp == 0)
  | .st _ size hint _ _ b disp | .stl _ size hint _ _ b disp | .ldk _ size hint _ _ b disp =>
    !b.isImm || (size == .b32 && hint == .ca && disp == 0)
  | .sts _ size _ _ b disp => !b.isImm || (size == .b32 && disp == 0)
  | .pref _ hint _ b => !b.isImm || hint == .ca
  | .cctl _ op _ b => !b.isImm || op == .ivl
  | .acp _ tag hint _ _ b => !b.isImm || (tag == 0 && hint == .ca)
  | .ldcb _ len _ _ b => !b.isImm || len == .l4
  | .shfl _ _ _ _ (.imm c) => c.val < 32
  | _ => true

/-- The codes that the entry of each form allows (R94, R143, R163, R194, R203, R221, R247, R300). -/
def Instr.codesOk : Instr → Bool
  | .isetp _ _ _ op p _ _ _ | .isetp64 _ _ _ op p _ _ _ | .fsetp _ _ op p _ _ _ =>
    op != .none || (p.k == 0 && !p.neg)
  | .fadd _ fmt _ _ _ _ | .fsub _ fmt _ _ _ _ | .fmul _ fmt _ _ _ _ | .ffma _ fmt _ _ _ _ _ | .fmin _ fmt _ _ _
  | .fmax _ fmt _ _ _ | .fset _ _ fmt _ _ _ | .fmed3 _ fmt _ _ _ _ => fmt == .f32 || fmt == .h2 || fmt == .bh2
  | .fclass _ fmt _ _ => fmt == .f32 || fmt == .f16 || fmt == .bf16
  | .fdot2 _ fmt _ _ _ _ _ | .cvtpk _ fmt _ _ _ _ => fmt == .h2 || fmt == .bh2
  | .cvt _ dst src _ _ _ => dst != src && !(dst.isInt && src.isInt)
  | .evwait _ sc _ _ _ | .evsig _ sc _ _ => sc == .dev || sc == .sys
  | .ldk _ size _ _ _ _ _ => size == .b32 || size == .b64 || size == .b128
  | .acwait _ mask _ => mask != 0
  | .amo _ op size _ _ _ _ _ =>
    (size == .b32 || size == .b64) &&
      !(size == .b64 && (op == .fadd || op == .faddH2 || op == .faddBh2 || op == .fmin || op == .fmax))
  | .red _ op size ord _ _ _ =>
    (size == .b32 || size == .b64) && (ord == .rlx || ord == .rel) &&
      !(size == .b64 && (op == .fadd || op == .faddH2 || op == .faddBh2 || op == .fmin || op == .fmax))
  | .cas _ size _ _ _ _ _ _ | .waitv _ _ _ size _ _ _ _ => size == .b32 || size == .b64
  | .fence _ ord _ => ord != .rlx
  | .bar _ (.imm _ c) | .bara _ (.imm _ c) => c.val ≤ 1024
  | .barw _ (.imm _ c) => c == 0
  | .ldcx _ size _ _ _ _ _ => size != .b128
  | .obres _ fmt len _ _ _ => fmt != .bf16 || len == 0
  | .mout _ fmt _ r _ _ => fmt == .c4e8 || r == 0
  | .ipref _ (some _) a b => a == .v 0 && b == .v 0
  | _ => true

/-- The register operands of the word lie as R28 and the tables require. -/
def Instr.aligned (i : Instr) : Bool := i.uses.all Use.aligned

/-- The registers of a pair word in one quarter, counted as R44 rule 2 counts them. -/
def quarterCount (l : List Use) (q : Nat) : Nat :=
  (l.filter fun u => match u.r with
    | .v n => n.val / 64 == q
    | _ => false).length

/-- The DA of a slot that is not NOP. -/
def PairSlot.dest? : PairSlot → Option Reg
  | .nop => none
  | .op _ da _ _ => some da

/-- Rule 1 of R44. -/
def pairDests (s0 s1 : PairSlot) : Bool :=
  match s0.dest?, s1.dest? with
  | some a, some b => a != b || a == .zero
  | _, _ => true

/-- The rules of R44. -/
def pairRules (s0 s1 : PairSlot) : Bool :=
  let l := s0.uses ++ s1.uses
  pairDests s0 s1 && (upFrom 0 4).all (fun q => quarterCount l q ≤ 2) && l.all fun u => u.r.queue?.isNone

/-- A slot without a rounding mode carries code 0 (Table 2-8). -/
def PairSlot.roundOk : PairSlot → Bool
  | .nop => true
  | .op o _ _ rnd => o.rounds || rnd == .rn

/-- One more than the highest register number that the word names (R30). -/
def topReg (l : List Use) : Nat :=
  l.foldl (fun t u => match u.r with
    | .v k => max t (k.val + u.n)
    | _ => t) 0

/-- The first check that a word fails, if any. -/
def Instr.wfErr (i : Instr) : Option DecodeError :=
  match i with
  | .pairWord _ _ s0 s1 =>
    if !(s0.roundOk && s1.roundOk) then some .unusedNonzero
    else if !pairRules s0 s1 then some (.pairRule (topReg (s0.uses ++ s1.uses)))
    else none
  | _ =>
    if !i.immDefault then some .unusedNonzero
    else if !i.codesOk then some .reservedCode
    else if !i.aligned then some .oddRegister
    else if !i.uses.all Use.queueOk then some .queueRegister
    else if !queuesOnce i.uses then some .queueTwice
    else none

/-- A full word. -/
def Instr.isFull : Instr → Bool
  | .nop _ | .mov .. | .movhi .. | .iadd .. | .isub .. | .iadds .. | .isubs .. | .imul .. | .imulh .. | .imad ..
  | .imadw .. | .iadd64 .. | .isub64 .. | .lea .. | .lea64 .. | .imin .. | .imax .. | .iabs .. | .iand .. | .ior ..
  | .ixor .. | .bmux .. | .shl .. | .shr .. | .shf .. | .rot .. | .popc .. | .clz .. | .brev .. | .bfe .. | .bfi ..
  | .prmt .. | .isetp .. | .isetp64 .. | .iset .. | .sel .. | .pset .. | .p2v .. | .v2p .. | .hash32 .. | .shfl ..
  | .vote .. | .s2v .. | .v2s .. | .imul64 .. | .mov64 .. => true
  | .fadd .. | .fsub .. | .fmul .. | .ffma .. | .fmin .. | .fmax .. | .fsetp .. | .fset .. | .fclass .. | .frcp ..
  | .frsq .. | .fsqrt .. | .fexp2 .. | .flog2 .. | .fsin .. | .fcos .. | .ftanh .. | .fscale .. | .frnd .. | .fdot2 ..
  | .fmed3 .. | .cvt .. | .cvtpk .. | .cbenc .. | .cbdec .. => true
  | .bra .. | .brd .. | .brx .. | .call .. | .callx .. | .ret .. | .land .. | .reform .. | .gpin .. | .gfree ..
  | .exit .. | .yield .. | .bloop .. | .ipref .. | .iprefInv .. | .launch .. | .evwait .. | .evsig .. | .nopw .. => true
  | .ld .. | .st .. | .lds .. | .sts .. | .ldl .. | .stl .. | .ldw .. | .stw .. | .ldk .. | .pref .. | .cctl ..
  | .acp .. | .acwait .. | .acqry .. | .ldcb .. | .xlq .. => true
  | .amo .. | .cas .. | .red .. | .fence .. | .bar .. | .bara .. | .barw .. | .gbar .. | .ssync .. | .waitv ..
  | .ctxopen .. | .ctxset .. | .ctxsettle .. | .ctxvoid .. | .ctxq .. | .ldcx .. | .ctxwait .. | .ordhead .. => true
  | .obres .. | .obset .. | .obfree .. | .cbld .. | .mloop .. | .mwait .. | .mzero .. | .accld .. | .accst ..
  | .mrd .. | .mout .. | .mprog .. | .keybind .. => true
  | .push .. | .qbind .. | .qpeek .. | .qcnt .. | .qdrain .. | .bkqry .. | .bkwake .. | .bkdrop .. | .spwake ..
  | .spdrop .. => true
  | .trap .. | .tret .. | .tclr .. | .trd .. | .tmask .. | .ologq .. | .brk .. | .sysrd .. | .syswr .. | .cntrd ..
  | .psafe .. | .ilq .. | .halt .. | .mbox .. => true
  | _ => false

/-- The header of a word: stall count, guard and hint (R25); a pair word has a guard that is not negated and no hint (R43). -/
def Instr.hdr : Instr → Hdr
  | .nop h .. | .mov h .. | .movhi h .. | .iadd h .. | .isub h .. | .iadds h .. | .isubs h .. | .imul h ..
  | .imulh h .. | .imad h .. | .imadw h .. | .iadd64 h .. | .isub64 h .. | .lea h .. | .lea64 h .. | .imin h ..
  | .imax h .. | .iabs h .. | .iand h .. | .ior h .. | .ixor h .. | .bmux h .. | .shl h .. | .shr h ..
  | .shf h .. | .rot h .. | .popc h .. | .clz h .. | .brev h .. | .bfe h .. | .bfi h .. | .prmt h ..
  | .isetp h .. | .isetp64 h .. | .iset h .. | .sel h .. | .pset h .. | .p2v h .. | .v2p h .. | .hash32 h ..
  | .shfl h .. | .vote h .. | .s2v h .. | .v2s h .. | .imul64 h .. | .mov64 h .. | .fadd h .. | .fsub h ..
  | .fmul h .. | .ffma h .. | .fmin h .. | .fmax h .. | .fsetp h .. | .fset h .. | .fclass h .. | .frcp h ..
  | .frsq h .. | .fsqrt h .. | .fexp2 h .. | .flog2 h .. | .fsin h .. | .fcos h .. | .ftanh h .. | .fscale h ..
  | .frnd h .. | .fdot2 h .. | .fmed3 h .. | .cvt h .. | .cvtpk h .. | .cbenc h .. | .cbdec h .. | .bra h ..
  | .brd h .. | .brx h .. | .call h .. | .callx h .. | .ret h .. | .land h .. | .reform h .. | .gpin h ..
  | .gfree h .. | .exit h .. | .yield h .. | .bloop h .. | .ipref h .. | .iprefInv h .. | .launch h ..
  | .evwait h .. | .evsig h .. | .nopw h .. | .ld h .. | .st h .. | .lds h .. | .sts h .. | .ldl h ..
  | .stl h .. | .ldw h .. | .stw h .. | .ldk h .. | .pref h .. | .cctl h .. | .acp h .. | .acwait h ..
  | .acqry h .. | .ldcb h .. | .xlq h .. | .amo h .. | .cas h .. | .red h .. | .fence h .. | .bar h ..
  | .bara h .. | .barw h .. | .gbar h .. | .ssync h .. | .waitv h .. | .ctxopen h .. | .ctxset h ..
  | .ctxsettle h .. | .ctxvoid h .. | .ctxq h .. | .ldcx h .. | .ctxwait h .. | .ordhead h .. | .obres h ..
  | .obset h .. | .obfree h .. | .cbld h .. | .mloop h .. | .mwait h .. | .mzero h .. | .accld h ..
  | .accst h .. | .mrd h .. | .mout h .. | .mprog h .. | .keybind h .. | .push h .. | .qbind h .. | .qpeek h ..
  | .qcnt h .. | .qdrain h .. | .bkqry h .. | .bkwake h .. | .bkdrop h .. | .spwake h .. | .spdrop h ..
  | .trap h .. | .tret h .. | .tclr h .. | .trd h .. | .tmask h .. | .ologq h .. | .brk h .. | .sysrd h ..
  | .syswr h .. | .cntrd h .. | .psafe h .. | .ilq h .. | .halt h .. | .mbox h .. => h
  | .pairWord n p _ _ => ⟨Fin.ofNat 16 n.val, false, p, none⟩
  | _ => ⟨0, false, 7, none⟩

/-- An instruction of the program: a full word or a pair word. -/
def Instr.isWord : Instr → Bool
  | .pairWord .. => true
  | i => i.isFull

/-- A word whose operands the encoding admits. -/
def Instr.WellFormed (i : Instr) : Prop := i.isWord = true ∧ i.wfErr = none

end Sys2Proof
end

