-- ==== Sys2Proof/Machine/Ops.lean ====
section
/-!
DEFINITION. The named operations over threads, issue groups, bins and slots (R98 to R115), the recording and delivery of
causes with entry to a trap handler and the return from one (R310 to R315), the ending of a launch (R316), and register
quarters (R135 to R139).
-/

namespace Sys2Proof
namespace Machine

/-! ## Numbers and clocks -/

/-- Home lane of a thread (R13). -/
def laneOf (t : Nat) : Nat := t % 32
/-- Core of a thread. -/
def coreOf (t : Nat) : Nat := t / 1024
/-- Slot of a thread in its core. -/
def slotOf (t : Nat) : Nat := t % 1024
/-- Sequencer of a thread: 4 x core + thread quarter (R13). -/
def seqOf (t : Nat) : Nat := t / 256
/-- Cluster of a core (R12). -/
def clusterOf (core : Nat) : Nat := core / 2
/-- Slice of a core (R12). -/
def sliceOf (core : Nat) : Nat := core / 4

/-- The mask of home lanes of some threads. -/
def laneMask (ts : List Nat) : Word := ts.foldl (fun m t => m ||| BitVec.ofNat 32 (2 ^ laneOf t)) 0

/-- The threads of a list whose lane is in a mask. -/
def inMask (m : Word) (ts : List Nat) : List Nat := ts.filter fun t => bitOf m.toNat (laneOf t)

/-- The clock of a cluster, in its own cycles, which counts on across changes of rail (R18). -/
def State.clusterClk (s : State) (c : Nat) : Nat :=
  let r := s.rails.findD c Rail.init
  r.clk + (s.now - r.at_) / (if r.high then Config.highPeriod else Config.lowPeriod)

/-- The clock of a core's cluster. -/
def State.clk (s : State) (core : Nat) : Nat := s.clusterClk (clusterOf core)

/-! ## Lookup with the values of an empty table -/

/-- A thread slot that holds no thread. -/
def Thread.init : Thread where
  block := 0
  role := 0
  grp := 0
  pgrp := 0
  ix := []
  tid := 0
  regs := []
  preds := 0x80
  retStack := []
  joinStack := []
  disp := .exited
  pinned := true
  quarters := [.off, .off, .off, .off]
  wakes := []
  lost := []
  lowered := []
  fixed := []
  ctx := 0
  ctxGen := 0
  rcnt := 0
  acp := [0, 0, 0, 0, 0, 0, 0, 0]
  acpEcc := []
  barPending := 0
  again := false

/-- A launch record of zeros. -/
def LRec.init : LRec :=
  ⟨0, 0, 0, 0, 0, 0, 0, false, false, 0, 0, 0, 0, 0, 0, 0, false, 0, 0, 0, false, 0, 0, 0, [], []⟩

/-- An empty launch. -/
def Launch.init : Launch := ⟨LRec.init, 0, 0, 0, none, .checked, 0, 0, 0, 0, 0, 0, 0, false, none, 0⟩

/-- An empty block. -/
def Block.init : Block where
  launch := 0
  index := 0
  core := 0
  follower := none
  gslots := []
  spadAt := 0
  obAt := 0
  home := 0
  ctx := 0
  residence := .exited
  dispatchedAt := 0
  waitingSince := 0
  lead := BSide.init
  follow := BSide.init
  notice := false
  noticeAt := 0
  chosen := 0
  chosenAt := 0
  ran := 0
  going := false
  exchange := none
  overrun := 0
  overLen := 0
  rerun := false
  ownRerun := false
  items := []
  itemNo := []
  matched := 0
  gbarIn := []
  ssyncIn := []
  image := none

/-- The gang level of a launch, if it has one. -/
def LRec.gangLevel (R : LRec) : Option Level := R.levels.find? Level.gang

/-- The size of a gang: the product of the extents from level 1 to the level below the gang level; 0 without one (R73). -/
def LRec.gangSize (R : LRec) : Nat :=
  if R.gangLevel.isSome then (((R.levels.drop 1).takeWhile fun l => !l.gang).map Level.extent).foldl (· * ·) 1 else 0

/-- The thread in a slot. -/
def State.thread (s : State) (t : Nat) : Thread := s.threads.findD t Thread.init
/-- The block with a number. -/
def State.block (s : State) (b : Nat) : Block := s.blocks.findD b Block.init
/-- The launch with a number. -/
def State.launch (s : State) (l : Nat) : Launch := s.launches.findD l Launch.init
/-- The launch of a block. -/
def State.launchOf (s : State) (b : Nat) : Launch := s.launch (s.block b).launch
/-- The launch record of a block. -/
def State.recOf (s : State) (b : Nat) : LRec := (s.launchOf b).lrec
/-- A sequencer. -/
def State.seqr (s : State) (q : Nat) : Seqr := s.seqs.findD q Seqr.init
/-- The partition of a block. -/
def State.partOf (s : State) (b : Nat) : Nat := (s.launchOf b).part
/-- The registers of a partition. -/
def State.partRegs (s : State) (p : Nat) : PartRegs := s.cfg.parts.findD p PartRegs.init

/-- The side of a block that a core runs: 0 the leader or only side, 1 the follower (R326). -/
def State.sideOf (s : State) (b core : Nat) : Nat := if core = (s.block b).core then 0 else 1
/-- What the side of a block on a core holds. -/
def State.bside (s : State) (b core : Nat) : BSide :=
  if s.sideOf b core = 0 then (s.block b).lead else (s.block b).follow

/-- Replaces a thread. -/
def State.setThread (s : State) (t : Nat) (T : Thread) : State := { s with threads := s.threads.put t T }
/-- Changes a thread. -/
def State.modThread (s : State) (t : Nat) (f : Thread → Thread) : State := s.setThread t (f (s.thread t))
/-- Changes several threads. -/
def State.modThreads (s : State) (ts : List Nat) (f : Thread → Thread) : State :=
  ts.foldl (fun s t => s.modThread t f) s
/-- Replaces a group. -/
def State.setGroup (s : State) (g : Nat) (G : Group) : State := { s with groups := s.groups.put g G }
/-- Changes a group, if it is there. -/
def State.modGroup (s : State) (g : Nat) (f : Group → Group) : State := { s with groups := s.groups.adjust g f }
/-- Removes a group. -/
def State.delGroup (s : State) (g : Nat) : State := { s with groups := s.groups.del g }
/-- Changes a block, if it is there. -/
def State.modBlock (s : State) (b : Nat) (f : Block → Block) : State := { s with blocks := s.blocks.adjust b f }
/-- Changes the side of a block that a core runs. -/
def State.modBside (s : State) (b core : Nat) (f : BSide → BSide) : State :=
  if s.sideOf b core = 0 then s.modBlock b fun B => { B with lead := f B.lead }
  else s.modBlock b fun B => { B with follow := f B.follow }
/-- Changes a launch, if it is there. -/
def State.modLaunch (s : State) (l : Nat) (f : Launch → Launch) : State := { s with launches := s.launches.adjust l f }
/-- Changes a sequencer. -/
def State.modSeqr (s : State) (q : Nat) (f : Seqr → Seqr) : State := { s with seqs := s.seqs.put q (f (s.seqr q)) }
/-- Takes the next number. -/
def State.fresh (s : State) : State := { s with nextId := s.nextId + 1 }

/-- The sequencer of a group. -/
def Group.seq (G : Group) : Nat := 4 * G.core + G.quarter

/-- A thread is occupied: it has not exited (R8). -/
def Thread.occupied (T : Thread) : Bool := T.disp != .exited

/-- The threads of a block, on one side of a pair (R8): those that have not exited. -/
def State.blockThreads (s : State) (b : Nat) : List Nat :=
  (s.threads.filter fun p => p.2.block == b && p.2.occupied).map Prod.fst

/-- A block is on a core. -/
def State.awake (s : State) (b : Nat) : Bool := (s.block b).residence == .resident

/-- The groups of a block. -/
def State.blockGroups (s : State) (b : Nat) : List Nat := (s.groups.filter fun p => p.2.block == b).map Prod.fst

/-! ## Slots (R101) -/

/-- The slots that groups of a sequencer hold. -/
def State.slotsHeld (s : State) (q : Nat) : List Nat :=
  s.groups.filterMap fun p => if p.2.seq = q then p.2.slot else none

/-- The lowest free slot of a sequencer, if there is one. -/
def State.freeSlot (s : State) (q : Nat) : Option Nat :=
  (upFrom 0 Config.groupSlots).find? fun k => !(s.slotsHeld q).contains k

/-- Issue opportunities of a sequencer, or, for a DM2 block, its rotation turns (R105). -/
def State.oppsNow (s : State) (seq b : Nat) : Nat :=
  if (s.recOf b).dm = 2 then (s.bside b (seq / 4)).turns else (s.seqr seq).opps

/-- Gives a group a free slot of its sequencer; without one the group starts its wait for a slot (R101). -/
def State.takeSlot (s : State) (g : Nat) : State :=
  match s.groups.find g with
  | none => s
  | some G =>
    let c := s.clk G.core
    match s.freeSlot G.seq with
    | some k => s.setGroup g { G with slot := some k, since := c, oppsAt := s.oppsNow G.seq G.block }
    | none => s.setGroup g { G with slot := none, since := c, oppsAt := s.oppsNow G.seq G.block, candidate := false }

/-- Waits that hold no slot (R101, R313, R342). -/
def Wait.slotless : Wait → Bool
  | .join | .gpin | .bar _ _ | .barw _ | .evwait _ _ _ _ | .waitv _ | .ctxwait _ _ _ | .queue _ _ | .ordhead _ | .psafe _ _ => true
  | _ => false

/-- A group gives up its slot and starts a wait (R101); its waiting time counts from now (R115). -/
def State.dropSlot (s : State) (g : Nat) : State := s.modGroup g fun G =>
  { G with slot := none, candidate := false, since := s.clk G.core, oppsAt := s.oppsNow G.seq G.block }

/-- A group begins a wait that holds no slot (R101). -/
def State.beginWait (s : State) (g : Nat) (w : Wait) : State := (s.modGroup g fun G => { G with wait := some w }).dropSlot g

/-! ## Groups, fragments and bins (R98 to R103) -/

/-- The threads of a list point to a group. -/
def State.enrol (s : State) (ts : List Nat) (g : Nat) : State := s.modThreads ts fun T => { T with disp := .group g }

/-- Insertion into a list of threads in rising home lane. -/
def laneInsert (t : Nat) : List Nat → List Nat
  | [] => [t]
  | u :: r => if laneOf t < laneOf u then t :: u :: r else u :: laneInsert t r

/-- Threads in rising home lane. -/
def laneSort (ts : List Nat) : List Nat := ts.foldl (fun l t => laneInsert t l) []

/-- A new group of some threads at a program counter, with the cause state of the group they come from. The resume mask
keeps the lanes that are still there. -/
def State.spawn (s : State) (G : Group) (ts : List Nat) (pc : Nat) : State :=
  let g := s.nextId
  let s1 := s.fresh.setGroup g { G with
    pc := pc, lanes := laneSort ts, slot := none, wait := none, deliver := none,
    resumeMask := G.resumeMask &&& laneMask ts }
  (s1.enrol ts g).takeSlot g

/-- Removes a group and gives each list of threads a new group at its program counter. -/
def State.split (s : State) (g : Nat) (G : Group) (parts : List (Nat × List Nat)) : State :=
  parts.foldl (fun s p => s.spawn G p.2 p.1) (s.delGroup g)

/-- The distinct next program counters, in the order of the lanes, with the threads that go to each. -/
def classes (moves : List (Nat × Nat)) : List (Nat × List Nat) :=
  let pcs := moves.foldl (fun l m => if l.contains m.2 then l else l ++ [m.2]) []
  pcs.map fun p => (p, (moves.filter fun m => m.2 == p).map Prod.fst)

/-- Key of a bin in the table of bins: its sequencer and its number. -/
def binKey (q n : Nat) : Nat := Config.binsPerQuarter * q + n

/-- The bins of a sequencer with their keys, open (not yet candidates) and of any state. -/
def State.seqBins (s : State) (q : Nat) : List (Nat × Bin) := s.bins.filter fun p => p.1 / Config.binsPerQuarter == q

/-- The least element of a list by a measure, the first of equals. -/
def leastBy {α : Type} (f : α → Nat) : List α → Option α
  | [] => none
  | x :: r =>
    match leastBy f r with
    | none => some x
    | some y => if f y < f x then some y else some x

/-- Lane masks of two groups together. -/
def mergeMasks (a b : FMap Word) : FMap Word := b.foldl (fun m p => m.put p.1 (m.findD p.1 0 ||| p.2)) a

/-- Fault records of two groups together: the first group's stays. -/
def mergeFaults (a b : FMap FaultRec) : FMap FaultRec :=
  b.foldl (fun m p => match m.find p.1 with
    | some _ => m
    | none => m.put p.1 p.2) a

/-- The cause and handler state of two groups that become one. -/
def Group.merge (a b : Group) : Group :=
  { a with
    readyAt := max a.readyAt b.readyAt
    causes := a.causes ||| b.causes
    masks := mergeMasks a.masks b.masks
    faults := mergeFaults a.faults b.faults
    inHandler := a.inHandler || b.inHandler
    enterAt := max a.enterAt b.enterAt
    resumePc := if a.inHandler then a.resumePc else b.resumePc
    resumeMask := a.resumeMask ||| b.resumeMask
    deliver := match a.deliver with
      | some d => some d
      | none => b.deliver
    memHold := a.memHold ++ b.memHold.filter fun h => !a.memHold.contains h
    paused := a.paused.or b.paused }

/-- The least of some numbers, 0 of none. -/
def leastOf : List Nat → Nat
  | [] => 0
  | [x] => x
  | x :: r => min x (leastOf r)

/-- When the oldest thread of a bin came. -/
def Bin.first (B : Bin) : Nat := leastOf (B.came.map fun p => p.2.1)

/-- The issue opportunities or turns from which a bin ages (R103): those at which its oldest thread came. -/
def Bin.oppsAt (B : Bin) : Nat := leastOf (B.came.map fun p => p.2.2)

/-- What a thread brings into a bin from its group: the stall bound, the cause and handler state and the holds (log 42). -/
def Group.carryOf (G : Group) (t : Nat) : Group :=
  { G with pc := 0, lanes := [], slot := none, since := 0, oppsAt := 0, candidate := false, yieldLeft := 0, wait := none, deliver := none,
           resumeMask := G.resumeMask &&& laneMask [t] }

/-- A thread from a group joins a bin; a bin that reaches 32 threads is a candidate (R103). -/
def State.binAdd (s : State) (k : Nat) (B : Bin) (G : Group) (t : Nat) : State :=
  let C := G.carryOf t
  let B1 := { B with
    threads := laneInsert t B.threads, came := B.came.put t (s.now, s.oppsNow (seqOf t) B.block)
    carry := if B.threads.isEmpty then C else B.carry.merge C }
  let B2 := if B1.threads.length = 32 then { B1 with candidate := true } else B1
  ({ s with bins := s.bins.put k B2 }).modThread t fun T => { T with disp := .bin k }

/-- The group that a bin's threads form (R103). It is a formed group: its threads are free. A bin that is closed for its place leaves its
threads in a group that is a candidate without a slot (log 12). -/
def State.formBin (s : State) (k : Nat) (B : Bin) (asCandidate : Bool) : State :=
  let q := k / Config.binsPerQuarter
  let g := s.nextId
  let G : Group := { B.carry with
    core := q / 4, quarter := q % 4, block := B.block, pc := B.pc, lanes := B.threads, slot := none
    since := B.since, oppsAt := B.oppsAt, candidate := asCandidate }
  let s1 := ({ s with bins := s.bins.del k }).fresh.setGroup g G
  s1.enrol B.threads g

/-- The threads of two groups may go on as one: both run the handler for one resume point, or neither runs it (log 42). -/
def Group.alike (a b : Group) : Bool :=
  a.inHandler == b.inHandler && (!a.inHandler || (a.resumePc == b.resumePc && a.paused == b.paused))

/-- Files a free thread of a group by the three rules of R102. A bin that is a candidate takes no thread; where every bin is one, the
oldest is closed (log 12). -/
def State.fileThread (s : State) (G : Group) (pc t : Nat) : State :=
  let q := seqOf t
  let all := s.seqBins q
  let fits := all.filter fun p => !p.2.candidate && p.2.block == G.block && p.2.pc == pc &&
    (p.2.threads.all fun u => laneOf u != laneOf t) && p.2.carry.alike G
  let fresh : Bin := ⟨G.block, pc, [], s.clk (coreOf t), false, [], G⟩
  match leastBy (fun p => p.2.first) fits with
  | some (k, B) => s.binAdd k B G t
  | none =>
    match (upFrom 0 Config.binsPerQuarter).find? (fun n => !(all.map Prod.fst).contains (binKey q n)) with
    | some n => s.binAdd (binKey q n) fresh G t
    | none =>
      let opens := all.filter fun p => !p.2.candidate
      match leastBy (fun p => p.2.first) (if opens.isEmpty then all else opens) with
      | some (k, B) => (s.formBin k B true).binAdd k fresh G t
      | none => s

/-- Threads of a list go to their next program counters as at a divergent branch (R100): pinned threads of each class form
a fragment, free threads are filed in bins, in lane order. -/
def State.disperse (s : State) (G : Group) (moves : List (Nat × Nat)) : State :=
  let pinned := moves.filter fun m => (s.thread m.1).pinned
  let free := moves.filter fun m => !(s.thread m.1).pinned
  free.foldl (fun s m => s.fileThread G m.2 m.1) ((classes pinned).foldl (fun s p => s.spawn G p.2 p.1) s)

/-- Regroup (R100): every thread of the group is given with its next program counter. -/
def State.regroup (s : State) (g : Nat) (G : Group) (moves : List (Nat × Nat)) : State :=
  match classes moves with
  | [] => s.delGroup g
  | [(pc, ts)] => s.setGroup g { G with pc := pc, lanes := ts }
  | _ => (s.delGroup g).disperse G moves

/-! ## Causes (R310 to R312) -/

/-- Cause bits (Table 13-1). -/
def cIllegalOp : Nat := 0
def cIllegalPair : Nat := 1
def cStallShort : Nat := 2
def cPriv : Nat := 3
def cBankOff : Nat := 4
def cSpadOff : Nat := 5
def cMisalign : Nat := 6
def cXlate : Nat := 7
def cPerm : Nat := 8
def cSealed : Nat := 9
def cSealMix : Nat := 10
def cWindow : Nat := 11
def cJtAlign : Nat := 12
def cJtLand : Nat := 13
def cGroupPartial : Nat := 14
def cGroupSplit : Nat := 15
def cObRange : Nat := 16
def cMxFormat : Nat := 17
def cAccTile : Nat := 18
def cCtxBad : Nat := 19
def cCtxPool : Nat := 20
def cOrdered : Nat := 21
def cQueue : Nat := 22
def cEngine : Nat := 23
def cFpInvalid : Nat := 24
def cFpDivzero : Nat := 25
def cFpOverflow : Nat := 26
def cFpUnderflow : Nat := 27
def cFpInexact : Nat := 28
def cSwTrap : Nat := 29
def cBreakpoint : Nat := 30
def cWatchdog : Nat := 31
def cAssay : Nat := 32
def cEccUncorr : Nat := 33
def cPreemptNotice : Nat := 34
def cCallDepth : Nat := 35

/-- SEALED subcodes (R312). -/
def subLd : Nat := 0
def subSt : Nat := 1
def subAcp : Nat := 2
def subWin : Nat := 3
def subEng : Nat := 4
def subDbg : Nat := 5

/-- The maskable bits of Table 13-1. -/
def maskableBits : DWord := BitVec.ofNat 64 (2 ^ 2 + 2 ^ 24 + 2 ^ 25 + 2 ^ 26 + 2 ^ 27 + 2 ^ 28 + 2 ^ 30 + 2 ^ 34)
/-- The assigned bits of Table 13-1 that always read 1 (R311). -/
def fixedBits : DWord := BitVec.ofNat 64 (2 ^ 36 - 1) &&& ~~~ maskableBits

/-- A trap mask as it reads: the maskable bits as written, the others 1, reserved bits 0 (R311). -/
def trapMaskOf (m : DWord) : DWord := (m &&& maskableBits) ||| fixedBits

/-- A cause is enabled for a block, on the side that a core runs (R311). -/
def State.enabled (s : State) (b core cause : Nat) : Bool := bitOf (trapMaskOf (s.bside b core).trapMask).toNat cause

/-- A cause without an address. -/
def LaneCause.plain (t cause : Nat) : LaneCause := ⟨t, cause, 0, 0⟩

/-- The fault record of a cause (R312). -/
def faultRecOf (pc : Nat) (c : LaneCause) : FaultRec where
  addr := BitVec.ofNat 64 (2 ^ 63 + (if (6 ≤ c.cause ∧ c.cause ≤ 11) ∨ c.cause = 19 ∨ c.cause = 20 ∨ c.cause = 33 ∨
    c.cause = 29 ∨ c.cause = 30 then c.addr % 2 ^ 52 else 0))
  detail := BitVec.ofNat 64 ((if c.cause = 9 then c.sub else 0) * 2 ^ 60 + laneOf c.thread * 2 ^ 52 + pc % 2 ^ 52)

/-- Records one cause: the bit, the lane, and the fault record if the bit was clear (R310, R312). -/
def Group.record (pc : Nat) (G : Group) (c : LaneCause) : Group :=
  { G with
    causes := G.causes ||| BitVec.ofNat 64 (2 ^ c.cause)
    masks := G.masks.put c.cause (G.masks.findD c.cause 0 ||| BitVec.ofNat 32 (2 ^ laneOf c.thread))
    faults := match G.faults.find c.cause with
      | some _ => G.faults
      | none => G.faults.put c.cause (faultRecOf pc c) }

/-- Records the causes of one word, given in rising lane. -/
def Group.recordAll (G : Group) (pc : Nat) (cs : List LaneCause) : Group := cs.foldl (Group.record pc) G

/-! ## Ending a launch (R316) -/

/-- Status codes of a launch (Table 4-3). -/
def stDone : Nat := 0
def stAborted : Nat := 7
def stFault : Nat := 6

/-- A launch begins to end with a status; it issues nothing any more. LAUNCH_COMPLETE does the rest (R316). -/
def State.endLaunch (s : State) (l status : Nat) : State :=
  s.modLaunch l fun L => if L.ending ∨ L.state = .complete then L else { L with ending := true, status := status }

/-! ## Handler entry and return (R313 to R315) -/

/-- The cycle by which every fixed-latency write of some threads is complete (R41). -/
def State.fixedDone (s : State) (ts : List Nat) : Nat :=
  ts.foldl (fun m t => (s.thread t).fixed.foldl (fun m w => max m w.ready) m) 0

/-- Enters the handler with some lanes of a group (R314): the resume point is kept, the group waits for its fixed-latency writes to
complete, and the lanes go on at TVEC. -/
def State.enterHandler (s : State) (g resumePc : Nat) (ts : List Nat) : State :=
  match s.groups.find g with
  | none => s
  | some G =>
    let done := s.fixedDone ts
    (s.modThreads ts fun T => { T with fixed := [] }).setGroup g { G with
      pc := (s.bside G.block G.core).tvec, lanes := ts, inHandler := true, enterAt := max (s.clk G.core) done, resumePc := resumePc, resumeMask := laneMask ts,
      deliver := none, readyAt := max (s.clk G.core) done }

/-- A group is in its handler: it has entered, and its wait for fixed-latency writes is over (R314). -/
def State.handling (s : State) (G : Group) : Bool := G.inHandler && decide (G.enterAt ≤ s.clk G.core)

/-- Delivers a recorded cause (R313): without a handler, or inside it, the launch ends with ABORTED; otherwise the group
enters the handler, unless it is on its way in. -/
def State.deliver (s : State) (g resumePc : Nat) (ts : List Nat) : State :=
  match s.groups.find g with
  | none => s
  | some G =>
    if (s.bside G.block G.core).tvec = 0 ∨ s.handling G then
      (s.modGroup g fun G => { G with deliver := none }).endLaunch (s.block G.block).launch stAborted
    else if G.inHandler then s
    else s.enterHandler g resumePc ts

/-- Ends the issue of a word: `moves` are the lanes that go on with their next program counters, `causes` what lanes met, and
`stopped` the lanes that stop at the word (R314). The stopped lanes keep the group and its cause state and enter the
handler; the others leave it as at a divergent branch. -/
def State.finish (s : State) (g : Nat) (G : Group) (moves : List (Nat × Nat)) (causes : List LaneCause)
    (stopped : List Nat) : State :=
  if stopped.isEmpty then s.regroup g G moves
  else
    let s1 := s.setGroup g ({ G with lanes := stopped }.recordAll G.pc causes)
    let s2 := if moves.isEmpty then s1 else s1.disperse G moves
    s2.deliver g G.pc stopped

/-! ## Ends of waits, and merges (R112, R124, R313) -/

/-- A wait of a group ends and the group goes on at a program counter: it needs a slot again. A cause that was posted during
the wait is delivered by HANDLER_ENTRY before the next word (R313). -/
def State.resume (s : State) (g pc : Nat) : State :=
  match s.groups.find g with
  | none => s
  | some G =>
    let s1 := s.setGroup g { G with wait := none, pc := pc }
    if G.slot.isSome then s1 else s1.takeSlot g

/-- The group of a thread. -/
def State.groupOf (s : State) (t : Nat) : Option Nat :=
  match (s.thread t).disp with
  | .group g => some g
  | _ => none

/-- Threads leave their groups; a group without threads goes. -/
def State.leave (s : State) (ts : List Nat) : State :=
  let rest (G : Group) : List Nat := G.lanes.filter fun t => !ts.contains t
  { s with groups := s.groups.filterMap fun p =>
      if (rest p.2).isEmpty && p.2.lanes.any ts.contains then none else some (p.1, { p.2 with lanes := rest p.2 }) }

/-- Waiting threads leave their groups and form one group at a program counter. -/
def State.gather (s : State) (ts : List Nat) (pc : Nat) : State :=
  let srcs := (ts.filterMap s.groupOf).eraseDups.filterMap s.groups.find
  match srcs with
  | [] => s
  | G :: r =>
    let M := r.foldl Group.merge G
    let g := (s.leave ts).nextId
    ((s.leave ts).spawn { M with yieldLeft := 0 } ts pc).modGroup g fun G => { G with deliver := M.deliver }

/-- Threads wait at a join (R112). -/
def State.atJoin (s : State) (t : Nat) : Bool :=
  match s.groupOf t with
  | some g => match s.groups.find g with
    | some G => G.wait == some .join
    | none => false
  | none => false

/-- The threads of a sequencer whose join stacks hold a record. -/
def State.members (s : State) (seq recno : Nat) : List Nat :=
  (s.threads.filter fun p => seqOf p.1 == seq && p.2.occupied && p.2.joinStack.any fun r => r.recno == recno).map Prod.fst

/-- The top record of a thread's join stack, which is kept with the top last. -/
def Thread.topRec (T : Thread) : Option JoinRec := T.joinStack.getLast?

/-- Every member of a record waits with the record on top (R112). -/
def State.joinReady (s : State) (seq recno : Nat) : Bool :=
  let ms := s.members seq recno
  !ms.isEmpty && ms.all fun t => s.atJoin t && ((s.thread t).topRec.map JoinRec.recno) == some recno

/-- The distinct values of a measure over some threads. -/
def distinct (f : Nat → Nat) (ts : List Nat) : List Nat := (ts.map f).eraseDups

/-- Releases the members of a record (R112): the pinned threads of each pinned group as one group, the free threads as
another. -/
def State.joinRelease (s : State) (seq recno : Nat) : State :=
  let ms := s.members seq recno
  let pc := match ms with
    | t :: _ => ((s.thread t).topRec.map JoinRec.pc).getD 0
    | [] => 0
  let s1 := s.modThreads ms fun T => { T with joinStack := T.joinStack.dropLast }
  let pinned := ms.filter fun t => (s.thread t).pinned
  let free := ms.filter fun t => !(s.thread t).pinned
  let s2 := (distinct (fun t => (s.thread t).pgrp) pinned).foldl
    (fun st p => st.gather (pinned.filter fun t => (s.thread t).pgrp == p) pc) s1
  s2.gather free pc

/-- Threads of a pinned group of a block on a core that have not exited. -/
def State.pinnedOf (s : State) (b core p : Nat) : List Nat :=
  (s.threads.filter fun q => q.2.block == b && coreOf q.1 == core && q.2.pgrp == p && q.2.occupied).map Prod.fst

/-- The program counter of the GPIN at which a thread waits. -/
def State.gpinPc (s : State) (t : Nat) : Option Nat :=
  match s.groupOf t with
  | some g => match s.groups.find g with
    | some G => if G.wait == some .gpin then some G.pc else none
    | none => none
  | none => none

/-- Every thread of a pinned group that has not exited waits at GPIN at one program counter (R124). -/
def State.gpinReady (s : State) (b core p : Nat) : Bool :=
  match s.pinnedOf b core p with
  | [] => false
  | t :: r => (s.gpinPc t).isSome && r.all fun u => s.gpinPc u == s.gpinPc t

/-- Releases a pinned group from GPIN: its threads form one pinned group at the next word (R124). -/
def State.gpinRelease (s : State) (b core p : Nat) : State :=
  let ts := s.pinnedOf b core p
  let pc := match ts with
    | t :: _ => (s.gpinPc t).getD 0
    | [] => 0
  (s.modThreads ts fun T => { T with pinned := true }).gather ts (pc + 8)

/-! ## Register quarters (R135 to R139) -/

/-- Register quarter of a register number (Table 1-2). -/
def quarterOf (n : Nat) : Nat := n / 64

/-- State of a thread's quarter. -/
def Thread.quarter (T : Thread) (q : Nat) : QState := T.quarters.getD q .off

/-- The quarter is still waking. -/
def Thread.waking (T : Thread) (q : Nat) : Bool := (T.wakes.find q).isSome

/-- A log entry waits for its replay: its remaining lanes have faulted (R193). -/
def LogEntry.dormant (e : LogEntry) : Bool := e.faulted != 0 && !e.replay

/-- The scoreboard or the operand log still holds a register of a thread's quarter for a word before a number: a tracked write that is
pending, or a live entry that pins it (R136, R192). -/
def State.quarterHeld (s : State) (t q n : Nat) : Bool :=
  (s.inflight.any fun p => decide (p.2.origin < n) && p.2.writes.any fun w => w.thread == t && (match w.dest with
    | .reg k => quarterOf k == q
    | .pred _ => false)) ||
  s.opLog.any fun p => decide (p.2.age < n) && p.2.lanes.any (fun l => l.thread == t) &&
    p.2.instr.uses.any fun u => ((u.rd && !p.2.freed) || (u.wr && !p.2.dormant)) && (match u.r with
      | .v k => (upFrom k.val u.n).any fun m => quarterOf m == q
      | _ => false)

/-- State of a thread's rows in a quarter: that of the quarter, but a lowering takes effect only after every earlier read and write of the
quarter (R136). -/
def State.rowState (s : State) (t q : Nat) : QState :=
  match (s.thread t).lowered.find q with
  | some (old, n) => if s.quarterHeld t q n then old else (s.thread t).quarter q
  | none => (s.thread t).quarter q

/-- Physical state of bank (T, Q) for a thread at a word: the most powered state of any occupied slot of the thread quarter, the thread's
own after all its earlier changes (R135, R136, R151). -/
def State.bankState (s : State) (seq q t : Nat) : QState :=
  let l := (s.threads.filter fun p => seqOf p.1 == seq && p.2.occupied).map fun p =>
    if p.1 = t then p.2.quarter q else s.rowState p.1 q
  if l.contains .full then .full else if l.contains .ret then .ret else .off

/-- Physical state of bank (T, Q) as readback shows it. -/
def State.physBank (s : State) (seq q : Nat) : QState := s.bankState seq q (1024 * Config.cores)

/-- The registers of a quarter read zero (they are OFF). -/
def clearQuarter (m : FMap Word) (q : Nat) : FMap Word := m.filter fun p => quarterOf p.1 != q

/-- Sets a quarter to RETENTION or OFF (R136). Writes still pending into a quarter that goes OFF are lost; later words see the change, and
the rows keep their state until the earlier words have read and written them. -/
def State.lowerQuarter (s : State) (t q : Nat) (off : Bool) : State :=
  let T := s.thread t
  let kept := T.lowered.put q (s.rowState t q, s.nextId)
  match T.quarter q, off with
  | .off, _ => s
  | _, true => s.setThread t { T with
      quarters := listSet T.quarters q .off, regs := clearQuarter T.regs q, wakes := T.wakes.del q,
      lost := T.lost.put q s.nextId, lowered := kept }
  | .full, false => s.setThread t { T with quarters := listSet T.quarters q .ret, wakes := T.wakes.del q, lowered := kept }
  | .ret, false => s

/-- Wake latency of a register bank, in cycles (Table 6-2). -/
def wakeCycles : QState → Nat
  | .full => 0
  | .ret => 8
  | .off => 24

/-- The cycle at which a bank is FULL whose FULL threads are all still waking (R137). -/
def State.bankWake (s : State) (seq q : Nat) : Option Nat :=
  let ws := (s.threads.filter fun p => seqOf p.1 == seq && p.2.occupied && p.2.quarter q == .full).map fun p => p.2.wakes.find q
  if ws.contains none then none else leastBy id (ws.filterMap id)

/-- Brings a quarter towards FULL (R137): at once in a bank that is FULL, with the bank in one that is waking, else with the latency of
Table 6-2. -/
def State.raiseQuarter (s : State) (t q : Nat) : State :=
  let T := s.thread t
  match T.quarter q with
  | .full => s
  | from_ =>
    let phys := s.bankState (seqOf t) q t
    let regs := if from_ = .off then clearQuarter T.regs q else T.regs
    let wakes := match (if phys = .full then s.bankWake (seqOf t) q else some (s.clk (coreOf t) + wakeCycles phys)) with
      | some c => T.wakes.put q c
      | none => T.wakes
    s.setThread t { T with quarters := listSet T.quarters q .full, regs := regs, wakes := wakes }

/-- Reads a register as it stands (R139: an OFF quarter reads zero). -/
def Thread.reg (T : Thread) (n : Nat) : Word := if T.quarter (quarterOf n) = .off then 0 else T.regs.findD n 0

/-- Puts a value into a register of a quarter that is on. -/
def Thread.setReg (T : Thread) (n : Nat) (x : Word) : Thread := { T with regs := T.regs.store 0 n x }

/-- Reads a predicate; p7 reads true (R141). -/
def Thread.pred (T : Thread) (k : Nat) : Bool := k == 7 || bitOf T.preds.toNat k

/-- Writes a predicate; a write to p7 is discarded (R141). -/
def Thread.setPred (T : Thread) (k : Nat) (b : Bool) : Thread :=
  if k = 7 then T
  else { T with preds := if b then T.preds ||| BitVec.ofNat 8 (2 ^ k) else T.preds &&& ~~~ BitVec.ofNat 8 (2 ^ k) }

end Machine
end Sys2Proof
end

