-- ==== Sys2Proof/Machine/Mem.lean ====
section
/-!
DEFINITION. Memory: bytes by physical address, the physical map, views of contexts and their cells (R211 to R214), the
windows (R177), page tables and the translation unit (R184 to R190), the L1 caches (R183, R185), and the checks and
accesses that every memory word shares.
-/

namespace Sys2Proof
namespace Machine

/-! ## Bytes -/

/-- Memory in canonical form: addresses strictly rising, and no entry equal to 0, which is what an unlisted address reads. -/
def Memory.wf (m : FMap Byte) : Bool := FMap.sorted m && m.all fun p => p.2 != 0

/-- The byte at a physical address. An address that nothing has written reads 0 (log 1). -/
def State.byte (s : State) (pa : Nat) : Byte := s.mem.findD pa 0

/-- Writes the byte at a physical address. -/
def State.setByte (s : State) (pa : Nat) (b : Byte) : State := { s with mem := s.mem.store 0 pa b }

/-- `n` bytes from a physical address upwards. -/
def State.bytes (s : State) (pa n : Nat) : List Byte := (upFrom pa n).map s.byte

/-- Writes bytes from a physical address upwards. -/
def State.setBytes (s : State) (pa : Nat) : List Byte → State
  | [] => s
  | b :: r => (s.setByte pa b).setBytes (pa + 1) r

/-- A little-endian number of `n` bytes. -/
def State.readNat (s : State) (pa n : Nat) : Nat := leNat (s.bytes pa n)
/-- Writes a little-endian number of `n` bytes. -/
def State.writeNat (s : State) (pa n x : Nat) : State := s.setBytes pa (leBytes x n)
/-- The dword at a physical address. -/
def State.readDW (s : State) (pa : Nat) : DWord := BitVec.ofNat 64 (s.readNat pa 8)

/-- A range of bytes becomes zero. -/
def State.zeroBytes (s : State) (pa n : Nat) : State :=
  { s with mem := s.mem.filter fun p => p.1 < pa || pa + n ≤ p.1 }

/-- Bytes of a line as a number. -/
def lineBytes (l : Line) : List Byte := leBytes l.toNat 64
/-- The line that bytes make. -/
def lineOf (l : List Byte) : Line := BitVec.ofNat 512 (leNat l)

/-! ## The physical map (R179, R379, R380) -/

/-- Bytes of fitted DRAM (R380, R389): fitted groups times their capacity. -/
def State.dramSize (s : State) : Nat :=
  popCount s.cfg.dramcfg 12 * (if bitOf s.cfg.dramcfg 16 then 16 else 8) * 2 ^ 30

/-- What lies at a physical address (Table 15-1). -/
inductive Phys where
  | dram
  | link (port off : Nat)
  | core (n off : Nat)
  | control
  | readback
  | none
  deriving DecidableEq, Repr

/-- A link window. -/
def Phys.isLink : Phys → Bool
  | .link _ _ => true
  | _ => false

/-- Decodes a physical address (Table 15-1). -/
def State.phys (s : State) (pa : Nat) : Phys :=
  if pa < 0x30000000000 then (if pa < s.dramSize then .dram else .none)
  else if 0x80000000000 ≤ pa ∧ pa < 0xA0000000000 then .link 0 (pa - 0x80000000000)
  else if 0xA0000000000 ≤ pa ∧ pa < 0xC0000000000 then .link 1 (pa - 0xA0000000000)
  else if Config.coreBase ≤ pa ∧ pa < Config.ctlBase then
    .core ((pa - Config.coreBase) / Config.coreStride) ((pa - Config.coreBase) % Config.coreStride)
  else if Config.ctlBase ≤ pa ∧ pa < Config.rbBase then .control
  else if Config.rbBase ≤ pa ∧ pa < Config.rbEnd then .readback
  else .none

/-- Physical address of byte `off` of the scratchpad of a core (Table 8-3). -/
def spadPa (core off : Nat) : Nat := Config.coreBase + core * Config.coreStride + 0x1000000 + off
/-- Physical address of byte `off` of the accumulator of a core: tile `j` at j x 0x4000 (Table 8-3). -/
def tilePa (core off : Nat) : Nat := Config.coreBase + core * Config.coreStride + 0x2000000 + off
/-- Physical address of byte `off` of the operand buffer of a core (Table 8-3). -/
def obPa (core off : Nat) : Nat := Config.coreBase + core * Config.coreStride + 0x2800000 + off

/-- State of a scratchpad bank (R140). -/
def State.spadBank (s : State) (core k : Nat) : QState := s.spadBanks.findD (16 * core + k) .off
/-- Bank of a scratchpad offset. -/
def spadBankOf (off : Nat) : Nat := off / 0x20000

/-- Brings a scratchpad bank to a state (R140, Table 6-2): a bank that goes OFF loses its bytes, and one that comes to FULL
wakes for 16 cycles from RETENTION and for 64 from OFF. -/
def State.setSpad (s : State) (core k : Nat) (st : QState) : State :=
  let key := 16 * core + k
  match s.spadBank core k, st with
  | _, .off => { s.zeroBytes (spadPa core (0x20000 * k)) 0x20000 with
      spadBanks := s.spadBanks.del key, spadWakes := s.spadWakes.del key }
  | _, .ret => { s with spadBanks := s.spadBanks.put key .ret, spadWakes := s.spadWakes.del key }
  | .full, .full => s
  | .ret, .full => { s with spadBanks := s.spadBanks.put key .full, spadWakes := s.spadWakes.put key (s.clk core + 16) }
  | .off, .full => { s with spadBanks := s.spadBanks.put key .full, spadWakes := s.spadWakes.put key (s.clk core + 64) }

/-- The tenant that owns a thread quarter, if one does (R353). -/
def State.quarterOwner (s : State) (core q : Nat) : Option Nat :=
  let w := (s.cfg.qown.findD core 0).toNat
  if bitOf w (32 + q) then some (bitsOf w (8 * q) 8) else none

/-! ## Views of contexts (R207, R211, R212) -/

/-- Key of the cell of a line in a context. -/
def cellKey (pline tag : Nat) : Nat := pline * 65536 + tag

/-- A context that was never opened: generation 0, retired (R206). -/
def Ctx.init : Ctx := ⟨0, 0, 0, .blk, 0, 0, 0, .retired, false, [], false, false, 0, false⟩

/-- The context of a tag. Tag 0 is the base context. -/
def State.ctx (s : State) (tag : Nat) : Ctx := s.ctxs.findD tag Ctx.init
/-- Changes a context. -/
def State.modCtx (s : State) (tag : Nat) (f : Ctx → Ctx) : State := { s with ctxs := s.ctxs.put tag (f (s.ctx tag)) }
/-- The context is OPEN; the base context always is (R205). -/
def State.ctxOpen (s : State) (tag : Nat) : Bool := tag == 0 || (s.ctx tag).state == .opened
/-- The generation of a tag; the base context has none. -/
def State.genOf (s : State) (tag : Nat) : Nat := if tag = 0 then 0 else (s.ctx tag).gen
/-- %ctx of a thread still names the context that it was set to: its tag has not been handed out again (R206). -/
def State.ownCtx (s : State) (T : Thread) : Bool := s.genOf T.ctx == T.ctxGen
/-- A thread's current context is OPEN (R224, R228). -/
def State.threadOpen (s : State) (T : Thread) : Bool := s.ctxOpen T.ctx && s.ownCtx T
/-- A thread's current context becomes that of a tag. -/
def State.enterCtx (s : State) (t tag : Nat) : State := s.modThread t fun T => { T with ctx := tag, ctxGen := s.genOf tag }
/-- The context in which an access issued in a context is performed: the base, where the tag has been handed out again (log 50). -/
def State.liveCtx (s : State) (tag gen : Nat) : Nat := if s.genOf tag = gen then tag else 0
/-- The context of an access has retired since its issue: what it writes there is discarded (R216). -/
def State.ctxGone (s : State) (tag gen : Nat) : Bool := tag != 0 && (s.genOf tag != gen || (s.ctx tag).state == .retired)
/-- Depth of a context; the base has depth 0. -/
def State.ctxDepth (s : State) (tag : Nat) : Nat := if tag = 0 then 0 else (s.ctx tag).depth

/-- The contexts from a tag up to, but not including, the base; depth is at most 15 (R205). -/
def State.chain (s : State) (tag : Nat) : Nat → List Nat
  | 0 => []
  | n + 1 => if tag = 0 then [] else tag :: s.chain (s.ctx tag).parent n

/-- The contexts of the chain of a tag. -/
def State.chainOf (s : State) (tag : Nat) : List Nat := s.chain tag 16

/-- A context is another or one of its descendants. -/
def State.within (s : State) (tag anc : Nat) : Bool := anc == 0 || (s.chainOf tag).contains anc

/-- The first cell for a line along the chain of a context (R212). -/
def State.findCell (s : State) (pline tag : Nat) : Option Cell :=
  (s.chainOf tag).findSome? fun c => s.cells.find (cellKey pline c)

/-- The view that a context has of a byte (R212). -/
def State.viewByte (s : State) (tag pa : Nat) : Byte :=
  match s.findCell (pa / 64) tag with
  | some c => BitVec.ofNat 8 (byteOf c.data.toNat (pa % 64))
  | none => s.byte pa

/-- The view of bytes. -/
def State.viewBytes (s : State) (tag pa n : Nat) : List Byte := (upFrom pa n).map (s.viewByte tag)

/-- The view of a line. -/
def State.viewLine (s : State) (tag pline : Nat) : Line := lineOf (s.viewBytes tag (64 * pline) 64)

/-- The partition whose overlay holds the cells of a context. -/
def State.cellPart (s : State) (key : Nat) : Nat := (s.ctx (key % 65536)).part

/-- The sublists of a list. -/
def sublistsOf : List Nat → List (List Nat)
  | [] => [[]]
  | x :: r => sublistsOf r ++ (sublistsOf r).map (x :: ·)

/-- The places of a partition's DRAM overlay pool (R213). -/
def State.poolPlaces (s : State) (part : Nat) : Nat := 512 * (s.partRegs part).ppoolsize

/-- Cells, each with its L2 set and its partition, have room in the overlay: those of each set that find none of its 8 cell ways go to
their partitions' pools. The hardware moves cells between ways and pools, so there is room exactly when the cells left over in the sets
are, for every choice of some partitions, no more than the pools of the other partitions and those cells of the chosen ones can be
(R213). -/
def State.overlayFits (s : State) (cells : List (Nat × Nat)) : Bool :=
  let parts := (cells.map Prod.snd).eraseDups
  let sets := (cells.map Prod.fst).eraseDups
  (sublistsOf parts).all fun chosen =>
    decide (sumOf (sets.map fun x =>
        let here := cells.filter fun c => c.1 == x
        (here.length - 8) - (here.filter fun c => chosen.contains c.2).length) ≤
      sumOf ((parts.filter fun p => !chosen.contains p).map s.poolPlaces))

/-- The overlay of a context's partition is full for a line that has no cell yet (R213): with the new cell, not every cell finds a way of
its set or a place of its partition's pool. The placement of lines in sets is the device's (log 30). -/
def State.overlayFull (s : State) (tag pline : Nat) : Bool :=
  decide (8 ≤ s.cells.length) &&
    !s.overlayFits ((Config.cellSet pline, (s.ctx tag).part) ::
      s.cells.map fun p => (Config.cellSet (p.1 / 65536), s.cellPart p.1))

/-- Puts bytes into a line image at an offset. -/
def patchLine (l : Line) (off : Nat) (bs : List Byte) : Line :=
  let old := lineBytes l
  lineOf (old.take off ++ bs ++ old.drop (off + bs.length))

/-- The mask bits of `n` bytes from an offset. -/
def maskRange (off n : Nat) : DWord := BitVec.ofNat 64 ((2 ^ n - 1) * 2 ^ off)

/-- Writes bytes that lie in one line into a context's view: memory for the base context, else the context's cell, which
the first write materialises from the parent's view (R211). -/
def State.writeLine (s : State) (tag pa : Nat) (bs : List Byte) : State :=
  if tag = 0 then s.setBytes pa bs
  else
    let pline := pa / 64
    let c := s.cells.findD (cellKey pline tag) ⟨s.viewLine tag pline, 0⟩
    let c' : Cell := ⟨patchLine c.data (pa % 64) bs, c.mask ||| maskRange (pa % 64) bs.length⟩
    { s with cells := s.cells.put (cellKey pline tag) c' }

/-- Writes bytes that may cross lines, line by line. The number bounds the lines. -/
def State.writeView (s : State) (tag pa : Nat) (bs : List Byte) : Nat → State
  | 0 => s
  | n + 1 =>
    let k := 64 - pa % 64
    if bs.isEmpty then s
    else (s.writeLine tag pa (bs.take k)).writeView tag (pa + k) (bs.drop k) n

/-- A write of a line in a context must first find room for a cell, and there is none (R214). -/
def State.poolBlocked (s : State) (tag pa : Nat) : Bool :=
  tag != 0 && (s.cells.find (cellKey (pa / 64) tag)).isNone && s.overlayFull tag (pa / 64)

/-! ## Page tables (R186 to R189) -/

/-- The virtual address of a page-table entry's first dword: fields of Table 8-8. -/
def pteValid (d : DWord) : Bool := bitOf d.toNat 63
def pteSize (d : DWord) : Nat := bitsOf d.toNat 61 2
def pteType (d : DWord) : Nat := bitsOf d.toNat 59 2
def pteR (d : DWord) : Bool := bitOf d.toNat 58
def pteW (d : DWord) : Bool := bitOf d.toNat 57
def pteX (d : DWord) : Bool := bitOf d.toNat 56
def pteWorld (d : DWord) : Nat := bitsOf d.toNat 44 4
/-- Physical address of the frame. -/
def pteFrame (d : DWord) : Nat := bitsOf d.toNat 12 32 * 2 ^ 12

/-- Log2 of the page size of table `k`: 4 KiB, 64 KiB, 2 MiB. -/
def pageShift (k : Nat) : Nat := if k = 0 then 12 else if k = 1 then 16 else 21

/-- An entry matches page number `p` of table `k` (R187). -/
def pteMatches (d0 d1 : DWord) (k p : Nat) : Bool :=
  pteValid d0 && pteSize d0 == k && pteType d0 != 3 && bitsOf d0.toNat 48 8 == 0 && bitsOf d0.toNat 0 12 == 0 &&
    bitsOf d1.toNat 52 12 == 0 && bitsOf d1.toNat 0 12 == 0 &&
    pteFrame d0 % 2 ^ pageShift k == 0 && bitsOf d1.toNat 12 40 * 2 ^ 12 == p * 2 ^ pageShift k

/-- A physical read of the walk finds something only in fitted DRAM or in the map of a core (R188). -/
def State.walkable (s : State) (pa : Nat) : Bool :=
  match s.phys pa with
  | .dram => true
  | .core _ _ => true
  | _ => false

/-- The first of the four entries of a bucket that matches, lowest offset first (R188). -/
def State.bucketEntry (s : State) (pa k p : Nat) : Option DWord :=
  if s.walkable pa then
    ((upFrom 0 4).find? fun i => pteMatches (s.readDW (pa + 16 * i)) (s.readDW (pa + 16 * i + 8)) k p).map
      fun i => s.readDW (pa + 16 * i)
  else none

/-- The bucket that a page number may occupy in way `w` of the table whose descriptor is at `d` (R188). -/
def State.bucketAddr (s : State) (d w p : Nat) : Nat :=
  let d0 := (s.readDW d).toNat
  let d1 := (s.readDW (d + 8)).toNat
  let seeds := (s.readDW (d + 16)).toNat
  let mig := (s.readDW (d + 24)).toNat
  let n := bitsOf d0 0 5
  let h := (hash32 (BitVec.ofNat 32 p) (BitVec.ofNat 32 (bitsOf seeds (32 * w) 32) ^^^ BitVec.ofNat 32 (p / 2 ^ 32))).toNat
  let i := h % 2 ^ n
  if bitOf d0 5 && decide (i < bitsOf mig (32 * w) 27) then
    bitsOf d1 12 32 * 2 ^ 12 + w * 64 * 2 ^ (n + 1) + 64 * (h % 2 ^ (n + 1))
  else bitsOf d0 12 32 * 2 ^ 12 + w * 64 * 2 ^ n + 64 * i

/-- The descriptor's reserved bits are zero and its n lies in 4 to 27 (R186). -/
def State.descOk (s : State) (d : Nat) : Bool :=
  let d0 := (s.readDW d).toNat
  let d1 := (s.readDW (d + 8)).toNat
  let mig := (s.readDW (d + 24)).toNat
  bitsOf d0 44 20 == 0 && bitsOf d0 6 6 == 0 && bitsOf d1 44 20 == 0 && bitsOf d1 0 12 == 0 && bitsOf mig 59 5 == 0 &&
    bitsOf mig 27 5 == 0 && decide (4 ≤ bitsOf d0 0 5) && decide (bitsOf d0 0 5 ≤ 27)

/-- The entry that one table gives for an address, way 0 before way 1. -/
def State.tableEntry (s : State) (root k e : Nat) : Option DWord :=
  let d := root + 32 * k
  let p := e / 2 ^ pageShift k
  if s.walkable d && s.descOk d then
    match s.bucketEntry (s.bucketAddr d 0 p) k p with
    | some x => some x
    | none => s.bucketEntry (s.bucketAddr d 1 p) k p
  else none

/-- The walk of R188: the match of the smallest page size. -/
def State.walk (s : State) (tenant e : Nat) : Option DWord :=
  let r := (s.cfg.xlroot.findD tenant 0).toNat
  let root := bitsOf r 7 37 * 2 ^ 7
  if bitOf r 0 && decide (e < Config.transEnd) then
    match s.tableEntry root 0 e with
    | some x => some x
    | none =>
      match s.tableEntry root 1 e with
      | some x => some x
      | none => s.tableEntry root 2 e
  else none

/-- A TLB entry translates an address. -/
def TlbEntry.covers (t : TlbEntry) (cluster tenant world e : Nat) : Bool :=
  t.cluster == cluster && t.tenant == tenant && pteWorld t.pte == world && t.page == e / 2 ^ pageShift (pteSize t.pte)

/-- A cluster's TLB entry for an address, if it holds one (R184). -/
def State.tlbFind (s : State) (cluster tenant world e : Nat) : Option DWord :=
  (s.tlb.find? fun t => t.covers cluster tenant world e).map TlbEntry.pte

/-- Adds an entry to a cluster's TLB, which holds 4,096; the oldest makes room. -/
def State.tlbAdd (s : State) (cluster tenant e : Nat) (pte : DWord) : State :=
  let t : TlbEntry := ⟨cluster, e / 2 ^ pageShift (pteSize pte), tenant, pte⟩
  let mine := s.tlb.filter fun u => u.cluster == cluster
  let others := s.tlb.filter fun u => u.cluster != cluster
  { s with tlb := t :: mine.take 4095 ++ others }

/-- The entry that translates an address for a tenant and world, from the TLB or by a walk; an entry of another world is
reported but not kept (R188). -/
def State.entryFor (s : State) (cluster tenant world e : Nat) : Option DWord × State :=
  match s.tlbFind cluster tenant world e with
  | some d => (some d, s)
  | none =>
    match s.walk tenant e with
    | some d => (some d, if pteWorld d = world then s.tlbAdd cluster tenant e d else s)
    | none => (none, s)

/-- The physical address of a byte in the page of an entry. -/
def framePa (d : DWord) (e : Nat) : Nat := pteFrame d + e % 2 ^ pageShift (pteSize d)

/-! ## Who makes an access, and where it goes -/

/-- The accessor: a thread in a context, or an engine on behalf of a block. -/
structure Acc where
  thread : Nat
  core : Nat
  block : Nat
  side : Nat
  tenant : Nat
  world : Nat
  ctx : Nat
  engine : Bool
  deriving DecidableEq, Repr

/-- The accessor that a thread is, in a context. -/
def State.accOf (s : State) (t ctx : Nat) : Acc :=
  let T := s.thread t
  let B := s.block T.block
  let R := s.recOf T.block
  ⟨t, coreOf t, T.block, if coreOf t = B.core then 0 else 1, R.tenant, R.world, ctx, false⟩

/-- What an access needs, and which pages refuse it. -/
structure Need where
  r : Bool
  w : Bool
  /-- DEVICE pages refuse the access (Table 8-4) -/
  noDev : Bool
  /-- the SEALED subcode (Table 8-5) -/
  sub : Nat
  deriving DecidableEq, Repr

/-- A load. -/
def Need.load : Need := ⟨true, false, false, 0⟩
/-- A store. -/
def Need.store : Need := ⟨false, true, false, 1⟩

/-- Where an access is performed. -/
inductive Place where
  /-- a byte of translated memory: physical address, context, and whether the page is DEVICE -/
  | mem (pa ctx : Nat) (dev : Bool)
  /-- a byte of a core's scratchpad -/
  | spad (core off : Nat)
  deriving DecidableEq, Repr

/-- A cause with its SEALED subcode. -/
abbrev Bad := Nat × Nat

/-- The thread quarter that an offset of a core's map belongs to, for R180 (Tables 8-3 and 13-7): slots, banks, tiles and operand buffer,
and in state readback those of the unit that an entry shows; an entry of a block slot belongs to the quarter of the group slot with its
number (log 22). 4: no one quarter. -/
def mapQuarter (off : Nat) : Nat :=
  if off < 0x100000 then off / 0x40000
  else if 0x1000000 ≤ off ∧ off < 0x1200000 then (off - 0x1000000) / 0x80000
  else if 0x2000000 ≤ off ∧ off < 0x2080000 then (off - 0x2000000) / 0x20000
  else if 0x2800000 ≤ off ∧ off < 0x2900000 then (off - 0x2800000) / 0x40000
  else if 0x3000000 ≤ off ∧ off < 0x3020000 then (off - 0x3000000) / 0x8000
  else if 0x3800000 ≤ off ∧ off < 0x3804000 then (off - 0x3800000) / 0x1000
  else if 0x3810000 ≤ off ∧ off < 0x3830000 then (off - 0x3810000) / 0x8000
  else if 0x3830000 ≤ off ∧ off < 0x3831000 then (off - 0x3830000) / 0x400
  else if 0x3840000 ≤ off ∧ off < 0x3880000 then (off - 0x3840000) / 0x10000
  else if 0x3880000 ≤ off ∧ off < 0x3880400 then (off - 0x3880000) / 0x100
  else if 0x3880400 ≤ off ∧ off < 0x3880410 then (off - 0x3880400) / 4
  else if 0x3880410 ≤ off ∧ off < 0x3880420 then (off - 0x3880410) / 4
  else if 0x3900000 ≤ off ∧ off < 0x3928000 then (off - 0x3900000) / 0xA000
  else if 0x3B80000 ≤ off ∧ off < 0x3B84000 then (off - 0x3B80000) / 0x1000
  else if 0x3BC0000 ≤ off ∧ off < 0x3BC0400 then (off - 0x3BC0000) / 0x100
  else 4

/-- The tenant whose overrun debt an offset of state readback shows (Table 13-7, log 22). -/
def debtTenant (off : Nat) : Option Nat :=
  if 0x3BC0800 ≤ off ∧ off < 0x3BC1000 then some ((off - 0x3BC0800) / 8) else none

/-- A tenant may reach an offset of a core's map (R180): it owns the quarter of the bytes, or, for offsets that belong to no one quarter,
some quarter of the core; a tenant's debt is for that tenant. -/
def State.mapAdmits (s : State) (tenant core off : Nat) : Bool :=
  let q := mapQuarter off
  if q < 4 then s.quarterOwner core q == some tenant
  else (debtTenant off).all (· == tenant) && (upFrom 0 4).any fun k => s.quarterOwner core k == some tenant

/-- The physical range of a record of a block on a core, if it is live: its offset lies in the block's allocation. -/
def Record.range (B : Block) (core : Nat) (r : Record) : Nat × Nat := (obPa core (B.obAt + r.off), r.size)

/-- A physical operand-buffer address lies in a keyed range (R180, R333). -/
def State.keyedOb (s : State) (pa : Nat) : Bool :=
  s.blocks.any fun p =>
    let B := p.2
    let hit (core : Nat) (rs : FMap Record) := rs.any fun q => q.2.keyed.isSome &&
      (let rg := q.2.range B core
       decide (rg.1 ≤ pa ∧ pa < rg.1 + rg.2))
    B.residence == .resident && (hit B.core B.lead.records || (match B.follower with
      | some c => hit c B.follow.records
      | none => false))

/-- The block of a block slot on a core: that whose lowest group slot has this number (log 22). -/
def State.blockAtSlot (s : State) (core i : Nat) : Option (Nat × Block) :=
  s.blocks.find? fun p => p.2.residence == .resident && (p.2.core == core || p.2.follower == some core) && p.2.gslots.head? == some i

/-- The record that an offset of the reservation-record region of state readback shows: 512 bytes for each block slot, record `r` at
40 x r (Table 13-7, log 22). -/
def State.recordAt (s : State) (core off : Nat) : Option Record :=
  if off % 0x200 < 320 then
    (s.blockAtSlot core (off / 0x200)).bind fun p =>
      (if core = p.2.core then p.2.lead else p.2.follow).records.find (off % 0x200 / 40)
  else none

/-- An offset of a core's map shows a keyed reservation record (R333). -/
def State.sealedItem (s : State) (core off : Nat) : Bool :=
  decide (0x3B80000 ≤ off ∧ off < 0x3B84000) && (s.recordAt core (off - 0x3B80000)).any fun r => r.keyed.isSome

/-- Code of an operand format (Table 12-2). -/
def obFmtCode : ObFmt → Nat
  | .bf16 => 0
  | .c4 => 1
  | .c4e8 => 2

/-- A reservation record as Table 12-2 lays it out; the codebook of a keyed record reads zero (R286). -/
def Record.dword (r : Record) (i : Nat) : Nat :=
  if i = 0 then
    2 ^ 63 + bitNat r.cbLoaded * 2 ^ 62 + bitNat r.keyed.isSome * 2 ^ 61 + r.keyed.getD 0 * 2 ^ 52 +
      obFmtCode r.fmt * 2 ^ 50 + (if r.fmt = .bf16 then 0 else r.len.log2 - 2) * 2 ^ 48 +
      (if r.fmt = .bf16 then 0 else (r.scaleOff % 128).toNat) * 2 ^ 41 + r.size / 1024 * 2 ^ 30 + r.off / 1024 * 2 ^ 20
  else if r.keyed.isSome then 0
  else bitsOf r.codebook.toNat (64 * (i - 1)) 64

/-- An operand-buffer byte in which fetches of the matrix unit have left what the manual does not lay out. -/
def State.dirtyOb (s : State) (pa : Nat) : Bool := s.obDirty.any fun r => decide (r.1 ≤ pa ∧ pa < r.1 + r.2)

/-- A range of operand-buffer bytes becomes zero (R298). -/
def State.zeroOb (s : State) (pa n : Nat) : State :=
  let cut (r : Nat × Nat) : List (Nat × Nat) :=
    [(r.1, min (r.1 + r.2) pa - r.1), (max r.1 (pa + n), r.1 + r.2 - max r.1 (pa + n))].filter fun x => x.2 != 0
  { s.zeroBytes pa n with obDirty := s.obDirty.flatMap cut }

/-- An MLOOP leaves its tile unreadable until an MWAIT has covered its end, or reported its stop (R294). -/
def MLoop.opens (m : MLoop) (t : Nat) : Bool :=
  bitsOf (m.desc.getD 4 0).toNat 32 3 == t && !(m.state == .stopped && m.reported)

/-- Physical tile `j` of a core is unreadable (R294). -/
def State.tileOpen (s : State) (core j : Nat) : Bool :=
  s.blocks.any fun p =>
    let S := if core = p.2.core then p.2.lead else p.2.follow
    p.2.residence == .resident && (core == p.2.core || p.2.follower == some core) && p.2.home == j / 8 &&
      S.mloops.any fun m => m.opens (j % 8)

/-- The interface number of a link port in a secure stream (Secure streams). -/
def linkIface (port : Nat) : Nat := 96 + port

/-- The world of a secure stream: that of its stream queues, which all have one (Table 14-5). A stream without a queue has none. -/
def State.streamWorld (s : State) (m : Stream) : Option Nat :=
  (m.ifs.find? (· < 96)).map fun q => (s.sqs.findD q StreamQ.init).world

/-- The secure stream that holds a link port, if one that is not UNLOCKED does. -/
def State.portStream (s : State) (port : Nat) : Option (Nat × Stream) :=
  s.sec.streams.find? fun p => p.2.state != 0 && p.2.ifs.contains (linkIface port)

/-- A flit leaves through a port: one for each access that crosses the link. Under a stream its counter advances (R370, R385). -/
def State.sendFlit (s : State) (port : Nat) : State :=
  let L := s.links.findD port Link.init
  let tx := if (s.portStream port).any fun p => p.2.state == 2 then L.txCounter + 1 else L.txCounter
  { s with links := s.links.put port { L with sent := (L.sent + 1) % 4096, txCounter := tx } }

/-- An access of a world may be sent to a link window (R386, R388): the port is up with a verified peer and bound to a stream in RUN
that carries the world, or the port is up in no stream and the world is 0. -/
def State.linkOpen (s : State) (port world : Nat) : Bool :=
  let L := s.links.findD port Link.init
  match s.portStream port with
  | some p => L.state == 2 && p.2.state == 2 && s.streamWorld p.2 == some world
  | none => world == 0 && (L.state == 2 || L.state == 3)

/-- The checks of R9 after the entry is found: world, permission, physical decoding (R379), DEVICE and the map (R180), then
SEALED. Nothing is wrong when the answer is none. -/
def State.pageCheck (s : State) (a : Acc) (need : Need) (d : DWord) (pa : Nat) : Option Bad :=
  if pteWorld d ≠ a.world then some (cPerm, 0)
  else if (need.r && !pteR d) || (need.w && !pteW d) then some (cPerm, 0)
  else
    match s.phys pa with
    | .none => some (cPerm, 0)
    | .control => some (cPerm, 0)
    | .readback => some (cPerm, 0)
    | .core n off =>
      if pteType d ≠ 1 ∨ need.noDev ∨ !s.mapAdmits a.tenant n off then some (cPerm, 0)
      else if s.keyedOb pa then some (cSealed, subWin)
      else if s.sealedItem n off then some (cSealed, subDbg)
      else if !a.engine && decide (0x1000000 ≤ off ∧ off < 0x1200000) && s.spadBank n (spadBankOf (off - 0x1000000)) == .off then
        some (cSpadOff, 0)
      else none
    | .link port off =>
      if pteType d ≠ 0 ∨ !s.linkOpen port a.world ∨ !Config.peerAdmits port off then some (cPerm, 0) else none
    | .dram =>
      if pteType d = 1 ∧ need.noDev then some (cPerm, 0)
      else if pteType d = 2 then some (cSealed, need.sub)
      else none
/-- Translates a virtual address of the translated region for an access (R188, R9). -/
def State.translate (s : State) (a : Acc) (need : Need) (e : Nat) : Except Bad Place × State :=
  match s.entryFor (clusterOf a.core) a.tenant a.world e with
  | (none, s1) => (.error (cXlate, 0), s1)
  | (some d, s1) =>
    let pa := framePa d e
    match s1.pageCheck a need d pa with
    | some b => (.error b, s1)
    | none => (.ok (.mem pa a.ctx (pteType d == 1)), s1)

/-- The size of the gang of a block, 0 when it belongs to none (R73). -/
def State.gangSize (s : State) (b : Nat) : Nat := (s.recOf b).gangSize

/-- The block with a peer number in the gang of a block: a gang is a run of blocks in index order (R73). -/
def State.gangPeer (s : State) (b p : Nat) : Option Nat :=
  let n := s.gangSize b
  let B := s.block b
  if n = 0 then none
  else (s.blocks.find? fun q => q.2.launch == B.launch && q.2.index == B.index / n * n + p).map Prod.fst

/-- The offset of PRIVATE, PEER and SCRATCH addresses resolved (Table 8-2), with the bank-state rule (R140) for scratchpad. -/
def State.spadPlace (s : State) (core off : Nat) : Except Bad Place :=
  if s.spadBank core (spadBankOf off) = .off then .error (cSpadOff, 0) else .ok (.spad core off)

/-- Backing address of an offset into private memory, or WINDOW (Table 8-2). -/
def State.privateAddr (s : State) (a : Acc) (o : Nat) : Option Nat :=
  let R := s.recOf a.block
  if R.stride ≠ 0 ∧ o < R.stride then some (R.privBase + (s.thread a.thread).tid * R.stride + o) else none

/-- The context state that an access needs (R207, R228): the tag was OPEN at issue, and DEVICE and link pages take no access
in a nonzero context (R182, R388). -/
def State.ctxCheck (s : State) (bad : Bool) : Place → Option Bad
  | .mem pa ctx dev =>
    if bad then some (cCtxBad, 0)
    else if ctx ≠ 0 ∧ (dev || (s.phys pa).isLink) then some (cCtxBad, 0)
    else none
  | .spad _ _ => none

/-- Which addresses a form takes (Table 8-11). -/
inductive Region where
  | any | scratch | priv
  deriving DecidableEq, Repr

/-- Resolves the address of an access of `n` bytes (R177, R195): MISALIGN, WINDOW, translation, SPAD-OFF, CTX-BAD, in this
order (R204). -/
def State.resolve (s : State) (a : Acc) (need : Need) (bad : Bool) (rg : Region) (e : Int) (n : Nat) :
    Except Bad Place × State :=
  let fin (r : Except Bad Place × State) : Except Bad Place × State :=
    match r with
    | (.ok p, s1) =>
      match s1.ctxCheck bad p with
      | some b => (.error b, s1)
      | none => (.ok p, s1)
    | x => x
  let scratch (o : Nat) : Except Bad Place × State :=
    if o < (s.recOf a.block).spad then (s.spadPlace a.core ((s.block a.block).spadAt + o), s) else (.error (cWindow, 0), s)
  let priv (o : Nat) : Except Bad Place × State :=
    match s.privateAddr a o with
    | some x => if x < Config.transEnd then s.translate a need x else (.error (cXlate, 0), s)
    | none => (.error (cWindow, 0), s)
  if e % (n : Int) ≠ 0 then (.error (cMisalign, 0), s)
  else
    match rg with
    | .scratch => if e < 0 then (.error (cWindow, 0), s) else fin (scratch e.toNat)
    | .priv => if e < 0 then (.error (cWindow, 0), s) else fin (priv e.toNat)
    | .any =>
      if e < 0 ∨ 2 ^ 52 ≤ e then (.error (cXlate, 0), s)
      else
        let x := e.toNat
        if x < Config.transEnd then fin (s.translate a need x)
        else if x < Config.scratchBase then
          let o := x - Config.peerBase
          match s.gangPeer a.block (o / 2 ^ 24) with
          | some b =>
            if o / 2 ^ 24 < s.gangSize a.block ∧ o % 2 ^ 24 < (s.recOf a.block).spad then
              let B := s.block b
              fin (s.spadPlace (if a.side = 0 then B.core else B.follower.getD B.core) (B.spadAt + o % 2 ^ 24), s)
            else (.error (cWindow, 0), s)
          | none => (.error (cWindow, 0), s)
        else if x < Config.privBase then fin (scratch (x - Config.scratchBase))
        else fin (priv (x - Config.privBase))

/-- The line-sized place of an access, to tell which accesses meet in one line (R192). -/
def Place.line : Place → Nat
  | .mem pa _ _ => pa / 64
  | .spad core off => spadPa core off / 64

/-! ## The L1 (R183, R185) -/

/-- The L1 line of a core that holds a virtual address for a context and tenant. -/
def State.l1Find (s : State) (core vline tag tenant : Nat) : Option L1Line :=
  s.l1.find? fun l => l.core == core && l.vline == vline && l.tag == tag && l.tenant == tenant

/-- Moves a line of the L1 to the front of its set, or to the back under .st (Table 8-6, R183). -/
def State.l1Touch (s : State) (l : L1Line) (hint : Hint) : State :=
  let rest := s.l1.filter fun m => !(m.core == l.core && m.vline == l.vline && m.tag == l.tag && m.tenant == l.tenant)
  { s with l1 := if hint = .st then rest ++ [l] else l :: rest }

/-- Fills a line into the L1: a copy of the same physical line anywhere in the cluster goes first (R185), and a set holds 8
lines. The list runs from the most to the least recently used. -/
def State.l1Fill (s : State) (l : L1Line) (hint : Hint) : State :=
  let kept := s.l1.filter fun m => !(clusterOf m.core == clusterOf l.core && m.pline == l.pline)
  let mine := kept.filter fun m => m.core == l.core && m.vline % 256 == l.vline % 256
  let kept' := if mine.length < 8 then kept
    else match mine.getLast? with
      | some v => kept.filter fun m => !(m.core == v.core && m.vline == v.vline && m.tag == v.tag && m.tenant == v.tenant)
      | none => kept
  { s with l1 := if hint = .st then kept' ++ [l] else l :: kept' }

/-- Invalidates L1 lines that meet a test. -/
def State.l1Drop (s : State) (p : L1Line → Bool) : State := { s with l1 := s.l1.filter fun l => !p l }

/-- The invalidation of an acquire at .cls or wider, and of CCTL.ivall (R199, R238). -/
def State.l1DropTenant (s : State) (core tenant : Nat) : State := s.l1Drop fun l => l.core == core && l.tenant == tenant

/-- What a store does to the L1s of its cluster (R183, R185): the issuing core's line under the store's tag is updated, which counts as
a hit under the store's hint, and copies of the physical line under another tag are invalidated. -/
def State.l1Store (s : State) (a : Acc) (hint : Hint) (vline pa : Nat) (bs : List Byte) : State :=
  let own (l : L1Line) : Bool := l.vline == vline && l.tag == a.ctx && l.tenant == a.tenant
  let f (l : L1Line) : Option L1Line :=
    if clusterOf l.core == clusterOf a.core && l.pline == pa / 64 then
      if own l then some (if l.core == a.core then { l with data := patchLine l.data (pa % 64) bs } else l) else none
    else some l
  let s1 := { s with l1 := s.l1.filterMap f }
  match s1.l1.find? fun l => l.core == a.core && l.pline == pa / 64 && own l with
  | some l => s1.l1Touch l hint
  | none => s1

/-- A read at L2 brings the bytes into the issuing core's line, if it holds one under the same tag: a later load that hits there then
reads nothing older (R234). -/
def State.l1Sync (s : State) (a : Acc) (vaddr pa : Nat) (bs : List Byte) : State :=
  { s with l1 := s.l1.map fun l =>
      if l.core == a.core && l.vline == vaddr / 64 && l.tag == a.ctx && l.tenant == a.tenant && l.pline == pa / 64 then
        { l with data := patchLine l.data (pa % 64) bs }
      else l }

/-! ## Reads and writes of a place -/

/-- The bytes of the spawn entry of a slot (Table 5-3), as two dwords and the join records. The group slot of a group without a slot
reads 0 (log 49). -/
def State.spawnDword (s : State) (t i : Nat) : Nat :=
  let T := s.thread t
  let empty := (s.threads.find t).isNone
  let grp : Option Group := match T.disp with
    | .group g => s.groups.find g
    | _ => none
  let bin : Option Bin := match T.disp with
    | .bin k => s.bins.find k
    | _ => none
  let disp := if empty then 7 else match T.disp with
    | .exited => 6
    | .bin _ => 1
    | .group _ =>
      match grp with
      | none => 6
      | some G =>
        match G.wait with
        | some .join => 2
        | some .gpin => 3
        | some w => if G.slot.isSome then 0 else if w.slotless then 5 else 4
        | none => if G.slot.isSome then 0 else 4
  let pc := match grp, bin with
    | some G, _ => G.pc
    | none, some B => B.pc
    | none, none => 0
  let opps := s.oppsNow (seqOf t) T.block
  let waited := match grp, bin with
    | some G, _ => if G.slot.isSome then 0 else opps - G.oppsAt
    | none, some B => opps - ((B.came.find t).map Prod.snd).getD B.oppsAt
    | none, none => 0
  if i = 0 then disp * 2 ^ 61 + T.retStack.length * 2 ^ 57 + T.joinStack.length * 2 ^ 52 + pc % 2 ^ 52
  else if i = 1 then
    min waited (2 ^ 32 - 1) * 2 ^ 32 + bitNat (!T.pinned && !empty) * 2 ^ 17 + bitNat (T.pinned && !empty) * 2 ^ 16 +
      (match T.disp with
        | .bin k => k % 16 * 2 ^ 8
        | _ => 0) + (match grp with
        | some G => (G.slot.getD 0)
        | none => 0)
  else if i < 4 then 0
  else match T.joinStack[i - 4]? with
    | some r => r.recno * 2 ^ 52 + r.pc
    | none => 0

/-- State codes of banks (Table 6-9). -/
def QState.code : QState → Nat
  | .full => 0
  | .ret => 1
  | .off => 2

/-- The first byte of a keyed operand-buffer range lies at an address (R333). -/
def State.keyedStart (s : State) (pa : Nat) : Bool :=
  s.blocks.any fun p =>
    let hit (core : Nat) (rs : FMap Record) := rs.any fun q => q.2.keyed.isSome && (q.2.range p.2 core).1 == pa
    p.2.residence == .resident && (hit p.2.core p.2.lead.records || (match p.2.follower with
      | some c => hit c p.2.follow.records
      | none => false))

/-- A byte of one core's state readback (Table 13-7). Entries of units that are not in use read zero (R332). Bytes of entries in use
whose inner layout the manual does not give are free (log 22). -/
def State.coreReadback (s : State) (core off : Nat) : Byte :=
  let free (used : Bool) : Byte :=
    if used then Config.readbackByte s.freeCtr (Config.coreBase + core * Config.coreStride + 0x3800000 + off) else 0
  let slots (q k : Nat) : Bool := (s.groups.any fun p => p.2.seq == 4 * core + q && p.2.slot == some k) ||
    (s.assayed.find (32 * (4 * core + q) + k)).isSome
  let logged (q : Nat) : Nat := (s.opLog.filter fun p => p.2.seq == 4 * core + q && !p.2.freed).length
  let byte (x : Nat) : Byte := BitVec.ofNat 8 (byteOf x (off % 8))
  if off < 0x4000 then free (s.blockAtSlot core (off / 0x200)).isSome
  else if 0x10000 ≤ off ∧ off < 0x30000 then free (slots ((off - 0x10000) / 0x8000) ((off - 0x10000) / 0x400 % 32))
  else if 0x30000 ≤ off ∧ off < 0x31000 then
    free (s.bins.find (binKey (4 * core + (off - 0x30000) / 0x400) ((off - 0x30000) / 64 % 16))).isSome
  else if 0x40000 ≤ off ∧ off < 0x80000 then
    free (decide ((off - 0x40000) / 0x400 % 64 < logged ((off - 0x40000) / 0x10000)))
  else if 0x80000 ≤ off ∧ off < 0x80400 then
    let T := s.thread (1024 * core + (off - 0x80000))
    BitVec.ofNat 8 ((T.quarter 0).code + 4 * (T.quarter 1).code + 16 * (T.quarter 2).code + 64 * (T.quarter 3).code)
  else if 0x80400 ≤ off ∧ off < 0x80410 then
    BitVec.ofNat 8 (s.physBank (4 * core + (off - 0x80400) / 4) ((off - 0x80400) % 4)).code
  else if 0x80410 ≤ off ∧ off < 0x80420 then BitVec.ofNat 8 (s.spadBank core (off - 0x80410)).code
  else if 0x100000 ≤ off ∧ off < 0x128000 then free (s.blockAtSlot core ((off - 0x100000) / 0x1400)).isSome
  else if 0x380000 ≤ off ∧ off < 0x384000 then
    let o := off - 0x380000
    if o % 0x200 < 320 then
      match s.recordAt core o with
      | some r => byte (r.dword (o % 0x200 % 40 / 8))
      | none => 0
    else free ((s.blockAtSlot core (o / 0x200)).any fun p => !(if core = p.2.core then p.2.lead else p.2.follow).mloops.isEmpty)
  else if 0x3C0000 ≤ off ∧ off < 0x3C0400 then
    let Q := s.seqr (4 * core + (off - 0x3C0000) / 0x100)
    byte ([Q.slips, Q.opps, Q.wakeWait, Q.grantWait].getD ((off - 0x3C0000) % 0x100 / 8) 0)
  else if 0x3C0800 ≤ off ∧ off < 0x3C1000 then byte (s.debt.findD (256 * core + (off - 0x3C0800) / 8) 0)
  else 0

/-- A byte of a core's map as a read sees it (Table 8-3, R139, R332). A keyed operand-buffer range reads zero, with the SEALED marker in
its first dword (R333). -/
def State.mapByte (s : State) (core off : Nat) : Byte :=
  let pa := Config.coreBase + core * Config.coreStride + off
  if off < 0x100000 then
    let t := 1024 * core + off / 0x400
    let row := off % 0x400 / 4
    if row < 240 then wordByte ((s.thread t).reg row) (off % 4)
    else if (s.threads.find t).isSome then Config.readbackByte s.freeCtr pa else 0
  else if 0x1000000 ≤ off ∧ off < 0x1200000 then
    if s.spadBank core (spadBankOf (off - 0x1000000)) = .off then 0 else s.byte pa
  else if 0x2000000 ≤ off ∧ off < 0x2080000 then
    if s.tileOpen core ((off - 0x2000000) / 0x4000) then Config.freeByte s.freeCtr pa else s.byte pa
  else if 0x2800000 ≤ off ∧ off < 0x2900000 then
    if s.keyedOb pa then (if s.keyedStart (pa - 7) then 0x80 else 0)
    else if s.dirtyOb pa then Config.freeByte s.freeCtr pa else s.byte pa
  else if 0x3000000 ≤ off ∧ off < 0x3020000 then
    BitVec.ofNat 8 (byteOf (s.spawnDword (1024 * core + (off - 0x3000000) / 128) (off % 128 / 8)) (off % 8))
  else if 0x3800000 ≤ off then s.coreReadback core (off - 0x3800000)
  else 0

/-- Whether two address ranges share a byte. -/
def overlaps (a n b m : Nat) : Bool := decide (a < b + m ∧ b < a + n)

/-- Brings a register row written through the map to FULL first (R139); other parts of a core's map take the byte or ignore
it (Table 8-3), an OFF scratchpad bank among them (R140), and spawn entries of resident blocks and of empty slots alike (log 49). -/
def State.mapSet (s : State) (core off : Nat) (b : Byte) : State :=
  if off < 0x100000 then
    let t := 1024 * core + off / 0x400
    let row := off % 0x400 / 4
    if row < 240 ∧ (s.threads.find t).isSome then
      (s.raiseQuarter t (quarterOf row)).modThread t fun T =>
        T.setReg row (BitVec.ofNat 32 (leNat (listSet (leBytes (T.reg row).toNat 4) (off % 4) b)))
    else s
  else if (0x1000000 ≤ off ∧ off < 0x1200000 ∧ s.spadBank core (spadBankOf (off - 0x1000000)) ≠ .off) ∨
      (0x2000000 ≤ off ∧ off < 0x2080000) ∨ (0x2800000 ≤ off ∧ off < 0x2900000) then
    s.setByte (Config.coreBase + core * Config.coreStride + off) b
  else s

/-- A byte of memory in a context, wherever its physical address lies. -/
def State.placeByte (s : State) (ctx pa : Nat) : Byte :=
  match s.phys pa with
  | .core n off => s.mapByte n off
  | .link port off => Config.peerByte port off s.freeCtr
  | _ => s.viewByte ctx pa

/-- Kinds of the model's own items beside those of Table 13-5: the value that a word of R328 gave the leader (9), the reply to
an atomic (8), a store that the leader has performed and the follower has not (10, with the bytes it replaced), and a store
that the follower has dropped and the leader has not performed (11, with its bytes). -/
def kindReply : Nat := 8
/-- See kindReply. -/
def kindUndo : Nat := 10
/-- See kindReply. -/
def kindDropped : Nat := 11

/-- The follower's own view of a byte (R327): its own dropped stores, then the bytes that stores of the leader replaced which
it has not come to. -/
def State.followerByte (s : State) (a : Acc) (pa : Nat) : Byte :=
  let its := (s.block a.block).items
  match its.reverse.findSome? (fun i => if i.kind = kindDropped ∧ i.slot = slotOf a.thread ∧ i.ctx = a.ctx then
      FMap.find i.undo pa else none) with
  | some x => BitVec.ofNat 8 x
  | none =>
    match its.findSome? (fun i => if i.kind = kindUndo ∧ i.ctx = a.ctx then FMap.find i.undo pa else none) with
    | some x => BitVec.ofNat 8 x
    | none => s.placeByte a.ctx pa

/-- Bytes that an accessor reads from translated memory at L2. -/
def State.l2Bytes (s : State) (a : Acc) (ctx pa n : Nat) : List Byte :=
  (upFrom pa n).map fun x => if a.side = 1 then s.followerByte { a with ctx := ctx } x else s.placeByte ctx x

/-- Loads bytes of a place. NORMAL memory goes through the L1 under the hint (R183); a line is filled with the context's
view. -/
def State.loadPlace (s : State) (a : Acc) (hint : Hint) (vaddr : Nat) (p : Place) (n : Nat) : List Byte × State :=
  match p with
  | .spad core off => (s.bytes (spadPa core off) n, s)
  | .mem pa ctx dev =>
    match s.phys pa, dev with
    | .dram, false =>
      if a.side = 1 then (s.l2Bytes a ctx pa n, s)
      else
        let bs := s.l2Bytes a ctx pa n
        if hint = .cg then (bs, s.l1Sync { a with ctx := ctx } vaddr pa bs)
        else (bs, s.l1Fill ⟨a.core, vaddr / 64, ctx, a.tenant, pa / 64, s.viewLine ctx (pa / 64)⟩ hint)
    | .link port _, _ => (s.l2Bytes a ctx pa n, s.sendFlit port)
    | _, _ => (s.l2Bytes a ctx pa n, s)

/-- A load that hits in the L1: it needs no translation (R184). -/
def State.l1Hit (s : State) (a : Acc) (hint : Hint) (vaddr n : Nat) : Option (List Byte × State) :=
  if a.side = 1 ∨ a.engine then none
  else
    match s.l1Find a.core (vaddr / 64) a.ctx a.tenant with
    | some l => some (((lineBytes l.data).drop (vaddr % 64)).take n, s.l1Touch l hint)
    | none => none

/-- Writes the bytes of a core's map one by one. -/
def State.mapWrite (s : State) (core off : Nat) : List Byte → State
  | [] => s
  | b :: r => (s.mapSet core off b).mapWrite core (off + 1) r

/-- Stores bytes to a place (R196). A store in a nonzero context goes to the context's cell. -/
def State.storePlace (s : State) (a : Acc) (hint : Hint) (vaddr : Nat) (p : Place) (bs : List Byte) : State :=
  match p with
  | .spad core off => s.setBytes (spadPa core off) bs
  | .mem pa ctx _ =>
    match s.phys pa with
    | .dram => (s.writeLine ctx pa bs).l1Store { a with ctx := ctx } hint (vaddr / 64) pa bs
    | .core n off => s.mapWrite n off bs
    | .link port _ => s.sendFlit port
    | _ => s

/-! ## Releases and acquires (R237, R238) -/

/-- A word that counts in the pending-store count: a store, an atomic, an ACP (R237). -/
def writesMem : Instr → Bool
  | .st .. | .sts .. | .stl .. | .stw .. | .acp .. | .amo .. | .cas .. | .red .. | .accst .. | .mout .. => true
  | _ => false

/-- A block has no store, atomic or ACP fill that is issued before a number and not acknowledged. Accesses that have faulted
and wait for their replay do not count: a save releases the block's stores and keeps them (R319, log 33). -/
def State.storesBefore (s : State) (b id : Nat) : Bool :=
  s.pendStores.all (fun p => p.2.block != b) && s.acps.all (fun p => p.2.block != b) &&
    s.opLog.all fun p => p.2.block != b || !writesMem p.2.instr || p.2.dormant || decide (id ≤ p.2.age)

/-- Every store, atomic and ACP fill that a block issued before a number has been acknowledged, those that wait for a replay among them
(R293). -/
def State.acknowledged (s : State) (b id : Nat) : Bool :=
  s.storesBefore b id && s.opLog.all fun p => p.2.block != b || !writesMem p.2.instr || decide (id ≤ p.2.age)

/-- No store of a block is pending. -/
def State.storesDone (s : State) (b : Nat) : Bool := s.storesBefore b s.nextId

/-- A release of a block at a scope is complete (R237). -/
def State.released (s : State) (b : Nat) (sc : Scope) : Bool :=
  s.storesDone b && (sc != .sys || s.drain.findD (s.recOf b).tenant 0 == 0)

/-- A word that loads or returns a value, for the wait of an acquire (R238). -/
def returnsValue : Instr → Bool
  | .ld .. | .lds .. | .ldl .. | .ldw .. | .ldk .. | .ldcb .. | .ldcx .. | .amo .. | .cas .. | .waitv .. | .accld .. => true
  | _ => false

/-- Every earlier load, LDCX and returning atomic of some threads has delivered its value (R238). -/
def State.loadsDone (s : State) (ts : List Nat) : Bool :=
  s.inflight.all (fun p => !p.2.isLoad || p.2.writes.all fun w => !ts.contains w.thread) &&
    s.opLog.all fun p => !returnsValue p.2.instr || p.2.dormant || p.2.lanes.all fun l => !ts.contains l.thread

/-- A release that some threads make at a scope is complete: it comes after every earlier access of these threads, their loads among
them, and after the block's stores (R231, R237). -/
def State.releasedFor (s : State) (b : Nat) (sc : Scope) (ts : List Nat) : Bool := s.released b sc && s.loadsDone ts

/-- An engine owns a line: a command that is accepted and has not ended holds it (R241, R264). -/
def State.owned (s : State) (pline : Nat) : Bool :=
  s.engines.any fun p => p.2.any fun c => c.accepted && c.ended.isNone &&
    c.owned.any fun r => decide (r.1 ≤ pline ∧ pline < r.1 + r.2)

/-- The invalidation that an acquire makes (R238): at .cls and wider every L1 line of the tenant on the core. -/
def State.acquire (s : State) (core tenant : Nat) (sc : Scope) : State :=
  if sc = .blk then s else s.l1DropTenant core tenant

/-- The acquire of a group. -/
def State.acquireGroup (s : State) (G : Group) (sc : Scope) : State :=
  s.acquire G.core (s.recOf G.block).tenant sc

/-! ## Clock of waiting -/

/-- Nanoseconds since reset, rounded down. -/
def State.nanos (s : State) : Nat := s.now / Config.ns

end Machine
end Sys2Proof
end

