-- ==== Sys2Proof/Machine/Operands.lean ====
section
/-!
DEFINITION. Operands: what one lane of a word reads (registers, queue registers, immediates, predicates), what it writes,
and the start of a word's issue: the checks and waits that every word shares (R26 to R38, R135 to R138, R192, R224).
-/

namespace Sys2Proof
namespace Machine

/-- Where one lane of a word reads its operands: the state at issue, the thread, its place among the active lanes (which
queue entry it pops, R29), and the cycle of issue. -/
structure LV where
  s : State
  t : Nat
  j : Nat
  clk : Nat

/-- A write of one lane. -/
inductive LaneWrite where
  | reg (n : Nat) (x : Word)
  | pred (k : Nat) (b : Bool)
  | push (q : Nat) (x : DWord)
  deriving DecidableEq, Repr

/-- The thread of the lane. -/
def LV.T (v : LV) : Thread := v.s.thread v.t

/-- The outstanding fixed-latency write of a target that a read at a cycle meets (R38): of several, the earliest, whose old value the
target held before any of them (log 8). -/
def Thread.earlyWrite (T : Thread) (clk : Nat) (d : WDest) : Option FixedWrite :=
  T.fixed.find? fun w => w.dest == d && decide (clk < w.ready)

/-- A register as a word issued now reads it. An early read with checking off takes the new or the old value (R38). -/
def LV.rv (v : LV) (n : Nat) : Word :=
  match v.T.earlyWrite v.clk (.reg n) with
  | none => v.T.reg n
  | some w => if Config.earlyNew v.s.freeCtr v.t n then v.T.reg n else w.old

/-- The entry of a queue register that the lane pops (R29). -/
def LV.queueEntry (v : LV) (k : Nat) : DWord :=
  let S := v.s.bside v.T.block (coreOf v.t)
  ((S.queues.getD k QReg.init).entries).getD v.j 0

/-- A 32-bit register operand (R26, R29). -/
def LV.r32 (v : LV) : Reg → Word
  | .v n => v.rv n.val
  | .q k => lowWord (v.queueEntry k.val)
  | .zero => 0

/-- A 64-bit register operand (R28, R29). -/
def LV.r64 (v : LV) : Reg → DWord
  | .v n => pairOf (v.rv n.val) (v.rv (n.val + 1))
  | .q k => v.queueEntry k.val
  | .zero => 0

/-- A 32-bit source: a register, or the immediate sign-extended (R27). -/
def LV.s32 (v : LV) : Src → Word
  | .reg r => v.r32 r
  | .imm c => BitVec.ofInt 32 (imm18 c)

/-- A 64-bit source (R28). -/
def LV.s64 (v : LV) : Src → DWord
  | .reg r => v.r64 r
  | .imm c => BitVec.ofInt 64 (imm18 c)

/-- A source whose immediate is taken as unsigned (R27). -/
def LV.u32 (v : LV) : Src → Word
  | .reg r => v.r32 r
  | .imm c => BitVec.ofNat 32 c.val

/-- A predicate as a word issued now reads it. -/
def LV.pv (v : LV) (k : Nat) : Bool :=
  if k = 7 then true
  else match v.T.earlyWrite v.clk (.pred k) with
    | none => v.T.pred k
    | some w => if Config.earlyNew v.s.freeCtr v.t (256 + k) then v.T.pred k else w.old != 0

/-- A predicate source: ReadPred(K) differs from its negation. -/
def LV.p (v : LV) (p : PSrc) : Bool := v.pv p.k.val != p.neg

/-- A write of a 32-bit destination (R26, R29). -/
def w32 (d : Reg) (x : Word) : List LaneWrite :=
  match d with
  | .v n => [.reg n.val x]
  | .q k => [.push k.val (x.setWidth 64)]
  | .zero => []

/-- A write of a 64-bit destination (R28, R29). -/
def w64 (d : Reg) (x : DWord) : List LaneWrite :=
  match d with
  | .v n => [.reg n.val (lowWord x), .reg (n.val + 1) (highWord x)]
  | .q k => [.push k.val x]
  | .zero => []

/-- A write of consecutive registers. -/
def wRegs (d : Reg) (xs : List Word) : List LaneWrite :=
  match d, xs with
  | .v n, xs => (xs.zipIdx).map fun p => .reg (n.val + p.2) p.1
  | .q k, [x] => [.push k.val (x.setWidth 64)]
  | .q k, [x, y] => [.push k.val (pairOf x y)]
  | _, _ => []

/-- Applies a lane's writes to its thread, without latency. Queue pushes are not the thread's. -/
def Thread.write (T : Thread) : LaneWrite → Thread
  | .reg n x => T.setReg n x
  | .pred k b => T.setPred k b
  | .push _ _ => T

/-- Target of a write for the fixed-latency record. -/
def LaneWrite.dest : LaneWrite → Option WDest
  | .reg n _ => some (.reg n)
  | .pred k _ => if k = 7 then none else some (.pred k)
  | .push _ _ => none

/-- The value that a target holds before a write. -/
def Thread.oldOf (T : Thread) : WDest → Word
  | .reg n => T.reg n
  | .pred k => if T.pred k then 1 else 0

/-- Applies a write of fixed latency (R35): the value, and until `ready` the record of what an early read may still see. -/
def Thread.writeFixed (ready : Nat) (T : Thread) (w : LaneWrite) : Thread :=
  match w.dest with
  | none => T
  | some d => { T.write w with fixed := T.fixed ++ [⟨d, ready, T.oldOf d⟩] }

/-! ## What a word names -/

/-- The numbers of the registers of an operand. -/
def useNums (u : Use) : List Nat :=
  match u.r with
  | .v k => upFrom k.val u.n
  | _ => []

/-- Register numbers that a word reads. -/
def readsOf (i : Instr) : List Nat := (i.uses.filter (·.rd)).flatMap useNums
/-- Register numbers that a word writes. -/
def writesOf (i : Instr) : List Nat := (i.uses.filter (·.wr)).flatMap useNums
/-- Queue registers that a word pops. -/
def qReadsOf (i : Instr) : List Nat := srcQueues i.uses
/-- Queue registers that a word pushes to. -/
def qWritesOf (i : Instr) : List Nat := i.uses.filterMap fun u => if u.wr then u.r.queue? else none

/-- Predicates that a word reads apart from its guard (R143, R163). -/
def predReadsOf : Instr → List Nat
  | .isetp _ _ _ op p _ _ _ | .isetp64 _ _ _ op p _ _ _ | .fsetp _ _ op p _ _ _ => if op = .none then [] else [p.k.val]
  | .sel _ p _ _ _ | .vote _ _ p _ => [p.k.val]
  | .pset _ _ _ pa pb => [pa.k.val, pb.k.val]
  | .p2v _ _ => [0, 1, 2, 3, 4, 5, 6]
  | _ => []

/-- Predicates that a word writes under the scoreboard (R222, R278, R342). -/
def predTracked : Instr → List Nat
  | .push _ pd _ _ => [pd.val]
  | .ctxopen _ _ _ (some k) _ => [k.val]
  | .psafe _ pd => [pd.val]
  | _ => []

/-- A memory word in the sense of R224. -/
def isMemWord : Instr → Bool
  | .ld .. | .st .. | .lds .. | .sts .. | .ldl .. | .stl .. | .ldw .. | .stw .. | .ldk .. | .pref .. | .cctl .. | .acp ..
  | .acwait .. | .acqry .. | .ldcb .. | .xlq .. => true
  | .amo .. | .cas .. | .red .. | .fence .. | .bar .. | .bara .. | .barw .. | .gbar .. | .ssync .. | .waitv ..
  | .ctxopen .. | .ctxset .. | .ctxsettle .. | .ctxvoid .. | .ctxq .. | .ldcx .. | .ctxwait .. | .ordhead .. => true
  | .launch .. | .evwait .. | .evsig .. | .iprefInv .. | .mloop .. | .accld .. | .accst .. | .mout .. | .push .. => true
  | _ => false

/-- A word that takes an operand-log entry (R191, and the entries that say so). -/
def isLogged : Instr → Bool
  | .ld .. | .st .. | .lds .. | .sts .. | .ldl .. | .stl .. | .ldw .. | .stw .. | .ldk .. | .ldcb .. | .acp .. => true
  | .amo .. | .cas .. | .red .. | .waitv .. | .ldcx .. | .accld .. | .accst .. | .mout .. | .push .. => true
  | _ => false

/-- The order that a word carries, for its release and acquire (Table 10-2). -/
def orderOf : Instr → Order
  | .amo _ _ _ ord _ _ _ _ | .cas _ _ ord _ _ _ _ _ | .red _ _ _ ord _ _ _ | .fence _ ord _ => ord
  | .waitv .. => .acq
  | _ => .rlx

/-- The order has a release. -/
def releases : Order → Bool
  | .rel | .ar | .sc => true
  | _ => false
/-- The order has an acquire. -/
def acquires : Order → Bool
  | .acq | .ar | .sc => true
  | _ => false

/-! ## Scoreboard -/

/-- A pending write counts: it has not been overtaken by a change of its quarter to OFF (R136). -/
def State.notLost (s : State) (t n origin : Nat) : Bool :=
  match (s.thread t).lost.find (quarterOf n) with
  | some m => decide (m ≤ origin)
  | none => true

/-- A register of a thread has a scoreboard-tracked write pending (R37): a result on its way, or a logged word that has not
been performed in the thread's lane. Lanes that have faulted wait for their replay and are not pending. -/
def State.regPending (s : State) (t n : Nat) : Bool :=
  (s.inflight.any fun p => p.2.writes.any fun w => w.thread == t && w.dest == .reg n && s.notLost t n p.2.origin) ||
  s.opLog.any fun p => !p.2.dormant && p.2.lanes.any (fun l => l.thread == t) &&
    (writesOf p.2.instr).contains n && s.notLost t n p.2.age

/-- A predicate of a thread has a scoreboard-tracked write pending (R222, R278). -/
def State.predPending (s : State) (t k : Nat) : Bool :=
  (s.inflight.any fun p => p.2.writes.any fun w => w.thread == t && w.dest == .pred k) ||
  (s.opLog.any fun p => !p.2.dormant && p.2.lanes.any (fun l => l.thread == t) &&
    (predTracked p.2.instr).contains k) ||
  s.mintQ.any fun p => p.2.any fun r => match r with
    | .open_ _ lanes _ _ _ (some j) _ _ => j == k && lanes.contains t
    | _ => false

/-- The handle register of a CTXOPEN that waits for the mint (R222). -/
def State.mintPending (s : State) (t n : Nat) : Bool :=
  s.mintQ.any fun p => p.2.any fun r => match r with
    | .open_ _ lanes _ _ _ _ (.v d) origin => d.val == n && lanes.contains t && s.notLost t n origin
    | _ => false

/-- A live operand-log entry pins a source register of a thread (R192). -/
def State.regPinned (s : State) (t n : Nat) : Bool :=
  s.opLog.any fun p => !p.2.freed && p.2.lanes.any (fun l => l.thread == t) && (readsOf p.2.instr).contains n

/-- Entries of a sequencer's operand log (R191). -/
def State.logCount (s : State) (q : Nat) : Nat := (s.opLog.filter fun p => p.2.seq == q && !p.2.freed).length

/-- A hold on a group's later memory words is over (R224, R251). -/
def State.holdOver (s : State) (b : Nat) : MemHold → Bool
  | .retire tag gen => decide ((s.ctx tag).gen ≠ gen) || (s.ctx tag).state == .retired
  | .release sc => s.released b sc
  | .loads ts => s.loadsDone ts

/-- A CTXOPEN.set of the group's threads still waits at the mint (R222). -/
def State.openPending (s : State) (ts : List Nat) : Bool :=
  s.mintQ.any fun p => p.2.any fun r => match r with
    | .open_ _ lanes _ _ true _ _ _ => lanes.any ts.contains
    | _ => false

/-- A logged word with an acquire has not been performed for some thread (R231). -/
def State.acquirePending (s : State) (ts : List Nat) : Bool :=
  s.opLog.any fun p => acquires (orderOf p.2.instr) && !p.2.dormant &&
    p.2.lanes.any fun l => ts.contains l.thread

/-- A word's scoreboard operands are ready for every thread of a group (R37, R40, R192, R224): no pending register or
predicate that it names, no pinned destination, no quarter still waking, and, for a memory word, no hold. A leader more than 256
unmatched items ahead in one thread waits (R327). -/
def State.ready (s : State) (G : Group) (i : Instr) : Bool :=
  let ts := G.lanes
  let rs := readsOf i
  let ws := writesOf i
  let ps := i.hdr.pred.val :: predReadsOf i ++ predTracked i
  (ts.all fun t =>
    (rs ++ ws).all (fun n => !s.regPending t n && !s.mintPending t n && !(s.thread t).waking (quarterOf n)) &&
    ws.all (fun n => !s.regPinned t n) && ps.all fun k => k == 7 || !s.predPending t k) &&
  (!isMemWord i || (G.memHold.all (s.holdOver G.block) && !s.openPending ts && !s.acquirePending ts)) &&
  (!isLogged i || decide (s.logCount G.seq < Config.logEntries)) &&
  (s.sideOf G.block G.core != 0 || ts.all fun t => decide (((s.block G.block).items.filter fun i =>
    i.side == 0 && decide (i.kind < 8) && i.slot == slotOf t).length ≤ 256))

/-! ## The start of a word's issue -/

/-- A word at its issue: its group, its occupied lanes within the allotment, the active ones that have met no cause yet, and
the causes so far. -/
structure Env where
  g : Nat
  G : Group
  i : Instr
  h : Hdr
  clk : Nat
  occ : List Nat
  act : List Nat
  causes : List LaneCause
  deriving DecidableEq, Repr

/-- How a word's issue starts. -/
inductive Front where
  /-- no group is selected, or it is gone -/
  | absent
  /-- the word is not ready: the group stays at it -/
  | wait (s : State)
  /-- causes end the word before it takes effect (R38) -/
  | stop (s : State)
  /-- the word takes effect in the lanes of the environment -/
  | go (E : Env) (s : State)

/-- The register allotment of a thread's role (R30). -/
def State.allotOf (s : State) (t : Nat) : Nat :=
  let T := s.thread t
  match (s.recOf T.block).roles[T.role]? with
  | some r => r.allot
  | none => 0

/-- The lane's guard passes (R33). -/
def State.guardPasses (s : State) (h : Hdr) (clk t : Nat) : Bool :=
  (LV.mk s t 0 clk).pv h.pred.val != h.pneg

/-- The lane's read would be early (R38). -/
def State.earlyLane (s : State) (i : Instr) (h : Hdr) (clk t : Nat) (active : Bool) : Bool :=
  let T := s.thread t
  (T.earlyWrite clk (.pred h.pred.val)).isSome ||
    (active && ((readsOf i).any (fun n => (T.earlyWrite clk (.reg n)).isSome) ||
      (predReadsOf i).any fun k => (T.earlyWrite clk (.pred k)).isSome))

/-- A source register lies in a quarter that is OFF for the thread (R138). -/
def State.bankOff (s : State) (i : Instr) (t : Nat) : Bool :=
  (readsOf i).any fun n => (s.thread t).quarter (quarterOf n) == .off

/-- Brings the quarters that a word reads or writes to FULL (Table 6-1). -/
def State.wakeFor (s : State) (i : Instr) (ts : List Nat) : State :=
  ts.foldl (fun s t => (readsOf i ++ writesOf i).foldl (fun s n => s.raiseQuarter t (quarterOf n)) s) s

/-- Some quarter that a word names is still waking. -/
def State.stillWaking (s : State) (i : Instr) (ts : List Nat) : Bool :=
  ts.any fun t => (readsOf i ++ writesOf i).any fun n => (s.thread t).waking (quarterOf n)

/-- A command of a kind, given by its dwords, takes its elements from a queue register (Tables 11-7, 11-8). -/
def streamsFrom (k : EngKind) (d : Nat → Nat) (q : Nat) : Bool :=
  match k with
  | .cgs => bitsOf (d 0) 0 8 == 4 && bitsOf (d 2) 0 3 == q
  | .vox => bitOf (d 0) 8 && bitsOf (d 3) 0 3 == q
  | _ => false

/-- A stream command of the block still has entries to consume from a queue register (R276, R279): one in an engine queue, or one whose
PUSH has issued and is still to be queued. -/
def State.consuming (s : State) (b q : Nat) : Bool :=
  (s.engines.any fun p => p.2.any fun c => c.block == b && c.ended.isNone &&
    streamsFrom c.kind (fun j => (c.dwords.getD j 0).toNat) q && decide (c.next < bitsOf ((c.dwords.getD 5 0).toNat) 0 32)) ||
  s.opLog.any fun p => p.2.block == b && !p.2.dormant && (match p.2.instr with
    | .push _ _ k _ => p.2.lanes.any fun l => !p.2.queued.contains l.thread && streamsFrom k (fun j => bitsOf l.a (64 * j) 64) q &&
        decide (bitsOf l.a 352 32 < bitsOf l.a 320 32)
    | _ => false)

/-- What the queue registers of a word ask for (Table 11-11). -/
inductive QueueGate where
  | pass | wait | raise
  deriving DecidableEq, Repr

/-- A read of a queue register by `m` lanes (Table 11-11, R29). -/
def QReg.readGate (Q : QReg) (m : Nat) : QueueGate :=
  if m = 0 then .pass
  else if Q.binding ≠ .none then .raise
  else if m ≤ Q.entries.length then .pass
  else if m ≤ Q.entries.length + Q.reserved then .wait
  else .raise

/-- A write of a queue register by `m` lanes, with `pend` entries of logged words still to come (Table 11-11). -/
def QReg.writeGate (Q : QReg) (m pend : Nat) (consuming : Bool) : QueueGate :=
  if m = 0 then .pass
  else if Q.binding = .none then .raise
  else if m + pend ≤ Config.queuePlaces - Q.entries.length then .pass
  else if consuming then .wait
  else .raise

/-- Entries that logged words of a block on a core, and its groups at EVWAIT, are still to push to a queue register. -/
def State.queuePending (s : State) (b core q : Nat) : Nat :=
  sumOf (s.opLog.map fun p => if p.2.block = b ∧ p.2.seq / 4 = core ∧ (qWritesOf p.2.instr).contains q then p.2.lanes.length
    else 0) +
  sumOf (s.groups.map fun p => match p.2.wait with
    | some (.evwait _ d ls _) => if p.2.block = b ∧ p.2.core = core ∧ d.queue? = some q then ls.length else 0
    | _ => 0)

/-- The gates of all queue registers of a word together: QUEUE first, then a wait. -/
def State.queueGate (s : State) (b core : Nat) (i : Instr) (m : Nat) : QueueGate :=
  let S := s.bside b core
  let gs := (qReadsOf i).map (fun q => (S.queues.getD q QReg.init).readGate m) ++
    (qWritesOf i).map fun q => (S.queues.getD q QReg.init).writeGate m (s.queuePending b core q) (s.consuming b q)
  if gs.contains .raise then .raise else if gs.contains .wait then .wait else .pass

/-- The lanes of a list each raise a cause. -/
def allRaise (ts : List Nat) (cause : Nat) : List LaneCause := ts.map fun t => .plain t cause

/-- A word retires for some threads (R148); `again` marks a word that retired before a save. -/
def State.retire (s : State) (G : Group) (ts : List Nat) : State :=
  let counted := ts.any fun t => !(s.thread t).again
  let s1 := s.modThreads ts fun T => { T with rcnt := if T.again then T.rcnt else T.rcnt + 1, again := false }
  if counted then s1.modBside G.block G.core fun S => { S with retired := S.retired + 1 } else s1

/-- The grant budget of a core (R134): 16 unless the power controller has set another. -/
def State.grantBudget (s : State) (core : Nat) : Nat := s.budgets.findD core 16

/-- Takes at most `n` from some numbers in their order. -/
def takeUpTo : Nat → List Nat → List Nat
  | _, [] => []
  | n, x :: r => min n x :: takeUpTo (n - min n x) r

/-- The grants of the other sequencers of a core in a cycle. -/
def State.grantsOf (s : State) (core q c : Nat) : Nat :=
  sumOf ((upFrom 0 4).map fun k => if k = q then 0 else
    sumOf ((s.seqr (4 * core + k)).grants.map fun g => if g.1 = c then g.2 else 0))

/-- The grants of a word with `per` reads in each of its four banks, from a cycle on (R133, R134): in each cycle two reads from a bank, as
far as the budget goes after the words that won before. The number bounds the cycles. -/
def State.gatherFrom (s : State) (core q : Nat) (per : List Nat) (c : Nat) : Nat → List (Nat × Nat)
  | 0 => []
  | n + 1 =>
    if per.all (· == 0) then []
    else
      let here := takeUpTo (s.grantBudget core - s.grantsOf core q c) (per.map (min 2))
      (c, sumOf here) :: s.gatherFrom core q (per.zipWith (· - ·) here) (c + 1) n

/-- The grants of a word that wins its opportunity now (R133): each distinct register that it reads counts once. -/
def State.gatherOf (s : State) (core q : Nat) (i : Instr) : List (Nat × Nat) :=
  let rs := (readsOf i).eraseDups
  s.gatherFrom core q ((upFrom 0 4).map fun k => (rs.filter fun n => quarterOf n == k).length) (s.clk core) 256

/-- The cycles for which a word that has won its opportunity still gathers its register reads (R133, R134). -/
def State.gatherWait (s : State) (core q : Nat) (i : Instr) : Nat := (s.gatherOf core q i).length - 1

/-- A sequencer issues a word at a cycle; the cycles until then went on gathering (R133, R341), the word's grants keep their place in
the core's budget (R134), and it counts for its tier (R358). -/
def State.noteIssue (s : State) (G : Group) (clk : Nat) (grants : List (Nat × Nat)) : State :=
  let t := (s.recOf G.block).tier
  s.modSeqr G.seq fun Q => { Q with
    grantWait := Q.grantWait + (clk - s.clk G.core), lastIssue := clk + 1, grants := grants
    words := Q.words.store 0 t (Q.words.findD t 0 + 1) }

/-- The first checks and waits of a word (R30, R33, R34, R37, R38, R135 to R138, R29). A lane that meets BANK-OFF is no active lane for
the queue registers: it counts in no `m` and pops and pushes nothing (log 49). -/
def State.front (s : State) (i : Instr) (h : Hdr) : Front :=
  match s.cur with
  | none => .absent
  | some g =>
    match s.groups.find g with
    | none => .absent
    | some G =>
      if !s.ready G i then .wait s
      else
        let late := s.gatherWait G.core G.quarter i
        let clk := s.clk G.core + late
        let top := topReg i.uses
        let beyond := G.lanes.filter fun t => decide (s.allotOf t < top)
        let occ := G.lanes.filter fun t => decide (top ≤ s.allotOf t)
        let act := occ.filter (s.guardPasses h clk)
        let early := if s.enabled G.block G.core cStallShort then
            occ.filter fun t => s.earlyLane i h clk t (act.contains t)
          else []
        let bad := allRaise beyond cIllegalOp
        if !early.isEmpty then
          let stopped := laneSort (beyond ++ occ.filter fun t => early.contains t || act.contains t)
          let rest := occ.filter fun t => !(early.contains t || act.contains t)
          .stop (((s.noteIssue G clk (s.gatherOf G.core G.quarter i)).retire G rest).finish g G (rest.map fun t => (t, G.pc + 8))
            (bad ++ allRaise early cStallShort) stopped)
        else
          let off := act.filter (s.bankOff i)
          let act1 := act.filter fun t => !(s.bankOff i t)
          let s1 := s.wakeFor i act1
          if s1.stillWaking i act1 then .wait s1
          else
            let bad1 := bad ++ allRaise off cBankOff
            match s1.queueGate G.block G.core i act1.length with
            | .wait => .wait (if (qReadsOf i).isEmpty then s1 else s1.beginWait g (.queue (qReadsOf i) act1.length))
            | .raise => .go ⟨g, G, i, h, clk, occ, [], bad1 ++ allRaise act1 cQueue⟩ s1
            | .pass => .go ⟨g, G, i, h, clk, occ, act1, bad1⟩ s1

/-! ## The end of a word's issue -/

/-- Pops a word's queue registers, one entry for each active lane (R29). -/
def State.popQueues (s : State) (E : Env) : State :=
  match qReadsOf E.i with
  | [] => s
  | qs => s.modBside E.G.block E.G.core fun S =>
      { S with queues := qs.foldl (fun l q =>
          let Q := l.getD q QReg.init
          listSet l q { Q with entries := Q.entries.drop E.act.length }) S.queues }

/-- The block runs on a leader and a follower core (R326). -/
def State.paired (s : State) (b : Nat) : Bool := (s.block b).follower.isSome

/-- A core runs the follower's side of a block. -/
def State.isFollower (s : State) (b core : Nat) : Bool := s.paired b && s.sideOf b core == 1

/-- An entry arrives in a queue register; one that a stream command of the leader has taken already goes (R265). -/
def QReg.push (Q : QReg) (x : DWord) : QReg :=
  if Q.owed = 0 then { Q with entries := Q.entries ++ [x] } else { Q with owed := Q.owed - 1 }

/-- A stream command takes the oldest entry of a queue register, or the next to come. -/
def QReg.take (Q : QReg) : QReg :=
  if Q.entries.isEmpty then { Q with owed := Q.owed + 1 } else { Q with entries := Q.entries.drop 1 }

/-- Appends entries to a queue register. -/
def State.pushQueue (s : State) (b core q : Nat) (xs : List DWord) : State :=
  s.modBside b core fun S => { S with queues := listSet S.queues q (xs.foldl QReg.push (S.queues.getD q QReg.init)) }

/-- Pushes of the lanes of a word in lane order (R29). -/
def State.pushAll (s : State) (E : Env) (outs : List (Nat × List LaneWrite)) : State :=
  outs.foldl (fun s o => o.2.foldl (fun s w => match w with
    | .push q x => s.pushQueue E.G.block E.G.core q [x]
    | _ => s) s) s

/-- The lanes' writes with a fixed latency (R35, R39). -/
def State.writeFixed (s : State) (clk lat : Nat) (outs : List (Nat × List LaneWrite)) : State :=
  outs.foldl (fun s o => s.modThread o.1 fun T =>
    o.2.foldl (Thread.writeFixed (clk + lat)) { T with fixed := T.fixed.filter fun w => decide (clk < w.ready) }) s

/-- The lanes' writes as one scoreboard-tracked result (R37), ready after some cycles, with scratchpad banks that change then (R153). -/
def State.writeTracked (s : State) (E : Env) (lat : Nat) (isLoad : Bool) (outs : List (Nat × List LaneWrite))
    (drops : List (Nat × QState) := []) : State :=
  let ws := outs.flatMap fun o => o.2.filterMap fun w => match w with
    | .reg n x => some (⟨o.1, .reg n, x⟩ : RegWrite)
    | .pred k b => some ⟨o.1, .pred k, if b then 1 else 0⟩
    | .push _ _ => none
  if ws.isEmpty && drops.isEmpty then s
  else { s.fresh with inflight := s.inflight.put s.nextId ⟨E.G.block, s.nextId, ws, isLoad, E.clk + lat, drops⟩ }

/-- Values that a block's threads receive: queue pushes at once, register and predicate writes through the scoreboard (R37).
`origin` is the number of the word that asked for them. -/
def State.results (s : State) (b core origin : Nat) (isLoad : Bool) (outs : List (Nat × List LaneWrite)) : State :=
  let s1 := outs.foldl (fun s o => o.2.foldl (fun s w => match w with
    | .push q x => s.pushQueue b core q [x]
    | _ => s) s) s
  let ws := outs.flatMap fun o => o.2.filterMap fun w => match w with
    | .reg n x => some (⟨o.1, .reg n, x⟩ : RegWrite)
    | .pred k b => some ⟨o.1, .pred k, if b then 1 else 0⟩
    | .push _ _ => none
  if ws.isEmpty then s1
  else { s1.fresh with inflight := s1.inflight.put s1.nextId ⟨b, origin, ws, isLoad, s1.clk core, []⟩ }

/-- Applies the release hint of a word to its occupied lanes (R42). -/
def State.applyHint (s : State) (h : Hdr) (ts : List Nat) : State :=
  match h.hint with
  | none => s
  | some q => ts.foldl (fun s t => s.lowerQuarter t q.quarter.val q.off) s

/-- Ends a word that took effect: retirement, release hint, stall count, and where each lane goes. Lanes with a cause stop
(R314); `moves` gives the others their next program counters; `gone` are lanes that retire the word and have left the group
by it. -/
def Env.finish (E : Env) (s : State) (causes : List LaneCause) (moves : List (Nat × Nat)) (busy : Nat := 0)
    (gone : List Nat := []) : State :=
  let all := E.causes ++ causes
  let stopped := E.G.lanes.filter fun t => all.any fun c => c.thread == t
  let mv := moves.filter fun m => !stopped.contains m.1
  let s1 := ((s.noteIssue E.G E.clk (s.gatherOf E.G.core E.G.quarter E.i)).retire E.G (mv.map Prod.fst ++ gone)).applyHint E.h E.occ
  let at_ := max E.G.readyAt (E.clk + max (max E.h.stall.val 1) busy)
  let G := { E.G with readyAt := at_, since := at_ }
  { s1.finish E.g G mv (E.G.lanes.filterMap fun t => all.find? fun c => c.thread == t) stopped with
    freeCtr := s.freeCtr + 1 }

/-- Every lane of the group falls through to the next word. -/
def Env.fall (E : Env) : List (Nat × Nat) := E.G.lanes.map fun t => (t, E.G.pc + 8)

/-- The lanes that stop at a word. -/
def Env.stopped (E : Env) (causes : List LaneCause) : List Nat :=
  E.G.lanes.filter fun t => (E.causes ++ causes).any fun c => c.thread == t

/-- Ends the issue of a word at which the lanes without a cause wait together: they keep the word's program counter until
the wait ends, and lanes with a cause stop. -/
def Env.await (E : Env) (s : State) (causes : List LaneCause) (w : Wait) : State :=
  let stopped := E.stopped causes
  let rest := E.G.lanes.filter fun t => !stopped.contains t
  let s1 := E.finish s causes [] 0 rest
  let G := { E.G with readyAt := max E.G.readyAt (E.clk + max E.h.stall.val 1) }
  if rest.isEmpty then s1
  else if stopped.isEmpty then
    let s2 := s1.setGroup E.g { G with wait := some w }
    if w.slotless then s2.dropSlot E.g else s2
  else
    let g := s1.nextId
    let s2 := s1.spawn G rest E.G.pc
    if w.slotless then s2.beginWait g w else s2.modGroup g fun G => { G with wait := some w }

/-- The view of a lane. -/
def Env.lv (E : Env) (s : State) (t : Nat) : LV := ⟨s, t, E.act.idxOf t, E.clk⟩

/-- Issues a word: a group must be selected; a word that is not ready leaves its group where it is. -/
def issue (i : Instr) (h : Hdr) (s : State) (f : Env → State → State) : Host.Outcome State Fault Refusal :=
  match s.front i h with
  | .absent => .fault .noIssuingGroup
  | .wait s1 => .next s1
  | .stop s1 => .next s1
  | .go E s1 => .next (f E s1)

/-- An event that may occur: its effect if its condition holds, else nothing (log 5). -/
def event (s : State) (enabled : Bool) (f : State → State) : Host.Outcome State Fault Refusal :=
  .next (if enabled then f s else s)

/-- The cores on which a block runs. -/
def State.coresOf (s : State) (b : Nat) : List Nat :=
  (s.block b).core :: match (s.block b).follower with
    | some c => [c]
    | none => []

/-- A word that computes a result in each active lane from what the lane reads, with a fixed latency, and may raise a cause
there (R8: all sources are read before anything is written). -/
def State.alu (lat : Nat) (f : LV → Option LaneCause × List LaneWrite) (E : Env) (s : State) : State :=
  let outs := E.act.map fun t => (t, f (E.lv s t))
  let good := outs.filterMap fun o => if o.2.1.isNone then some (o.1, o.2.2) else none
  let bad := outs.filterMap fun o => o.2.1
  E.finish (((s.popQueues E).writeFixed E.clk lat good).pushAll E good) bad E.fall

/-- A word of the integer pipe: it raises no cause of its own. -/
def aluWord (i : Instr) (h : Hdr) (lat : Nat) (s : State) (f : LV → List LaneWrite) : Host.Outcome State Fault Refusal :=
  issue i h s fun E s1 => s1.alu lat (fun v => (none, f v)) E

/-- A word whose result is tracked by the scoreboard and that raises no cause of its own. -/
def State.tracked (lat : Nat) (f : LV → Option LaneCause × List LaneWrite) (E : Env) (s : State) : State :=
  let outs := E.act.map fun t => (t, f (E.lv s t))
  let good := outs.filterMap fun o => if o.2.1.isNone then some (o.1, o.2.2) else none
  let bad := outs.filterMap fun o => o.2.1
  E.finish (((s.popQueues E).writeTracked E lat false good).pushAll E good) bad E.fall

/-- A word that changes the state once and then falls through; its queue registers are popped (R29). -/
def onceWord (i : Instr) (h : Hdr) (s : State) (f : Env → State → State) : Host.Outcome State Fault Refusal :=
  issue i h s fun E s1 => E.finish ((f E s1).popQueues E) [] E.fall

/-! ## Words whose value a follower takes from its leader (R328) -/

/-- The kind under which a block's items hold a value that a word of R328 gave its leader: the model's own, beside those of
Table 13-6. -/
def kindValue : Nat := 9

/-- The leader's value for the next word of R328 of a slot, if the leader has issued it and has the value. -/
def State.leaderValue (s : State) (b slot : Nat) : Option Nat :=
  ((s.block b).items.find? fun i => i.side == 0 && i.kind == kindValue && i.slot == slot).bind fun i =>
    if i.extra = 0 then some i.data else none

/-- The leader keeps a value for its follower. -/
def State.keepValue (s : State) (b slot pc x : Nat) : State :=
  s.modBlock b fun B => { B with items := B.items ++ [⟨0, slot, 0, kindValue, pc, 0, x, 0, 8, 0, [], s.now⟩] }

/-- The leader keeps the place of a value that the word of some number has yet to get, so that the values of a slot stay in the order
of their words. -/
def State.keepPlace (s : State) (b slot pc origin : Nat) : State :=
  s.modBlock b fun B => { B with items := B.items ++ [⟨0, slot, 0, kindValue, pc, origin, 0, 1, 8, 0, [], s.now⟩] }

/-- The word of some number has got its value. -/
def State.fillPlace (s : State) (b slot origin x : Nat) : State :=
  s.modBlock b fun B => { B with items := B.items.map fun i =>
    if i.kind = kindValue ∧ i.slot = slot ∧ i.extra = 1 ∧ i.addr = origin then { i with addr := 0, extra := 0, data := x } else i }

/-- The first item of a list that meets a test goes. -/
def dropFirst (p : Item → Bool) : List Item → List Item
  | [] => []
  | i :: r => if p i then r else i :: dropFirst p r

/-- The follower has taken a value. -/
def State.takeValue (s : State) (b slot : Nat) : State :=
  s.modBlock b fun B =>
    { B with items := dropFirst (fun i => i.side == 0 && i.kind == kindValue && i.slot == slot) B.items }

/-- A word of R328: as `State.alu`, or `State.tracked` when `tr`, with one value per lane that a follower takes from its
leader, and waits for. -/
def State.shared (tr : Bool) (lat : Nat) (f : LV → Option LaneCause × DWord) (wr : DWord → List LaneWrite) (E : Env)
    (s : State) : State :=
  let b := E.G.block
  let run (g : LV → Option LaneCause × List LaneWrite) : State := if tr then s.tracked lat g E else s.alu lat g E
  if !s.paired b then run fun v => let r := f v; (r.1, wr r.2)
  else
    let good := E.act.filter fun t => (f (E.lv s t)).1.isNone
    if s.isFollower b E.G.core then
      if good.all fun t => (s.leaderValue b (slotOf t)).isSome then
        let s1 := run fun v => ((f v).1, wr (BitVec.ofNat 64 ((s.leaderValue b (slotOf v.t)).getD 0)))
        good.foldl (fun s t => s.takeValue b (slotOf t)) s1
      else s
    else
      let s1 := run fun v => let r := f v; (r.1, wr r.2)
      good.foldl (fun s1 t => s1.keepValue b (slotOf t) E.G.pc (f (E.lv s t)).2.toNat) s1

/-! ## Assay items (R327) -/

/-- The number of the next item of a slot on a side. -/
def State.itemNumber (s : State) (b side slot : Nat) : Nat := (s.block b).itemNo.findD (1024 * side + slot) 0

/-- Two items are the n-th of one slot on the two sides. -/
def Item.opposes (i j : Item) : Bool :=
  decide (i.kind < 8) && decide (j.kind < 8) && i.side != j.side && i.slot == j.slot && i.n == j.n

/-- Two opposing items hold the same. -/
def Item.agrees (i j : Item) : Bool :=
  i.kind == j.kind && i.addr == j.addr && i.data == j.data && i.extra == j.extra && i.size == j.size

/-- Posts an item of a block that runs on two cores: it matches its opposite, which then goes, or it waits for it. Nothing
happens for other blocks. -/
def State.post (s : State) (b core slot kind pc addr data extra size ctx : Nat) (undo : List (Nat × Nat)) : State :=
  if !s.paired b then s
  else
    let side := s.sideOf b core
    let it : Item := ⟨side, slot, s.itemNumber b side slot, kind, pc, addr, data, extra, size, ctx, undo, s.now⟩
    s.modBlock b fun B =>
      let B1 := { B with itemNo := B.itemNo.put (1024 * side + slot) (it.n + 1) }
      if B.items.any fun j => it.opposes j && it.agrees j then
        { B1 with items := dropFirst (fun j => it.opposes j && it.agrees j) B.items, matched := B.matched + 1 }
      else { B1 with items := B.items ++ [it] }

/-- Posts the next program counters of the occupied threads of a branching word (Table 13-5). -/
def State.postBranch (s : State) (E : Env) (moves : List (Nat × Nat)) : State :=
  moves.foldl (fun s m => s.post E.G.block E.G.core (slotOf m.1) 4 E.G.pc 0 m.2 0 8 0 []) s

/-- Ends a branching word. -/
def Env.branch (E : Env) (s : State) (causes : List LaneCause) (moves : List (Nat × Nat)) : State :=
  E.finish (s.postBranch E moves) causes moves

/-- How a command word of a checked block stands (R327): the leader performs it once the follower's items oppose it, and the
follower takes the statuses. -/
inductive Meet where
  /-- not a checked block: the word acts -/
  | alone
  /-- the other side is still to come -/
  | wait (s : State)
  /-- the leader acts, and keeps its statuses for the follower -/
  | act (s : State)
  /-- the follower takes these statuses -/
  | take (vals : List Nat) (s : State)

/-- The model's own item that says since when a leader waits for its follower's item of a command. -/
def kindMark : Nat := 14

/-- A leader begins to wait for its follower's item of a command. -/
def State.mark (s : State) (b slot pc x : Nat) : State :=
  if (s.block b).items.any fun i => i.kind == kindMark && i.slot == slot then s
  else s.modBlock b fun B => { B with items := B.items ++ [⟨0, slot, 0, kindMark, pc, 0, x, 0, 128, 0, [], s.now⟩] }

/-- The follower's item has come. -/
def State.unmark (s : State) (b slot : Nat) : State :=
  s.modBlock b fun B => { B with items := dropFirst (fun i => i.kind == kindMark && i.slot == slot) B.items }

/-- Brings the two sides of a command word together. `cmd` gives each lane's bytes. -/
def State.meet (s : State) (b core pc : Nat) (cmds : List (Nat × Nat)) : Meet :=
  if !s.paired b then .alone
  else if s.isFollower b core then
    if cmds.all fun c => (s.leaderValue b (slotOf c.1)).isSome then
      .take (cmds.map fun c => (s.leaderValue b (slotOf c.1)).getD 0)
        (cmds.foldl (fun s c => s.takeValue b (slotOf c.1)) s)
    else
      let posted := (s.block b).items.any fun i => i.side == 1 && i.kind == 3 && i.pc == pc &&
        cmds.any fun c => slotOf c.1 == i.slot
      .wait (if posted then s else cmds.foldl (fun s c => s.post b core (slotOf c.1) 3 pc 0 c.2 0 128 0 []) s)
  else
    let open_ (slot : Nat) : Bool := (s.block b).items.any fun i => i.side == 0 && decide (i.kind < 8) && i.slot == slot
    let facing (c : Nat × Nat) : Option Item := if open_ (slotOf c.1) then none else (s.block b).items.find? fun i =>
      i.side == 1 && decide (i.kind < 8) && i.slot == slotOf c.1 && i.n == s.itemNumber b 0 (slotOf c.1)
    if cmds.all fun c => (facing c).isSome then
      let s1 := cmds.foldl (fun s c => (s.unmark b (slotOf c.1)).post b core (slotOf c.1) 3 pc 0 c.2 0 128 0 []) s
      if cmds.all fun c => match facing c with
          | some i => i.kind == 3 && i.data == c.2
          | none => false then .act s1
      else .wait s1
    else .wait (cmds.foldl (fun s c => s.mark b (slotOf c.1) pc c.2) s)

end Machine
end Sys2Proof
end

