-- ==== Sys2Proof/Machine/Flags.lean ====
section
/-!
DEFINITION. Comparisons and predicates (R141, R142, Table 6-3, Table 7-7).
-/

namespace Sys2Proof
namespace Machine

/-- A 32-bit value as an integer, signed or unsigned. -/
def ext32 (sg : Bool) (x : Word) : Int := if sg then x.toInt else (x.toNat : Int)
/-- A 64-bit value as an integer, signed or unsigned. -/
def ext64 (sg : Bool) (x : DWord) : Int := if sg then x.toInt else (x.toNat : Int)

/-- Table 6-3. -/
def Cmp.holds (c : Cmp) (a b : Int) : Bool :=
  match c with
  | .eq => a == b
  | .ne => a != b
  | .lt => decide (a < b)
  | .le => decide (a ≤ b)
  | .gt => decide (b < a)
  | .ge => decide (b ≤ a)

/-- The combining operation of ISETP, ISETP64 and FSETP with a second predicate value (Table 6-6). -/
def combine (op : PComb) (t p : Bool) : Bool :=
  match op with
  | .none => t
  | .and => t && p
  | .or => t || p
  | .xor => t != p

/-- PSET (Table 6-6). -/
def psetOf (op : PsetOp) (x y : Bool) : Bool :=
  match op with
  | .and => x && y
  | .or => x || y
  | .xor => x != y

end Machine
end Sys2Proof
end

