-- ==== Sys2Proof/Machine/Fp.lean ====
section
/-!
DEFINITION. Floating-point values: formats, exact values, one rounding, conditions and causes (R154 to R158), the exact sums,
products and comparisons of class 1 and of the pair slots (R164 to R169), conversions (R171), and the special functions
with the bounds of Table 7-5 (R162, R170).
-/

namespace Sys2Proof
namespace Machine

/-- A binary format: exponent and fraction widths (Table 7-1). -/
structure Fmt where
  eb : Nat
  fb : Nat
  deriving DecidableEq, Repr

/-- binary32. -/
def fp32 : Fmt := ⟨8, 23⟩
/-- binary16. -/
def fp16 : Fmt := ⟨5, 10⟩
/-- BF16. -/
def bf16 : Fmt := ⟨8, 7⟩

/-- Exponent bias. -/
def Fmt.bias (f : Fmt) : Int := 2 ^ (f.eb - 1) - 1
/-- Exponent of the smallest normal number. -/
def Fmt.emin (f : Fmt) : Int := 1 - f.bias
/-- Width in bits. -/
def Fmt.width (f : Fmt) : Nat := 1 + f.eb + f.fb
/-- The pattern of infinity without its sign. -/
def Fmt.infBits (f : Fmt) : Nat := (2 ^ f.eb - 1) * 2 ^ f.fb
/-- The canonical NaN (Table 7-1). -/
def Fmt.canon (f : Fmt) : Nat := f.infBits + 2 ^ (f.fb - 1)
/-- The largest finite number without its sign. -/
def Fmt.maxBits (f : Fmt) : Nat := f.infBits - 1
/-- The sign bit. -/
def Fmt.signBit (f : Fmt) (neg : Bool) : Nat := if neg then 2 ^ (f.eb + f.fb) else 0

/-- What a pattern denotes; a finite number is m x 2^e with its sign. -/
inductive FVal where
  | nan (signalling : Bool)
  | inf (neg : Bool)
  | fin (neg : Bool) (m : Nat) (e : Int)
  deriving DecidableEq, Repr

/-- The value of a pattern (R154, R156). -/
def Fmt.unpack (f : Fmt) (x : Nat) : FVal :=
  let neg := bitOf x (f.eb + f.fb)
  let ex := bitsOf x f.fb f.eb
  let fr := bitsOf x 0 f.fb
  if ex = 2 ^ f.eb - 1 then (if fr = 0 then .inf neg else .nan (!bitOf x (f.fb - 1)))
  else if ex = 0 then .fin neg fr (f.emin - f.fb)
  else .fin neg (2 ^ f.fb + fr) ((ex : Int) - f.bias - f.fb)

/-- The value is a NaN. -/
def FVal.isNaN : FVal → Bool
  | .nan _ => true
  | _ => false
/-- The value is a signalling NaN. -/
def FVal.isSig : FVal → Bool
  | .nan b => b
  | _ => false
/-- The value with the opposite sign. -/
def FVal.neg : FVal → FVal
  | .nan b => .nan b
  | .inf n => .inf !n
  | .fin n m e => .fin (!n) m e

/-- The conditions of Table 7-3 that an operation has met. -/
structure FCond where
  inv : Bool := false
  dz : Bool := false
  of : Bool := false
  uf : Bool := false
  nx : Bool := false
  deriving DecidableEq, Repr

/-- Conditions of either. -/
def FCond.or (a b : FCond) : FCond := ⟨a.inv || b.inv, a.dz || b.dz, a.of || b.of, a.uf || b.uf, a.nx || b.nx⟩

/-- A result pattern with its conditions. -/
structure FRes where
  bits : Nat
  cond : FCond
  deriving DecidableEq, Repr

/-- A result without a condition. -/
def FRes.exact (x : Nat) : FRes := ⟨x, {}⟩
/-- The canonical NaN, with FP-INVALID when `inv`. -/
def Fmt.nanRes (f : Fmt) (inv : Bool) : FRes := ⟨f.canon, { inv := inv }⟩

/-- A magnitude rounds up at a place, given the quotient's low bit and what lies below it: 0 nothing, 1 less than half,
2 half, 3 more than half. -/
def roundsUp (r : Rnd) (neg odd : Bool) (low : Nat) : Bool :=
  match r with
  | .rn => decide (low = 3) || (decide (low = 2) && odd)
  | .rz => false
  | .rd => neg && decide (low ≠ 0)
  | .ru => !neg && decide (low ≠ 0)

/-- `m / 2^k` rounded, and whether that was inexact. -/
def roundShift (r : Rnd) (neg : Bool) (m k : Nat) : Nat × Bool :=
  if Nat.log2 m + 2 < k then (if roundsUp r neg false (if m = 0 then 0 else 1) then 1 else 0, m ≠ 0)
  else
    let q := m / 2 ^ k
    let rem := m % 2 ^ k
    let low := if rem = 0 then 0 else if 2 * rem < 2 ^ k then 1 else if 2 * rem = 2 ^ k then 2 else 3
    (if roundsUp r neg (q % 2 = 1) low then q + 1 else q, low ≠ 0)

/-- `m x 2^e` at a place with exponent `q`, rounded, and whether that was inexact. -/
def roundAt (r : Rnd) (neg : Bool) (m : Nat) (e q : Int) : Nat × Bool :=
  if q ≤ e then (m * 2 ^ (e - q).toNat, false) else roundShift r neg m (q - e).toNat

/-- The result of an overflow (Table 7-2). -/
def Fmt.overflow (f : Fmt) (r : Rnd) (neg : Bool) : Nat :=
  f.signBit neg + match r, neg with
    | .rn, _ => f.infBits
    | .rz, _ => f.maxBits
    | .rd, true => f.infBits
    | .rd, false => f.maxBits
    | .ru, true => f.maxBits
    | .ru, false => f.infBits

/-- Round of R157: the nonzero exact value m x 2^e rounded once. -/
def Fmt.round (f : Fmt) (r : Rnd) (neg : Bool) (m : Nat) (e : Int) : FRes :=
  let top := e + Nat.log2 m
  let q := max (top - f.fb) (f.emin - f.fb)
  let (x, nx) := roundAt r neg m e q
  let (x, q) := if x = 2 ^ (f.fb + 1) then (2 ^ f.fb, q + 1) else (x, q)
  let tiny := decide (top < f.emin - 1) ||
    (decide (top = f.emin - 1) && decide ((roundAt r neg m e (top - f.fb)).1 < 2 ^ (f.fb + 1)))
  if 2 ^ f.fb ≤ x ∧ f.bias < q + f.fb then ⟨f.overflow r neg, { of := true, nx := true }⟩
  else
    let b := if x < 2 ^ f.fb then x else (q + f.fb + f.bias).toNat * 2 ^ f.fb + (x - 2 ^ f.fb)
    ⟨f.signBit neg + b, { uf := tiny && nx, nx := nx }⟩

/-- A zero with a sign. -/
def Fmt.zero (f : Fmt) (neg : Bool) : FRes := .exact (f.signBit neg)

/-- The exact value m x 2^e of a sign, zero included, rounded once. -/
def Fmt.roundZ (f : Fmt) (r : Rnd) (neg : Bool) (m : Nat) (e : Int) : FRes :=
  if m = 0 then f.zero neg else f.round r neg m e

/-- A product of two values, and whether it is 0 x infinity (Table 7-3). -/
def FVal.mul (x y : FVal) : FVal × Bool :=
  match x, y with
  | .nan a, .nan b => (.nan (a || b), false)
  | .nan a, _ => (.nan a, false)
  | _, .nan b => (.nan b, false)
  | .inf a, .inf b => (.inf (a != b), false)
  | .inf a, .fin b m _ => if m = 0 then (.nan false, true) else (.inf (a != b), false)
  | .fin a m _, .inf b => if m = 0 then (.nan false, true) else (.inf (a != b), false)
  | .fin a m e, .fin b n g => (.fin (a != b) (m * n) (e + g), false)

/-- A signed integer multiple of 2^e. -/
def FVal.scaled (e : Int) : FVal → Int
  | .fin neg m g => let x : Int := m * 2 ^ (g - e).toNat; if neg then -x else x
  | _ => 0

/-- The least exponent of some finite terms. -/
def leastExp (ts : List FVal) : Int :=
  ts.foldl (fun a t => match t with
    | .fin _ _ e => min a e
    | _ => a) 1000

/-- The exact sum of some terms, rounded once, with the sign rule of an exact zero (R157). `inv` says that a product was
0 x infinity. -/
def Fmt.sum (f : Fmt) (r : Rnd) (ts : List FVal) (inv : Bool) : FRes :=
  let bad := inv || ts.any FVal.isSig || (ts.contains (.inf false) && ts.contains (.inf true))
  if bad || ts.any FVal.isNaN then f.nanRes bad
  else if ts.contains (.inf false) then .exact f.infBits
  else if ts.contains (.inf true) then .exact (f.signBit true + f.infBits)
  else
    let e := leastExp ts
    let x := ts.foldl (fun a t => a + t.scaled e) 0
    if x = 0 then
      let zero (n : Bool) (t : FVal) : Bool := match t with
        | .fin b m _ => m == 0 && b == n
        | _ => false
      if ts.all (zero true) then f.zero true
      else if ts.all (zero false) then f.zero false
      else f.zero (r == .rd)
    else f.round r (x < 0) x.natAbs e

/-- x + y. -/
def Fmt.add (f : Fmt) (r : Rnd) (x y : FVal) : FRes := f.sum r [x, y] false
/-- x - y. -/
def Fmt.sub (f : Fmt) (r : Rnd) (x y : FVal) : FRes := f.sum r [x, y.neg] false
/-- x times y. -/
def Fmt.mul (f : Fmt) (r : Rnd) (x y : FVal) : FRes := let p := x.mul y; f.sum r [p.1] p.2
/-- x times y plus z, rounded once (R165). -/
def Fmt.fma (f : Fmt) (r : Rnd) (x y z : FVal) : FRes := let p := x.mul y; f.sum r [p.1, z] p.2

/-- The exact order of two numbers: whether x < y. -/
def FVal.less (x y : FVal) : Bool :=
  match x, y with
  | .inf true, .inf true => false
  | .inf true, _ => true
  | _, .inf true => false
  | .inf false, _ => false
  | _, .inf false => true
  | _, _ => let e := leastExp [x, y]; decide (x.scaled e < y.scaled e)

/-- The sign of a value. -/
def FVal.isNeg : FVal → Bool
  | .nan _ => false
  | .inf n => n
  | .fin n _ _ => n

/-- The order of FMIN and FMAX: -0 lies below +0 (R166). -/
def FVal.below (x y : FVal) : Bool := x.less y || (!y.less x && x.isNeg && !y.isNeg)

/-- FMIN (`max = false`) and FMAX on patterns (R166). -/
def Fmt.minMax (f : Fmt) (mx : Bool) (a b : Nat) : FRes :=
  let x := f.unpack a
  let y := f.unpack b
  let inv := x.isSig || y.isSig
  let bits :=
    if x.isNaN && y.isNaN then f.canon
    else if x.isNaN then b
    else if y.isNaN then a
    else if (y.below x) != mx then b else a
  ⟨bits, { inv := inv }⟩

/-- FMED3 (R166). -/
def Fmt.med3 (f : Fmt) (a b c : Nat) : FRes :=
  let lo := (f.minMax false a b).bits
  let hi := (f.minMax true a b).bits
  let m := (f.minMax false hi c).bits
  ⟨(f.minMax true lo m).bits,
    { inv := (f.unpack a).isSig || (f.unpack b).isSig || (f.unpack c).isSig }⟩

/-- Table 7-7, and whether the comparison detects FP-INVALID (R164). -/
def FCmp.test (c : FCmp) (x y : FVal) : Bool × Bool :=
  let un := x.isNaN || y.isNaN
  let lt := !un && x.less y
  let gt := !un && y.less x
  let eq := !un && !lt && !gt
  let sig := x.isSig || y.isSig
  match c with
  | .eq => (eq, sig)
  | .ne => (lt || gt, sig)
  | .lt => (lt, sig || un)
  | .le => (lt || eq, sig || un)
  | .gt => (gt, sig || un)
  | .ge => (gt || eq, sig || un)
  | .num => (!un, sig)
  | .nan => (un, sig)
  | .equ => (eq || un, sig)
  | .neu => (!eq, sig)
  | .ltu => (lt || un, sig)
  | .leu => (!gt, sig)
  | .gtu => (gt || un, sig)
  | .geu => (!lt, sig)

/-- FCLASS (Table 7-9). -/
def Fmt.classBit (f : Fmt) (x : Nat) : Nat :=
  match f.unpack x with
  | .nan s => if s then 8 else 9
  | .inf n => if n then 0 else 7
  | .fin n m _ =>
    if m = 0 then (if n then 3 else 4)
    else if m < 2 ^ f.fb then (if n then 2 else 5)
    else (if n then 1 else 6)

/-- FRND (R169). -/
def frndOf (r : Rnd) (x : Nat) : FRes :=
  match fp32.unpack x with
  | .nan s => fp32.nanRes s
  | .inf n => .exact (fp32.signBit n + fp32.infBits)
  | .fin n m e => ⟨(fp32.roundZ .rz n (roundAt r n m e 0).1 0).bits, {}⟩

/-- FSCALE (R165): F(a) x 2^b, rounded once. -/
def fscaleOf (r : Rnd) (x : Nat) (b : Int) : FRes :=
  match fp32.unpack x with
  | .nan s => fp32.nanRes s
  | .inf n => .exact (fp32.signBit n + fp32.infBits)
  | .fin n m e => fp32.roundZ r n m (e + b)

/-! ## Conversions (R171) -/

/-- The float format of a type code, if it is one. -/
def CvtType.fmt? : CvtType → Option Fmt
  | .f32 => some fp32
  | .f16 => some fp16
  | .bf16 => some bf16
  | _ => none

/-- Width and signedness of an integer type code. -/
def CvtType.int : CvtType → Nat × Bool
  | .s8 => (8, true)
  | .z8 => (8, false)
  | .s16 => (16, true)
  | .z16 => (16, false)
  | .s32 => (32, true)
  | .z32 => (32, false)
  | .s64 => (64, true)
  | _ => (64, false)

/-- The source value of CVT. -/
def cvtSource (src : CvtType) (x : Nat) : FVal :=
  match CvtType.fmt? src with
  | some f => f.unpack (x % 2 ^ f.width)
  | none =>
    let (w, sg) := CvtType.int src
    let n : Int := if sg then signedOf x w else (x % 2 ^ w : Nat)
    .fin (n < 0) n.natAbs 0

/-- The integer result of CVT and its conditions. -/
def cvtToInt (w : Nat) (sg : Bool) (r : Rnd) (v : FVal) : Int × FCond :=
  let lo : Int := if sg then -(2 ^ (w - 1)) else 0
  let hi : Int := if sg then 2 ^ (w - 1) - 1 else 2 ^ w - 1
  match v with
  | .nan _ => (0, { inv := true })
  | .inf n => (if n then lo else hi, { inv := true })
  | .fin neg m e =>
    let big := decide (70 < e)
    let (n, nx) := if big then (if m = 0 then 0 else 2 ^ 70, false) else roundAt r neg m e 0
    let x : Int := if neg then -(n : Int) else n
    if x < lo then (lo, { inv := true }) else if hi < x then (hi, { inv := true }) else (x, { nx := nx })

/-- A float result of CVT, CVTPK: the value rounded to a format. -/
def Fmt.ofVal (f : Fmt) (r : Rnd) (v : FVal) : FRes :=
  match v with
  | .nan s => f.nanRes s
  | .inf n => .exact (f.signBit n + f.infBits)
  | .fin n m e => f.roundZ r n m e

/-- CVT: the pattern written, as 64 bits, with its conditions (R171). -/
def cvtOf (dst src : CvtType) (r : Rnd) (x : Nat) : DWord × FCond :=
  let v := cvtSource src x
  match CvtType.fmt? dst with
  | some f => let y := f.ofVal r v; (BitVec.ofNat 64 y.bits, y.cond)
  | none =>
    let (w, sg) := CvtType.int dst
    let (n, c) := cvtToInt w sg r v
    (BitVec.ofInt 64 n, c)

/-! ## Codebooks (R159, R160, R173, R174) -/

/-- Entry `k` of a codebook in eight words (R159). -/
def codeEntry (cb : List Word) (k : Nat) : Nat := bitsOf (cb.getD (k / 2) 0).toNat (16 * (k % 2)) 16

/-- The distance of CBENC as a pair: infinite, then a number of units of 2^e. -/
def codeDist (x y : FVal) (e : Int) : Nat × Nat :=
  match y with
  | .inf _ => (1, 0)
  | _ => (0, (x.scaled e - y.scaled e).natAbs)

/-- The first index of a list whose element is best by a strict order. -/
def bestIdx {α : Type} (better : α → α → Bool) : List (Nat × α) → Option (Nat × α)
  | [] => none
  | p :: r =>
    match bestIdx better r with
    | none => some p
    | some q => if better q.2 p.2 then some q else some p

/-- CBENC (R173): the code and whether FP-INVALID is met. `e8` is none when the scale operand is omitted. -/
def cbencOf (a : Nat) (cb : List Word) (e8 : Option Nat) : Nat × Bool :=
  let s : Int := match e8 with
    | none => 0
    | some e => (e : Int) - 127
  let ents := ((upFrom 0 16).map fun k => (k, bf16.unpack (codeEntry cb k))).filter fun p => !p.2.isNaN
  if e8 = some 255 then (0, true)
  else
    match fp32.unpack a with
    | .nan _ => (0, true)
    | .inf n =>
      match bestIdx (fun p q => if n then FVal.less p q else FVal.less q p) ents with
      | some p => (p.1, false)
      | none => (0, false)
    | .fin n m e =>
      let x : FVal := .fin n m (e - s)
      let g := leastExp (x :: ents.map Prod.snd)
      match bestIdx (fun p q => let d := codeDist x p g; let d' := codeDist x q g
          decide (d.1 < d'.1) || (d.1 == d'.1 && decide (d.2 < d'.2))) ents with
      | some p => (p.1, false)
      | none => (0, false)

/-- CBDEC (R174): entry x 2^s rounded to FP32. -/
def cbdecOf (k : Nat) (cb : List Word) (e8 : Option Nat) : FRes :=
  if e8 = some 255 then .exact fp32.canon
  else
    let s : Int := match e8 with
      | none => 0
      | some e => (e : Int) - 127
    match bf16.unpack (codeEntry cb k) with
    | .nan sg => fp32.nanRes sg
    | .inf n => .exact (fp32.signBit n + fp32.infBits)
    | .fin n m e => fp32.roundZ .rn n m (e + s)

/-! ## Square root -/

/-- The floor of the square root, bit by bit. -/
def isqrt (x : Nat) : Nat → Nat → Nat
  | 0, r => r
  | k + 1, r => isqrt x k (if (r + 2 ^ k) * (r + 2 ^ k) ≤ x then r + 2 ^ k else r)

/-- The square root of m x 2^e rounded once (R170): the root has at least 32 bits, and a sticky bit below them. -/
def fsqrtOf (r : Rnd) (x : Nat) : FRes :=
  match fp32.unpack x with
  | .nan s => fp32.nanRes s
  | .inf n => if n then fp32.nanRes true else .exact fp32.infBits
  | .fin n m e =>
    if m = 0 then fp32.zero n
    else if n then fp32.nanRes true
    else
      let odd := e % 2 ≠ 0
      let big := (if odd then 2 * m else m) * 2 ^ 64
      let e2 := (if odd then e - 1 else e) / 2 - 32
      let s := isqrt big 48 0
      fp32.round r false (2 * s + (if s * s = big then 0 else 1)) (e2 - 1)

/-! ## Special functions (R162, R170): the exact value y to many more bits than the bound needs, as a numerator over 2^prec -/

/-- Fraction bits of the fixed-point numbers below. -/
def prec : Nat := 480
/-- One in fixed point. -/
def one : Int := 2 ^ prec
/-- A finite value in fixed point. -/
def fxOf (neg : Bool) (m : Nat) (e : Int) : Int :=
  let k := e + prec
  let a : Int := if 0 ≤ k then m * 2 ^ k.toNat else (m : Int) / 2 ^ (-k).toNat
  if neg then -a else a
/-- Product in fixed point. -/
def fxMul (a b : Int) : Int := a * b / one

/-- The arctangent of 1/n by its series. -/
def atanInv (n : Int) : Nat → Int → Int → Int
  | 0, _, _ => 0
  | k + 1, t, d => t / d - atanInv n k (t / (n * n)) (d + 2)

/-- π in fixed point, by Machin's formula. -/
def fxPi : Int := 16 * atanInv 5 240 (one / 5) 1 - 4 * atanInv 239 80 (one / 239) 1

/-- The exponential series from term `n`, whose value is `t`. -/
def expSeries (x : Int) : Nat → Int → Int → Int
  | 0, _, _ => 0
  | k + 1, t, n => t + expSeries x k (fxMul t x / n) (n + 1)

/-- e^x for a small x. -/
def fxExp (x : Int) : Int := expSeries x 160 one 1

/-- The series of atanh. -/
def atanhSeries (z2 : Int) : Nat → Int → Int → Int
  | 0, _, _ => 0
  | k + 1, t, d => t / d + atanhSeries z2 k (fxMul t z2) (d + 2)

/-- ln of a number from 1 to 2. -/
def fxLn (x : Int) : Int :=
  let z := (x - one) * one / (x + one)
  2 * atanhSeries (fxMul z z) 200 z 1

/-- ln 2. -/
def fxLn2 : Int := fxLn (2 * one)

/-- The series of sine and cosine from a term. -/
def trigSeries (x2 : Int) : Nat → Int → Int → Int
  | 0, _, _ => 0
  | k + 1, t, n => t - trigSeries x2 k (fxMul t x2 / (n * (n + 1))) (n + 2)

/-- The argument of sine and cosine brought into -π to π. -/
def fxReduce (x : Int) : Int :=
  let r := x % (2 * fxPi)
  if fxPi < r then r - 2 * fxPi else r

/-- sin x. -/
def fxSin (x : Int) : Int := let r := fxReduce x; trigSeries (fxMul r r) 120 r 2
/-- cos x. -/
def fxCos (x : Int) : Int := let r := fxReduce x; trigSeries (fxMul r r) 120 one 1

/-- 2^x for a number given as a fixed-point number. -/
def fxExp2 (x : Int) : Int :=
  let i := x / one
  let y := fxExp (fxMul (x % one) fxLn2)
  if 0 ≤ i then y * 2 ^ i.toNat else y / 2 ^ (-i).toNat

/-- log2 of m x 2^e. -/
def fxLog2 (m : Nat) (e : Int) : Int :=
  let l := Nat.log2 m
  (e + l) * one + fxLn (fxOf false m (-(l : Int))) * one / fxLn2

/-- tanh x, for x from -64 to 64. -/
def fxTanh (x : Int) : Int :=
  let y := fxExp2 (2 * x * one / fxLn2)
  (y - one) * one / (y + one)

/-- The special-function forms. -/
inductive SFun where
  | rcp | rsq | exp2 | log2 | sin | cos | tanh
  deriving DecidableEq, Repr

/-- The number of a form for Config.special. -/
def SFun.num : SFun → Nat
  | .rcp => 0
  | .rsq => 1
  | .exp2 => 2
  | .log2 => 3
  | .sin => 4
  | .cos => 5
  | .tanh => 6

/-- The exact value for a finite operand without a special case, in fixed point. -/
def SFun.value (f : SFun) (neg : Bool) (m : Nat) (e : Int) : Int :=
  match f with
  | .rcp =>
    let q : Int := if 0 ≤ e then one / (m * 2 ^ e.toNat) else one * 2 ^ (-e).toNat / m
    if neg then -q else q
  | .rsq =>
    let q : Int := if 0 ≤ e then one * one / (m * 2 ^ e.toNat) else one * one * 2 ^ (-e).toNat / m
    isqrt q.toNat 620 0
  | .exp2 => if neg && decide (512 < e + Nat.log2 m) then 0 else fxExp2 (max (-(420 * one)) (fxOf neg m e))
  | .log2 => fxLog2 m e
  | .sin => fxSin (fxOf neg m e)
  | .cos => fxCos (fxOf neg m e)
  | .tanh => if 6 ≤ e + Nat.log2 m then (if neg then 1 - one else one - 1) else fxTanh (fxOf neg m e)

/-- The ulp of R162 at y, in fixed point: the distance of the FP32 numbers that bracket it. -/
def fxUlp (y : Int) : Int :=
  let l : Int := (Nat.log2 y.natAbs : Int) - prec
  2 ^ (max (l - 23) (-149) + prec).toNat

/-- The bound of Table 7-5 for a form at an operand with exact value y. -/
def SFun.bound (f : SFun) (x y : Int) : Int :=
  match f with
  | .rcp | .rsq => fxUlp y
  | .sin | .cos =>
    if x.natAbs ≤ fxPi.toNat then 2 * fxUlp y
    else if x.natAbs ≤ 2 ^ (16 + prec) then 2 ^ (prec - 22)
    else x.natAbs / 2 ^ 38
  | _ => 2 * fxUlp y

/-- A pattern is a finite FP32 number within a bound of y; the results of FSIN, FCOS and FTANH lie in [-1, 1]. -/
def SFun.admits (f : SFun) (x y : Int) (bits : Nat) : Bool :=
  match fp32.unpack bits with
  | .fin neg m e =>
    let v := fxOf neg m e
    decide ((v - y).natAbs ≤ (f.bound x y).toNat) &&
      ((f != .sin && f != .cos && f != .tanh) || decide (v.natAbs ≤ one.toNat))
  | _ => false

/-- y rounded to the nearest FP32 number that is finite. -/
def fxNearest (y : Int) : Nat :=
  if y = 0 then 0 else
    let b := (fp32.round .rn (y < 0) y.natAbs (-(prec : Int))).bits
    if bitsOf b 23 8 = 255 then b - 1 else b

/-- The result of a form for an operand without a special case: the device's own value where it lies within the bound
(R162, log 9). -/
def SFun.pick (f : SFun) (x : Word) (neg : Bool) (m : Nat) (e : Int) : Nat :=
  let y := f.value neg m e
  let arg := if 200 ≤ e then 2 ^ 200 * one else fxOf neg m e
  let v := (Config.special f.num x).toNat
  if f.admits arg y v then v else fxNearest y

/-- A number is a power of two with an exponent that meets a test. -/
def powerOf (m : Nat) (e : Int) (p : Int → Bool) : Bool := decide (m = 2 ^ Nat.log2 m) && p (e + Nat.log2 m)

/-- A special function (R170, Table 7-10) with its exact cases (Table 7-5). -/
def SFun.apply (f : SFun) (x : Word) : FRes :=
  let posInf := FRes.exact fp32.infBits
  match fp32.unpack x.toNat with
  | .nan s => fp32.nanRes s
  | .inf n =>
    match f with
    | .rcp => fp32.zero n
    | .rsq => if n then fp32.nanRes true else fp32.zero false
    | .exp2 => if n then fp32.zero false else posInf
    | .log2 => if n then fp32.nanRes true else posInf
    | .sin | .cos => fp32.nanRes true
    | .tanh => .exact (fp32.signBit n + 0x3F800000)
  | .fin n m e =>
    let dz (neg : Bool) : FRes := ⟨fp32.signBit neg + fp32.infBits, { dz := true }⟩
    let p2 (neg : Bool) (k : Int) : FRes := fp32.round .rn neg 1 k
    let top := e + Nat.log2 m
    match f with
    | .rcp =>
      if m = 0 then dz n
      else if top < -128 ∨ powerOf m e (fun k => decide (k = -128)) then
        ⟨fp32.signBit n + fp32.infBits, { of := true }⟩
      else if powerOf m e (fun k => decide (-128 < k)) then p2 n (-top)
      else .exact (f.pick x n m e)
    | .rsq =>
      if m = 0 then dz n
      else if n then fp32.nanRes true
      else if powerOf m e (fun k => k % 2 == 0) then p2 false (-(top / 2))
      else .exact (f.pick x n m e)
    | .exp2 =>
      if m = 0 then .exact 0x3F800000
      else if !n ∧ 7 ≤ top then ⟨fp32.infBits, { of := true }⟩
      else if 0 ≤ e ∨ m % 2 ^ (-e).toNat = 0 then
        let k : Int := if 12 ≤ top then 4096 else (roundAt .rz n m e 0).1
        if n then (if 149 < k then .exact (f.pick x n m e) else ⟨(p2 false (-k)).bits, {}⟩) else p2 false k
      else .exact (f.pick x n m e)
    | .log2 =>
      if m = 0 then dz true
      else if n then fp32.nanRes true
      else if powerOf m e (fun _ => true) then fp32.roundZ .rn (top < 0) top.natAbs 0
      else .exact (f.pick x n m e)
    | .sin => if m = 0 then fp32.zero n else .exact (f.pick x n m e)
    | .cos => if m = 0 then .exact 0x3F800000 else .exact (f.pick x n m e)
    | .tanh => if m = 0 then fp32.zero n else .exact (f.pick x n m e)

/-! ## Causes (R158) -/

/-- The first enabled condition of a lane, in the order of Table 7-3. -/
def LV.fpCause (v : LV) (c : FCond) : Option LaneCause :=
  let on (b : Bool) (cause : Nat) : Bool := b && v.s.enabled v.T.block (coreOf v.t) cause
  if on c.inv cFpInvalid then some (.plain v.t cFpInvalid)
  else if on c.dz cFpDivzero then some (.plain v.t cFpDivzero)
  else if on c.of cFpOverflow then some (.plain v.t cFpOverflow)
  else if on c.uf cFpUnderflow then some (.plain v.t cFpUnderflow)
  else if on c.nx cFpInexact then some (.plain v.t cFpInexact)
  else none

/-- The element format of a full-word format. -/
def FFmt.elem : FFmt → Fmt
  | .f32 => fp32
  | .h2 | .f16 => fp16
  | .bh2 | .bf16 => bf16

/-- A format holds two elements (R155). -/
def FFmt.packed : FFmt → Bool
  | .h2 | .bh2 => true
  | _ => false

/-- Element `h` of a word in a format (R155). -/
def FFmt.elemBits (f : FFmt) (x : Word) (h : Nat) : Nat :=
  match f with
  | .f32 => x.toNat
  | _ => bitsOf x.toNat (16 * h) 16

/-- Applies an operation to each element of a format and packs the results (R155, R158). -/
def FFmt.each (f : FFmt) (op : Nat → FRes) : Word × FCond :=
  if FFmt.packed f then
    let lo := op 0
    let hi := op 1
    (BitVec.ofNat 32 (lo.bits + hi.bits * 2 ^ 16), lo.cond.or hi.cond)
  else
    let r := op 0
    (BitVec.ofNat 32 r.bits, r.cond)

end Machine
end Sys2Proof
end

