-- ==== Sys2Proof/Machine/Access.lean ====
section
/-!
DEFINITION. Fetch addresses (R106), the shared instruction cache (R106 to R109, R129, R130), and accesses wider than a line
(LAUNCH, R95).
-/

namespace Sys2Proof
namespace Machine

/-! ## Fetch -/

/-- The physical address of a fetch, or its cause (R106): NORMAL pages with execute permission in fitted DRAM; a link window
raises PERM (R388). -/
def State.fetchPa (s : State) (cluster tenant world pc : Nat) : Except Nat Nat × State :=
  if Config.transEnd ≤ pc then (.error cXlate, s)
  else
    match s.entryFor cluster tenant world pc with
    | (none, s1) => (.error cXlate, s1)
    | (some d, s1) =>
      let pa := framePa d pc
      if pteWorld d ≠ world ∨ !pteX d ∨ pteType d ≠ 0 ∨ s1.phys pa ≠ .dram then (.error cPerm, s1) else (.ok pa, s1)

/-- The dword at a physical address as a fetch of the base context would read it now: the cached line if there is one. -/
def State.fetchWord (s : State) (pa : Nat) : DWord :=
  match s.icache.find (pa / 64) with
  | some l => BitVec.ofNat 64 (l.toNat / 2 ^ (8 * (pa % 64)))
  | none => s.readDW pa

/-- The base context's line at a physical line number. -/
def State.memLine (s : State) (pline : Nat) : Line := lineOf (s.bytes (64 * pline) 64)

/-- The shared instruction cache with room for one more line (R106): a full one loses a line, and which is free (log 44). -/
def State.icacheRoom (s : State) (pline : Nat) : FMap Line :=
  if s.icache.length < Config.icacheLines then s.icache
  else s.icache.del ((s.icache.keys.getD ((Config.freeWord s.freeCtr pline).toNat % Config.icacheLines)) 0)

/-- A line enters the shared instruction cache; a line already there keeps its contents until it is invalidated (R109). -/
def State.icacheAdd (s : State) (pline : Nat) : State :=
  match s.icache.find pline with
  | some _ => s
  | none => { s with icache := (s.icacheRoom pline).put pline (s.memLine pline) }

/-- The encoding of LAND: OPC 0x086, kind 0 (Table 5-2). -/
def isLand (w : DWord) : Bool := bitsOf w.toNat 46 9 == 0x086 && !bitOf w.toNat 63

/-- The checks of Table 5-2 on an indirect target; `land` says whether the fourth is made. -/
def State.indirect (s : State) (t target : Nat) (land : Bool) : Option LaneCause × State :=
  let R := s.recOf (s.thread t).block
  if target % 8 ≠ 0 then (some (.plain t cJtAlign), s)
  else if 2 ^ 52 ≤ target then (some ⟨t, cXlate, target % 2 ^ 52, 0⟩, s)
  else
    match s.fetchPa (clusterOf (coreOf t)) R.tenant R.world target with
    | (.error c, s1) => (some ⟨t, c, target, 0⟩, s1)
    | (.ok pa, s1) => if land && !isLand (s1.fetchWord pa) then (some (.plain t cJtLand), s1) else (none, s1)

/-- Checks the targets of some lanes in lane order: the causes and the lanes that pass. -/
def State.indirects (s : State) (land : Bool) : List (Nat × Nat) → List LaneCause × List (Nat × Nat) × State
  | [] => ([], [], s)
  | (t, target) :: r =>
    match s.indirect t target land with
    | (c, s1) =>
      let rest := s1.indirects land r
      match c with
      | some x => (x :: rest.1, rest.2.1, rest.2.2)
      | none => (rest.1, (t, target) :: rest.2.1, rest.2.2)

/-- The target of a direct branch, or XLATE (R110). -/
def directTarget (pc : Nat) (off : Fin 262144) : Except Nat Nat :=
  let x := (pc : Int) + 8 * imm18 off
  if x < 0 ∨ 2 ^ 52 ≤ x then .error (x % 2 ^ 52).toNat else .ok x.toNat

/-- Physical lines of a virtual range whose pages a fetch may read (R129), or, with `any`, whose pages are translated
(R130). The number bounds the lines. -/
def State.rangeLines (s : State) (core tenant world : Nat) (any : Bool) (from_ upTo : Nat) : Nat → List Nat × State
  | 0 => ([], s)
  | n + 1 =>
    if upTo ≤ from_ then ([], s)
    else
      let here : Option Nat × State :=
        if any then
          if Config.transEnd ≤ from_ then (none, s)
          else match s.entryFor (clusterOf core) tenant world from_ with
            | (some d, s1) => (if pteWorld d = world then some (framePa d from_ / 64) else none, s1)
            | (none, s1) => (none, s1)
        else match s.fetchPa (clusterOf core) tenant world from_ with
          | (.ok pa, s1) => (some (pa / 64), s1)
          | (.error _, s1) => (none, s1)
      let rest := here.2.rangeLines core tenant world any ((from_ / 64 + 1) * 64) upTo n
      (match here.1 with
        | some l => l :: rest.1
        | none => rest.1, rest.2)

/-! ## Accesses of several lines -/

/-- Resolves `k` consecutive lines from an address that is a multiple of 64. -/
def State.resolveLines (s : State) (a : Acc) (need : Need) (bad : Bool) (e : Nat) : Nat → Except Bad (List Place) × State
  | 0 => (.ok [], s)
  | k + 1 =>
    match s.resolve a need bad .any e 64 with
    | (.error b, s1) => (.error b, s1)
    | (.ok p, s1) =>
      match s1.resolveLines a need bad (e + 64) k with
      | (.error b, s2) => (.error b, s2)
      | (.ok ps, s2) => (.ok (p :: ps), s2)

/-- The bytes of a place, without an L1 line being made. -/
def State.placeBytes (s : State) (a : Acc) (p : Place) (n : Nat) : List Byte :=
  match p with
  | .spad core off => s.bytes (spadPa core off) n
  | .mem pa ctx _ => s.l2Bytes a ctx pa n

/-- The dwords of some bytes. -/
def dwordsOf (bs : List Byte) : Nat → List DWord
  | 0 => []
  | n + 1 => BitVec.ofNat 64 (leNat (bs.take 8)) :: dwordsOf (bs.drop 8) n

/-- Bytes of dwords. -/
def bytesOf (ds : List DWord) : List Byte := ds.flatMap fun d => leBytes d.toNat 8

end Machine
end Sys2Proof
end

