-- ==== Sys2Proof/Machine/Log.lean ====
section
/-!
DEFINITION. The operand log (R191 to R193): what the lanes of a logged word access, the checks of each lane, when an entry may
be performed, and what a late fault does (R193, R258, R314).
-/

namespace Sys2Proof
namespace Machine

/-- One contiguous access of a lane that lies in one line. -/
structure Part where
  need : Need
  rg : Region
  e : Int
  /-- the alignment that the form asks for -/
  al : Nat
  len : Nat
  ctx : Nat
  bad : Bool
  /-- a hit in the L1 serves it without translation (R184) -/
  l1 : Bool
  deriving DecidableEq, Repr

/-- A part of a lane's access that has passed its checks: where it is performed (none: the L1), its virtual address and its
length. -/
structure Spot where
  place : Option Place
  vaddr : Nat
  len : Nat
  deriving DecidableEq, Repr

/-- The address of R195: base plus an immediate, or plus an index and a scaled displacement. -/
def addrOf (base idx : Nat) (b : Src) (disp : Fin 256) (n : Nat) : Int :=
  match b with
  | .imm c => base + imm18 c
  | .reg _ => base + signedOf idx 32 + signedOf disp.val 8 * n

/-- Cuts a range of bytes at the ends of lines. The number bounds the pieces. -/
def cutLines (e : Int) (len : Nat) : Nat → List (Int × Nat)
  | 0 => []
  | k + 1 =>
    if len = 0 then []
    else
      let here := min len (64 - e.toNat % 64)
      (e, here) :: cutLines (e + here) (len - here) k

/-- Bytes of a C4 block (R161). -/
def CbLen.bytes : CbLen → Nat
  | .l4 => 3
  | .l8 => 5
  | .l16 => 9

/-- The window of an address (Table 8-1): 0 translated, 1 SCRATCH, 2 PEER, 3 PRIVATE. -/
def windowOf (e : Int) : Nat :=
  if e < 0 ∨ e < (Config.transEnd : Int) ∨ 2 ^ 52 ≤ e then 0
  else if e < (Config.scratchBase : Int) then 2
  else if e < (Config.privBase : Int) then 1
  else 3

/-- A handle names the context of its tag: its generation is current, or it is handle 0 (R206). -/
def State.current (s : State) (h : Nat) : Bool :=
  h == 0 || (h % 65536 != 0 && h / 65536 != 0 && (s.ctx (h % 65536)).gen == h / 65536)

/-- A context of the tenant and partition of a block (R208). -/
def State.sameOwner (s : State) (b tag : Nat) : Bool :=
  tag == 0 || ((s.ctx tag).tenant == (s.recOf b).tenant && (s.ctx tag).part == s.partOf b)

/-- The tag of a handle register may be read with LDCX (R226). -/
def State.ldcxBad (s : State) (b h : Nat) : Bool :=
  h != 0 && (!s.current h || !s.ctxOpen (h % 65536) || !s.sameOwner b (h % 65536))

/-- Need of an atomic (R248): AMO and CAS read and write, RED writes; the SEALED subcode is ST; DEVICE raises PERM. -/
def Need.atomic (rd : Bool) : Need := ⟨rd, true, true, subSt⟩

/-- Bytes of a row of a whole-tile word (R306, R307). -/
def rowLen : Instr → Nat
  | .mout _ .bf16 .. | .mout _ .f16 .. => 128
  | .mout _ .c4e8 .. => 48
  | _ => 256

/-- The rows of a tile in rising order of their addresses. -/
def rowOrder (stride : Nat) : List Nat := if signedOf stride 32 < 0 then (upFrom 0 64).reverse else upFrom 0 64

/-- The parts of a whole-tile word, row by row from the lowest address; the lane holds the base and the stride. -/
def State.tileParts (s : State) (need : Need) (i : Instr) (l : LaneSrc) : List Part :=
  (rowOrder l.b).flatMap fun (m : Nat) => (cutLines ((l.a : Int) + m * signedOf l.b 32) (rowLen i) 6).map fun p =>
    ⟨need, .any, p.1, 1, p.2, s.liveCtx l.ctx l.gen, l.bad, false⟩

/-- The word makes one access for all its lanes: LDK, and the whole-tile words. -/
def isShared : Instr → Bool
  | .ldk .. | .accld .. | .accst .. | .mout .. => true
  | _ => false

/-- The parts of one lane of a logged word. The lane holds: a the base, b the index or operand, c the data, scratchpad offset
or new value, d the number of its assay item. -/
def State.partsOf (s : State) (i : Instr) (l : LaneSrc) : List Part :=
  let ctx := s.liveCtx l.ctx l.gen
  let ld (size : Size) (rg : Region) (b : Src) (disp : Fin 256) : List Part :=
    let n := Size.bytes size
    [⟨⟨true, false, size == .b128, subLd⟩, rg, addrOf l.a l.b b disp n, n, n, ctx, l.bad, rg != .scratch⟩]
  let st (size : Size) (rg : Region) (b : Src) (disp : Fin 256) : List Part :=
    let n := Size.bytes size
    [⟨⟨false, true, size == .b128, subSt⟩, rg, addrOf l.a l.b b disp n, n, n, ctx, l.bad, false⟩]
  let atom (rd : Bool) (size : Size) : List Part :=
    [⟨Need.atomic rd, .any, l.a, Size.bytes size, Size.bytes size, ctx, l.bad, false⟩]
  match i with
  | .ld _ size _ _ _ _ b disp => ld size .any b disp
  | .ldk _ size _ _ _ b disp => ld size .any b disp
  | .ldl _ size _ _ _ _ b disp => ld size .priv b disp
  | .lds _ size _ _ _ b disp => ld size .scratch b disp
  | .ldw _ _ _ imm => ld .b64 .any (.imm imm) 0
  | .st _ size _ _ _ b disp => st size .any b disp
  | .stl _ size _ _ _ b disp => st size .priv b disp
  | .sts _ size _ _ b disp => st size .scratch b disp
  | .stw _ _ _ imm => st .b64 .any (.imm imm) 0
  | .ldcb _ len _ _ _ =>
    let n := CbLen.bytes len
    (cutLines (l.a + n * l.b) n 2).map fun p => ⟨⟨true, false, true, subLd⟩, .any, p.1, 1, p.2, ctx, l.bad, true⟩
  | .acp .. =>
    ⟨Need.store, .scratch, l.c, 32, 32, ctx, false, false⟩ ::
      (cutLines l.a (min l.b 32) 2).map fun p => ⟨⟨true, false, true, subAcp⟩, .any, p.1, 1, p.2, ctx, l.bad, false⟩
  | .amo _ _ size _ _ _ _ _ => atom true size
  | .cas _ size _ _ _ _ _ _ => atom true size
  | .red _ _ size _ _ _ _ => atom false size
  | .waitv _ _ _ size _ _ _ _ =>
    [⟨⟨true, false, true, subLd⟩, .any, l.a, Size.bytes size, Size.bytes size, ctx, l.bad, false⟩]
  | .ldcx _ size _ _ _ _ _ =>
    [⟨Need.load, .any, l.a + signedOf l.b 32, Size.bytes size, Size.bytes size, s.liveCtx (l.c % 65536) (l.c / 65536), l.bad, false⟩]
  | .accld .. => s.tileParts ⟨true, false, false, subLd⟩ i l
  | .accst .. | .mout .. => s.tileParts ⟨false, true, false, subSt⟩ i l
  | _ => []

/-- The virtual address under which a part is cached: a PRIVATE address is cached at its backing address, if it has one. -/
def State.cachedAt (s : State) (a : Acc) (p : Part) : Option Nat :=
  match p.rg with
  | .priv => if p.e < 0 then none else s.privateAddr a p.e.toNat
  | .any => if windowOf p.e = 3 then s.privateAddr a (p.e.toNat - Config.privBase) else some p.e.toNat
  | .scratch => some p.e.toNat

/-- The checks of one part (R195, R204). An L1 hit needs no translation (R184). -/
def State.partCheck (s : State) (a : Acc) (p : Part) : Except Bad Spot × State :=
  let a := { a with ctx := p.ctx }
  let v := s.cachedAt a p
  let hit := p.l1 && p.rg != .scratch && decide (0 ≤ p.e) && p.e % (p.al : Int) == 0 && a.side == 0 &&
    v.any fun x => decide (x < Config.transEnd) && (s.l1Find a.core (x / 64) a.ctx a.tenant).isSome
  let at_ := v.getD p.e.toNat
  if hit then (if p.bad then (.error (cCtxBad, 0), s) else (.ok ⟨none, at_, p.len⟩, s))
  else
    match s.resolve a p.need p.bad p.rg p.e p.al with
    | (.error b, s1) => (.error b, s1)
    | (.ok pl, s1) => (.ok ⟨some pl, at_, p.len⟩, s1)

/-- A line on the chain of a nonzero context holds a cell (Table 10-6). -/
def State.chainCell (s : State) (pa ctx : Nat) : Bool := (s.findCell (pa / 64) ctx).isSome

/-- What an AMO or CAS in a nonzero context needs besides: no cell on its chain for the line (Table 10-6). -/
def State.atomicBad (s : State) (i : Instr) (sp : Spot) : Bool :=
  match i, sp.place with
  | .amo .., some (.mem pa ctx _) | .cas .., some (.mem pa ctx _) => ctx != 0 && s.chainCell pa ctx
  | _, _ => false

/-- LDCX takes no SCRATCH or PEER address (R226), ACCLD, ACCST and MOUT no window address (Tables 12-5, 12-6). -/
def windowRefused (i : Instr) (p : Part) : Bool :=
  match i with
  | .ldcx .. => p.e % (p.al : Int) == 0 && (windowOf p.e == 1 || windowOf p.e == 2)
  | .accld .. | .accst .. | .mout .. => windowOf p.e != 0
  | _ => false

/-- The place of a cause in the order of R204: MISALIGN, WINDOW and the causes of R9, SPAD-OFF, CTX-BAD. The pages of a whole-tile
word stand under R9 too, the lowest address first (R306), and so SEALED of a lower page comes before XLATE of a higher (DEDUCED, assumption 27). -/
def causeRank (c : Nat) : Nat :=
  if c = cMisalign then 0
  else if c = cSpadOff then 2
  else if c = cCtxBad then 3
  else 1

/-- What one part of a lane's access comes to. -/
def State.partResult (s : State) (i : Instr) (t : Nat) (p : Part) : Except LaneCause Spot × State :=
  let at_ : Nat := (p.e % 2 ^ 52).toNat
  if windowRefused i p then (.error ⟨t, cWindow, at_, 0⟩, s)
  else
    match s.partCheck (s.accOf t p.ctx) p with
    | (.error b, s1) => (.error ⟨t, b.1, at_, b.2⟩, s1)
    | (.ok sp, s1) => (if s1.atomicBad i sp then .error ⟨t, cCtxBad, at_, 0⟩ else .ok sp, s1)

/-- What the parts of a lane's access come to, in their order: the causes, and the spots of those that pass. -/
def State.partResults (s : State) (i : Instr) (t : Nat) : List Part → List LaneCause × List Spot × State
  | [] => ([], [], s)
  | p :: r =>
    match s.partResult i t p with
    | (x, s1) =>
      let rest := s1.partResults i t r
      match x with
      | .error c => (c :: rest.1, rest.2)
      | .ok sp => (rest.1, sp :: rest.2.1, rest.2.2)

/-- Checks the parts of a lane: the spots, or the first cause in the order of R204, of the lowest part that meets it. -/
def State.partsCheck (s : State) (i : Instr) (t : Nat) (ps : List Part) : Except LaneCause (List Spot) × State :=
  let r := s.partResults i t ps
  (match leastBy (fun (c : LaneCause) => causeRank c.cause) r.1 with
    | some c => .error c
    | none => .ok r.2.1, r.2.2)

/-- Some other block that shares the home quarter of a block on a core holds something there. -/
def State.heldElsewhere (s : State) (b core : Nat) (f : BSide → Bool) : Bool :=
  s.blocks.any fun p => p.1 != b && p.2.residence == .resident && (s.coresOf p.1).contains core &&
    p.2.home == (s.block b).home && f (s.bside p.1 core)

/-- A tile is held by another resident block (R285). -/
def State.tileHeld (s : State) (b core t : Nat) : Bool := s.heldElsewhere b core fun S => S.tiles.contains t

/-- The tile of a whole-tile word. -/
def tileNamed : Instr → Option Nat
  | .accld _ t .. | .accst _ t .. | .mout _ _ t .. => some t.val
  | _ => none

/-- The checks of one lane of a logged word. A whole-tile word that is replayed may find its tile held by another block (R285). -/
def State.laneCheck (s : State) (i : Instr) (l : LaneSrc) : Except LaneCause (List Spot) × State :=
  if (tileNamed i).any (s.tileHeld (s.thread l.thread).block (coreOf l.thread)) then (.error (.plain l.thread cAccTile), s)
  else s.partsCheck i l.thread (s.partsOf i l)

/-- The checks of the lanes of a logged word in lane order: causes, and the lanes that pass with their spots. A word with one
access for all lanes checks that of the lowest lane (R195, R306). -/
def State.lanesCheck (s : State) (i : Instr) : List LaneSrc → List LaneCause × List (LaneSrc × List Spot) × State
  | [] => ([], [], s)
  | l :: r =>
    match s.laneCheck i l with
    | (x, s1) =>
      if isShared i then
        match x with
        | .error c => ((l :: r).map fun m => { c with thread := m.thread }, [], s1)
        | .ok sp => ([], (l :: r).map fun m => (m, sp), s1)
      else
        let rest := s1.lanesCheck i r
        match x with
        | .error c => (c :: rest.1, rest.2.1, rest.2.2)
        | .ok sp => (rest.1, (l, sp) :: rest.2.1, rest.2.2)

/-- The physical lines that a lane of a word accesses, as far as its checks pass (R192). -/
def State.laneLines (s : State) (i : Instr) (l : LaneSrc) : List Nat :=
  (s.partsOf i l).filterMap fun p =>
    match (s.partCheck (s.accOf l.thread p.ctx) { p with l1 := false }).1 with
    | .ok ⟨some pl, _, _⟩ => some pl.line
    | _ => none

/-- The virtual lines that a lane of a word names, those of windows at their place in the address space: they meet even while a check
fails. -/
def State.laneVlines (s : State) (i : Instr) (l : LaneSrc) : List Int :=
  (s.partsOf i l).flatMap fun p =>
    let e : Int := match p.rg with
      | .any => p.e
      | .scratch => p.e + Config.scratchBase
      | .priv => p.e + Config.privBase
    e / 64 :: (match s.cachedAt (s.accOf l.thread p.ctx) p with
      | some v => if p.rg = .scratch then [] else [((v / 64 : Nat) : Int)]
      | none => [])

/-- Lanes of two words share a line (R192). -/
def State.meets (s : State) (i j : Instr) (l m : LaneSrc) : Bool :=
  (s.laneVlines i l).any (s.laneVlines j m).contains || (s.laneLines i l).any (s.laneLines j m).contains

/-- An older live word of a thread of the lanes shares a line with the word, and one of the two writes (R192). -/
def State.lineConflict (s : State) (i : Instr) (ls : List LaneSrc) : Bool :=
  s.opLog.any fun p => !p.2.dormant && (writesMem i || writesMem p.2.instr) &&
    p.2.lanes.any fun m => ls.any fun l => l.thread == m.thread && s.meets i p.2.instr l m

/-- A source of a lane as it stands at issue. -/
def Env.src (_E : Env) (s : State) (t : Nat) (a b c d : Nat) : LaneSrc :=
  let T := s.thread t
  ⟨t, T.ctx, !s.threadOpen T, a, b, c, d, T.ctxGen⟩

/-- Makes a log entry for the lanes of a word (R191). -/
def State.logEntry (s : State) (E : Env) (ls : List LaneSrc) : State :=
  { s.fresh with opLog := s.opLog.put s.nextId {
      seq := E.G.seq, block := E.G.block, instr := E.i, pc := E.G.pc, active := laneMask (ls.map LaneSrc.thread), faulted := 0,
      causes := [], lanes := ls, queued := [], replay := false, freed := false, since := s.now, age := s.nextId, poolAt := 0 } }

/-- The scratchpad bank of a place, as core and bank: a SCRATCH or PEER access, or one through the map of a core (R140). -/
def Place.bank : Place → Option (Nat × Nat)
  | .spad core off => some (core, spadBankOf off)
  | .mem pa _ _ =>
    let off := (pa - Config.coreBase) % Config.coreStride
    if Config.coreBase ≤ pa ∧ pa < Config.ctlBase ∧ 0x1000000 ≤ off ∧ off < 0x1200000 then
      some ((pa - Config.coreBase) / Config.coreStride, spadBankOf (off - 0x1000000))
    else none

/-- The scratchpad bank of a spot, as core and bank. -/
def Spot.bank (sp : Spot) : Option (Nat × Nat) := sp.place.bind Place.bank

/-- Wakes the banks in RETENTION that some spots reach (R140, Table 6-2). -/
def State.wakeSpots (s : State) (sps : List Spot) : State :=
  sps.foldl (fun s sp => match sp.bank with
    | some (c, k) => if s.spadBank c k = .ret then s.setSpad c k .full else s
    | none => s) s

/-- Posts the assay item of each lane and keeps its number in the lane (R327). -/
def State.postLanes (s : State) (E : Env) (ls : List LaneSrc) (item : LaneSrc → Nat × Nat × Nat × Nat × Nat) :
    State × List LaneSrc :=
  if !s.paired E.G.block then (s, ls)
  else
    let side := s.sideOf E.G.block E.G.core
    ls.foldl (fun r l =>
      let n := r.1.itemNumber E.G.block side (slotOf l.thread)
      let x := item l
      (r.1.post E.G.block E.G.core (slotOf l.thread) x.1 E.G.pc x.2.1 x.2.2.1 x.2.2.2.1 x.2.2.2.2 l.ctx [],
        r.2 ++ [{ l with d := n }])) (s, [])

/-- Issues a logged word: its lanes' sources are kept, it waits for older entries on a common line (R192), and the group goes
on. `item` is the assay item of a lane, as (kind, address, data, extra, size), for words that make one. -/
def logWord (i : Instr) (h : Hdr) (s : State) (src : Env → State → Nat → LaneSrc)
    (item : Option (LaneSrc → Nat × Nat × Nat × Nat × Nat)) : Host.Outcome State Fault Refusal :=
  issue i h s fun E s1 =>
    let ls := E.act.map (src E s1)
    if s1.lineConflict i ls then s1
    else
      let r := match item with
        | some f => s1.postLanes E ls f
        | none => (s1, ls)
      E.finish (if ls.isEmpty then r.1 else r.1.logEntry E r.2) [] E.fall

/-! ## Late faults (R193, R314) -/

/-- Threads of a bin leave it and form a group of their own at its program counter, with what they brought into the bin. -/
def State.unbin (s : State) (ts : List Nat) : State :=
  ts.foldl (fun s t => match (s.thread t).disp with
    | .bin k =>
      match s.bins.find k with
      | some B =>
        let rest := B.threads.filter fun u => u != t
        let s1 := if rest.isEmpty then { s with bins := s.bins.del k }
          else { s with bins := s.bins.put k { B with threads := rest, came := B.came.del t } }
        let g := s1.nextId
        let G : Group := { B.carry with
          core := coreOf t, quarter := t / 256 % 4, block := B.block, pc := B.pc, lanes := [t], slot := none, wait := none
          resumeMask := B.carry.resumeMask &&& laneMask [t] }
        ((s1.fresh.setGroup g G).enrol [t] g).takeSlot g
      | none => s
    | _ => s) s

/-- A wait on the scoreboard that a delivery breaks off, so that its word issues again. -/
def Wait.breaks : Wait → Bool
  | .acwait _ _ _ => true
  | _ => false

/-- A wait that keeps its slot after its word has arrived somewhere: a delivery does not undo the arrival, and TRET returns to the wait
(R313, log 11). -/
def Wait.arrived : Wait → Bool
  | .gbar | .ssync | .mbox _ _ _ _ => true
  | _ => false

/-- Records causes in a group that come after the issue of a word at `pc`, and delivers them (R313): at once, or when the wait of the
group ends. Causes met while TRET replays are delivered when the last replay is over (R315). -/
def State.lateCauses (s : State) (g pc : Nat) (cs : List LaneCause) : State :=
  match s.groups.find g with
  | none => s
  | some G =>
    let G1 := G.recordAll pc cs
    match G.wait with
    | none => (s.setGroup g G1).deliver g G.pc G.lanes
    | some .replay => s.setGroup g { G1 with deliver := some ⟨G.resumePc, G.lanes⟩ }
    | some (.waitv e) =>
      if (s.opLog.find e).any LogEntry.dormant then (s.setGroup g { G1 with wait := none }).deliver g (G.pc + 8) G.lanes
      else s.setGroup g { G1 with deliver := some ⟨G.pc, G.lanes⟩ }
    | some w =>
      if w.breaks then
        ((s.modThreads G.lanes fun T => { T with again := true }).setGroup g { G1 with wait := none }).deliver g G.pc G.lanes
      else if w.arrived then (s.setGroup g { G1 with wait := none, paused := some w }).deliver g (G.pc + 8) G.lanes
      else s.setGroup g { G1 with deliver := some ⟨G.pc, G.lanes⟩ }

/-- Late causes of some threads, group by group. Threads that have exited have no group, and nothing is recorded for them. -/
def State.lateFaults (s : State) (pc : Nat) (cs : List LaneCause) : State :=
  let s1 := s.unbin (cs.map LaneCause.thread)
  let gs := (cs.filterMap fun c => s1.groupOf c.thread).eraseDups
  gs.foldl (fun st g => st.lateCauses g pc (cs.filter fun c => s1.groupOf c.thread == some g)) s1

/-- The word is a WAITV, which is replayed for every active lane (R258). -/
def isWaitv : Instr → Bool
  | .waitv .. => true
  | _ => false

/-- Marks lanes of an entry as faulted: only they remain in it (R193), but all lanes of a WAITV. Lanes of threads that have exited go. The
entry keeps the causes of its last fault (R339). -/
def State.markFaulted (s : State) (id : Nat) (cs : List LaneCause) : State :=
  { s with opLog := s.opLog.filterMap fun p =>
      if p.1 ≠ id then some p
      else
        let hit (l : LaneSrc) : Bool := (cs.any fun c => c.thread == l.thread) && (s.thread l.thread).occupied
        let ls := p.2.lanes.filter fun l => hit l || isWaitv p.2.instr
        if !(p.2.lanes.any hit) then none
        else some (p.1, { p.2 with
          lanes := ls, causes := cs, replay := false, queued := [], freed := false,
          faulted := laneMask ((ls.filter hit).map LaneSrc.thread) }) }

end Machine
end Sys2Proof
end

