-- ==== Sys2Proof/Machine/Perform.lean ====
section
/-!
DEFINITION. How a live operand-log entry is performed: the data that loads deliver, stores and atomics at their places
(R195 to R197, R201, R226, R248 to R250, Tables 10-5 and 10-6), what an entry waits for, and what its late faults do (R193).
-/

namespace Sys2Proof
namespace Machine

/-! ## Data -/

/-- A value of `n` bytes, extended to 32 bits under its sign code when it is narrower (R195). -/
def extendTo32 (sg : Bool) (n x : Nat) : Word :=
  if sg ∧ n < 4 then BitVec.ofInt 32 (signedOf x (8 * n)) else BitVec.ofNat 32 x

/-- The words that a load of a size writes. -/
def loadWords (size : Size) (sg : Bool) (x : Nat) : List Word :=
  match size with
  | .b8 | .b16 | .b32 => [extendTo32 sg (Size.bytes size) x]
  | .b64 => [BitVec.ofNat 32 x, BitVec.ofNat 32 (x / 2 ^ 32)]
  | .b128 => (upFrom 0 4).map fun k => BitVec.ofNat 32 (x / 2 ^ (32 * k))

/-- The words that LDCB writes (R197). -/
def ldcbWords (len : CbLen) (y : Nat) : List Word :=
  match len with
  | .l4 => [BitVec.ofNat 32 y]
  | .l8 => [BitVec.ofNat 32 y, BitVec.ofNat 32 (y / 2 ^ 32)]
  | .l16 => [BitVec.ofNat 32 y, BitVec.ofNat 32 (y / 2 ^ 32), BitVec.ofNat 32 (y / 2 ^ 64), 0]

/-- The destination and words of a loading word from the value read. -/
def loadWrites (i : Instr) (x : Nat) : List LaneWrite :=
  match i with
  | .ld _ size sg _ d _ _ _ | .ldl _ size sg _ d _ _ _ | .lds _ size sg d _ _ _ | .ldcx _ size sg d _ _ _ =>
    wRegs d (loadWords size sg x)
  | .ldk _ size _ d _ _ _ => wRegs d (loadWords size false x)
  | .ldw _ d _ _ => wRegs d (loadWords .b64 false x)
  | .ldcb _ len d _ _ => wRegs d (ldcbWords len x)
  | .amo _ _ size _ _ d _ _ | .cas _ size _ _ d _ _ _ | .waitv _ _ _ size _ d _ _ => wRegs d (loadWords size false x)
  | _ => []

/-- The cache hint of a word. -/
def hintOf : Instr → Hint
  | .ld _ _ _ hint .. | .st _ _ hint .. | .ldl _ _ _ hint .. | .stl _ _ hint .. | .ldk _ _ hint .. | .acp _ _ hint .. => hint
  | .ldcx .. | .waitv .. => .cg
  | _ => .ca

/-- A loading word, whose data is delivered by SCOREBOARD_RESULT. -/
def isLoadWord : Instr → Bool
  | .ld .. | .ldl .. | .lds .. | .ldk .. | .ldw .. | .ldcb .. | .ldcx .. => true
  | _ => false

/-- A plain store word. -/
def isStoreWord : Instr → Bool
  | .st .. | .sts .. | .stl .. | .stw .. => true
  | _ => false

/-- A store's size in bytes. -/
def storeBytes : Instr → Nat
  | .st _ size .. | .sts _ size .. | .stl _ size .. => Size.bytes size
  | _ => 8

/-- Reads the spots of one lane, in order of address. A hit takes its data from the L1 as it was when the word's accesses began, in `s0`:
an earlier lane's fill may have evicted the line since. -/
def State.readSpots (s0 s : State) (a : Acc) (hint : Hint) : List Spot → List Byte × State
  | [] => ([], s)
  | sp :: r =>
    let x : List Byte × State := match sp.place with
      | none => (((s0.l1Hit a hint sp.vaddr sp.len).map Prod.fst).getD [], ((s.l1Hit a hint sp.vaddr sp.len).map Prod.snd).getD s)
      | some p => s.loadPlace a hint sp.vaddr p sp.len
    let y := s0.readSpots x.2 a hint r
    (x.1 ++ y.1, y.2)

/-! ## Atomics -/

/-- The new value of an atomic of `w` bits (Table 10-5). -/
def atomNew (op : AtomOp) (w old b : Nat) : Nat :=
  let m := 2 ^ w
  let fp (f : Fmt) (x y : Nat) : Nat := (f.add .rn (f.unpack x) (f.unpack y)).bits
  let two (f : Fmt) : Nat :=
    fp f (bitsOf old 0 16) (bitsOf b 0 16) + fp f (bitsOf old 16 16) (bitsOf b 16 16) * 2 ^ 16
  match op with
  | .add => (old + b) % m
  | .and => (BitVec.ofNat 64 old &&& BitVec.ofNat 64 b).toNat
  | .or => (BitVec.ofNat 64 old ||| BitVec.ofNat 64 b).toNat
  | .xor => (BitVec.ofNat 64 old ^^^ BitVec.ofNat 64 b).toNat
  | .exch => b
  | .smin => if signedOf b w < signedOf old w then b else old
  | .smax => if signedOf old w < signedOf b w then b else old
  | .zmin => min old b
  | .zmax => max old b
  | .inc => if b ≤ old then 0 else old + 1
  | .dec => if old = 0 ∨ b < old then b else old - 1
  | .fadd => fp fp32 old b
  | .faddH2 => two fp16
  | .faddBh2 => two bf16
  | .fmin => (fp32.minMax false old b).bits
  | .fmax => (fp32.minMax true old b).bits

/-- What an atomic word does to the value it finds: the new value, or nothing when a CAS does not match. -/
def atomWrite (i : Instr) (l : LaneSrc) (old : Nat) : Option Nat :=
  match i with
  | .amo _ op size .. | .red _ op size .. => some (atomNew op (8 * Size.bytes size) old l.b)
  | .cas .. => if old = l.b then some l.c else none
  | _ => none

/-- Atomic words. -/
def isAtomic : Instr → Bool
  | .amo .. | .cas .. | .red .. => true
  | _ => false
/-- Atomics that return a value. -/
def isReturning : Instr → Bool
  | .amo .. | .cas .. => true
  | _ => false
/-- Bytes of an atomic. -/
def atomBytes : Instr → Nat
  | .amo _ _ size .. | .cas _ size .. | .red _ _ size .. | .waitv _ _ _ size .. => Size.bytes size
  | _ => 4
/-- The scope of a logged word's release and acquire. -/
def scopeOf : Instr → Scope
  | .amo _ _ _ _ sc .. | .cas _ _ _ sc .. | .red _ _ _ _ sc .. | .waitv _ _ _ _ sc .. | .fence _ _ sc => sc
  | _ => .dev

/-- A context and, from it upwards, the contexts into which it is settling. -/
def State.settlingChain (s : State) : List Nat → List Nat
  | [] => []
  | t :: r => t :: (if (s.ctx t).state == .settling then s.settlingChain r else [])

/-- The context becomes exposed (R219); one that is settling makes its parent exposed at the same moment. -/
def State.expose (s : State) (tag : Nat) : State :=
  (s.settlingChain (s.chainOf tag)).foldl (fun s t => s.modCtx t fun c => { c with exposed := true }) s

/-- Lines of a tenant that are written to memory and not yet ordered at the host coherence point (R237). -/
def State.addDrain (s : State) (tenant n : Nat) : State :=
  if n = 0 then s else { s with drain := s.drain.store 0 tenant (s.drain.findD tenant 0 + n) }

/-- An atomic on a link window is performed at the line's place, behind the port (Table 10-6, R388). -/
def State.atomLink (s : State) (i : Instr) (a : Acc) (pa ctx port : Nat) : Nat × State :=
  (leNat (s.l2Bytes a ctx pa (atomBytes i)), s.sendFlit port)

/-- An atomic on a line of DRAM: AMO and CAS act on memory, RED on the view of the context (Table 10-6). One that writes nothing brings
what it read into the core's own line (R234). -/
def State.atomDram (s : State) (i : Instr) (a : Acc) (l : LaneSrc) (vaddr pa ctx : Nat) : Nat × State :=
  let n := atomBytes i
  let tag := if isReturning i then 0 else ctx
  let old := leNat (s.viewBytes tag pa n)
  let own := { a with ctx := ctx }
  let s1 := match atomWrite i l old with
    | some x => ((s.writeLine tag pa (leBytes x n)).l1Store own .ca (vaddr / 64) pa (leBytes x n)).addDrain
        a.tenant (if tag = 0 then 1 else 0)
    | none => s.l1Sync own vaddr pa (leBytes old n)
  (old, if isReturning i then s1.expose ctx else s1)

/-- The value that an atomic of one lane finds, and the state after it (Table 10-6). Scratchpad is not versioned. -/
def State.atomLane (s : State) (i : Instr) (a : Acc) (l : LaneSrc) (sp : Spot) : Nat × State :=
  let n := atomBytes i
  match sp.place with
  | some (.spad core off) =>
    let old := s.readNat (spadPa core off) n
    let s1 := match atomWrite i l old with
      | some x => s.writeNat (spadPa core off) n x
      | none => s
    (old, if isReturning i then s1.expose a.ctx else s1)
  | some (.mem pa ctx _) =>
    match s.phys pa with
    | .link port _ => s.atomLink i a pa ctx port
    | _ => s.atomDram i a l sp.vaddr pa ctx
  | none => (0, s)

/-! ## What an entry waits for -/

/-- Some entry of an earlier issue than `age`, of a thread of these lanes, meets a test. -/
def State.olderEntry (s : State) (age : Nat) (ls : List LaneSrc) (p : LogEntry → LaneSrc → Bool) : Bool :=
  s.opLog.any fun q => decide (q.2.age < age) && !q.2.dormant &&
    q.2.lanes.any fun m => (ls.any fun l => l.thread == m.thread) && p q.2 m

/-- A spot lies on a DEVICE page. -/
def Spot.dev (sp : Spot) : Bool :=
  match sp.place with
  | some (.mem _ _ d) => d
  | _ => false

/-- A lane of a word accesses a DEVICE page, as far as its checks pass. -/
def State.laneDevice (s : State) (i : Instr) (l : LaneSrc) : Bool :=
  match (s.laneCheck i l).1 with
  | .ok sps => sps.any Spot.dev
  | .error _ => false

/-- The physical line of a spot in memory. -/
def Spot.line (sp : Spot) : Option Nat :=
  match sp.place with
  | some (.mem pa _ _) => some (pa / 64)
  | _ => none

/-- A scratchpad bank that is in RETENTION or still waking (R140). -/
def State.bankAsleep (s : State) (core k : Nat) : Bool :=
  s.spadBank core k == .ret || (s.spadWakes.find (16 * core + k)).isSome

/-- Every earlier load, LDCX and returning atomic of some threads, before a number, has delivered its value (R238). -/
def State.loadsBefore (s : State) (ts : List Nat) (id : Nat) : Bool :=
  s.inflight.all (fun p => !p.2.isLoad || decide (id ≤ p.2.origin) || p.2.writes.all fun w => !ts.contains w.thread) &&
    s.opLog.all fun p => decide (id ≤ p.2.age) || !returnsValue p.2.instr || p.2.dormant ||
      p.2.lanes.all fun l => !ts.contains l.thread

/-- The own item of a lane still waits for its opposite (R327). -/
def State.unmatched (s : State) (b side slot n : Nat) : Bool :=
  (s.block b).items.any fun i => i.side == side && decide (i.kind < 8) && i.slot == slot && i.n == n

/-- The reply that the leader keeps for a follower's atomic. -/
def State.replyFor (s : State) (b slot n : Nat) : Option Nat :=
  ((s.block b).items.find? fun i => i.kind == kindReply && i.slot == slot && i.n == n).map Item.data

/-- A returning atomic of a DM1 block on translated or PRIVATE memory waits until the block is the clearing head (R244). -/
def State.headWait (s : State) (b : Nat) (i : Instr) (sps : List Spot) : Bool :=
  (s.recOf b).dm == 1 && isReturning i && sps.any (fun sp => sp.line.isSome) && (s.block b).index != (s.launchOf b).head

/-- A live returning atomic of a DM1 block waits to become the head (R244). -/
def State.atHead (s : State) (e : LogEntry) : Bool :=
  !e.dormant && (s.recOf e.block).dm == 1 && isReturning e.instr &&
    ((s.lanesCheck e.instr e.lanes).2.1).any fun o => s.headWait e.block e.instr o.2

/-- The entry's synchronisation, its place among the atomics of a DM2 block, and its matches on a checked block let it be
performed (R231, R237, R240, R244, R246, R249, R327). -/
def State.atomReady (s : State) (e : LogEntry) (oks : List (LaneSrc × List Spot)) : Bool :=
  let b := e.block
  let side := s.sideOf b (e.seq / 4)
  let ord := orderOf e.instr
  (!releases ord || (s.storesBefore b e.age && (scopeOf e.instr != .sys || s.drain.findD (s.recOf b).tenant 0 == 0))) &&
  (!(releases ord || acquires ord) || isWaitv e.instr || s.loadsBefore (e.lanes.map LaneSrc.thread) e.age) &&
  (!isAtomic e.instr || (
    (oks.all fun o => !s.headWait b e.instr o.2) &&
    ((s.recOf b).dm != 2 || s.opLog.all fun q => decide (e.age ≤ q.2.age) || q.2.block != b || !isAtomic q.2.instr || q.2.dormant ||
      s.sideOf b (q.2.seq / 4) != side) &&
    (!s.paired b || oks.all fun o => !s.unmatched b side (slotOf o.1.thread) o.1.d &&
      (side == 0 || !isReturning e.instr || (s.replyFor b (slotOf o.1.thread) o.1.d).isSome))))

/-- An earlier SPDROP of the block has not yet changed a scratchpad bank (R153). -/
def State.dropPending (s : State) (b core k age : Nat) : Bool :=
  s.inflight.any fun p => p.2.block == b && decide (p.2.origin < age) && p.2.drops.any fun d => d.1 == 16 * core + k

/-- The lines and banks that the entry reaches are free for it: no engine owns them (R241), the banks are awake (R140) and no earlier
SPDROP is still to change them (R153), and what is older in its threads is done: accesses to a common line (R192, R196), DEVICE accesses
(Table 8-4) and replays (R193). An ACP waits for older ones under its tag, and one that is replayed for a count below 255 (R201). -/
def State.placesReady (s : State) (e : LogEntry) (oks : List (LaneSrc × List Spot)) : Bool :=
  let sps := oks.flatMap Prod.snd
  sps.all (fun sp => (match sp.line with
      | some l => !s.owned l
      | none => true) && match sp.bank with
      | some b => !s.bankAsleep b.1 b.2 && !s.dropPending e.block b.1 b.2 e.age
      | none => true) &&
  (!s.olderEntry e.age e.lanes fun q m => e.lanes.any fun l => l.thread == m.thread && s.meets e.instr q.instr l m) &&
  (!sps.any Spot.dev || !s.olderEntry e.age e.lanes fun q m => s.laneDevice q.instr m) &&
  (!e.replay || !s.olderEntry e.age e.lanes fun q _ => q.replay) &&
  match e.instr with
  | .acp _ tag .. => (!e.replay || e.lanes.all fun l => decide ((s.thread l.thread).acp.getD tag.val 0 < 255)) &&
    !(s.olderEntry e.age e.lanes fun q _ => match q.instr with
      | .acp _ k .. => k == tag
      | _ => false)
  | _ => true

/-! ## Performing -/

/-- Writes that a logged word delivers. -/
def State.deliverWrites (s : State) (e : LogEntry) (outs : List (Nat × List LaneWrite)) : State :=
  s.results e.block (e.seq / 4) e.age true outs

/-- The number of distinct NORMAL memory lines among some spots. -/
def linesOf (sps : List Spot) : Nat := (sps.filterMap fun sp => if sp.dev then none else sp.line).eraseDups.length

/-- The lanes of a loading word read in lane order; LDCX may expose its context (R219). LDK reads once for all lanes. -/
def State.readLanes (s0 s : State) (e : LogEntry) : List (LaneSrc × List Spot) → List (Nat × List LaneWrite) × State
  | [] => ([], s)
  | (l, sps) :: r =>
    let ctx := match e.instr with
      | .ldcx .. => s.liveCtx (l.c % 65536) (l.c / 65536)
      | _ => s.liveCtx l.ctx l.gen
    let x := s0.readSpots s (s.accOf l.thread ctx) (hintOf e.instr) sps
    let s1 := match e.instr with
      | .ldcx .. => if ctx = 0 ∨ (s.ctx ctx).owner = e.block ∧ s.within l.ctx ctx then x.2 else x.2.expose ctx
      | _ => x.2
    match e.instr with
    | .ldk .. => (((l, sps) :: r).map fun o => (o.1.thread, loadWrites e.instr (leNat x.1)), s1)
    | _ =>
      let rest := s0.readLanes s1 e r
      ((l.thread, loadWrites e.instr (leNat x.1)) :: rest.1, rest.2)

/-- The bytes of a place with their physical addresses, as the accessor's context sees them. -/
def State.placeUndo (s : State) (ctx pa n : Nat) : List (Nat × Nat) :=
  (upFrom pa n).map fun x => (x, (s.placeByte ctx x).toNat)

/-- One lane's store of a checked block to memory (R327): the leader performs it and keeps what the follower still sees; the
follower drops it and keeps it for its own view until the leader has come to it. -/
def State.checkedStore (s : State) (b core : Nat) (l : LaneSrc) (ctx pa : Nat) (bs : List Byte) (put : State → State) : State :=
  let slot := slotOf l.thread
  let has (kind : Nat) (i : Item) : Bool := i.kind == kind && i.slot == slot && i.n == l.d
  if s.isFollower b core then
    if (s.block b).items.any (has kindUndo) then s.modBlock b fun B => { B with items := dropFirst (has kindUndo) B.items }
    else s.modBlock b fun B => { B with items := B.items ++
      [⟨1, slot, l.d, kindDropped, 0, pa, 0, 0, bs.length, ctx, (upFrom pa bs.length).zip (bs.map BitVec.toNat), s.now⟩] }
  else
    let undo := s.placeUndo ctx pa bs.length
    let s1 := put s
    if (s.block b).items.any (has kindDropped) then s1.modBlock b fun B => { B with items := dropFirst (has kindDropped) B.items }
    else s1.modBlock b fun B => { B with items := B.items ++
      [⟨0, slot, l.d, kindUndo, 0, pa, 0, 0, bs.length, ctx, undo, s.now⟩] }

/-- One lane's store of some bytes at a spot, or none where the overlay has no room for it (R214). A store whose context has been voided
since its issue is discarded with it (R216). -/
def State.storeSpot (s : State) (b core : Nat) (hint : Hint) (l : LaneSrc) (sp : Spot) (bs : List Byte) : Option State :=
  let a := s.accOf l.thread (s.liveCtx l.ctx l.gen)
  match sp.place with
  | none => some s
  | some (.spad c off) => some (s.storePlace a hint sp.vaddr (.spad c off) bs)
  | some (.mem pa ctx dev) =>
    if s.ctxGone l.ctx l.gen then some s
    else if !s.isFollower b core && s.poolBlocked ctx pa then none
    else if s.paired b then some (s.checkedStore b core l ctx pa bs fun s => s.storePlace a hint sp.vaddr (.mem pa ctx dev) bs)
    else some (s.storePlace a hint sp.vaddr (.mem pa ctx dev) bs)

/-- The lanes of a store, in lane order: the lanes that found no room, and the state after the others. -/
def State.storeLanes (s : State) (e : LogEntry) : List (LaneSrc × List Spot) → List LaneSrc × State
  | [] => ([], s)
  | (l, sps) :: r =>
    match sps with
    | [] => s.storeLanes e r
    | sp :: _ =>
      match s.storeSpot e.block (e.seq / 4) (hintOf e.instr) l sp (leBytes l.c (storeBytes e.instr)) with
      | some s1 => s1.storeLanes e r
      | none => let x := s.storeLanes e r; (l :: x.1, x.2)

/-- The pending store that an entry becomes (R196). -/
def State.addPending (s : State) (e : LogEntry) (ctx : Nat) (sps : List Spot) : State :=
  let core := e.seq / 4
  if s.isFollower e.block core ∨ sps.all (fun sp => sp.line.isNone) then s
  else
    let p : PendStore :=
      ⟨e.block, s.sideOf e.block core, (s.recOf e.block).tenant, ctx, if ctx = 0 then linesOf sps else 0⟩
    { s.fresh with pendStores := s.pendStores.put s.nextId p }

/-- The lanes of an atomic, in lane order (R248): the lanes that found no room, the values, and the state after the others. A
follower's atomics are not performed (R249). In DM1 a RED is held (R244). -/
def State.atomLanes (s : State) (e : LogEntry) :
    List (LaneSrc × List Spot) → List LaneSrc × List (Nat × List LaneWrite) × State
  | [] => ([], [], s)
  | (l, sps) :: r =>
    let b := e.block
    let a := s.accOf l.thread (s.liveCtx l.ctx l.gen)
    let slot := slotOf l.thread
    match sps with
    | [] => s.atomLanes e r
    | sp :: _ =>
      let held := match e.instr, sp.place with
        | .red _ op size .., some (.mem _ _ _) => if (s.recOf b).dm = 1 then some (op, Size.bytes size) else none
        | _, _ => none
      let step : Option (Nat × State) :=
        if s.isFollower b (e.seq / 4) then
          some ((s.replyFor b slot l.d).getD 0, s.modBlock b fun B =>
            { B with items := dropFirst (fun i => i.kind == kindReply && i.slot == slot && i.n == l.d) B.items })
        else if !isReturning e.instr && sp.line.isSome && s.ctxGone l.ctx l.gen then some (0, s)
        else match held, sp.place with
          | some (op, n), some (.mem pa _ _) =>
            some (0, s.modCtx l.ctx fun c =>
              { c with held := c.held ++ [.red op n pa l.b l.thread a.tenant a.world l.ctx] })
          | _, some (.mem pa ctx _) =>
            if !isReturning e.instr && s.poolBlocked ctx pa then none else some (s.atomLane e.instr a l sp)
          | _, _ => some (s.atomLane e.instr a l sp)
      match step with
      | none => let x := s.atomLanes e r; (l :: x.1, x.2.1, x.2.2)
      | some (old, s1) =>
        let s2 := if s.paired b && !s.isFollower b (e.seq / 4) && isReturning e.instr then
            s1.modBlock b fun B => { B with items := B.items ++ [⟨0, slot, l.d, kindReply, e.pc, 0, old, 0, 8, 0, [], s.now⟩] }
          else s1
        let x := s2.atomLanes e r
        (x.1, (l.thread, loadWrites e.instr old) :: x.2.1, x.2.2)

/-- The teller hands out tickets of 64 bits (R240). -/
def State.takeTickets (s : State) (n : Nat) : State := { s with teller := s.teller + BitVec.ofNat 64 n }

/-- The tickets and the acquire of a logged atomic (R240, R238). A follower's atomic is not performed and takes no ticket (R249). -/
def State.afterAtomic (s : State) (e : LogEntry) (n : Nat) : State :=
  let s1 := if orderOf e.instr = .sc ∧ !s.isFollower e.block (e.seq / 4) then s.takeTickets n else s
  if acquires (orderOf e.instr) then s1.acquire (e.seq / 4) (s.recOf e.block).tenant (scopeOf e.instr) else s1

/-- The physical runs of the source of a copy. -/
def srcRuns (sps : List Spot) : List (Nat × Nat) :=
  sps.filterMap fun sp => match sp.place with
    | some (.mem pa _ _) => some (pa, sp.len)
    | some (.spad core off) => some (spadPa core off, sp.len)
    | none => none

/-- The copies of an ACP start (R201); a replayed ACP raises the count only now. -/
def State.startCopies (s : State) (e : LogEntry) (tag : Nat) (oks : List (LaneSrc × List Spot)) : State :=
  oks.foldl (fun s o => match o.2 with
    | ⟨some (.spad _ off), _, _⟩ :: srcs =>
      let s1 := if e.replay then s.modThread o.1.thread fun T => { T with acp := listSet T.acp tag (T.acp.getD tag 0 + 1) } else s
      let c : AcpCopy := ⟨o.1.thread, e.block, o.1.ctx, tag, srcRuns srcs, off, o.1.gen, e.age, o.1.a⟩
      { s1.fresh with acps := s.acps.put s.nextId c }
    | _ => s) s

/-- Performs the lanes of an entry that have passed their checks, but for PUSH, WAITV and the matrix words: the lanes that
found no room in the overlay, and the state after the others. -/
def State.perform (s : State) (e : LogEntry) (oks : List (LaneSrc × List Spot)) : List LaneSrc × State :=
  let ctx := match oks with
    | o :: _ => s.liveCtx o.1.ctx o.1.gen
    | [] => 0
  if isLoadWord e.instr then
    let r := s.readLanes s e oks
    ([], r.2.deliverWrites e r.1)
  else if isStoreWord e.instr then
    let r := s.storeLanes e oks
    (r.1, r.2.addPending e ctx ((oks.filter fun o => !r.1.contains o.1).flatMap Prod.snd))
  else if isAtomic e.instr then
    let r := s.atomLanes e oks
    (r.1, (r.2.2.afterAtomic e oks.length).deliverWrites e r.2.1)
  else match e.instr with
    | .acp _ tag .. => ([], s.startCopies e tag.val oks)
    | _ => ([], s)

/-! ## The end of an entry, and late faults -/

/-- The replays of a group's lanes by TRET that are still under way, as (entry, whether it is a WAITV). -/
def State.replaysOf (s : State) (ts : List Nat) : List (Nat × Bool) :=
  (s.opLog.filter fun p => p.2.replay && p.2.lanes.any fun l => ts.contains l.thread).map fun p => (p.1, isWaitv p.2.instr)

/-- Where a group goes once its replays are over, or only a WAITV is left, at which it waits as before (R256, R315): it returns to the
wait that a handler has broken in on, or goes on at the resume PC. -/
def State.endReplay (s : State) (g : Nat) : State :=
  match s.groups.find g with
  | none => s
  | some G =>
    if G.wait != some .replay then s
    else match s.replaysOf G.lanes with
      | [] => match G.paused, G.deliver with
        | some w, none => s.setGroup g { G with wait := some w, paused := none, pc := G.resumePc - 8 }
        | _, _ => s.resume g G.resumePc
      | [(id, true)] => (s.setGroup g { G with pc := G.resumePc - 8 }).beginWait g (.waitv id)
      | _ => s

/-- The groups whose replay is over resume (R315). -/
def State.endReplays (s : State) : State := s.groups.foldl (fun s p => s.endReplay p.1) s

/-- An entry is done. -/
def State.dropEntry (s : State) (id : Nat) : State := { s with opLog := s.opLog.del id }.endReplays

/-- Counters that an ACP raised at its issue fall back for lanes whose checks fail (R204); a replay has raised none. -/
def State.uncount (s : State) (e : LogEntry) (ts : List Nat) : State :=
  match e.instr with
  | .acp _ tag .. => if e.replay then s else s.modThreads ts fun T => { T with acp := listSet T.acp tag.val (T.acp.getD tag.val 0 - 1) }
  | _ => s

/-- Late faults of some lanes of an entry: they are marked, recorded and delivered (R193, R314). -/
def State.faultLanes (s : State) (id : Nat) (e : LogEntry) (cs : List LaneCause) : State :=
  let s1 := (s.uncount e (cs.map LaneCause.thread)).markFaulted id cs
  (s1.lateFaults e.pc cs).endReplays

end Machine
end Sys2Proof
end

