-- ==== Sys2Proof/Machine/Matrix.lean ====
section
/-!
DEFINITION. Class 5, the matrix unit (R284 to R309): tiles, reservation records, the MLOOP queue with its tokens and row
progress, the exact step, sealed operands, and the tile words.
-/

namespace Sys2Proof
namespace Machine

/-! ## Tiles and records (R284 to R287) -/

/-- Physical tile of a block's local tile (R284). -/
def State.tileOf (s : State) (b t : Nat) : Nat := 8 * (s.block b).home + t

/-- The words of a tile as one list of bytes. -/
def wordBytes (l : List Nat) : List Byte := l.flatMap fun x => leBytes x 4

/-- The 4,096 patterns of a tile, row by row. -/
def State.tileWords (s : State) (core j : Nat) : List Nat :=
  (upFrom 0 4096).map fun i => s.readNat (tilePa core (0x4000 * j + 4 * i)) 4

/-- Replaces a tile. -/
def State.setTile (s : State) (core j : Nat) (l : List Nat) : State := s.setBytes (tilePa core (0x4000 * j)) (wordBytes l)

/-- Every element of a tile becomes +0. -/
def State.zeroTile (s : State) (core j : Nat) : State := s.zeroBytes (tilePa core (0x4000 * j)) 0x4000

/-- The first word of a block that names a tile claims it and sets it to +0 (R285). -/
def State.claimTile (s : State) (b core t : Nat) : State :=
  if (s.bside b core).tiles.contains t then s
  else (s.zeroTile core (s.tileOf b t)).modBside b core fun S => { S with tiles := S.tiles ++ [t] }

/-- The tile's MLOOPs that have not ended are spoiled by a write (R294). -/
def State.spoilTile (s : State) (b core t : Nat) : State :=
  let spoil (m : MLoop) : MLoop :=
    if bitsOf (m.desc.getD 4 0).toNat 32 3 = t ∧ m.state ≠ .ended then { m with spoiled := true } else m
  s.modBside b core fun S => { S with mloops := S.mloops.map spoil }

/-- A live ACCLD of the block is still to write the tile, or a live whole-tile word of another block in the quarter is still to claim it
or to fault (R309); words that name the tile wait for it. -/
def State.tileBusy (s : State) (b core t : Nat) : Bool :=
  s.opLog.any fun p => p.2.seq / 4 == core && !p.2.dormant && tileNamed p.2.instr == some t &&
    (if p.2.block = b then (match p.2.instr with
        | .accld .. => true
        | _ => false)
      else (s.block p.2.block).home == (s.block b).home)

/-- A live record of a block's side (R286). -/
def State.record (s : State) (b core r : Nat) : Option Record := (s.bside b core).records.find r

/-- Replaces a record. -/
def State.setRecord (s : State) (b core r : Nat) (R : Record) : State :=
  s.modBside b core fun S => { S with records := S.records.put r R }

/-- A keyed record's range becomes zero before its key goes (R298). -/
def State.zeroKeyed (s : State) (b core : Nat) (R : Record) : State :=
  if R.keyed.isSome then let rg := R.range (s.block b) core; s.zeroOb rg.1 rg.2 else s

/-- Removes a record (R301). -/
def State.dropRecord (s : State) (b core r : Nat) : State :=
  match s.record b core r with
  | some R => (s.zeroKeyed b core R).modBside b core fun S => { S with records := S.records.del r }
  | none => s

/-! ## The descriptor (Table 12-9) -/

/-- K-step count S. -/
def MLoop.steps (m : MLoop) : Nat := bitsOf (m.desc.getD 4 0).toNat 0 24
/-- Record numbers of A and B. -/
def MLoop.ra (m : MLoop) : Nat := bitsOf (m.desc.getD 4 0).toNat 24 3
/-- See ra. -/
def MLoop.rb (m : MLoop) : Nat := bitsOf (m.desc.getD 4 0).toNat 28 3
/-- Local tile. -/
def MLoop.tile (m : MLoop) : Nat := bitsOf (m.desc.getD 4 0).toNat 32 3
/-- Zero-first. -/
def MLoop.zeroFirst (m : MLoop) : Bool := bitOf (m.desc.getD 4 0).toNat 36
/-- Base, row stride and K-increment of an operand: 0 A, 1 B. -/
def MLoop.base (m : MLoop) (x : Nat) : Nat := (m.desc.getD x 0).toNat
/-- See base. -/
def MLoop.stride (m : MLoop) (x : Nat) : Nat := bitsOf (m.desc.getD 2 0).toNat (32 * x) 32
/-- See base. -/
def MLoop.inc (m : MLoop) (x : Nat) : Nat := bitsOf (m.desc.getD 3 0).toNat (32 * x) 32
/-- The record of an operand as it stood at issue. -/
def MLoop.rec_ (m : MLoop) (x : Nat) : Record := if x = 0 then m.recA else m.recB
/-- The MLOOP names a record. -/
def MLoop.names (m : MLoop) (r : Nat) : Bool := m.ra == r || m.rb == r
/-- The MLOOP is queued or running. -/
def MLoop.active (m : MLoop) : Bool := m.state == .queued || m.state == .running

/-- Token `t` covers token `u` (R292). -/
def covers (t u : Nat) : Bool := t != 0 && decide ((t + 2 ^ 32 - u) % 2 ^ 32 < 2 ^ 31)

/-! ## Operands (R288, R289) -/

/-- Length of a K-unit (Table 12-3). -/
def Record.lk (r : Record) : Nat := if r.fmt = .bf16 then 4 else 2 ^ (r.len + 2)
/-- Bytes of a unit (Table 12-3). -/
def Record.unitBytes (r : Record) : Nat :=
  match r.fmt with
  | .bf16 => 8
  | .c4 => r.lk / 2
  | .c4e8 => r.lk / 2 + 1

/-- What a unit gives for a K-step: four elements, the scale exponent, and the NaN scale (R289). -/
structure Quad where
  xs : List FVal
  scale : Int
  nan : Bool
  deriving DecidableEq, Repr

/-- The elements of K-step `s` in a unit, read as a little-endian number (R289, R161). -/
def Record.quad (r : Record) (unit s : Nat) : Quad :=
  let off := 4 * s % r.lk
  let elem (k : Nat) : FVal :=
    bf16.unpack (if r.fmt = .bf16 then bitsOf unit (16 * k) 16
      else bitsOf r.codebook.toNat (16 * bitsOf unit (4 * (off + k)) 4) 16)
  let e := bitsOf unit (4 * r.lk) 8
  { xs := (upFrom 0 4).map elem
    scale := match r.fmt with
      | .bf16 => 0
      | .c4 => r.scaleOff
      | .c4e8 => (e : Int) - 127 + r.scaleOff
    nan := r.fmt == .c4e8 && e == 255 }

/-- A value times a power of two. -/
def FVal.scale (k : Int) : FVal → FVal
  | .fin n m e => .fin n m (e + k)
  | v => v

/-- RoundRNE(P, FP32) of R290. -/
def quadSum (a b : Quad) : Nat :=
  if a.nan || b.nan then fp32.canon
  else
    let ps := (a.xs.zip b.xs).map fun p => p.1.mul p.2
    (fp32.sum .rn (ps.map fun p => p.1.scale (a.scale + b.scale)) (ps.any Prod.snd)).bits

/-- One element of one step (R290). -/
def stepElem (c : Nat) (a b : Quad) : Nat := (fp32.add .rn (fp32.unpack c) (fp32.unpack (quadSum a b))).bits

/-- The rows of a list, 64 elements each; the number bounds them. -/
def rowsOf (l : List Nat) : Nat → List (List Nat)
  | 0 => []
  | n + 1 => l.take 64 :: rowsOf (l.drop 64) n

/-- One step over all 4,096 elements (R290). -/
def stepTile (tile : List Nat) (a b : List Quad) : List Nat :=
  ((rowsOf tile 64).zip a).flatMap fun r => (r.1.zip b).map fun x => stepElem x.1 r.2 x.2

/-! ## Fetching (R293, R295, R298) -/

/-- What the fetch of a unit comes to. -/
inductive UnitFetch where
  | unit (x : Nat)
  | fault (cause addr sub : Nat)
  /-- an engine owns a line of it (R241) -/
  | wait
  deriving DecidableEq, Repr

/-- The check of one part of a unit (Table 12-6). `ecc` is the 64-byte line of addresses that stays uncorrectable, if there is one. -/
def State.fetchPart (s : State) (a : Acc) (ecc : Option Nat) (keyed : Bool) (e : Nat) : Except Bad Nat × State :=
  if 2 ^ 52 ≤ e then (.error (cXlate, 0), s)
  else if Config.transEnd ≤ e then (.error (cWindow, 0), s)
  else
    match s.entryFor (clusterOf a.core) a.tenant a.world e with
    | (none, s1) => (.error (cXlate, 0), s1)
    | (some d, s1) =>
      let pa := framePa d e
      match s1.pageCheck a ⟨true, false, true, subLd⟩ d pa with
      | some b => if b.1 ≠ cSealed ∨ !keyed then (.error b, s1)
        else if ecc = some (e / 64) then (.error (cEccUncorr, 0), s1)
        else (.ok pa, s1)
      | none =>
        if keyed then (.error (cSealMix, 0), s1)
        else match s1.ctxCheck false (.mem pa a.ctx (pteType d == 1)) with
          | some b => (.error b, s1)
          | none => if ecc = some (e / 64) then (.error (cEccUncorr, 0), s1) else (.ok pa, s1)

/-- The 9 ASCII bytes XTS-TWEAK. -/
def tweakInfo : List Byte := [0x58, 0x54, 0x53, 0x2D, 0x54, 0x57, 0x45, 0x41, 0x4B]

/-- Bytes of one part of a unit: the view of the context, or the plaintext under a slot's key (R293, R371). -/
def State.partBytes (s : State) (a : Acc) (key : Option (BitVec 256)) (e pa len : Nat) : List Byte :=
  match key with
  | none => s.l2Bytes a a.ctx pa len
  | some k =>
    let kb := leBytes k.toNat 32
    ((xtsDecrypt kb (hkdf384 kb tweakInfo 32) (e / 64) (s.l2Bytes a a.ctx (pa / 64 * 64) 64)).drop (pa % 64)).take len

/-- Fetches the parts of a unit in order of address. -/
def State.fetchParts (s : State) (a : Acc) (ecc : Option Nat) (key : Option (BitVec 256)) :
    List (Int × Nat) → List Byte → UnitFetch × State
  | [], bs => (.unit (leNat bs), s)
  | p :: r, bs =>
    match s.fetchPart a ecc key.isSome p.1.toNat with
    | (.error b, s1) => (.fault b.1 (p.1.toNat % 2 ^ 52) b.2, s1)
    | (.ok pa, s1) =>
      if s1.owned (pa / 64) then (.wait, s1)
      else s1.fetchParts a ecc key r (bs ++ s1.partBytes a key p.1.toNat pa p.2)

/-- Fetches unit `j` of row `i` of an operand (R288): a unit is delivered whole or not at all (R295). -/
def State.fetchUnit (s : State) (a : Acc) (ecc : Option Nat) (m : MLoop) (key : Option (BitVec 256)) (x i j : Nat) :
    UnitFetch × State :=
  let e := m.base x + i * m.stride x + j * m.inc x
  s.fetchParts a ecc key (cutLines e (m.rec_ x).unitBytes 2) []

/-- How far the fetch of a step's rows came: the units of all 128 rows, or the units below a row that failed or waits. -/
inductive RowFetch where
  | all (us : List Nat)
  | fault (us : List Nat) (cause addr sub : Nat)
  | wait
  deriving DecidableEq, Repr

/-- Fetches the rows of a step in rising order: rows of A, then of B (R295). `need` says which rows are fetched; `old` holds the
others. -/
def State.fetchRows (s : State) (a : Acc) (ecc : Option Nat) (m : MLoop) (keys : Nat → Option (BitVec 256)) (need : Nat → Bool)
    (old : List Nat) (step : Nat) : Nat → List Nat → RowFetch × State
  | 0, us => (.all us, s)
  | n + 1, us =>
    let r := 127 - n
    let x := r / 64
    if need r then
      match s.fetchUnit a ecc m (keys x) x (r % 64) (4 * step / (m.rec_ x).lk) with
      | (.unit u, s1) => s1.fetchRows a ecc m keys need old step n (us ++ [u])
      | (.fault c e sub, s1) => (.fault us c e sub, s1)
      | (.wait, s1) => (.wait, s1)
    else s.fetchRows a ecc m keys need old step n (us ++ [old.getD r 0])

/-- How a running MLOOP goes on: it comes to its end, a fetch stops it, or it waits. -/
inductive MRun where
  | ended (tile : List Nat)
  | stopped (m : MLoop) (tile : List Nat)
  | wait
  deriving DecidableEq, Repr

/-- A K-step starts a unit of the operand of a row. -/
def MLoop.startsUnit (m : MLoop) (step r : Nat) : Bool := 4 * step % (m.rec_ (r / 64)).lk == 0

/-- The rows that the current step of an MLOOP still fetches: those from `rows` on that it does not hold, or whose unit starts here. -/
def MLoop.needs (m : MLoop) (r : Nat) : Bool := decide (m.rows ≤ r) && (decide (m.kept.length ≤ r) || m.startsUnit m.s r)

/-- The tile after the current step of an MLOOP with the units of its 128 rows (R290). -/
def MLoop.stepWith (m : MLoop) (us tile : List Nat) : List Nat :=
  let quads (x : Nat) : List Quad := ((us.drop (64 * x)).take 64).map fun u => (m.rec_ x).quad u m.s
  stepTile tile (quads 0) (quads 1)

/-- Runs the steps of an MLOOP from its progress (R290, R295, R296); the number bounds the steps. `need` says which rows the next
step fetches, `old` holds the units of the others. -/
def State.runSteps (s : State) (a : Acc) (ecc : Option Nat) (keys : Nat → Option (BitVec 256)) :
    Nat → MLoop → (Nat → Bool) → List Nat → List Nat → MRun × State
  | 0, _, _, _, tile => (.ended tile, s)
  | n + 1, m, need, old, tile =>
    match s.fetchRows a ecc m keys need old m.s 128 [] with
    | (.wait, s1) => (.wait, s1)
    | (.fault us c e sub, s1) =>
      (.stopped { m with rows := us.length, kept := us, fault := some ⟨m.thread, c, e, sub⟩ } tile, s1)
    | (.all us, s1) =>
      s1.runSteps a ecc keys n { m with s := m.s + 1, kept := [] } (m.startsUnit (m.s + 1)) us (m.stepWith us tile)

/-- The running MLOOP of a core: its block and itself. -/
def State.runningLoop (s : State) (core : Nat) : Option (Nat × MLoop) :=
  match s.mqueue.findD core [] with
  | (b, t) :: _ => ((s.bside b core).mloops.find? fun m => m.token == t && m.state == .running).map fun m => (b, m)
  | [] => none

/-- The key under which an operand of an MLOOP is read: that of the slot its record was bound to when it was issued or resumed
(R372, R301). -/
def State.loopKey (s : State) (m : MLoop) (x : Nat) : Option (BitVec 256) :=
  (m.rec_ x).keyed.bind fun k => (s.sec.keys.find k).map KeySlot.key

/-- The accessor that the load pipes are for an MLOOP. -/
def State.loopAcc (s : State) (b core : Nat) (m : MLoop) : Acc :=
  ⟨m.thread, core, b, s.sideOf b core, (s.recOf b).tenant, (s.recOf b).world, m.ctx, false⟩

/-- The tile from which the next step of an MLOOP goes on (R290). -/
def State.loopTile (s : State) (b core : Nat) (m : MLoop) : List Nat :=
  if m.zeroFirst ∧ m.s = 0 then List.replicate 4096 0 else s.tileWords core (s.tileOf b m.tile)

/-- The running MLOOP of a core, run as far as it goes. -/
def State.runLoop (s : State) (core : Nat) (ecc : Option Nat := none) : Option (Nat × MLoop × MRun × State) :=
  (s.runningLoop core).map fun p =>
    let m := p.2
    let r := s.runSteps (s.loopAcc p.1 core m) ecc (s.loopKey m) (m.steps - m.s) m m.needs m.kept (s.loopTile p.1 core m)
    (p.1, m, r.1, r.2)

/-- Changes an MLOOP. -/
def State.modLoop (s : State) (b core t : Nat) (f : MLoop → MLoop) : State :=
  s.modBside b core fun S => { S with mloops := S.mloops.map fun m => if m.token = t ∧ m.state ≠ .ended then f m else m }

/-- One move of the running MLOOP of a core (R295): the delivery of the next row of the current unit, or, with all rows delivered, one
step. There is none where a fetch would fail or wait. -/
def State.loopMove (s : State) (core : Nat) : Option State :=
  (s.runningLoop core).bind fun p =>
    let b := p.1
    let m := p.2
    if m.steps ≤ m.s then none
    else if m.rows < 128 then
      let into (s : State) (u : Nat) : State := s.modLoop b core m.token fun m => { m with
        rows := m.rows + 1, kept := if m.kept.length ≤ m.rows then m.kept ++ [u] else listSet m.kept m.rows u }
      if m.needs m.rows then
        let x := m.rows / 64
        match s.fetchUnit (s.loopAcc b core m) none m (s.loopKey m x) x (m.rows % 64) (4 * m.s / (m.rec_ x).lk) with
        | (.unit u, s1) => some (into s1 u)
        | _ => none
      else some (into s (m.kept.getD m.rows 0))
    else
      let s1 := s.setTile core (s.tileOf b m.tile) (m.stepWith m.kept (s.loopTile b core m))
      some (s1.modLoop b core m.token fun m => { m with
        s := m.s + 1, rows := if m.startsUnit (m.s + 1) 0 || m.startsUnit (m.s + 1) 64 then 0 else 128 })

/-- The running MLOOP of a core makes up to some moves. -/
def State.loopMoves (s : State) (core : Nat) : Nat → State
  | 0 => s
  | n + 1 =>
    match s.loopMove core with
    | some s1 => s1.loopMoves core n
    | none => s

/-- Every running MLOOP goes on by a number of moves that the manual leaves open (log 27). -/
def State.loopsGo (s : State) : State :=
  (s.mqueue.map Prod.fst).foldl (fun s c => if (s.runningLoop c).isSome then s.loopMoves c (Config.loopMoves s.freeCtr c) else s) s

/-- Queued MLOOPs of the blocks on a core that have no place in its queue yet, after a restore (R297), each block's in token order. -/
def State.outLoops (s : State) (core : Nat) : List (Nat × Nat) :=
  s.blocks.flatMap fun p =>
    if p.2.residence = .resident ∧ (s.coresOf p.1).contains core then
      ((s.bside p.1 core).mloops.filter fun m => m.state == .queued && !(s.mqueue.findD core []).contains (p.1, m.token)).map
        fun m => (p.1, m.token)
    else []

/-- Queued MLOOPs without a place enter the queue of a core as far as its places go (R292, R297). -/
def State.refillLoops (s : State) (core : Nat) : State :=
  let q := s.mqueue.findD core []
  { s with mqueue := s.mqueue.store [] core (q ++ (s.outLoops core).take (Config.mloopPlaces - q.length)) }

/-- The queue of a core has no place for one more MLOOP (R292). -/
def State.loopsFull (s : State) (core : Nat) : Bool :=
  decide (Config.mloopPlaces ≤ (s.mqueue.findD core []).length + (s.outLoops core).length)

/-- An MLOOP leaves the core's queue. -/
def State.dequeueLoop (s : State) (b core t : Nat) : State :=
  { s with mqueue := s.mqueue.store [] core ((s.mqueue.findD core []).filter fun p => p != (b, t)) }

/-- What fetches leave in the operand buffer has no layout of the manual's: the ranges of unkeyed records are left unknown. -/
def State.dirtyLoop (s : State) (b core : Nat) (m : MLoop) : State :=
  let rs := [m.ra, m.rb].filterMap fun r => (s.record b core r).bind fun R =>
    if R.keyed.isSome then none else some (R.range (s.block b) core)
  { s with obDirty := rs.foldl (fun l r => if l.contains r then l else l ++ [r]) s.obDirty }

/-- A tile gets its result, or free values when it was written before the end (R294). -/
def State.putResult (s : State) (b core : Nat) (m : MLoop) (tile : List Nat) : State :=
  let l := if m.spoiled then (upFrom 0 4096).map fun i => (Config.freeWord s.freeCtr i).toNat else tile
  { s.setTile core (s.tileOf b m.tile) l with freeCtr := s.freeCtr + 1 }

/-- An MLOOP at the head of its core's queue may start: none runs, and the block's earlier stores are acknowledged (R293). -/
def State.loopStarts (s : State) (core : Nat) : Option (Nat × MLoop) :=
  match s.mqueue.findD core [] with
  | (b, t) :: _ => ((s.bside b core).mloops.find? fun m => m.token == t && m.state == .queued &&
      s.acknowledged b m.since).map fun m => (b, m)
  | [] => none

/-- MLOOP_START (R292, R293): the head of the queue runs, or enters the stopped state behind an earlier MLOOP of its block that
is stopped and shares a tile or record with it (R296). -/
def execMloopStart (core : Nat) (s : State) : Host.Outcome State Fault Refusal :=
  event s (s.loopStarts core).isSome fun s =>
    match s.loopStarts core with
    | none => s
    | some (b, m) =>
      let blocked := (s.bside b core).mloops.any fun x => x.state == .stopped && decide (x.since < m.since) &&
        (x.tile == m.tile || x.names m.ra || x.names m.rb)
      if blocked then
        ((s.modLoop b core m.token fun m => { m with state := .stopped }).dequeueLoop b core m.token).refillLoops core
      else s.modLoop b core m.token fun m => { m with state := .running }

/-- MLOOP_END (R290, R294). -/
def execMloopEnd (core : Nat) (s : State) : Host.Outcome State Fault Refusal :=
  event s (match s.runLoop core with
      | some (_, _, .ended _, _) => true
      | _ => false) fun s =>
    match s.runLoop core with
    | some (b, m, .ended tile, s1) =>
      let s2 := ((s1.dirtyLoop b core m).putResult b core m tile).dequeueLoop b core m.token
      (s2.modLoop b core m.token fun m => { m with state := .ended, s := m.steps, rows := 128, kept := [] }).refillLoops core
    | _ => s

/-- A running MLOOP that a fetch has stopped: its tile, its progress and its fault (R295, R296). -/
def State.stopLoop (s : State) (core : Nat) (ecc : Option Nat) : State :=
  match s.runLoop core ecc with
  | some (b, m, .stopped d tile, s1) =>
    let s2 := (if d.s = m.s ∧ !m.spoiled then s1.dirtyLoop b core m
      else (s1.dirtyLoop b core m).putResult b core m tile).dequeueLoop b core m.token
    (s2.modLoop b core m.token fun _ => { d with state := .stopped, reported := false }).refillLoops core
  | _ => s

/-- MLOOP_FETCH_FAULT (R295, R296): the MLOOP stops before the first step of the faulting unit. -/
def execMloopFetchFault (core : Nat) (s : State) : Host.Outcome State Fault Refusal :=
  event s (match s.runLoop core with
      | some (_, _, .stopped _ _, _) => true
      | _ => false) fun s => s.stopLoop core none

/-! ## The start of a class-5 word -/

/-- How a word that acts once comes out. -/
inductive MatStep where
  | wait
  | raise (cause addr sub : Nat)
  | go (s : State)

/-- A word that acts once for its group, by its lowest active lane; a cause is recorded in every active lane (R299, R309). A word
in which some lane has met a cause has no effect. -/
def matWord (i : Instr) (h : Hdr) (s : State) (shape : Bool) (f : Env → State → Nat → MatStep) :
    Host.Outcome State Fault Refusal :=
  issue i h s fun E s1 =>
    match E.act with
    | [] => E.finish s1 [] E.fall
    | l :: _ =>
      let raise (c a sub : Nat) : State := E.finish s1 (E.act.map fun t => ⟨t, c, a, sub⟩) E.fall
      let p := (s1.thread l).pgrp
      let all := (s1.threads.filter fun q => q.2.block == E.G.block && coreOf q.1 == E.G.core && q.2.pgrp == p).map Prod.fst
      let active := E.act ++ E.causes.map LaneCause.thread
      let split := !(s1.thread l).pinned || (s1.pinnedOf E.G.block E.G.core p).any fun t => !E.G.lanes.contains t
      if shape ∧ split then raise cGroupSplit 0 0
      else if shape ∧ all.any (fun t => !active.contains t) then raise cGroupPartial 0 0
      else if !E.causes.isEmpty then E.finish s1 [] E.fall
      else
        match f E s1 l with
        | .wait => s1
        | .raise c a sub => raise c a sub
        | .go s2 => E.finish s2 [] E.fall

/-! ## Record words (R301) -/

/-- What a queued, running or stopped MLOOP asks of a word that changes record `r` (R287). -/
def State.recordGate (s : State) (b core r : Nat) (go : MatStep) : MatStep :=
  let ms := (s.bside b core).mloops.filter fun m => m.names r
  if ms.any fun m => m.state == .stopped then .raise cObRange 0 0
  else if ms.any MLoop.active then .wait
  else go

/-- OBRES (R301, R287). -/
def execObres (h : Hdr) (fmt : ObFmt) (len : Fin 4) (r : Fin 8) (a b : Reg) (s : State) :
    Host.Outcome State Fault Refusal :=
  matWord (.obres h fmt len r a b) h s false fun E s1 l =>
    let blk := E.G.block
    let core := E.G.core
    let off := ((E.lv s1 l).r32 a).toNat
    let size := ((E.lv s1 l).r32 b).toNat
    let S := s1.bside blk core
    if (S.records.find r.val).isSome ∨ s1.heldElsewhere blk core (fun S => (S.records.find r.val).isSome) ∨
        off % 1024 ≠ 0 ∨ size % 1024 ≠ 0 ∨ size < 4096 ∨ (s1.recOf blk).obquota < off + size ∨
        S.records.any fun q => overlaps q.2.off q.2.size off size then .raise cObRange 0 0
    else .go (s1.setRecord blk core r.val ⟨false, none, fmt, len.val, 0, size, off, 0⟩)

/-- OBSET (R301). -/
def execObset (h : Hdr) (r : Fin 8) (b : Src) (s : State) : Host.Outcome State Fault Refusal :=
  matWord (.obset h r b) h s false fun E s1 l =>
    let x := signedOf ((E.lv s1 l).s32 b).toNat 32
    match s1.record E.G.block E.G.core r.val with
    | none => .raise cObRange 0 0
    | some R => s1.recordGate E.G.block E.G.core r.val
        (if x < -64 ∨ 63 < x ∨ (x ≠ 0 ∧ R.fmt = .bf16) then .raise cMxFormat 0 0
         else .go (s1.setRecord E.G.block E.G.core r.val { R with scaleOff := x }))

/-- OBFREE (R301): a record that is not live is left as it is. -/
def execObfree (h : Hdr) (r : Fin 8) (s : State) : Host.Outcome State Fault Refusal :=
  matWord (.obfree h r) h s false fun E s1 _ =>
    match s1.record E.G.block E.G.core r.val with
    | none => .go s1
    | some _ => s1.recordGate E.G.block E.G.core r.val (.go (s1.dropRecord E.G.block E.G.core r.val))

/-- CBLD (R301, R159). -/
def execCbld (h : Hdr) (r : Fin 8) (cb : Fin 240) (s : State) : Host.Outcome State Fault Refusal :=
  matWord (.cbld h r cb) h s false fun E s1 l =>
    let v := E.lv s1 l
    match s1.record E.G.block E.G.core r.val with
    | none => .raise cObRange 0 0
    | some R => s1.recordGate E.G.block E.G.core r.val
        (if R.fmt = .bf16 then .raise cMxFormat 0 0
         else .go (s1.setRecord E.G.block E.G.core r.val { R with
           cbLoaded := true
           codebook := BitVec.ofNat 256 (leNat ((upFrom cb.val 8).flatMap fun n => leBytes (v.rv n).toNat 4)) }))

/-- KEYBIND (R301, R298). -/
def execKeybind (h : Hdr) (r : Fin 8) (a : Reg) (s : State) : Host.Outcome State Fault Refusal :=
  matWord (.keybind h r a) h s false fun E s1 l =>
    let b := E.G.block
    let x := ((E.lv s1 l).r32 a).toNat
    let slot := bitsOf x 0 6
    let bind := !bitOf x 31
    let provisioned := match s1.sec.keys.find slot with
      | some k => k.world == (s1.recOf b).world && k.tenant == (s1.recOf b).tenant
      | none => false
    if bind && !provisioned then .raise cPriv 0 0
    else
      match s1.record b E.G.core r.val with
      | none => .raise cObRange 0 0
      | some R => s1.recordGate b E.G.core r.val
          (.go (if bind then s1.setRecord b E.G.core r.val { R with keyed := some slot }
            else (s1.zeroKeyed b E.G.core R).setRecord b E.G.core r.val { R with keyed := none }))

/-! ## MLOOP, MWAIT and MPROG (R302 to R304) -/

/-- The cause of an MLOOP's descriptor, if it has one, in the order of R302, with its address. -/
def State.loopCause (s : State) (b core : Nat) (m : MLoop) : Option (Nat × Nat) :=
  let d4 := (m.desc.getD 4 0).toNat
  let reserved := bitOf d4 27 || bitOf d4 31 || bitOf d4 35 || bitsOf d4 37 27 != 0 || ((m.desc.drop 5).any fun d => d != 0)
  let rs := [m.recA, m.recB]
  let c4Bad (r : Record) : Bool := r.fmt != .bf16 && (!r.cbLoaded || m.steps % (r.lk / 4) != 0)
  let odd (x : Nat) : Bool := (m.rec_ x).fmt == .bf16 && (m.base x % 2 != 0 || m.stride x % 2 != 0 || m.inc x % 2 != 0)
  if (s.record b core m.ra).isNone ∨ (s.record b core m.rb).isNone ∨ m.ra = m.rb then some (cObRange, 0)
  else if s.tileHeld b core m.tile then some (cAccTile, 0)
  else if reserved ∨ m.steps = 0 then some (cMxFormat, 0)
  else if rs.any c4Bad then some (cMxFormat, 0)
  else match (upFrom 0 2).find? odd with
    | some x => some (cMisalign, m.base x)
    | none =>
      match (upFrom 0 2).find? fun x => decide (2 ^ 52 ≤ m.base x) with
      | some x => some (cXlate, m.base x)
      | none => ((upFrom 0 2).find? fun x => decide (Config.transEnd ≤ m.base x)).map fun x => (cWindow, m.base x)

/-- An empty record. -/
def Record.init : Record := ⟨false, none, .bf16, 0, 0, 0, 0, 0⟩

/-- MLOOP (R302). -/
def execMloop (h : Hdr) (d : Reg) (desc : Fin 240) (s : State) : Host.Outcome State Fault Refusal :=
  matWord (.mloop h d desc) h s true fun E s1 l =>
    let b := E.G.block
    let core := E.G.core
    let v := E.lv s1 l
    let dw := (upFrom 0 8).map fun j => pairOf (v.rv (desc.val + 2 * j)) (v.rv (desc.val + 2 * j + 1))
    let S := s1.bside b core
    let tok := if (S.token + 1) % 2 ^ 32 = 0 then 1 else (S.token + 1) % 2 ^ 32
    let m0 : MLoop := {
      token := tok, desc := dw, recA := Record.init, recB := Record.init, state := .queued, s := 0, rows := 0, kept := [],
      fault := none, reported := false, thread := l, ctx := (s1.thread l).ctx, spoiled := false, since := s1.nextId }
    let m := { m0 with
      recA := S.records.findD m0.ra Record.init, recB := S.records.findD m0.rb Record.init }
    match s1.loopCause b core m with
    | some c => .raise c.1 c.2 0
    | none =>
      let q := s1.mqueue.findD core []
      if s1.loopsFull core ∨ s1.tileBusy b core m.tile then .wait
      else
        let s2 := (s1.claimTile b core m.tile).modBside b core fun S => { S with token := tok, mloops := S.mloops ++ [m] }
        let s3 := { s2 with mqueue := s2.mqueue.put core (q ++ [(b, tok)]) }
        .go (s3.fresh.writeTracked E 0 false (E.act.map fun t => (t, w32 d (BitVec.ofNat 32 tok))))

/-- MWAIT (R303): the group stays at the word until the MLOOPs that its token covers have ended. -/
def execMwait (h : Hdr) (a : Reg) (s : State) : Host.Outcome State Fault Refusal :=
  issue (.mwait h a) h s fun E s1 =>
    let b := E.G.block
    let core := E.G.core
    match E.act with
    | [] => E.finish s1 [] E.fall
    | l :: _ =>
      if !E.causes.isEmpty then E.finish s1 [] E.fall
      else
        let t := ((E.lv s1 l).r32 a).toNat
        let age (m : MLoop) : Nat := 2 ^ 32 - (t + 2 ^ 32 - m.token) % 2 ^ 32
        let cov := (s1.bside b core).mloops.filter fun m => covers t m.token
        match leastBy age (cov.filter fun m => m.state == .stopped && m.fault.isSome && !m.reported) with
        | some m =>
          let c := m.fault.getD (.plain l cXlate)
          E.finish (s1.modLoop b core m.token fun m => { m with reported := true })
            (E.act.map fun u => { c with thread := u }) E.fall
        | none =>
          match leastBy age (cov.filter fun m => m.state == .stopped) with
          | some m =>
            let q := s1.mqueue.findD core []
            if s1.loopsFull core then s1
            else
              let key (r : Nat) (R : Record) : Record := { R with keyed := (s1.record b core r).bind Record.keyed }
              let s2 := s1.modLoop b core m.token fun m => { m with
                state := .queued, fault := none, reported := false, recA := key m.ra m.recA, recB := key m.rb m.recB }
              { s2 with mqueue := s2.mqueue.put core (q ++ [(b, m.token)]) }
          | none =>
            if cov.any MLoop.active then s1
            else E.finish (s1.modBside b core fun S =>
              { S with mloops := S.mloops.filter fun m => !(covers t m.token) }) [] E.fall

/-- Code of an MLOOP's state (Table 12-10). -/
def MState.code : MState → Nat
  | .ended => 0
  | .queued => 1
  | .running => 2
  | .stopped => 3

/-- The value of MPROG (Table 12-10). -/
def State.mprogValue (s : State) (b core t : Nat) : DWord :=
  match (s.bside b core).mloops.find? fun m => m.token == t && m.state != .ended with
  | some m => BitVec.ofNat 64 (m.state.code * 2 ^ 62 + m.tile * 2 ^ 59 + m.rows * 2 ^ 48 + m.s)
  | none => 0

/-- MPROG (R304): a follower takes its leader's value (R328). -/
def execMprog (h : Hdr) (d a : Reg) (s : State) : Host.Outcome State Fault Refusal :=
  issue (.mprog h d a) h s fun E s1 =>
    let t := match E.act with
      | l :: _ => ((E.lv s1 l).r32 a).toNat
      | [] => 0
    s1.shared true 0 (fun v => (none, v.s.mprogValue E.G.block E.G.core t)) (w64 d) E

/-! ## Tile words (R305 to R308) -/

/-- MZERO (R305). -/
def execMzero (h : Hdr) (t : Fin 8) (s : State) : Host.Outcome State Fault Refusal :=
  matWord (.mzero h t) h s false fun E s1 _ =>
    let b := E.G.block
    let core := E.G.core
    if s1.tileHeld b core t.val then .raise cAccTile 0 0
    else if s1.tileBusy b core t.val then .wait
    else .go (((s1.claimTile b core t.val).zeroTile core (s1.tileOf b t.val)).spoilTile b core t.val)

/-- The pattern of a tile's element as a read finds it: free where R294 leaves it so. -/
def State.tileElem (s : State) (b core t i : Nat) : Nat :=
  if s.tileOpen core (s.tileOf b t) then (Config.freeWord s.freeCtr (4096 * s.tileOf b t + i)).toNat
  else s.readNat (tilePa core (0x4000 * s.tileOf b t + 4 * i)) 4

/-- MRD (R308). -/
def execMrd (h : Hdr) (d : Reg) (t : Fin 8) (b : Src) (s : State) : Host.Outcome State Fault Refusal :=
  issue (.mrd h d t b) h s fun E s1 =>
    let blk := E.G.block
    let core := E.G.core
    if E.act.isEmpty then E.finish s1 [] E.fall
    else if s1.tileHeld blk core t.val then E.finish s1 (allRaise E.act cAccTile) E.fall
    else if s1.tileBusy blk core t.val then s1
    else (s1.claimTile blk core t.val).tracked 0 (fun v =>
      (none, w32 d (BitVec.ofNat 32 (v.s.tileElem blk core t.val (bitsOf (v.s32 b).toNat 0 12))))) E

/-- The largest finite magnitude of some values, if there is one. -/
def greatest (l : List FVal) : Option FVal :=
  l.foldl (fun g v => match v with
    | .fin _ m e => let x : FVal := .fin false m e
                    match g with
                    | some y => if y.less x then some x else g
                    | none => some x
    | _ => g) none

/-- The scale of a .c4e8 block (R307): the least e that brings the greatest element within the codebook. -/
def blockScale (xs cb : List FVal) : Nat :=
  match greatest xs, greatest cb with
  | some g, some c =>
    let zero (v : FVal) : Bool := match v with
      | .fin _ m _ => m == 0
      | _ => false
    if zero g || zero c then 127
    else ((upFrom 0 255).find? fun (e : Nat) => !(c.less (g.scale (127 - (e : Int))))).getD 254
  | _, _ => 127

/-- A .c4e8 block of four elements as 24 bits (R307, Table 7-4). -/
def blockOf (xs : List Nat) (cb : BitVec 256) : Nat :=
  let vs := xs.map fp32.unpack
  if vs.any FVal.isNaN then 255 * 2 ^ 16
  else
    let words : List Word := (upFrom 0 8).map fun k => BitVec.ofNat 32 (bitsOf cb.toNat (32 * k) 32)
    let e := blockScale vs ((upFrom 0 16).map fun k => bf16.unpack (codeEntry words k))
    ((xs.map fun x => (cbencOf x words (some e)).1).zipIdx).foldl (fun a p => a + p.1 * 2 ^ (4 * p.2)) (e * 2 ^ 16)

/-- The blocks of a row; the number bounds them. -/
def blocksOf (cb : BitVec 256) : Nat → List Nat → List Byte
  | 0, _ => []
  | n + 1, l => leBytes (blockOf (l.take 4) cb) 3 ++ blocksOf cb n (l.drop 4)

/-- The bytes that a whole-tile store writes for a row of patterns (R306, R307). -/
def rowBytes (i : Instr) (cb : BitVec 256) (row : List Nat) : List Byte :=
  match i with
  | .mout _ .bf16 .. => row.flatMap fun x => leBytes (bf16.ofVal .rn (fp32.unpack x)).bits 2
  | .mout _ .f16 .. => row.flatMap fun x => leBytes (fp16.ofVal .rn (fp32.unpack x)).bits 2
  | .mout _ .c4e8 .. => blocksOf cb 16 row
  | _ => wordBytes row

/-- Row `m` of the bytes of a whole-tile word, as a number. -/
def rowData (i : Instr) (data m : Nat) : Nat := bitsOf data (8 * rowLen i * m) (8 * rowLen i)

/-- Posts the assay items of a whole-tile store, one for each row, under its lowest lane (Table 13-5). -/
def State.postRows (s : State) (E : Env) (l : LaneSrc) : State :=
  (upFrom 0 64).foldl (fun s m => s.post E.G.block E.G.core (slotOf l.thread) 0 E.G.pc
    ((((l.a : Int) + m * signedOf l.b 32) % 2 ^ 64).toNat) (rowData E.i l.c m) 0 (rowLen E.i) l.ctx []) s

/-- ACCLD, ACCST and MOUT (R299, R306, R307): the checks of the word, and a log entry that the lanes share. A store keeps the
bytes that it is to write; they are the tile's at issue, +0 for a tile that the block is still to claim. The word claims its tile once it has
passed its checks: a word that faults late claims nothing (R309). -/
def tileWord (i : Instr) (h : Hdr) (t : Fin 8) (a : Reg) (b : Src) (r : Option (Fin 8)) (al : Nat) (st : Bool) (s : State) :
    Host.Outcome State Fault Refusal :=
  matWord i h s true fun E s1 l =>
    let blk := E.G.block
    let core := E.G.core
    let v := E.lv s1 l
    let base := (v.r64 a).toNat
    let stride := (v.s32 b).toNat
    let R := r.bind fun k => s1.record blk core k.val
    if r.isSome && R.isNone then .raise cObRange 0 0
    else if s1.tileHeld blk core t.val then .raise cAccTile 0 0
    else if (match R with
        | some x => !x.cbLoaded
        | none => false) then .raise cMxFormat 0 0
    else if base % al ≠ 0 ∨ stride % al ≠ 0 then .raise cMisalign (base % 2 ^ 52) 0
    else if s1.tileBusy blk core t.val then .wait
    else
      let side := s1.sideOf blk core
      let cb := (R.map Record.codebook).getD 0
      let words := (upFrom 0 4096).map ((s1.claimTile blk core t.val).tileElem blk core t.val)
      let data := if st then leNat ((rowsOf words 64).flatMap (rowBytes i cb)) else 0
      let n := s1.itemNumber blk side (slotOf l)
      let lane (u : Nat) : LaneSrc := { E.src s1 l base stride data n with thread := u }
      let ls := E.act.map lane
      if s1.lineConflict i ls then .wait
      else .go ((if st then s1.postRows E (lane l) else s1).logEntry E ls)

/-- ACCLD (R306). -/
def execAccld (h : Hdr) (t : Fin 8) (a : Reg) (b : Src) (s : State) : Host.Outcome State Fault Refusal :=
  tileWord (.accld h t a b) h t a b none 4 false s
/-- ACCST (R306). -/
def execAccst (h : Hdr) (t : Fin 8) (a : Reg) (b : Src) (s : State) : Host.Outcome State Fault Refusal :=
  tileWord (.accst h t a b) h t a b none 4 true s
/-- MOUT (R307). -/
def execMout (h : Hdr) (fmt : MoutFmt) (t : Fin 8) (r : Fin 8) (a b : Reg) (s : State) :
    Host.Outcome State Fault Refusal :=
  tileWord (.mout h fmt t r a b) h t a (.reg b) (if fmt = .c4e8 then some r else none) (if fmt = .c4e8 then 1 else 2) true s

/-! ## Performing the tile words -/

/-- The bytes of a whole-tile store for each spot of it, in the order of the spots. -/
def spotBytes (sps : List Spot) (bs : List Byte) : List (Spot × List Byte) :=
  match sps with
  | [] => []
  | sp :: r => (sp, bs.take sp.len) :: spotBytes r (bs.drop sp.len)

/-- Stores the pieces of a whole-tile word in order, or none where the overlay has no room (R214). -/
def State.storePieces (s : State) (b core : Nat) (l : LaneSrc) : List (Spot × List Byte) → Option State
  | [] => some s
  | (sp, bs) :: r =>
    match s.storeSpot b core .ca l sp bs with
    | some s1 => s1.storePieces b core l r
    | none => none

/-- Stores the rows of a whole-tile word: rows in rising order, so that a later row wins an overlap (R306). -/
def State.storeRows (s : State) (e : LogEntry) (l : LaneSrc) (sps : List Spot) : Option State :=
  let rows := (rowOrder l.b).flatMap fun m => leBytes (rowData e.instr l.c m) (rowLen e.instr)
  let ps := spotBytes sps rows
  s.storePieces e.block (e.seq / 4) l (if signedOf l.b 32 < 0 then ps.reverse else ps)

/-- Performs a whole-tile word whose checks have passed: the lanes, if the overlay has no room, and the state after it. -/
def State.performTile (s : State) (e : LogEntry) (l : LaneSrc) (sps : List Spot) : List LaneSrc × State :=
  let b := e.block
  let core := e.seq / 4
  let s := ((tileNamed e.instr).map (s.claimTile b core)).getD s
  match e.instr with
  | .accld _ t _ _ =>
    let r := s.readSpots s (s.accOf l.thread (s.liveCtx l.ctx l.gen)) .cg sps
    let words := ((rowOrder l.b).zipIdx).map fun p => (p.1, (r.1.drop (256 * p.2)).take 256)
    let j := s.tileOf b t.val
    ([], ((words.foldl (fun s w => s.setBytes (tilePa core (0x4000 * j + 256 * w.1)) w.2) r.2)).spoilTile b core t.val)
  | _ =>
    match s.storeRows e l sps with
    | some s1 => ([], s1.addPending e (s.liveCtx l.ctx l.gen) sps)
    | none => ([l], s)

end Machine
end Sys2Proof
end

