-- ==== Sys2Proof/Machine/Launch.lean ====
section
/-!
DEFINITION. LAUNCH, EVWAIT and EVSIG (R94 to R97), event counters (R83, R351), and the append to a stream queue's ring
(R79, R95).
-/

namespace Sys2Proof
namespace Machine

/-! ## Event counters -/

/-- An event counter (R83). -/
def State.counter (s : State) (n : Nat) : DWord := s.counters.findD n 0

/-- A counter is granted to a partition (R351). -/
def State.granted (s : State) (part n : Nat) : Bool :=
  let p := (s.partRegs part).pevt
  decide (bitsOf p 0 12 ≤ n ∧ n < bitsOf p 0 12 + bitsOf p 16 13)

/-- The tests of groups at EVWAIT that their counters now meet: a lane's test stays met (R96). -/
def State.noteCounters (s : State) : State :=
  { s with groups := s.groups.map fun p => match p.2.wait with
    | some (.evwait sc d lanes met) =>
      (p.1, { p.2 with wait := some (.evwait sc d lanes (lanes.foldl (fun m l =>
        if (m.find l.thread).isNone && decide (l.b ≤ (s.counter l.a).toNat) then m.put l.thread (s.counter l.a).toNat else m)
        met)) })
    | _ => p }

/-- An atomic add to a counter (R83). -/
def State.addCounter (s : State) (n : Nat) (v : DWord) : State :=
  { s with counters := s.counters.store 0 n (s.counter n + v) }.noteCounters

/-! ## Stream-queue rings -/

/-- The registers of a stream queue. -/
def State.sq (s : State) (q : Nat) : StreamQ := s.sqs.findD q StreamQ.init
/-- Changes a stream queue. -/
def State.modSq (s : State) (q : Nat) (f : StreamQ → StreamQ) : State := { s with sqs := s.sqs.put q (f (s.sq q)) }
/-- Entries of a ring: 2 to the size, 1 for 0 and 13 to 15 (Table 4-5). -/
def StreamQ.entries (Q : StreamQ) : Nat := 2 ^ (if Q.size = 0 ∨ 13 ≤ Q.size then 1 else Q.size)
/-- Physical address of a ring record (R79). -/
def StreamQ.slot (Q : StreamQ) (i : Nat) : Nat := Q.base + 256 * (i % Q.entries)
/-- Records between head and tail. -/
def StreamQ.held (Q : StreamQ) : Nat := (Q.tail + 2 ^ 32 - Q.head) % 2 ^ 32
/-- Usable (R95): enabled, not stopped, of the partition, with device submission allowed. -/
def State.sqUsable (s : State) (q part : Nat) : Bool :=
  let Q := s.sq q
  decide (q ≤ 95) && Q.enable && !Q.stopped && Q.part == part && Q.devSub
/-- Full (R95). -/
def State.sqFull (s : State) (q : Nat) : Bool := (s.sq q).held == (s.sq q).entries

/-- Key of the record of who submitted a ring record. -/
def submitKey (q i : Nat) : Nat := q * 2 ^ 32 + i

/-- Append (R95): the record goes into the slot at SQTAIL, with who submitted it. Where the slot is not in fitted DRAM nothing is written
(log 49). -/
def State.ringAppend (s : State) (q : Nat) (rec_ : RecWords) (tenant world tier : Nat) : State :=
  let Q := s.sq q
  let pa := Q.slot Q.tail
  let s1 := if pa + 256 ≤ s.dramSize then s.setBytes pa (bytesOf rec_) else s
  { s1.modSq q fun Q => { Q with tail := (Q.tail + 1) % 2 ^ 32 } with
    submits := s1.submits.put (submitKey q Q.tail) (world, tenant, tier) }

/-- Work is held with a context (R217). -/
def State.hold (s : State) (tag : Nat) (w : Held) : State := s.modCtx tag fun c => { c with held := c.held ++ [w] }

/-! ## LAUNCH -/

/-- The record that a lane of LAUNCH reads, or its cause (R95): a load of four lines in the current context. -/
def State.launchRead (s : State) (t a : Nat) : Except LaneCause RecWords × State :=
  let T := s.thread t
  let acc := s.accOf t (s.liveCtx T.ctx T.ctxGen)
  let bad (c sub : Nat) : Except LaneCause RecWords := .error ⟨t, c, a % 2 ^ 52, sub⟩
  if a % 256 ≠ 0 then (bad cMisalign 0, s)
  else
    match s.resolveLines acc ⟨true, false, true, subLd⟩ (!s.threadOpen T) a 4 with
    | (.error b, s1) => (bad b.1 b.2, s1)
    | (.ok ps, s1) => (.ok (dwordsOf (ps.flatMap fun p => s1.placeBytes acc p 64) 32), s1)

/-- The records of several lanes, in lane order. -/
def State.launchReads (s : State) : List (Nat × Nat) → List LaneCause × List (Nat × RecWords) × State
  | [] => ([], [], s)
  | (t, a) :: r =>
    match s.launchRead t a with
    | (x, s1) =>
      let rest := s1.launchReads r
      match x with
      | .error c => (c :: rest.1, rest.2.1, rest.2.2)
      | .ok w => (rest.1, (t, w) :: rest.2.1, rest.2.2)

/-- One lane's append, with its status (R95). -/
def State.launchLane (s : State) (b t q : Nat) (w : RecWords) : Nat × State :=
  let ctx := (s.thread t).ctx
  let R := s.recOf b
  let part := s.partOf b
  if ctx ≠ 0 then (3, s.hold ctx (.launch w q part R.tenant R.world R.tier))
  else if !s.sqUsable q part then (2, s)
  else if s.sqFull q then (1, s)
  else (0, s.ringAppend q w R.tenant R.world R.tier)

/-- The appends of several lanes in lane order. -/
def State.launchLanes (s : State) (b : Nat) (qOf : Nat → Nat) : List (Nat × RecWords) → List (Nat × Nat) × State
  | [] => ([], s)
  | (t, w) :: r =>
    let x := s.launchLane b t (qOf t) w
    let y := x.2.launchLanes b qOf r
    ((t, x.1) :: y.1, y.2)

/-- LAUNCH (R95). The word waits for the release at .dev; on a checked block leader and follower meet (R327). -/
def execLaunch (h : Hdr) (d a : Reg) (b : Src) (s : State) : Host.Outcome State Fault Refusal :=
  issue (.launch h d a b) h s fun E s1 =>
    let blk := E.G.block
    let qOf (t : Nat) : Nat := ((E.lv s1 t).s32 b).toNat
    match s1.launchReads (E.act.map fun t => (t, ((E.lv s1 t).r64 a).toNat)) with
    | (cs, ok, s2) =>
      if !ok.isEmpty ∧ !s2.releasedFor blk .dev (ok.map Prod.fst) then s1
      else
        let done (st : State) (vals : List (Nat × Nat)) : State :=
          E.finish (((st.popQueues E).writeTracked E 0 false (vals.map fun v => (v.1, w32 d (BitVec.ofNat 32 v.2)))).pushAll E
            (vals.map fun v => (v.1, w32 d (BitVec.ofNat 32 v.2)))) cs E.fall
        match s2.meet blk E.G.core E.G.pc (ok.map fun o => (o.1, leNat (bytesOf o.2) * 2 ^ 32 + qOf o.1)) with
        | .wait st => st
        | .take vals st => done st ((ok.map Prod.fst).zip vals)
        | .alone => let r := s2.launchLanes blk qOf ok; done r.2 r.1
        | .act st =>
          let r := st.launchLanes blk qOf ok
          done (r.1.foldl (fun st v => st.keepValue blk (slotOf v.1) E.G.pc v.2) r.2) r.1

/-! ## EVWAIT and EVSIG -/

/-- The lanes of EVWAIT or EVSIG whose counter does not exist or is not granted raise PRIV (R96, R97). -/
def State.counterPriv (s : State) (E : Env) (a : Reg) : List LaneCause :=
  allRaise (E.act.filter fun t =>
    let n := ((E.lv s t).r32 a).toNat
    decide (4096 ≤ n) || !s.granted (s.partOf E.G.block) n) cPriv

/-- EVWAIT (R96): the lanes wait together. -/
def execEvwait (h : Hdr) (sc : Scope) (d a : Reg) (b : Src) (s : State) : Host.Outcome State Fault Refusal :=
  issue (.evwait h sc d a b) h s fun E s1 =>
    let cs := s1.counterPriv E a
    let ok := E.act.filter fun t => !cs.any fun c => c.thread == t
    if ok.isEmpty then E.finish (s1.popQueues E) cs E.fall
    else
      let ls := ok.map fun t => E.src s1 t ((E.lv s1 t).r32 a).toNat ((E.lv s1 t).s64 b).toNat 0 0
      (E.await (s1.popQueues E) cs (.evwait sc d ls [])).noteCounters

/-- EVSIG (R97): after the release each lane adds, or holds its add with its context. -/
def execEvsig (h : Hdr) (sc : Scope) (a : Reg) (b : Src) (s : State) : Host.Outcome State Fault Refusal :=
  issue (.evsig h sc a b) h s fun E s1 =>
    let blk := E.G.block
    let priv := s1.counterPriv E a
    let ok1 := E.act.filter fun t => !priv.any fun c => c.thread == t
    let bad := allRaise (ok1.filter fun t => !s1.threadOpen (s1.thread t)) cCtxBad
    let ok := ok1.filter fun t => s1.threadOpen (s1.thread t)
    let vals := ok.map fun t => (t, ((E.lv s1 t).r32 a).toNat, (E.lv s1 t).s64 b)
    let act (st : State) : State := vals.foldl (fun st v =>
      let ctx := (st.thread v.1).ctx
      if ctx ≠ 0 then st.hold ctx (.evsig v.2.1 v.2.2) else st.addCounter v.2.1 v.2.2) st
    let done (st : State) : State := E.finish (st.popQueues E) (priv ++ bad) E.fall
    if !ok.isEmpty ∧ !s1.releasedFor blk sc ok then s1
    else
      match s1.meet blk E.G.core E.G.pc (vals.map fun v => (v.1, v.2.1 + v.2.2.toNat * 2 ^ 32)) with
      | .wait st => st
      | .take _ st => done st
      | .alone => done (act s1)
      | .act st => done (ok.foldl (fun st t => st.keepValue blk (slotOf t) E.G.pc 0) (act st))

/-- EVENT_COUNTER_HOST_ADD (R83). -/
def execEventCounterHostAdd (n : Nat) (v : DWord) (s : State) : Host.Outcome State Fault Refusal :=
  event s (decide (n < 4096)) fun s => s.addCounter n v

/-- A group at EVWAIT has met every lane's test, and its earlier loads have their values (R96, R238). -/
def State.evwaitMet (s : State) (g : Nat) : Bool :=
  match s.groups.find g with
  | some G => match G.wait with
    | some (.evwait _ _ ls met) => (ls.all fun l => (met.find l.thread).isSome) && s.loadsDone (ls.map LaneSrc.thread)
    | _ => false
  | none => false

/-- A queue register that a word is to write has been unbound since its issue (Table 11-11). -/
def State.unboundNow (s : State) (G : Group) (d : Reg) : Bool :=
  d.queue?.any fun q => ((s.bside G.block G.core).queues.getD q QReg.init).binding == .none

/-- EVWAIT_MET (R96): the acquire, and the values: in DM2 the threshold. The places of a queue register were kept since the issue
(State.queuePending); one that has been unbound raises QUEUE at the word (R29). -/
def execEvwaitMet (group : Nat) (s : State) : Host.Outcome State Fault Refusal :=
  event s (s.evwaitMet group) fun s =>
    match s.groups.find group with
    | none => s
    | some G =>
      match G.wait with
      | some (.evwait sc d ls met) =>
        if s.unboundNow G d then
          let G1 := { G with wait := none }
          ((s.modThreads G.lanes fun T => { T with again := true }).setGroup group G1).finish group G1 []
            (allRaise (ls.map LaneSrc.thread) cQueue) G.lanes
        else
        let x (l : LaneSrc) : DWord :=
          BitVec.ofNat 64 (if (s.recOf G.block).dm = 2 then l.b else met.findD l.thread 0)
        let s1 := (s.acquireGroup G sc).results G.block G.core s.nextId false (ls.map fun l => (l.thread, w64 d (x l)))
        s1.resume group (G.pc + 8)
      | _ => s

end Machine
end Sys2Proof
end

