-- ==== Sys2Proof/Machine/Engines.lean ====
section
/-!
DEFINITION. Engine commands and queue registers (R259 to R276), and the class-6 forms PUSH, QBIND, QPEEK, QCNT and QDRAIN
(R277 to R283): checks, the engine queues, acceptance with ownership, the working stage of each operation, and receipts.
-/

namespace Sys2Proof
namespace Machine

/-! ## The fields of a command (Tables 11-2, 11-7 to 11-10) -/

/-- Dword `j` of a command. -/
def dwAt (ds : List DWord) (j : Nat) : Nat := (ds.getD j 0).toNat
/-- The operation code. -/
def opOf (ds : List DWord) : Nat := bitsOf (dwAt ds 0) 0 8
/-- The receipt goes to memory. -/
def toMemory (ds : List DWord) : Bool := bitOf (dwAt ds 0) 19
/-- The receipt queue. -/
def receiptQ (ds : List DWord) : Nat := bitsOf (dwAt ds 0) 16 3
/-- The software tag. -/
def tagOf (ds : List DWord) : Nat := bitsOf (dwAt ds 0) 32 16
/-- Element size of a copy-gather-scatter command (R268). -/
def cgsSize (ds : List DWord) : Nat := 2 ^ bitsOf (dwAt ds 0) 8 3
/-- Index width. -/
def cgsWidth (ds : List DWord) : Nat := if bitOf (dwAt ds 0) 11 then 8 else 4
/-- Count and start index of copy-gather-scatter and voxel-hash. -/
def cntOf (ds : List DWord) : Nat := bitsOf (dwAt ds 5) 0 32
/-- See cntOf. -/
def startOf (ds : List DWord) : Nat := bitsOf (dwAt ds 5) 32 32
/-- Key width of a sort command. -/
def keyWidth (ds : List DWord) : Nat := if bitOf (dwAt ds 0) 8 then 8 else 4
/-- A sort command has values. -/
def hasValues (ds : List DWord) : Bool := bitOf (dwAt ds 0) 11

/-- The command takes its elements from a stream queue. -/
def isStream (k : EngKind) (ds : List DWord) : Bool :=
  match k with
  | .cgs => opOf ds == 4
  | .vox => bitOf (dwAt ds 0) 8
  | _ => false
/-- The stream queue of a command. -/
def streamQ (k : EngKind) (ds : List DWord) : Nat :=
  match k with
  | .cgs => bitsOf (dwAt ds 2) 0 3
  | _ => bitsOf (dwAt ds 3) 0 3

/-- A canonical address that is a multiple. -/
def okAddr (x m : Nat) : Bool := x % m == 0 && decide (x < 2 ^ 52)

/-- Two byte ranges with lengths share a byte. -/
def rangesMeet (p q : Nat × Nat) : Bool := overlaps p.1 p.2 q.1 q.2

/-- The input and destination ranges of a sort command, as (address, length). -/
def sortRanges (ds : List DWord) : List (Nat × Nat) × List (Nat × Nat) :=
  let n := bitsOf (dwAt ds 6) 0 32
  let v := hasValues ds
  ((dwAt ds 2, n * keyWidth ds) :: (if v then [(dwAt ds 3, 4 * n)] else []),
    (dwAt ds 4, n * keyWidth ds) :: (if v then [(dwAt ds 5, 4 * n)] else []) ++
      (if opOf ds = 0 then [(dwAt ds 7, 16 * n)] else []))

/-- No two ranges of a list meet. -/
def apart : List (Nat × Nat) → Bool
  | [] => true
  | p :: r => !r.any (rangesMeet p) && apart r

/-- The command keeps the header limits (Table 11-2). -/
def headerOk (ds : List DWord) : Bool :=
  let d0 := dwAt ds 0
  bitsOf d0 48 16 == 0 && bitsOf d0 20 12 == 0 && bitsOf d0 12 4 == 0 &&
    (if toMemory ds then bitsOf d0 16 3 == 0 && okAddr (dwAt ds 1) 16 else dwAt ds 1 == 0)

/-- The command keeps the limits of its kind's table. -/
def fieldsOk (k : EngKind) (ds : List DWord) : Bool :=
  let op := opOf ds
  let d (j : Nat) := dwAt ds j
  match k with
  | .cgs =>
    let s := cgsSize ds
    let n := cntOf ds
    let i0 := startOf ds
    let lim := bitsOf (d 6) 0 32
    let idx := op == 1 || op == 2
    decide (op ≤ 4) && decide (bitsOf (d 0) 8 3 ≤ 6) && (idx || !bitOf (d 0) 11) && (op != 4 || s == 8) &&
      (if op ≤ 2 then okAddr (d 2) s else op == 3 || decide (d 2 < 8)) && okAddr (d 3) s &&
      (if idx then okAddr (d 4) (cgsWidth ds) else d 4 == 0) &&
      decide (1 ≤ n ∧ n ≤ 2 ^ 24 ∧ i0 ≤ n) && (if op = 1 then true else if op = 2 then decide (1 ≤ lim) else lim == 0) &&
      bitsOf (d 6) 32 32 == 0 && d 7 == 0 &&
      decide ((if op = 2 then lim * s else (n - i0) * s) ≤ 2 ^ 26)
  | .vox =>
    let n := cntOf ds
    decide (op ≤ 1) && bitsOf (d 0) 9 3 == 0 && okAddr (d 2) 64 &&
      (if bitOf (d 0) 8 then decide (d 3 < 8) else d 3 % 8 == 0) && okAddr (d 4) 4 &&
      decide (1 ≤ n ∧ n ≤ 2 ^ 24 ∧ startOf ds ≤ n) && decide (4 ≤ d 7 ∧ d 7 ≤ 18)
  | .sort =>
    let kw := keyWidth ds
    let n := bitsOf (d 6) 0 32
    let na := bitsOf (d 6) 32 32
    let vals (x : Nat) : Bool := if hasValues ds then x % 4 == 0 else x == 0
    let r := sortRanges ds
    decide (op ≤ 1) && d 2 % kw == 0 && vals (d 3) && d 4 % kw == 0 && vals (d 5) && decide (1 ≤ n ∧ n ≤ 2 ^ 22) &&
      (if op = 1 then decide (na ≤ n) && d 7 == 0 else na == 0 && d 7 % 64 == 0) &&
      r.1.all (fun p => !r.2.any (rangesMeet p)) && apart r.2
  | .sec =>
    decide (op ≤ 1) && bitsOf (d 0) 8 4 == 0 && d 3 % 8 == 0 && d 5 == 0 && d 6 == 0 && d 7 == 0 &&
      (if op = 0 then bitsOf (d 4) 32 32 == 0 else d 2 % 8 == 0 && decide (d 4 < 16))

/-- A fixed address of the command lies in a window (R278). -/
def fixedInWindow (k : EngKind) (ds : List DWord) : Bool :=
  let op := opOf ds
  let d (j : Nat) := dwAt ds j
  let own : List Nat := match k with
    | .cgs => (if op ≤ 2 then [d 2] else []) ++ [d 3] ++ (if op = 1 ∨ op = 2 then [d 4] else [])
    | .vox => [d 2, d 4] ++ (if bitOf (d 0) 8 then [] else [d 3])
    | .sort => [d 2, d 4] ++ (if hasValues ds then [d 3, d 5] else []) ++ (if op = 0 then [d 7] else [])
    | .sec => [d 2, d 3]
  (own ++ if toMemory ds then [d 1] else []).any fun x => windowOf x != 0

/-- The destination ranges (R268, R270, R272, R274), as (address, length, also read, receipt side of a fault). -/
def destRanges (k : EngKind) (ds : List DWord) : List (Nat × Nat × Bool × Nat) :=
  let op := opOf ds
  let d (j : Nat) := dwAt ds j
  match k with
  | .cgs =>
    let s := cgsSize ds
    if op = 2 then [(d 3, bitsOf (d 6) 0 32 * s, false, 2)]
    else [(d 3 + startOf ds * s, (cntOf ds - startOf ds) * s, false, 2)]
  | .vox =>
    (d 4 + 4 * startOf ds, 4 * (cntOf ds - startOf ds), false, 2) ::
      (if op = 1 then [(d 2, 2 * (64 * 2 ^ (d 7 % 32)), true, 3)] else [])
  | .sort =>
    let n := bitsOf (d 6) 0 32
    (d 4, n * keyWidth ds, false, 2) :: (if hasValues ds then [(d 5, 4 * n, false, 2)] else []) ++
      (if op = 0 then [(d 7, 16 * n, true, 3)] else [])
  | .sec => [(d 3, if op = 0 then 48 else 3373, false, 2)]

/-! ## Instances and queues (R259) -/

/-- Numbers of the instances of a kind, as PENG numbers them (Table 14-2). -/
def instancesOf : EngKind → List Nat
  | .cgs => upFrom 0 12
  | .vox => upFrom 12 6
  | .sort => upFrom 18 4
  | .sec => upFrom 22 2

/-- The instances of a kind that serve a partition. -/
def State.serving (s : State) (part : Nat) (k : EngKind) : List Nat :=
  (instancesOf k).filter fun n => bitOf (s.partRegs part).peng n

/-- The commands of an instance, oldest first. -/
def State.engQ (s : State) (inst : Nat) : List EngCmd := s.engines.findD inst []
/-- Replaces the commands of an instance. -/
def State.setEngQ (s : State) (inst : Nat) (l : List EngCmd) : State := { s with engines := s.engines.store [] inst l }
/-- Changes every live command. -/
def State.mapCmds (s : State) (f : EngCmd → EngCmd) : State :=
  { s with engines := s.engines.map fun p => (p.1, p.2.map f) }
/-- Changes the command with a number. -/
def State.modCmd (s : State) (id : Nat) (f : EngCmd → EngCmd) : State := s.mapCmds fun c => if c.id = id then f c else c

/-- The instance that takes the next command of a kind, if the engine queue has room. -/
def State.placeFor (s : State) (part : Nat) (k : EngKind) : Option Nat :=
  match leastBy (fun n => (s.engQ n).length) (s.serving part k) with
  | some n => if (s.engQ n).length < Config.engPlaces then some n else none
  | none => none

/-- A queue register of the leader's, or only, side of a block: PUSH is performed there (R265). -/
def State.leadQ (s : State) (b q : Nat) : QReg := (s.block b).lead.queues.getD q QReg.init

/-- Changes a queue register on every side of a block. -/
def State.modQueues (s : State) (b q : Nat) (f : QReg → QReg) : State :=
  (s.coresOf b).foldl (fun s c => s.modBside b c fun S =>
    { S with queues := listSet S.queues q (f (S.queues.getD q QReg.init)) }) s

/-- A stream command takes the oldest entry of a queue register of the leader's, or only, side; the follower's copy of it goes too (R265,
R275). -/
def State.popLead (s : State) (b q : Nat) : State := s.modQueues b q QReg.take

/-- The receipt has its two places (R262). -/
def State.receiptRoom (s : State) (b : Nat) (ds : List DWord) : Bool :=
  toMemory ds || (let Q := s.leadQ b (receiptQ ds)
    decide (Q.entries.length + Q.reserved + 2 ≤ Config.queuePlaces))

/-- A command enters the engine queue and reserves its receipt's places (R259, R262), if there is room. -/
def State.enqueueCmd (s : State) (c : EngCmd) : Option State :=
  match s.placeFor c.part c.kind with
  | none => none
  | some n =>
    if s.receiptRoom c.block c.dwords then
      let s1 := s.setEngQ n (s.engQ n ++ [c])
      some (if toMemory c.dwords then s1
        else s1.modQueues c.block (receiptQ c.dwords) fun Q => { Q with reserved := Q.reserved + 2 })
    else none

/-! ## Engine accesses (R263 to R266) -/

/-- The accessor that an engine is for a command. -/
def EngCmd.acc (c : EngCmd) : Acc := ⟨c.thread, 0, c.block, 0, c.tenant, c.world, c.ctx, true⟩

/-- The page-table entry that an engine uses for an address: the one it took at acceptance, or a walk (R267). -/
def State.engPte (s : State) (c : EngCmd) (e : Nat) : Option DWord :=
  match c.maps.find (e / 4096) with
  | some d => some d
  | none =>
    match s.walk c.tenant e with
    | some d => some d
    | none => none

/-- An engine access reaches a scratchpad bank that is OFF: it is refused with SPAD-OFF (R140, R266). -/
def State.spadOffAt (s : State) (pa : Nat) : Bool :=
  (Place.mem pa 0 true).bank.any fun b => s.spadBank b.1 b.2 == .off

/-- The physical address of an engine access and whether the page is DEVICE, or its reason (R263, R266). -/
def State.engAddr (s : State) (c : EngCmd) (need : Need) (e : Nat) : Except Nat (Nat × Bool) :=
  if 2 ^ 52 ≤ e then .error cXlate
  else if windowOf e ≠ 0 then .error cWindow
  else
    match s.engPte c e with
    | none => .error cXlate
    | some d =>
      let pa := framePa d e
      match s.pageCheck c.acc need d pa with
      | some b => .error b.1
      | none => if s.spadOffAt pa then .error cSpadOff else .ok (pa, pteType d == 1)

/-- A read of an engine: DEVICE pages are read only where R266 says so, and a line that stays uncorrectable gives ECC-UNCORR. -/
def State.engRead (s : State) (c : EngCmd) (devOk : Bool) (e : Nat) : Except Nat (Nat × Bool) :=
  match s.engAddr c ⟨true, false, false, 4⟩ e with
  | .ok (pa, dev) =>
    if (dev || (s.phys pa).isLink) && c.ctx != 0 then .error cCtxBad
    else if dev && !devOk then .error cPerm
    else if c.bad = some (e / 64) then .error cEccUncorr
    else .ok (pa, dev)
  | x => x

/-- A source line that a command accepted earlier owns and has not finished: the read waits (R264). -/
def State.engWait (s : State) (c : EngCmd) (pa : Nat) : Bool :=
  s.engines.any fun p => p.2.any fun o => o.id != c.id && o.accepted && o.ended.isNone && decide (o.accNo < c.accNo) &&
    o.owned.any fun r => decide (r.1 ≤ pa / 64 ∧ pa / 64 < r.1 + r.2)

/-- The bytes that an engine reads in its context (R265). -/
def State.engBytes (s : State) (c : EngCmd) (pa n : Nat) : List Byte := (upFrom pa n).map (s.placeByte c.ctx)

/-- An engine access to a link window crosses the link (R388). -/
def State.engFlit (s : State) (pa : Nat) : State :=
  match s.phys pa with
  | .link port _ => s.sendFlit port
  | _ => s

/-- An engine write of bytes in one line, in its context. L1 lines are gone since acceptance; a write outside the owned ranges
does not occur. -/
def State.engWrite (s : State) (c : EngCmd) (pa : Nat) (bs : List Byte) : State :=
  match s.phys pa with
  | .dram => (s.writeLine c.ctx pa bs).addDrain c.tenant (if c.ctx = 0 then 1 else 0)
  | .core n off => s.mapWrite n off bs
  | _ => s.engFlit pa

/-- The scratchpad bank that an address of the on-chip map lies in is in RETENTION or waking: an access waits (R140). -/
def State.sleepsAt (s : State) (pa : Nat) : Bool := (Place.mem pa 0 true).bank.any fun b => s.bankAsleep b.1 b.2

/-- An access wakes the scratchpad bank that an address of the on-chip map lies in (R140). -/
def State.wakeAt (s : State) (pa : Nat) : State := s.wakeSpots [⟨some (.mem pa 0 true), 0, 0⟩]

/-! ## Acceptance (R263, R264) -/

/-- The pieces of a range in 4 KiB pages, as (address, length); the number bounds them. -/
def pagePieces (e len : Nat) : Nat → List (Nat × Nat)
  | 0 => []
  | n + 1 =>
    if len = 0 then []
    else
      let k := min len (4096 - e % 4096)
      (e, k) :: pagePieces (e + k) (len - k) n

/-- The check of one piece at acceptance: its entry and lines, or the cause at an address. Addresses in a window have no
translation (R263 names no WINDOW there). -/
def State.acceptPiece (s : State) (c : EngCmd) (rd : Bool) (e len : Nat) : Except (Nat × Nat) (DWord × Nat × Nat) :=
  if 2 ^ 52 ≤ e ∨ windowOf e ≠ 0 then .error (cXlate, e % 2 ^ 52)
  else
    match s.walk c.tenant e with
    | none => .error (cXlate, e)
    | some d =>
      let pa := framePa d e
      match s.pageCheck c.acc ⟨rd, true, false, subEng⟩ d pa with
      | some b => .error (b.1, e)
      | none =>
        if c.ctx ≠ 0 ∧ (pteType d = 1 ∨ (s.phys pa).isLink) then .error (cCtxBad, e)
        else .ok (d, pa / 64, (pa + len - 1) / 64 - pa / 64 + 1)

/-- Entries by page and owned runs of some pieces, or the first cause. -/
def State.acceptPieces (s : State) (c : EngCmd) (rd : Bool) : List (Nat × Nat) →
    Except (Nat × Nat) (List (Nat × DWord) × List (Nat × Nat))
  | [] => .ok ([], [])
  | p :: r =>
    match s.acceptPiece c rd p.1 p.2 with
    | .error x => .error x
    | .ok (d, l, n) =>
      match s.acceptPieces c rd r with
      | .error x => .error x
      | .ok (m, o) => .ok ((p.1 / 4096, d) :: m, (l, n) :: o)

/-- The destination ranges of a command at acceptance: what it takes, or the cause, its address and its receipt side. -/
def State.acceptRanges (s : State) (c : EngCmd) : List (Nat × Nat × Bool × Nat) →
    Except (Nat × Nat × Nat) (List (Nat × DWord) × List (Nat × Nat))
  | [] => .ok ([], [])
  | (e, len, rd, side) :: r =>
    match s.acceptPieces c rd (pagePieces e len (len / 4096 + 2)) with
    | .error x => .error (x.1, x.2, side)
    | .ok a =>
      match s.acceptRanges c r with
      | .error x => .error x
      | .ok b => .ok (a.1 ++ b.1, a.2 ++ b.2)

/-- The 4 KiB page of a memory receipt. -/
def receiptPage (ds : List DWord) : Nat := dwAt ds 1 / 4096

/-- What a command takes for its receipt: nothing for a queue register, else the translation of the receipt address for write (R261,
R263), or a cause with its address. -/
def State.receiptMap (s : State) (c : EngCmd) : Except (Nat × Nat) (List (Nat × DWord)) :=
  if toMemory c.dwords then
    match s.acceptPiece c false (dwAt c.dwords 1) 16 with
    | .error x => .error x
    | .ok (d, _) => .ok [(receiptPage c.dwords, d)]
  else .ok []

/-- The outcome of acceptance: what is taken, or a cause with its address and side, and the receipt's translation if that did not fail. -/
inductive Acceptance where
  | takes (maps : List (Nat × DWord)) (owned : List (Nat × Nat))
  | fails (cause addr side : Nat) (receipt : Option (List (Nat × DWord)))
  deriving DecidableEq, Repr

/-- The checks of acceptance: destination ranges, then the receipt address. -/
def State.acceptance (s : State) (c : EngCmd) : Acceptance :=
  match s.acceptRanges c (destRanges c.kind c.dwords), s.receiptMap c with
  | .error x, r => .fails x.1 x.2.1 x.2.2 (match r with
    | .ok m => some m
    | .error _ => none)
  | .ok _, .error x => .fails x.1 x.2 2 none
  | .ok a, .ok m => .takes (a.1 ++ m) a.2

/-- Every line that the command would own is free of commands accepted earlier (R264). -/
def State.canOwn (s : State) (id : Nat) (runs : List (Nat × Nat)) : Bool :=
  s.engines.all fun p => p.2.all fun o => o.id == id || !o.accepted || o.ended.isSome ||
    o.owned.all fun r => runs.all fun q => !overlaps q.1 q.2 r.1 r.2

/-! ## Receipts (R261) -/

/-- Code of a kind (Table 11-1). -/
def kindCode : EngKind → Nat
  | .cgs => 0
  | .vox => 1
  | .sort => 2
  | .sec => 3

/-- Word 0 of a receipt (Table 11-3). -/
def receipt0 (c : EngCmd) (status reason idx : Nat) : DWord :=
  BitVec.ofNat 64 (status * 2 ^ 60 + kindCode c.kind * 2 ^ 58 + reason * 2 ^ 48 + tagOf c.dwords * 2 ^ 32 + idx % 2 ^ 32)

/-- The count that DONE reports: n. -/
def doneCount (c : EngCmd) : Nat :=
  match c.kind with
  | .cgs | .vox => cntOf c.dwords
  | .sort => bitsOf (dwAt c.dwords 6) 0 32
  | .sec => 0

/-- The index that FAULT and CANCELLED report: the first element not done, 0 for sort and security. -/
def faultIndex (c : EngCmd) : Nat :=
  match c.kind with
  | .cgs | .vox => c.next
  | _ => 0

/-- A command gives up its ownership and all translations but its receipt's, with the receipt that it is to post (Table 11-5). -/
def EngCmd.close (c : EngCmd) (r : DWord × DWord) : EngCmd :=
  { c with ended := some r, owned := [], maps := c.maps.filter fun m => toMemory c.dwords && m.1 == receiptPage c.dwords }
/-- A command ends DONE (R261). -/
def EngCmd.done (c : EngCmd) (result : Nat) : EngCmd := c.close (receipt0 c 0 0 (doneCount c), BitVec.ofNat 64 result)
/-- A command ends with FAULT (R266). -/
def EngCmd.fail (c : EngCmd) (reason side addr : Nat) : EngCmd :=
  c.close (receipt0 c 1 reason (faultIndex c), BitVec.ofNat 64 (side * 2 ^ 62 + addr % 2 ^ 52))
/-- A command is cancelled (R265, R267). -/
def EngCmd.cancel (c : EngCmd) : EngCmd := c.close (receipt0 c 2 0 (faultIndex c), 0)
/-- A command has taken some translations. -/
def EngCmd.take (c : EngCmd) (maps : List (Nat × DWord)) : EngCmd := { c with maps := maps.foldl (fun m p => m.put p.1 p.2) [] }

/-! ## Outcomes of PUSH -/

/-- The predicate of a PUSH. -/
def pushPred : Instr → Nat
  | .push _ pd _ _ => pd.val
  | _ => 7

/-- A lane of a PUSH has its outcome: its predicate is written and it leaves the entry, which goes with its last lane. The
follower of a checked block receives the same (R265). -/
def State.pushOutcome (s : State) (entry t : Nat) (ok : Bool) : State :=
  match s.opLog.find entry with
  | none => s
  | some e =>
    let n := ((e.lanes.find? fun l => l.thread == t).map LaneSrc.d).getD 0
    let core := e.seq / 4
    let s1 := s.results e.block core e.age false [(t, [.pred (pushPred e.instr) ok])]
    let it : Item := ⟨0, slotOf t, n, kindReply, e.pc, 0, bitNat ok, 0, 8, 0, [], s.now⟩
    let s2 := if s1.paired e.block && !s1.isFollower e.block core then
        s1.modBlock e.block fun B => { B with items := B.items ++ [it] }
      else s1
    let rest := e.lanes.filter fun l => l.thread != t
    let q := e.queued.filter fun u => u != t
    if rest.isEmpty then s2.dropEntry entry
    else { s2 with opLog := s2.opLog.put entry { e with lanes := rest, queued := q } }

/-- A lane of a PUSH fails its acceptance: a late fault of its entry (R263). -/
def State.pushFault (s : State) (entry : Nat) (c : LaneCause) : State :=
  match s.opLog.find entry with
  | none => s
  | some e =>
    let rest := e.lanes.filter fun l => l.thread != c.thread
    let n := ((e.lanes.find? fun l => l.thread == c.thread).map LaneSrc.d).getD 0
    let it : Item := ⟨0, slotOf c.thread, n, kindReply, e.pc, c.addr, 2 + c.cause, c.sub, 8, 0, [], s.now⟩
    let s1 := if s.paired e.block && !s.isFollower e.block (e.seq / 4) then
        s.modBlock e.block fun B => { B with items := B.items ++ [it] }
      else s
    if rest.isEmpty ∨ e.lanes.all (fun l => l.thread != c.thread) then s1.faultLanes entry e [c]
    else
      -- the faulted lane gets an entry of its own beside the lanes that go on
      let id2 := s1.nextId
      let q := e.queued.filter fun u => u != c.thread
      let mine := e.lanes.filter fun l => l.thread == c.thread
      let e1 : LogEntry := { e with lanes := rest, queued := q }
      let e2 : LogEntry := { e with lanes := mine, queued := [] }
      ({ s1.fresh with opLog := (s1.opLog.put entry e1).put id2 e2 }).faultLanes id2 e2 [c]

/-- The commands that meet a test are cancelled (R216, R265, R267): those not yet accepted are dropped, with their pushing
lanes' predicates true; a memory receipt that no longer translates is not written. -/
def State.cancelCmds (s : State) (p : EngCmd → Bool) : State :=
  let live := s.engines.flatMap fun q => q.2.filter fun c => c.ended.isNone && p c
  live.foldl (fun s c =>
    let s1 := if c.accepted || c.heldDm1 then s else s.pushOutcome c.entry c.thread true
    if c.accepted then s1.modCmd c.id EngCmd.cancel
    else match s.receiptMap c with
      | .ok m => s1.modCmd c.id fun c => (c.take m).cancel
      | .error _ => { s1 with engines := s1.engines.map fun q => (q.1, q.2.filter fun d => d.id != c.id) }) s

/-! ## PUSH (R278) -/

/-- The first cause of a lane of PUSH (R278, R283). The context must be OPEN, as for any work in it. -/
def State.pushCause (s : State) (E : Env) (t : Nat) (kind : EngKind) (ds : List DWord) : Option LaneCause :=
  let b := E.G.block
  let R := s.recOf b
  let S := s.bside b E.G.core
  let bindOf (q : Nat) : QBinding := (S.queues.getD q QReg.init).binding
  let need : QBinding := if kind = .cgs then .cgs else .vox
  let plain (c : Nat) : Option LaneCause := some (.plain t c)
  if kind = .sec ∧ R.world ≠ 0 then plain cPriv
  else if (s.serving (s.partOf b) kind).isEmpty ∨ !headerOk ds ∨ !fieldsOk kind ds then plain cEngine
  else if !toMemory ds ∧ bindOf (receiptQ ds) ≠ .none then plain cQueue
  else if isStream kind ds ∧ bindOf (streamQ kind ds) ≠ need then plain cQueue
  else if R.dm = 1 ∧ (!toMemory ds ∨ isStream kind ds) then plain cOrdered
  else if fixedInWindow kind ds then plain cWindow
  else if !s.threadOpen (s.thread t) then plain cCtxBad
  else none

/-- The command registers of a lane. -/
def LV.command (v : LV) (cmd : Fin 240) : List DWord :=
  (upFrom 0 8).map fun j => pairOf (v.rv (cmd.val + 2 * j)) (v.rv (cmd.val + 2 * j + 1))

/-- PUSH (R278): the checks at issue, and a log entry for the lanes that pass them. The entry holds the command as one
number. -/
def execPush (h : Hdr) (pd : Fin 8) (kind : EngKind) (cmd : Fin 240) (s : State) : Host.Outcome State Fault Refusal :=
  issue (.push h pd kind cmd) h s fun E s1 =>
    let cs := E.act.filterMap fun t => s1.pushCause E t kind ((E.lv s1 t).command cmd)
    let ok := E.act.filter fun t => !cs.any fun c => c.thread == t
    let ls := ok.map fun t => E.src s1 t (leNat (bytesOf ((E.lv s1 t).command cmd))) 0 0 0
    let r := s1.postLanes E ls fun l => (3, 0, l.a, kindCode kind, 64)
    E.finish (if ls.isEmpty then r.1 else r.1.logEntry E r.2) cs E.fall

/-- The command of a lane of a PUSH's entry. -/
def State.cmdOf (s : State) (id : Nat) (e : LogEntry) (kind : EngKind) (l : LaneSrc) : EngCmd :=
  let R := s.recOf e.block
  let ds := dwordsOf (leBytes l.a 64) 8
  { id := s.nextId, kind := kind, dwords := ds, thread := l.thread, block := e.block, ctx := l.ctx, tenant := R.tenant,
    world := R.world, part := s.partOf e.block, entry := id, heldDm1 := false, accepted := false, next := (match kind with
      | .cgs | .vox => startOf ds
      | _ => 0), new := 0, unplaced := 0, ended := none, owned := [], maps := [], accNo := 0, poolAt := 0, bad := none }

/-- The lanes of a PUSH whose release is done go on in lane order (R278): they are held, enqueued or refused. A command whose context has
been voided since its issue is dropped as it enters (R216, R265). -/
def State.pushLanes (s : State) (id : Nat) (e : LogEntry) (kind : EngKind) : List LaneSrc → State
  | [] => s
  | l :: r =>
    let c := s.cmdOf id e kind l
    let s1 :=
      if (s.recOf e.block).dm = 1 then (s.fresh.hold l.ctx (.eng { c with heldDm1 := true, entry := 0 })).pushOutcome id l.thread true
      else
        match s.fresh.enqueueCmd c with
        | none => s.pushOutcome id l.thread false
        | some s2 =>
          let s3 := { s2 with opLog := s2.opLog.adjust id fun x => { x with queued := x.queued ++ [l.thread] } }
          if s.ctxGone l.ctx l.gen then s3.cancelCmds fun x => x.id == c.id else s3
    s1.pushLanes id e kind r

/-- The lanes of a follower's PUSH take the leader's outcomes (R265). -/
def State.pushTake (s : State) (id : Nat) (e : LogEntry) : List LaneSrc → State
  | [] => s
  | l :: r =>
    let slot := slotOf l.thread
    let hit (i : Item) : Bool := i.kind == kindReply && i.slot == slot && i.n == l.d
    match (s.block e.block).items.find? hit with
    | none => s.pushTake id e r
    | some i =>
      let s1 := s.modBlock e.block fun B => { B with items := dropFirst hit B.items }
      let s2 := if i.data < 2 then s1.pushOutcome id l.thread (i.data == 1)
        else s1.pushFault id ⟨l.thread, i.data - 2, i.addr, i.extra⟩
      s2.pushTake id e r

/-- The kind of a PUSH. -/
def pushKind : Instr → Option EngKind
  | .push _ _ k _ => some k
  | _ => none

/-- A PUSH's entry may go on: some lane is still to be queued, the release at .dev is done (R231, R237), older PUSHes of its threads
are queued (R259), and on a checked block the items have matched, or the follower has an outcome to take. -/
def State.pushReady (s : State) (_id : Nat) (e : LogEntry) : Bool :=
  let core := e.seq / 4
  let side := s.sideOf e.block core
  let todo := e.lanes.filter fun l => !e.queued.contains l.thread
  s.awake e.block && !e.dormant && !todo.isEmpty && s.storesBefore e.block e.age && s.loadsBefore (e.lanes.map LaneSrc.thread) e.age &&
    !(s.olderEntry e.age e.lanes fun q m => (pushKind q.instr).isSome && !q.queued.contains m.thread) &&
    (!e.replay || !s.olderEntry e.age e.lanes fun q _ => q.replay) &&
    (if s.isFollower e.block core then
        todo.all fun l => (s.replyFor e.block (slotOf l.thread) l.d).isSome
      else !s.paired e.block || todo.all fun l => !s.unmatched e.block side (slotOf l.thread) l.d)

/-- A PUSH's entry goes on. -/
def State.pushGo (s : State) (id : Nat) (e : LogEntry) (kind : EngKind) : State :=
  let todo := e.lanes.filter fun l => !e.queued.contains l.thread
  if s.isFollower e.block (e.seq / 4) then s.pushTake id e todo else s.pushLanes id e kind todo

/-! ## QBIND, QPEEK, QCNT and QDRAIN -/

/-- QBIND (R279): once for the group. -/
def execQbind (h : Hdr) (q : Fin 8) (b : QBinding) (s : State) : Host.Outcome State Fault Refusal :=
  issue (.qbind h q b) h s fun E s1 =>
    let Q := (s1.bside E.G.block E.G.core).queues.getD q.val QReg.init
    if E.act.isEmpty ∨ Q.binding = b then E.finish s1 [] E.fall
    else if !Q.entries.isEmpty ∨ Q.reserved ≠ 0 ∨ s1.consuming E.G.block q.val then
      E.finish s1 (allRaise E.act cQueue) E.fall
    else E.finish (s1.modBside E.G.block E.G.core fun S =>
      { S with queues := listSet S.queues q.val { Q with binding := b } }) [] E.fall

/-- QPEEK (R280). -/
def execQpeek (h : Hdr) (d : Reg) (q : Fin 8) (b : Src) (s : State) : Host.Outcome State Fault Refusal :=
  issue (.qpeek h d q b) h s fun E s1 =>
    let Q := (s1.bside E.G.block E.G.core).queues.getD q.val QReg.init
    s1.shared false 4 (fun v => (none, Q.entries.getD (v.u32 b).toNat 0xFFFFFFFFFFFFFFFF)) (w64 d) E

/-- Code of a binding (R281). -/
def QBinding.code : QBinding → Nat
  | .none => 0
  | .cgs => 1
  | .vox => 2

/-- QCNT (R281). -/
def execQcnt (h : Hdr) (d : Reg) (q : Fin 8) (s : State) : Host.Outcome State Fault Refusal :=
  issue (.qcnt h d q) h s fun E s1 =>
    let Q := (s1.bside E.G.block E.G.core).queues.getD q.val QReg.init
    let x := Q.entries.length + Q.reserved * 2 ^ 8 + QBinding.code Q.binding * 2 ^ 16
    s1.shared false 4 (fun _ => (none, BitVec.ofNat 64 x)) (fun y => w32 d (lowWord y)) E

/-- QDRAIN (R282): once for the group; it waits for reserved receipts. -/
def execQdrain (h : Hdr) (d : Reg) (q : Fin 8) (s : State) : Host.Outcome State Fault Refusal :=
  issue (.qdrain h d q) h s fun E s1 =>
    let Q := (s1.bside E.G.block E.G.core).queues.getD q.val QReg.init
    if E.act.isEmpty then E.finish s1 [] E.fall
    else if Q.binding ≠ .none ∧ s1.consuming E.G.block q.val then E.finish s1 (allRaise E.act cQueue) E.fall
    else if Q.binding = .none ∧ Q.reserved ≠ 0 then s1
    else
      let s2 := s1.modBside E.G.block E.G.core fun S =>
        { S with queues := listSet S.queues q.val { Q with entries := [] } }
      s2.tracked 0 (fun _ => (none, w32 d (BitVec.ofNat 32 Q.entries.length))) E

/-- QUEUE_READ_RESUME (R275): the entries that a group waits for are there, or can no longer come. -/
def State.queueResumes (s : State) (g : Nat) : Bool :=
  match s.groups.find g with
  | some G => match G.wait with
    | some (.queue qs m) => qs.all fun q =>
        ((s.bside G.block G.core).queues.getD q QReg.init).readGate m != .wait
    | _ => false
  | none => false

/-- QUEUE_READ_RESUME (R275): the word issues again. -/
def execQueueReadResume (group : Nat) (s : State) : Host.Outcome State Fault Refusal :=
  event s (s.queueResumes group) fun s => match s.groups.find group with
    | some G => s.resume group G.pc
    | none => s

/-! ## ENGINE_ACCEPT and RECEIPT_POST -/

/-- A command that its thread pushed earlier, to any instance, is still to be accepted (R259, Table 11-6). -/
def State.pushedBefore (s : State) (c : EngCmd) : Bool :=
  s.engines.any fun p => p.2.any fun o => o.thread == c.thread && o.block == c.block && decide (o.id < c.id) && !o.accepted &&
    o.ended.isNone

/-- The command that an instance would accept: the oldest that is not accepted yet, in the order in which the instance received them, and
after those that its thread pushed earlier (log 54). -/
def State.toAccept (s : State) (inst : Nat) : Option EngCmd :=
  match (s.engQ inst).find? fun c => !c.accepted && c.ended.isNone with
  | some c => if s.pushedBefore c then none else some c
  | none => none

/-- L1 lines of owned physical lines go, on every core (R241). -/
def State.l1DropRuns (s : State) (runs : List (Nat × Nat)) : State :=
  s.l1Drop fun l => runs.any fun r => decide (r.1 ≤ l.pline ∧ l.pline < r.1 + r.2)

/-- An instance accepts a command, or drops it with a cause for its lane (R263); for a held command of DM1 a fault gives a FAULT
receipt, or ends the launch when the receipt address fails, alone or besides (R265). -/
def State.accept (s : State) (inst : Nat) (c : EngCmd) : State :=
  match s.acceptance c with
  | .takes maps owned =>
    let f (x : EngCmd) : EngCmd := { x.take maps with accepted := true, owned := owned, accNo := s.nextId }
    let s1 := (s.fresh.modCmd c.id f).l1DropRuns owned
    if c.heldDm1 then s1 else s1.pushOutcome c.entry c.thread true
  | .fails cause addr side receipt =>
    let gone := { s with engines := s.engines.store [] inst ((s.engQ inst).filter fun x => x.id != c.id) }
    if c.heldDm1 then
      match receipt with
      | none => gone.endLaunch (s.block c.block).launch stAborted
      | some m => s.modCmd c.id fun x => { (x.take m).fail cause side addr with accepted := true }
    else
      let s1 := if toMemory c.dwords then gone
        else gone.modQueues c.block (receiptQ c.dwords) fun Q => { Q with reserved := Q.reserved - 2 }
      s1.pushFault c.entry ⟨c.thread, cause, addr, if cause = cSealed then subEng else 0⟩

/-- ENGINE_ACCEPT (R263, R264): acceptance waits until every destination line is free. -/
def execEngineAccept (inst : Nat) (s : State) : Host.Outcome State Fault Refusal :=
  event s (match s.toAccept inst with
      | some c => (match s.acceptance c with
        | .takes _ owned => s.canOwn c.id owned
        | .fails .. => true)
      | none => false) fun s => match s.toAccept inst with
    | some c => s.accept inst c
    | none => s

/-- The first ended command of an instance: its receipt is to be posted. -/
def State.toPost (s : State) (inst : Nat) : Option EngCmd := (s.engQ inst).find? fun c => c.ended.isSome

/-- The physical address of a memory receipt, under the translation taken for it (R261, R267). -/
def EngCmd.receiptPa (c : EngCmd) : Nat := framePa (c.maps.findD (receiptPage c.dwords) 0) (dwAt c.dwords 1)

/-- The receipt of a command is posted (R261): two entries of the queue register in one step, or one store of 16 bytes in the
base context. Receipts for an exited block's queues are discarded (R267). -/
def State.postReceipt (s : State) (c : EngCmd) (r : DWord × DWord) : State :=
  if toMemory c.dwords then
    (s.engWrite { c with ctx := 0 } c.receiptPa (bytesOf [r.1, r.2])).l1DropRuns [(c.receiptPa / 64, 1)]
  else if (s.block c.block).residence = .exited then s
  else s.modQueues c.block (receiptQ c.dwords) fun Q =>
    { Q with entries := Q.entries ++ [r.1, r.2], reserved := Q.reserved - 2 }

/-- RECEIPT_POST (R261, R262). A receipt to a scratchpad bank in RETENTION wakes it and waits (R140). -/
def execReceiptPost (inst : Nat) (s : State) : Host.Outcome State Fault Refusal :=
  event s (s.toPost inst).isSome fun s => match s.toPost inst with
    | some c => match c.ended with
      | some r =>
        if toMemory c.dwords && s.sleepsAt c.receiptPa then s.wakeAt c.receiptPa
        else (s.setEngQ inst ((s.engQ inst).filter fun x => x.id != c.id)).postReceipt c r
      | none => s
    | none => s

/-! ## The working stage -/

/-- Why an engine does not go on: it waits for a line, an entry or a scratchpad bank, or for overlay room, with the side and the address
of the write, or it faults, with reason, side and address. -/
inductive Halt where
  | wait
  | pool (side addr : Nat)
  | fault (reason side addr : Nat)
  deriving DecidableEq, Repr

/-- What one element of a command comes to. -/
inductive ElemStep where
  /-- the element is done -/
  | ok (s : State) (c : EngCmd)
  /-- it does not go on; the state may have a bank that wakes for it -/
  | halt (s : State) (h : Halt)

/-- A read of `n` bytes in one line by an engine, with its side. -/
def State.elemRead (s : State) (c : EngCmd) (devOk : Bool) (side e n : Nat) (f : State → List Byte → ElemStep) : ElemStep :=
  match s.engRead c devOk e with
  | .error r => .halt s (.fault r side e)
  | .ok (pa, _) =>
    if s.engWait c pa then .halt s .wait
    else if s.sleepsAt pa then .halt (s.wakeAt pa) .wait
    else f (s.engFlit pa) (s.engBytes c pa n)

/-- A write of bytes in one line by an engine, with its side. -/
def State.elemWrite (s : State) (c : EngCmd) (side e : Nat) (bs : List Byte) (f : State → ElemStep) : ElemStep :=
  match s.engAddr c ⟨false, true, false, subEng⟩ e with
  | .error r => .halt s (.fault r side e)
  | .ok (pa, _) =>
    if s.sleepsAt pa then .halt (s.wakeAt pa) .wait
    else if s.poolBlocked c.ctx pa then .halt s (.pool side e)
    else f (s.engWrite c pa bs)

/-- A command that does not go on: its wait for overlay room begins, or it ends with FAULT, after 100 µs of that wait too (R266). -/
def EngCmd.halted (now : Nat) (c : EngCmd) : Halt → EngCmd
  | .wait => c
  | .pool side e =>
    if c.poolAt = 0 then { c with poolAt := now + 1 }
    else if c.poolAt + 100 * Config.us ≤ now + 1 then c.fail cCtxPool side e else c
  | .fault r side e => c.fail r side e

/-- The state at a halt of a command that has made no element: a bank may wake for it. -/
def State.haltedAt (s s1 : State) : State := { s with spadBanks := s1.spadBanks, spadWakes := s1.spadWakes }

/-- A stream command waits for an earlier one on the same queue register, which takes all its entries first (R276). -/
def State.streamBehind (s : State) (c : EngCmd) : Bool :=
  s.engines.any fun p => p.2.any fun o => decide (o.id < c.id) && o.block == c.block && o.kind == c.kind && o.ended.isNone &&
    isStream o.kind o.dwords && streamQ o.kind o.dwords == streamQ c.kind c.dwords

/-- Element `k` of a copy-gather-scatter command (R269). -/
def State.cgsElem (s : State) (c : EngCmd) : ElemStep :=
  let ds := c.dwords
  let op := opOf ds
  let z := cgsSize ds
  let k := c.next
  let lim := bitsOf (dwAt ds 6) 0 32
  let devOk := decide (z ≤ 8)
  let put (s : State) (j : Nat) (bs : List Byte) : ElemStep :=
    s.elemWrite c 2 (dwAt ds 3 + j * z) bs fun s => .ok s { c with next := k + 1 }
  let source (s : State) (j k : Nat) : ElemStep :=
    s.elemRead c devOk 0 (dwAt ds 2 + j * z) z fun s bs => put s k bs
  let indexed (f : State → Nat → ElemStep) : ElemStep :=
    let e := dwAt ds 4 + k * cgsWidth ds
    s.elemRead c true 1 e (cgsWidth ds) fun s bs =>
      let x := leNat bs
      if lim ≠ 0 ∧ lim ≤ x then .halt s (.fault cEngine 1 e) else f s x
  if op = 0 then source s k k
  else if op = 1 then indexed fun s x => source s x k
  else if op = 2 then indexed fun s x => source s k x
  else if op = 3 then put s k ((List.replicate ((z + 7) / 8) (leBytes (dwAt ds 2) 8)).flatten.take z)
  else
    let q := streamQ .cgs ds
    match (if s.streamBehind c then [] else (s.leadQ c.block q).entries) with
    | [] => .halt s .wait
    | x :: _ => put (s.popLead c.block q) k (leBytes x.toNat 8)

/-- The slots of the two buckets of a key, lowest index first, as (slot index, address) (R270, R271). -/
def voxSlots (ds : List DWord) (key : Nat) : List (Nat × Nat) :=
  let nb := 2 ^ (dwAt ds 7 % 32)
  let lo := BitVec.ofNat 32 key
  let hi := BitVec.ofNat 32 (bitsOf key 32 31)
  let h (sd : Nat) : Nat := (hash32 lo (BitVec.ofNat 32 sd ^^^ hi)).toNat
  let b0 := h (bitsOf (dwAt ds 6) 0 32) % nb
  let b1 := h (bitsOf (dwAt ds 6) 32 32) % nb
  ((upFrom (b0 * 8) 8) ++ (upFrom ((nb + b1) * 8) 8)).map fun σ => (σ, dwAt ds 2 + 8 * σ)

/-- Reads the slots of a key's buckets: side 3. -/
def State.readSlots (s : State) (c : EngCmd) : List (Nat × Nat) → List (Nat × Nat) → (State → List (Nat × Nat) → ElemStep) → ElemStep
  | [], acc, f => f s acc.reverse
  | (σ, e) :: r, acc, f => s.elemRead c false 3 e 8 fun s bs => s.readSlots c r ((σ, leNat bs) :: acc) f

/-- Key `j` of a voxel-hash command and what it gives (R271). -/
def State.voxElem (s : State) (c : EngCmd) : ElemStep :=
  let ds := c.dwords
  let j := c.next
  let res (s : State) (c : EngCmd) (r : Nat) : ElemStep :=
    s.elemWrite c 2 (dwAt ds 4 + 4 * j) (leBytes r 4) fun s => .ok s { c with next := j + 1 }
  let key (s : State) (x : Nat) : ElemStep :=
    if bitOf x 63 then res s c 0xFFFFFFFE
    else s.readSlots c (voxSlots ds x) [] fun s slots =>
      match slots.find? fun (p : Nat × Nat) => bitOf p.2 63 && bitsOf p.2 0 63 == x with
      | some p => res s c p.1
      | none =>
        if opOf ds = 1 then
          match slots.find? fun (p : Nat × Nat) => !bitOf p.2 63 with
          | some p => s.elemWrite c 3 (dwAt ds 2 + 8 * p.1) (leBytes (2 ^ 63 + x) 8) fun s =>
              res s { c with new := c.new + 1 } p.1
          | none => res s { c with unplaced := c.unplaced + 1 } 0xFFFFFFFF
        else res s c 0xFFFFFFFF
  if bitOf (dwAt ds 0) 8 then
    let q := streamQ .vox ds
    match (if s.streamBehind c then [] else (s.leadQ c.block q).entries) with
    | [] => .halt s .wait
    | x :: _ => key (s.popLead c.block q) x.toNat
  else s.elemRead c false 1 (dwAt ds 3 + 8 * j) 8 fun s bs => key s (leNat bs)

/-- Runs the elements of a command until it ends, faults or waits; the number bounds them. -/
def State.runElems (elem : State → EngCmd → ElemStep) (fin : EngCmd → EngCmd) (last : Nat) :
    Nat → State → EngCmd → State × EngCmd
  | 0, s, c => (s, c)
  | n + 1, s, c =>
    if last ≤ c.next then (s, fin c)
    else
      match elem s c with
      | .ok s1 c1 => State.runElems elem fin last n s1 { c1 with poolAt := 0 }
      | .halt s1 h => (s.haltedAt s1, c.halted s.now h)

/-- Reads a range of bytes line by line for sort and security; the number bounds the pieces. -/
def State.readRange (s : State) (c : EngCmd) (side e len : Nat) : Nat → Except (State × Halt) (State × List Byte)
  | 0 => .ok (s, [])
  | n + 1 =>
    if len = 0 then .ok (s, [])
    else
      let k := min len (64 - e % 64)
      match s.engRead c false e with
      | .error r => .error (s, .fault r side e)
      | .ok (pa, _) =>
        if s.engWait c pa then .error (s, .wait)
        else if s.sleepsAt pa then .error (s.wakeAt pa, .wait)
        else match (s.engFlit pa).readRange c side (e + k) (len - k) n with
          | .error x => .error x
          | .ok r => .ok (r.1, s.engBytes c pa k ++ r.2)

/-- Writes a range of bytes line by line; the number bounds the pieces. -/
def State.writeRange (s : State) (c : EngCmd) (side e : Nat) (bs : List Byte) : Nat → Except (State × Halt) State
  | 0 => .ok s
  | n + 1 =>
    if bs.isEmpty then .ok s
    else
      let k := 64 - e % 64
      match s.elemWrite c side e (bs.take k) (fun s => .ok s c) with
      | .ok s1 _ => s1.writeRange c side (e + k) (bs.drop k) n
      | .halt s1 h => .error (s1, h)

/-- The numbers of `w` bytes that some bytes hold; the count bounds them. -/
def chunks (w : Nat) : Nat → List Byte → List Nat
  | 0, _ => []
  | n + 1, bs => leNat (bs.take w) :: chunks w n (bs.drop w)

/-- The order of a sort command on keys: `x` comes strictly before `y` (R273). -/
def sortLess (ds : List DWord) (x y : Nat) : Bool :=
  let w := 8 * keyWidth ds
  let lt (x y : Nat) : Bool := if bitOf (dwAt ds 0) 9 then decide (signedOf x w < signedOf y w) else decide (x < y)
  if bitOf (dwAt ds 0) 10 then lt y x else lt x y

/-- Merges two runs, the first before the second on equal keys; the number bounds the elements. -/
def mergeRuns {α : Type} (less : α → α → Bool) : Nat → List α → List α → List α
  | 0, _, _ => []
  | _, [], b => b
  | _, a, [] => a
  | n + 1, x :: a, y :: b => if less y x then y :: mergeRuns less n (x :: a) b else x :: mergeRuns less n a (y :: b)

/-- A stable merge sort; the number bounds the depth. -/
def stableSort {α : Type} (less : α → α → Bool) : Nat → List α → List α
  | 0, l => l
  | n + 1, l =>
    if l.length ≤ 1 then l
    else
      let k := l.length / 2
      mergeRuns less l.length (stableSort less n (l.take k)) (stableSort less n (l.drop k))

/-- The runs of a MERGE are in order (R273). -/
def inOrder (ds : List DWord) : List (Nat × Nat) → Bool
  | [] => true
  | [_] => true
  | x :: y :: r => !sortLess ds y.1 x.1 && inOrder ds (y :: r)

/-- A permutation by free choices: MERGE of runs that are not in order (R273). -/
def freePerm {α : Type} (ctr : Nat) : Nat → List α → List α
  | 0, l => l
  | _, [] => []
  | n + 1, x :: r =>
    let rest := freePerm ctr n r
    let k := (Config.freeWord ctr n).toNat % (rest.length + 1)
    rest.take k ++ x :: rest.drop k

/-- Fills a range with free bytes: what nothing defines (R273). -/
def freeBytes (ctr n : Nat) : List Byte := (List.range n).map fun i => Config.freeByte ctr i

/-- The outcome of the whole working stage of a sort or security command. -/
def State.finishRange (s : State) (c : EngCmd) (x : Except (State × Halt) State) : State × EngCmd :=
  match x with
  | .ok s1 => (s1, c.done 0)
  | .error (s1, h) => (s.haltedAt s1, c.halted s.now h)

/-- SORT and MERGE (R273). -/
def State.sortWork (s : State) (c : EngCmd) : State × EngCmd :=
  let ds := c.dwords
  let n := bitsOf (dwAt ds 6) 0 32
  let na := bitsOf (dwAt ds 6) 32 32
  let kw := keyWidth ds
  let pieces (len : Nat) : Nat := len / 64 + 2
  let keys := s.readRange c 0 (dwAt ds 2) (n * kw) (pieces (n * kw))
  let vals (s : State) : Except (State × Halt) (State × List Byte) :=
    if hasValues ds then s.readRange c 0 (dwAt ds 3) (4 * n) (pieces (4 * n)) else .ok (s, [])
  match keys.bind fun k => (vals k.1).map fun v => (v.1, k.2, v.2) with
  | .error x => s.finishRange c (.error x)
  | .ok (s0, kb, vb) =>
    let ps : List (Nat × Nat) := (chunks kw n kb).zip (if hasValues ds then chunks 4 n vb else List.replicate n 0)
    let less (x y : Nat × Nat) : Bool := sortLess ds x.1 y.1
    let a := ps.take na
    let b := ps.drop na
    let out : List (Nat × Nat) :=
      if opOf ds = 0 then stableSort less 23 ps
      else if inOrder ds a && inOrder ds b then mergeRuns less n a b
      else freePerm s.freeCtr n ps
    let s0 := { s0 with freeCtr := s.freeCtr + 1 }
    let r1 := s0.writeRange c 2 (dwAt ds 4) (out.flatMap fun (p : Nat × Nat) => leBytes p.1 kw) (pieces (n * kw))
    let r2 := match r1 with
      | .ok s1 => if hasValues ds then s1.writeRange c 2 (dwAt ds 5) (out.flatMap fun (p : Nat × Nat) => leBytes p.2 4) (pieces (4 * n)) else .ok s1
      | x => x
    let r3 := match r2 with
      | .ok s1 => if opOf ds = 0 then s1.writeRange c 3 (dwAt ds 7) (freeBytes s.freeCtr (16 * n)) (pieces (16 * n)) else .ok s1
      | x => x
    s.finishRange c r3

/-- HASH and SIGN (R274). SIGN with slot 0, or an empty slot, faults with PRIV (R373). -/
def State.secWork (s : State) (c : EngCmd) : State × EngCmd :=
  let ds := c.dwords
  let slot := bitsOf (dwAt ds 4) 0 4
  let len := if opOf ds = 0 then bitsOf (dwAt ds 4) 0 32 else 48
  if opOf ds = 1 ∧ (slot = 0 ∨ (slot ≠ 1 ∧ !Config.deviceKeyPresent slot)) then (s, c.fail cPriv 3 0)
  else
    match s.readRange c 0 (dwAt ds 2) len (len / 64 + 2) with
    | .error x => s.finishRange c (.error x)
    | .ok (s1, m) =>
      let out := if opOf ds = 0 then sha384 m else compositeSign slot m
      s.finishRange c (s1.writeRange c 2 (dwAt ds 3) out 60)

/-- The working stage of the command at the head of an instance, as far as it goes. -/
def State.work (s : State) (c : EngCmd) : State × EngCmd :=
  match c.kind with
  | .cgs => State.runElems State.cgsElem (fun c => c.done 0) (cntOf c.dwords) (cntOf c.dwords + 1 - c.next) s c
  | .vox =>
    State.runElems State.voxElem (fun c => c.done (c.new + c.unplaced * 2 ^ 32)) (cntOf c.dwords)
      (cntOf c.dwords + 1 - c.next) s c
  | .sort => s.sortWork c
  | .sec => s.secWork c

/-- The command that an instance works on: its oldest, accepted and not ended. -/
def State.working (s : State) (inst : Nat) : Option EngCmd :=
  match s.engQ inst with
  | c :: _ => if c.accepted ∧ c.ended.isNone then some c else none
  | [] => none

/-- The physical runs of some pieces under the translations of acceptance. -/
def EngCmd.runsOf (c : EngCmd) (ps : List (Nat × Nat)) : List (Nat × Nat) :=
  ps.filterMap fun p => (c.maps.find (p.1 / 4096)).map fun d =>
    let pa := framePa d p.1
    (pa / 64, (pa + p.2 - 1) / 64 - pa / 64 + 1)

/-- The lines that a command still owns after some elements (R264): those with bytes to come, for the operations that finish
a line with its last element; all of them for the others. -/
def EngCmd.keeps (c : EngCmd) : List (Nat × Nat) :=
  let rest (e len : Nat) : List (Nat × Nat) := c.runsOf (pagePieces e len (len / 4096 + 2))
  match c.kind, opOf c.dwords with
  | .cgs, 2 => c.owned
  | .cgs, _ =>
    let z := cgsSize c.dwords
    rest (dwAt c.dwords 3 + c.next * z) ((cntOf c.dwords - c.next) * z)
  | .vox, 0 => rest (dwAt c.dwords 4 + 4 * c.next) (4 * (cntOf c.dwords - c.next))
  | _, _ => c.owned

/-- The working step of an instance whose command has some operation. -/
def workWord (kind : EngKind) (op inst : Nat) (s : State) : Host.Outcome State Fault Refusal :=
  event s (match s.working inst with
      | some c => c.kind == kind && opOf c.dwords == op && (let r := s.work c
        r.2 != c || r.1.spadBanks != s.spadBanks)
      | none => false) fun s => match s.working inst with
    | some c =>
      let r := s.work c
      let d := r.2
      r.1.modCmd c.id fun _ => if d.ended.isSome then d else { d with owned := d.keeps }
    | none => s

/-- COPY (R269). -/
def execCopy (inst : Nat) (s : State) : Host.Outcome State Fault Refusal := workWord .cgs 0 inst s
/-- GATHER (R269). -/
def execGather (inst : Nat) (s : State) : Host.Outcome State Fault Refusal := workWord .cgs 1 inst s
/-- SCATTER (R269). -/
def execScatter (inst : Nat) (s : State) : Host.Outcome State Fault Refusal := workWord .cgs 2 inst s
/-- FILL (R269). -/
def execFill (inst : Nat) (s : State) : Host.Outcome State Fault Refusal := workWord .cgs 3 inst s
/-- STREAM (R269, R276). -/
def execStream (inst : Nat) (s : State) : Host.Outcome State Fault Refusal := workWord .cgs 4 inst s
/-- LOOKUP (R271). -/
def execLookup (inst : Nat) (s : State) : Host.Outcome State Fault Refusal := workWord .vox 0 inst s
/-- INSERT (R271). -/
def execInsert (inst : Nat) (s : State) : Host.Outcome State Fault Refusal := workWord .vox 1 inst s
/-- SORT (R273). -/
def execSort (inst : Nat) (s : State) : Host.Outcome State Fault Refusal := workWord .sort 0 inst s
/-- MERGE (R273). -/
def execMerge (inst : Nat) (s : State) : Host.Outcome State Fault Refusal := workWord .sort 1 inst s
/-- HASH (R274). -/
def execHash (inst : Nat) (s : State) : Host.Outcome State Fault Refusal := workWord .sec 0 inst s
/-- SIGN (R274). -/
def execSign (inst : Nat) (s : State) : Host.Outcome State Fault Refusal := workWord .sec 1 inst s

end Machine
end Sys2Proof
end

