-- ==== Sys2Proof/Machine/Contexts.lean ====
section
/-!
DEFINITION. Contexts (R205 to R220), the context forms (R221 to R228) and the events of the mint, of settling and of voiding.
-/

namespace Sys2Proof
namespace Machine

/-! ## Queries -/

/-- Live tags of a partition (R209). -/
def State.liveTags (s : State) (part : Nat) : Nat :=
  (s.ctxs.filter fun p => p.2.part == part && p.2.state != .retired).length

/-- Free tags of the partition's share (Table 9-5). -/
def State.freeShare (s : State) (part : Nat) : Nat := (s.partRegs part).pmint - s.liveTags part

/-- The lowest free tag (R209). -/
def State.lowestTag (s : State) : Option Nat :=
  (upFrom 1 (s.ctxs.length + 1)).find? fun t => (s.ctx t).state == .retired && decide (t < 65536)

/-- The generation that a tag is handed out with next (R206). -/
def nextGen (g : Nat) : Nat := if g = 65535 then 1 else g + 1

/-- The context of a block's own, or 0. -/
def State.blockCtx (s : State) (b : Nat) : Nat := (s.block b).ctx

/-- A context has a child in some states. -/
def State.hasChild (s : State) (tag : Nat) (p : CtxState → Bool) : Bool :=
  s.ctxs.any fun q => q.1 != tag && q.2.parent == tag && p q.2.state

/-- OPEN descendants of a context, with the context. -/
def State.openBelow (s : State) (tag : Nat) : List Nat :=
  (s.ctxs.filter fun q => q.2.state == .opened && s.within q.1 tag).map Prod.fst

/-- The subtree of a context is exposed (R219). -/
def State.subtreeExposed (s : State) (tag : Nat) : Bool := (s.openBelow tag).any fun t => (s.ctx t).exposed

/-! ## Opening -/

/-- A context comes to be (R206, R207, R222). -/
def State.openCtx (s : State) (tag parent : Nat) (sc : Scope) (owner tenant part : Nat) (isBlock : Bool) : State :=
  s.modCtx tag fun c => {
    gen := nextGen c.gen, parent := parent, depth := s.ctxDepth parent + 1, scope := sc, owner := owner, tenant := tenant,
    part := part, state := .opened, exposed := false, held := [], settled := false, isBlock := isBlock, waitStores := 0,
    merging := false }

/-- The handle of a tag. -/
def State.handleOf (s : State) (tag : Nat) : Nat := (s.ctx tag).gen * 65536 + tag

/-- The mint serves a CTXOPEN with a tag (R222): the context, the handles, and the tag as current where `.set` asks for it. A
checked block's leader keeps the handles for its follower, in the place of the word (R228). `origin` is the number of the word. -/
def State.serveOpen (s : State) (tag b core : Nat) (lanes : List Nat) (parent : Nat) (sc : Scope) (set : Bool) (pd : Option Nat)
    (d : Reg) (origin : Nat) : State :=
  let s1 := s.openCtx tag parent sc b (s.recOf b).tenant (s.partOf b) false
  let x : Word := BitVec.ofNat 32 (s1.handleOf tag)
  let s2 := s1.results b core origin false (lanes.map fun t => (t, w32 d x ++ match pd with
    | some k => [.pred k true]
    | none => []))
  let s3 := if set then lanes.foldl (fun s t => s.enterCtx t tag) s2 else s2
  if s.paired b then lanes.foldl (fun s t => s.fillPlace b (slotOf t) origin x.toNat) s3 else s3

/-- The head of a partition's mint queue can be served (R209). -/
def State.mintReady (s : State) (part : Nat) : Bool :=
  !(s.mintQ.findD part []).isEmpty && decide (s.liveTags part < (s.partRegs part).pmint) && s.lowestTag.isSome

/-- The head of a partition's mint queue is served with the lowest free tag. A request of the dispatcher gives its block the
tag; the dispatcher places it then. -/
def State.mintServe (s : State) (part : Nat) : State :=
  match s.mintQ.findD part [], s.lowestTag with
  | r :: rest, some tag =>
    let s1 := { s with mintQ := s.mintQ.store [] part rest }
    match r with
    | .open_ _ lanes parent sc set pd d origin =>
      match lanes.filter fun t => (s.thread t).occupied with
      | [] => s1
      | t :: ts => s1.serveOpen tag (s.thread t).block (coreOf t) (t :: ts) parent sc set pd d origin
    | .block launch index =>
      let L := s.launch launch
      let sc := match L.lrec.levels.getLast? with
        | some l => l.scope
        | none => .dev
      let b := s1.nextId
      let s2 := s1.fresh.openCtx tag 0 sc b L.lrec.tenant L.part true
      { s2 with blocks := s2.blocks.put b { Block.init with
          launch := launch, index := index, ctx := tag, residence := .waiting, waitingSince := s.now } }
  | _, _ => s

/-- Serves requests while the partition can, at most `n` (R209: a CTXOPEN with .try never overtakes). -/
def State.mintAll (s : State) (part : Nat) : Nat → State
  | 0 => s
  | n + 1 => if s.mintReady part then (s.mintServe part).mintAll part n else s

/-- The causes of CTXOPEN, and the lanes without one (R222). -/
def State.openCauses (s : State) (act : List Nat) : List LaneCause :=
  match act with
  | [] => []
  | l :: _ =>
    let c := (s.thread l).ctx
    if !s.threadOpen (s.thread l) ∨ 15 ≤ s.ctxDepth c then allRaise act cCtxBad
    else allRaise (act.filter fun t => (s.thread t).ctx != c || !s.ownCtx (s.thread t)) cCtxBad

/-- A CTXOPEN of a checked block's leader keeps the places of its handles (R328). -/
def State.keepOpen (s : State) (E : Env) (lanes : List Nat) (origin : Nat) : State :=
  if s.paired E.G.block then lanes.foldl (fun st t => st.keepPlace E.G.block (slotOf t) E.G.pc origin) s else s

/-- CTXOPEN (R222). A follower waits for its leader's handles (R228). -/
def execCtxopen (h : Hdr) (sc : Scope) (set : Bool) (try_ : Option (Fin 8)) (d : Reg) (s : State) :
    Host.Outcome State Fault Refusal :=
  issue (.ctxopen h sc set try_ d) h s fun E s1 =>
    let b := E.G.block
    let cs := s1.openCauses E.act
    let ok := E.act.filter fun t => !cs.any fun c => c.thread == t
    let c := match E.act with
      | l :: _ => (s1.thread l).ctx
      | [] => 0
    let pd := try_.map Fin.val
    let put (st : State) (x : Nat → Nat) : State :=
      let s2 := st.writeTracked E 0 false (ok.map fun t => (t, w32 d (BitVec.ofNat 32 (x t)) ++ match pd with
        | some k => [.pred k (x t != 0)]
        | none => []))
      if set then ok.foldl (fun s t => if x t = 0 then s else s.enterCtx t (x t % 65536)) s2 else s2
    if ok.isEmpty then E.finish s1 cs E.fall
    else if s1.isFollower b E.G.core then
      if ok.all fun t => (s1.leaderValue b (slotOf t)).isSome then
        let x (t : Nat) : Nat := (s1.leaderValue b (slotOf t)).getD 0
        E.finish (put (ok.foldl (fun s t => s.takeValue b (slotOf t)) s1) x) cs E.fall
      else s1
    else if pd.isSome then
      let part := s1.partOf b
      let s2 := s1.mintAll part (s1.mintQ.findD part []).length
      let s3 := if s2.paired b then ok.foldl (fun s t => s.keepValue b (slotOf t) E.G.pc 0) s2 else s2
      match s2.lowestTag with
      | some tag =>
        if s2.liveTags part < (s2.partRegs part).pmint then
          E.finish ((s2.keepOpen E ok s2.nextId).serveOpen tag b E.G.core ok c sc set pd d s2.nextId) cs E.fall
        else E.finish (put s3 fun _ => 0) cs E.fall
      | none => E.finish (put s3 fun _ => 0) cs E.fall
    else
      let part := s1.partOf b
      let r : MintReq := .open_ E.g ok c sc set pd d s1.nextId
      E.finish ({ s1.fresh with mintQ := s1.mintQ.put part (s1.mintQ.findD part [] ++ [r]) }.keepOpen E ok s1.nextId) cs E.fall

/-- MINT_GRANT (R209). -/
def execMintGrant (part : Nat) (s : State) : Host.Outcome State Fault Refusal :=
  event s (s.mintReady part) fun s => s.mintServe part

/-! ## CTXSET, CTXSETTLE and CTXVOID -/

/-- A handle may become current (R223). -/
def State.settable (s : State) (b h : Nat) : Bool :=
  let tag := h % 65536
  let own := s.blockCtx b
  s.current h && s.ctxOpen tag && (tag == 0 || (s.ctx tag).owner == b) && (own == 0 || (tag != 0 && s.within tag own))

/-- CTXSET (R223): a follower takes its leader's outcome (R228). -/
def execCtxset (h : Hdr) (a : Reg) (s : State) : Host.Outcome State Fault Refusal :=
  issue (.ctxset h a) h s fun E s1 =>
    let b := E.G.block
    let hd (t : Nat) : Nat := ((E.lv s1 t).r32 a).toNat
    let set (st : State) (ts : List Nat) : State := ts.foldl (fun s t => s.enterCtx t (hd t % 65536)) st
    let end_ (st : State) (ok : Nat → Bool) : State :=
      E.finish (set st (E.act.filter ok)) (allRaise (E.act.filter fun t => !ok t) cCtxBad) E.fall
    if s1.isFollower b E.G.core then
      if E.act.all fun t => (s1.leaderValue b (slotOf t)).isSome then
        end_ (E.act.foldl (fun s t => s.takeValue b (slotOf t)) s1) fun t => (s1.leaderValue b (slotOf t)).getD 0 == 1
      else s1
    else
      let ok (t : Nat) : Bool := s1.settable b (hd t)
      end_ (if s1.paired b then E.act.foldl (fun s t => s.keepValue b (slotOf t) E.G.pc (bitNat (ok t))) s1 else s1) ok

/-- The model's own item that says that a lane of a follower has come to a word at which the leader waits for it. -/
def kindArrive : Nat := 12

/-- Lanes of the two sides of a checked block come together at a word that retires contexts (R228): the leader acts when the
follower's lanes are there, and the follower takes what the leader did. -/
def State.gatherSides (s : State) (b core : Nat) (ts : List Nat) : Meet :=
  let here (i : Item) (t : Nat) : Bool := i.kind == kindArrive && i.slot == slotOf t
  if !s.paired b then .alone
  else if s.isFollower b core then
    if ts.all fun t => (s.leaderValue b (slotOf t)).isSome then
      .take (ts.map fun t => (s.leaderValue b (slotOf t)).getD 0) (ts.foldl (fun s t => s.takeValue b (slotOf t)) s)
    else .wait (ts.foldl (fun s t =>
      if (s.block b).items.any fun i => here i t then s
      else s.modBlock b fun B => { B with items := B.items ++ [⟨1, slotOf t, 0, kindArrive, 0, 0, 0, 0, 0, 0, [], s.now⟩] }) s)
  else if ts.all fun t => (s.block b).items.any fun i => here i t then
    .act (ts.foldl (fun s t => s.modBlock b fun B => { B with items := dropFirst (fun i => here i t) B.items }) s)
  else .wait s

/-- The handle may be retired by a word of the block (R224). -/
def State.retirable (s : State) (b h : Nat) (settle : Bool) : Bool :=
  let tag := h % 65536
  h != 0 && s.current h && (s.ctx tag).state == .opened && (s.ctx tag).owner == b && !(s.ctx tag).isBlock &&
    !(settle && s.hasChild tag fun x => x == .opened)

/-- A context begins to settle (R215): it waits for the stores issued before. An exposed one makes its parent exposed (R219). -/
def State.beginSettle (s : State) (tag : Nat) : State :=
  let s1 := s.modCtx tag fun c => { c with state := .settling, waitStores := s.nextId, merging := false }
  if (s.ctx tag).exposed then s1.expose (s.ctx tag).parent else s1

/-- A context and its OPEN descendants begin to void (R216): their engine work is cancelled. -/
def State.beginVoid (s : State) (tag : Nat) : State :=
  let ts := s.openBelow tag
  let s1 := ts.foldl (fun s t => s.modCtx t fun c => { c with state := .voiding, held := [] }) s
  s1.cancelCmds fun c => ts.contains c.ctx

/-- Starts the retirement of a handle's context: threads of the lanes that are in it go to its parent. -/
def State.startRetire (s : State) (h : Nat) (lanes : List Nat) (settle : Bool) : State :=
  let tag := h % 65536
  let inside := lanes.filter fun t => s.within (s.thread t).ctx tag && (s.thread t).ctx != 0 && s.ownCtx (s.thread t)
  let s1 := inside.foldl (fun st t => st.enterCtx t (s.ctx tag).parent) s
  if settle then s1.beginSettle tag else s1.beginVoid tag

/-- CTXSETTLE and CTXVOID (R224): distinct handles in the order of their lowest lanes. A CTXSETTLE begins a release, which comes after the
earlier loads of its threads (R230, R231). -/
def retireWord (i : Instr) (h : Hdr) (a : Reg) (settle : Bool) (s : State) : Host.Outcome State Fault Refusal :=
  issue i h s fun E s1 =>
    let b := E.G.block
    let hd (t : Nat) : Nat := ((E.lv s1 t).r32 a).toNat
    let hs := distinct hd E.act
    let naming (x : Nat) : List Nat := E.act.filter fun t => hd t == x
    let hold (st : State) (xs : List Nat) : Env := { E with G := { E.G with
      memHold := E.G.memHold ++ xs.map fun x => .retire (x % 65536) (st.ctx (x % 65536)).gen } }
    let act (st : State) : List Nat × State := hs.foldl (fun (r : List Nat × State) x =>
      if r.2.retirable b x settle then (r.1 ++ [x], r.2.startRetire x (naming x) settle) else r) ([], st)
    let causes (good : List Nat) : List LaneCause := allRaise (E.act.filter fun t => !good.contains (hd t)) cCtxBad
    if settle && !s1.loadsDone E.act then s1
    else match s1.gatherSides b E.G.core E.act with
    | .alone => let r := act s1; (hold r.2 r.1).finish r.2 (causes r.1) E.fall
    | .wait st => st
    | .act st =>
      let r := act st
      let s2 := E.act.foldl (fun s t => s.keepValue b (slotOf t) E.G.pc (bitNat (r.1.contains (hd t)))) r.2
      (hold s2 r.1).finish s2 (causes r.1) E.fall
    | .take vals st =>
      let good := ((E.act.zip vals).filter fun p => p.2 == 1).map Prod.fst
      let s2 := good.foldl (fun s t =>
        let tag := hd t % 65536
        if s.within (s.thread t).ctx tag && s.ownCtx (s.thread t) then s.enterCtx t (s.ctx tag).parent else s) st
      (hold s2 (distinct hd good)).finish s2 (allRaise (E.act.filter fun t => !good.contains t) cCtxBad) E.fall

/-- CTXSETTLE (R224, R215). -/
def execCtxsettle (h : Hdr) (a : Reg) (s : State) : Host.Outcome State Fault Refusal :=
  retireWord (.ctxsettle h a) h a true s
/-- CTXVOID (R224, R216). -/
def execCtxvoid (h : Hdr) (a : Reg) (s : State) : Host.Outcome State Fault Refusal :=
  retireWord (.ctxvoid h a) h a false s

/-! ## CTXQ, LDCX and CTXWAIT -/

/-- Code of a context state (Table 9-5). -/
def CtxState.code : CtxState → Nat
  | .retired => 0
  | .opened => 1
  | .settling => 2
  | .voiding => 3

/-- The value of CTXQ (Table 9-5). -/
def State.ctxqValue (s : State) (b h : Nat) : DWord :=
  let hi := min (s.freeShare (s.partOf b)) 65535 * 2 ^ 48
  let tag := h % 65536
  let c := s.ctx tag
  if h = 0 then BitVec.ofNat 64 (hi + 1)
  else if !s.current h ∨ !s.sameOwner b tag then BitVec.ofNat 64 hi
  else
    let cells := (s.cells.filter fun p => p.1 % 65536 == tag).length
    BitVec.ofNat 64 (hi + min cells (2 ^ 24 - 1) * 2 ^ 24 + c.parent * 2 ^ 8 + c.depth * 2 ^ 4 + bitNat c.exposed * 2 ^ 3 +
      c.state.code)

/-- CTXQ (R225): a follower takes its leader's value (R328). -/
def execCtxq (h : Hdr) (d a : Reg) (s : State) : Host.Outcome State Fault Refusal :=
  issue (.ctxq h d a) h s fun E s1 =>
    s1.shared true 0 (fun v => (none, v.s.ctxqValue E.G.block (v.r32 a).toNat)) (w64 d) E

/-- The number of the next LDCX of a slot on a side of a checked block. -/
def ldcxKey (side slot : Nat) : Nat := 2048 + 1024 * side + slot

/-- LDCX (R226): its context must be OPEN at issue, and the word completes if it changes later (R207, R228). On a checked block its lanes
are numbered, so that the follower can take the leader's values (R228). -/
def execLdcx (h : Hdr) (size : Size) (sg : Bool) (d a b c : Reg) (s : State) : Host.Outcome State Fault Refusal :=
  issue (.ldcx h size sg d a b c) h s fun E s1 =>
    let blk := E.G.block
    let side := s1.sideOf blk E.G.core
    let ls := E.act.map fun t =>
      let v := E.lv s1 t
      { E.src s1 t (v.r64 a).toNat (v.r32 b).toNat (v.r32 c).toNat ((s1.block blk).itemNo.findD (ldcxKey side (slotOf t)) 0) with
        bad := s1.ldcxBad blk (v.r32 c).toNat }
    if s1.lineConflict E.i ls then s1
    else
      let s2 := if s1.paired blk then s1.modBlock blk fun B =>
          { B with itemNo := ls.foldl (fun m l => m.put (ldcxKey side (slotOf l.thread)) (l.d + 1)) B.itemNo }
        else s1
      E.finish (if ls.isEmpty then s2 else s2.logEntry E ls) [] E.fall

/-- A handle that CTXWAIT refuses (R227). -/
def State.waitBad (s : State) (b h : Nat) : Bool :=
  h != 0 && (h % 65536 == 0 || h / 65536 == 0 || (s.current h && !s.sameOwner b (h % 65536)))

/-- The status of CTXWAIT, once there is one (Table 9-6). -/
def State.waitStatus (s : State) (h : Nat) : Option Nat :=
  if h = 0 then some 0
  else if !s.current h then some 2
  else if (s.ctx (h % 65536)).state = .retired then some (if (s.ctx (h % 65536)).settled then 0 else 1)
  else none

/-- CTXWAIT (R227). -/
def execCtxwait (h : Hdr) (sc : Scope) (d a : Reg) (s : State) : Host.Outcome State Fault Refusal :=
  issue (.ctxwait h sc d a) h s fun E s1 =>
    let hd (t : Nat) : Nat := ((E.lv s1 t).r32 a).toNat
    let bad := E.act.filter fun t => s1.waitBad E.G.block (hd t)
    let ok := E.act.filter fun t => !s1.waitBad E.G.block (hd t)
    if ok.isEmpty then E.finish s1 (allRaise bad cCtxBad) E.fall
    else E.await s1 (allRaise bad cCtxBad) (.ctxwait sc d (ok.map fun t => E.src s1 t (hd t) 0 0 0))

/-- The statuses that a group at CTXWAIT would receive: a follower takes its leader's. -/
def State.ctxwaitVals (s : State) (G : Group) (ls : List LaneSrc) : Option (List Nat) :=
  let one (l : LaneSrc) : Option Nat :=
    if s.isFollower G.block G.core then s.leaderValue G.block (slotOf l.thread) else s.waitStatus l.a
  if (ls.all fun l => (one l).isSome) && s.loadsDone (ls.map LaneSrc.thread) then some (ls.map fun l => (one l).getD 0) else none

/-- The group at CTXWAIT and its statuses, once all are there. -/
def State.ctxwaitReady (s : State) (g : Nat) : Option (Group × Scope × Reg × List LaneSrc × List Nat) :=
  match s.groups.find g with
  | some G => match G.wait with
    | some (.ctxwait sc d ls) => (s.ctxwaitVals G ls).map fun vs => (G, sc, d, ls, vs)
    | _ => none
  | none => none

/-- CTXWAIT_RETURN (R227): the acquire and the statuses. -/
def execCtxwaitReturn (group : Nat) (s : State) : Host.Outcome State Fault Refusal :=
  event s (s.ctxwaitReady group).isSome fun s =>
    match s.ctxwaitReady group with
    | none => s
    | some (G, sc, d, ls, vs) =>
      let outs := (ls.zip vs).map fun p => (p.1.thread, w32 d (BitVec.ofNat 32 p.2))
      let s1 := (s.acquireGroup G sc).results G.block G.core s.nextId false outs
      let s2 :=
        if s.isFollower G.block G.core then ls.foldl (fun s l => s.takeValue G.block (slotOf l.thread)) s1
        else if s.paired G.block then
          (ls.zip vs).foldl (fun s p => s.keepValue G.block (slotOf p.1.thread) G.pc p.2) s1
        else s1
      s2.resume group (G.pc + 8)

/-! ## Held work, settling and voiding (R215 to R218) -/

/-- A held RED applied to memory (R244). -/
def State.applyRed (s : State) (op : AtomOp) (n pa b tenant : Nat) : State :=
  let old := leNat (s.bytes pa n)
  let s1 := s.setBytes pa (leBytes (atomNew op (8 * n) old b) n)
  (s1.addDrain tenant 1).l1Drop fun l => l.pline == pa / 64 && l.tag == 0

/-- The first held item takes effect at a settle into the base context (R215, R217): what is left of the list, or none when the
item cannot take effect yet. An engine command takes effect with its acceptance; `entry` marks one that is in its queue. -/
def State.applyHeld (s : State) (w : Held) : Option (Option Held × State) :=
  match w with
  | .launch ws q part tenant world tier =>
    if s.sqUsable q part && !s.sqFull q then some (none, s.ringAppend q ws tenant world tier) else none
  | .evsig n v => some (none, s.addCounter n v)
  | .red op n e v _ tenant _ _ => some (none, s.applyRed op n e v tenant)
  | .eng c =>
    if c.entry = 0 then
      let c1 := { c with id := s.nextId, ctx := 0, entry := 1, heldDm1 := true }
      (s.fresh.enqueueCmd c1).map fun s1 => (some (.eng c1), s1)
    else if s.engines.any fun q => q.2.any fun x => x.id == c.id && !x.accepted && x.ended.isNone then none
    else some (none, s)

/-- Held items take effect in order as far as they can; the number bounds them. -/
def State.applyAll (s : State) (tag : Nat) : Nat → State
  | 0 => s
  | n + 1 =>
    match (s.ctx tag).held with
    | [] => s
    | w :: r =>
      match s.applyHeld w with
      | none => s
      | some (some w', s1) => s1.modCtx tag fun c => { c with held := w' :: r }
      | some (none, s1) => (s1.modCtx tag fun c => { c with held := r }).applyAll tag n

/-- A context retires (R210): its L1 lines go on every core, and its outcome stays. -/
def State.retireCtx (s : State) (tag : Nat) (settled : Bool) : State :=
  (s.modCtx tag fun c => { c with state := .retired, settled := settled, held := [] }).l1Drop fun l => l.tag == tag

/-- Masked bytes of a cell, as (offset, byte). -/
def maskedBytes (c : Cell) : List (Nat × Byte) :=
  ((upFrom 0 64).filter fun i => bitOf c.mask.toNat i).map fun i => (i, BitVec.ofNat 8 (byteOf c.data.toNat i))

/-- One line's merge into the parent's view (R215): one write of the masked bytes. -/
def State.mergeCell (s : State) (parent pline : Nat) (c : Cell) : State :=
  let ms := maskedBytes c
  if parent = 0 then ms.foldl (fun s m => s.setByte (64 * pline + m.1) m.2) s
  else
    let old := s.cells.findD (cellKey pline parent) ⟨s.viewLine parent pline, 0⟩
    let new : Cell := ⟨ms.foldl (fun l m => patchLine l m.1 [m.2]) old.data, old.mask ||| c.mask⟩
    { s with cells := s.cells.put (cellKey pline parent) new }

/-- A settling context merges one cell, whose own room is freed before the parent's cell is made; L1 lines of the issuing core under the
parent's tag go (R215). -/
def State.mergeOne (s : State) (tag key : Nat) (cell : Cell) : State :=
  let c := s.ctx tag
  let pline := key / 65536
  let s1 := ({ s with cells := s.cells.del key }).mergeCell c.parent pline cell
  let s2 := s1.l1Drop fun l => (s.coresOf c.owner).contains l.core && l.tag == c.parent && l.pline == pline
  if c.parent = 0 then s2.addDrain c.tenant 1 else s2

/-- The cells of a context. -/
def State.cellsOf (s : State) (tag : Nat) : List (Nat × Cell) := s.cells.filter fun p => p.1 % 65536 == tag

/-- The cell that a settling context merges next: the merges of different lines have no order among them (R242, log 52). -/
def State.mergeNext (s : State) (tag : Nat) : Option (Nat × Cell) :=
  match s.cellsOf tag with
  | [] => none
  | [p] => some p
  | mine => mine[Config.mergeOrder s.freeCtr tag % mine.length]?

/-- When every cell is merged, a context passes its held work and its exposure to a parent that is not the base (R215, R217, R219). -/
def State.passOn (s : State) (tag : Nat) : State :=
  let c := s.ctx tag
  if c.parent ≠ 0 then
    s.modCtx c.parent fun p => { p with held := p.held ++ c.held, exposed := p.exposed || c.exposed }
  else s

/-- No access issued earlier is still to be performed in a context, LDCX that name it among them (R207, R228). -/
def State.ctxQuiet (s : State) (tag : Nat) : Bool :=
  s.opLog.all fun p => p.2.dormant || p.2.lanes.all fun l => l.bad || (match p.2.instr with
    | .ldcx .. => l.c != (s.ctx tag).gen * 65536 + tag
    | _ => !(l.ctx == tag && l.gen == (s.ctx tag).gen))

/-- Engine commands of a context are over (R215, R216). -/
def State.ctxEnginesDone (s : State) (tag : Nat) : Bool :=
  s.engines.all fun p => p.2.all fun c => c.ctx != tag || c.heldDm1 || c.ended.isSome

/-- The release of a settle is made (R215, R237): the owner's earlier stores are acknowledged, at .sys they have reached the host coherence
point, engine writes into the context are complete, the accesses issued in it are over, and no descendant is left. Then its merges go
on. -/
def State.settleReady (s : State) (tag : Nat) : Bool :=
  let c := s.ctx tag
  c.merging || (s.storesBefore c.owner c.waitStores && (c.scope != .sys || s.drain.findD c.tenant 0 == 0) &&
    s.ctxEnginesDone tag && s.ctxQuiet tag && !s.hasChild tag fun x => x != .retired)

/-- The held work of a context whose merges are made, as far as it goes; then the context retires (R210). -/
def State.settleRest (s : State) (tag : Nat) : State :=
  let s1 := if (s.ctx tag).parent ≠ 0 then s.modCtx tag fun c => { c with held := [] }
    else s.applyAll tag ((s.ctx tag).held.length + 1)
  if (s1.ctx tag).held.isEmpty then s1.retireCtx tag true else s1

/-- A settling context can go on: its merges, or its first held item. -/
def State.settleGoes (s : State) (tag : Nat) : Bool :=
  let c := s.ctx tag
  c.state == .settling && (if c.settled then (match c.held with
      | [] => true
      | w :: _ => (s.applyHeld w).isSome) else s.settleReady tag)

/-- Settles a context as far as one step goes: one cell after another is merged, and with the last the held work begins. -/
def State.settleStep (s : State) (tag : Nat) : State :=
  if (s.ctx tag).settled then s.settleRest tag
  else
    let s1 := match s.mergeNext tag with
      | some (key, cell) => s.mergeOne tag key cell
      | none => s
    if (s.cellsOf tag).length ≤ 1 then ((s1.passOn tag).modCtx tag fun c => { c with settled := true }).settleRest tag
    else s1.modCtx tag fun c => { c with merging := true }

/-- CONTEXT_SETTLE (R215). Block contexts of DM1 are the clearing unit's (R243). -/
def execContextSettle (tag : Nat) (s : State) : Host.Outcome State Fault Refusal :=
  event s (s.settleGoes tag && !((s.ctx tag).isBlock && (s.recOf (s.ctx tag).owner).dm == 1)) fun s => s.settleStep tag

/-- A voiding context can retire (R216): its descendants have, and its engine work has stopped. -/
def State.voidGoes (s : State) (tag : Nat) : Bool :=
  (s.ctx tag).state == .voiding && !(s.hasChild tag fun x => x != .retired) && s.ctxEnginesDone tag

/-- The cells of a context are discarded. -/
def State.dropCells (s : State) (tag : Nat) : State := { s with cells := s.cells.filter fun p => p.1 % 65536 != tag }

/-- CONTEXT_VOID (R216). -/
def execContextVoid (tag : Nat) (s : State) : Host.Outcome State Fault Refusal :=
  event s (s.voidGoes tag) fun s => (s.dropCells tag).retireCtx tag false

/-- The hardware voids a block context to run the block again (R209, R220): its descendants and its cells go at once, its engine
work is cancelled, and the tag passes to the block's new context with the next generation. -/
def State.reopenBlockCtx (s : State) (b : Nat) : State :=
  let tag := s.blockCtx b
  if tag = 0 then s
  else
    let below := (s.ctxs.filter fun q => q.2.state != .retired && s.within q.1 tag).map Prod.fst
    let s1 := s.cancelCmds fun c => below.contains c.ctx
    let s2 := below.foldl (fun s t => (s.dropCells t).retireCtx t false) s1
    let c := s.ctx tag
    s2.openCtx tag 0 c.scope b c.tenant c.part true

end Machine
end Sys2Proof
end

