-- ==== Sys2Proof/Machine/Control.lean ====
section
/-!
DEFINITION. Class 2: the control forms (R116 to R132), and the events of the sequencers that they lead to: the end of a
join, of GPIN and of a YIELD, the aging of bins and slot waits, and the invalidation of IPREF.inv.
-/

namespace Sys2Proof
namespace Machine

/-- The active lanes of a word that do not meet one of some causes. -/
def passing (act : List Nat) (cs : List LaneCause) : List Nat := act.filter fun t => !cs.any fun c => c.thread == t

/-- Every lane of the group falls through, but the lanes of a list go to their targets. -/
def Env.movesTo (E : Env) (targets : List (Nat × Nat)) : List (Nat × Nat) :=
  E.G.lanes.map fun t => (t, match targets.find? fun m => m.1 == t with
    | some m => m.2
    | none => E.G.pc + 8)

/-- BRA (R117). -/
def execBra (h : Hdr) (off : Fin 262144) (s : State) : Host.Outcome State Fault Refusal :=
  issue (.bra h off) h s fun E s1 =>
    match directTarget E.G.pc off with
    | .error x => E.branch s1 (E.act.map fun t => ⟨t, cXlate, x, 0⟩) E.fall
    | .ok x => E.branch s1 [] (E.movesTo (E.act.map fun t => (t, x)))

/-- The lowest 12-bit record number that no live record of a thread quarter uses (R115). -/
def State.freeRecord (s : State) (seq : Nat) : Nat :=
  let used := (s.threads.filter fun p => seqOf p.1 == seq && p.2.occupied).flatMap fun p => p.2.joinStack.map JoinRec.recno
  ((upFrom 0 4096).find? fun n => !used.contains n).getD 0

/-- BRD: one record for the active lanes (R118); when some lane's join stack is full, no lane is pushed (R113). -/
def execBrd (h : Hdr) (off : Fin 262144) (s : State) : Host.Outcome State Fault Refusal :=
  issue (.brd h off) h s fun E s1 =>
    match directTarget E.G.pc off with
    | .error x => E.finish s1 (E.act.map fun t => ⟨t, cXlate, x, 0⟩) E.fall
    | .ok j =>
      let deep := E.act.filter fun t => decide (12 ≤ (s1.thread t).joinStack.length)
      if deep.isEmpty then
        let r : JoinRec := ⟨s1.freeRecord E.G.seq, j⟩
        E.finish (s1.modThreads E.act fun T => { T with joinStack := T.joinStack ++ [r] }) [] E.fall
      else E.finish s1 (allRaise deep cCallDepth) E.fall

/-- BRX (R119). -/
def execBrx (h : Hdr) (a : Reg) (s : State) : Host.Outcome State Fault Refusal :=
  issue (.brx h a) h s fun E s1 =>
    match s1.indirects true (E.act.map fun t => (t, ((E.lv s1 t).r64 a).toNat)) with
    | (cs, ok, s2) => E.branch s2 cs (E.movesTo ok)

/-- The link of a call: a push on the return stack, or a write of the link pair (R119). -/
def State.link (s : State) (E : Env) (sel : Sel) (ts : List Nat) : State :=
  match sel with
  | .stack => s.modThreads ts fun T => { T with retStack := T.retStack ++ [E.G.pc + 8] }
  | .link n => s.writeFixed E.clk 4 (ts.map fun t => (t, w64 (.v n) (BitVec.ofNat 64 (E.G.pc + 8))))

/-- The lanes of a call whose return stack is full (R114). -/
def State.fullStacks (s : State) (sel : Sel) (ts : List Nat) : List LaneCause :=
  match sel with
  | .stack => allRaise (ts.filter fun t => decide (8 ≤ (s.thread t).retStack.length)) cCallDepth
  | .link _ => []

/-- CALL (R120). -/
def execCall (h : Hdr) (sel : Sel) (off : Fin 262144) (s : State) : Host.Outcome State Fault Refusal :=
  issue (.call h sel off) h s fun E s1 =>
    match directTarget E.G.pc off with
    | .error x => E.branch s1 (E.act.map fun t => ⟨t, cXlate, x, 0⟩) E.fall
    | .ok x =>
      let cs := s1.fullStacks sel E.act
      let ok := passing E.act cs
      E.branch (s1.link E sel ok) cs (E.movesTo (ok.map fun t => (t, x)))

/-- CALLX (R119). -/
def execCallx (h : Hdr) (sel : Sel) (a : Reg) (s : State) : Host.Outcome State Fault Refusal :=
  issue (.callx h sel a) h s fun E s1 =>
    match s1.indirects true (E.act.map fun t => (t, ((E.lv s1 t).r64 a).toNat)) with
    | (cs, ok, s2) =>
      let cs2 := s2.fullStacks sel (ok.map Prod.fst)
      let good := ok.filter fun m => !cs2.any fun c => c.thread == m.1
      E.branch (s2.link E sel (good.map Prod.fst)) (cs ++ cs2) (E.movesTo good)

/-- RET (R121). -/
def execRet (h : Hdr) (sel : Sel) (s : State) : Host.Outcome State Fault Refusal :=
  issue (.ret h sel) h s fun E s1 =>
    match sel with
    | .stack =>
      let cs := allRaise (E.act.filter fun t => (s1.thread t).retStack.isEmpty) cCallDepth
      let ok := passing E.act cs
      let s2 := s1.modThreads ok fun T => { T with retStack := T.retStack.dropLast }
      E.branch s2 cs (E.movesTo (ok.map fun t => (t, (s1.thread t).retStack.getLast?.getD 0)))
    | .link n =>
      match s1.indirects false (E.act.map fun t => (t, ((E.lv s1 t).r64 (.v n)).toNat)) with
      | (cs, ok, s2) => E.branch s2 cs (E.movesTo ok)

/-- LAND has no effect (R122). -/
def execLand (h : Hdr) (s : State) : Host.Outcome State Fault Refusal :=
  onceWord (.land h) h s fun _ s1 => s1

/-- REFORM (R123): the active lanes that pass become free and go to the former in lane order (R102); lanes that fail a check stay. The
others fall through, and where that divides the group they leave it as at a divergent branch (R100). -/
def execReform (h : Hdr) (sel : Sel) (s : State) : Host.Outcome State Fault Refusal :=
  issue (.reform h sel) h s fun E s1 =>
    let r : List LaneCause × List (Nat × Nat) × State := match sel with
      | .stack => ([], E.act.map fun t => (t, E.G.pc + 8), s1)
      | .link n => s1.indirects true (E.act.map fun t => (t, ((E.lv s1 t).r64 (.v n)).toNat))
    let ok := r.2.1
    let ts := ok.map Prod.fst
    let s2 := (r.2.2.modThreads ts fun T => { T with pinned := false, joinStack := [] }).postBranch E (E.movesTo ok)
    let rest := E.fall.filter fun m => !ts.contains m.1
    let G := { E.G with readyAt := max E.G.readyAt (E.clk + max E.h.stall.val 1) }
    let leave := rest.filter fun m => (ok.any fun x => x.2 != E.G.pc + 8) && !(s1.thread m.1).pinned &&
      !((E.causes ++ r.1).any fun c => c.thread == m.1)
    let s3 := E.finish s2 r.1 (rest.filter fun m => !leave.contains m) 0 (ts ++ leave.map Prod.fst)
    (leave ++ ok).foldl (fun s m => s.fileThread G m.2 m.1) s3

/-- GPIN (R124): the active lanes wait until their pinned group is whole but for exited threads; if it is, they go on at once. -/
def execGpin (h : Hdr) (s : State) : Host.Outcome State Fault Refusal :=
  issue (.gpin h) h s fun E s1 =>
    if E.act.isEmpty then E.finish s1 [] E.fall
    else
      let s2 := s1.modThreads E.act fun T => { T with joinStack := [] }
      let s3 := E.finish s2 [] (E.fall.filter fun m => !E.act.contains m.1) 0 E.act
      let g := s3.nextId
      let at_ := E.clk + max E.h.stall.val 1
      let s4 := (s3.spawn { E.G with readyAt := max E.G.readyAt at_ } E.act E.G.pc).beginWait g .gpin
      (distinct (fun t => (s4.thread t).pgrp) E.act).foldl (fun st p =>
        if st.gpinReady E.G.block E.G.core p then st.gpinRelease E.G.block E.G.core p else st) s4

/-- GFREE (R125): the active threads become free and stay together; under a guard that divides the group they leave it. -/
def execGfree (h : Hdr) (s : State) : Host.Outcome State Fault Refusal :=
  issue (.gfree h) h s fun E s1 =>
    let s2 := s1.modThreads E.act fun T => { T with pinned := false }
    let rest := E.G.lanes.filter fun t => !E.act.contains t
    if rest.isEmpty ∨ E.act.isEmpty then E.finish s2 [] E.fall
    else
      let s3 := E.finish s2 [] (E.fall.filter fun m => !E.act.contains m.1) 0 E.act
      s3.spawn { E.G with readyAt := E.clk + max E.h.stall.val 1 } E.act (E.G.pc + 8)

/-- A thread exits (R126, R139, R113): its quarters go OFF, its records and pending results go; its stores go on. -/
def Thread.exit (T : Thread) : Thread :=
  { T with
    disp := .exited, joinStack := [], regs := [], quarters := [.off, .off, .off, .off], wakes := [], fixed := [] }

/-- The pending loads of exited threads are dropped (R126), and no other access of theirs: a PUSH goes on. -/
def State.dropLoads (s : State) (ts : List Nat) : State :=
  let live (e : LogEntry) : LogEntry :=
    if writesMem e.instr || !returnsValue e.instr then e else { e with lanes := e.lanes.filter fun l => !ts.contains l.thread }
  { s with
    inflight := s.inflight.filterMap fun p =>
      let ws := p.2.writes.filter fun w => !ts.contains w.thread
      if ws.isEmpty && p.2.drops.isEmpty then none else some (p.1, { p.2 with writes := ws })
    opLog := s.opLog.filterMap fun p =>
      let e := live p.2
      if e.lanes.isEmpty then none else some (p.1, e) }

/-- A named barrier's default count: the block's threads on a core that have not exited (R252). -/
def State.barDefault (s : State) (b core : Nat) : Nat :=
  (s.threads.filter fun p => p.2.block == b && coreOf p.1 == core && p.2.occupied).length

/-- Completes the phase of a barrier (R252). -/
def State.barComplete (s : State) (b core k : Nat) : State :=
  let ts := (s.threads.filter fun p => p.2.block == b && coreOf p.1 == core).map Prod.fst
  let s1 := s.modThreads ts fun T => { T with barPending := T.barPending &&& ~~~ BitVec.ofNat 16 (2 ^ k) }
  s1.modBside b core fun S =>
    let B := S.barriers.findD k Barrier.init
    { S with barriers := S.barriers.store Barrier.init k { B with arrivals := 0, phase := B.phase + 1 } }

/-- The default count of a phase in progress is reckoned anew at each exit, so that an exit can complete it (R252). A
barrier whose phase began with the default has E = 0 here. -/
def State.barExit (s : State) (b core : Nat) : State :=
  (s.bside b core).barriers.foldl (fun st p =>
    if p.2.expected = 0 ∧ p.2.arrivals ≠ 0 ∧ st.barDefault b core ≤ p.2.arrivals then st.barComplete b core p.1 else st) s

/-- EXIT (R126). -/
def execExit (h : Hdr) (s : State) : Host.Outcome State Fault Refusal :=
  issue (.exit h) h s fun E s1 =>
    let s2 := E.finish s1 [] (E.fall.filter fun m => !E.act.contains m.1) 0 E.act
    .barExit ((s2.modThreads E.act Thread.exit).dropLoads E.act) E.G.block E.G.core

/-- The number of YIELD: above 255 acts as 255, negative or absent as 0 (R127). -/
def yieldCount (n : Option (Fin 262144)) : Nat :=
  match n with
  | none => 0
  | some c => min 255 (imm18 c).toNat

/-- The mark of a group that is passed over: in DM2 the number of its own turns to come, else one more than the issue
opportunity from which it may issue again. 0 is no mark. -/
def State.passMark (s : State) (G : Group) (n : Nat) : Nat :=
  if n = 0 then 0 else if (s.recOf G.block).dm = 2 then n else (s.seqr G.seq).opps + n + 2

/-- YIELD (R127): it ignores its guard. -/
def execYield (h : Hdr) (n : Option (Fin 262144)) (s : State) : Host.Outcome State Fault Refusal :=
  issue (.yield h n) h s fun E s1 =>
    let G := { E.G with yieldLeft := s1.passMark E.G (yieldCount n) }
    let s2 := { E with G := G }.finish s1 [] E.fall
    if yieldCount n = 0 then s2.modGroup E.g fun G => { G with since := E.clk } else s2

/-- BLOOP (R128). -/
def execBloop (h : Hdr) (a : Reg) (off : Fin 262144) (s : State) : Host.Outcome State Fault Refusal :=
  issue (.bloop h a off) h s fun E s1 =>
    let cnt (t : Nat) : Word := (E.lv s1 t).r32 a - 1
    let jump := E.act.filter fun t => cnt t ≠ 0
    let cs : List LaneCause := match directTarget E.G.pc off with
      | .error x => jump.map fun t => ⟨t, cXlate, x, 0⟩
      | .ok _ => []
    let tgt := match directTarget E.G.pc off with
      | .ok x => x
      | .error x => x
    let ok := passing E.act cs
    let s2 := s1.writeFixed E.clk 4 (ok.map fun t => (t, w32 a (cnt t)))
    E.branch s2 cs (E.movesTo ((ok.filter fun t => cnt t ≠ 0).map fun t => (t, tgt)))

/-- Requests lines for the shared instruction cache. -/
def State.prefetchLines (s : State) (ls : List Nat) : State := ls.foldl State.icacheAdd s

/-- The register range of IPREF in a lane (R129): start and end. -/
def LV.iprefRange (v : LV) (a b : Reg) : Nat × Nat :=
  let st := (v.r64 a).toNat
  (st, st + min (v.r32 b).toNat 65536)

/-- IPREF (R129): a hint; lines whose pages fail translation or PERM are skipped. -/
def execIpref (h : Hdr) (arg : Option (Fin 262144)) (a b : Reg) (s : State) : Host.Outcome State Fault Refusal :=
  onceWord (.ipref h arg a b) h s fun E s1 =>
    let R := s1.recOf E.G.block
    let ranges : List (Nat × Nat) := match arg with
      | some off => if E.act.isEmpty then [] else match directTarget E.G.pc off with
        | .ok x => [(x / 64 * 64, x / 64 * 64 + 256)]
        | .error _ => []
      | none => E.act.map fun t => (E.lv s1 t).iprefRange a b
    ranges.foldl (fun st r =>
      let p := st.rangeLines E.G.core R.tenant R.world false r.1 r.2 1025
      p.2.prefetchLines p.1) s1

/-- Lines of the shared instruction cache go. -/
def State.icacheDrop (s : State) (ranges : List (Nat × Nat)) : State :=
  { s with icache := s.icache.filter fun p => !ranges.any fun r => decide (r.1 ≤ p.1 ∧ p.1 < r.1 + r.2) }

/-- IPREF.inv (R130): after the release at .dev the invalidation starts, and the lanes that did the word wait for its end. -/
def execIprefInv (h : Hdr) (a b : Reg) (s : State) : Host.Outcome State Fault Refusal :=
  issue (.iprefInv h a b) h s fun E s1 =>
    if !s1.releasedFor E.G.block .dev E.G.lanes then s1
    else
      let R := s1.recOf E.G.block
      let r := (E.act.map fun t => (E.lv s1 t).iprefRange a b).foldl (fun (p : List (Nat × Nat) × State) x =>
        let q := p.2.rangeLines E.G.core R.tenant R.world true x.1 x.2 1025
        (p.1 ++ q.1.map (fun l => (l, 1)), q.2)) ([], s1)
      let s2 := r.2
      let s3 := if r.1.isEmpty then s2
        else { s2.fresh with iprefInv := s2.iprefInv.put s2.nextId (E.G.lanes.filter fun t => !(E.stopped []).contains t, r.1) }
      E.finish s3 [] E.fall

/-- NOPW (R131): it ignores its guard. -/
def execNopw (h : Hdr) (n : Option (Fin 262144)) (s : State) : Host.Outcome State Fault Refusal :=
  issue (.nopw h n) h s fun E s1 =>
    let k := match n with
      | none => 0
      | some c => (imm18 c).toNat
    if (s1.recOf E.G.block).dm = 2 then { E with G := { E.G with yieldLeft := k } }.finish s1 [] E.fall
    else E.finish s1 [] E.fall k

/-! ## Events of the sequencers -/

/-- JOIN_RELEASE (R112). -/
def execJoinRelease (seq recno : Nat) (s : State) : Host.Outcome State Fault Refusal :=
  event s (s.joinReady seq recno) fun s => s.joinRelease seq recno

/-- GPIN_RELEASE (R124), on the core or cores of the block. -/
def execGpinRelease (block pinned : Nat) (s : State) : Host.Outcome State Fault Refusal :=
  event s ((s.coresOf block).any fun c => s.gpinReady block c pinned) fun s =>
    (s.coresOf block).foldl (fun s c => if s.gpinReady block c pinned then s.gpinRelease block c pinned else s) s

/-- ICACHE_FILL (R108): the line that a sequencer waits for arrives. -/
def execIcacheFill (seq : Nat) (s : State) : Host.Outcome State Fault Refusal :=
  event s (s.seqr seq).frozen.isSome fun s =>
    (s.icacheAdd ((s.seqr seq).frozen.getD 0)).modSeqr seq fun Q => { Q with frozen := none }

/-- IPREF_INV_COMPLETE (R130). -/
def execIprefInvComplete (id : Nat) (s : State) : Host.Outcome State Fault Refusal :=
  event s (s.iprefInv.find id).isSome fun s =>
    match s.iprefInv.find id with
    | some (_, ranges) => { s.icacheDrop ranges with iprefInv := s.iprefInv.del id }
    | none => s

/-- Turns or opportunities that have passed for a waiting group or bin: in DM2 the block's turns (R105). -/
def State.waited (s : State) (seq block oppsAt : Nat) : Nat :=
  s.oppsNow seq block - oppsAt

/-- BIN_CANDIDATE_TIMEOUT (R103): the oldest thread of an open bin has waited 64 opportunities. -/
def State.binTimedOut (s : State) (seq bin : Nat) : Bool :=
  match s.bins.find (binKey seq bin) with
  | some B => !B.candidate && decide (Config.waitOpps ≤ s.waited seq B.block B.oppsAt)
  | none => false

/-- BIN_CANDIDATE_TIMEOUT (R103). -/
def execBinCandidateTimeout (seq bin : Nat) (s : State) : Host.Outcome State Fault Refusal :=
  event s (s.binTimedOut seq bin) fun s =>
    { s with bins := s.bins.adjust (binKey seq bin) fun B => { B with candidate := true } }

/-- A group needs a slot and has none. -/
def Group.slotless (G : Group) : Bool := G.slot.isNone && G.wait.isNone

/-- A group without a slot becomes a candidate (R101): it has waited 64 opportunities, fewer than 16 such groups of its
sequencer are candidates, and none that began to wait earlier is still to become one. -/
def State.slotTimedOut (s : State) (g : Nat) : Bool :=
  match s.groups.find g with
  | none => false
  | some G =>
    let mine := s.groups.filter fun p => p.2.seq == G.seq && p.2.slotless
    G.slotless && !G.candidate && decide (Config.waitOpps ≤ s.waited G.seq G.block G.oppsAt) &&
      decide ((mine.filter fun p => p.2.candidate).length < 16) &&
      mine.all fun p => p.2.candidate || decide (G.since < p.2.since) || (G.since == p.2.since && decide (g ≤ p.1))

/-- SLOT_WAIT_TIMEOUT (R101). -/
def execSlotWaitTimeout (group : Nat) (s : State) : Host.Outcome State Fault Refusal :=
  event s (s.slotTimedOut group) fun s => s.modGroup group fun G => { G with candidate := true }

/-- The group may issue again after YIELD (R127) or, in DM2, NOPW (R131). -/
def State.yieldOver (s : State) (G : Group) : Bool :=
  G.yieldLeft == 0 || ((s.recOf G.block).dm != 2 && decide (G.yieldLeft ≤ (s.seqr G.seq).opps + 1))

/-- YIELD_EXPIRY (R127). -/
def execYieldExpiry (group : Nat) (s : State) : Host.Outcome State Fault Refusal :=
  event s (match s.groups.find group with
      | some G => G.yieldLeft != 0 && s.yieldOver G
      | none => false) fun s => s.modGroup group fun G => { G with yieldLeft := 0 }

end Machine
end Sys2Proof
end

