-- ==== Sys2Proof/Machine/Ordering.lean ====
section
/-!
DEFINITION. Class 4: atomics, fences, barriers and waits (R247 to R258), the clearing unit of DM1 (R243), and their events.
-/

namespace Sys2Proof
namespace Machine

/-! ## Atomics -/

/-- Code of an order in an assay item. -/
def orderNum : Order → Nat
  | .rlx => 0
  | .acq => 1
  | .rel => 2
  | .ar => 3
  | .sc => 4
/-- Code of a scope in an assay item. -/
def scopeNum : Scope → Nat
  | .blk => 0
  | .cls => 1
  | .slc => 2
  | .dev => 3
  | .sys => 4

/-- The assay item of an atomic: address, operands, and the word's operation, order and scope (Table 13-5). -/
def atomItem (what n : Nat) (ord : Order) (sc : Scope) (l : LaneSrc) : Nat × Nat × Nat × Nat × Nat :=
  (2, l.a, l.b + l.c * 2 ^ 64, what * 64 + orderNum ord * 8 + scopeNum sc, n)

/-- A 32-bit or 64-bit operand of an atomic (R247). -/
def LV.operand (v : LV) (size : Size) (r : Reg) : Nat := if size = .b64 then (v.r64 r).toNat else (v.r32 r).toNat

/-- Number of an atomic operation (Table 10-5). -/
def atomNum : AtomOp → Nat
  | .add => 0
  | .and => 1
  | .or => 2
  | .xor => 3
  | .exch => 4
  | .smin => 5
  | .smax => 6
  | .zmin => 7
  | .zmax => 8
  | .inc => 9
  | .dec => 10
  | .fadd => 11
  | .faddH2 => 12
  | .faddBh2 => 13
  | .fmin => 14
  | .fmax => 15

/-- AMO (R248). -/
def execAmo (h : Hdr) (op : AtomOp) (size : Size) (ord : Order) (sc : Scope) (d a b : Reg) (s : State) :
    Host.Outcome State Fault Refusal :=
  logWord (.amo h op size ord sc d a b) h s (fun E s t =>
    let v := E.lv s t
    E.src s t (v.r64 a).toNat (v.operand size b) 0 0) (some (atomItem (atomNum op) (Size.bytes size) ord sc))
/-- CAS (R250). -/
def execCas (h : Hdr) (size : Size) (ord : Order) (sc : Scope) (d a b c : Reg) (s : State) :
    Host.Outcome State Fault Refusal :=
  logWord (.cas h size ord sc d a b c) h s (fun E s t =>
    let v := E.lv s t
    E.src s t (v.r64 a).toNat (v.operand size b) (v.operand size c) 0) (some (atomItem 16 (Size.bytes size) ord sc))
/-- RED (R248). -/
def execRed (h : Hdr) (op : AtomOp) (size : Size) (ord : Order) (sc : Scope) (a b : Reg) (s : State) :
    Host.Outcome State Fault Refusal :=
  logWord (.red h op size ord sc a b) h s (fun E s t =>
    let v := E.lv s t
    E.src s t (v.r64 a).toNat (v.operand size b) 0 0) (some (atomItem (32 + atomNum op) (Size.bytes size) ord sc))

/-! ## FENCE -/

/-- FENCE (R251): once for the group. A release alone holds only later memory words, until the group's earlier loads and the block's
stores are over; an acquire holds the group at the word until it is complete; .sc also takes a ticket of the teller (R240), the
follower's with its leader's. -/
def execFence (h : Hdr) (ord : Order) (sc : Scope) (s : State) : Host.Outcome State Fault Refusal :=
  issue (.fence h ord sc) h s fun E s1 =>
    if E.act.isEmpty then E.finish s1 [] E.fall
    else if !acquires ord then
      let G : Group := { E.G with memHold := E.G.memHold ++ [MemHold.release sc, MemHold.loads E.G.lanes] }
      Env.finish { E with G := G } s1 [] E.fall
    else if (releases ord && !s1.released E.G.block sc) || !s1.loadsDone E.G.lanes then s1
    else
      let s2 := if ord = .sc ∧ !s1.isFollower E.G.block E.G.core then s1.takeTickets 1 else s1
      E.finish (s2.acquireGroup E.G sc) [] E.fall

/-! ## Named barriers (R252, R253) -/

/-- The barrier and count that a lane names: a count above 1,024 acts as 1,024 (R247). -/
def LV.barArg (v : LV) : BarArg → Nat × Nat
  | .imm id count => (id.val, count.val)
  | .reg r => let x := (v.r32 r).toNat; (bitsOf x 0 4, min (bitsOf x 4 11) 1024)

/-- The barrier that a lane of BARW names. -/
def LV.barId (v : LV) : BarArg → Nat
  | .imm id _ => id.val
  | .reg r => bitsOf (v.r32 r).toNat 0 4

/-- A thread's pending flag for a barrier. -/
def Thread.barPend (T : Thread) (k : Nat) : Bool := bitOf T.barPending.toNat k

/-- One lane arrives (R252). An expected count of 0 stands for the default. -/
def State.arrive (s : State) (b core t k count : Nat) : State :=
  if (s.thread t).barPend k then s
  else
    let s1 := s.modThread t fun T => { T with barPending := T.barPending ||| BitVec.ofNat 16 (2 ^ k) }
    let B := (s.bside b core).barriers.findD k Barrier.init
    let B1 : Barrier := { B with expected := if B.arrivals = 0 then count else B.expected, arrivals := B.arrivals + 1 }
    let s2 := s1.modBside b core fun S => { S with barriers := S.barriers.store Barrier.init k B1 }
    let e := if B1.expected = 0 then s.barDefault b core else B1.expected
    if e ≤ B1.arrivals then s2.barComplete b core k else s2

/-- The active lanes arrive in lane order. -/
def State.arriveAll (s : State) (E : Env) (arg : BarArg) : State :=
  (E.act.map fun t => (t, (E.lv s t).barArg arg)).foldl (fun s x => s.arrive E.G.block E.G.core x.1 x.2.1 x.2.2) s

/-- Later memory words of a group wait for the earlier loads of its threads: the acquire at .blk (R238). -/
def Group.afterLoads (G : Group) (ts : List Nat) : Group := { G with memHold := G.memHold ++ [.loads ts] }

/-- BAR (R252): after the release the lanes arrive; those whose flag is still set leave the group and wait, barrier by barrier;
the others go on. -/
def execBar (h : Hdr) (arg : BarArg) (s : State) : Host.Outcome State Fault Refusal :=
  issue (.bar h arg) h s fun E s1 =>
    if E.act.isEmpty then E.finish s1 [] E.fall
    else if !s1.releasedFor E.G.block .blk E.act then s1
    else
      let k (t : Nat) : Nat := ((E.lv s1 t).barArg arg).1
      let s2 := s1.arriveAll E arg
      let waits := E.act.filter fun t => (s2.thread t).barPend (k t)
      let E1 := { E with G := E.G.afterLoads E.act }
      if waits.isEmpty then E1.finish s2 [] E.fall
      else
        let s3 := E1.finish s2 [] (E.fall.filter fun m => !waits.contains m.1) 0 waits
        let G1 := { E.G with readyAt := max E.G.readyAt (E.clk + max E.h.stall.val 1) }
        (distinct k waits).foldl (fun s n =>
          let ts := waits.filter fun t => k t == n
          (s.spawn G1 ts E.G.pc).beginWait s.nextId (.bar n ts)) s3

/-- BARA (R252): the lanes arrive and go on. -/
def execBara (h : Hdr) (arg : BarArg) (s : State) : Host.Outcome State Fault Refusal :=
  issue (.bara h arg) h s fun E s1 =>
    if E.act.isEmpty then E.finish s1 [] E.fall
    else if !s1.releasedFor E.G.block .blk E.act then s1
    else E.finish (s1.arriveAll E arg) [] E.fall

/-- BARW (R253): waits for the active lanes whose flag is set; then the acquire. -/
def execBarw (h : Hdr) (arg : BarArg) (s : State) : Host.Outcome State Fault Refusal :=
  issue (.barw h arg) h s fun E s1 =>
    let ls := (E.act.map fun t => (t, (E.lv s1 t).barId arg)).filter fun x => (s1.thread x.1).barPend x.2
    let E1 := { E with G := E.G.afterLoads E.act }
    if E.act.isEmpty then E.finish s1 [] E.fall
    else if ls.isEmpty then E1.finish s1 [] E.fall
    else E1.await s1 [] (.barw ls)

/-- The waiting group's flags for barrier `k` are all clear. -/
def State.barFreed (s : State) (k : Nat) (G : Group) : Bool :=
  match G.wait with
  | some (.bar n ts) => n == k && ts.all fun t => !(s.thread t).barPend k
  | some (.barw ls) => (ls.any fun x => x.2 == k) && ls.all fun x => !(s.thread x.1).barPend x.2
  | _ => false

/-- The groups of a block's side that barrier `k` lets go. -/
def State.barGroups (s : State) (b side k : Nat) : List Nat :=
  (s.groups.filter fun p => p.2.block == b && s.sideOf b p.2.core == side && s.barFreed k p.2).map Prod.fst

/-- BARRIER_PHASE_COMPLETE (R252, R253): the groups that wait for a completed phase go on. -/
def execBarrierPhaseComplete (block side k : Nat) (s : State) : Host.Outcome State Fault Refusal :=
  event s (!(s.barGroups block side k).isEmpty) fun s =>
    (s.barGroups block side k).foldl (fun s g => match s.groups.find g with
      | some G => (s.setGroup g (G.afterLoads G.lanes)).resume g (G.pc + 8)
      | none => s) s

/-! ## GBAR and SSYNC (R254, R255) -/

/-- GBAR (R254): every occupied lane, whatever its guard. The release comes after the threads' earlier loads (R231), so that these have
delivered when the acquire is made (R238). -/
def execGbar (h : Hdr) (s : State) : Host.Outcome State Fault Refusal :=
  issue (.gbar h) h s fun E s1 =>
    match (s1.recOf E.G.block).gangLevel with
    | none => E.finish s1 (allRaise E.occ cWindow) E.fall
    | some l =>
      if E.occ.isEmpty then E.finish s1 [] E.fall
      else if !s1.releasedFor E.G.block l.scope E.occ then s1
      else
        let s2 := s1.modBlock E.G.block fun B => { B with gbarIn := B.gbarIn ++ E.occ }
        E.await s2 [] .gbar

/-- The blocks of gang number `n` of a launch: runs of the gang's size in index order (R73). -/
def State.gangBlocks (s : State) (l n : Nat) : List Nat :=
  (s.blocks.filter fun p => p.2.launch == l && p.2.index / max (s.launch l).lrec.gangSize 1 == n).map Prod.fst

/-- Blocks that a launch has (R70): the product of the extents from level 1 to the level below the grid. -/
def LRec.blockCount (R : LRec) : Nat := (((R.levels.drop 1).dropLast).map Level.extent).foldl (· * ·) 1

/-- Every thread of some blocks that has not exited has arrived. -/
def State.allIn (s : State) (bs : List Nat) (arrived : Block → List Nat) : Bool :=
  bs.all fun b => (s.block b).residence == .exited ||
    ((s.block b).residence == .resident && (s.blockThreads b).all (arrived (s.block b)).contains)

/-- A gang's phase is complete (R254): all its blocks are there, and somebody waits. -/
def State.gbarDone (s : State) (l n : Nat) : Bool :=
  let bs := s.gangBlocks l n
  bs.length == (s.launch l).lrec.gangSize && s.allIn bs Block.gbarIn && bs.any fun b => !(s.block b).gbarIn.isEmpty

/-- The groups of some blocks that wait in a way go on after an acquire, those that a handler has broken in on among them (log 11). -/
def State.wakeBlocks (s : State) (bs : List Nat) (w : Wait) (sc : Scope) : State :=
  let gs := (s.groups.filter fun p => bs.contains p.2.block && (p.2.wait == some w || p.2.paused == some w)).map Prod.fst
  gs.foldl (fun s g => match s.groups.find g with
    | some G =>
      let s1 := (s.setGroup g (G.afterLoads G.lanes)).acquireGroup G sc
      if G.wait == some w then s1.resume g (G.pc + 8) else s1.modGroup g fun G => { G with paused := none }
    | none => s) s

/-- GBAR_PHASE_COMPLETE (R254). -/
def execGbarPhaseComplete (launch gang : Nat) (s : State) : Host.Outcome State Fault Refusal :=
  event s (s.gbarDone launch gang) fun s =>
    let bs := s.gangBlocks launch gang
    let s1 := bs.foldl (fun s b => s.modBlock b fun B => { B with gbarIn := [] }) s
    s1.wakeBlocks bs .gbar (((s.launch launch).lrec.gangLevel.map Level.scope).getD .dev)

/-- What a thread of a block waits for before it arrives at SSYNC (R255): the block's release at .dev, the ACPs of its threads
in the word, and the receipts of the block's commands. -/
def State.ssyncReady (s : State) (E : Env) : Bool :=
  let b := E.G.block
  s.releasedFor b .dev E.occ && (E.occ.all fun t => (s.thread t).acp.all (· == 0)) &&
    s.engines.all (fun p => p.2.all fun c => c.block != b) &&
    s.opLog.all fun p => p.2.block != b || p.2.dormant || (pushKind p.2.instr).isNone

/-- SSYNC (R255): every occupied lane, whatever its guard. -/
def execSsync (h : Hdr) (s : State) : Host.Outcome State Fault Refusal :=
  issue (.ssync h) h s fun E s1 =>
    let dm := (s1.recOf E.G.block).dm
    if dm = 1 ∨ dm = 2 then E.finish s1 (allRaise E.occ cOrdered) E.fall
    else if E.occ.isEmpty then E.finish s1 [] E.fall
    else if !s1.ssyncReady E then s1
    else E.await (s1.modBlock E.G.block fun B => { B with ssyncIn := B.ssyncIn ++ E.occ }) [] .ssync

/-- The blocks of a launch. -/
def State.launchBlocks (s : State) (l : Nat) : List Nat := (s.blocks.filter fun p => p.2.launch == l).map Prod.fst

/-- A superstep of a launch is over (R255): every block has been dispatched, and every thread has arrived. -/
def State.ssyncDone (s : State) (l : Nat) : Bool :=
  let bs := s.launchBlocks l
  bs.length == (s.launch l).lrec.blockCount && s.allIn bs Block.ssyncIn &&
    bs.any fun b => !(s.block b).ssyncIn.isEmpty

/-- SSYNC_COMPLETE (R255). -/
def execSsyncComplete (launch : Nat) (s : State) : Host.Outcome State Fault Refusal :=
  event s (s.ssyncDone launch) fun s =>
    let bs := s.launchBlocks launch
    (bs.foldl (fun s b => s.modBlock b fun B => { B with ssyncIn := [] }) s).wakeBlocks bs .ssync .dev

/-! ## WAITV (R256) -/

/-- WAITV: it takes a log entry, and the group waits for it. -/
def execWaitv (h : Hdr) (cmp : Cmp) (sg : Bool) (size : Size) (sc : Scope) (d a b : Reg) (s : State) :
    Host.Outcome State Fault Refusal :=
  issue (.waitv h cmp sg size sc d a b) h s fun E s1 =>
    let ls := E.act.map fun t => E.src s1 t ((E.lv s1 t).r64 a).toNat ((E.lv s1 t).operand size b) 0 0
    if ls.isEmpty then E.finish s1 [] E.fall
    else if s1.lineConflict E.i ls then s1
    else E.await (s1.logEntry E ls) [] (.waitv s1.nextId)

/-- The comparison of a WAITV on a value and its operand. -/
def waitvHolds (i : Instr) (x b : Nat) : Bool :=
  match i with
  | .waitv _ cmp sg size _ _ _ _ =>
    let w := 8 * Size.bytes size
    let v (y : Nat) : Int := if sg then signedOf y w else (y : Int)
    Cmp.holds cmp (v x) (v b)
  | _ => false

/-- The lanes of a WAITV re-read (R256): the entry with the lanes newly met and their values, if its checks pass and its banks are
awake. A value that meets a test is no older than what a later load finds (R234). -/
def State.reread (s : State) (e : LogEntry) : Option (LogEntry × State) :=
  match s.lanesCheck e.instr e.lanes with
  | ([], oks, s1) =>
    if (oks.flatMap Prod.snd).any fun sp => match sp.bank with
        | some b => s1.bankAsleep b.1 b.2
        | none => (match sp.line with
          | some l => s1.owned l
          | none => false) then none
    else
      let r := oks.foldl (fun (r : List (LaneSrc × Bool) × State) o =>
        if e.queued.contains o.1.thread then (r.1 ++ [(o.1, true)], r.2)
        else
          let y := r.2.readSpots r.2 (r.2.accOf o.1.thread (r.2.liveCtx o.1.ctx o.1.gen)) .cg o.2
          let x := leNat y.1
          if waitvHolds e.instr x o.1.b then (r.1 ++ [({ o.1 with c := x }, true)], y.2) else (r.1 ++ [(o.1, false)], r.2)) ([], s1)
      some ({ e with lanes := r.1.map Prod.fst, freed := true,
                     queued := (r.1.filter Prod.snd).map fun p => p.1.thread }, r.2)
  | _ => none

/-- The live WAITV entry that a group waits for. -/
def State.waitvEntry (s : State) (g : Nat) : Option (Nat × LogEntry) :=
  match s.groups.find g with
  | none => none
  | some G =>
    match G.wait with
    | some (.waitv id) => (s.opLog.find id).bind fun e => if e.dormant then none else some (id, e)
    | _ => none

/-- The group's WAITV after a re-read. -/
def State.waitvNow (s : State) (g : Nat) : Option (Nat × LogEntry × LogEntry × State) :=
  (s.waitvEntry g).bind fun p => (s.reread p.2).map fun r => (p.1, p.2, r.1, r.2)

/-- Every lane has met its test, and the earlier loads have their values (R238). -/
def State.waitvDone (s : State) (g : Nat) : Bool :=
  match s.waitvNow g with
  | some (_, _, e, _) => decide (e.queued.length = e.lanes.length) && s.loadsBefore (e.lanes.map LaneSrc.thread) e.age
  | none => false

/-- WAITV_REREAD (R256): some lane, but not yet every lane, has newly met its test. -/
def execWaitvReread (group : Nat) (s : State) : Host.Outcome State Fault Refusal :=
  event s (match s.waitvNow group with
      | some (_, old, e, _) => decide (old.queued.length < e.queued.length ∧ e.queued.length < e.lanes.length)
      | none => false) fun s => match s.waitvNow group with
    | some (id, _, e, s1) => { s1 with opLog := s1.opLog.put id e }
    | none => s

/-- WAITV_MET (R256): the acquire, the values, and the group goes on. -/
def execWaitvMet (group : Nat) (s : State) : Host.Outcome State Fault Refusal :=
  event s (s.waitvDone group) fun s =>
    match s.waitvNow group, s.groups.find group with
    | some (id, _, e, s1), some G =>
      let s2 := (s1.acquireGroup G (scopeOf e.instr)).deliverWrites e
        (e.lanes.map fun l => (l.thread, loadWrites e.instr l.c))
      ({ s2 with opLog := s2.opLog.del id }).resume group (G.pc + 8)
    | _, _ => s

/-! ## ORDHEAD and the clearing unit (R243, R257) -/

/-- ORDHEAD (R257). -/
def execOrdhead (h : Hdr) (s : State) : Host.Outcome State Fault Refusal :=
  issue (.ordhead h) h s fun E s1 =>
    if (s1.recOf E.G.block).dm ≠ 1 then E.finish s1 (allRaise E.act cOrdered) E.fall
    else if E.act.isEmpty then E.finish s1 [] E.fall
    else E.await s1 [] (.ordhead E.act)

/-- The group's block is the clearing head, and its earlier loads have their values. -/
def State.ordheadDone (s : State) (g : Nat) : Bool :=
  match s.groups.find g with
  | some G => match G.wait with
    | some (.ordhead ts) => (s.block G.block).index == (s.launchOf G.block).head && s.loadsDone ts
    | _ => false
  | none => false

/-- ORDHEAD_REACHED (R257). -/
def execOrdheadReached (group : Nat) (s : State) : Host.Outcome State Fault Refusal :=
  event s (s.ordheadDone group) fun s =>
    match s.groups.find group with
    | some G => (s.acquireGroup G .dev).resume group (G.pc + 8)
    | none => s

/-- The block of the clearing head of a launch. -/
def State.headBlock (s : State) (l : Nat) : Option Nat :=
  (s.blocks.find? fun p => p.2.launch == l && p.2.index == (s.launch l).head).map Prod.fst

/-- The clearing unit can go on with the head's context (R243). -/
def State.clearingGoes (s : State) (l : Nat) : Bool :=
  (s.launch l).lrec.dm == 1 && match s.headBlock l with
    | some b => (s.block b).residence == .exited && s.settleGoes (s.blockCtx b)
    | none => false

/-- CLEARING_SETTLE (R243): the head's context settles as far as it goes; once it has retired, the next index is the head. -/
def execClearingSettle (launch : Nat) (s : State) : Host.Outcome State Fault Refusal :=
  event s (s.clearingGoes launch) fun s =>
    match s.headBlock launch with
    | none => s
    | some b =>
      let s1 := s.settleStep (s.blockCtx b)
      if (s1.ctx (s.blockCtx b)).state = .retired then s1.modLaunch launch fun L => { L with head := L.head + 1 } else s1

end Machine
end Sys2Proof
end

