-- ==== Sys2Proof/Machine/Placement.lean ====
section
/-!
DEFINITION. Room on cores (R86, R90), the placement of blocks, core teams and gangs (R72, R73, R77, R88), and the state in which a
block starts (R74, R75, R326).
-/

namespace Sys2Proof
namespace Machine

/-! ## Partitions and slices -/

/-- The slices of a partition (R347). -/
def State.partSlices (s : State) (part : Nat) : List Nat := upFrom part (bitsOf s.cfg.playout (4 * part) 4)

/-- The partition of a slice, if it lies in one. -/
def State.slicePart (s : State) (slice : Nat) : Option Nat :=
  (upFrom 0 Config.slices).find? fun f => (s.partSlices f).contains slice

/-- The pairing state of a slice (R325). -/
def State.pairOf (s : State) (slice : Nat) : PairCtl := s.pairs.findD slice PairCtl.init
/-- Changes the pairing state of a slice. -/
def State.modPair (s : State) (slice : Nat) (f : PairCtl → PairCtl) : State :=
  { s with pairs := s.pairs.put slice (f (s.pairOf slice)) }

/-- The cores on which a block of an integrity level may be placed (R86, R326): leader cores of paired slices for IL2 and IL3, cores
of unpaired slices otherwise. `ever` asks for those of any slice that is not fenced (R90). -/
def State.coresFor (s : State) (part il : Nat) (ever : Bool) : List Nat :=
  let ok (x : Nat) : Bool :=
    let st := (s.pairOf x).state
    if ever then st != 3 else st == (if 2 ≤ il then 2 else 0)
  ((s.partSlices part).filter ok).flatMap fun x => upFrom (4 * x) (if 2 ≤ il then 2 else 4)

/-! ## Room (R86) -/

/-- Resident blocks of a core. -/
def State.residents (s : State) (core : Nat) : List Block :=
  ((s.blocks.filter fun p => p.2.residence == .resident && (p.2.core == core || p.2.follower == some core)).map Prod.snd)

/-- A place for a block: its core, its follower core, its runs of 32 slots in group order, and where its scratchpad and operand
buffer lie. -/
structure Site where
  core : Nat
  follower : Option Nat
  runs : List Nat
  spadAt : Nat
  obAt : Nat
  deriving DecidableEq, Repr

/-- Groups that a block holds (R74). -/
def LRec.groupCount (R : LRec) : Nat := sumOf (R.roles.map Role.groups)

/-- Run `r` of a core is free for a block of a launch record: its quarter is the tenant's, no block holds it, no DM2 block has the
quarter, and for DM2 nothing else is in the quarter (R77). -/
def State.runFree (s : State) (core : Nat) (R : LRec) (r : Nat) : Bool :=
  let q := r / 8
  let bs := s.residents core
  s.quarterOwner core q == some R.tenant && (bs.all fun B => !B.gslots.contains r) &&
    bs.all fun B => (R.dm != 2 && (s.launch B.launch).lrec.dm != 2) || B.gslots.all fun x => x / 8 != q

/-- A range of bytes lies in the tenant's ranges, `per` bytes for each quarter, and shares no byte with those of the blocks of the
core. -/
def State.rangeFree (s : State) (core tenant per : Nat) (used : List (Nat × Nat)) (at_ size : Nat) : Bool :=
  (upFrom (at_ / per) ((at_ + size + per - 1) / per - at_ / per)).all (fun q => decide (q < 4) &&
    s.quarterOwner core q == some tenant) && used.all fun u => !overlaps at_ size u.1 u.2

/-- The lowest free offset for a range on some cores: it starts at the tenant's first byte of a quarter or behind another
block's range. -/
def State.lowestRange (s : State) (cores : List Nat) (tenant per : Nat) (range : Block → Nat × Nat) (size : Nat) :
    Option Nat :=
  if size = 0 then some 0
  else
    let used (c : Nat) : List (Nat × Nat) := ((s.residents c).map range).filter fun u => u.2 != 0
    let starts := (upFrom 0 4).map (per * ·) ++ cores.flatMap fun c => (used c).map fun u => u.1 + u.2
    leastBy id (starts.filter fun x => cores.all fun c => s.rangeFree c tenant per (used c) x size)

/-- A block of a core has a thread quarter as its home and holds a tile or a record under a number that a block to be restored holds
(R285). -/
def State.numbersHeld (s : State) (core q : Nat) (S : BSide) : Bool :=
  s.blocks.any fun p =>
    let T := if core = p.2.core then p.2.lead else p.2.follow
    p.2.residence == .resident && (core == p.2.core || p.2.follower == some core) && p.2.home == q &&
      (S.tiles.any T.tiles.contains || S.records.any fun r => (T.records.find r.1).isSome)

/-- Where a block of a record would go on a core, if the core has room (R86). A block to be restored, which claims its tiles and records again
under their numbers, takes for its first group the lowest run in a quarter where these numbers are free (R285, log 53). -/
def State.siteOn (s : State) (R : LRec) (core : Nat) (S : BSide) : Option Site :=
  let cores := if 2 ≤ R.il then [core, core + 2] else [core]
  let runs := (upFrom 0 32).filter fun r => cores.all fun c => s.runFree c R r
  let spad := s.lowestRange cores R.tenant 0x80000 (fun B => (B.spadAt, (s.launch B.launch).lrec.spad)) R.spad
  let ob := s.lowestRange cores R.tenant 0x40000 (fun B => (B.obAt, (s.launch B.launch).lrec.obquota)) R.obquota
  if R.groupCount ≤ runs.length then
    match spad, ob, runs.find? fun r => !s.numbersHeld core (r / 8) S with
    | some x, some y, some r =>
      some ⟨core, if 2 ≤ R.il then some (core + 2) else none, (r :: runs.filter (· != r)).take R.groupCount, x, y⟩
    | _, _, _ => none
  else none

/-- The state with a block at a site, for the test whether more blocks fit beside it. -/
def State.ghost (s : State) (launch : Nat) (S : BSide) (x : Site) : State :=
  { s.fresh with blocks := s.blocks.put s.nextId { Block.init with
      launch := launch, core := x.core, follower := x.follower, gslots := x.runs, spadAt := x.spadAt, obAt := x.obAt,
      home := x.runs.headD 0 / 8, lead := S, residence := .resident } }

/-- Sites of some blocks on one core (R72), each given by what it holds. -/
def State.teamOn (s : State) (l core : Nat) : List BSide → Option (List Site × State)
  | [] => some ([], s)
  | S :: r =>
    match s.siteOn (s.launch l).lrec core S with
    | none => none
    | some x => ((s.ghost l S x).teamOn l core r).map fun y => (x :: y.1, y.2)

/-- Sites of some teams of blocks on some cores: each team goes to the core with the fewest resident blocks that has room for
it, the lowest among equals (R86). -/
def State.teamsOn (s : State) (l : Nat) (cores : List Nat) : List (List BSide) → Option (List Site)
  | [] => some []
  | t :: r =>
    let fits := cores.filter fun c => (s.teamOn l c t).isSome
    match leastBy (fun c => (s.residents c).length) fits with
    | none => none
    | some c =>
      match s.teamOn l c t with
      | none => none
      | some x => (x.2.teamsOn l cores r).map fun xs => x.1 ++ xs

/-- `n` teams of `m` blocks that hold nothing yet. -/
def freshTeams (m n : Nat) : List (List BSide) := List.replicate n (List.replicate m BSide.init)

/-- The most teams, at most `n`, that some cores hold now. -/
def State.teamsFit (s : State) (l : Nat) (cores : List Nat) (m : Nat) : Nat → Nat
  | 0 => 0
  | n + 1 => if (s.teamsOn l cores (freshTeams m (n + 1))).isSome then n + 1 else s.teamsFit l cores m n

/-- Blocks of a core team (R72): the product of the extents of the CORE levels below the highest of them. -/
def LRec.teamSize (R : LRec) : Nat :=
  (((R.levels.drop 1).takeWhile fun l => l.domain == 1).dropLast.map Level.extent).foldl (· * ·) 1

/-- Blocks that are dispatched at once: a gang, or a core team. -/
def LRec.unitSize (R : LRec) : Nat := if R.gangLevel.isSome then R.gangSize else R.teamSize

/-- The groups of cores on which a gang may lie: clusters or slices (Table 4-4). -/
def gangRegions (R : LRec) (cores : List Nat) : List (List Nat) :=
  let w := if (R.gangLevel.map Level.domain) == some 2 then 2 else 4
  ((cores.map fun c => c / w).eraseDups).map fun k => cores.filter fun c => c / w == k

/-- The number of a gang's region: its cluster or slice. -/
def regionNo (R : LRec) (cores : List Nat) : Nat :=
  let w := if (R.gangLevel.map Level.domain) == some 2 then 2 else 4
  cores.headD 0 / w

/-- Where the next unit of a launch goes on some cores. A gang takes the region that holds the fewest resident blocks, the lowest
among equals, and a core team one core (log 49). -/
def State.planUnit (s : State) (l : Nat) (cores : List Nat) : Option (List Site) :=
  let R := (s.launch l).lrec
  if R.gangLevel.isSome then
    let n := R.gangSize / max R.teamSize 1
    let fits := (gangRegions R cores).filter fun r => (s.teamsOn l r (freshTeams R.teamSize n)).isSome
    match leastBy (fun r => sumOf (r.map fun c => (s.residents c).length)) fits with
    | some r => s.teamsOn l r (freshTeams R.teamSize n)
    | none => none
  else s.teamsOn l cores (freshTeams R.teamSize 1)

/-- A record fits the partition when it is empty (R90). A core team that no core could hold does not fit (log 49). -/
def State.everFits (s : State) (part : Nat) (R : LRec) : Bool :=
  let s0 := { s.fresh with blocks := [], launches := s.launches.put s.nextId { Launch.init with lrec := R } }
  (s0.planUnit s.nextId (s.coresFor part R.il true)).isSome

/-! ## Blocks at their start -/

/-- The index of a thread of a block (R70): level 0 first; the grid's index is 0. -/
def LRec.ixOf (R : LRec) (block x0 : Nat) : List Nat :=
  let mid := (((R.levels.drop 1).dropLast).foldl (fun (r : List Nat × Nat) l =>
    (r.1 ++ [r.2 % max l.extent 1], r.2 / max l.extent 1)) ([], block)).1
  x0 :: mid ++ [0]

/-- Role and number in its role of overall group `g` (R74). -/
def roleOf : List Role → Nat → Nat → Nat × Nat
  | [], n, g => (n, g)
  | r :: rest, n, g => if g < r.groups then (n, g) else roleOf rest (n + 1) (g - r.groups)

/-- A thread as it is dispatched (R75). -/
def LRec.startThread (R : LRec) (b index ctx g lane : Nat) : Thread :=
  let rn := roleOf R.roles 0 g
  let allot := ((R.roles[rn.1]?).map Role.allot).getD 0
  let x0 := 32 * g + lane
  { Thread.init with
    block := b, role := rn.1, grp := rn.2, pgrp := g, ix := R.ixOf index x0
    tid := index * ((R.levels.headD ⟨false, .blk, 0, 0⟩).extent) + x0
    regs := FMap.store 0 (FMap.store 0 [] 0 (lowWord R.arg)) 1 (highWord R.arg)
    quarters := (upFrom 0 4).map fun q => if 64 * q < allot then .full else .off
    ctx := ctx }

/-- Dispatches overall group `g` of a block as a pinned issue group on a core (R74, R75). Its first word issues at a cycle. A code base and
entry that pass 2^52 wrap around (log 49). -/
def State.startGroup (s : State) (b core g run at_ : Nat) : State :=
  let B := s.block b
  let R := s.recOf b
  let ts := upFrom (1024 * core + 32 * run) 32
  let k := s.nextId
  let entry := ((R.roles[(roleOf R.roles 0 g).1]?).map Role.entry).getD 0
  let G : Group := {
    core := core, quarter := run / 8, block := b, pc := (R.codeBase + entry) % 2 ^ 52, lanes := ts, slot := none,
    readyAt := at_, since := at_, oppsAt := 0, candidate := false, yieldLeft := 0, wait := none, causes := 0, masks := [],
    faults := [], inHandler := false, enterAt := 0, resumePc := 0, resumeMask := 0, deliver := none, memHold := [], paused := none }
  let s1 := ts.foldl (fun s t => s.setThread t
    { R.startThread b B.index B.ctx g (laneOf t) with disp := .group k, ctxGen := s.genOf B.ctx }) s
  (s1.fresh.setGroup k G).takeSlot k

/-- The banks that hold some byte of a range of scratchpad. -/
def banksOf (at_ size : Nat) : List Nat :=
  if size = 0 then [] else upFrom (spadBankOf at_) (spadBankOf (at_ + size - 1) + 1 - spadBankOf at_)

/-- A bank is FULL before the block's first word issues (R140). -/
def State.fullBank (s : State) (core k : Nat) : State :=
  let s1 := if s.spadBank core k = .off then s.zeroBytes (spadPa core (0x20000 * k)) 0x20000 else s
  { s1 with spadBanks := s1.spadBanks.put (16 * core + k) .full, spadWakes := s1.spadWakes.del (16 * core + k) }

/-- A block takes its place on its cores: from here on it is resident, and what a mismatch left in group slots there is over (R331). -/
def State.settleAt (s : State) (b : Nat) (x : Site) : State :=
  { s with assayed := s.assayed.filter fun p => p.1 / 128 != x.core && some (p.1 / 128) != x.follower }.modBlock b fun B => { B with
    core := x.core, follower := x.follower, gslots := x.runs, spadAt := x.spadAt, obAt := x.obAt
    home := x.runs.headD 0 / 8, residence := .resident, dispatchedAt := s.clk x.core, notice := false, chosen := 0, going := false
    exchange := none, overrun := 0, overLen := 0, image := none }

/-- Dispatches a block from its entry (R75, R326): both sides, the scratchpad zeroed, the threads; the follower's groups start 16
cycles later (Table 13-4). -/
def State.startBlock (s : State) (b : Nat) (x : Site) : State :=
  let s0 := (s.settleAt b x).modBlock b fun B => { B with
    lead := BSide.init, follow := BSide.init, ran := 0, items := [], itemNo := [], matched := 0, gbarIn := [], ssyncIn := [] }
  let size := (s0.recOf b).spad
  let cores := x.core :: (match x.follower with
    | some c => [c]
    | none => [])
  cores.foldl (fun s c =>
    let s1 := (banksOf x.spadAt size).foldl (fun s k => s.fullBank c k) s
    let s2 := s1.zeroBytes (spadPa c x.spadAt) size
    let at_ := s.clk c + (if c = x.core then 0 else 16)
    (x.runs.zipIdx).foldl (fun s r => s.startGroup b c r.2 r.1 at_) s2) s0

/-- A launch record runs its blocks in block contexts (R76). -/
def LRec.needsCtx (R : LRec) : Bool := R.ctxPol || decide (1 ≤ R.il) || R.dm == 1

end Machine
end Sys2Proof
end

