-- ==== Sys2Proof/Machine/Ring.lean ====
section
/-!
DEFINITION. The host event ring (R381 to R383).
-/

namespace Sys2Proof
namespace Machine

/-- Entries of the event ring: 2 to the size, 16 for values outside 4 to 12 (Table 15-2). -/
def EvRing.entries (E : EvRing) : Nat := 2 ^ (if 4 ≤ E.size ∧ E.size ≤ 12 then E.size else 4)

/-- The ring takes no entry now: it is disabled or full (R383). -/
def EvRing.shut (E : EvRing) : Bool := !E.enable || (E.tail + 2 ^ 32 - E.head) % 2 ^ 32 == E.entries

/-- The 32 bytes of an entry (Table 15-3). -/
def eventBytes (kind source detail value time seq : Nat) : List Byte :=
  leBytes (kind % 256 * 2 ^ 56 + source % 256 * 2 ^ 48 + detail % 2 ^ 32) 8 ++ leBytes (value % 2 ^ 64) 8 ++
    leBytes (time % 2 ^ 64) 8 ++ leBytes (seq % 2 ^ 32) 8

/-- Posts an entry (R383): the whole entry, then EVRTAIL, then the interrupt. An entry that finds the ring shut is dropped and
counted. -/
def State.evPost (s : State) (kind source detail value : Nat) : State :=
  let E := s.evr
  let seq := (E.seq + 1) % 2 ^ 32
  if E.shut then { s with evr := { E with seq := seq, lost := min (E.lost + 1) (2 ^ 32 - 1), overflow := true } }
  else
    let pa := E.base + 32 * (E.tail % E.entries)
    let s1 := if pa + 32 ≤ s.dramSize then s.setBytes pa (eventBytes kind source detail value s.nanos E.seq) else s
    { s1 with evr := { E with
      seq := seq, tail := (E.tail + 1) % 2 ^ 32, irqRaised := if E.irq then E.irqRaised + 1 else E.irqRaised } }

/-- A 16-byte record of the device at a virtual address (R68): translated like a store in the base context, on a NORMAL or DEVICE
page. Where it cannot be written nothing happens. -/
def State.writeRecord (s : State) (tenant world addr : Nat) (bs : List Byte) : State :=
  let a : Acc := ⟨0, 0, 0, 0, tenant, world, 0, true⟩
  if 2 ^ 52 ≤ addr ∨ Config.transEnd ≤ addr then s
  else
    match s.walk tenant addr with
    | none => s
    | some d =>
      let pa := framePa d addr
      match s.pageCheck a Need.store d pa with
      | some _ => s
      | none =>
        match s.phys pa with
        | .dram => s.setBytes pa bs
        | .core n off => s.mapWrite n off bs
        | _ => s

end Machine
end Sys2Proof
end

