-- ==== Sys2Proof/Machine/Arbiter.lean ====
section
/-!
DEFINITION. Stream queues and the check of records (R67 to R82, R85, R90), the launch arbiter and block dispatch (R81, R84 to R88),
the exit of blocks (R126, R218, R267, R297) and the end of launches (R82, R316).
-/

namespace Sys2Proof
namespace Machine

/-! ## Records (R67) -/

/-- A record's level, from its dword (Table 4-1). Scope codes above 4 do not name a scope. -/
def levelOf (d : Nat) : Level :=
  let sc : Scope := match bitsOf d 35 3 with
    | 0 => .blk
    | 1 => .cls
    | 2 => .slc
    | 3 => .dev
    | _ => .sys
  ⟨bitOf d 38, sc, bitsOf d 32 3, bitsOf d 0 32⟩

/-- A record's role, from its dword (Table 4-1). -/
def roleAt (d : Nat) : Role := ⟨bitsOf d 0 32, bitsOf d 32 8, bitsOf d 40 8⟩

/-- The fields of a record (Table 4-1). -/
def recordOf (ws : RecWords) : LRec :=
  let d (k : Nat) : Nat := (ws.getD k 0).toNat
  let h := d 1
  { codeBase := d 0, ticket := bitsOf h 48 16, tenant := bitsOf h 32 8, deadline := bitsOf h 24 4, world := bitsOf h 14 4
    pref := bitsOf h 12 2, tier := bitsOf h 10 2, idem := bitOf h 9, ctxPol := bitOf h 8, dm := bitsOf h 6 2, il := bitsOf h 4 2
    spad := bitsOf (d 2) 32 32, progress := bitsOf (d 2) 0 32, stride := bitsOf (d 3) 32 32, obquota := bitsOf (d 3) 0 32
    privBase := d 4, waitEn := bitOf (d 5) 15, waitCtr := bitsOf (d 5) 0 12, threshold := ws.getD 6 0
    sigInc := bitsOf (d 7) 32 32, sigEn := bitOf (d 7) 15, sigCtr := bitsOf (d 7) 0 12, status := d 8, arg := ws.getD 9 0
    levels := (upFrom 0 (bitsOf h 18 3 + 1)).map fun k => levelOf (d (10 + k))
    roles := (upFrom 0 (bitsOf h 21 2 + 1)).map fun n => roleAt (d (18 + 2 * n)) }

/-- The reserved bits of a record are zero (R67). -/
def reservedOk (ws : RecWords) : Bool :=
  let d (k : Nat) : Nat := (ws.getD k 0).toNat
  let h := d 1
  bitsOf h 40 8 == 0 && bitsOf h 28 4 == 0 && !bitOf h 23 && bitsOf (d 5) 16 48 == 0 && bitsOf (d 5) 12 3 == 0 &&
    bitsOf (d 7) 16 16 == 0 && bitsOf (d 7) 12 3 == 0 &&
    ((upFrom 0 8).all fun k => if k ≤ bitsOf h 18 3 then bitsOf (d (10 + k)) 39 25 == 0 else d (10 + k) == 0) &&
    ((upFrom 0 4).all fun n => d (19 + 2 * n) == 0 &&
      (if n ≤ bitsOf h 21 2 then bitsOf (d (18 + 2 * n)) 48 16 == 0 else d (18 + 2 * n) == 0)) &&
    (upFrom 26 6).all fun k => d k == 0

/-- The record keeps the limits whose breach is BAD-FIELD (Table 4-3). -/
def fieldsLegal (ws : RecWords) : Bool :=
  let R := recordOf ws
  bitsOf (ws.getD 1 0).toNat 0 4 == 1 && R.dm != 3 && reservedOk ws && R.codeBase % 256 == 0 && decide (R.codeBase < 2 ^ 52) &&
    R.spad % 256 == 0 && decide (R.spad ≤ 0x200000) && R.stride % 64 == 0 && R.obquota % 4096 == 0 &&
    decide (R.obquota ≤ 0x100000) && R.privBase % 64 == 0 && decide (R.privBase < 2 ^ 52) && R.status % 16 == 0

/-- The default scope of a domain (Table 4-4). -/
def domainScope (d : Nat) : Nat := if d ≤ 1 then 0 else d - 1

/-- The number of a scope, narrow to wide (Table 2-3). -/
def scopeWidth : Scope → Nat
  | .blk => 0
  | .cls => 1
  | .slc => 2
  | .dev => 3
  | .sys => 4

/-- Level `k` breaks a rule of R69, R71 or R73. A scope code that Table 2-3 does not hold breaks R71. -/
def levelBad (ws : RecWords) (R : LRec) (k : Nat) : Bool :=
  let l := R.levels.getD k ⟨false, .blk, 0, 0⟩
  let under := R.levels.getD (k - 1) ⟨false, .blk, 0, 0⟩
  let n := R.levels.length
  l.extent == 0 || decide (4 < l.domain) || (k == 0 && l.domain != 0) || (k == 1 && l.domain != 1) ||
    (k == n - 1 && (l.domain != 4 || l.extent != 1)) || (k != 0 && decide (l.domain < under.domain)) ||
    decide (scopeWidth l.scope < domainScope l.domain) || decide (4 < bitsOf (ws.getD (10 + k) 0).toNat 35 3) ||
    (l.gang && ((l.domain != 2 && l.domain != 3) || (upFrom 0 k).any (fun j => (R.levels.getD j l).gang) || R.ticket == 0 ||
      (let size := (((R.levels.take k).drop 1).map Level.extent).foldl (· * ·) 1
       decide (size < 1 ∨ 16 < size))))

/-- The level at fault of a record, if there is one (R69 to R73, R77). -/
def levelFault (ws : RecWords) (R : LRec) : Option Nat :=
  match (upFrom 0 R.levels.length).find? (levelBad ws R) with
  | some k => some k
  | none =>
    if 2 ^ 32 < R.blockCount * (R.levels.headD ⟨false, .blk, 0, 0⟩).extent then some 0
    else if R.dm = 2 ∧ (R.blockCount ≠ 1 ∨ R.gangLevel.isSome) then some 0
    else none

/-- The role at fault of a record, if there is one (R74); 0 for the extent test, also where a role fails besides (log 49). -/
def roleFault (R : LRec) : Option Nat :=
  let x := (R.levels.headD ⟨false, .blk, 0, 0⟩).extent
  if x ≠ 32 * R.groupCount ∨ 1024 < x then some 0
  else (upFrom 0 R.roles.length).find? fun n =>
    let r := R.roles.getD n ⟨0, 0, 0⟩
    r.entry % 8 != 0 || r.allot % 8 != 0 || decide (r.allot < 8 ∨ 240 < r.allot ∨ r.groups = 0)

/-- The tenant's register (R352). -/
def State.tenantReg (s : State) (u : Nat) : Nat := (s.cfg.tenants.findD u 0).toNat

/-- The tenant is valid and of a world (R352). -/
def State.tenantOf (s : State) (u world : Nat) : Bool :=
  bitOf (s.tenantReg u) 63 && bitsOf (s.tenantReg u) 48 4 == world

/-- Another gang launch of the partition that is not complete holds the ticket (R73). -/
def State.ticketHeld (s : State) (part ticket : Nat) : Bool :=
  s.launches.any fun p => p.2.part == part && p.2.state != .complete && p.2.lrec.gangLevel.isSome && p.2.lrec.ticket == ticket

/-- The submitter may ask for the record (R85, R95, R352, R73). -/
def State.recordPriv (s : State) (q : Nat) (R : LRec) : Bool :=
  let Q := s.sq q
  (R.deadline == 0 || R.deadline == Q.cls) && R.world == Q.world && s.tenantOf R.tenant R.world &&
    ((s.partSlices Q.part).any fun x => (upFrom (4 * x) 4).any fun c => (upFrom 0 4).any fun k =>
      s.quarterOwner c k == some R.tenant) &&
    (!R.waitEn || s.granted Q.part R.waitCtr) && (!R.sigEn || s.granted Q.part R.sigCtr) &&
    !(R.gangLevel.isSome && s.ticketHeld Q.part R.ticket) &&
    (match s.submits.find (submitKey q Q.head) with
      | some (w, t, tier) => R.world == w && R.tenant == t && decide (tier ≤ R.tier)
      | none => true)

/-- The check of a record (R68): status 0, or the lowest failing code of Table 4-3 with its detail. -/
def State.recordCheck (s : State) (q : Nat) (ws : RecWords) : Nat × Nat :=
  let R := recordOf ws
  let part := (s.sq q).part
  if !fieldsLegal ws then (1, 0)
  else
    match levelFault ws R with
    | some k => (2, k)
    | none =>
      match roleFault R with
      | some n => (3, n)
      | none =>
        if !s.recordPriv q R then (4, 0)
        else if !s.everFits part R ∨ (R.needsCtx ∧ (s.partRegs part).pmint = 0) then (5, 0)
        else (0, 0)

/-! ## Stream queues (R78 to R80) -/

/-- The state of the secure stream that holds an interface, if one that is not UNLOCKED does (R366). -/
def State.streamState (s : State) (i : Nat) : Nat :=
  match s.sec.streams.find? fun p => p.2.state != 0 && p.2.ifs.contains i with
  | some p => p.2.state
  | none => 0

/-- A completion record (Table 4-2). -/
def completionBytes (blocks detail status transient : Nat) : List Byte :=
  leBytes (blocks % 2 ^ 32 * 2 ^ 32 + detail % 256 * 256 + status % 256) 8 ++ leBytes (transient % 2 ^ 32) 8

/-- The queue stops with a status (R80). A queue of a stream in ERROR keeps its 0xFE (Table 14-6). -/
def State.stopQueue (s : State) (q status : Nat) (failed : Bool) : State :=
  s.modSq q fun Q => { Q with
    stopped := true, status := if s.streamState q = 3 then 0xFE else status
    failedCheck := failed || (Q.failedCheck && Q.stopped), skipMade := Q.skipMade && Q.stopped
    launchStop := status == stFault || status == stAborted || (Q.launchStop && Q.stopped) }

/-- A doorbell write (R79): one that is out of range stops the queue with 0xFF. -/
def State.doorbell (s : State) (q v : Nat) : State :=
  let Q := s.sq q
  let gap (a b : Nat) : Nat := (a + 2 ^ 32 - b) % 2 ^ 32
  if gap v Q.head ≤ Q.entries ∧ gap v Q.tail ≤ Q.entries then s.modSq q fun Q => { Q with tail := v }
  else s.stopQueue q 0xFF false

/-- A write of 1 to the stopped bit (R80): the queue goes on; a record at SQHEAD that failed its check, and was not skipped, is the host's
from now on. -/
def State.resumeQueue (s : State) (q : Nat) : State :=
  let Q := s.sq q
  if Q.stopped ∧ s.streamState q ≠ 3 then
    let s1 := if Q.failedCheck ∧ !Q.skipMade then { s with submits := s.submits.del (submitKey q Q.head) } else s
    s1.modSq q fun Q => { Q with stopped := false, failedCheck := false, skipMade := false, launchStop := false }
  else s

/-- A write of 1 to the skip bit (R80): the failed record is passed over, once for a stop. -/
def State.skipRecord (s : State) (q : Nat) : State :=
  let Q := s.sq q
  if Q.stopped ∧ Q.failedCheck ∧ !Q.skipMade then
    { s.modSq q fun Q => { Q with head := (Q.head + 1) % 2 ^ 32, skipMade := true } with
      submits := s.submits.del (submitKey q Q.head) }
  else s

/-- SQTAIL_WRITE (R79): the doorbell; a queue of a stream in ERROR takes none (Table 14-6). -/
def execSqtailWrite (q : Nat) (v : Word) (s : State) : Host.Outcome State Fault Refusal :=
  event s (decide (q < 96) && s.streamState q != 3) fun s => s.doorbell q v.toNat

/-- SQCTL_RESUME (R80). -/
def execSqctlResume (q : Nat) (s : State) : Host.Outcome State Fault Refusal :=
  event s (decide (q < 96)) fun s => s.resumeQueue q

/-- SQCTL_SKIP (R80). -/
def execSqctlSkip (q : Nat) (s : State) : Host.Outcome State Fault Refusal :=
  event s (decide (q < 96)) fun s => s.skipRecord q

/-- A queue has a record to be checked: it runs, and its stream, if it has one, is in RUN (Table 14-6). -/
def State.checkDue (s : State) (q : Nat) : Bool :=
  let Q := s.sq q
  decide (q < 96) && Q.enable && !Q.stopped && Q.head != Q.tail && s.streamState q != 1 && s.streamState q != 3

/-- RECORD_CHECK (R68, R79, R80): the record at SQHEAD is read and checked. One that does not lie in fitted DRAM is not read (log 49). -/
def execRecordCheck (q : Nat) (s : State) : Host.Outcome State Fault Refusal :=
  event s (s.checkDue q) fun s =>
    let Q := s.sq q
    let pa := Q.slot Q.head
    if s.dramSize < pa + 256 then s.stopQueue q 0xFD true
    else
      let ws := dwordsOf (s.bytes pa 256) 32
      let R := recordOf ws
      let r := s.recordCheck q ws
      if r.1 ≠ 0 then
        let s1 := if R.status = 0 ∨ R.status % 16 ≠ 0 then s
          else s.writeRecord R.tenant R.world R.status (completionBytes 0 r.2 r.1 0)
        s1.stopQueue q r.1 true
      else
        let s1 := { s.fresh with
          launches := s.launches.put s.nextId { Launch.init with lrec := R, queue := q, part := Q.part, order := s.nextId, prev := Q.last }
          submits := s.submits.del (submitKey q Q.head) }
        s1.modSq q fun Q => { Q with head := (Q.head + 1) % 2 ^ 32, last := some s.nextId }

/-! ## Readiness (R81) -/

/-- No block of a launch waits at the mint for the tag of its context (R76). -/
def State.noTagAsked (s : State) (l : Nat) : Bool :=
  s.mintQ.all fun p => p.2.all fun r => match r with
    | .block k _ => k != l
    | _ => true

/-- Every block of a launch has been dispatched. -/
def State.allDispatched (s : State) (l : Nat) : Bool :=
  (s.launch l).nextBlock == (s.launch l).lrec.blockCount && s.noTagAsked l &&
    s.blocks.all fun p => p.2.launch != l || p.2.residence != .waiting

/-- A launch may become ready (R81, R80). -/
def State.readyDue (s : State) (l : Nat) : Bool :=
  let L := s.launch l
  let Q := s.sq L.queue
  (s.launches.find l).isSome && L.state == .checked && !L.ending &&
    (!L.lrec.waitEn || decide (L.lrec.threshold.toNat ≤ (s.counter L.lrec.waitCtr).toNat)) &&
    (match L.prev with
      | none => true
      | some k => (s.launches.find k).isNone || (s.launch k).state == .complete || (Q.overlap && s.allDispatched k)) &&
    !(Q.stopped && Q.launchStop)

/-- LAUNCH_READY (R81). -/
def execLaunchReady (l : Nat) (s : State) : Host.Outcome State Fault Refusal :=
  event s (s.readyDue l) fun s =>
    s.modLaunch l fun L => { L with state := .ready, readyAt := s.now, noRoomSince := s.now }

/-! ## The arbiter (R84) -/

/-- The ranking keys, most important first (R84). -/
def Launch.rank (L : Launch) : List Nat :=
  [if L.lrec.deadline = 0 then 16 else L.lrec.deadline, L.lrec.tier, L.readyAt, L.queue, L.order]

/-- Lexicographic order of equally long lists. -/
def lexLess : List Nat → List Nat → Bool
  | a :: x, b :: y => decide (a < b) || (a == b && lexLess x y)
  | _, _ => false

/-- Insertion by rank. -/
def rankInsert (p : Nat × Launch) : List (Nat × Launch) → List (Nat × Launch)
  | [] => [p]
  | q :: r => if lexLess p.2.rank q.2.rank then p :: q :: r else q :: rankInsert p r

/-- What a launch asks room for next (R84): saved blocks, fresh blocks that hold their tags, or blocks that have not been begun. -/
inductive Offer where
  | restore (bs : List Nat)
  | place (bs : List Nat)
  | fresh (first n : Nat)
  deriving DecidableEq, Repr

/-- Blocks of a launch of a residence, in rising index. -/
def State.blocksIn (s : State) (l : Nat) (r : Residence) : List Nat :=
  let bs := s.blocks.filter fun p => p.2.launch == l && p.2.residence == r
  (bs.foldl (fun acc p =>
    (acc.takeWhile fun q : Nat × Nat => decide (q.2 < p.2.index)) ++ (p.1, p.2.index) ::
      (acc.dropWhile fun q : Nat × Nat => decide (q.2 < p.2.index))) []).map Prod.fst

/-- The next offer that a launch can use. Blocks of a unit that still wait for tags are not offered. -/
def State.nextOffer (s : State) (l : Nat) : Option Offer :=
  let L := s.launch l
  let u := max L.lrec.unitSize 1
  let unit (b : Nat) : Nat := (s.block b).index / u
  match s.blocksIn l .saved with
  | b :: r => some (.restore (if L.lrec.gangLevel.isSome then b :: r.filter fun c => unit c == unit b else [b]))
  | [] =>
    match s.blocksIn l .waiting with
    | b :: r =>
      let bs := b :: r.filter fun c => unit c == unit b
      if bs.length = u then some (.place bs) else none
    | [] => if L.nextBlock < L.lrec.blockCount then some (.fresh L.nextBlock u) else none

/-- The ready launches of a partition that hold undispatched or saved blocks, by rank (R84). -/
def State.ranked (s : State) (part : Nat) : List (Nat × Launch) :=
  (s.launches.filter fun p => p.2.part == part && p.2.state == .ready && !p.2.ending &&
    ((s.nextOffer p.1).isSome || !(s.blocksIn p.1 .waiting).isEmpty)).foldl (fun r p => rankInsert p r) []

/-- A core is reserved for a gang of another launch (R88). -/
def State.reservedCore (s : State) (l core : Nat) : Bool :=
  s.launches.any fun p => p.1 != l && p.2.state == .ready && !p.2.ending &&
    match p.2.gangRoom with
    | some k => core / (if (p.2.lrec.gangLevel.map Level.domain) == some 2 then 2 else 4) == k
    | none => false

/-- The cores that a launch may use now. -/
def State.openCores (s : State) (l : Nat) : List Nat :=
  (s.coresFor (s.launch l).part (s.launch l).lrec.il false).filter fun c => !s.reservedCore l c

/-- A list in pieces of `m`; the number bounds them. -/
def chunksOf {α : Type} (m : Nat) (l : List α) : Nat → List (List α)
  | 0 => []
  | n + 1 => if l.isEmpty then [] else l.take m :: chunksOf m (l.drop m) n

/-- Where saved blocks would be restored: with the other members of their gang or core team that are resident, or together
(R73, R72, R89), each where its tiles' and records' numbers are free (R285). -/
def State.planRestore (s : State) (l : Nat) (bs : List Nat) : Option (List Site) :=
  let R := (s.launch l).lrec
  let u := max (if R.gangLevel.isSome then R.gangSize else R.teamSize) 1
  let k := (s.block (bs.headD 0)).index / u
  let mates := s.blocks.filter fun p => p.2.launch == l && p.2.residence == .resident && p.2.index / u == k
  let cores := s.openCores l
  let n := bs.length
  let m := if n % max R.teamSize 1 = 0 then max R.teamSize 1 else 1
  let teams := chunksOf m (bs.map fun b => (s.block b).lead) n
  if R.gangLevel.isSome then
    let regions := gangRegions R cores
    let regions := match mates with
      | [] => regions
      | p :: _ => regions.filter fun r => r.contains p.2.core
    let fits := regions.filter fun r => (s.teamsOn l r teams).isSome
    match leastBy (fun r => sumOf (r.map fun c => (s.residents c).length)) fits with
    | some r => s.teamsOn l r teams
    | none => none
  else s.teamsOn l (match mates with
    | [] => cores
    | p :: _ => cores.filter (· == p.2.core)) (bs.map fun b => [(s.block b).lead])

/-- Where the blocks of an offer would go. -/
def State.planOffer (s : State) (l : Nat) : Offer → Option (List Site)
  | .restore bs => s.planRestore l bs
  | .place _ => s.planUnit l (s.openCores l)
  | .fresh _ _ => s.planUnit l (s.openCores l)

/-- The first launch by rank whose next offer fits, with the sites (R84). -/
def State.firstFit (s : State) (part : Nat) : Option (Nat × Offer × List Site) :=
  (s.ranked part).findSome? fun p => (s.nextOffer p.1).bind fun o => (s.planOffer p.1 o).map fun xs => (p.1, o, xs)

/-- The launch has found room. -/
def State.foundRoom (s : State) (l : Nat) : State :=
  s.modLaunch l fun L => { L with noRoomSince := s.now, gangRoom := none }

/-- Asks the mint for the tags of some blocks (R76, R209). -/
def State.askTags (s : State) (l first n : Nat) : State :=
  let part := (s.launch l).part
  { s with mintQ := s.mintQ.put part (s.mintQ.findD part [] ++ (upFrom first n).map (MintReq.block l)) }

/-- Blocks without a context come to be. -/
def State.makeBlocks (s : State) (l first n : Nat) : State :=
  (upFrom first n).foldl (fun s i => { s.fresh with blocks := s.blocks.put s.nextId { Block.init with
    launch := l, index := i, residence := .waiting, waitingSince := s.now } }) s

/-- Starts blocks at their sites in index order. -/
def State.startAll (s : State) (bs : List Nat) (xs : List Site) : State :=
  (bs.zip xs).foldl (fun s p => s.startBlock p.1 p.2) s

/-- Block dispatch of a launch (R84, R76): blocks that need a context of their own ask the mint first, and are placed at once when
the mint can serve all of them. -/
def State.dispatchUnit (s : State) (l : Nat) (o : Offer) (xs : List Site) : State :=
  match o with
  | .restore _ => s
  | .place bs => (s.startAll bs xs).foundRoom l
  | .fresh first n =>
    let L := s.launch l
    let s1 := s.modLaunch l fun L => { L with nextBlock := L.nextBlock + n }
    if L.lrec.needsCtx then
      let s2 := (s1.askTags l first n).mintAll L.part ((s1.mintQ.findD L.part []).length + n)
      let bs := s2.blocksIn l .waiting
      if bs.length = n then (s2.startAll bs xs).foundRoom l else s2
    else
      let s2 := s1.makeBlocks l first n
      (s2.startAll (s2.blocksIn l .waiting) xs).foundRoom l

/-- The launch to dispatch from, when the first that fits asks for new blocks. -/
def State.dispatchNext (s : State) (part : Nat) : Option (Nat × Offer × List Site) :=
  match s.firstFit part with
  | some (_, .restore _, _) => none
  | x => x

/-- BLOCK_DISPATCH (R84, R86). -/
def execBlockDispatch (part : Nat) (s : State) : Host.Outcome State Fault Refusal :=
  event s (s.dispatchNext part).isSome fun s => match s.dispatchNext part with
    | some (l, o, xs) => s.dispatchUnit l o xs
    | none => s

/-- The region that comes nearest to holding a gang now (R88). -/
def State.nearestRegion (s : State) (l : Nat) : Option Nat :=
  let R := (s.launch l).lrec
  let n := R.gangSize / max R.teamSize 1
  (leastBy (fun r => n - s.teamsFit l r (max R.teamSize 1) n) (gangRegions R (s.openCores l))).map (regionNo R)

/-- A gang waits for room while its launch holds the top rank (R88). -/
def State.gangOnTop (s : State) (l : Nat) : Bool :=
  let L := s.launch l
  L.lrec.gangLevel.isSome && ((s.ranked L.part).head?.map Prod.fst) == some l && (match s.nextOffer l with
    | some o => (s.planOffer l o).isNone
    | none => false)

/-- Launches as time goes on: whether they hold the top rank while their gang waits, and since when (R88). -/
def State.stampTops (s : State) : State :=
  { s with launches := s.launches.map fun p => (p.1, { p.2 with
      topSince := if s.gangOnTop p.1 then (if p.2.topSince = 0 then s.now + 1 else p.2.topSince) else 0 }) }

/-- A gang has waited 50 µs for room while its launch held the top rank (R88). -/
def State.gangWaits (s : State) (l : Nat) : Bool :=
  let L := s.launch l
  s.gangOnTop l && L.gangRoom.isNone && L.topSince != 0 && decide (L.topSince + 50 * Config.us ≤ s.now + 1)

/-- GANG_RESERVE_TIMEOUT (R88). -/
def execGangReserveTimeout (l : Nat) (s : State) : Host.Outcome State Fault Refusal :=
  event s (s.gangWaits l) fun s => s.modLaunch l fun L => { L with gangRoom := s.nearestRegion l }

/-! ## The room and the tables of a block -/

/-- Banks of some cores in which no allocated byte remains go OFF (R140). -/
def State.emptyBanks (s : State) (cores banks : List Nat) : State :=
  cores.foldl (fun s c => banks.foldl (fun s k =>
    let held := (s.residents c).any fun B => overlaps B.spadAt (s.launch B.launch).lrec.spad (0x20000 * k) 0x20000
    if held then s else s.setSpad c k .off) s) s

/-- A block gives up its room (R140). -/
def State.vacate (s : State) (b : Nat) (r : Residence) : State :=
  let B := s.block b
  let cores := s.coresOf b
  (s.modBlock b fun B => { B with residence := r, notice := false, chosen := 0, going := false, exchange := none }).emptyBanks cores
    (banksOf B.spadAt (s.recOf b).spad)

/-- The MLOOPs of a block leave the queues of its cores, and its records go with their keyed ranges zeroed (R285, R298). -/
def State.dropMatrix (s : State) (b : Nat) : State :=
  let s1 := (s.coresOf b).foldl (fun s c =>
    let s1 := (s.bside b c).records.keys.foldl (fun s r => s.dropRecord b c r) s
    s1.modBside b c fun S => { S with mloops := [], tiles := [] }) s
  { s1 with mqueue := (s1.mqueue.map fun p => (p.1, p.2.filter fun x => x.1 != b)).filter fun p => !p.2.isEmpty }

/-- The threads of a block and all that is under way for them go: groups, bins, log entries, results, copies and requests. -/
def State.dropIssue (s : State) (b : Nat) : State :=
  let mine (t : Nat) : Bool := (s.thread t).block == b && (s.threads.find t).isSome
  let rest (p : Nat × List MintReq) : Nat × List MintReq := (p.1, p.2.filter fun r => match r with
    | .open_ _ lanes _ _ _ _ _ _ => !lanes.any mine
    | .block _ _ => true)
  { s with
    threads := s.threads.filter fun p => p.2.block != b
    groups := s.groups.filter fun p => p.2.block != b
    bins := s.bins.filter fun p => p.2.block != b
    opLog := s.opLog.filter fun p => p.2.block != b
    inflight := s.inflight.filter fun p => p.2.block != b
    acps := s.acps.filter fun p => p.2.block != b
    mintQ := (s.mintQ.map rest).filter fun p => !p.2.isEmpty }

/-- The contexts that a block owns and that have not retired. -/
def State.ownCtxs (s : State) (b : Nat) : List Nat :=
  (s.ctxs.filter fun q => q.2.owner == b && q.2.state != .retired).map Prod.fst

/-- Contexts void at once (R216, R316): their engine work is cancelled and their cells go. One whose merges are made retires as
settled; its held work is discarded. -/
def State.voidNow (s : State) (ts : List Nat) : State :=
  let s1 := s.cancelCmds fun c => ts.contains c.ctx
  ts.foldl (fun s t => (s.dropCells t).retireCtx t (s.ctx t).settled) s1

/-- The engine work of a block ends CANCELLED. Receipts for its queue registers go nowhere (R267). -/
def State.dropEngines (s : State) (b : Nat) : State :=
  let s1 := s.cancelCmds fun c => c.block == b
  let left := s1.engines.map fun q => (q.1, q.2.filter fun c => c.block != b || toMemory c.dwords)
  { s1 with engines := left.filter fun q => !q.2.isEmpty }

/-! ## BLOCK_EXIT -/

/-- The scope of level 1 of a record (R71). -/
def LRec.exitScope (R : LRec) : Scope := (R.levels.getD 1 ⟨false, .blk, 0, 0⟩).scope

/-- Every thread of a block has exited and its outstanding work is over (R126, R202, R218, R267, R297, R329). -/
def State.exitReady (s : State) (b : Nat) : Bool :=
  let B := s.block b
  B.residence == .resident && (s.blockThreads b).isEmpty && s.acps.all (fun p => p.2.block != b) &&
    (s.opLog.all fun p => p.2.block != b || p.2.dormant) &&
    (s.engines.all fun q => q.2.all fun c => c.block != b || c.heldDm1) &&
    ((s.coresOf b).all fun c => (s.bside b c).mloops.all fun m => !m.active) && s.released b (s.recOf b).exitScope &&
    ((s.ownCtxs b).all fun t => t == B.ctx || (s.ctx t).state == .opened) &&
    !(s.paired b && B.items.any fun i => decide (i.kind < 8))

/-- OPEN contexts of a block other than its own void, with all below them (R218). -/
def State.voidOpen (s : State) (b : Nat) : State :=
  (s.ownCtxs b).foldl (fun s t => if t != s.blockCtx b && (s.ctx t).state == .opened then s.beginVoid t else s) s

/-- A transient fault of a launch that was found on a core (R323): counted for the launch and for the cluster. -/
def State.countTransient (s : State) (l core : Nat) : State :=
  let c := clusterOf core
  { s.modLaunch l fun L => { L with transient := L.transient + 1 } with
    transient := s.transient.put c (s.transient.findD c 0 + 1) }

/-- BLOCK_EXIT (R218): other contexts void, the room is freed, and the block context begins to settle; on a checked block the
assay settles it (R329). A re-run at IL1 that completes marks a transient fault (R324). -/
def execBlockExit (b : Nat) (s : State) : Host.Outcome State Fault Refusal :=
  event s (s.exitReady b) fun s =>
    let B := s.block b
    let s1 := (((s.voidOpen b).dropMatrix b).dropIssue b).vacate b .exited
    if s.paired b then s1
    else
      let s2 := if B.ownRerun then s1.countTransient B.launch B.core else s1
      if B.ctx = 0 then s2 else s2.beginSettle B.ctx

/-! ## LAUNCH_COMPLETE (R82, R316) -/

/-- The context of a block has settled, or it has none. -/
def State.ctxOver (s : State) (b : Nat) : Bool :=
  let B := s.block b
  B.ctx == 0 || (s.ctx B.ctx).owner != b || (s.ctx B.ctx).state == .retired

/-- A block has completed. -/
def State.blockOver (s : State) (b : Nat) : Bool := (s.block b).residence == .exited && s.ctxOver b

/-- Ends the blocks of a launch (R316). -/
def State.endBlocks (s : State) (l : Nat) : State :=
  let bs := s.launchBlocks l
  let s1 := bs.foldl (fun s b =>
    (((((s.dropMatrix b).dropEngines b).voidNow (s.ownCtxs b)).dropIssue b).vacate b .exited)) s
  let rest (p : Nat × List MintReq) : Nat × List MintReq := (p.1, p.2.filter fun r => match r with
    | .block k _ => k != l
    | _ => true)
  { s1 with mintQ := (s1.mintQ.map rest).filter fun p => !p.2.isEmpty }

/-- After a launch that ended with FAULT or ABORTED, later launches of the queue that have dispatched no block are not ready
(R80). -/
def State.unready (s : State) (q order : Nat) : State :=
  { s with launches := s.launches.map fun p =>
      let begun := s.blocks.any fun x => x.2.launch == p.1 && x.2.residence != .waiting
      if p.2.queue = q ∧ order < p.2.order ∧ p.2.state = .ready ∧ !begun then (p.1, { p.2 with state := .checked }) else p }

/-- A launch may complete. -/
def State.launchOver (s : State) (l : Nat) : Bool :=
  let L := s.launch l
  (s.launches.find l).isSome && (L.ending || (L.state == .ready && L.nextBlock == L.lrec.blockCount && s.noTagAsked l &&
    (s.launchBlocks l).all s.blockOver))

/-- LAUNCH_COMPLETE (R82): the completion record, the signal add, the event-ring post, and the stop of the queue (R80). The launch
and its blocks leave the tables. -/
def execLaunchComplete (l : Nat) (s : State) : Host.Outcome State Fault Refusal :=
  event s (s.launchOver l) fun s =>
    let L := s.launch l
    let R := L.lrec
    let status := if L.ending then L.status else stDone
    let done := ((s.launchBlocks l).filter s.blockOver).length
    let s1 := if L.ending then s.endBlocks l else s
    let s2 := if R.status = 0 then s1 else s1.writeRecord R.tenant R.world R.status (completionBytes done 0 status L.transient)
    let s3 := if status = stDone ∧ R.sigEn then s2.addCounter R.sigCtr (BitVec.ofNat 64 R.sigInc) else s2
    let s4 := if (s.sq L.queue).notify ∧ s.streamState L.queue ≠ 3 then s3.evPost 1 L.queue status R.status else s3
    let s5 := if status = stDone then s4 else (s4.stopQueue L.queue status false).unready L.queue L.order
    { s5 with
      launches := s5.launches.del l
      blocks := s5.blocks.filter fun p => p.2.launch != l
      abortBusy := s5.abortBusy && s5.launches.any fun p => p.1 != l && p.2.ending }

end Machine
end Sys2Proof
end

