-- ==== Sys2Proof/Machine/Memory.lean ====
section
/-!
DEFINITION. Class 3: the memory forms (R194 to R204), and the events of copies and loads: ACP_COMPLETE, ACWAIT_MET,
SCOREBOARD_RESULT, STORE_ACK, HOST_COHERENCE_DRAIN.
-/

namespace Sys2Proof
namespace Machine

/-- The index of a register form; an immediate form has none (R195). -/
def LV.index (v : LV) : Src → Nat
  | .reg r => (v.r32 r).toNat
  | .imm _ => 0

/-- The data of a store of a size (R195). -/
def LV.data (v : LV) (size : Size) (d : Reg) : Nat :=
  match size with
  | .b64 => (v.r64 d).toNat
  | .b128 =>
    match d with
    | .v n => (v.r64 (.v n)).toNat + ((v.rv (n.val + 2)).toNat + (v.rv (n.val + 3)).toNat * 2 ^ 32) * 2 ^ 64
    | _ => 0
  | _ => (v.r32 d).toNat % 2 ^ (8 * Size.bytes size)

/-- The sources of a lane of a load or store whose base is 64 bits wide. -/
def wideSrc (a : Reg) (b : Src) (data : LV → Nat) (E : Env) (s : State) (t : Nat) : LaneSrc :=
  let v := E.lv s t
  E.src s t (v.r64 a).toNat (v.index b) (data v) 0
/-- The sources of a lane of a load or store of an offset of 32 bits. -/
def offsetSrc (a : Reg) (b : Src) (data : LV → Nat) (E : Env) (s : State) (t : Nat) : LaneSrc :=
  let v := E.lv s t
  E.src s t (v.r32 a).toNat (v.index b) (data v) 0

/-- The assay item of a store lane (Table 13-5): address, data and size; stores to a SCRATCH or PEER address are of kind 1. -/
def storeItem (scratch : Bool) (b : Src) (disp : Fin 256) (n : Nat) (l : LaneSrc) : Nat × Nat × Nat × Nat × Nat :=
  let e := addrOf l.a l.b b disp n
  (if scratch ∨ windowOf e = 1 ∨ windowOf e = 2 then 1 else 0, (e % 2 ^ 64).toNat, l.c, 0, n)

/-- LD (R195). -/
def execLd (h : Hdr) (size : Size) (sg : Bool) (hint : Hint) (d a : Reg) (b : Src) (disp : Fin 256) (s : State) :
    Host.Outcome State Fault Refusal :=
  logWord (.ld h size sg hint d a b disp) h s (wideSrc a b fun _ => 0) none
/-- ST (R195, R196). -/
def execSt (h : Hdr) (size : Size) (hint : Hint) (d a : Reg) (b : Src) (disp : Fin 256) (s : State) :
    Host.Outcome State Fault Refusal :=
  logWord (.st h size hint d a b disp) h s (wideSrc a b fun v => v.data size d)
    (some (storeItem false b disp (Size.bytes size)))
/-- LDS (R195). -/
def execLds (h : Hdr) (size : Size) (sg : Bool) (d a : Reg) (b : Src) (disp : Fin 256) (s : State) :
    Host.Outcome State Fault Refusal :=
  logWord (.lds h size sg d a b disp) h s (offsetSrc a b fun _ => 0) none
/-- STS (R195). -/
def execSts (h : Hdr) (size : Size) (d a : Reg) (b : Src) (disp : Fin 256) (s : State) : Host.Outcome State Fault Refusal :=
  logWord (.sts h size d a b disp) h s (offsetSrc a b fun v => v.data size d)
    (some (storeItem true b disp (Size.bytes size)))
/-- LDL (R195). -/
def execLdl (h : Hdr) (size : Size) (sg : Bool) (hint : Hint) (d a : Reg) (b : Src) (disp : Fin 256) (s : State) :
    Host.Outcome State Fault Refusal :=
  logWord (.ldl h size sg hint d a b disp) h s (offsetSrc a b fun _ => 0) none
/-- STL (R195). -/
def execStl (h : Hdr) (size : Size) (hint : Hint) (d a : Reg) (b : Src) (disp : Fin 256) (s : State) :
    Host.Outcome State Fault Refusal :=
  logWord (.stl h size hint d a b disp) h s (offsetSrc a b fun v => v.data size d)
    (some (storeItem false b disp (Size.bytes size)))
/-- LDW (R195): 8 bytes at the base plus an immediate. -/
def execLdw (h : Hdr) (d a : Reg) (imm : Fin 262144) (s : State) : Host.Outcome State Fault Refusal :=
  logWord (.ldw h d a imm) h s (wideSrc a (.imm imm) fun _ => 0) none
/-- STW (R195). -/
def execStw (h : Hdr) (d a : Reg) (imm : Fin 262144) (s : State) : Host.Outcome State Fault Refusal :=
  logWord (.stw h d a imm) h s (wideSrc a (.imm imm) fun v => v.data .b64 d) (some (storeItem false (.imm imm) 0 8))
/-- LDK (R195): one address, the lowest active lane's, for all active lanes. -/
def execLdk (h : Hdr) (size : Size) (hint : Hint) (d a : Reg) (b : Src) (disp : Fin 256) (s : State) :
    Host.Outcome State Fault Refusal :=
  logWord (.ldk h size hint d a b disp) h s (wideSrc a b fun _ => 0) none
/-- LDCB (R197): the block index is unsigned. -/
def execLdcb (h : Hdr) (len : CbLen) (d a : Reg) (b : Src) (s : State) : Host.Outcome State Fault Refusal :=
  logWord (.ldcb h len d a b) h s (fun E s t =>
    let v := E.lv s t
    E.src s t (v.r64 a).toNat (v.u32 b).toNat 0 0) none

/-- The address that PREF, CCTL and XLQ compute: as LD without a displacement (R198). -/
def LV.bareAddr (v : LV) (a : Reg) (b : Src) : Int := addrOf (v.r64 a).toNat (v.index b) b 0 1

/-- PREF of one lane (R198): everything that a load would be refused is skipped. -/
def State.prefetchLane (s : State) (t : Nat) (hint : Hint) (e : Int) : State :=
  let T := s.thread t
  let ctx := s.liveCtx T.ctx T.ctxGen
  let a := s.accOf t ctx
  if windowOf e ≠ 0 ∨ e < 0 then s
  else
    match s.l1Find a.core (e.toNat / 64) a.ctx a.tenant with
    | some l => if a.side = 1 then s else s.l1Touch l hint
    | none =>
      match s.resolve a ⟨true, false, true, subLd⟩ (!s.threadOpen T) .any e 1 with
      | (.ok (.mem pa c dev), s1) => (s1.loadPlace a hint e.toNat (.mem (pa / 64 * 64) c dev) 1).2
      | (_, s1) => s1

/-- PREF (R198). -/
def execPref (h : Hdr) (hint : Hint) (a : Reg) (b : Src) (s : State) : Host.Outcome State Fault Refusal :=
  onceWord (.pref h hint a b) h s fun E s1 =>
    E.act.foldl (fun st t => st.prefetchLane t hint ((E.lv s1 t).bareAddr a b)) s1

/-- One lane of CCTL (R199). -/
def State.cctlLane (s : State) (t : Nat) (op : CctlOp) (e : Int) : State :=
  let T := s.thread t
  let a := s.accOf t (s.liveCtx T.ctx T.ctxGen)
  match op with
  | .ivall => s.l1DropTenant a.core a.tenant
  | .ivl =>
    if windowOf e ≠ 0 then s
    else s.l1Drop fun l => l.core == a.core && (l.vline : Int) == e / 64 && l.tag == a.ctx && l.tenant == a.tenant
  | .ivtlb =>
    if windowOf e ≠ 0 ∨ e < 0 then s
    else { s with tlb := s.tlb.filter fun u => !u.covers (clusterOf a.core) a.tenant a.world e.toNat }

/-- CCTL (R199). -/
def execCctl (h : Hdr) (op : CctlOp) (a : Reg) (b : Src) (s : State) : Host.Outcome State Fault Refusal :=
  onceWord (.cctl h op a b) h s fun E s1 =>
    E.act.foldl (fun st t => st.cctlLane t op ((E.lv s1 t).bareAddr a b)) s1

/-- ACP (R201): the count rises at issue, for the lanes that pass their checks in the end; 255 outstanding copies under the
tag make the word wait. -/
def execAcp (h : Hdr) (tag : Fin 8) (hint : Hint) (d a : Reg) (b : Src) (s : State) : Host.Outcome State Fault Refusal :=
  issue (.acp h tag hint d a b) h s fun E s1 =>
    let src (t : Nat) : LaneSrc :=
      let v := E.lv s1 t
      E.src s1 t (v.r64 a).toNat (v.u32 b).toNat (v.r32 d).toNat 0
    let ls := E.act.map src
    if (E.act.any fun t => decide (255 ≤ (s1.thread t).acp.getD tag.val 0)) || s1.lineConflict E.i ls then s1
    else
      let r := s1.postLanes E ls fun l => (1, l.c, l.a, min l.b 32, 32)
      let s2 := r.1.modThreads E.act fun T => { T with acp := listSet T.acp tag.val (T.acp.getD tag.val 0 + 1) }
      E.finish (if ls.isEmpty then s2 else s2.logEntry E r.2) [] E.fall

/-- The condition of ACWAIT holds in a lane (R203). -/
def Thread.acpMet (T : Thread) (mask n : Nat) : Bool :=
  (upFrom 0 8).all fun k => !bitOf mask k || decide (T.acp.getD k 0 ≤ n)

/-- ECC-UNCORR of copies that failed, for the tags that an ACWAIT names (R202): the causes, and the threads without them. -/
def State.acpErrors (s : State) (mask : Nat) (ts : List Nat) : List LaneCause × State :=
  let bad (T : Thread) : FMap Nat := T.acpEcc.filter fun p => bitOf mask p.1
  let cs := ts.filterMap fun t => match bad (s.thread t) with
    | p :: _ => some ⟨t, cEccUncorr, p.2, 0⟩
    | [] => none
  (cs, s.modThreads (cs.map LaneCause.thread) fun T => { T with acpEcc := T.acpEcc.filter fun p => !bitOf mask p.1 })

/-- ACWAIT (R203). -/
def execAcwait (h : Hdr) (mask n : Fin 256) (s : State) : Host.Outcome State Fault Refusal :=
  issue (.acwait h mask n) h s fun E s1 =>
    if E.act.all fun t => (s1.thread t).acpMet mask.val n.val then
      let r := s1.acpErrors mask.val E.act
      E.finish r.2 r.1 E.fall
    else E.await s1 [] (.acwait mask.val n.val E.act)

/-- ACQRY (R203): a follower takes its leader's counts (R328). -/
def execAcqry (h : Hdr) (d : Reg) (s : State) : Host.Outcome State Fault Refusal :=
  issue (.acqry h d) h s fun E s1 =>
    s1.shared false 4 (fun v =>
      (none, BitVec.ofNat 64 ((v.T.acp.zipIdx).foldl (fun x p => x + p.1 % 256 * 2 ^ (8 * p.2)) 0))) (w64 d) E

/-- The value of XLQ (Table 8-12). -/
def State.xlqValue (s : State) (t : Nat) (e : Int) : DWord :=
  let a := s.accOf t 0
  if e < 0 ∨ 2 ^ 52 ≤ e then 0
  else if windowOf e ≠ 0 then BitVec.ofNat 64 (windowOf e)
  else
    match (s.entryFor (clusterOf a.core) a.tenant a.world e.toNat).1 with
    | none => 0
    | some d =>
      if pteWorld d ≠ a.world then 0
      else BitVec.ofNat 64 (2 ^ 63 + bitsOf d.toNat 56 7 * 2 ^ 56 +
        (if a.world = 0 then bitsOf d.toNat 12 32 * 2 ^ 12 else 0))

/-- XLQ (R200): the walk's entry enters the TLB. -/
def execXlq (h : Hdr) (d a : Reg) (b : Src) (s : State) : Host.Outcome State Fault Refusal :=
  issue (.xlq h d a b) h s fun E s1 =>
    let s2 := E.act.foldl (fun st t =>
      let e := (E.lv s1 t).bareAddr a b
      let c := s1.accOf t 0
      if e < 0 ∨ 2 ^ 52 ≤ e ∨ windowOf e ≠ 0 then st else (st.entryFor (clusterOf c.core) c.tenant c.world e.toNat).2) s1
    s2.shared true 0 (fun v => (none, v.s.xlqValue v.t (v.bareAddr a b))) (w64 d) E

/-! ## Events -/

/-- A block has an access to a scratchpad bank in flight that it issued before a number, ACP fills among them (R153). -/
def State.spadBusy (s : State) (b core k age : Nat) : Bool :=
  (s.acps.any fun p => p.2.block == b && coreOf p.2.thread == core && spadBankOf p.2.dst == k && decide (p.2.age < age)) ||
  s.opLog.any fun p => p.2.block == b && p.2.seq / 4 == core && !p.2.dormant && decide (p.2.age < age) && p.2.lanes.any fun l =>
    match (s.laneCheck p.2.instr l).1 with
    | .ok sps => sps.any fun sp => sp.bank == some (core, k)
    | .error _ => false

/-- SCOREBOARD_RESULT (R37): a result becomes visible, but not in a quarter that has gone OFF since (R136). -/
def State.deliverResult (s : State) (p : Inflight) : State :=
  p.writes.foldl (fun s w => match w.dest with
    | .reg n =>
      if s.notLost w.thread n p.origin && (s.thread w.thread).quarter (quarterOf n) != .off then
        s.modThread w.thread fun T => T.setReg n w.val
      else s
    | .pred k => s.modThread w.thread fun T => T.setPred k (w.val != 0)) s

/-- The core of a thread in flight. -/
def Inflight.core (p : Inflight) : Nat :=
  match p.writes, p.drops with
  | w :: _, _ => coreOf w.thread
  | [], d :: _ => d.1 / 16
  | [], [] => 0

/-- A result may become visible: its latency is over, and the block's earlier accesses to the banks that it drops are (R153). -/
def State.resultDue (s : State) (p : Inflight) : Bool :=
  decide (p.ready ≤ s.clk p.core) && p.drops.all fun d => !s.spadBusy p.block (d.1 / 16) (d.1 % 16) p.origin

/-- SCOREBOARD_RESULT (R37); with the status of an SPDROP its banks change (R153). A bank that is OFF stays so (R140). -/
def execScoreboardResult (id : Nat) (s : State) : Host.Outcome State Fault Refusal :=
  event s ((s.inflight.find id).any s.resultDue) fun s =>
    match s.inflight.find id with
    | some p =>
      let s1 := p.drops.foldl (fun s d => if s.spadBank (d.1 / 16) (d.1 % 16) = .off then s else s.setSpad (d.1 / 16) (d.1 % 16) d.2)
        (s.deliverResult p)
      { s1 with inflight := s.inflight.del id }
    | none => s

/-- STORE_ACK (R196, R237): L2 acknowledges a store, whose lines count as undrained. -/
def execStoreAck (id : Nat) (s : State) : Host.Outcome State Fault Refusal :=
  event s (s.pendStores.find id).isSome fun s =>
    match s.pendStores.find id with
    | some p => { s with pendStores := s.pendStores.del id }.addDrain p.tenant p.lines
    | none => s

/-- HOST_COHERENCE_DRAIN (R237): some lines of a tenant are ordered at the host coherence point. -/
def execHostCoherenceDrain (tenant lines : Nat) (s : State) : Host.Outcome State Fault Refusal :=
  event s (decide (0 < lines ∧ lines ≤ s.drain.findD tenant 0)) fun s =>
    { s with drain := s.drain.store 0 tenant (s.drain.findD tenant 0 - lines) }

/-- The oldest copy of its thread under its tag (R201). -/
def State.acpOldest (s : State) (id : Nat) (c : AcpCopy) : Bool :=
  s.acps.all fun p => decide (id ≤ p.1) || p.2.thread != c.thread || p.2.tag != c.tag

/-- The source bytes of a copy: physical runs, of a scratchpad or in the copy's context. -/
def State.copyBytes (s : State) (c : AcpCopy) : List Byte :=
  let ctx := s.liveCtx c.ctx c.gen
  let a := s.accOf c.thread ctx
  c.srcs.flatMap fun r =>
    match s.phys r.1 with
    | .core _ _ => s.bytes r.1 r.2
    | _ => s.l2Bytes a ctx r.1 r.2

/-- ACP_COMPLETE (R201, R202): the bytes are copied and zeros fill the 32 bytes, in order under one tag. The copy waits for a
source line that an engine owns. -/
def execAcpComplete (id : Nat) (s : State) : Host.Outcome State Fault Refusal :=
  event s (match s.acps.find id with
      | some c => s.acpOldest id c && c.srcs.all fun r => !s.owned (r.1 / 64)
      | none => false) fun s =>
    match s.acps.find id with
    | none => s
    | some c =>
      let bs := s.copyBytes c
      let s1 := s.setBytes (spadPa (coreOf c.thread) c.dst) (bs ++ List.replicate (32 - bs.length) 0)
      { s1.modThread c.thread fun T => { T with acp := listSet T.acp c.tag (T.acp.getD c.tag 0 - 1) } with
        acps := s.acps.del id }

/-- The lanes of a group that waits at ACWAIT all meet its condition (R203). -/
def State.acwaitMet (s : State) (g : Nat) : Bool :=
  match s.groups.find g with
  | some G => match G.wait with
    | some (.acwait mask n ls) => ls.all fun t => (s.thread t).acpMet mask n
    | _ => false
  | none => false

/-- ACWAIT_MET (R203): lanes with a failed copy raise ECC-UNCORR at the word; the others go on. -/
def execAcwaitMet (group : Nat) (s : State) : Host.Outcome State Fault Refusal :=
  event s (s.acwaitMet group) fun s =>
    match s.groups.find group with
    | none => s
    | some G =>
      match G.wait with
      | some (.acwait mask _ ls) =>
        let r := s.acpErrors mask ls
        if r.1.isEmpty then r.2.resume group (G.pc + 8)
        else
          let bad := r.1.map LaneCause.thread
          let G1 := { G with wait := none }
          ((r.2.modThreads bad fun T => { T with again := true }).setGroup group G1).finish group G1
            ((G.lanes.filter fun t => !bad.contains t).map fun t => (t, G.pc + 8)) r.1
            (G.lanes.filter bad.contains)
      | _ => s

end Machine
end Sys2Proof
end

