-- ==== Sys2Proof/Machine/Banks.lean ====
section
/-!
DEFINITION. The bank forms of class 6 (R150 to R153), and the end of a bank's wake (R137).
-/

namespace Sys2Proof
namespace Machine

/-- The code that BKQRY gives for a scratchpad bank (Table 6-9). -/
def State.spadCode (s : State) (tenant core k : Nat) : Nat :=
  if s.quarterOwner core (k / 4) = some tenant then (s.spadBank core k).code else 3

/-- The value of BKQRY (Table 6-10). -/
def State.bkqryValue (s : State) (t : Nat) : DWord :=
  let T := s.thread t
  let tenant := (s.recOf T.block).tenant
  let field (n lo : Nat) (f : Nat → Nat) : Nat := sumOf ((upFrom 0 n).map fun k => f k * 2 ^ (lo + 2 * k))
  BitVec.ofNat 64 (field 4 0 (fun q => (T.quarter q).code) + field 4 8 (fun q => (s.bankState (seqOf t) q t).code) +
    field 16 16 (s.spadCode tenant (coreOf t)))

/-- BKQRY (R151): a follower takes its leader's value (R328). -/
def execBkqry (h : Hdr) (d : Reg) (s : State) : Host.Outcome State Fault Refusal :=
  issue (.bkqry h d) h s fun E s1 => s1.shared false 4 (fun v => (none, v.s.bkqryValue v.t)) (w64 d) E

/-- The quarters that a mask names. -/
def maskQuarters (mask : Nat) : List Nat := (upFrom 0 4).filter (bitOf mask)

/-- BKWAKE (R152). -/
def execBkwake (h : Hdr) (mask : Fin 16) (s : State) : Host.Outcome State Fault Refusal :=
  onceWord (.bkwake h mask) h s fun E s1 =>
    E.act.foldl (fun s t => (maskQuarters mask.val).foldl (fun s q => s.raiseQuarter t q) s) s1

/-- BKDROP (R152). -/
def execBkdrop (h : Hdr) (off : Bool) (mask : Fin 16) (s : State) : Host.Outcome State Fault Refusal :=
  onceWord (.bkdrop h off mask) h s fun E s1 =>
    E.act.foldl (fun s t => (maskQuarters mask.val).foldl (fun s q => s.lowerQuarter t q off) s) s1

/-- Bank `k` of a core holds an allocated byte of a resident block other than `b`. -/
def State.bankShared (s : State) (b core k : Nat) : Bool :=
  s.blocks.any fun p => p.1 != b && p.2.residence == .resident && (s.coresOf p.1).contains core &&
    overlaps p.2.spadAt (s.recOf p.1).spad (0x20000 * k) 0x20000

/-- The status of one lane of SPWAKE or SPDROP (R153). -/
def State.spadStatus (s : State) (b core x : Nat) (drop : Bool) : Nat :=
  let k := x % 16
  if x / 32 ≠ 0 ∨ (!drop ∧ bitOf x 4) then 3
  else if s.quarterOwner core (k / 4) ≠ some (s.recOf b).tenant then 2
  else if drop && s.bankShared b core k then 1
  else 0

/-- The lanes that act, as (bank, target OFF), each bank once, by its lowest lane. -/
def spadActs (xs : List (Nat × Nat)) : List (Nat × Bool) :=
  (xs.filter fun p => p.2 == 0).foldl (fun l p =>
    if l.any fun q => q.1 == p.1 % 16 then l else l ++ [(p.1 % 16, bitOf p.1 4)]) []

/-- SPWAKE and SPDROP (R153). A bank that the block's earlier accesses are still to reach changes with the word's status, which waits for
them on the scoreboard; a word whose status goes to a queue register waits itself (log 51). A bank that is OFF stays so at an SPDROP
(R140). -/
def spadWord (i : Instr) (h : Hdr) (d : Reg) (b : Src) (drop : Bool) (s : State) : Host.Outcome State Fault Refusal :=
  issue i h s fun E s1 =>
    let blk := E.G.block
    let core := E.G.core
    let x (t : Nat) : Nat := ((E.lv s1 t).s32 b).toNat
    let st := E.act.map fun t => (x t, s1.spadStatus blk core (x t) drop)
    let acts := spadActs st
    let busy (k : Nat) : Bool := drop && s1.spadBusy blk core k s1.nextId
    let late := acts.filter fun a => busy a.1
    if (acts.any fun a => s1.dropPending blk core a.1 s1.nextId) || (!late.isEmpty && d.queue?.isSome) then s1
    else
      let target (off : Bool) : QState := if !drop then .full else if off then .off else .ret
      let outs := E.act.map fun t => (t, w32 d (BitVec.ofNat 32 (s1.spadStatus blk core (x t) drop)))
      let s2 := acts.foldl (fun s a => if busy a.1 || (drop && s.spadBank core a.1 == .off) then s
        else s.setSpad core a.1 (target a.2)) s1
      let ready := maxOf (acts.map fun a => s2.spadWakes.findD (16 * core + a.1) E.clk)
      E.finish (((s2.popQueues E).writeTracked E (ready - E.clk) false outs
        (late.map fun a => (16 * core + a.1, target a.2))).pushAll E outs) [] E.fall

/-- SPWAKE (R153). -/
def execSpwake (h : Hdr) (d : Reg) (b : Src) (s : State) : Host.Outcome State Fault Refusal :=
  spadWord (.spwake h d b) h d b false s
/-- SPDROP (R153). -/
def execSpdrop (h : Hdr) (d : Reg) (b : Src) (s : State) : Host.Outcome State Fault Refusal :=
  spadWord (.spdrop h d b) h d b true s

/-- BANK_WAKE_COMPLETE (R137): the latency of Table 6-2 is over. -/
def execBankWakeComplete (w : WakeTarget) (s : State) : Host.Outcome State Fault Refusal :=
  match w with
  | .reg t q => event s (match (s.thread t).wakes.find q with
      | some c => decide (c ≤ s.clk (coreOf t))
      | none => false) fun s => s.modThread t fun T => { T with wakes := T.wakes.del q }
  | .spad core k => event s (match s.spadWakes.find (16 * core + k) with
      | some c => decide (c ≤ s.clk core)
      | none => false) fun s => { s with spadWakes := s.spadWakes.del (16 * core + k) }

end Machine
end Sys2Proof
end

