-- ==== Sys2Proof/Machine/LogEvents.lean ====
section
/-!
DEFINITION. The events of the operand log: an entry whose lanes pass their checks and is performed (R191, R192), an entry with a
late fault (R193), and a write that has waited too long for room in the overlay (R214).
-/

namespace Sys2Proof
namespace Machine

/-- The model's own item with the outcome of one lane of a leader's LDCX, for its follower (R228): the value, or one more than
the cause with its address and subcode. -/
def kindLdcx : Nat := 13

/-- The word is a LDCX. -/
def isLdcx : Instr → Bool
  | .ldcx .. => true
  | _ => false

/-- The leader's outcome for a lane of a follower's LDCX. -/
def State.ldcxItem (s : State) (b : Nat) (l : LaneSrc) : Option Item :=
  (s.block b).items.find? fun i => i.kind == kindLdcx && i.slot == slotOf l.thread && i.n == l.d

/-- The leader keeps the outcomes of some lanes of a LDCX. -/
def State.keepLdcx (s : State) (e : LogEntry) (cs : List LaneCause) (oks : List (LaneSrc × List Spot)) : State :=
  if !s.paired e.block || s.isFollower e.block (e.seq / 4) || !isLdcx e.instr then s
  else
    let item (l : LaneSrc) (data extra addr sub : Nat) : Item :=
      ⟨0, slotOf l.thread, l.d, kindLdcx, e.pc, addr, data, extra, sub, 0, [], s.now⟩
    let good := oks.map fun o =>
      item o.1 (leNat (s.readSpots s (s.accOf o.1.thread (s.liveCtx (o.1.c % 65536) (o.1.c / 65536))) .cg o.2).1) 0 0 0
    let bad := e.lanes.filterMap fun l => (cs.find? fun c => c.thread == l.thread).map fun c =>
      item l 0 (c.cause + 1) c.addr c.sub
    s.modBlock e.block fun B => { B with items := B.items ++ good ++ bad }

/-- How the access of an entry stands. -/
inductive Access where
  /-- nothing to be done now -/
  | none
  /-- every check has passed, and the access still waits: the state with its banks waking -/
  | passed (s : State)
  /-- the access is made -/
  | made (s : State)
  /-- the access is made for the lanes without a cause; the others fault -/
  | faults (cs : List LaneCause) (s : State)
  /-- the overlay has no room for some lanes: the causes they would get, and the state after the others -/
  | noRoom (cs : List LaneCause) (s : State)

/-- The fault address of a lane for CTX-POOL. -/
def State.laneAddr (s : State) (i : Instr) (l : LaneSrc) : Nat :=
  match s.partsOf i l with
  | p :: _ => (p.e % 2 ^ 52).toNat
  | [] => 0

/-- Performs the lanes of an entry that have passed their checks. -/
def State.performAny (s : State) (e : LogEntry) (oks : List (LaneSrc × List Spot)) : List LaneSrc × State :=
  match e.instr, oks with
  | .accld .., (l, sps) :: _ | .accst .., (l, sps) :: _ | .mout .., (l, sps) :: _ =>
    let r := s.performTile e l sps
    (if r.1.isEmpty then [] else oks.map Prod.fst, r.2)
  | _, _ => s.perform e oks

/-- The lanes of a follower's LDCX take their leader's outcomes (R228). -/
def State.takeLdcx (s : State) (e : LogEntry) : Access :=
  let its := e.lanes.map fun l => (l, s.ldcxItem e.block l)
  if its.all fun p => p.2.isSome then
    let cs := its.filterMap fun p => p.2.bind fun i =>
      if i.extra = 0 then Option.none else some (⟨p.1.thread, i.extra - 1, i.addr, i.size⟩ : LaneCause)
    let vals := its.filterMap fun p => p.2.bind fun i =>
      if i.extra = 0 then some (p.1.thread, loadWrites e.instr i.data) else Option.none
    let s1 := e.lanes.foldl (fun s l => s.modBlock e.block fun B =>
      { B with items := dropFirst (fun i => i.kind == kindLdcx && i.slot == slotOf l.thread && i.n == l.d) B.items }) s
    let s2 := s1.deliverWrites e vals
    if cs.isEmpty then .made s2 else .faults cs s2
  else .none

/-- How the access of a live entry stands (R191 to R193). PUSH has its own course (R278); a WAITV whose checks have passed is
re-read by its own events (R256). -/
def State.access (s : State) (id : Nat) (e : LogEntry) : Access :=
  if e.dormant || (pushKind e.instr).isSome || !s.awake e.block then .none
  else if isLdcx e.instr && s.isFollower e.block (e.seq / 4) then s.takeLdcx e
  else
    match s.lanesCheck e.instr e.lanes with
    | (cs, oks, s1) =>
      let passed : Access :=
        if e.freed then .none
        else .passed { s1.wakeSpots (oks.flatMap Prod.snd) with
          opLog := s1.opLog.put id { e with freed := true, since := s.now } }
      if (oks.flatMap Prod.snd).any fun sp => sp.bank.any fun b => s1.dropPending e.block b.1 b.2 e.age then .none
      else if isWaitv e.instr then (if cs.isEmpty then passed else .faults cs s1)
      else
        let few := if isShared e.instr then oks.take 1 else oks
        if !(s1.atomReady e oks && s1.placesReady e few) then (if cs.isEmpty then passed else .none)
        else
          let r := (s1.keepLdcx e cs oks).performAny e oks
          let full := r.1.map fun l => (⟨l.thread, cCtxPool, s.laneAddr e.instr l, 0⟩ : LaneCause)
          if !full.isEmpty then .noRoom (cs ++ full) r.2
          else if cs.isEmpty then .made r.2 else .faults cs r.2

/-- OPERAND_LOG_ENTRY_FREED (R191): every lane passes every check. The entry leaves the log; the access is made at once, or when
what it still waits for has come. A write that meets a full overlay begins its wait for room (R214). -/
def execOperandLogEntryFreed (entry : Nat) (s : State) : Host.Outcome State Fault Refusal :=
  match s.opLog.find entry with
  | none => .next s
  | some e =>
    match pushKind e.instr with
    | some kind => event s (s.pushReady entry e) fun s => s.pushGo entry e kind
    | none =>
      match s.access entry e with
      | .passed s1 => .next s1
      | .made s1 => .next (s1.dropEntry entry)
      | .noRoom _ _ => .next (if e.poolAt = 0 then { s with opLog := s.opLog.put entry { e with poolAt := s.now + 1 } } else s)
      | _ => .next s

/-- LOGGED_ACCESS_FAULT (R193): lanes that fail a check fault late; the others are performed. -/
def execLoggedAccessFault (entry : Nat) (s : State) : Host.Outcome State Fault Refusal :=
  match s.opLog.find entry with
  | none => .next s
  | some e =>
    match s.access entry e with
    | .faults cs s1 => .next (s1.faultLanes entry e cs)
    | _ => .next s

/-- CTX_POOL_TIMEOUT (R214): a write has waited 100 µs for room in the overlay, from when it met it full. -/
def execCtxPoolTimeout (entry : Nat) (s : State) : Host.Outcome State Fault Refusal :=
  match s.opLog.find entry with
  | none => .next s
  | some e =>
    match s.access entry e with
    | .noRoom cs s1 => .next (if e.poolAt ≠ 0 ∧ e.poolAt + 100 * Config.us ≤ s.now + 1 then s1.faultLanes entry e cs else s)
    | _ => .next s

end Machine
end Sys2Proof
end

