-- ==== Sys2Proof/Decode.lean ====
section
/-!
DEFINITION. The decoder and the encoder of instruction words. The decoder is total: a pattern that is no instruction gives
`Instr.illegalEncoding` with the name of what is wrong (R50). It reads the fields of Table 2-1 or 2-6, reads each field by
the row of its form, and then accepts the word only if its operands pass the checks of WellFormed and if the encoder gives
the same word back, which is how a nonzero unused field is refused (R31).
-/

namespace Sys2Proof

/-- Rounding codes (Table 2-3). -/
def Rnd.code : Rnd → Nat
  | .rn => 0
  | .rz => 1
  | .rd => 2
  | .ru => 3

/-- The Rnd of a code; a reserved code is refused. -/
def Rnd.ofCode : Nat → Except DecodeError Rnd
  | 0 => .ok .rn
  | 1 => .ok .rz
  | 2 => .ok .rd
  | 3 => .ok .ru
  | _ => .error .reservedCode

/-- Size codes (Table 2-3). -/
def Size.code : Size → Nat
  | .b8 => 0
  | .b16 => 1
  | .b32 => 2
  | .b64 => 3
  | .b128 => 4

/-- The Size of a code; a reserved code is refused. -/
def Size.ofCode : Nat → Except DecodeError Size
  | 0 => .ok .b8
  | 1 => .ok .b16
  | 2 => .ok .b32
  | 3 => .ok .b64
  | 4 => .ok .b128
  | _ => .error .reservedCode

/-- Float format codes (Table 2-3). -/
def FFmt.code : FFmt → Nat
  | .f32 => 0
  | .h2 => 1
  | .bh2 => 2
  | .f16 => 3
  | .bf16 => 4

/-- The FFmt of a code; a reserved code is refused. -/
def FFmt.ofCode : Nat → Except DecodeError FFmt
  | 0 => .ok .f32
  | 1 => .ok .h2
  | 2 => .ok .bh2
  | 3 => .ok .f16
  | 4 => .ok .bf16
  | _ => .error .reservedCode

/-- Scope codes (Table 2-3). -/
def Scope.code : Scope → Nat
  | .blk => 0
  | .cls => 1
  | .slc => 2
  | .dev => 3
  | .sys => 4

/-- The Scope of a code; a reserved code is refused. -/
def Scope.ofCode : Nat → Except DecodeError Scope
  | 0 => .ok .blk
  | 1 => .ok .cls
  | 2 => .ok .slc
  | 3 => .ok .dev
  | 4 => .ok .sys
  | _ => .error .reservedCode

/-- Order codes (Table 2-3). -/
def Order.code : Order → Nat
  | .rlx => 0
  | .acq => 1
  | .rel => 2
  | .ar => 3
  | .sc => 4

/-- The Order of a code; a reserved code is refused. -/
def Order.ofCode : Nat → Except DecodeError Order
  | 0 => .ok .rlx
  | 1 => .ok .acq
  | 2 => .ok .rel
  | 3 => .ok .ar
  | 4 => .ok .sc
  | _ => .error .reservedCode

/-- Cache hint codes (Table 2-3). -/
def Hint.code : Hint → Nat
  | .ca => 0
  | .cg => 1
  | .st => 2

/-- The Hint of a code; a reserved code is refused. -/
def Hint.ofCode : Nat → Except DecodeError Hint
  | 0 => .ok .ca
  | 1 => .ok .cg
  | 2 => .ok .st
  | _ => .error .reservedCode

/-- Comparison codes (Table 6-3). -/
def Cmp.code : Cmp → Nat
  | .eq => 0
  | .ne => 1
  | .lt => 2
  | .le => 3
  | .gt => 4
  | .ge => 5

/-- The Cmp of a code; a reserved code is refused. -/
def Cmp.ofCode : Nat → Except DecodeError Cmp
  | 0 => .ok .eq
  | 1 => .ok .ne
  | 2 => .ok .lt
  | 3 => .ok .le
  | 4 => .ok .gt
  | 5 => .ok .ge
  | _ => .error .reservedCode

/-- Comparison codes (Table 7-7). -/
def FCmp.code : FCmp → Nat
  | .eq => 0
  | .ne => 1
  | .lt => 2
  | .le => 3
  | .gt => 4
  | .ge => 5
  | .num => 6
  | .nan => 7
  | .equ => 8
  | .neu => 9
  | .ltu => 10
  | .leu => 11
  | .gtu => 12
  | .geu => 13

/-- The FCmp of a code; a reserved code is refused. -/
def FCmp.ofCode : Nat → Except DecodeError FCmp
  | 0 => .ok .eq
  | 1 => .ok .ne
  | 2 => .ok .lt
  | 3 => .ok .le
  | 4 => .ok .gt
  | 5 => .ok .ge
  | 6 => .ok .num
  | 7 => .ok .nan
  | 8 => .ok .equ
  | 9 => .ok .neu
  | 10 => .ok .ltu
  | 11 => .ok .leu
  | 12 => .ok .gtu
  | 13 => .ok .geu
  | _ => .error .reservedCode

/-- Combining codes of ISETP, ISETP64 and FSETP (R143, R163). -/
def PComb.code : PComb → Nat
  | .none => 0
  | .and => 1
  | .or => 2
  | .xor => 3

/-- The PComb of a code; a reserved code is refused. -/
def PComb.ofCode : Nat → Except DecodeError PComb
  | 0 => .ok .none
  | 1 => .ok .and
  | 2 => .ok .or
  | 3 => .ok .xor
  | _ => .error .reservedCode

/-- Operation codes of PSET (R143). -/
def PsetOp.code : PsetOp → Nat
  | .and => 0
  | .or => 1
  | .xor => 2

/-- The PsetOp of a code; a reserved code is refused. -/
def PsetOp.ofCode : Nat → Except DecodeError PsetOp
  | 0 => .ok .and
  | 1 => .ok .or
  | 2 => .ok .xor
  | _ => .error .reservedCode

/-- Mode codes of SHFL (R143). -/
def ShflMode.code : ShflMode → Nat
  | .idx => 0
  | .up => 1
  | .down => 2
  | .bfly => 3

/-- The ShflMode of a code; a reserved code is refused. -/
def ShflMode.ofCode : Nat → Except DecodeError ShflMode
  | 0 => .ok .idx
  | 1 => .ok .up
  | 2 => .ok .down
  | 3 => .ok .bfly
  | _ => .error .reservedCode

/-- Mode codes of VOTE (R143). -/
def VoteMode.code : VoteMode → Nat
  | .ballot => 0
  | .all => 1
  | .any => 2
  | .eq => 3

/-- The VoteMode of a code; a reserved code is refused. -/
def VoteMode.ofCode : Nat → Except DecodeError VoteMode
  | 0 => .ok .ballot
  | 1 => .ok .all
  | 2 => .ok .any
  | 3 => .ok .eq
  | _ => .error .reservedCode

/-- Type codes of CVT (R163). -/
def CvtType.code : CvtType → Nat
  | .f32 => 0
  | .f16 => 1
  | .bf16 => 2
  | .s8 => 3
  | .z8 => 4
  | .s16 => 5
  | .z16 => 6
  | .s32 => 7
  | .z32 => 8
  | .s64 => 9
  | .z64 => 10

/-- The CvtType of a code; a reserved code is refused. -/
def CvtType.ofCode : Nat → Except DecodeError CvtType
  | 0 => .ok .f32
  | 1 => .ok .f16
  | 2 => .ok .bf16
  | 3 => .ok .s8
  | 4 => .ok .z8
  | 5 => .ok .s16
  | 6 => .ok .z16
  | 7 => .ok .s32
  | 8 => .ok .z32
  | 9 => .ok .s64
  | 10 => .ok .z64
  | _ => .error .reservedCode

/-- Operation codes of AMO and RED (Table 10-5). -/
def AtomOp.code : AtomOp → Nat
  | .add => 0
  | .and => 1
  | .or => 2
  | .xor => 3
  | .exch => 4
  | .smin => 5
  | .smax => 6
  | .zmin => 7
  | .zmax => 8
  | .inc => 9
  | .dec => 10
  | .fadd => 11
  | .faddH2 => 12
  | .faddBh2 => 13
  | .fmin => 14
  | .fmax => 15

/-- The AtomOp of a code; a reserved code is refused. -/
def AtomOp.ofCode : Nat → Except DecodeError AtomOp
  | 0 => .ok .add
  | 1 => .ok .and
  | 2 => .ok .or
  | 3 => .ok .xor
  | 4 => .ok .exch
  | 5 => .ok .smin
  | 6 => .ok .smax
  | 7 => .ok .zmin
  | 8 => .ok .zmax
  | 9 => .ok .inc
  | 10 => .ok .dec
  | 11 => .ok .fadd
  | 12 => .ok .faddH2
  | 13 => .ok .faddBh2
  | 14 => .ok .fmin
  | 15 => .ok .fmax
  | _ => .error .reservedCode

/-- Operation codes of CCTL (Table 8-10). -/
def CctlOp.code : CctlOp → Nat
  | .ivl => 0
  | .ivall => 1
  | .ivtlb => 2

/-- The CctlOp of a code; a reserved code is refused. -/
def CctlOp.ofCode : Nat → Except DecodeError CctlOp
  | 0 => .ok .ivl
  | 1 => .ok .ivall
  | 2 => .ok .ivtlb
  | _ => .error .reservedCode

/-- Length codes of LDCB (Table 8-10). -/
def CbLen.code : CbLen → Nat
  | .l4 => 0
  | .l8 => 1
  | .l16 => 2

/-- The CbLen of a code; a reserved code is refused. -/
def CbLen.ofCode : Nat → Except DecodeError CbLen
  | 0 => .ok .l4
  | 1 => .ok .l8
  | 2 => .ok .l16
  | _ => .error .reservedCode

/-- Format codes of OBRES (Table 12-7). -/
def ObFmt.code : ObFmt → Nat
  | .bf16 => 0
  | .c4 => 1
  | .c4e8 => 2

/-- The ObFmt of a code; a reserved code is refused. -/
def ObFmt.ofCode : Nat → Except DecodeError ObFmt
  | 0 => .ok .bf16
  | 1 => .ok .c4
  | 2 => .ok .c4e8
  | _ => .error .reservedCode

/-- Format codes of MOUT (Table 12-7). -/
def MoutFmt.code : MoutFmt → Nat
  | .bf16 => 0
  | .f16 => 1
  | .c4e8 => 2

/-- The MoutFmt of a code; a reserved code is refused. -/
def MoutFmt.ofCode : Nat → Except DecodeError MoutFmt
  | 0 => .ok .bf16
  | 1 => .ok .f16
  | 2 => .ok .c4e8
  | _ => .error .reservedCode

/-- Engine kinds (Table 11-1). -/
def EngKind.code : EngKind → Nat
  | .cgs => 0
  | .vox => 1
  | .sort => 2
  | .sec => 3

/-- The EngKind of a code; a reserved code is refused. -/
def EngKind.ofCode : Nat → Except DecodeError EngKind
  | 0 => .ok .cgs
  | 1 => .ok .vox
  | 2 => .ok .sort
  | 3 => .ok .sec
  | _ => .error .reservedCode

/-- Bindings of QBIND (Table 11-12). -/
def QBinding.code : QBinding → Nat
  | .none => 0
  | .cgs => 1
  | .vox => 2

/-- The QBinding of a code; a reserved code is refused. -/
def QBinding.ofCode : Nat → Except DecodeError QBinding
  | 0 => .ok .none
  | 1 => .ok .cgs
  | 2 => .ok .vox
  | _ => .error .reservedCode

/-- Pair opcodes (Table 2-8). -/
def PairOp.code : PairOp → Nat
  | .mov => 0x01
  | .iadd => 0x02
  | .isub => 0x03
  | .imul => 0x04
  | .and => 0x05
  | .or => 0x06
  | .xor => 0x07
  | .shl => 0x08
  | .shrZ => 0x09
  | .shrS => 0x0A
  | .iminS => 0x0B
  | .imaxS => 0x0C
  | .iminZ => 0x0D
  | .imaxZ => 0x0E
  | .lea => 0x0F
  | .fadd => 0x10
  | .fsub => 0x11
  | .fmul => 0x12
  | .fmin => 0x13
  | .fmax => 0x14
  | .faddH2 => 0x15
  | .fmulH2 => 0x16
  | .cvtF32S32 => 0x17

/-- The pair operation of an OPC6 other than NOP. -/
def PairOp.ofCode : Nat → Except DecodeError PairOp
  | 0x01 => .ok .mov
  | 0x02 => .ok .iadd
  | 0x03 => .ok .isub
  | 0x04 => .ok .imul
  | 0x05 => .ok .and
  | 0x06 => .ok .or
  | 0x07 => .ok .xor
  | 0x08 => .ok .shl
  | 0x09 => .ok .shrZ
  | 0x0A => .ok .shrS
  | 0x0B => .ok .iminS
  | 0x0C => .ok .imaxS
  | 0x0D => .ok .iminZ
  | 0x0E => .ok .imaxZ
  | 0x0F => .ok .lea
  | 0x10 => .ok .fadd
  | 0x11 => .ok .fsub
  | 0x12 => .ok .fmul
  | 0x13 => .ok .fmin
  | 0x14 => .ok .fmax
  | 0x15 => .ok .faddH2
  | 0x16 => .ok .fmulH2
  | 0x17 => .ok .cvtF32S32
  | _ => .error .unassignedOpcode
/-- The value of a register field (Table 2-2). -/
def Reg.code : Reg → Nat
  | .v n => n.val
  | .q k => 240 + k.val
  | .zero => 248

/-- The register of a field value (Table 2-2). -/
def Reg.ofCode (n : Nat) : Except DecodeError Reg :=
  if h : n < 240 then .ok (.v ⟨n, h⟩)
  else if h : n - 240 < 8 then .ok (.q ⟨n - 240, h⟩)
  else if n = 248 then .ok .zero
  else .error .badRegister

/-- The fields of a full word (Table 2-1). -/
structure Fields where
  stall : Nat
  pneg : Nat
  pred : Nat
  opc : Nat
  d : Nat
  a : Nat
  b : Nat
  qh : Nat
  c : Nat
  deriving DecidableEq, Repr

/-- The fields of a word, [62:0] (Table 2-1). -/
def Fields.ofNat (w : Nat) : Fields where
  stall := bitsOf w 59 4
  pneg := bitsOf w 58 1
  pred := bitsOf w 55 3
  opc := bitsOf w 46 9
  d := bitsOf w 38 8
  a := bitsOf w 30 8
  b := bitsOf w 22 8
  qh := bitsOf w 18 4
  c := bitsOf w 0 18

/-- The word of the fields. -/
def Fields.toNat (f : Fields) : Nat :=
  f.c + f.qh * 2 ^ 18 + f.b * 2 ^ 22 + f.a * 2 ^ 30 + f.d * 2 ^ 38 + f.opc * 2 ^ 46 + f.pred * 2 ^ 55 + f.pneg * 2 ^ 58 +
    f.stall * 2 ^ 59

/-- The release-hint field of a header (R42). -/
def Hdr.qh (h : Hdr) : Nat :=
  match h.hint with
  | none => 0
  | some q => 8 + 4 * bitNat q.off + q.quarter.val

/-- The header of a word (R25, R42). -/
def Hdr.ofFields (f : Fields) : Except DecodeError Hdr :=
  if f.qh = 0 then .ok ⟨Fin.ofNat 16 f.stall, f.pneg == 1, Fin.ofNat 8 f.pred, none⟩
  else if f.qh < 8 then .error .badHint
  else .ok ⟨Fin.ofNat 16 f.stall, f.pneg == 1, Fin.ofNat 8 f.pred, some ⟨bitOf f.qh 2, Fin.ofNat 4 f.qh⟩⟩

/-- A word from its header, opcode and fields D, A, B and C. -/
def enc (h : Hdr) (opc d a b c : Nat) : Fields := ⟨h.stall.val, bitNat h.pneg, h.pred.val, opc, d, a, b, h.qh, c⟩

/-- The B field of a source. -/
def Src.bcode : Src → Nat
  | .reg r => r.code
  | .imm _ => 255

/-- C[17:0] of a form whose register form has `m` there. -/
def Src.ccode (m : Nat) : Src → Nat
  | .reg _ => m
  | .imm c => c.val

/-- The B field and C[17:0] of a source (R27). -/
def Src.ofFields (f : Fields) : Except DecodeError Src :=
  if f.b = 255 then .ok (.imm (Fin.ofNat 262144 f.c))
  else match Reg.ofCode f.b with
    | .ok r => .ok (.reg r)
    | .error e => .error e

/-- The register of a source in a form without an immediate form. -/
def Src.asReg : Src → Except DecodeError Reg
  | .reg r => .ok r
  | .imm _ => .error .badRegister

/-- The immediate of a form that has only an immediate form. -/
def Src.asImm : Src → Except DecodeError (Fin 262144)
  | .reg _ => .error .badRegister
  | .imm c => .ok c

/-- A modifier of the register form, or the default that the immediate form takes (R27). -/
def Src.mod (b : Src) (c lo w dflt : Nat) : Nat := if b.isImm then dflt else bitsOf c lo w

/-- A field that names a register `vN` of a codebook, a command or a descriptor. -/
def vreg (n : Nat) : Except DecodeError (Fin 240) :=
  if h : n < 240 then .ok ⟨n, h⟩ else .error .queueRegister

/-- A field of local numbers or predicates, with its high bits zero. -/
def small (n : Nat) : Except DecodeError (Fin 8) :=
  if h : n < 8 then .ok ⟨n, h⟩ else .error .unusedNonzero

/-- A queue field: 240 to 247 (Table 11-12). -/
def qfield (n : Nat) : Except DecodeError (Fin 8) :=
  if h : 240 ≤ n ∧ n - 240 < 8 then .ok ⟨n - 240, h.2⟩ else .error .badRegister

/-- A select field (R116). -/
def Sel.ofCode (n : Nat) : Except DecodeError Sel :=
  if n = 248 then .ok .stack else if h : n < 240 then .ok (.link ⟨n, h⟩) else .error .queueRegister

/-- The value of a select field. -/
def Sel.code : Sel → Nat
  | .stack => 248
  | .link n => n.val

/-- A predicate source in bits `lo + 3` and `[lo + 2 : lo]`. -/
def PSrc.ofBits (c lo : Nat) : PSrc := ⟨Fin.ofNat 8 (bitsOf c lo 3), bitOf c (lo + 3)⟩

/-- The bits of a predicate source. -/
def PSrc.bits (p : PSrc) : Nat := p.k.val + 8 * bitNat p.neg

/-- The predicate source of a form whose immediate form has none. -/
def Src.psrc (b : Src) (c : Nat) : PSrc := if b.isImm then ⟨0, false⟩ else PSrc.ofBits c 8

/-- Class 0 (Table 6-5). -/
def rawAlu (h : Hdr) (o : Nat) (f : Fields) (d a : Reg) (b : Src) : Except DecodeError Instr :=
  let c := f.c
  let sgS := b.mod c 8 1 1 == 1
  let sgZ := b.mod c 8 1 0 == 1
  let rc := Reg.ofCode (c % 256)
  match o with
  | 0x00 => .ok (.nop h)
  | 0x01 => .ok (.mov h d b)
  | 0x02 => do .ok (.movhi h d a (← b.asImm))
  | 0x03 => .ok (.iadd h d a b)
  | 0x04 => .ok (.isub h d a b)
  | 0x05 => .ok (.iadds h sgS d a b)
  | 0x06 => .ok (.isubs h sgS d a b)
  | 0x07 => .ok (.imul h d a b)
  | 0x08 => .ok (.imulh h sgS d a b)
  | 0x09 => do .ok (.imad h d a (← b.asReg) (← rc))
  | 0x0A => do .ok (.imadw h (bitOf c 8) d a (← b.asReg) (← rc))
  | 0x0B => .ok (.iadd64 h d a b)
  | 0x0C => .ok (.isub64 h d a b)
  | 0x0D => .ok (.lea h (Fin.ofNat 8 (b.mod c 8 3 2)) d a b)
  | 0x0E => .ok (.lea64 h (Fin.ofNat 8 (b.mod c 8 3 2)) (b.mod c 11 1 1 == 1) d a b)
  | 0x0F => .ok (.imin h sgS d a b)
  | 0x10 => .ok (.imax h sgS d a b)
  | 0x11 => .ok (.iabs h d a)
  | 0x12 => .ok (.iand h d a b)
  | 0x13 => .ok (.ior h d a b)
  | 0x14 => .ok (.ixor h d a b)
  | 0x15 => do .ok (.bmux h (Fin.ofNat 16 (bitsOf c 12 4)) (Fin.ofNat 16 (bitsOf c 8 4)) d a (← b.asReg) (← rc))
  | 0x16 => .ok (.shl h d a b)
  | 0x17 => .ok (.shr h sgZ d a b)
  | 0x18 => do .ok (.shf h (bitOf c 8) d a (← b.asReg) (← rc))
  | 0x19 => .ok (.rot h d a b)
  | 0x1A => .ok (.popc h d a)
  | 0x1B => .ok (.clz h d a)
  | 0x1C => .ok (.brev h d a)
  | 0x1D => .ok (.bfe h sgZ d a b)
  | 0x1E => do .ok (.bfi h d a (← b.asReg) (← rc))
  | 0x1F => do .ok (.prmt h d a (← b.asReg) (← rc))
  | 0x20 => do
    .ok (.isetp h (← Cmp.ofCode (bitsOf f.d 3 3)) (bitOf f.d 6) (← PComb.ofCode (b.mod c 12 2 0)) (b.psrc c)
      (Fin.ofNat 8 f.d) a b)
  | 0x21 => do
    .ok (.isetp64 h (← Cmp.ofCode (bitsOf f.d 3 3)) (bitOf f.d 6) (← PComb.ofCode (b.mod c 12 2 0)) (b.psrc c)
      (Fin.ofNat 8 f.d) a b)
  | 0x22 => do .ok (.iset h (← Cmp.ofCode (bitsOf c 8 3)) (bitOf c 11) d a (← b.asReg))
  | 0x23 => do .ok (.sel h (PSrc.ofBits c 8) d a (← b.asReg))
  | 0x24 => do .ok (.pset h (← PsetOp.ofCode (bitsOf c 16 2)) (← small f.d) (PSrc.ofBits c 8) (PSrc.ofBits c 12))
  | 0x25 => .ok (.p2v h d)
  | 0x26 => .ok (.v2p h (Fin.ofNat 128 (bitsOf c 8 7)) a)
  | 0x27 => .ok (.hash32 h d a b)
  | 0x28 =>
    match b with
    | .reg r => do .ok (.shfl h (← ShflMode.ofCode (bitsOf c 8 2)) d a (.reg r))
    | .imm _ => do .ok (.shfl h (← ShflMode.ofCode (bitsOf c 5 2)) d a (.imm (Fin.ofNat 262144 (c % 32))))
  | 0x29 => do .ok (.vote h (← VoteMode.ofCode (bitsOf c 12 2)) (PSrc.ofBits c 8) d)
  | 0x2A =>
    if hs : bitsOf c 8 5 < 21 then .ok (.s2v h ⟨bitsOf c 8 5, hs⟩ d) else .error .reservedCode
  | 0x2B => if bitsOf c 8 5 = 18 then .ok (.v2s h a) else .error .reservedCode
  | 0x2C => .ok (.imul64 h d a b)
  | 0x2D => .ok (.mov64 h d b)
  | _ => .error .unassignedOpcode

/-- Class 1 (Table 7-6). -/
def rawFloat (h : Hdr) (o : Nat) (f : Fields) (d a : Reg) (b : Src) : Except DecodeError Instr :=
  let c := f.c
  let rnd := Rnd.ofCode (b.mod c 8 2 0)
  let fmt := FFmt.ofCode (b.mod c 10 3 0)
  let rc := Reg.ofCode (c % 256)
  match o with
  | 0x00 => do .ok (.fadd h (← fmt) (← rnd) d a b)
  | 0x01 => do .ok (.fsub h (← fmt) (← rnd) d a b)
  | 0x02 => do .ok (.fmul h (← fmt) (← rnd) d a b)
  | 0x03 => do .ok (.ffma h (← fmt) (← rnd) d a (← b.asReg) (← rc))
  | 0x04 => do .ok (.fmin h (← fmt) d a b)
  | 0x05 => do .ok (.fmax h (← fmt) d a b)
  | 0x06 => do
    .ok (.fsetp h (← FCmp.ofCode (bitsOf f.d 3 4)) (← PComb.ofCode (b.mod c 12 2 0)) (b.psrc c) (Fin.ofNat 8 f.d) a b)
  | 0x07 => do .ok (.fset h (← FCmp.ofCode (bitsOf c 8 4)) (← FFmt.ofCode (bitsOf c 12 3)) d a (← b.asReg))
  | 0x08 => do .ok (.fclass h (← FFmt.ofCode (bitsOf c 8 3)) d a)
  | 0x09 => .ok (.frcp h d a)
  | 0x0A => .ok (.frsq h d a)
  | 0x0B => do .ok (.fsqrt h (← Rnd.ofCode (bitsOf c 8 2)) d a)
  | 0x0C => .ok (.fexp2 h d a)
  | 0x0D => .ok (.flog2 h d a)
  | 0x0E => .ok (.fsin h d a)
  | 0x0F => .ok (.fcos h d a)
  | 0x10 => .ok (.ftanh h d a)
  | 0x11 => do .ok (.fscale h (← rnd) d a b)
  | 0x12 => do .ok (.frnd h (← Rnd.ofCode (bitsOf c 8 2)) d a)
  | 0x13 => do .ok (.fdot2 h (← fmt) (← rnd) d a (← b.asReg) (← rc))
  | 0x14 => do .ok (.fmed3 h (← fmt) d a (← b.asReg) (← rc))
  | 0x15 => do .ok (.cvt h (← CvtType.ofCode (bitsOf c 10 4)) (← CvtType.ofCode (bitsOf c 14 4))
      (← Rnd.ofCode (bitsOf c 8 2)) d a)
  | 0x16 => do .ok (.cvtpk h (← fmt) (← rnd) d a (← b.asReg))
  | 0x17 => do .ok (.cbenc h d a (← vreg f.b) (← rc))
  | 0x18 => do .ok (.cbdec h (Fin.ofNat 8 (bitsOf c 8 3)) d a (← vreg f.b) (← rc))
  | _ => .error .unassignedOpcode

/-- An optional count in the B position: B = 0 for none, B = 255 for an immediate (Table 5-5). -/
def countOf (f : Fields) (b : Src) : Except DecodeError (Option (Fin 262144)) :=
  if f.b = 0 then .ok none
  else match b with
    | .imm n => .ok (some n)
    | .reg _ => .error .unusedNonzero

/-- Class 2 (Tables 5-5 and 4-6). -/
def rawControl (h : Hdr) (o : Nat) (f : Fields) (d a : Reg) (b : Src) : Except DecodeError Instr :=
  let c := f.c
  match o with
  | 0x00 => do .ok (.bra h (← b.asImm))
  | 0x01 => do .ok (.brd h (← b.asImm))
  | 0x02 => .ok (.brx h a)
  | 0x03 => do .ok (.call h (← Sel.ofCode f.d) (← b.asImm))
  | 0x04 => do .ok (.callx h (← Sel.ofCode f.d) a)
  | 0x05 => do .ok (.ret h (← Sel.ofCode f.a))
  | 0x06 => .ok (.land h)
  | 0x07 => do .ok (.reform h (← Sel.ofCode f.a))
  | 0x08 => .ok (.gpin h)
  | 0x09 => .ok (.gfree h)
  | 0x0A => .ok (.exit h)
  | 0x0B => do .ok (.yield h (← countOf f b))
  | 0x0C => do .ok (.bloop h a (← b.asImm))
  | 0x0D =>
    match b with
    | .imm n => .ok (.ipref h (some n) a (.v 0))
    | .reg r => if bitOf c 8 then .ok (.iprefInv h a r) else .ok (.ipref h none a r)
  | 0x0E => .ok (.launch h d a b)
  | 0x0F => do .ok (.evwait h (← Scope.ofCode (b.mod c 8 3 3)) d a b)
  | 0x10 => do .ok (.evsig h (← Scope.ofCode (b.mod c 8 3 3)) a b)
  | 0x11 => do .ok (.nopw h (← countOf f b))
  | _ => .error .unassignedOpcode

/-- Class 3 (Table 8-10). -/
def rawMemory (h : Hdr) (o : Nat) (f : Fields) (d a : Reg) (b : Src) : Except DecodeError Instr :=
  let c := f.c
  let size := Size.ofCode (b.mod c 8 3 2)
  let sg := b.mod c 11 1 0 == 1
  let hint := Hint.ofCode (b.mod c 12 2 0)
  let disp := Fin.ofNat 256 (b.mod c 0 8 0)
  match o with
  | 0x00 => do .ok (.ld h (← size) sg (← hint) d a b disp)
  | 0x01 => do .ok (.st h (← size) (← hint) d a b disp)
  | 0x02 => do .ok (.lds h (← size) sg d a b disp)
  | 0x03 => do .ok (.sts h (← size) d a b disp)
  | 0x04 => do .ok (.ldl h (← size) sg (← hint) d a b disp)
  | 0x05 => do .ok (.stl h (← size) (← hint) d a b disp)
  | 0x06 => do .ok (.ldw h d a (← b.asImm))
  | 0x07 => do .ok (.stw h d a (← b.asImm))
  | 0x08 => do .ok (.ldk h (← size) (← hint) d a b disp)
  | 0x09 => do .ok (.pref h (← hint) a b)
  | 0x0A => do .ok (.cctl h (← CctlOp.ofCode (b.mod c 8 3 0)) a b)
  | 0x0B => do .ok (.acp h (Fin.ofNat 8 (b.mod c 8 3 0)) (← hint) d a b)
  | 0x0C => do
    let n ← b.asImm
    .ok (.acwait h (Fin.ofNat 256 n.val) (Fin.ofNat 256 (bitsOf n.val 8 8)))
  | 0x0D => .ok (.acqry h d)
  | 0x0E => do .ok (.ldcb h (← CbLen.ofCode (b.mod c 8 2 0)) d a b)
  | 0x0F => .ok (.xlq h d a b)
  | _ => .error .unassignedOpcode

/-- The operand of BAR and BARA, and of BARW without a count (R247). -/
def barArg (f : Fields) (a : Reg) (b : Src) : Except DecodeError BarArg :=
  match b with
  | .imm n => .ok (.imm (Fin.ofNat 16 n.val) (Fin.ofNat 2048 (bitsOf n.val 4 11)))
  | .reg _ => if f.b = 0 then .ok (.reg a) else .error .unusedNonzero

/-- Class 4 (Tables 9-3 and 10-4). -/
def rawOrder (h : Hdr) (o : Nat) (f : Fields) (d a : Reg) (b : Src) : Except DecodeError Instr :=
  let c := f.c
  let rc := Reg.ofCode (c % 256)
  let sc := Scope.ofCode (bitsOf c 8 3)
  let ord := Order.ofCode (bitsOf c 11 3)
  match o with
  | 0x00 => do
    .ok (.amo h (← AtomOp.ofCode (bitsOf c 14 4)) (← Size.ofCode (bitsOf c 0 3)) (← ord) (← sc) d a (← b.asReg))
  | 0x01 => do .ok (.cas h (← Size.ofCode (bitsOf c 14 3)) (← ord) (← sc) d a (← b.asReg) (← rc))
  | 0x02 => do
    .ok (.red h (← AtomOp.ofCode (bitsOf c 14 4)) (← Size.ofCode (bitsOf c 0 3)) (← ord) (← sc) a (← b.asReg))
  | 0x03 => do .ok (.fence h (← ord) (← sc))
  | 0x04 => do .ok (.bar h (← barArg f a b))
  | 0x05 => do .ok (.bara h (← barArg f a b))
  | 0x06 => do .ok (.barw h (← barArg f a b))
  | 0x07 => .ok (.gbar h)
  | 0x08 => .ok (.ssync h)
  | 0x09 => do
    .ok (.waitv h (← Cmp.ofCode (bitsOf c 11 3)) (bitOf c 14) (← Size.ofCode (bitsOf c 15 3)) (← sc) d a (← b.asReg))
  | 0x0A => do
    .ok (.ctxopen h (← sc) (bitOf c 11) (if bitOf c 12 then some (Fin.ofNat 8 (bitsOf c 13 3)) else none) d)
  | 0x0B => .ok (.ctxset h a)
  | 0x0C => .ok (.ctxsettle h a)
  | 0x0D => .ok (.ctxvoid h a)
  | 0x0E => .ok (.ctxq h d a)
  | 0x0F => do .ok (.ldcx h (← Size.ofCode (bitsOf c 8 3)) (bitOf c 11) d a (← b.asReg) (← rc))
  | 0x10 => do .ok (.ctxwait h (← sc) d a)
  | 0x11 => .ok (.ordhead h)
  | _ => .error .unassignedOpcode

/-- Class 5 (Table 12-7). -/
def rawMatrix (h : Hdr) (o : Nat) (f : Fields) (d a : Reg) (b : Src) : Except DecodeError Instr :=
  let c := f.c
  match o with
  | 0x00 => do
    .ok (.obres h (← ObFmt.ofCode (bitsOf c 8 2)) (Fin.ofNat 4 (bitsOf c 10 2)) (← small f.d) a (← b.asReg))
  | 0x01 => do .ok (.obset h (← small f.d) b)
  | 0x02 => do .ok (.obfree h (← small f.d))
  | 0x03 => do .ok (.cbld h (← small f.d) (← vreg f.b))
  | 0x04 => do .ok (.mloop h d (← vreg f.a))
  | 0x05 => .ok (.mwait h a)
  | 0x06 => do .ok (.mzero h (← small f.d))
  | 0x07 => do .ok (.accld h (← small f.d) a b)
  | 0x08 => do .ok (.accst h (← small f.d) a b)
  | 0x09 => do .ok (.mrd h d (← small f.a) b)
  | 0x0A => do
    .ok (.mout h (← MoutFmt.ofCode (bitsOf c 8 2)) (← small f.d) (Fin.ofNat 8 (bitsOf c 10 3)) a (← b.asReg))
  | 0x0B => .ok (.mprog h d a)
  | 0x0C => do .ok (.keybind h (← small f.d) a)
  | _ => .error .unassignedOpcode

/-- Class 6 (Tables 11-12 and 6-8). -/
def rawEngine (h : Hdr) (o : Nat) (f : Fields) (d _a : Reg) (b : Src) : Except DecodeError Instr :=
  let c := f.c
  match o with
  | 0x00 => do .ok (.push h (← small f.d) (← EngKind.ofCode (bitsOf c 8 2)) (← vreg f.a))
  | 0x01 => do .ok (.qbind h (← qfield f.a) (← QBinding.ofCode (bitsOf c 8 2)))
  | 0x02 => do .ok (.qpeek h d (← qfield f.a) b)
  | 0x03 => do .ok (.qcnt h d (← qfield f.a))
  | 0x04 => do .ok (.qdrain h d (← qfield f.a))
  | 0x05 => .ok (.bkqry h d)
  | 0x06 => do
    let n ← b.asImm
    .ok (.bkwake h (Fin.ofNat 16 n.val))
  | 0x07 => do
    let n ← b.asImm
    .ok (.bkdrop h (bitOf n.val 4) (Fin.ofNat 16 n.val))
  | 0x08 => .ok (.spwake h d b)
  | 0x09 => .ok (.spdrop h d b)
  | _ => .error .unassignedOpcode

/-- Class 7 (Table 13-9). -/
def rawSystem (h : Hdr) (o : Nat) (f : Fields) (d a : Reg) (b : Src) : Except DecodeError Instr :=
  match o with
  | 0x00 => do .ok (.trap h (← b.asImm))
  | 0x01 => .ok (.tret h)
  | 0x02 => .ok (.tclr h a)
  | 0x03 => .ok (.trd h d b)
  | 0x04 => do .ok (.tmask h d a (← b.asReg))
  | 0x05 => .ok (.ologq h d b)
  | 0x06 => do .ok (.brk h (← b.asImm))
  | 0x07 => .ok (.sysrd h d b)
  | 0x08 => .ok (.syswr h a b)
  | 0x09 => .ok (.cntrd h d b)
  | 0x0A => do .ok (.psafe h (← small f.d))
  | 0x0B => .ok (.ilq h d)
  | 0x0C => .ok (.halt h)
  | 0x0D => .ok (.mbox h (bitOf f.c 8) d a)
  | _ => .error .unassignedOpcode

/-- The instruction that a full word's fields name, before the checks on its operands. The class is OPC[8:6] (Table 2-9). -/
def rawFull (f : Fields) : Except DecodeError Instr := do
  let h ← Hdr.ofFields f
  let d ← Reg.ofCode f.d
  let a ← Reg.ofCode f.a
  let b ← Src.ofFields f
  match f.opc / 64 with
  | 0 => rawAlu h (f.opc % 64) f d a b
  | 1 => rawFloat h (f.opc % 64) f d a b
  | 2 => rawControl h (f.opc % 64) f d a b
  | 3 => rawMemory h (f.opc % 64) f d a b
  | 4 => rawOrder h (f.opc % 64) f d a b
  | 5 => rawMatrix h (f.opc % 64) f d a b
  | 6 => rawEngine h (f.opc % 64) f d a b
  | _ => rawSystem h (f.opc % 64) f d a b

/-- The 28 bits of a pair slot (Table 2-7). -/
def PairSlot.toNat : PairSlot → Nat
  | .nop => 0
  | .op o da (.reg r) rnd => rnd.code + r.code * 2 ^ 6 + da.code * 2 ^ 14 + o.code * 2 ^ 22
  | .op o da (.imm b) rnd => rnd.code + 2 ^ 5 + b.val * 2 ^ 6 + da.code * 2 ^ 14 + o.code * 2 ^ 22

/-- A pair slot from its 28 bits (Tables 2-7 and 2-8). MOD5[4:2] is always zero. -/
def PairSlot.ofNat (w : Nat) : Except DecodeError PairSlot :=
  if bitsOf w 22 6 = 0 then (if w = 0 then .ok .nop else .error .unusedNonzero)
  else do
    let o ← PairOp.ofCode (bitsOf w 22 6)
    let da ← Reg.ofCode (bitsOf w 14 8)
    let rnd ← Rnd.ofCode (bitsOf w 0 2)
    if bitOf w 5 then .ok (.op o da (.imm (Fin.ofNat 256 (bitsOf w 6 8))) rnd)
    else do .ok (.op o da (.reg (← Reg.ofCode (bitsOf w 6 8))) rnd)

/-- A pair word before the checks on its operands (Table 2-6). -/
def rawPair (w : Nat) : Except DecodeError Instr :=
  if bitOf w 56 then .error .pairReserved
  else do .ok (.pairWord (Fin.ofNat 8 (bitsOf w 60 3)) (Fin.ofNat 8 (bitsOf w 57 3)) (← PairSlot.ofNat (bitsOf w 28 28))
      (← PairSlot.ofNat (bitsOf w 0 28)))

/-- Predicate field of ISETP and ISETP64. -/
def isetpD (cmp : Cmp) (sg : Bool) (pd : Fin 8) : Nat := pd.val + 8 * cmp.code + 64 * bitNat sg

/-- MOD bits of the combining forms, in place in C. -/
def combC (op : PComb) (p : PSrc) : Nat := 256 * p.bits + 4096 * op.code

/-- C[17:0] of an access: size, sign, hint and displacement. -/
def memC (size : Size) (sg : Bool) (hint : Hint) (disp : Fin 256) : Nat :=
  disp.val + 256 * size.code + 2048 * bitNat sg + 4096 * hint.code

/-- The fields of a barrier form. -/
def encBar (h : Hdr) (opc : Nat) : BarArg → Fields
  | .imm id n => enc h opc 0 0 255 (id.val + 16 * n.val)
  | .reg r => enc h opc 0 r.code 0 0

/-- The fields of a form with an optional count. -/
def encCount (h : Hdr) (opc : Nat) : Option (Fin 262144) → Fields
  | none => enc h opc 0 0 0 0
  | some n => enc h opc 0 0 255 n.val

/-- A form with a B source: MOD and C[7:0] are `m` in the register form. -/
def encS (h : Hdr) (opc d a : Nat) (b : Src) (m : Nat) : Fields := enc h opc d a b.bcode (b.ccode m)

/-- The fields of a full word (Tables 4-6, 5-5, 6-5, 6-8, 7-6, 8-10, 9-3, 10-4, 11-12, 12-7, 13-9). -/
def Instr.fields : Instr → Fields
  | .nop h => enc h 0x000 0 0 0 0
  | .mov h d b => encS h 0x001 d.code 0 b 0
  | .movhi h d a c => enc h 0x002 d.code a.code 255 c.val
  | .iadd h d a b => encS h 0x003 d.code a.code b 0
  | .isub h d a b => encS h 0x004 d.code a.code b 0
  | .iadds h sg d a b => encS h 0x005 d.code a.code b (256 * bitNat sg)
  | .isubs h sg d a b => encS h 0x006 d.code a.code b (256 * bitNat sg)
  | .imul h d a b => encS h 0x007 d.code a.code b 0
  | .imulh h sg d a b => encS h 0x008 d.code a.code b (256 * bitNat sg)
  | .imad h d a b c => enc h 0x009 d.code a.code b.code c.code
  | .imadw h sg d a b c => enc h 0x00A d.code a.code b.code (c.code + 256 * bitNat sg)
  | .iadd64 h d a b => encS h 0x00B d.code a.code b 0
  | .isub64 h d a b => encS h 0x00C d.code a.code b 0
  | .lea h n d a b => encS h 0x00D d.code a.code b (256 * n.val)
  | .lea64 h n sg d a b => encS h 0x00E d.code a.code b (256 * n.val + 2048 * bitNat sg)
  | .imin h sg d a b => encS h 0x00F d.code a.code b (256 * bitNat sg)
  | .imax h sg d a b => encS h 0x010 d.code a.code b (256 * bitNat sg)
  | .iabs h d a => enc h 0x011 d.code a.code 0 0
  | .iand h d a b => encS h 0x012 d.code a.code b 0
  | .ior h d a b => encS h 0x013 d.code a.code b 0
  | .ixor h d a b => encS h 0x014 d.code a.code b 0
  | .bmux h f1 f0 d a b c => enc h 0x015 d.code a.code b.code (c.code + 256 * f0.val + 4096 * f1.val)
  | .shl h d a b => encS h 0x016 d.code a.code b 0
  | .shr h sg d a b => encS h 0x017 d.code a.code b (256 * bitNat sg)
  | .shf h l d a b c => enc h 0x018 d.code a.code b.code (c.code + 256 * bitNat l)
  | .rot h d a b => encS h 0x019 d.code a.code b 0
  | .popc h d a => enc h 0x01A d.code a.code 0 0
  | .clz h d a => enc h 0x01B d.code a.code 0 0
  | .brev h d a => enc h 0x01C d.code a.code 0 0
  | .bfe h sg d a b => encS h 0x01D d.code a.code b (256 * bitNat sg)
  | .bfi h d a b c => enc h 0x01E d.code a.code b.code c.code
  | .prmt h d a b c => enc h 0x01F d.code a.code b.code c.code
  | .isetp h cmp sg op p pd a b => encS h 0x020 (isetpD cmp sg pd) a.code b (combC op p)
  | .isetp64 h cmp sg op p pd a b => encS h 0x021 (isetpD cmp sg pd) a.code b (combC op p)
  | .iset h cmp sg d a b => enc h 0x022 d.code a.code b.code (256 * cmp.code + 2048 * bitNat sg)
  | .sel h p d a b => enc h 0x023 d.code a.code b.code (256 * p.bits)
  | .pset h op pd pa pb => enc h 0x024 pd.val 0 0 (256 * pa.bits + 4096 * pb.bits + 65536 * op.code)
  | .p2v h d => enc h 0x025 d.code 0 0 0
  | .v2p h m a => enc h 0x026 0 a.code 0 (256 * m.val)
  | .hash32 h d a b => encS h 0x027 d.code a.code b 0
  | .shfl h mode d a (.reg r) => enc h 0x028 d.code a.code r.code (256 * mode.code)
  | .shfl h mode d a (.imm c) => enc h 0x028 d.code a.code 255 (c.val + 32 * mode.code)
  | .vote h mode p d => enc h 0x029 d.code 0 0 (256 * p.bits + 4096 * mode.code)
  | .s2v h sr d => enc h 0x02A d.code 0 0 (256 * sr.val)
  | .v2s h a => enc h 0x02B 0 a.code 0 (256 * 18)
  | .imul64 h d a b => encS h 0x02C d.code a.code b 0
  | .mov64 h d b => encS h 0x02D d.code 0 b 0
  | .fadd h fmt rnd d a b => encS h 0x040 d.code a.code b (256 * rnd.code + 1024 * fmt.code)
  | .fsub h fmt rnd d a b => encS h 0x041 d.code a.code b (256 * rnd.code + 1024 * fmt.code)
  | .fmul h fmt rnd d a b => encS h 0x042 d.code a.code b (256 * rnd.code + 1024 * fmt.code)
  | .ffma h fmt rnd d a b c => enc h 0x043 d.code a.code b.code (c.code + 256 * rnd.code + 1024 * fmt.code)
  | .fmin h fmt d a b => encS h 0x044 d.code a.code b (1024 * fmt.code)
  | .fmax h fmt d a b => encS h 0x045 d.code a.code b (1024 * fmt.code)
  | .fsetp h cmp op p pd a b => encS h 0x046 (pd.val + 8 * cmp.code) a.code b (combC op p)
  | .fset h cmp fmt d a b => enc h 0x047 d.code a.code b.code (256 * cmp.code + 4096 * fmt.code)
  | .fclass h fmt d a => enc h 0x048 d.code a.code 0 (256 * fmt.code)
  | .frcp h d a => enc h 0x049 d.code a.code 0 0
  | .frsq h d a => enc h 0x04A d.code a.code 0 0
  | .fsqrt h rnd d a => enc h 0x04B d.code a.code 0 (256 * rnd.code)
  | .fexp2 h d a => enc h 0x04C d.code a.code 0 0
  | .flog2 h d a => enc h 0x04D d.code a.code 0 0
  | .fsin h d a => enc h 0x04E d.code a.code 0 0
  | .fcos h d a => enc h 0x04F d.code a.code 0 0
  | .ftanh h d a => enc h 0x050 d.code a.code 0 0
  | .fscale h rnd d a b => encS h 0x051 d.code a.code b (256 * rnd.code)
  | .frnd h rnd d a => enc h 0x052 d.code a.code 0 (256 * rnd.code)
  | .fdot2 h fmt rnd d a b c => enc h 0x053 d.code a.code b.code (c.code + 256 * rnd.code + 1024 * fmt.code)
  | .fmed3 h fmt d a b c => enc h 0x054 d.code a.code b.code (c.code + 1024 * fmt.code)
  | .cvt h dst src rnd d a => enc h 0x055 d.code a.code 0 (256 * rnd.code + 1024 * dst.code + 16384 * src.code)
  | .cvtpk h fmt rnd d a b => enc h 0x056 d.code a.code b.code (256 * rnd.code + 1024 * fmt.code)
  | .cbenc h d a cb c => enc h 0x057 d.code a.code cb.val c.code
  | .cbdec h n d a cb c => enc h 0x058 d.code a.code cb.val (c.code + 256 * n.val)
  | .bra h off => enc h 0x080 0 0 255 off.val
  | .brd h off => enc h 0x081 0 0 255 off.val
  | .brx h a => enc h 0x082 0 a.code 0 0
  | .call h s off => enc h 0x083 s.code 0 255 off.val
  | .callx h s a => enc h 0x084 s.code a.code 0 0
  | .ret h s => enc h 0x085 0 s.code 0 0
  | .land h => enc h 0x086 0 0 0 0
  | .reform h s => enc h 0x087 0 s.code 0 0
  | .gpin h => enc h 0x088 0 0 0 0
  | .gfree h => enc h 0x089 0 0 0 0
  | .exit h => enc h 0x08A 0 0 0 0
  | .yield h n => encCount h 0x08B n
  | .bloop h a off => enc h 0x08C 0 a.code 255 off.val
  | .ipref h (some off) a _ => enc h 0x08D 0 a.code 255 off.val
  | .ipref h none a b => enc h 0x08D 0 a.code b.code 0
  | .iprefInv h a b => enc h 0x08D 0 a.code b.code 256
  | .launch h d a b => encS h 0x08E d.code a.code b 0
  | .evwait h sc d a b => encS h 0x08F d.code a.code b (256 * sc.code)
  | .evsig h sc a b => encS h 0x090 0 a.code b (256 * sc.code)
  | .nopw h n => encCount h 0x091 n
  | .ld h size sg hint d a b disp => encS h 0x0C0 d.code a.code b (memC size sg hint disp)
  | .st h size hint d a b disp => encS h 0x0C1 d.code a.code b (memC size false hint disp)
  | .lds h size sg d a b disp => encS h 0x0C2 d.code a.code b (memC size sg .ca disp)
  | .sts h size d a b disp => encS h 0x0C3 d.code a.code b (memC size false .ca disp)
  | .ldl h size sg hint d a b disp => encS h 0x0C4 d.code a.code b (memC size sg hint disp)
  | .stl h size hint d a b disp => encS h 0x0C5 d.code a.code b (memC size false hint disp)
  | .ldw h d a c => enc h 0x0C6 d.code a.code 255 c.val
  | .stw h d a c => enc h 0x0C7 d.code a.code 255 c.val
  | .ldk h size hint d a b disp => encS h 0x0C8 d.code a.code b (memC size false hint disp)
  | .pref h hint a b => encS h 0x0C9 0 a.code b (4096 * hint.code)
  | .cctl h op a b => encS h 0x0CA 0 a.code b (256 * op.code)
  | .acp h tag hint d a b => encS h 0x0CB d.code a.code b (256 * tag.val + 4096 * hint.code)
  | .acwait h mask n => enc h 0x0CC 0 0 255 (mask.val + 256 * n.val)
  | .acqry h d => enc h 0x0CD d.code 0 0 0
  | .ldcb h len d a b => encS h 0x0CE d.code a.code b (256 * len.code)
  | .xlq h d a b => encS h 0x0CF d.code a.code b 0
  | .amo h op size ord sc d a b =>
    enc h 0x100 d.code a.code b.code (size.code + 256 * sc.code + 2048 * ord.code + 16384 * op.code)
  | .cas h size ord sc d a b c =>
    enc h 0x101 d.code a.code b.code (c.code + 256 * sc.code + 2048 * ord.code + 16384 * size.code)
  | .red h op size ord sc a b =>
    enc h 0x102 0 a.code b.code (size.code + 256 * sc.code + 2048 * ord.code + 16384 * op.code)
  | .fence h ord sc => enc h 0x103 0 0 0 (256 * sc.code + 2048 * ord.code)
  | .bar h g => encBar h 0x104 g
  | .bara h g => encBar h 0x105 g
  | .barw h g => encBar h 0x106 g
  | .gbar h => enc h 0x107 0 0 0 0
  | .ssync h => enc h 0x108 0 0 0 0
  | .waitv h cmp sg size sc d a b =>
    enc h 0x109 d.code a.code b.code (256 * sc.code + 2048 * cmp.code + 16384 * bitNat sg + 32768 * size.code)
  | .ctxopen h sc set t d =>
    enc h 0x10A d.code 0 0 (256 * sc.code + 2048 * bitNat set + (match t with
      | some k => 4096 + 8192 * k.val
      | none => 0))
  | .ctxset h a => enc h 0x10B 0 a.code 0 0
  | .ctxsettle h a => enc h 0x10C 0 a.code 0 0
  | .ctxvoid h a => enc h 0x10D 0 a.code 0 0
  | .ctxq h d a => enc h 0x10E d.code a.code 0 0
  | .ldcx h size sg d a b c => enc h 0x10F d.code a.code b.code (c.code + 256 * size.code + 2048 * bitNat sg)
  | .ctxwait h sc d a => enc h 0x110 d.code a.code 0 (256 * sc.code)
  | .ordhead h => enc h 0x111 0 0 0 0
  | .obres h fmt len r a b => enc h 0x140 r.val a.code b.code (256 * fmt.code + 1024 * len.val)
  | .obset h r b => encS h 0x141 r.val 0 b 0
  | .obfree h r => enc h 0x142 r.val 0 0 0
  | .cbld h r cb => enc h 0x143 r.val 0 cb.val 0
  | .mloop h d desc => enc h 0x144 d.code desc.val 0 0
  | .mwait h a => enc h 0x145 0 a.code 0 0
  | .mzero h t => enc h 0x146 t.val 0 0 0
  | .accld h t a b => encS h 0x147 t.val a.code b 0
  | .accst h t a b => encS h 0x148 t.val a.code b 0
  | .mrd h d t b => encS h 0x149 d.code t.val b 0
  | .mout h fmt t r a b => enc h 0x14A t.val a.code b.code (256 * fmt.code + 1024 * r.val)
  | .mprog h d a => enc h 0x14B d.code a.code 0 0
  | .keybind h r a => enc h 0x14C r.val a.code 0 0
  | .push h pd kind cmd => enc h 0x180 pd.val cmd.val 0 (256 * kind.code)
  | .qbind h q bd => enc h 0x181 0 (240 + q.val) 0 (256 * bd.code)
  | .qpeek h d q b => encS h 0x182 d.code (240 + q.val) b 0
  | .qcnt h d q => enc h 0x183 d.code (240 + q.val) 0 0
  | .qdrain h d q => enc h 0x184 d.code (240 + q.val) 0 0
  | .bkqry h d => enc h 0x185 d.code 0 0 0
  | .bkwake h m => enc h 0x186 0 0 255 m.val
  | .bkdrop h off m => enc h 0x187 0 0 255 (m.val + 16 * bitNat off)
  | .spwake h d b => encS h 0x188 d.code 0 b 0
  | .spdrop h d b => encS h 0x189 d.code 0 b 0
  | .trap h c => enc h 0x1C0 0 0 255 c.val
  | .tret h => enc h 0x1C1 0 0 0 0
  | .tclr h a => enc h 0x1C2 0 a.code 0 0
  | .trd h d b => encS h 0x1C3 d.code 0 b 0
  | .tmask h d a b => enc h 0x1C4 d.code a.code b.code 0
  | .ologq h d b => encS h 0x1C5 d.code 0 b 0
  | .brk h c => enc h 0x1C6 0 0 255 c.val
  | .sysrd h d b => encS h 0x1C7 d.code 0 b 0
  | .syswr h a b => encS h 0x1C8 0 a.code b 0
  | .cntrd h d b => encS h 0x1C9 d.code 0 b 0
  | .psafe h pd => enc h 0x1CA pd.val 0 0 0
  | .ilq h d => enc h 0x1CB d.code 0 0 0
  | .halt h => enc h 0x1CC 0 0 0 0
  | .mbox h dst d a => enc h 0x1CD d.code a.code 0 (256 * bitNat dst)
  | _ => ⟨0, 0, 0, 0, 0, 0, 0, 0, 0⟩

/-- The number of a word's 64 bits. -/
def encodeNat : Instr → Nat
  | .pairWord st p s0 s1 => s1.toNat + s0.toNat * 2 ^ 28 + p.val * 2 ^ 57 + st.val * 2 ^ 60 + 2 ^ 63
  | i => i.fields.toNat

/-- The word of a well-formed instruction. -/
def encode (i : Instr) : DWord := BitVec.ofNat 64 (encodeNat i)

/-- The decoder with its reasons: the raw reading, the checks of WellFormed, and unused fields zero (R31). -/
def decodeE (w : DWord) : Except DecodeError Instr := do
  let i ← if bitOf w.toNat 63 then rawPair w.toNat else rawFull (Fields.ofNat w.toNat)
  if encode i = w then
    match i.wfErr with
    | some e => .error e
    | none => .ok i
  else .error .unusedNonzero

/-- The instruction of a 64-bit pattern; a pattern that is none gives `illegalEncoding` (R50). -/
def decode (w : DWord) : Instr :=
  match decodeE w with
  | .ok i => i
  | .error e => .illegalEncoding e

/-- The word that little-endian bytes hold (R24); bytes beyond the eighth are not part of it. -/
def decodeBytes (l : List Byte) : Instr := decode (BitVec.ofNat 64 (leNat (l.take 8)))

/-- The instruction whose bits are `w`, laid out as the hardware stores them: eight bytes, lowest first. -/
def decodeTableWord (_nbits w : Nat) : Option Instr := some (decodeBytes (leBytes w 8))

end Sys2Proof
end

