-- ==== Sys2Proof/Machine/System.lean ====
section
/-!
DEFINITION. Class 7: traps and the return from a handler, the trap mask, system registers, counters and mailboxes (R310 to
R315, R334 to R346), the entry to a handler after a wait, and the word that does not decode (R34, R50, R51).
-/

namespace Sys2Proof
namespace Machine

/-! ## Words that do not decode -/

/-- ILLEGAL_ENCODING (R34, R50): ILLEGAL-OP or ILLEGAL-PAIR in every lane of the group, whatever the guard; a pair word that also
names a register beyond a lane's allotment raises ILLEGAL-OP there. -/
def execIllegalEncoding (e : DecodeError) (s : State) : Host.Outcome State Fault Refusal :=
  match s.cur.bind fun g => (s.groups.find g).map fun G => (g, G) with
  | none => .fault .noIssuingGroup
  | some (g, G) =>
    let cause (t : Nat) : Nat := match e with
      | .pairRule top => if s.allotOf t < top then cIllegalOp else cIllegalPair
      | _ => cIllegalOp
    let at_ := max G.readyAt (s.clk G.core + 1)
    let G1 := { G with readyAt := at_, since := at_ }
    .next { (s.noteIssue G (s.clk G.core) []).finish g G1 [] (G.lanes.map fun t => .plain t (cause t)) G.lanes with freeCtr := s.freeCtr + 1 }

/-! ## Words that act once -/

/-- A class-7 word that acts once, with its lowest active lane. -/
def actOnce (i : Instr) (h : Hdr) (s : State) (f : Env → State → Nat → State) : Host.Outcome State Fault Refusal :=
  issue i h s fun E s1 => match E.act with
    | [] => E.finish s1 [] E.fall
    | l :: _ => f E s1 l

/-- TRAP and BRK (R335): a cause with a code in every active lane. -/
def trapWord (i : Instr) (h : Hdr) (cause code : Nat) (s : State) : Host.Outcome State Fault Refusal :=
  issue i h s fun E s1 => E.finish s1 (E.act.map fun t => ⟨t, cause, code, 0⟩) E.fall

/-- TRAP (R335). -/
def execTrap (h : Hdr) (code : Fin 262144) (s : State) : Host.Outcome State Fault Refusal :=
  trapWord (.trap h code) h cSwTrap code.val s

/-- BRK (R335): no effect while BREAKPOINT is not enabled (R311). -/
def execBrk (h : Hdr) (code : Fin 262144) (s : State) : Host.Outcome State Fault Refusal :=
  issue (.brk h code) h s fun E s1 =>
    E.finish s1 (if s1.enabled E.G.block E.G.core cBreakpoint then E.act.map fun t => ⟨t, cBreakpoint, code.val, 0⟩ else [])
      E.fall

/-- A lane of a replayed entry: a context that has retired since the word issued is refused (R228). -/
def State.replayLane (s : State) (i : Instr) (l : LaneSrc) : LaneSrc :=
  { l with bad := l.bad || match i with
      | .ldcx .. => s.ctxGone (l.c % 65536) (l.c / 65536)
      | _ => s.ctxGone l.ctx l.gen }

/-- TRET sets the faulted lanes of a group in one entry to be replayed (R193, R315). Lanes of other groups stay in an entry of their own,
which keeps the age of the word. -/
def State.replayEntry (s : State) (ts : List Nat) (id : Nat) : State :=
  match s.opLog.find id with
  | none => s
  | some e =>
    let mine := e.lanes.filter fun l => ts.contains l.thread
    let rest := e.lanes.filter fun l => !ts.contains l.thread
    if !e.dormant ∨ mine.isEmpty then s
    else
      let mask (ls : List LaneSrc) : Word := e.faulted &&& laneMask (ls.map LaneSrc.thread)
      let e1 : LogEntry := { e with
        lanes := mine.map (s.replayLane e.instr), faulted := mask mine, replay := true, since := s.now, poolAt := 0
        causes := e.causes.filter fun c => ts.contains c.thread }
      let e2 : LogEntry := { e with
        lanes := rest, faulted := mask rest, causes := e.causes.filter fun c => !ts.contains c.thread }
      let s1 := { s with opLog := s.opLog.put id e1 }
      if rest.isEmpty then s1 else { s1.fresh with opLog := s1.opLog.put s1.nextId e2 }

/-- TRET (R315): PRIV outside a handler; with a cause still set the group enters the handler again; otherwise its faulted accesses
are replayed, oldest first, and its lanes go on at the resume PC, or at the wait that the handler broke in on (log 11). -/
def execTret (h : Hdr) (s : State) : Host.Outcome State Fault Refusal :=
  actOnce (.tret h) h s fun E s1 _ =>
    let G := E.G
    if !G.inHandler then E.finish s1 (allRaise E.act cPriv) E.fall
    else if G.causes ≠ 0 then
      let tvec := (s1.bside G.block G.core).tvec
      let s2 := E.finish s1 [] (G.lanes.map fun t => (t, tvec)) (s1.fixedDone G.lanes - E.clk)
      if tvec = 0 then s2.endLaunch (s1.block G.block).launch stAborted else s2
    else
      let G1 := { G with inHandler := false, deliver := none }
      let s2 := s1.opLog.keys.foldl (fun s id => s.replayEntry G.lanes id) s1
      if !(s2.replaysOf G.lanes).isEmpty || G.paused.isSome then
        (({ E with G := G1 }.finish s2 [] (G.lanes.map fun t => (t, G.pc))).modGroup E.g fun G =>
          { G with wait := some .replay }).endReplay E.g
      else { E with G := G1 }.finish s2 [] (G.lanes.map fun t => (t, G.resumePc))

/-- The group's cause state without some causes. -/
def Group.clear (G : Group) (bits : DWord) : Group :=
  let keep (k : Nat) : Bool := decide (36 ≤ k) || !bitOf bits.toNat k
  { G with
    causes := G.causes &&& ~~~ bits
    masks := G.masks.filter fun p => keep p.1
    faults := G.faults.filter fun p => keep p.1 }

/-- TCLR (R336). -/
def execTclr (h : Hdr) (a : Reg) (s : State) : Host.Outcome State Fault Refusal :=
  actOnce (.tclr h a) h s fun E s1 l =>
    { E with G := E.G.clear ((E.lv s1 l).r64 a) }.finish s1 [] E.fall

/-- The value of TRD (Table 13-10). -/
def State.trdValue (s : State) (G : Group) (n : Nat) : DWord :=
  let k := n % 0x100
  let none_ : FaultRec := ⟨0, 0⟩
  if n = 0 then G.causes
  else if n = 1 then BitVec.ofNat 64 G.resumePc
  else if n = 2 then G.resumeMask.setWidth 64
  else if n = 3 then trapMaskOf (s.bside G.block G.core).trapMask
  else if 64 ≤ k then 0
  else if n / 0x100 = 1 then (G.masks.findD k 0).setWidth 64
  else if n / 0x100 = 2 then (G.faults.findD k none_).addr
  else if n / 0x100 = 3 then (G.faults.findD k none_).detail
  else 0

/-- TRD (R337). -/
def execTrd (h : Hdr) (d : Reg) (b : Src) (s : State) : Host.Outcome State Fault Refusal :=
  issue (.trd h d b) h s fun E s1 =>
    s1.alu 4 (fun v => (none, w64 d (v.s.trdValue E.G (v.u32 b).toNat))) E

/-- TMASK (R338, R311). -/
def execTmask (h : Hdr) (d a b : Reg) (s : State) : Host.Outcome State Fault Refusal :=
  actOnce (.tmask h d a b) h s fun E s1 l =>
    let n := (E.lv s1 l).r64 a
    let m := (E.lv s1 l).r64 b
    let old := trapMaskOf (s1.bside E.G.block E.G.core).trapMask
    let s2 := s1.modBside E.G.block E.G.core fun S => { S with trapMask := trapMaskOf ((old &&& ~~~ m) ||| (n &&& m)) }
    E.finish (s2.writeFixed E.clk 4 (E.act.map fun t => (t, w64 d old))) [] E.fall

/-- A log entry at its place by age. -/
def ageInsert (e : LogEntry) : List LogEntry → List LogEntry
  | [] => [e]
  | f :: r => if e.age < f.age then e :: f :: r else f :: ageInsert e r

/-- The value of OLOGQ (R339). -/
def State.ologqValue (s : State) (G : Group) (x : Nat) : DWord :=
  let live := s.opLog.filterMap fun p =>
    if !p.2.freed && p.2.lanes.any fun l => G.lanes.contains l.thread then some p.2 else none
  match (live.foldl (fun l e => ageInsert e l) [])[bitsOf x 0 6]? with
  | none => 0
  | some e =>
    match bitsOf x 6 2 with
    | 0 => BitVec.ofNat 64 e.pc
    | 1 => encode e.instr
    | 2 => BitVec.ofNat 64 (e.active.toNat + e.faulted.toNat * 2 ^ 32)
    | _ =>
      let low := leastBy (fun (c : LaneCause) => laneOf c.thread) e.causes
      BitVec.ofNat 64 (0x100 + (low.map LaneCause.cause).getD 0)

/-- OLOGQ (R339). -/
def execOlogq (h : Hdr) (d : Reg) (b : Src) (s : State) : Host.Outcome State Fault Refusal :=
  issue (.ologq h d b) h s fun E s1 =>
    s1.alu 4 (fun v => (none, w64 d (v.s.ologqValue E.G (v.u32 b).toNat))) E

/-! ## System registers and counters -/

/-- Cycles left of a block's notice window (Table 13-11). -/
def State.noticeLeft (s : State) (b : Nat) : Nat :=
  let B := s.block b
  if B.notice then B.noticeAt + (s.partRegs (s.partOf b)).noticewin - s.clk B.core else 0

/-- The value of SYSRD (Table 13-11). -/
def State.sysrdValue (s : State) (G : Group) (n : Nat) : DWord :=
  let B := s.block G.block
  let P := s.partRegs (s.partOf G.block)
  BitVec.ofNat 64 (
    if n = 0 then (s.bside G.block G.core).tvec
    else if n = 1 then bitNat G.inHandler + 2 * bitNat B.notice + 4 * B.chosen
    else if n = 2 then s.noticeLeft G.block
    else if n = 0x100 then P.noticewin
    else if n = 0x101 then P.drainth
    else 0)

/-- A thread of the block may use a system register (R340). -/
def State.sysPriv (s : State) (b n : Nat) : Bool := decide (n < 0x100) || (s.recOf b).world == 0

/-- SYSRD (R340): a follower takes its leader's value (R328). -/
def execSysrd (h : Hdr) (d : Reg) (b : Src) (s : State) : Host.Outcome State Fault Refusal :=
  issue (.sysrd h d b) h s fun E s1 =>
    if E.act.all fun t => s1.sysPriv E.G.block ((E.lv s1 t).u32 b).toNat then
      s1.shared true 0 (fun v => (none, v.s.sysrdValue E.G (v.u32 b).toNat)) (w64 d) E
    else E.finish s1 (allRaise E.act cPriv) E.fall

/-- Changes the registers of a partition. -/
def State.modPart (s : State) (p : Nat) (f : PartRegs → PartRegs) : State :=
  { s with cfg := { s.cfg with parts := s.cfg.parts.put p (f (s.partRegs p)) } }

/-- SYSWR (R340). -/
def execSyswr (h : Hdr) (a : Reg) (b : Src) (s : State) : Host.Outcome State Fault Refusal :=
  actOnce (.syswr h a b) h s fun E s1 l =>
    let n := ((E.lv s1 l).u32 b).toNat
    let x := ((E.lv s1 l).r64 a).toNat
    let p := s1.partOf E.G.block
    if !s1.sysPriv E.G.block n then E.finish s1 (allRaise E.act cPriv) E.fall
    else
      let s2 :=
        if n = 0 then s1.modBside E.G.block E.G.core fun S => { S with tvec := bitsOf x 3 49 * 8 }
        else if n = 0x100 then s1.modPart p fun P => { P with noticewin := x % 2 ^ 32 }
        else if n = 0x101 then s1.modPart p fun P => { P with drainth := x % 2 ^ 32 }
        else s1
      E.finish s2 [] E.fall

/-- Key of the overrun debt of a tenant on a core (R322). -/
def debtKey (core tenant : Nat) : Nat := 256 * core + tenant

/-- The value of CNTRD (Table 13-12). -/
def State.cntrdValue (s : State) (G : Group) (n : Nat) : DWord :=
  let q := s.seqr G.seq
  BitVec.ofNat 64 (match n with
    | 0 => q.slips
    | 1 => q.opps
    | 2 => q.wakeWait
    | 3 => q.grantWait
    | 4 => s.debt.findD (debtKey G.core (s.recOf G.block).tenant) 0
    | 5 => (s.launchOf G.block).transient
    | _ => 0)

/-- CNTRD (R341): a follower takes its leader's value (R328). -/
def execCntrd (h : Hdr) (d : Reg) (b : Src) (s : State) : Host.Outcome State Fault Refusal :=
  issue (.cntrd h d b) h s fun E s1 =>
    s1.shared true 0 (fun v => (none, v.s.cntrdValue E.G (v.u32 b).toNat)) (w64 d) E

/-- PSAFE (R342). -/
def execPsafe (h : Hdr) (pd : Fin 8) (s : State) : Host.Outcome State Fault Refusal :=
  issue (.psafe h pd) h s fun E s1 =>
    if !(s1.block E.G.block).notice then
      E.finish (s1.writeTracked E 0 false (E.act.map fun t => (t, [LaneWrite.pred pd.val false]))) [] E.fall
    else if E.act.isEmpty then E.finish s1 [] E.fall
    else E.await s1 [] (.psafe pd.val E.act)

/-- A group at PSAFE gets its predicate and goes on. -/
def State.psafeEnd (s : State) (g : Nat) (x : Bool) : State :=
  match s.groups.find g with
  | some G => match G.wait with
    | some (.psafe pd ls) =>
      (s.results G.block G.core s.nextId false (ls.map fun t => (t, [LaneWrite.pred pd x]))).resume g (G.pc + 8)
    | _ => s
  | none => s

/-- A group waits at PSAFE, and its block has no notice any more. -/
def State.psafeFree (s : State) (g : Nat) : Bool :=
  match s.groups.find g with
  | some G => (match G.wait with
      | some (.psafe _ _) => true
      | _ => false) && s.awake G.block && !(s.block G.block).notice
  | none => false

/-- PSAFE_RESOLVE (R342): the notice is withdrawn. A block that is saved writes true at its restore. -/
def execPsafeResolve (group : Nat) (s : State) : Host.Outcome State Fault Refusal :=
  event s (s.psafeFree group) fun s => s.psafeEnd group false

/-- The value of ILQ (R343). -/
def State.ilqValue (s : State) (b : Nat) : DWord :=
  let B := s.block b
  BitVec.ofNat 64 ((s.recOf b).il % 4 + 4 * bitNat (s.paired b) + 8 * bitNat B.rerun +
    16 * bitNat (B.ctx != 0 && s.subtreeExposed B.ctx) + (s.launchOf b).transient % 2 ^ 32 * 2 ^ 32)

/-- ILQ (R343): a follower takes its leader's value (R328). -/
def execIlq (h : Hdr) (d : Reg) (s : State) : Host.Outcome State Fault Refusal :=
  issue (.ilq h d) h s fun E s1 => s1.shared false 4 (fun v => (none, v.s.ilqValue E.G.block)) (w64 d) E

/-- HALT (R344): compared as a command on a checked block, and it acts once. -/
def execHalt (h : Hdr) (s : State) : Host.Outcome State Fault Refusal :=
  actOnce (.halt h) h s fun E s1 l =>
    let b := E.G.block
    let stop (st : State) : State := (E.finish st [] E.fall).endLaunch (s1.block b).launch stAborted
    match s1.meet b E.G.core E.G.pc [(l, (encode (.halt h)).toNat)] with
    | .alone => stop s1
    | .wait st => st
    | .act st => stop (st.keepValue b (slotOf l) E.G.pc 0)
    | .take _ st => E.finish st [] E.fall

/-! ## MBOX (R345) -/

/-- The tenant, world and core that an SSV inbox keeps with a message. -/
def State.sender (s : State) (G : Group) : DWord :=
  let R := s.recOf G.block
  BitVec.ofNat 64 (R.tenant + R.world * 2 ^ 8 + G.core * 2 ^ 16)

/-- MBOX (R345): the message goes out once and the group waits for its reply. -/
def execMbox (h : Hdr) (sec : Bool) (d a : Reg) (s : State) : Host.Outcome State Fault Refusal :=
  actOnce (.mbox h sec d a) h s fun E s1 l =>
    let b := E.G.block
    let msg := (E.lv s1 l).r64 a
    if sec ∧ (s1.recOf b).world ≠ 0 then E.finish s1 (allRaise E.act cPriv) E.fall
    else
      let wait (st : State) : State := E.await st [] (.mbox sec d msg E.act)
      let send (st : State) : State :=
        let s2 := wait st
        if sec then
          let g := (s2.groupOf l).getD E.g
          { s2 with sec := { s2.sec with queue := s2.sec.queue ++ [(64 * (g + 1) + E.G.core + 1, msg)] } }
        else s2
      match s1.meet b E.G.core E.G.pc [(l, msg.toNat * 2 + bitNat sec)] with
      | .alone => send s1
      | .wait st => st
      | .act st => send (st.keepValue b (slotOf l) E.G.pc 0)
      | .take _ st => wait st

/-- The reply that a group at MBOX would receive now, and the state after it is taken. -/
def State.mboxAnswer (s : State) (g : Nat) (G : Group) (sec : Bool) (msg : DWord) (ls : List Nat) : Option (DWord × State) :=
  let l := ls.headD 0
  if s.isFollower G.block G.core then
    (s.leaderValue G.block (slotOf l)).map fun x => (BitVec.ofNat 64 x, s.takeValue G.block (slotOf l))
  else if sec then
    (s.sec.replies.find (g + 1)).map fun x => (x, { s with sec := { s.sec with replies := s.sec.replies.del (g + 1) } })
  else
    let tenant := (s.recOf G.block).tenant
    let box := s.inbox.findD tenant []
    if box.length < Config.inboxPlaces then some (0, { s with inbox := s.inbox.put tenant (box ++ [(msg, s.sender G)]) })
    else some (1, s)

/-- A group at MBOX whose reply is there, or in a handler that has broken in on its wait. -/
def State.mboxReady (s : State) (g : Nat) : Option (Group × Reg × List Nat × DWord × State) :=
  match s.groups.find g with
  | some G => match (match G.paused with
      | some w => some w
      | none => G.wait) with
    | some (.mbox sec d msg ls) => (s.mboxAnswer g G sec msg ls).map fun r => (G, d, ls, r.1, r.2)
    | _ => none
  | none => none

/-- MBOX_REPLY (R345): the reply is written to every active lane; a leader keeps it for its follower (R327). -/
def execMboxReply (group : Nat) (s : State) : Host.Outcome State Fault Refusal :=
  event s (s.mboxReady group).isSome fun s =>
    match s.mboxReady group with
    | none => s
    | some (G, d, ls, x, s1) =>
      let s2 := if s1.paired G.block && !s1.isFollower G.block G.core then
          s1.keepValue G.block (slotOf (ls.headD 0)) G.pc x.toNat
        else s1
      let s3 := s2.results G.block G.core s2.nextId false (ls.map fun t => (t, w64 d x))
      if G.paused.isSome then s3.modGroup group fun G => { G with paused := none } else s3.resume group (G.pc + 8)

/-- SSV_INBOX_MESSAGE_TAKEN (R345): firmware takes the oldest message of a tenant's inbox. -/
def execSsvInboxMessageTaken (tenant : Nat) (s : State) : Host.Outcome State Fault Refusal :=
  event s (!(s.inbox.findD tenant []).isEmpty) fun s =>
    { s with inbox := s.inbox.store [] tenant ((s.inbox.findD tenant []).drop 1) }

/-! ## Handler entry after a wait (R313, R314) -/

/-- A group whose wait is over has a cause to be delivered. -/
def State.entryDue (s : State) (g : Nat) : Bool :=
  match s.groups.find g with
  | some G => G.wait.isNone && G.deliver.isSome && s.awake G.block
  | none => false

/-- HANDLER_ENTRY (R313, R314): before the group's next word, which is the resume PC. -/
def execHandlerEntry (group : Nat) (s : State) : Host.Outcome State Fault Refusal :=
  event s (s.entryDue group) fun s =>
    match s.groups.find group with
    | some G => s.deliver group G.pc G.lanes
    | none => s

/-- A cause that the hardware posts to a group (R313): WATCHDOG and PREEMPT-NOTICE. -/
def State.postCause (s : State) (g cause : Nat) : State :=
  match s.groups.find g with
  | some G => s.lateCauses g G.pc (allRaise G.lanes cause)
  | none => s

end Machine
end Sys2Proof
end

