-- ==== Sys2Proof/Machine/Saved.lean ====
section
/-!
DEFINITION. What becomes of a block that is saved and restored (R319, R89, R105, R139, R140, R193, R229, R283, R297). A saved
block's threads, groups, log entries and the like stay in the tables of the state under the slots of a core number of its own,
64 more than the number of the block: thread x of the block has slot %ix.0 there (log 34).
-/

namespace Sys2Proof
namespace Machine

/-! ## Renaming of threads -/

/-- The lanes of a wait under new thread numbers. -/
def Wait.rename (f : Nat → Nat) : Wait → Wait
  | .bar k ls => .bar k (ls.map f)
  | .barw ls => .barw (ls.map fun x => (f x.1, x.2))
  | .evwait sc d ls met => .evwait sc d (ls.map fun l => { l with thread := f l.thread })
      (met.foldl (fun m p => FMap.put m (f p.1) p.2) [])
  | .ctxwait sc d ls => .ctxwait sc d (ls.map fun l => { l with thread := f l.thread })
  | .ordhead ls => .ordhead (ls.map f)
  | .acwait m n ls => .acwait m n (ls.map f)
  | .psafe pd ls => .psafe pd (ls.map f)
  | .mbox sec d msg ls => .mbox sec d msg (ls.map f)
  | w => w

/-- The lanes of a wait that are among some threads. -/
def Wait.only (ts : List Nat) : Wait → Wait
  | .bar k ls => .bar k (ls.filter ts.contains)
  | .barw ls => .barw (ls.filter fun x => ts.contains x.1)
  | .evwait sc d ls met => .evwait sc d (ls.filter fun l => ts.contains l.thread) met
  | .ctxwait sc d ls => .ctxwait sc d (ls.filter fun l => ts.contains l.thread)
  | .ordhead ls => .ordhead (ls.filter ts.contains)
  | .acwait m n ls => .acwait m n (ls.filter ts.contains)
  | .psafe pd ls => .psafe pd (ls.filter ts.contains)
  | .mbox sec d msg ls => .mbox sec d msg (ls.filter ts.contains)
  | w => w

/-- A hold under new thread numbers. -/
def MemHold.rename (f : Nat → Nat) : MemHold → MemHold
  | .loads ts => .loads (ts.map f)
  | h => h

/-- A group under new thread numbers: its core and quarter are those of its lowest lane. -/
def Group.rename (f : Nat → Nat) (G : Group) : Group :=
  let ls := laneSort (G.lanes.map f)
  let t := ls.headD (1024 * G.core + 256 * G.quarter)
  { G with
    lanes := ls, core := coreOf t, quarter := t / 256 % 4, wait := G.wait.map (Wait.rename f), paused := G.paused.map (Wait.rename f)
    deliver := G.deliver.map fun d => { d with lanes := d.lanes.map f }
    memHold := G.memHold.map (MemHold.rename f) }

/-- A log entry under new thread numbers. -/
def LogEntry.rename (f : Nat → Nat) (e : LogEntry) : LogEntry :=
  let ls := e.lanes.map fun l => { l with thread := f l.thread }
  { e with
    seq := match ls with
      | l :: _ => seqOf l.thread
      | [] => e.seq
    lanes := ls, queued := e.queued.map f, causes := e.causes.map fun c => { c with thread := f c.thread } }

/-- A request at the mint under new thread numbers. -/
def MintReq.rename (f : Nat → Nat) : MintReq → MintReq
  | .open_ g ls p sc set pd d o => .open_ g (ls.map f) p sc set pd d o
  | r => r

/-- Held work under new thread numbers. -/
def Held.rename (f : Nat → Nat) : Held → Held
  | .red op n e v t tenant world ctx => .red op n e v (f t) tenant world ctx
  | .eng c => .eng { c with thread := f c.thread }
  | w => w

/-- A block's own lists of threads under new thread numbers. -/
def Block.rename (f : Nat → Nat) (B : Block) : Block :=
  let loops := B.lead.mloops.map fun m => { m with thread := f m.thread }
  { B with gbarIn := B.gbarIn.map f, ssyncIn := B.ssyncIn.map f, lead := { B.lead with mloops := loops } }

/-- The state under new thread numbers. Bins are not renamed: the caller takes them out first. -/
def State.rename (s : State) (f : Nat → Nat) : State :=
  let writes (p : Inflight) : Inflight := { p with writes := p.writes.map fun w => { w with thread := f w.thread } }
  { s with
    threads := s.threads.foldl (fun m p => FMap.put m (f p.1) p.2) []
    groups := s.groups.map fun p => (p.1, p.2.rename f)
    opLog := s.opLog.map fun p => (p.1, p.2.rename f)
    inflight := s.inflight.map fun p => (p.1, writes p.2)
    blocks := s.blocks.map fun p => (p.1, p.2.rename f)
    engines := s.engines.map fun p => (p.1, p.2.map fun c => { c with thread := f c.thread })
    ctxs := s.ctxs.map fun p => (p.1, { p.2 with held := p.2.held.map (Held.rename f) })
    mintQ := s.mintQ.map fun p => (p.1, p.2.map (MintReq.rename f)) }

/-! ## The image -/

/-- The core number under which a saved block's threads stand. -/
def savedCore (b : Nat) : Nat := 64 + b

/-- Size of a block's image in the save area (R319). -/
def LRec.imageSize (R : LRec) : Nat :=
  (0x80000 + 1152 * 32 * R.groupCount + R.spad + R.obquota + 0xFFFF) / 0x10000 * 0x10000

/-- The bytes of a range that are not 0, by offset. -/
def State.slice (s : State) (pa n : Nat) : FMap Byte :=
  (s.mem.filter fun p => decide (pa ≤ p.1 ∧ p.1 < pa + n)).map fun p => (p.1 - pa, p.2)

/-- Puts bytes back from their offsets. -/
def State.unslice (s : State) (pa : Nat) (m : FMap Byte) : State := m.foldl (fun s p => s.setByte (pa + p.1) p.2) s

/-- Local tile bytes of a block, tile `t` at 0x4000 x t. -/
def State.tileSlice (s : State) (b core : Nat) : FMap Byte :=
  ((s.bside b core).tiles.foldl (fun m t =>
    (s.slice (tilePa core (0x4000 * s.tileOf b t)) 0x4000).foldl (fun m p => FMap.put m (0x4000 * t + p.1) p.2) m) [])

/-- The image of a block whose keyed ranges are already zero; its bins and its requests at the mint under their threads' new numbers. -/
def State.imageOf (s : State) (b : Nat) (bins : List Bin) (opens : List MintReq) : Image :=
  let B := s.block b
  let R := s.recOf b
  let c := B.core
  let piece (k : Nat) : Nat × Nat × QState :=
    let lo := max B.spadAt (0x20000 * k)
    let hi := min (B.spadAt + R.spad) (0x20000 * (k + 1))
    (lo - B.spadAt, hi - lo, s.spadBank c k)
  let at_ := obPa c B.obAt
  let mine (r : Nat × Nat) : Bool := decide (at_ ≤ r.1 ∧ r.1 < at_ + R.obquota)
  { size := R.imageSize, spad := s.slice (spadPa c B.spadAt) R.spad, banks := (banksOf B.spadAt R.spad).map piece
    tiles := s.tileSlice b c, bins := bins, ob := s.slice at_ R.obquota
    obDirty := (s.obDirty.filter mine).map fun r => (r.1 - at_, r.2), opens := opens }

/-- Bytes of the save area that images take, those of saves that have begun among them. -/
def State.savedBytes (s : State) (part : Nat) : Nat :=
  sumOf (s.blocks.map fun p => if (s.launch p.2.launch).part = part then (match p.2.image with
    | some I => I.size
    | none => if p.2.going ∧ p.2.chosen = 2 then (s.recOf p.1).imageSize else 0) else 0)

/-- The save area has room for the images of some blocks (R319). -/
def State.areaFits (s : State) (bs : List Nat) : Bool :=
  let part := s.partOf (bs.headD 0)
  decide (s.savedBytes part + sumOf (bs.map fun b => (s.recOf b).imageSize) ≤ 0x10000 * (s.partRegs part).psavesize)

/-! ## Saving -/

/-- A log entry cannot go on before its block is the clearing head: it is a returning atomic that waits for that, or no older than one of its
block (R244). -/
def State.behindHead (s : State) (e : LogEntry) : Bool :=
  s.opLog.any fun q => q.2.block == e.block && decide (q.2.age ≤ e.age) && s.atHead q.2

/-- A block's stores are released at .sys (R319), but for entries that stay in the log until the block is the clearing head. -/
def State.savedStores (s : State) (b : Nat) : Bool :=
  s.pendStores.all (fun p => p.2.block != b) && s.drain.findD (s.recOf b).tenant 0 == 0 &&
    s.opLog.all fun p => p.2.block != b || !writesMem p.2.instr || p.2.dormant || s.behindHead p.2

/-- A group waits at a mailbox, or is to return to that wait. -/
def Group.atMbox (G : Group) : Bool := match G.wait.or G.paused with
  | some (.mbox _ _ _ _) => true
  | _ => false

/-- A block may be saved now: its copies, its running MLOOP, its mailbox and cache requests are over, and its stores are released
at .sys (R319, R229, R202, R297). -/
def State.saveReady (s : State) (b : Nat) : Bool :=
  let B := s.block b
  (s.acps.all fun p => p.2.block != b) && (B.lead.mloops.all fun m => m.state != .running) && s.savedStores b &&
    (s.iprefInv.all fun p => p.2.1.all fun t => (s.thread t).block != b) &&
    s.groups.all fun p => p.2.block != b || !p.2.atMbox

/-- A wait whose word issues again after a restore (R96, R253, R256, R257, R227), with whether the word has retired already. -/
def reissues : Wait → Option Bool
  | .evwait .. | .waitv _ | .ctxwait .. | .barw _ | .ordhead _ => some true
  | .queue .. => some false
  | _ => none

/-- A group as it is put away: waits that are issued again end, what is reckoned from a clock becomes a remainder, and its fixed-latency
writes are complete. `readyAt` marks a group whose wait has ended so: it needs a slot at the restore (R101). -/
def State.packGroup (s : State) (g : Nat) : State :=
  match s.groups.find g with
  | none => s
  | some G =>
    let dm2 := (s.recOf G.block).dm == 2
    let again := G.wait.bind reissues
    let s1 := match again with
      | some true => s.modThreads G.lanes fun T => { T with again := true }
      | _ => s
    let s2 := match G.wait with
      | some (.waitv e) => { s1 with opLog := s1.opLog.del e }
      | _ => s1
    s2.setGroup g { G with
      wait := if again.isSome then none else G.wait, readyAt := bitNat again.isSome, enterAt := 0
      oppsAt := s.waited G.seq G.block G.oppsAt
      yieldLeft := if dm2 then G.yieldLeft else G.yieldLeft - ((s.seqr G.seq).opps + 1) }

/-- The results of a block that are on their way are delivered. -/
def State.deliverAll (s : State) (b : Nat) : State :=
  let s1 := s.inflight.foldl (fun s p => if p.2.block = b then s.deliverResult p.2 else s) s
  { s1 with inflight := s1.inflight.filter fun p => p.2.block != b }

/-- A bin as it is put away on a sequencer, under its threads' new numbers: what is reckoned from a clock becomes a remainder. -/
def State.packBin (s : State) (q : Nat) (name : Nat → Nat) (B : Bin) : Bin :=
  { B with
    threads := B.threads.map name, since := s.clk (q / 4) - B.since
    came := B.came.foldl (fun m p => FMap.put m (name p.1) (p.2.1, s.waited q B.block p.2.2)) []
    carry := { B.carry.rename name with readyAt := 0, enterAt := 0 } }

/-- A request at the mint belongs to threads of a block. -/
def State.opensFor (s : State) (b : Nat) : MintReq → Bool
  | .open_ _ lanes _ _ _ _ _ _ => lanes.any fun t => (s.thread t).block == b
  | .block _ _ => false

/-- The requests of a block's threads leave the mint (R222). -/
def State.dropOpens (s : State) (b : Nat) : State :=
  { s with mintQ := (s.mintQ.map fun p => (p.1, p.2.filter fun r => !s.opensFor b r)).filter fun p => !p.2.isEmpty }

/-- Saves a block: its room is free afterwards (R319). -/
def State.saveBlock (s : State) (b : Nat) : State :=
  let s0 := (s.blockGroups b).foldl State.packGroup (s.deliverAll b)
  let B := s0.block b
  let c := B.core
  let name (t : Nat) : Nat := if coreOf t = c && (s0.thread t).block == b && (s0.threads.find t).isSome then
      1024 * savedCore b + (s0.thread t).ix.headD 0 else t
  let recs (t : Nat) (T : Thread) : Thread := { T with
    fixed := [], wakes := [], joinStack := T.joinStack.map fun r => { r with recno := 4096 * (t / 256 % 4 + 1) + r.recno } }
  let mine := (s0.threads.filter fun p => p.2.block == b).map Prod.fst
  let s1 := mine.foldl (fun s t => s.modThread t (recs t)) s0
  let bins := (s1.bins.filter fun p => p.2.block == b).map fun p => s1.packBin (p.1 / Config.binsPerQuarter) name p.2
  let opens := (s1.mintQ.vals.flatMap fun rs => rs.filter (s1.opensFor b)).map (MintReq.rename name)
  let s2 := { s1.dropOpens b with bins := s1.bins.filter fun p => p.2.block != b }
  let s3 := B.lead.records.vals.foldl (fun s r => s.zeroKeyed b c r) s2
  let I := s3.imageOf b bins opens
  let keyed (m : MLoop) : Bool := m.recA.keyed.isSome || m.recB.keyed.isSome
  let loop (m : MLoop) : MLoop := if m.state == .stopped && keyed m then { m with rows := 0, kept := [] } else m
  let mq : FMap (List (Nat × Nat)) := (s3.mqueue.map fun (p : Nat × List (Nat × Nat)) =>
    (p.1, p.2.filter fun x => x.1 != b)).filter fun p => !p.2.isEmpty
  let s4 := { s3 with mqueue := mq }
  let s5 := (s4.rename name).vacate b .saved
  let s6 := (s5.refillLoops c).modBlock b fun B => { B with
    core := savedCore b, image := some I, waitingSince := s.now, ran := B.ran + (s.clk c - B.dispatchedAt)
    lead := { B.lead with mloops := B.lead.mloops.map loop } }
  s6.modLaunch B.launch fun L => { L with noRoomSince := s.now }

/-! ## Restoring -/

/-- The state of a scratchpad bank after a restore: the most powered of the restored bytes' states and, where another block has
bytes in it, its own. -/
def State.restoreBank (s : State) (core at_ : Nat) (pieces : List (Nat × Nat × QState)) (k : Nat) : State :=
  let mine := (pieces.filter fun p => overlaps (at_ + p.1) p.2.1 (0x20000 * k) 0x20000).map fun p => p.2.2
  let all := s.spadBank core k :: mine
  if all.contains .full then s.fullBank core k
  else if all.contains .ret then { s with spadBanks := s.spadBanks.put (16 * core + k) .ret }
  else s

/-- The join records of a block's threads on a sequencer get free numbers (R115). -/
def State.restoreJoins (s : State) (b seq : Nat) : State :=
  let mine := (s.threads.filter fun p => p.2.block == b && seqOf p.1 == seq).map Prod.fst
  let old := ((mine.flatMap fun t => (s.thread t).joinStack.map JoinRec.recno).filter fun n => decide (4096 ≤ n)).eraseDups
  old.foldl (fun s n =>
    let k := s.freeRecord seq
    s.modThreads mine fun T => { T with joinStack := T.joinStack.map fun r => if r.recno = n then { r with recno := k } else r })
    s

/-- A group comes back: threads that lie in different quarters now go on in groups of their own; a slot that is free is kept, and a group
whose wait ended at the save takes one. -/
def State.restoreGroup (s : State) (g : Nat) : State :=
  match s.groups.find g with
  | none => s
  | some G =>
    let part (s : State) (k : Nat) (ts : List Nat) : State :=
      let q := seqOf (ts.headD 0)
      let free := match G.slot with
        | some n => !(s.slotsHeld q).contains n
        | none => false
      let s1 := (s.setGroup k { G with
        core := q / 4, quarter := q % 4, lanes := ts, slot := if free then G.slot else none
        wait := G.wait.map (Wait.only ts), paused := G.paused.map (Wait.only ts), readyAt := s.clk (q / 4), since := s.clk (q / 4)
        oppsAt := s.oppsNow q G.block - G.oppsAt, resumeMask := G.resumeMask &&& laneMask ts
        deliver := G.deliver.map fun d => { d with lanes := d.lanes.filter ts.contains }
        yieldLeft := if (s.recOf G.block).dm = 2 ∨ G.yieldLeft = 0 then G.yieldLeft
          else (s.seqr q).opps + 1 + G.yieldLeft }).enrol ts k
      if (G.slot.isSome && !free) || (G.slot.isNone && G.readyAt != 0) then s1.takeSlot k else s1
    match (G.lanes.map seqOf).eraseDups with
    | [] => s
    | q :: r =>
      let s1 := part (s.delGroup g) g (G.lanes.filter fun t => seqOf t == q)
      r.foldl (fun s q => part s.fresh s.nextId (G.lanes.filter fun t => seqOf t == q)) s1

/-- A bin comes back, in each quarter that its threads lie in now, with the waiting times that it had; without a free bin its threads are
filed anew. -/
def State.restoreBin (s : State) (B : Bin) : State :=
  ((B.threads.map seqOf).eraseDups).foldl (fun s q =>
    let ts := B.threads.filter fun t => seqOf t == q
    let came := (B.came.filter fun p => ts.contains p.1).map fun p => (p.1, (p.2.1, s.oppsNow q B.block - p.2.2))
    let carry := { B.carry with readyAt := s.clk (q / 4), resumeMask := B.carry.resumeMask &&& laneMask ts }
    match (upFrom 0 Config.binsPerQuarter).find? fun n => (s.bins.find (binKey q n)).isNone with
    | some n => ({ s with bins := s.bins.put (binKey q n) { B with
        threads := ts, since := s.clk (q / 4) - B.since, came := came, carry := carry } }).modThreads ts
          fun T => { T with disp := .bin (binKey q n) }
    | none => ts.foldl (fun s t => s.fileThread { carry with block := B.block } B.pc t) s) s

/-- Restores a saved block at a site (R319, R229): every item comes back, an acquire is made at .dev, and a group that waited at
PSAFE goes on with true. -/
def State.restoreBlock (s : State) (b : Nat) (x : Site) : State :=
  match (s.block b).image with
  | none => s.startBlock b x
  | some I =>
    let c := x.core
    let s1 := s.settleAt b x
    let size := (s1.recOf b).spad
    let s2 := (banksOf x.spadAt size).foldl (fun s k => s.restoreBank c x.spadAt I.banks k) s1
    let s3 := (s2.zeroBytes (spadPa c x.spadAt) size).unslice (spadPa c x.spadAt) I.spad
    let s4 := (s1.block b).lead.tiles.foldl (fun s t => s.zeroTile c (s.tileOf b t)) s3
    let s5 := I.tiles.foldl (fun s p =>
      s.setByte (tilePa c (0x4000 * s.tileOf b (p.1 / 0x4000) + p.1 % 0x4000)) p.2) s4
    let ob := obPa c x.obAt
    let s6 := (s5.zeroOb ob (s1.recOf b).obquota).unslice ob I.ob
    let dirty : List (Nat × Nat) := I.obDirty.map fun (r : Nat × Nat) => (ob + r.1, r.2)
    let s7 := { s6 with obDirty := s6.obDirty ++ dirty }
    let name (t : Nat) : Nat := if coreOf t = savedCore b then
        1024 * c + 32 * x.runs.getD (slotOf t / 32) 0 + laneOf t else t
    let s8 := s7.rename name
    let seqs := ((x.runs.map fun r => 4 * c + r / 8)).eraseDups
    let s9 := seqs.foldl (fun s q => s.restoreJoins b q) s8
    let s10 := (s9.blockGroups b).foldl State.restoreGroup s9
    let moved (B : Bin) : Bin := { B with
      threads := B.threads.map name, came := B.came.foldl (fun m p => FMap.put m (name p.1) p.2) [], carry := B.carry.rename name }
    let s11 := I.bins.foldl (fun s B => s.restoreBin (moved B)) s10
    let part := s11.partOf b
    let opens := I.opens.map (MintReq.rename name)
    let s11 := if opens.isEmpty then s11 else { s11 with mintQ := s11.mintQ.put part (s11.mintQ.findD part [] ++ opens) }
    let s12 := (s11.refillLoops c).acquire c (s1.recOf b).tenant .dev
    (s12.blockGroups b).foldl (fun s g => match (s.groups.find g).bind Group.wait with
      | some (.psafe _ _) => s.psafeEnd g true
      | _ => s) s12

/-- Restores some blocks at their sites. -/
def State.restoreAll (s : State) (l : Nat) (bs : List Nat) (xs : List Site) : State :=
  ((bs.zip xs).foldl (fun s p => s.restoreBlock p.1 p.2) s).foundRoom l

/-- The restore that the arbiter would make next in a partition. -/
def State.restoreNext (s : State) (part : Nat) : Option (Nat × List Nat × List Site) :=
  match s.firstFit part with
  | some (l, .restore bs, xs) => some (l, bs, xs)
  | _ => none

/-- RESTORE (R84, R89, R92, R319). -/
def execRestore (b : Nat) (s : State) : Host.Outcome State Fault Refusal :=
  let next := s.restoreNext (s.partOf b)
  event s (match next with
      | some (_, bs, _) => bs.head? == some b
      | none => false) fun s => match next with
    | some (l, bs, xs) => s.restoreAll l bs xs
    | none => s

end Machine
end Sys2Proof
end

