-- ==== Sys2Proof/Machine/Preempt.lean ====
section
/-!
DEFINITION. Pre-emption (R93, R317 to R320, R432): the choice of a victim and of a kind, notice, SAVE, FLUSH and the checked flush;
and the schedule of tenants with its overrun debt and watchdog (R321, R322).
-/

namespace Sys2Proof
namespace Machine

/-! ## Victims and kinds (R84, R317) -/

/-- The resident blocks that a pre-emption of a block takes: its gang's, or itself. -/
def State.unitOf (s : State) (b : Nat) : List Nat :=
  let B := s.block b
  let R := s.recOf b
  if R.gangLevel.isSome then
    (s.blocksIn B.launch .resident).filter fun c => (s.block c).index / max R.gangSize 1 == B.index / max R.gangSize 1
  else [b]

/-- The context subtree of a block is exposed (R219). -/
def State.blockExposed (s : State) (b : Nat) : Bool := s.blockCtx b != 0 && s.subtreeExposed (s.blockCtx b)

/-- A unit may be pre-empted: none of its blocks is being pre-empted, and none of a checked launch is exposed (R432). -/
def State.takeable (s : State) (b : Nat) : Bool :=
  (s.unitOf b).all fun c => (s.block c).chosen == 0 && !(s.block c).going && !(s.paired c && s.blockExposed c)

/-- The block of a launch that a pre-emption takes first: the one with the highest index. -/
def State.victimIn (s : State) (l : Nat) : Option Nat := ((s.blocksIn l .resident).filter s.takeable).getLast?

/-- The victim that makes room for a launch: it is of the least urgent launch behind it in rank (R84). -/
def State.victimFor (s : State) (l : Nat) (ok : Launch → Bool) : Option Nat :=
  let L := s.launch l
  let behind := (s.launches.filter fun p => p.1 != l && p.2.part == L.part && p.2.state == .ready && !p.2.ending &&
    lexLess L.rank p.2.rank && ok p.2 && (s.victimIn p.1).isSome).foldl (fun r p => rankInsert p r) []
  (behind.getLast?).bind fun p => s.victimIn p.1

/-- A block is eligible for FLUSH (R317), but for its gang. -/
def State.flushable (s : State) (b : Nat) : Bool :=
  (s.recOf b).idem && s.blockCtx b != 0 && !s.blockExposed b &&
    (s.coresOf b).all fun c => (s.bside b c).mloops.all fun m => m.state != .running

/-- Cycles that a block has been resident. -/
def State.residentCycles (s : State) (b : Nat) : Nat := (s.block b).ran + (s.clk (s.block b).core - (s.block b).dispatchedAt)

/-- The kind of a pre-emption (Table 13-2, R432): 1 DRAIN, 2 SAVE, 3 FLUSH or the checked flush. -/
def State.kindFor (s : State) (b : Nat) : Nat :=
  let R := s.recOf b
  let flush := if (s.unitOf b).all s.flushable then 3 else 2
  let drains := R.progress != 0 && decide (R.progress < s.residentCycles b + (s.partRegs (s.partOf b)).drainth)
  if s.paired b then 3
  else match R.pref with
    | 1 => 1
    | 2 => 2
    | 3 => flush
    | _ => if drains then 1 else flush

/-! ## Notice (R318) -/

/-- Notice to a block that enables PREEMPT-NOTICE: the cause is posted to every group. -/
def State.giveNotice (s : State) (b : Nat) : State :=
  let B := s.block b
  if s.enabled b B.core cPreemptNotice then
    let s1 := s.modBlock b fun B => { B with notice := true, noticeAt := s.clk B.core }
    (s1.blockGroups b).foldl (fun s g => s.postCause g cPreemptNotice) s1
  else s

/-- A unit is chosen for a kind of pre-emption; a SAVE or FLUSH gives notice first. -/
def State.choose (s : State) (b kind : Nat) : State :=
  (s.unitOf b).foldl (fun s c =>
    let s1 := s.modBlock c fun B => { B with chosen := kind, chosenAt := s.clk B.core }
    if kind = 1 then s1 else s1.giveNotice c) s

/-- The group waits where a notice counts it (R318): at PSAFE, or in a wait of R101. -/
def Group.quiet (G : Group) : Bool := match G.wait with
  | some (.psafe _ _) => true
  | some w => w.slotless
  | none => false

/-- Every group of a block is quiet, and it has no thread in a bin. -/
def State.blockQuiet (s : State) (b : Nat) : Bool :=
  (s.groups.all fun p => p.2.block != b || p.2.quiet) && s.bins.all fun p => p.2.block != b

/-- A block is not owed any more time by a notice; `late` says that the notice window's end counts. -/
def State.noticeOver (s : State) (late : Bool) (b : Nat) : Bool :=
  !(s.block b).notice || s.blockQuiet b || (late && s.noticeLeft b == 0)

/-- The pre-emption of a unit chosen for a SAVE or FLUSH may begin. A SAVE needs room in the save area (R319). -/
def State.mayBegin (s : State) (late : Bool) (b : Nat) : Bool :=
  let bs := s.unitOf b
  bs.head? == some b && s.awake b && !(s.block b).going && decide (2 ≤ (s.block b).chosen) && bs.all (s.noticeOver late) &&
    ((s.block b).chosen != 2 || s.areaFits bs)

/-- Issue stops in a unit (R319, R320). -/
def State.halt (s : State) (b : Nat) : State :=
  (s.unitOf b).foldl (fun s c => s.modBlock c fun B => { B with going := true }) s

/-- NOTICE_WINDOW_EXPIRY (R318). -/
def execNoticeWindowExpiry (b : Nat) (s : State) : Host.Outcome State Fault Refusal :=
  event s (s.mayBegin true b && (s.block b).notice && !s.mayBegin false b) fun s => s.halt b

/-! ## The reasons for a pre-emption -/

/-- A ready launch has found no room for some time (Pre-emption, before R317). -/
def State.starved (s : State) (l time : Nat) : Bool :=
  let L := s.launch l
  L.state == .ready && !L.ending && decide (L.noRoomSince + time ≤ s.now) && (match s.nextOffer l with
    | some o => (s.planOffer l o).isNone
    | none => false)

/-- A victim is chosen, and the launch begins to wait anew. -/
def State.preemptFor (s : State) (l : Nat) (ok : Launch → Bool) : State :=
  match s.victimFor l ok with
  | some b => (s.choose b (s.kindFor b)).modLaunch l fun L => { L with noRoomSince := s.now }
  | none => s

/-- PREEMPT_DEADLINE_TIMEOUT (Pre-emption): a launch with a deadline class has found no room for 10 µs. -/
def execPreemptDeadlineTimeout (l : Nat) (s : State) : Host.Outcome State Fault Refusal :=
  let ok (_ : Launch) : Bool := true
  event s ((s.launch l).lrec.deadline != 0 && s.starved l (10 * Config.us) && (s.victimFor l ok).isSome)
    fun s => s.preemptFor l ok

/-- PREEMPT_TIER_TIMEOUT (Pre-emption): a launch of a more urgent tier has found no room for 100 µs. -/
def execPreemptTierTimeout (l : Nat) (s : State) : Host.Outcome State Fault Refusal :=
  let ok (V : Launch) : Bool := decide ((s.launch l).lrec.tier < V.lrec.tier)
  event s (s.starved l (100 * Config.us) && (s.victimFor l ok).isSome) fun s => s.preemptFor l ok

/-- DRAIN_TIMEOUT (R317): a draining block that has not exited after 4 x DRAINTH cycles is saved. -/
def execDrainTimeout (b : Nat) (s : State) : Host.Outcome State Fault Refusal :=
  let B := s.block b
  event s (s.awake b && B.chosen == 1 && (s.unitOf b).head? == some b &&
      decide (B.chosenAt + 4 * (s.partRegs (s.partOf b)).drainth ≤ s.clk B.core)) fun s =>
    s.choose b (if s.paired b then 3 else 2)

/-- A group waits at a returning atomic for its block to become the head (R244): a live one of its threads waits for that, and the next word
of the group is not ready. -/
def State.waitsAtHead (s : State) (G : Group) : Bool :=
  let R := s.recOf G.block
  (s.opLog.any fun p => (p.2.lanes.any fun l => G.lanes.contains l.thread) && s.atHead p.2) &&
    (match (s.fetchPa (clusterOf G.core) R.tenant R.world G.pc).1 with
      | .ok pa => !s.ready G (decode (s.fetchWord pa))
      | .error _ => false)

/-- A running block qualifies for an exchange (R93): its groups with threads that have not exited wait in WAITV, BARW or EVWAIT, or wait
to become the head, which is in WAITV (R244, R257). -/
def State.qualifies (s : State) (b : Nat) : Bool :=
  let free (c : Nat) : Bool := decide ((s.block c).chosen ≤ 1) && !(s.block c).going && !(s.paired c && s.blockExposed c)
  (s.unitOf b).all free && (s.bins.all fun p => p.2.block != b) &&
    s.groups.all fun p => p.2.block != b || p.2.lanes.isEmpty || match p.2.wait with
      | some (.waitv _) | some (.barw _) | some (.evwait ..) | some (.ordhead _) => true
      | some _ => false
      | none => s.waitsAtHead p.2

/-- The block that an exchange for a saved block would save (R93). -/
def State.exchangeVictim (s : State) (b : Nat) : Option Nat :=
  ((s.blocksIn (s.block b).launch .resident).filter s.qualifies).getLast?

/-- The saved blocks that are restored together with a block. -/
def State.savedUnit (s : State) (b : Nat) : List Nat :=
  let B := s.block b
  let R := s.recOf b
  if R.gangLevel.isSome then
    (s.blocksIn B.launch .saved).filter fun c => (s.block c).index / max R.gangSize 1 == B.index / max R.gangSize 1
  else [b]

/-- EXCHANGE_TIMEOUT (R93): a saved block has waited 50 µs and nothing that fits has freed. -/
def execExchangeTimeout (b : Nat) (s : State) : Host.Outcome State Fault Refusal :=
  let B := s.block b
  let us := s.savedUnit b
  event s (B.residence == .saved && us.head? == some b && decide (B.waitingSince + 50 * Config.us ≤ s.now) &&
      !(s.launch B.launch).ending && (s.planRestore B.launch us).isNone && (s.blocks.all fun p => p.2.exchange != some b) &&
      (s.exchangeVictim b).isSome) fun s =>
    match s.exchangeVictim b with
    | some v => (s.choose v (if s.paired v then 3 else 2)).modBlock v fun B => { B with exchange := some b }
    | none => s

/-- The room that an exchange has freed goes to the saved block that waited for it (R93). -/
def State.exchangeRoom (s : State) (ex : Option Nat) : State :=
  match ex with
  | none => s
  | some e =>
    let us := s.savedUnit e
    let l := (s.block e).launch
    if (s.block e).residence != .saved then s
    else match s.planRestore l us with
      | some xs => s.restoreAll l us xs
      | none => s

/-- The exchange that a unit was chosen for. -/
def State.exchangeOf (s : State) (bs : List Nat) : Option Nat := bs.findSome? fun c => (s.block c).exchange

/-! ## SAVE and FLUSH -/

/-- SAVE (R319): issue stops; once everything that must be over is over, the images are written and the room is freed. -/
def execSave (b : Nat) (s : State) : Host.Outcome State Fault Refusal :=
  let bs := s.unitOf b
  let B := s.block b
  let done := B.going && B.chosen == 2 && s.awake b && bs.head? == some b && bs.all s.saveReady
  event s (B.chosen == 2 && (done || s.mayBegin false b)) fun s =>
    if done then (bs.foldl State.saveBlock s).exchangeRoom (s.exchangeOf bs) else s.halt b

/-- A block is to be run again from its entry (R320, R324, R330, R432): its context is voided and its tag passes to its new context,
its MLOOPs are discarded, its engine work is cancelled, its room is freed, and it waits as a saved block without an image. -/
def State.rerunBlock (s : State) (b : Nat) : State :=
  let s1 := ((((s.reopenBlockCtx b).dropEngines b).dropMatrix b).dropIssue b).vacate b .saved
  let s2 := s1.modBlock b fun B => { B with image := none, waitingSince := s.now, exchange := none, items := [], itemNo := [] }
  s2.modLaunch (s.block b).launch fun L => { L with noRoomSince := s.now }

/-- A notice is withdrawn, and the unit goes on. -/
def State.withdraw (s : State) (bs : List Nat) : State :=
  bs.foldl (fun s c => s.modBlock c fun B => { B with notice := false, chosen := 0, going := false, exchange := none }) s

/-- A unit chosen for a FLUSH may be flushed now. -/
def State.flushDue (s : State) (b : Nat) : Bool :=
  let B := s.block b
  B.chosen == 3 && s.awake b && (s.unitOf b).head? == some b && (B.going || s.mayBegin false b)

/-- FLUSH (R320, R220): a unit of which a block has come to be exposed since is saved instead. -/
def execFlush (b : Nat) (s : State) : Host.Outcome State Fault Refusal :=
  event s (s.flushDue b && !s.paired b) fun s =>
    let bs := s.unitOf b
    if bs.any s.blockExposed then
      bs.foldl (fun s c => s.modBlock c fun B => { B with chosen := 2, going := false }) s
    else (bs.foldl State.rerunBlock s).exchangeRoom (s.exchangeOf bs)

/-- CHECKED_FLUSH (R432): a unit of which a block has come to be exposed since is not pre-empted. The new run counts as no re-execution,
even of a block whose last run was one. -/
def execCheckedFlush (b : Nat) (s : State) : Host.Outcome State Fault Refusal :=
  event s (s.flushDue b && s.paired b) fun s =>
    let bs := s.unitOf b
    let anew (s : State) (b : Nat) : State := (s.rerunBlock b).modBlock b fun B => { B with rerun := false, ownRerun := false }
    if bs.any s.blockExposed then s.withdraw bs
    else (bs.foldl anew s).exchangeRoom (s.exchangeOf bs)

/-! ## The schedule of tenants (R321, R322) -/

/-- A schedule entry: its number, its quarters and its length (R321). -/
structure SchedEntry where
  no : Nat
  quarters : Nat
  len : Nat
  deriving DecidableEq, Repr

/-- The valid entries of a core's schedule. -/
def State.schedEntries (s : State) (core : Nat) : List SchedEntry :=
  (upFrom 0 8).filterMap fun j =>
    let d := (s.cfg.sched.findD (8 * core + j) 0).toNat
    if bitOf d 63 then some ⟨j, bitsOf d 32 4, max (bitsOf d 0 32) 1024⟩ else none

/-- The place of a core in its schedule: the number of the entry, its first cycle, and the length of the entry before it. -/
def State.schedAt (s : State) (core : Nat) : Nat × Nat × Nat := s.schedPos.findD core (0, 0, 0)

/-- The entry that a core is in: that of its place, or the next valid one. -/
def State.schedNow (s : State) (core : Nat) : Option SchedEntry :=
  let es := s.schedEntries core
  match es.find? fun e => decide ((s.schedAt core).1 ≤ e.no) with
  | some e => some e
  | none => es.head?

/-- The schedule of a core gates a thread quarter (R321). -/
def State.gatedQ (s : State) (core q : Nat) : Bool := match s.schedNow core with
  | none => false
  | some e => !bitOf e.quarters q

/-- A sequencer issues nothing: its quarter is not in the entry, or pays its tenant's debt (R321, R322). -/
def State.gated (s : State) (seq : Nat) : Bool :=
  s.gatedQ (seq / 4) (seq % 4) ||
    ((s.schedNow (seq / 4)).isSome && decide (s.clk (seq / 4) < s.schedOff.findD seq 0))

/-- The debt of the owner of a quarter, if it has one. -/
def State.debtOf (s : State) (core q : Nat) : Nat := match s.quarterOwner core q with
  | some u => s.debt.findD (debtKey core u) 0
  | none => 0

/-- Enters an entry at a cycle: the debts of its tenants are taken from it. An entry that is shorter than the debt of all its tenants
is skipped, and its length is taken off each. The number bounds the entries that are skipped at once. -/
def State.enterEntry (s : State) (core at_ prev : Nat) (e : SchedEntry) : Nat → State
  | 0 => { s with schedPos := s.schedPos.put core (e.no, at_, prev) }
  | n + 1 =>
    let qs := (upFrom 0 4).filter (bitOf e.quarters)
    let owners := (qs.filterMap (s.quarterOwner core)).eraseDups
    let debts := owners.map fun u => (u, s.debt.findD (debtKey core u) 0)
    let pay (m : FMap Nat) (p : Nat × Nat) : FMap Nat := m.store 0 (debtKey core p.1) (p.2 - e.len)
    let s1 := { s with debt := debts.foldl pay s.debt }
    if !owners.isEmpty && debts.all fun p => decide (e.len < p.2) then
      let es := s.schedEntries core
      let next := match es.find? fun x => decide (e.no < x.no) with
        | some x => x
        | none => es.headD e
      s1.enterEntry core at_ prev next n
    else
      let off (m : FMap Nat) (q : Nat) : FMap Nat := m.store 0 (4 * core + q) (match s.quarterOwner core q with
        | some u => if s.debt.findD (debtKey core u) 0 = 0 then 0 else at_ + min (s.debt.findD (debtKey core u) 0) e.len
        | none => 0)
      { s1 with schedOff := qs.foldl off s1.schedOff, schedPos := s1.schedPos.put core (e.no, at_, prev) }

/-- SCHED_ENTRY_END (R321). -/
def execSchedEntryEnd (core : Nat) (s : State) : Host.Outcome State Fault Refusal :=
  event s (match s.schedNow core with
      | some e => decide ((s.schedAt core).2.1 + e.len ≤ s.clk core)
      | none => false) fun s => match s.schedNow core with
    | some e =>
      let es := s.schedEntries core
      let next := match es.find? fun x => decide (e.no < x.no) with
        | some x => x
        | none => es.headD e
      s.enterEntry core (s.clk core) e.len next 8
    | none => s

/-- A block has work on a core that cannot be pre-empted (R322): a running MLOOP, or commands on engines. -/
def State.goesOn (s : State) (b core : Nat) : Bool :=
  ((s.bside b core).mloops.any fun m => m.state == .running) ||
    (core == (s.block b).core && s.engines.any fun q => q.2.any fun c => c.block == b && c.ended.isNone)

/-- A block has such work on a core after its tenant's entry has ended (R322): the overrun begins while its quarters are gated, and lasts
until the work has ended, also through later entries (log 16). -/
def State.overruns (s : State) (b core : Nat) : Bool :=
  let B := s.block b
  s.awake b && !(s.schedEntries core).isEmpty && s.goesOn b core && (B.overrun != 0 || (B.gslots.map (· / 8)).all (s.gatedQ core))

/-- Some cycles pass on a core: work of its blocks that overruns their tenants' entries makes debt (R322). A block's overrun counts once, with
the clock of its core; its follower's core may be the one that is late. -/
def State.overrunFor (s : State) (core cycles : Nat) : State :=
  let bs := (s.blocks.filter fun p => p.2.residence == .resident && (s.coresOf p.1).contains core).map Prod.fst
  let late := bs.filter fun b => s.overruns b core
  let tenants := (late.map fun b => (s.recOf b).tenant).eraseDups
  let add (m : FMap Nat) (u : Nat) : FMap Nat := m.put (debtKey core u) (m.findD (debtKey core u) 0 + cycles)
  let s1 := { s with debt := tenants.foldl add s.debt }
  bs.foldl (fun st b => st.modBlock b fun B =>
    if core ≠ B.core then B
    else match (s.coresOf b).find? (s.overruns b) with
      | some c => { B with overLen := if B.overrun = 0 then (s.schedAt c).2.2 else B.overLen, overrun := B.overrun + cycles }
      | none => { B with overrun := 0, overLen := 0 }) s1

/-- The MLOOPs of a block are discarded; its records and claims stay. -/
def State.discardLoops (s : State) (b : Nat) : State :=
  let s1 := (s.coresOf b).foldl (fun s c => s.modBside b c fun S => { S with mloops := [] }) s
  let mq : FMap (List (Nat × Nat)) := (s1.mqueue.map fun (p : Nat × List (Nat × Nat)) =>
    (p.1, p.2.filter fun x => x.1 != b)).filter fun p => !p.2.isEmpty
  { s1 with mqueue := mq }

/-- OVERRUN_WATCHDOG (R322, R316). -/
def execOverrunWatchdog (b : Nat) (s : State) : Host.Outcome State Fault Refusal :=
  let B := s.block b
  event s (s.awake b && B.overLen != 0 && decide (4 * B.overLen ≤ B.overrun)) fun s =>
    let tag := s.blockCtx b
    let below := if tag = 0 then [] else (s.ctxs.filter fun q => q.2.state != .retired && s.within q.1 tag).map Prod.fst
    let s1 := ((s.discardLoops b).cancelCmds fun c => c.block == b).voidNow below
    let debt := (s.coresOf b).foldl (fun m c => FMap.del m (debtKey c (s.recOf b).tenant)) s1.debt
    let s2 := { s1 with debt := debt }.modBlock b fun B => { B with overrun := 0, overLen := 0 }
    let s3 := (s2.blockGroups b).foldl (fun s g => s.postCause g cWatchdog) s2
    if tag = 0 then s3 else s3.endLaunch B.launch stAborted

end Machine
end Sys2Proof
end

