-- ==== Sys2Proof/Machine/Checked.lean ====
section
/-!
DEFINITION. Checked execution (R325 to R331): the pairing of the clusters of a slice and its mode change (Table 13-4), auto mode, the
assay's mismatches with the re-run of blocks and the fencing of a pair, and the pass of the assay. The change of a cluster's rail
(R18) stands at the start.
-/

namespace Sys2Proof
namespace Machine

/-! ## Rails (R18) -/

/-- The rail of a cluster. -/
def State.rail (s : State) (c : Nat) : Rail := s.rails.findD c Rail.init

/-- A cluster begins to change to a rail: its clock counts on, and its issue pauses until RAIL_CHANGE_COMPLETE. -/
def State.moveRail (s : State) (c : Nat) (high : Bool) : State :=
  let r := s.rail c
  if r.high = high then s
  else { s with rails := s.rails.put c { r with high := high, clk := s.clusterClk c, at_ := s.now, changing := true } }

/-- RAIL_CHANGE_COMPLETE (R18): issue on the cluster goes on. -/
def execRailChangeComplete (cluster : Nat) (s : State) : Host.Outcome State Fault Refusal :=
  event s (s.rail cluster).changing fun s =>
    { s with rails := s.rails.put cluster { s.rail cluster with changing := false } }

/-! ## Changes of mode (R325, Table 13-4) -/

/-- Blocks that are resident on a slice. -/
def State.sliceBlocks (s : State) (slice : Nat) : List Nat :=
  (s.blocks.filter fun p => p.2.residence == .resident && sliceOf p.2.core == slice).map Prod.fst

/-- A change of mode starts: step 1, and step 2 waits for the resident blocks. -/
def State.startChange (s : State) (slice : Nat) (toPaired : Bool) : State :=
  s.modPair slice fun P => { P with state := 1, toPaired := toPaired, step := 2, stepAt := s.now }

/-- What a slice's request asks against its state: a change to paired, or one back that neither bit stands against. -/
def PairCtl.asks (P : PairCtl) : Option Bool :=
  if P.state = 0 ∧ P.req then some true
  else if P.state = 2 ∧ !P.req ∧ !P.auto then some false
  else none

/-- Starts the change that a slice's request asks for. -/
def State.obeyRequest (s : State) (slice : Nat) : State := match (s.pairOf slice).asks with
  | some p => s.startChange slice p
  | none => s

/-- PAIRCTL_WRITE (R325): the request is stored; a change in progress goes on. -/
def execPairctlWrite (slice : Nat) (v : DWord) (s : State) : Host.Outcome State Fault Refusal :=
  event s (decide (slice < 12)) fun s =>
    (s.modPair slice fun P => { P with req := bitOf v.toNat 0, auto := bitOf v.toNat 1 }).obeyRequest slice

/-- The first core of a slice. -/
def firstCore (slice : Nat) : Nat := 4 * slice

/-- The L1s of the four cores and both cluster TLBs are invalidated (step 3). -/
def State.invalidateSlice (s : State) (slice : Nat) : State :=
  { s.l1Drop fun l => sliceOf l.core == slice with tlb := s.tlb.filter fun t => t.cluster / 2 != slice }

/-- Issue reset (step 5): slots, bins, scoreboards, logs and matrix queues of the four cores are cleared, and banks go OFF. -/
def State.issueReset (s : State) (slice : Nat) : State :=
  let mine (core : Nat) : Bool := sliceOf core == slice
  let thaw (p : Nat × Seqr) : Nat × Seqr := (p.1, if mine (p.1 / 4) then { p.2 with frozen := none } else p.2)
  let seqs := s.seqs.map thaw
  let s1 := { s with
    groups := s.groups.filter fun p => !mine p.2.core
    bins := s.bins.filter fun p => !mine (p.1 / Config.binsPerQuarter / 4)
    opLog := s.opLog.filter fun p => !mine (p.2.seq / 4)
    inflight := s.inflight.filter fun p => !p.2.writes.any fun w => mine (coreOf w.thread)
    threads := s.threads.filter fun p => !mine (coreOf p.1)
    mqueue := s.mqueue.filter fun p => !mine p.1
    seqs := seqs }
  (s1.spadBanks.filter fun p => mine (p.1 / 16)).foldl (fun s p => s.setSpad (p.1 / 16) (p.1 % 16) .off) s1

/-- Both clusters of a slice move to the high rail (step 4). -/
def State.raiseSlice (s : State) (slice : Nat) : State := (s.moveRail (2 * slice) true).moveRail (2 * slice + 1) true

/-- The next step of a change is due. -/
def State.stepDue (s : State) (slice : Nat) : Bool :=
  let P := s.pairOf slice
  let clk := s.clk (firstCore slice)
  P.state == 1 && (match P.step with
    | 2 => (s.sliceBlocks slice).isEmpty
    | 3 => decide (P.stepAt + 512 ≤ clk)
    | 4 => !(s.rail (2 * slice)).changing && !(s.rail (2 * slice + 1)).changing
    | 5 => decide (P.stepAt + 64 ≤ clk)
    | _ => false)

/-- Goes to a step at the present cycle of the slice's first core. -/
def State.toStep (s : State) (slice n : Nat) : State :=
  s.modPair slice fun P => { P with step := n, stepAt := s.clk (firstCore slice) }

/-- Makes the next step of a change of mode. -/
def State.stepChange (s : State) (slice : Nat) : State :=
  let P := s.pairOf slice
  match P.step with
  | 2 => (s.invalidateSlice slice).toStep slice 3
  | 3 => if P.toPaired then (s.raiseSlice slice).toStep slice 4 else (s.issueReset slice).toStep slice 5
  | 4 => (s.issueReset slice).toStep slice 5
  | 5 => (s.modPair slice fun P => { P with state := if P.toPaired then 2 else 0, step := 0 }).obeyRequest slice
  | _ => s

/-- PAIR_MODE_CHANGE (Table 13-4): the SSV makes the next step of a change. -/
def execPairModeChange (slice : Nat) (s : State) : Host.Outcome State Fault Refusal :=
  event s (s.stepDue slice) fun s => s.stepChange slice

/-- The units that step 2 pre-empts on a slice: SAVE, or the checked flush on a change back (R432). -/
def State.drainUnits (s : State) (slice : Nat) : List Nat :=
  (s.sliceBlocks slice).filter fun b => (s.unitOf b).head? == some b &&
    (s.unitOf b).all fun c => decide ((s.block c).chosen ≤ 1) && !(s.block c).going && !(s.paired c && s.blockExposed c)

/-- PAIR_DRAIN_TIMEOUT (Table 13-4 step 2): blocks still resident after 100 µs are pre-empted. -/
def execPairDrainTimeout (slice : Nat) (s : State) : Host.Outcome State Fault Refusal :=
  let P := s.pairOf slice
  event s (P.state == 1 && P.step == 2 && decide (P.stepAt + 100 * Config.us ≤ s.now) && !(s.drainUnits slice).isEmpty)
    fun s => (s.drainUnits slice).foldl (fun s b => s.choose b (if s.paired b then 3 else 2)) s

/-- The slice that auto mode pairs: the lowest unpaired one, for a ready checked launch of a partition without a paired slice. -/
def State.autoSlice (s : State) (part : Nat) : Option Nat :=
  let xs := s.partSlices part
  let has := xs.any fun x => (s.pairOf x).state == 2 || ((s.pairOf x).state == 1 && (s.pairOf x).toPaired)
  if has || !(s.ranked part).any (fun p => decide (2 ≤ p.2.lrec.il)) then none
  else xs.find? fun x => (s.pairOf x).state == 0 && (s.pairOf x).auto

/-- AUTO_PAIR (R325). -/
def execAutoPair (part : Nat) (s : State) : Host.Outcome State Fault Refusal :=
  event s (s.autoSlice part).isSome fun s => match s.autoSlice part with
    | some x => s.startChange x true
    | none => s

/-- Auto mode unpairs a slice: no checked block is resident on it, no checked launch is ready, and an unchecked one has found no
room for 100 µs. -/
def State.autoUnpairs (s : State) (slice : Nat) : Bool :=
  let P := s.pairOf slice
  P.auto && !P.req && P.state == 2 && ((s.sliceBlocks slice).all fun b => decide ((s.recOf b).il < 2)) &&
    match s.slicePart slice with
    | some f => !((s.ranked f).any fun p => decide (2 ≤ p.2.lrec.il)) &&
        (s.ranked f).any fun p => decide (p.2.lrec.il < 2) && s.starved p.1 (100 * Config.us)
    | none => false

/-- AUTO_UNPAIR_TIMEOUT (R325). -/
def execAutoUnpairTimeout (slice : Nat) (s : State) : Host.Outcome State Fault Refusal :=
  event s (s.autoUnpairs slice) fun s => s.startChange slice false

/-! ## Mismatches (R330, R331) -/

/-- The dwords of an item: its address, its data, and what else is compared. -/
def Item.dwords (i : Item) : List Nat :=
  i.addr :: (upFrom 0 32).map (fun k => bitsOf i.data (64 * k) 64) ++ [i.extra % 2 ^ 64, i.size, i.kind]

/-- The first dwords in which two items differ; an item that has not come is all zero. -/
def firstDiff (i j : Option Item) : Nat × Nat :=
  let ds (o : Option Item) : List Nat := match o with
    | some x => x.dwords
    | none => List.replicate 36 0
  (((ds i).zip (ds j)).find? fun p => p.1 != p.2).getD (0, 0)

/-- A block must be run again (R324, R330): `own` says that the cause was its own. What it was run again for before stays. -/
def State.rerunFor (s : State) (b : Nat) (own : Bool) : State :=
  let before := (s.block b).ownRerun
  (s.rerunBlock b).modBlock b fun B => { B with rerun := true, ownRerun := own || before }

/-- The record of a mismatch (Table 13-6); the last 256 are kept. It is posted to the event ring (Table 15-4). -/
def State.mismatchRecord (s : State) (b slot kind pc : Nat) (diff : Nat × Nat) : State :=
  let B := s.block b
  let d0 := s.mmSeq % 2 ^ 16 * 2 ^ 48 + sliceOf B.core * 2 ^ 44 + B.core % 2 * 2 ^ 42 + slot % 1024 * 2 ^ 32 + kind * 2 ^ 28 +
    bitNat (s.blockExposed b) * 2 ^ 27 + bitNat B.ownRerun * 2 ^ 26 + B.index % 2 ^ 26
  let r : Mismatch := ⟨BitVec.ofNat 64 d0, BitVec.ofNat 64 (pc % 2 ^ 52), BitVec.ofNat 64 diff.1, BitVec.ofNat 64 diff.2⟩
  let all := s.mismatches ++ [r]
  ({ s with mismatches := all.drop (all.length - 256), mmSeq := (s.mmSeq + 1) % 2 ^ 16 }).evPost 4 (sliceOf B.core) kind s.mmSeq

/-- ASSAY is recorded in a group, and never delivered; its cause bitmap stays where its slot shows it, for state readback (R331). -/
def State.recordAssayIn (s : State) (g : Nat) : State :=
  match s.groups.find g with
  | some G =>
    let G1 := G.recordAll G.pc (allRaise G.lanes cAssay)
    let s1 := s.setGroup g G1
    match G.slot with
    | some k => { s1 with assayed := s1.assayed.put (32 * G.seq + k) G1.causes }
    | none => s1
  | none => s

/-- ASSAY is recorded in the groups of a block. -/
def State.recordAssay (s : State) (b : Nat) : State := (s.blockGroups b).foldl State.recordAssayIn s

/-- Another slice of the partition that is paired, or that auto mode can pair (R330). -/
def State.otherPair (s : State) (part slice : Nat) : Bool :=
  (s.partSlices part).any fun x => x != slice && ((s.pairOf x).state == 2 ||
    ((s.pairOf x).state == 1 && (s.pairOf x).toPaired) || ((s.pairOf x).auto && (s.pairOf x).state != 3))

/-- A mismatch of a block (R330): the record; a lasting fault fences the pair; the blocks of the pair are voided and placed again, but
for those that are exposed or whose launch ends; an issue reset. -/
def State.mismatch (s : State) (b slot kind pc : Nat) (diff : Nat × Nat) : State :=
  let slice := sliceOf (s.block b).core
  let lasting := (s.block b).ownRerun && !s.blockExposed b
  let bs := s.sliceBlocks slice
  let s1 := s.mismatchRecord b slot kind pc diff
  let s2 := if lasting then (s1.modPair slice fun P => { P with state := 3, step := 0 }).evPost 5 slice 0 0 else s1
  let s3 := bs.foldl State.recordAssay s2
  let gone (c : Nat) : Bool := s.blockExposed c ||
    (lasting && c == b && ((s.recOf b).il == 2 || !s.otherPair (s.partOf b) slice))
  let s4 := bs.foldl (fun s c => if gone c then s.endLaunch (s.block c).launch stFault else s) s3
  let s5 := bs.foldl (fun s c => if gone c then (((s.dropMatrix c).dropEngines c).dropIssue c) else s.rerunFor c (c == b)) s4
  s5.issueReset slice

/-- The lowest items of the two sides that oppose each other and differ. -/
def State.differing (s : State) (b : Nat) : Option (Item × Item) :=
  let items := (s.block b).items
  (items.filter fun i => i.side == 0).findSome? fun i =>
    (items.find? fun j => i.opposes j && !i.agrees j).map fun j => (i, j)

/-- A checked block runs. -/
def State.checkedRuns (s : State) (b : Nat) : Bool := s.paired b && s.awake b && !(s.launchOf b).ending

/-- ASSAY_MISMATCH (R327, R330). -/
def execAssayMismatch (b : Nat) (s : State) : Host.Outcome State Fault Refusal :=
  event s (s.checkedRuns b && (s.differing b).isSome) fun s => match s.differing b with
    | some (i, j) => s.mismatch b i.slot i.kind i.pc (firstDiff (some i) (some j))
    | none => s

/-- The item of a checked block that has waited 1 ms for the item that matches it (R327). -/
def State.lateItem (s : State) (b : Nat) : Option Item :=
  (s.block b).items.find? fun i => (decide (i.kind < 8) || i.kind == kindMark) && decide (i.since + 1000 * Config.us ≤ s.now)

/-- ASSAY_TIMEOUT (R327). -/
def execAssayTimeout (b : Nat) (s : State) : Host.Outcome State Fault Refusal :=
  event s (s.checkedRuns b && (s.lateItem b).isSome) fun s => match s.lateItem b with
    | some i =>
      if i.side = 0 then s.mismatch b i.slot 5 i.pc (firstDiff (some i) none)
      else s.mismatch b i.slot 5 0 (firstDiff none (some i))
    | none => s

/-- A checked block has passed the assay (R329). -/
def State.assayPassed (s : State) (b : Nat) : Bool :=
  let B := s.block b
  s.paired b && B.residence == .exited && !(s.launchOf b).ending && (B.items.all fun i => decide (8 ≤ i.kind)) &&
    (s.ctx B.ctx).owner == b && (s.ctx B.ctx).state == .opened

/-- ASSAY_PASS (R329, R330): the block context begins to settle; a block that was run again marks a transient fault. -/
def execAssayPass (b : Nat) (s : State) : Host.Outcome State Fault Refusal :=
  event s (s.assayPassed b) fun s =>
    let B := s.block b
    let s1 := if B.rerun then s.countTransient B.launch B.core else s
    (s1.modBlock b fun B => { B with items := [], rerun := false, ownRerun := false }).beginSettle B.ctx

end Machine
end Sys2Proof
end

