-- ==== Sys2Proof/Machine/DataFaults.lean ====
section
/-!
DEFINITION. Data faults, their one retry and what a failed retry comes to at each integrity level (R323, R324, Table 13-3,
Table 15-8).
-/

namespace Sys2Proof
namespace Machine

/-- The line of addresses that a fault concerns. -/
def faultLine (f : DataFault) : Nat := f.addr / 64

/-- What met a fault. -/
inductive FaultSite where
  /-- the running MLOOP of a block, at an operand-buffer unit or at a line that it fetches -/
  | loop (b : Nat)
  /-- a lane of a logged word -/
  | entry (id : Nat) (e : LogEntry)
  /-- an ACP copy, in its source -/
  | copy (id : Nat) (c : AcpCopy)
  /-- the command that an engine instance works on -/
  | cmd (c : EngCmd)
  /-- the fetch of a group's next word -/
  | fetch (b g pc : Nat)
  /-- another read of the lane -/
  | lane (b pc : Nat)
  deriving DecidableEq, Repr

/-- The block of what met a fault. -/
def FaultSite.block : FaultSite → Nat
  | .loop b => b
  | .entry _ e => e.block
  | .copy _ c => c.block
  | .cmd c => c.block
  | .fetch b _ _ => b
  | .lane b _ => b

/-- The program counter that goes with a fault. -/
def FaultSite.pc : FaultSite → Nat
  | .entry _ e => e.pc
  | .fetch _ _ pc => pc
  | .lane _ pc => pc
  | _ => 0

/-- The running MLOOP of the thread that stops if the line stays uncorrectable: its block. -/
def State.loopHit (s : State) (f : DataFault) : Option Nat :=
  match s.runLoop (coreOf f.thread) (some (faultLine f)) with
  | some (b, m, .stopped d _, _) =>
    if m.thread == f.thread && (d.fault.map LaneCause.cause) == some cEccUncorr then some b else none
  | _ => none

/-- The oldest live log entry in which the thread has a lane at the line. -/
def State.entryHit (s : State) (f : DataFault) : Option (Nat × LogEntry) :=
  s.opLog.find? fun p => !p.2.dormant && p.2.lanes.any fun l =>
    l.thread == f.thread && (s.laneVlines p.2.instr l).contains (faultLine f : Int)

/-- The copy of the thread whose source lies on the line. -/
def State.copyHit (s : State) (f : DataFault) : Option (Nat × AcpCopy) :=
  s.acps.find? fun p => p.2.thread == f.thread && decide (p.2.vaddr / 64 ≤ (faultLine f) ∧ (faultLine f) ≤ (p.2.vaddr + 31) / 64)

/-- A command as it would go on if a line stayed uncorrectable. -/
def State.workBad (s : State) (line : Nat) (c : EngCmd) : State × EngCmd := s.work { c with bad := some line }

/-- The command of the thread that an instance works on and that ends at the line if it stays uncorrectable (R266). -/
def State.cmdHit (s : State) (f : DataFault) : Option EngCmd :=
  (s.engines.keys.filterMap s.working).find? fun c =>
    c.thread == f.thread && (s.workBad (faultLine f) c).2.ended != (s.work c).2.ended

/-- The group of the thread, if its next word is fetched from the line (R106). -/
def State.fetchHit (s : State) (f : DataFault) : Option (Nat × Group) :=
  (s.groupOf f.thread).bind fun g => (s.groups.find g).bind fun G =>
    if G.wait.isNone && G.deliver.isNone && G.pc / 64 == (faultLine f) then some (g, G) else none

/-- The program counter of the group of a thread. -/
def State.threadPc (s : State) (t : Nat) : Nat := (((s.groupOf t).bind s.groups.find).map Group.pc).getD 0

/-- What met a fault, by the line of its address (log 55). -/
def State.faultSite (s : State) (f : DataFault) : FaultSite :=
  match (if f.struct = 2 then none else s.loopHit f), s.entryHit f, s.copyHit f, s.cmdHit f, s.fetchHit f with
  | some b, _, _, _, _ => .loop b
  | none, some p, _, _, _ => .entry p.1 p.2
  | none, none, some p, _, _ => .copy p.1 p.2
  | none, none, none, some c, _ => .cmd c
  | none, none, none, none, some p => .fetch p.2.block p.1 p.2.pc
  | none, none, none, none, none => .lane (s.thread f.thread).block (s.threadPc f.thread)

/-- One lane of an entry fails its read: it gets an entry of its own, unless the word has one access for all its lanes or is a
WAITV. -/
def State.eccEntry (s : State) (f : DataFault) (id : Nat) (e : LogEntry) : State :=
  let c : LaneCause := ⟨f.thread, cEccUncorr, f.addr, 0⟩
  let mine := e.lanes.filter fun l => l.thread == f.thread
  let rest := e.lanes.filter fun l => l.thread != f.thread
  if isShared e.instr then s.faultLanes id e (e.lanes.map fun l => { c with thread := l.thread })
  else if isWaitv e.instr ∨ rest.isEmpty then s.faultLanes id e [c]
  else
    let own := { e with lanes := mine }
    let log := (s.opLog.put id { e with lanes := rest }).put s.nextId own
    { s.fresh with opLog := log }.faultLanes s.nextId own [c]

/-- A copy whose source stays uncorrectable ends: ECC-UNCORR is raised for its lane at its next ACWAIT on the tag (R202). -/
def State.eccCopy (s : State) (f : DataFault) (id : Nat) (c : AcpCopy) : State :=
  { s.modThread c.thread fun T => { T with
      acp := listSet T.acp c.tag (T.acp.getD c.tag 0 - 1), acpEcc := T.acpEcc.put c.tag f.addr } with
    acps := s.acps.del id }

/-- A command ends with FAULT and ECC-UNCORR (R266). -/
def State.eccCmd (s : State) (f : DataFault) (c : EngCmd) : State :=
  let r := s.workBad (faultLine f) c
  r.1.modCmd c.id fun _ => { r.2 with bad := none }

/-- ECC-UNCORR for what met the fault (Table 13-3 at IL0, Table 15-8): every lane of a group for a fetch (R106), else the lanes whose
read has failed. -/
def State.eccAt (s : State) (f : DataFault) : FaultSite → State
  | .loop _ => s.stopLoop (coreOf f.thread) (some (faultLine f))
  | .entry id e => s.eccEntry f id e
  | .copy id c => s.eccCopy f id c
  | .cmd c => s.eccCmd f c
  | .fetch _ g pc => match s.groups.find g with
    | some G => s.lateFaults pc (G.lanes.map fun t => ⟨t, cEccUncorr, pc, 0⟩)
    | none => s
  | .lane _ pc => s.lateFaults pc [⟨f.thread, cEccUncorr, f.addr, 0⟩]

/-- ECC-UNCORR for what met the fault. -/
def State.eccLane (s : State) (f : DataFault) : State := s.eccAt f (s.faultSite f)

/-- The block that met a fault. -/
def State.faultBlock (s : State) (f : DataFault) : Nat := (s.faultSite f).block

/-- The fault was met by an access of a block that runs: of a thread of it, or of its copies, commands and MLOOPs. -/
def State.faultLive (s : State) (f : DataFault) : Bool :=
  let b := s.faultBlock f
  s.awake b && !(s.launchOf b).ending && (match s.faultSite f with
    | .lane _ _ => (s.thread f.thread).occupied
    | _ => true)

/-- A retry has failed (Table 13-3, R324, R330). -/
def State.failedRetry (s : State) (f : DataFault) : State :=
  let b := s.faultBlock f
  if !s.faultLive f then s
  else match (s.recOf b).il with
    | 0 => s.eccLane f
    | 1 =>
      if s.blockExposed b then s.eccLane f
      else if (s.block b).ownRerun then s.endLaunch (s.block b).launch stFault
      else s.rerunFor b true
    | _ => s.mismatch b (slotOf f.thread) 6 (s.threadPc f.thread) (0, 0)

/-- The context and tenant under which what met a fault reads the L1. -/
def State.faultView (s : State) (f : DataFault) : Nat × Nat :=
  let ctx := match s.faultSite f with
    | .entry _ e => ((e.lanes.find? fun l => l.thread == f.thread).map LaneSrc.ctx).getD 0
    | _ => (s.thread f.thread).ctx
  (ctx, (s.recOf (s.faultBlock f)).tenant)

/-- The line of an L1 in which a fault was found goes, whatever the retry gives: it is refetched from L2 (R183, Table 15-8). -/
def State.dropFaulty (s : State) (f : DataFault) : State :=
  if f.struct = 0 then s.l1Drop fun l =>
    l.core == coreOf f.thread && l.vline == (faultLine f) && (l.tag, l.tenant) == s.faultView f
  else s

/-- The retry of a fault succeeds; a structure of code 2 has none (Table 15-8). -/
def faultMended (f : DataFault) : Bool := f.retryOk && f.struct != 2

/-- DATA_FAULT_RETRY (R323). A transient fault is counted for the launch and the cluster. -/
def execDataFaultRetry (f : DataFault) (s : State) : Host.Outcome State Fault Refusal :=
  event s (s.faultLive f) fun s =>
    if faultMended f then (s.dropFaulty f).countTransient (s.block (s.faultBlock f)).launch (coreOf f.thread)
    else (s.dropFaulty f).failedRetry f

end Machine
end Sys2Proof
end

