-- ==== Sys2Proof/Machine/Integer.lean ====
section
/-!
DEFINITION. Class 0: the integer and address forms (R143 to R149).
-/

namespace Sys2Proof
namespace Machine

/-- The result of a class-0 word in its lane as one 32-bit write. -/
def put32 (d : Reg) (f : LV → Word) (v : LV) : List LaneWrite := w32 d (f v)
/-- The result of a class-0 word in its lane as one 64-bit write. -/
def put64 (d : Reg) (f : LV → DWord) (v : LV) : List LaneWrite := w64 d (f v)

/-- Saturation of IADDS and ISUBS (Table 6-6). -/
def satur (sg : Bool) (x : Int) : Word :=
  if sg then BitVec.ofInt 32 (clampInt (-(2 ^ 31)) (2 ^ 31 - 1) x) else BitVec.ofInt 32 (clampInt 0 (2 ^ 32 - 1) x)

/-- SHL (Table 6-6). -/
def shlOf (a b : Word) : Word := if 32 ≤ b.toNat then 0 else a <<< b.toNat
/-- SHR.z (Table 6-6). -/
def shrZ (a b : Word) : Word := if 32 ≤ b.toNat then 0 else a >>> b.toNat
/-- SHR.s (Table 6-6). -/
def shrS (a b : Word) : Word := a.sshiftRight (min b.toNat 31)

/-- BMUX: bit by bit one of two functions of a and b, chosen by c (Table 6-6). -/
def bmuxOf (f1 f0 : Nat) (a b c : Word) : Word :=
  BitVec.ofNat 32 (sumOf ((upFrom 0 32).map fun i =>
    let j := 2 * bitsOf a.toNat i 1 + bitsOf b.toNat i 1
    bitsOf (if bitOf c.toNat i then f1 else f0) j 1 * 2 ^ i))

/-- SHF (Table 6-6). -/
def shfOf (left : Bool) (a b c : Word) : Word :=
  let k := c.toNat % 32
  let w := b.toNat * 2 ^ 32 + a.toNat
  BitVec.ofNat 32 (if left then w * 2 ^ k / 2 ^ 32 else w / 2 ^ k)

/-- ROT (Table 6-6). -/
def rotOf (a b : Word) : Word := a.rotateLeft (b.toNat % 32)

/-- The field place and length of BFE and BFI from b (Table 6-6): none when nothing is selected. -/
def fieldOf (b : Word) : Option (Nat × Nat) :=
  let p := bitsOf b.toNat 0 8
  let len := bitsOf b.toNat 8 8
  if len = 0 ∨ 32 ≤ p then none else some (p, min len (32 - p))

/-- BFE (Table 6-6). -/
def bfeOf (sg : Bool) (a b : Word) : Word :=
  match fieldOf b with
  | none => 0
  | some (p, n) =>
    let v := bitsOf a.toNat p n
    if sg then BitVec.ofInt 32 (signedOf v n) else BitVec.ofNat 32 v

/-- BFI (Table 6-6). -/
def bfiOf (a b c : Word) : Word :=
  match fieldOf b with
  | none => c
  | some (p, n) =>
    BitVec.ofNat 32 (c.toNat % 2 ^ p + bitsOf a.toNat 0 n * 2 ^ p + c.toNat / 2 ^ (p + n) * 2 ^ (p + n))

/-- PRMT (Table 6-6). -/
def prmtOf (a b c : Word) : Word :=
  let w := b.toNat * 2 ^ 32 + a.toNat
  BitVec.ofNat 32 (leNat ((upFrom 0 4).map fun i =>
    let s := bitsOf c.toNat (4 * i) 4
    let e := byteOf w (s % 8)
    if s < 8 then BitVec.ofNat 8 e else if 128 ≤ e then 0xFF else 0))

/-- NOP: nothing is written (R144). -/
def execNop (h : Hdr) (s : State) : Host.Outcome State Fault Refusal := aluWord (.nop h) h 4 s fun _ => []
/-- MOV (Table 6-6). -/
def execMov (h : Hdr) (d : Reg) (b : Src) (s : State) : Host.Outcome State Fault Refusal :=
  aluWord (.mov h d b) h 4 s (put32 d fun v => v.s32 b)
/-- MOVHI: the 18-bit pattern in the high bits, ORed with a[13:0] (Table 6-6). -/
def execMovhi (h : Hdr) (d a : Reg) (imm : Fin 262144) (s : State) : Host.Outcome State Fault Refusal :=
  aluWord (.movhi h d a imm) h 4 s (put32 d fun v => BitVec.ofNat 32 (imm.val * 2 ^ 14 + (v.r32 a).toNat % 2 ^ 14))
/-- IADD (Table 6-6). -/
def execIadd (h : Hdr) (d a : Reg) (b : Src) (s : State) : Host.Outcome State Fault Refusal :=
  aluWord (.iadd h d a b) h 4 s (put32 d fun v => v.r32 a + v.s32 b)
/-- ISUB (Table 6-6). -/
def execIsub (h : Hdr) (d a : Reg) (b : Src) (s : State) : Host.Outcome State Fault Refusal :=
  aluWord (.isub h d a b) h 4 s (put32 d fun v => v.r32 a - v.s32 b)
/-- IADDS (Table 6-6). -/
def execIadds (h : Hdr) (sg : Bool) (d a : Reg) (b : Src) (s : State) : Host.Outcome State Fault Refusal :=
  aluWord (.iadds h sg d a b) h 4 s (put32 d fun v => satur sg (ext32 sg (v.r32 a) + ext32 sg (v.s32 b)))
/-- ISUBS (Table 6-6). -/
def execIsubs (h : Hdr) (sg : Bool) (d a : Reg) (b : Src) (s : State) : Host.Outcome State Fault Refusal :=
  aluWord (.isubs h sg d a b) h 4 s (put32 d fun v => satur sg (ext32 sg (v.r32 a) - ext32 sg (v.s32 b)))
/-- IMUL (Table 6-6), latency 6 (Table 2-4). -/
def execImul (h : Hdr) (d a : Reg) (b : Src) (s : State) : Host.Outcome State Fault Refusal :=
  aluWord (.imul h d a b) h 6 s (put32 d fun v => v.r32 a * v.s32 b)
/-- IMULH: the high word of the product (Table 6-6). -/
def execImulh (h : Hdr) (sg : Bool) (d a : Reg) (b : Src) (s : State) : Host.Outcome State Fault Refusal :=
  aluWord (.imulh h sg d a b) h 6 s
    (put32 d fun v => highWord (BitVec.ofInt 64 (ext32 sg (v.r32 a) * ext32 sg (v.s32 b))))
/-- IMAD (Table 6-6). -/
def execImad (h : Hdr) (d a b c : Reg) (s : State) : Host.Outcome State Fault Refusal :=
  aluWord (.imad h d a b c) h 6 s (put32 d fun v => v.r32 a * v.r32 b + v.r32 c)
/-- IMADW (Table 6-6). -/
def execImadw (h : Hdr) (sg : Bool) (d a b c : Reg) (s : State) : Host.Outcome State Fault Refusal :=
  aluWord (.imadw h sg d a b c) h 6 s
    (put64 d fun v => BitVec.ofInt 64 (ext32 sg (v.r32 a) * ext32 sg (v.r32 b)) + v.r64 c)
/-- IADD64 (Table 6-6). -/
def execIadd64 (h : Hdr) (d a : Reg) (b : Src) (s : State) : Host.Outcome State Fault Refusal :=
  aluWord (.iadd64 h d a b) h 4 s (put64 d fun v => v.r64 a + v.s64 b)
/-- ISUB64 (Table 6-6). -/
def execIsub64 (h : Hdr) (d a : Reg) (b : Src) (s : State) : Host.Outcome State Fault Refusal :=
  aluWord (.isub64 h d a b) h 4 s (put64 d fun v => v.r64 a - v.s64 b)
/-- LEA (Table 6-6). -/
def execLea (h : Hdr) (n : Fin 8) (d a : Reg) (b : Src) (s : State) : Host.Outcome State Fault Refusal :=
  aluWord (.lea h n d a b) h 4 s (put32 d fun v => v.r32 a + (v.s32 b <<< n.val))
/-- LEA64 (Table 6-6). -/
def execLea64 (h : Hdr) (n : Fin 8) (sg : Bool) (d a : Reg) (b : Src) (s : State) : Host.Outcome State Fault Refusal :=
  aluWord (.lea64 h n sg d a b) h 4 s (put64 d fun v => v.r64 a + (BitVec.ofInt 64 (ext32 sg (v.s32 b)) <<< n.val))
/-- IMIN (Table 6-6). -/
def execImin (h : Hdr) (sg : Bool) (d a : Reg) (b : Src) (s : State) : Host.Outcome State Fault Refusal :=
  aluWord (.imin h sg d a b) h 4 s
    (put32 d fun v => if ext32 sg (v.s32 b) < ext32 sg (v.r32 a) then v.s32 b else v.r32 a)
/-- IMAX (Table 6-6). -/
def execImax (h : Hdr) (sg : Bool) (d a : Reg) (b : Src) (s : State) : Host.Outcome State Fault Refusal :=
  aluWord (.imax h sg d a b) h 4 s
    (put32 d fun v => if ext32 sg (v.r32 a) < ext32 sg (v.s32 b) then v.s32 b else v.r32 a)
/-- IABS (Table 6-6). -/
def execIabs (h : Hdr) (d a : Reg) (s : State) : Host.Outcome State Fault Refusal :=
  aluWord (.iabs h d a) h 4 s (put32 d fun v => BitVec.ofNat 32 (v.r32 a).toInt.natAbs)
/-- AND (Table 6-6). -/
def execIand (h : Hdr) (d a : Reg) (b : Src) (s : State) : Host.Outcome State Fault Refusal :=
  aluWord (.iand h d a b) h 4 s (put32 d fun v => v.r32 a &&& v.s32 b)
/-- OR (Table 6-6). -/
def execIor (h : Hdr) (d a : Reg) (b : Src) (s : State) : Host.Outcome State Fault Refusal :=
  aluWord (.ior h d a b) h 4 s (put32 d fun v => v.r32 a ||| v.s32 b)
/-- XOR (Table 6-6). -/
def execIxor (h : Hdr) (d a : Reg) (b : Src) (s : State) : Host.Outcome State Fault Refusal :=
  aluWord (.ixor h d a b) h 4 s (put32 d fun v => v.r32 a ^^^ v.s32 b)
/-- BMUX (Table 6-6). -/
def execBmux (h : Hdr) (f1 f0 : Fin 16) (d a b c : Reg) (s : State) : Host.Outcome State Fault Refusal :=
  aluWord (.bmux h f1 f0 d a b c) h 4 s (put32 d fun v => bmuxOf f1.val f0.val (v.r32 a) (v.r32 b) (v.r32 c))
/-- SHL (Table 6-6). -/
def execShl (h : Hdr) (d a : Reg) (b : Src) (s : State) : Host.Outcome State Fault Refusal :=
  aluWord (.shl h d a b) h 4 s (put32 d fun v => shlOf (v.r32 a) (v.s32 b))
/-- SHR (Table 6-6). -/
def execShr (h : Hdr) (sg : Bool) (d a : Reg) (b : Src) (s : State) : Host.Outcome State Fault Refusal :=
  aluWord (.shr h sg d a b) h 4 s
    (put32 d fun v => if sg then shrS (v.r32 a) (v.s32 b) else shrZ (v.r32 a) (v.s32 b))
/-- SHF (Table 6-6). -/
def execShf (h : Hdr) (left : Bool) (d a b c : Reg) (s : State) : Host.Outcome State Fault Refusal :=
  aluWord (.shf h left d a b c) h 4 s (put32 d fun v => shfOf left (v.r32 a) (v.r32 b) (v.r32 c))
/-- ROT (Table 6-6). -/
def execRot (h : Hdr) (d a : Reg) (b : Src) (s : State) : Host.Outcome State Fault Refusal :=
  aluWord (.rot h d a b) h 4 s (put32 d fun v => rotOf (v.r32 a) (v.s32 b))
/-- POPC (Table 6-6). -/
def execPopc (h : Hdr) (d a : Reg) (s : State) : Host.Outcome State Fault Refusal :=
  aluWord (.popc h d a) h 4 s (put32 d fun v => BitVec.ofNat 32 (popCount (v.r32 a).toNat 32))
/-- CLZ (Table 6-6). -/
def execClz (h : Hdr) (d a : Reg) (s : State) : Host.Outcome State Fault Refusal :=
  aluWord (.clz h d a) h 4 s (put32 d fun v => BitVec.ofNat 32 (leadingZeros (v.r32 a).toNat 32))
/-- BREV (Table 6-6). -/
def execBrev (h : Hdr) (d a : Reg) (s : State) : Host.Outcome State Fault Refusal :=
  aluWord (.brev h d a) h 4 s (put32 d fun v => BitVec.ofNat 32 (reverseBits (v.r32 a).toNat 32))
/-- BFE (Table 6-6). -/
def execBfe (h : Hdr) (sg : Bool) (d a : Reg) (b : Src) (s : State) : Host.Outcome State Fault Refusal :=
  aluWord (.bfe h sg d a b) h 4 s (put32 d fun v => bfeOf sg (v.r32 a) (v.s32 b))
/-- BFI (Table 6-6). -/
def execBfi (h : Hdr) (d a b c : Reg) (s : State) : Host.Outcome State Fault Refusal :=
  aluWord (.bfi h d a b c) h 4 s (put32 d fun v => bfiOf (v.r32 a) (v.r32 b) (v.r32 c))
/-- PRMT (Table 6-6). -/
def execPrmt (h : Hdr) (d a b c : Reg) (s : State) : Host.Outcome State Fault Refusal :=
  aluWord (.prmt h d a b c) h 4 s (put32 d fun v => prmtOf (v.r32 a) (v.r32 b) (v.r32 c))
/-- ISETP (Table 6-6). -/
def execIsetp (h : Hdr) (cmp : Cmp) (sg : Bool) (op : PComb) (p : PSrc) (pd : Fin 8) (a : Reg) (b : Src) (s : State) :
    Host.Outcome State Fault Refusal :=
  aluWord (.isetp h cmp sg op p pd a b) h 4 s fun v =>
    [.pred pd.val (combine op (Cmp.holds cmp (ext32 sg (v.r32 a)) (ext32 sg (v.s32 b))) (v.p p))]
/-- ISETP64 (Table 6-6). -/
def execIsetp64 (h : Hdr) (cmp : Cmp) (sg : Bool) (op : PComb) (p : PSrc) (pd : Fin 8) (a : Reg) (b : Src) (s : State) :
    Host.Outcome State Fault Refusal :=
  aluWord (.isetp64 h cmp sg op p pd a b) h 4 s fun v =>
    [.pred pd.val (combine op (Cmp.holds cmp (ext64 sg (v.r64 a)) (ext64 sg (v.s64 b))) (v.p p))]
/-- ISET (Table 6-6). -/
def execIset (h : Hdr) (cmp : Cmp) (sg : Bool) (d a b : Reg) (s : State) : Host.Outcome State Fault Refusal :=
  aluWord (.iset h cmp sg d a b) h 4 s
    (put32 d fun v => if Cmp.holds cmp (ext32 sg (v.r32 a)) (ext32 sg (v.r32 b)) then 0xFFFFFFFF else 0)
/-- SEL (Table 6-6). -/
def execSel (h : Hdr) (p : PSrc) (d a b : Reg) (s : State) : Host.Outcome State Fault Refusal :=
  aluWord (.sel h p d a b) h 4 s (put32 d fun v => if v.p p then v.r32 a else v.r32 b)
/-- PSET (Table 6-6). -/
def execPset (h : Hdr) (op : PsetOp) (pd : Fin 8) (pa pb : PSrc) (s : State) : Host.Outcome State Fault Refusal :=
  aluWord (.pset h op pd pa pb) h 4 s fun v => [.pred pd.val (psetOf op (v.p pa) (v.p pb))]
/-- P2V: bit k is ReadPred(k), so bit 7 is 1 (Table 6-6). -/
def execP2v (h : Hdr) (d : Reg) (s : State) : Host.Outcome State Fault Refusal :=
  aluWord (.p2v h d) h 4 s
    (put32 d fun v => BitVec.ofNat 32 (sumOf ((upFrom 0 8).map fun k => bitNat (v.pv k) * 2 ^ k)))
/-- V2P: writes the predicates of its mask from the low bits of a (Table 6-6). -/
def execV2p (h : Hdr) (mask : Fin 128) (a : Reg) (s : State) : Host.Outcome State Fault Refusal :=
  aluWord (.v2p h mask a) h 4 s fun v =>
    ((upFrom 0 7).filter fun k => bitOf mask.val k).map fun k => .pred k (bitOf (v.r32 a).toNat k)
/-- HASH32 (R147). -/
def execHash32 (h : Hdr) (d a : Reg) (b : Src) (s : State) : Host.Outcome State Fault Refusal :=
  aluWord (.hash32 h d a b) h 6 s (put32 d fun v => hash32 (v.r32 a) (v.s32 b))

/-- The source lane of SHFL for a lane and its value (R145). -/
def shflLane (mode : ShflMode) (lane : Nat) (b : Word) : Int :=
  let v := b.toNat % 32
  match mode with
  | .idx => v
  | .up => (lane : Int) - v
  | .down => lane + v
  | .bfly => ((BitVec.ofNat 5 lane ^^^ BitVec.ofNat 5 v).toNat : Int)

/-- SHFL: each active lane takes vA of a source lane; a lane whose source is not active keeps its own (R145). -/
def execShfl (h : Hdr) (mode : ShflMode) (d a : Reg) (b : Src) (s : State) : Host.Outcome State Fault Refusal :=
  issue (.shfl h mode d a b) h s fun E s1 => s1.alu 8 (fun v =>
    let src := shflLane mode (laneOf v.t) (v.s32 b)
    (none, w32 d (match E.act.find? fun t => (laneOf t : Int) == src with
      | some t => (E.lv s1 t).r32 a
      | none => v.r32 a))) E

/-- The value of VOTE from the test of each active lane (R146). -/
def voteOf (mode : VoteMode) (ts : List (Nat × Bool)) : Word :=
  let yes := laneMask ((ts.filter (·.2)).map Prod.fst)
  let ones (b : Bool) : Word := if b then 0xFFFFFFFF else 0
  match mode with
  | .ballot => yes
  | .all => ones (ts.all (·.2))
  | .any => ones (ts.any (·.2))
  | .eq => ones (ts.all (·.2) || ts.all fun p => !p.2)

/-- VOTE (R146). -/
def execVote (h : Hdr) (mode : VoteMode) (p : PSrc) (d : Reg) (s : State) : Host.Outcome State Fault Refusal :=
  issue (.vote h mode p d) h s fun E s1 =>
    let x := voteOf mode (E.act.map fun t => (t, (E.lv s1 t).p p))
    s1.alu 8 (fun _ => (none, w32 d x)) E

/-- A special register of a thread as S2V reads it (Table 6-7, R328). -/
def LV.special (v : LV) (n : Nat) : DWord :=
  let T := v.T
  let b := T.block
  let R := v.s.recOf b
  let core := coreOf v.t
  let x : Nat :=
    if n = 0 then T.tid
    else if n ≤ 8 then T.ix.getD (n - 1) 0
    else match n with
      | 9 => T.role
      | 10 => T.ctx
      | 11 => R.tenant
      | 12 => R.world
      | 13 => core
      | 14 => sliceOf core
      | 15 => laneOf v.t
      | 16 => T.grp
      | 17 =>
        if R.dm = 2 then (v.s.bside b core).retired
        else if v.s.paired b then T.rcnt.toNat
        else v.clk
      | 18 => T.rcnt.toNat
      | 19 => R.il
      | _ => R.dm
  BitVec.ofNat 64 x

/-- The write of S2V: %clk and %rcnt are 64 bits wide (R148). -/
def s2vWrite (n : Nat) (d : Reg) (x : DWord) : List LaneWrite := if n = 17 ∨ n = 18 then w64 d x else w32 d (lowWord x)

/-- S2V (R148). %core and %slice of a follower are its leader's (R328). -/
def execS2v (h : Hdr) (sr : Fin 21) (d : Reg) (s : State) : Host.Outcome State Fault Refusal :=
  issue (.s2v h sr d) h s fun E s1 =>
    if sr.val = 13 ∨ sr.val = 14 then s1.shared false 4 (fun v => (none, v.special sr.val)) (s2vWrite sr.val d) E
    else s1.alu 4 (fun v => (none, s2vWrite sr.val d (v.special sr.val))) E

/-- V2S: writes %rcnt, so that the next read gives the value plus the words retired after this one (R148): the count that
this word adds when it retires is taken off first. -/
def execV2s (h : Hdr) (a : Reg) (s : State) : Host.Outcome State Fault Refusal :=
  issue (.v2s h a) h s fun E s1 =>
    let vals := E.act.map fun t => (t, (E.lv s1 t).r64 a)
    let s2 := vals.foldl (fun s p => s.modThread p.1 fun T => { T with rcnt := if T.again then p.2 else p.2 - 1 }) (s1.popQueues E)
    E.finish s2 [] E.fall

/-- IMUL64 (Table 6-6). -/
def execImul64 (h : Hdr) (d a : Reg) (b : Src) (s : State) : Host.Outcome State Fault Refusal :=
  aluWord (.imul64 h d a b) h 6 s (put64 d fun v => v.r64 a * v.s64 b)
/-- MOV64 (Table 6-6). -/
def execMov64 (h : Hdr) (d : Reg) (b : Src) (s : State) : Host.Outcome State Fault Refusal :=
  aluWord (.mov64 h d b) h 4 s (put64 d fun v => v.s64 b)

end Machine
end Sys2Proof
end

