-- ==== Sys2Proof/Machine/Float.lean ====
section
/-!
DEFINITION. Class 1: the floating-point and conversion forms (R163 to R175), and the pair word (R43 to R48).
-/

namespace Sys2Proof
namespace Machine

/-- A 32-bit source of a floating-point form: an immediate is an integer converted to binary32 (R163). -/
def LV.f32 (v : LV) : Src → Word
  | .reg r => v.r32 r
  | .imm c => BitVec.ofNat 32 (fp32.roundZ .rn (imm18 c < 0) (imm18 c).natAbs 0).bits

/-- A lane's result with its conditions: the first enabled cause, or the write (R158). -/
def LV.fpResult (v : LV) (d : Reg) (r : Word × FCond) : Option LaneCause × List LaneWrite := (v.fpCause r.2, w32 d r.1)

/-- A word whose lanes compute a 32-bit floating-point result of latency 6. -/
def fpWord (i : Instr) (h : Hdr) (d : Reg) (s : State) (f : LV → Word × FCond) : Host.Outcome State Fault Refusal :=
  issue i h s fun E s1 => s1.alu 6 (fun v => v.fpResult d (f v)) E

/-- A word of two operands, element by element (R165). -/
def fp2 (fmt : FFmt) (a b : Word) (op : FVal → FVal → FRes) : Word × FCond :=
  FFmt.each fmt fun k => op ((FFmt.elem fmt).unpack (FFmt.elemBits fmt a k)) ((FFmt.elem fmt).unpack (FFmt.elemBits fmt b k))

/-- FADD (R165). -/
def execFadd (h : Hdr) (fmt : FFmt) (rnd : Rnd) (d a : Reg) (b : Src) (s : State) : Host.Outcome State Fault Refusal :=
  fpWord (.fadd h fmt rnd d a b) h d s fun v => fp2 fmt (v.r32 a) (v.f32 b) ((FFmt.elem fmt).add rnd)
/-- FSUB (R165). -/
def execFsub (h : Hdr) (fmt : FFmt) (rnd : Rnd) (d a : Reg) (b : Src) (s : State) : Host.Outcome State Fault Refusal :=
  fpWord (.fsub h fmt rnd d a b) h d s fun v => fp2 fmt (v.r32 a) (v.f32 b) ((FFmt.elem fmt).sub rnd)
/-- FMUL (R165). -/
def execFmul (h : Hdr) (fmt : FFmt) (rnd : Rnd) (d a : Reg) (b : Src) (s : State) : Host.Outcome State Fault Refusal :=
  fpWord (.fmul h fmt rnd d a b) h d s fun v => fp2 fmt (v.r32 a) (v.f32 b) ((FFmt.elem fmt).mul rnd)
/-- FFMA (R165). -/
def execFfma (h : Hdr) (fmt : FFmt) (rnd : Rnd) (d a b c : Reg) (s : State) : Host.Outcome State Fault Refusal :=
  fpWord (.ffma h fmt rnd d a b c) h d s fun v =>
    FFmt.each fmt fun k =>
      let f := FFmt.elem fmt
      f.fma rnd (f.unpack (FFmt.elemBits fmt (v.r32 a) k)) (f.unpack (FFmt.elemBits fmt (v.r32 b) k))
        (f.unpack (FFmt.elemBits fmt (v.r32 c) k))
/-- FMIN (R166). -/
def execFmin (h : Hdr) (fmt : FFmt) (d a : Reg) (b : Src) (s : State) : Host.Outcome State Fault Refusal :=
  fpWord (.fmin h fmt d a b) h d s fun v => FFmt.each fmt fun k =>
    (FFmt.elem fmt).minMax false (FFmt.elemBits fmt (v.r32 a) k) (FFmt.elemBits fmt (v.f32 b) k)
/-- FMAX (R166). -/
def execFmax (h : Hdr) (fmt : FFmt) (d a : Reg) (b : Src) (s : State) : Host.Outcome State Fault Refusal :=
  fpWord (.fmax h fmt d a b) h d s fun v => FFmt.each fmt fun k =>
    (FFmt.elem fmt).minMax true (FFmt.elemBits fmt (v.r32 a) k) (FFmt.elemBits fmt (v.f32 b) k)
/-- FSETP (R167): a predicate write, latency 4. -/
def execFsetp (h : Hdr) (cmp : FCmp) (op : PComb) (p : PSrc) (pd : Fin 8) (a : Reg) (b : Src) (s : State) :
    Host.Outcome State Fault Refusal :=
  issue (.fsetp h cmp op p pd a b) h s fun E s1 => s1.alu 4 (fun v =>
    let t := FCmp.test cmp (fp32.unpack (v.r32 a).toNat) (fp32.unpack (v.f32 b).toNat)
    (v.fpCause { inv := t.2 }, [.pred pd.val (combine op t.1 (v.p p))])) E
/-- FSET (R167). -/
def execFset (h : Hdr) (cmp : FCmp) (fmt : FFmt) (d a b : Reg) (s : State) : Host.Outcome State Fault Refusal :=
  fpWord (.fset h cmp fmt d a b) h d s fun v => fp2 fmt (v.r32 a) (v.r32 b) fun x y =>
    let t := FCmp.test cmp x y
    ⟨if t.1 then (if FFmt.packed fmt then 0xFFFF else 0xFFFFFFFF) else 0, { inv := t.2 }⟩
/-- FCLASS (R168): it raises nothing. -/
def execFclass (h : Hdr) (fmt : FFmt) (d a : Reg) (s : State) : Host.Outcome State Fault Refusal :=
  fpWord (.fclass h fmt d a) h d s fun v =>
    (BitVec.ofNat 32 (2 ^ (FFmt.elem fmt).classBit (FFmt.elemBits fmt (v.r32 a) 0)), {})

/-- A special-function word: its result is tracked by the scoreboard, 16 cycles unloaded (Table 2-4). -/
def sfunWord (i : Instr) (h : Hdr) (d a : Reg) (s : State) (f : Word → FRes) : Host.Outcome State Fault Refusal :=
  issue i h s fun E s1 => s1.tracked 16 (fun v => let r := f (v.r32 a); v.fpResult d (BitVec.ofNat 32 r.bits, r.cond)) E

/-- FRCP (R170). -/
def execFrcp (h : Hdr) (d a : Reg) (s : State) : Host.Outcome State Fault Refusal :=
  sfunWord (.frcp h d a) h d a s (SFun.apply .rcp)
/-- FRSQ (R170). -/
def execFrsq (h : Hdr) (d a : Reg) (s : State) : Host.Outcome State Fault Refusal :=
  sfunWord (.frsq h d a) h d a s (SFun.apply .rsq)
/-- FSQRT (R170): correctly rounded. -/
def execFsqrt (h : Hdr) (rnd : Rnd) (d a : Reg) (s : State) : Host.Outcome State Fault Refusal :=
  sfunWord (.fsqrt h rnd d a) h d a s fun x => fsqrtOf rnd x.toNat
/-- FEXP2 (R170). -/
def execFexp2 (h : Hdr) (d a : Reg) (s : State) : Host.Outcome State Fault Refusal :=
  sfunWord (.fexp2 h d a) h d a s (SFun.apply .exp2)
/-- FLOG2 (R170). -/
def execFlog2 (h : Hdr) (d a : Reg) (s : State) : Host.Outcome State Fault Refusal :=
  sfunWord (.flog2 h d a) h d a s (SFun.apply .log2)
/-- FSIN (R170). -/
def execFsin (h : Hdr) (d a : Reg) (s : State) : Host.Outcome State Fault Refusal :=
  sfunWord (.fsin h d a) h d a s (SFun.apply .sin)
/-- FCOS (R170). -/
def execFcos (h : Hdr) (d a : Reg) (s : State) : Host.Outcome State Fault Refusal :=
  sfunWord (.fcos h d a) h d a s (SFun.apply .cos)
/-- FTANH (R170). -/
def execFtanh (h : Hdr) (d a : Reg) (s : State) : Host.Outcome State Fault Refusal :=
  sfunWord (.ftanh h d a) h d a s (SFun.apply .tanh)

/-- A result as a word with its conditions. -/
def FRes.word (r : FRes) : Word × FCond := (BitVec.ofNat 32 r.bits, r.cond)

/-- FSCALE (R165): an immediate is the integer itself. -/
def execFscale (h : Hdr) (rnd : Rnd) (d a : Reg) (b : Src) (s : State) : Host.Outcome State Fault Refusal :=
  fpWord (.fscale h rnd d a b) h d s fun v => (fscaleOf rnd (v.r32 a).toNat (v.s32 b).toInt).word
/-- FRND (R169). -/
def execFrnd (h : Hdr) (rnd : Rnd) (d a : Reg) (s : State) : Host.Outcome State Fault Refusal :=
  fpWord (.frnd h rnd d a) h d s fun v => (frndOf rnd (v.r32 a).toNat).word

/-- FDOT2 of R165: two products of elements and a binary32 addend, rounded once to FP32. -/
def fdot2Of (fmt : FFmt) (rnd : Rnd) (a b c : Word) : FRes :=
  let f := FFmt.elem fmt
  let pr (k : Nat) := (f.unpack (FFmt.elemBits fmt a k)).mul (f.unpack (FFmt.elemBits fmt b k))
  fp32.sum rnd [(pr 1).1, (pr 0).1, fp32.unpack c.toNat] ((pr 1).2 || (pr 0).2)
/-- FDOT2 (R165). -/
def execFdot2 (h : Hdr) (fmt : FFmt) (rnd : Rnd) (d a b c : Reg) (s : State) : Host.Outcome State Fault Refusal :=
  fpWord (.fdot2 h fmt rnd d a b c) h d s fun v => (fdot2Of fmt rnd (v.r32 a) (v.r32 b) (v.r32 c)).word
/-- FMED3 (R166). -/
def execFmed3 (h : Hdr) (fmt : FFmt) (d a b c : Reg) (s : State) : Host.Outcome State Fault Refusal :=
  fpWord (.fmed3 h fmt d a b c) h d s fun v => FFmt.each fmt fun k =>
    (FFmt.elem fmt).med3 (FFmt.elemBits fmt (v.r32 a) k) (FFmt.elemBits fmt (v.r32 b) k) (FFmt.elemBits fmt (v.r32 c) k)
/-- CVT (R171). -/
def execCvt (h : Hdr) (dst src : CvtType) (rnd : Rnd) (d a : Reg) (s : State) : Host.Outcome State Fault Refusal :=
  issue (.cvt h dst src rnd d a) h s fun E s1 => s1.alu 6 (fun v =>
    let x := if CvtType.regs src = 2 then (v.r64 a).toNat else (v.r32 a).toNat
    let r := cvtOf dst src rnd x
    (v.fpCause r.2, if CvtType.regs dst = 2 then w64 d r.1 else w32 d (lowWord r.1))) E
/-- CVTPK (R172). -/
def execCvtpk (h : Hdr) (fmt : FFmt) (rnd : Rnd) (d a b : Reg) (s : State) : Host.Outcome State Fault Refusal :=
  fpWord (.cvtpk h fmt rnd d a b) h d s fun v => FFmt.each fmt fun k =>
    (FFmt.elem fmt).ofVal rnd (fp32.unpack (if k = 0 then v.r32 a else v.r32 b).toNat)

/-- The codebook in eight registers of a lane (R159). -/
def LV.codebook (v : LV) (cb : Fin 240) : List Word := (upFrom cb.val 8).map v.rv
/-- The scale operand of CBENC and CBDEC: omitted when the field names the zero register. -/
def LV.scale8 (v : LV) (c : Reg) : Option Nat := if c = .zero then none else some ((v.r32 c).toNat % 256)
/-- CBENC (R173). -/
def execCbenc (h : Hdr) (d a : Reg) (cb : Fin 240) (c : Reg) (s : State) : Host.Outcome State Fault Refusal :=
  fpWord (.cbenc h d a cb c) h d s fun v =>
    let r := cbencOf (v.r32 a).toNat (v.codebook cb) (v.scale8 c)
    (BitVec.ofNat 32 r.1, { inv := r.2 })
/-- CBDEC (R174). -/
def execCbdec (h : Hdr) (n : Fin 8) (d a : Reg) (cb : Fin 240) (c : Reg) (s : State) : Host.Outcome State Fault Refusal :=
  fpWord (.cbdec h n d a cb c) h d s fun v =>
    (cbdecOf (bitsOf (v.r32 a).toNat (4 * n.val) 4) (v.codebook cb) (v.scale8 c)).word

/-! ## The pair word -/

/-- A floating-point operation of binary16 elements. -/
def PairOp.half : PairOp → Bool
  | .faddH2 | .fmulH2 => true
  | _ => false

/-- A floating-point operation of binary32 that takes its immediate as a float (R47). -/
def PairOp.float : PairOp → Bool
  | .fadd | .fsub | .fmul | .fmin | .fmax => true
  | _ => false

/-- The immediate of a pair slot as its operation uses it (R47). -/
def pairImm (o : PairOp) (b : Fin 256) : Word :=
  let n := signedOf b.val 8
  if PairOp.float o then BitVec.ofNat 32 (fp32.roundZ .rn (n < 0) n.natAbs 0).bits
  else if PairOp.half o then
    let x := (fp16.roundZ .rn (n < 0) n.natAbs 0).bits
    BitVec.ofNat 32 (x + x * 2 ^ 16)
  else BitVec.ofInt 32 n

/-- The B operand of a pair slot. -/
def LV.pairB (v : LV) (o : PairOp) : PairSrc → Word
  | .reg r => v.r32 r
  | .imm b => pairImm o b

/-- The result of a pair operation (Table 2-8). -/
def pairResult (o : PairOp) (d b : Word) (r : Rnd) : Word × FCond :=
  let u (x : Word) : Word × FCond := (x, {})
  let f (x : Word) := fp32.unpack x.toNat
  match o with
  | .mov => u b
  | .iadd => u (d + b)
  | .isub => u (d - b)
  | .imul => u (d * b)
  | .and => u (d &&& b)
  | .or => u (d ||| b)
  | .xor => u (d ^^^ b)
  | .shl => u (shlOf d b)
  | .shrZ => u (shrZ d b)
  | .shrS => u (shrS d b)
  | .iminS => u (if b.toInt < d.toInt then b else d)
  | .imaxS => u (if d.toInt < b.toInt then b else d)
  | .iminZ => u (if b.toNat < d.toNat then b else d)
  | .imaxZ => u (if d.toNat < b.toNat then b else d)
  | .lea => u (d + (b <<< 2))
  | .fadd => (fp32.add r (f d) (f b)).word
  | .fsub => (fp32.sub r (f d) (f b)).word
  | .fmul => (fp32.mul r (f d) (f b)).word
  | .fmin => (fp32.minMax false d.toNat b.toNat).word
  | .fmax => (fp32.minMax true d.toNat b.toNat).word
  | .faddH2 => fp2 .h2 d b (fp16.add r)
  | .fmulH2 => fp2 .h2 d b (fp16.mul r)
  | .cvtF32S32 => (fp32.roundZ r (b.toInt < 0) b.toInt.natAbs 0).word

/-- Latency of a pair operation (Table 2-8). -/
def pairLatency : PairOp → Nat
  | .mov | .iadd | .isub | .and | .or | .xor | .shl | .shrZ | .shrS | .iminS | .imaxS | .iminZ | .imaxZ | .lea => 4
  | _ => 6

/-- Latency of a slot. -/
def slotLatency : PairSlot → Nat
  | .nop => 0
  | .op o _ _ _ => pairLatency o

/-- A slot in a lane: what it writes and its conditions. -/
def LV.pairSlot (v : LV) : PairSlot → List LaneWrite × FCond
  | .nop => ([], {})
  | .op o da b r => let x := pairResult o (v.r32 da) (v.pairB o b) r; (w32 da x.1, x.2)

/-- The pair word (R45, R46): both slots read before either writes; a cause of either stops the lane, and the
conditions of both slots count in the order of Table 7-3 (R158). -/
def execPairWord (stall : Fin 8) (pred : Fin 8) (s0 s1 : PairSlot) (s : State) : Host.Outcome State Fault Refusal :=
  issue (.pairWord stall pred s0 s1) (Instr.hdr (.pairWord stall pred s0 s1)) s fun E st =>
    st.alu (max (slotLatency s0) (slotLatency s1)) (fun v =>
      let x := v.pairSlot s0
      let y := v.pairSlot s1
      (v.fpCause (x.2.or y.2), x.1 ++ y.1)) E

end Machine
end Sys2Proof
end

