-- ==== Sys2Proof/Machine/Secure.lean ====
section
/-!
DEFINITION. The security controller (R361 to R375): its mailbox, secure streams, keys and measurements; and a packet of the
network-on-chip at its receiving port (R361, R362).
-/

namespace Sys2Proof
namespace Machine

/-! ## Streams (R364 to R369) -/

/-- A secure stream. -/
def State.stream (s : State) (k : Nat) : Stream := s.sec.streams.findD k Stream.init

/-- Changes the SEC. -/
def State.modSec (s : State) (f : Sec → Sec) : State := { s with sec := f s.sec }

/-- Replaces a secure stream. -/
def State.setStream (s : State) (k : Nat) (m : Stream) : State :=
  s.modSec fun S => { S with streams := S.streams.store Stream.init k m }

/-- A stream goes to ERROR (Table 14-6, R366): its queues stop with status 0xFE, their launches end with ABORTED, and the change is
posted. The first reason stays. -/
def State.streamError (s : State) (k reason : Nat) : State :=
  let m := s.stream k
  if m.state = 1 ∨ m.state = 2 then
    let s1 := s.setStream k { m with state := 3, reason := reason }
    let s2 := (m.ifs.filter (· < 96)).foldl (fun s q =>
      let ls := (s.launches.filter fun p => p.2.queue == q && p.2.state != .complete).map Prod.fst
      ls.foldl (fun s l => s.endLaunch l stAborted) (s.stopQueue q 0xFE false)) s1
    s2.evPost 6 k reason 0
  else s

/-- An interface belongs to a stream that is not UNLOCKED. -/
def State.ifaceTaken (s : State) (i : Nat) : Bool := s.sec.streams.any fun p => p.2.state != 0 && p.2.ifs.contains i

/-- A reply of the SEC (R364): its status and its value. -/
structure Reply where
  status : Nat
  value : Nat
  deriving DecidableEq, Repr

/-- The replies without a value. -/
def Reply.ok : Reply := ⟨0, 0⟩
/-- BUSY. -/
def Reply.busy : Reply := ⟨1, 0⟩
/-- BAD-STATE. -/
def Reply.badState : Reply := ⟨2, 0⟩
/-- BAD-ARG. -/
def Reply.badArg : Reply := ⟨3, 0⟩
/-- DENIED. -/
def Reply.denied : Reply := ⟨4, 0⟩

/-- Insertion into a rising list without repeats. -/
def natInsert (n : Nat) : List Nat → List Nat
  | [] => [n]
  | k :: r => if n < k then n :: k :: r else if n = k then k :: r else k :: natInsert n r

/-- BIND (Table 14-5). -/
def State.doBind (s : State) (k i : Nat) : Reply × State :=
  let m := s.stream k
  if m.state ≠ 0 then (.badState, s)
  else if 97 < i ∨ (i < 96 ∧ (s.streamWorld m).any fun w => w != (s.sq i).world) then (.badArg, s)
  else (.ok, s.setStream k { m with ifs := natInsert i m.ifs })

/-- UNBIND (Table 14-5). -/
def State.doUnbind (s : State) (k i : Nat) : Reply × State :=
  let m := s.stream k
  if m.state ≠ 0 then (.badState, s) else (.ok, s.setStream k { m with ifs := m.ifs.filter fun j => j != i })

/-- LOCK (Table 14-5, R368). -/
def State.doLock (s : State) (k owner : Nat) : Reply × State :=
  let m := s.stream k
  if m.state ≠ 0 then (.badState, s)
  else if m.ifs.isEmpty then (.badArg, s)
  else if m.ifs.any s.ifaceTaken then (.busy, s)
  else (.ok, s.setStream k { m with state := 1, owner := owner })

/-- The number of a link key: stream, port and direction. -/
def linkKeyNo (k port dir : Nat) : Nat := 4 * k + 2 * port + dir

/-- START derives the key of each direction of a bound link port from the link group secret, and its counters start at 0 (R369). -/
def State.deriveKeys (s : State) (k port : Nat) : State :=
  let key (x : BitVec 384) : BitVec 256 := BitVec.ofNat 256 (leNat (hkdf384 (leBytes (s.sec.linkSecret.getD 0).toNat 32) (leBytes x.toNat 48) 32))
  let keys := (upFrom 0 2).foldl (fun m d => FMap.put m (linkKeyNo k port d) (key (Config.linkInfo k port d))) s.sec.linkKeys
  let L := s.links.findD port Link.init
  { s with sec := { s.sec with linkKeys := keys }, links := s.links.put port { L with rxCounter := 0, txCounter := 0 } }

/-- START (Table 14-5). -/
def State.doStart (s : State) (k who : Nat) : Reply × State :=
  let m := s.stream k
  if m.state ≠ 1 then (.badState, s)
  else if m.owner ≠ who then (.denied, s)
  else (.ok, ((upFrom 0 2).filter fun p => m.ifs.contains (linkIface p)).foldl (fun s p => s.deriveKeys k p)
    (s.setStream k { m with state := 2 }))

/-- UNLOCK (Table 14-5): queues that an ERROR stopped stay stopped. -/
def State.doUnlock (s : State) (k who : Nat) : Reply × State :=
  let m := s.stream k
  if m.state = 0 then (.badState, s)
  else if m.owner ≠ who then (.denied, s)
  else (.ok, s.setStream k { m with state := 0, owner := 0, reason := 0 })

/-- QUERY (Table 14-5). -/
def State.doQuery (s : State) (k : Nat) : Reply × State :=
  let m := s.stream k
  (⟨0, m.state + m.owner * 2 ^ 8 + m.ifs.length * 2 ^ 16 + m.reason * 2 ^ 24⟩, s)

/-! ## Keys and measurements (R371, R372, R375) -/

/-- The SEC may read some bytes of world-0 memory at a multiple of 64. -/
def State.secReads (s : State) (pa n : Nat) : Bool := pa % 64 == 0 && decide (pa + n ≤ s.dramSize)

/-- KEYPROV (R371): decapsulation fails, the tag fails, or the slot is in use: DENIED, BAD-ARG, BUSY. -/
def State.doKeyprov (s : State) (pa : Nat) : Reply × State :=
  if !s.secReads pa 1152 then (.badArg, s)
  else
    let blob := s.bytes pa 1152
    let b (i : Nat) : Nat := (blob.getD i 0).toNat
    if b 0 ≠ 1 ∨ 1 < b 1 ∨ ((upFrom 5 11).any fun i => b i != 0) ∨ (b 1 = 0 ∧ 63 < b 2) then (.badArg, s)
    else
      match Config.decapsulate ((blob.drop 16).take 1088) with
      | none => (.denied, s)
      | some secret =>
        match Config.gcmOpen secret (blob.drop 1104) with
        | none => (.badArg, s)
        | some key =>
          if b 1 = 0 then
            if (s.sec.keys.find (b 2)).isSome then (.busy, s)
            else (.ok, s.modSec fun S => { S with keys := S.keys.put (b 2) ⟨key, b 3, b 4⟩ })
          else if s.sec.linkSecret.isSome then (.busy, s)
          else (.ok, s.modSec fun S => { S with linkSecret := some key })

/-- The records of a block that are keyed to a slot, on a core. -/
def State.keyedTo (s : State) (b core slot : Nat) : FMap Record :=
  (s.bside b core).records.filter fun p => p.2.keyed == some slot

/-- Some record is keyed to a slot. -/
def State.slotBound (s : State) (slot : Nat) : Bool :=
  s.blocks.any fun p => (s.coresOf p.1).any fun c => !(s.keyedTo p.1 c slot).isEmpty

/-- Unbinds every record keyed to a slot, zeroing its range (R372, R298). -/
def State.unbindSlot (s : State) (slot : Nat) : State :=
  s.blocks.foldl (fun s p => (s.coresOf p.1).foldl (fun s c =>
    (s.keyedTo p.1 c slot).foldl (fun s r =>
      (if s.awake p.1 then s.zeroKeyed p.1 c r.2 else s).setRecord p.1 c r.1 { r.2 with keyed := none }) s) s) s

/-- A queued or running MLOOP was issued under a slot. -/
def State.slotRuns (s : State) (slot : Nat) : Bool :=
  s.blocks.any fun p => p.2.residence == .resident && (s.coresOf p.1).any fun c => (s.bside p.1 c).mloops.any fun m =>
    m.active && (m.recA.keyed == some slot || m.recB.keyed == some slot)

/-- EXTEND (R375): MEASk := SHA-384(MEASk followed by the digest). -/
def State.extendMeas (s : State) (k : Nat) (d : List Byte) : State :=
  s.modSec fun S => { S with
    meas := S.meas.put k (BitVec.ofNat 384 (leNat (sha384 (leBytes (S.meas.findD k 0).toNat 48 ++ d)))) }

/-- EXTEND (Table 14-5). -/
def State.doExtend (s : State) (arg : Nat) : Reply × State :=
  let k := bitsOf arg 44 4
  let pa := bitsOf arg 0 44
  if k < 8 ∨ !s.secReads pa 48 then (.badArg, s) else (.ok, s.extendMeas k (s.bytes pa 48))

/-! ## The mailbox (R363 to R365) -/

/-- The operation of a message, if it is one of Table 14-5 and no reserved bit is set. -/
def messageOp (m : Nat) : Option Nat :=
  let op := bitsOf m 56 8
  let arg := bitsOf m 0 48
  let ok : Bool := match op with
    | 1 | 2 => decide (arg < 2 ^ 7)
    | 3 | 4 | 5 | 6 => arg == 0
    | 7 => decide (arg < 2 ^ 44)
    | 8 => decide (arg < 2 ^ 6)
    | 9 => true
    | _ => false
  if ok ∧ bitsOf m 48 4 = 0 then some op else none

/-- The message in hand, once the SEC firmware runs (Table 15-11). -/
def State.inHand (s : State) : Option (Nat × Nat) :=
  if s.sec.bootStep < 2 then none else (s.sec.queue.head?).map fun p => (p.1, p.2.toNat)

/-- The message in hand has an operation. -/
def State.holdsOp (s : State) (op : Nat) : Bool := match s.inHand with
  | some (_, m) => messageOp m == some op
  | none => false

/-- The SEC ends a message with a reply (R364, R365). A group that is gone gets none. -/
def State.secEnd (s : State) (r : Reply) : State :=
  match s.sec.queue with
  | [] => s
  | (n, _) :: rest =>
    let x : DWord := BitVec.ofNat 64 (r.status * 2 ^ 56 + r.value % 2 ^ 48)
    let g := n / 64
    s.modSec fun S =>
      if n = 0 then { S with queue := rest, hostReply := x, hostReplyValid := true, hostBusy := false }
      else if (s.groups.find (g - 1)).isSome then { S with queue := rest, replies := S.replies.put g x }
      else { S with queue := rest }

/-- A message of an operation, given its requester, its stream and its argument. -/
def secEvent (op : Nat) (s : State) (f : State → Nat → Nat → Nat → Reply × State) : Host.Outcome State Fault Refusal :=
  event s (s.holdsOp op) fun s => match s.inHand with
    | some (who, m) =>
      let r := f s (who % 64) (bitsOf m 52 4) (bitsOf m 0 48)
      r.2.secEnd r.1
    | none => s

/-- BIND. -/
def execBind (s : State) : Host.Outcome State Fault Refusal := secEvent 1 s fun s _ k arg => s.doBind k arg
/-- UNBIND. -/
def execUnbind (s : State) : Host.Outcome State Fault Refusal := secEvent 2 s fun s _ k arg => s.doUnbind k arg
/-- LOCK. -/
def execLock (s : State) : Host.Outcome State Fault Refusal := secEvent 3 s fun s who k _ => s.doLock k who
/-- START. -/
def execStart (s : State) : Host.Outcome State Fault Refusal := secEvent 4 s fun s who k _ => s.doStart k who
/-- UNLOCK. -/
def execUnlock (s : State) : Host.Outcome State Fault Refusal := secEvent 5 s fun s who k _ => s.doUnlock k who
/-- QUERY. -/
def execQuery (s : State) : Host.Outcome State Fault Refusal := secEvent 6 s fun s _ k _ => s.doQuery k
/-- KEYPROV: the SEC takes none before the key-transport key is derived (R373). -/
def execKeyprov (s : State) : Host.Outcome State Fault Refusal :=
  if s.sec.bootStep < 3 then .next s else secEvent 7 s fun s _ _ arg => s.doKeyprov arg
/-- EXTEND. -/
def execExtend (s : State) : Host.Outcome State Fault Refusal := secEvent 9 s fun s _ _ arg => s.doExtend arg

/-- KEYREVOKE (R372): the records are unbound first; the slot is cleared once no queued or running MLOOP works under it. -/
def execKeyrevoke (s : State) : Host.Outcome State Fault Refusal :=
  event s (s.holdsOp 8) fun s => match s.inHand with
    | some (_, m) =>
      let slot := bitsOf m 0 6
      let s1 := s.unbindSlot slot
      if s1.slotRuns slot then s1
      else (s1.modSec fun S => { S with keys := S.keys.del slot }).secEnd .ok
    | none => s

/-- SEC_BAD_MESSAGE (R364): any other operation, or a reserved bit. -/
def execSecBadMessage (s : State) : Host.Outcome State Fault Refusal :=
  event s (match s.inHand with
    | some (_, m) => (messageOp m).isNone
    | none => false) fun s => s.secEnd .badArg

/-! ## Packets of the network-on-chip (R361, R362) -/

/-- A port of the network-on-chip: clusters, memory slices, engines and the host. -/
def isPort (n : Nat) : Bool := decide (n < 24 ∨ 32 ≤ n ∧ n < 44 ∨ 64 ≤ n ∧ n < 88 ∨ n = 96)

/-- The number of a flow. -/
def flowNumber (w : Flow) : Nat := w.src * 2 ^ 24 + w.dst * 2 ^ 16 + w.world * 2 ^ 12

/-- Both ends of a flow are ports, and its world is one of the 16. -/
def isFlow (w : Flow) : Bool := isPort w.src && isPort w.dst && decide (w.world < 16)

/-- The counter of a flow: the packets that it has carried. -/
def State.flowCounter (s : State) (w : Flow) : DWord := s.sec.nocCounters.findD (flowNumber w) 0

/-- The IV under which the next packet of a flow is encrypted: the flow number, then the counter. -/
def State.packetIv (s : State) (w : Flow) : BitVec 96 := BitVec.ofNat 96 ((flowNumber w) * 2 ^ 64 + (s.flowCounter w).toNat)

/-- The key of a flow: that of its world. -/
def State.flowKey (s : State) (w : Flow) : Option (BitVec 256) := s.sec.nocKeys.find w.world

/-- The SEC draws the keys of the 16 worlds and loads them into the ports; the counters start at 0. -/
def State.drawKeys (s : State) : State :=
  s.modSec fun S => { S with nocKeys := (upFrom 0 16).map fun w => (w, Config.nocKey s.freeCtr w), nocCounters := [] }

/-- A new packet of a flow: the sender advances its counter. -/
def State.sendPacket (s : State) (w : Flow) : State :=
  s.modSec fun S => { S with nocCounters := S.nocCounters.store 0 (flowNumber w) (s.flowCounter w + 1) }

/-- The streams whose interfaces carry a world. -/
def State.streamsOfWorld (s : State) (world : Nat) : List Nat :=
  (s.sec.streams.filter fun p => p.2.state != 0 && s.streamWorld p.2 == some world).map Prod.fst

/-- NOC_PACKET_RECEIVE (R361, R362): a bad CRC is retried, and the same packet comes again; a packet with a bad tag is dropped, its
request ends as a failed retry, and the streams of the world go to ERROR. -/
def execNocPacketReceive (w : Flow) (crcOk tagOk : Bool) (f : DataFault) (s : State) : Host.Outcome State Fault Refusal :=
  event s (isFlow w && (s.flowKey w).isSome) fun s =>
    if !crcOk then
      (if !f.retryOk then s.failedRetry f
      else if s.faultLive f then s.countTransient (s.block (s.faultBlock f)).launch (coreOf f.thread) else s)
    else if !tagOk then (s.streamsOfWorld w.world).foldl (fun s k => s.streamError k 2) ((s.sendPacket w).failedRetry f)
    else s.sendPacket w

end Machine
end Sys2Proof
end

