-- ==== Sys2Proof/Machine/Power.lean ====
section
/-!
DEFINITION. The power controller (R357 to R359), the rails and undervolting (R391 to R393), the DRAM windows and temperature modes
(R354, R356, R390) and the junction sensors (R398).
-/

namespace Sys2Proof
namespace Machine

/-! ## Power tiers (R357 to R359) -/

/-- The level of the hottest junction sensor (R398): 0, or 1 cap, 2 floor, 3 trip. -/
def State.hottest (s : State) : Nat := maxOf s.junction.vals

/-- The power cap in force (R357, R398). -/
def State.powerCap (s : State) : Nat := if s.hottest = 0 then s.cfg.pcap else s.cfg.pcap * 7 / 8

/-- The floor of a tier. -/
def State.floorOf (s : State) (t : Nat) : Nat := s.cfg.floors.findD t 0

/-- The sum of the floors. -/
def State.floorSum (s : State) : Nat := sumOf ((upFrom 0 4).map s.floorOf)

/-- The demand of a tier as it was measured last. -/
def State.demandOf (s : State) (t : Nat) : Nat := s.demand.findD t 0

/-- The unit of the allocation: powers are reckoned in 1/8 W divided by the sum of the floors. -/
def State.powerUnit (s : State) : Nat := max s.floorSum 1

/-- The first share of a tier, its demand or its scaled floor (R358). -/
def State.firstShare (s : State) (avail t : Nat) : Nat :=
  let f := s.powerUnit
  min (s.demandOf t * f) (s.floorOf t * min f avail)

/-- The allocations of R358, in rising tier: what is left over goes to the tiers in turn. -/
def State.allocate (s : State) (avail : Nat) : List Nat :=
  let f := s.powerUnit
  let first := (upFrom 0 4).map (s.firstShare avail)
  ((upFrom 0 4).foldl (fun (r : List Nat × Nat) t =>
    let a := first.getD t 0
    let x := min r.2 (s.demandOf t * f - a)
    (r.1 ++ [a + x], r.2 - x)) ([], avail * f - sumOf first)).1

/-- The grant budget of a tier on a rail: the largest value from 2 to 16 whose estimated draw stays within the allocation. -/
def State.tierBudget (s : State) (alloc : List Nat) (high : Bool) (t : Nat) : Nat :=
  ((upFrom 2 15).filter fun g => g == 2 ||
    decide (Config.estimatedDraw t g high (s.demandOf t) * s.powerUnit ≤ alloc.getD t 0)).foldl max 2

/-- The tiers with running blocks on some cores. -/
def State.tiersOn (s : State) (cores : List Nat) : List Nat :=
  (cores.flatMap fun c => (s.residents c).map fun B => (s.launch B.launch).lrec.tier).eraseDups

/-- The cores of a cluster. -/
def clusterCores (c : Nat) : List Nat := [2 * c, 2 * c + 1]

/-- A cluster is paired (R18): its slice is, still is while a change back goes on, or has come to step 4 of a change to paired. -/
def State.clusterPaired (s : State) (c : Nat) : Bool :=
  let P := s.pairOf (c / 2)
  P.state == 2 || (P.state == 1 && (!P.toPaired || decide (4 ≤ P.step)))

/-- The controller's choice of rail for a cluster (R359, R398): a cluster held on the high rail stays there. -/
def State.chooseRail (s : State) (alloc : List Nat) (c : Nat) : State :=
  let ts := s.tiersOn (clusterCores c)
  let r := s.rail c
  if s.clusterPaired c then s.moveRail c true
  else if r.holdUntil ≠ 0 then s
  else if 2 ≤ s.hottest then s.moveRail c false
  else if ts.isEmpty then s
  else if r.high then (if ts.all fun t => decide (s.tierBudget alloc true t ≤ 8) then s.moveRail c false else s)
  else if ts.any fun t => s.tierBudget alloc false t == 16 then s.moveRail c true
  else s

/-- The grant budget of a core: the greatest over its tiers, 16 without running blocks, 2 at Tmax (R358, R398). -/
def State.coreBudget (s : State) (alloc : List Nat) (core : Nat) : Nat :=
  let ts := s.tiersOn [core]
  if 2 ≤ s.hottest then 2
  else if ts.isEmpty then 16
  else maxOf (ts.map (s.tierBudget alloc (s.rail (clusterOf core)).high))

/-- Sets the grant budget of every core. -/
def State.setBudgets (s : State) (f : Nat → Nat) : State :=
  { s with budgets := (upFrom 0 Config.cores).foldl (fun m c => FMap.store 16 m c (f c)) [] }

/-- The words that a core issued for a tier in the interval. -/
def State.tierWords (s : State) (core t : Nat) : Nat := sumOf ((upFrom (4 * core) 4).map fun q => (s.seqr q).words.findD t 0)

/-- The share of a tier in a core's power: in proportion to the words that its running blocks there issued. -/
def State.tierDraw (s : State) (core power t : Nat) : Nat :=
  let ts := s.tiersOn [core]
  if ts.contains t then power * s.tierWords core t / max (sumOf (ts.map (s.tierWords core))) 1 else 0

/-- The demand of a tier (R358): its draw in the last interval, scaled to G = 16 on the high rail core by core (log 18). -/
def State.tierDemand (s : State) (r : PowerReading) (t : Nat) : Nat :=
  sumOf ((upFrom 0 Config.cores).map fun c =>
    Config.scaledDraw (s.grantBudget c) (s.rail (clusterOf c)).high (s.tierDraw c (r.cores.getD c 0) t))

/-- The demands of the four tiers. -/
def State.demands (s : State) (r : PowerReading) : FMap Nat := (upFrom 0 4).foldl (fun m t => FMap.store 0 m t (s.tierDemand r t)) []

/-- A new interval of the power controller begins: every sequencer counts its words anew. -/
def State.newInterval (s : State) : State :=
  let anew (p : Nat × Seqr) : Nat × Seqr := (p.1, { p.2 with words := [] })
  { s with powerAt := s.now, seqs := s.seqs.map anew }

/-- POWER_CONTROL_TICK (R358, R359), every 1 µs. -/
def execPowerControlTick (r : PowerReading) (s : State) : Host.Outcome State Fault Refusal :=
  event s (decide (s.powerAt + Config.us ≤ s.now)) fun s =>
    let s0 := { s with demand := s.demands r }
    let alloc := s0.allocate (s0.powerCap - r.px)
    let s1 := (upFrom 0 24).foldl (fun s c => s.chooseRail alloc c) s0
    (s1.setBudgets (s1.coreBudget alloc)).newInterval

/-! ## DRAM (R354 to R356, R390) -/

/-- Budget and guarantee of an account from its register (R352, R354). -/
def budgetBits (v : Nat) : Nat := bitNat (bitOf v 32) * 2 ^ 14 + v % 2 ^ 14

/-- DRAM_WINDOW (R354, R355), every 10 µs: every account's spend starts at 0, and the budgets as they are written now take effect
(R352). -/
def execDramWindow (s : State) : Host.Outcome State Fault Refusal :=
  event s (decide (s.windowAt + 10 * Config.us ≤ s.now)) fun s =>
    let tenants : FMap Nat := s.cfg.tenants.map fun p => (p.1, budgetBits p.2.toNat)
    { s with spend := [], windowAt := s.now, dramBudgets := tenants.store 0 256 (budgetBits s.cfg.hostacct.toNat) }

/-- The window capacity of a mode (Table 15-9). -/
def windowCapacity (mode : Nat) : Nat := match mode with
  | 0 => 13500
  | 1 => 12150
  | 2 => 10125
  | _ => 0

/-- A channel group is fitted (Table 15-7). -/
def State.groupFitted (s : State) (g : Nat) : Bool := decide (g < 12) && bitOf s.cfg.dramcfg g

/-- The fitted channel group that holds a DRAM address, and the offset in it (R380). -/
def State.dramPlace (s : State) (a : Nat) : Nat × Nat :=
  let gs := (upFrom 0 12).filter s.groupFitted
  (gs.getD (a / 4096 % max gs.length 1) 0, a / 4096 / max gs.length 1 * 4096 + a % 4096)

/-- The budget of an account in a channel group in this window (R356): a guaranteed one counts in proportion to the capacity. -/
def State.budgetNow (s : State) (acct g : Nat) : Nat :=
  let x := s.dramBudgets.findD acct 0
  if 2 ^ 14 ≤ x then x % 2 ^ 14 * windowCapacity (s.cfg.drammode.findD g 0) / 13500 else x

/-- The class in which a request of an account is served (R355). -/
def State.serviceClass (s : State) (acct g : Nat) : Nat :=
  if s.budgetNow acct g ≤ s.spend.findD (16 * acct + g) 0 then 3
  else if 2 ^ 14 ≤ s.dramBudgets.findD acct 0 then 1 else 2

/-- The charge units of a request (Table 14-3). -/
def requestUnits (r : DramRequest) : Nat := r.bursts + 4 * bitNat r.row + 3 * bitNat r.turn

/-- The account of a request (R354): a tenant, 256 for the host, or none. -/
def State.accountOf (s : State) : DramSource → Option Nat
  | .thread t => some (s.recOf (s.thread t).block).tenant
  | .engine b => some (s.recOf b).tenant
  | .pool tag => some (s.ctx tag).tenant
  | .host => some 256
  | .refresh => none

/-- What the accounts have spent, after a request that is charged in the group that serves it. -/
def State.chargeRequest (s : State) (spend : FMap Nat) (r : DramRequest) : FMap Nat :=
  match s.accountOf r.src with
  | some a =>
    let k := 16 * a + r.group
    if s.groupFitted r.group then spend.store 0 k (spend.findD k 0 + requestUnits r) else spend
  | none => spend

/-- DRAM service while time goes on (R354): which requests reach DRAM depends on the contents of L2 and the open rows, and is free
(log 36). -/
def State.chargeDram (s : State) : State :=
  { s with spend := (Config.dramRequests s.freeCtr).foldl s.chargeRequest s.spend }

/-- DRAM_MODE_CHECK (R390), every 16 ms: the report 0 to 3 is that of Table 15-9; a change is posted. -/
def execDramModeCheck (group report : Nat) (s : State) : Host.Outcome State Fault Refusal :=
  event s (s.groupFitted group && decide (report < 4) && decide (s.modeAt.findD group 0 + 16000 * Config.us ≤ s.now)) fun s =>
    let s1 := { s with modeAt := s.modeAt.put group s.now }
    if s.cfg.drammode.findD group 0 = report then s1
    else { s1 with cfg := { s.cfg with drammode := s.cfg.drammode.store 0 group report } }.evPost 2 group report
      (windowCapacity report)

/-! ## Undervolting (R391 to R393) -/

/-- Counts errors of a cluster on the low rail (Table 15-10). -/
def State.countErrors (s : State) (c corr uncorr : Nat) : State :=
  let old := s.lowRail.counts.findD c (0, 0)
  { s with lowRail := { s.lowRail with
      counts := s.lowRail.counts.store (0, 0) c ((old.1 + corr) % 2 ^ 32, (old.2 + uncorr) % 2 ^ 16) } }

/-- The clusters on the low rail. -/
def State.lowClusters (s : State) : List Nat := (upFrom 0 24).filter fun c => !(s.rail c).high

/-- Correctable errors of an interval go to the counts of the clusters on the low rail: which of them met how many is free. -/
def State.spreadErrors (s : State) (n : Nat) : List Nat → State
  | [] => s
  | [c] => s.countErrors c n 0
  | c :: r =>
    let k := (Config.freeWord s.freeCtr 0).toNat % (n + 1)
    ({ s.countErrors c k 0 with freeCtr := s.freeCtr + 1 }).spreadErrors (n - k) r

/-- UNDERVOLT_INTERVAL (R392): `n` correctable errors in the last 1 ms. -/
def execUndervoltInterval (n : Nat) (s : State) : Host.Outcome State Fault Refusal :=
  event s ((n == 0 || !s.lowClusters.isEmpty) && decide (s.lowRail.checkedAt + 1000 * Config.us ≤ s.now)) fun s =>
    let s1 := if n = 0 then s else s.spreadErrors n s.lowClusters
    let L := s1.lowRail
    let quiet := L.lastUncorr == 0 || decide (L.lastUncorr - 1 + 100000 * Config.us ≤ s.now)
    let v :=
      if L.auto then
        (if L.thresh < n then min (L.setpoint + 5) (max L.ceiling L.setpoint)
        else if n = 0 ∧ quiet then max (L.setpoint - 5) (min L.floor L.setpoint)
        else L.setpoint)
      else L.setpoint
    { s1 with lowRail := { L with setpoint := v, held := L.held && decide (L.ceiling ≤ v), checkedAt := s.now } }

/-- The raise by 10 mV, once for the errors of 2 µs (R393 step 3). -/
def State.raiseRail (s : State) : State :=
  let L := s.lowRail
  if L.raiseAt ≠ 0 ∧ s.now < L.raiseAt - 1 + 2 * Config.us then { s with lowRail := { L with lastUncorr := s.now + 1 } }
  else { s with lowRail := { L with
      setpoint := min (L.setpoint + 10) (max L.ceiling L.setpoint), held := L.held || decide (L.ceiling < L.setpoint + 10)
      raiseAt := s.now + 1, lastUncorr := s.now + 1 } }

/-- LOW_RAIL_UNCORRECTABLE (R393): the cluster moves to the high rail and is held there; the read is retried; a retry that succeeds is
counted in RAILCNT alone. -/
def execLowRailUncorrectable (cluster : Nat) (f : DataFault) (s : State) : Host.Outcome State Fault Refusal :=
  event s (decide (cluster < 24) && !(s.rail cluster).high) fun s =>
    let s1 := s.moveRail cluster true
    let s2 := { s1 with rails := s1.rails.put cluster { s1.rail cluster with holdUntil := s.now + 100 * Config.us } }
    let s3 := (s2.raiseRail).countErrors cluster 0 1
    let s4 := s3.evPost 3 cluster f.struct s3.lowRail.setpoint
    if faultMended f then s4.dropFaulty f else (s4.dropFaulty f).failedRetry f

/-- LOW_RAIL_HOLD_EXPIRY (R393 step 5): R359 decides again. -/
def execLowRailHoldExpiry (cluster : Nat) (s : State) : Host.Outcome State Fault Refusal :=
  let r := s.rail cluster
  event s (r.holdUntil != 0 && decide (r.holdUntil ≤ s.now)) fun s =>
    { s with rails := s.rails.put cluster { s.rail cluster with holdUntil := 0 } }

/-! ## Junction temperature (R398) -/

/-- Tmax of the ordering code (Table 0-1). -/
def tmax : Int := if Config.orderingCode = 1 then 105 else 125

/-- The temperature of a threshold: 1 cap, 2 floor, 3 trip (R398). -/
def threshold (level : Nat) : Int := tmax + 5 * ((level : Int) - 2)

/-- The fabric after a cold reset (R394): every register is at its reset value. The count of the model's own and the moves to come
go on, and the sensors stay as hot as they are. -/
def State.coldReset (s : State) : State := { State.reset with freeCtr := s.freeCtr, agenda := s.agenda, junction := s.junction }

/-- What the device does at the hottest sensor's level (R398). -/
def State.obeyHeat (s : State) : State :=
  if s.hottest = 3 then s.coldReset
  else if s.hottest = 2 then
    ((upFrom 0 24).foldl (fun s c => if s.clusterPaired c then s else s.moveRail c false) s).setBudgets fun _ => 2
  else s

/-- JUNCTION_CROSSING (R398): a slice's sensor crosses the threshold of a level. -/
def execJunctionCrossing (slice level : Nat) (rising : Bool) (celsius : Int) (s : State) :
    Host.Outcome State Fault Refusal :=
  let now := s.junction.findD slice 0
  event s (decide (slice < 12 ∧ 1 ≤ level ∧ level ≤ 3) && (if rising then now + 1 == level && decide (threshold level ≤ celsius)
      else now == level && decide (celsius < threshold level))) fun s =>
    let s1 := { s with junction := s.junction.store 0 slice (if rising then level else level - 1) }
    (s1.evPost 8 slice (if rising then level else 0) (celsius % 2 ^ 64).toNat).obeyHeat

/-- COLD_RESET (R394). -/
def execColdReset (s : State) : Host.Outcome State Fault Refusal := .next s.coldReset

end Machine
end Sys2Proof
end

