-- ==== Sys2Proof/Machine/Links.lean ====
section
/-!
DEFINITION. The Ramrum links (R370, R384 to R388): training, flits with link-level retry, link down, and the accesses that a peer
makes.
-/

namespace Sys2Proof
namespace Machine

/-- A link port. -/
def State.linkOf (s : State) (p : Nat) : Link := s.links.findD p Link.init
/-- Changes a link port. -/
def State.modLink (s : State) (p : Nat) (f : Link → Link) : State := { s with links := s.links.put p (f (s.linkOf p)) }
/-- A link port goes to a state, which is posted (Table 15-4). -/
def State.linkTo (s : State) (p state : Nat) : State := (s.modLink p fun L => { L with state := state }).evPost 7 p state 0

/-- The lanes of live log entries that reach the window of a port: the requests that the link carries. -/
def State.carried (s : State) (port : Nat) : List DataFault :=
  let base := if port = 0 then 0x80000000000 else 0xA0000000000
  s.opLog.flatMap fun p => if p.2.dormant then [] else p.2.lanes.filterMap fun l =>
    if (s.laneLines p.2.instr l).any fun x => decide (base ≤ 64 * x ∧ 64 * x < base + 0x20000000000) then
      some ⟨l.thread, s.laneAddr p.2.instr l, 4, false⟩
    else none

/-- A link goes down (R385): every request that it carries ends as a failed retry, and each stream bound to the port goes to ERROR
with reason 4. -/
def State.linkDown (s : State) (p : Nat) : State :=
  let fs := s.carried p
  let ks := (s.sec.streams.filter fun x => x.2.state != 0 && x.2.ifs.contains (linkIface p)).map Prod.fst
  let s1 := (s.modLink p fun L => { L with
    expected := 0, acked := 0, sent := 0, replays := 0, waitReplay := false, lastAck := s.now
    peerPort := 0, peerDigest := 0 }).linkTo p 0
  let s2 := ks.foldl (fun s k => s.streamError k 4) s1
  fs.foldl (fun s f => s.failedRetry f) s2

/-- LINK_DOWN_TIMEOUT (R385): one flit has been replayed 8 times, or no acknowledgement has come for 20 µs. -/
def execLinkDownTimeout (port : Nat) (s : State) : Host.Outcome State Fault Refusal :=
  let L := s.linkOf port
  event s (decide (2 ≤ L.state) && (decide (8 ≤ L.replays) || decide (L.lastAck + 20 * Config.us ≤ s.now))) fun s => s.linkDown port

/-- The 32-byte nonce that the SEC sends at a training: drawn anew, and free. -/
def State.nonce (s : State) : List Byte := (upFrom 0 32).map (Config.freeByte s.freeCtr)

/-- The peer has proved its identity (R386): its chain leads from the fused root to its key, under which it has signed the nonce followed
by both port numbers. -/
def State.peerProves (s : State) (port : Nat) (x : PeerProof) : Bool :=
  Config.chainLeads x.chain Config.rootDigest (keyBytes x.key) &&
    compositeValid x.key (s.nonce ++ Config.portBytes x.port port) x.signature

/-- The SHA-384 digest of a peer's identity key (R377). -/
def proofDigest (x : PeerProof) : BitVec 384 := BitVec.ofNat 384 (leNat (sha384 (keyBytes x.key)))

/-- LINK_TRAINING (R385, R386): an enabled port that is down trains; a port that trains comes up, in state 2 when the peer's signature
verifies and in state 3 otherwise. The peer's port and, if it has proved itself, its digest are kept (R377). -/
def execLinkTraining (port : Nat) (x : PeerProof) (s : State) : Host.Outcome State Fault Refusal :=
  let L := s.linkOf port
  event s (decide (port < 2) && L.enable && decide (L.state < 2)) fun s =>
    if L.state = 0 then s.linkTo port 1
    else
      let ok := s.peerProves port x
      (s.modLink port fun L => { L with
        lastAck := s.now, peerPort := x.port, peerDigest := if ok then proofDigest x else 0 }).linkTo port (if ok then 2 else 3)

/-- LINKCTL_RETRAIN (Table 15-6): the link is taken down, and retrains. -/
def execLinkctlRetrain (p : Nat) (s : State) : Host.Outcome State Fault Refusal :=
  event s (decide (p < 2)) fun s => s.linkDown p

/-- The distance of sequence numbers (R385). -/
def seqGap (a b : Nat) : Nat := (a + 4096 - b % 4096) % 4096

/-- The header of a flit that has arrived whole: its acknowledgement, and a request to replay (R385). -/
def State.takeHeader (s : State) (p : Nat) (f : Flit) : State :=
  let L := s.linkOf p
  let moved := seqGap f.ack L.acked
  let s1 := if moved ≤ 128 then s.modLink p fun L => { L with
      acked := f.ack % 4096, lastAck := s.now, replays := if moved = 0 then L.replays else 0 } else s
  match f.replayFrom with
  | none => s1
  | some n => s1.modLink p fun L => { L with
      replays := L.replays + 1, replayed := min (L.replayed + seqGap L.sent n) (2 ^ 16 - 1) }

/-- The stream of a flit may deliver at a port: it holds the port and is in RUN; a flit of no stream comes to a port of no stream. -/
def State.flitStream (s : State) (p : Nat) (k : Option Nat) : Bool :=
  match s.portStream p, k with
  | some m, some n => m.1 == n && m.2.state == 2 && (s.linkOf p).state == 2
  | none, none => true
  | _, _ => false

/-- LINK_FLIT_RECEIVE (R370, R385): a flit whose CRC fails is dropped with every later one until the replay; one whose tag fails moves
its stream to ERROR with reason 1; the next expected flit is delivered. -/
def execLinkFlitReceive (port : Nat) (f : Flit) (s : State) : Host.Outcome State Fault Refusal :=
  let L := s.linkOf port
  event s (decide (port < 2) && decide (2 ≤ L.state)) fun s =>
    if !f.crcOk then s.modLink port fun L => { L with waitReplay := true }
    else
      let s1 := s.takeHeader port f
      if f.seq % 4096 ≠ L.expected then s1
      else if !s.flitStream port f.stream then s1
      else match f.stream with
        | none => s1.modLink port fun L => { L with expected := (L.expected + 1) % 4096, waitReplay := false }
        | some k =>
          if !f.tagOk then s1.streamError k 1
          else s1.modLink port fun L => { L with
            expected := (L.expected + 1) % 4096, waitReplay := false, rxCounter := L.rxCounter + 1 }

/-! ## The peer's accesses (R388) -/

/-- A range lies in what a port admits. -/
def Link.admits (L : Link) (pa n : Nat) : Bool := decide (L.wbase ≤ pa ∧ pa + n ≤ L.wbase + 0x10000 * L.wsize)

/-- PEER_LINK_REQUEST (R388): an admitted access to DRAM is performed at L2 in the base context; a refused one has no effect here.
The reply goes to the peer: the bytes of a read, or none for a refusal. An engine that owns a line of it delays it (R241). -/
def execPeerLinkRequest (port : Nat) (a : PeerAccess) (s : State) : Host.Outcome State Fault Refusal :=
  let L := s.linkOf port
  let free (pa n : Nat) : Bool := decide (port < 2) && decide (2 ≤ L.state) &&
    (upFrom (pa / 64) ((pa + n + 63) / 64 - pa / 64)).all fun x => !s.owned x
  let ok (pa n : Nat) : Bool := L.admits pa n && decide (pa + n ≤ s.dramSize)
  match a with
  | .read pa n => event s (free pa n) fun s =>
      { s.sendFlit port with peerReply := if ok pa n then some (s.bytes pa n) else none }
  | .write pa bs => event s (free pa bs.length) fun s =>
      if ok pa bs.length then { (s.setBytes pa bs).sendFlit port with peerReply := some [] }
      else { s.sendFlit port with peerReply := none }

end Machine
end Sys2Proof
end

