-- ==== Sys2Proof/Machine/HostRegs.lean ====
section
/-!
DEFINITION. The registers of the fabric control window: what the host's and firmware's writes do and what their reads return (R6, R78,
R83, R109, R186, R190, R316, R321, R325, R347 to R357, R363, R367, R381, R387, R389, R391), and the end of invalidations.
-/

namespace Sys2Proof
namespace Machine

/-- Changes the configuration registers. -/
def State.modCfg (s : State) (f : CfgRegs → CfgRegs) : State := { s with cfg := f s.cfg }

/-- A configuration write is not accepted (R348). -/
def State.refuse (s : State) (code : Nat) : State := s.modCfg fun C => { C with cfgerr := code }

/-! ## Frozen registers (R367) -/

/-- The streams that freeze some register: a test on a stream that is not UNLOCKED. -/
def State.frozenBy (s : State) (p : Stream → Bool) : List Nat :=
  (s.sec.streams.filter fun x => x.2.state != 0 && p x.2).map Prod.fst

/-- A write to a register that some streams freeze is not accepted, and moves them to ERROR with reason 3. -/
def State.frozenWrite (s : State) (ks : List Nat) : State := ks.foldl (fun s k => s.streamError k 3) (s.refuse 4)

/-- A write that may be frozen. -/
def State.unlessFrozen (s : State) (ks : List Nat) (f : State → State) : State := if ks.isEmpty then f s else s.frozenWrite ks

/-- A tenant is of a stream's world. -/
def State.worldTenant (s : State) (m : Stream) (u : Nat) : Bool :=
  bitOf (s.tenantReg u) 63 && s.streamWorld m == some (bitsOf (s.tenantReg u) 48 4)

/-- A stream whose world has a tenant in a partition. -/
def State.worldPart (s : State) (m : Stream) (f : Nat) : Bool :=
  (upFrom 0 256).any fun u => s.worldTenant m u && bitsOf (s.tenantReg u) 40 4 == f

/-! ## Invalidations (R109, R190) -/

/-- ICINV_WRITE (R109): any value starts an invalidation. -/
def execIcinvWrite (_v : DWord) (s : State) : Host.Outcome State Fault Refusal := .next { s with icinv := true }

/-- ICINV_COMPLETE (R109): the shared instruction cache is empty. -/
def execIcinvComplete (s : State) : Host.Outcome State Fault Refusal :=
  event s s.icinv fun s => { s with icinv := false, icache := [] }

/-- A write of XLINV starts an invalidation (R190). -/
def State.xlinvStart (s : State) (v : DWord) : State := { s with xlinv := s.xlinv ++ [v] }

/-- XLINV_WRITE (R190). -/
def execXlinvWrite (v : DWord) (s : State) : Host.Outcome State Fault Refusal := .next (s.xlinvStart v)

/-- An invalidation covers a tenant. -/
def xlinvTenant (v tenant : Nat) : Bool := bitOf v 1 || bitsOf v 16 8 == tenant

/-- An invalidation covers the page of some size that holds a 4 KiB page: all pages, or one that contains the page of the write. -/
def xlinvPage (v page size : Nat) : Bool :=
  let k := pageShift size - 12
  bitOf v 0 || page / 2 ^ k == bitsOf v 24 40 / 2 ^ k

/-- A live engine command holds a translation that an invalidation covers (R267). -/
def State.xlinvHeld (s : State) (v : Nat) : Bool :=
  s.engines.any fun q => q.2.any fun c => xlinvTenant v c.tenant &&
    c.maps.any fun m => xlinvPage v m.1 (pteSize m.2)

/-- The TLB entries and the L1 lines that an invalidation covers go. Lines do not hold the size of their page: all that could lie in
one page with the page of the write go. -/
def State.xlinvDo (s : State) (v : Nat) : State :=
  { s.l1Drop fun l => xlinvTenant v l.tenant && (bitOf v 0 || l.vline / 2 ^ 15 == bitsOf v 24 40 / 2 ^ 9) with
    tlb := s.tlb.filter fun t => !(xlinvTenant v t.tenant && xlinvPage v t.page (pteSize t.pte)) }

/-- XLINV_COMPLETE (R190, R267): once no engine command keeps a translation that it covers. -/
def execXlinvComplete (s : State) : Host.Outcome State Fault Refusal :=
  event s (match s.xlinv with
      | v :: _ => !s.xlinvHeld v.toNat
      | [] => false) fun s => match s.xlinv with
    | v :: r => { s.xlinvDo v.toNat with xlinv := r }
    | [] => s

/-- A write of LAUNCHABORT (R316): the launches of a queue that have passed their check and are not complete end with ABORTED, and the
queue stops. -/
def State.abortQueue (s : State) (v : Nat) : State :=
  let q := bitsOf v 0 7
  let ls := (s.launches.filter fun p => p.2.queue == q && p.2.state != .complete).map Prod.fst
  if !bitOf v 31 ∨ 96 ≤ q ∨ ls.isEmpty then s
  else { (ls.foldl (fun s l => s.endLaunch l stAborted) s).stopQueue q stAborted false with abortBusy := true }

/-- LAUNCHABORT_WRITE (R316). -/
def execLaunchabortWrite (v : DWord) (s : State) : Host.Outcome State Fault Refusal := .next (s.abortQueue v.toNat)

/-! ## Partitions (R347 to R351) -/

/-- The size that a layout gives to the partition at a slice. -/
def sizeAt (v x : Nat) : Nat := bitsOf v (4 * x) 4

/-- A layout is legal (R347). -/
def layoutLegal (v : Nat) : Bool :=
  (upFrom 0 12).all fun x =>
    let n := sizeAt v x
    n == 0 || ([1, 2, 3, 4, 6, 12].contains n && x % n == 0 && decide (x + n ≤ 12) &&
      (upFrom (x + 1) (n - 1)).all fun y => sizeAt v y == 0)

/-- The partition of a slice in a layout. -/
def partIn (v x : Nat) : Option Nat := (upFrom 0 12).find? fun f => decide (f ≤ x ∧ x < f + sizeAt v f)

/-- A saved image belongs to a partition. -/
def State.imageIn (s : State) (f : Nat) : Bool := s.blocks.any fun p => p.2.image.isSome && (s.launch p.2.launch).part == f

/-- A slice may change its partition (R348). -/
def State.sliceFree (s : State) (x : Nat) : Bool :=
  (s.blocks.all fun p => p.2.residence != .resident || sliceOf p.2.core != x) &&
    (match s.slicePart x with
      | some f => !s.imageIn f && s.liveTags f == 0 && s.sqs.all fun q => !(q.2.enable && q.2.part == f)
      | none => true) && !(s.pairOf x).req && !(s.pairOf x).auto && (s.pairOf x).state == 0

/-- A write of PLAYOUT (R347, R348). -/
def State.writePlayout (s : State) (v : Nat) : State :=
  let x := v % 2 ^ 48
  s.unlessFrozen (s.frozenBy fun _ => true) fun s =>
    if !layoutLegal x then s.refuse 1
    else if (upFrom 0 12).any fun k => partIn x k != s.slicePart k && !s.sliceFree k then s.refuse 2
    else s.modCfg fun C => { C with playout := x, parts := C.parts.filter fun p => sizeAt x p.1 != 0 }

/-- PLAYOUT_WRITE (R347, R348). -/
def execPlayoutWrite (v : DWord) (s : State) : Host.Outcome State Fault Refusal := .next (s.writePlayout v.toNat)

/-- CFGERR_CLEAR (R348). -/
def execCfgerrClear (s : State) : Host.Outcome State Fault Refusal := .next (s.refuse 0)

/-- A write of a partition register: ignored where no partition begins (R349), and frozen with its partition (R367). -/
def State.partWrite (s : State) (f : Nat) (g : State → State) : State :=
  if sizeAt s.cfg.playout f = 0 ∨ 12 ≤ f then s
  else s.unlessFrozen (s.frozenBy fun m => s.worldPart m f) g

/-- The partitions other than one. -/
def State.otherParts (s : State) (f : Nat) : List PartRegs := (s.cfg.parts.filter fun p => p.1 != f).map Prod.snd

/-- A write of PENG (R350). -/
def State.writePeng (s : State) (f v : Nat) : State :=
  s.partWrite f fun s =>
    let x := v % 2 ^ 24
    let new := (upFrom 0 24).filter fun n => bitOf x n && !bitOf (s.partRegs f).peng n
    if new.any fun n => (s.otherParts f).any fun P => bitOf P.peng n then s.refuse 3
    else if new.any fun n => (s.engQ n).any fun c => c.part != f then s.refuse 2
    else s.modPart f fun P => { P with peng := x }

/-- PENG_WRITE (R350). -/
def execPengWrite (f : Nat) (v : DWord) (s : State) : Host.Outcome State Fault Refusal := .next (s.writePeng f v.toNat)

/-- A write of PEVT (R351). -/
def State.writePevt (s : State) (f v : Nat) : State :=
  s.partWrite f fun s =>
    let first := bitsOf v 0 12
    let n := bitsOf v 16 13
    if 4096 < first + n then s.refuse 1
    else if (s.otherParts f).any fun P => overlaps first n (bitsOf P.pevt 0 12) (bitsOf P.pevt 16 13) && n != 0 &&
        bitsOf P.pevt 16 13 != 0 then s.refuse 3
    else s.modPart f fun P => { P with pevt := n * 2 ^ 16 + first }

/-- PEVT_WRITE (R351). -/
def execPevtWrite (f : Nat) (v : DWord) (s : State) : Host.Outcome State Fault Refusal := .next (s.writePevt f v.toNat)

/-- A write of PMINT (R351). -/
def State.writePmint (s : State) (f v : Nat) : State :=
  s.partWrite f fun s =>
    let x := v % 2 ^ 16
    if 65535 < x + sumOf ((s.otherParts f).map PartRegs.pmint) then s.refuse 3 else s.modPart f fun P => { P with pmint := x }

/-- PMINT_WRITE (R351). -/
def execPmintWrite (f : Nat) (v : DWord) (s : State) : Host.Outcome State Fault Refusal := .next (s.writePmint f v.toNat)

/-- A write of PPOOLBASE, PPOOLSIZE, PSAVEBASE or PSAVESIZE (Table 14-2), by its number from 4 to 7. -/
def State.writeArea (s : State) (f k v : Nat) : State :=
  s.partWrite f fun s =>
    if (if k < 6 then s.liveTags f != 0 else s.imageIn f) then s.refuse 2
    else s.modPart f fun P => match k with
      | 4 => { P with ppoolbase := bitsOf v 16 28 * 2 ^ 16 }
      | 5 => { P with ppoolsize := v % 2 ^ 28 }
      | 6 => { P with psavebase := bitsOf v 16 28 * 2 ^ 16 }
      | _ => { P with psavesize := v % 2 ^ 28 }

/-! ## Tenants and quarters (R352, R353) -/

/-- The bits of TENANT (R352). -/
def tenantBits (v : Nat) : Nat :=
  bitsOf v 63 1 * 2 ^ 63 + bitsOf v 48 4 * 2 ^ 48 + bitsOf v 40 4 * 2 ^ 40 + bitsOf v 32 1 * 2 ^ 32 + v % 2 ^ 14

/-- The guaranteed budget of an account. -/
def guaranteed (v : Nat) : Nat := if bitOf v 32 then v % 2 ^ 14 else 0

/-- The sum of the guaranteed budgets with another value for an account; 256 is the host's. -/
def State.guaranteedSum (s : State) (u v : Nat) : Nat :=
  sumOf ((s.cfg.tenants.filter fun p => p.1 != u).map fun p => guaranteed p.2.toNat) +
    (if u = 256 then 0 else guaranteed s.cfg.hostacct.toNat) + guaranteed v

/-- A tenant owns a thread quarter, or has a launch that is queued, running or saved (R352). -/
def State.tenantBusy (s : State) (u : Nat) : Bool :=
  ((upFrom 0 Config.cores).any fun c => (upFrom 0 4).any fun q => s.quarterOwner c q == some u) ||
    s.launches.any fun p => p.2.lrec.tenant == u && p.2.state != .complete

/-- A write of TENANT (R352, R355). -/
def State.writeTenant (s : State) (u v : Nat) : State :=
  let x := tenantBits v
  s.unlessFrozen (s.frozenBy fun m => s.worldTenant m u) fun s =>
    if x / 2 ^ 40 ≠ s.tenantReg u / 2 ^ 40 ∧ s.tenantBusy u then s.refuse 2
    else if 13500 < s.guaranteedSum u x then s.refuse 3
    else s.modCfg fun C => { C with tenants := C.tenants.store 0 u (BitVec.ofNat 64 x) }

/-- TENANT_WRITE (R352). -/
def execTenantWrite (u : Nat) (v : DWord) (s : State) : Host.Outcome State Fault Refusal :=
  event s (decide (u < 256)) fun s => s.writeTenant u v.toNat

/-- The entry of a quarter in a QOWN value: its tenant and whether it is owned. -/
def qownEntry (v q : Nat) : Nat × Bool := (bitsOf v (8 * q) 8, bitOf v (32 + q))

/-- A slot of a quarter is occupied. -/
def State.quarterBusy (s : State) (core q : Nat) : Bool := s.threads.any fun p => seqOf p.1 == 4 * core + q && p.2.occupied

/-- The records and tiles that a block with its home in a quarter still holds there go, keyed ranges zeroed first (R353, R298). -/
def State.clearHome (s : State) (core b : Nat) : State :=
  let keyed := (s.bside b core).records.filter fun r => r.2.keyed.isSome
  (keyed.foldl (fun s r => s.zeroKeyed b core r.2) s).modBside b core fun S => { S with records := [], tiles := [] }

/-- The resident blocks with their home in a quarter of a core. -/
def State.homedIn (s : State) (core q : Nat) : List Nat :=
  (s.blocks.filter fun p => p.2.residence == .resident && p.2.home == q && (s.coresOf p.1).contains core).map Prod.fst

/-- A quarter changes its owner: its records, tiles, operand-buffer range and scratchpad banks are cleared (R353, R298). -/
def State.clearQuarterState (s : State) (core q : Nat) : State :=
  let s0 := (s.homedIn core q).foldl (fun s b => s.clearHome core b) s
  let s1 := (upFrom (8 * q) 8).foldl (fun s j => s.zeroTile core j) s0
  let s2 := s1.zeroOb (obPa core (0x40000 * q)) 0x40000
  (upFrom (4 * q) 4).foldl (fun s k => s.setSpad core k .off) s2

/-- A write of QOWN (R353). -/
def State.writeQown (s : State) (n v : Nat) : State :=
  let old := (s.cfg.qown.findD n 0).toNat
  let changed := (upFrom 0 4).filter fun q => qownEntry v q != qownEntry old q
  let names (m : Stream) (e : Nat × Bool) : Bool := e.2 && s.worldTenant m e.1
  s.unlessFrozen (s.frozenBy fun m => changed.any fun q => names m (qownEntry v q) || names m (qownEntry old q)) fun s =>
    let fits (q : Nat) : Bool :=
      let e := qownEntry v q
      !e.2 || (bitOf (s.tenantReg e.1) 63 && (s.partSlices (bitsOf (s.tenantReg e.1) 40 4)).contains (sliceOf n))
    if changed.any (s.quarterBusy n) then s.refuse 2
    else if !changed.all fits then s.refuse 1
    else
      let s1 := s.modCfg fun C => { C with qown := C.qown.store 0 n (BitVec.ofNat 64 (v % 2 ^ 36)) }
      changed.foldl (fun s q => s.clearQuarterState n q) s1

/-- QOWN_WRITE (R353). -/
def execQownWrite (n : Nat) (v : DWord) (s : State) : Host.Outcome State Fault Refusal :=
  event s (decide (n < Config.cores)) fun s => s.writeQown n v.toNat

/-! ## Power, rails, event ring, links (R357, R381, R387, R391) -/

/-- A write of FLOOR (R357). -/
def State.writeFloor (s : State) (t v : Nat) : State :=
  let x := v % 2 ^ 16
  if s.cfg.pcap < s.floorSum - s.floorOf t + x then s.refuse 3
  else s.modCfg fun C => { C with floors := C.floors.store 0 t x }

/-- FLOOR_WRITE (R357). -/
def execFloorWrite (t : Nat) (v : DWord) (s : State) : Host.Outcome State Fault Refusal :=
  event s (decide (t < 4)) fun s => s.writeFloor t v.toNat

/-- A write of LOWRAIL (Table 15-10): the setpoint stays between the new floor and ceiling. -/
def State.writeLowrail (s : State) (v : Nat) : State :=
  let c := bitsOf v 32 10
  let f := bitsOf v 16 10
  if c < f then s.refuse 1
  else
    let p := max f (min c s.lowRail.setpoint)
    { s with lowRail := { s.lowRail with auto := bitOf v 48, ceiling := c, floor := f, setpoint := p } }

/-- LOWRAIL_WRITE (R391). -/
def execLowrailWrite (v : DWord) (s : State) : Host.Outcome State Fault Refusal := .next (s.writeLowrail v.toNat)

/-- RAILCNT_CLEAR (Table 15-10). -/
def execRailcntClear (c : Nat) (s : State) : Host.Outcome State Fault Refusal :=
  .next { s with lowRail := { s.lowRail with counts := s.lowRail.counts.del c } }

/-- EVRCTL_OVERFLOW_CLEAR (Table 15-2). -/
def execEvrctlOverflowClear (s : State) : Host.Outcome State Fault Refusal := .next { s with evr := { s.evr with overflow := false } }

/-- EVRLOST_CLEAR (Table 15-2). -/
def execEvrlostClear (s : State) : Host.Outcome State Fault Refusal := .next { s with evr := { s.evr with lost := 0 } }

/-- A read of MBXREPLY (Table 14-4). -/
def State.readMbx (s : State) : State :=
  { s.modSec fun S => { S with hostReplyValid := false } with hostReply := some (leBytes s.sec.hostReply.toNat 8) }

/-- MBXREPLY_READ (Table 14-4). -/
def execMbxreplyRead (s : State) : Host.Outcome State Fault Refusal := .next s.readMbx

/-! ## Stream queues (R78) -/

/-- The configuration registers that MEAS5 covers, in rising address (Table 14-7). -/
def State.measured (s : State) : List DWord :=
  let part (f : Nat) : List Nat :=
    let P := s.partRegs f
    [P.peng, P.pmint, P.pevt, P.ppoolbase, P.ppoolsize, P.psavebase, P.psavesize]
  ((s.cfg.playout :: (upFrom 0 12).flatMap part).map (BitVec.ofNat 64)) ++
    (upFrom 0 Config.cores).map (fun n => s.cfg.qown.findD n 0) ++ (upFrom 0 256).map fun u => s.cfg.tenants.findD u 0

/-- MEAS5 is taken when the first stream queue is enabled (Table 14-7). -/
def State.takeMeas5 (s : State) : State :=
  if (s.sec.meas.find 5).isSome then s else s.extendMeas 5 (leBytes (Config.configDigest s.measured).toNat 48)

/-- A write of SQCTL (Table 4-5): the fields, then the skip, then the resume. -/
def State.writeSqctl (s : State) (q v : Nat) : State :=
  let Q := s.sq q
  let new := { Q with
    enable := bitOf v 0, devSub := bitOf v 1, overlap := bitOf v 2, notify := bitOf v 3
    part := bitsOf v 16 4, world := bitsOf v 20 4, cls := bitsOf v 24 4 }
  s.unlessFrozen (if new = Q then [] else s.frozenBy fun m => m.ifs.contains q) fun s =>
    let s1 := s.modSq q fun _ => new
    let s2 := if new.enable ∧ !Q.enable then s1.takeMeas5 else s1
    let s3 := if bitOf v 5 then s2.skipRecord q else s2
    if bitOf v 4 then s3.resumeQueue q else s3

/-- A write of SQBASE or SQSIZE (Table 4-5): ignored while the queue is enabled. -/
def State.writeSqring (s : State) (q : Nat) (size : Bool) (v : Nat) : State :=
  s.unlessFrozen (s.frozenBy fun m => m.ifs.contains q) fun s =>
    if (s.sq q).enable then s
    else if size then s.modSq q fun Q => { Q with size := v % 16 }
    else s.modSq q fun Q => { Q with base := bitsOf v 12 32 * 2 ^ 12 }

/-- SQCTL as it reads (Table 4-5). -/
def StreamQ.ctl (Q : StreamQ) : Nat :=
  Q.cls * 2 ^ 24 + Q.world * 2 ^ 20 + Q.part * 2 ^ 16 + Q.status * 2 ^ 8 + bitNat Q.stopped * 2 ^ 4 + bitNat Q.notify * 2 ^ 3 +
    bitNat Q.overlap * 2 ^ 2 + bitNat Q.devSub * 2 + bitNat Q.enable

/-! ## The control window by address -/

/-- A host message to the SEC: ignored while one is in hand (Table 14-4). -/
def State.writeMbx (s : State) (v : DWord) : State :=
  if s.sec.hostBusy then s
  else s.modSec fun S => { S with hostMsg := v, hostBusy := true, queue := S.queue ++ [(0, v)] }

/-- A write of SPDMCTL: a nonzero length starts a request, if none is in hand (Table 14-4). -/
def State.writeSpdm (s : State) (v : DWord) : State :=
  if s.sec.spdmBusy then s
  else s.modSec fun S =>
    let starts := bitsOf v.toNat 0 14 != 0
    { S with spdmctl := BitVec.ofNat 64 (v.toNat % 2 ^ 44), spdmBusy := starts, spdmValid := S.spdmValid && !starts }

/-- Registers 0x8000 to 0x8028: the event ring (Table 15-2). -/
def State.writeEvr (s : State) (k : Nat) (v : Nat) : State :=
  let E := s.evr
  let put (E : EvRing) : State := { s with evr := E }
  match k with
  | 0 => put { E with overflow := E.overflow && !bitOf v 2, irq := bitOf v 1, enable := bitOf v 0 }
  | 1 => if E.enable then s else put { E with base := bitsOf v 12 32 * 2 ^ 12 }
  | 2 => if E.enable then s else put { E with size := v % 16 }
  | 3 => put { E with head := v % 2 ^ 32 }
  | 5 => put { E with lost := 0 }
  | _ => s

/-- Registers of a link port (Table 15-6). -/
def State.writeLink (s : State) (p k v : Nat) : State :=
  match k with
  | 0 =>
    let s1 := s.modLink p fun L => { L with enable := bitOf v 0 }
    if bitOf v 1 ∨ (!bitOf v 0 ∧ (s.linkOf p).state ≠ 0) then s1.linkDown p else s1
  | 1 => s.modLink p fun L => { L with wbase := bitsOf v 16 28 * 2 ^ 16 }
  | 2 => s.modLink p fun L => { L with wsize := v % 2 ^ 28 }
  | _ => s

/-- A write of a partition's register by its number (Table 14-2). -/
def State.writePartReg (s : State) (f k v : Nat) : State :=
  match k with
  | 0 => s.writePeng f v
  | 1 => s.writePmint f v
  | 2 => s.writePevt f v
  | 3 => s.writeArea f 4 v
  | 4 => s.writeArea f 5 v
  | 5 => s.writeArea f 6 v
  | 6 => s.writeArea f 7 v
  | _ => s

/-- A write of a stream queue's register by its number (Table 4-5). -/
def State.writeSq (s : State) (q k v : Nat) : State :=
  match k with
  | 0 => s.writeSqctl q v
  | 1 => s.writeSqring q false v
  | 2 => s.writeSqring q true v
  | 4 => if s.streamState q = 3 then s else s.doorbell q (v % 2 ^ 32)
  | _ => s

/-- A write of a tenant's XLROOT (R186), frozen with the tenant (R367). -/
def State.writeXlroot (s : State) (u v : Nat) : State :=
  let x : DWord := BitVec.ofNat 64 (bitsOf v 7 37 * 2 ^ 7 + v % 2)
  s.unlessFrozen (s.frozenBy fun m => s.worldTenant m u) fun s =>
    s.modCfg fun C => { C with xlroot := C.xlroot.store 0 u x }

/-- A write of a schedule entry (R321). -/
def State.writeSched (s : State) (n j v : Nat) : State :=
  let x : DWord := BitVec.ofNat 64 (bitsOf v 63 1 * 2 ^ 63 + bitsOf v 32 4 * 2 ^ 32 + v % 2 ^ 32)
  s.modCfg fun C => { C with sched := C.sched.store 0 (8 * n + j) x }

/-- A write of HOSTACCT (R354, R355). -/
def State.writeHostacct (s : State) (v : Nat) : State :=
  let x := bitsOf v 32 1 * 2 ^ 32 + v % 2 ^ 14
  let d : DWord := BitVec.ofNat 64 x
  if 13500 < s.guaranteedSum 256 x then s.refuse 3 else s.modCfg fun C => { C with hostacct := d }

/-- A write of PAIRCTL (R325). -/
def State.writePairctl (s : State) (x v : Nat) : State :=
  (s.modPair x fun P => { P with req := bitOf v 0, auto := bitOf v 1 }).obeyRequest x

/-- A write to the control window at an offset that is a multiple of 8. Offsets without a register ignore it (R6). -/
def State.ctlWrite (s : State) (o : Nat) (v : DWord) : State :=
  let x := v.toNat
  if o < 0x1800 then s.writeSq (o / 0x40) (o % 0x40 / 8) x
  else if o = 0x2000 then { s with icinv := true }
  else if o = 0x2008 then s.xlinvStart v
  else if o = 0x2010 then s.abortQueue x
  else if 0x3000 ≤ o ∧ o < 0x3800 then s.writeXlroot ((o - 0x3000) / 8) x
  else if 0x4000 ≤ o ∧ o < 0x4C00 then s.writeSched ((o - 0x4000) / 0x40) (o % 0x40 / 8) x
  else if 0x5000 ≤ o ∧ o < 0x5060 then s.writePairctl ((o - 0x5000) / 8) x
  else if o = 0x6000 then s.writePlayout x
  else if o = 0x6008 then s.refuse 0
  else if 0x6100 ≤ o ∧ o < 0x6400 then s.writePartReg ((o - 0x6100) / 0x40) (o % 0x40 / 8) x
  else if 0x6800 ≤ o ∧ o < 0x6980 then s.writeQown ((o - 0x6800) / 8) x
  else if 0x7000 ≤ o ∧ o < 0x7800 then s.writeTenant ((o - 0x7000) / 8) x
  else if o = 0x7800 then s.modCfg fun C => { C with pcap := x % 2 ^ 16 }
  else if 0x7808 ≤ o ∧ o < 0x7828 then s.writeFloor ((o - 0x7808) / 8) x
  else if o = 0x7830 then s.writeHostacct x
  else if o = 0x7900 then s.writeMbx v
  else if o = 0x7918 then s.writeSpdm v
  else if 0x8000 ≤ o ∧ o < 0x8030 then s.writeEvr ((o - 0x8000) / 8) x
  else if o = 0x8100 then s.writeLowrail x
  else if o = 0x8108 then { s with lowRail := { s.lowRail with thresh := x % 2 ^ 16 } }
  else if 0x8140 ≤ o ∧ o < 0x8200 then { s with lowRail := { s.lowRail with counts := s.lowRail.counts.del ((o - 0x8140) / 8) } }
  else if 0x8300 ≤ o ∧ o < 0x8380 then s.writeLink ((o - 0x8300) / 0x40) (o % 0x40 / 8) x
  else if 0x10000 ≤ o ∧ o < 0x18000 then s.addCounter ((o - 0x10000) / 8) v
  else s

/-- What a register of a stream queue reads (Table 4-5). -/
def State.readSq (s : State) (q k : Nat) : Nat :=
  let Q := s.sq q
  match k with
  | 0 => Q.ctl
  | 1 => Q.base
  | 2 => Q.size
  | 3 => Q.head
  | 4 => Q.tail
  | _ => 0

/-- What a partition's register reads (Table 14-2). -/
def State.readPartReg (s : State) (f k : Nat) : Nat :=
  let P := s.partRegs f
  match k with
  | 0 => P.peng
  | 1 => P.pmint
  | 2 => P.pevt
  | 3 => P.ppoolbase
  | 4 => P.ppoolsize
  | 5 => P.psavebase
  | 6 => P.psavesize
  | _ => 0

/-- What a register of the event ring reads (Table 15-2). -/
def EvRing.read (E : EvRing) (k : Nat) : Nat := match k with
  | 0 => bitNat E.overflow * 4 + bitNat E.irq * 2 + bitNat E.enable
  | 1 => E.base
  | 2 => E.size
  | 3 => E.head
  | 4 => E.tail
  | 5 => E.lost
  | _ => 0

/-- What a register of a link port reads (Table 15-6). -/
def Link.read (L : Link) (k : Nat) : Nat := match k with
  | 0 => L.replayed * 2 ^ 16 + L.state * 4 + bitNat L.enable
  | 1 => L.wbase
  | 2 => L.wsize
  | _ => 0

/-- What LOWRAIL reads (Table 15-10). -/
def LowRail.read (L : LowRail) : Nat :=
  bitNat L.held * 2 ^ 49 + bitNat L.auto * 2 ^ 48 + L.ceiling * 2 ^ 32 + L.floor * 2 ^ 16 + L.setpoint

/-- What PAIRCTL reads (R325). -/
def PairCtl.read (P : PairCtl) : Nat := P.state * 2 ^ 8 + bitNat P.auto * 2 + bitNat P.req

/-- What the control window reads at an offset that is a multiple of 8. Offsets without a register read 0 (R6). -/
def State.ctlRead (s : State) (o : Nat) : Nat :=
  if o < 0x1800 then s.readSq (o / 0x40) (o % 0x40 / 8)
  else if o = 0x2000 then bitNat s.icinv
  else if o = 0x2008 then bitNat !s.xlinv.isEmpty
  else if o = 0x2010 then bitNat s.abortBusy
  else if 0x3000 ≤ o ∧ o < 0x3800 then (s.cfg.xlroot.findD ((o - 0x3000) / 8) 0).toNat
  else if 0x4000 ≤ o ∧ o < 0x4C00 then (s.cfg.sched.findD (8 * ((o - 0x4000) / 0x40) + o % 0x40 / 8) 0).toNat
  else if 0x5000 ≤ o ∧ o < 0x5060 then (s.pairOf ((o - 0x5000) / 8)).read
  else if o = 0x6000 then s.cfg.playout
  else if o = 0x6008 then s.cfg.cfgerr
  else if 0x6100 ≤ o ∧ o < 0x6400 then s.readPartReg ((o - 0x6100) / 0x40) (o % 0x40 / 8)
  else if 0x6800 ≤ o ∧ o < 0x6980 then (s.cfg.qown.findD ((o - 0x6800) / 8) 0).toNat
  else if 0x7000 ≤ o ∧ o < 0x7800 then s.tenantReg ((o - 0x7000) / 8)
  else if o = 0x7800 then s.cfg.pcap
  else if 0x7808 ≤ o ∧ o < 0x7828 then s.floorOf ((o - 0x7808) / 8)
  else if o = 0x7830 then s.cfg.hostacct.toNat
  else if o = 0x7908 then s.sec.hostReply.toNat
  else if o = 0x7910 then bitNat s.sec.hostReplyValid * 2 + bitNat s.sec.hostBusy
  else if o = 0x7918 then s.sec.spdmctl.toNat
  else if o = 0x7920 then s.sec.spdmLen * 2 ^ 16 + bitNat s.sec.spdmValid * 2 + bitNat s.sec.spdmBusy
  else if 0x8000 ≤ o ∧ o < 0x8030 then s.evr.read ((o - 0x8000) / 8)
  else if o = 0x8100 then s.lowRail.read
  else if o = 0x8108 then s.lowRail.thresh
  else if 0x8140 ≤ o ∧ o < 0x8200 then
    let c := s.lowRail.counts.findD ((o - 0x8140) / 8) (0, 0)
    c.2 * 2 ^ 32 + c.1
  else if o = 0x8200 then s.cfg.dramcfg
  else if o = 0x8208 then sumOf ((upFrom 0 12).map fun g => s.cfg.drammode.findD g 0 * 2 ^ (2 * g))
  else if 0x8300 ≤ o ∧ o < 0x8380 then (s.linkOf ((o - 0x8300) / 0x40)).read (o % 0x40 / 8)
  else if 0x10000 ≤ o ∧ o < 0x18000 then (s.counter ((o - 0x10000) / 8)).toNat
  else 0

/-- A write of CELLSEL in the device-wide readback (Table 13-8). -/
def State.rbWrite (s : State) (o : Nat) (v : DWord) : State :=
  if o = 0x100000 then s.modCfg fun C => { C with cellsel := BitVec.ofNat 64 (v.toNat % 2 ^ 60) } else s

/-- REGISTER_WRITE (R6, R367): a write of the host to a register, by its physical address. -/
def execRegisterWrite (pa : Nat) (v : DWord) (s : State) : Host.Outcome State Fault Refusal :=
  event s (decide (pa % 8 = 0 ∧ Config.ctlBase ≤ pa ∧ pa < Config.rbEnd)) fun s =>
    if pa < Config.rbBase then s.ctlWrite (pa - Config.ctlBase) v else s.rbWrite (pa - Config.rbBase) v

end Machine
end Sys2Proof
end

