-- ==== Sys2Proof/Machine/Spdm.lean ====
section
/-!
DEFINITION. The SPDM requests of the security controller (R376) and the measurements that it answers with (R377).
-/

namespace Sys2Proof
namespace Machine

/-- The SPDM 1.2 codes of the requests of Table 14-8. -/
def spdmRequests : List Nat := [0x84, 0xE1, 0xE3, 0x81, 0x82, 0x83, 0xE0]

/-- The request in the host buffer. -/
def State.spdmRequest (s : State) : List Byte :=
  s.bytes (bitsOf s.sec.spdmctl.toNat 14 30 * 2 ^ 14) (bitsOf s.sec.spdmctl.toNat 0 14)

/-- The request waits, and its code is given; the SEC takes none before the end of bring-up step 3 (R373). -/
def State.spdmCode (s : State) : Option Nat :=
  if s.sec.spdmBusy ∧ 3 ≤ s.sec.bootStep then some ((s.spdmRequest.getD 1 0).toNat) else none

/-- The response is written to the buffer, and the request is over. -/
def State.spdmEnd (s : State) (bs : List Byte) : State :=
  let pa := bitsOf s.sec.spdmctl.toNat 14 30 * 2 ^ 14
  let s1 := if pa + bs.length ≤ s.dramSize then s.setBytes pa bs else s
  s1.modSec fun S => { S with spdmLen := bs.length, spdmValid := true, spdmBusy := false }

/-- An ERROR response with a code. -/
def spdmError (code : Nat) : List Byte := [0x12, 0x7F, BitVec.ofNat 8 code, 0]

/-! ## Measurement blocks (R377) -/

/-- The registers that a stream freezes (R367), as dwords: of its queues, of the tenants of its world with the quarters that they own, and
of the partitions in which those lie. -/
def State.frozenWords (s : State) (m : Stream) : List DWord :=
  let queue (q : Nat) : List Nat := [s.readSq q 1, s.readSq q 2, bitsOf (s.readSq q 0) 16 12 * 2 ^ 16 + s.readSq q 0 % 16]
  let owned (u : Nat) : List Nat := ((upFrom 0 Config.cores).flatMap fun n => (upFrom 0 4).map fun q => (n, q)).filterMap fun p =>
    if s.quarterOwner p.1 p.2 = some u then some (p.1 * 2 ^ 16 + p.2 * 2 ^ 8 + u) else none
  let tenant (u : Nat) : List Nat := s.tenantReg u :: (s.cfg.xlroot.findD u 0).toNat :: owned u
  let part (f : Nat) : List Nat := (upFrom 0 7).map (s.readPartReg f)
  ((m.ifs.filter (· < 96)).flatMap queue ++ ((upFrom 0 256).filter (s.worldTenant m)).flatMap tenant ++
    s.cfg.playout :: ((upFrom 0 12).filter (s.worldPart m)).flatMap part).map (BitVec.ofNat 64)

/-- The value of a stream's block: the digest of its frozen registers, with its state; zero while it is UNLOCKED. -/
def State.streamEvidence (s : State) (k : Nat) : List Byte :=
  let m := s.stream k
  if m.state = 0 then List.replicate 49 0
  else leBytes (Config.configDigest (s.frozenWords m)).toNat 48 ++ [BitVec.ofNat 8 m.state]

/-- The topology state of a link port: 1 with a verified peer, 2 with one that failed identity, 0 down (R377, R386). -/
def Link.topology (L : Link) : Nat := if L.state = 2 then 1 else if L.state = 3 then 2 else 0

/-- What the topology block holds for a link port: its state, the peer's port number, and the digest of a verified peer. -/
def Link.evidence (L : Link) : List Byte :=
  [BitVec.ofNat 8 L.topology, BitVec.ofNat 8 L.peerPort] ++ leBytes (if L.topology = 1 then L.peerDigest.toNat else 0) 48

/-- The value of the measurement block of an index, if there is one. -/
def State.measurement (s : State) (index : Nat) : Option (List Byte) :=
  if 1 ≤ index ∧ index ≤ 16 then some (leBytes (s.sec.meas.findD (index - 1) 0).toNat 48)
  else if 0x20 ≤ index ∧ index < 0x30 then some (s.streamEvidence (index - 0x20))
  else if index = 0x30 then some ((s.linkOf 0).evidence ++ (s.linkOf 1).evidence)
  else none

/-- The indices of the measurement blocks. -/
def measurementIndices : List Nat := upFrom 1 16 ++ upFrom 0x20 17

/-- A measurement block as SPDM 1.2 lays it out: index, specification, size, and the value with its type (log 21). -/
def State.measurementBlock (s : State) (index : Nat) : List Byte :=
  match s.measurement index with
  | some v => [BitVec.ofNat 8 index, 1] ++ leBytes (v.length + 3) 2 ++ [Config.spdmByte 0x60 [BitVec.ofNat 8 index] 0] ++
      leBytes v.length 2 ++ v
  | none => []

/-! ## Requests -/

/-- A response that is signed with device-key slot 1, the attestation key (R376). -/
def State.spdmSigned (s : State) (bs : List Byte) : List Byte :=
  bs ++ compositeSign 1 (Config.spdmTranscript s.freeCtr s.spdmRequest bs)

/-- The response to GET_MEASUREMENTS: the number of the blocks for operation 0, every block for 0xFF, else the block of an index; a
request with bit 0 of its attributes set gets a signature. An index without a block gets InvalidRequest (log 21). -/
def State.measurementsBody (s : State) : List Byte :=
  let b (i : Nat) : Nat := (s.spdmRequest.getD i 0).toNat
  let is := if b 3 = 0 then [] else if b 3 = 0xFF then measurementIndices else [b 3]
  if (is.any fun k => (s.measurement k).isNone) then spdmError 1
  else
    let blocks := is.flatMap s.measurementBlock
    let bs := [0x12, 0x60, BitVec.ofNat 8 (if b 3 = 0 then measurementIndices.length else 0), BitVec.ofNat 8 (if bitOf (b 2) 0 then b 36 % 16 else 0),
      BitVec.ofNat 8 is.length] ++ leBytes blocks.length 3 ++ blocks ++ (upFrom 0 32).map (Config.freeByte s.freeCtr) ++ [0, 0]
    if bitOf (b 2) 0 then s.spdmSigned bs else bs

/-- The body of a response: VERSION lists 1.2, measurements are those of R377, CHALLENGE is signed; the others follow SPDM 1.2. -/
def State.spdmBody (s : State) (code : Nat) : List Byte :=
  let req := s.spdmRequest
  let free := (upFrom 0 (Config.spdmLength code req % 2 ^ 13)).map (Config.spdmByte code req)
  if code = 0x84 then [0x10, 0x04, 0, 0, 0, 1, 0x00, 0x12]
  else if code = 0xE0 then s.measurementsBody
  else if code = 0x83 then s.spdmSigned free
  else free

/-- A request of a code: accepted once the order has come to `after`, and then the order is `next` at least. A request for another
certificate slot than 0 gets InvalidRequest. -/
def spdmEvent (code after next : Nat) (slot : Bool) (s : State) : Host.Outcome State Fault Refusal :=
  event s (s.spdmCode == some code) fun s =>
    if s.sec.spdmOrder < after then s.spdmEnd (spdmError 4)
    else if slot ∧ bitsOf (s.spdmRequest.getD 2 0).toNat 0 4 ≠ 0 then s.spdmEnd (spdmError 1)
    else
      (s.spdmEnd (s.spdmBody code)).modSec fun S =>
        { S with spdmOrder := if code = 0x84 then 1 else max S.spdmOrder next }

/-- GET_VERSION restarts the order (R376). -/
def execGetVersion (s : State) : Host.Outcome State Fault Refusal := spdmEvent 0x84 0 1 false s
/-- GET_CAPABILITIES. -/
def execGetCapabilities (s : State) : Host.Outcome State Fault Refusal := spdmEvent 0xE1 1 2 false s
/-- NEGOTIATE_ALGORITHMS. -/
def execNegotiateAlgorithms (s : State) : Host.Outcome State Fault Refusal := spdmEvent 0xE3 2 3 false s
/-- GET_DIGESTS. -/
def execGetDigests (s : State) : Host.Outcome State Fault Refusal := spdmEvent 0x81 3 3 false s
/-- GET_CERTIFICATE: slot 0 only. -/
def execGetCertificate (s : State) : Host.Outcome State Fault Refusal := spdmEvent 0x82 3 3 true s
/-- CHALLENGE. -/
def execChallenge (s : State) : Host.Outcome State Fault Refusal := spdmEvent 0x83 3 3 false s
/-- GET_MEASUREMENTS. -/
def execGetMeasurements (s : State) : Host.Outcome State Fault Refusal := spdmEvent 0xE0 3 3 false s

/-- Any other request gets UnsupportedRequest (R376). -/
def execSpdmUnsupportedRequest (s : State) : Host.Outcome State Fault Refusal :=
  event s (match s.spdmCode with
    | some c => !spdmRequests.contains c
    | none => false) fun s => s.spdmEnd (spdmError 7)

end Machine
end Sys2Proof
end

