-- ==== Sys2Proof/Machine/Host.lean ====
section
/-!
DEFINITION. Accesses of the host complex (R332, R333, R378, R379) and the bring-up (R375, R394, R395).
-/

namespace Sys2Proof
namespace Machine

/-! ## Device-wide readback (R332, Table 13-8) -/

/-- Byte `i` of a mismatch record (Table 13-6). -/
def Mismatch.byte (m : Mismatch) (i : Nat) : Byte :=
  BitVec.ofNat 8 (byteOf (match i / 8 with
    | 0 => m.d0
    | 1 => m.d1
    | 2 => m.d2
    | _ => m.d3).toNat (i % 8))

/-- Byte `i` of the selected cell: 64 bytes, then its mask; zero when no such cell exists. -/
def State.cellByte (s : State) (i : Nat) : Byte :=
  let sel := s.cfg.cellsel.toNat
  match s.cells.find (cellKey (bitsOf sel 16 44) (sel % 65536)) with
  | some c => BitVec.ofNat 8 (if i < 64 then byteOf c.data.toNat i else byteOf c.mask.toNat (i - 64))
  | none => 0

/-- A byte of the device-wide readback. The bytes of the context table and of the teller have no inner layout of the manual's, and are free
(log 22); a context that was never opened reads zero. The 256 mismatch records fill their 8 KiB; one that is not in use reads zero, but
that the transient counts and the PAIRCTL states stand in the places of the last two while those are not in use (log 22). -/
def State.rbByte (s : State) (o : Nat) : Byte :=
  if o < 0x100000 then
    if (s.ctxs.find (o / 16)).isSome then Config.readbackByte s.freeCtr (Config.rbBase + o) else 0
  else if o < 0x100008 then BitVec.ofNat 8 (byteOf s.cfg.cellsel.toNat (o - 0x100000))
  else if 0x100040 ≤ o ∧ o < 0x100088 then s.cellByte (o - 0x100040)
  else if 0x110000 ≤ o ∧ o < 0x111000 then Config.readbackByte s.freeCtr (Config.rbBase + o)
  else if 0x120000 ≤ o ∧ o < 0x122000 then
    match s.mismatches[(o - 0x120000) / 32]? with
    | some m => m.byte (o % 32)
    | none =>
      let k := o - 0x121FC0
      if o < 0x121FC0 then 0
      else if k < 48 then BitVec.ofNat 8 (byteOf (s.transient.findD (k / 2) 0) (k % 2))
      else if k < 60 then BitVec.ofNat 8 (s.pairOf (k - 48)).state
      else 0
  else 0

/-! ## Host accesses (R378, R379) -/

/-- Something answers the host at an address: fitted DRAM, a core's map, the control and readback windows, and a link window whose port
takes world 0 and whose peer admits the access; anything else is the bus error of R379. -/
def State.hostAnswers (s : State) (pa : Nat) : Bool :=
  match s.phys pa with
  | .none => false
  | .link port off => s.linkOpen port 0 && Config.peerAdmits port off
  | _ => true

/-- The byte that the host reads at an address, in the base context. A register reads as one dword (R378). -/
def State.hostByte (s : State) (pa : Nat) : Byte :=
  match s.phys pa with
  | .dram => s.byte pa
  | .core n off => s.mapByte n off
  | .control => BitVec.ofNat 8 (byteOf (s.ctlRead ((pa - Config.ctlBase) / 8 * 8)) (pa % 8))
  | .readback => s.rbByte (pa - Config.rbBase)
  | .link port off => Config.peerByte port off s.freeCtr
  | .none => 0

/-- Reading MBXREPLY has an effect (Table 14-4): the range meets it. -/
def meetsReply (pa n : Nat) : Bool := overlaps pa n (Config.ctlBase + 0x7908) 8

/-- An access by its kind of target, for what it does beside moving bytes: a scratchpad bank in RETENTION wakes (R140), a link access
takes a flit (R388). -/
def State.hostTouch (s : State) (pa : Nat) : State :=
  match s.phys pa with
  | .core n off =>
    if 0x1000000 ≤ off ∧ off < 0x1200000 ∧ s.spadBank n (spadBankOf (off - 0x1000000)) = .ret then
      s.setSpad n (spadBankOf (off - 0x1000000)) .full
    else s
  | .link port _ => s.sendFlit port
  | _ => s

/-- Bytes of the host go to DRAM in the base context, or to a core's map. -/
def State.hostPut (s : State) (pa : Nat) (bs : List Byte) : State :=
  match s.phys pa with
  | .dram => s.setBytes pa bs
  | .core n off => s.mapWrite n off bs
  | _ => s

/-- A whole dword of the host goes to a register (R378): registers are written as whole aligned dwords. -/
def State.hostReg (s : State) (pa : Nat) (v : DWord) : State :=
  match s.phys pa with
  | .control => s.ctlWrite (pa - Config.ctlBase) v
  | .readback => s.rbWrite (pa - Config.rbBase) v
  | _ => s

/-- The lines of a range, none of which an engine owns: an access of the host to an owned line waits (R241). -/
def State.hostFree (s : State) (pa n : Nat) : Bool :=
  (upFrom (pa / 64) ((pa + n + 63) / 64 - pa / 64)).all fun x => !s.owned x

/-- A read of the host. -/
def State.hostRead (s : State) (pa n : Nat) : State :=
  if (upFrom pa n).all s.hostAnswers then
    let bs := (upFrom pa n).map s.hostByte
    let s1 := s.hostTouch pa
    let s2 := if meetsReply pa n then s1.readMbx else s1
    { s2 with hostReply := some bs, hostBusErr := false }
  else { s with hostReply := none, hostBusErr := true }

/-- A write of the host. -/
def State.hostWrite (s : State) (pa : Nat) (bs : List Byte) : State :=
  if (upFrom pa bs.length).all s.hostAnswers then
    let s1 := s.hostTouch pa
    let s2 := if pa % 8 = 0 ∧ bs.length = 8 then s1.hostReg pa (BitVec.ofNat 64 (leNat bs)) else s1
    { s2.hostPut pa bs with hostReply := none, hostBusErr := false }
  else { s with hostReply := none, hostBusErr := true }

/-- HOST_MEMORY_ACCESS (R378, R379): an access of at most one line, which does not cross a line. -/
def execHostMemoryAccess (a : HostAccess) (s : State) : Host.Outcome State Fault Refusal :=
  let fits (pa n : Nat) : Bool := decide (1 ≤ n ∧ pa % 64 + n ≤ 64) && s.hostFree pa n
  match a with
  | .read pa n => event s (fits pa n) fun s => s.hostRead pa n
  | .write pa bs => event s (fits pa bs.length) fun s => s.hostWrite pa bs

/-! ## Bring-up (R375, R395) -/

/-- A measurement of boot (Table 14-7). -/
def State.measureBoot (s : State) (k : Nat) : State := s.extendMeas k (leBytes (Config.imageDigest k).toNat 48)

/-- The images that a step of the bring-up starts, in their order (Tables 14-7, 15-11). -/
def bootImages (step : Nat) : List Nat := if step = 2 then [0] else if step = 3 then [1, 2, 3] else []

/-- The channel groups that bring-up finds, as DRAMCFG reports them: those that are fitted and trained. The ordering code SPN-B48-M has
groups 0 to 7 with 8 GiB each (R397, Table 0-1). -/
def foundGroups (r : BootResult) : Nat :=
  if Config.orderingCode = 2 then 0xFF else r.fitted % 4096 + bitNat (r.cap != 0) * 2 ^ 16

/-- The images up to the first that may not start are measured (R375). -/
def State.bootTo (s : State) (ks : List Nat) : State := (ks.takeWhile imageStarts).foldl State.measureBoot s

/-- What a step of the bring-up does to the fabric (Table 15-11): measurements in steps 2 and 3, DRAMCFG and the keys of the
network-on-chip in step 4. Steps 1 and 5 to 8 are seen in what LINK_TRAINING, REGISTER_WRITE and DOORBELL_WRITE do. -/
def State.bootAction (s : State) (r : BootResult) : State :=
  match r.step with
  | 2 => (s.bootTo [0]).measureBoot 4
  | 3 => s.bootTo [1, 2, 3]
  | 4 => (s.modCfg fun C => { C with dramcfg := foundGroups r }).drawKeys
  | _ => s

/-- BRING_UP (R395): the next step of Table 15-11 passes, or fails and stops every later one. A step whose images may not all start
fails, with those before the first of them measured (R375). -/
def execBringUp (r : BootResult) (s : State) : Host.Outcome State Fault Refusal :=
  event s (decide (r.step = s.sec.bootStep + 1 ∧ r.step ≤ 8) && !s.sec.bootFailed) fun s =>
    if !r.ok then s.modSec fun S => { S with bootFailed := true }
    else if (bootImages r.step).all imageStarts then (s.bootAction r).modSec fun S => { S with bootStep := r.step }
    else (s.bootTo (bootImages r.step)).modSec fun S => { S with bootFailed := true }

end Machine
end Sys2Proof
end

