-- ==== Sys2Proof/Machine/Dispatch.lean ====
section
/-!
DEFINITION. The one dispatch of instructions to their meanings: one arm per constructor of Instr.
-/

namespace Sys2Proof
namespace Machine

/-- The effect of an instruction or step on a state. -/
def exec (i : Instr) (s : State) : Host.Outcome State Fault Refusal :=
  match i with
  | .nop h => Sys2Proof.Machine.execNop h s
  | .mov h d b => Sys2Proof.Machine.execMov h d b s
  | .movhi h d a imm => Sys2Proof.Machine.execMovhi h d a imm s
  | .iadd h d a b => Sys2Proof.Machine.execIadd h d a b s
  | .isub h d a b => Sys2Proof.Machine.execIsub h d a b s
  | .iadds h sg d a b => Sys2Proof.Machine.execIadds h sg d a b s
  | .isubs h sg d a b => Sys2Proof.Machine.execIsubs h sg d a b s
  | .imul h d a b => Sys2Proof.Machine.execImul h d a b s
  | .imulh h sg d a b => Sys2Proof.Machine.execImulh h sg d a b s
  | .imad h d a b c => Sys2Proof.Machine.execImad h d a b c s
  | .imadw h sg d a b c => Sys2Proof.Machine.execImadw h sg d a b c s
  | .iadd64 h d a b => Sys2Proof.Machine.execIadd64 h d a b s
  | .isub64 h d a b => Sys2Proof.Machine.execIsub64 h d a b s
  | .lea h n d a b => Sys2Proof.Machine.execLea h n d a b s
  | .lea64 h n sg d a b => Sys2Proof.Machine.execLea64 h n sg d a b s
  | .imin h sg d a b => Sys2Proof.Machine.execImin h sg d a b s
  | .imax h sg d a b => Sys2Proof.Machine.execImax h sg d a b s
  | .iabs h d a => Sys2Proof.Machine.execIabs h d a s
  | .iand h d a b => Sys2Proof.Machine.execIand h d a b s
  | .ior h d a b => Sys2Proof.Machine.execIor h d a b s
  | .ixor h d a b => Sys2Proof.Machine.execIxor h d a b s
  | .bmux h f1 f0 d a b c => Sys2Proof.Machine.execBmux h f1 f0 d a b c s
  | .shl h d a b => Sys2Proof.Machine.execShl h d a b s
  | .shr h sg d a b => Sys2Proof.Machine.execShr h sg d a b s
  | .shf h left d a b c => Sys2Proof.Machine.execShf h left d a b c s
  | .rot h d a b => Sys2Proof.Machine.execRot h d a b s
  | .popc h d a => Sys2Proof.Machine.execPopc h d a s
  | .clz h d a => Sys2Proof.Machine.execClz h d a s
  | .brev h d a => Sys2Proof.Machine.execBrev h d a s
  | .bfe h sg d a b => Sys2Proof.Machine.execBfe h sg d a b s
  | .bfi h d a b c => Sys2Proof.Machine.execBfi h d a b c s
  | .prmt h d a b c => Sys2Proof.Machine.execPrmt h d a b c s
  | .isetp h cmp sg op p pd a b => Sys2Proof.Machine.execIsetp h cmp sg op p pd a b s
  | .isetp64 h cmp sg op p pd a b => Sys2Proof.Machine.execIsetp64 h cmp sg op p pd a b s
  | .iset h cmp sg d a b => Sys2Proof.Machine.execIset h cmp sg d a b s
  | .sel h p d a b => Sys2Proof.Machine.execSel h p d a b s
  | .pset h op pd pa pb => Sys2Proof.Machine.execPset h op pd pa pb s
  | .p2v h d => Sys2Proof.Machine.execP2v h d s
  | .v2p h mask a => Sys2Proof.Machine.execV2p h mask a s
  | .hash32 h d a b => Sys2Proof.Machine.execHash32 h d a b s
  | .shfl h mode d a b => Sys2Proof.Machine.execShfl h mode d a b s
  | .vote h mode p d => Sys2Proof.Machine.execVote h mode p d s
  | .s2v h sr d => Sys2Proof.Machine.execS2v h sr d s
  | .v2s h a => Sys2Proof.Machine.execV2s h a s
  | .imul64 h d a b => Sys2Proof.Machine.execImul64 h d a b s
  | .mov64 h d b => Sys2Proof.Machine.execMov64 h d b s
  | .fadd h fmt rnd d a b => Sys2Proof.Machine.execFadd h fmt rnd d a b s
  | .fsub h fmt rnd d a b => Sys2Proof.Machine.execFsub h fmt rnd d a b s
  | .fmul h fmt rnd d a b => Sys2Proof.Machine.execFmul h fmt rnd d a b s
  | .ffma h fmt rnd d a b c => Sys2Proof.Machine.execFfma h fmt rnd d a b c s
  | .fmin h fmt d a b => Sys2Proof.Machine.execFmin h fmt d a b s
  | .fmax h fmt d a b => Sys2Proof.Machine.execFmax h fmt d a b s
  | .fsetp h cmp op p pd a b => Sys2Proof.Machine.execFsetp h cmp op p pd a b s
  | .fset h cmp fmt d a b => Sys2Proof.Machine.execFset h cmp fmt d a b s
  | .fclass h fmt d a => Sys2Proof.Machine.execFclass h fmt d a s
  | .frcp h d a => Sys2Proof.Machine.execFrcp h d a s
  | .frsq h d a => Sys2Proof.Machine.execFrsq h d a s
  | .fsqrt h rnd d a => Sys2Proof.Machine.execFsqrt h rnd d a s
  | .fexp2 h d a => Sys2Proof.Machine.execFexp2 h d a s
  | .flog2 h d a => Sys2Proof.Machine.execFlog2 h d a s
  | .fsin h d a => Sys2Proof.Machine.execFsin h d a s
  | .fcos h d a => Sys2Proof.Machine.execFcos h d a s
  | .ftanh h d a => Sys2Proof.Machine.execFtanh h d a s
  | .fscale h rnd d a b => Sys2Proof.Machine.execFscale h rnd d a b s
  | .frnd h rnd d a => Sys2Proof.Machine.execFrnd h rnd d a s
  | .fdot2 h fmt rnd d a b c => Sys2Proof.Machine.execFdot2 h fmt rnd d a b c s
  | .fmed3 h fmt d a b c => Sys2Proof.Machine.execFmed3 h fmt d a b c s
  | .cvt h dst src rnd d a => Sys2Proof.Machine.execCvt h dst src rnd d a s
  | .cvtpk h fmt rnd d a b => Sys2Proof.Machine.execCvtpk h fmt rnd d a b s
  | .cbenc h d a cb c => Sys2Proof.Machine.execCbenc h d a cb c s
  | .cbdec h n d a cb c => Sys2Proof.Machine.execCbdec h n d a cb c s
  | .bra h x_off => Sys2Proof.Machine.execBra h x_off s
  | .brd h x_off => Sys2Proof.Machine.execBrd h x_off s
  | .brx h a => Sys2Proof.Machine.execBrx h a s
  | .call h sel x_off => Sys2Proof.Machine.execCall h sel x_off s
  | .callx h sel a => Sys2Proof.Machine.execCallx h sel a s
  | .ret h sel => Sys2Proof.Machine.execRet h sel s
  | .land h => Sys2Proof.Machine.execLand h s
  | .reform h sel => Sys2Proof.Machine.execReform h sel s
  | .gpin h => Sys2Proof.Machine.execGpin h s
  | .gfree h => Sys2Proof.Machine.execGfree h s
  | .exit h => Sys2Proof.Machine.execExit h s
  | .yield h n => Sys2Proof.Machine.execYield h n s
  | .bloop h a x_off => Sys2Proof.Machine.execBloop h a x_off s
  | .ipref h arg a b => Sys2Proof.Machine.execIpref h arg a b s
  | .iprefInv h a b => Sys2Proof.Machine.execIprefInv h a b s
  | .launch h d a b => Sys2Proof.Machine.execLaunch h d a b s
  | .evwait h sc d a b => Sys2Proof.Machine.execEvwait h sc d a b s
  | .evsig h sc a b => Sys2Proof.Machine.execEvsig h sc a b s
  | .nopw h n => Sys2Proof.Machine.execNopw h n s
  | .ld h size sg hint d a b disp => Sys2Proof.Machine.execLd h size sg hint d a b disp s
  | .st h size hint d a b disp => Sys2Proof.Machine.execSt h size hint d a b disp s
  | .lds h size sg d a b disp => Sys2Proof.Machine.execLds h size sg d a b disp s
  | .sts h size d a b disp => Sys2Proof.Machine.execSts h size d a b disp s
  | .ldl h size sg hint d a b disp => Sys2Proof.Machine.execLdl h size sg hint d a b disp s
  | .stl h size hint d a b disp => Sys2Proof.Machine.execStl h size hint d a b disp s
  | .ldw h d a imm => Sys2Proof.Machine.execLdw h d a imm s
  | .stw h d a imm => Sys2Proof.Machine.execStw h d a imm s
  | .ldk h size hint d a b disp => Sys2Proof.Machine.execLdk h size hint d a b disp s
  | .pref h hint a b => Sys2Proof.Machine.execPref h hint a b s
  | .cctl h op a b => Sys2Proof.Machine.execCctl h op a b s
  | .acp h tag hint d a b => Sys2Proof.Machine.execAcp h tag hint d a b s
  | .acwait h mask n => Sys2Proof.Machine.execAcwait h mask n s
  | .acqry h d => Sys2Proof.Machine.execAcqry h d s
  | .ldcb h len d a b => Sys2Proof.Machine.execLdcb h len d a b s
  | .xlq h d a b => Sys2Proof.Machine.execXlq h d a b s
  | .amo h op size ord sc d a b => Sys2Proof.Machine.execAmo h op size ord sc d a b s
  | .cas h size ord sc d a b c => Sys2Proof.Machine.execCas h size ord sc d a b c s
  | .red h op size ord sc a b => Sys2Proof.Machine.execRed h op size ord sc a b s
  | .fence h ord sc => Sys2Proof.Machine.execFence h ord sc s
  | .bar h arg => Sys2Proof.Machine.execBar h arg s
  | .bara h arg => Sys2Proof.Machine.execBara h arg s
  | .barw h arg => Sys2Proof.Machine.execBarw h arg s
  | .gbar h => Sys2Proof.Machine.execGbar h s
  | .ssync h => Sys2Proof.Machine.execSsync h s
  | .waitv h cmp sg size sc d a b => Sys2Proof.Machine.execWaitv h cmp sg size sc d a b s
  | .ctxopen h sc x_set x_try_ d => Sys2Proof.Machine.execCtxopen h sc x_set x_try_ d s
  | .ctxset h a => Sys2Proof.Machine.execCtxset h a s
  | .ctxsettle h a => Sys2Proof.Machine.execCtxsettle h a s
  | .ctxvoid h a => Sys2Proof.Machine.execCtxvoid h a s
  | .ctxq h d a => Sys2Proof.Machine.execCtxq h d a s
  | .ldcx h size sg d a b c => Sys2Proof.Machine.execLdcx h size sg d a b c s
  | .ctxwait h sc d a => Sys2Proof.Machine.execCtxwait h sc d a s
  | .ordhead h => Sys2Proof.Machine.execOrdhead h s
  | .obres h fmt len r a b => Sys2Proof.Machine.execObres h fmt len r a b s
  | .obset h r b => Sys2Proof.Machine.execObset h r b s
  | .obfree h r => Sys2Proof.Machine.execObfree h r s
  | .cbld h r cb => Sys2Proof.Machine.execCbld h r cb s
  | .mloop h d desc => Sys2Proof.Machine.execMloop h d desc s
  | .mwait h a => Sys2Proof.Machine.execMwait h a s
  | .mzero h t => Sys2Proof.Machine.execMzero h t s
  | .accld h t a b => Sys2Proof.Machine.execAccld h t a b s
  | .accst h t a b => Sys2Proof.Machine.execAccst h t a b s
  | .mrd h d t b => Sys2Proof.Machine.execMrd h d t b s
  | .mout h fmt t r a b => Sys2Proof.Machine.execMout h fmt t r a b s
  | .mprog h d a => Sys2Proof.Machine.execMprog h d a s
  | .keybind h r a => Sys2Proof.Machine.execKeybind h r a s
  | .push h pd kind cmd => Sys2Proof.Machine.execPush h pd kind cmd s
  | .qbind h q b => Sys2Proof.Machine.execQbind h q b s
  | .qpeek h d q b => Sys2Proof.Machine.execQpeek h d q b s
  | .qcnt h d q => Sys2Proof.Machine.execQcnt h d q s
  | .qdrain h d q => Sys2Proof.Machine.execQdrain h d q s
  | .bkqry h d => Sys2Proof.Machine.execBkqry h d s
  | .bkwake h mask => Sys2Proof.Machine.execBkwake h mask s
  | .bkdrop h x_off mask => Sys2Proof.Machine.execBkdrop h x_off mask s
  | .spwake h d b => Sys2Proof.Machine.execSpwake h d b s
  | .spdrop h d b => Sys2Proof.Machine.execSpdrop h d b s
  | .trap h code => Sys2Proof.Machine.execTrap h code s
  | .tret h => Sys2Proof.Machine.execTret h s
  | .tclr h a => Sys2Proof.Machine.execTclr h a s
  | .trd h d b => Sys2Proof.Machine.execTrd h d b s
  | .tmask h d a b => Sys2Proof.Machine.execTmask h d a b s
  | .ologq h d b => Sys2Proof.Machine.execOlogq h d b s
  | .brk h code => Sys2Proof.Machine.execBrk h code s
  | .sysrd h d b => Sys2Proof.Machine.execSysrd h d b s
  | .syswr h a b => Sys2Proof.Machine.execSyswr h a b s
  | .cntrd h d b => Sys2Proof.Machine.execCntrd h d b s
  | .psafe h pd => Sys2Proof.Machine.execPsafe h pd s
  | .ilq h d => Sys2Proof.Machine.execIlq h d s
  | .halt h => Sys2Proof.Machine.execHalt h s
  | .mbox h sec d a => Sys2Proof.Machine.execMbox h sec d a s
  | .illegalEncoding e => Sys2Proof.Machine.execIllegalEncoding e s
  | .pairWord stall pred s0 s1 => Sys2Proof.Machine.execPairWord stall pred s0 s1 s
  | .icacheFill seq => Sys2Proof.Machine.execIcacheFill seq s
  | .scoreboardResult id => Sys2Proof.Machine.execScoreboardResult id s
  | .storeAck id => Sys2Proof.Machine.execStoreAck id s
  | .loggedAccessFault entry => Sys2Proof.Machine.execLoggedAccessFault entry s
  | .bankWakeComplete w => Sys2Proof.Machine.execBankWakeComplete w s
  | .binCandidateTimeout seq bin => Sys2Proof.Machine.execBinCandidateTimeout seq bin s
  | .slotWaitTimeout group => Sys2Proof.Machine.execSlotWaitTimeout group s
  | .yieldExpiry group => Sys2Proof.Machine.execYieldExpiry group s
  | .joinRelease seq recno => Sys2Proof.Machine.execJoinRelease seq recno s
  | .gpinRelease block pinned => Sys2Proof.Machine.execGpinRelease block pinned s
  | .evwaitMet group => Sys2Proof.Machine.execEvwaitMet group s
  | .barrierPhaseComplete block side k => Sys2Proof.Machine.execBarrierPhaseComplete block side k s
  | .gbarPhaseComplete launch gang => Sys2Proof.Machine.execGbarPhaseComplete launch gang s
  | .ssyncComplete launch => Sys2Proof.Machine.execSsyncComplete launch s
  | .waitvMet group => Sys2Proof.Machine.execWaitvMet group s
  | .waitvReread group => Sys2Proof.Machine.execWaitvReread group s
  | .acwaitMet group => Sys2Proof.Machine.execAcwaitMet group s
  | .acpComplete id => Sys2Proof.Machine.execAcpComplete id s
  | .ordheadReached group => Sys2Proof.Machine.execOrdheadReached group s
  | .ctxwaitReturn group => Sys2Proof.Machine.execCtxwaitReturn group s
  | .psafeResolve group => Sys2Proof.Machine.execPsafeResolve group s
  | .mboxReply group => Sys2Proof.Machine.execMboxReply group s
  | .queueReadResume group => Sys2Proof.Machine.execQueueReadResume group s
  | .handlerEntry group => Sys2Proof.Machine.execHandlerEntry group s
  | .mintGrant part => Sys2Proof.Machine.execMintGrant part s
  | .contextSettle tag => Sys2Proof.Machine.execContextSettle tag s
  | .contextVoid tag => Sys2Proof.Machine.execContextVoid tag s
  | .ctxPoolTimeout entry => Sys2Proof.Machine.execCtxPoolTimeout entry s
  | .clearingSettle launch => Sys2Proof.Machine.execClearingSettle launch s
  | .recordCheck q => Sys2Proof.Machine.execRecordCheck q s
  | .launchReady l => Sys2Proof.Machine.execLaunchReady l s
  | .blockDispatch part => Sys2Proof.Machine.execBlockDispatch part s
  | .blockExit b => Sys2Proof.Machine.execBlockExit b s
  | .launchComplete l => Sys2Proof.Machine.execLaunchComplete l s
  | .gangReserveTimeout l => Sys2Proof.Machine.execGangReserveTimeout l s
  | .exchangeTimeout b => Sys2Proof.Machine.execExchangeTimeout b s
  | .preemptDeadlineTimeout l => Sys2Proof.Machine.execPreemptDeadlineTimeout l s
  | .preemptTierTimeout l => Sys2Proof.Machine.execPreemptTierTimeout l s
  | .noticeWindowExpiry b => Sys2Proof.Machine.execNoticeWindowExpiry b s
  | .drainTimeout b => Sys2Proof.Machine.execDrainTimeout b s
  | .save b => Sys2Proof.Machine.execSave b s
  | .restore b => Sys2Proof.Machine.execRestore b s
  | .flush b => Sys2Proof.Machine.execFlush b s
  | .checkedFlush b => Sys2Proof.Machine.execCheckedFlush b s
  | .schedEntryEnd core => Sys2Proof.Machine.execSchedEntryEnd core s
  | .overrunWatchdog b => Sys2Proof.Machine.execOverrunWatchdog b s
  | .pairModeChange slice => Sys2Proof.Machine.execPairModeChange slice s
  | .pairDrainTimeout slice => Sys2Proof.Machine.execPairDrainTimeout slice s
  | .autoPair part => Sys2Proof.Machine.execAutoPair part s
  | .autoUnpairTimeout slice => Sys2Proof.Machine.execAutoUnpairTimeout slice s
  | .assayTimeout b => Sys2Proof.Machine.execAssayTimeout b s
  | .assayMismatch b => Sys2Proof.Machine.execAssayMismatch b s
  | .assayPass b => Sys2Proof.Machine.execAssayPass b s
  | .mloopStart core => Sys2Proof.Machine.execMloopStart core s
  | .mloopFetchFault core => Sys2Proof.Machine.execMloopFetchFault core s
  | .mloopEnd core => Sys2Proof.Machine.execMloopEnd core s
  | .engineAccept inst => Sys2Proof.Machine.execEngineAccept inst s
  | .receiptPost inst => Sys2Proof.Machine.execReceiptPost inst s
  | .copy inst => Sys2Proof.Machine.execCopy inst s
  | .gather inst => Sys2Proof.Machine.execGather inst s
  | .scatter inst => Sys2Proof.Machine.execScatter inst s
  | .fill inst => Sys2Proof.Machine.execFill inst s
  | .stream inst => Sys2Proof.Machine.execStream inst s
  | .lookup inst => Sys2Proof.Machine.execLookup inst s
  | .insert inst => Sys2Proof.Machine.execInsert inst s
  | .sort inst => Sys2Proof.Machine.execSort inst s
  | .merge inst => Sys2Proof.Machine.execMerge inst s
  | .hash inst => Sys2Proof.Machine.execHash inst s
  | .sign inst => Sys2Proof.Machine.execSign inst s
  | .linkDownTimeout port => Sys2Proof.Machine.execLinkDownTimeout port s
  | .lowRailHoldExpiry cluster => Sys2Proof.Machine.execLowRailHoldExpiry cluster s
  | .railChangeComplete cluster => Sys2Proof.Machine.execRailChangeComplete cluster s
  | .hostCoherenceDrain tenant lines => Sys2Proof.Machine.execHostCoherenceDrain tenant lines s
  | .operandLogEntryFreed entry => Sys2Proof.Machine.execOperandLogEntryFreed entry s
  | .iprefInvComplete id => Sys2Proof.Machine.execIprefInvComplete id s
  | .ssvInboxMessageTaken tenant => Sys2Proof.Machine.execSsvInboxMessageTaken tenant s
  | .hostMemoryAccess a => Sys2Proof.Machine.execHostMemoryAccess a s
  | .registerWrite pa v => Sys2Proof.Machine.execRegisterWrite pa v s
  | .bringUp r => Sys2Proof.Machine.execBringUp r s
  | .sqtailWrite q v => Sys2Proof.Machine.execSqtailWrite q v s
  | .sqctlResume q => Sys2Proof.Machine.execSqctlResume q s
  | .sqctlSkip q => Sys2Proof.Machine.execSqctlSkip q s
  | .eventCounterHostAdd n v => Sys2Proof.Machine.execEventCounterHostAdd n v s
  | .dataFaultRetry f => Sys2Proof.Machine.execDataFaultRetry f s
  | .pairctlWrite slice v => Sys2Proof.Machine.execPairctlWrite slice v s
  | .icinvWrite v => Sys2Proof.Machine.execIcinvWrite v s
  | .xlinvWrite v => Sys2Proof.Machine.execXlinvWrite v s
  | .launchabortWrite v => Sys2Proof.Machine.execLaunchabortWrite v s
  | .playoutWrite v => Sys2Proof.Machine.execPlayoutWrite v s
  | .pengWrite f v => Sys2Proof.Machine.execPengWrite f v s
  | .pevtWrite f v => Sys2Proof.Machine.execPevtWrite f v s
  | .pmintWrite f v => Sys2Proof.Machine.execPmintWrite f v s
  | .tenantWrite u v => Sys2Proof.Machine.execTenantWrite u v s
  | .qownWrite n v => Sys2Proof.Machine.execQownWrite n v s
  | .floorWrite t v => Sys2Proof.Machine.execFloorWrite t v s
  | .lowrailWrite v => Sys2Proof.Machine.execLowrailWrite v s
  | .railcntClear c => Sys2Proof.Machine.execRailcntClear c s
  | .linkctlRetrain p => Sys2Proof.Machine.execLinkctlRetrain p s
  | .peerLinkRequest port a => Sys2Proof.Machine.execPeerLinkRequest port a s
  | .linkFlitReceive port f => Sys2Proof.Machine.execLinkFlitReceive port f s
  | .linkTraining port proof => Sys2Proof.Machine.execLinkTraining port proof s
  | .nocPacketReceive w crcOk tagOk f => Sys2Proof.Machine.execNocPacketReceive w crcOk tagOk f s
  | .powerControlTick r => Sys2Proof.Machine.execPowerControlTick r s
  | .dramModeCheck group report => Sys2Proof.Machine.execDramModeCheck group report s
  | .undervoltInterval x_s => Sys2Proof.Machine.execUndervoltInterval x_s s
  | .lowRailUncorrectable cluster f => Sys2Proof.Machine.execLowRailUncorrectable cluster f s
  | .junctionCrossing slice level x_rising celsius => Sys2Proof.Machine.execJunctionCrossing slice level x_rising celsius s
  | .icinvComplete => Sys2Proof.Machine.execIcinvComplete s
  | .xlinvComplete => Sys2Proof.Machine.execXlinvComplete s
  | .cfgerrClear => Sys2Proof.Machine.execCfgerrClear s
  | .evrctlOverflowClear => Sys2Proof.Machine.execEvrctlOverflowClear s
  | .evrlostClear => Sys2Proof.Machine.execEvrlostClear s
  | .mbxreplyRead => Sys2Proof.Machine.execMbxreplyRead s
  | .bind => Sys2Proof.Machine.execBind s
  | .unbind => Sys2Proof.Machine.execUnbind s
  | .lock => Sys2Proof.Machine.execLock s
  | .start => Sys2Proof.Machine.execStart s
  | .unlock => Sys2Proof.Machine.execUnlock s
  | .query => Sys2Proof.Machine.execQuery s
  | .keyprov => Sys2Proof.Machine.execKeyprov s
  | .keyrevoke => Sys2Proof.Machine.execKeyrevoke s
  | .extend => Sys2Proof.Machine.execExtend s
  | .secBadMessage => Sys2Proof.Machine.execSecBadMessage s
  | .getVersion => Sys2Proof.Machine.execGetVersion s
  | .getCapabilities => Sys2Proof.Machine.execGetCapabilities s
  | .negotiateAlgorithms => Sys2Proof.Machine.execNegotiateAlgorithms s
  | .getDigests => Sys2Proof.Machine.execGetDigests s
  | .getCertificate => Sys2Proof.Machine.execGetCertificate s
  | .challenge => Sys2Proof.Machine.execChallenge s
  | .getMeasurements => Sys2Proof.Machine.execGetMeasurements s
  | .spdmUnsupportedRequest => Sys2Proof.Machine.execSpdmUnsupportedRequest s
  | .dramWindow => Sys2Proof.Machine.execDramWindow s
  | .coldReset => Sys2Proof.Machine.execColdReset s

end Machine
end Sys2Proof
end

