-- ==== Sys2Proof/Machine/Fetch.lean ====
section
/-!
DEFINITION. Fetch (R106 to R109), the candidates of a sequencer and their order (R101, R104, R105), and how the candidate that
wins an opportunity comes to its word (R103, R112).
-/

namespace Sys2Proof
namespace Machine

/-! ## Fetch -/

/-- What a fetch gives: a word, a line that the shared instruction cache does not hold, or a cause. -/
inductive Fetched where
  | word (i : Instr)
  | miss (pline : Nat)
  | cause (c : Nat)
  deriving DecidableEq, Repr

/-- The cached line as a fetch finds it (R109): where memory has changed since the line came, the fetch finds the old or the new contents,
and the new ones stay (log 37). -/
def State.cachedLine (s : State) (pline : Nat) (l : Line) : Line × State :=
  if l = s.memLine pline ∨ !Config.fetchNew s.freeCtr pline then (l, s)
  else (s.memLine pline, { s with icache := s.icache.put pline (s.memLine pline) })

/-- The dword at a byte of a line. -/
def lineWord (l : Line) (at_ : Nat) : DWord := BitVec.ofNat 64 (l.toNat / 2 ^ (8 * at_))

/-- Fetches the next word of a group (R106). -/
def State.fetch (s : State) (G : Group) : Fetched × State :=
  let R := s.recOf G.block
  match s.fetchPa (clusterOf G.core) R.tenant R.world G.pc with
  | (.error c, s1) => (.cause c, s1)
  | (.ok pa, s1) =>
    match s1.icache.find (pa / 64) with
    | none => (.miss (pa / 64), s1)
    | some l =>
      let r := s1.cachedLine (pa / 64) l
      (.word (decode (lineWord r.1 (pa % 64))), r.2)

/-- The next word of a group, if a fetch finds one now. -/
def State.nextWord (s : State) (G : Group) : Option Instr :=
  match (s.fetch G).1 with
  | .word i => some i
  | _ => none

/-- A fetch raises a cause in every occupied lane of the group (R106). -/
def State.fetchFault (s : State) (g : Nat) (G : Group) (cause : Nat) : State :=
  (s.noteIssue G (s.clk G.core) []).finish g G [] (G.lanes.map fun t => ⟨t, cause, G.pc, 0⟩) G.lanes

/-- A miss freezes its sequencer until the line comes, and counts as a slip (R108). -/
def State.freeze (s : State) (q pline : Nat) : State := s.modSeqr q fun Q => { Q with frozen := some pline, slips := Q.slips + 1 }

/-! ## Candidates (R101, R103, R104) -/

/-- A candidate for an issue opportunity: a group in a slot, a bin, or a group that has waited long enough for a slot. -/
inductive Cand where
  | slot (g : Nat)
  | bin (k : Nat)
  | bare (g : Nat)
  deriving DecidableEq, Repr

/-- A block may issue: it is on a core, it is not stopping for a pre-emption, and its launch goes on. -/
def State.blockIssues (s : State) (b : Nat) : Bool :=
  s.awake b && !(s.block b).going && !(s.launchOf b).ending

/-- None of some threads waits for an IPREF.inv under way (R130). -/
def State.noIprefInv (s : State) (ts : List Nat) : Bool := s.iprefInv.all fun p => !p.2.1.any ts.contains

/-- Nothing holds the next word of a group: no wait, no cause to be delivered, no IPREF.inv under way. -/
def State.groupIssues (s : State) (G : Group) : Bool :=
  G.wait.isNone && G.deliver.isNone && s.blockIssues G.block && s.noIprefInv G.lanes

/-- Nothing holds the first word of a bin's threads: their stall counts are over (R36), and no IPREF.inv is under way for them. -/
def State.binReady (s : State) (B : Bin) (core : Nat) : Bool := decide (B.carry.readyAt ≤ s.clk core) && s.noIprefInv B.threads

/-- A block is in DM2 (R105). -/
def State.inTurns (s : State) (b : Nat) : Bool := (s.recOf b).dm == 2

/-- A candidate with its waiting time and tie number (R104): the cycle it began to wait, then slots, then bins, then groups without a
slot. -/
abbrev Ranked := Nat × Nat × Cand

/-- The order of R104. -/
def Ranked.before (x y : Ranked) : Bool := decide (x.1 < y.1) || (x.1 == y.1 && decide (x.2.1 < y.2.1))

/-- A candidate at its place. -/
def rankCand (x : Ranked) : List Ranked → List Ranked
  | [] => [x]
  | y :: r => if Ranked.before x y then x :: y :: r else y :: rankCand x r

/-- The groups of a sequencer that are candidates under R104. A group whose stall count is not satisfied is none. -/
def State.groupCands (s : State) (q : Nat) : List Ranked :=
  s.groups.filterMap fun p =>
    let G := p.2
    if G.seq = q && s.groupIssues G && !s.inTurns G.block && s.yieldOver G && decide (G.readyAt ≤ s.clk G.core) then
      match G.slot with
      | some k => some (G.since, k, .slot p.1)
      | none => if G.candidate then some (G.since, 48, .bare p.1) else none
    else none

/-- The bins of a sequencer that are candidates under R104. -/
def State.binCands (s : State) (q : Nat) : List Ranked :=
  (s.seqBins q).filterMap fun p =>
    if p.2.candidate && s.blockIssues p.2.block && !s.inTurns p.2.block && s.binReady p.2 (q / 4) then
      some (p.2.since, 32 + p.1 % Config.binsPerQuarter, .bin p.1)
    else none

/-! ## The rotation of a DM2 block (R105) -/

/-- The key of some threads: %grp of the lowest-numbered thread, then its slot. -/
def State.turnKey (s : State) (ts : List Nat) : Nat :=
  let t := ts.foldl min (ts.headD 0)
  1024 * (s.thread t).grp + slotOf t

/-- The candidates of a DM2 block on a core, with their keys and sequencers. -/
def State.turnCands (s : State) (b core : Nat) : List (Nat × Nat × Cand) :=
  let gs := s.groups.filterMap fun p =>
    let G := p.2
    if G.block = b && G.core = core && G.wait.all Wait.breaks && (G.slot.isSome || G.candidate) then
      some (s.turnKey G.lanes, G.seq, if G.slot.isSome then Cand.slot p.1 else Cand.bare p.1)
    else none
  let bs := s.bins.filterMap fun p =>
    if p.2.block = b && p.1 / Config.binsPerQuarter / 4 = core && p.2.candidate then
      some (s.turnKey p.2.threads, p.1 / Config.binsPerQuarter, Cand.bin p.1)
    else none
  gs ++ bs

/-- The candidate to which the turn of a DM2 block belongs: the next key from the rotation pointer on, which wraps at the top. -/
def State.turnOf (s : State) (b core : Nat) : Option (Nat × Nat × Cand) :=
  let all := s.turnCands b core
  let on := all.filter fun x => decide ((s.bside b core).rotation ≤ x.1)
  leastBy Prod.fst (if on.isEmpty then all else on)

/-- The group of a candidate, if it is one. -/
def State.candGroup (s : State) : Cand → Option Group
  | .slot g => s.groups.find g
  | .bare g => s.groups.find g
  | .bin _ => none

/-- The DM2 blocks on a core. -/
def State.turnBlocks (s : State) (core : Nat) : List Nat :=
  (s.blocks.filter fun p => s.inTurns p.1 && s.blockIssues p.1 && (s.coresOf p.1).contains core).map Prod.fst

/-- The candidates whose turn it is on a sequencer. A group that YIELD or NOPW holds is passed over; a group at an ACWAIT, which waits on
the scoreboard, keeps its turn. -/
def State.turnsOn (s : State) (q : Nat) : List Ranked :=
  (s.turnBlocks (q / 4)).filterMap fun b => match s.turnOf b (q / 4) with
    | some (_, k, c) =>
      let G := s.candGroup c
      let free := match c, G with
        | .bin n, _ => (s.bins.find n).any fun B => s.binReady B (q / 4)
        | _, some G => G.yieldLeft == 0 && decide (G.readyAt ≤ s.clk G.core) && G.deliver.isNone && G.wait.isNone && s.noIprefInv G.lanes
        | _, none => false
      if k = q && free then some ((G.map Group.since).getD 0, 0, c) else none
    | none => none

/-- Turns that fall to groups that YIELD or NOPW holds pass over them (R105): each has one turn less to wait. Such a turn does not age the
bins and the waits for a slot (log 12). -/
def State.passTurns (s : State) (q : Nat) : State :=
  (s.turnBlocks (q / 4)).foldl (fun s b => match s.turnOf b (q / 4) with
    | some (key, k, c) => match c, s.candGroup c with
      | .slot g, some G | .bare g, some G =>
        if k = q ∧ G.yieldLeft ≠ 0 then
          (s.modGroup g fun G => { G with yieldLeft := G.yieldLeft - 1 }).modBside b (q / 4) fun S => { S with rotation := key + 1 }
        else s
      | _, _ => s
    | none => s) s

/-- The end of a turn of a DM2 block. -/
def State.endTurn (s0 : State) (q : Nat) (c : Cand) (s : State) : State :=
  match (s0.turnBlocks (q / 4)).find? fun b => (s0.turnOf b (q / 4)).any fun x => x.2.2 == c with
  | some b => match s0.turnOf b (q / 4) with
    | some x => s.modBside b (q / 4) fun S => { S with rotation := x.1 + 1, turns := S.turns + 1 }
    | none => s
  | none => s

/-- The candidates of a sequencer in the order in which they are tried. -/
def State.candidates (s : State) (q : Nat) : List Cand :=
  ((s.groupCands q ++ s.binCands q ++ s.turnsOn q).foldl (fun l x => rankCand x l) []).map fun x => x.2.2

/-- A sequencer has an issue opportunity in this cycle: it is not frozen (R108), its quarter runs (R321, R322), its cluster does not change
rails (R18), and its last word has been gathered (R133). -/
def State.seqOpen (s : State) (q : Nat) : Bool :=
  (s.seqr q).frozen.isNone && !s.gated q && !(s.rails.findD (clusterOf (q / 4)) Rail.init).changing &&
    decide ((s.seqr q).lastIssue ≤ s.clk (q / 4))

/-! ## From a candidate to its word -/

/-- The group that has held its slot longest without issuing gives it up and waits afresh (R101). -/
def State.evictSlot (s : State) (q : Nat) : State :=
  match leastBy (fun p => p.2.oppsAt) (s.groups.filter fun p => p.2.seq == q && p.2.slot.isSome) with
  | some (g, G) => s.setGroup g { G with
      slot := none, since := s.clk G.core, oppsAt := s.oppsNow q G.block, candidate := false }
  | none => s

/-- A candidate that has won an opportunity gets a slot (R101, R103); the answer is its group. -/
def State.seat (s : State) (q : Nat) : Cand → Option Nat × State
  | .slot g => (some g, s)
  | .bare g =>
    let s1 := if (s.freeSlot q).isNone then s.evictSlot q else s
    (some g, (s1.modGroup g fun G => { G with candidate := false }).takeSlot g)
  | .bin k =>
    match s.bins.find k with
    | none => (none, s)
    | some B =>
      let s1 := if (s.freeSlot q).isNone then s.evictSlot q else s
      (some s1.nextId, (s1.formBin k B false).takeSlot s1.nextId)

/-- The threads of a group that wait at a join now (R112). -/
def State.joining (s : State) (G : Group) : List Nat :=
  G.lanes.filter fun t => ((s.thread t).topRec.map JoinRec.pc) == some G.pc

/-- The threads of a group that are at their join leave it and wait (R112). -/
def State.joinSplit (s : State) (g : Nat) (G : Group) (ts : List Nat) : State :=
  let rest := G.lanes.filter fun t => !ts.contains t
  if rest.isEmpty then s.beginWait g .join
  else
    let s1 := s.setGroup g { G with lanes := rest }
    (s1.spawn G ts G.pc).beginWait s1.nextId .join

/-- What a candidate comes to. -/
inductive Attempt where
  /-- there is nothing to issue -/
  | skip (s : State)
  /-- the opportunity goes to something else than a word -/
  | done (s : State)
  /-- a word is to be executed -/
  | run (i : Instr) (s : State)

/-- A candidate comes to its word: it gets a slot, threads at their join leave it, and its word is fetched and decoded. -/
def State.attempt (s : State) (q : Nat) (c : Cand) : Attempt :=
  match s.seat q c with
  | (none, s1) => .skip s1
  | (some g, s1) =>
    match s1.groups.find g with
    | none => .skip s1
    | some G =>
      let ts := s1.joining G
      if !ts.isEmpty then .done (s1.joinSplit g G ts)
      else
        match s1.fetch G with
        | (.cause x, s2) => .done (s2.fetchFault g G x)
        | (.miss l, s2) => .done (s2.freeze q l)
        | (.word i, s2) => .run i { s2 with cur := some g }

/-- The group that has issued has held its slot since then without issuing. -/
def State.restamp (s : State) (g : Nat) : State :=
  s.modGroup g fun G => if G.slot.isSome then { G with oppsAt := s.oppsNow G.seq G.block } else G

/-- A word was issued on a sequencer between two states. -/
def issuedBetween (s t : State) (q : Nat) : Bool := decide ((s.seqr q).lastIssue < (t.seqr q).lastIssue)

end Machine
end Sys2Proof
end

