-- ==== Sys2Proof/Machine/Auto.lean ====
section
/-!
DEFINITION. What a step does: an issue opportunity of a sequencer (R104), the passing of time, an event, and, where the agenda is
empty, the choice of the device's own next move (log 4).
-/

namespace Sys2Proof
namespace Machine

/-! ## An issue opportunity -/

/-- Tries candidates in their order until one takes the opportunity (R104): those whose words are not ready stay where they are. -/
def State.tryCands (q : Nat) : List Cand → State → Host.Outcome State Fault Refusal
  | [], s => .next s
  | c :: r, s =>
    match s.attempt q c with
    | .skip s1 => State.tryCands q r s1
    | .done s1 => .next s1
    | .run i s1 =>
      match exec i s1 with
      | .next t =>
        let t1 := { t with cur := none }
        if issuedBetween s t q then .next (s.endTurn q c (match s1.cur with
          | some g => t1.restamp g
          | none => t1))
        else State.tryCands q r t1
      | x => x

/-- An issue opportunity of a sequencer. -/
def State.issueAt (s : State) (q : Nat) : Host.Outcome State Fault Refusal :=
  if s.seqOpen q then State.tryCands q (s.candidates q) (s.passTurns q) else .next s

/-! ## The passing of time -/

/-- A group's next word is ready. -/
def State.wordReady (s : State) (G : Group) : Bool :=
  decide (G.readyAt ≤ s.clk G.core) && (match s.nextWord G with
    | some i => s.ready G i
    | none => false)

/-- A group's next word names a register in a quarter that is waking. -/
def State.waitsForBank (s : State) (G : Group) : Bool :=
  G.wait.isNone && G.slot.isSome && (G.lanes.any fun t => !(s.thread t).wakes.isEmpty) && (match s.nextWord G with
    | some i => G.lanes.any fun t => (readsOf i ++ writesOf i).any fun n => (s.thread t).waking (quarterOf n)
    | none => false)

/-- While a group's word is not ready, its waiting time under R104 has not begun: it begins with this cycle, if an event makes the word
ready in it, or when the stall count is over. -/
def State.freshSince (s : State) (G : Group) : Group :=
  if G.slot.isSome && G.wait.isNone && !s.wordReady G then { G with since := max (s.clk G.core) G.readyAt } else G

/-- The cycles that a core's clock goes on in some time. -/
def State.cyclesIn (s : State) (core dt : Nat) : Nat := State.clk { s with now := s.now + dt } core - s.clk core

/-- A sequencer after some cycles (R101, R341): each is an issue opportunity unless the sequencer is frozen or gated. -/
def State.seqAfter (s : State) (dt q : Nat) : Seqr :=
  let n := s.cyclesIn (q / 4) dt
  let Q := s.seqr q
  let waits := s.groups.any fun p => p.2.seq == q && s.waitsForBank p.2
  { Q with
    opps := if Q.frozen.isNone && !s.gated q then Q.opps + n else Q.opps
    wakeWait := if waits then Q.wakeWait + n else Q.wakeWait }

/-- A sequencer that runs holds threads of a block in an open bin, or a group of it that waits for a slot. -/
def State.agingOn (s : State) (b q : Nat) : Bool :=
  (s.seqr q).frozen.isNone && !s.gated q &&
    ((s.seqBins q).any (fun p => p.2.block == b && !p.2.candidate) ||
      s.groups.any fun p => p.2.seq == q && p.2.block == b && p.2.slotless && !p.2.candidate)

/-- While a DM2 block has no candidate on a core, its bins and its waits for a slot age by one turn in a cycle (R103, R105, log 12). -/
def State.emptyTurns (s : State) (core cycles : Nat) : State :=
  (s.turnBlocks core).foldl (fun s b =>
    if (s.turnOf b core).isNone && (upFrom (4 * core) 4).any (s.agingOn b) then
      s.modBside b core fun S => { S with turns := S.turns + cycles }
    else s) s

/-- A cluster that changes rails has done so within 20 ns (R18). -/
def State.railsDone (s : State) (dt : Nat) : FMap Rail :=
  s.rails.map fun p => (p.1, { p.2 with changing := p.2.changing && decide (s.now + dt < p.2.at_ + 20 * Config.ns) })

/-- Time passes for the fabric, in units of 1/114 ns. -/
def State.passTime (s : State) (dt : Nat) : State :=
  let seqs : FMap Seqr := (upFrom 0 (4 * Config.cores)).map fun q => (q, s.seqAfter dt q)
  let s1 := (upFrom 0 Config.cores).foldl (fun (t : State) c => (t.overrunFor c (s.cyclesIn c dt)).emptyTurns c (s.cyclesIn c dt))
    { s.stampTops.loopsGo with seqs := seqs, rails := s.railsDone dt }
  let s2 := { s1.chargeDram with now := s.now + dt }
  let groups : FMap Group := s2.groups.map fun p => (p.1, s2.freshSince p.2)
  { s2 with groups := groups }

/-- Time passes. After a failed bring-up the fabric stays in reset, and only the time itself goes on (R375, R395). -/
def State.tick (s : State) (dt : Nat) : State := if s.sec.bootFailed then { s with now := s.now + dt } else s.passTime dt

/-! ## The device's own moves -/

/-- An event: no word of a program. -/
def Instr.isEvent (i : Instr) : Bool := !Sys2Proof.Instr.isWord i && (match i with
  | .illegalEncoding _ => false
  | _ => true)

/-- The events that every group may await. -/
def groupEvents (g : Nat) : List Instr :=
  [.handlerEntry g, .yieldExpiry g, .slotWaitTimeout g, .evwaitMet g, .waitvMet g, .waitvReread g, .acwaitMet g, .ordheadReached g,
    .ctxwaitReturn g, .psafeResolve g, .mboxReply g, .queueReadResume g]

/-- The events of an engine. -/
def engineEvents (n : Nat) : List Instr :=
  [.engineAccept n, .receiptPost n, .copy n, .gather n, .scatter n, .fill n, .stream n, .lookup n, .insert n, .sort n, .merge n,
    .hash n, .sign n]

/-- The events of a block. -/
def State.blockEvents (s : State) (b : Nat) : List Instr :=
  let B := s.block b
  (s.coresOf b).flatMap (fun c => (s.bside b c).barriers.keys.map fun k => Instr.barrierPhaseComplete b (s.sideOf b c) k) ++
    (distinct (fun t => (s.thread t).pgrp) (s.blockThreads b)).map (fun p => Instr.gpinRelease b p) ++
    [.assayMismatch b, .assayTimeout b, .assayPass b, .blockExit b, .restore b, .noticeWindowExpiry b, .drainTimeout b, .exchangeTimeout b,
      .save b, .flush b, .checkedFlush b, .overrunWatchdog b] ++
    (if B.residence == .resident then [.gbarPhaseComplete B.launch (B.index / max (s.recOf b).gangSize 1)] else [])

/-- The events of a launch. -/
def launchEvents (l : Nat) : List Instr :=
  [.launchReady l, .clearingSettle l, .ssyncComplete l, .launchComplete l, .gangReserveTimeout l, .preemptDeadlineTimeout l,
    .preemptTierTimeout l]

/-- The events of a partition. -/
def partEvents (f : Nat) : List Instr := [.mintGrant f, .blockDispatch f, .autoPair f]

/-- The joins at which some thread waits. -/
def State.joinEvents (s : State) : List Instr :=
  ((s.threads.filterMap fun p => (p.2.topRec).map fun r => (seqOf p.1, r.recno)).eraseDups).map fun x => Instr.joinRelease x.1 x.2

/-- The quarters and banks that wake. -/
def State.wakeEvents (s : State) : List Instr :=
  (s.threads.flatMap fun p => p.2.wakes.keys.map fun q => Instr.bankWakeComplete (.reg p.1 q)) ++
    s.spadWakes.keys.map fun k => Instr.bankWakeComplete (.spad (k / 16) (k % 16))

/-- The events of the device itself that may be due, in the order in which they are looked at. -/
def State.ownEvents (s : State) : List Instr :=
  s.inflight.keys.map Instr.scoreboardResult ++ s.wakeEvents ++
    s.opLog.keys.flatMap (fun e => [Instr.operandLogEntryFreed e, .loggedAccessFault e, .ctxPoolTimeout e]) ++
    s.pendStores.keys.map Instr.storeAck ++ s.drain.map (fun p => Instr.hostCoherenceDrain p.1 p.2) ++
    s.acps.keys.map Instr.acpComplete ++ s.seqs.keys.map Instr.icacheFill ++ s.iprefInv.keys.map Instr.iprefInvComplete ++
    [.icinvComplete, .xlinvComplete, .dramWindow] ++ s.joinEvents ++ s.groups.keys.flatMap groupEvents ++ s.blocks.keys.flatMap s.blockEvents ++
    s.bins.keys.map (fun k => Instr.binCandidateTimeout (k / Config.binsPerQuarter) (k % Config.binsPerQuarter)) ++
    s.mqueue.keys.flatMap (fun c => [Instr.mloopStart c, .mloopEnd c, .mloopFetchFault c]) ++ s.engines.keys.flatMap engineEvents ++
    (s.ctxs.keys.flatMap fun t => [Instr.contextSettle t, .contextVoid t]) ++ s.sqs.keys.map Instr.recordCheck ++
    s.launches.keys.flatMap launchEvents ++ (upFrom 0 Config.slices).flatMap partEvents ++
    (upFrom 0 Config.cores).map Instr.schedEntryEnd ++
    (upFrom 0 Config.slices).flatMap (fun x => [Instr.pairModeChange x, .pairDrainTimeout x, .autoUnpairTimeout x]) ++
    s.rails.keys.flatMap (fun c => [Instr.railChangeComplete c, .lowRailHoldExpiry c]) ++ s.inbox.keys.map Instr.ssvInboxMessageTaken ++
    [.bind, .unbind, .lock, .start, .unlock, .query, .keyprov, .keyrevoke, .extend, .secBadMessage, .getVersion, .getCapabilities,
      .negotiateAlgorithms, .getDigests, .getCertificate, .challenge, .getMeasurements, .spdmUnsupportedRequest] ++
    s.links.keys.map Instr.linkDownTimeout

/-- The state after the first move of a list that changes something. -/
def firstChange (s : State) (f : Instr → Host.Outcome State Fault Refusal) : List Instr → Option State
  | [] => none
  | i :: r => match f i with
    | .next t => if t = s then firstChange s f r else some t
    | _ => firstChange s f r

/-- The first sequencer at which an opportunity changes something. -/
def firstIssue (s : State) : List Nat → Option (Host.Outcome State Fault Refusal)
  | [] => none
  | q :: r => match s.issueAt q with
    | .next t => if t = s then firstIssue s r else some (.next t)
    | x => some x

/-- The sequencers that hold groups or bins, in rising number: in one cycle the lower wins first (R134). -/
def State.openSeqs (s : State) : List Nat :=
  (upFrom 0 (4 * Config.cores)).filter fun q => (s.groups.any fun p => p.2.seq == q) || !(s.seqBins q).isEmpty

/-- The device's own next move: an event that is due, else an issue opportunity, else a cycle of the high rail passes. After a failed
bring-up the fabric stays in reset, and only time passes (R375, R395). -/
def State.auto (s : State) : Host.Outcome State Fault Refusal :=
  if s.sec.bootFailed then .next (s.tick Config.highPeriod)
  else match firstChange s (fun i => exec i s) s.ownEvents with
  | some t => .next t
  | none =>
    match firstIssue s s.openSeqs with
    | some x => x
    | none => .next (s.tick Config.highPeriod)

/-- An event may occur: a failed bring-up leaves nothing but a reset (R375, R395). -/
def State.admits (s : State) (i : Instr) : Bool := Instr.isEvent i && (!s.sec.bootFailed || (match i with
  | .coldReset => true
  | .junctionCrossing .. => true
  | _ => false))

/-- Makes a move. -/
def State.move (s : State) : Move → Host.Outcome State Fault Refusal
  | .event i => if s.admits i then exec i s else .next s
  | .issue q => if s.sec.bootFailed then .next s else s.issueAt q
  | .tick dt => .next (s.tick dt)

end Machine
end Sys2Proof
end

