-- ==== Sys2Proof/Machine/Step.lean ====
section
/-!
DEFINITION. The step of the device: it takes the next move of the agenda, or, where the agenda is empty, the device's own next move
(log 4). And the placing of one word where the next step fetches it.
-/

namespace Sys2Proof
namespace Machine

/-- One step. Every step draws a new number for the values that the manual leaves open (log 7). -/
def step (s : State) : Host.Outcome State Fault Refusal :=
  match s.agenda with
  | m :: r => State.move { s with freeCtr := s.freeCtr + 1, agenda := r } m
  | [] => State.auto { s with freeCtr := s.freeCtr + 1 }

/-! ## A word where the next step fetches it -/

/-- The address, virtual and physical, at which the word is placed. -/
def fetchBase : Nat := 0x10000

/-- A launch of one block of one group with the whole register allotment, whose code is at `fetchBase`. -/
def fetchRec : LRec := { LRec.init with
  codeBase := fetchBase
  levels := [⟨false, .blk, 0, 32⟩, ⟨false, .dev, 0, 1⟩]
  roles := [⟨0, 240, 1⟩] }

/-- A page-table entry of a NORMAL page of 4 KiB with every permission, for world 0, at `fetchBase`. -/
def fetchPte : DWord := BitVec.ofNat 64 (2 ^ 63 + 2 ^ 58 + 2 ^ 57 + 2 ^ 56 + fetchBase)

/-- The state with one instruction where the next step fetches it: a block dispatched to the first 32 slots of core 0 whose program
counter holds the word, a translation and a cached line for it, and an opportunity of that sequencer as the next move. It stands for
the launch of a program from outside (log 29). -/
def State.withFetchWord (s : State) (_nbits w : Nat) : State :=
  let l := s.nextId
  let b := s.nextId + 1
  let sched := s.cfg.sched.filter fun (p : Nat × DWord) => decide (8 ≤ p.1)
  let groups := s.groups.filter fun (p : Nat × Group) => p.2.seq != 0
  let bins := s.bins.filter fun (p : Nat × Bin) => p.1 / Config.binsPerQuarter != 0
  let s1 := { s with
    agenda := [.issue 0], cur := none, nextId := s.nextId + 2, groups := groups, bins := bins
    seqs := s.seqs.del 0, rails := s.rails.del 0
    launches := s.launches.put l { Launch.init with lrec := fetchRec, state := .ready, nextBlock := 1 }
    blocks := s.blocks.put b { Block.init with launch := l }
    tlb := ⟨0, fetchBase / 4096, 0, fetchPte⟩ :: s.tlb
    cfg := { s.cfg with dramcfg := s.cfg.dramcfg ||| 1, sched := sched } }
  let s2 := (s1.startBlock b ⟨0, none, [0], 0, 0⟩).setBytes fetchBase (leBytes w 8)
  { s2 with icache := s2.icache.put (fetchBase / 64) (s2.memLine (fetchBase / 64)) }

end Machine
end Sys2Proof
end

