-- ==== Sys2Proof/Safety.lean ====
section
/-!
DEFINITION. The notions that claims are stated in: safe runs, a word that issues with nothing in its way, and what such a word does
to its group and its lanes.
-/

namespace Sys2Proof
namespace Machine

/-- The states that steps reach from a state. -/
inductive Reaches : State → State → Prop where
  | refl (s : State) : Reaches s s
  | next {s t u : State} : Reaches s t → step t = .next u → Reaches s u

/-- A step at the state is neither a fault nor a refusal. -/
def State.Goes (s : State) : Prop := ∃ t, step s = .next t

/-- A run from a state is safe: no state that it reaches stops. -/
def State.Safe (s : State) : Prop := ∀ t, Reaches s t → t.Goes

/-- The cycle in which a word of a group issues: its last register read is granted then (R133). -/
def State.issueClk (s : State) (G : Group) (i : Instr) : Nat := s.clk G.core + s.gatherWait G.core G.quarter i

/-- The lanes of a group whose guard passes (R33). -/
def State.actives (s : State) (G : Group) (i : Instr) : List Nat := G.lanes.filter (s.guardPasses i.hdr (s.issueClk G i))

/-- A word as it issues from its group. -/
def State.issueEnv (s : State) (g : Nat) (G : Group) (i : Instr) : Env :=
  ⟨g, G, i, i.hdr, s.issueClk G i, G.lanes, s.actives G i, []⟩

/-- The word `i` of the selected group issues and nothing is in its way: it is ready (R37, R40, R192, R224), it names no register above
the allotment (R30), it reads nothing early where that is checked (R38), the quarters that it names are FULL (R135 to R138), and its
queue registers hold and take what it asks for (R29). -/
structure State.Issues (s : State) (g : Nat) (G : Group) (i : Instr) : Prop where
  selected : s.cur = some g
  there : s.groups.find g = some G
  lanes : G.lanes ≠ []
  apart : G.lanes.Nodup
  ready : s.ready G i = true
  allotted : ∀ t ∈ G.lanes, topReg i.uses ≤ s.allotOf t
  onTime : s.enabled G.block G.core cStallShort = true →
    ∀ t ∈ G.lanes, s.earlyLane i i.hdr (s.issueClk G i) t true = false
  banks : ∀ t ∈ G.lanes, ∀ n ∈ readsOf i ++ writesOf i, (s.thread t).quarter (quarterOf n) = .full
  queues : s.queueGate G.block G.core i (s.actives G i).length = .pass

/-- A lane of a word as it reads its operands at issue. -/
def State.lane (s : State) (G : Group) (i : Instr) (t : Nat) : LV :=
  ⟨s, t, (s.actives G i).idxOf t, s.issueClk G i⟩

/-- The release hint of a word turns a register quarter OFF (R42). -/
def hintOff (h : Hdr) (q : Nat) : Bool := match h.hint with
  | some x => x.off && x.quarter.val == q
  | none => false

/-- A group after its word issued at a cycle and sent it to a program counter; the next word issues no earlier than the stall count
allows (R36). -/
def Group.wentTo (G : Group) (h : Hdr) (clk pc : Nat) : Group :=
  { G with pc := pc, readyAt := max G.readyAt (clk + max h.stall.val 1), since := max G.readyAt (clk + max h.stall.val 1) }

/-- The sequencer of a group after an issue at a cycle that led to `t`: it issues nothing more before the cycle is over (R104, R133), the
word counts for the tier of its block (R358), and its register reads take the grants that they took (R134). -/
def State.issuedSeqr (s t : State) (G : Group) (clk : Nat) : Seqr :=
  let tier := (s.recOf G.block).tier
  let Q := s.seqr G.seq
  { Q with
    grantWait := Q.grantWait + (clk - s.clk G.core), lastIssue := clk + 1, grants := (t.seqr G.seq).grants
    words := Q.words.store 0 tier (Q.words.findD tier 0 + 1) }

/-- From the state `s`, in which a word has had its effect, the end of its issue leads to `t`: the group is at a program counter, each of
its lanes has retired the word (R148) and applied its release hint (R42), and nothing else changes. -/
structure State.Went (s t : State) (g : Nat) (G : Group) (h : Hdr) (clk pc : Nat) : Prop where
  rest : t = { s with
    threads := t.threads, groups := s.groups.put g (G.wentTo h clk pc), blocks := t.blocks
    seqs := s.seqs.put G.seq (s.issuedSeqr t G clk), freeCtr := s.freeCtr + 1 }
  blocks : ∀ b, b ≠ G.block → t.block b = s.block b
  block : t.block G.block = { s.block G.block with
    lead := { (s.block G.block).lead with retired := (t.block G.block).lead.retired }
    follow := { (s.block G.block).follow with retired := (t.block G.block).follow.retired } }
  others : ∀ u, u ∉ G.lanes → t.thread u = s.thread u
  lanes : ∀ u ∈ G.lanes, t.thread u = { s.thread u with
    regs := (t.thread u).regs, quarters := (t.thread u).quarters, wakes := (t.thread u).wakes, lost := (t.thread u).lost
    lowered := (t.thread u).lowered, rcnt := if (s.thread u).again then (s.thread u).rcnt else (s.thread u).rcnt + 1, again := false }
  regs : ∀ u ∈ G.lanes, ∀ n, (t.thread u).reg n = if hintOff h (quarterOf n) then 0 else (s.thread u).reg n

/-- Nothing differs between two states but what the sides of one block hold. -/
structure State.OnlySides (b : Nat) (s t : State) : Prop where
  rest : t = { s with blocks := t.blocks }
  blocks : ∀ c, c ≠ b → t.block c = s.block c
  block : t.block b = { s.block b with lead := (t.block b).lead, follow := (t.block b).follow }

/-- A write stands in its thread: the register or predicate holds the value, and counts as outstanding until it is readable (R35). -/
def Thread.Holds (T : Thread) (ready : Nat) : LaneWrite → Prop
  | .reg n x => T.reg n = x ∧ ∃ w ∈ T.fixed, w.dest = .reg n ∧ w.ready = ready
  | .pred k b => k < 7 → T.pred k = b ∧ ∃ w ∈ T.fixed, w.dest = .pred k ∧ w.ready = ready
  | .push _ _ => True

/-- What the active lanes of a word push to a queue register, in the order of the lanes (R29). -/
def pushesTo (q : Nat) (outs : List (List LaneWrite)) : List DWord :=
  outs.flatMap fun ws => ws.filterMap fun w => match w with
    | .push k x => if k = q then some x else none
    | _ => none

/-- A queue register after a word: `m` entries are popped if the word reads it, and what its lanes push is appended, but for entries that
a stream command of the leader has taken before the follower pushed them (R29, R265, R275). -/
def QReg.after (Q : QReg) (reads : Bool) (m : Nat) (new : List DWord) : QReg :=
  { Q with entries := (if reads then Q.entries.drop m else Q.entries) ++ new.drop Q.owed, owed := Q.owed - new.length }

/-- The queue registers of the side of a block on a core after a word that reads some and pushes to some. -/
def State.Queued (s t : State) (G : Group) (i : Instr) (outs : List (List LaneWrite)) : Prop :=
  (s.blocks.find G.block).isSome → (qReadsOf i).Nodup → ∀ q, q < (s.bside G.block G.core).queues.length →
    (t.bside G.block G.core).queues.getD q QReg.init =
      ((s.bside G.block G.core).queues.getD q QReg.init).after ((qReadsOf i).contains q) (s.actives G i).length
        (pushesTo q outs)

/-- The effect of a word of fixed latency whose active lanes write what `f` says: they hold the writes, every other register and
predicate is as before, and nothing else changes but, for a word that names queue registers, the sides of its block. -/
structure State.Wrote (s t : State) (G : Group) (i : Instr) (lat : Nat) (f : LV → List LaneWrite) : Prop where
  rest : t = { s with threads := t.threads, blocks := t.blocks }
  blocks : State.OnlySides G.block s { t with threads := s.threads }
  quiet : qReadsOf i = [] → qWritesOf i = [] → t.blocks = s.blocks
  queues : s.Queued t G i ((s.actives G i).map fun u => f (s.lane G i u))
  others : ∀ u, u ∉ s.actives G i → t.thread u = s.thread u
  lanes : ∀ u ∈ s.actives G i, t.thread u =
    { s.thread u with regs := (t.thread u).regs, preds := (t.thread u).preds, fixed := (t.thread u).fixed }
  wrote : ∀ u ∈ s.actives G i, ∀ w ∈ f (s.lane G i u), (t.thread u).Holds (s.issueClk G i + lat) w
  regs : ∀ u ∈ s.actives G i, ∀ n, (∀ x, LaneWrite.reg n x ∉ f (s.lane G i u)) → (t.thread u).reg n = (s.thread u).reg n
  preds : ∀ u ∈ s.actives G i, ∀ k, (∀ b, LaneWrite.pred k b ∉ f (s.lane G i u)) → (t.thread u).pred k = (s.thread u).pred k

/-- The register and predicate writes of the lanes of a word, as a result on its way holds them (R37). -/
def laneResults (outs : List (Nat × List LaneWrite)) : List RegWrite :=
  outs.flatMap fun o => o.2.filterMap fun w => match w with
    | .reg n x => some ⟨o.1, .reg n, x⟩
    | .pred k b => some ⟨o.1, .pred k, if b then 1 else 0⟩
    | .push _ _ => none

/-- A state with one more result on its way to the registers of a block, to be written at a cycle (R37). -/
def State.awaiting (s : State) (b ready : Nat) (isLoad : Bool) (outs : List (Nat × List LaneWrite)) : State :=
  if (laneResults outs).isEmpty then s
  else { s with
    nextId := s.nextId + 1
    inflight := s.inflight.put s.nextId ⟨b, s.nextId, laneResults outs, isLoad, ready, []⟩ }

/-- The effect of a word whose results the scoreboard tracks: they are on their way, nothing is written yet, and nothing else changes
but, for a word that names queue registers, the sides of its block. -/
structure State.Sent (s t : State) (G : Group) (i : Instr) (lat : Nat) (f : LV → List LaneWrite) : Prop where
  sides : State.OnlySides G.block (s.awaiting G.block (s.issueClk G i + lat) false
    ((s.actives G i).map fun u => (u, f (s.lane G i u)))) t
  quiet : qReadsOf i = [] → qWritesOf i = [] → t.blocks = s.blocks
  queues : s.Queued t G i ((s.actives G i).map fun u => f (s.lane G i u))

/-- A word with tracked results: wherever nothing is in its way, it completes with that effect, and its group goes on to the next word. -/
def State.TrackedWord (s : State) (i : Instr) (lat : Nat) (f : LV → List LaneWrite) : Prop :=
  ∀ g G, s.Issues g G i → ∃ r t, exec i s = .next t ∧ s.Sent r G i lat f ∧ r.Went t g G i.hdr (s.issueClk G i) (G.pc + 8)

/-- A word of fixed latency whose lanes write what `f` says: wherever nothing is in its way, it completes with that effect, and its
group goes on to the next word. -/
def State.FixedWord (s : State) (i : Instr) (lat : Nat) (f : LV → List LaneWrite) : Prop :=
  ∀ g G, s.Issues g G i → ∃ r t, exec i s = .next t ∧ s.Wrote r G i lat f ∧ r.Went t g G i.hdr (s.issueClk G i) (G.pc + 8)

/-! ## Causes -/

/-- The lanes of a group in which a cause is raised. -/
def Group.struck (G : Group) (cs : List LaneCause) : List Nat := G.lanes.filter fun u => cs.any fun c => c.thread == u

/-- The causes in the order of the lanes, the first of each lane (R38, R312). -/
def Group.firsts (G : Group) (cs : List LaneCause) : List LaneCause := G.lanes.filterMap fun u => cs.find? fun c => c.thread == u

/-- The number of a group has been drawn, its threads know it and lie in no bin, and bins have one entry each. -/
structure State.Apart (s : State) (g : Nat) (G : Group) : Prop where
  drawn : g < s.nextId
  enrolled : ∀ u ∈ G.lanes, (s.thread u).disp = .group g
  sorted : FMap.sorted s.bins = true
  free : ∀ p ∈ s.bins, ∀ u ∈ p.2.threads, u ∉ G.lanes

/-- The program counter at which a thread goes on: that of its group, or of its bin. -/
def State.pcOf (s : State) (u : Nat) : Option Nat :=
  match (s.thread u).disp with
  | .group g => (s.groups.find g).map Group.pc
  | .bin k => (s.bins.find k).map Bin.pc
  | .exited => none

/-- Some lanes of a group raise causes at its word and stop there, and the other lanes go on at program counters `dest` (R313, R314). The causes
are recorded; with a handler, the stopped lanes are in it, and will resume at the word; without one, or in the handler, the launch ends with
ABORTED, and nothing is lost of an end that it had come to before. -/
structure State.Stops (s t : State) (g : Nat) (G : Group) (cs : List LaneCause) (dest : Nat → Nat) : Prop where
  group : ∃ G', t.groups.find g = some G' ∧ G'.lanes = G.struck cs ∧ G'.causes = (G.recordAll G.pc (G.firsts cs)).causes ∧
    G'.masks = (G.recordAll G.pc (G.firsts cs)).masks ∧ G'.faults = (G.recordAll G.pc (G.firsts cs)).faults ∧ G'.wait = G.wait ∧
    ((s.bside G.block G.core).tvec ≠ 0 → G.inHandler = false →
      G'.pc = (s.bside G.block G.core).tvec ∧ G'.inHandler = true ∧ G'.resumePc = G.pc ∧ G'.resumeMask = laneMask (G.struck cs))
  handled : (s.bside G.block G.core).tvec ≠ 0 → s.handling G = false → t.launches = s.launches
  aborted : (s.bside G.block G.core).tvec = 0 ∨ s.handling G = true → t.launches = s.launches.adjust (s.block G.block).launch fun L =>
    if L.ending ∨ L.state = .complete then L else { L with ending := true, status := 7 }
  others : ∀ u ∈ G.lanes, u ∉ G.struck cs → t.pcOf u = some (dest u)
  mem : t.mem = s.mem

/-! ## Branches and waits -/

/-- Nothing differs between two states but the assay items of one block, and those only if it runs on two cores (R327). -/
structure State.OnlyItems (b : Nat) (s t : State) : Prop where
  rest : t = { s with blocks := t.blocks }
  alone : s.paired b = false → t = s
  blocks : ∀ c, c ≠ b → t.block c = s.block c
  block : t.block b = { s.block b with
    items := (t.block b).items, itemNo := (t.block b).itemNo, matched := (t.block b).matched }

/-- Nothing differs between two states but some threads, each of which `f` has changed. -/
structure State.Changed (s t : State) (ts : List Nat) (f : Nat → Thread → Thread) : Prop where
  rest : t = { s with threads := t.threads }
  there : ∀ u ∈ ts, t.thread u = f u (s.thread u)
  others : ∀ u, u ∉ ts → t.thread u = s.thread u

/-- From the state `s`, in which a branching word has had its effect, the end of its issue leads to `t`: each lane is at its program
counter, and where all lanes go to one the group is there as it was (R100); each lane has retired the word and applied its release hint. -/
structure State.Sends (s t : State) (g : Nat) (G : Group) (h : Hdr) (clk : Nat) (dest : Nat → Nat) : Prop where
  at_ : ∀ u ∈ G.lanes, t.pcOf u = some (dest u)
  together : ∀ pc, (∀ u ∈ G.lanes, dest u = pc) → s.Went t g G h clk pc
  rest : t = { s with
    threads := t.threads, groups := t.groups, bins := t.bins, blocks := t.blocks, nextId := t.nextId
    seqs := s.seqs.put G.seq (s.issuedSeqr t G clk), freeCtr := s.freeCtr + 1 }
  threads : ∀ u, t.thread u = { s.thread u with
    regs := (t.thread u).regs, quarters := (t.thread u).quarters, wakes := (t.thread u).wakes, lost := (t.thread u).lost
    lowered := (t.thread u).lowered, rcnt := (t.thread u).rcnt, again := (t.thread u).again, disp := (t.thread u).disp }
  regs : ∀ u ∈ G.lanes, ∀ n, (t.thread u).reg n = if hintOff h (quarterOf n) then 0 else (s.thread u).reg n

/-- From the state `s`, in which a word has had its effect, the end of its issue leads to `t`, in which the group waits at the word (R101). -/
structure State.Halts (s t : State) (g : Nat) (G : Group) (h : Hdr) (clk : Nat) (w : Wait) : Prop where
  rest : ∃ u, s.Went u g G h clk G.pc ∧ t = { u with groups := t.groups }
  group : ∃ H, t.groups.find g = some H ∧ H = { G with
    readyAt := max G.readyAt (clk + max h.stall.val 1), wait := some w, slot := if w.slotless then none else G.slot
    candidate := !w.slotless && G.candidate, since := H.since, oppsAt := H.oppsAt }
  others : ∀ k, k ≠ g → t.groups.find k = s.groups.find k

/-- The wait of a group ends, and it goes on at a program counter; it needs a slot again if it gave its own up (R101). -/
structure State.Resumes (s t : State) (g : Nat) (G : Group) (pc : Nat) : Prop where
  rest : t = { s with groups := t.groups }
  group : ∃ H, t.groups.find g = some H ∧
    H = { G with wait := none, pc := pc, slot := H.slot, since := H.since, oppsAt := H.oppsAt, candidate := H.candidate } ∧
    (G.slot.isSome → H = { G with wait := none, pc := pc }) ∧ ((s.freeSlot G.seq).isSome → H.slot.isSome)
  others : ∀ k, k ≠ g → t.groups.find k = s.groups.find k

/-- Causes that a group meets after the issue of the word at `pc` are recorded, and it enters its handler with all its lanes, from which it
will return to where it stood; or its launch ends with ABORTED (R313, R314). -/
structure State.Trapped (s t : State) (g : Nat) (G : Group) (pc : Nat) (cs : List LaneCause) : Prop where
  group : ∃ H, t.groups.find g = some H ∧ H.lanes = G.lanes ∧ H.causes = (G.recordAll pc cs).causes ∧
    H.masks = (G.recordAll pc cs).masks ∧ H.faults = (G.recordAll pc cs).faults ∧
    ((s.bside G.block G.core).tvec ≠ 0 → G.inHandler = false →
      H.pc = (s.bside G.block G.core).tvec ∧ H.inHandler = true ∧ H.resumePc = G.pc ∧ H.resumeMask = laneMask G.lanes)
  handled : (s.bside G.block G.core).tvec ≠ 0 → s.handling G = false → t.launches = s.launches
  aborted : (s.bside G.block G.core).tvec = 0 ∨ s.handling G = true → t.launches = s.launches.adjust (s.block G.block).launch fun L =>
    if L.ending ∨ L.state = .complete then L else { L with ending := true, status := 7 }
  mem : t.mem = s.mem

/-! ## Accesses -/

/-- A group's logged word takes an entry of the operand log, which keeps the sources of its active lanes (R191). -/
def State.Logged (s t : State) (G : Group) (i : Instr) (ls : List LaneSrc) : Prop :=
  t = if ls = [] then s else { s with
    nextId := s.nextId + 1
    opLog := s.opLog.put s.nextId ⟨G.seq, G.block, i, G.pc, laneMask (ls.map LaneSrc.thread), 0, [], ls, [], false, false, s.now, s.nextId, 0⟩ }

/-- What an active lane of a logged word keeps: base, index or operand, and data. -/
def State.kept (s : State) (G : Group) (i : Instr) (f : LV → Nat × Nat × Nat) : List LaneSrc :=
  (s.actives G i).map fun u =>
    ⟨u, (s.thread u).ctx, !s.threadOpen (s.thread u), (f (s.lane G i u)).1, (f (s.lane G i u)).2.1, (f (s.lane G i u)).2.2, 0,
      (s.thread u).ctxGen⟩

/-- An entry of the operand log is live, and its block is on a core. -/
structure State.Live (s : State) (id : Nat) (e : LogEntry) : Prop where
  there : s.opLog.find id = some e
  live : e.dormant = false
  awake : s.awake e.block = true
  alone : s.paired e.block = false
  leads : ∀ l ∈ e.lanes, coreOf l.thread = (s.block (s.thread l.thread).block).core

/-- Every lane of a live entry passes its checks, and nothing is in the way of its access (R153, R191, R192, R237, R241). -/
structure State.Passes (s : State) (id : Nat) (e : LogEntry) : Prop extends s.Live id e where
  clear : (s.lanesCheck e.instr e.lanes).1 = []
  synced : (s.lanesCheck e.instr e.lanes).2.2.atomReady e (s.lanesCheck e.instr e.lanes).2.1 = true
  placed : (s.lanesCheck e.instr e.lanes).2.2.placesReady e
    (if isShared e.instr then (s.lanesCheck e.instr e.lanes).2.1.take 1 else (s.lanesCheck e.instr e.lanes).2.1) = true
  settled : ((s.lanesCheck e.instr e.lanes).2.1.flatMap Prod.snd).all (fun sp => sp.bank.all fun b =>
    !(s.lanesCheck e.instr e.lanes).2.2.dropPending e.block b.1 b.2 e.age) = true

/-- The lanes of an entry with the spots that their checks give. -/
def State.spots (s : State) (e : LogEntry) : List (LaneSrc × List Spot) := (s.lanesCheck e.instr e.lanes).2.1

/-- Byte `k` of a spot, as the accessor sees it: from the L1 on a hit, else from the scratchpad, or from memory in its context. -/
def State.spotByte (s : State) (a : Acc) (ctx : Nat) (sp : Spot) (k : Nat) : Byte :=
  match sp.place with
  | none => match s.l1Find a.core (sp.vaddr / 64) ctx a.tenant with
    | some l => BitVec.ofNat 8 (byteOf l.data.toNat (sp.vaddr % 64 + k))
    | none => 0
  | some (.spad core off) => s.byte (spadPa core (off + k))
  | some (.mem pa c _) => s.placeByte c (pa + k)

/-- The number that a lane reads from its spots, lowest byte first. -/
def State.spotNat (s : State) (a : Acc) (ctx : Nat) (sps : List Spot) : Nat :=
  leNat (sps.flatMap fun sp => (List.range sp.len).map (s.spotByte a ctx sp))

/-- The physical address of a spot in a scratchpad or in DRAM. -/
def Spot.home (sp : Spot) : Option Nat :=
  match sp.place with
  | some (.spad core off) => some (spadPa core off)
  | some (.mem pa _ _) => some pa
  | none => none

/-- A spot lies in a scratchpad, or in DRAM as a context sees it. -/
def State.plain (s : State) (ctx : Nat) (sp : Spot) : Prop :=
  match sp.place with
  | some (.spad _ _) => True
  | some (.mem pa c _) => c = ctx ∧ s.phys pa = .dram
  | none => False

/-- The byte that the lanes of a store leave at a physical address: that of the last lane whose bytes cover it (R196). -/
def storedByte (n : Nat) (oks : List (LaneSrc × List Spot)) (x : Nat) : Option Byte :=
  oks.reverse.findSome? fun o => (o.2.head?.bind Spot.home).bind fun pa =>
    if pa ≤ x ∧ x < pa + n then some (BitVec.ofNat 8 (byteOf o.1.c (x - pa))) else none

/-! ## Sides and tiles -/

/-- A state in which one side of a block, the one that a core runs, is changed (R326). -/
def State.sided (s : State) (b core : Nat) (f : BSide → BSide) : State :=
  { s with blocks := s.blocks.adjust b fun B =>
      if core = B.core then { B with lead := f B.lead } else { B with follow := f B.follow } }

/-- A state in which a block has claimed a tile: it is +0 in every element when the block first names it (R285). -/
def State.claimed (s : State) (b core t : Nat) : State :=
  if t ∈ (s.bside b core).tiles then s
  else
    let at_ := tilePa core (0x4000 * (8 * (s.block b).home + t))
    { s.sided b core fun S => { S with tiles := S.tiles ++ [t] } with
      mem := s.mem.filter fun p => p.1 < at_ || at_ + 0x4000 ≤ p.1 }

/-- Element `i` of a block's tile, row by row. -/
def State.element (s : State) (b core t i : Nat) : Nat :=
  leNat ((List.range 4).map fun k => s.byte (tilePa core (0x4000 * (8 * (s.block b).home + t) + 4 * i) + k))

/-- Nothing of a tile's content is open (R294). -/
def State.tileKnown (s : State) (b core t : Nat) : Prop := s.tileOpen core (8 * (s.block b).home + t) = false

/-- A whole-tile word may be issued as R299 asks: the group holds its pinned group, and every thread of it is active. -/
def State.wholeGroup (s : State) (G : Group) (i : Instr) : Prop :=
  ∀ u, (s.actives G i).head? = some u → (s.thread u).pinned = true ∧
    (∀ v ∈ s.pinnedOf G.block G.core (s.thread u).pgrp, v ∈ G.lanes) ∧
    ∀ p ∈ s.threads, p.2.block = G.block → p.1 / 1024 = G.core → p.2.pgrp = (s.thread u).pgrp → p.1 ∈ s.actives G i

/-! ## Contexts -/

/-- A context comes to be under a tag (R206, R207, R222): the lanes that asked for it are to receive its handle, and with `set` it is
their current context. -/
structure State.Opened (s t : State) (tag parent : Nat) (sc : Scope) (b core : Nat) (lanes : List Nat) (set : Bool) (pd : Option Nat)
    (d : Reg) (origin : Nat) : Prop where
  rest : t = { s with
    ctxs := t.ctxs, threads := t.threads, blocks := t.blocks, nextId := t.nextId, inflight := t.inflight }
  quiet : (∀ q, d ≠ .q q) → s.paired b = false → t.blocks = s.blocks
  ctx : t.ctx tag = {
    gen := if (s.ctx tag).gen = 65535 then 1 else (s.ctx tag).gen + 1, parent := parent, depth := s.ctxDepth parent + 1, scope := sc
    owner := b, tenant := (s.recOf b).tenant, part := s.partOf b, state := .opened, exposed := false, held := [], settled := false
    isBlock := false, waitStores := 0, merging := false }
  others : ∀ k, k ≠ tag → t.ctx k = s.ctx k
  results :
    let ws := laneResults (lanes.map fun u => (u, w32 d (BitVec.ofNat 32 ((t.ctx tag).gen * 65536 + tag)) ++ match pd with
      | some k => [.pred k true]
      | none => []))
    t.inflight = if ws = [] then s.inflight else s.inflight.put s.nextId ⟨b, origin, ws, false, s.clk core, []⟩
  threads : ∀ u, t.thread u = if set ∧ u ∈ lanes then { s.thread u with ctx := tag, ctxGen := (t.ctx tag).gen } else s.thread u

/-- The byte that a context's cell holds as written, at a physical address. -/
def State.written (s : State) (tag pa : Nat) : Option Byte :=
  (s.cells.find (pa / 64 * 65536 + tag)).bind fun c =>
    if c.mask.getLsbD (pa % 64) then some (c.data.extractLsb' (8 * (pa % 64)) 8) else none

/-- A context's merges are made and it retires as settled (R210, R215): the bytes written in it are in its parent's view, its cells and
its L1 lines are gone, and a parent other than the base context takes its held work and its exposure. -/
structure State.Settles (s t : State) (tag : Nat) : Prop where
  rest : t = { s with mem := t.mem, cells := t.cells, ctxs := t.ctxs, l1 := t.l1, drain := t.drain }
  view : ∀ pa, t.viewByte (s.ctx tag).parent pa = (s.written tag pa).getD (s.viewByte (s.ctx tag).parent pa)
  cells : ∀ pline k, k < 65536 → k ≠ (s.ctx tag).parent →
    t.cells.find (pline * 65536 + k) = if k = tag then none else s.cells.find (pline * 65536 + k)
  ctx : t.ctx tag = { s.ctx tag with state := .retired, settled := true, held := [] }
  parent : (s.ctx tag).parent ≠ 0 → t.ctx (s.ctx tag).parent = { s.ctx (s.ctx tag).parent with
    held := (s.ctx (s.ctx tag).parent).held ++ (s.ctx tag).held
    exposed := (s.ctx (s.ctx tag).parent).exposed || (s.ctx tag).exposed }
  others : ∀ k, k ≠ tag → k ≠ (s.ctx tag).parent → t.ctx k = s.ctx k
  lines : ∀ l ∈ t.l1, l ∈ s.l1 ∧ l.tag ≠ tag

/-- A settling context merges the cell of one of its lines: the bytes written there are in its parent's view, and the cell is gone. -/
structure State.Merges (s t : State) (tag pline : Nat) : Prop where
  cell : (s.cells.find (pline * 65536 + tag)).isSome
  rest : t = { s with mem := t.mem, cells := t.cells, ctxs := t.ctxs, l1 := t.l1, drain := t.drain }
  view : ∀ pa, t.viewByte (s.ctx tag).parent pa =
    if pa / 64 = pline then (s.written tag pa).getD (s.viewByte (s.ctx tag).parent pa) else s.viewByte (s.ctx tag).parent pa
  cells : ∀ x k, k < 65536 → k ≠ (s.ctx tag).parent →
    t.cells.find (x * 65536 + k) = if k = tag ∧ x = pline then none else s.cells.find (x * 65536 + k)
  ctx : t.ctx tag = { s.ctx tag with merging := true }
  others : ∀ k, k ≠ tag → t.ctx k = s.ctx k
  lines : ∀ l ∈ t.l1, l ∈ s.l1

/-- Nothing that the merges of a settling context wait for is left (R215, R237). -/
structure State.SettleReleased (s : State) (tag : Nat) : Prop where
  stores : s.storesBefore (s.ctx tag).owner (s.ctx tag).waitStores = true
  drained : (s.ctx tag).scope = .sys → s.drain.findD (s.ctx tag).tenant 0 = 0
  engines : ∀ p ∈ s.engines, ∀ c ∈ p.2, c.ctx = tag → c.heldDm1 = true ∨ c.ended ≠ none
  accesses : s.ctxQuiet tag = true
  alone : ∀ p ∈ s.ctxs, p.1 ≠ tag → p.2.parent = tag → p.2.state = .retired

/-- A settling context whose merges are still to be made, or go on (R215), and that has no held work that the base context would have to
take first. -/
structure State.CanSettle (s : State) (tag : Nat) : Prop where
  state : (s.ctx tag).state = .settling
  still : (s.ctx tag).settled = false
  released : (s.ctx tag).merging = true ∨ s.SettleReleased tag
  held : (s.ctx tag).parent = 0 → (s.ctx tag).held = []
  sorted : FMap.sorted s.cells = true
  range : tag < 65536 ∧ (s.ctx tag).parent < 65536 ∧ tag ∉ s.chainOf (s.ctx tag).parent ∧ ∀ k ∈ s.chainOf (s.ctx tag).parent, k < 65536

/-! ## Numbers -/

/-- The exact value of a finite number. -/
def FVal.rat : FVal → ℚ
  | .fin neg m e => (if neg then -1 else 1) * m * (2 : ℚ) ^ e
  | _ => 0

/-- The value is a number, and no infinity. -/
def FVal.isFin : FVal → Bool
  | .fin _ _ _ => true
  | _ => false

/-- Twice the power of two at which a format's numbers end, and its smallest normal number. -/
def Fmt.top (f : Fmt) : ℚ := (2 : ℚ) ^ (f.bias + 1)
def Fmt.least (f : Fmt) : ℚ := (2 : ℚ) ^ f.emin

/-- The greatest of the finite numbers of a format that are at most y, or minus infinity if there is none. -/
def Fmt.Down (f : Fmt) (y : ℚ) (v : FVal) : Prop :=
  (v.isFin = true ∧ v.rat ≤ y ∧ ∀ z, z < 2 ^ f.width → (f.unpack z).isFin = true → (f.unpack z).rat ≤ y → (f.unpack z).rat ≤ v.rat) ∨
    (v = .inf true ∧ ∀ z, z < 2 ^ f.width → (f.unpack z).isFin = true → y < (f.unpack z).rat)

/-- The least of the finite numbers of a format that are at least y, or infinity if there is none. -/
def Fmt.Up (f : Fmt) (y : ℚ) (v : FVal) : Prop :=
  (v.isFin = true ∧ y ≤ v.rat ∧ ∀ z, z < 2 ^ f.width → (f.unpack z).isFin = true → y ≤ (f.unpack z).rat → v.rat ≤ (f.unpack z).rat) ∨
    (v = .inf false ∧ ∀ z, z < 2 ^ f.width → (f.unpack z).isFin = true → (f.unpack z).rat < y)

/-- The finite number of a format that is nearest to y, with an even pattern where two are; an infinity from half an ulp above the
greatest on. -/
def Fmt.Nearest (f : Fmt) (y : ℚ) (x : Nat) : Prop :=
  if f.top * (1 - (1 / 2) ^ (f.fb + 2)) ≤ |y| then f.unpack x = .inf (decide (y < 0))
  else (f.unpack x).isFin = true ∧ ∀ z, z < 2 ^ f.width → (f.unpack z).isFin = true →
    |(f.unpack x).rat - y| ≤ |(f.unpack z).rat - y| ∧
      (|(f.unpack x).rat - y| = |(f.unpack z).rat - y| → (f.unpack z).rat = (f.unpack x).rat ∨ x % 2 = 0)

/-- A pattern is the nonzero number y rounded once in a mode, as IEEE 754 has it (R157). -/
def Fmt.Rounded (f : Fmt) (r : Rnd) (y : ℚ) (x : Nat) : Prop :=
  x < 2 ^ f.width ∧ bitOf x (f.eb + f.fb) = decide (y < 0) ∧
  match r with
  | .rn => f.Nearest y x
  | .rd => f.Down y (f.unpack x)
  | .ru => f.Up y (f.unpack x)
  | .rz => if 0 ≤ y then f.Down y (f.unpack x) else f.Up y (f.unpack x)

/-- A mode rounds a number away from zero. -/
def Rnd.away (r : Rnd) (y : ℚ) : Bool :=
  match r with
  | .rd => decide (y < 0)
  | .ru => decide (0 < y)
  | _ => false

/-- The conditions that a rounding meets (Table 7-3): overflow when the result, rounded without a bound on the exponent, exceeds the
greatest number; underflow when that lies below the least normal number and the result is inexact. -/
def Fmt.roundCond (f : Fmt) (r : Rnd) (y : ℚ) (x : Nat) : FCond :=
  let nx : Bool := !(f.unpack x).isFin || decide ((f.unpack x).rat ≠ y)
  let big : Bool :=
    if r = .rn then decide (f.top * (1 - (1 / 2) ^ (f.fb + 2)) ≤ |y|)
    else if Rnd.away r y then decide (f.top * (1 - (1 / 2) ^ (f.fb + 1)) < |y|) else decide (f.top ≤ |y|)
  let tiny : Bool :=
    if r = .rn then decide (|y| < f.least * (1 - (1 / 2) ^ (f.fb + 2)))
    else if Rnd.away r y then decide (|y| ≤ f.least * (1 - (1 / 2) ^ (f.fb + 1))) else decide (|y| < f.least)
  { of := big, uf := tiny && nx, nx := nx }

/-- A floating-point source: an immediate is the integer, as a binary32 number (R163). -/
def LV.fsrc (v : LV) : Src → Word
  | .reg r => v.r32 r
  | .imm c => BitVec.ofNat 32 (fp32.roundZ .rn (decide ((BitVec.ofNat 18 c.val).toInt < 0)) (BitVec.ofNat 18 c.val).toInt.natAbs 0).bits

/-- A form of class 1 with its latency (Table 7-6), and with what an active lane writes and which conditions it meets. -/
abbrev FloatForm := Instr × Nat × (LV → List LaneWrite × FCond)

/-- The forms of class 1 of fixed latency (R165 to R169, R171 to R174). V(x, k) is element k of x in the format. -/
def floatForms (h : Hdr) (fmt : FFmt) (rnd : Rnd) (cmp : FCmp) (op : PComb) (p : PSrc) (pd : Fin 8) (dst src : CvtType) (n : Fin 8)
    (cb : Fin 240) (d a b c : Reg) (x : Src) : List FloatForm :=
  let f := FFmt.elem fmt
  let V (y : Word) (k : Nat) : FVal := f.unpack (FFmt.elemBits fmt y k)
  let F (y : Word) : FVal := fp32.unpack y.toNat
  let put (r : Word × FCond) : List LaneWrite × FCond := (w32 d r.1, r.2)
  let one (r : FRes) : List LaneWrite × FCond := (w32 d (BitVec.ofNat 32 r.bits), r.cond)
  let book (v : LV) : List Word := (List.range 8).map fun k => v.rv (cb.val + k)
  let scale (v : LV) : Option Nat := if c = .zero then none else some ((v.r32 c).toNat % 256)
  [ (.fadd h fmt rnd d a x, 6, fun v => put (FFmt.each fmt fun k => f.sum rnd [V (v.r32 a) k, V (v.fsrc x) k] false)),
    (.fsub h fmt rnd d a x, 6, fun v => put (FFmt.each fmt fun k => f.sum rnd [V (v.r32 a) k, (V (v.fsrc x) k).neg] false)),
    (.fmul h fmt rnd d a x, 6, fun v => put (FFmt.each fmt fun k =>
      f.sum rnd [((V (v.r32 a) k).mul (V (v.fsrc x) k)).1] ((V (v.r32 a) k).mul (V (v.fsrc x) k)).2)),
    (.ffma h fmt rnd d a b c, 6, fun v => put (FFmt.each fmt fun k =>
      f.sum rnd [((V (v.r32 a) k).mul (V (v.r32 b) k)).1, V (v.r32 c) k] ((V (v.r32 a) k).mul (V (v.r32 b) k)).2)),
    (.fmin h fmt d a x, 6, fun v => put (FFmt.each fmt fun k =>
      f.minMax false (FFmt.elemBits fmt (v.r32 a) k) (FFmt.elemBits fmt (v.fsrc x) k))),
    (.fmax h fmt d a x, 6, fun v => put (FFmt.each fmt fun k =>
      f.minMax true (FFmt.elemBits fmt (v.r32 a) k) (FFmt.elemBits fmt (v.fsrc x) k))),
    (.fmed3 h fmt d a b c, 6, fun v => put (FFmt.each fmt fun k =>
      f.med3 (FFmt.elemBits fmt (v.r32 a) k) (FFmt.elemBits fmt (v.r32 b) k) (FFmt.elemBits fmt (v.r32 c) k))),
    (.fsetp h cmp op p pd a x, 4, fun v =>
      ([.pred pd.val (combine op (FCmp.test cmp (F (v.r32 a)) (F (v.fsrc x))).1 (v.p p))],
        { inv := (FCmp.test cmp (F (v.r32 a)) (F (v.fsrc x))).2 })),
    (.fset h cmp fmt d a b, 6, fun v => put (FFmt.each fmt fun k =>
      ⟨if (FCmp.test cmp (V (v.r32 a) k) (V (v.r32 b) k)).1 then (if fmt = .h2 ∨ fmt = .bh2 then 0xFFFF else 0xFFFFFFFF) else 0,
        { inv := (FCmp.test cmp (V (v.r32 a) k) (V (v.r32 b) k)).2 }⟩)),
    (.fclass h fmt d a, 6, fun v => (w32 d (BitVec.ofNat 32 (2 ^ f.classBit (FFmt.elemBits fmt (v.r32 a) 0))), {})),
    (.fscale h rnd d a x, 6, fun v => one (fscaleOf rnd (v.r32 a).toNat (v.s32 x).toInt)),
    (.frnd h rnd d a, 6, fun v => one (frndOf rnd (v.r32 a).toNat)),
    (.fdot2 h fmt rnd d a b c, 6, fun v =>
      let p1 := (V (v.r32 a) 1).mul (V (v.r32 b) 1)
      let p0 := (V (v.r32 a) 0).mul (V (v.r32 b) 0)
      one (fp32.sum rnd [p1.1, p0.1, F (v.r32 c)] (p1.2 || p0.2))),
    (.cvt h dst src rnd d a, 6, fun v =>
      let y := if src = .s64 ∨ src = .z64 then (v.r64 a).toNat else (v.r32 a).toNat
      let z := cvtOf dst src rnd y
      (if dst = .s64 ∨ dst = .z64 then w64 d z.1 else w32 d (z.1.setWidth 32), z.2)),
    (.cvtpk h fmt rnd d a b, 6, fun v => put (FFmt.each fmt fun k => f.ofVal rnd (F (if k = 0 then v.r32 a else v.r32 b)))),
    (.cbenc h d a cb c, 6, fun v =>
      (w32 d (BitVec.ofNat 32 (cbencOf (v.r32 a).toNat (book v) (scale v)).1),
        { inv := (cbencOf (v.r32 a).toNat (book v) (scale v)).2 })),
    (.cbdec h n d a cb c, 6, fun v => one (cbdecOf ((v.r32 a).toNat / 16 ^ n.val % 16) (book v) (scale v))) ]

/-- The forms of class 1 whose results the scoreboard tracks (R170), with their latency unloaded (Table 2-4). -/
def specialForms (h : Hdr) (rnd : Rnd) (d a : Reg) : List FloatForm :=
  let put (r : FRes) : List LaneWrite × FCond := (w32 d (BitVec.ofNat 32 r.bits), r.cond)
  [ (.frcp h d a, 16, fun v => put (SFun.apply .rcp (v.r32 a))), (.frsq h d a, 16, fun v => put (SFun.apply .rsq (v.r32 a))),
    (.fexp2 h d a, 16, fun v => put (SFun.apply .exp2 (v.r32 a))), (.flog2 h d a, 16, fun v => put (SFun.apply .log2 (v.r32 a))),
    (.fsin h d a, 16, fun v => put (SFun.apply .sin (v.r32 a))), (.fcos h d a, 16, fun v => put (SFun.apply .cos (v.r32 a))),
    (.ftanh h d a, 16, fun v => put (SFun.apply .tanh (v.r32 a))),
    (.fsqrt h rnd d a, 16, fun v => put (fsqrtOf rnd (v.r32 a).toNat)) ]

/-- The causes of the conditions that a lane meets and that the trap mask of its block enables, in the order of Table 7-3 (R158). -/
def State.fpCauses (s : State) (u : Nat) (c : FCond) : List Nat :=
  ([(c.inv, 24), (c.dz, 25), (c.of, 26), (c.uf, 27), (c.nx, 28)].filter fun x =>
    x.1 && s.enabled (s.thread u).block (u / 1024) x.2).map Prod.snd

/-- The causes that the active lanes of a form of class 1 raise: the first of each lane. -/
def State.fpRaised (s : State) (G : Group) (F : FloatForm) : List LaneCause :=
  (s.actives G F.1).filterMap fun u => ((s.fpCauses u (F.2.2 (s.lane G F.1 u)).2).head?).map fun k => ⟨u, k, 0, 0⟩

end Machine
end Sys2Proof
end

