-- ==== Sys2Proof/Certificates/Slice0/Obligations.lean ====
section
/-!
DEFINITION. The statements for the provers: what the rules of spec/ say that words, events and steps do, stated of the model.
Words are stated in the notions of Safety.lean: `State.Issues` (nothing is in the word's way), `State.FixedWord` and
`State.TrackedWord` (its lanes' writes, the frame, and where its group goes).
-/

section
open Sys2Proof Sys2Proof.Machine

/-! ## Class 0 -/

/-- R144, Table 6-6: moves and 32-bit arithmetic, their latency (Table 6-5), and their frame. -/
def Obligations.IntegerArithmetic : Prop :=
  ∀ (s : State) (h : Hdr) (d a b c : Reg) (x : Src) (n : Fin 8) (imm : Fin 262144),
    s.FixedWord (.nop h) 4 (fun _ => []) ∧
    s.FixedWord (.mov h d x) 4 (fun v => w32 d (v.s32 x)) ∧
    s.FixedWord (.movhi h d a imm) 4 (fun v => w32 d ((BitVec.ofNat 32 imm.val <<< 14) ||| (v.r32 a &&& 0x3FFF#32))) ∧
    s.FixedWord (.iadd h d a x) 4 (fun v => w32 d (v.r32 a + v.s32 x)) ∧
    s.FixedWord (.isub h d a x) 4 (fun v => w32 d (v.r32 a - v.s32 x)) ∧
    s.FixedWord (.iadds h true d a x) 4 (fun v =>
      w32 d (BitVec.ofInt 32 (max (-(2 ^ 31)) (min (2 ^ 31 - 1) ((v.r32 a).toInt + (v.s32 x).toInt))))) ∧
    s.FixedWord (.iadds h false d a x) 4 (fun v =>
      w32 d (BitVec.ofNat 32 (min (2 ^ 32 - 1) ((v.r32 a).toNat + (v.s32 x).toNat)))) ∧
    s.FixedWord (.isubs h true d a x) 4 (fun v =>
      w32 d (BitVec.ofInt 32 (max (-(2 ^ 31)) (min (2 ^ 31 - 1) ((v.r32 a).toInt - (v.s32 x).toInt))))) ∧
    s.FixedWord (.isubs h false d a x) 4 (fun v => w32 d (BitVec.ofNat 32 ((v.r32 a).toNat - (v.s32 x).toNat))) ∧
    s.FixedWord (.imul h d a x) 6 (fun v => w32 d (v.r32 a * v.s32 x)) ∧
    s.FixedWord (.imulh h true d a x) 6 (fun v => w32 d (BitVec.ofInt 32 ((v.r32 a).toInt * (v.s32 x).toInt / 2 ^ 32))) ∧
    s.FixedWord (.imulh h false d a x) 6 (fun v => w32 d (BitVec.ofNat 32 ((v.r32 a).toNat * (v.s32 x).toNat / 2 ^ 32))) ∧
    s.FixedWord (.imad h d a b c) 6 (fun v => w32 d (v.r32 a * v.r32 b + v.r32 c)) ∧
    s.FixedWord (.lea h n d a x) 4 (fun v => w32 d (v.r32 a + v.s32 x * BitVec.ofNat 32 (2 ^ n.val))) ∧
    s.FixedWord (.imin h true d a x) 4 (fun v => w32 d (if (v.r32 a).toInt ≤ (v.s32 x).toInt then v.r32 a else v.s32 x)) ∧
    s.FixedWord (.imin h false d a x) 4 (fun v => w32 d (if (v.r32 a).toNat ≤ (v.s32 x).toNat then v.r32 a else v.s32 x)) ∧
    s.FixedWord (.imax h true d a x) 4 (fun v => w32 d (if (v.s32 x).toInt ≤ (v.r32 a).toInt then v.r32 a else v.s32 x)) ∧
    s.FixedWord (.imax h false d a x) 4 (fun v => w32 d (if (v.s32 x).toNat ≤ (v.r32 a).toNat then v.r32 a else v.s32 x)) ∧
    s.FixedWord (.iabs h d a) 4 (fun v => w32 d (if (v.r32 a).toInt < 0 then -(v.r32 a) else v.r32 a))

/-- R144, Table 6-6: the forms of 64-bit operands, and the wide multiply-add. -/
def Obligations.WideArithmetic : Prop :=
  ∀ (s : State) (h : Hdr) (d a b c : Reg) (x : Src) (n : Fin 8),
    s.FixedWord (.mov64 h d x) 4 (fun v => w64 d (v.s64 x)) ∧
    s.FixedWord (.iadd64 h d a x) 4 (fun v => w64 d (v.r64 a + v.s64 x)) ∧
    s.FixedWord (.isub64 h d a x) 4 (fun v => w64 d (v.r64 a - v.s64 x)) ∧
    s.FixedWord (.imul64 h d a x) 6 (fun v => w64 d (v.r64 a * v.s64 x)) ∧
    s.FixedWord (.imadw h true d a b c) 6 (fun v => w64 d ((v.r32 a).signExtend 64 * (v.r32 b).signExtend 64 + v.r64 c)) ∧
    s.FixedWord (.imadw h false d a b c) 6 (fun v => w64 d ((v.r32 a).setWidth 64 * (v.r32 b).setWidth 64 + v.r64 c)) ∧
    s.FixedWord (.lea64 h n true d a x) 4 (fun v => w64 d (v.r64 a + (v.s32 x).signExtend 64 * BitVec.ofNat 64 (2 ^ n.val))) ∧
    s.FixedWord (.lea64 h n false d a x) 4 (fun v => w64 d (v.r64 a + (v.s32 x).setWidth 64 * BitVec.ofNat 64 (2 ^ n.val)))

/-- R144, Table 6-6: bitwise words, shifts and rotates. -/
def Obligations.LogicAndShifts : Prop :=
  ∀ (s : State) (h : Hdr) (d a b c : Reg) (x : Src) (f1 f0 : Fin 16),
    s.FixedWord (.iand h d a x) 4 (fun v => w32 d (v.r32 a &&& v.s32 x)) ∧
    s.FixedWord (.ior h d a x) 4 (fun v => w32 d (v.r32 a ||| v.s32 x)) ∧
    s.FixedWord (.ixor h d a x) 4 (fun v => w32 d (v.r32 a ^^^ v.s32 x)) ∧
    (∃ f : Word → Word → Word → Word,
      (∀ p q r k, k < 32 → (f p q r).getLsbD k =
        (if r.getLsbD k then f1.val else f0.val).testBit (2 * (p.getLsbD k).toNat + (q.getLsbD k).toNat)) ∧
      s.FixedWord (.bmux h f1 f0 d a b c) 4 (fun v => w32 d (f (v.r32 a) (v.r32 b) (v.r32 c)))) ∧
    s.FixedWord (.shl h d a x) 4 (fun v => w32 d (if 32 ≤ (v.s32 x).toNat then 0 else v.r32 a <<< (v.s32 x).toNat)) ∧
    s.FixedWord (.shr h false d a x) 4 (fun v => w32 d (if 32 ≤ (v.s32 x).toNat then 0 else v.r32 a >>> (v.s32 x).toNat)) ∧
    s.FixedWord (.shr h true d a x) 4 (fun v => w32 d ((v.r32 a).sshiftRight (min (v.s32 x).toNat 31))) ∧
    s.FixedWord (.shf h false d a b c) 4 (fun v => w32 d (((v.r32 b ++ v.r32 a) >>> ((v.r32 c).toNat % 32)).extractLsb' 0 32)) ∧
    s.FixedWord (.shf h true d a b c) 4 (fun v => w32 d (((v.r32 b ++ v.r32 a) <<< ((v.r32 c).toNat % 32)).extractLsb' 32 32)) ∧
    s.FixedWord (.rot h d a x) 4 (fun v =>
      w32 d ((v.r32 a <<< ((v.s32 x).toNat % 32)) ||| (v.r32 a >>> (32 - (v.s32 x).toNat % 32))))

/-- R144, Table 6-6: counts, reversals, fields and byte permutation; R147: HASH32. -/
def Obligations.BitFields : Prop :=
  ∀ (s : State) (h : Hdr) (d a b c : Reg) (x : Src),
    s.FixedWord (.popc h d a) 4 (fun v => w32 d (BitVec.ofNat 32 ((List.range 32).countP fun k => (v.r32 a).getLsbD k))) ∧
    s.FixedWord (.clz h d a) 4 (fun v => w32 d (if v.r32 a = 0 then 32 else BitVec.ofNat 32 (31 - Nat.log2 (v.r32 a).toNat))) ∧
    (∃ f : Word → Word, (∀ p k, k < 32 → (f p).getLsbD k = p.getLsbD (31 - k)) ∧
      s.FixedWord (.brev h d a) 4 (fun v => w32 d (f (v.r32 a)))) ∧
    (∀ sg, s.FixedWord (.bfe h sg d a x) 4 (fun v =>
      let p := (v.s32 x).toNat % 256
      let len := (v.s32 x).toNat / 256 % 256
      let n := min len (32 - p)
      w32 d (if len = 0 ∨ 32 ≤ p then 0
        else if sg then ((v.r32 a).extractLsb' p n).signExtend 32 else ((v.r32 a).extractLsb' p n).setWidth 32))) ∧
    (∃ f : Word → Word → Word → Word,
      (∀ p q r, q.toNat / 256 % 256 = 0 ∨ 32 ≤ q.toNat % 256 → f p q r = r) ∧
      (∀ p q r k, q.toNat / 256 % 256 ≠ 0 → q.toNat % 256 < 32 → k < 32 → (f p q r).getLsbD k =
        if q.toNat % 256 ≤ k ∧ k < q.toNat % 256 + min (q.toNat / 256 % 256) (32 - q.toNat % 256)
        then p.getLsbD (k - q.toNat % 256) else r.getLsbD k) ∧
      s.FixedWord (.bfi h d a b c) 4 (fun v => w32 d (f (v.r32 a) (v.r32 b) (v.r32 c)))) ∧
    (∃ f : Word → Word → Word → Word,
      (∀ p q r k, k < 4 →
        let e := (q ++ p).extractLsb' (8 * (r.toNat / 16 ^ k % 8)) 8
        (f p q r).extractLsb' (8 * k) 8 =
          if r.getLsbD (4 * k + 3) then (if e.getLsbD 7 then 0xFF else 0x00) else e) ∧
      s.FixedWord (.prmt h d a b c) 4 (fun v => w32 d (f (v.r32 a) (v.r32 b) (v.r32 c)))) ∧
    s.FixedWord (.hash32 h d a x) 6 (fun v =>
      let h0 := v.r32 a ^^^ (v.s32 x * 0x9E3779B9#32)
      let h1 := (h0 ^^^ (h0 >>> 16)) * 0x7FEB352D#32
      let h2 := (h1 ^^^ (h1 >>> 15)) * 0x846CA68B#32
      w32 d (h2 ^^^ (h2 >>> 16)))

/-- R142, R143, R144, Table 6-3: comparisons of integers under each code, combined into predicates or written as masks, and the words that
select, combine and move predicates. -/
def Obligations.PredicateWords : Prop :=
  ∀ (s : State) (h : Hdr) (d a b : Reg) (x : Src) (p p' : PSrc) (pd : Fin 8) (sg : Bool) (mask : Fin 128),
    let cmps : List (Cmp × (Int → Int → Bool)) := [(.eq, fun m n => decide (m = n)), (.ne, fun m n => decide (m ≠ n)),
      (.lt, fun m n => decide (m < n)), (.le, fun m n => decide (m ≤ n)), (.gt, fun m n => decide (m > n)),
      (.ge, fun m n => decide (m ≥ n))]
    let combs : List (PComb × (Bool → Bool → Bool)) := [(.none, fun t _ => t), (.and, and), (.or, or), (.xor, xor)]
    let psets : List (PsetOp × (Bool → Bool → Bool)) := [(.and, and), (.or, or), (.xor, xor)]
    let e32 (y : Word) : Int := if sg then y.toInt else y.toNat
    let e64 (y : DWord) : Int := if sg then y.toInt else y.toNat
    (∀ C ∈ cmps,
      (∀ O ∈ combs,
        s.FixedWord (.isetp h C.1 sg O.1 p pd a x) 4 (fun v =>
          [.pred pd.val (O.2 (C.2 (e32 (v.r32 a)) (e32 (v.s32 x))) (v.pv p.k.val != p.neg))]) ∧
        s.FixedWord (.isetp64 h C.1 sg O.1 p pd a x) 4 (fun v =>
          [.pred pd.val (O.2 (C.2 (e64 (v.r64 a)) (e64 (v.s64 x))) (v.pv p.k.val != p.neg))])) ∧
      s.FixedWord (.iset h C.1 sg d a b) 4 (fun v =>
        w32 d (if C.2 (e32 (v.r32 a)) (e32 (v.r32 b)) then 0xFFFFFFFF else 0))) ∧
    s.FixedWord (.sel h p d a b) 4 (fun v => w32 d (if (v.pv p.k.val != p.neg) then v.r32 a else v.r32 b)) ∧
    (∀ O ∈ psets, s.FixedWord (.pset h O.1 pd p p') 4 (fun v =>
      [.pred pd.val (O.2 (v.pv p.k.val != p.neg) (v.pv p'.k.val != p'.neg))])) ∧
    (∃ f : (Nat → Bool) → Word, (∀ r k, (f r).getLsbD k = (decide (k < 8) && r k)) ∧
      s.FixedWord (.p2v h d) 4 (fun v => w32 d (f v.pv))) ∧
    s.FixedWord (.v2p h mask a) 4 (fun v =>
      ((List.range 7).filter fun k => mask.val.testBit k).map fun k => .pred k ((v.r32 a).getLsbD k))

/-- R145 and R146: SHFL and VOTE take values across the lanes of a group whose threads have different home lanes (R13). -/
def Obligations.LaneExchange : Prop :=
  ∀ (s : State) (h : Hdr) (d a : Reg) (x : Src) (p : PSrc) (g : Nat) (G : Group), (G.lanes.map laneOf).Nodup →
    (∀ mode, s.Issues g G (.shfl h mode d a x) →
      let i := Instr.shfl h mode d a x
      let src (u : Nat) : Int :=
        let v : Int := ((s.lane G i u).s32 x).toNat % 32
        match mode with
        | .idx => v
        | .up => laneOf u - v
        | .down => laneOf u + v
        | .bfly => (laneOf u ^^^ v.toNat : Nat)
      ∃ f r t, exec i s = .next t ∧ s.Wrote r G i 8 f ∧ r.Went t g G h (s.issueClk G i) (G.pc + 8) ∧
        ∀ u ∈ s.actives G i,
          (∀ w ∈ s.actives G i, (laneOf w : Int) = src u → f (s.lane G i u) = w32 d ((s.lane G i w).r32 a)) ∧
          ((∀ w ∈ s.actives G i, (laneOf w : Int) ≠ src u) → f (s.lane G i u) = w32 d ((s.lane G i u).r32 a))) ∧
    (∀ mode, s.Issues g G (.vote h mode p d) →
      let i := Instr.vote h mode p d
      let yes (u : Nat) : Bool := (s.lane G i u).pv p.k.val != p.neg
      let ones (b : Bool) : Word := if b then 0xFFFFFFFF else 0
      ∃ x r t, exec i s = .next t ∧ s.Wrote r G i 8 (fun _ => w32 d x) ∧ r.Went t g G h (s.issueClk G i) (G.pc + 8) ∧
        match mode with
        | .ballot => ∀ k, k < 32 → x.getLsbD k = (s.actives G i).any fun u => laneOf u == k && yes u
        | .all => x = ones ((s.actives G i).all yes)
        | .any => x = ones ((s.actives G i).any yes)
        | .eq => x = ones ((s.actives G i).all fun u => (s.actives G i).all fun w => yes u == yes w))

/-- R148, R328, Table 6-7: S2V of each special register, and V2S of %rcnt. In a checked pair the follower's S2V of %core or %slice takes
what its leader read, and waits until the leader has read it; the leader keeps its value for that. -/
def Obligations.SpecialRegisters : Prop :=
  (∀ (s : State) (h : Hdr) (d a : Reg) (sr : Fin 21) (g : Nat) (G : Group),
      (s.Issues g G (.s2v h sr d) → (sr.val = 13 ∨ sr.val = 14 → s.paired G.block = false) →
        let i := Instr.s2v h sr d
        let rec_ (v : LV) := s.recOf v.T.block
        let value (v : LV) : Nat :=
          match sr.val with
          | 0 => v.T.tid
          | 9 => v.T.role
          | 10 => v.T.ctx
          | 11 => (rec_ v).tenant
          | 12 => (rec_ v).world
          | 13 => v.t / 1024
          | 14 => v.t / 4096
          | 15 => v.t % 32
          | 16 => v.T.grp
          | 17 => if (rec_ v).dm = 2 then (s.bside v.T.block (v.t / 1024)).retired
              else if s.paired v.T.block then v.T.rcnt.toNat else s.issueClk G i
          | 18 => v.T.rcnt.toNat
          | 19 => (rec_ v).il
          | 20 => (rec_ v).dm
          | k => v.T.ix.getD (k - 1) 0
        ∃ r t, exec i s = .next t ∧
          s.Wrote r G i 4 (fun v => if sr.val = 17 ∨ sr.val = 18 then w64 d (BitVec.ofNat 64 (value v))
            else w32 d (BitVec.ofNat 32 (value v))) ∧
          r.Went t g G h (s.issueClk G i) (G.pc + 8)) ∧
      (s.Issues g G (.v2s h a) →
        let i := Instr.v2s h a
        ∃ r t, exec i s = .next t ∧ r.Went t g G h (s.issueClk G i) (G.pc + 8) ∧
          r = { s with threads := r.threads, blocks := r.blocks } ∧
          State.OnlySides G.block s { r with threads := s.threads } ∧ s.Queued r G i [] ∧
          (∀ u ∉ s.actives G i, r.thread u = s.thread u) ∧
          ∀ u ∈ s.actives G i, r.thread u = { s.thread u with rcnt := (r.thread u).rcnt } ∧
            (t.thread u).rcnt = (s.lane G i u).r64 a)) ∧
  (∀ (s : State) (h : Hdr) (d : Reg) (sr : Fin 21) (g : Nat) (G : Group), s.Issues g G (.s2v h sr d) → sr.val = 13 ∨ sr.val = 14 →
      s.paired G.block = true → (∀ u ∈ G.lanes, u / 1024 = G.core) → (G.lanes.map slotOf).Nodup →
      let i := Instr.s2v h sr d
      let own : Nat := if sr.val = 13 then G.core else G.core / 4
      let went (t : State) (x : Nat → Nat) : Prop :=
        ∃ r r', s.Wrote r G i 4 (fun v => w32 d (BitVec.ofNat 32 (x v.t))) ∧ r.Went r' g G h (s.issueClk G i) (G.pc + 8) ∧
          t = { r' with blocks := t.blocks } ∧ ∀ b, t.block b = { r'.block b with items := (t.block b).items }
      (s.isFollower G.block G.core = false → (s.blocks.find G.block).isSome →
        ∃ t, exec i s = .next t ∧ went t (fun _ => own) ∧ ∀ u ∈ s.actives G i, ∃ x : Nat,
          (⟨0, slotOf u, 0, 9, G.pc, 0, x, 0, 8, 0, [], s.now⟩ : Item) ∈ (t.block G.block).items ∧
            BitVec.ofNat 32 x = BitVec.ofNat 32 own) ∧
      (s.isFollower G.block G.core = true →
        (∀ x : Nat → Nat, (∀ u ∈ s.actives G i, s.leaderValue G.block (slotOf u) = some (x u)) →
          ∃ t, exec i s = .next t ∧ went t x) ∧
        ((∃ u ∈ s.actives G i, s.leaderValue G.block (slotOf u) = none) → exec i s = .next s)))

/-! ## Class 1 -/

/-- R157, Tables 7-2 and 7-3: a nonzero exact number is rounded once as IEEE 754 has it, and meets the conditions of that rounding. -/
def Obligations.Rounding : Prop :=
  ∀ f ∈ [fp32, fp16, bf16], ∀ (r : Rnd) (neg : Bool) (m : Nat) (e : Int), m ≠ 0 →
    f.Rounded r (FVal.fin neg m e).rat (f.round r neg m e).bits ∧
    (f.round r neg m e).cond = f.roundCond r (FVal.fin neg m e).rat (f.round r neg m e).bits

/-- R156, R157 and R158: products and sums of values: NaNs, infinities, invalid operations, exact values, and the sign of a zero sum. -/
def Obligations.ExactSums : Prop :=
  (∀ x y : FVal, x.isFin = true → y.isFin = true → (x.mul y).2 = false ∧ (x.mul y).1.isFin = true ∧
    (x.mul y).1.rat = x.rat * y.rat ∧ (x.mul y).1.isNeg = (x.isNeg != y.isNeg)) ∧
  (∀ (x : FVal) (n : Bool), x.isNaN = false →
    let P := x.mul (.inf n)
    let Q := (FVal.inf n).mul x
    (x.isFin = true → x.rat = 0 → P.2 = true ∧ Q.2 = true) ∧
    (¬ (x.isFin = true ∧ x.rat = 0) → P = (.inf (x.isNeg != n), false) ∧ Q = (.inf (n != x.isNeg), false))) ∧
  ∀ f ∈ [fp32, fp16, bf16], ∀ (r : Rnd) (ts : List FVal) (inv : Bool), ts ≠ [] →
    let R := f.sum r ts inv
    let bad : Bool := inv || ts.any FVal.isSig || (ts.contains (.inf false) && ts.contains (.inf true))
    let y := (ts.map FVal.rat).sum
    (bad = true → R = ⟨f.canon, { inv := true }⟩) ∧
    (bad = false → ts.any FVal.isNaN = true → R = ⟨f.canon, {}⟩) ∧
    (bad = false → ts.any FVal.isNaN = false → ∀ n, FVal.inf n ∈ ts → f.unpack R.bits = .inf n ∧ R.cond = {}) ∧
    (inv = false → (∀ t ∈ ts, t.isFin = true) →
      (y ≠ 0 → f.Rounded r y R.bits ∧ R.cond = f.roundCond r y R.bits) ∧
      (y = 0 → R.cond = {} ∧ f.unpack R.bits = .fin
        (if ∀ t ∈ ts, t.rat = 0 ∧ t.isNeg = true then true else if ∀ t ∈ ts, t.rat = 0 ∧ t.isNeg = false then false
          else decide (r = .rd)) 0 (f.emin - f.fb)))

/-- R164, R166, R168, Tables 7-7 and 7-9: comparisons, the lesser and the greater, the median, and the class of a number. -/
def Obligations.FloatOrder : Prop :=
  (∀ (c : FCmp) (x y : FVal),
    let un : Bool := x.isNaN || y.isNaN
    let lt : Bool := !un && x.less y
    let eq : Bool := !un && !x.less y && !y.less x
    let gt : Bool := !un && y.less x
    let R := FCmp.test c x y
    (R.2 = (x.isSig || y.isSig || (un && (c == .lt || c == .le || c == .gt || c == .ge)))) ∧
    R.1 = match c with
      | .eq => eq
      | .ne => lt || gt
      | .lt => lt
      | .le => lt || eq
      | .gt => gt
      | .ge => gt || eq
      | .num => !un
      | .nan => un
      | .equ => eq || un
      | .neu => lt || gt || un
      | .ltu => lt || un
      | .leu => lt || eq || un
      | .gtu => gt || un
      | .geu => gt || eq || un) ∧
  (∀ x y : FVal, x.isFin = true → y.isFin = true → (x.less y = true ↔ x.rat < y.rat)) ∧
  (∀ (x : FVal) (n : Bool), x.isFin = true → (FVal.inf n).less x = n ∧ x.less (.inf n) = !n) ∧
  (∀ f ∈ [fp32, fp16, bf16], ∀ (mx : Bool) (a b : Nat),
    let x := f.unpack a
    let y := f.unpack b
    let R := f.minMax mx a b
    R.cond = { inv := x.isSig || y.isSig } ∧
    (x.isNaN = true → y.isNaN = true → R.bits = f.canon) ∧ (x.isNaN = true → y.isNaN = false → R.bits = b) ∧
    (x.isNaN = false → y.isNaN = true → R.bits = a) ∧
    (x.isNaN = false → y.isNaN = false → (R.bits = a ∨ R.bits = b) ∧
      (x.less y = true → R.bits = if mx then b else a) ∧ (y.less x = true → R.bits = if mx then a else b) ∧
      (x.less y = false → y.less x = false → x.isNeg = true → y.isNeg = false → R.bits = if mx then b else a) ∧
      (x.less y = false → y.less x = false → x.isNeg = false → y.isNeg = true → R.bits = if mx then a else b))) ∧
  (∀ f ∈ [fp32, fp16, bf16], ∀ a b c : Nat,
    (f.med3 a b c).bits = (f.minMax true (f.minMax false a b).bits (f.minMax false (f.minMax true a b).bits c).bits).bits ∧
    (f.med3 a b c).cond = { inv := (f.unpack a).isSig || (f.unpack b).isSig || (f.unpack c).isSig }) ∧
  ∀ f ∈ [fp32, fp16, bf16], ∀ x : Nat,
    f.classBit x = match f.unpack x with
      | .nan true => 8
      | .nan false => 9
      | .inf true => 0
      | .inf false => 7
      | .fin neg m e => if m = 0 then (if neg then 3 else 4)
        else if |(FVal.fin neg m e).rat| < f.least then (if neg then 2 else 5) else (if neg then 1 else 6)

/-- R165, R169 and R171: FSCALE, FRND and CVT of finite numbers, of infinities and of NaNs. -/
def Obligations.Conversions : Prop :=
  let integral (r : Rnd) (y : ℚ) (n : Int) : Prop :=
    match r with
    | .rn => |(n : ℚ) - y| ≤ 1 / 2 ∧ (|(n : ℚ) - y| = 1 / 2 → n % 2 = 0)
    | .rz => n = if 0 ≤ y then ⌊y⌋ else ⌈y⌉
    | .rd => n = ⌊y⌋
    | .ru => n = ⌈y⌉
  (∀ (r : Rnd) (x : Nat) (b : Int), match fp32.unpack x with
    | .nan sig => fscaleOf r x b = ⟨fp32.canon, { inv := sig }⟩ ∧ frndOf r x = ⟨fp32.canon, { inv := sig }⟩
    | .inf n => (fp32.unpack (fscaleOf r x b).bits = .inf n ∧ (fscaleOf r x b).cond = {}) ∧
        fp32.unpack (frndOf r x).bits = .inf n ∧ (frndOf r x).cond = {}
    | .fin neg m e =>
        let y := (FVal.fin neg m e).rat
        (m = 0 → fscaleOf r x b = ⟨if neg then 2 ^ 31 else 0, {}⟩) ∧
        (m ≠ 0 → fp32.Rounded r (y * 2 ^ b) (fscaleOf r x b).bits ∧
          (fscaleOf r x b).cond = fp32.roundCond r (y * 2 ^ b) (fscaleOf r x b).bits) ∧
        (frndOf r x).cond = {} ∧ bitOf (frndOf r x).bits 31 = neg ∧
        ∃ n : Int, integral r y n ∧ (fp32.unpack (frndOf r x).bits).rat = n) ∧
  (∀ (dst src : CvtType) (r : Rnd) (x : Nat),
    let v := cvtSource src x
    let R := cvtOf dst src r x
    (match src with
      | .f32 => v = fp32.unpack (x % 2 ^ 32)
      | .f16 => v = fp16.unpack (x % 2 ^ 16)
      | .bf16 => v = bf16.unpack (x % 2 ^ 16)
      | .s8 => v.isFin = true ∧ v.rat = (BitVec.ofNat 8 x).toInt
      | .z8 => v.isFin = true ∧ v.rat = (BitVec.ofNat 8 x).toNat
      | .s16 => v.isFin = true ∧ v.rat = (BitVec.ofNat 16 x).toInt
      | .z16 => v.isFin = true ∧ v.rat = (BitVec.ofNat 16 x).toNat
      | .s32 => v.isFin = true ∧ v.rat = (BitVec.ofNat 32 x).toInt
      | .z32 => v.isFin = true ∧ v.rat = (BitVec.ofNat 32 x).toNat
      | .s64 => v.isFin = true ∧ v.rat = (BitVec.ofNat 64 x).toInt
      | .z64 => v.isFin = true ∧ v.rat = (BitVec.ofNat 64 x).toNat) ∧
    let toFloat (f : Fmt) : Prop :=
      (∀ sig, v = .nan sig → R = (BitVec.ofNat 64 f.canon, { inv := sig })) ∧
      (∀ n, v = .inf n → f.unpack R.1.toNat = .inf n ∧ R.2 = {}) ∧
      (v.isFin = true → v.rat = 0 → f.unpack R.1.toNat = .fin v.isNeg 0 (f.emin - f.fb) ∧ R.2 = {}) ∧
      (v.isFin = true → v.rat ≠ 0 → f.Rounded r v.rat R.1.toNat ∧ R.2 = f.roundCond r v.rat R.1.toNat)
    let toInt (lo hi : Int) : Prop :=
      (v.isNaN = true → R = (0, { inv := true })) ∧
      (∀ n, v = .inf n → R = (BitVec.ofInt 64 (if n then lo else hi), { inv := true })) ∧
      (v.isFin = true → ∃ n : Int, integral r v.rat n ∧
        R = if n < lo then (BitVec.ofInt 64 lo, { inv := true }) else if hi < n then (BitVec.ofInt 64 hi, { inv := true })
          else (BitVec.ofInt 64 n, { nx := decide ((n : ℚ) ≠ v.rat) }))
    match dst with
      | .f32 => toFloat fp32
      | .f16 => toFloat fp16
      | .bf16 => toFloat bf16
      | .s8 => toInt (-(2 ^ 7)) (2 ^ 7 - 1)
      | .z8 => toInt 0 (2 ^ 8 - 1)
      | .s16 => toInt (-(2 ^ 15)) (2 ^ 15 - 1)
      | .z16 => toInt 0 (2 ^ 16 - 1)
      | .s32 => toInt (-(2 ^ 31)) (2 ^ 31 - 1)
      | .z32 => toInt 0 (2 ^ 32 - 1)
      | .s64 => toInt (-(2 ^ 63)) (2 ^ 63 - 1)
      | .z64 => toInt 0 (2 ^ 64 - 1))

/-- R159, R173 and R174: the codebook entry that is nearest to a scaled value, and the value of a code. -/
def Obligations.Codebooks : Prop :=
  ∀ (a : Nat) (cb : List Word) (e8 : Option Nat),
    let entry (k : Nat) : FVal := bf16.unpack ((cb.getD (k / 2) 0).toNat / 2 ^ (16 * (k % 2)) % 2 ^ 16)
    let s : Int := match e8 with
      | none => 0
      | some e => (e : Int) - 127
    let R := cbencOf a cb e8
    (e8 = some 255 → R = (0, true) ∧ ∀ k, cbdecOf k cb e8 = ⟨0x7FC00000, {}⟩) ∧
    (e8 ≠ some 255 →
      ((fp32.unpack a).isNaN = true → R = (0, true)) ∧
      ((fp32.unpack a).isNaN = false → R.2 = false ∧
        ((∀ k, k < 16 → (entry k).isNaN = true) → R.1 = 0) ∧
        ((∃ k, k < 16 ∧ (entry k).isNaN = false) → R.1 < 16 ∧ (entry R.1).isNaN = false)) ∧
      (∀ n, fp32.unpack a = .inf n → ∀ k, k < 16 → (entry k).isNaN = false →
        let less (i j : Nat) : Bool := if n then (entry i).less (entry j) else (entry j).less (entry i)
        less k R.1 = false ∧ (k < R.1 → less R.1 k = true)) ∧
      (∀ neg m e, fp32.unpack a = .fin neg m e →
        let x := (FVal.fin neg m e).rat * 2 ^ (-s)
        ∀ k, k < 16 → (entry k).isFin = true → (entry R.1).isFin = true ∧
          |x - (entry R.1).rat| ≤ |x - (entry k).rat| ∧ (k < R.1 → |x - (entry R.1).rat| < |x - (entry k).rat|)) ∧
      ∀ k, k < 16 → match entry k with
        | .nan sig => cbdecOf k cb e8 = ⟨0x7FC00000, { inv := sig }⟩
        | .inf n => fp32.unpack (cbdecOf k cb e8).bits = .inf n ∧ (cbdecOf k cb e8).cond = {}
        | .fin neg m e =>
          let y := (FVal.fin neg m e).rat * 2 ^ s
          (m = 0 → cbdecOf k cb e8 = ⟨if neg then 2 ^ 31 else 0, {}⟩) ∧
          (m ≠ 0 → fp32.Rounded .rn y (cbdecOf k cb e8).bits ∧
            (cbdecOf k cb e8).cond = fp32.roundCond .rn y (cbdecOf k cb e8).bits))

/-- R170, Table 7-10: the special functions of their special operands, and their overflow thresholds; and FSQRT of an exact square. -/
def Obligations.SpecialOperands : Prop :=
  let rows : List (SFun × FRes × Option FRes × FRes × FRes × FRes) :=
    let q (n : Nat) : FRes := ⟨n, {}⟩
    let iv : FRes := ⟨0x7FC00000, { inv := true }⟩
    let dz (n : Nat) : FRes := ⟨n, { dz := true }⟩
    [ (.rcp, q 0x80000000, none, dz 0xFF800000, dz 0x7F800000, q 0), (.rsq, iv, some iv, dz 0xFF800000, dz 0x7F800000, q 0),
      (.exp2, q 0, none, q 0x3F800000, q 0x3F800000, q 0x7F800000), (.log2, iv, some iv, dz 0xFF800000, dz 0xFF800000, q 0x7F800000),
      (.sin, iv, none, q 0x80000000, q 0, iv), (.cos, iv, none, q 0x3F800000, q 0x3F800000, iv),
      (.tanh, q 0xBF800000, none, q 0x80000000, q 0, q 0x3F800000) ]
  (∀ row ∈ rows,
    SFun.apply row.1 0xFF800000 = row.2.1 ∧ SFun.apply row.1 0x80000000 = row.2.2.2.1 ∧ SFun.apply row.1 0 = row.2.2.2.2.1 ∧
    SFun.apply row.1 0x7F800000 = row.2.2.2.2.2 ∧
    (∀ x : Word, ∀ sig, fp32.unpack x.toNat = .nan sig → SFun.apply row.1 x = ⟨0x7FC00000, { inv := sig }⟩) ∧
    ∀ R, row.2.2.1 = some R → ∀ (x : Word) (m : Nat) (e : Int), fp32.unpack x.toNat = .fin true m e → m ≠ 0 → SFun.apply row.1 x = R) ∧
  (∀ (x : Word) (neg : Bool) (m : Nat) (e : Int), fp32.unpack x.toNat = .fin neg m e → m ≠ 0 →
    ((SFun.apply .rcp x).cond.of = true ↔ |(FVal.fin neg m e).rat| ≤ 2 ^ (-128 : Int)) ∧
    ((SFun.apply .rcp x).cond.of = true → SFun.apply .rcp x = ⟨if neg then 0xFF800000 else 0x7F800000, { of := true }⟩) ∧
    ((SFun.apply .exp2 x).cond.of = true ↔ 128 ≤ (FVal.fin neg m e).rat) ∧
    ((SFun.apply .exp2 x).cond.of = true → SFun.apply .exp2 x = ⟨0x7F800000, { of := true }⟩)) ∧
  ∀ (r : Rnd) (x : Nat),
    (fp32.unpack x = .inf true → fsqrtOf r x = ⟨0x7FC00000, { inv := true }⟩) ∧
    (fp32.unpack x = .inf false → fsqrtOf r x = ⟨0x7F800000, {}⟩) ∧
    (∀ sig, fp32.unpack x = .nan sig → fsqrtOf r x = ⟨0x7FC00000, { inv := sig }⟩) ∧
    (∀ neg m e, fp32.unpack x = .fin neg m e →
      (m = 0 → fsqrtOf r x = ⟨if neg then 0x80000000 else 0, {}⟩) ∧
      (m ≠ 0 → neg = true → fsqrtOf r x = ⟨0x7FC00000, { inv := true }⟩) ∧
      (m ≠ 0 → neg = false → ∃ m' e', fp32.unpack (fsqrtOf r x).bits = .fin false m' e' ∧
        let y := (FVal.fin false m e).rat
        let z := (FVal.fin false m' e').rat
        (r = .rd ∨ r = .rz → z ^ 2 ≤ y) ∧ (r = .ru → y ≤ z ^ 2) ∧
        ((fsqrtOf r x).cond = { nx := decide (z ^ 2 ≠ y) }) ∧
        ∀ m'' e'', (∃ x'' , x'' < 2 ^ 32 ∧ fp32.unpack x'' = .fin false m'' e'') →
          let w := (FVal.fin false m'' e'').rat
          (z < w → r = .rd ∨ r = .rz → y < w ^ 2) ∧ (w < z → r = .ru → w ^ 2 < y) ∧
          (z < w → r = .rn → y ≤ ((z + w) / 2) ^ 2) ∧ (w < z → r = .rn → ((z + w) / 2) ^ 2 ≤ y)))

/-- R158, R163, R165 to R175: a form of class 1 in none of whose active lanes an enabled condition is met completes, with the result of
the format's rules in each active lane (`Obligations.Rounding` and the statements beside it say what the results are). An enabled condition of a lane raises the
first of its causes: the lane writes nothing and stops, and the others go on. -/
def Obligations.FloatWords : Prop :=
  ∀ (s : State) (h : Hdr) (fmt : FFmt) (rnd : Rnd) (cmp : FCmp) (op : PComb) (p : PSrc) (pd : Fin 8) (dst src : CvtType) (n : Fin 8)
    (cb : Fin 240) (d a b c : Reg) (x : Src) (g : Nat) (G : Group),
    (∀ F ∈ floatForms h fmt rnd cmp op p pd dst src n cb d a b c x, s.Issues g G F.1 → s.fpRaised G F = [] →
      ∃ r t, exec F.1 s = .next t ∧ s.Wrote r G F.1 F.2.1 (fun v => (F.2.2 v).1) ∧
        r.Went t g G h (s.issueClk G F.1) (G.pc + 8)) ∧
    (∀ F ∈ specialForms h rnd d a, s.Issues g G F.1 → s.fpRaised G F = [] →
      ∃ r t, exec F.1 s = .next t ∧ s.Sent r G F.1 F.2.1 (fun v => (F.2.2 v).1) ∧ r.Went t g G h (s.issueClk G F.1) (G.pc + 8)) ∧
    ∀ F ∈ floatForms h fmt rnd cmp op p pd dst src n cb d a b c x ++ specialForms h rnd d a,
      s.Issues g G F.1 → s.Apart g G → s.fpRaised G F ≠ [] →
      ∃ t, exec F.1 s = .next t ∧ s.Stops t g G (s.fpRaised G F) (fun _ => G.pc + 8) ∧
        ∀ u ∈ G.struck (s.fpRaised G F), (∀ k, (t.thread u).pred k = (s.thread u).pred k) ∧
          ∀ k, (t.thread u).reg k = if hintOff h (quarterOf k) then 0 else (s.thread u).reg k

/-- R43 to R48, Table 2-8: both slots of a pair word read before either writes, and it takes as long as its slower slot. -/
def Obligations.PairWords : Prop :=
  ∀ (s : State) (stall pred : Fin 8) (s0 s1 : PairSlot) (g : Nat) (G : Group),
    let i := Instr.pairWord stall pred s0 s1
    let imm (o : PairOp) (b : Fin 256) : Word :=
      let n := (BitVec.ofNat 8 b.val).toInt
      match o with
      | .fadd | .fsub | .fmul | .fmin | .fmax => BitVec.ofNat 32 (fp32.roundZ .rn (decide (n < 0)) n.natAbs 0).bits
      | .faddH2 | .fmulH2 =>
        BitVec.ofNat 16 (fp16.roundZ .rn (decide (n < 0)) n.natAbs 0).bits ++ BitVec.ofNat 16 (fp16.roundZ .rn (decide (n < 0)) n.natAbs 0).bits
      | _ => BitVec.ofInt 32 n
    let value (o : PairOp) (rnd : Rnd) (x y : Word) : Word × FCond :=
      let F (z : Word) : FVal := fp32.unpack z.toNat
      let H (z : Word) (k : Nat) : FVal := fp16.unpack (FFmt.elemBits .h2 z k)
      let one (r : FRes) : Word × FCond := (BitVec.ofNat 32 r.bits, r.cond)
      match o with
      | .mov => (y, {})
      | .iadd => (x + y, {})
      | .isub => (x - y, {})
      | .imul => (x * y, {})
      | .and => (x &&& y, {})
      | .or => (x ||| y, {})
      | .xor => (x ^^^ y, {})
      | .shl => (if 32 ≤ y.toNat then 0 else x <<< y.toNat, {})
      | .shrZ => (if 32 ≤ y.toNat then 0 else x >>> y.toNat, {})
      | .shrS => (x.sshiftRight (min y.toNat 31), {})
      | .iminS => (if x.toInt ≤ y.toInt then x else y, {})
      | .imaxS => (if y.toInt ≤ x.toInt then x else y, {})
      | .iminZ => (if x.toNat ≤ y.toNat then x else y, {})
      | .imaxZ => (if y.toNat ≤ x.toNat then x else y, {})
      | .lea => (x + y * 4, {})
      | .fadd => one (fp32.sum rnd [F x, F y] false)
      | .fsub => one (fp32.sum rnd [F x, (F y).neg] false)
      | .fmul => one (fp32.sum rnd [((F x).mul (F y)).1] ((F x).mul (F y)).2)
      | .fmin => one (fp32.minMax false x.toNat y.toNat)
      | .fmax => one (fp32.minMax true x.toNat y.toNat)
      | .faddH2 => FFmt.each .h2 fun k => fp16.sum rnd [H x k, H y k] false
      | .fmulH2 => FFmt.each .h2 fun k => fp16.sum rnd [((H x k).mul (H y k)).1] ((H x k).mul (H y k)).2
      | .cvtF32S32 => one (fp32.roundZ rnd (decide (y.toInt < 0)) y.toInt.natAbs 0)
    let slot (S : PairSlot) (v : LV) : List LaneWrite × FCond :=
      match S with
      | .nop => ([], {})
      | .op o da b rnd =>
        let y := match b with
          | .reg r => v.r32 r
          | .imm n => imm o n
        (w32 da (value o rnd (v.r32 da) y).1, (value o rnd (v.r32 da) y).2)
    let lat (S : PairSlot) : Nat :=
      match S with
      | .nop => 0
      | .op o _ _ _ => if o ∈ [.imul, .fadd, .fsub, .fmul, .fmin, .fmax, .faddH2, .fmulH2, .cvtF32S32] then 6 else 4
    let F : FloatForm := (i, max (lat s0) (lat s1), fun v => ((slot s0 v).1 ++ (slot s1 v).1, (slot s0 v).2.or (slot s1 v).2))
    pairDests s0 s1 = true → s.Issues g G i → s.fpRaised G F = [] →
      ∃ r t, exec i s = .next t ∧ s.Wrote r G i F.2.1 (fun v => (F.2.2 v).1) ∧ r.Went t g G i.hdr (s.issueClk G i) (G.pc + 8)

/-! ## Class 2: control -/

/-- R110, R117, R118, R120, R121, R128: direct branches and calls, returns by the return stack, and counted loops. -/
def Obligations.DirectBranches : Prop :=
  ∀ (s : State) (h : Hdr) (off : Fin 262144) (a : Reg) (n : Fin 240) (g : Nat) (G : Group), s.Apart g G →
    let x : Int := G.pc + 8 * (BitVec.ofNat 18 off.val).toInt
    let goes (i : Instr) (r : State) (dest : Nat → Nat) : Prop :=
      ∃ q t, exec i s = .next t ∧ r.OnlyItems G.block q ∧ q.Sends t g G h (s.issueClk G i) dest
    (∀ sel, s.Issues g G (.ret h sel) → sel = .stack →
      let i := Instr.ret h sel
      (∀ u ∈ s.actives G i, (s.thread u).retStack ≠ []) →
      ∃ r, s.Changed r (s.actives G i) (fun _ T => { T with retStack := T.retStack.dropLast }) ∧
        goes i r fun u => if u ∈ s.actives G i then (s.thread u).retStack.getLast?.getD 0 else G.pc + 8) ∧
    (0 ≤ x → x < 2 ^ 52 →
      (s.Issues g G (.bra h off) → goes (.bra h off) s fun u => if u ∈ s.actives G (.bra h off) then x.toNat else G.pc + 8) ∧
      (∀ sel, s.Issues g G (.call h sel off) →
        let i := Instr.call h sel off
        let dest (u : Nat) : Nat := if u ∈ s.actives G i then x.toNat else G.pc + 8
        match sel with
        | .stack => (∀ u ∈ s.actives G i, (s.thread u).retStack.length < 8) →
          ∃ r, s.Changed r (s.actives G i) (fun _ T => { T with retStack := T.retStack ++ [G.pc + 8] }) ∧ goes i r dest
        | .link k => ∃ r, s.Wrote r G i 4 (fun _ => w64 (.v k) (BitVec.ofNat 64 (G.pc + 8))) ∧ goes i r dest) ∧
      (a = .v n ∨ a = .zero → s.Issues g G (.bloop h a off) →
        let i := Instr.bloop h a off
        ∃ r, s.Wrote r G i 4 (fun v => w32 a (v.r32 a - 1)) ∧ goes i r fun u =>
          if u ∈ s.actives G i ∧ (s.lane G i u).r32 a ≠ 1 then x.toNat else G.pc + 8) ∧
      (s.Issues g G (.brd h off) →
        let i := Instr.brd h off
        let used (k : Nat) : Prop := ∃ p ∈ s.threads, p.1 / 256 = G.seq ∧ p.2.disp ≠ .exited ∧ ∃ r ∈ p.2.joinStack, r.recno = k
        (∃ k, k < 4096 ∧ ¬ used k) → (∀ u ∈ s.actives G i, (s.thread u).joinStack.length < 12) →
        ∃ k r t, ¬ used k ∧ (∀ j, j < k → used j) ∧
          s.Changed r (s.actives G i) (fun _ T => { T with joinStack := T.joinStack ++ [⟨k, x.toNat⟩] }) ∧
          exec i s = .next t ∧ r.Went t g G h (s.issueClk G i) (G.pc + 8)))

/-- R106, R111, Table 5-2: the checks of an indirect target in their order, and the address that a fetch reads. -/
def Obligations.IndirectTargets : Prop :=
  ∀ (s : State) (t x : Nat) (land : Bool),
    let R := s.recOf (s.thread t).block
    let c := t / 1024 / 2
    let e := s.entryFor c R.tenant R.world x
    (x % 8 ≠ 0 → s.indirect t x land = (some ⟨t, 12, 0, 0⟩, s)) ∧
    (x % 8 = 0 → (2 ^ 52 ≤ x ∨ Config.transEnd ≤ x) → s.indirect t x land = (some ⟨t, 7, x % 2 ^ 52, 0⟩, s)) ∧
    (x % 8 = 0 → x < Config.transEnd → x < 2 ^ 52 →
      (e.1 = none → s.indirect t x land = (some ⟨t, 7, x, 0⟩, e.2)) ∧
      ∀ d, e.1 = some d →
        let pa := bitsOf d.toNat 12 32 * 2 ^ 12 + x % 2 ^ (if bitsOf d.toNat 61 2 = 0 then 12 else if bitsOf d.toNat 61 2 = 1 then 16 else 21)
        let good : Prop := bitsOf d.toNat 44 4 = R.world ∧ bitOf d.toNat 56 = true ∧ bitsOf d.toNat 59 2 = 0 ∧ pa < e.2.dramSize ∧
          pa < 0x30000000000
        let w := (e.2.fetchWord pa).toNat
        (¬ good → s.indirect t x land = (some ⟨t, 8, x, 0⟩, e.2)) ∧
        (good → land = true → ¬ (w / 2 ^ 46 % 2 ^ 9 = 0x086 ∧ w / 2 ^ 63 % 2 = 0) →
          s.indirect t x land = (some ⟨t, 13, 0, 0⟩, e.2)) ∧
        (good → (land = true → w / 2 ^ 46 % 2 ^ 9 = 0x086 ∧ w / 2 ^ 63 % 2 = 0) → s.indirect t x land = (none, e.2)))

/-- R111, R119, R121: indirect branches, calls and returns all of whose active lanes pass the checks. -/
def Obligations.IndirectBranches : Prop :=
  ∀ (s : State) (h : Hdr) (a : Reg) (k : Fin 240) (sel : Sel) (g : Nat) (G : Group), s.Apart g G →
    let targets (i : Instr) (a : Reg) : List (Nat × Nat) := (s.actives G i).map fun u => (u, ((s.lane G i u).r64 a).toNat)
    let dest (i : Instr) (a : Reg) (u : Nat) : Nat := if u ∈ s.actives G i then ((s.lane G i u).r64 a).toNat else G.pc + 8
    let goes (i : Instr) (a : Reg) (r : State) : Prop :=
      ∃ q t, exec i s = .next t ∧ r.OnlyItems G.block q ∧ q.Sends t g G h (s.issueClk G i) (dest i a)
    let filled (i : Instr) (a : Reg) (land : Bool) (r : State) : Prop :=
      r = (s.indirects land (targets i a)).2.2 ∧ r = { s with tlb := r.tlb }
    let pass (i : Instr) (a : Reg) (land : Bool) : Prop := (s.indirects land (targets i a)).1 = []
    (s.Issues g G (.brx h a) → pass (.brx h a) a true → ∃ r, filled (.brx h a) a true r ∧ goes (.brx h a) a r) ∧
    (s.Issues g G (.ret h (.link k)) → pass (.ret h (.link k)) (.v k) false →
      ∃ r, filled (.ret h (.link k)) (.v k) false r ∧ goes (.ret h (.link k)) (.v k) r) ∧
    (s.Issues g G (.callx h sel a) → pass (.callx h sel a) a true →
      let i := Instr.callx h sel a
      match sel with
      | .stack => (∀ u ∈ s.actives G i, (s.thread u).retStack.length < 8) →
        ∃ r r', filled i a true r ∧ r.Changed r' (s.actives G i) (fun _ T => { T with retStack := T.retStack ++ [G.pc + 8] }) ∧
          goes i a r'
      | .link n => ∃ r r', filled i a true r ∧ r.Wrote r' G i 4 (fun _ => w64 (.v n) (BitVec.ofNat 64 (G.pc + 8))) ∧ goes i a r')
/-- R122, R125, R127, R131: LAND, GFREE, and the words that hold their group back for some time. -/
def Obligations.HoldingBack : Prop :=
  ∀ (s : State) (h : Hdr) (n : Option (Fin 262144)) (g : Nat) (G : Group),
    let num : Int := match n with
      | none => 0
      | some c => (BitVec.ofNat 18 c.val).toInt
    let went (i : Instr) (H : Group) : Prop :=
      ∃ r t, exec i s = .next t ∧ s.Went r g G h (s.issueClk G i) (G.pc + 8) ∧ t = { r with groups := t.groups } ∧
        t.groups.find g = some H ∧ ∀ k, k ≠ g → t.groups.find k = s.groups.find k
    (s.Issues g G (.land h) → ∃ t, exec (.land h) s = .next t ∧ s.Went t g G h (s.issueClk G (.land h)) (G.pc + 8)) ∧
    (s.Issues g G (.nopw h n) →
      let c := s.issueClk G (.nopw h n)
      if (s.recOf G.block).dm = 2 then went (.nopw h n) { G.wentTo h c (G.pc + 8) with yieldLeft := num.toNat }
      else went (.nopw h n) { G with
        pc := G.pc + 8, readyAt := max G.readyAt (c + max (max num.toNat h.stall.val) 1)
        since := max G.readyAt (c + max (max num.toNat h.stall.val) 1) }) ∧
    (s.Issues g G (.yield h n) →
      let c := s.issueClk G (.yield h n)
      let k := min 255 num.toNat
      ∃ m, went (.yield h n) { G.wentTo h c (G.pc + 8) with
          yieldLeft := m, since := if k = 0 then c else (G.wentTo h c 0).since } ∧
        ((s.recOf G.block).dm = 2 → m = k) ∧
        ((s.recOf G.block).dm ≠ 2 → ∀ u : State, (u.recOf G.block).dm ≠ 2 → ∀ H : Group, H.block = G.block → H.seq = G.seq →
          H.yieldLeft = m → (u.yieldOver H = true ↔ k = 0 ∨ (s.seqr G.seq).opps + k < (u.seqr G.seq).opps))) ∧
    (s.Issues g G (.gfree h) → s.Apart g G →
      let i := Instr.gfree h
      ∃ t, exec i s = .next t ∧ t.mem = s.mem ∧
        (∀ u ∈ G.lanes, t.pcOf u = some (G.pc + 8) ∧ (t.thread u).joinStack = (s.thread u).joinStack ∧
          (t.thread u).pinned = ((s.thread u).pinned && !(s.actives G i).contains u)) ∧
        (∀ u ∈ G.lanes, ∀ w ∈ G.lanes, (t.thread u).disp = (t.thread w).disp ↔ (u ∈ s.actives G i ↔ w ∈ s.actives G i)))

/-- R123, R124, R126, R113, R139: EXIT ends its active threads: their records go, their quarters are OFF, their pending loads are dropped,
and the stores and commands that they have issued stay; the other lanes fall through. REFORM frees its active threads, empties their join stacks, and hands
them to the former with their next program counters; the others fall through. GPIN by all the threads of a pinned group that have not exited
goes on at once, in one pinned group; while another one is elsewhere its lanes wait at the word. -/
def Obligations.LeavingGroups : Prop :=
  (∀ (s : State) (h : Hdr) (g : Nat) (G : Group), s.Issues g G (.exit h) → s.Apart g G →
      let gone := s.actives G (.exit h)
      ∃ t, exec (.exit h) s = .next t ∧ t.mem = s.mem ∧ t.pendStores = s.pendStores ∧ t.acps = s.acps ∧
        (∀ u ∈ gone, (t.thread u).disp = .exited ∧ (t.thread u).joinStack = [] ∧ ∀ n, (t.thread u).reg n = 0) ∧
        (∀ p ∈ t.inflight, ∀ w ∈ p.2.writes, w.thread ∉ gone) ∧
        (∀ p ∈ t.opLog, writesMem p.2.instr = false → returnsValue p.2.instr = true → ∀ l ∈ p.2.lanes, l.thread ∉ gone) ∧
        (∀ p ∈ s.opLog, writesMem p.2.instr = true ∨ returnsValue p.2.instr = false → p.2.lanes ≠ [] → p ∈ t.opLog) ∧
        (∀ p ∈ s.inflight, p.2.writes ≠ [] → (∀ w ∈ p.2.writes, w.thread ∉ gone) → p ∈ t.inflight) ∧
        ∀ u ∈ G.lanes, u ∉ gone → t.pcOf u = some (G.pc + 8)) ∧
  (∀ (s : State) (h : Hdr) (sel : Sel) (g : Nat) (G : Group), s.Issues g G (.reform h sel) → s.Apart g G →
      let i := Instr.reform h sel
      let target (u : Nat) : Nat := match sel with
        | .stack => G.pc + 8
        | .link n => ((s.lane G i u).r64 (.v n)).toNat
      ((∃ n, sel = .link n) → (s.indirects true ((s.actives G i).map fun u => (u, target u))).1 = []) →
      ∃ t, exec i s = .next t ∧ t.mem = s.mem ∧
        (∀ u ∈ s.actives G i, t.pcOf u = some (target u) ∧ (t.thread u).pinned = false ∧ (t.thread u).joinStack = []) ∧
        ∀ u ∈ G.lanes, u ∉ s.actives G i →
          t.pcOf u = some (G.pc + 8) ∧ (t.thread u).pinned = (s.thread u).pinned ∧ (t.thread u).joinStack = (s.thread u).joinStack) ∧
  (∀ (s : State) (h : Hdr) (p : Nat) (g : Nat) (G : Group), s.Issues g G (.gpin h) → s.Apart g G → FMap.sorted s.threads = true →
      s.actives G (.gpin h) = G.lanes → (∀ u ∈ G.lanes, u ∈ s.pinnedOf G.block G.core p) →
      ∃ t k H, exec (.gpin h) s = .next t ∧ t.groups.find k = some H ∧ t.mem = s.mem ∧ (∀ u, u ∈ H.lanes ↔ u ∈ G.lanes) ∧
        (∀ u ∈ G.lanes, (t.thread u).joinStack = [] ∧ (t.thread u).disp = .group k) ∧
        ((∀ u ∈ s.pinnedOf G.block G.core p, u ∈ G.lanes) →
          H.pc = G.pc + 8 ∧ H.wait = none ∧ ∀ u ∈ G.lanes, (t.thread u).pinned = true) ∧
        ((∃ u ∈ s.pinnedOf G.block G.core p, u ∉ G.lanes ∧ s.gpinPc u ≠ some G.pc ∧ ∀ j, (s.thread u).disp = .group j → j < s.nextId) →
          H.pc = G.pc ∧ H.wait = some .gpin))

/-- R129, R130: IPREF completes and requests lines, and raises no cause; IPREF.inv waits for the release of its block's stores at .dev, and
with it completes and starts the invalidation of its lines, for which the words of its group then wait. While the instruction cache has
room it loses no line. -/
def Obligations.Prefetches : Prop :=
  ∀ (s : State) (h : Hdr) (arg : Option (Fin 262144)) (a b : Reg) (g : Nat) (G : Group),
    let R := s.recOf G.block
    let range (i : Instr) (u : Nat) : Nat × Nat :=
      let st := ((s.lane G i u).r64 a).toNat
      (st, st + min ((s.lane G i u).r32 b).toNat 65536)
    (s.Issues g G (.ipref h arg a b) →
      ∃ q r t : State, exec (.ipref h arg a b) s = .next t ∧ r.Went t g G h (s.issueClk G (.ipref h arg a b)) (G.pc + 8) ∧
        q = { s with tlb := q.tlb, icache := q.icache } ∧ State.OnlySides G.block q r ∧ (qReadsOf (.ipref h arg a b) = [] → r = q) ∧
        (∀ l x, q.icache.find l = some x → s.icache.find l = some x ∨ x = s.memLine l) ∧
        (s.icache.length + 1025 * (G.lanes.length + 1) ≤ 65536 →
          (∀ l x, s.icache.find l = some x → q.icache.find l = some x) ∧
          ∀ u, (s.actives G (.ipref h arg a b)).head? = some u →
            match arg with
            | some off =>
              let x : Int := G.pc + 8 * (BitVec.ofNat 18 off.val).toInt
              0 ≤ x → x < 2 ^ 52 →
                ∀ l ∈ (s.rangeLines G.core R.tenant R.world false (x.toNat / 64 * 64) (x.toNat / 64 * 64 + 256) 1025).1,
                  (q.icache.find l).isSome
            | none => ∀ l ∈ (s.rangeLines G.core R.tenant R.world false (range (.ipref h arg a b) u).1
                (range (.ipref h arg a b) u).2 1025).1, (q.icache.find l).isSome)) ∧
    (s.Issues g G (.iprefInv h a b) → s.releasedFor G.block .dev G.lanes = true →
      ∃ (lines : List (Nat × Nat)) (r t : State), exec (.iprefInv h a b) s = .next t ∧
        r.Went t g G h (s.issueClk G (.iprefInv h a b)) (G.pc + 8) ∧
        r = (if lines = [] then { s with tlb := r.tlb }
          else { s with tlb := r.tlb, nextId := s.nextId + 1, iprefInv := s.iprefInv.put s.nextId (G.lanes, lines) }) ∧
        (lines ≠ [] → ∀ H : Group, (∃ u ∈ G.lanes, u ∈ H.lanes) → t.groupIssues H = false) ∧
        ∀ u, (s.actives G (.iprefInv h a b)).head? = some u →
          ∀ l ∈ (s.rangeLines G.core R.tenant R.world true (range (.iprefInv h a b) u).1 (range (.iprefInv h a b) u).2 1025).1,
            (l, 1) ∈ lines) ∧
    (s.Issues g G (.iprefInv h a b) → s.releasedFor G.block .dev G.lanes = false → exec (.iprefInv h a b) s = .next s)

/-- R95, R79, R217: what one lane of LAUNCH does: in a context its record is held; else the status says whether the queue is unusable
or full, or the record goes into the slot at SQTAIL. LAUNCH of a block on one core waits for the release at .dev, and its lanes append in lane
order; each gets its status. -/
def Obligations.Launches : Prop :=
  (∀ (s : State) (b t q : Nat) (w : RecWords),
      let ctx := (s.thread t).ctx
      let R := s.recOf b
      let part := (s.launchOf b).part
      let Q := s.sq q
      let n := 2 ^ (if Q.size = 0 ∨ 13 ≤ Q.size then 1 else Q.size)
      let usable : Prop := q ≤ 95 ∧ Q.enable = true ∧ Q.stopped = false ∧ Q.part = part ∧ Q.devSub = true
      let full : Prop := (Q.tail + 2 ^ 32 - Q.head) % 2 ^ 32 = n
      let pa := Q.base + 256 * (Q.tail % n)
      let L := s.launchLane b t q w
      (ctx ≠ 0 → L = (3, s.modCtx ctx fun c => { c with held := c.held ++ [.launch w q part R.tenant R.world R.tier] })) ∧
      (ctx = 0 → ¬ usable → L = (2, s)) ∧ (ctx = 0 → usable → full → L = (1, s)) ∧
      (ctx = 0 → usable → ¬ full → L.1 = 0 ∧
        L.2 = { s with mem := L.2.mem, sqs := s.sqs.put q { Q with tail := (Q.tail + 1) % 2 ^ 32 }, submits := L.2.submits } ∧
        (pa + 256 ≤ s.dramSize → w.length = 32 →
          (∀ k, k < 256 → L.2.byte (pa + k) = (w.getD (k / 8) 0).extractLsb' (8 * (k % 8)) 8) ∧
          ∀ x, x < pa ∨ pa + 256 ≤ x → L.2.byte x = s.byte x) ∧
        (s.dramSize < pa + 256 → L.2.mem = s.mem))) ∧
  (∀ (s : State) (h : Hdr) (d a : Reg) (b : Src) (g : Nat) (G : Group),
      let i := Instr.launch h d a b
      let qOf (u : Nat) : Nat := ((s.lane G i u).s32 b).toNat
      let reads := s.launchReads ((s.actives G i).map fun u => (u, ((s.lane G i u).r64 a).toNat))
      s.Issues g G i → s.paired G.block = false → reads.1 = [] →
        (s.actives G i ≠ [] → reads.2.2.releasedFor G.block .dev (s.actives G i) = false → exec i s = .next s) ∧
        (reads.2.2.releasedFor G.block .dev (s.actives G i) = true → (∀ u ∈ s.actives G i, (s.thread u).ctx = 0) →
          let done := reads.2.2.launchLanes G.block qOf reads.2.1
          ∃ r t, exec i s = .next t ∧ done.1.map Prod.fst = s.actives G i ∧
            done.2.Sent r G i 0 (fun v => w32 d (BitVec.ofNat 32 (((done.1.find? fun x => x.1 == v.t).map Prod.snd).getD 0))) ∧
            r.Went t g G h (s.issueClk G i) (G.pc + 8)))

/-- R83, R96, R97, R217: EVSIG completes once its block's stores are released at its scope and its threads' loads are done: it adds each
lane's value to its counter, or holds the adds with the context in which its threads are; before that it waits. EVWAIT completes: its group
gives its slot up and waits for the tests of its lanes, and a lane whose counter has reached its threshold has met its test. -/
def Obligations.EventCounters : Prop :=
  ∀ (s : State) (h : Hdr) (sc : Scope) (d a : Reg) (b : Src) (g : Nat) (G : Group),
    let ok (i : Instr) : Prop := ∀ u ∈ s.actives G i,
      ((s.lane G i u).r32 a).toNat < 4096 ∧ s.granted (s.launchOf G.block).part ((s.lane G i u).r32 a).toNat = true
    let num (i : Instr) (u : Nat) : Nat := ((s.lane G i u).r32 a).toNat
    let val (i : Instr) (u : Nat) : DWord := (s.lane G i u).s64 b
    (s.Issues g G (.evsig h sc a b) → ok (.evsig h sc a b) → s.paired G.block = false →
      (∀ u ∈ s.actives G (.evsig h sc a b), s.threadOpen (s.thread u) = true) →
      let us := s.actives G (.evsig h sc a b)
      let done (q : State) : Prop := ∃ r t, exec (.evsig h sc a b) s = .next t ∧ State.OnlySides G.block q r ∧
        r.Went t g G h (s.issueClk G (.evsig h sc a b)) (G.pc + 8)
      (s.releasedFor G.block sc us = true → (∀ u ∈ us, (s.thread u).ctx = 0) →
        ∃ q, done q ∧ q = { s with counters := q.counters, groups := q.groups } ∧
          ∀ n, q.counter n = s.counter n + ((us.filter fun u => num (.evsig h sc a b) u == n).map (val (.evsig h sc a b))).sum) ∧
      (s.releasedFor G.block sc us = true → ∀ c, c ≠ 0 → us ≠ [] → (∀ u ∈ us, (s.thread u).ctx = c) →
        ∃ q, done q ∧ q = { s with ctxs := q.ctxs } ∧ (∀ k, k ≠ c → q.ctxs.find k = s.ctxs.find k) ∧
          q.ctx c = { s.ctx c with
            held := (s.ctx c).held ++ us.map fun u => .evsig (num (.evsig h sc a b) u) (val (.evsig h sc a b) u) }) ∧
      (s.releasedFor G.block sc us = false → us ≠ [] → exec (.evsig h sc a b) s = .next s)) ∧
    (s.Issues g G (.evwait h sc d a b) → ok (.evwait h sc d a b) → s.actives G (.evwait h sc d a b) ≠ [] →
      let ls : List LaneSrc := (s.actives G (.evwait h sc d a b)).map fun u =>
        ⟨u, (s.thread u).ctx, !s.threadOpen (s.thread u), num (.evwait h sc d a b) u, (val (.evwait h sc d a b) u).toNat, 0, 0,
          (s.thread u).ctxGen⟩
      ∃ r u t met, exec (.evwait h sc d a b) s = .next t ∧ State.OnlySides G.block s r ∧
        r.Halts u g G h (s.issueClk G (.evwait h sc d a b)) (.evwait sc d ls []) ∧
        t = { u with groups := t.groups } ∧ (t.groups.find g).bind Group.wait = some (.evwait sc d ls met) ∧
        ∀ l ∈ ls, met.find l.thread = if l.b ≤ (s.counter l.a).toNat then some (s.counter l.a).toNat else none)
/-! ## Class 3: memory -/

/-- R191, R192, R195, R197, R226, R228, R248, R250: a memory word takes a log entry with what its lanes read and whether their context could be
accessed then, unless it accesses a line that an
older entry of its threads still accesses; then it waits. -/
def Obligations.LoggedWords : Prop :=
  ∀ (s : State) (h : Hdr) (size : Size) (sg : Bool) (hint : Hint) (len : CbLen) (op : AtomOp) (ord : Order) (sc : Scope) (d a b' c : Reg)
    (b : Src) (disp : Fin 256) (imm : Fin 262144) (g : Nat) (G : Group), s.paired G.block = false →
    (s.block G.block).itemNo = [] →
    let wide (x : LV → Nat) (v : LV) : Nat × Nat × Nat := ((v.r64 a).toNat, (match b with
      | .reg r => (v.r32 r).toNat
      | .imm _ => 0), x v)
    let offset (x : LV → Nat) (v : LV) : Nat × Nat × Nat := ((v.r32 a).toNat, (wide x v).2)
    let val (n : Size) (r : Reg) (v : LV) : Nat := match n with
      | .b8 => (v.r32 r).toNat % 2 ^ 8
      | .b16 => (v.r32 r).toNat % 2 ^ 16
      | .b32 => (v.r32 r).toNat
      | .b64 => (v.r64 r).toNat
      | .b128 => match r with
        | .v n => (v.rv n.val).toNat + (v.rv (n.val + 1)).toNat * 2 ^ 32 + (v.rv (n.val + 2)).toNat * 2 ^ 64 + (v.rv (n.val + 3)).toNat * 2 ^ 96
        | _ => 0
    let opnd (r : Reg) (v : LV) : Nat := if size = .b64 then (v.r64 r).toNat else (v.r32 r).toNat
    let forms : List (Instr × (LV → Nat × Nat × Nat)) :=
      [ (.ld h size sg hint d a b disp, wide fun _ => 0), (.st h size hint d a b disp, wide (val size d)),
        (.lds h size sg d a b disp, offset fun _ => 0), (.sts h size d a b disp, offset (val size d)),
        (.ldl h size sg hint d a b disp, offset fun _ => 0), (.stl h size hint d a b disp, offset (val size d)),
        (.ldw h d a imm, fun v => ((v.r64 a).toNat, 0, 0)), (.stw h d a imm, fun v => ((v.r64 a).toNat, 0, (v.r64 d).toNat)),
        (.ldk h size hint d a b disp, wide fun _ => 0),
        (.ldcb h len d a b, fun v => ((v.r64 a).toNat, (match b with
          | .reg r => (v.r32 r).toNat
          | .imm k => k.val), 0)),
        (.amo h op size ord sc d a b', fun v => ((v.r64 a).toNat, opnd b' v, 0)),
        (.cas h size ord sc d a b' c, fun v => ((v.r64 a).toNat, opnd b' v, opnd c v)),
        (.red h op size ord sc a b', fun v => ((v.r64 a).toNat, opnd b' v, 0)),
        (.ldcx h size sg d a b' c, fun v => ((v.r64 a).toNat, (v.r32 b').toNat, (v.r32 c).toNat)) ]
    ∀ F ∈ forms, s.Issues g G F.1 →
      let ls := match F.1 with
        | .ldcx .. => (s.kept G F.1 F.2).map fun l => { l with bad := s.ldcxBad G.block l.c }
        | _ => s.kept G F.1 F.2
      if s.lineConflict F.1 ls then exec F.1 s = .next s
      else ∃ r t, exec F.1 s = .next t ∧ s.Logged r G F.1 ls ∧ r.Went t g G h (s.issueClk G F.1) (G.pc + 8)

/-- R195, R197, Table 8-11: the bytes that a lane of a memory word accesses. -/
def Obligations.AccessAddresses : Prop :=
  ∀ (s : State) (h : Hdr) (size : Size) (sg : Bool) (hint : Hint) (len : CbLen) (d a : Reg) (disp : Fin 256)
    (imm : Fin 262144) (l : LaneSrc),
    let n : Nat := match size with
      | .b8 => 1
      | .b16 => 2
      | .b32 => 4
      | .b64 => 8
      | .b128 => 16
    let e (b : Src) : Int := match b with
      | .imm c => l.a + (BitVec.ofNat 18 c.val).toInt
      | .reg _ => l.a + (BitVec.ofNat 32 l.b).toInt + (BitVec.ofNat 8 disp.val).toInt * n
    let one (i : Instr) (store : Bool) (rg : Region) (e : Int) (n : Nat) (noDev : Bool) : Prop :=
      ∃ cached, s.partsOf i l = [⟨⟨!store, store, noDev, if store then 1 else 0⟩, rg, e, n, n, s.liveCtx l.ctx l.gen, l.bad, cached⟩]
    (∀ b, one (.ld h size sg hint d a b disp) false .any (e b) n (size == .b128) ∧
      one (.ldk h size hint d a b disp) false .any (e b) n (size == .b128) ∧
      one (.ldl h size sg hint d a b disp) false .priv (e b) n (size == .b128) ∧
      one (.lds h size sg d a b disp) false .scratch (e b) n (size == .b128) ∧
      one (.st h size hint d a b disp) true .any (e b) n (size == .b128) ∧
      one (.stl h size hint d a b disp) true .priv (e b) n (size == .b128) ∧
      one (.sts h size d a b disp) true .scratch (e b) n (size == .b128)) ∧
    one (.ldw h d a imm) false .any (l.a + (BitVec.ofNat 18 imm.val).toInt) 8 false ∧
    one (.stw h d a imm) true .any (l.a + (BitVec.ofNat 18 imm.val).toInt) 8 false ∧
    ∀ b, let m : Nat := match len with
        | .l4 => 3
        | .l8 => 5
        | .l16 => 9
      let ps := s.partsOf (.ldcb h len d a b) l
      (ps.flatMap fun p => (List.range p.len).map fun k => p.e + (k : Int)) = (List.range m).map fun k => ((l.a + m * l.b + k : Nat) : Int)

/-- R177, R179, R182, R188, R204: where an access goes and which cause stops it, in the order of the checks: MISALIGN, the window or the
translation, SPAD-OFF, CTX-BAD. -/
def Obligations.AddressChecks : Prop :=
  ∀ (s : State) (a : Acc) (need : Need) (bad : Bool) (rg : Region) (e : Int) (n : Nat), 0 < n →
    let R := s.resolve a need bad rg e n
    let size := (s.recOf a.block).spad
    let spad (o : Nat) : Prop :=
      if size ≤ o then R.1 = .error (11, 0)
      else if s.spadBank a.core (((s.block a.block).spadAt + o) / 0x20000) = .off then R.1 = .error (5, 0)
      else R = (.ok (.spad a.core ((s.block a.block).spadAt + o)), s)
    let priv (o : Nat) : Prop :=
      let x := (s.recOf a.block).privBase + (s.thread a.thread).tid * (s.recOf a.block).stride + o
      if (s.recOf a.block).stride ≤ o then R.1 = .error (11, 0)
      else if Config.transEnd ≤ x then R.1 = .error (7, 0)
      else R = s.resolve a need bad .any x 1
    (e % n ≠ 0 → R = (.error (6, 0), s)) ∧
    (e % n = 0 →
      match rg with
      | .scratch => if e < 0 then R = (.error (11, 0), s) else spad e.toNat
      | .priv => if e < 0 then R = (.error (11, 0), s) else priv e.toNat
      | .any =>
        if e < 0 ∨ 2 ^ 52 ≤ e then R = (.error (7, 0), s)
        else if e < Config.transEnd then
          let d := s.entryFor (a.core / 2) a.tenant a.world e.toNat
          match d.1 with
          | none => R = (.error (7, 0), d.2)
          | some x =>
            let pa := framePa x e.toNat
            let dev : Bool := decide (bitsOf x.toNat 59 2 = 1)
            match d.2.pageCheck a need x pa with
            | some c => R = (.error c, d.2)
            | none =>
              if bad = true ∨ (a.ctx ≠ 0 ∧ (dev = true ∨ (d.2.phys pa).isLink = true)) then R = (.error (19, 0), d.2)
              else R = (.ok (.mem pa a.ctx dev), d.2)
        else if Config.scratchBase ≤ e ∧ e < Config.privBase then spad (e.toNat - Config.scratchBase)
        else if Config.privBase ≤ e then priv (e.toNat - Config.privBase)
        else ∀ b, s.gangPeer a.block ((e.toNat - Config.peerBase) / 2 ^ 24) = some b →
          let o := (e.toNat - Config.peerBase) % 2 ^ 24
          let core := if a.side = 0 then (s.block b).core else (s.block b).follower.getD (s.block b).core
          (e.toNat - Config.peerBase) / 2 ^ 24 < (s.recOf a.block).gangSize → o < size →
            if s.spadBank core (((s.block b).spadAt + o) / 0x20000) = .off then R.1 = .error (5, 0)
            else R = (.ok (.spad core ((s.block b).spadAt + o)), s)) ∧
    (∀ (x : DWord) (pa : Nat), s.phys pa = .dram →
      s.pageCheck a need x pa =
        if bitsOf x.toNat 44 4 ≠ a.world ∨ (need.r = true ∧ bitOf x.toNat 58 = false) ∨ (need.w = true ∧ bitOf x.toNat 57 = false) ∨
          (bitsOf x.toNat 59 2 = 1 ∧ need.noDev = true) then some (8, 0)
        else if bitsOf x.toNat 59 2 = 2 then some (9, need.sub) else none) ∧
    ∀ (x : DWord) (pa : Nat), s.phys pa = .none ∨ s.phys pa = .control ∨ s.phys pa = .readback → s.pageCheck a need x pa = some (8, 0)

/-- R191, R195, R197, R37: a plain load whose lanes pass their checks reads its bytes, and its results are on their way; nothing in memory
changes, and the entry has left the log. -/
def Obligations.LoadsDeliver : Prop :=
  ∀ (s : State) (id : Nat) (e : LogEntry), s.Passes id e → qWritesOf e.instr = [] →
    (∀ o ∈ s.spots e, ∀ sp ∈ o.2, sp.place = none → sp.vaddr % 64 + sp.len ≤ 64) →
    let out (x : LaneSrc → List Spot → List LaneWrite) : List (Nat × List LaneWrite) := (s.spots e).map fun o => (o.1.thread, x o.1 o.2)
    let val (l : LaneSrc) (sps : List Spot) : Nat := s.spotNat (s.accOf l.thread (s.liveCtx l.ctx l.gen)) (s.liveCtx l.ctx l.gen) sps
    let low (x : Nat) : Word := BitVec.ofNat 32 x
    let size (n : Size) (sg : Bool) (d : Reg) (x : Nat) : List LaneWrite := match n with
      | .b8 => w32 d (if sg then (BitVec.ofNat 8 x).signExtend 32 else low x)
      | .b16 => w32 d (if sg then (BitVec.ofNat 16 x).signExtend 32 else low x)
      | .b32 => w32 d (low x)
      | .b64 => w64 d (BitVec.ofNat 64 x)
      | .b128 => wRegs d [low x, low (x / 2 ^ 32), low (x / 2 ^ 64), low (x / 2 ^ 96)]
    let first : Nat := match s.spots e with
      | o :: _ => val o.1 o.2
      | [] => 0
    let does (one : Bool) (f : Nat → List LaneWrite) : Prop :=
      let ws := laneResults (out fun l sps => f (if one then first else val l sps))
      ∃ t, exec (.operandLogEntryFreed id) s = .next t ∧ t.mem = s.mem ∧ t.cells = s.cells ∧ t.threads = s.threads ∧
        t.opLog = s.opLog.del id ∧ t.pendStores = s.pendStores ∧
        t.inflight = if ws = [] then s.inflight else s.inflight.put s.nextId ⟨e.block, e.age, ws, true, s.clk (e.seq / 4), []⟩
    match e.instr with
    | .ld _ n sg _ d .. | .ldl _ n sg _ d .. | .lds _ n sg d .. => does false (size n sg d)
    | .ldk _ n _ d .. => does true (size n false d)
    | .ldw _ d .. => does false (size .b64 false d)
    | .ldcb _ len d .. => does false fun x => match len with
      | .l4 => wRegs d [low x]
      | .l8 => wRegs d [low x, low (x / 2 ^ 32)]
      | .l16 => wRegs d [low x, low (x / 2 ^ 32), low (x / 2 ^ 64), 0]
    | _ => True

/-- R196, R191, R237: a store whose lanes pass their checks leaves, at each byte that it covers, the byte of the highest lane there, and no
other byte changes; it is pending until it is acknowledged. -/
def Obligations.StoresWrite : Prop :=
  ∀ (s : State) (id : Nat) (e : LogEntry), s.Passes id e →
    let oks := s.spots e
    let n : Option Nat := match e.instr with
      | .st _ size .. | .sts _ size .. | .stl _ size .. => some (Size.bytes size)
      | .stw .. => some 8
      | _ => none
    ∀ k, n = some k → (∀ o ∈ oks, ∃ sp, o.2 = [sp]) → ∀ ctx, ctx < 65536 → (∀ o ∈ oks, o.1.ctx = ctx ∧ s.ctxGone ctx o.1.gen = false ∧ ∀ sp ∈ o.2, s.plain ctx sp) →
      ((s.lanesCheck e.instr e.lanes).2.2.storeLanes e oks).1 = [] →
      ∃ t, exec (.operandLogEntryFreed id) s = .next t ∧ t.threads = s.threads ∧ t.opLog = s.opLog.del id ∧ t.inflight = s.inflight ∧
        (ctx = 0 → ∀ x, t.byte x = (storedByte k oks x).getD (s.byte x)) ∧
        (ctx ≠ 0 → (∀ c ∈ s.chainOf ctx, c < 65536) → (∀ o ∈ oks, ∀ sp ∈ o.2, sp.line.isSome ∧ ∀ pa, sp.home = some pa → pa % 64 + k ≤ 64) →
          t.mem = s.mem ∧ ∀ x, t.viewByte ctx x = (storedByte k oks x).getD (s.viewByte ctx x)) ∧
        ((∀ o ∈ oks, ∀ sp ∈ o.2, sp.line = none) → t.pendStores = s.pendStores) ∧
        ((∃ o ∈ oks, ∃ sp ∈ o.2, sp.line.isSome) → ∃ p, t.pendStores = s.pendStores.put s.nextId p ∧ p.block = e.block ∧ p.ctx = ctx)
/-- Table 10-5, R248, R250: the value that an atomic leaves, from the one that it finds and its operand. -/
def Obligations.AtomicOperations : Prop :=
  (∀ (w : Nat), w = 32 ∨ w = 64 → ∀ (old b : Nat), old < 2 ^ w → b < 2 ^ w →
    let O := BitVec.ofNat w old
    let B := BitVec.ofNat w b
    atomNew .add w old b = (O + B).toNat ∧ atomNew .and w old b = (O &&& B).toNat ∧ atomNew .or w old b = (O ||| B).toNat ∧
    atomNew .xor w old b = (O ^^^ B).toNat ∧ atomNew .exch w old b = b ∧
    atomNew .smin w old b = (if B.toInt < O.toInt then b else old) ∧ atomNew .smax w old b = (if O.toInt < B.toInt then b else old) ∧
    atomNew .zmin w old b = (if b < old then b else old) ∧ atomNew .zmax w old b = (if old < b then b else old) ∧
    atomNew .inc w old b = (if b ≤ old then 0 else old + 1) ∧
    atomNew .dec w old b = (if old = 0 ∨ b < old then b else old - 1)) ∧
  (∀ (old b : Nat), old < 2 ^ 32 → b < 2 ^ 32 →
    let two (f : Fmt) : Nat := (f.sum .rn [f.unpack (old % 2 ^ 16), f.unpack (b % 2 ^ 16)] false).bits +
      (f.sum .rn [f.unpack (old / 2 ^ 16), f.unpack (b / 2 ^ 16)] false).bits * 2 ^ 16
    atomNew .fadd 32 old b = (fp32.sum .rn [fp32.unpack old, fp32.unpack b] false).bits ∧ atomNew .faddH2 32 old b = two fp16 ∧
    atomNew .faddBh2 32 old b = two bf16 ∧ atomNew .fmin 32 old b = (fp32.minMax false old b).bits ∧
    atomNew .fmax 32 old b = (fp32.minMax true old b).bits) ∧
  ∀ (h : Hdr) (op : AtomOp) (size : Size) (ord : Order) (sc : Scope) (d a b c : Reg) (l : LaneSrc) (old : Nat),
    atomWrite (.amo h op size ord sc d a b) l old = some (atomNew op (8 * Size.bytes size) old l.b) ∧
    atomWrite (.red h op size ord sc a b) l old = some (atomNew op (8 * Size.bytes size) old l.b) ∧
    atomWrite (.cas h size ord sc d a b c) l old = if old = l.b then some l.c else none

/-- R240, R248, R250, Table 10-6: an atomic of one lane that passes its checks finds the value in scratchpad or memory, leaves the new one
there and nothing else, and returns the old one; .sc takes a ticket. A RED in a context, and in DM1, is not covered here. -/
def Obligations.AtomicsPerform : Prop :=
  ∀ (s : State) (id : Nat) (e : LogEntry) (l : LaneSrc) (sp : Spot) (X : Nat), s.Passes id e → s.spots e = [(l, [sp])] →
    isAtomic e.instr = true → qWritesOf e.instr = [] → (s.recOf e.block).dm ≠ 1 → sp.home = some X →
    (match sp.place with
      | some (.mem pa c _) => s.phys pa = .dram ∧ (c = 0 ∧ s.ctxGone l.ctx l.gen = false ∨ isReturning e.instr = true)
      | _ => True) →
    let size : Size := match e.instr with
      | .amo _ _ size .. | .cas _ size .. | .red _ _ size .. => size
      | _ => .b32
    let n := Size.bytes size
    let old := leNat ((List.range n).map fun k => s.byte (X + k))
    let new := (atomWrite e.instr l old).getD old
    let ws : List LaneWrite := match e.instr with
      | .amo _ _ _ _ _ d .. | .cas _ _ _ _ d .. => if n = 8 then w64 d (BitVec.ofNat 64 old) else w32 d (BitVec.ofNat 32 old)
      | _ => []
    n = 4 ∨ n = 8 → new < 2 ^ (8 * n) →
    ∃ t, exec (.operandLogEntryFreed id) s = .next t ∧ t.threads = s.threads ∧ t.opLog = s.opLog.del id ∧
      (∀ x, t.byte x = if X ≤ x ∧ x < X + n then BitVec.ofNat 8 (byteOf new (x - X)) else s.byte x) ∧
      t.teller = s.teller + (if orderOf e.instr = .sc then 1 else 0) ∧
      t.inflight = if laneResults [(l.thread, ws)] = [] then s.inflight
        else s.inflight.put s.nextId ⟨e.block, e.age, laneResults [(l.thread, ws)], true, s.clk (e.seq / 4), []⟩

/-- R198 to R200: PREF and XLQ change no result but what the L1 and the TLB hold, XLQ returns its translation, and CCTL takes away what its
lanes name; PREF and CCTL pop the queue registers that they name (R29). -/
def Obligations.CacheWords : Prop :=
  ∀ (s : State) (h : Hdr) (hint : Hint) (op : CctlOp) (d a : Reg) (b : Src) (g : Nat) (G : Group),
    let addr (s : State) (i : Instr) (u : Nat) : Int :=
      let v := s.lane G i u
      (v.r64 a).toNat + (match b with
        | .reg r => (v.r32 r).toInt
        | .imm c => (BitVec.ofNat 18 c.val).toInt)
    let inside (e : Int) : Bool := decide (e < Config.transEnd ∨ 2 ^ 52 ≤ e)
    let tenant (u : Nat) : Nat := (s.recOf (s.thread u).block).tenant
    let world (u : Nat) : Nat := (s.recOf (s.thread u).block).world
    let went (i : Instr) (r : State) : Prop := ∃ t, exec i s = .next t ∧ r.Went t g G h (s.issueClk G i) (G.pc + 8) ∧
      State.OnlySides G.block s { s with blocks := r.blocks } ∧ (qReadsOf i = [] → r.blocks = s.blocks) ∧
      s.Queued r G i ((s.actives G i).map fun _ => [])
    (s.Issues g G (.pref h hint a b) → ∃ r, went (.pref h hint a b) r ∧
      r = { s with tlb := r.tlb, l1 := r.l1, links := r.links, blocks := r.blocks }) ∧
    (s.Issues g G (.cctl h op a b) →
      let i := Instr.cctl h op a b
      let act := s.actives G i
      let all (l : L1Line) : Bool := act.any fun u => l.core == u / 1024 && l.tenant == tenant u
      let one (l : L1Line) : Bool := act.any fun u => inside (addr s i u) && l.core == u / 1024 &&
        decide ((l.vline : Int) = addr s i u / 64) && l.tag == s.liveCtx (s.thread u).ctx (s.thread u).ctxGen && l.tenant == tenant u
      let page (x : TlbEntry) : Bool := act.any fun u => inside (addr s i u) && decide (0 ≤ addr s i u) &&
        x.covers (u / 1024 / 2) (tenant u) (world u) (addr s i u).toNat
      ∃ r, went i r ∧ r = match op with
        | .ivall => { s with blocks := r.blocks, l1 := s.l1.filter fun l => !all l }
        | .ivl => { s with blocks := r.blocks, l1 := s.l1.filter fun l => !one l }
        | .ivtlb => { s with blocks := r.blocks, tlb := s.tlb.filter fun x => !page x }) ∧
    (s.Issues g G (.xlq h d a b) → s.paired G.block = false →
      let i := Instr.xlq h d a b
      ∃ q r t : State, exec i s = .next t ∧ q = { s with tlb := q.tlb } ∧ r.Went t g G h (s.issueClk G i) (G.pc + 8) ∧
        q.Sent r G i 0 fun v =>
          let e : Int := (v.r64 a).toNat + (match b with
            | .reg r => (v.r32 r).toInt
            | .imm c => (BitVec.ofNat 18 c.val).toInt)
          w64 d (BitVec.ofNat 64 (
            if e < 0 ∨ 2 ^ 52 ≤ e then 0
            else if Config.privBase ≤ e then 3
            else if Config.scratchBase ≤ e then 1
            else if Config.transEnd ≤ e then 2
            else match (q.entryFor (v.t / 1024 / 2) (tenant v.t) (world v.t) e.toNat).1 with
              | none => 0
              | some x => if bitsOf x.toNat 44 4 ≠ world v.t then 0
                else 2 ^ 63 + bitsOf x.toNat 56 7 * 2 ^ 56 + if world v.t = 0 then bitsOf x.toNat 12 32 * 2 ^ 12 else 0)))

/-- R201, R203: ACP counts a copy for each active lane and takes a log entry; ACWAIT waits for the counts that it names; ACQRY reads them. -/
def Obligations.CopyWords : Prop :=
  ∀ (s : State) (h : Hdr) (tag : Fin 8) (hint : Hint) (d a : Reg) (b : Src) (mask n : Fin 256) (g : Nat) (G : Group),
    (s.Issues g G (.acp h tag hint d a b) → s.paired G.block = false →
      let i := Instr.acp h tag hint d a b
      let ls := s.kept G i fun v => ((v.r64 a).toNat, (match b with
        | .reg r => (v.r32 r).toNat
        | .imm c => c.val), (v.r32 d).toNat)
      if (∃ u ∈ s.actives G i, 255 ≤ (s.thread u).acp.getD tag.val 0) ∨ s.lineConflict i ls = true then exec i s = .next s
      else ∃ q r t, exec i s = .next t ∧ r.Went t g G h (s.issueClk G i) (G.pc + 8) ∧ q.Logged r G i ls ∧
        s.Changed q (s.actives G i) fun _ T => { T with acp := listSet T.acp tag.val (T.acp.getD tag.val 0 + 1) }) ∧
    (s.Issues g G (.acwait h mask n) →
      let i := Instr.acwait h mask n
      let met : Prop := ∀ u ∈ s.actives G i, ∀ k, k < 8 → mask.val.testBit k = true → (s.thread u).acp.getD k 0 ≤ n.val
      (met → (∀ u ∈ s.actives G i, (s.thread u).acpEcc = []) →
        ∃ t, exec i s = .next t ∧ s.Went t g G h (s.issueClk G i) (G.pc + 8)) ∧
      (¬ met → ∃ t, exec i s = .next t ∧ s.Halts t g G h (s.issueClk G i) (.acwait mask.val n.val (s.actives G i)))) ∧
    (s.Issues g G (.acqry h d) → s.paired G.block = false →
      let i := Instr.acqry h d
      (∀ u ∈ s.actives G i, (s.thread u).acp.length = 8 ∧ ∀ k, k < 8 → (s.thread u).acp.getD k 0 < 256) →
      ∃ (r t : State) (f : Nat → DWord), exec i s = .next t ∧ s.Wrote r G i 4 (fun v => w64 d (f v.t)) ∧ r.Went t g G h (s.issueClk G i) (G.pc + 8) ∧
        ∀ u ∈ s.actives G i, ∀ k, k < 8 → ((f u).extractLsb' (8 * k) 8).toNat = (s.thread u).acp.getD k 0)

/-- R37, R136, R196, R201, R237: results, acknowledgements and completed copies. -/
def Obligations.MemoryEvents : Prop :=
  (∀ (s : State) (id : Nat) (p : Inflight), s.inflight.find id = some p →
    (p.ready ≤ s.clk p.core → p.drops = [] → (p.writes.map fun w => (w.thread, w.dest)).Nodup →
      ∃ t, exec (.scoreboardResult id) s = .next t ∧ t = { s with threads := t.threads, inflight := s.inflight.del id } ∧
        (∀ w ∈ p.writes, match w.dest with
          | .reg n => s.notLost w.thread n p.origin = true → (s.thread w.thread).quarter (quarterOf n) ≠ .off →
              (t.thread w.thread).reg n = w.val
          | .pred k => k < 7 → (t.thread w.thread).pred k = decide (w.val ≠ 0)) ∧
        (∀ u n, (∀ w ∈ p.writes, w.thread = u → w.dest ≠ .reg n) → (t.thread u).reg n = (s.thread u).reg n) ∧
        ∀ u k, (∀ w ∈ p.writes, w.thread = u → w.dest ≠ .pred k) → (t.thread u).pred k = (s.thread u).pred k) ∧
    ((s.clk p.core < p.ready ∨ ∃ d ∈ p.drops, s.spadBusy p.block (d.1 / 16) (d.1 % 16) p.origin = true) →
      exec (.scoreboardResult id) s = .next s) ∧
    (∀ k x, p.drops = [(k, x)] → p.ready ≤ s.clk p.core → s.spadBusy p.block (k / 16) (k % 16) p.origin = false →
      ∃ t, exec (.scoreboardResult id) s = .next t ∧ t.inflight = s.inflight.del id ∧
        t.spadBank (k / 16) (k % 16) = if s.spadBank (k / 16) (k % 16) = .off then .off else x)) ∧
  (∀ (s : State) (id : Nat) (p : PendStore), s.pendStores.find id = some p →
    ∃ t, exec (.storeAck id) s = .next t ∧ t = { s with pendStores := s.pendStores.del id, drain := t.drain } ∧
      ∀ u, t.drain.findD u 0 = s.drain.findD u 0 + if u = p.tenant then p.lines else 0) ∧
  (∀ (s : State) (u n : Nat), 0 < n → n ≤ s.drain.findD u 0 →
    ∃ t, exec (.hostCoherenceDrain u n) s = .next t ∧ t = { s with drain := t.drain } ∧
      ∀ v, t.drain.findD v 0 = s.drain.findD v 0 - if v = u then n else 0) ∧
  (∀ (s : State) (id : Nat) (c : AcpCopy), s.acps.find id = some c →
    (∀ p ∈ s.acps, p.1 < id → p.2.thread = c.thread → p.2.tag ≠ c.tag) → (∀ r ∈ c.srcs, s.owned (r.1 / 64) = false) →
    let bs := s.copyBytes c
    let X := spadPa (c.thread / 1024) c.dst
    bs.length ≤ 32 →
    ∃ t, exec (.acpComplete id) s = .next t ∧
      t = { s with mem := t.mem, acps := s.acps.del id, threads := s.threads.put c.thread { s.thread c.thread with
        acp := listSet (s.thread c.thread).acp c.tag ((s.thread c.thread).acp.getD c.tag 0 - 1) } } ∧
      ∀ x, t.byte x = if X ≤ x ∧ x < X + 32 then bs.getD (x - X) 0 else s.byte x) ∧
  (∀ (s : State) (g : Nat) (G : Group) (mask n : Nat) (ls : List Nat), s.groups.find g = some G → G.wait = some (.acwait mask n ls) →
    (∀ u ∈ ls, (s.thread u).acpEcc = [] ∧ ∀ k, k < 8 → mask.testBit k = true → (s.thread u).acp.getD k 0 ≤ n) →
    ∃ t, exec (.acwaitMet g) s = .next t ∧ s.Resumes t g G (G.pc + 8)) ∧
  (∀ (s : State) (n : Nat) (x : DWord), n < 4096 →
    ∃ t, exec (.eventCounterHostAdd n x) s = .next t ∧ t = { s with counters := t.counters, groups := t.groups } ∧
      ∀ k, t.counter k = s.counter k + if k = n then x else 0) ∧
  ∀ (s : State) (g : Nat) (G : Group) (sc : Scope) (d : Reg) (ls : List LaneSrc) (met : FMap Nat), s.groups.find g = some G →
    G.wait = some (.evwait sc d ls met) → (∀ l ∈ ls, (met.find l.thread).isSome) → s.loadsDone (ls.map LaneSrc.thread) = true →
    sc ≠ .blk → (∀ q, d ≠ .q q) →
    let ws := laneResults (ls.map fun l => (l.thread, w64 d (BitVec.ofNat 64
      (if (s.recOf G.block).dm = 2 then l.b else met.findD l.thread 0))))
    ∃ r t : State, exec (.evwaitMet g) s = .next t ∧ r.Resumes t g G (G.pc + 8) ∧
      r.l1 = (s.l1.filter fun l => !(l.core == G.core && l.tenant == (s.recOf G.block).tenant)) ∧
      r = { s with l1 := r.l1, nextId := r.nextId, inflight := r.inflight } ∧
      r.inflight = if ws = [] then s.inflight else s.inflight.put s.nextId ⟨G.block, s.nextId, ws, false, s.clk G.core, []⟩

/-- R193, R214, R313, R314: a plain load all of whose lanes fail their checks, and a store that has waited 100 µs for room in the overlay,
keep their entry for a replay, and the group takes the causes; the wait counts from when the store met the overlay full. -/
def Obligations.LateFaults : Prop :=
  ∀ (s : State) (id : Nat) (e : LogEntry) (g : Nat) (G : Group), s.Live id e → s.groups.find g = some G → G.wait = none →
    (∀ l ∈ e.lanes, l.thread ∈ G.lanes ∧ (s.thread l.thread).disp = .group g) → e.lanes ≠ [] → (e.lanes.map LaneSrc.thread).Nodup →
    let kept (t : State) (cs : List LaneCause) : Prop := t.opLog.find id = some { e with
      causes := cs, replay := false, queued := [], freed := false, faulted := laneMask (e.lanes.map LaneSrc.thread) }
    let C := s.lanesCheck e.instr e.lanes
    (isLoadWord e.instr = true → isLdcx e.instr = false → C.2.1 = [] → C.2.2.placesReady e [] = true →
      C.1.map LaneCause.thread = e.lanes.map LaneSrc.thread ∧
      ∃ t, exec (.loggedAccessFault id) s = .next t ∧ s.Trapped t g G e.pc C.1 ∧ kept t C.1) ∧
    (isStoreWord e.instr = true → ∀ l pa c dev v n, C.1 = [] →
      C.2.1 = [(l, [⟨some (.mem pa c dev), v, n⟩])] → s.phys pa = .dram → s.ctxGone l.ctx l.gen = false → s.poolBlocked c pa = true →
      C.2.2.placesReady e C.2.1 = true →
      ((e.poolAt = 0 → exec (.operandLogEntryFreed id) s = .next { s with opLog := s.opLog.put id { e with poolAt := s.now + 1 } }) ∧
      (e.poolAt ≠ 0 → e.poolAt + 100 * Config.us ≤ s.now + 1 →
        ∃ a t, exec (.ctxPoolTimeout id) s = .next t ∧ s.Trapped t g G e.pc [⟨l.thread, 20, a, 0⟩] ∧ kept t [⟨l.thread, 20, a, 0⟩])))
/-! ## Class 4: ordering -/

/-- R252: an arrival at a named barrier by a thread that has none pending; the phase is complete when the expected number has arrived, which
is the count of the first arrival, or, for 0, the number of the block's threads on the core that have not exited. -/
def Obligations.Arrivals : Prop :=
  ∀ (s : State) (b core t k count : Nat), k < 16 → (s.blocks.find b).isSome → (s.thread t).block = b → t / 1024 = core →
    (s.threads.find t).isSome → FMap.sorted s.threads = true →
    let pend (s : State) (u : Nat) : Bool := (s.thread u).barPending.getLsbD k
    let B := (s.bside b core).barriers.findD k Barrier.init
    let t' := s.arrive b core t k count
    let want := if B.arrivals = 0 then count else B.expected
    let need := if want = 0 then (s.threads.filter fun p => p.2.block == b && p.1 / 1024 == core && p.2.disp != .exited).length else want
    let B' := (t'.bside b core).barriers.findD k Barrier.init
    (pend s t = true → t' = s) ∧
    (pend s t = false → t' = { s with threads := t'.threads, blocks := t'.blocks } ∧
      (∀ u, t'.thread u = { s.thread u with barPending := (t'.thread u).barPending }) ∧
      (∀ u j, j ≠ k → (t'.thread u).barPending.getLsbD j = (s.thread u).barPending.getLsbD j) ∧
      (B.arrivals + 1 < need → B' = ⟨want, B.arrivals + 1, B.phase⟩ ∧ ∀ u, pend t' u = (pend s u || u == t)) ∧
      (need ≤ B.arrivals + 1 → B' = ⟨want, 0, B.phase + 1⟩ ∧
        (∀ u, (s.threads.find u).isSome → (s.thread u).block = b → u / 1024 = core → pend t' u = false) ∧
        ∀ u, (s.thread u).block ≠ b ∨ u / 1024 ≠ core → pend t' u = pend s u))

/-- R251 to R257: fences, barriers and waits as they issue. A word whose release is not complete stays; a release alone holds the later memory
words; a wait keeps its lanes at the word. -/
def Obligations.OrderingWords : Prop :=
  ∀ (s : State) (h : Hdr) (ord : Order) (sc : Scope) (arg : BarArg) (cmp : Cmp) (sg : Bool) (size : Size) (d a b : Reg) (g : Nat)
    (G : Group),
    let stays (i : Instr) : Prop := exec i s = .next s
    let goes (i : Instr) (r : State) : Prop := ∃ t, exec i s = .next t ∧ r.Went t g G h (s.issueClk G i) (G.pc + 8)
    let goesAs (i : Instr) (r : State) (hold : List MemHold) : Prop :=
      ∃ u t, exec i s = .next t ∧ r.Went u g G h (s.issueClk G i) (G.pc + 8) ∧ t = { u with groups := t.groups } ∧
        (∀ k, k ≠ g → t.groups.find k = s.groups.find k) ∧
        t.groups.find g = some { G.wentTo h (s.issueClk G i) (G.pc + 8) with memHold := G.memHold ++ hold }
    let halts (i : Instr) (H : Group) (r : State) (w : Wait) : Prop :=
      ∃ t, exec i s = .next t ∧ r.Halts t g H h (s.issueClk G i) w
    let raises (i : Instr) (us : List Nat) (cause : Nat) : Prop :=
      s.Apart g G → ∃ t, exec i s = .next t ∧ s.Stops t g G (us.map fun u => ⟨u, cause, 0, 0⟩) fun _ => G.pc + 8
    let R := s.recOf G.block
    let rel (sc : Scope) (us : List Nat) : Prop := s.releasedFor G.block sc us = true
    (s.Issues g G (.fence h ord sc) → ord ≠ .rlx →
      let i := Instr.fence h ord sc
      (s.actives G i = [] → goes i s) ∧
      (s.actives G i ≠ [] →
        if ord = .rel then goesAs i s [.release sc, .loads G.lanes]
        else if (ord ≠ .acq ∧ s.released G.block sc = false) ∨ s.loadsDone G.lanes = false then stays i
        else
          let l1 := if sc = .blk then s.l1 else s.l1.filter fun l => !(l.core == G.core && l.tenant == R.tenant)
          goes i { s with l1 := l1, teller := if ord = .sc ∧ s.isFollower G.block G.core = false then s.teller + 1 else s.teller })) ∧
    (s.Issues g G (.bara h arg) →
      let i := Instr.bara h arg
      if s.actives G i = [] then goes i s else if ¬ rel .blk (s.actives G i) then stays i
      else goes i ((s.actives G i).foldl (fun r u =>
        r.arrive G.block G.core u ((s.lane G i u).barArg arg).1 ((s.lane G i u).barArg arg).2) s)) ∧
    (s.Issues g G (.bar h arg) →
      let i := Instr.bar h arg
      let id (u : Nat) : Nat := ((s.lane G i u).barArg arg).1
      let r := (s.actives G i).foldl (fun r u => r.arrive G.block G.core u (id u) ((s.lane G i u).barArg arg).2) s
      let waits (u : Nat) : Prop := u ∈ s.actives G i ∧ bitOf (r.thread u).barPending.toNat (id u) = true
      if s.actives G i = [] then goes i s else if ¬ rel .blk (s.actives G i) then stays i
      else s.Apart g G → ∃ t, exec i s = .next t ∧ t.mem = s.mem ∧ ∀ u ∈ G.lanes,
        (¬ waits u → t.pcOf u = some (G.pc + 8)) ∧
        (waits u → ∃ j H ts, (t.thread u).disp = .group j ∧ t.groups.find j = some H ∧ H.pc = G.pc ∧ H.wait = some (.bar (id u) ts) ∧
          u ∈ ts)) ∧
    (s.Issues g G (.barw h arg) →
      let i := Instr.barw h arg
      let ls := ((s.actives G i).map fun u => (u, (s.lane G i u).barId arg)).filter fun x => bitOf (s.thread x.1).barPending.toNat x.2
      if s.actives G i = [] then goes i s
      else if ls = [] then goesAs i s [.loads (s.actives G i)]
      else halts i { G with memHold := G.memHold ++ [.loads (s.actives G i)] } s (.barw ls)) ∧
    (s.Issues g G (.gbar h) →
      match R.levels.find? Level.gang with
      | none => raises (.gbar h) G.lanes 11
      | some l =>
        if rel l.scope G.lanes then halts (.gbar h) G (s.modBlock G.block fun B => { B with gbarIn := B.gbarIn ++ G.lanes }) .gbar
        else stays (.gbar h)) ∧
    (s.Issues g G (.ssync h) →
      let arrives : Prop := rel .dev G.lanes ∧ (∀ u ∈ G.lanes, ∀ k ∈ (s.thread u).acp, k = 0) ∧
        (∀ p ∈ s.engines, ∀ c ∈ p.2, c.block ≠ G.block) ∧
        ∀ p ∈ s.opLog, p.2.block = G.block → p.2.dormant = true ∨ ∀ h' k p' c, p.2.instr ≠ .push h' k p' c
      (R.dm = 1 ∨ R.dm = 2 → raises (.ssync h) G.lanes 21) ∧
      (R.dm ≠ 1 → R.dm ≠ 2 → (arrives → halts (.ssync h) G (s.modBlock G.block fun B => { B with ssyncIn := B.ssyncIn ++ G.lanes }) .ssync) ∧
        (¬ arrives → stays (.ssync h)))) ∧
    (s.Issues g G (.waitv h cmp sg size sc d a b) →
      let i := Instr.waitv h cmp sg size sc d a b
      let ls := s.kept G i fun v => ((v.r64 a).toNat, if size = .b64 then (v.r64 b).toNat else (v.r32 b).toNat, 0)
      if s.actives G i = [] then goes i s else if s.lineConflict i ls = true then stays i
      else ∃ r, s.Logged r G i ls ∧ halts i G r (.waitv s.nextId)) ∧
    (s.Issues g G (.ordhead h) →
      let i := Instr.ordhead h
      (s.actives G i = [] → goes i s) ∧
      (s.actives G i ≠ [] → if R.dm = 1 then halts i G s (.ordhead (s.actives G i)) else raises i (s.actives G i) 21))

/-- R37, R96, R101, R103, R108, R112, R124, R127, R130, R252 to R257: the events that end waits. -/
def Obligations.WaitsEnd : Prop :=
  ∀ (s : State) (g : Nat) (G : Group), FMap.sorted s.groups = true → s.groups.find g = some G →
    let tenant := (s.recOf G.block).tenant
    let l1 : List L1Line := s.l1.filter fun l => !(l.core == G.core && l.tenant == tenant)
    let onward (t : State) (G : Group) (hold : List MemHold) : Prop :=
      ∃ H, t.groups.find g = some H ∧ H.pc = G.pc + 8 ∧ H.wait = none ∧ H.lanes = G.lanes ∧ H.memHold = G.memHold ++ hold
    (∀ k ls side, G.wait = some (.bar k ls) → (∀ u ∈ ls, bitOf (s.thread u).barPending.toNat k = false) → s.sideOf G.block G.core = side →
      ∃ t, exec (.barrierPhaseComplete G.block side k) s = .next t ∧ t = { s with groups := t.groups } ∧ onward t G [.loads G.lanes]) ∧
    (∀ k ls side, G.wait = some (.barw ls) → (∃ x ∈ ls, x.2 = k) → (∀ x ∈ ls, bitOf (s.thread x.1).barPending.toNat x.2 = false) →
      s.sideOf G.block G.core = side →
      ∃ t, exec (.barrierPhaseComplete G.block side k) s = .next t ∧ t = { s with groups := t.groups } ∧ onward t G [.loads G.lanes]) ∧
    (∀ l n, G.wait = some .gbar → G.block ∈ s.gangBlocks l n → (s.gangBlocks l n).length = (s.launch l).lrec.gangSize →
      (∀ b ∈ s.gangBlocks l n, (s.block b).residence = .exited ∨
        ((s.block b).residence = .resident ∧ ∀ u ∈ s.blockThreads b, u ∈ (s.block b).gbarIn)) →
      (∃ b ∈ s.gangBlocks l n, (s.block b).gbarIn ≠ []) →
      ∃ t, exec (.gbarPhaseComplete l n) s = .next t ∧ onward t G [.loads G.lanes] ∧
        (∀ b ∈ s.gangBlocks l n, (t.block b).gbarIn = []) ∧
        (∀ v ∈ (s.launch l).lrec.gangLevel, v.scope ≠ .blk → ∀ x ∈ t.l1, ¬ (x.core = G.core ∧ x.tenant = tenant))) ∧
    (∀ l, G.wait = some .ssync → G.block ∈ s.launchBlocks l → (s.launchBlocks l).length = (s.launch l).lrec.blockCount →
      (∀ b ∈ s.launchBlocks l, (s.block b).residence = .exited ∨
        ((s.block b).residence = .resident ∧ ∀ u ∈ s.blockThreads b, u ∈ (s.block b).ssyncIn)) →
      (∃ b ∈ s.launchBlocks l, (s.block b).ssyncIn ≠ []) →
      ∃ t, exec (.ssyncComplete l) s = .next t ∧ onward t G [.loads G.lanes] ∧ (∀ b ∈ s.launchBlocks l, (t.block b).ssyncIn = []) ∧
        ∀ x ∈ t.l1, ¬ (x.core = G.core ∧ x.tenant = tenant)) ∧
    (∀ ls, G.wait = some (.ordhead ls) → (s.block G.block).index = (s.launchOf G.block).head → s.loadsDone ls = true →
      ∃ t, exec (.ordheadReached g) s = .next t ∧ State.Resumes { s with l1 := l1 } t g G (G.pc + 8)) ∧
    (∀ id e h cmp sg size sc d a b, G.wait = some (.waitv id) → s.Live id e → e.instr = .waitv h cmp sg size sc d a b →
      (s.lanesCheck e.instr e.lanes).1 = [] → e.queued = [] →
      (∀ o ∈ s.spots e, ∀ sp ∈ o.2, (∀ x, sp.bank = some x → s.bankAsleep x.1 x.2 = false) ∧ ∀ l, sp.line = some l → s.owned l = false) →
      (e.lanes.map LaneSrc.thread).Nodup → size = .b32 ∨ size = .b64 → (∀ q, d ≠ .q q) →
      let x (o : LaneSrc × List Spot) : Nat := s.spotNat (s.accOf o.1.thread (s.liveCtx o.1.ctx o.1.gen)) (s.liveCtx o.1.ctx o.1.gen) o.2
      let w := if size = .b64 then 64 else 32
      let num (y : Nat) : Int := if sg then (BitVec.ofNat w y).toInt else y
      let holds (m n : Int) : Bool := match cmp with
        | .eq => decide (m = n)
        | .ne => decide (m ≠ n)
        | .lt => decide (m < n)
        | .le => decide (m ≤ n)
        | .gt => decide (n < m)
        | .ge => decide (n ≤ m)
      let met (o : LaneSrc × List Spot) : Bool := holds (num (x o)) (num o.1.b)
      (∀ o ∈ s.spots e, o.2.all (fun sp => sp.place.isSome) = true) →
      ((∀ o ∈ s.spots e, met o = true) → s.loadsBefore (e.lanes.map LaneSrc.thread) e.age = true →
        let ws := laneResults ((s.spots e).map fun o =>
          (o.1.thread, if size = .b64 then w64 d (BitVec.ofNat 64 (x o)) else w32 d (BitVec.ofNat 32 (x o))))
        ∃ (r t : State), exec (.waitvMet g) s = .next t ∧ r.Resumes t g G (G.pc + 8) ∧ r.mem = s.mem ∧ r.opLog = s.opLog.del id ∧
          (sc ≠ .blk → ∀ y ∈ r.l1, ¬ (y.core = G.core ∧ y.tenant = tenant)) ∧
          r.inflight = if ws = [] then s.inflight else s.inflight.put s.nextId ⟨e.block, e.age, ws, true, s.clk (e.seq / 4), []⟩) ∧
      ((∃ o ∈ s.spots e, met o = true) → (∃ o ∈ s.spots e, met o = false) →
        ∃ t, exec (.waitvReread g) s = .next t ∧ t.mem = s.mem ∧ t.groups = s.groups ∧
          t.opLog = s.opLog.put id { e with
            lanes := (s.spots e).map fun o => if met o then { o.1 with c := x o } else o.1
            queued := ((s.spots e).filter met).map fun o => o.1.thread, freed := true })) ∧
    (∀ Q : Nat, G.slot = none → G.wait = none → G.candidate = false → G.seq = Q →
      64 ≤ s.oppsNow Q G.block - G.oppsAt →
      let lacking : List (Nat × Group) := s.groups.filter fun p => p.2.seq == Q && p.2.slot.isNone && p.2.wait.isNone
      (lacking.filter fun p => p.2.candidate).length < 16 →
      (∀ p ∈ lacking, p.2.candidate = true ∨ G.since < p.2.since ∨ (G.since = p.2.since ∧ g ≤ p.1)) →
      ∃ t, exec (.slotWaitTimeout g) s = .next t ∧ t = { s with groups := s.groups.adjust g fun G => { G with candidate := true } }) ∧
    (G.yieldLeft ≠ 0 → s.yieldOver G = true →
      exec (.yieldExpiry g) s = .next { s with groups := s.groups.adjust g fun G => { G with yieldLeft := 0 } })

/-- R103, R108, R112, R113, R124, R130: joins, pinned groups, bins, and the instruction cache. -/
def Obligations.SequencerEvents : Prop :=
  ∀ (s : State),
    let placed (us : List Nat) : Prop := ∀ u ∈ us, ∀ g, (s.thread u).disp = .group g →
      g < s.nextId ∧ ∀ G, s.groups.find g = some G → u ∈ G.lanes
    (∀ q n pc, FMap.sorted s.threads = true → s.joinReady q n = true → placed (s.members q n) →
      (∀ u ∈ s.members q n, ((s.thread u).topRec.map JoinRec.pc) = some pc) →
      ∃ t, exec (.joinRelease q n) s = .next t ∧ t.mem = s.mem ∧ ∀ u ∈ s.members q n,
        t.pcOf u = some pc ∧ (t.thread u).joinStack = (s.thread u).joinStack.dropLast ∧ (t.thread u).pinned = (s.thread u).pinned ∧
        ∀ v ∈ s.members q n, (s.thread u).pinned = true → (s.thread v).pinned = true →
          ((t.thread u).disp = (t.thread v).disp ↔ (s.thread u).pgrp = (s.thread v).pgrp)) ∧
    (∀ b p pc, (s.block b).follower = none → FMap.sorted s.threads = true →
      let us := s.pinnedOf b (s.block b).core p
      us ≠ [] → (∀ u ∈ us, s.gpinPc u = some pc) → placed us →
      ∃ t k, exec (.gpinRelease b p) s = .next t ∧ t.mem = s.mem ∧ ∀ u ∈ us,
        t.pcOf u = some (pc + 8) ∧ (t.thread u).pinned = true ∧ (t.thread u).disp = .group k) ∧
    (∀ q l, (s.seqr q).frozen = some l →
      ∃ t, exec (.icacheFill q) s = .next t ∧ t = { s with icache := t.icache, seqs := s.seqs.put q { s.seqr q with frozen := none } } ∧
        t.icache.find l = some ((s.icache.find l).getD (s.memLine l)) ∧ ∀ k, k ≠ l → t.icache.find k = s.icache.find k ∨
          (t.icache.find k = none ∧ s.icache.find l = none ∧ Config.icacheLines ≤ s.icache.length)) ∧
    (∀ id g ranges, s.iprefInv.find id = some (g, ranges) →
      let kept (p : Nat × Line) : Bool := ranges.all fun r => decide (p.1 < r.1 ∨ r.1 + r.2 ≤ p.1)
      exec (.iprefInvComplete id) s = .next { s with icache := s.icache.filter kept, iprefInv := s.iprefInv.del id }) ∧
    ∀ q n B, s.bins.find (16 * q + n) = some B → B.candidate = false → 64 ≤ s.oppsNow q B.block - B.oppsAt →
      exec (.binCandidateTimeout q n) s = .next { s with bins := s.bins.adjust (16 * q + n) fun B => { B with candidate := true } }
/-- R222 to R225, R227: the context words, on a block that is not checked. -/
def Obligations.ContextWords : Prop :=
  ∀ (s : State) (h : Hdr) (sc : Scope) (set : Bool) (pd : Option (Fin 8)) (d a : Reg) (g : Nat) (G : Group), s.paired G.block = false →
    let b := G.block
    let part := s.partOf b
    let goes (i : Instr) (r : State) : Prop := ∃ t, exec i s = .next t ∧ r.Went t g G h (s.issueClk G i) (G.pc + 8)
    let raises (i : Instr) (r : State) (us : List Nat) : Prop :=
      s.Apart g G → ∃ t, exec i s = .next t ∧ r.Stops t g G (us.map fun u => ⟨u, 19, 0, 0⟩) fun _ => G.pc + 8
    let hd (i : Instr) (u : Nat) : Nat := ((s.lane G i u).r32 a).toNat
    (s.Issues g G (.ctxopen h sc set pd d) →
      let i := Instr.ctxopen h sc set pd d
      let act := s.actives G i
      (act = [] → goes i s) ∧
      ∀ u, act.head? = some u →
        let c := (s.thread u).ctx
        let fits : Prop := (c = 0 ∨ (s.ctx c).state = .opened) ∧ s.genOf c = (s.thread u).ctxGen ∧ s.ctxDepth c < 15
        (¬ fits → raises i s act) ∧
        (fits → (∀ v ∈ act, (s.thread v).ctx = c ∧ (s.thread v).ctxGen = (s.thread u).ctxGen) →
          (pd = none → goes i { s with
            nextId := s.nextId + 1
            mintQ := s.mintQ.put part (s.mintQ.findD part [] ++ [.open_ g act c sc set none d s.nextId]) }) ∧
          ∀ k, pd = some k → s.mintQ.findD part [] = [] →
            (∀ tag, s.lowestTag = some tag → s.liveTags part < (s.partRegs part).pmint →
              ∃ r, s.Opened r tag c sc b G.core act set (some k.val) d s.nextId ∧ goes i r) ∧
            ((s.partRegs part).pmint ≤ s.liveTags part →
              ∃ r t : State, exec i s = .next t ∧ r.Went t g G h (s.issueClk G i) (G.pc + 8) ∧
                r = { s with nextId := r.nextId, inflight := r.inflight } ∧
                let ws := laneResults (act.map fun v => (v, w32 d 0 ++ [.pred k.val false]))
                r.inflight = if ws = [] then s.inflight else s.inflight.put s.nextId ⟨b, s.nextId, ws, false, s.issueClk G i, []⟩))) ∧
    (s.Issues g G (.ctxset h a) →
      let i := Instr.ctxset h a
      let own := (s.block b).ctx
      let good (u : Nat) : Bool :=
        if hd i u = 0 then own == 0
        else decide (hd i u % 65536 ≠ 0 ∧ hd i u / 65536 ≠ 0 ∧ (s.ctx (hd i u % 65536)).gen = hd i u / 65536 ∧
          (s.ctx (hd i u % 65536)).state = .opened ∧ (s.ctx (hd i u % 65536)).owner = b ∧
          (own = 0 ∨ own ∈ s.chainOf (hd i u % 65536)))
      let bad := (s.actives G i).filter fun u => !good u
      ∃ r, s.Changed r ((s.actives G i).filter good) (fun u T => { T with ctx := hd i u % 65536, ctxGen := s.genOf (hd i u % 65536) }) ∧
        (bad = [] → goes i r) ∧ (bad ≠ [] → raises i r bad)) ∧
    (∀ settle : Bool,
      let i : Instr := if settle then .ctxsettle h a else .ctxvoid h a
      s.Issues g G i →
      (s.actives G i = [] → goes i s) ∧ (settle = true → s.loadsDone (s.actives G i) = false → exec i s = .next s) ∧
      ∀ x, s.actives G i ≠ [] → (settle = true → s.loadsDone (s.actives G i) = true) → (∀ u ∈ s.actives G i, hd i u = x) →
        let tag := x % 65536
        let C := s.ctx tag
        let below : List Nat := if settle then [tag] else s.openBelow tag
        let fits : Prop := tag ≠ 0 ∧ x / 65536 ≠ 0 ∧ C.gen = x / 65536 ∧ C.state = .opened ∧ C.owner = b ∧ C.isBlock = false ∧
          (settle = true → ∀ p ∈ s.ctxs, p.1 ≠ tag → p.2.parent = tag → p.2.state ≠ .opened)
        (¬ fits → raises i s (s.actives G i)) ∧
        (fits → (settle = true ∨ ∀ p ∈ s.engines, ∀ c ∈ p.2, c.ended = none → c.ctx ∉ below) →
          ∃ r u t : State, exec i s = .next t ∧ r.Went u g G h (s.issueClk G i) (G.pc + 8) ∧ t = { u with groups := t.groups } ∧
            (∀ k, k ≠ g → t.groups.find k = s.groups.find k) ∧
            t.groups.find g = some { G.wentTo h (s.issueClk G i) (G.pc + 8) with
              memHold := G.memHold ++ [.retire tag C.gen] } ∧
            r = { s with ctxs := r.ctxs, threads := r.threads } ∧
            (settle = false → ∀ k, r.ctx k = if k ∈ below then { s.ctx k with state := .voiding, held := [] } else s.ctx k) ∧
            (settle = true → r.ctx tag = { C with state := .settling, waitStores := s.nextId, merging := false } ∧
              (C.exposed = false → ∀ k, k ≠ tag → r.ctx k = s.ctx k) ∧
              (C.exposed = true → (C.parent ≠ 0 → (r.ctx C.parent).exposed = true) ∧
                ∀ k, k ≠ tag → r.ctx k = { s.ctx k with exposed := (r.ctx k).exposed })) ∧
            ∀ v, r.thread v = if v ∈ s.actives G i ∧ tag ∈ s.chainOf (s.thread v).ctx ∧ s.genOf (s.thread v).ctx = (s.thread v).ctxGen
              then { s.thread v with ctx := C.parent, ctxGen := s.genOf C.parent } else s.thread v)) ∧
    (s.Issues g G (.ctxq h d a) →
      let i := Instr.ctxq h d a
      ∃ r t : State, exec i s = .next t ∧ r.Went t g G h (s.issueClk G i) (G.pc + 8) ∧ s.Sent r G i 0 fun v =>
        let x := (v.r32 a).toNat
        let C := s.ctx (x % 65536)
        let free := min ((s.partRegs part).pmint - s.liveTags part) 65535
        let cells := (s.cells.filter fun p => p.1 % 65536 == x % 65536).length
        let state : Nat := match C.state with
          | .retired => 0
          | .opened => 1
          | .settling => 2
          | .voiding => 3
        w64 d (BitVec.ofNat 64 (free * 2 ^ 48 +
          if x = 0 then 1
          else if x % 65536 ≠ 0 ∧ x / 65536 ≠ 0 ∧ C.gen = x / 65536 ∧ C.tenant = (s.recOf b).tenant ∧ C.part = part then
            min cells (2 ^ 24 - 1) * 2 ^ 24 + C.parent * 2 ^ 8 + C.depth * 2 ^ 4 + (if C.exposed then 8 else 0) + state
          else 0))) ∧
    (s.Issues g G (.ctxwait h sc d a) →
      let i := Instr.ctxwait h sc d a
      let bad (u : Nat) : Prop := hd i u ≠ 0 ∧ (hd i u % 65536 = 0 ∨ hd i u / 65536 = 0 ∨
        ((s.ctx (hd i u % 65536)).gen = hd i u / 65536 ∧
          ¬ ((s.ctx (hd i u % 65536)).tenant = (s.recOf b).tenant ∧ (s.ctx (hd i u % 65536)).part = part)))
      (s.actives G i = [] → goes i s) ∧
      (s.actives G i ≠ [] → (∀ u ∈ s.actives G i, bad u) → raises i s (s.actives G i)) ∧
      (s.actives G i ≠ [] → (∀ u ∈ s.actives G i, ¬ bad u) →
        ∃ t, exec i s = .next t ∧
          s.Halts t g G h (s.issueClk G i) (.ctxwait sc d (s.kept G i fun v => ((v.r32 a).toNat, 0, 0)))))

/-- R209, R210, R215 to R217, R220, R227, R243: the mint, and the ends of contexts: a settling context merges one line after another, in an order that nothing fixes (R242). -/
def Obligations.ContextEvents : Prop :=
  (∀ (s : State) (part : Nat) (r : MintReq) (rest : List MintReq), s.mintQ.findD part [] = r :: rest →
    let q := { s with mintQ := s.mintQ.store [] part rest }
    ((s.partRegs part).pmint ≤ s.liveTags part → exec (.mintGrant part) s = .next s) ∧
    ∀ tag, s.liveTags part < (s.partRegs part).pmint → s.lowestTag = some tag →
      ((s.ctx tag).state = .retired ∧ ∀ k, 0 < k → k < tag → (s.ctx k).state ≠ .retired) ∧
      (∀ g u us parent sc set pd d origin, r = .open_ g (u :: us) parent sc set pd d origin → s.paired (s.thread u).block = false →
        (∀ v ∈ u :: us, (s.thread v).disp ≠ .exited) →
        ∃ t, exec (.mintGrant part) s = .next t ∧ q.Opened t tag parent sc (s.thread u).block (u / 1024) (u :: us) set pd d origin) ∧
      ∀ l index, r = .block l index →
        ∃ t, exec (.mintGrant part) s = .next t ∧
          t = { q with ctxs := t.ctxs, nextId := s.nextId + 1, blocks := s.blocks.put s.nextId { Block.init with
            launch := l, index := index, ctx := tag, residence := .waiting, waitingSince := s.now } } ∧
          (t.ctx tag).state = .opened ∧ (t.ctx tag).parent = 0 ∧ (t.ctx tag).owner = s.nextId ∧ (t.ctx tag).isBlock = true ∧
          (t.ctx tag).gen = (if (s.ctx tag).gen = 65535 then 1 else (s.ctx tag).gen + 1) ∧ ∀ k, k ≠ tag → t.ctx k = s.ctx k) ∧
  (∀ (s : State) (tag : Nat), s.CanSettle tag → ((s.ctx tag).isBlock = true → (s.recOf (s.ctx tag).owner).dm ≠ 1) →
    ∃ t, exec (.contextSettle tag) s = .next t ∧
      if (s.cellsOf tag).length ≤ 1 then s.Settles t tag else ∃ pline, s.Merges t tag pline) ∧
  (∀ (s : State) (tag n : Nat) (v : DWord), (s.ctx tag).state = .settling → (s.ctx tag).settled = true → (s.ctx tag).isBlock = false →
    (s.ctx tag).parent = 0 → (s.ctx tag).held = [.evsig n v] →
    ∃ t, exec (.contextSettle tag) s = .next t ∧ (t.ctx tag).state = .retired ∧ (∀ pa, t.byte pa = s.byte pa) ∧
      ∀ k, t.counter k = s.counter k + if k = n then v else 0) ∧
  (∀ (s : State) (tag : Nat), (s.ctx tag).state = .voiding → (∀ p ∈ s.ctxs, p.1 ≠ tag → p.2.parent = tag → p.2.state = .retired) →
    (∀ p ∈ s.engines, ∀ c ∈ p.2, c.ctx = tag → c.heldDm1 = true ∨ c.ended ≠ none) →
    exec (.contextVoid tag) s = .next { s with
      cells := s.cells.filter fun p => p.1 % 65536 != tag
      ctxs := s.ctxs.put tag { s.ctx tag with state := .retired, settled := false, held := [] }
      l1 := s.l1.filter fun l => !(l.tag == tag) }) ∧
  (∀ (s : State) (l b : Nat) (B : Block), (s.launch l).lrec.dm = 1 → (s.launches.find l).isSome → (b, B) ∈ s.blocks →
    FMap.sorted s.blocks = true → (∀ p ∈ s.blocks, p.2.launch = l → p.2.index = (s.launch l).head → p.1 = b) →
    B.launch = l → B.index = (s.launch l).head → B.residence = .exited → s.CanSettle B.ctx → (s.cellsOf B.ctx).length ≤ 1 →
    ∃ t r : State, exec (.clearingSettle l) s = .next t ∧ s.Settles r B.ctx ∧ t = { r with launches := t.launches } ∧
      t.launch l = { s.launch l with head := (s.launch l).head + 1 } ∧ ∀ k, k ≠ l → t.launch k = s.launch k) ∧
  ∀ (s : State) (g : Nat) (G : Group) (sc : Scope) (d : Reg) (ls : List LaneSrc), s.groups.find g = some G →
    FMap.sorted s.groups = true → s.paired G.block = false → G.wait = some (.ctxwait sc d ls) → s.loadsDone (ls.map LaneSrc.thread) = true →
    let C (l : LaneSrc) : Ctx := s.ctx (l.a % 65536)
    let named (l : LaneSrc) : Bool := decide (l.a % 65536 ≠ 0 ∧ l.a / 65536 ≠ 0 ∧ (C l).gen = l.a / 65536)
    (∀ l ∈ ls, l.a = 0 ∨ named l = false ∨ (C l).state = .retired) → (∀ q, d ≠ .q q) →
    let status (l : LaneSrc) : Nat := if l.a = 0 then 0 else if !named l then 2 else if (C l).settled then 0 else 1
    let ws := laneResults (ls.map fun l => (l.thread, w32 d (BitVec.ofNat 32 (status l))))
    ∃ r t : State, exec (.ctxwaitReturn g) s = .next t ∧ r.Resumes t g G (G.pc + 8) ∧
      r = { s with l1 := r.l1, nextId := r.nextId, inflight := r.inflight } ∧
      r.l1 = (if sc = .blk then s.l1
        else s.l1.filter fun l => !(l.core == G.core && l.tenant == (s.recOf G.block).tenant)) ∧
      r.inflight = if ws = [] then s.inflight else s.inflight.put s.nextId ⟨G.block, s.nextId, ws, false, s.clk G.core, []⟩
/-- R286, R287, R301, R309: the record words, by the lowest active lane. -/
def Obligations.RecordWords : Prop :=
  ∀ (s : State) (h : Hdr) (fmt : ObFmt) (len : Fin 4) (r : Fin 8) (cb : Fin 240) (a b : Reg) (x : Src) (g : Nat) (G : Group),
    FMap.sorted s.blocks = true → (s.blocks.find G.block).isSome →
    let S := s.bside G.block G.core
    let goes (i : Instr) (q : State) : Prop := ∃ t, exec i s = .next t ∧ q.Went t g G h (s.issueClk G i) (G.pc + 8)
    let raises (i : Instr) (cause : Nat) : Prop :=
      s.Apart g G → ∃ t, exec i s = .next t ∧ s.Stops t g G ((s.actives G i).map fun u => ⟨u, cause, 0, 0⟩) fun _ => G.pc + 8
    let put (R : Record) : State := s.sided G.block G.core fun S => { S with records := S.records.put r.val R }
    let idle (i : Instr) (p : Prop) : Prop :=
      (s.actives G i = [] → goes i s) ∧ (s.actives G i ≠ [] → p)
    let lv (i : Instr) : LV := s.lane G i ((s.actives G i).headD 0)
    let gate (i : Instr) (p : Prop) : Prop :=
      if ∃ m ∈ S.mloops, m.names r.val = true ∧ m.state = .stopped then raises i 16
      else if ∃ m ∈ S.mloops, m.names r.val = true ∧ (m.state = .queued ∨ m.state = .running) then exec i s = .next s
      else p
    (s.Issues g G (.obres h fmt len r a b) →
      let i := Instr.obres h fmt len r a b
      idle i (
        let off := ((lv i).r32 a).toNat
        let size := ((lv i).r32 b).toNat
        if (S.records.find r.val).isSome ∨ s.heldElsewhere G.block G.core (fun S => (S.records.find r.val).isSome) = true ∨
            off % 1024 ≠ 0 ∨ size % 1024 ≠ 0 ∨ size < 4096 ∨ (s.recOf G.block).obquota < off + size ∨
            ∃ q ∈ S.records, q.2.off < off + size ∧ off < q.2.off + q.2.size then raises i 16
        else goes i (put ⟨false, none, fmt, len.val, 0, size, off, 0⟩))) ∧
    (s.Issues g G (.obset h r x) →
      let i := Instr.obset h r x
      idle i (match S.records.find r.val with
        | none => raises i 16
        | some R => gate i (
            let n := ((lv i).s32 x).toInt
            if n < -64 ∨ 63 < n ∨ (n ≠ 0 ∧ R.fmt = .bf16) then raises i 17 else goes i (put { R with scaleOff := n })))) ∧
    (s.Issues g G (.obfree h r) →
      let i := Instr.obfree h r
      idle i (match S.records.find r.val with
        | none => goes i s
        | some R => gate i (
            let q0 := s.sided G.block G.core fun S => { S with records := S.records.del r.val }
            let rg := R.range (s.block G.block) G.core
            ∃ q, goes i q ∧ q = { q0 with mem := q.mem, obDirty := q.obDirty } ∧
              ∀ pa, q.byte pa = if R.keyed.isSome ∧ rg.1 ≤ pa ∧ pa < rg.1 + rg.2 then 0 else s.byte pa))) ∧
    (s.Issues g G (.cbld h r cb) →
      let i := Instr.cbld h r cb
      idle i (match S.records.find r.val with
        | none => raises i 16
        | some R => gate i (
            if R.fmt = .bf16 then raises i 17
            else ∃ book : BitVec 256, (∀ k, k < 8 → book.extractLsb' (32 * k) 32 = (lv i).rv (cb.val + k)) ∧
              goes i (put { R with cbLoaded := true, codebook := book })))) ∧
    (s.Issues g G (.keybind h r a) →
      let i := Instr.keybind h r a
      idle i (
        let w := (lv i).r32 a
        let slot := (w.extractLsb' 0 6).toNat
        let mine : Prop := ∃ k, s.sec.keys.find slot = some k ∧ k.world = (s.recOf G.block).world ∧ k.tenant = (s.recOf G.block).tenant
        if w.getLsbD 31 = false ∧ ¬ mine then raises i 3
        else match S.records.find r.val with
          | none => raises i 16
          | some R => gate i (
              if w.getLsbD 31 = false then goes i (put { R with keyed := some slot })
              else
                let rg := R.range (s.block G.block) G.core
                ∃ q, goes i q ∧ q = { put { R with keyed := none } with mem := q.mem, obDirty := q.obDirty } ∧
                  ∀ pa, q.byte pa = if R.keyed.isSome ∧ rg.1 ≤ pa ∧ pa < rg.1 + rg.2 then 0 else s.byte pa)))

/-- R285, R292, R294, R299, R302 to R309: the words that queue an MLOOP, wait for it and read its progress, and the tile words. A whole-tile
word keeps the tile's elements, +0 for a tile that the block does not hold yet, and claims nothing before it has passed its checks. -/
def Obligations.MatrixWords : Prop :=
  ∀ (s : State) (h : Hdr) (fmt : MoutFmt) (tl r : Fin 8) (desc : Fin 240) (d a b : Reg) (x : Src) (g : Nat) (G : Group),
    FMap.sorted s.blocks = true → (s.blocks.find G.block).isSome → s.paired G.block = false →
    let blk := G.block
    let core := G.core
    let S := s.bside blk core
    let q := s.mqueue.findD core []
    let goes (i : Instr) (q : State) : Prop := ∃ t, exec i s = .next t ∧ q.Went t g G h (s.issueClk G i) (G.pc + 8)
    let stays (i : Instr) : Prop := exec i s = .next s
    let raisesAt (i : Instr) (cause addr sub : Nat) (q : State) : Prop :=
      s.Apart g G → ∃ t, exec i s = .next t ∧ q.Stops t g G ((s.actives G i).map fun u => ⟨u, cause, addr, sub⟩) fun _ => G.pc + 8
    let raises (i : Instr) (cause : Nat) : Prop := raisesAt i cause 0 0 s
    let idle (i : Instr) (p : Prop) : Prop := (s.actives G i = [] → goes i s) ∧ (s.actives G i ≠ [] → p)
    let shape (i : Instr) (p : Prop) : Prop := idle i (
      let l := (s.actives G i).headD 0
      if (s.thread l).pinned = false ∨ ∃ v ∈ s.pinnedOf blk core (s.thread l).pgrp, v ∉ G.lanes then raises i 15
      else (¬ s.wholeGroup G i → raises i 14) ∧ (s.wholeGroup G i → p))
    let lane (i : Instr) : Nat := (s.actives G i).headD 0
    let lv (i : Instr) : LV := s.lane G i (lane i)
    let held (t : Nat) : Prop := s.tileHeld blk core t = true
    let busy (t : Nat) : Prop := s.tileBusy blk core t = true
    (s.Issues g G (.mloop h d desc) →
      let i := Instr.mloop h d desc
      shape i (
        let dw : List DWord := (List.range 8).map fun j => (lv i).rv (desc.val + 2 * j + 1) ++ (lv i).rv (desc.val + 2 * j)
        let d4 := (dw.getD 4 0).toNat
        let steps := d4 % 2 ^ 24
        let ra := d4 / 2 ^ 24 % 8
        let rb := d4 / 2 ^ 28 % 8
        let t := d4 / 2 ^ 32 % 8
        let A := S.records.findD ra Record.init
        let B := S.records.findD rb Record.init
        let base (k : Nat) : Nat := (dw.getD k 0).toNat
        let word (j k : Nat) : Nat := (dw.getD j 0).toNat / 2 ^ (32 * k) % 2 ^ 32
        let c4Bad (R : Record) : Prop := R.fmt ≠ .bf16 ∧ (R.cbLoaded = false ∨ steps % (R.lk / 4) ≠ 0)
        let odd (R : Record) (k : Nat) : Prop :=
          R.fmt = .bf16 ∧ (base k % 2 ≠ 0 ∨ word 2 k % 2 ≠ 0 ∨ word 3 k % 2 ≠ 0)
        let tok := if (S.token + 1) % 2 ^ 32 = 0 then 1 else (S.token + 1) % 2 ^ 32
        if S.records.find ra = none ∨ S.records.find rb = none ∨ ra = rb then raises i 16
        else if held t then raises i 18
        else if d4 / 2 ^ 27 % 2 ≠ 0 ∨ d4 / 2 ^ 31 % 2 ≠ 0 ∨ d4 / 2 ^ 35 % 2 ≠ 0 ∨ d4 / 2 ^ 37 ≠ 0 ∨ base 5 ≠ 0 ∨ base 6 ≠ 0 ∨
            base 7 ≠ 0 ∨ steps = 0 then raises i 17
        else if c4Bad A ∨ c4Bad B then raises i 17
        else if odd A 0 then raisesAt i 6 (base 0) 0 s
        else if odd B 1 then raisesAt i 6 (base 1) 0 s
        else if 2 ^ 52 ≤ base 0 then raisesAt i 7 (base 0) 0 s
        else if 2 ^ 52 ≤ base 1 then raisesAt i 7 (base 1) 0 s
        else if Config.transEnd ≤ base 0 then raisesAt i 11 (base 0) 0 s
        else if Config.transEnd ≤ base 1 then raisesAt i 11 (base 1) 0 s
        else if s.loopsFull core = true ∨ busy t then stays i
        else
          let m : MLoop := ⟨tok, dw, A, B, .queued, 0, 0, [], none, false, lane i, (s.thread (lane i)).ctx, false, s.nextId⟩
          let q1 := (s.claimed blk core t).sided blk core fun S => { S with token := tok, mloops := S.mloops ++ [m] }
          goes i (State.awaiting { q1 with nextId := s.nextId + 1, mqueue := s.mqueue.put core (q ++ [(blk, tok)]) } blk (s.issueClk G i) false
            ((s.actives G i).map fun u => (u, w32 d (BitVec.ofNat 32 tok)))))) ∧
    (s.Issues g G (.mwait h a) →
      let i := Instr.mwait h a
      idle i (
        let t := ((lv i).r32 a).toNat
        let far (m : MLoop) : Nat := (t + 2 ^ 32 - m.token) % 2 ^ 32
        let cov (m : MLoop) : Prop := m ∈ S.mloops ∧ t ≠ 0 ∧ far m < 2 ^ 31
        let change (n : Nat) (f : MLoop → MLoop) : State :=
          s.sided blk core fun S => { S with mloops := S.mloops.map fun m => if m.token = n ∧ m.state ≠ .ended then f m else m }
        let due (m : MLoop) : Prop := cov m ∧ m.state = .stopped ∧ m.fault ≠ none ∧ m.reported = false
        (∀ m c, due m → (∀ n, due n → n = m ∨ far n < far m) → m.fault = some c →
          raisesAt i c.cause c.addr c.sub (change m.token fun m => { m with reported := true })) ∧
        (∀ m, (∀ n, ¬ due n) → cov m → m.state = .stopped → (∀ n, cov n → n.state = .stopped → n = m ∨ far n < far m) →
          if s.loopsFull core = true then stays i
          else
            let key (r : Nat) (R : Record) : Record := { R with keyed := (S.records.find r).bind Record.keyed }
            let q1 := change m.token fun m => { m with
              state := .queued, fault := none, reported := false, recA := key m.ra m.recA, recB := key m.rb m.recB }
            exec i s = .next { q1 with mqueue := s.mqueue.put core (q ++ [(blk, m.token)]) }) ∧
        ((∀ m, cov m → m.state ≠ .stopped) → (∃ m, cov m ∧ (m.state = .queued ∨ m.state = .running)) → stays i) ∧
        ((∀ m, cov m → m.state = .ended) → goes i (s.sided blk core fun S =>
          { S with mloops := S.mloops.filter fun m => !decide (t ≠ 0 ∧ far m < 2 ^ 31) })))) ∧
    (s.Issues g G (.mprog h d a) →
      let i := Instr.mprog h d a
      let t := ((lv i).r32 a).toNat
      let val : Nat := match S.mloops.find? fun m => m.token == t && m.state != .ended with
        | none => 0
        | some m => (match m.state with
            | .ended => 0
            | .queued => 1
            | .running => 2
            | .stopped => 3) * 2 ^ 62 + (m.desc.getD 4 0).toNat / 2 ^ 32 % 8 * 2 ^ 59 + m.rows * 2 ^ 48 + m.s
      s.actives G i ≠ [] →
        ∃ q t : State, exec i s = .next t ∧ q.Went t g G h (s.issueClk G i) (G.pc + 8) ∧
          s.Sent q G i 0 fun _ => w64 d (BitVec.ofNat 64 val)) ∧
    (s.Issues g G (.mzero h tl) →
      let i := Instr.mzero h tl
      idle i (
        if held tl.val then raises i 18 else if busy tl.val then stays i
        else
          let spoil (m : MLoop) : MLoop :=
            if (m.desc.getD 4 0).toNat / 2 ^ 32 % 8 = tl.val ∧ m.state ≠ .ended then { m with spoiled := true } else m
          let q1 := (s.claimed blk core tl.val).sided blk core fun S => { S with mloops := S.mloops.map spoil }
          ∃ q, goes i q ∧ q = { q1 with mem := q.mem } ∧
            ∀ pa, q.byte pa = if tilePa core (0x4000 * s.tileOf blk tl.val) ≤ pa ∧ pa < tilePa core (0x4000 * s.tileOf blk tl.val) + 0x4000
              then 0 else s.byte pa)) ∧
    (s.Issues g G (.mrd h d tl x) →
      let i := Instr.mrd h d tl x
      idle i (
        if held tl.val then raises i 18 else if busy tl.val then stays i
        else
          let q0 := s.claimed blk core tl.val
          ∃ (q t : State) (f : LV → Word), exec i s = .next t ∧ q0.Sent q G i 0 (fun v => w32 d (f v)) ∧
            q.Went t g G h (s.issueClk G i) (G.pc + 8) ∧
            (s.tileKnown blk core tl.val → ∀ u ∈ s.actives G i, f (q0.lane G i u) =
              BitVec.ofNat 32 (q0.element blk core tl.val (((s.lane G i u).s32 x).toNat % 4096))))) ∧
    ∀ st ld : Bool,
      let i : Instr := if ld then .accld h tl a x else if st then .accst h tl a x else .mout h fmt tl r a b
      s.Issues g G i →
      shape i (
        let base := ((lv i).r64 a).toNat
        let stride := (if ld || st then (lv i).s32 x else (lv i).r32 b).toNat
        let al := if ld || st then 4 else if fmt = .c4e8 then 1 else 2
        let coded : Prop := ld = false ∧ st = false ∧ fmt = .c4e8
        if coded ∧ S.records.find r.val = none then raises i 16
        else if held tl.val then raises i 18
        else if coded ∧ ((S.records.findD r.val Record.init).cbLoaded = false) then raises i 17
        else if base % al ≠ 0 ∨ stride % al ≠ 0 then raisesAt i 6 (base % 2 ^ 52) 0 s
        else if busy tl.val then stays i
        else
          let q0 := s.claimed blk core tl.val
          let l := lane i
          ∃ data n, let ls := (s.actives G i).map fun u =>
              (⟨u, (s.thread l).ctx, !s.threadOpen (s.thread l), base, stride, data, n, (s.thread l).ctxGen⟩ : LaneSrc)
            (if s.lineConflict i ls = true then stays i else ∃ q1, s.Logged q1 G i ls ∧ goes i q1) ∧
            (s.tileKnown blk core tl.val → ∀ e, e < 4096 →
              let y := q0.element blk core tl.val e
              (ld = false → st = true → data / 2 ^ (32 * e) % 2 ^ 32 = y) ∧
              (ld = false → st = false → fmt = .bf16 → data / 2 ^ (16 * e) % 2 ^ 16 = (bf16.ofVal .rn (fp32.unpack y)).bits) ∧
              (ld = false → st = false → fmt = .f16 → data / 2 ^ (16 * e) % 2 ^ 16 = (fp16.ofVal .rn (fp32.unpack y)).bits) ∧
              (coded → e % 4 = 0 → data / 2 ^ (6 * e) % 2 ^ 24 =
                blockOf ((List.range 4).map fun k => q0.element blk core tl.val (e + k)) (S.records.findD r.val Record.init).codebook)))
/-- R290, R292 to R296: the start, the end and the stop of an MLOOP. Each step reads the units that row by row were fetched for it, and adds
the rounded sum of its four products to each element. -/
def Obligations.MatrixEvents : Prop :=
  (∀ (s : State) (core b t : Nat) (rest : List (Nat × Nat)) (m : MLoop), FMap.sorted s.blocks = true → (s.blocks.find b).isSome →
    s.mqueue.findD core [] = (b, t) :: rest → m ∈ (s.bside b core).mloops → m.token = t → m.state = .queued →
    (∀ n ∈ (s.bside b core).mloops, n.token = t → n = m) →
    let put (x : MState) : State :=
      s.sided b core fun S => { S with mloops := S.mloops.map fun n => if n.token = t then { n with state := x } else n }
    let blocked : Prop := ∃ x ∈ (s.bside b core).mloops, x.state = .stopped ∧ x.since < m.since ∧
      (x.tile = m.tile ∨ x.names m.ra = true ∨ x.names m.rb = true)
    (s.acknowledged b m.since = false → exec (.mloopStart core) s = .next s) ∧
    (s.acknowledged b m.since = true → ¬ blocked → exec (.mloopStart core) s = .next (put .running)) ∧
    (s.acknowledged b m.since = true → blocked → exec (.mloopStart core) s = .next (State.refillLoops { put .stopped with
      mqueue := s.mqueue.store [] core (((b, t) :: rest).filter fun p => p != (b, t)) } core))) ∧
  (∀ (s : State) (core b : Nat) (m : MLoop) (tile : List Nat) (u : State), FMap.sorted s.blocks = true → (s.blocks.find b).isSome →
    s.runLoop core = some (b, m, .ended tile, u) →
    (∃ U : Nat → Nat → Nat,
      tile = (List.range (m.steps - m.s)).foldl (fun T k => (List.range 4096).map fun i =>
          stepElem (T.getD i 0) (m.recA.quad (U (m.s + k) (i / 64)) (m.s + k)) (m.recB.quad (U (m.s + k) (64 + i % 64)) (m.s + k)))
        (if m.zeroFirst ∧ m.s = 0 then List.replicate 4096 0 else (List.range 4096).map (s.element b core m.tile)) ∧
      ∀ k r, m.s ≤ k → k < m.steps → r < 128 →
        if (k = m.s ∧ m.rows ≤ r ∧ (m.kept.length ≤ r ∨ 4 * k % (m.rec_ (r / 64)).lk = 0)) ∨ (m.s < k ∧ 4 * k % (m.rec_ (r / 64)).lk = 0) then
          ∃ v w : State, v = { s with tlb := v.tlb } ∧ v.fetchUnit (s.loopAcc b core m) none m (s.loopKey m (r / 64)) (r / 64) (r % 64)
            (4 * k / (m.rec_ (r / 64)).lk) = (.unit (U k r), w)
        else U k r = if k = m.s then m.kept.getD r 0 else U (k - 1) r) ∧
    ∃ t : State, exec (.mloopEnd core) s = .next t ∧
      t = { s with tlb := t.tlb, mem := t.mem, obDirty := t.obDirty, blocks := t.blocks, mqueue := t.mqueue, freeCtr := s.freeCtr + 1 } ∧
      t.mqueue = (State.refillLoops { s with
        blocks := t.blocks
        mqueue := s.mqueue.store [] core ((s.mqueue.findD core []).filter fun p => p != (b, m.token)) } core).mqueue ∧
      t.blocks = (s.sided b core fun S => { S with mloops := S.mloops.map fun n => if n.token = m.token ∧ n.state ≠ .ended then
        { n with state := .ended, s := n.steps, rows := 128, kept := [] } else n }).blocks ∧
      (m.spoiled = false → ∀ i, i < 4096 → t.element b core m.tile i = tile.getD i 0) ∧
      ∀ x, x < tilePa core (0x4000 * s.tileOf b m.tile) ∨ tilePa core (0x4000 * s.tileOf b m.tile) + 0x4000 ≤ x → t.byte x = s.byte x) ∧
  (∀ (c : Nat) (a b : Quad), a.nan = false → b.nan = false → a.xs.length = 4 → b.xs.length = 4 →
    (∀ x ∈ a.xs, x.isFin = true) → (∀ x ∈ b.xs, x.isFin = true) →
    let P : ℚ := ((a.xs.zip b.xs).map fun p => p.1.rat * p.2.rat).sum * (2 : ℚ) ^ (a.scale + b.scale)
    let x := quadSum a b
    (P ≠ 0 → fp32.Rounded .rn P x) ∧
    ((fp32.unpack c).isFin = true → (fp32.unpack x).isFin = true →
      (fp32.unpack c).rat + (fp32.unpack x).rat ≠ 0 → fp32.Rounded .rn ((fp32.unpack c).rat + (fp32.unpack x).rat) (stepElem c a b))) ∧
  ∀ (s : State) (core b : Nat) (m d : MLoop) (tile : List Nat) (u : State), FMap.sorted s.blocks = true → (s.blocks.find b).isSome →
    s.runLoop core = some (b, m, .stopped d tile, u) →
    d.rows < 128 ∧ m.s ≤ d.s ∧ d.s < m.steps ∧ d.kept.length = d.rows ∧ (∃ c, d.fault = some c ∧ c.thread = m.thread) ∧
    ∃ t : State, exec (.mloopFetchFault core) s = .next t ∧
      t = { s with tlb := t.tlb, mem := t.mem, obDirty := t.obDirty, blocks := t.blocks, mqueue := t.mqueue, freeCtr := t.freeCtr } ∧
      t.mqueue = (State.refillLoops { s with
        blocks := t.blocks
        mqueue := s.mqueue.store [] core ((s.mqueue.findD core []).filter fun p => p != (b, m.token)) } core).mqueue ∧
      t.blocks = (s.sided b core fun S => { S with mloops := S.mloops.map fun n => if n.token = m.token ∧ n.state ≠ .ended then
        { d with state := .stopped, reported := false } else n }).blocks ∧
      (d.s = m.s → m.spoiled = false → t.mem = s.mem) ∧
      (d.s ≠ m.s → m.spoiled = false → ∀ i, i < 4096 → t.element b core m.tile i = tile.getD i 0) ∧
      ∀ x, x < tilePa core (0x4000 * s.tileOf b m.tile) ∨ tilePa core (0x4000 * s.tileOf b m.tile) + 0x4000 ≤ x → t.byte x = s.byte x

/-- R135 to R140, R150 to R153, R275 to R283: PUSH as it issues, the queue-register words, and the bank words. -/
def Obligations.QueueAndBankWords : Prop :=
  ∀ (s : State) (h : Hdr) (pd : Fin 8) (kind : EngKind) (cmd : Fin 240) (q : Fin 8) (bd : QBinding) (off : Bool) (mask : Fin 16) (d : Reg)
    (x : Src) (g : Nat) (G : Group), FMap.sorted s.blocks = true → FMap.sorted s.threads = true → s.paired G.block = false →
    let blk := G.block
    let core := G.core
    let S := s.bside blk core
    let Q := S.queues.getD q.val QReg.init
    let goes (i : Instr) (r : State) : Prop := ∃ t, exec i s = .next t ∧ r.Went t g G h (s.issueClk G i) (G.pc + 8)
    let raises (i : Instr) (r : State) (cs : List LaneCause) : Prop :=
      s.Apart g G → ∃ t, exec i s = .next t ∧ r.Stops t g G cs fun _ => G.pc + 8
    let takes (kind : EngKind) (f : Nat → Nat) : Prop := match kind with
      | .cgs => f 0 % 2 ^ 8 = 4 ∧ f 2 % 8 = q.val
      | .vox => f 0 / 2 ^ 8 % 2 = 1 ∧ f 3 % 8 = q.val
      | _ => False
    let consumed : Prop :=
      (∃ p ∈ s.engines, ∃ c ∈ p.2, c.block = blk ∧ c.ended = none ∧ takes c.kind (dwAt c.dwords) ∧ c.next < dwAt c.dwords 5 % 2 ^ 32) ∨
      ∃ p ∈ s.opLog, p.2.block = blk ∧ p.2.dormant = false ∧ ∃ h' pd' k c', p.2.instr = .push h' pd' k c' ∧ ∃ l ∈ p.2.lanes,
        l.thread ∉ p.2.queued ∧ takes k (fun j => l.a / 2 ^ (64 * j) % 2 ^ 64) ∧ l.a / 2 ^ 352 % 2 ^ 32 < l.a / 2 ^ 320 % 2 ^ 32
    (s.Issues g G (.push h pd kind cmd) →
      let i := Instr.push h pd kind cmd
      let cause (u : Nat) : Option Nat :=
        let ds := (s.lane G i u).command cmd
        let bind (k : Nat) : QBinding := (S.queues.getD k QReg.init).binding
        if kind = .sec ∧ (s.recOf blk).world ≠ 0 then some 3
        else if s.serving (s.partOf blk) kind = [] ∨ headerOk ds = false ∨ fieldsOk kind ds = false then some 23
        else if toMemory ds = false ∧ bind (receiptQ ds) ≠ .none then some 22
        else if isStream kind ds = true ∧ bind (streamQ kind ds) ≠ (if kind = .cgs then .cgs else .vox) then some 22
        else if (s.recOf blk).dm = 1 ∧ (toMemory ds = false ∨ isStream kind ds = true) then some 21
        else if fixedInWindow kind ds = true then some 11
        else if s.threadOpen (s.thread u) = false then some 19
        else none
      let cs : List LaneCause := (s.actives G i).filterMap fun u => (cause u).map fun c => ⟨u, c, 0, 0⟩
      let ok := (s.actives G i).filter fun u => (cause u).isNone
      let ls : List LaneSrc := ok.map fun u => ⟨u, (s.thread u).ctx, !s.threadOpen (s.thread u),
        ((List.range 8).map fun j => (((s.lane G i u).command cmd).getD j 0).toNat * 2 ^ (64 * j)).sum, 0, 0, 0, (s.thread u).ctxGen⟩
      ∃ r, s.Logged r G i ls ∧ (cs = [] → goes i r) ∧ (cs ≠ [] → raises i r cs)) ∧
    (s.Issues g G (.qbind h q bd) →
      let i := Instr.qbind h q bd
      if s.actives G i = [] ∨ Q.binding = bd then goes i s
      else
        (Q.entries ≠ [] ∨ Q.reserved ≠ 0 ∨ consumed → raises i s ((s.actives G i).map fun u => ⟨u, 22, 0, 0⟩)) ∧
        (¬ (Q.entries ≠ [] ∨ Q.reserved ≠ 0 ∨ consumed) →
          goes i (s.sided blk core fun S => { S with queues := listSet S.queues q.val { Q with binding := bd } }))) ∧
    (s.Issues g G (.qpeek h d q x) →
      let i := Instr.qpeek h d q x
      ∃ r t : State, exec i s = .next t ∧ s.Wrote r G i 4 (fun v => w64 d (Q.entries.getD (v.u32 x).toNat (BitVec.allOnes 64))) ∧
        r.Went t g G h (s.issueClk G i) (G.pc + 8)) ∧
    (s.Issues g G (.qcnt h d q) →
      let i := Instr.qcnt h d q
      let n := Q.entries.length + Q.reserved * 2 ^ 8 + (match Q.binding with
        | .none => 0
        | .cgs => 1
        | .vox => 2) * 2 ^ 16
      ∃ r t : State, exec i s = .next t ∧ s.Wrote r G i 4 (fun _ => w32 d (BitVec.ofNat 32 n)) ∧
        r.Went t g G h (s.issueClk G i) (G.pc + 8)) ∧
    (s.Issues g G (.qdrain h d q) →
      let i := Instr.qdrain h d q
      if s.actives G i = [] then goes i s
      else
        (Q.binding ≠ .none → consumed → raises i s ((s.actives G i).map fun u => ⟨u, 22, 0, 0⟩)) ∧
        (Q.binding = .none → Q.reserved ≠ 0 → exec i s = .next s) ∧
        ((Q.binding = .none ∧ Q.reserved = 0) ∨ (Q.binding ≠ .none ∧ ¬ consumed) →
          let q0 := s.sided blk core fun S => { S with queues := listSet S.queues q.val { Q with entries := [] } }
          ∃ r, q0.Sent r G i 0 (fun _ => w32 d (BitVec.ofNat 32 Q.entries.length)) ∧ goes i r)) ∧
    (s.Issues g G (.bkqry h d) →
      let i := Instr.bkqry h d
      let code (x : QState) : Nat := match x with
        | .full => 0
        | .ret => 1
        | .off => 2
      ∃ (r t : State) (f : Nat → DWord), exec i s = .next t ∧ s.Wrote r G i 4 (fun v => w64 d (f v.t)) ∧
        r.Went t g G h (s.issueClk G i) (G.pc + 8) ∧ ∀ u ∈ s.actives G i,
          (∀ k, k < 4 → ((f u).extractLsb' (2 * k) 2).toNat = code ((s.thread u).quarter k) ∧
            ((f u).extractLsb' (8 + 2 * k) 2).toNat = code (s.bankState (u / 256) k u)) ∧
          ∀ k, k < 16 → ((f u).extractLsb' (16 + 2 * k) 2).toNat =
            if s.quarterOwner (u / 1024) (k / 4) = some (s.recOf (s.thread u).block).tenant then code (s.spadBank (u / 1024) k) else 3) ∧
    (s.Issues g G (.bkwake h mask) → (∀ u ∈ G.lanes, (s.thread u).quarters.length = 4) →
      let i := Instr.bkwake h mask
      ∃ r, goes i r ∧ r = { s with threads := r.threads } ∧ (∀ u, u ∉ s.actives G i → r.thread u = s.thread u) ∧
        ∀ u ∈ s.actives G i, (r.thread u = { s.thread u with
            quarters := (r.thread u).quarters, regs := (r.thread u).regs, wakes := (r.thread u).wakes }) ∧
          (∀ n, (r.thread u).reg n = (s.thread u).reg n) ∧
          ∀ k, k < 4 →
            (mask.val.testBit k = false ∨ (s.thread u).quarter k = .full →
              (r.thread u).quarter k = (s.thread u).quarter k ∧ (r.thread u).wakes.find k = (s.thread u).wakes.find k) ∧
            (mask.val.testBit k = true → (s.thread u).quarter k ≠ .full → (r.thread u).quarter k = .full ∧
              ((∀ v ∈ s.actives G i, (s.thread v).lowered = []) →
                (s.bankState (u / 256) k u = .ret → (r.thread u).wakes.find k = some (s.clk (u / 1024) + 8)) ∧
                (s.bankState (u / 256) k u = .off → (r.thread u).wakes.find k = some (s.clk (u / 1024) + 24))) ∧
              ((∃ v, v / 256 = u / 256 ∧ (s.threads.find v).isSome ∧ (s.thread v).disp ≠ .exited ∧ (s.thread v).quarter k = .full ∧
                (s.thread v).lowered.find k = none ∧ (s.thread v).wakes.find k = none) → (r.thread u).wakes.find k = (s.thread u).wakes.find k))) ∧
    (s.Issues g G (.bkdrop h off mask) → (∀ u ∈ G.lanes, (s.thread u).quarters.length = 4) →
      let i := Instr.bkdrop h off mask
      ∃ r, goes i r ∧ r = { s with threads := r.threads } ∧ (∀ u, u ∉ s.actives G i → r.thread u = s.thread u) ∧
        ∀ u ∈ s.actives G i, (r.thread u = { s.thread u with
            quarters := (r.thread u).quarters, regs := (r.thread u).regs, wakes := (r.thread u).wakes, lost := (r.thread u).lost
            lowered := (r.thread u).lowered }) ∧
          (∀ k, k < 4 → (r.thread u).quarter k =
            if mask.val.testBit k = false ∨ (s.thread u).quarter k = .off then (s.thread u).quarter k
            else if off then .off else .ret) ∧
          ∀ n, n < 256 → (r.thread u).reg n = if off = true ∧ mask.val.testBit (n / 64) = true then 0 else (s.thread u).reg n) ∧
    ∀ drop : Bool,
      let i : Instr := if drop then .spdrop h d x else .spwake h d x
      s.Issues g G i →
      let y (u : Nat) : Nat := ((s.lane G i u).s32 x).toNat
      let status (u : Nat) : Nat :=
        if 32 ≤ y u ∨ (drop = false ∧ (y u).testBit 4 = true) then 3
        else if s.quarterOwner core (y u % 16 / 4) ≠ some (s.recOf blk).tenant then 2
        else if drop = true ∧ s.bankShared blk core (y u % 16) = true then 1 else 0
      let asks (k u : Nat) : Bool := status u == 0 && y u % 16 == k
      let want (k : Nat) : Option QState := (((s.actives G i).filter (asks k)).head?).map fun u =>
        if drop then (if (y u).testBit 4 then .off else .ret) else .full
      let goal (k : Nat) : Option QState := (want k).map fun x => if drop = true ∧ s.spadBank core k = .off then .off else x
      let late (k : Nat) : Prop := drop = true ∧ (want k).isSome ∧ s.spadBusy blk core k s.nextId = true
      let waits : Prop := (∃ k, k < 16 ∧ (want k).isSome ∧ s.dropPending blk core k s.nextId = true) ∨
        ((∃ q, d = .q q) ∧ ∃ k, k < 16 ∧ late k)
      (waits → exec i s = .next s) ∧
      (¬ waits →
        ∃ (q r t : State) (lat : Nat) (drops : List (Nat × QState)), exec i s = .next t ∧ r.Went t g G h (s.issueClk G i) (G.pc + 8) ∧
          q = { s with mem := q.mem, spadBanks := q.spadBanks, spadWakes := q.spadWakes } ∧
          (drops = [] → q.Sent r G i lat (fun v => w32 d (BitVec.ofNat 32 (status v.t)))) ∧
          (drops ≠ [] → State.OnlySides blk { q with
            nextId := s.nextId + 1
            inflight := s.inflight.put s.nextId ⟨blk, s.nextId, laneResults ((s.actives G i).map fun u =>
              (u, w32 d (BitVec.ofNat 32 (status u)))), false, s.issueClk G i + lat, drops⟩ } r) ∧
          (∀ k x, k < 16 → ((16 * core + k, x) ∈ drops ↔ late k ∧ want k = some x)) ∧
          (∀ k, k < 16 → late k → q.spadBank core k = s.spadBank core k) ∧
          (∀ k, k < 16 → ¬ late k → q.spadBank core k = (goal k).getD (s.spadBank core k)) ∧
          (∀ k, k < 16 → goal k = some .full → s.spadBank core k ≠ .full →
            let c := s.clk core + if s.spadBank core k = .ret then 16 else 64
            q.spadWakes.find (16 * core + k) = some c ∧ c ≤ s.issueClk G i + lat) ∧
          ∀ pa, (∃ k, k < 16 ∧ ¬ late k ∧ goal k = some .off ∧ s.spadBank core k ≠ .off ∧ spadPa core (0x20000 * k) ≤ pa ∧
              pa < spadPa core (0x20000 * k) + 0x20000) ∧ q.byte pa = 0 ∨
            (∀ k, k < 16 → ¬ late k → goal k = some .off → s.spadBank core k ≠ .off → pa < spadPa core (0x20000 * k) ∨
              spadPa core (0x20000 * k) + 0x20000 ≤ pa) ∧ q.byte pa = s.byte pa)
/-- R259 to R265, R278: a command enters the engine queue with most room or its lane is refused; it is accepted when the lines that it will
write are free and its thread's earlier commands are accepted; its receipt is posted when it has ended, to memory under the translation
taken at acceptance (R267). -/
def Obligations.EngineQueues : Prop :=
  (∀ (s : State) (id : Nat) (e : LogEntry) (h : Hdr) (pd : Fin 8) (kind : EngKind) (cmd : Fin 240) (l : LaneSrc),
    s.Live id e → e.instr = .push h pd kind cmd → e.lanes = [l] → e.queued = [] → s.ctxGone l.ctx l.gen = false →
    s.storesBefore e.block e.age = true → s.loadsBefore [l.thread] e.age = true →
    (∀ p ∈ s.opLog, p.2.age < e.age → ∀ m ∈ p.2.lanes, m.thread ≠ l.thread) → (s.recOf e.block).dm ≠ 1 →
    let ds := dwordsOf (leBytes l.a 64) 8
    let Q := s.leadQ e.block (receiptQ ds)
    let part := s.partOf e.block
    let room : Prop := toMemory ds = true ∨ Q.entries.length + Q.reserved + 2 ≤ 64
    (room → (∃ n ∈ s.serving part kind, (s.engQ n).length < 8) →
      ∃ (t : State) (n : Nat) (c : EngCmd), exec (.operandLogEntryFreed id) s = .next t ∧ n ∈ s.serving part kind ∧
        (∀ m ∈ s.serving part kind, (s.engQ n).length < (s.engQ m).length ∨ (s.engQ n).length = (s.engQ m).length ∧ n ≤ m) ∧
        t.engQ n = s.engQ n ++ [c] ∧
        (∀ m, m ≠ n → t.engQ m = s.engQ m) ∧ (c.kind = kind ∧ c.dwords = ds ∧ c.thread = l.thread ∧ c.block = e.block ∧ c.ctx = l.ctx ∧
          c.entry = id ∧ c.accepted = false ∧ c.ended = none) ∧
        t.opLog.find id = some { e with queued := [l.thread] } ∧ t.mem = s.mem ∧
        ((s.blocks.find e.block).isSome → receiptQ ds < (s.block e.block).lead.queues.length → toMemory ds = false →
          t.leadQ e.block (receiptQ ds) = { Q with reserved := Q.reserved + 2 })) ∧
    (¬ room ∨ (∀ n ∈ s.serving part kind, 8 ≤ (s.engQ n).length) →
      ∃ t, exec (.operandLogEntryFreed id) s = .next t ∧ t.engines = s.engines ∧ t.opLog = s.opLog.del id ∧
        t.inflight = s.inflight.put s.nextId ⟨e.block, e.age, [⟨l.thread, .pred pd.val, 0⟩], false, s.clk (e.seq / 4), []⟩)) ∧
  (∀ (s : State) (inst : Nat) (c : EngCmd), (s.engQ inst).find? (fun x => !x.accepted && x.ended.isNone) = some c →
    s.pushedBefore c = false → c.heldDm1 = false →
    (∀ maps owned, s.acceptance c = .takes maps owned →
      let free : Prop := ∀ p ∈ s.engines, ∀ o ∈ p.2, o.id ≠ c.id → o.accepted = true → o.ended = none →
        ∀ a ∈ o.owned, ∀ r ∈ owned, ¬ (r.1 < a.1 + a.2 ∧ a.1 < r.1 + r.2)
      (¬ free → exec (.engineAccept inst) s = .next s) ∧
      (free → ∃ (t : State) (c' : EngCmd), exec (.engineAccept inst) s = .next t ∧
        c' ∈ t.engQ inst ∧ c' = { c with accepted := true, owned := owned, maps := c'.maps, accNo := s.nextId } ∧
        (∀ k x, (k, x) ∈ maps → (c'.maps.find k).isSome) ∧ t.mem = s.mem ∧
        (t.l1 = s.l1.filter fun l => !owned.any fun r => decide (r.1 ≤ l.pline ∧ l.pline < r.1 + r.2)) ∧
        ∀ e, s.opLog.find c.entry = some e → s.paired e.block = false →
          t.inflight = (s.inflight.put (s.nextId + 1) ⟨e.block, e.age, [⟨c.thread, .pred (pushPred e.instr), 1⟩], false,
            s.clk (e.seq / 4), []⟩))) ∧
    ∀ cause addr side receipt, s.acceptance c = .fails cause addr side receipt →
      ∃ t, exec (.engineAccept inst) s = .next t ∧ t.engQ inst = (s.engQ inst).filter (fun x => x.id != c.id) ∧
        ∀ m, m ≠ inst → t.engQ m = s.engQ m) ∧
  (∀ (s : State) (inst : Nat) (c : EngCmd) (r : DWord × DWord), (s.engQ inst).find? (fun c => c.ended.isSome) = some c → c.ended = some r →
    let queue := (s.engQ inst).filter fun x => x.id != c.id
    (toMemory c.dwords = false → (s.block c.block).residence ≠ .exited → (s.blocks.find c.block).isSome →
      (s.block c.block).follower ≠ some (s.block c.block).core → receiptQ c.dwords < (s.block c.block).lead.queues.length →
      let Q := s.leadQ c.block (receiptQ c.dwords)
      ∃ t, exec (.receiptPost inst) s = .next t ∧ t.engQ inst = queue ∧ t.mem = s.mem ∧
        t.leadQ c.block (receiptQ c.dwords) = { Q with entries := Q.entries ++ [r.1, r.2], reserved := Q.reserved - 2 }) ∧
    (∀ pa, toMemory c.dwords = true → c.receiptPa = pa → s.phys pa = .dram →
      ∃ t, exec (.receiptPost inst) s = .next t ∧ t.engQ inst = queue ∧
        ∀ x, t.byte x = if pa ≤ x ∧ x < pa + 16 then (r.2 ++ r.1).extractLsb' (8 * (x - pa)) 8 else s.byte x)) ∧
  ∀ (c : EngCmd) (result reason side addr : Nat), reason < 2 ^ 8 →
    let kind : Nat := match c.kind with
      | .cgs => 0
      | .vox => 1
      | .sort => 2
      | .sec => 3
    let first (status idx reason : Nat) : DWord :=
      BitVec.ofNat 4 status ++ BitVec.ofNat 2 kind ++ 0#2 ++ BitVec.ofNat 8 reason ++ (c.dwords.getD 0 0).extractLsb' 32 16 ++
        BitVec.ofNat 32 idx
    let n : Nat := match c.kind with
      | .cgs => (c.dwords.getD 5 0).toNat
      | .vox => (c.dwords.getD 5 0).toNat
      | .sort => (c.dwords.getD 6 0).toNat
      | .sec => 0
    let next := match c.kind with
      | .cgs => c.next
      | .vox => c.next
      | _ => 0
    ((c.done result).ended = some (first 0 n 0, BitVec.ofNat 64 result)) ∧
    ((c.fail reason side addr).ended = some (first 1 next reason, BitVec.ofNat 64 (side * 2 ^ 62 + addr % 2 ^ 52))) ∧
    c.cancel.ended = some (first 2 next 0, 0)

/-- R265, R268 to R274, R276: the last element of a copy-gather-scatter or voxel-hash command, and a sort, a merge, a hash or a signature, on
addresses that translate to DRAM in the base context. The command ends DONE. -/
def Obligations.EngineWork : Prop :=
  ∀ (s : State) (inst : Nat) (c : EngCmd) (rest : List EngCmd), s.engQ inst = c :: rest → c.accepted = true → c.ended = none → c.ctx = 0 →
    let ds := c.dwords
    let d (j : Nat) : Nat := (ds.getD j 0).toNat
    let op := d 0 % 2 ^ 8
    let n := d 5 % 2 ^ 32
    let z := 2 ^ (d 0 / 2 ^ 8 % 8)
    let k := c.next
    let dram (e P len : Nat) : Prop :=
      ∀ i, i < len → s.engRead c true (e + i) = .ok (P + i, false) ∧ s.engRead c false (e + i) = .ok (P + i, false) ∧
        s.engWait c (P + i) = false ∧ s.phys (P + i) = .dram
    let into (e P len : Nat) : Prop :=
      ∀ i, i < len → s.engAddr c ⟨false, true, false, 4⟩ (e + i) = .ok (P + i, false) ∧ s.phys (P + i) = .dram ∧
        (c.maps.find ((e + i) / 4096)).isSome
    let num (P len : Nat) : Nat := leNat ((List.range len).map fun i => s.byte (P + i))
    let ends (t : State) (e : EngCmd) (result : Nat) : Prop := t.engQ inst = (s.engQ inst).map fun x => if x.id = c.id then e.done result else x
    let last : EngCmd := { c with next := k + 1, poolAt := 0 }
    let wrote (t : State) (P len : Nat) (f : Nat → Byte) : Prop :=
      ∀ x, t.byte x = if P ≤ x ∧ x < P + len then f (x - P) else s.byte x
    (c.kind = .cgs → k + 1 = n →
      (∀ P D, op = 0 → dram (d 2 + k * z) P z → into (d 3 + k * z) D z →
        ∃ t, exec (.copy inst) s = .next t ∧ ends t last 0 ∧ wrote t D z fun i => s.byte (P + i)) ∧
      (∀ I, op = 1 ∨ op = 2 →
        let w := if d 0 / 2 ^ 11 % 2 = 1 then 8 else 4
        dram (d 4 + k * w) I w →
        let x := num I w
        let bad : Prop := d 6 % 2 ^ 32 ≠ 0 ∧ d 6 % 2 ^ 32 ≤ x
        (bad → ∃ t, exec (if op = 1 then .gather inst else .scatter inst) s = .next t ∧ t.mem = s.mem ∧
          t.engQ inst = (s.engQ inst).map fun y => if y.id = c.id then c.fail 23 1 (d 4 + k * w) else y) ∧
        (¬ bad → ∀ P D, op = 1 → dram (d 2 + x * z) P z → into (d 3 + k * z) D z →
          ∃ t, exec (.gather inst) s = .next t ∧ ends t last 0 ∧ wrote t D z fun i => s.byte (P + i)) ∧
        (¬ bad → ∀ P D, op = 2 → dram (d 2 + k * z) P z → into (d 3 + x * z) D z →
          ∃ t, exec (.scatter inst) s = .next t ∧ ends t last 0 ∧ wrote t D z fun i => s.byte (P + i))) ∧
      (∀ D, op = 3 → into (d 3 + k * z) D z →
        ∃ t, exec (.fill inst) s = .next t ∧ ends t last 0 ∧ wrote t D z fun i => (ds.getD 2 0).extractLsb' (8 * (i % 8)) 8) ∧
      ∀ D x es, op = 4 → z = 8 → into (d 3 + k * z) D z → (s.leadQ c.block (d 2 % 8)).entries = x :: es →
        (s.blocks.find c.block).isSome → d 2 % 8 < (s.block c.block).lead.queues.length →
        (∀ p ∈ s.engines, ∀ o ∈ p.2, o.block = c.block → o.id < c.id → o.ended ≠ none) →
        (s.block c.block).follower ≠ some (s.block c.block).core →
        ∃ t, exec (.stream inst) s = .next t ∧ ends t last 0 ∧ (t.leadQ c.block (d 2 % 8)).entries = es ∧
          wrote t D z fun i => x.extractLsb' (8 * i) 8) ∧
    (c.kind = .vox → k + 1 = n → d 0 / 2 ^ 8 % 2 = 0 → ∀ I R, dram (d 3 + 8 * k) I 8 → into (d 4 + 4 * k) R 4 →
      let key := num I 8
      let put (t : State) (r : Nat) : Prop := wrote t R 4 fun i => BitVec.ofNat 8 (byteOf r i)
      let event : Instr := if op = 1 then .insert inst else .lookup inst
      (2 ^ 63 ≤ key → op ≤ 1 → ∃ t, exec event s = .next t ∧ ends t last (c.new + c.unplaced * 2 ^ 32) ∧ put t 0xFFFFFFFE) ∧
      ∀ A : Nat → Nat, key < 2 ^ 63 → op ≤ 1 →
        let nb := 2 ^ (d 7 % 32)
        let hash (seed : Nat) : Nat := (hash32 (BitVec.ofNat 32 key) (BitVec.ofNat 32 seed ^^^ BitVec.ofNat 32 (key / 2 ^ 32))).toNat % nb
        let slots : List Nat := (List.range 8).map (fun i => hash (d 6 % 2 ^ 32) * 8 + i) ++
          (List.range 8).map fun i => (nb + hash (d 6 / 2 ^ 32)) * 8 + i
        (∀ σ ∈ slots, dram (d 2 + 8 * σ) (A σ) 8 ∧ into (d 2 + 8 * σ) (A σ) 8 ∧ (A σ + 8 ≤ R ∨ R + 4 ≤ A σ)) →
        let held (σ : Nat) : Bool := decide (num (A σ) 8 = 2 ^ 63 + key)
        let empty (σ : Nat) : Bool := decide (num (A σ) 8 < 2 ^ 63)
        (∀ σ, slots.find? held = some σ →
          ∃ t, exec event s = .next t ∧ ends t last (c.new + c.unplaced * 2 ^ 32) ∧ put t σ) ∧
        (slots.find? held = none → op = 0 → ∃ t, exec event s = .next t ∧ ends t last (c.new + c.unplaced * 2 ^ 32) ∧ put t 0xFFFFFFFF) ∧
        (slots.find? held = none → op = 1 → slots.find? empty = none →
          ∃ t, exec event s = .next t ∧ put t 0xFFFFFFFF ∧
            ends t { last with unplaced := c.unplaced + 1 } (c.new + (c.unplaced + 1) * 2 ^ 32)) ∧
        ∀ σ, slots.find? held = none → op = 1 → slots.find? empty = some σ →
          ∃ t, exec event s = .next t ∧ ends t { last with new := c.new + 1 } (c.new + 1 + c.unplaced * 2 ^ 32) ∧
            ∀ x, t.byte x = if R ≤ x ∧ x < R + 4 then BitVec.ofNat 8 (byteOf σ (x - R))
              else if A σ ≤ x ∧ x < A σ + 8 then BitVec.ofNat 8 (byteOf (2 ^ 63 + key) (x - A σ)) else s.byte x) ∧
    (c.kind = .sort → op ≤ 1 →
      let kw := if d 0 / 2 ^ 8 % 2 = 1 then 8 else 4
      let vals : Prop := d 0 / 2 ^ 11 % 2 = 1
      let n := d 6 % 2 ^ 32
      let na := d 6 / 2 ^ 32
      ∀ K V DK DV W, n ≤ 2 ^ 22 → dram (d 2) K (n * kw) → (vals → dram (d 3) V (4 * n)) → into (d 4) DK (n * kw) →
        (vals → into (d 5) DV (4 * n)) → (op = 0 → into (d 7) W (16 * n)) →
        (vals → DK + n * kw ≤ DV ∨ DV + 4 * n ≤ DK) → (op = 0 → DK + n * kw ≤ W ∨ W + 16 * n ≤ DK) →
        (op = 0 → vals → DV + 4 * n ≤ W ∨ W + 16 * n ≤ DV) →
        let inp : List (Nat × Nat) := (List.range n).map fun i => (num (K + kw * i) kw, if vals then num (V + 4 * i) 4 else 0)
        let key (x : Nat) : Int := if d 0 / 2 ^ 9 % 2 = 1 then (BitVec.ofNat (8 * kw) x).toInt else x
        let before (x y : Nat × Nat) : Prop := if d 0 / 2 ^ 10 % 2 = 1 then key y.1 ≤ key x.1 else key x.1 ≤ key y.1
        let ordered (l : List (Nat × Nat)) : Prop := l.Pairwise before
        ∃ (t : State) (out : List (Nat × Nat)), exec (if op = 0 then .sort inst else .merge inst) s = .next t ∧ ends t c 0 ∧ out.Perm inp ∧
          (op = 0 ∨ (ordered (inp.take na) ∧ ordered (inp.drop na)) →
            ordered out ∧ ∀ x, out.filter (fun p => p.1 == x) = inp.filter fun p => p.1 == x) ∧
          (∀ i, i < n * kw → t.byte (DK + i) = BitVec.ofNat 8 (byteOf ((out.getD (i / kw) (0, 0)).1) (i % kw))) ∧
          (vals → ∀ i, i < 4 * n → t.byte (DV + i) = BitVec.ofNat 8 (byteOf ((out.getD (i / 4) (0, 0)).2) (i % 4))) ∧
          ∀ x, (x < DK ∨ DK + n * kw ≤ x) → (vals → x < DV ∨ DV + 4 * n ≤ x) → (op = 0 → x < W ∨ W + 16 * n ≤ x) → t.byte x = s.byte x) ∧
    (c.kind = .sec →
      (∀ M D, op = 0 → dram (d 2) M (d 4 % 2 ^ 32) → into (d 3) D 48 →
        ∃ t, exec (.hash inst) s = .next t ∧ ends t c 0 ∧
          wrote t D 48 fun i => (sha384 ((List.range (d 4 % 2 ^ 32)).map fun i => s.byte (M + i))).getD i 0) ∧
      let slot := d 4 % 16
      let usable : Prop := slot = 1 ∨ slot ≠ 0 ∧ Config.deviceKeyPresent slot = true
      (∀ M D, op = 1 → usable → dram (d 2) M 48 → into (d 3) D 3373 →
        ∃ t, exec (.sign inst) s = .next t ∧ ends t c 0 ∧
          let m := (List.range 48).map fun i => s.byte (M + i)
          wrote t D 3373 fun i =>
            if i < 64 then (Config.edSign slot m).extractLsb' (8 * i) 8 else (Config.mlDsaSign slot m).extractLsb' (8 * (i - 64)) 8) ∧
      (op = 1 → ¬ usable → ∃ t, exec (.sign inst) s = .next t ∧ t.mem = s.mem ∧
        t.engQ inst = (s.engQ inst).map fun y => if y.id = c.id then c.fail 3 3 0 else y))

/-- R34, R50, R310 to R315, R335 to R339: the words of traps, the word that does not decode, and the entry to the handler after a wait. -/
def Obligations.TrapWords : Prop :=
  (∀ (s : State) (h : Hdr) (code : Fin 262144) (d a b : Reg) (x : Src) (g : Nat) (G : Group), FMap.sorted s.blocks = true →
    let S := s.bside G.block G.core
    let mask (m : DWord) : DWord := (m &&& 0x45F000004#64) ||| 0xBA0FFFFFB#64
    let goes (i : Instr) (r : State) : Prop := ∃ t, exec i s = .next t ∧ r.Went t g G h (s.issueClk G i) (G.pc + 8)
    let raises (i : Instr) (cs : List LaneCause) : Prop :=
      s.Apart g G → ∃ t, exec i s = .next t ∧ s.Stops t g G cs fun _ => G.pc + 8
    (s.Issues g G (.trap h code) →
      let i := Instr.trap h code
      (s.actives G i = [] → goes i s) ∧ (s.actives G i ≠ [] → raises i ((s.actives G i).map fun u => ⟨u, 29, code.val, 0⟩))) ∧
    (s.Issues g G (.brk h code) →
      let i := Instr.brk h code
      (s.actives G i = [] ∨ S.trapMask.getLsbD 30 = false → goes i s) ∧
      (s.actives G i ≠ [] → S.trapMask.getLsbD 30 = true → raises i ((s.actives G i).map fun u => ⟨u, 30, code.val, 0⟩))) ∧
    (s.Issues g G (.tret h) →
      let i := Instr.tret h
      let c := s.issueClk G i
      let late (e : LogEntry) : Prop := e.faulted ≠ 0 ∧ ∃ l ∈ e.lanes, l.thread ∈ G.lanes
      (s.actives G i = [] → goes i s) ∧
      (s.actives G i ≠ [] →
        (G.inHandler = false → raises i ((s.actives G i).map fun u => ⟨u, 3, 0, 0⟩)) ∧
        (G.inHandler = true → G.causes ≠ 0 → S.tvec ≠ 0 →
          let c1 := max (G.wentTo h c 0).readyAt (s.fixedDone G.lanes)
          ∃ u t : State, exec i s = .next t ∧ s.Went u g G h c S.tvec ∧ t = { u with groups := t.groups } ∧
            t.groups.find g = some { G with pc := S.tvec, readyAt := c1, since := c1 } ∧ ∀ k, k ≠ g → t.groups.find k = s.groups.find k) ∧
        (G.inHandler = true → G.causes ≠ 0 → S.tvec = 0 →
          ∃ t : State, exec i s = .next t ∧ t.mem = s.mem ∧ t.launches = s.launches.adjust (s.block G.block).launch fun L =>
            if L.ending ∨ L.state = .complete then L else { L with ending := true, status := 7 }) ∧
        (G.inHandler = true → G.causes = 0 → (∀ p ∈ s.opLog, p.2.replay = false ∧ ¬ late p.2) →
          (G.paused = none →
            ∃ t : State, exec i s = .next t ∧ s.Went t g { G with inHandler := false, deliver := none } h c G.resumePc) ∧
          ∀ w, G.paused = some w → ∃ (t : State) (H : Group), exec i s = .next t ∧ t.mem = s.mem ∧ t.groups.find g = some H ∧
            H.wait = some w ∧ H.paused = none ∧ H.lanes = G.lanes ∧ H.pc = G.resumePc - 8 ∧ H.inHandler = false) ∧
        (G.inHandler = true → G.causes = 0 → (∀ p ∈ s.opLog, p.1 < s.nextId ∧ p.2.replay = false) →
          (∃ id e, s.opLog.find id = some e ∧ late e) →
          ∃ (t : State) (H : Group), exec i s = .next t ∧ t.mem = s.mem ∧ t.groups.find g = some H ∧
            H.lanes = G.lanes ∧ H.inHandler = false ∧ H.resumePc = G.resumePc ∧
            ((∃ id e, s.opLog.find id = some e ∧ late e ∧ isWaitv e.instr = false) → H.wait = some .replay ∧ H.pc = G.pc) ∧
            (∀ id e, FMap.sorted s.opLog = true → s.opLog.find id = some e → isWaitv e.instr = true →
              (∀ k f, s.opLog.find k = some f → (late f ↔ k = id)) → H.wait = some (.waitv id) ∧ H.pc = G.resumePc - 8) ∧
            ∀ id e, s.opLog.find id = some e →
              (late e → ∃ e1, t.opLog.find id = some e1 ∧ e1.replay = true ∧ e1.instr = e.instr ∧ e1.pc = e.pc ∧
                e1.lanes.map LaneSrc.thread = (e.lanes.map LaneSrc.thread).filter fun u => G.lanes.contains u) ∧
              (¬ late e → t.opLog.find id = some e)))) ∧
    (s.Issues g G (.tclr h a) →
      let i := Instr.tclr h a
      (s.actives G i = [] → goes i s) ∧
      ∀ u, (s.actives G i).head? = some u →
        let bits := (s.lane G i u).r64 a
        ∃ (t : State) (C : Group), exec i s = .next t ∧ s.Went t g C h (s.issueClk G i) (G.pc + 8) ∧
          C = { G with causes := G.causes &&& ~~~ bits, masks := C.masks, faults := C.faults } ∧
          ∀ k, k < 36 → C.masks.find k = (if bits.getLsbD k then none else G.masks.find k) ∧
            C.faults.find k = if bits.getLsbD k then none else G.faults.find k) ∧
    (s.Issues g G (.trd h d x) →
      let i := Instr.trd h d x
      ∃ r, s.Wrote r G i 4 (fun v =>
        let n := (v.u32 x).toNat
        let k := n % 256
        w64 d (if n = 0 then G.causes else if n = 1 then BitVec.ofNat 64 G.resumePc else if n = 2 then G.resumeMask.setWidth 64
          else if n = 3 then mask S.trapMask else if 64 ≤ k then 0
          else if n = 0x100 + k then ((G.masks.find k).getD 0).setWidth 64
          else if n = 0x200 + k then ((G.faults.find k).getD ⟨0, 0⟩).addr
          else if n = 0x300 + k then ((G.faults.find k).getD ⟨0, 0⟩).detail else 0)) ∧ goes i r) ∧
    (s.Issues g G (.tmask h d a b) →
      let i := Instr.tmask h d a b
      let old := mask S.trapMask
      (s.actives G i = [] → goes i s) ∧
      ∀ u, (s.actives G i).head? = some u →
        let n := (s.lane G i u).r64 a
        let m := (s.lane G i u).r64 b
        ∃ r, (s.sided G.block G.core fun S => { S with trapMask := mask ((old &&& ~~~ m) ||| (n &&& m)) }).Wrote r G i 4 (fun _ => w64 d old) ∧
          goes i r) ∧
    (s.Issues g G (.ologq h d x) →
      let i := Instr.ologq h d x
      ∃ live : List LogEntry,
        live.Perm ((s.opLog.map Prod.snd).filter fun e => !e.freed && e.lanes.any fun l => G.lanes.contains l.thread) ∧
        live.Pairwise (fun e f => e.age ≤ f.age) ∧ ∃ r, s.Wrote r G i 4 (fun v =>
        let n := (v.u32 x).toNat
        w64 d (match live[n % 64]? with
          | none => 0
          | some e =>
            if n / 64 % 4 = 0 then BitVec.ofNat 64 e.pc else if n / 64 % 4 = 1 then encode e.instr
            else if n / 64 % 4 = 2 then e.faulted ++ e.active
            else BitVec.ofNat 64 (2 ^ 8 + ((e.causes.argmin fun c => c.thread % 32).map LaneCause.cause).getD 0))) ∧ goes i r)) ∧
  (∀ (s : State) (e : DecodeError) (g : Nat) (G : Group), s.cur = some g → s.groups.find g = some G → G.lanes ≠ [] →
    let cause (u : Nat) : Nat := match e with
      | .pairRule top => if s.allotOf u < top then 0 else 1
      | _ => 0
    ∃ t, exec (.illegalEncoding e) s = .next t ∧ s.Stops t g G (G.lanes.map fun u => ⟨u, cause u, 0, 0⟩) fun _ => 0) ∧
  ∀ (s : State) (g : Nat) (G : Group) (D : Deliver), s.groups.find g = some G → G.wait = none → G.deliver = some D →
    (s.block G.block).residence = .resident →
    ∃ t, exec (.handlerEntry g) s = .next t ∧ s.Trapped t g G G.pc []

/-- R137, R275, R328, R340 to R345: the system words, and the ends of their waits. In a checked pair the words that R328 names give the follower
what its leader read. -/
def Obligations.SystemWords : Prop :=
  (∀ (s : State) (h : Hdr) (pd : Fin 8) (sec : Bool) (d a : Reg) (x : Src) (g : Nat) (G : Group), FMap.sorted s.blocks = true →
    let blk := G.block
    let S := s.bside blk G.core
    let B := s.block blk
    let L := s.launch B.launch
    let R := L.lrec
    let P := s.partRegs L.part
    let goes (i : Instr) (r : State) : Prop := ∃ t, exec i s = .next t ∧ r.Went t g G h (s.issueClk G i) (G.pc + 8)
    let raises (i : Instr) : Prop :=
      s.Apart g G → ∃ t, exec i s = .next t ∧ s.Stops t g G ((s.actives G i).map fun u => ⟨u, 3, 0, 0⟩) fun _ => G.pc + 8
    let gives (i : Instr) (fixed : Bool) (V : LV → DWord) : Prop :=
      let wrote (r : State) (f : LV → DWord) : Prop :=
        if fixed then s.Wrote r G i 4 fun v => w64 d (f v) else s.Sent r G i 0 fun v => w64 d (f v)
      let done (t : State) (f : LV → DWord) : Prop :=
        ∃ r u : State, wrote r f ∧ r.Went u g G h (s.issueClk G i) (G.pc + 8) ∧ t = { u with blocks := t.blocks } ∧
          ∀ b, t.block b = { u.block b with items := (t.block b).items }
      (s.paired blk = false → ∃ r, wrote r V ∧ goes i r) ∧
      (s.paired blk = true → s.isFollower blk G.core = false →
        ∃ t, exec i s = .next t ∧ done t V ∧
          ((∀ k ∈ B.items, k.kind = kindValue → k.extra = 0) → ∀ u ∈ s.actives G i, (t.leaderValue blk (slotOf u)).isSome)) ∧
      (s.isFollower blk G.core = true →
        (∀ y : Nat → Nat, (∀ u ∈ s.actives G i, s.leaderValue blk (slotOf u) = some (y u)) →
          ∃ t, exec i s = .next t ∧ done t fun v => BitVec.ofNat 64 (y v.t)) ∧
        ((∃ u ∈ s.actives G i, s.leaderValue blk (slotOf u) = none) → exec i s = .next s))
    (s.Issues g G (.sysrd h d x) →
      let i := Instr.sysrd h d x
      let num (v : LV) : Nat := (v.u32 x).toNat
      let may : Prop := R.world = 0 ∨ ∀ u ∈ s.actives G i, num (s.lane G i u) < 0x100
      (¬ may → raises i) ∧
      (may → gives i false fun v => BitVec.ofNat 64 (
        if num v = 0 then S.tvec
        else if num v = 1 then (if G.inHandler then 1 else 0) + (if B.notice then 2 else 0) + 4 * B.chosen
        else if num v = 2 then (if B.notice then B.noticeAt + P.noticewin - s.clk B.core else 0)
        else if num v = 0x100 then P.noticewin else if num v = 0x101 then P.drainth else 0))) ∧
    (s.Issues g G (.syswr h a x) →
      let i := Instr.syswr h a x
      (s.actives G i = [] → goes i s) ∧
      ∀ u, (s.actives G i).head? = some u →
        let n := ((s.lane G i u).u32 x).toNat
        let y := ((s.lane G i u).r64 a).toNat
        let part (P : PartRegs) : State := { s with cfg := { s.cfg with parts := s.cfg.parts.put L.part P } }
        (0x100 ≤ n → R.world ≠ 0 → raises i) ∧
        (n < 0x100 ∨ R.world = 0 → goes i (
          if n = 0 then s.sided blk G.core fun S => { S with tvec := y / 8 % 2 ^ 49 * 8 }
          else if n = 0x100 then part { P with noticewin := y % 2 ^ 32 }
          else if n = 0x101 then part { P with drainth := y % 2 ^ 32 } else s))) ∧
    (s.Issues g G (.cntrd h d x) → gives (.cntrd h d x) false fun v =>
      let Q := s.seqr (4 * G.core + G.quarter)
      BitVec.ofNat 64 (match (v.u32 x).toNat with
        | 0 => Q.slips
        | 1 => Q.opps
        | 2 => Q.wakeWait
        | 3 => Q.grantWait
        | 4 => (s.debt.find (256 * G.core + R.tenant)).getD 0
        | 5 => L.transient
        | _ => 0)) ∧
    (s.Issues g G (.ilq h d) → gives (.ilq h d) true fun _ =>
      let e : Bool := B.ctx ≠ 0 ∧ ∃ k ∈ s.openBelow B.ctx, (s.ctx k).exposed = true
      BitVec.ofNat 32 L.transient ++ 0#27 ++ BitVec.ofBool e ++ BitVec.ofBool B.rerun ++ BitVec.ofBool (s.paired blk) ++
        BitVec.ofNat 2 R.il) ∧
    (s.Issues g G (.psafe h pd) →
      let i := Instr.psafe h pd
      (B.notice = false → ∃ r, s.Sent r G i 0 (fun _ => [.pred pd.val false]) ∧ goes i r) ∧
      (s.actives G i = [] → goes i s) ∧
      (B.notice = true → s.actives G i ≠ [] → s.Apart g G →
        ∃ t, exec i s = .next t ∧ s.Halts t g G h (s.issueClk G i) (.psafe pd.val (s.actives G i)))) ∧
    (s.Issues g G (.halt h) → s.paired blk = false →
      let i := Instr.halt h
      (s.actives G i = [] → goes i s) ∧
      (s.actives G i ≠ [] → ∃ u t : State, exec i s = .next t ∧ s.Went u g G h (s.issueClk G i) (G.pc + 8) ∧
        t = { u with launches := s.launches.adjust B.launch fun L =>
          if L.ending ∨ L.state = .complete then L else { L with ending := true, status := 7 } })) ∧
    (s.Issues g G (.mbox h sec d a) → s.paired blk = false → s.Apart g G →
      let i := Instr.mbox h sec d a
      (s.actives G i = [] → goes i s) ∧
      ∀ u, (s.actives G i).head? = some u →
        let msg := (s.lane G i u).r64 a
        (sec = true → R.world ≠ 0 → raises i) ∧
        (sec = false ∨ R.world = 0 → ∃ r t : State, exec i s = .next t ∧
          s.Halts r g G h (s.issueClk G i) (.mbox sec d msg (s.actives G i)) ∧
          t = if sec then { r with sec := { s.sec with queue := s.sec.queue ++ [(64 * (g + 1) + G.core + 1, msg)] } } else r))) ∧
  (∀ (s : State) (g : Nat) (G : Group), s.groups.find g = some G →
    let receives (t : State) (r : State) (ws : List RegWrite) : Prop := State.Resumes { r with
      nextId := if ws = [] then r.nextId else r.nextId + 1
      inflight := if ws = [] then r.inflight else r.inflight.put r.nextId ⟨G.block, r.nextId, ws, false, s.clk G.core, []⟩ } t g G (G.pc + 8)
    (∀ qs m, G.wait = some (.queue qs m) →
      let stuck (q : Nat) : Prop :=
        let Q := (s.bside G.block G.core).queues.getD q QReg.init
        Q.binding = .none ∧ Q.entries.length < m ∧ m ≤ Q.entries.length + Q.reserved
      ((∃ q ∈ qs, stuck q) → exec (.queueReadResume g) s = .next s) ∧
      ((∀ q ∈ qs, ¬ stuck q) → ∃ t, exec (.queueReadResume g) s = .next t ∧ s.Resumes t g G G.pc)) ∧
    (∀ pd us, G.wait = some (.psafe pd us) → (s.block G.block).residence = .resident →
      ((s.block G.block).notice = true → exec (.psafeResolve g) s = .next s) ∧
      ((s.block G.block).notice = false →
        ∃ t, exec (.psafeResolve g) s = .next t ∧ receives t s (us.map fun u => ⟨u, .pred pd, 0⟩))) ∧
    (∀ sec d msg us, G.wait = some (.mbox sec d msg us) → G.paused = none → s.paired G.block = false → (∀ q, d ≠ .q q) →
      let R := s.recOf G.block
      let box := (s.inbox.find R.tenant).getD []
      let ws (x : DWord) : List RegWrite := laneResults (us.map fun u => (u, w64 d x))
      (sec = false → box.length < 16 → ∃ t, exec (.mboxReply g) s = .next t ∧ receives t { s with
        inbox := s.inbox.put R.tenant (box ++ [(msg, BitVec.ofNat 64 (R.tenant + R.world * 2 ^ 8 + G.core * 2 ^ 16))]) } (ws 0)) ∧
      (sec = false → 16 ≤ box.length → ∃ t, exec (.mboxReply g) s = .next t ∧ receives t s (ws 1)) ∧
      (sec = true → ∀ x, s.sec.replies.find (g + 1) = some x → ∃ t, exec (.mboxReply g) s = .next t ∧
        receives t { s with sec := { s.sec with replies := s.sec.replies.del (g + 1) } } (ws x)))) ∧
  (∀ (s : State) (n : Nat) (x : DWord × DWord) (r : List (DWord × DWord)), s.inbox.find n = some (x :: r) →
    exec (.ssvInboxMessageTaken n) s = .next { s with inbox := if r = [] then s.inbox.del n else s.inbox.put n r }) ∧
  ∀ (s : State) (k q c : Nat),
    ((s.thread k).wakes.find q = some c → exec (.bankWakeComplete (.reg k q)) s = .next (if c ≤ s.clk (k / 1024) then
      { s with threads := s.threads.put k { s.thread k with wakes := (s.thread k).wakes.del q } } else s)) ∧
    (s.spadWakes.find (16 * k + q) = some c → exec (.bankWakeComplete (.spad k q)) s = .next (if c ≤ s.clk k then
      { s with spadWakes := s.spadWakes.del (16 * k + q) } else s))

/-- R67, R68, R73, R75, R76, R78 to R82, R84, R86, R88, R126, R218: stream queues, the check and the readiness of launches, the dispatch and
the exit of blocks, a region held for a gang 50 µs after its launch came to the top, and the completion of launches. -/
def Obligations.LaunchEvents : Prop :=
  (∀ (s : State) (q : Nat), q < 96 → (∀ p ∈ s.sec.streams, q ∈ p.2.ifs → p.2.state = 0 ∨ p.2.state = 2) →
    let Q := s.sq q
    let n := 2 ^ (if Q.size = 0 ∨ 13 ≤ Q.size then 1 else Q.size)
    let gap (a b : Nat) : Nat := (a + 2 ^ 32 - b) % 2 ^ 32
    let stops (t : State) (status : Nat) : Prop :=
      (∀ k, k ≠ q → t.sq k = s.sq k) ∧
        t.sq q = { Q with
          stopped := true, status := status, failedCheck := (t.sq q).failedCheck, skipMade := (t.sq q).skipMade
          launchStop := (t.sq q).launchStop } ∧ (Q.stopped = true → Q.launchStop = true → (t.sq q).launchStop = true)
    (∀ v : Word,
      (gap v.toNat Q.head ≤ n ∧ gap v.toNat Q.tail ≤ n → exec (.sqtailWrite q v) s = .next { s with sqs := s.sqs.put q { Q with tail := v.toNat } }) ∧
      (¬ (gap v.toNat Q.head ≤ n ∧ gap v.toNat Q.tail ≤ n) →
        ∃ t, exec (.sqtailWrite q v) s = .next t ∧ t = { s with sqs := t.sqs } ∧ stops t 0xFF)) ∧
    (∃ t, exec (.sqctlResume q) s = .next t ∧ t = { s with sqs := t.sqs, submits := t.submits } ∧ (∀ k, k ≠ q → t.sq k = s.sq k) ∧
      t.submits = (if Q.stopped ∧ Q.failedCheck ∧ Q.skipMade = false then s.submits.del (submitKey q Q.head) else s.submits) ∧
      t.sq q = if Q.stopped then { Q with stopped := false, failedCheck := false, skipMade := false, launchStop := false } else Q) ∧
    (∃ t, exec (.sqctlSkip q) s = .next t ∧ t = { s with sqs := t.sqs, submits := t.submits } ∧ (∀ k, k ≠ q → t.sq k = s.sq k) ∧
      t.sq q = if Q.stopped ∧ Q.failedCheck ∧ Q.skipMade = false then { Q with head := (Q.head + 1) % 2 ^ 32, skipMade := true } else Q) ∧
    ((Q.enable = false ∨ Q.stopped = true ∨ Q.head = Q.tail) → exec (.recordCheck q) s = .next s) ∧
    (Q.enable = true → Q.stopped = false → Q.head ≠ Q.tail →
      let pa := Q.base + 256 * (Q.head % n)
      let ws : RecWords := (List.range 32).map fun k => BitVec.ofNat 64 (leNat ((List.range 8).map fun j => s.byte (pa + 8 * k + j)))
      let R := recordOf ws
      let code := s.recordCheck q ws
      (s.dramSize < pa + 256 → ∃ t, exec (.recordCheck q) s = .next t ∧ t = { s with sqs := t.sqs } ∧ stops t 0xFD ∧ (t.sq q).failedCheck = true) ∧
      (pa + 256 ≤ s.dramSize →
        (R.dm = 3 ∨ (ws.getD 1 0).extractLsb' 0 4 ≠ 1 ∨ R.codeBase % 256 ≠ 0 ∨ R.spad % 256 ≠ 0 ∨ R.stride % 64 ≠ 0 ∨ R.obquota % 4096 ≠ 0 ∨
          R.privBase % 64 ≠ 0 ∨ R.status % 16 ≠ 0 → code = (1, 0)) ∧
        (code.1 ≠ 0 → ∃ t, exec (.recordCheck q) s = .next t ∧ stops t code.1 ∧ (t.sq q).failedCheck = true ∧ t.launches = s.launches ∧
          (R.status = 0 ∨ R.status % 16 ≠ 0 → t.mem = s.mem)) ∧
        (code.1 = 0 → ∃ t, exec (.recordCheck q) s = .next t ∧
          t = { s with nextId := s.nextId + 1, launches := t.launches, submits := t.submits, sqs := t.sqs } ∧
          t.sq q = { Q with head := (Q.head + 1) % 2 ^ 32, last := some s.nextId } ∧ (∀ k, k ≠ q → t.sq k = s.sq k) ∧
          t.launches = s.launches.put s.nextId { (t.launch s.nextId) with lrec := R, queue := q, part := Q.part, state := .checked, prev := Q.last
                                                                          nextBlock := 0, ending := false })))) ∧
  (∀ (s : State) (l : Nat) (L : Launch), s.launches.find l = some L → L.state = .checked → L.ending = false →
    let Q := s.sq L.queue
    let due : Prop := (L.lrec.waitEn = true → L.lrec.threshold.toNat ≤ (s.counter L.lrec.waitCtr).toNat) ∧
      (∀ k P, L.prev = some k → s.launches.find k = some P → P.state = .complete ∨ (Q.overlap = true ∧ s.allDispatched k = true)) ∧
      ¬ (Q.stopped = true ∧ Q.launchStop = true)
    (due → exec (.launchReady l) s = .next { s with
      launches := s.launches.adjust l fun L => { L with state := .ready, readyAt := s.now, noRoomSince := s.now } }) ∧
    (¬ due → exec (.launchReady l) s = .next s)) ∧
  (∀ (s : State) (part l first : Nat) (x : Site), s.firstFit part = some (l, .fresh first 1, [x]) → FMap.sorted s.blocks = true →
    (∀ p ∈ s.blocks, p.1 < s.nextId) → (∀ p ∈ s.groups, p.1 < s.nextId) →
    let L := s.launch l
    let R := L.lrec
    R.needsCtx = false → R.gangLevel = none → R.teamSize = 1 → R.il < 2 →
    (x.core ∈ s.openCores l ∧ s.siteOn R x.core BSide.init = some x ∧ ∀ c ∈ s.openCores l, (s.siteOn R c BSide.init).isSome →
      (s.residents x.core).length < (s.residents c).length ∨ (s.residents x.core).length = (s.residents c).length ∧ x.core ≤ c) ∧
    ∃ t : State, exec (.blockDispatch part) s = .next t ∧ (t.launch l).nextBlock = L.nextBlock + 1 ∧
      (let B := t.block s.nextId
       B.launch = l ∧ B.index = first ∧ B.core = x.core ∧ B.follower = none ∧ B.gslots = x.runs ∧ B.spadAt = x.spadAt ∧ B.obAt = x.obAt ∧
         B.ctx = 0 ∧ B.residence = .resident ∧ B.lead = BSide.init) ∧
      (∀ k, k < R.spad → t.byte (spadPa x.core (x.spadAt + k)) = 0) ∧
      ∀ g, g < R.groupCount →
        let run := x.runs.getD g 0
        let entry := ((R.roles[(roleOf R.roles 0 g).1]?).map Role.entry).getD 0
        let allot := ((R.roles[(roleOf R.roles 0 g).1]?).map Role.allot).getD 0
        ∃ k G, t.groups.find k = some G ∧ G.pc = (R.codeBase + entry) % 2 ^ 52 ∧ G.lanes = (List.range 32).map (1024 * x.core + 32 * run + ·) ∧
          G.core = x.core ∧ G.block = s.nextId ∧ G.wait = none ∧ G.causes = 0 ∧ G.inHandler = false ∧
          ∀ u ∈ G.lanes,
            let T := t.thread u
            T.disp = .group k ∧ T.pinned = true ∧ T.ctx = 0 ∧ T.preds = 0x80 ∧ T.fixed = [] ∧ T.pgrp = g ∧
              T.tid = first * ((R.levels.head?).map Level.extent).getD 0 + 32 * g + u % 32 ∧ (T.acp.all fun n => n == 0) = true ∧
              (∀ n, n < allot → T.reg n = if n = 0 then R.arg.setWidth 32 else if n = 1 then R.arg.extractLsb' 32 32 else 0) ∧
              ∀ n, n < 4 → T.quarter n = if 64 * n < allot then .full else .off) ∧
  (∀ (s : State) (l : Nat) (L : Launch), s.launches.find l = some L → L.lrec.gangLevel ≠ none → L.gangRoom = none →
    ((s.ranked L.part).head?.map Prod.fst) = some l → (∃ o, s.nextOffer l = some o ∧ s.planOffer l o = none) →
    (s.stampTops.launch l).topSince = (if L.topSince = 0 then s.now + 1 else L.topSince) ∧
    (L.topSince = 0 ∨ s.now + 1 < L.topSince + 50 * 114000 → exec (.gangReserveTimeout l) s = .next s) ∧
    (L.topSince ≠ 0 → L.topSince + 50 * 114000 ≤ s.now + 1 →
    exec (.gangReserveTimeout l) s = .next { s with launches := s.launches.adjust l fun L => { L with gangRoom := s.nearestRegion l } })) ∧
  (∀ (s : State) (b : Nat) (B : Block), FMap.sorted s.blocks = true → FMap.sorted s.ctxs = true → s.blocks.find b = some B → B.residence = .resident → B.follower = none →
    let R := s.recOf b
    let ended : Prop := (∀ p ∈ s.threads, p.2.block = b → p.2.disp = .exited) ∧ (∀ p ∈ s.acps, p.2.block ≠ b) ∧
      (∀ p ∈ s.opLog, p.2.block = b → p.2.dormant = true) ∧ (∀ p ∈ s.engines, ∀ c ∈ p.2, c.block = b → c.heldDm1 = true) ∧
      (∀ m ∈ B.lead.mloops, m.active = false) ∧ s.released b (R.levels.getD 1 ⟨false, .blk, 0, 0⟩).scope = true ∧
      ∀ p ∈ s.ctxs, p.2.owner = b → p.2.state ≠ .retired → p.1 = B.ctx ∨ p.2.state = .opened
    (¬ ended → exec (.blockExit b) s = .next s) ∧
    (ended → ∃ t : State, exec (.blockExit b) s = .next t ∧ (t.block b).residence = .exited ∧ (∀ p ∈ t.threads, p.2.block ≠ b) ∧
      (∀ p ∈ t.groups, p.2.block ≠ b) ∧ (∀ p ∈ t.bins, p.2.block ≠ b) ∧ (∀ p ∈ t.opLog, p.2.block ≠ b) ∧
      (∀ p ∈ t.inflight, p.2.block ≠ b) ∧ (t.block b).lead.mloops = [] ∧ (t.block b).lead.records = [] ∧ (t.block b).lead.tiles = [] ∧
      (∀ p ∈ t.ctxs, p.2.owner = b → p.1 ≠ B.ctx → p.2.state ≠ .opened) ∧
      (B.ctx ≠ 0 → B.ctx ∉ ((s.ownCtxs b).filter (· != B.ctx)).flatMap s.openBelow →
        (t.ctx B.ctx).state = .settling ∧ (t.ctx B.ctx).gen = (s.ctx B.ctx).gen) ∧
      (∀ u, u ≠ b → (t.block u).residence = (s.block u).residence) ∧ t.launches.keys = s.launches.keys)) ∧
  ∀ (s : State) (l : Nat) (L : Launch), s.launches.find l = some L → FMap.sorted s.blocks = true → FMap.sorted s.ctxs = true →
    let R := L.lrec
    let done : Prop := L.state = .ready ∧ L.nextBlock = R.blockCount ∧ (∀ p ∈ s.mintQ, ∀ r ∈ p.2, ∀ i, r ≠ .block l i) ∧
      ∀ p ∈ s.blocks, p.2.launch = l → p.2.residence = .exited ∧
        (p.2.ctx = 0 ∨ (s.ctx p.2.ctx).owner ≠ p.1 ∨ (s.ctx p.2.ctx).state = .retired)
    let gone (t : State) : Prop := t.launches.find l = none ∧ (∀ p ∈ t.blocks, p.2.launch ≠ l) ∧
      ∀ k, k ≠ l → (t.launches.find k).map Launch.lrec = (s.launches.find k).map Launch.lrec
    let code : DWord := BitVec.ofNat 32 (s.blocks.filter fun p => p.2.launch == l && p.2.residence == .exited).length ++ (0 : Word)
    (L.ending = false → ¬ done → exec (.launchComplete l) s = .next s) ∧
    (L.ending = false → done → ∃ t : State, exec (.launchComplete l) s = .next t ∧ gone t ∧ t.sqs = s.sqs ∧
      (∀ n, t.counter n = s.counter n + if R.sigEn = true ∧ n = R.sigCtr then BitVec.ofNat 64 R.sigInc else 0) ∧
      (R.status = 0 → (s.sq L.queue).notify = false → t.mem = s.mem) ∧
      ∀ d, R.status ≠ 0 → (s.sq L.queue).notify = false → R.status < 2 ^ 52 → s.walk R.tenant R.status = some d →
        s.pageCheck ⟨0, 0, 0, 0, R.tenant, R.world, 0, true⟩ Need.store d (framePa d R.status) = none →
        R.status < Config.transEnd → s.phys (framePa d R.status) = .dram →
        ∀ x, t.byte x = if framePa d R.status ≤ x ∧ x < framePa d R.status + 16 then
          ((BitVec.ofNat 64 (L.transient % 2 ^ 32)) ++ code).extractLsb' (8 * (x - framePa d R.status)) 8 else s.byte x) ∧
    (L.ending = true → (∀ p ∈ s.sec.streams, L.queue ∈ p.2.ifs → p.2.state = 0 ∨ p.2.state = 2) → L.status ≠ 0 →
      ∃ t : State, exec (.launchComplete l) s = .next t ∧ gone t ∧ t.counters = s.counters ∧
        (t.sq L.queue).stopped = true ∧ (t.sq L.queue).status = L.status ∧
        (L.status = 6 ∨ L.status = 7 → (t.sq L.queue).launchStop = true) ∧ (t.sq L.queue).head = (s.sq L.queue).head ∧
        (∀ p ∈ t.groups, (s.block p.2.block).launch ≠ l ∨ s.blocks.find p.2.block = none) ∧
        ∀ p ∈ t.ctxs, p.2.state ≠ .retired → (s.block p.2.owner).launch ≠ l ∨ s.blocks.find p.2.owner = none)

/-- R93, R317 to R322, R432: the choice of a pre-emption, notice, SAVE and restore, FLUSH and the checked flush, the schedule of tenants and
its watchdog, stated of launches without a gang. -/
def Obligations.PreemptionEvents : Prop :=
  (∀ (s : State) (b : Nat) (B : Block), FMap.sorted s.blocks = true → s.blocks.find b = some B → B.residence = .resident →
    (s.recOf b).gangLevel = none → FMap.sorted s.launches = true →
    let R := s.recOf b
    let P := s.partRegs (s.launch B.launch).part
    let exposed : Prop := B.ctx ≠ 0 ∧ ∃ k ∈ s.openBelow B.ctx, (s.ctx k).exposed = true
    let eligible : Prop := R.idem = true ∧ B.ctx ≠ 0 ∧ ¬ exposed ∧ ∀ m ∈ B.lead.mloops, m.state ≠ .running
    let posted (t : State) (cause : Nat) : Prop := ∀ g G, s.groups.find g = some G → G.block = b → G.lanes ≠ [] →
      ∃ H, t.groups.find g = some H ∧ H.causes.getLsbD cause = true
    let chooses (t : State) (kind : Nat) (ex : Option Nat) : Prop :=
      let told : Bool := decide (2 ≤ kind) && (s.bside b B.core).trapMask.getLsbD 34
      t.block b = { B with
        chosen := kind, chosenAt := s.clk B.core, notice := B.notice || told, noticeAt := if told then s.clk B.core else B.noticeAt
        exchange := ex } ∧
      (∀ c, c ≠ b → t.block c = s.block c) ∧ (told = true → posted t 34) ∧ (told = false → t.groups = s.groups) ∧ t.mem = s.mem
    let quiet : Prop := (∀ p ∈ s.groups, p.2.block = b → ∃ w, p.2.wait = some w ∧ w.slotless = true) ∧ ∀ p ∈ s.bins, p.2.block ≠ b
    let fits : Prop := B.chosen = 2 → s.savedBytes (s.launch B.launch).part + R.imageSize ≤ 0x10000 * P.psavesize
    let halts : State := { s with blocks := s.blocks.adjust b fun B => { B with going := true } }
    let again (t : State) : Prop := (t.block b).residence = .saved ∧ (t.block b).image = none ∧ (∀ p ∈ t.threads, p.2.block ≠ b) ∧
      (∀ p ∈ t.groups, p.2.block ≠ b) ∧ (∀ p ∈ t.opLog, p.2.block ≠ b) ∧ (t.block b).lead.mloops = [] ∧ (t.block b).ctx = B.ctx ∧
      (B.ctx ≠ 0 → B.ctx < 65536 → (s.ctx B.ctx).state = .opened →
        (t.ctx B.ctx).state = .opened ∧ (t.ctx B.ctx).parent = 0 ∧ (t.ctx B.ctx).owner = b ∧ (t.ctx B.ctx).exposed = false ∧
        (t.ctx B.ctx).gen ≠ (s.ctx B.ctx).gen ∧ ∀ pline, t.cells.find (pline * 65536 + B.ctx) = none)
    (B.follower = none → s.kindFor b =
      if R.pref = 1 then 1 else if R.pref = 2 then 2
      else if R.pref ≠ 3 ∧ R.progress ≠ 0 ∧ R.progress < B.ran + (s.clk B.core - B.dispatchedAt) + P.drainth then 1
      else open Classical in if eligible then 3 else 2) ∧
    (∀ l L, s.launches.find l = some L → L.state = .ready → L.ending = false → (∃ o, s.nextOffer l = some o ∧ s.planOffer l o = none) →
      let urgent (ok : Launch → Bool) : Prop := s.victimFor l ok = some b
      let goes (i : Instr) : Prop := ∃ t, exec i s = .next t ∧ chooses t (s.kindFor b) B.exchange ∧ (t.launch l).noRoomSince = s.now
      (L.lrec.deadline ≠ 0 → L.noRoomSince + 10 * 114000 ≤ s.now → urgent (fun _ => true) → goes (.preemptDeadlineTimeout l)) ∧
      (L.noRoomSince + 100 * 114000 ≤ s.now → urgent (fun V => decide (L.lrec.tier < V.lrec.tier)) → goes (.preemptTierTimeout l)) ∧
      ∀ ok, urgent ok → B.chosen = 0 ∧ B.going = false ∧ B.launch ≠ l ∧ lexLess L.rank (s.launch B.launch).rank = true ∧
        ok (s.launch B.launch) = true ∧
        ∀ c C, s.blocks.find c = some C → C.launch = B.launch → C.residence = .resident → s.takeable c = true → C.index ≤ B.index) ∧
    (B.notice = true → B.going = false → 2 ≤ B.chosen → B.noticeAt + P.noticewin ≤ s.clk B.core → ¬ quiet → fits →
      exec (.noticeWindowExpiry b) s = .next halts) ∧
    (B.chosen = 1 → B.chosenAt + 4 * P.drainth ≤ s.clk B.core →
      ∃ t, exec (.drainTimeout b) s = .next t ∧ chooses t (if B.follower.isSome then 3 else 2) B.exchange) ∧
    (∀ e E, s.blocks.find e = some E → E.residence = .saved → E.launch = B.launch → E.waitingSince + 50 * 114000 ≤ s.now →
      (s.launch B.launch).ending = false → s.planRestore B.launch [e] = none → (∀ p ∈ s.blocks, p.2.exchange ≠ some e) →
      s.exchangeVictim e = some b →
      ∃ t, exec (.exchangeTimeout e) s = .next t ∧ chooses t (if B.follower.isSome then 3 else 2) (some e)) ∧
    (B.chosen = 2 → B.going = false → B.notice = false ∨ quiet → fits → exec (.save b) s = .next halts) ∧
    (B.chosen = 2 → B.going = true → s.saveReady b = true → B.exchange = none → B.follower = none → FMap.sorted s.threads = true →
      (∀ p ∈ s.inflight, p.2.block ≠ b) → (∀ p ∈ s.threads, p.1 / 1024 ≠ 64 + b ∧
        (p.2.block = b → p.1 / 1024 = B.core ∧ p.2.ix.headD 0 < 1024 ∧
          ∀ r ∈ s.threads, r.2.block = b → r.2.ix.headD 0 = p.2.ix.headD 0 → r = p)) →
      ∃ (t : State) (I : Image), exec (.save b) s = .next t ∧ (t.block b).residence = .saved ∧ (t.block b).image = some I ∧ I.size = R.imageSize ∧
        (t.block b).lead.queues = B.lead.queues ∧ (t.block b).lead.barriers = B.lead.barriers ∧ (t.block b).lead.tvec = B.lead.tvec ∧
        (t.block b).lead.trapMask = B.lead.trapMask ∧ (t.block b).ctx = B.ctx ∧ (t.block b).index = B.index ∧
        (∀ c, c ≠ b → (t.block c).residence = (s.block c).residence) ∧
        ∀ p ∈ s.threads, p.2.block = b →
          let T := t.thread (1024 * (64 + b) + p.2.ix.headD 0)
          T = { p.2 with
            fixed := [], wakes := [], joinStack := T.joinStack, again := T.again } ∧ t.threads.find p.1 = none) ∧
    ((B.chosen = 3 ∧ (B.going = true ∨ B.notice = false ∨ quiet)) → B.exchange = none →
      let i : Instr := if B.follower.isSome then .checkedFlush b else .flush b
      (¬ exposed → ∃ t, exec i s = .next t ∧ again t ∧ (B.follower.isSome → (t.block b).rerun = false ∧ (t.block b).ownRerun = false)) ∧
      (exposed → exec i s = .next { s with blocks := s.blocks.adjust b fun B =>
        if B.follower.isSome then { B with notice := false, chosen := 0, going := false, exchange := none }
        else { B with chosen := 2, going := false } })) ∧
    (B.overLen ≠ 0 → 4 * B.overLen ≤ B.overrun → FMap.sorted s.ctxs = true →
      ∃ t, exec (.overrunWatchdog b) s = .next t ∧ (t.block b).lead.mloops = [] ∧ (t.block b).overrun = 0 ∧
        (∀ p ∈ t.engines, ∀ c ∈ p.2, c.block = b → c.ended ≠ none) ∧ t.debt.find (256 * B.core + R.tenant) = none ∧ posted t 31 ∧
        (B.ctx ≠ 0 → (s.ctx B.ctx).state = .opened → (t.ctx B.ctx).state = .retired ∧
          ∀ L, t.launches.find B.launch = some L → L.ending = true ∨ L.state = .complete))) ∧
  (∀ (s : State) (l b : Nat) (B : Block) (I : Image) (x : Site), FMap.sorted s.blocks = true → s.blocks.find b = some B → B.image = some I →
    s.firstFit (s.launch B.launch).part = some (l, .restore [b], [x]) → FMap.sorted I.spad = true → FMap.sorted s.threads = true →
    B.follower = none → (s.recOf b).il < 2 →
    let home (n : Nat) : Nat := 1024 * x.core + 32 * x.runs.getD (n / 32) 0 + n % 32
    (∀ p ∈ s.threads, (p.1 / 1024 = 64 + b → p.2.block = b ∧ p.1 % 1024 / 32 < x.runs.length) ∧
      ∀ n, n / 32 < x.runs.length → p.1 ≠ home n) →
    ∃ t, exec (.restore b) s = .next t ∧ (t.block b).residence = .resident ∧ (t.block b).core = x.core ∧ (t.block b).gslots = x.runs ∧
      (t.block b).spadAt = x.spadAt ∧ (t.block b).image = none ∧ (t.block b).lead.queues = B.lead.queues ∧
      (t.block b).lead.tvec = B.lead.tvec ∧ (t.block b).lead.trapMask = B.lead.trapMask ∧
      (∀ n T, s.threads.find (1024 * (64 + b) + n) = some T → n < 1024 →
        let U := t.thread (home n)
        U = { T with joinStack := U.joinStack, disp := U.disp }) ∧
      (∀ k, k < (s.recOf b).spad → t.byte (spadPa x.core (x.spadAt + k)) = (I.spad.find k).getD 0) ∧
      ∀ y ∈ t.l1, ¬ (y.core = x.core ∧ y.tenant = (s.recOf b).tenant)) ∧
  ∀ (s : State) (core : Nat) (e n : SchedEntry), s.schedNow core = some e → (s.schedAt core).2.1 + e.len ≤ s.clk core →
    (((s.schedEntries core).filter fun x => decide (e.no < x.no)) ++ s.schedEntries core).head? = some n →
    let debt (u : Nat) : Nat := (s.debt.find (256 * core + u)).getD 0
    let owns (q u : Nat) : Prop := q < 4 ∧ n.quarters.testBit q = true ∧ s.quarterOwner core q = some u
    ((∀ q u, ¬ owns q u) ∨ ∃ q u, owns q u ∧ debt u ≤ n.len) →
    ∃ t : State, exec (.schedEntryEnd core) s = .next t ∧ t = { s with debt := t.debt, schedOff := t.schedOff, schedPos := t.schedPos } ∧
      t.schedPos.find core = some (n.no, s.clk core, e.len) ∧
      (∀ q u, owns q u → (t.schedOff.find (4 * core + q)).getD 0 = (if debt u = 0 then 0 else s.clk core + min (debt u) n.len) ∧
        (t.debt.find (256 * core + u)).getD 0 = debt u - n.len) ∧
      ∀ k, (∀ q u, owns q u → k ≠ 256 * core + u) → (t.debt.find k).getD 0 = (s.debt.find k).getD 0

/-- R323 to R327, R329 to R331, R432: the pairing of a slice and its changes of mode, mismatches and the pass of the assay, and the retry of a
data fault, whose site is found by the line of its address (log 55). -/
def Obligations.CheckedEvents : Prop :=
  (∀ (s : State) (slice : Nat) (v : DWord), slice < 12 →
    let P := s.pairOf slice
    let clk := s.clk (4 * slice)
    let sets (t : State) (Q : PairCtl) : Prop := t.pairOf slice = Q ∧ ∀ k, k ≠ slice → t.pairOf k = s.pairOf k
    let change (Q : PairCtl) (p : Bool) : PairCtl := { Q with state := 1, toPaired := p, step := 2, stepAt := s.now }
    let obeys (Q : PairCtl) : PairCtl :=
      if Q.state = 0 ∧ Q.req = true then change Q true
      else if Q.state = 2 ∧ Q.req = false ∧ Q.auto = false then change Q false else Q
    let reset (t : State) : Prop := (∀ p ∈ t.groups, p.2.core / 4 ≠ slice) ∧ (∀ p ∈ t.threads, p.1 / 1024 / 4 ≠ slice) ∧
      (∀ p ∈ t.opLog, p.2.seq / 4 / 4 ≠ slice) ∧ (∀ p ∈ t.mqueue, p.1 / 4 ≠ slice) ∧ ∀ c k, c / 4 = slice → k < 16 → t.spadBank c k = .off
    let resident : List Nat := (s.blocks.filter fun p => p.2.residence == .resident && p.2.core / 4 == slice).map Prod.fst
    (∃ t, exec (.pairctlWrite slice v) s = .next t ∧ t = { s with pairs := t.pairs } ∧
      sets t (obeys { P with req := v.getLsbD 0, auto := v.getLsbD 1 })) ∧
    (P.state = 1 →
      (P.step = 2 → resident ≠ [] → exec (.pairModeChange slice) s = .next s) ∧
      (P.step = 2 → resident = [] → ∃ t, exec (.pairModeChange slice) s = .next t ∧ t = { s with l1 := t.l1, tlb := t.tlb, pairs := t.pairs } ∧
        sets t { P with step := 3, stepAt := clk } ∧ t.l1 = s.l1.filter (fun l => l.core / 4 != slice) ∧
        t.tlb = s.tlb.filter fun x => x.cluster / 2 != slice) ∧
      (P.step = 3 ∧ clk < P.stepAt + 512 ∨ P.step = 5 ∧ clk < P.stepAt + 64 → exec (.pairModeChange slice) s = .next s) ∧
      (P.step = 3 → P.stepAt + 512 ≤ clk → P.toPaired = true →
        ∃ t, exec (.pairModeChange slice) s = .next t ∧ t = { s with rails := t.rails, pairs := t.pairs } ∧
          sets t { P with step := 4, stepAt := t.clk (4 * slice) } ∧
          ∀ c, t.rail c = if c / 2 = slice ∧ (s.rail c).high = false then
            { s.rail c with high := true, clk := s.clusterClk c, at_ := s.now, changing := true } else s.rail c) ∧
      (P.step = 3 ∧ P.stepAt + 512 ≤ clk ∧ P.toPaired = false ∨
          P.step = 4 ∧ (s.rail (2 * slice)).changing = false ∧ (s.rail (2 * slice + 1)).changing = false →
        ∃ t, exec (.pairModeChange slice) s = .next t ∧ reset t ∧ sets t { P with step := 5, stepAt := clk }) ∧
      (P.step = 5 → P.stepAt + 64 ≤ clk → ∃ t, exec (.pairModeChange slice) s = .next t ∧ t = { s with pairs := t.pairs } ∧
        sets t (obeys { P with state := if P.toPaired then 2 else 0, step := 0 })) ∧
      (P.step = 2 → P.stepAt + 100 * 114000 ≤ s.now → s.drainUnits slice ≠ [] →
        ∃ t, exec (.pairDrainTimeout slice) s = .next t ∧ t.mem = s.mem ∧ ∀ b ∈ s.drainUnits slice,
          (t.block b).chosen = if (s.block b).follower.isSome then 3 else 2)) ∧
    (∀ part, (∀ x ∈ s.partSlices part, (s.pairOf x).state ≠ 2 ∧ ¬ ((s.pairOf x).state = 1 ∧ (s.pairOf x).toPaired = true)) →
      (∃ p ∈ s.ranked part, 2 ≤ p.2.lrec.il) →
      (s.partSlices part).find? (fun x => (s.pairOf x).state == 0 && (s.pairOf x).auto) = some slice →
      ∃ t, exec (.autoPair part) s = .next t ∧ t = { s with pairs := t.pairs } ∧ sets t (change P true)) ∧
    ∀ part, P.state = 2 → P.auto = true → P.req = false → (∀ b ∈ resident, (s.recOf b).il < 2) → s.slicePart slice = some part →
      (∀ p ∈ s.ranked part, p.2.lrec.il < 2) →
      (∃ p ∈ s.ranked part, (s.launch p.1).state = .ready ∧ (s.launch p.1).ending = false ∧
        (s.launch p.1).noRoomSince + 100 * 114000 ≤ s.now ∧ ∃ o, s.nextOffer p.1 = some o ∧ s.planOffer p.1 o = none) →
      ∃ t, exec (.autoUnpairTimeout slice) s = .next t ∧ t = { s with pairs := t.pairs } ∧ sets t (change P false)) ∧
  (∀ (s : State) (b : Nat) (B : Block), FMap.sorted s.blocks = true → FMap.sorted s.launches = true → s.blocks.find b = some B →
    B.follower.isSome → (s.launch B.launch).ending = false → (s.launches.find B.launch).isSome → (s.launch B.launch).state ≠ .complete →
    let slice := B.core / 4
    let others : List Nat := (s.sliceBlocks slice).filter (· != b)
    let exposed (c : Nat) : Prop := (s.block c).ctx ≠ 0 ∧ ∃ k ∈ s.openBelow (s.block c).ctx, (s.ctx k).exposed = true
    let again (t : State) (c : Nat) (own : Bool) : Prop := (t.block c).residence = .saved ∧ (t.block c).image = none ∧ (t.block c).rerun = true ∧
      (t.block c).ownRerun = (own || (s.block c).ownRerun) ∧ (t.block c).items = [] ∧ (∀ p ∈ t.threads, p.2.block ≠ c) ∧
      ∀ p ∈ t.groups, p.2.block ≠ c
    let faults (t : State) : Prop := (t.launch B.launch).ending = true ∧ (t.launch B.launch).status = 6
    let mismatch (i : Instr) (slot kind pc : Nat) (diff : Nat × Nat) : Prop :=
      ∃ t, exec i s = .next t ∧
        (∃ m, t.mismatches.getLast? = some m ∧ m = ⟨BitVec.ofNat 16 s.mmSeq ++ BitVec.ofNat 4 slice ++ BitVec.ofNat 2 (B.core % 2) ++
          BitVec.ofNat 10 slot ++ BitVec.ofNat 4 kind ++ BitVec.ofBool (s.blockExposed b) ++ BitVec.ofBool B.ownRerun ++ BitVec.ofNat 26 B.index,
          BitVec.ofNat 64 (pc % 2 ^ 52), BitVec.ofNat 64 diff.1, BitVec.ofNat 64 diff.2⟩) ∧
        t.mmSeq = (s.mmSeq + 1) % 2 ^ 16 ∧ (∀ p ∈ t.threads, p.1 / 4096 ≠ slice) ∧
        (FMap.sorted s.groups = true → ∀ g G k, s.groups.find g = some G → G.block = b → G.slot = some k → G.lanes ≠ [] →
          ∃ x, t.assayed.find (32 * G.seq + k) = some x ∧ x.getLsbD 32 = true) ∧
        (∀ c ∈ others, ¬ exposed c → again t c false) ∧
        (exposed b → faults t ∧ (t.pairOf slice) = s.pairOf slice) ∧
        (¬ exposed b → B.ownRerun = false → again t b true ∧ t.pairOf slice = s.pairOf slice) ∧
        (¬ exposed b → B.ownRerun = true → (t.pairOf slice).state = 3 ∧
          ((s.recOf b).il = 2 ∨ s.otherPair (s.launch B.launch).part slice = false → faults t) ∧
          ((s.recOf b).il ≠ 2 → s.otherPair (s.launch B.launch).part slice = true → again t b true))
    (B.residence = .resident → slice < 16 →
      ((∀ i ∈ B.items, ∀ j ∈ B.items, i.kind < 8 → j.kind < 8 → i.side = 0 → j.side ≠ 0 → i.slot = j.slot → i.n = j.n →
          i.kind = j.kind ∧ i.addr = j.addr ∧ i.data = j.data ∧ i.extra = j.extra ∧ i.size = j.size) →
        exec (.assayMismatch b) s = .next s) ∧
      (∀ i j, s.differing b = some (i, j) → i.side = 0 ∧ j.side ≠ 0 ∧ i.slot = j.slot ∧ i.n = j.n ∧
        mismatch (.assayMismatch b) i.slot i.kind i.pc (firstDiff (some i) (some j))) ∧
      (∀ i, B.items.find? (fun i => (decide (i.kind < 8) || i.kind == kindMark) && decide (i.since + 1000 * 114000 ≤ s.now)) = some i →
        if i.side = 0 then mismatch (.assayTimeout b) i.slot 5 i.pc (firstDiff (some i) none)
        else mismatch (.assayTimeout b) i.slot 5 0 (firstDiff none (some i))) ∧
      ∀ f : DataFault, s.faultLive f = true → (s.dropFaulty f).faultLive f = true → (s.dropFaulty f).faultBlock f = b →
        2 ≤ (s.recOf b).il → f.retryOk = false ∨ f.struct = 2 → ∃ pc, mismatch (.dataFaultRetry f) (f.thread % 1024) 6 pc (0, 0)) ∧
    (B.residence = .exited → (∀ i ∈ B.items, 8 ≤ i.kind) → (s.ctx B.ctx).owner = b → (s.ctx B.ctx).state = .opened →
      ∃ t, exec (.assayPass b) s = .next t ∧ (t.ctx B.ctx).state = .settling ∧ (t.block b).items = [] ∧ (t.block b).rerun = false ∧
        (t.launch B.launch).transient = (s.launch B.launch).transient + if B.rerun then 1 else 0)) ∧
  ∀ (s : State) (f : DataFault) (b : Nat) (B : Block), FMap.sorted s.blocks = true → s.blocks.find b = some B → B.residence = .resident →
    (s.launches.find B.launch).isSome → (s.launch B.launch).ending = false → (s.launch B.launch).state ≠ .complete →
    let r := s.dropFaulty f
    s.faultBlock f = b → r.faultBlock f = b →
    (s.thread f.thread).disp ≠ .exited ∨ (∀ x pc, s.faultSite f ≠ .lane x pc ∧ r.faultSite f ≠ .lane x pc) →
    let core := f.thread / 1024
    let c : LaneCause := ⟨f.thread, 33, f.addr, 0⟩
    (r = { s with l1 := if f.struct = 0 then s.l1.filter fun l =>
      !(l.core == core && l.vline == f.addr / 64 && (l.tag, l.tenant) == s.faultView f) else s.l1 }) ∧
    (f.retryOk = true → f.struct ≠ 2 → ∃ t : State, exec (.dataFaultRetry f) s = .next t ∧
      t = { r with launches := t.launches, transient := t.transient } ∧
      (t.launch B.launch).transient = (s.launch B.launch).transient + 1 ∧
      (t.transient.find (core / 2)).getD 0 = (s.transient.find (core / 2)).getD 0 + 1) ∧
    (f.retryOk = false ∨ f.struct = 2 →
      ((s.recOf b).il = 1 → s.blockExposed b = false →
        (B.ownRerun = true → ∃ t, exec (.dataFaultRetry f) s = .next t ∧ (t.launch B.launch).ending = true ∧
          (t.launch B.launch).status = 6) ∧
        (B.ownRerun = false → ∃ t, exec (.dataFaultRetry f) s = .next t ∧ (t.block b).residence = .saved ∧ (t.block b).image = none ∧
          (t.block b).ownRerun = true ∧ (∀ p ∈ t.threads, p.2.block ≠ b) ∧ ∀ p ∈ t.groups, p.2.block ≠ b)) ∧
      ((s.recOf b).il = 0 ∨ (s.recOf b).il = 1 ∧ s.blockExposed b = true →
        (∀ id e, r.faultSite f = .entry id e → isShared e.instr = false → e.lanes.map LaneSrc.thread = [f.thread] →
          exec (.dataFaultRetry f) s = .next (r.faultLanes id e [c])) ∧
        (∀ id a, r.faultSite f = .copy id a →
          ∃ t, exec (.dataFaultRetry f) s = .next t ∧ t = { r with threads := t.threads, acps := s.acps.del id } ∧
            t.thread f.thread = { s.thread f.thread with
              acp := listSet (s.thread f.thread).acp a.tag ((s.thread f.thread).acp.getD a.tag 0 - 1)
              acpEcc := (s.thread f.thread).acpEcc.put a.tag f.addr }) ∧
        (∀ x g pc G, r.faultSite f = .fetch x g pc → s.groups.find g = some G → (∀ u ∈ G.lanes, (s.thread u).disp = .group g) →
          ∃ t, exec (.dataFaultRetry f) s = .next t ∧ r.Trapped t g G pc (G.lanes.map fun u => ⟨u, 33, pc, 0⟩)) ∧
        (∀ x pc g G, r.faultSite f = .lane x pc → (s.thread f.thread).disp = .group g →
          s.groups.find g = some G → G.wait = none → ∃ t, exec (.dataFaultRetry f) s = .next t ∧ r.Trapped t g G G.pc [c])))

/-- R347 to R353, R357, R367, R348: the writes of the registers that divide the device: when one is taken, the code that CFGERR holds when it
is not, and what the frozen ones do to a secure stream. The code of an overlapping layout is the model's reading (log 48). -/
def Obligations.ConfigurationWrites : Prop :=
  ∀ s : State, FMap.sorted s.sec.streams = true →
    let refused (c : Nat) : State := { s with cfg := { s.cfg with cfgerr := c } }
    let freezing (p : Stream → Prop) : Prop := ∃ x ∈ s.sec.streams, x.2.state ≠ 0 ∧ p x.2
    let broken (i : Instr) (p : Stream → Prop) : Prop := ∃ t, exec i s = .next t ∧ t.cfg = { s.cfg with cfgerr := 4 } ∧
      t.threads = s.threads ∧ t.groups = s.groups ∧ t.blocks = s.blocks ∧ ∀ k,
        (((s.stream k).state = 1 ∨ (s.stream k).state = 2) ∧ p (s.stream k) → t.stream k = { s.stream k with state := 3, reason := 3 }) ∧
        (¬ (((s.stream k).state = 1 ∨ (s.stream k).state = 2) ∧ p (s.stream k)) → t.stream k = s.stream k)
    let ofWorld (m : Stream) (u : Nat) : Prop := bitOf (s.tenantReg u) 63 = true ∧ s.streamWorld m = some (bitsOf (s.tenantReg u) 48 4)
    let inPart (f : Nat) (m : Stream) : Prop := ∃ u, u < 256 ∧ ofWorld m u ∧ bitsOf (s.tenantReg u) 40 4 = f
    (∀ v : DWord, let x := v.toNat % 2 ^ 48
      let size (k : Nat) : Nat := x / 2 ^ (4 * k) % 16
      let legal : Prop := ∀ k, k < 12 → size k ≠ 0 → (size k = 1 ∨ size k = 2 ∨ size k = 3 ∨ size k = 4 ∨ size k = 6 ∨ size k = 12) ∧
        k % size k = 0 ∧ k + size k ≤ 12 ∧ ∀ j, k < j → j < k + size k → size j = 0
      let part (k : Nat) : Option Nat := (upFrom 0 12).find? fun f => decide (f ≤ k ∧ k < f + size f)
      let free (k : Nat) : Prop := (∀ p ∈ s.blocks, p.2.residence = .resident → p.2.core / 4 ≠ k) ∧
        (∀ f, s.slicePart k = some f → (∀ p ∈ s.blocks, p.2.image.isSome → (s.launch p.2.launch).part ≠ f) ∧ s.liveTags f = 0 ∧
          ∀ q ∈ s.sqs, q.2.enable = true → q.2.part ≠ f) ∧
        (s.pairOf k).req = false ∧ (s.pairOf k).auto = false ∧ (s.pairOf k).state = 0
      (freezing (fun _ => True) → broken (.playoutWrite v) fun _ => True) ∧
      (¬ freezing (fun _ => True) →
        (¬ legal → exec (.playoutWrite v) s = .next (refused 1)) ∧
        (legal → (∃ k, k < 12 ∧ part k ≠ s.slicePart k ∧ ¬ free k) → exec (.playoutWrite v) s = .next (refused 2)) ∧
        (legal → (∀ k, k < 12 → part k ≠ s.slicePart k → free k) → exec (.playoutWrite v) s = .next
          { s with cfg := { s.cfg with playout := x, parts := s.cfg.parts.filter fun p => size p.1 != 0 } }))) ∧
    (∀ (f : Nat) (v : DWord), let n := v.toNat
      let P := s.partRegs f
      let puts (Q : PartRegs) : State := { s with cfg := { s.cfg with parts := s.cfg.parts.put f Q } }
      let others (p : PartRegs → Prop) : Prop := ∃ g Q, (g, Q) ∈ s.cfg.parts ∧ g ≠ f ∧ p Q
      let begins : Prop := f < 12 ∧ s.cfg.playout / 2 ^ (4 * f) % 16 ≠ 0
      let new (k : Nat) : Prop := k < 24 ∧ bitOf n k = true ∧ bitOf P.peng k = false
      let first := n % 2 ^ 12
      let count := n / 2 ^ 16 % 2 ^ 13
      let clash (Q : PartRegs) : Prop := ∃ i, first ≤ i ∧ i < first + count ∧ bitsOf Q.pevt 0 12 ≤ i ∧ i < bitsOf Q.pevt 0 12 + bitsOf Q.pevt 16 13
      let shares := sumOf ((s.cfg.parts.filter fun p => p.1 != f).map fun p => p.2.pmint)
      (¬ begins → exec (.pengWrite f v) s = .next s ∧ exec (.pevtWrite f v) s = .next s ∧ exec (.pmintWrite f v) s = .next s) ∧
      (begins → freezing (inPart f) → broken (.pengWrite f v) (inPart f) ∧ broken (.pevtWrite f v) (inPart f) ∧
        broken (.pmintWrite f v) (inPart f)) ∧
      (begins → ¬ freezing (inPart f) →
        ((∃ k, new k ∧ others fun Q => bitOf Q.peng k = true) → exec (.pengWrite f v) s = .next (refused 3)) ∧
        ((∀ k, new k → ¬ others fun Q => bitOf Q.peng k = true) → (∃ k, new k ∧ ∃ c ∈ s.engQ k, c.part ≠ f) →
          exec (.pengWrite f v) s = .next (refused 2)) ∧
        ((∀ k, new k → ¬ (others fun Q => bitOf Q.peng k = true) ∧ ∀ c ∈ s.engQ k, c.part = f) →
          exec (.pengWrite f v) s = .next (puts { P with peng := n % 2 ^ 24 })) ∧
        (4096 < first + count → exec (.pevtWrite f v) s = .next (refused 1)) ∧
        (first + count ≤ 4096 → others clash → exec (.pevtWrite f v) s = .next (refused 3)) ∧
        (first + count ≤ 4096 → ¬ others clash → exec (.pevtWrite f v) s = .next (puts { P with pevt := count * 2 ^ 16 + first })) ∧
        (65535 < n % 2 ^ 16 + shares → exec (.pmintWrite f v) s = .next (refused 3)) ∧
        (n % 2 ^ 16 + shares ≤ 65535 → exec (.pmintWrite f v) s = .next (puts { P with pmint := n % 2 ^ 16 })))) ∧
    (∀ (u : Nat) (v : DWord), u < 256 →
      let x := bitsOf v.toNat 63 1 * 2 ^ 63 + bitsOf v.toNat 48 4 * 2 ^ 48 + bitsOf v.toNat 40 4 * 2 ^ 40 + bitsOf v.toNat 32 1 * 2 ^ 32 +
        v.toNat % 2 ^ 14
      let budget (n : Nat) : Nat := if bitOf n 32 then n % 2 ^ 14 else 0
      let sum := sumOf ((s.cfg.tenants.filter fun p => p.1 != u).map fun p => budget p.2.toNat) + budget s.cfg.hostacct.toNat + budget x
      let changes : Prop := x / 2 ^ 40 ≠ s.tenantReg u / 2 ^ 40
      let busy : Prop := (∃ c q, c < 48 ∧ q < 4 ∧ s.quarterOwner c q = some u) ∨
        ∃ p ∈ s.launches, p.2.lrec.tenant = u ∧ p.2.state ≠ .complete
      (freezing (fun m => ofWorld m u) → broken (.tenantWrite u v) fun m => ofWorld m u) ∧
      (¬ freezing (fun m => ofWorld m u) →
        (changes ∧ busy → exec (.tenantWrite u v) s = .next (refused 2)) ∧
        (¬ (changes ∧ busy) → 13500 < sum → exec (.tenantWrite u v) s = .next (refused 3)) ∧
        (¬ (changes ∧ busy) → sum ≤ 13500 → ∃ t : State, exec (.tenantWrite u v) s = .next t ∧
          t = { s with cfg := { s.cfg with tenants := t.cfg.tenants } } ∧ t.tenantReg u = x ∧ ∀ w, w ≠ u → t.tenantReg w = s.tenantReg w))) ∧
    (∀ (n : Nat) (v : DWord), n < 48 →
      let entry (w q : Nat) : Nat × Bool := (w / 2 ^ (8 * q) % 2 ^ 8, bitOf w (32 + q))
      let old := (s.cfg.qown.findD n 0).toNat
      let changed (q : Nat) : Prop := q < 4 ∧ entry v.toNat q ≠ entry old q
      let names (m : Stream) : Prop := ∃ q, changed q ∧ ((entry v.toNat q).2 = true ∧ ofWorld m (entry v.toNat q).1 ∨
        (entry old q).2 = true ∧ ofWorld m (entry old q).1)
      let taken (q : Nat) : Prop := ∃ p ∈ s.threads, p.1 / 256 = 4 * n + q ∧ p.2.disp ≠ .exited
      let fits (q : Nat) : Prop := (entry v.toNat q).2 = true → bitOf (s.tenantReg (entry v.toNat q).1) 63 = true ∧
        n / 4 ∈ s.partSlices (bitsOf (s.tenantReg (entry v.toNat q).1) 40 4)
      (freezing names → broken (.qownWrite n v) names) ∧
      (¬ freezing names →
        ((∃ q, changed q ∧ taken q) → exec (.qownWrite n v) s = .next (refused 2)) ∧
        ((∀ q, changed q → ¬ taken q) → (∃ q, changed q ∧ ¬ fits q) → exec (.qownWrite n v) s = .next (refused 1)) ∧
        ((∀ q, changed q → ¬ taken q ∧ fits q) → ∃ t : State, exec (.qownWrite n v) s = .next t ∧
          t = { s with cfg := { s.cfg with qown := t.cfg.qown }, mem := t.mem, obDirty := t.obDirty, spadBanks := t.spadBanks,
                       spadWakes := t.spadWakes, blocks := t.blocks } ∧
          (FMap.sorted s.blocks = true →
            (∀ b q, changed q → b ∈ s.homedIn n q → (t.bside b n).records = [] ∧ (t.bside b n).tiles = []) ∧
            ∀ b, (∀ q, changed q → b ∉ s.homedIn n q) → t.block b = s.block b) ∧
          (∀ q, q < 4 → t.quarterOwner n q = if (entry v.toNat q).2 then some (entry v.toNat q).1 else none) ∧
          (∀ c, c ≠ n → t.cfg.qown.find c = s.cfg.qown.find c) ∧
          (∀ q, changed q → (∀ k, k < 4 → t.spadBank n (4 * q + k) = .off) ∧
            (∀ a, a < 0x20000 → t.byte (tilePa n (0x20000 * q + a)) = 0) ∧ ∀ a, a < 0x40000 → t.byte (obPa n (0x40000 * q + a)) = 0) ∧
          ((∀ q, changed q → s.homedIn n q = []) → ∀ a, (∀ q, changed q → (∀ o, o < 0x20000 → a ≠ tilePa n (0x20000 * q + o)) ∧ (∀ o, o < 0x40000 → a ≠ obPa n (0x40000 * q + o)) ∧
            ∀ o, o < 0x80000 → a ≠ spadPa n (0x80000 * q + o)) → t.byte a = s.byte a)))) ∧
    (∀ (i : Nat) (v : DWord), i < 4 →
      let x := v.toNat % 2 ^ 16
      let sum := sumOf ((upFrom 0 4).map fun k => if k = i then x else s.floorOf k)
      (s.cfg.pcap < sum → exec (.floorWrite i v) s = .next (refused 3)) ∧
      (sum ≤ s.cfg.pcap → ∃ t : State, exec (.floorWrite i v) s = .next t ∧ t = { s with cfg := { s.cfg with floors := t.cfg.floors } } ∧
        ∀ k, t.floorOf k = if k = i then x else s.floorOf k)) ∧
    (∀ v : DWord, let c := bitsOf v.toNat 32 10
      let f := bitsOf v.toNat 16 10
      (c < f → exec (.lowrailWrite v) s = .next (refused 1)) ∧
      (f ≤ c → exec (.lowrailWrite v) s = .next { s with lowRail := { s.lowRail with
        auto := bitOf v.toNat 48, ceiling := c, floor := f, setpoint := max f (min c s.lowRail.setpoint) } })) ∧
    exec .cfgerrClear s = .next (refused 0)

/-- R6, R78, R109, R190, R316, R361, R374, R375, R378, R379, R381, R391, R395: accesses of the host to memory and to registers, by their
addresses; the registers whose write starts something; and the steps of the bring-up: images are measured and checked in turn, the first that
may not start ends the bring-up, and step 4 draws the keys of the ports (its place among the steps is log 56). -/
def Obligations.HostEvents : Prop :=
  (∀ s : State,
    let ctl := 0xF00C0000000
    (∀ v : DWord, exec (.icinvWrite v) s = .next { s with icinv := true } ∧ exec (.xlinvWrite v) s = .next { s with xlinv := s.xlinv ++ [v] }) ∧
    (s.icinv = true → exec .icinvComplete s = .next { s with icinv := false, icache := [] }) ∧
    (∀ (v : DWord) (r : List DWord), s.xlinv = v :: r →
      let tenant (u : Nat) : Prop := v.getLsbD 1 = true ∨ bitsOf v.toNat 16 8 = u
      let page (p size : Nat) : Prop := v.getLsbD 0 = true ∨ p / 2 ^ (pageShift size - 12) = bitsOf v.toNat 24 40 / 2 ^ (pageShift size - 12)
      (∀ p ∈ s.engines, ∀ c ∈ p.2, tenant c.tenant → ∀ m ∈ c.maps, ¬ page m.1 (pteSize m.2)) →
      ∃ t, exec .xlinvComplete s = .next t ∧ t = { s with tlb := t.tlb, l1 := t.l1, xlinv := r } ∧
        (∀ x, x ∈ t.tlb ↔ x ∈ s.tlb ∧ ¬ (tenant x.tenant ∧ page x.page (pteSize x.pte))) ∧
        (∀ l ∈ t.l1, l ∈ s.l1) ∧ (∀ l ∈ s.l1, ¬ tenant l.tenant → l ∈ t.l1) ∧
        ∀ l ∈ s.l1, tenant l.tenant → page (l.vline / 64) 0 ∨ page (l.vline / 64) 1 ∨ page (l.vline / 64) 2 → l ∉ t.l1) ∧
    (∀ v : DWord, let q := v.toNat % 2 ^ 7
      let live (p : Nat × Launch) : Prop := p.2.queue = q ∧ p.2.state ≠ .complete
      (v.getLsbD 31 = false ∨ 96 ≤ q ∨ (∀ p ∈ s.launches, ¬ live p) → exec (.launchabortWrite v) s = .next s) ∧
      (FMap.sorted s.launches = true → v.getLsbD 31 = true → q < 96 → (∃ p ∈ s.launches, live p) → ∃ t, exec (.launchabortWrite v) s = .next t ∧
        t = { s with launches := t.launches, sqs := t.sqs, abortBusy := true } ∧ (t.sq q).stopped = true ∧
        (∀ k, k ≠ q → t.sq k = s.sq k) ∧ ∀ l L, s.launches.find l = some L → t.launches.find l = some
          (if L.queue = q ∧ L.state ≠ .complete ∧ L.ending = false then { L with ending := true, status := 7 } else L))) ∧
    (∀ c, exec (.railcntClear c) s = .next { s with lowRail := { s.lowRail with counts := s.lowRail.counts.del c } }) ∧
    exec .evrctlOverflowClear s = .next { s with evr := { s.evr with overflow := false } } ∧
    exec .evrlostClear s = .next { s with evr := { s.evr with lost := 0 } } ∧
    exec .mbxreplyRead s = .next { s with sec := { s.sec with hostReplyValid := false }, hostReply := some (leBytes s.sec.hostReply.toNat 8) } ∧
    (∀ r : BootResult, s.sec.bootFailed = false → r.step = s.sec.bootStep + 1 → r.step ≤ 8 →
      let images : List Nat := if r.step = 2 then [0] else if r.step = 3 then [1, 2, 3] else []
      let measured (t : State) (ks : List Nat) : Prop := ∀ k, t.sec.meas.find k = if k ∈ ks then
        some (BitVec.ofNat 384 (leNat (sha384 (leBytes (s.sec.meas.findD k 0).toNat 48 ++ leBytes (Config.imageDigest k).toNat 48))))
        else s.sec.meas.find k
      (r.ok = false → exec (.bringUp r) s = .next { s with sec := { s.sec with bootFailed := true } }) ∧
      (r.ok = true → (∀ k ∈ images, imageStarts k = true) → ∃ t : State, exec (.bringUp r) s = .next t ∧
        t = { s with cfg := t.cfg, sec := { s.sec with
          bootStep := r.step, meas := t.sec.meas, nocKeys := t.sec.nocKeys, nocCounters := t.sec.nocCounters } } ∧
        t.cfg = (if r.step = 4 then { s.cfg with
          dramcfg := if Config.orderingCode = 2 then 0xFF else r.fitted % 4096 + (if r.cap = 0 then 0 else 2 ^ 16) } else s.cfg) ∧
        (if r.step = 4 then t.sec.nocCounters = [] ∧ ∀ w, w < 16 → t.sec.nocKeys.find w = some (Config.nocKey s.freeCtr w)
          else t.sec.nocKeys = s.sec.nocKeys ∧ t.sec.nocCounters = s.sec.nocCounters) ∧
        measured t (if r.step = 2 then [0, 4] else images)) ∧
      (r.ok = true → ∀ before k after, images = before ++ k :: after → (∀ x ∈ before, imageStarts x = true) → imageStarts k = false →
        ∃ t : State, exec (.bringUp r) s = .next t ∧ t = { s with sec := { s.sec with bootFailed := true, meas := t.sec.meas } } ∧
          measured t before)) ∧
    (∀ v : DWord,
      let at_ (o : Nat) : Host.Outcome State Fault Refusal := exec (.registerWrite (ctl + o) v) s
      at_ 0x2000 = exec (.icinvWrite v) s ∧ at_ 0x2008 = exec (.xlinvWrite v) s ∧ at_ 0x2010 = exec (.launchabortWrite v) s ∧
      at_ 0x6000 = exec (.playoutWrite v) s ∧ at_ 0x6008 = exec .cfgerrClear s ∧ at_ 0x8028 = exec .evrlostClear s ∧
      at_ 0x8100 = exec (.lowrailWrite v) s ∧ at_ 0x8008 = .next (if s.evr.enable then s else { s with evr := { s.evr with
        base := bitsOf v.toNat 12 32 * 2 ^ 12 } }) ∧
      at_ 0x8010 = .next (if s.evr.enable then s else { s with evr := { s.evr with size := v.toNat % 16 } }) ∧
      at_ 0x8018 = .next { s with evr := { s.evr with head := v.toNat % 2 ^ 32 } } ∧ at_ 0x8020 = .next s ∧
      at_ 0x7800 = .next { s with cfg := { s.cfg with pcap := v.toNat % 2 ^ 16 } } ∧
      (∀ q, q < 96 → at_ (0x40 * q + 0x18) = .next s ∧ at_ (0x40 * q + 0x20) = exec (.sqtailWrite q (v.setWidth 32)) s) ∧
      (∀ x, x < 12 → at_ (0x5000 + 8 * x) = exec (.pairctlWrite x v) s) ∧
      (∀ f, f < 12 → at_ (0x6100 + 0x40 * f) = exec (.pengWrite f v) s ∧ at_ (0x6108 + 0x40 * f) = exec (.pmintWrite f v) s ∧
        at_ (0x6110 + 0x40 * f) = exec (.pevtWrite f v) s) ∧
      (∀ n, n < 48 → at_ (0x6800 + 8 * n) = exec (.qownWrite n v) s ∧
        ∀ j, j < 8 → ∃ t : State, at_ (0x4000 + 0x40 * n + 8 * j) = .next t ∧ t = { s with cfg := { s.cfg with sched := t.cfg.sched } } ∧
          (t.cfg.sched.findD (8 * n + j) 0).toNat = bitsOf v.toNat 63 1 * 2 ^ 63 + bitsOf v.toNat 32 4 * 2 ^ 32 + v.toNat % 2 ^ 32) ∧
      (∀ u, u < 256 → at_ (0x7000 + 8 * u) = exec (.tenantWrite u v) s ∧
        ((∀ x ∈ s.sec.streams, x.2.state = 0) → ∃ t : State, at_ (0x3000 + 8 * u) = .next t ∧
          t = { s with cfg := { s.cfg with xlroot := t.cfg.xlroot } } ∧
          (t.cfg.xlroot.findD u 0).toNat = bitsOf v.toNat 7 37 * 2 ^ 7 + v.toNat % 2)) ∧
      (∀ i, i < 4 → at_ (0x7808 + 8 * i) = exec (.floorWrite i v) s) ∧
      (∀ n, n < 4096 → at_ (0x10000 + 8 * n) = exec (.eventCounterHostAdd n v) s) ∧
      (∀ c, c < 24 → at_ (0x8140 + 8 * c) = exec (.railcntClear c) s) ∧
      (s.sec.hostBusy = true → at_ 0x7900 = .next s) ∧
      (s.sec.hostBusy = false → at_ 0x7900 = .next
        { s with sec := { s.sec with hostMsg := v, hostBusy := true, queue := s.sec.queue ++ [(0, v)] } })) ∧
    (∀ pa n, 1 ≤ n → pa % 64 + n ≤ 64 → s.owned (pa / 64) = false →
      (pa + n ≤ s.dramSize → pa + n ≤ 0x30000000000 →
        exec (.hostMemoryAccess (.read pa n)) s = .next { s with hostReply := some ((upFrom pa n).map s.byte), hostBusErr := false }) ∧
      (s.phys pa = .none → exec (.hostMemoryAccess (.read pa n)) s = .next { s with hostReply := none, hostBusErr := true })) ∧
    (∀ pa (bs : List Byte), 1 ≤ bs.length → pa % 64 + bs.length ≤ 64 → s.owned (pa / 64) = false →
      (pa + bs.length ≤ s.dramSize → pa + bs.length ≤ 0x30000000000 → ∃ t : State, exec (.hostMemoryAccess (.write pa bs)) s = .next t ∧
        t = { s with mem := t.mem, hostReply := none, hostBusErr := false } ∧
        ∀ a, t.byte a = if pa ≤ a ∧ a < pa + bs.length then bs.getD (a - pa) 0 else s.byte a) ∧
      (s.phys pa = .none → exec (.hostMemoryAccess (.write pa bs)) s = .next { s with hostReply := none, hostBusErr := true }) ∧
      (ctl ≤ pa → pa < 0xF00C2000000 → pa % 8 = 0 → bs.length = 8 → ∃ t, exec (.registerWrite pa (BitVec.ofNat 64 (leNat bs))) s = .next t ∧
        exec (.hostMemoryAccess (.write pa bs)) s = .next { t with hostReply := none, hostBusErr := false })))

/-- R361, R362, R364 to R377: the messages of the SEC, one at a time: what each does and which reply it gets; the requests of SPDM in their order, and
the values of the measurement blocks; and the packets of the network-on-chip at their port. The layout of the measurement response is that of
SPDM 1.2 (log 21). Which address the SEC refuses is the model's reading (log 40). -/
def Obligations.SecureEvents : Prop :=
  (∀ (s : State) (who : Nat) (m : DWord) (rest : List (Nat × DWord)), 2 ≤ s.sec.bootStep → s.sec.queue = (who, m) :: rest →
    let k := m.toNat / 2 ^ 52 % 16
    let arg := m.toNat % 2 ^ 48
    let is (op : Nat) : Prop := m.toNat / 2 ^ 56 = op ∧ m.toNat / 2 ^ 48 % 16 = 0
    let M := s.stream k
    let done (S : Sec) (st val : Nat) : Sec :=
      let x : DWord := BitVec.ofNat 64 (st * 2 ^ 56 + val % 2 ^ 48)
      if who = 0 then { S with queue := rest, hostReply := x, hostReplyValid := true, hostBusy := false }
      else if (s.groups.find (who / 64 - 1)).isSome then { S with queue := rest, replies := S.replies.put (who / 64) x }
      else { S with queue := rest }
    let replies (i : Instr) (st val : Nat) : Prop := exec i s = .next { s with sec := done s.sec st val }
    let turns (i : Instr) (M' : Stream) : Prop := ∃ t : State, exec i s = .next t ∧
      t = { s with sec := done { s.sec with streams := t.sec.streams } 0 0 } ∧ t.stream k = M' ∧ ∀ j, j ≠ k → t.stream j = s.stream j
    let mixed : Prop := arg < 96 ∧ ∃ w, s.streamWorld M = some w ∧ w ≠ (s.sq arg).world
    (is 1 → arg < 128 → (M.state ≠ 0 → replies .bind 2 0) ∧ (M.state = 0 → 97 < arg ∨ mixed → replies .bind 3 0) ∧
      (M.state = 0 → arg ≤ 97 → ¬ mixed → ∃ is', (∀ j, j ∈ is' ↔ j = arg ∨ j ∈ M.ifs) ∧ turns .bind { M with ifs := is' })) ∧
    (is 2 → arg < 128 → (M.state ≠ 0 → replies .unbind 2 0) ∧
      (M.state = 0 → turns .unbind { M with ifs := M.ifs.filter fun j => j != arg })) ∧
    (is 3 → arg = 0 → (M.state ≠ 0 → replies .lock 2 0) ∧ (M.state = 0 → M.ifs = [] → replies .lock 3 0) ∧
      (M.state = 0 → (∃ j ∈ M.ifs, ∃ x ∈ s.sec.streams, x.2.state ≠ 0 ∧ j ∈ x.2.ifs) → replies .lock 1 0) ∧
      (M.state = 0 → M.ifs ≠ [] → (∀ j ∈ M.ifs, ∀ x ∈ s.sec.streams, x.2.state ≠ 0 → j ∉ x.2.ifs) →
        turns .lock { M with state := 1, owner := who % 64 })) ∧
    (is 4 → arg = 0 → (M.state ≠ 1 → replies .start 2 0) ∧ (M.state = 1 → M.owner ≠ who % 64 → replies .start 4 0) ∧
      (M.state = 1 → M.owner = who % 64 → ∃ t : State, exec .start s = .next t ∧
        t = { s with links := t.links, sec := done { s.sec with streams := t.sec.streams, linkKeys := t.sec.linkKeys } 0 0 } ∧
        t.stream k = { M with state := 2 } ∧ (∀ j, j ≠ k → t.stream j = s.stream j) ∧ ∀ p, p < 2 →
          t.linkOf p = (if 96 + p ∈ M.ifs then { s.linkOf p with rxCounter := 0, txCounter := 0 } else s.linkOf p) ∧
          ∀ d, d < 2 → t.sec.linkKeys.find (linkKeyNo k p d) = if 96 + p ∈ M.ifs then
            some (BitVec.ofNat 256 (leNat (hkdf384 (leBytes (s.sec.linkSecret.getD 0).toNat 32) (leBytes (Config.linkInfo k p d).toNat 48) 32)))
            else s.sec.linkKeys.find (linkKeyNo k p d))) ∧
    (is 5 → arg = 0 → (M.state = 0 → replies .unlock 2 0) ∧ (M.state ≠ 0 → M.owner ≠ who % 64 → replies .unlock 4 0) ∧
      (M.state ≠ 0 → M.owner = who % 64 → turns .unlock { M with state := 0, owner := 0, reason := 0 })) ∧
    (is 6 → arg = 0 → replies .query 0 (M.state + M.owner * 2 ^ 8 + M.ifs.length * 2 ^ 16 + M.reason * 2 ^ 24)) ∧
    (is 7 → arg < 2 ^ 44 → 3 ≤ s.sec.bootStep →
      let blob := s.bytes arg 1152
      let b (i : Nat) : Nat := (blob.getD i 0).toNat
      let legal : Prop := arg % 64 = 0 ∧ arg + 1152 ≤ s.dramSize ∧ b 0 = 1 ∧ b 1 ≤ 1 ∧ (∀ i, 5 ≤ i → i < 16 → b i = 0) ∧ (b 1 = 0 → b 2 < 64)
      let opened := (Config.decapsulate ((blob.drop 16).take 1088)).map fun x => Config.gcmOpen x (blob.drop 1104)
      (¬ legal → replies .keyprov 3 0) ∧ (legal → opened = none → replies .keyprov 4 0) ∧
      (legal → opened = some none → replies .keyprov 3 0) ∧
      ∀ key, legal → opened = some (some key) →
        (b 1 = 0 → (s.sec.keys.find (b 2)).isSome → replies .keyprov 1 0) ∧
        (b 1 = 0 → s.sec.keys.find (b 2) = none →
          exec .keyprov s = .next { s with sec := done { s.sec with keys := s.sec.keys.put (b 2) ⟨key, b 3, b 4⟩ } 0 0 }) ∧
        (b 1 = 1 → s.sec.linkSecret.isSome → replies .keyprov 1 0) ∧
        (b 1 = 1 → s.sec.linkSecret = none → exec .keyprov s = .next { s with sec := done { s.sec with linkSecret := some key } 0 0 })) ∧
    (is 7 → arg < 2 ^ 44 → s.sec.bootStep < 3 → exec .keyprov s = .next s) ∧
    (is 8 → arg < 64 →
      let keyed (R : Record) : Prop := R.keyed = some arg
      let runs : Prop := ∃ p ∈ s.blocks, p.2.residence = .resident ∧ ∃ c ∈ s.coresOf p.1, ∃ x ∈ (s.bside p.1 c).mloops,
        (x.state = .queued ∨ x.state = .running) ∧ (keyed x.recA ∨ keyed x.recB)
      ∃ t : State, exec .keyrevoke s = .next t ∧ t = { s with mem := t.mem, obDirty := t.obDirty, blocks := t.blocks, sec := t.sec } ∧
        (∀ b, ∀ c ∈ s.coresOf b, ∀ n R, ((t.bside b c).records.find n = some R → ¬ keyed R) ∧
          ((s.bside b c).records.find n = some R → keyed R → s.awake b = true →
            ∀ a, (R.range (s.block b) c).1 ≤ a → a < (R.range (s.block b) c).1 + (R.range (s.block b) c).2 → t.byte a = 0)) ∧
        (runs → t.sec = s.sec) ∧ (¬ runs → t.sec = done { s.sec with keys := s.sec.keys.del arg } 0 0)) ∧
    (is 9 → (arg / 2 ^ 44 < 8 ∨ arg % 2 ^ 44 % 64 ≠ 0 ∨ s.dramSize < arg % 2 ^ 44 + 48 → replies .extend 3 0) ∧
      (8 ≤ arg / 2 ^ 44 → arg % 2 ^ 44 % 64 = 0 → arg % 2 ^ 44 + 48 ≤ s.dramSize →
        let k := arg / 2 ^ 44
        exec .extend s = .next { s with sec := done { s.sec with meas := s.sec.meas.put k (BitVec.ofNat 384 (leNat (sha384
          (leBytes (s.sec.meas.findD k 0).toNat 48 ++ s.bytes (arg % 2 ^ 44) 48)))) } 0 0 })) ∧
    (m.toNat / 2 ^ 48 % 16 ≠ 0 ∨ m.toNat / 2 ^ 56 = 0 ∨ 9 < m.toNat / 2 ^ 56 ∨ (is 1 ∨ is 2) ∧ 128 ≤ arg ∨
      (is 3 ∨ is 4 ∨ is 5 ∨ is 6) ∧ arg ≠ 0 ∨ is 7 ∧ 2 ^ 44 ≤ arg ∨ is 8 ∧ 64 ≤ arg → replies .secBadMessage 3 0)) ∧
  (∀ s : State, s.sec.spdmBusy = true → 3 ≤ s.sec.bootStep →
    let pa := s.sec.spdmctl.toNat / 2 ^ 14 % 2 ^ 30 * 2 ^ 14
    let req := s.bytes pa (s.sec.spdmctl.toNat % 2 ^ 14)
    let code := (req.getD 1 0).toNat
    let answers (i : Instr) (order : Nat) (err : Option Nat) : Prop := ∃ t : State, exec i s = .next t ∧
      t = { s with mem := t.mem, sec := { s.sec with spdmLen := t.sec.spdmLen, spdmValid := true, spdmBusy := false, spdmOrder := order } } ∧
      t.sec.spdmLen < 2 ^ 14 ∧ (∀ a, a < pa ∨ pa + t.sec.spdmLen ≤ a → t.byte a = s.byte a) ∧
      ∀ e, err = some e → t.sec.spdmLen = 4 ∧ (pa + 4 ≤ s.dramSize → t.bytes pa 4 = [0x12, 0x7F, BitVec.ofNat 8 e, 0])
    let after (i : Instr) (n next : Nat) : Prop := (s.sec.spdmOrder < n → answers i s.sec.spdmOrder (some 4)) ∧
      (n ≤ s.sec.spdmOrder → answers i (max s.sec.spdmOrder next) none)
    (code = 0x84 → answers .getVersion 1 none) ∧ (code = 0xE1 → after .getCapabilities 1 2) ∧
    (code = 0xE3 → after .negotiateAlgorithms 2 3) ∧ (code = 0x81 → after .getDigests 3 3) ∧
    (code = 0x82 → (req.getD 2 0).toNat % 16 = 0 → after .getCertificate 3 3) ∧
    (code = 0x82 → (req.getD 2 0).toNat % 16 ≠ 0 → 3 ≤ s.sec.spdmOrder → answers .getCertificate s.sec.spdmOrder (some 1)) ∧
    (code = 0x83 → after .challenge 3 3) ∧ (code = 0xE0 → after .getMeasurements 3 3) ∧
    (let n := (req.getD 3 0).toNat
      let zeros (n : Nat) : List Byte := List.replicate n 0
      let port (L : Link) : List Byte :=
        (if L.state = 2 then [1, BitVec.ofNat 8 L.peerPort] ++ leBytes L.peerDigest.toNat 48
          else [if L.state = 3 then 2 else 0, BitVec.ofNat 8 L.peerPort] ++ zeros 48)
      let stream (M : Stream) : List Byte :=
        if M.state = 0 then zeros 49 else leBytes (Config.configDigest (s.frozenWords M)).toNat 48 ++ [BitVec.ofNat 8 M.state]
      (∀ v, (1 ≤ n ∧ n ≤ 16 ∧ v = leBytes (s.sec.meas.findD (n - 1) 0).toNat 48 ∨ 0x20 ≤ n ∧ n < 0x30 ∧ v = stream (s.stream (n - 0x20)) ∨
          n = 0x30 ∧ v = port (s.linkOf 0) ++ port (s.linkOf 1)) → code = 0xE0 → 3 ≤ s.sec.spdmOrder → (req.getD 2 0).getLsbD 0 = false →
        pa + 49 + v.length ≤ s.dramSize → ∃ t : State, exec .getMeasurements s = .next t ∧ t.bytes (pa + 15) v.length = v) ∧
      (code = 0xE0 → 3 ≤ s.sec.spdmOrder → (16 < n ∧ n < 0x20 ∨ 0x30 < n ∧ n < 0xFF) → answers .getMeasurements s.sec.spdmOrder (some 1))) ∧
    (code ∉ [0x84, 0xE1, 0xE3, 0x81, 0x82, 0x83, 0xE0] → answers .spdmUnsupportedRequest s.sec.spdmOrder (some 7))) ∧
  ∀ (s : State) (w : Flow) (tagOk : Bool) (f : DataFault), FMap.sorted s.sec.streams = true → FMap.sorted s.sec.nocCounters = true →
    isFlow w = true → (s.sec.nocKeys.find w.world).isSome →
    (∃ t : State, exec (.nocPacketReceive w true true f) s = .next t ∧
      t = { s with sec := { s.sec with nocCounters := t.sec.nocCounters } } ∧ t.flowCounter w = s.flowCounter w + 1 ∧
      ∀ v, isFlow v = true → v ≠ w → t.flowCounter v = s.flowCounter v ∧ t.packetIv v ≠ s.packetIv w) ∧
    (f.retryOk = false → f.struct ≠ 0 → exec (.nocPacketReceive w false tagOk f) s = exec (.dataFaultRetry f) s) ∧
    (f.retryOk = true → ∃ t, exec (.nocPacketReceive w false tagOk f) s = .next t ∧
      t = { s with launches := t.launches, transient := t.transient }) ∧
    ∃ t : State, exec (.nocPacketReceive w true false f) s = .next t ∧ ∀ k,
      let M := s.stream k
      let hit : Prop := (M.state = 1 ∨ M.state = 2) ∧ s.streamWorld M = some w.world
      (hit → t.stream k = { M with state := 3, reason := 2 }) ∧ (¬ hit → t.stream k = M)

/-- R357 to R359, R18, R370, R383, R385, R386, R388, R390 to R394, R398: the links; the power controller and the rails; the modes and windows of
DRAM; and the junction sensors, with the cold reset. -/
def Obligations.PowerEvents : Prop :=
  (∀ s : State,
    let us := 114000
    let posts (u t : State) (kind source detail value : Nat) : Prop :=
      let E := u.evr
      let pa := E.base + 32 * (E.tail % E.entries)
      let shut : Prop := E.enable = false ∨ (E.tail + 2 ^ 32 - E.head) % 2 ^ 32 = E.entries
      (shut → t.mem = u.mem ∧ t.evr = { E with seq := (E.seq + 1) % 2 ^ 32, lost := min (E.lost + 1) (2 ^ 32 - 1), overflow := true }) ∧
      (¬ shut → t.evr = { E with seq := (E.seq + 1) % 2 ^ 32, tail := (E.tail + 1) % 2 ^ 32, irqRaised := t.evr.irqRaised } ∧
        t.evr.irqRaised = E.irqRaised + (if E.irq then 1 else 0) ∧
        (∀ a, a < pa ∨ pa + 32 ≤ a → t.byte a = u.byte a) ∧
        (pa + 32 ≤ u.dramSize → ∀ i, i < 32 → t.byte (pa + i) = (eventBytes kind source detail value (u.now / 114) E.seq).getD i 0))
    let fails (t : State) (k reason : Nat) : Prop := t.stream k =
      if (s.stream k).state = 1 ∨ (s.stream k).state = 2 then { s.stream k with state := 3, reason := reason } else s.stream k
    let paired (c : Nat) : Prop := let P := s.pairOf (c / 2)
      P.state = 2 ∨ P.state = 1 ∧ (P.toPaired = false ∨ 4 ≤ P.step)
    (∀ g r, s.now < s.modeAt.findD g 0 + 16000 * us → exec (.dramModeCheck g r) s = .next s) ∧
    (∀ g r, g < 12 → bitOf s.cfg.dramcfg g = true → r < 4 → s.modeAt.findD g 0 + 16000 * us ≤ s.now →
      (s.cfg.drammode.findD g 0 = r → exec (.dramModeCheck g r) s = .next { s with modeAt := s.modeAt.put g s.now }) ∧
      (s.cfg.drammode.findD g 0 ≠ r → ∃ t : State, exec (.dramModeCheck g r) s = .next t ∧
        t = { s with modeAt := s.modeAt.put g s.now, cfg := { s.cfg with drammode := t.cfg.drammode }, evr := t.evr, mem := t.mem } ∧
        (∀ k, t.cfg.drammode.findD k 0 = if k = g then r else s.cfg.drammode.findD k 0) ∧
        posts s t 2 g r (if r = 0 then 13500 else if r = 1 then 12150 else if r = 2 then 10125 else 0))) ∧
    (s.now < s.windowAt + 10 * us → exec .dramWindow s = .next s) ∧
    (∀ (q : DramRequest) (a : Nat) (m : FMap Nat), s.accountOf q.src = some a → FMap.sorted m = true → q.group < 12 →
      ∀ k, (s.chargeRequest m q).findD k 0 = m.findD k 0 + if k = 16 * a + q.group ∧ bitOf s.cfg.dramcfg q.group = true then
        q.bursts + (if q.row then 4 else 0) + (if q.turn then 3 else 0) else 0) ∧
    (s.windowAt + 10 * us ≤ s.now → ∃ t : State, exec .dramWindow s = .next t ∧
      t = { s with spend := [], windowAt := s.now, dramBudgets := t.dramBudgets } ∧
      ∀ u, t.dramBudgets.findD u 0 = let v := if u = 256 then s.cfg.hostacct.toNat else s.tenantReg u
        v % 2 ^ 14 + if bitOf v 32 then 2 ^ 14 else 0) ∧
    (∀ p, p < 2 → ∀ x : PeerProof, (s.linkOf p).enable = true →
      let key := leBytes x.key.ed.toNat 32 ++ leBytes x.key.mlDsa.toNat 1952
      let signed := (upFrom 0 32).map (Config.freeByte s.freeCtr) ++ Config.portBytes x.port p
      let ok : Bool := Config.chainLeads x.chain Config.rootDigest key && x.signature.length == 3373 &&
        Config.edVerify x.key.ed signed (BitVec.ofNat 512 (leNat (x.signature.take 64))) &&
        Config.mlDsaVerify x.key.mlDsa signed (BitVec.ofNat 26472 (leNat (x.signature.drop 64)))
      ((s.linkOf p).state = 0 → ∃ t : State, exec (.linkTraining p x) s = .next t ∧
        t = { s with links := t.links, evr := t.evr, mem := t.mem } ∧ t.linkOf p = { s.linkOf p with state := 1 } ∧ posts s t 7 p 1 0) ∧
      ((s.linkOf p).state = 1 → ∃ t : State, exec (.linkTraining p x) s = .next t ∧
        t = { s with links := t.links, evr := t.evr, mem := t.mem } ∧
        t.linkOf p = { s.linkOf p with
          state := if ok then 2 else 3, lastAck := s.now, peerPort := x.port
          peerDigest := if ok then BitVec.ofNat 384 (leNat (sha384 key)) else 0 } ∧ posts s t 7 p (if ok then 2 else 3) 0)) ∧
    (∀ p, p < 2 → FMap.sorted s.sec.streams = true →
      (2 ≤ (s.linkOf p).state → 8 ≤ (s.linkOf p).replays ∨ (s.linkOf p).lastAck + 20 * us ≤ s.now →
        exec (.linkDownTimeout p) s = exec (.linkctlRetrain p) s) ∧
      ∃ u t : State, exec (.linkctlRetrain p) s = .next t ∧ t = (s.carried p).foldl (fun (x : State) f => x.failedRetry f) u ∧
        u = { s with links := u.links, sec := { s.sec with streams := u.sec.streams }, sqs := u.sqs, launches := u.launches, evr := u.evr,
                     mem := u.mem } ∧
        u.linkOf p = { s.linkOf p with
          state := 0, expected := 0, acked := 0, sent := 0, replays := 0, waitReplay := false, lastAck := s.now, peerPort := 0
          peerDigest := 0 } ∧
        ∀ k, (96 + p ∈ (s.stream k).ifs → fails u k 4) ∧ (96 + p ∉ (s.stream k).ifs → u.stream k = s.stream k)) ∧
    (∀ (p : Nat) (f : Flit), p < 2 → 2 ≤ (s.linkOf p).state →
      let L := s.linkOf p
      let gap (a b : Nat) : Nat := (a + 4096 - b % 4096) % 4096
      let L1 : Link := if gap f.ack L.acked ≤ 128 then { L with acked := f.ack % 4096, lastAck := s.now,
                                                                replays := if gap f.ack L.acked = 0 then L.replays else 0 } else L
      let L2 : Link := match f.replayFrom with
        | none => L1
        | some n => { L1 with replays := L1.replays + 1, replayed := min (L1.replayed + gap L1.sent n) (2 ^ 16 - 1) }
      let leaves (L' : Link) : Prop := ∃ t : State, exec (.linkFlitReceive p f) s = .next t ∧ t = { s with links := t.links } ∧
        t.linkOf p = L' ∧ ∀ q, q ≠ p → t.linkOf q = s.linkOf q
      let delivers : Prop := (s.portStream p = none ∧ f.stream = none) ∨
        ∃ k M, s.portStream p = some (k, M) ∧ f.stream = some k ∧ M.state = 2 ∧ L.state = 2
      (f.crcOk = false → leaves { L with waitReplay := true }) ∧
      (f.crcOk = true → f.seq % 4096 ≠ L.expected ∨ ¬ delivers → leaves L2) ∧
      (f.crcOk = true → f.seq % 4096 = L.expected → delivers →
        (f.stream = none → leaves { L2 with expected := (L.expected + 1) % 4096, waitReplay := false }) ∧
        ∀ k, f.stream = some k → (f.tagOk = true → leaves
            { L2 with expected := (L.expected + 1) % 4096, waitReplay := false, rxCounter := L.rxCounter + 1 }) ∧
          (f.tagOk = false → ∃ t : State, exec (.linkFlitReceive p f) s = .next t ∧ t.linkOf p = L2 ∧ fails t k 1 ∧
            ∀ j, j ≠ k → t.stream j = s.stream j))) ∧
    (∀ p pa, p < 2 → 2 ≤ (s.linkOf p).state →
      let L := s.linkOf p
      let admits (n : Nat) : Prop := L.wbase ≤ pa ∧ pa + n ≤ L.wbase + 0x10000 * L.wsize ∧ pa + n ≤ s.dramSize
      let free (n : Nat) : Prop := ∀ x, pa / 64 ≤ x → 64 * x < pa + n → s.owned x = false
      (∀ n, free n → ∃ t : State, exec (.peerLinkRequest p (.read pa n)) s = .next t ∧
        t = { s with links := t.links, peerReply := t.peerReply } ∧ (admits n → t.peerReply = some (s.bytes pa n)) ∧
        (¬ admits n → t.peerReply = none)) ∧
      ∀ bs : List Byte, free bs.length → ∃ t : State, exec (.peerLinkRequest p (.write pa bs)) s = .next t ∧
        t = { s with links := t.links, peerReply := t.peerReply, mem := t.mem } ∧
        (¬ admits bs.length → t.mem = s.mem ∧ t.peerReply = none) ∧
        (admits bs.length → t.peerReply = some [] ∧ ∀ a, t.byte a = if pa ≤ a ∧ a < pa + bs.length then bs.getD (a - pa) 0 else s.byte a)) ∧
    (∀ c, (s.rail c).changing = true → ∃ t : State, exec (.railChangeComplete c) s = .next t ∧ t = { s with rails := t.rails } ∧
      ∀ x, t.rail x = if x = c then { s.rail c with changing := false } else s.rail x) ∧
    (∀ c, (s.rail c).holdUntil ≠ 0 → (s.rail c).holdUntil ≤ s.now → ∃ t : State, exec (.lowRailHoldExpiry c) s = .next t ∧
      t = { s with rails := t.rails } ∧ ∀ x, t.rail x = if x = c then { s.rail c with holdUntil := 0 } else s.rail x) ∧
    (∀ n, s.now < s.lowRail.checkedAt + 1000 * us → exec (.undervoltInterval n) s = .next s) ∧
    (∀ n, s.lowRail.checkedAt + 1000 * us ≤ s.now → s.lowRail.floor ≤ s.lowRail.setpoint → s.lowRail.setpoint ≤ s.lowRail.ceiling →
      n = 0 ∨ (∃ c, c < 24 ∧ (s.rail c).high = false) →
      let R := s.lowRail
      let quiet : Prop := R.lastUncorr = 0 ∨ R.lastUncorr - 1 + 100000 * us ≤ s.now
      let count (t : State) (c : Nat) : Nat × Nat := t.lowRail.counts.findD c (0, 0)
      ∃ t : State, exec (.undervoltInterval n) s = .next t ∧ t = { s with lowRail := t.lowRail, freeCtr := t.freeCtr } ∧
        t.lowRail = { R with setpoint := t.lowRail.setpoint, held := t.lowRail.held, counts := t.lowRail.counts, checkedAt := s.now } ∧
        (R.auto = true → R.thresh < n → t.lowRail.setpoint = min (R.setpoint + 5) R.ceiling) ∧
        (R.auto = true → n = 0 → quiet → t.lowRail.setpoint = max (R.setpoint - 5) R.floor) ∧
        (R.auto = false ∨ (n ≤ R.thresh ∧ ¬ (n = 0 ∧ quiet)) → t.lowRail.setpoint = R.setpoint) ∧
        (∀ c, (count t c).2 = (count s c).2 % 2 ^ 16 ∨ count t c = count s c) ∧ (∀ c, (s.rail c).high = true → count t c = count s c) ∧
        ((∀ c, (count s c).1 + n < 2 ^ 32) →
          sumOf ((upFrom 0 24).map fun c => (count t c).1) = sumOf ((upFrom 0 24).map fun c => (count s c).1) + n)) ∧
    (∀ c (f : DataFault), c < 24 → (s.rail c).high = false → s.lowRail.setpoint ≤ s.lowRail.ceiling →
      let R := s.lowRail
      let first : Prop := R.raiseAt = 0 ∨ R.raiseAt - 1 + 2 * us ≤ s.now
      let old := R.counts.findD c (0, 0)
      ∃ u t : State, exec (.lowRailUncorrectable c f) s = .next t ∧
        u = { s with rails := u.rails, lowRail := u.lowRail, evr := u.evr, mem := u.mem } ∧
        (∀ x, u.rail x = if x = c then { s.rail c with high := true, clk := s.clusterClk c, at_ := s.now, changing := true,
                                                       holdUntil := s.now + 100 * us } else s.rail x) ∧
        (first → u.lowRail.setpoint = min (R.setpoint + 10) R.ceiling ∧ u.lowRail.held = (R.held || decide (R.ceiling < R.setpoint + 10)) ∧
          u.lowRail.raiseAt = s.now + 1) ∧
        (¬ first → u.lowRail.setpoint = R.setpoint ∧ u.lowRail.held = R.held ∧ u.lowRail.raiseAt = R.raiseAt) ∧
        u.lowRail = { R with setpoint := u.lowRail.setpoint, held := u.lowRail.held, raiseAt := u.lowRail.raiseAt,
                             lastUncorr := s.now + 1, counts := u.lowRail.counts } ∧
        (∀ x, u.lowRail.counts.findD x (0, 0) = if x = c then (old.1 % 2 ^ 32, (old.2 + 1) % 2 ^ 16) else R.counts.findD x (0, 0)) ∧
        posts s u 3 c f.struct u.lowRail.setpoint ∧
        (f.retryOk = true → f.struct ≠ 2 → t = u.dropFaulty f) ∧ (f.retryOk = false ∨ f.struct = 2 → t = (u.dropFaulty f).failedRetry f)) ∧
    (∀ (i level : Nat) (celsius : Int), i < 12 → 1 ≤ level → level ≤ 3 →
      let limit : Int := (if Config.orderingCode = 1 then 105 else 125) + 5 * ((level : Int) - 2)
      let crosses (rising : Bool) (new : Nat) : Prop :=
        let hot := maxOf (s.junction.store 0 i new).vals
        ∃ u t : State, exec (.junctionCrossing i level rising celsius) s = .next t ∧
          u = { s with junction := s.junction.store 0 i new, evr := u.evr, mem := u.mem } ∧
          posts s u 8 i (if rising then level else 0) (celsius % 2 ^ 64).toNat ∧
          (hot < 2 → t = u) ∧
          (hot = 2 → t = { u with rails := t.rails, budgets := t.budgets } ∧ (∀ c, c < 48 → t.budgets.findD c 16 = 2) ∧
            ∀ c, c < 24 → (paired c ∨ (s.rail c).high = false → t.rail c = s.rail c) ∧ (¬ paired c → (s.rail c).high = true →
              t.rail c = { s.rail c with high := false, clk := s.clusterClk c, at_ := s.now, changing := true })) ∧
          (hot = 3 → t = { State.reset with freeCtr := s.freeCtr, agenda := s.agenda, junction := s.junction.store 0 i new })
      (s.junction.findD i 0 + 1 = level → limit ≤ celsius → crosses true level) ∧
      (s.junction.findD i 0 = level → celsius < limit → crosses false (level - 1))) ∧
    exec .coldReset s = .next { State.reset with freeCtr := s.freeCtr, agenda := s.agenda, junction := s.junction }) ∧
  ∀ (s : State) (r : PowerReading),
    let us := 114000
    let runs (core t : Nat) : Prop := ∃ p ∈ s.blocks, p.2.residence = .resident ∧ (p.2.core = core ∨ p.2.follower = some core) ∧
      (s.launch p.2.launch).lrec.tier = t
    let words (core t : Nat) : Nat := sumOf ((upFrom 0 4).map fun q => (s.seqr (4 * core + q)).words.findD t 0)
    let D (t : Nat) : Nat := sumOf ((upFrom 0 48).map fun c =>
      Config.scaledDraw (s.budgets.findD c 16) (s.rail (c / 2)).high (s.tierDraw c (r.cores.getD c 0) t))
    let hot := maxOf s.junction.vals
    let sum := s.floorOf 0 + s.floorOf 1 + s.floorOf 2 + s.floorOf 3
    let F := max sum 1
    let A := (if hot = 0 then s.cfg.pcap else s.cfg.pcap * 7 / 8) - r.px
    let first (t : Nat) : Nat := min (D t * F) (s.floorOf t * min F A)
    let left0 := A * F - (first 0 + first 1 + first 2 + first 3)
    let more0 := min left0 (D 0 * F - first 0)
    let more1 := min (left0 - more0) (D 1 * F - first 1)
    let more2 := min (left0 - more0 - more1) (D 2 * F - first 2)
    let more3 := min (left0 - more0 - more1 - more2) (D 3 * F - first 3)
    let share (t : Nat) : Nat := [first 0 + more0, first 1 + more1, first 2 + more2, first 3 + more3].getD t 0
    let within (high : Bool) (t g : Nat) : Prop := Config.estimatedDraw t g high (D t) * F ≤ share t
    let budget (high : Bool) (t g : Nat) : Prop := 2 ≤ g ∧ g ≤ 16 ∧ (g = 2 ∨ within high t g) ∧ ∀ h, g < h → h ≤ 16 → ¬ within high t h
    let onCluster (c t : Nat) : Prop := runs (2 * c) t ∨ runs (2 * c + 1) t
    (s.now < s.powerAt + us → exec (.powerControlTick r) s = .next s) ∧
    (∀ c n k, (∀ j, j ∈ s.tiersOn [c] ↔ runs c j) ∧ (s.tiersOn [c]).Nodup ∧ (¬ runs c k → s.tierDraw c n k = 0) ∧
      (runs c k → s.tierDraw c n k = n * words c k / max (sumOf ((s.tiersOn [c]).map (words c))) 1)) ∧
    (s.powerAt + us ≤ s.now → ∃ t : State, exec (.powerControlTick r) s = .next t ∧
      t = { s with demand := t.demand, rails := t.rails, budgets := t.budgets, powerAt := s.now, seqs := t.seqs } ∧
      (∀ q, t.seqr q = { s.seqr q with words := [] }) ∧
      (∀ k, k < 4 → t.demand.findD k 0 = D k) ∧
      (∀ c, c < 24 → let R := s.rail c
        let goes (high : Bool) : Prop := t.rail c = if R.high = high then R else
          { R with high := high, clk := s.clusterClk c, at_ := s.now, changing := true }
        let P := s.pairOf (c / 2)
        let paired : Prop := P.state = 2 ∨ P.state = 1 ∧ (P.toPaired = false ∨ 4 ≤ P.step)
        (paired → goes true) ∧ (¬ paired → R.holdUntil ≠ 0 → t.rail c = R) ∧
        (¬ paired → R.holdUntil = 0 →
          (2 ≤ hot → goes false) ∧
          (hot < 2 → (∀ k, ¬ onCluster c k) → t.rail c = R) ∧
          (hot < 2 → (∃ k, onCluster c k) → R.high = true →
            ((∀ k, onCluster c k → ∀ g, budget true k g → g ≤ 8) → goes false) ∧
            ((∃ k, onCluster c k ∧ ∃ g, budget true k g ∧ 8 < g) → t.rail c = R)) ∧
          (hot < 2 → (∃ k, onCluster c k) → R.high = false →
            ((∃ k, onCluster c k ∧ budget false k 16) → goes true) ∧ ((∀ k, onCluster c k → ¬ budget false k 16) → t.rail c = R)))) ∧
      ∀ core, core < 48 → let G := t.budgets.findD core 16
        (2 ≤ hot → G = 2) ∧ (hot < 2 → (∀ k, ¬ runs core k) → G = 16) ∧
        (hot < 2 → (∃ k, runs core k) → (∃ k, runs core k ∧ budget (t.rail (core / 2)).high k G) ∧
          ∀ k, runs core k → ∀ g, budget (t.rail (core / 2)).high k g → g ≤ G))

/-- R24 to R32, R42 to R46 and the encoding tables: the decoder reads back every well-formed instruction from its word, every operand at
every value that the encoding admits. -/
def Obligations.DecodeEncode : Prop := ∀ i : Instr, i.WellFormed → decode (encode i) = i

/-- R24, R104, R106: words of each class, as the manual works them out, decode to their instructions; and an opportunity of a sequencer runs
the instruction that the eight bytes at the program counter of its first candidate decode to. Beside it the step draws a new number for free
values (log 7), passes the turns of DM2 that fall to held groups, selects the group, and afterwards marks its slot and ends its turn. -/
def Obligations.StepRunsTheWord : Prop :=
  let h (stall pred : Nat) : Hdr := ⟨Fin.ofNat 16 stall, false, Fin.ofNat 8 pred, none⟩
  (decode 0x2100C10141800000 = .iadd (h 4 2) (.v 4) (.v 5) (.reg (.v 6)) ∧
    decode 0x2380C1017FC3FFFD = .iadd (h 4 7) (.v 4) (.v 5) (.imm 0x3FFFD) ∧
    decode 0x2380C1013FF7FFFD = .iadd ⟨4, false, 7, some ⟨true, 1⟩⟩ (.v 4) (.v 4) (.imm 0x3FFFD) ∧
    decode 0xEE40211800850060 = .pairWord 6 7 (.op .fadd (.v 8) (.reg (.v 70)) .rn) (.op .iadd (.v 20) (.imm 1) .rn) ∧
    decode 0x238814413FC00064 = .isetp (h 4 7) .lt true .none ⟨0, false⟩ 1 (.v 4) (.imm 100) ∧
    decode 0x3390C2024280090B = .ffma (h 6 7) .bh2 .rz (.v 8) (.v 9) (.v 10) (.v 11) ∧
    decode 0x00A000003FC3FFFD = .bra (h 0 1) 0x3FFFD ∧ decode 0x03A0FE003FC00014 = .call (h 0 7) .stack 20 ∧
    decode 0x03B0050101800302 = .ld (h 0 7) .b64 false .ca (.v 20) (.v 4) (.reg (.v 6)) 2 ∧
    decode 0x03C0020101801B02 = .amo (h 0 7) .add .b32 .ar .dev (.v 8) (.v 4) (.v 6) ∧
    decode 0x03C2850000007300 = .ctxopen (h 0 7) .dev false (some 3) (.v 20) ∧
    decode 0x03A382833FC00005 = .launch (h 0 7) (.v 10) (.v 12) (.imm 5) ∧
    decode 0x03D280C505800000 = .mout (h 0 7) .bf16 3 0 (.v 20) (.v 22) ∧
    decode 0x03E0008800000100 = .push (h 0 7) 2 .vox 32 ∧ decode 0x03F0C1803FC00103 = .trd (h 0 7) (.v 6) (.imm 0x103)) ∧
  (∀ (s : State) (i : Instr) (r : List Move), s.agenda = .event i :: r →
    let s0 := { s with freeCtr := s.freeCtr + 1, agenda := r }
    step s = if s0.admits i then exec i s0 else .next s0) ∧
  ∀ (s : State) (q : Nat) (r : List Move) (g : Nat) (cs : List Cand) (G : Group) (pa : Nat) (u : State) (i : Instr),
    s.agenda = .issue q :: r → s.sec.bootFailed = false →
    let s0 := { s with freeCtr := s.freeCtr + 1, agenda := r }
    let s1 := s0.passTurns q
    s0.seqOpen q = true → s0.candidates q = .slot g :: cs → s1.groups.find g = some G → s1.joining G = [] → G.pc % 8 = 0 →
    s1.fetchPa (G.core / 2) (s1.recOf G.block).tenant (s1.recOf G.block).world G.pc = (.ok pa, u) →
    u.icache.find (pa / 64) = some (u.memLine (pa / 64)) → decodeBytes (u.bytes pa 8) = i →
    ∀ t, exec i { u with cur := some g } = .next t →
      ((s1.seqr q).lastIssue < (t.seqr q).lastIssue → step s = .next (s1.endTurn q (.slot g) ({ t with cur := none }.restamp g))) ∧
      (¬ (s1.seqr q).lastIssue < (t.seqr q).lastIssue → step s = State.tryCands q cs { t with cur := none })

/-- R375, R395: after a step of the bring-up has failed the fabric stays in reset: until a cold reset no step changes the SEC, the memory, the
registers or any program; only time and the model's own counts go on (log 4, log 7). -/
def Obligations.FailedBringUpStays : Prop :=
  let Inv (s : State) : Prop := s.sec.bootFailed = true ∧
    ∀ m ∈ s.agenda, m ≠ .event .coldReset ∧ ∀ i l r c, m ≠ .event (.junctionCrossing i l r c)
  ∀ s t : State, Inv s → step s = .next t →
    Inv t ∧ t = { s with now := t.now, freeCtr := s.freeCtr + 1, agenda := t.agenda } ∧ s.now ≤ t.now

/-- The canonical form of the memory is kept by every step: addresses rise strictly, and no listed byte is the zero that an unlisted address
reads as (log 1). -/
def Obligations.MemoryStaysCanonical : Prop := ∀ s t : State, Memory.wf s.mem = true → step s = .next t → Memory.wf t.mem = true

/-- R394, R357, R391, R349, R325, R375: what a cold reset leaves. The invariants of `Obligations.MemoryStaysCanonical` hold there. -/
def Obligations.ResetState : Prop :=
  let s := State.reset
  (∀ c, (s.rail c).high = true) ∧ s.ctlRead 0x6000 = 0 ∧ (∀ c q, s.quarterOwner c q = none) ∧
  (∀ t q, q < 4 → (s.thread t).quarter q = .off) ∧ (∀ c k, s.spadBank c k = .off) ∧
  (∀ q, (s.sq q).enable = false) ∧ s.evr.enable = false ∧ (∀ x, x < 12 → s.ctlRead (0x5000 + 8 * x) = 0) ∧
  s.ctlRead 0x7800 = 1200 ∧ (∀ i, i < 4 → s.ctlRead (0x7808 + 8 * i) = 0) ∧
  s.ctlRead 0x8100 = 2 ^ 48 + 700 * 2 ^ 32 + 560 * 2 ^ 16 + 620 ∧ s.ctlRead 0x8108 = 16 ∧
  (∀ f k, f < 12 → k < 7 → s.ctlRead (0x6100 + 0x40 * f + 8 * k) = 0) ∧
  (∀ k, s.sec.meas.findD k 0 = 0) ∧ (∀ k, (s.stream k).state = 0) ∧ s.sec.keys = [] ∧ s.ctxs = [] ∧ s.cells = [] ∧
  s.blocks = [] ∧ s.groups = [] ∧ Memory.wf s.mem = true
end
end

