-- ==== Sys2Proof/Laws/Exec.lean ====
section
/-!
SUPPORT. The meaning of each instruction: one equation of `exec` per constructor, so that no proof unfolds `exec`.
-/

namespace Sys2Proof
namespace Machine

@[simp] theorem exec_nop (h) (s : State) : exec (.nop h) s = execNop h s := rfl
@[simp] theorem exec_mov (h d b) (s : State) : exec (.mov h d b) s = execMov h d b s := rfl
@[simp] theorem exec_movhi (h d a imm) (s : State) : exec (.movhi h d a imm) s = execMovhi h d a imm s := rfl
@[simp] theorem exec_iadd (h d a b) (s : State) : exec (.iadd h d a b) s = execIadd h d a b s := rfl
@[simp] theorem exec_isub (h d a b) (s : State) : exec (.isub h d a b) s = execIsub h d a b s := rfl
@[simp] theorem exec_iadds (h sg d a b) (s : State) : exec (.iadds h sg d a b) s = execIadds h sg d a b s := rfl
@[simp] theorem exec_isubs (h sg d a b) (s : State) : exec (.isubs h sg d a b) s = execIsubs h sg d a b s := rfl
@[simp] theorem exec_imul (h d a b) (s : State) : exec (.imul h d a b) s = execImul h d a b s := rfl
@[simp] theorem exec_imulh (h sg d a b) (s : State) : exec (.imulh h sg d a b) s = execImulh h sg d a b s := rfl
@[simp] theorem exec_imad (h d a b c) (s : State) : exec (.imad h d a b c) s = execImad h d a b c s := rfl
@[simp] theorem exec_imadw (h sg d a b c) (s : State) : exec (.imadw h sg d a b c) s = execImadw h sg d a b c s := rfl
@[simp] theorem exec_iadd64 (h d a b) (s : State) : exec (.iadd64 h d a b) s = execIadd64 h d a b s := rfl
@[simp] theorem exec_isub64 (h d a b) (s : State) : exec (.isub64 h d a b) s = execIsub64 h d a b s := rfl
@[simp] theorem exec_lea (h n d a b) (s : State) : exec (.lea h n d a b) s = execLea h n d a b s := rfl
@[simp] theorem exec_lea64 (h n sg d a b) (s : State) : exec (.lea64 h n sg d a b) s = execLea64 h n sg d a b s := rfl
@[simp] theorem exec_imin (h sg d a b) (s : State) : exec (.imin h sg d a b) s = execImin h sg d a b s := rfl
@[simp] theorem exec_imax (h sg d a b) (s : State) : exec (.imax h sg d a b) s = execImax h sg d a b s := rfl
@[simp] theorem exec_iabs (h d a) (s : State) : exec (.iabs h d a) s = execIabs h d a s := rfl
@[simp] theorem exec_iand (h d a b) (s : State) : exec (.iand h d a b) s = execIand h d a b s := rfl
@[simp] theorem exec_ior (h d a b) (s : State) : exec (.ior h d a b) s = execIor h d a b s := rfl
@[simp] theorem exec_ixor (h d a b) (s : State) : exec (.ixor h d a b) s = execIxor h d a b s := rfl
@[simp] theorem exec_bmux (h f1 f0 d a b c) (s : State) : exec (.bmux h f1 f0 d a b c) s = execBmux h f1 f0 d a b c s := rfl
@[simp] theorem exec_shl (h d a b) (s : State) : exec (.shl h d a b) s = execShl h d a b s := rfl
@[simp] theorem exec_shr (h sg d a b) (s : State) : exec (.shr h sg d a b) s = execShr h sg d a b s := rfl
@[simp] theorem exec_shf (h left d a b c) (s : State) : exec (.shf h left d a b c) s = execShf h left d a b c s := rfl
@[simp] theorem exec_rot (h d a b) (s : State) : exec (.rot h d a b) s = execRot h d a b s := rfl
@[simp] theorem exec_popc (h d a) (s : State) : exec (.popc h d a) s = execPopc h d a s := rfl
@[simp] theorem exec_clz (h d a) (s : State) : exec (.clz h d a) s = execClz h d a s := rfl
@[simp] theorem exec_brev (h d a) (s : State) : exec (.brev h d a) s = execBrev h d a s := rfl
@[simp] theorem exec_bfe (h sg d a b) (s : State) : exec (.bfe h sg d a b) s = execBfe h sg d a b s := rfl
@[simp] theorem exec_bfi (h d a b c) (s : State) : exec (.bfi h d a b c) s = execBfi h d a b c s := rfl
@[simp] theorem exec_prmt (h d a b c) (s : State) : exec (.prmt h d a b c) s = execPrmt h d a b c s := rfl
@[simp] theorem exec_isetp (h cmp sg op p pd a b) (s : State) : exec (.isetp h cmp sg op p pd a b) s = execIsetp h cmp sg op p pd a b s := rfl
@[simp] theorem exec_isetp64 (h cmp sg op p pd a b) (s : State) : exec (.isetp64 h cmp sg op p pd a b) s = execIsetp64 h cmp sg op p pd a b s := rfl
@[simp] theorem exec_iset (h cmp sg d a b) (s : State) : exec (.iset h cmp sg d a b) s = execIset h cmp sg d a b s := rfl
@[simp] theorem exec_sel (h p d a b) (s : State) : exec (.sel h p d a b) s = execSel h p d a b s := rfl
@[simp] theorem exec_pset (h op pd pa pb) (s : State) : exec (.pset h op pd pa pb) s = execPset h op pd pa pb s := rfl
@[simp] theorem exec_p2v (h d) (s : State) : exec (.p2v h d) s = execP2v h d s := rfl
@[simp] theorem exec_v2p (h mask a) (s : State) : exec (.v2p h mask a) s = execV2p h mask a s := rfl
@[simp] theorem exec_hash32 (h d a b) (s : State) : exec (.hash32 h d a b) s = execHash32 h d a b s := rfl
@[simp] theorem exec_shfl (h mode d a b) (s : State) : exec (.shfl h mode d a b) s = execShfl h mode d a b s := rfl
@[simp] theorem exec_vote (h mode p d) (s : State) : exec (.vote h mode p d) s = execVote h mode p d s := rfl
@[simp] theorem exec_s2v (h sr d) (s : State) : exec (.s2v h sr d) s = execS2v h sr d s := rfl
@[simp] theorem exec_v2s (h a) (s : State) : exec (.v2s h a) s = execV2s h a s := rfl
@[simp] theorem exec_imul64 (h d a b) (s : State) : exec (.imul64 h d a b) s = execImul64 h d a b s := rfl
@[simp] theorem exec_mov64 (h d b) (s : State) : exec (.mov64 h d b) s = execMov64 h d b s := rfl
@[simp] theorem exec_fadd (h fmt rnd d a b) (s : State) : exec (.fadd h fmt rnd d a b) s = execFadd h fmt rnd d a b s := rfl
@[simp] theorem exec_fsub (h fmt rnd d a b) (s : State) : exec (.fsub h fmt rnd d a b) s = execFsub h fmt rnd d a b s := rfl
@[simp] theorem exec_fmul (h fmt rnd d a b) (s : State) : exec (.fmul h fmt rnd d a b) s = execFmul h fmt rnd d a b s := rfl
@[simp] theorem exec_ffma (h fmt rnd d a b c) (s : State) : exec (.ffma h fmt rnd d a b c) s = execFfma h fmt rnd d a b c s := rfl
@[simp] theorem exec_fmin (h fmt d a b) (s : State) : exec (.fmin h fmt d a b) s = execFmin h fmt d a b s := rfl
@[simp] theorem exec_fmax (h fmt d a b) (s : State) : exec (.fmax h fmt d a b) s = execFmax h fmt d a b s := rfl
@[simp] theorem exec_fsetp (h cmp op p pd a b) (s : State) : exec (.fsetp h cmp op p pd a b) s = execFsetp h cmp op p pd a b s := rfl
@[simp] theorem exec_fset (h cmp fmt d a b) (s : State) : exec (.fset h cmp fmt d a b) s = execFset h cmp fmt d a b s := rfl
@[simp] theorem exec_fclass (h fmt d a) (s : State) : exec (.fclass h fmt d a) s = execFclass h fmt d a s := rfl
@[simp] theorem exec_frcp (h d a) (s : State) : exec (.frcp h d a) s = execFrcp h d a s := rfl
@[simp] theorem exec_frsq (h d a) (s : State) : exec (.frsq h d a) s = execFrsq h d a s := rfl
@[simp] theorem exec_fsqrt (h rnd d a) (s : State) : exec (.fsqrt h rnd d a) s = execFsqrt h rnd d a s := rfl
@[simp] theorem exec_fexp2 (h d a) (s : State) : exec (.fexp2 h d a) s = execFexp2 h d a s := rfl
@[simp] theorem exec_flog2 (h d a) (s : State) : exec (.flog2 h d a) s = execFlog2 h d a s := rfl
@[simp] theorem exec_fsin (h d a) (s : State) : exec (.fsin h d a) s = execFsin h d a s := rfl
@[simp] theorem exec_fcos (h d a) (s : State) : exec (.fcos h d a) s = execFcos h d a s := rfl
@[simp] theorem exec_ftanh (h d a) (s : State) : exec (.ftanh h d a) s = execFtanh h d a s := rfl
@[simp] theorem exec_fscale (h rnd d a b) (s : State) : exec (.fscale h rnd d a b) s = execFscale h rnd d a b s := rfl
@[simp] theorem exec_frnd (h rnd d a) (s : State) : exec (.frnd h rnd d a) s = execFrnd h rnd d a s := rfl
@[simp] theorem exec_fdot2 (h fmt rnd d a b c) (s : State) : exec (.fdot2 h fmt rnd d a b c) s = execFdot2 h fmt rnd d a b c s := rfl
@[simp] theorem exec_fmed3 (h fmt d a b c) (s : State) : exec (.fmed3 h fmt d a b c) s = execFmed3 h fmt d a b c s := rfl
@[simp] theorem exec_cvt (h dst src rnd d a) (s : State) : exec (.cvt h dst src rnd d a) s = execCvt h dst src rnd d a s := rfl
@[simp] theorem exec_cvtpk (h fmt rnd d a b) (s : State) : exec (.cvtpk h fmt rnd d a b) s = execCvtpk h fmt rnd d a b s := rfl
@[simp] theorem exec_cbenc (h d a cb c) (s : State) : exec (.cbenc h d a cb c) s = execCbenc h d a cb c s := rfl
@[simp] theorem exec_cbdec (h n d a cb c) (s : State) : exec (.cbdec h n d a cb c) s = execCbdec h n d a cb c s := rfl
@[simp] theorem exec_bra (h x_off) (s : State) : exec (.bra h x_off) s = execBra h x_off s := rfl
@[simp] theorem exec_brd (h x_off) (s : State) : exec (.brd h x_off) s = execBrd h x_off s := rfl
@[simp] theorem exec_brx (h a) (s : State) : exec (.brx h a) s = execBrx h a s := rfl
@[simp] theorem exec_call (h sel x_off) (s : State) : exec (.call h sel x_off) s = execCall h sel x_off s := rfl
@[simp] theorem exec_callx (h sel a) (s : State) : exec (.callx h sel a) s = execCallx h sel a s := rfl
@[simp] theorem exec_ret (h sel) (s : State) : exec (.ret h sel) s = execRet h sel s := rfl
@[simp] theorem exec_land (h) (s : State) : exec (.land h) s = execLand h s := rfl
@[simp] theorem exec_reform (h sel) (s : State) : exec (.reform h sel) s = execReform h sel s := rfl
@[simp] theorem exec_gpin (h) (s : State) : exec (.gpin h) s = execGpin h s := rfl
@[simp] theorem exec_gfree (h) (s : State) : exec (.gfree h) s = execGfree h s := rfl
@[simp] theorem exec_exit (h) (s : State) : exec (.exit h) s = execExit h s := rfl
@[simp] theorem exec_yield (h n) (s : State) : exec (.yield h n) s = execYield h n s := rfl
@[simp] theorem exec_bloop (h a x_off) (s : State) : exec (.bloop h a x_off) s = execBloop h a x_off s := rfl
@[simp] theorem exec_ipref (h arg a b) (s : State) : exec (.ipref h arg a b) s = execIpref h arg a b s := rfl
@[simp] theorem exec_iprefInv (h a b) (s : State) : exec (.iprefInv h a b) s = execIprefInv h a b s := rfl
@[simp] theorem exec_launch (h d a b) (s : State) : exec (.launch h d a b) s = execLaunch h d a b s := rfl
@[simp] theorem exec_evwait (h sc d a b) (s : State) : exec (.evwait h sc d a b) s = execEvwait h sc d a b s := rfl
@[simp] theorem exec_evsig (h sc a b) (s : State) : exec (.evsig h sc a b) s = execEvsig h sc a b s := rfl
@[simp] theorem exec_nopw (h n) (s : State) : exec (.nopw h n) s = execNopw h n s := rfl
@[simp] theorem exec_ld (h size sg hint d a b disp) (s : State) : exec (.ld h size sg hint d a b disp) s = execLd h size sg hint d a b disp s := rfl
@[simp] theorem exec_st (h size hint d a b disp) (s : State) : exec (.st h size hint d a b disp) s = execSt h size hint d a b disp s := rfl
@[simp] theorem exec_lds (h size sg d a b disp) (s : State) : exec (.lds h size sg d a b disp) s = execLds h size sg d a b disp s := rfl
@[simp] theorem exec_sts (h size d a b disp) (s : State) : exec (.sts h size d a b disp) s = execSts h size d a b disp s := rfl
@[simp] theorem exec_ldl (h size sg hint d a b disp) (s : State) : exec (.ldl h size sg hint d a b disp) s = execLdl h size sg hint d a b disp s := rfl
@[simp] theorem exec_stl (h size hint d a b disp) (s : State) : exec (.stl h size hint d a b disp) s = execStl h size hint d a b disp s := rfl
@[simp] theorem exec_ldw (h d a imm) (s : State) : exec (.ldw h d a imm) s = execLdw h d a imm s := rfl
@[simp] theorem exec_stw (h d a imm) (s : State) : exec (.stw h d a imm) s = execStw h d a imm s := rfl
@[simp] theorem exec_ldk (h size hint d a b disp) (s : State) : exec (.ldk h size hint d a b disp) s = execLdk h size hint d a b disp s := rfl
@[simp] theorem exec_pref (h hint a b) (s : State) : exec (.pref h hint a b) s = execPref h hint a b s := rfl
@[simp] theorem exec_cctl (h op a b) (s : State) : exec (.cctl h op a b) s = execCctl h op a b s := rfl
@[simp] theorem exec_acp (h tag hint d a b) (s : State) : exec (.acp h tag hint d a b) s = execAcp h tag hint d a b s := rfl
@[simp] theorem exec_acwait (h mask n) (s : State) : exec (.acwait h mask n) s = execAcwait h mask n s := rfl
@[simp] theorem exec_acqry (h d) (s : State) : exec (.acqry h d) s = execAcqry h d s := rfl
@[simp] theorem exec_ldcb (h len d a b) (s : State) : exec (.ldcb h len d a b) s = execLdcb h len d a b s := rfl
@[simp] theorem exec_xlq (h d a b) (s : State) : exec (.xlq h d a b) s = execXlq h d a b s := rfl
@[simp] theorem exec_amo (h op size ord sc d a b) (s : State) : exec (.amo h op size ord sc d a b) s = execAmo h op size ord sc d a b s := rfl
@[simp] theorem exec_cas (h size ord sc d a b c) (s : State) : exec (.cas h size ord sc d a b c) s = execCas h size ord sc d a b c s := rfl
@[simp] theorem exec_red (h op size ord sc a b) (s : State) : exec (.red h op size ord sc a b) s = execRed h op size ord sc a b s := rfl
@[simp] theorem exec_fence (h ord sc) (s : State) : exec (.fence h ord sc) s = execFence h ord sc s := rfl
@[simp] theorem exec_bar (h arg) (s : State) : exec (.bar h arg) s = execBar h arg s := rfl
@[simp] theorem exec_bara (h arg) (s : State) : exec (.bara h arg) s = execBara h arg s := rfl
@[simp] theorem exec_barw (h arg) (s : State) : exec (.barw h arg) s = execBarw h arg s := rfl
@[simp] theorem exec_gbar (h) (s : State) : exec (.gbar h) s = execGbar h s := rfl
@[simp] theorem exec_ssync (h) (s : State) : exec (.ssync h) s = execSsync h s := rfl
@[simp] theorem exec_waitv (h cmp sg size sc d a b) (s : State) : exec (.waitv h cmp sg size sc d a b) s = execWaitv h cmp sg size sc d a b s := rfl
@[simp] theorem exec_ctxopen (h sc x_set x_try_ d) (s : State) : exec (.ctxopen h sc x_set x_try_ d) s = execCtxopen h sc x_set x_try_ d s := rfl
@[simp] theorem exec_ctxset (h a) (s : State) : exec (.ctxset h a) s = execCtxset h a s := rfl
@[simp] theorem exec_ctxsettle (h a) (s : State) : exec (.ctxsettle h a) s = execCtxsettle h a s := rfl
@[simp] theorem exec_ctxvoid (h a) (s : State) : exec (.ctxvoid h a) s = execCtxvoid h a s := rfl
@[simp] theorem exec_ctxq (h d a) (s : State) : exec (.ctxq h d a) s = execCtxq h d a s := rfl
@[simp] theorem exec_ldcx (h size sg d a b c) (s : State) : exec (.ldcx h size sg d a b c) s = execLdcx h size sg d a b c s := rfl
@[simp] theorem exec_ctxwait (h sc d a) (s : State) : exec (.ctxwait h sc d a) s = execCtxwait h sc d a s := rfl
@[simp] theorem exec_ordhead (h) (s : State) : exec (.ordhead h) s = execOrdhead h s := rfl
@[simp] theorem exec_obres (h fmt len r a b) (s : State) : exec (.obres h fmt len r a b) s = execObres h fmt len r a b s := rfl
@[simp] theorem exec_obset (h r b) (s : State) : exec (.obset h r b) s = execObset h r b s := rfl
@[simp] theorem exec_obfree (h r) (s : State) : exec (.obfree h r) s = execObfree h r s := rfl
@[simp] theorem exec_cbld (h r cb) (s : State) : exec (.cbld h r cb) s = execCbld h r cb s := rfl
@[simp] theorem exec_mloop (h d desc) (s : State) : exec (.mloop h d desc) s = execMloop h d desc s := rfl
@[simp] theorem exec_mwait (h a) (s : State) : exec (.mwait h a) s = execMwait h a s := rfl
@[simp] theorem exec_mzero (h t) (s : State) : exec (.mzero h t) s = execMzero h t s := rfl
@[simp] theorem exec_accld (h t a b) (s : State) : exec (.accld h t a b) s = execAccld h t a b s := rfl
@[simp] theorem exec_accst (h t a b) (s : State) : exec (.accst h t a b) s = execAccst h t a b s := rfl
@[simp] theorem exec_mrd (h d t b) (s : State) : exec (.mrd h d t b) s = execMrd h d t b s := rfl
@[simp] theorem exec_mout (h fmt t r a b) (s : State) : exec (.mout h fmt t r a b) s = execMout h fmt t r a b s := rfl
@[simp] theorem exec_mprog (h d a) (s : State) : exec (.mprog h d a) s = execMprog h d a s := rfl
@[simp] theorem exec_keybind (h r a) (s : State) : exec (.keybind h r a) s = execKeybind h r a s := rfl
@[simp] theorem exec_push (h pd kind cmd) (s : State) : exec (.push h pd kind cmd) s = execPush h pd kind cmd s := rfl
@[simp] theorem exec_qbind (h q b) (s : State) : exec (.qbind h q b) s = execQbind h q b s := rfl
@[simp] theorem exec_qpeek (h d q b) (s : State) : exec (.qpeek h d q b) s = execQpeek h d q b s := rfl
@[simp] theorem exec_qcnt (h d q) (s : State) : exec (.qcnt h d q) s = execQcnt h d q s := rfl
@[simp] theorem exec_qdrain (h d q) (s : State) : exec (.qdrain h d q) s = execQdrain h d q s := rfl
@[simp] theorem exec_bkqry (h d) (s : State) : exec (.bkqry h d) s = execBkqry h d s := rfl
@[simp] theorem exec_bkwake (h mask) (s : State) : exec (.bkwake h mask) s = execBkwake h mask s := rfl
@[simp] theorem exec_bkdrop (h x_off mask) (s : State) : exec (.bkdrop h x_off mask) s = execBkdrop h x_off mask s := rfl
@[simp] theorem exec_spwake (h d b) (s : State) : exec (.spwake h d b) s = execSpwake h d b s := rfl
@[simp] theorem exec_spdrop (h d b) (s : State) : exec (.spdrop h d b) s = execSpdrop h d b s := rfl
@[simp] theorem exec_trap (h code) (s : State) : exec (.trap h code) s = execTrap h code s := rfl
@[simp] theorem exec_tret (h) (s : State) : exec (.tret h) s = execTret h s := rfl
@[simp] theorem exec_tclr (h a) (s : State) : exec (.tclr h a) s = execTclr h a s := rfl
@[simp] theorem exec_trd (h d b) (s : State) : exec (.trd h d b) s = execTrd h d b s := rfl
@[simp] theorem exec_tmask (h d a b) (s : State) : exec (.tmask h d a b) s = execTmask h d a b s := rfl
@[simp] theorem exec_ologq (h d b) (s : State) : exec (.ologq h d b) s = execOlogq h d b s := rfl
@[simp] theorem exec_brk (h code) (s : State) : exec (.brk h code) s = execBrk h code s := rfl
@[simp] theorem exec_sysrd (h d b) (s : State) : exec (.sysrd h d b) s = execSysrd h d b s := rfl
@[simp] theorem exec_syswr (h a b) (s : State) : exec (.syswr h a b) s = execSyswr h a b s := rfl
@[simp] theorem exec_cntrd (h d b) (s : State) : exec (.cntrd h d b) s = execCntrd h d b s := rfl
@[simp] theorem exec_psafe (h pd) (s : State) : exec (.psafe h pd) s = execPsafe h pd s := rfl
@[simp] theorem exec_ilq (h d) (s : State) : exec (.ilq h d) s = execIlq h d s := rfl
@[simp] theorem exec_halt (h) (s : State) : exec (.halt h) s = execHalt h s := rfl
@[simp] theorem exec_mbox (h sec d a) (s : State) : exec (.mbox h sec d a) s = execMbox h sec d a s := rfl
@[simp] theorem exec_illegalEncoding (e) (s : State) : exec (.illegalEncoding e) s = execIllegalEncoding e s := rfl
@[simp] theorem exec_pairWord (stall pred s0 s1) (s : State) : exec (.pairWord stall pred s0 s1) s = execPairWord stall pred s0 s1 s := rfl
@[simp] theorem exec_icacheFill (seq) (s : State) : exec (.icacheFill seq) s = execIcacheFill seq s := rfl
@[simp] theorem exec_scoreboardResult (id) (s : State) : exec (.scoreboardResult id) s = execScoreboardResult id s := rfl
@[simp] theorem exec_storeAck (id) (s : State) : exec (.storeAck id) s = execStoreAck id s := rfl
@[simp] theorem exec_loggedAccessFault (entry) (s : State) : exec (.loggedAccessFault entry) s = execLoggedAccessFault entry s := rfl
@[simp] theorem exec_bankWakeComplete (w) (s : State) : exec (.bankWakeComplete w) s = execBankWakeComplete w s := rfl
@[simp] theorem exec_binCandidateTimeout (seq bin) (s : State) : exec (.binCandidateTimeout seq bin) s = execBinCandidateTimeout seq bin s := rfl
@[simp] theorem exec_slotWaitTimeout (group) (s : State) : exec (.slotWaitTimeout group) s = execSlotWaitTimeout group s := rfl
@[simp] theorem exec_yieldExpiry (group) (s : State) : exec (.yieldExpiry group) s = execYieldExpiry group s := rfl
@[simp] theorem exec_joinRelease (seq recno) (s : State) : exec (.joinRelease seq recno) s = execJoinRelease seq recno s := rfl
@[simp] theorem exec_gpinRelease (block pinned) (s : State) : exec (.gpinRelease block pinned) s = execGpinRelease block pinned s := rfl
@[simp] theorem exec_evwaitMet (group) (s : State) : exec (.evwaitMet group) s = execEvwaitMet group s := rfl
@[simp] theorem exec_barrierPhaseComplete (block side k) (s : State) : exec (.barrierPhaseComplete block side k) s = execBarrierPhaseComplete block side k s := rfl
@[simp] theorem exec_gbarPhaseComplete (launch gang) (s : State) : exec (.gbarPhaseComplete launch gang) s = execGbarPhaseComplete launch gang s := rfl
@[simp] theorem exec_ssyncComplete (launch) (s : State) : exec (.ssyncComplete launch) s = execSsyncComplete launch s := rfl
@[simp] theorem exec_waitvMet (group) (s : State) : exec (.waitvMet group) s = execWaitvMet group s := rfl
@[simp] theorem exec_waitvReread (group) (s : State) : exec (.waitvReread group) s = execWaitvReread group s := rfl
@[simp] theorem exec_acwaitMet (group) (s : State) : exec (.acwaitMet group) s = execAcwaitMet group s := rfl
@[simp] theorem exec_acpComplete (id) (s : State) : exec (.acpComplete id) s = execAcpComplete id s := rfl
@[simp] theorem exec_ordheadReached (group) (s : State) : exec (.ordheadReached group) s = execOrdheadReached group s := rfl
@[simp] theorem exec_ctxwaitReturn (group) (s : State) : exec (.ctxwaitReturn group) s = execCtxwaitReturn group s := rfl
@[simp] theorem exec_psafeResolve (group) (s : State) : exec (.psafeResolve group) s = execPsafeResolve group s := rfl
@[simp] theorem exec_mboxReply (group) (s : State) : exec (.mboxReply group) s = execMboxReply group s := rfl
@[simp] theorem exec_queueReadResume (group) (s : State) : exec (.queueReadResume group) s = execQueueReadResume group s := rfl
@[simp] theorem exec_handlerEntry (group) (s : State) : exec (.handlerEntry group) s = execHandlerEntry group s := rfl
@[simp] theorem exec_mintGrant (part) (s : State) : exec (.mintGrant part) s = execMintGrant part s := rfl
@[simp] theorem exec_contextSettle (tag) (s : State) : exec (.contextSettle tag) s = execContextSettle tag s := rfl
@[simp] theorem exec_contextVoid (tag) (s : State) : exec (.contextVoid tag) s = execContextVoid tag s := rfl
@[simp] theorem exec_ctxPoolTimeout (entry) (s : State) : exec (.ctxPoolTimeout entry) s = execCtxPoolTimeout entry s := rfl
@[simp] theorem exec_clearingSettle (launch) (s : State) : exec (.clearingSettle launch) s = execClearingSettle launch s := rfl
@[simp] theorem exec_recordCheck (q) (s : State) : exec (.recordCheck q) s = execRecordCheck q s := rfl
@[simp] theorem exec_launchReady (l) (s : State) : exec (.launchReady l) s = execLaunchReady l s := rfl
@[simp] theorem exec_blockDispatch (part) (s : State) : exec (.blockDispatch part) s = execBlockDispatch part s := rfl
@[simp] theorem exec_blockExit (b) (s : State) : exec (.blockExit b) s = execBlockExit b s := rfl
@[simp] theorem exec_launchComplete (l) (s : State) : exec (.launchComplete l) s = execLaunchComplete l s := rfl
@[simp] theorem exec_gangReserveTimeout (l) (s : State) : exec (.gangReserveTimeout l) s = execGangReserveTimeout l s := rfl
@[simp] theorem exec_exchangeTimeout (b) (s : State) : exec (.exchangeTimeout b) s = execExchangeTimeout b s := rfl
@[simp] theorem exec_preemptDeadlineTimeout (l) (s : State) : exec (.preemptDeadlineTimeout l) s = execPreemptDeadlineTimeout l s := rfl
@[simp] theorem exec_preemptTierTimeout (l) (s : State) : exec (.preemptTierTimeout l) s = execPreemptTierTimeout l s := rfl
@[simp] theorem exec_noticeWindowExpiry (b) (s : State) : exec (.noticeWindowExpiry b) s = execNoticeWindowExpiry b s := rfl
@[simp] theorem exec_drainTimeout (b) (s : State) : exec (.drainTimeout b) s = execDrainTimeout b s := rfl
@[simp] theorem exec_save (b) (s : State) : exec (.save b) s = execSave b s := rfl
@[simp] theorem exec_restore (b) (s : State) : exec (.restore b) s = execRestore b s := rfl
@[simp] theorem exec_flush (b) (s : State) : exec (.flush b) s = execFlush b s := rfl
@[simp] theorem exec_checkedFlush (b) (s : State) : exec (.checkedFlush b) s = execCheckedFlush b s := rfl
@[simp] theorem exec_schedEntryEnd (core) (s : State) : exec (.schedEntryEnd core) s = execSchedEntryEnd core s := rfl
@[simp] theorem exec_overrunWatchdog (b) (s : State) : exec (.overrunWatchdog b) s = execOverrunWatchdog b s := rfl
@[simp] theorem exec_pairModeChange (slice) (s : State) : exec (.pairModeChange slice) s = execPairModeChange slice s := rfl
@[simp] theorem exec_pairDrainTimeout (slice) (s : State) : exec (.pairDrainTimeout slice) s = execPairDrainTimeout slice s := rfl
@[simp] theorem exec_autoPair (part) (s : State) : exec (.autoPair part) s = execAutoPair part s := rfl
@[simp] theorem exec_autoUnpairTimeout (slice) (s : State) : exec (.autoUnpairTimeout slice) s = execAutoUnpairTimeout slice s := rfl
@[simp] theorem exec_assayTimeout (b) (s : State) : exec (.assayTimeout b) s = execAssayTimeout b s := rfl
@[simp] theorem exec_assayMismatch (b) (s : State) : exec (.assayMismatch b) s = execAssayMismatch b s := rfl
@[simp] theorem exec_assayPass (b) (s : State) : exec (.assayPass b) s = execAssayPass b s := rfl
@[simp] theorem exec_mloopStart (core) (s : State) : exec (.mloopStart core) s = execMloopStart core s := rfl
@[simp] theorem exec_mloopFetchFault (core) (s : State) : exec (.mloopFetchFault core) s = execMloopFetchFault core s := rfl
@[simp] theorem exec_mloopEnd (core) (s : State) : exec (.mloopEnd core) s = execMloopEnd core s := rfl
@[simp] theorem exec_engineAccept (inst) (s : State) : exec (.engineAccept inst) s = execEngineAccept inst s := rfl
@[simp] theorem exec_receiptPost (inst) (s : State) : exec (.receiptPost inst) s = execReceiptPost inst s := rfl
@[simp] theorem exec_copy (inst) (s : State) : exec (.copy inst) s = execCopy inst s := rfl
@[simp] theorem exec_gather (inst) (s : State) : exec (.gather inst) s = execGather inst s := rfl
@[simp] theorem exec_scatter (inst) (s : State) : exec (.scatter inst) s = execScatter inst s := rfl
@[simp] theorem exec_fill (inst) (s : State) : exec (.fill inst) s = execFill inst s := rfl
@[simp] theorem exec_stream (inst) (s : State) : exec (.stream inst) s = execStream inst s := rfl
@[simp] theorem exec_lookup (inst) (s : State) : exec (.lookup inst) s = execLookup inst s := rfl
@[simp] theorem exec_insert (inst) (s : State) : exec (.insert inst) s = execInsert inst s := rfl
@[simp] theorem exec_sort (inst) (s : State) : exec (.sort inst) s = execSort inst s := rfl
@[simp] theorem exec_merge (inst) (s : State) : exec (.merge inst) s = execMerge inst s := rfl
@[simp] theorem exec_hash (inst) (s : State) : exec (.hash inst) s = execHash inst s := rfl
@[simp] theorem exec_sign (inst) (s : State) : exec (.sign inst) s = execSign inst s := rfl
@[simp] theorem exec_linkDownTimeout (port) (s : State) : exec (.linkDownTimeout port) s = execLinkDownTimeout port s := rfl
@[simp] theorem exec_lowRailHoldExpiry (cluster) (s : State) : exec (.lowRailHoldExpiry cluster) s = execLowRailHoldExpiry cluster s := rfl
@[simp] theorem exec_railChangeComplete (cluster) (s : State) : exec (.railChangeComplete cluster) s = execRailChangeComplete cluster s := rfl
@[simp] theorem exec_hostCoherenceDrain (tenant lines) (s : State) : exec (.hostCoherenceDrain tenant lines) s = execHostCoherenceDrain tenant lines s := rfl
@[simp] theorem exec_operandLogEntryFreed (entry) (s : State) : exec (.operandLogEntryFreed entry) s = execOperandLogEntryFreed entry s := rfl
@[simp] theorem exec_iprefInvComplete (id) (s : State) : exec (.iprefInvComplete id) s = execIprefInvComplete id s := rfl
@[simp] theorem exec_ssvInboxMessageTaken (tenant) (s : State) : exec (.ssvInboxMessageTaken tenant) s = execSsvInboxMessageTaken tenant s := rfl
@[simp] theorem exec_hostMemoryAccess (a) (s : State) : exec (.hostMemoryAccess a) s = execHostMemoryAccess a s := rfl
@[simp] theorem exec_registerWrite (pa v) (s : State) : exec (.registerWrite pa v) s = execRegisterWrite pa v s := rfl
@[simp] theorem exec_bringUp (r) (s : State) : exec (.bringUp r) s = execBringUp r s := rfl
@[simp] theorem exec_sqtailWrite (q v) (s : State) : exec (.sqtailWrite q v) s = execSqtailWrite q v s := rfl
@[simp] theorem exec_sqctlResume (q) (s : State) : exec (.sqctlResume q) s = execSqctlResume q s := rfl
@[simp] theorem exec_sqctlSkip (q) (s : State) : exec (.sqctlSkip q) s = execSqctlSkip q s := rfl
@[simp] theorem exec_eventCounterHostAdd (n v) (s : State) : exec (.eventCounterHostAdd n v) s = execEventCounterHostAdd n v s := rfl
@[simp] theorem exec_dataFaultRetry (f) (s : State) : exec (.dataFaultRetry f) s = execDataFaultRetry f s := rfl
@[simp] theorem exec_pairctlWrite (slice v) (s : State) : exec (.pairctlWrite slice v) s = execPairctlWrite slice v s := rfl
@[simp] theorem exec_icinvWrite (v) (s : State) : exec (.icinvWrite v) s = execIcinvWrite v s := rfl
@[simp] theorem exec_xlinvWrite (v) (s : State) : exec (.xlinvWrite v) s = execXlinvWrite v s := rfl
@[simp] theorem exec_launchabortWrite (v) (s : State) : exec (.launchabortWrite v) s = execLaunchabortWrite v s := rfl
@[simp] theorem exec_playoutWrite (v) (s : State) : exec (.playoutWrite v) s = execPlayoutWrite v s := rfl
@[simp] theorem exec_pengWrite (f v) (s : State) : exec (.pengWrite f v) s = execPengWrite f v s := rfl
@[simp] theorem exec_pevtWrite (f v) (s : State) : exec (.pevtWrite f v) s = execPevtWrite f v s := rfl
@[simp] theorem exec_pmintWrite (f v) (s : State) : exec (.pmintWrite f v) s = execPmintWrite f v s := rfl
@[simp] theorem exec_tenantWrite (u v) (s : State) : exec (.tenantWrite u v) s = execTenantWrite u v s := rfl
@[simp] theorem exec_qownWrite (n v) (s : State) : exec (.qownWrite n v) s = execQownWrite n v s := rfl
@[simp] theorem exec_floorWrite (t v) (s : State) : exec (.floorWrite t v) s = execFloorWrite t v s := rfl
@[simp] theorem exec_lowrailWrite (v) (s : State) : exec (.lowrailWrite v) s = execLowrailWrite v s := rfl
@[simp] theorem exec_railcntClear (c) (s : State) : exec (.railcntClear c) s = execRailcntClear c s := rfl
@[simp] theorem exec_linkctlRetrain (p) (s : State) : exec (.linkctlRetrain p) s = execLinkctlRetrain p s := rfl
@[simp] theorem exec_peerLinkRequest (port a) (s : State) : exec (.peerLinkRequest port a) s = execPeerLinkRequest port a s := rfl
@[simp] theorem exec_linkFlitReceive (port f) (s : State) : exec (.linkFlitReceive port f) s = execLinkFlitReceive port f s := rfl
@[simp] theorem exec_linkTraining (port proof) (s : State) : exec (.linkTraining port proof) s = execLinkTraining port proof s := rfl
@[simp] theorem exec_nocPacketReceive (w crcOk tagOk f) (s : State) : exec (.nocPacketReceive w crcOk tagOk f) s = execNocPacketReceive w crcOk tagOk f s := rfl
@[simp] theorem exec_powerControlTick (r) (s : State) : exec (.powerControlTick r) s = execPowerControlTick r s := rfl
@[simp] theorem exec_dramModeCheck (group report) (s : State) : exec (.dramModeCheck group report) s = execDramModeCheck group report s := rfl
@[simp] theorem exec_undervoltInterval (x_s) (s : State) : exec (.undervoltInterval x_s) s = execUndervoltInterval x_s s := rfl
@[simp] theorem exec_lowRailUncorrectable (cluster f) (s : State) : exec (.lowRailUncorrectable cluster f) s = execLowRailUncorrectable cluster f s := rfl
@[simp] theorem exec_junctionCrossing (slice level x_rising celsius) (s : State) : exec (.junctionCrossing slice level x_rising celsius) s = execJunctionCrossing slice level x_rising celsius s := rfl
@[simp] theorem exec_icinvComplete (s : State) : exec (.icinvComplete) s = execIcinvComplete s := rfl
@[simp] theorem exec_xlinvComplete (s : State) : exec (.xlinvComplete) s = execXlinvComplete s := rfl
@[simp] theorem exec_cfgerrClear (s : State) : exec (.cfgerrClear) s = execCfgerrClear s := rfl
@[simp] theorem exec_evrctlOverflowClear (s : State) : exec (.evrctlOverflowClear) s = execEvrctlOverflowClear s := rfl
@[simp] theorem exec_evrlostClear (s : State) : exec (.evrlostClear) s = execEvrlostClear s := rfl
@[simp] theorem exec_mbxreplyRead (s : State) : exec (.mbxreplyRead) s = execMbxreplyRead s := rfl
@[simp] theorem exec_bind (s : State) : exec (.bind) s = execBind s := rfl
@[simp] theorem exec_unbind (s : State) : exec (.unbind) s = execUnbind s := rfl
@[simp] theorem exec_lock (s : State) : exec (.lock) s = execLock s := rfl
@[simp] theorem exec_start (s : State) : exec (.start) s = execStart s := rfl
@[simp] theorem exec_unlock (s : State) : exec (.unlock) s = execUnlock s := rfl
@[simp] theorem exec_query (s : State) : exec (.query) s = execQuery s := rfl
@[simp] theorem exec_keyprov (s : State) : exec (.keyprov) s = execKeyprov s := rfl
@[simp] theorem exec_keyrevoke (s : State) : exec (.keyrevoke) s = execKeyrevoke s := rfl
@[simp] theorem exec_extend (s : State) : exec (.extend) s = execExtend s := rfl
@[simp] theorem exec_secBadMessage (s : State) : exec (.secBadMessage) s = execSecBadMessage s := rfl
@[simp] theorem exec_getVersion (s : State) : exec (.getVersion) s = execGetVersion s := rfl
@[simp] theorem exec_getCapabilities (s : State) : exec (.getCapabilities) s = execGetCapabilities s := rfl
@[simp] theorem exec_negotiateAlgorithms (s : State) : exec (.negotiateAlgorithms) s = execNegotiateAlgorithms s := rfl
@[simp] theorem exec_getDigests (s : State) : exec (.getDigests) s = execGetDigests s := rfl
@[simp] theorem exec_getCertificate (s : State) : exec (.getCertificate) s = execGetCertificate s := rfl
@[simp] theorem exec_challenge (s : State) : exec (.challenge) s = execChallenge s := rfl
@[simp] theorem exec_getMeasurements (s : State) : exec (.getMeasurements) s = execGetMeasurements s := rfl
@[simp] theorem exec_spdmUnsupportedRequest (s : State) : exec (.spdmUnsupportedRequest) s = execSpdmUnsupportedRequest s := rfl
@[simp] theorem exec_dramWindow (s : State) : exec (.dramWindow) s = execDramWindow s := rfl
@[simp] theorem exec_coldReset (s : State) : exec (.coldReset) s = execColdReset s := rfl

end Machine
end Sys2Proof
end

