-- ==== Sys2Proof/Laws/Maps.lean ====
section
/-!
SUPPORT. The small lemmas of the finite map and of the list helpers of Word.lean.
-/

namespace Sys2Proof

theorem FMap.find_put_self {α : Type} (m : FMap α) (n : Nat) (x : α) : (m.put n x).find n = some x := by
  induction m with
  | nil => simp [FMap.put, FMap.find]
  | cons p t ih =>
    obtain ⟨k, v⟩ := p
    simp only [FMap.put]
    split <;> (try split) <;> simp_all [FMap.find]

theorem FMap.find_put_ne {α : Type} (m : FMap α) (n j : Nat) (x : α) (h : j ≠ n) : (m.put n x).find j = m.find j := by
  induction m with
  | nil => simp [FMap.put, FMap.find, h]
  | cons p t ih =>
    obtain ⟨k, v⟩ := p
    simp only [FMap.put]
    split
    · simp [FMap.find, h]
    · split
      · next _ e => subst e; simp [FMap.find, h]
      · simp [FMap.find, ih]

theorem FMap.find_put {α : Type} (m : FMap α) (n j : Nat) (x : α) :
    (m.put n x).find j = if j = n then some x else m.find j := by
  by_cases h : j = n
  · subst h; simp [FMap.find_put_self]
  · simp [h, FMap.find_put_ne]

theorem FMap.find_del_self {α : Type} (m : FMap α) (n : Nat) : (m.del n).find n = none := by
  induction m with
  | nil => rfl
  | cons p t ih =>
    obtain ⟨k, v⟩ := p
    simp only [FMap.del]
    split <;> simp_all [FMap.find]

theorem FMap.find_del_ne {α : Type} (m : FMap α) (n j : Nat) (h : j ≠ n) : (m.del n).find j = m.find j := by
  induction m with
  | nil => rfl
  | cons p t ih =>
    obtain ⟨k, v⟩ := p
    simp only [FMap.del]
    split
    · next e => subst e; simp [FMap.find, h, ih]
    · simp [FMap.find, ih]

theorem FMap.find_adjust {α : Type} (m : FMap α) (n j : Nat) (f : α → α) :
    (m.adjust n f).find j = if j = n then (m.find j).map f else m.find j := by
  unfold FMap.adjust
  induction m with
  | nil => simp [FMap.find]
  | cons p t ih =>
    obtain ⟨k, v⟩ := p
    by_cases h : k = n <;> by_cases e : j = k <;> simp_all [FMap.find]

theorem FMap.findD_put {α : Type} (m : FMap α) (n j : Nat) (x d : α) :
    (m.put n x).findD j d = if j = n then x else m.findD j d := by
  unfold FMap.findD
  rw [FMap.find_put]
  split <;> rfl

theorem FMap.findD_store {α : Type} [DecidableEq α] (d : α) (m : FMap α) (n j : Nat) (x : α) :
    (FMap.store d m n x).findD j d = if j = n then x else m.findD j d := by
  unfold FMap.store
  split
  · next h =>
    subst h
    unfold FMap.findD
    split
    · next e => subst e; simp [FMap.find_del_self]
    · next e => rw [FMap.find_del_ne _ _ _ e]
  · exact FMap.findD_put m n j x d

/-! ## The order of the keys -/

theorem FMap.sorted_tail {α : Type} (p : Nat × α) (t : FMap α) (h : FMap.sorted (p :: t) = true) :
    FMap.sorted t = true := by
  cases t with
  | nil => rfl
  | cons q r => simp_all [FMap.sorted]

theorem FMap.sorted_lt {α : Type} (p : Nat × α) (t : FMap α) (h : FMap.sorted (p :: t) = true) :
    ∀ q ∈ t, p.1 < q.1 := by
  induction t generalizing p with
  | nil => simp
  | cons r t ih =>
    have h1 : p.1 < r.1 := by simp [FMap.sorted] at h; exact h.1
    have h2 := ih r (FMap.sorted_tail p _ h)
    intro q hq
    rcases List.mem_cons.mp hq with e | hq
    · exact e ▸ h1
    · exact Nat.lt_trans h1 (h2 q hq)

theorem FMap.sorted_cons {α : Type} (p : Nat × α) (t : FMap α) (h : FMap.sorted t = true) (hp : ∀ q ∈ t, p.1 < q.1) :
    FMap.sorted (p :: t) = true := by
  cases t with
  | nil => rfl
  | cons q r => simp [FMap.sorted, h, hp q (by simp)]

theorem FMap.mem_put {α : Type} (m : FMap α) (n : Nat) (x : α) (q : Nat × α) (h : q ∈ m.put n x) :
    q = (n, x) ∨ q ∈ m := by
  induction m with
  | nil => simp [FMap.put] at h; exact .inl h
  | cons p t ih =>
    obtain ⟨k, v⟩ := p
    simp only [FMap.put] at h
    split at h
    · simp only [List.mem_cons] at h ⊢; exact h
    · split at h
      · simp only [List.mem_cons] at h ⊢; tauto
      · simp only [List.mem_cons] at h ⊢
        rcases h with h | h
        · tauto
        · rcases ih h with h | h <;> tauto

theorem FMap.mem_del {α : Type} (m : FMap α) (n : Nat) (q : Nat × α) (h : q ∈ m.del n) : q ∈ m := by
  induction m with
  | nil => simpa [FMap.del] using h
  | cons p t ih =>
    obtain ⟨k, v⟩ := p
    simp only [FMap.del] at h
    split at h
    · exact List.mem_cons_of_mem _ (ih h)
    · rcases List.mem_cons.mp h with h | h
      · simp [h]
      · exact List.mem_cons_of_mem _ (ih h)

theorem FMap.sorted_put {α : Type} (m : FMap α) (n : Nat) (x : α) (h : FMap.sorted m = true) :
    FMap.sorted (m.put n x) = true := by
  induction m with
  | nil => rfl
  | cons p t ih =>
    obtain ⟨k, v⟩ := p
    have ht := FMap.sorted_tail _ _ h
    have hl := FMap.sorted_lt _ _ h
    simp only [FMap.put]
    split
    · next hlt =>
      refine FMap.sorted_cons _ _ h fun q hq => ?_
      rcases List.mem_cons.mp hq with e | hq
      · exact e ▸ hlt
      · exact Nat.lt_trans hlt (hl q hq)
    · split
      · next e => subst e; exact FMap.sorted_cons _ _ ht hl
      · refine FMap.sorted_cons _ _ (ih ht) fun q hq => ?_
        rcases FMap.mem_put _ _ _ _ hq with e | hq
        · subst e; simp only; omega
        · exact hl q hq

theorem FMap.sorted_del {α : Type} (m : FMap α) (n : Nat) (h : FMap.sorted m = true) :
    FMap.sorted (m.del n) = true := by
  induction m with
  | nil => rfl
  | cons p t ih =>
    obtain ⟨k, v⟩ := p
    have ht := FMap.sorted_tail _ _ h
    simp only [FMap.del]
    split
    · exact ih ht
    · exact FMap.sorted_cons _ _ (ih ht) fun q hq => FMap.sorted_lt _ _ h q (FMap.mem_del _ _ _ hq)

theorem FMap.sorted_filter {α : Type} (m : FMap α) (p : Nat × α → Bool) (h : FMap.sorted m = true) :
    FMap.sorted (m.filter p) = true := by
  induction m with
  | nil => rfl
  | cons q t ih =>
    have ht := ih (FMap.sorted_tail _ _ h)
    by_cases hp : p q = true
    · rw [List.filter_cons_of_pos hp]
      exact FMap.sorted_cons _ _ ht fun r hr => FMap.sorted_lt _ _ h r (List.mem_of_mem_filter hr)
    · rw [List.filter_cons_of_neg hp]; exact ht

/-! ## List helpers -/

theorem listSet_out {α : Type} (l : List α) (n : Nat) (x : α) (h : ¬ n < l.length) : listSet l n x = l := by
  induction l generalizing n with
  | nil => rfl
  | cons a t ih =>
    cases n with
    | zero => simp at h
    | succ n => simp [listSet, ih n (by simpa using h)]

theorem listSet_getD {α : Type} (l : List α) (n k : Nat) (x d : α) (h : n < l.length) :
    (listSet l n x).getD k d = if k = n then x else l.getD k d := by
  induction l generalizing n k with
  | nil => simp at h
  | cons a t ih =>
    cases n with
    | zero => cases k <;> simp [listSet]
    | succ n =>
      cases k with
      | zero => simp [listSet]
      | succ k =>
        have := ih n k (by simpa using h)
        simpa [listSet] using this

theorem listSet_length {α : Type} (l : List α) (n : Nat) (x : α) : (listSet l n x).length = l.length := by
  induction l generalizing n with
  | nil => rfl
  | cons a t ih => cases n <;> simp [listSet, ih]

theorem mem_upFrom (lo n k : Nat) : k ∈ upFrom lo n ↔ lo ≤ k ∧ k < lo + n := by
  induction n generalizing lo with
  | zero => simp [upFrom]
  | succ n ih => simp [upFrom, ih]; omega

theorem upFrom_length (lo n : Nat) : (upFrom lo n).length = n := by
  induction n generalizing lo with
  | zero => rfl
  | succ n ih => simp [upFrom, ih]

theorem leBytes_length (x n : Nat) : (leBytes x n).length = n := by
  induction n generalizing x with
  | zero => rfl
  | succ n ih => simp [leBytes, ih]

theorem leNat_leBytes (x n : Nat) : leNat (leBytes x n) = x % 256 ^ n := by
  induction n generalizing x with
  | zero => simp [leBytes, leNat, Nat.mod_one]
  | succ n ih =>
    simp only [leBytes, leNat, ih, BitVec.toNat_ofNat]
    rw [show x % 256 % 2 ^ 8 = x % 256 from Nat.mod_eq_of_lt (Nat.mod_lt _ (by decide)), Nat.pow_succ', Nat.mod_mul]

/-- A fold none of whose steps changes anything. -/
theorem foldl_id {σ α : Type} (f : σ → α → σ) (l : List α) (s : σ) (h : ∀ a ∈ l, f s a = s) : l.foldl f s = s := by
  induction l with
  | nil => rfl
  | cons a t ih =>
    rw [List.foldl_cons, h a List.mem_cons_self]
    exact ih fun b hb => h b (List.mem_cons_of_mem _ hb)

/-- A projection that no step of a fold changes is unchanged by the fold. -/
theorem foldl_same {σ α β : Type} (p : σ → β) (f : σ → α → σ) (h : ∀ s a, p (f s a) = p s) (l : List α) (s : σ) :
    p (l.foldl f s) = p s := by
  induction l generalizing s with
  | nil => rfl
  | cons a t ih => rw [List.foldl_cons, ih, h]

/-- A property that every step of a fold keeps is kept by the fold. -/
theorem foldl_keeps {σ α : Type} (P : σ → Prop) (f : σ → α → σ) (h : ∀ s a, P s → P (f s a)) (l : List α) (s : σ) (hs : P s) :
    P (l.foldl f s) := by
  induction l generalizing s with
  | nil => exact hs
  | cons a t ih => exact ih _ (h _ _ hs)

end Sys2Proof
end

