-- ==== Sys2Proof/Laws/State.lean ====
section
/-!
SUPPORT. What each simple update of the state does to each field: it changes one, and leaves the others as they are.
-/

namespace Sys2Proof
namespace Machine

variable (s : State)

@[simp] theorem State.setThread_now (t : Nat) (T : Thread) : (s.setThread t T).now = s.now := rfl
@[simp] theorem State.setThread_agenda (t : Nat) (T : Thread) : (s.setThread t T).agenda = s.agenda := rfl
@[simp] theorem State.setThread_cur (t : Nat) (T : Thread) : (s.setThread t T).cur = s.cur := rfl
@[simp] theorem State.setThread_freeCtr (t : Nat) (T : Thread) : (s.setThread t T).freeCtr = s.freeCtr := rfl
@[simp] theorem State.setThread_nextId (t : Nat) (T : Thread) : (s.setThread t T).nextId = s.nextId := rfl
@[simp] theorem State.setThread_rotation (t : Nat) (T : Thread) : (s.setThread t T).rotation = s.rotation := rfl
@[simp] theorem State.setThread_threads (t : Nat) (T : Thread) : (s.setThread t T).threads = s.threads.put t T := rfl
@[simp] theorem State.setThread_groups (t : Nat) (T : Thread) : (s.setThread t T).groups = s.groups := rfl
@[simp] theorem State.setThread_bins (t : Nat) (T : Thread) : (s.setThread t T).bins = s.bins := rfl
@[simp] theorem State.setThread_seqs (t : Nat) (T : Thread) : (s.setThread t T).seqs = s.seqs := rfl
@[simp] theorem State.setThread_opLog (t : Nat) (T : Thread) : (s.setThread t T).opLog = s.opLog := rfl
@[simp] theorem State.setThread_inflight (t : Nat) (T : Thread) : (s.setThread t T).inflight = s.inflight := rfl
@[simp] theorem State.setThread_pendStores (t : Nat) (T : Thread) : (s.setThread t T).pendStores = s.pendStores := rfl
@[simp] theorem State.setThread_drain (t : Nat) (T : Thread) : (s.setThread t T).drain = s.drain := rfl
@[simp] theorem State.setThread_acps (t : Nat) (T : Thread) : (s.setThread t T).acps = s.acps := rfl
@[simp] theorem State.setThread_spadBanks (t : Nat) (T : Thread) : (s.setThread t T).spadBanks = s.spadBanks := rfl
@[simp] theorem State.setThread_spadWakes (t : Nat) (T : Thread) : (s.setThread t T).spadWakes = s.spadWakes := rfl
@[simp] theorem State.setThread_l1 (t : Nat) (T : Thread) : (s.setThread t T).l1 = s.l1 := rfl
@[simp] theorem State.setThread_tlb (t : Nat) (T : Thread) : (s.setThread t T).tlb = s.tlb := rfl
@[simp] theorem State.setThread_icache (t : Nat) (T : Thread) : (s.setThread t T).icache = s.icache := rfl
@[simp] theorem State.setThread_icinv (t : Nat) (T : Thread) : (s.setThread t T).icinv = s.icinv := rfl
@[simp] theorem State.setThread_iprefInv (t : Nat) (T : Thread) : (s.setThread t T).iprefInv = s.iprefInv := rfl
@[simp] theorem State.setThread_xlinv (t : Nat) (T : Thread) : (s.setThread t T).xlinv = s.xlinv := rfl
@[simp] theorem State.setThread_abortBusy (t : Nat) (T : Thread) : (s.setThread t T).abortBusy = s.abortBusy := rfl
@[simp] theorem State.setThread_mqueue (t : Nat) (T : Thread) : (s.setThread t T).mqueue = s.mqueue := rfl
@[simp] theorem State.setThread_schedPos (t : Nat) (T : Thread) : (s.setThread t T).schedPos = s.schedPos := rfl
@[simp] theorem State.setThread_schedOff (t : Nat) (T : Thread) : (s.setThread t T).schedOff = s.schedOff := rfl
@[simp] theorem State.setThread_debt (t : Nat) (T : Thread) : (s.setThread t T).debt = s.debt := rfl
@[simp] theorem State.setThread_mem (t : Nat) (T : Thread) : (s.setThread t T).mem = s.mem := rfl
@[simp] theorem State.setThread_obDirty (t : Nat) (T : Thread) : (s.setThread t T).obDirty = s.obDirty := rfl
@[simp] theorem State.setThread_cells (t : Nat) (T : Thread) : (s.setThread t T).cells = s.cells := rfl
@[simp] theorem State.setThread_ctxs (t : Nat) (T : Thread) : (s.setThread t T).ctxs = s.ctxs := rfl
@[simp] theorem State.setThread_mintQ (t : Nat) (T : Thread) : (s.setThread t T).mintQ = s.mintQ := rfl
@[simp] theorem State.setThread_teller (t : Nat) (T : Thread) : (s.setThread t T).teller = s.teller := rfl
@[simp] theorem State.setThread_sqs (t : Nat) (T : Thread) : (s.setThread t T).sqs = s.sqs := rfl
@[simp] theorem State.setThread_submits (t : Nat) (T : Thread) : (s.setThread t T).submits = s.submits := rfl
@[simp] theorem State.setThread_launches (t : Nat) (T : Thread) : (s.setThread t T).launches = s.launches := rfl
@[simp] theorem State.setThread_counters (t : Nat) (T : Thread) : (s.setThread t T).counters = s.counters := rfl
@[simp] theorem State.setThread_blocks (t : Nat) (T : Thread) : (s.setThread t T).blocks = s.blocks := rfl
@[simp] theorem State.setThread_engines (t : Nat) (T : Thread) : (s.setThread t T).engines = s.engines := rfl
@[simp] theorem State.setThread_cfg (t : Nat) (T : Thread) : (s.setThread t T).cfg = s.cfg := rfl
@[simp] theorem State.setThread_spend (t : Nat) (T : Thread) : (s.setThread t T).spend = s.spend := rfl
@[simp] theorem State.setThread_windowAt (t : Nat) (T : Thread) : (s.setThread t T).windowAt = s.windowAt := rfl
@[simp] theorem State.setThread_dramBudgets (t : Nat) (T : Thread) : (s.setThread t T).dramBudgets = s.dramBudgets := rfl
@[simp] theorem State.setThread_modeAt (t : Nat) (T : Thread) : (s.setThread t T).modeAt = s.modeAt := rfl
@[simp] theorem State.setThread_budgets (t : Nat) (T : Thread) : (s.setThread t T).budgets = s.budgets := rfl
@[simp] theorem State.setThread_pairs (t : Nat) (T : Thread) : (s.setThread t T).pairs = s.pairs := rfl
@[simp] theorem State.setThread_mismatches (t : Nat) (T : Thread) : (s.setThread t T).mismatches = s.mismatches := rfl
@[simp] theorem State.setThread_mmSeq (t : Nat) (T : Thread) : (s.setThread t T).mmSeq = s.mmSeq := rfl
@[simp] theorem State.setThread_assayed (t : Nat) (T : Thread) : (s.setThread t T).assayed = s.assayed := rfl
@[simp] theorem State.setThread_transient (t : Nat) (T : Thread) : (s.setThread t T).transient = s.transient := rfl
@[simp] theorem State.setThread_inbox (t : Nat) (T : Thread) : (s.setThread t T).inbox = s.inbox := rfl
@[simp] theorem State.setThread_sec (t : Nat) (T : Thread) : (s.setThread t T).sec = s.sec := rfl
@[simp] theorem State.setThread_evr (t : Nat) (T : Thread) : (s.setThread t T).evr = s.evr := rfl
@[simp] theorem State.setThread_links (t : Nat) (T : Thread) : (s.setThread t T).links = s.links := rfl
@[simp] theorem State.setThread_rails (t : Nat) (T : Thread) : (s.setThread t T).rails = s.rails := rfl
@[simp] theorem State.setThread_lowRail (t : Nat) (T : Thread) : (s.setThread t T).lowRail = s.lowRail := rfl
@[simp] theorem State.setThread_junction (t : Nat) (T : Thread) : (s.setThread t T).junction = s.junction := rfl
@[simp] theorem State.setThread_demand (t : Nat) (T : Thread) : (s.setThread t T).demand = s.demand := rfl
@[simp] theorem State.setThread_powerAt (t : Nat) (T : Thread) : (s.setThread t T).powerAt = s.powerAt := rfl
@[simp] theorem State.setThread_hostReply (t : Nat) (T : Thread) : (s.setThread t T).hostReply = s.hostReply := rfl
@[simp] theorem State.setThread_hostBusErr (t : Nat) (T : Thread) : (s.setThread t T).hostBusErr = s.hostBusErr := rfl
@[simp] theorem State.setThread_peerReply (t : Nat) (T : Thread) : (s.setThread t T).peerReply = s.peerReply := rfl

@[simp] theorem State.modThread_now (t : Nat) (f : Thread → Thread) : (s.modThread t f).now = s.now := rfl
@[simp] theorem State.modThread_agenda (t : Nat) (f : Thread → Thread) : (s.modThread t f).agenda = s.agenda := rfl
@[simp] theorem State.modThread_cur (t : Nat) (f : Thread → Thread) : (s.modThread t f).cur = s.cur := rfl
@[simp] theorem State.modThread_freeCtr (t : Nat) (f : Thread → Thread) : (s.modThread t f).freeCtr = s.freeCtr := rfl
@[simp] theorem State.modThread_nextId (t : Nat) (f : Thread → Thread) : (s.modThread t f).nextId = s.nextId := rfl
@[simp] theorem State.modThread_rotation (t : Nat) (f : Thread → Thread) : (s.modThread t f).rotation = s.rotation := rfl
@[simp] theorem State.modThread_threads (t : Nat) (f : Thread → Thread) : (s.modThread t f).threads = s.threads.put t (f (s.thread t)) := rfl
@[simp] theorem State.modThread_groups (t : Nat) (f : Thread → Thread) : (s.modThread t f).groups = s.groups := rfl
@[simp] theorem State.modThread_bins (t : Nat) (f : Thread → Thread) : (s.modThread t f).bins = s.bins := rfl
@[simp] theorem State.modThread_seqs (t : Nat) (f : Thread → Thread) : (s.modThread t f).seqs = s.seqs := rfl
@[simp] theorem State.modThread_opLog (t : Nat) (f : Thread → Thread) : (s.modThread t f).opLog = s.opLog := rfl
@[simp] theorem State.modThread_inflight (t : Nat) (f : Thread → Thread) : (s.modThread t f).inflight = s.inflight := rfl
@[simp] theorem State.modThread_pendStores (t : Nat) (f : Thread → Thread) : (s.modThread t f).pendStores = s.pendStores := rfl
@[simp] theorem State.modThread_drain (t : Nat) (f : Thread → Thread) : (s.modThread t f).drain = s.drain := rfl
@[simp] theorem State.modThread_acps (t : Nat) (f : Thread → Thread) : (s.modThread t f).acps = s.acps := rfl
@[simp] theorem State.modThread_spadBanks (t : Nat) (f : Thread → Thread) : (s.modThread t f).spadBanks = s.spadBanks := rfl
@[simp] theorem State.modThread_spadWakes (t : Nat) (f : Thread → Thread) : (s.modThread t f).spadWakes = s.spadWakes := rfl
@[simp] theorem State.modThread_l1 (t : Nat) (f : Thread → Thread) : (s.modThread t f).l1 = s.l1 := rfl
@[simp] theorem State.modThread_tlb (t : Nat) (f : Thread → Thread) : (s.modThread t f).tlb = s.tlb := rfl
@[simp] theorem State.modThread_icache (t : Nat) (f : Thread → Thread) : (s.modThread t f).icache = s.icache := rfl
@[simp] theorem State.modThread_icinv (t : Nat) (f : Thread → Thread) : (s.modThread t f).icinv = s.icinv := rfl
@[simp] theorem State.modThread_iprefInv (t : Nat) (f : Thread → Thread) : (s.modThread t f).iprefInv = s.iprefInv := rfl
@[simp] theorem State.modThread_xlinv (t : Nat) (f : Thread → Thread) : (s.modThread t f).xlinv = s.xlinv := rfl
@[simp] theorem State.modThread_abortBusy (t : Nat) (f : Thread → Thread) : (s.modThread t f).abortBusy = s.abortBusy := rfl
@[simp] theorem State.modThread_mqueue (t : Nat) (f : Thread → Thread) : (s.modThread t f).mqueue = s.mqueue := rfl
@[simp] theorem State.modThread_schedPos (t : Nat) (f : Thread → Thread) : (s.modThread t f).schedPos = s.schedPos := rfl
@[simp] theorem State.modThread_schedOff (t : Nat) (f : Thread → Thread) : (s.modThread t f).schedOff = s.schedOff := rfl
@[simp] theorem State.modThread_debt (t : Nat) (f : Thread → Thread) : (s.modThread t f).debt = s.debt := rfl
@[simp] theorem State.modThread_mem (t : Nat) (f : Thread → Thread) : (s.modThread t f).mem = s.mem := rfl
@[simp] theorem State.modThread_obDirty (t : Nat) (f : Thread → Thread) : (s.modThread t f).obDirty = s.obDirty := rfl
@[simp] theorem State.modThread_cells (t : Nat) (f : Thread → Thread) : (s.modThread t f).cells = s.cells := rfl
@[simp] theorem State.modThread_ctxs (t : Nat) (f : Thread → Thread) : (s.modThread t f).ctxs = s.ctxs := rfl
@[simp] theorem State.modThread_mintQ (t : Nat) (f : Thread → Thread) : (s.modThread t f).mintQ = s.mintQ := rfl
@[simp] theorem State.modThread_teller (t : Nat) (f : Thread → Thread) : (s.modThread t f).teller = s.teller := rfl
@[simp] theorem State.modThread_sqs (t : Nat) (f : Thread → Thread) : (s.modThread t f).sqs = s.sqs := rfl
@[simp] theorem State.modThread_submits (t : Nat) (f : Thread → Thread) : (s.modThread t f).submits = s.submits := rfl
@[simp] theorem State.modThread_launches (t : Nat) (f : Thread → Thread) : (s.modThread t f).launches = s.launches := rfl
@[simp] theorem State.modThread_counters (t : Nat) (f : Thread → Thread) : (s.modThread t f).counters = s.counters := rfl
@[simp] theorem State.modThread_blocks (t : Nat) (f : Thread → Thread) : (s.modThread t f).blocks = s.blocks := rfl
@[simp] theorem State.modThread_engines (t : Nat) (f : Thread → Thread) : (s.modThread t f).engines = s.engines := rfl
@[simp] theorem State.modThread_cfg (t : Nat) (f : Thread → Thread) : (s.modThread t f).cfg = s.cfg := rfl
@[simp] theorem State.modThread_spend (t : Nat) (f : Thread → Thread) : (s.modThread t f).spend = s.spend := rfl
@[simp] theorem State.modThread_windowAt (t : Nat) (f : Thread → Thread) : (s.modThread t f).windowAt = s.windowAt := rfl
@[simp] theorem State.modThread_dramBudgets (t : Nat) (f : Thread → Thread) : (s.modThread t f).dramBudgets = s.dramBudgets := rfl
@[simp] theorem State.modThread_modeAt (t : Nat) (f : Thread → Thread) : (s.modThread t f).modeAt = s.modeAt := rfl
@[simp] theorem State.modThread_budgets (t : Nat) (f : Thread → Thread) : (s.modThread t f).budgets = s.budgets := rfl
@[simp] theorem State.modThread_pairs (t : Nat) (f : Thread → Thread) : (s.modThread t f).pairs = s.pairs := rfl
@[simp] theorem State.modThread_mismatches (t : Nat) (f : Thread → Thread) : (s.modThread t f).mismatches = s.mismatches := rfl
@[simp] theorem State.modThread_mmSeq (t : Nat) (f : Thread → Thread) : (s.modThread t f).mmSeq = s.mmSeq := rfl
@[simp] theorem State.modThread_assayed (t : Nat) (f : Thread → Thread) : (s.modThread t f).assayed = s.assayed := rfl
@[simp] theorem State.modThread_transient (t : Nat) (f : Thread → Thread) : (s.modThread t f).transient = s.transient := rfl
@[simp] theorem State.modThread_inbox (t : Nat) (f : Thread → Thread) : (s.modThread t f).inbox = s.inbox := rfl
@[simp] theorem State.modThread_sec (t : Nat) (f : Thread → Thread) : (s.modThread t f).sec = s.sec := rfl
@[simp] theorem State.modThread_evr (t : Nat) (f : Thread → Thread) : (s.modThread t f).evr = s.evr := rfl
@[simp] theorem State.modThread_links (t : Nat) (f : Thread → Thread) : (s.modThread t f).links = s.links := rfl
@[simp] theorem State.modThread_rails (t : Nat) (f : Thread → Thread) : (s.modThread t f).rails = s.rails := rfl
@[simp] theorem State.modThread_lowRail (t : Nat) (f : Thread → Thread) : (s.modThread t f).lowRail = s.lowRail := rfl
@[simp] theorem State.modThread_junction (t : Nat) (f : Thread → Thread) : (s.modThread t f).junction = s.junction := rfl
@[simp] theorem State.modThread_demand (t : Nat) (f : Thread → Thread) : (s.modThread t f).demand = s.demand := rfl
@[simp] theorem State.modThread_powerAt (t : Nat) (f : Thread → Thread) : (s.modThread t f).powerAt = s.powerAt := rfl
@[simp] theorem State.modThread_hostReply (t : Nat) (f : Thread → Thread) : (s.modThread t f).hostReply = s.hostReply := rfl
@[simp] theorem State.modThread_hostBusErr (t : Nat) (f : Thread → Thread) : (s.modThread t f).hostBusErr = s.hostBusErr := rfl
@[simp] theorem State.modThread_peerReply (t : Nat) (f : Thread → Thread) : (s.modThread t f).peerReply = s.peerReply := rfl

@[simp] theorem State.setGroup_now (g : Nat) (G : Group) : (s.setGroup g G).now = s.now := rfl
@[simp] theorem State.setGroup_agenda (g : Nat) (G : Group) : (s.setGroup g G).agenda = s.agenda := rfl
@[simp] theorem State.setGroup_cur (g : Nat) (G : Group) : (s.setGroup g G).cur = s.cur := rfl
@[simp] theorem State.setGroup_freeCtr (g : Nat) (G : Group) : (s.setGroup g G).freeCtr = s.freeCtr := rfl
@[simp] theorem State.setGroup_nextId (g : Nat) (G : Group) : (s.setGroup g G).nextId = s.nextId := rfl
@[simp] theorem State.setGroup_rotation (g : Nat) (G : Group) : (s.setGroup g G).rotation = s.rotation := rfl
@[simp] theorem State.setGroup_threads (g : Nat) (G : Group) : (s.setGroup g G).threads = s.threads := rfl
@[simp] theorem State.setGroup_groups (g : Nat) (G : Group) : (s.setGroup g G).groups = s.groups.put g G := rfl
@[simp] theorem State.setGroup_bins (g : Nat) (G : Group) : (s.setGroup g G).bins = s.bins := rfl
@[simp] theorem State.setGroup_seqs (g : Nat) (G : Group) : (s.setGroup g G).seqs = s.seqs := rfl
@[simp] theorem State.setGroup_opLog (g : Nat) (G : Group) : (s.setGroup g G).opLog = s.opLog := rfl
@[simp] theorem State.setGroup_inflight (g : Nat) (G : Group) : (s.setGroup g G).inflight = s.inflight := rfl
@[simp] theorem State.setGroup_pendStores (g : Nat) (G : Group) : (s.setGroup g G).pendStores = s.pendStores := rfl
@[simp] theorem State.setGroup_drain (g : Nat) (G : Group) : (s.setGroup g G).drain = s.drain := rfl
@[simp] theorem State.setGroup_acps (g : Nat) (G : Group) : (s.setGroup g G).acps = s.acps := rfl
@[simp] theorem State.setGroup_spadBanks (g : Nat) (G : Group) : (s.setGroup g G).spadBanks = s.spadBanks := rfl
@[simp] theorem State.setGroup_spadWakes (g : Nat) (G : Group) : (s.setGroup g G).spadWakes = s.spadWakes := rfl
@[simp] theorem State.setGroup_l1 (g : Nat) (G : Group) : (s.setGroup g G).l1 = s.l1 := rfl
@[simp] theorem State.setGroup_tlb (g : Nat) (G : Group) : (s.setGroup g G).tlb = s.tlb := rfl
@[simp] theorem State.setGroup_icache (g : Nat) (G : Group) : (s.setGroup g G).icache = s.icache := rfl
@[simp] theorem State.setGroup_icinv (g : Nat) (G : Group) : (s.setGroup g G).icinv = s.icinv := rfl
@[simp] theorem State.setGroup_iprefInv (g : Nat) (G : Group) : (s.setGroup g G).iprefInv = s.iprefInv := rfl
@[simp] theorem State.setGroup_xlinv (g : Nat) (G : Group) : (s.setGroup g G).xlinv = s.xlinv := rfl
@[simp] theorem State.setGroup_abortBusy (g : Nat) (G : Group) : (s.setGroup g G).abortBusy = s.abortBusy := rfl
@[simp] theorem State.setGroup_mqueue (g : Nat) (G : Group) : (s.setGroup g G).mqueue = s.mqueue := rfl
@[simp] theorem State.setGroup_schedPos (g : Nat) (G : Group) : (s.setGroup g G).schedPos = s.schedPos := rfl
@[simp] theorem State.setGroup_schedOff (g : Nat) (G : Group) : (s.setGroup g G).schedOff = s.schedOff := rfl
@[simp] theorem State.setGroup_debt (g : Nat) (G : Group) : (s.setGroup g G).debt = s.debt := rfl
@[simp] theorem State.setGroup_mem (g : Nat) (G : Group) : (s.setGroup g G).mem = s.mem := rfl
@[simp] theorem State.setGroup_obDirty (g : Nat) (G : Group) : (s.setGroup g G).obDirty = s.obDirty := rfl
@[simp] theorem State.setGroup_cells (g : Nat) (G : Group) : (s.setGroup g G).cells = s.cells := rfl
@[simp] theorem State.setGroup_ctxs (g : Nat) (G : Group) : (s.setGroup g G).ctxs = s.ctxs := rfl
@[simp] theorem State.setGroup_mintQ (g : Nat) (G : Group) : (s.setGroup g G).mintQ = s.mintQ := rfl
@[simp] theorem State.setGroup_teller (g : Nat) (G : Group) : (s.setGroup g G).teller = s.teller := rfl
@[simp] theorem State.setGroup_sqs (g : Nat) (G : Group) : (s.setGroup g G).sqs = s.sqs := rfl
@[simp] theorem State.setGroup_submits (g : Nat) (G : Group) : (s.setGroup g G).submits = s.submits := rfl
@[simp] theorem State.setGroup_launches (g : Nat) (G : Group) : (s.setGroup g G).launches = s.launches := rfl
@[simp] theorem State.setGroup_counters (g : Nat) (G : Group) : (s.setGroup g G).counters = s.counters := rfl
@[simp] theorem State.setGroup_blocks (g : Nat) (G : Group) : (s.setGroup g G).blocks = s.blocks := rfl
@[simp] theorem State.setGroup_engines (g : Nat) (G : Group) : (s.setGroup g G).engines = s.engines := rfl
@[simp] theorem State.setGroup_cfg (g : Nat) (G : Group) : (s.setGroup g G).cfg = s.cfg := rfl
@[simp] theorem State.setGroup_spend (g : Nat) (G : Group) : (s.setGroup g G).spend = s.spend := rfl
@[simp] theorem State.setGroup_windowAt (g : Nat) (G : Group) : (s.setGroup g G).windowAt = s.windowAt := rfl
@[simp] theorem State.setGroup_dramBudgets (g : Nat) (G : Group) : (s.setGroup g G).dramBudgets = s.dramBudgets := rfl
@[simp] theorem State.setGroup_modeAt (g : Nat) (G : Group) : (s.setGroup g G).modeAt = s.modeAt := rfl
@[simp] theorem State.setGroup_budgets (g : Nat) (G : Group) : (s.setGroup g G).budgets = s.budgets := rfl
@[simp] theorem State.setGroup_pairs (g : Nat) (G : Group) : (s.setGroup g G).pairs = s.pairs := rfl
@[simp] theorem State.setGroup_mismatches (g : Nat) (G : Group) : (s.setGroup g G).mismatches = s.mismatches := rfl
@[simp] theorem State.setGroup_mmSeq (g : Nat) (G : Group) : (s.setGroup g G).mmSeq = s.mmSeq := rfl
@[simp] theorem State.setGroup_assayed (g : Nat) (G : Group) : (s.setGroup g G).assayed = s.assayed := rfl
@[simp] theorem State.setGroup_transient (g : Nat) (G : Group) : (s.setGroup g G).transient = s.transient := rfl
@[simp] theorem State.setGroup_inbox (g : Nat) (G : Group) : (s.setGroup g G).inbox = s.inbox := rfl
@[simp] theorem State.setGroup_sec (g : Nat) (G : Group) : (s.setGroup g G).sec = s.sec := rfl
@[simp] theorem State.setGroup_evr (g : Nat) (G : Group) : (s.setGroup g G).evr = s.evr := rfl
@[simp] theorem State.setGroup_links (g : Nat) (G : Group) : (s.setGroup g G).links = s.links := rfl
@[simp] theorem State.setGroup_rails (g : Nat) (G : Group) : (s.setGroup g G).rails = s.rails := rfl
@[simp] theorem State.setGroup_lowRail (g : Nat) (G : Group) : (s.setGroup g G).lowRail = s.lowRail := rfl
@[simp] theorem State.setGroup_junction (g : Nat) (G : Group) : (s.setGroup g G).junction = s.junction := rfl
@[simp] theorem State.setGroup_demand (g : Nat) (G : Group) : (s.setGroup g G).demand = s.demand := rfl
@[simp] theorem State.setGroup_powerAt (g : Nat) (G : Group) : (s.setGroup g G).powerAt = s.powerAt := rfl
@[simp] theorem State.setGroup_hostReply (g : Nat) (G : Group) : (s.setGroup g G).hostReply = s.hostReply := rfl
@[simp] theorem State.setGroup_hostBusErr (g : Nat) (G : Group) : (s.setGroup g G).hostBusErr = s.hostBusErr := rfl
@[simp] theorem State.setGroup_peerReply (g : Nat) (G : Group) : (s.setGroup g G).peerReply = s.peerReply := rfl

@[simp] theorem State.modGroup_now (g : Nat) (f : Group → Group) : (s.modGroup g f).now = s.now := rfl
@[simp] theorem State.modGroup_agenda (g : Nat) (f : Group → Group) : (s.modGroup g f).agenda = s.agenda := rfl
@[simp] theorem State.modGroup_cur (g : Nat) (f : Group → Group) : (s.modGroup g f).cur = s.cur := rfl
@[simp] theorem State.modGroup_freeCtr (g : Nat) (f : Group → Group) : (s.modGroup g f).freeCtr = s.freeCtr := rfl
@[simp] theorem State.modGroup_nextId (g : Nat) (f : Group → Group) : (s.modGroup g f).nextId = s.nextId := rfl
@[simp] theorem State.modGroup_rotation (g : Nat) (f : Group → Group) : (s.modGroup g f).rotation = s.rotation := rfl
@[simp] theorem State.modGroup_threads (g : Nat) (f : Group → Group) : (s.modGroup g f).threads = s.threads := rfl
@[simp] theorem State.modGroup_groups (g : Nat) (f : Group → Group) : (s.modGroup g f).groups = s.groups.adjust g f := rfl
@[simp] theorem State.modGroup_bins (g : Nat) (f : Group → Group) : (s.modGroup g f).bins = s.bins := rfl
@[simp] theorem State.modGroup_seqs (g : Nat) (f : Group → Group) : (s.modGroup g f).seqs = s.seqs := rfl
@[simp] theorem State.modGroup_opLog (g : Nat) (f : Group → Group) : (s.modGroup g f).opLog = s.opLog := rfl
@[simp] theorem State.modGroup_inflight (g : Nat) (f : Group → Group) : (s.modGroup g f).inflight = s.inflight := rfl
@[simp] theorem State.modGroup_pendStores (g : Nat) (f : Group → Group) : (s.modGroup g f).pendStores = s.pendStores := rfl
@[simp] theorem State.modGroup_drain (g : Nat) (f : Group → Group) : (s.modGroup g f).drain = s.drain := rfl
@[simp] theorem State.modGroup_acps (g : Nat) (f : Group → Group) : (s.modGroup g f).acps = s.acps := rfl
@[simp] theorem State.modGroup_spadBanks (g : Nat) (f : Group → Group) : (s.modGroup g f).spadBanks = s.spadBanks := rfl
@[simp] theorem State.modGroup_spadWakes (g : Nat) (f : Group → Group) : (s.modGroup g f).spadWakes = s.spadWakes := rfl
@[simp] theorem State.modGroup_l1 (g : Nat) (f : Group → Group) : (s.modGroup g f).l1 = s.l1 := rfl
@[simp] theorem State.modGroup_tlb (g : Nat) (f : Group → Group) : (s.modGroup g f).tlb = s.tlb := rfl
@[simp] theorem State.modGroup_icache (g : Nat) (f : Group → Group) : (s.modGroup g f).icache = s.icache := rfl
@[simp] theorem State.modGroup_icinv (g : Nat) (f : Group → Group) : (s.modGroup g f).icinv = s.icinv := rfl
@[simp] theorem State.modGroup_iprefInv (g : Nat) (f : Group → Group) : (s.modGroup g f).iprefInv = s.iprefInv := rfl
@[simp] theorem State.modGroup_xlinv (g : Nat) (f : Group → Group) : (s.modGroup g f).xlinv = s.xlinv := rfl
@[simp] theorem State.modGroup_abortBusy (g : Nat) (f : Group → Group) : (s.modGroup g f).abortBusy = s.abortBusy := rfl
@[simp] theorem State.modGroup_mqueue (g : Nat) (f : Group → Group) : (s.modGroup g f).mqueue = s.mqueue := rfl
@[simp] theorem State.modGroup_schedPos (g : Nat) (f : Group → Group) : (s.modGroup g f).schedPos = s.schedPos := rfl
@[simp] theorem State.modGroup_schedOff (g : Nat) (f : Group → Group) : (s.modGroup g f).schedOff = s.schedOff := rfl
@[simp] theorem State.modGroup_debt (g : Nat) (f : Group → Group) : (s.modGroup g f).debt = s.debt := rfl
@[simp] theorem State.modGroup_mem (g : Nat) (f : Group → Group) : (s.modGroup g f).mem = s.mem := rfl
@[simp] theorem State.modGroup_obDirty (g : Nat) (f : Group → Group) : (s.modGroup g f).obDirty = s.obDirty := rfl
@[simp] theorem State.modGroup_cells (g : Nat) (f : Group → Group) : (s.modGroup g f).cells = s.cells := rfl
@[simp] theorem State.modGroup_ctxs (g : Nat) (f : Group → Group) : (s.modGroup g f).ctxs = s.ctxs := rfl
@[simp] theorem State.modGroup_mintQ (g : Nat) (f : Group → Group) : (s.modGroup g f).mintQ = s.mintQ := rfl
@[simp] theorem State.modGroup_teller (g : Nat) (f : Group → Group) : (s.modGroup g f).teller = s.teller := rfl
@[simp] theorem State.modGroup_sqs (g : Nat) (f : Group → Group) : (s.modGroup g f).sqs = s.sqs := rfl
@[simp] theorem State.modGroup_submits (g : Nat) (f : Group → Group) : (s.modGroup g f).submits = s.submits := rfl
@[simp] theorem State.modGroup_launches (g : Nat) (f : Group → Group) : (s.modGroup g f).launches = s.launches := rfl
@[simp] theorem State.modGroup_counters (g : Nat) (f : Group → Group) : (s.modGroup g f).counters = s.counters := rfl
@[simp] theorem State.modGroup_blocks (g : Nat) (f : Group → Group) : (s.modGroup g f).blocks = s.blocks := rfl
@[simp] theorem State.modGroup_engines (g : Nat) (f : Group → Group) : (s.modGroup g f).engines = s.engines := rfl
@[simp] theorem State.modGroup_cfg (g : Nat) (f : Group → Group) : (s.modGroup g f).cfg = s.cfg := rfl
@[simp] theorem State.modGroup_spend (g : Nat) (f : Group → Group) : (s.modGroup g f).spend = s.spend := rfl
@[simp] theorem State.modGroup_windowAt (g : Nat) (f : Group → Group) : (s.modGroup g f).windowAt = s.windowAt := rfl
@[simp] theorem State.modGroup_dramBudgets (g : Nat) (f : Group → Group) : (s.modGroup g f).dramBudgets = s.dramBudgets := rfl
@[simp] theorem State.modGroup_modeAt (g : Nat) (f : Group → Group) : (s.modGroup g f).modeAt = s.modeAt := rfl
@[simp] theorem State.modGroup_budgets (g : Nat) (f : Group → Group) : (s.modGroup g f).budgets = s.budgets := rfl
@[simp] theorem State.modGroup_pairs (g : Nat) (f : Group → Group) : (s.modGroup g f).pairs = s.pairs := rfl
@[simp] theorem State.modGroup_mismatches (g : Nat) (f : Group → Group) : (s.modGroup g f).mismatches = s.mismatches := rfl
@[simp] theorem State.modGroup_mmSeq (g : Nat) (f : Group → Group) : (s.modGroup g f).mmSeq = s.mmSeq := rfl
@[simp] theorem State.modGroup_assayed (g : Nat) (f : Group → Group) : (s.modGroup g f).assayed = s.assayed := rfl
@[simp] theorem State.modGroup_transient (g : Nat) (f : Group → Group) : (s.modGroup g f).transient = s.transient := rfl
@[simp] theorem State.modGroup_inbox (g : Nat) (f : Group → Group) : (s.modGroup g f).inbox = s.inbox := rfl
@[simp] theorem State.modGroup_sec (g : Nat) (f : Group → Group) : (s.modGroup g f).sec = s.sec := rfl
@[simp] theorem State.modGroup_evr (g : Nat) (f : Group → Group) : (s.modGroup g f).evr = s.evr := rfl
@[simp] theorem State.modGroup_links (g : Nat) (f : Group → Group) : (s.modGroup g f).links = s.links := rfl
@[simp] theorem State.modGroup_rails (g : Nat) (f : Group → Group) : (s.modGroup g f).rails = s.rails := rfl
@[simp] theorem State.modGroup_lowRail (g : Nat) (f : Group → Group) : (s.modGroup g f).lowRail = s.lowRail := rfl
@[simp] theorem State.modGroup_junction (g : Nat) (f : Group → Group) : (s.modGroup g f).junction = s.junction := rfl
@[simp] theorem State.modGroup_demand (g : Nat) (f : Group → Group) : (s.modGroup g f).demand = s.demand := rfl
@[simp] theorem State.modGroup_powerAt (g : Nat) (f : Group → Group) : (s.modGroup g f).powerAt = s.powerAt := rfl
@[simp] theorem State.modGroup_hostReply (g : Nat) (f : Group → Group) : (s.modGroup g f).hostReply = s.hostReply := rfl
@[simp] theorem State.modGroup_hostBusErr (g : Nat) (f : Group → Group) : (s.modGroup g f).hostBusErr = s.hostBusErr := rfl
@[simp] theorem State.modGroup_peerReply (g : Nat) (f : Group → Group) : (s.modGroup g f).peerReply = s.peerReply := rfl

@[simp] theorem State.delGroup_now (g : Nat) : (s.delGroup g).now = s.now := rfl
@[simp] theorem State.delGroup_agenda (g : Nat) : (s.delGroup g).agenda = s.agenda := rfl
@[simp] theorem State.delGroup_cur (g : Nat) : (s.delGroup g).cur = s.cur := rfl
@[simp] theorem State.delGroup_freeCtr (g : Nat) : (s.delGroup g).freeCtr = s.freeCtr := rfl
@[simp] theorem State.delGroup_nextId (g : Nat) : (s.delGroup g).nextId = s.nextId := rfl
@[simp] theorem State.delGroup_rotation (g : Nat) : (s.delGroup g).rotation = s.rotation := rfl
@[simp] theorem State.delGroup_threads (g : Nat) : (s.delGroup g).threads = s.threads := rfl
@[simp] theorem State.delGroup_groups (g : Nat) : (s.delGroup g).groups = s.groups.del g := rfl
@[simp] theorem State.delGroup_bins (g : Nat) : (s.delGroup g).bins = s.bins := rfl
@[simp] theorem State.delGroup_seqs (g : Nat) : (s.delGroup g).seqs = s.seqs := rfl
@[simp] theorem State.delGroup_opLog (g : Nat) : (s.delGroup g).opLog = s.opLog := rfl
@[simp] theorem State.delGroup_inflight (g : Nat) : (s.delGroup g).inflight = s.inflight := rfl
@[simp] theorem State.delGroup_pendStores (g : Nat) : (s.delGroup g).pendStores = s.pendStores := rfl
@[simp] theorem State.delGroup_drain (g : Nat) : (s.delGroup g).drain = s.drain := rfl
@[simp] theorem State.delGroup_acps (g : Nat) : (s.delGroup g).acps = s.acps := rfl
@[simp] theorem State.delGroup_spadBanks (g : Nat) : (s.delGroup g).spadBanks = s.spadBanks := rfl
@[simp] theorem State.delGroup_spadWakes (g : Nat) : (s.delGroup g).spadWakes = s.spadWakes := rfl
@[simp] theorem State.delGroup_l1 (g : Nat) : (s.delGroup g).l1 = s.l1 := rfl
@[simp] theorem State.delGroup_tlb (g : Nat) : (s.delGroup g).tlb = s.tlb := rfl
@[simp] theorem State.delGroup_icache (g : Nat) : (s.delGroup g).icache = s.icache := rfl
@[simp] theorem State.delGroup_icinv (g : Nat) : (s.delGroup g).icinv = s.icinv := rfl
@[simp] theorem State.delGroup_iprefInv (g : Nat) : (s.delGroup g).iprefInv = s.iprefInv := rfl
@[simp] theorem State.delGroup_xlinv (g : Nat) : (s.delGroup g).xlinv = s.xlinv := rfl
@[simp] theorem State.delGroup_abortBusy (g : Nat) : (s.delGroup g).abortBusy = s.abortBusy := rfl
@[simp] theorem State.delGroup_mqueue (g : Nat) : (s.delGroup g).mqueue = s.mqueue := rfl
@[simp] theorem State.delGroup_schedPos (g : Nat) : (s.delGroup g).schedPos = s.schedPos := rfl
@[simp] theorem State.delGroup_schedOff (g : Nat) : (s.delGroup g).schedOff = s.schedOff := rfl
@[simp] theorem State.delGroup_debt (g : Nat) : (s.delGroup g).debt = s.debt := rfl
@[simp] theorem State.delGroup_mem (g : Nat) : (s.delGroup g).mem = s.mem := rfl
@[simp] theorem State.delGroup_obDirty (g : Nat) : (s.delGroup g).obDirty = s.obDirty := rfl
@[simp] theorem State.delGroup_cells (g : Nat) : (s.delGroup g).cells = s.cells := rfl
@[simp] theorem State.delGroup_ctxs (g : Nat) : (s.delGroup g).ctxs = s.ctxs := rfl
@[simp] theorem State.delGroup_mintQ (g : Nat) : (s.delGroup g).mintQ = s.mintQ := rfl
@[simp] theorem State.delGroup_teller (g : Nat) : (s.delGroup g).teller = s.teller := rfl
@[simp] theorem State.delGroup_sqs (g : Nat) : (s.delGroup g).sqs = s.sqs := rfl
@[simp] theorem State.delGroup_submits (g : Nat) : (s.delGroup g).submits = s.submits := rfl
@[simp] theorem State.delGroup_launches (g : Nat) : (s.delGroup g).launches = s.launches := rfl
@[simp] theorem State.delGroup_counters (g : Nat) : (s.delGroup g).counters = s.counters := rfl
@[simp] theorem State.delGroup_blocks (g : Nat) : (s.delGroup g).blocks = s.blocks := rfl
@[simp] theorem State.delGroup_engines (g : Nat) : (s.delGroup g).engines = s.engines := rfl
@[simp] theorem State.delGroup_cfg (g : Nat) : (s.delGroup g).cfg = s.cfg := rfl
@[simp] theorem State.delGroup_spend (g : Nat) : (s.delGroup g).spend = s.spend := rfl
@[simp] theorem State.delGroup_windowAt (g : Nat) : (s.delGroup g).windowAt = s.windowAt := rfl
@[simp] theorem State.delGroup_dramBudgets (g : Nat) : (s.delGroup g).dramBudgets = s.dramBudgets := rfl
@[simp] theorem State.delGroup_modeAt (g : Nat) : (s.delGroup g).modeAt = s.modeAt := rfl
@[simp] theorem State.delGroup_budgets (g : Nat) : (s.delGroup g).budgets = s.budgets := rfl
@[simp] theorem State.delGroup_pairs (g : Nat) : (s.delGroup g).pairs = s.pairs := rfl
@[simp] theorem State.delGroup_mismatches (g : Nat) : (s.delGroup g).mismatches = s.mismatches := rfl
@[simp] theorem State.delGroup_mmSeq (g : Nat) : (s.delGroup g).mmSeq = s.mmSeq := rfl
@[simp] theorem State.delGroup_assayed (g : Nat) : (s.delGroup g).assayed = s.assayed := rfl
@[simp] theorem State.delGroup_transient (g : Nat) : (s.delGroup g).transient = s.transient := rfl
@[simp] theorem State.delGroup_inbox (g : Nat) : (s.delGroup g).inbox = s.inbox := rfl
@[simp] theorem State.delGroup_sec (g : Nat) : (s.delGroup g).sec = s.sec := rfl
@[simp] theorem State.delGroup_evr (g : Nat) : (s.delGroup g).evr = s.evr := rfl
@[simp] theorem State.delGroup_links (g : Nat) : (s.delGroup g).links = s.links := rfl
@[simp] theorem State.delGroup_rails (g : Nat) : (s.delGroup g).rails = s.rails := rfl
@[simp] theorem State.delGroup_lowRail (g : Nat) : (s.delGroup g).lowRail = s.lowRail := rfl
@[simp] theorem State.delGroup_junction (g : Nat) : (s.delGroup g).junction = s.junction := rfl
@[simp] theorem State.delGroup_demand (g : Nat) : (s.delGroup g).demand = s.demand := rfl
@[simp] theorem State.delGroup_powerAt (g : Nat) : (s.delGroup g).powerAt = s.powerAt := rfl
@[simp] theorem State.delGroup_hostReply (g : Nat) : (s.delGroup g).hostReply = s.hostReply := rfl
@[simp] theorem State.delGroup_hostBusErr (g : Nat) : (s.delGroup g).hostBusErr = s.hostBusErr := rfl
@[simp] theorem State.delGroup_peerReply (g : Nat) : (s.delGroup g).peerReply = s.peerReply := rfl

@[simp] theorem State.modBlock_now (b : Nat) (f : Block → Block) : (s.modBlock b f).now = s.now := rfl
@[simp] theorem State.modBlock_agenda (b : Nat) (f : Block → Block) : (s.modBlock b f).agenda = s.agenda := rfl
@[simp] theorem State.modBlock_cur (b : Nat) (f : Block → Block) : (s.modBlock b f).cur = s.cur := rfl
@[simp] theorem State.modBlock_freeCtr (b : Nat) (f : Block → Block) : (s.modBlock b f).freeCtr = s.freeCtr := rfl
@[simp] theorem State.modBlock_nextId (b : Nat) (f : Block → Block) : (s.modBlock b f).nextId = s.nextId := rfl
@[simp] theorem State.modBlock_rotation (b : Nat) (f : Block → Block) : (s.modBlock b f).rotation = s.rotation := rfl
@[simp] theorem State.modBlock_threads (b : Nat) (f : Block → Block) : (s.modBlock b f).threads = s.threads := rfl
@[simp] theorem State.modBlock_groups (b : Nat) (f : Block → Block) : (s.modBlock b f).groups = s.groups := rfl
@[simp] theorem State.modBlock_bins (b : Nat) (f : Block → Block) : (s.modBlock b f).bins = s.bins := rfl
@[simp] theorem State.modBlock_seqs (b : Nat) (f : Block → Block) : (s.modBlock b f).seqs = s.seqs := rfl
@[simp] theorem State.modBlock_opLog (b : Nat) (f : Block → Block) : (s.modBlock b f).opLog = s.opLog := rfl
@[simp] theorem State.modBlock_inflight (b : Nat) (f : Block → Block) : (s.modBlock b f).inflight = s.inflight := rfl
@[simp] theorem State.modBlock_pendStores (b : Nat) (f : Block → Block) : (s.modBlock b f).pendStores = s.pendStores := rfl
@[simp] theorem State.modBlock_drain (b : Nat) (f : Block → Block) : (s.modBlock b f).drain = s.drain := rfl
@[simp] theorem State.modBlock_acps (b : Nat) (f : Block → Block) : (s.modBlock b f).acps = s.acps := rfl
@[simp] theorem State.modBlock_spadBanks (b : Nat) (f : Block → Block) : (s.modBlock b f).spadBanks = s.spadBanks := rfl
@[simp] theorem State.modBlock_spadWakes (b : Nat) (f : Block → Block) : (s.modBlock b f).spadWakes = s.spadWakes := rfl
@[simp] theorem State.modBlock_l1 (b : Nat) (f : Block → Block) : (s.modBlock b f).l1 = s.l1 := rfl
@[simp] theorem State.modBlock_tlb (b : Nat) (f : Block → Block) : (s.modBlock b f).tlb = s.tlb := rfl
@[simp] theorem State.modBlock_icache (b : Nat) (f : Block → Block) : (s.modBlock b f).icache = s.icache := rfl
@[simp] theorem State.modBlock_icinv (b : Nat) (f : Block → Block) : (s.modBlock b f).icinv = s.icinv := rfl
@[simp] theorem State.modBlock_iprefInv (b : Nat) (f : Block → Block) : (s.modBlock b f).iprefInv = s.iprefInv := rfl
@[simp] theorem State.modBlock_xlinv (b : Nat) (f : Block → Block) : (s.modBlock b f).xlinv = s.xlinv := rfl
@[simp] theorem State.modBlock_abortBusy (b : Nat) (f : Block → Block) : (s.modBlock b f).abortBusy = s.abortBusy := rfl
@[simp] theorem State.modBlock_mqueue (b : Nat) (f : Block → Block) : (s.modBlock b f).mqueue = s.mqueue := rfl
@[simp] theorem State.modBlock_schedPos (b : Nat) (f : Block → Block) : (s.modBlock b f).schedPos = s.schedPos := rfl
@[simp] theorem State.modBlock_schedOff (b : Nat) (f : Block → Block) : (s.modBlock b f).schedOff = s.schedOff := rfl
@[simp] theorem State.modBlock_debt (b : Nat) (f : Block → Block) : (s.modBlock b f).debt = s.debt := rfl
@[simp] theorem State.modBlock_mem (b : Nat) (f : Block → Block) : (s.modBlock b f).mem = s.mem := rfl
@[simp] theorem State.modBlock_obDirty (b : Nat) (f : Block → Block) : (s.modBlock b f).obDirty = s.obDirty := rfl
@[simp] theorem State.modBlock_cells (b : Nat) (f : Block → Block) : (s.modBlock b f).cells = s.cells := rfl
@[simp] theorem State.modBlock_ctxs (b : Nat) (f : Block → Block) : (s.modBlock b f).ctxs = s.ctxs := rfl
@[simp] theorem State.modBlock_mintQ (b : Nat) (f : Block → Block) : (s.modBlock b f).mintQ = s.mintQ := rfl
@[simp] theorem State.modBlock_teller (b : Nat) (f : Block → Block) : (s.modBlock b f).teller = s.teller := rfl
@[simp] theorem State.modBlock_sqs (b : Nat) (f : Block → Block) : (s.modBlock b f).sqs = s.sqs := rfl
@[simp] theorem State.modBlock_submits (b : Nat) (f : Block → Block) : (s.modBlock b f).submits = s.submits := rfl
@[simp] theorem State.modBlock_launches (b : Nat) (f : Block → Block) : (s.modBlock b f).launches = s.launches := rfl
@[simp] theorem State.modBlock_counters (b : Nat) (f : Block → Block) : (s.modBlock b f).counters = s.counters := rfl
@[simp] theorem State.modBlock_blocks (b : Nat) (f : Block → Block) : (s.modBlock b f).blocks = s.blocks.adjust b f := rfl
@[simp] theorem State.modBlock_engines (b : Nat) (f : Block → Block) : (s.modBlock b f).engines = s.engines := rfl
@[simp] theorem State.modBlock_cfg (b : Nat) (f : Block → Block) : (s.modBlock b f).cfg = s.cfg := rfl
@[simp] theorem State.modBlock_spend (b : Nat) (f : Block → Block) : (s.modBlock b f).spend = s.spend := rfl
@[simp] theorem State.modBlock_windowAt (b : Nat) (f : Block → Block) : (s.modBlock b f).windowAt = s.windowAt := rfl
@[simp] theorem State.modBlock_dramBudgets (b : Nat) (f : Block → Block) : (s.modBlock b f).dramBudgets = s.dramBudgets := rfl
@[simp] theorem State.modBlock_modeAt (b : Nat) (f : Block → Block) : (s.modBlock b f).modeAt = s.modeAt := rfl
@[simp] theorem State.modBlock_budgets (b : Nat) (f : Block → Block) : (s.modBlock b f).budgets = s.budgets := rfl
@[simp] theorem State.modBlock_pairs (b : Nat) (f : Block → Block) : (s.modBlock b f).pairs = s.pairs := rfl
@[simp] theorem State.modBlock_mismatches (b : Nat) (f : Block → Block) : (s.modBlock b f).mismatches = s.mismatches := rfl
@[simp] theorem State.modBlock_mmSeq (b : Nat) (f : Block → Block) : (s.modBlock b f).mmSeq = s.mmSeq := rfl
@[simp] theorem State.modBlock_assayed (b : Nat) (f : Block → Block) : (s.modBlock b f).assayed = s.assayed := rfl
@[simp] theorem State.modBlock_transient (b : Nat) (f : Block → Block) : (s.modBlock b f).transient = s.transient := rfl
@[simp] theorem State.modBlock_inbox (b : Nat) (f : Block → Block) : (s.modBlock b f).inbox = s.inbox := rfl
@[simp] theorem State.modBlock_sec (b : Nat) (f : Block → Block) : (s.modBlock b f).sec = s.sec := rfl
@[simp] theorem State.modBlock_evr (b : Nat) (f : Block → Block) : (s.modBlock b f).evr = s.evr := rfl
@[simp] theorem State.modBlock_links (b : Nat) (f : Block → Block) : (s.modBlock b f).links = s.links := rfl
@[simp] theorem State.modBlock_rails (b : Nat) (f : Block → Block) : (s.modBlock b f).rails = s.rails := rfl
@[simp] theorem State.modBlock_lowRail (b : Nat) (f : Block → Block) : (s.modBlock b f).lowRail = s.lowRail := rfl
@[simp] theorem State.modBlock_junction (b : Nat) (f : Block → Block) : (s.modBlock b f).junction = s.junction := rfl
@[simp] theorem State.modBlock_demand (b : Nat) (f : Block → Block) : (s.modBlock b f).demand = s.demand := rfl
@[simp] theorem State.modBlock_powerAt (b : Nat) (f : Block → Block) : (s.modBlock b f).powerAt = s.powerAt := rfl
@[simp] theorem State.modBlock_hostReply (b : Nat) (f : Block → Block) : (s.modBlock b f).hostReply = s.hostReply := rfl
@[simp] theorem State.modBlock_hostBusErr (b : Nat) (f : Block → Block) : (s.modBlock b f).hostBusErr = s.hostBusErr := rfl
@[simp] theorem State.modBlock_peerReply (b : Nat) (f : Block → Block) : (s.modBlock b f).peerReply = s.peerReply := rfl

@[simp] theorem State.modLaunch_now (l : Nat) (f : Launch → Launch) : (s.modLaunch l f).now = s.now := rfl
@[simp] theorem State.modLaunch_agenda (l : Nat) (f : Launch → Launch) : (s.modLaunch l f).agenda = s.agenda := rfl
@[simp] theorem State.modLaunch_cur (l : Nat) (f : Launch → Launch) : (s.modLaunch l f).cur = s.cur := rfl
@[simp] theorem State.modLaunch_freeCtr (l : Nat) (f : Launch → Launch) : (s.modLaunch l f).freeCtr = s.freeCtr := rfl
@[simp] theorem State.modLaunch_nextId (l : Nat) (f : Launch → Launch) : (s.modLaunch l f).nextId = s.nextId := rfl
@[simp] theorem State.modLaunch_rotation (l : Nat) (f : Launch → Launch) : (s.modLaunch l f).rotation = s.rotation := rfl
@[simp] theorem State.modLaunch_threads (l : Nat) (f : Launch → Launch) : (s.modLaunch l f).threads = s.threads := rfl
@[simp] theorem State.modLaunch_groups (l : Nat) (f : Launch → Launch) : (s.modLaunch l f).groups = s.groups := rfl
@[simp] theorem State.modLaunch_bins (l : Nat) (f : Launch → Launch) : (s.modLaunch l f).bins = s.bins := rfl
@[simp] theorem State.modLaunch_seqs (l : Nat) (f : Launch → Launch) : (s.modLaunch l f).seqs = s.seqs := rfl
@[simp] theorem State.modLaunch_opLog (l : Nat) (f : Launch → Launch) : (s.modLaunch l f).opLog = s.opLog := rfl
@[simp] theorem State.modLaunch_inflight (l : Nat) (f : Launch → Launch) : (s.modLaunch l f).inflight = s.inflight := rfl
@[simp] theorem State.modLaunch_pendStores (l : Nat) (f : Launch → Launch) : (s.modLaunch l f).pendStores = s.pendStores := rfl
@[simp] theorem State.modLaunch_drain (l : Nat) (f : Launch → Launch) : (s.modLaunch l f).drain = s.drain := rfl
@[simp] theorem State.modLaunch_acps (l : Nat) (f : Launch → Launch) : (s.modLaunch l f).acps = s.acps := rfl
@[simp] theorem State.modLaunch_spadBanks (l : Nat) (f : Launch → Launch) : (s.modLaunch l f).spadBanks = s.spadBanks := rfl
@[simp] theorem State.modLaunch_spadWakes (l : Nat) (f : Launch → Launch) : (s.modLaunch l f).spadWakes = s.spadWakes := rfl
@[simp] theorem State.modLaunch_l1 (l : Nat) (f : Launch → Launch) : (s.modLaunch l f).l1 = s.l1 := rfl
@[simp] theorem State.modLaunch_tlb (l : Nat) (f : Launch → Launch) : (s.modLaunch l f).tlb = s.tlb := rfl
@[simp] theorem State.modLaunch_icache (l : Nat) (f : Launch → Launch) : (s.modLaunch l f).icache = s.icache := rfl
@[simp] theorem State.modLaunch_icinv (l : Nat) (f : Launch → Launch) : (s.modLaunch l f).icinv = s.icinv := rfl
@[simp] theorem State.modLaunch_iprefInv (l : Nat) (f : Launch → Launch) : (s.modLaunch l f).iprefInv = s.iprefInv := rfl
@[simp] theorem State.modLaunch_xlinv (l : Nat) (f : Launch → Launch) : (s.modLaunch l f).xlinv = s.xlinv := rfl
@[simp] theorem State.modLaunch_abortBusy (l : Nat) (f : Launch → Launch) : (s.modLaunch l f).abortBusy = s.abortBusy := rfl
@[simp] theorem State.modLaunch_mqueue (l : Nat) (f : Launch → Launch) : (s.modLaunch l f).mqueue = s.mqueue := rfl
@[simp] theorem State.modLaunch_schedPos (l : Nat) (f : Launch → Launch) : (s.modLaunch l f).schedPos = s.schedPos := rfl
@[simp] theorem State.modLaunch_schedOff (l : Nat) (f : Launch → Launch) : (s.modLaunch l f).schedOff = s.schedOff := rfl
@[simp] theorem State.modLaunch_debt (l : Nat) (f : Launch → Launch) : (s.modLaunch l f).debt = s.debt := rfl
@[simp] theorem State.modLaunch_mem (l : Nat) (f : Launch → Launch) : (s.modLaunch l f).mem = s.mem := rfl
@[simp] theorem State.modLaunch_obDirty (l : Nat) (f : Launch → Launch) : (s.modLaunch l f).obDirty = s.obDirty := rfl
@[simp] theorem State.modLaunch_cells (l : Nat) (f : Launch → Launch) : (s.modLaunch l f).cells = s.cells := rfl
@[simp] theorem State.modLaunch_ctxs (l : Nat) (f : Launch → Launch) : (s.modLaunch l f).ctxs = s.ctxs := rfl
@[simp] theorem State.modLaunch_mintQ (l : Nat) (f : Launch → Launch) : (s.modLaunch l f).mintQ = s.mintQ := rfl
@[simp] theorem State.modLaunch_teller (l : Nat) (f : Launch → Launch) : (s.modLaunch l f).teller = s.teller := rfl
@[simp] theorem State.modLaunch_sqs (l : Nat) (f : Launch → Launch) : (s.modLaunch l f).sqs = s.sqs := rfl
@[simp] theorem State.modLaunch_submits (l : Nat) (f : Launch → Launch) : (s.modLaunch l f).submits = s.submits := rfl
@[simp] theorem State.modLaunch_launches (l : Nat) (f : Launch → Launch) : (s.modLaunch l f).launches = s.launches.adjust l f := rfl
@[simp] theorem State.modLaunch_counters (l : Nat) (f : Launch → Launch) : (s.modLaunch l f).counters = s.counters := rfl
@[simp] theorem State.modLaunch_blocks (l : Nat) (f : Launch → Launch) : (s.modLaunch l f).blocks = s.blocks := rfl
@[simp] theorem State.modLaunch_engines (l : Nat) (f : Launch → Launch) : (s.modLaunch l f).engines = s.engines := rfl
@[simp] theorem State.modLaunch_cfg (l : Nat) (f : Launch → Launch) : (s.modLaunch l f).cfg = s.cfg := rfl
@[simp] theorem State.modLaunch_spend (l : Nat) (f : Launch → Launch) : (s.modLaunch l f).spend = s.spend := rfl
@[simp] theorem State.modLaunch_windowAt (l : Nat) (f : Launch → Launch) : (s.modLaunch l f).windowAt = s.windowAt := rfl
@[simp] theorem State.modLaunch_dramBudgets (l : Nat) (f : Launch → Launch) : (s.modLaunch l f).dramBudgets = s.dramBudgets := rfl
@[simp] theorem State.modLaunch_modeAt (l : Nat) (f : Launch → Launch) : (s.modLaunch l f).modeAt = s.modeAt := rfl
@[simp] theorem State.modLaunch_budgets (l : Nat) (f : Launch → Launch) : (s.modLaunch l f).budgets = s.budgets := rfl
@[simp] theorem State.modLaunch_pairs (l : Nat) (f : Launch → Launch) : (s.modLaunch l f).pairs = s.pairs := rfl
@[simp] theorem State.modLaunch_mismatches (l : Nat) (f : Launch → Launch) : (s.modLaunch l f).mismatches = s.mismatches := rfl
@[simp] theorem State.modLaunch_mmSeq (l : Nat) (f : Launch → Launch) : (s.modLaunch l f).mmSeq = s.mmSeq := rfl
@[simp] theorem State.modLaunch_assayed (l : Nat) (f : Launch → Launch) : (s.modLaunch l f).assayed = s.assayed := rfl
@[simp] theorem State.modLaunch_transient (l : Nat) (f : Launch → Launch) : (s.modLaunch l f).transient = s.transient := rfl
@[simp] theorem State.modLaunch_inbox (l : Nat) (f : Launch → Launch) : (s.modLaunch l f).inbox = s.inbox := rfl
@[simp] theorem State.modLaunch_sec (l : Nat) (f : Launch → Launch) : (s.modLaunch l f).sec = s.sec := rfl
@[simp] theorem State.modLaunch_evr (l : Nat) (f : Launch → Launch) : (s.modLaunch l f).evr = s.evr := rfl
@[simp] theorem State.modLaunch_links (l : Nat) (f : Launch → Launch) : (s.modLaunch l f).links = s.links := rfl
@[simp] theorem State.modLaunch_rails (l : Nat) (f : Launch → Launch) : (s.modLaunch l f).rails = s.rails := rfl
@[simp] theorem State.modLaunch_lowRail (l : Nat) (f : Launch → Launch) : (s.modLaunch l f).lowRail = s.lowRail := rfl
@[simp] theorem State.modLaunch_junction (l : Nat) (f : Launch → Launch) : (s.modLaunch l f).junction = s.junction := rfl
@[simp] theorem State.modLaunch_demand (l : Nat) (f : Launch → Launch) : (s.modLaunch l f).demand = s.demand := rfl
@[simp] theorem State.modLaunch_powerAt (l : Nat) (f : Launch → Launch) : (s.modLaunch l f).powerAt = s.powerAt := rfl
@[simp] theorem State.modLaunch_hostReply (l : Nat) (f : Launch → Launch) : (s.modLaunch l f).hostReply = s.hostReply := rfl
@[simp] theorem State.modLaunch_hostBusErr (l : Nat) (f : Launch → Launch) : (s.modLaunch l f).hostBusErr = s.hostBusErr := rfl
@[simp] theorem State.modLaunch_peerReply (l : Nat) (f : Launch → Launch) : (s.modLaunch l f).peerReply = s.peerReply := rfl

@[simp] theorem State.modSeqr_now (q : Nat) (f : Seqr → Seqr) : (s.modSeqr q f).now = s.now := rfl
@[simp] theorem State.modSeqr_agenda (q : Nat) (f : Seqr → Seqr) : (s.modSeqr q f).agenda = s.agenda := rfl
@[simp] theorem State.modSeqr_cur (q : Nat) (f : Seqr → Seqr) : (s.modSeqr q f).cur = s.cur := rfl
@[simp] theorem State.modSeqr_freeCtr (q : Nat) (f : Seqr → Seqr) : (s.modSeqr q f).freeCtr = s.freeCtr := rfl
@[simp] theorem State.modSeqr_nextId (q : Nat) (f : Seqr → Seqr) : (s.modSeqr q f).nextId = s.nextId := rfl
@[simp] theorem State.modSeqr_rotation (q : Nat) (f : Seqr → Seqr) : (s.modSeqr q f).rotation = s.rotation := rfl
@[simp] theorem State.modSeqr_threads (q : Nat) (f : Seqr → Seqr) : (s.modSeqr q f).threads = s.threads := rfl
@[simp] theorem State.modSeqr_groups (q : Nat) (f : Seqr → Seqr) : (s.modSeqr q f).groups = s.groups := rfl
@[simp] theorem State.modSeqr_bins (q : Nat) (f : Seqr → Seqr) : (s.modSeqr q f).bins = s.bins := rfl
@[simp] theorem State.modSeqr_seqs (q : Nat) (f : Seqr → Seqr) : (s.modSeqr q f).seqs = s.seqs.put q (f (s.seqr q)) := rfl
@[simp] theorem State.modSeqr_opLog (q : Nat) (f : Seqr → Seqr) : (s.modSeqr q f).opLog = s.opLog := rfl
@[simp] theorem State.modSeqr_inflight (q : Nat) (f : Seqr → Seqr) : (s.modSeqr q f).inflight = s.inflight := rfl
@[simp] theorem State.modSeqr_pendStores (q : Nat) (f : Seqr → Seqr) : (s.modSeqr q f).pendStores = s.pendStores := rfl
@[simp] theorem State.modSeqr_drain (q : Nat) (f : Seqr → Seqr) : (s.modSeqr q f).drain = s.drain := rfl
@[simp] theorem State.modSeqr_acps (q : Nat) (f : Seqr → Seqr) : (s.modSeqr q f).acps = s.acps := rfl
@[simp] theorem State.modSeqr_spadBanks (q : Nat) (f : Seqr → Seqr) : (s.modSeqr q f).spadBanks = s.spadBanks := rfl
@[simp] theorem State.modSeqr_spadWakes (q : Nat) (f : Seqr → Seqr) : (s.modSeqr q f).spadWakes = s.spadWakes := rfl
@[simp] theorem State.modSeqr_l1 (q : Nat) (f : Seqr → Seqr) : (s.modSeqr q f).l1 = s.l1 := rfl
@[simp] theorem State.modSeqr_tlb (q : Nat) (f : Seqr → Seqr) : (s.modSeqr q f).tlb = s.tlb := rfl
@[simp] theorem State.modSeqr_icache (q : Nat) (f : Seqr → Seqr) : (s.modSeqr q f).icache = s.icache := rfl
@[simp] theorem State.modSeqr_icinv (q : Nat) (f : Seqr → Seqr) : (s.modSeqr q f).icinv = s.icinv := rfl
@[simp] theorem State.modSeqr_iprefInv (q : Nat) (f : Seqr → Seqr) : (s.modSeqr q f).iprefInv = s.iprefInv := rfl
@[simp] theorem State.modSeqr_xlinv (q : Nat) (f : Seqr → Seqr) : (s.modSeqr q f).xlinv = s.xlinv := rfl
@[simp] theorem State.modSeqr_abortBusy (q : Nat) (f : Seqr → Seqr) : (s.modSeqr q f).abortBusy = s.abortBusy := rfl
@[simp] theorem State.modSeqr_mqueue (q : Nat) (f : Seqr → Seqr) : (s.modSeqr q f).mqueue = s.mqueue := rfl
@[simp] theorem State.modSeqr_schedPos (q : Nat) (f : Seqr → Seqr) : (s.modSeqr q f).schedPos = s.schedPos := rfl
@[simp] theorem State.modSeqr_schedOff (q : Nat) (f : Seqr → Seqr) : (s.modSeqr q f).schedOff = s.schedOff := rfl
@[simp] theorem State.modSeqr_debt (q : Nat) (f : Seqr → Seqr) : (s.modSeqr q f).debt = s.debt := rfl
@[simp] theorem State.modSeqr_mem (q : Nat) (f : Seqr → Seqr) : (s.modSeqr q f).mem = s.mem := rfl
@[simp] theorem State.modSeqr_obDirty (q : Nat) (f : Seqr → Seqr) : (s.modSeqr q f).obDirty = s.obDirty := rfl
@[simp] theorem State.modSeqr_cells (q : Nat) (f : Seqr → Seqr) : (s.modSeqr q f).cells = s.cells := rfl
@[simp] theorem State.modSeqr_ctxs (q : Nat) (f : Seqr → Seqr) : (s.modSeqr q f).ctxs = s.ctxs := rfl
@[simp] theorem State.modSeqr_mintQ (q : Nat) (f : Seqr → Seqr) : (s.modSeqr q f).mintQ = s.mintQ := rfl
@[simp] theorem State.modSeqr_teller (q : Nat) (f : Seqr → Seqr) : (s.modSeqr q f).teller = s.teller := rfl
@[simp] theorem State.modSeqr_sqs (q : Nat) (f : Seqr → Seqr) : (s.modSeqr q f).sqs = s.sqs := rfl
@[simp] theorem State.modSeqr_submits (q : Nat) (f : Seqr → Seqr) : (s.modSeqr q f).submits = s.submits := rfl
@[simp] theorem State.modSeqr_launches (q : Nat) (f : Seqr → Seqr) : (s.modSeqr q f).launches = s.launches := rfl
@[simp] theorem State.modSeqr_counters (q : Nat) (f : Seqr → Seqr) : (s.modSeqr q f).counters = s.counters := rfl
@[simp] theorem State.modSeqr_blocks (q : Nat) (f : Seqr → Seqr) : (s.modSeqr q f).blocks = s.blocks := rfl
@[simp] theorem State.modSeqr_engines (q : Nat) (f : Seqr → Seqr) : (s.modSeqr q f).engines = s.engines := rfl
@[simp] theorem State.modSeqr_cfg (q : Nat) (f : Seqr → Seqr) : (s.modSeqr q f).cfg = s.cfg := rfl
@[simp] theorem State.modSeqr_spend (q : Nat) (f : Seqr → Seqr) : (s.modSeqr q f).spend = s.spend := rfl
@[simp] theorem State.modSeqr_windowAt (q : Nat) (f : Seqr → Seqr) : (s.modSeqr q f).windowAt = s.windowAt := rfl
@[simp] theorem State.modSeqr_dramBudgets (q : Nat) (f : Seqr → Seqr) : (s.modSeqr q f).dramBudgets = s.dramBudgets := rfl
@[simp] theorem State.modSeqr_modeAt (q : Nat) (f : Seqr → Seqr) : (s.modSeqr q f).modeAt = s.modeAt := rfl
@[simp] theorem State.modSeqr_budgets (q : Nat) (f : Seqr → Seqr) : (s.modSeqr q f).budgets = s.budgets := rfl
@[simp] theorem State.modSeqr_pairs (q : Nat) (f : Seqr → Seqr) : (s.modSeqr q f).pairs = s.pairs := rfl
@[simp] theorem State.modSeqr_mismatches (q : Nat) (f : Seqr → Seqr) : (s.modSeqr q f).mismatches = s.mismatches := rfl
@[simp] theorem State.modSeqr_mmSeq (q : Nat) (f : Seqr → Seqr) : (s.modSeqr q f).mmSeq = s.mmSeq := rfl
@[simp] theorem State.modSeqr_assayed (q : Nat) (f : Seqr → Seqr) : (s.modSeqr q f).assayed = s.assayed := rfl
@[simp] theorem State.modSeqr_transient (q : Nat) (f : Seqr → Seqr) : (s.modSeqr q f).transient = s.transient := rfl
@[simp] theorem State.modSeqr_inbox (q : Nat) (f : Seqr → Seqr) : (s.modSeqr q f).inbox = s.inbox := rfl
@[simp] theorem State.modSeqr_sec (q : Nat) (f : Seqr → Seqr) : (s.modSeqr q f).sec = s.sec := rfl
@[simp] theorem State.modSeqr_evr (q : Nat) (f : Seqr → Seqr) : (s.modSeqr q f).evr = s.evr := rfl
@[simp] theorem State.modSeqr_links (q : Nat) (f : Seqr → Seqr) : (s.modSeqr q f).links = s.links := rfl
@[simp] theorem State.modSeqr_rails (q : Nat) (f : Seqr → Seqr) : (s.modSeqr q f).rails = s.rails := rfl
@[simp] theorem State.modSeqr_lowRail (q : Nat) (f : Seqr → Seqr) : (s.modSeqr q f).lowRail = s.lowRail := rfl
@[simp] theorem State.modSeqr_junction (q : Nat) (f : Seqr → Seqr) : (s.modSeqr q f).junction = s.junction := rfl
@[simp] theorem State.modSeqr_demand (q : Nat) (f : Seqr → Seqr) : (s.modSeqr q f).demand = s.demand := rfl
@[simp] theorem State.modSeqr_powerAt (q : Nat) (f : Seqr → Seqr) : (s.modSeqr q f).powerAt = s.powerAt := rfl
@[simp] theorem State.modSeqr_hostReply (q : Nat) (f : Seqr → Seqr) : (s.modSeqr q f).hostReply = s.hostReply := rfl
@[simp] theorem State.modSeqr_hostBusErr (q : Nat) (f : Seqr → Seqr) : (s.modSeqr q f).hostBusErr = s.hostBusErr := rfl
@[simp] theorem State.modSeqr_peerReply (q : Nat) (f : Seqr → Seqr) : (s.modSeqr q f).peerReply = s.peerReply := rfl

@[simp] theorem State.fresh_now : (s.fresh).now = s.now := rfl
@[simp] theorem State.fresh_agenda : (s.fresh).agenda = s.agenda := rfl
@[simp] theorem State.fresh_cur : (s.fresh).cur = s.cur := rfl
@[simp] theorem State.fresh_freeCtr : (s.fresh).freeCtr = s.freeCtr := rfl
@[simp] theorem State.fresh_nextId : (s.fresh).nextId = s.nextId + 1 := rfl
@[simp] theorem State.fresh_rotation : (s.fresh).rotation = s.rotation := rfl
@[simp] theorem State.fresh_threads : (s.fresh).threads = s.threads := rfl
@[simp] theorem State.fresh_groups : (s.fresh).groups = s.groups := rfl
@[simp] theorem State.fresh_bins : (s.fresh).bins = s.bins := rfl
@[simp] theorem State.fresh_seqs : (s.fresh).seqs = s.seqs := rfl
@[simp] theorem State.fresh_opLog : (s.fresh).opLog = s.opLog := rfl
@[simp] theorem State.fresh_inflight : (s.fresh).inflight = s.inflight := rfl
@[simp] theorem State.fresh_pendStores : (s.fresh).pendStores = s.pendStores := rfl
@[simp] theorem State.fresh_drain : (s.fresh).drain = s.drain := rfl
@[simp] theorem State.fresh_acps : (s.fresh).acps = s.acps := rfl
@[simp] theorem State.fresh_spadBanks : (s.fresh).spadBanks = s.spadBanks := rfl
@[simp] theorem State.fresh_spadWakes : (s.fresh).spadWakes = s.spadWakes := rfl
@[simp] theorem State.fresh_l1 : (s.fresh).l1 = s.l1 := rfl
@[simp] theorem State.fresh_tlb : (s.fresh).tlb = s.tlb := rfl
@[simp] theorem State.fresh_icache : (s.fresh).icache = s.icache := rfl
@[simp] theorem State.fresh_icinv : (s.fresh).icinv = s.icinv := rfl
@[simp] theorem State.fresh_iprefInv : (s.fresh).iprefInv = s.iprefInv := rfl
@[simp] theorem State.fresh_xlinv : (s.fresh).xlinv = s.xlinv := rfl
@[simp] theorem State.fresh_abortBusy : (s.fresh).abortBusy = s.abortBusy := rfl
@[simp] theorem State.fresh_mqueue : (s.fresh).mqueue = s.mqueue := rfl
@[simp] theorem State.fresh_schedPos : (s.fresh).schedPos = s.schedPos := rfl
@[simp] theorem State.fresh_schedOff : (s.fresh).schedOff = s.schedOff := rfl
@[simp] theorem State.fresh_debt : (s.fresh).debt = s.debt := rfl
@[simp] theorem State.fresh_mem : (s.fresh).mem = s.mem := rfl
@[simp] theorem State.fresh_obDirty : (s.fresh).obDirty = s.obDirty := rfl
@[simp] theorem State.fresh_cells : (s.fresh).cells = s.cells := rfl
@[simp] theorem State.fresh_ctxs : (s.fresh).ctxs = s.ctxs := rfl
@[simp] theorem State.fresh_mintQ : (s.fresh).mintQ = s.mintQ := rfl
@[simp] theorem State.fresh_teller : (s.fresh).teller = s.teller := rfl
@[simp] theorem State.fresh_sqs : (s.fresh).sqs = s.sqs := rfl
@[simp] theorem State.fresh_submits : (s.fresh).submits = s.submits := rfl
@[simp] theorem State.fresh_launches : (s.fresh).launches = s.launches := rfl
@[simp] theorem State.fresh_counters : (s.fresh).counters = s.counters := rfl
@[simp] theorem State.fresh_blocks : (s.fresh).blocks = s.blocks := rfl
@[simp] theorem State.fresh_engines : (s.fresh).engines = s.engines := rfl
@[simp] theorem State.fresh_cfg : (s.fresh).cfg = s.cfg := rfl
@[simp] theorem State.fresh_spend : (s.fresh).spend = s.spend := rfl
@[simp] theorem State.fresh_windowAt : (s.fresh).windowAt = s.windowAt := rfl
@[simp] theorem State.fresh_dramBudgets : (s.fresh).dramBudgets = s.dramBudgets := rfl
@[simp] theorem State.fresh_modeAt : (s.fresh).modeAt = s.modeAt := rfl
@[simp] theorem State.fresh_budgets : (s.fresh).budgets = s.budgets := rfl
@[simp] theorem State.fresh_pairs : (s.fresh).pairs = s.pairs := rfl
@[simp] theorem State.fresh_mismatches : (s.fresh).mismatches = s.mismatches := rfl
@[simp] theorem State.fresh_mmSeq : (s.fresh).mmSeq = s.mmSeq := rfl
@[simp] theorem State.fresh_assayed : (s.fresh).assayed = s.assayed := rfl
@[simp] theorem State.fresh_transient : (s.fresh).transient = s.transient := rfl
@[simp] theorem State.fresh_inbox : (s.fresh).inbox = s.inbox := rfl
@[simp] theorem State.fresh_sec : (s.fresh).sec = s.sec := rfl
@[simp] theorem State.fresh_evr : (s.fresh).evr = s.evr := rfl
@[simp] theorem State.fresh_links : (s.fresh).links = s.links := rfl
@[simp] theorem State.fresh_rails : (s.fresh).rails = s.rails := rfl
@[simp] theorem State.fresh_lowRail : (s.fresh).lowRail = s.lowRail := rfl
@[simp] theorem State.fresh_junction : (s.fresh).junction = s.junction := rfl
@[simp] theorem State.fresh_demand : (s.fresh).demand = s.demand := rfl
@[simp] theorem State.fresh_powerAt : (s.fresh).powerAt = s.powerAt := rfl
@[simp] theorem State.fresh_hostReply : (s.fresh).hostReply = s.hostReply := rfl
@[simp] theorem State.fresh_hostBusErr : (s.fresh).hostBusErr = s.hostBusErr := rfl
@[simp] theorem State.fresh_peerReply : (s.fresh).peerReply = s.peerReply := rfl

@[simp] theorem State.setByte_now (pa : Nat) (b : Byte) : (s.setByte pa b).now = s.now := rfl
@[simp] theorem State.setByte_agenda (pa : Nat) (b : Byte) : (s.setByte pa b).agenda = s.agenda := rfl
@[simp] theorem State.setByte_cur (pa : Nat) (b : Byte) : (s.setByte pa b).cur = s.cur := rfl
@[simp] theorem State.setByte_freeCtr (pa : Nat) (b : Byte) : (s.setByte pa b).freeCtr = s.freeCtr := rfl
@[simp] theorem State.setByte_nextId (pa : Nat) (b : Byte) : (s.setByte pa b).nextId = s.nextId := rfl
@[simp] theorem State.setByte_rotation (pa : Nat) (b : Byte) : (s.setByte pa b).rotation = s.rotation := rfl
@[simp] theorem State.setByte_threads (pa : Nat) (b : Byte) : (s.setByte pa b).threads = s.threads := rfl
@[simp] theorem State.setByte_groups (pa : Nat) (b : Byte) : (s.setByte pa b).groups = s.groups := rfl
@[simp] theorem State.setByte_bins (pa : Nat) (b : Byte) : (s.setByte pa b).bins = s.bins := rfl
@[simp] theorem State.setByte_seqs (pa : Nat) (b : Byte) : (s.setByte pa b).seqs = s.seqs := rfl
@[simp] theorem State.setByte_opLog (pa : Nat) (b : Byte) : (s.setByte pa b).opLog = s.opLog := rfl
@[simp] theorem State.setByte_inflight (pa : Nat) (b : Byte) : (s.setByte pa b).inflight = s.inflight := rfl
@[simp] theorem State.setByte_pendStores (pa : Nat) (b : Byte) : (s.setByte pa b).pendStores = s.pendStores := rfl
@[simp] theorem State.setByte_drain (pa : Nat) (b : Byte) : (s.setByte pa b).drain = s.drain := rfl
@[simp] theorem State.setByte_acps (pa : Nat) (b : Byte) : (s.setByte pa b).acps = s.acps := rfl
@[simp] theorem State.setByte_spadBanks (pa : Nat) (b : Byte) : (s.setByte pa b).spadBanks = s.spadBanks := rfl
@[simp] theorem State.setByte_spadWakes (pa : Nat) (b : Byte) : (s.setByte pa b).spadWakes = s.spadWakes := rfl
@[simp] theorem State.setByte_l1 (pa : Nat) (b : Byte) : (s.setByte pa b).l1 = s.l1 := rfl
@[simp] theorem State.setByte_tlb (pa : Nat) (b : Byte) : (s.setByte pa b).tlb = s.tlb := rfl
@[simp] theorem State.setByte_icache (pa : Nat) (b : Byte) : (s.setByte pa b).icache = s.icache := rfl
@[simp] theorem State.setByte_icinv (pa : Nat) (b : Byte) : (s.setByte pa b).icinv = s.icinv := rfl
@[simp] theorem State.setByte_iprefInv (pa : Nat) (b : Byte) : (s.setByte pa b).iprefInv = s.iprefInv := rfl
@[simp] theorem State.setByte_xlinv (pa : Nat) (b : Byte) : (s.setByte pa b).xlinv = s.xlinv := rfl
@[simp] theorem State.setByte_abortBusy (pa : Nat) (b : Byte) : (s.setByte pa b).abortBusy = s.abortBusy := rfl
@[simp] theorem State.setByte_mqueue (pa : Nat) (b : Byte) : (s.setByte pa b).mqueue = s.mqueue := rfl
@[simp] theorem State.setByte_schedPos (pa : Nat) (b : Byte) : (s.setByte pa b).schedPos = s.schedPos := rfl
@[simp] theorem State.setByte_schedOff (pa : Nat) (b : Byte) : (s.setByte pa b).schedOff = s.schedOff := rfl
@[simp] theorem State.setByte_debt (pa : Nat) (b : Byte) : (s.setByte pa b).debt = s.debt := rfl
@[simp] theorem State.setByte_mem (pa : Nat) (b : Byte) : (s.setByte pa b).mem = s.mem.store 0 pa b := rfl
@[simp] theorem State.setByte_obDirty (pa : Nat) (b : Byte) : (s.setByte pa b).obDirty = s.obDirty := rfl
@[simp] theorem State.setByte_cells (pa : Nat) (b : Byte) : (s.setByte pa b).cells = s.cells := rfl
@[simp] theorem State.setByte_ctxs (pa : Nat) (b : Byte) : (s.setByte pa b).ctxs = s.ctxs := rfl
@[simp] theorem State.setByte_mintQ (pa : Nat) (b : Byte) : (s.setByte pa b).mintQ = s.mintQ := rfl
@[simp] theorem State.setByte_teller (pa : Nat) (b : Byte) : (s.setByte pa b).teller = s.teller := rfl
@[simp] theorem State.setByte_sqs (pa : Nat) (b : Byte) : (s.setByte pa b).sqs = s.sqs := rfl
@[simp] theorem State.setByte_submits (pa : Nat) (b : Byte) : (s.setByte pa b).submits = s.submits := rfl
@[simp] theorem State.setByte_launches (pa : Nat) (b : Byte) : (s.setByte pa b).launches = s.launches := rfl
@[simp] theorem State.setByte_counters (pa : Nat) (b : Byte) : (s.setByte pa b).counters = s.counters := rfl
@[simp] theorem State.setByte_blocks (pa : Nat) (b : Byte) : (s.setByte pa b).blocks = s.blocks := rfl
@[simp] theorem State.setByte_engines (pa : Nat) (b : Byte) : (s.setByte pa b).engines = s.engines := rfl
@[simp] theorem State.setByte_cfg (pa : Nat) (b : Byte) : (s.setByte pa b).cfg = s.cfg := rfl
@[simp] theorem State.setByte_spend (pa : Nat) (b : Byte) : (s.setByte pa b).spend = s.spend := rfl
@[simp] theorem State.setByte_windowAt (pa : Nat) (b : Byte) : (s.setByte pa b).windowAt = s.windowAt := rfl
@[simp] theorem State.setByte_dramBudgets (pa : Nat) (b : Byte) : (s.setByte pa b).dramBudgets = s.dramBudgets := rfl
@[simp] theorem State.setByte_modeAt (pa : Nat) (b : Byte) : (s.setByte pa b).modeAt = s.modeAt := rfl
@[simp] theorem State.setByte_budgets (pa : Nat) (b : Byte) : (s.setByte pa b).budgets = s.budgets := rfl
@[simp] theorem State.setByte_pairs (pa : Nat) (b : Byte) : (s.setByte pa b).pairs = s.pairs := rfl
@[simp] theorem State.setByte_mismatches (pa : Nat) (b : Byte) : (s.setByte pa b).mismatches = s.mismatches := rfl
@[simp] theorem State.setByte_mmSeq (pa : Nat) (b : Byte) : (s.setByte pa b).mmSeq = s.mmSeq := rfl
@[simp] theorem State.setByte_assayed (pa : Nat) (b : Byte) : (s.setByte pa b).assayed = s.assayed := rfl
@[simp] theorem State.setByte_transient (pa : Nat) (b : Byte) : (s.setByte pa b).transient = s.transient := rfl
@[simp] theorem State.setByte_inbox (pa : Nat) (b : Byte) : (s.setByte pa b).inbox = s.inbox := rfl
@[simp] theorem State.setByte_sec (pa : Nat) (b : Byte) : (s.setByte pa b).sec = s.sec := rfl
@[simp] theorem State.setByte_evr (pa : Nat) (b : Byte) : (s.setByte pa b).evr = s.evr := rfl
@[simp] theorem State.setByte_links (pa : Nat) (b : Byte) : (s.setByte pa b).links = s.links := rfl
@[simp] theorem State.setByte_rails (pa : Nat) (b : Byte) : (s.setByte pa b).rails = s.rails := rfl
@[simp] theorem State.setByte_lowRail (pa : Nat) (b : Byte) : (s.setByte pa b).lowRail = s.lowRail := rfl
@[simp] theorem State.setByte_junction (pa : Nat) (b : Byte) : (s.setByte pa b).junction = s.junction := rfl
@[simp] theorem State.setByte_demand (pa : Nat) (b : Byte) : (s.setByte pa b).demand = s.demand := rfl
@[simp] theorem State.setByte_powerAt (pa : Nat) (b : Byte) : (s.setByte pa b).powerAt = s.powerAt := rfl
@[simp] theorem State.setByte_hostReply (pa : Nat) (b : Byte) : (s.setByte pa b).hostReply = s.hostReply := rfl
@[simp] theorem State.setByte_hostBusErr (pa : Nat) (b : Byte) : (s.setByte pa b).hostBusErr = s.hostBusErr := rfl
@[simp] theorem State.setByte_peerReply (pa : Nat) (b : Byte) : (s.setByte pa b).peerReply = s.peerReply := rfl

@[simp] theorem State.zeroBytes_now (pa n : Nat) : (s.zeroBytes pa n).now = s.now := rfl
@[simp] theorem State.zeroBytes_agenda (pa n : Nat) : (s.zeroBytes pa n).agenda = s.agenda := rfl
@[simp] theorem State.zeroBytes_cur (pa n : Nat) : (s.zeroBytes pa n).cur = s.cur := rfl
@[simp] theorem State.zeroBytes_freeCtr (pa n : Nat) : (s.zeroBytes pa n).freeCtr = s.freeCtr := rfl
@[simp] theorem State.zeroBytes_nextId (pa n : Nat) : (s.zeroBytes pa n).nextId = s.nextId := rfl
@[simp] theorem State.zeroBytes_rotation (pa n : Nat) : (s.zeroBytes pa n).rotation = s.rotation := rfl
@[simp] theorem State.zeroBytes_threads (pa n : Nat) : (s.zeroBytes pa n).threads = s.threads := rfl
@[simp] theorem State.zeroBytes_groups (pa n : Nat) : (s.zeroBytes pa n).groups = s.groups := rfl
@[simp] theorem State.zeroBytes_bins (pa n : Nat) : (s.zeroBytes pa n).bins = s.bins := rfl
@[simp] theorem State.zeroBytes_seqs (pa n : Nat) : (s.zeroBytes pa n).seqs = s.seqs := rfl
@[simp] theorem State.zeroBytes_opLog (pa n : Nat) : (s.zeroBytes pa n).opLog = s.opLog := rfl
@[simp] theorem State.zeroBytes_inflight (pa n : Nat) : (s.zeroBytes pa n).inflight = s.inflight := rfl
@[simp] theorem State.zeroBytes_pendStores (pa n : Nat) : (s.zeroBytes pa n).pendStores = s.pendStores := rfl
@[simp] theorem State.zeroBytes_drain (pa n : Nat) : (s.zeroBytes pa n).drain = s.drain := rfl
@[simp] theorem State.zeroBytes_acps (pa n : Nat) : (s.zeroBytes pa n).acps = s.acps := rfl
@[simp] theorem State.zeroBytes_spadBanks (pa n : Nat) : (s.zeroBytes pa n).spadBanks = s.spadBanks := rfl
@[simp] theorem State.zeroBytes_spadWakes (pa n : Nat) : (s.zeroBytes pa n).spadWakes = s.spadWakes := rfl
@[simp] theorem State.zeroBytes_l1 (pa n : Nat) : (s.zeroBytes pa n).l1 = s.l1 := rfl
@[simp] theorem State.zeroBytes_tlb (pa n : Nat) : (s.zeroBytes pa n).tlb = s.tlb := rfl
@[simp] theorem State.zeroBytes_icache (pa n : Nat) : (s.zeroBytes pa n).icache = s.icache := rfl
@[simp] theorem State.zeroBytes_icinv (pa n : Nat) : (s.zeroBytes pa n).icinv = s.icinv := rfl
@[simp] theorem State.zeroBytes_iprefInv (pa n : Nat) : (s.zeroBytes pa n).iprefInv = s.iprefInv := rfl
@[simp] theorem State.zeroBytes_xlinv (pa n : Nat) : (s.zeroBytes pa n).xlinv = s.xlinv := rfl
@[simp] theorem State.zeroBytes_abortBusy (pa n : Nat) : (s.zeroBytes pa n).abortBusy = s.abortBusy := rfl
@[simp] theorem State.zeroBytes_mqueue (pa n : Nat) : (s.zeroBytes pa n).mqueue = s.mqueue := rfl
@[simp] theorem State.zeroBytes_schedPos (pa n : Nat) : (s.zeroBytes pa n).schedPos = s.schedPos := rfl
@[simp] theorem State.zeroBytes_schedOff (pa n : Nat) : (s.zeroBytes pa n).schedOff = s.schedOff := rfl
@[simp] theorem State.zeroBytes_debt (pa n : Nat) : (s.zeroBytes pa n).debt = s.debt := rfl
@[simp] theorem State.zeroBytes_mem (pa n : Nat) : (s.zeroBytes pa n).mem = s.mem.filter fun p => p.1 < pa || pa + n ≤ p.1 := rfl
@[simp] theorem State.zeroBytes_obDirty (pa n : Nat) : (s.zeroBytes pa n).obDirty = s.obDirty := rfl
@[simp] theorem State.zeroBytes_cells (pa n : Nat) : (s.zeroBytes pa n).cells = s.cells := rfl
@[simp] theorem State.zeroBytes_ctxs (pa n : Nat) : (s.zeroBytes pa n).ctxs = s.ctxs := rfl
@[simp] theorem State.zeroBytes_mintQ (pa n : Nat) : (s.zeroBytes pa n).mintQ = s.mintQ := rfl
@[simp] theorem State.zeroBytes_teller (pa n : Nat) : (s.zeroBytes pa n).teller = s.teller := rfl
@[simp] theorem State.zeroBytes_sqs (pa n : Nat) : (s.zeroBytes pa n).sqs = s.sqs := rfl
@[simp] theorem State.zeroBytes_submits (pa n : Nat) : (s.zeroBytes pa n).submits = s.submits := rfl
@[simp] theorem State.zeroBytes_launches (pa n : Nat) : (s.zeroBytes pa n).launches = s.launches := rfl
@[simp] theorem State.zeroBytes_counters (pa n : Nat) : (s.zeroBytes pa n).counters = s.counters := rfl
@[simp] theorem State.zeroBytes_blocks (pa n : Nat) : (s.zeroBytes pa n).blocks = s.blocks := rfl
@[simp] theorem State.zeroBytes_engines (pa n : Nat) : (s.zeroBytes pa n).engines = s.engines := rfl
@[simp] theorem State.zeroBytes_cfg (pa n : Nat) : (s.zeroBytes pa n).cfg = s.cfg := rfl
@[simp] theorem State.zeroBytes_spend (pa n : Nat) : (s.zeroBytes pa n).spend = s.spend := rfl
@[simp] theorem State.zeroBytes_windowAt (pa n : Nat) : (s.zeroBytes pa n).windowAt = s.windowAt := rfl
@[simp] theorem State.zeroBytes_dramBudgets (pa n : Nat) : (s.zeroBytes pa n).dramBudgets = s.dramBudgets := rfl
@[simp] theorem State.zeroBytes_modeAt (pa n : Nat) : (s.zeroBytes pa n).modeAt = s.modeAt := rfl
@[simp] theorem State.zeroBytes_budgets (pa n : Nat) : (s.zeroBytes pa n).budgets = s.budgets := rfl
@[simp] theorem State.zeroBytes_pairs (pa n : Nat) : (s.zeroBytes pa n).pairs = s.pairs := rfl
@[simp] theorem State.zeroBytes_mismatches (pa n : Nat) : (s.zeroBytes pa n).mismatches = s.mismatches := rfl
@[simp] theorem State.zeroBytes_mmSeq (pa n : Nat) : (s.zeroBytes pa n).mmSeq = s.mmSeq := rfl
@[simp] theorem State.zeroBytes_assayed (pa n : Nat) : (s.zeroBytes pa n).assayed = s.assayed := rfl
@[simp] theorem State.zeroBytes_transient (pa n : Nat) : (s.zeroBytes pa n).transient = s.transient := rfl
@[simp] theorem State.zeroBytes_inbox (pa n : Nat) : (s.zeroBytes pa n).inbox = s.inbox := rfl
@[simp] theorem State.zeroBytes_sec (pa n : Nat) : (s.zeroBytes pa n).sec = s.sec := rfl
@[simp] theorem State.zeroBytes_evr (pa n : Nat) : (s.zeroBytes pa n).evr = s.evr := rfl
@[simp] theorem State.zeroBytes_links (pa n : Nat) : (s.zeroBytes pa n).links = s.links := rfl
@[simp] theorem State.zeroBytes_rails (pa n : Nat) : (s.zeroBytes pa n).rails = s.rails := rfl
@[simp] theorem State.zeroBytes_lowRail (pa n : Nat) : (s.zeroBytes pa n).lowRail = s.lowRail := rfl
@[simp] theorem State.zeroBytes_junction (pa n : Nat) : (s.zeroBytes pa n).junction = s.junction := rfl
@[simp] theorem State.zeroBytes_demand (pa n : Nat) : (s.zeroBytes pa n).demand = s.demand := rfl
@[simp] theorem State.zeroBytes_powerAt (pa n : Nat) : (s.zeroBytes pa n).powerAt = s.powerAt := rfl
@[simp] theorem State.zeroBytes_hostReply (pa n : Nat) : (s.zeroBytes pa n).hostReply = s.hostReply := rfl
@[simp] theorem State.zeroBytes_hostBusErr (pa n : Nat) : (s.zeroBytes pa n).hostBusErr = s.hostBusErr := rfl
@[simp] theorem State.zeroBytes_peerReply (pa n : Nat) : (s.zeroBytes pa n).peerReply = s.peerReply := rfl

@[simp] theorem State.modCtx_now (t : Nat) (f : Ctx → Ctx) : (s.modCtx t f).now = s.now := rfl
@[simp] theorem State.modCtx_agenda (t : Nat) (f : Ctx → Ctx) : (s.modCtx t f).agenda = s.agenda := rfl
@[simp] theorem State.modCtx_cur (t : Nat) (f : Ctx → Ctx) : (s.modCtx t f).cur = s.cur := rfl
@[simp] theorem State.modCtx_freeCtr (t : Nat) (f : Ctx → Ctx) : (s.modCtx t f).freeCtr = s.freeCtr := rfl
@[simp] theorem State.modCtx_nextId (t : Nat) (f : Ctx → Ctx) : (s.modCtx t f).nextId = s.nextId := rfl
@[simp] theorem State.modCtx_rotation (t : Nat) (f : Ctx → Ctx) : (s.modCtx t f).rotation = s.rotation := rfl
@[simp] theorem State.modCtx_threads (t : Nat) (f : Ctx → Ctx) : (s.modCtx t f).threads = s.threads := rfl
@[simp] theorem State.modCtx_groups (t : Nat) (f : Ctx → Ctx) : (s.modCtx t f).groups = s.groups := rfl
@[simp] theorem State.modCtx_bins (t : Nat) (f : Ctx → Ctx) : (s.modCtx t f).bins = s.bins := rfl
@[simp] theorem State.modCtx_seqs (t : Nat) (f : Ctx → Ctx) : (s.modCtx t f).seqs = s.seqs := rfl
@[simp] theorem State.modCtx_opLog (t : Nat) (f : Ctx → Ctx) : (s.modCtx t f).opLog = s.opLog := rfl
@[simp] theorem State.modCtx_inflight (t : Nat) (f : Ctx → Ctx) : (s.modCtx t f).inflight = s.inflight := rfl
@[simp] theorem State.modCtx_pendStores (t : Nat) (f : Ctx → Ctx) : (s.modCtx t f).pendStores = s.pendStores := rfl
@[simp] theorem State.modCtx_drain (t : Nat) (f : Ctx → Ctx) : (s.modCtx t f).drain = s.drain := rfl
@[simp] theorem State.modCtx_acps (t : Nat) (f : Ctx → Ctx) : (s.modCtx t f).acps = s.acps := rfl
@[simp] theorem State.modCtx_spadBanks (t : Nat) (f : Ctx → Ctx) : (s.modCtx t f).spadBanks = s.spadBanks := rfl
@[simp] theorem State.modCtx_spadWakes (t : Nat) (f : Ctx → Ctx) : (s.modCtx t f).spadWakes = s.spadWakes := rfl
@[simp] theorem State.modCtx_l1 (t : Nat) (f : Ctx → Ctx) : (s.modCtx t f).l1 = s.l1 := rfl
@[simp] theorem State.modCtx_tlb (t : Nat) (f : Ctx → Ctx) : (s.modCtx t f).tlb = s.tlb := rfl
@[simp] theorem State.modCtx_icache (t : Nat) (f : Ctx → Ctx) : (s.modCtx t f).icache = s.icache := rfl
@[simp] theorem State.modCtx_icinv (t : Nat) (f : Ctx → Ctx) : (s.modCtx t f).icinv = s.icinv := rfl
@[simp] theorem State.modCtx_iprefInv (t : Nat) (f : Ctx → Ctx) : (s.modCtx t f).iprefInv = s.iprefInv := rfl
@[simp] theorem State.modCtx_xlinv (t : Nat) (f : Ctx → Ctx) : (s.modCtx t f).xlinv = s.xlinv := rfl
@[simp] theorem State.modCtx_abortBusy (t : Nat) (f : Ctx → Ctx) : (s.modCtx t f).abortBusy = s.abortBusy := rfl
@[simp] theorem State.modCtx_mqueue (t : Nat) (f : Ctx → Ctx) : (s.modCtx t f).mqueue = s.mqueue := rfl
@[simp] theorem State.modCtx_schedPos (t : Nat) (f : Ctx → Ctx) : (s.modCtx t f).schedPos = s.schedPos := rfl
@[simp] theorem State.modCtx_schedOff (t : Nat) (f : Ctx → Ctx) : (s.modCtx t f).schedOff = s.schedOff := rfl
@[simp] theorem State.modCtx_debt (t : Nat) (f : Ctx → Ctx) : (s.modCtx t f).debt = s.debt := rfl
@[simp] theorem State.modCtx_mem (t : Nat) (f : Ctx → Ctx) : (s.modCtx t f).mem = s.mem := rfl
@[simp] theorem State.modCtx_obDirty (t : Nat) (f : Ctx → Ctx) : (s.modCtx t f).obDirty = s.obDirty := rfl
@[simp] theorem State.modCtx_cells (t : Nat) (f : Ctx → Ctx) : (s.modCtx t f).cells = s.cells := rfl
@[simp] theorem State.modCtx_ctxs (t : Nat) (f : Ctx → Ctx) : (s.modCtx t f).ctxs = s.ctxs.put t (f (s.ctx t)) := rfl
@[simp] theorem State.modCtx_mintQ (t : Nat) (f : Ctx → Ctx) : (s.modCtx t f).mintQ = s.mintQ := rfl
@[simp] theorem State.modCtx_teller (t : Nat) (f : Ctx → Ctx) : (s.modCtx t f).teller = s.teller := rfl
@[simp] theorem State.modCtx_sqs (t : Nat) (f : Ctx → Ctx) : (s.modCtx t f).sqs = s.sqs := rfl
@[simp] theorem State.modCtx_submits (t : Nat) (f : Ctx → Ctx) : (s.modCtx t f).submits = s.submits := rfl
@[simp] theorem State.modCtx_launches (t : Nat) (f : Ctx → Ctx) : (s.modCtx t f).launches = s.launches := rfl
@[simp] theorem State.modCtx_counters (t : Nat) (f : Ctx → Ctx) : (s.modCtx t f).counters = s.counters := rfl
@[simp] theorem State.modCtx_blocks (t : Nat) (f : Ctx → Ctx) : (s.modCtx t f).blocks = s.blocks := rfl
@[simp] theorem State.modCtx_engines (t : Nat) (f : Ctx → Ctx) : (s.modCtx t f).engines = s.engines := rfl
@[simp] theorem State.modCtx_cfg (t : Nat) (f : Ctx → Ctx) : (s.modCtx t f).cfg = s.cfg := rfl
@[simp] theorem State.modCtx_spend (t : Nat) (f : Ctx → Ctx) : (s.modCtx t f).spend = s.spend := rfl
@[simp] theorem State.modCtx_windowAt (t : Nat) (f : Ctx → Ctx) : (s.modCtx t f).windowAt = s.windowAt := rfl
@[simp] theorem State.modCtx_dramBudgets (t : Nat) (f : Ctx → Ctx) : (s.modCtx t f).dramBudgets = s.dramBudgets := rfl
@[simp] theorem State.modCtx_modeAt (t : Nat) (f : Ctx → Ctx) : (s.modCtx t f).modeAt = s.modeAt := rfl
@[simp] theorem State.modCtx_budgets (t : Nat) (f : Ctx → Ctx) : (s.modCtx t f).budgets = s.budgets := rfl
@[simp] theorem State.modCtx_pairs (t : Nat) (f : Ctx → Ctx) : (s.modCtx t f).pairs = s.pairs := rfl
@[simp] theorem State.modCtx_mismatches (t : Nat) (f : Ctx → Ctx) : (s.modCtx t f).mismatches = s.mismatches := rfl
@[simp] theorem State.modCtx_mmSeq (t : Nat) (f : Ctx → Ctx) : (s.modCtx t f).mmSeq = s.mmSeq := rfl
@[simp] theorem State.modCtx_assayed (t : Nat) (f : Ctx → Ctx) : (s.modCtx t f).assayed = s.assayed := rfl
@[simp] theorem State.modCtx_transient (t : Nat) (f : Ctx → Ctx) : (s.modCtx t f).transient = s.transient := rfl
@[simp] theorem State.modCtx_inbox (t : Nat) (f : Ctx → Ctx) : (s.modCtx t f).inbox = s.inbox := rfl
@[simp] theorem State.modCtx_sec (t : Nat) (f : Ctx → Ctx) : (s.modCtx t f).sec = s.sec := rfl
@[simp] theorem State.modCtx_evr (t : Nat) (f : Ctx → Ctx) : (s.modCtx t f).evr = s.evr := rfl
@[simp] theorem State.modCtx_links (t : Nat) (f : Ctx → Ctx) : (s.modCtx t f).links = s.links := rfl
@[simp] theorem State.modCtx_rails (t : Nat) (f : Ctx → Ctx) : (s.modCtx t f).rails = s.rails := rfl
@[simp] theorem State.modCtx_lowRail (t : Nat) (f : Ctx → Ctx) : (s.modCtx t f).lowRail = s.lowRail := rfl
@[simp] theorem State.modCtx_junction (t : Nat) (f : Ctx → Ctx) : (s.modCtx t f).junction = s.junction := rfl
@[simp] theorem State.modCtx_demand (t : Nat) (f : Ctx → Ctx) : (s.modCtx t f).demand = s.demand := rfl
@[simp] theorem State.modCtx_powerAt (t : Nat) (f : Ctx → Ctx) : (s.modCtx t f).powerAt = s.powerAt := rfl
@[simp] theorem State.modCtx_hostReply (t : Nat) (f : Ctx → Ctx) : (s.modCtx t f).hostReply = s.hostReply := rfl
@[simp] theorem State.modCtx_hostBusErr (t : Nat) (f : Ctx → Ctx) : (s.modCtx t f).hostBusErr = s.hostBusErr := rfl
@[simp] theorem State.modCtx_peerReply (t : Nat) (f : Ctx → Ctx) : (s.modCtx t f).peerReply = s.peerReply := rfl

end Machine
end Sys2Proof
end

