-- ==== Sys2Proof/Laws/Memory.lean ====
section
/-!
SUPPORT. Memory: every operation on it keeps its canonical form, and reading after writing.
-/

namespace Sys2Proof
namespace Machine

theorem Memory.wf_store (m : FMap Byte) (n : Nat) (b : Byte) (h : Memory.wf m = true) :
    Memory.wf (FMap.store 0 m n b) = true := by
  simp only [Memory.wf, Bool.and_eq_true, List.all_eq_true] at h ⊢
  unfold FMap.store
  split
  · exact ⟨FMap.sorted_del _ _ h.1, fun q hq => h.2 q (FMap.mem_del _ _ _ hq)⟩
  · next hb =>
    refine ⟨FMap.sorted_put _ _ _ h.1, fun q hq => ?_⟩
    rcases FMap.mem_put _ _ _ _ hq with e | hq
    · subst e; simpa using hb
    · exact h.2 q hq

theorem Memory.wf_filter (m : FMap Byte) (p : Nat × Byte → Bool) (h : Memory.wf m = true) :
    Memory.wf (m.filter p) = true := by
  simp only [Memory.wf, Bool.and_eq_true, List.all_eq_true] at h ⊢
  exact ⟨FMap.sorted_filter _ _ h.1, fun q hq => h.2 q (List.mem_of_mem_filter hq)⟩

theorem State.setByte_wf (s : State) (pa : Nat) (b : Byte) (h : Memory.wf s.mem = true) :
    Memory.wf (s.setByte pa b).mem = true := Memory.wf_store _ _ _ h

theorem State.setBytes_wf (s : State) (pa : Nat) (bs : List Byte) (h : Memory.wf s.mem = true) :
    Memory.wf (s.setBytes pa bs).mem = true := by
  induction bs generalizing s pa with
  | nil => exact h
  | cons b r ih => exact ih _ _ (s.setByte_wf pa b h)

theorem State.writeNat_wf (s : State) (pa n x : Nat) (h : Memory.wf s.mem = true) :
    Memory.wf (s.writeNat pa n x).mem = true := s.setBytes_wf _ _ h

theorem State.zeroBytes_wf (s : State) (pa n : Nat) (h : Memory.wf s.mem = true) :
    Memory.wf (s.zeroBytes pa n).mem = true := Memory.wf_filter _ _ h

theorem State.zeroOb_wf (s : State) (pa n : Nat) (h : Memory.wf s.mem = true) :
    Memory.wf (s.zeroOb pa n).mem = true := s.zeroBytes_wf _ _ h

theorem State.setSpad_wf (s : State) (core k : Nat) (st : QState) (h : Memory.wf s.mem = true) :
    Memory.wf (s.setSpad core k st).mem = true := by
  unfold State.setSpad
  split <;> first | exact h | exact s.zeroBytes_wf _ _ h

theorem State.writeLine_wf (s : State) (tag pa : Nat) (bs : List Byte) (h : Memory.wf s.mem = true) :
    Memory.wf (s.writeLine tag pa bs).mem = true := by
  unfold State.writeLine
  split
  · exact s.setBytes_wf _ _ h
  · exact h

theorem State.writeView_wf (s : State) (tag pa : Nat) (bs : List Byte) (n : Nat) (h : Memory.wf s.mem = true) :
    Memory.wf (s.writeView tag pa bs n).mem = true := by
  induction n generalizing s pa bs with
  | zero => exact h
  | succ n ih =>
    simp only [State.writeView]
    split
    · exact h
    · exact ih _ _ _ (s.writeLine_wf _ _ _ h)

theorem State.raiseQuarter_mem (s : State) (t q : Nat) : (s.raiseQuarter t q).mem = s.mem := by
  unfold State.raiseQuarter
  dsimp only
  split <;> rfl

theorem State.lowerQuarter_mem (s : State) (t q : Nat) (off : Bool) : (s.lowerQuarter t q off).mem = s.mem := by
  unfold State.lowerQuarter
  dsimp only
  split <;> rfl

theorem State.mapSet_wf (s : State) (core off : Nat) (b : Byte) (h : Memory.wf s.mem = true) :
    Memory.wf (s.mapSet core off b).mem = true := by
  unfold State.mapSet
  split
  · dsimp only
    split
    · rw [State.modThread_mem, State.raiseQuarter_mem]; exact h
    · exact h
  · split
    · exact s.setByte_wf _ _ h
    · exact h

theorem State.mapWrite_wf (s : State) (core off : Nat) (bs : List Byte) (h : Memory.wf s.mem = true) :
    Memory.wf (s.mapWrite core off bs).mem = true := by
  induction bs generalizing s off with
  | nil => exact h
  | cons b r ih => exact ih _ _ (s.mapSet_wf _ _ _ h)

theorem State.l1Store_mem (s : State) (a : Acc) (hint : Hint) (v pa : Nat) (bs : List Byte) :
    (s.l1Store a hint v pa bs).mem = s.mem := by
  unfold State.l1Store
  dsimp only
  split <;> rfl

theorem State.storePlace_wf (s : State) (a : Acc) (hint : Hint) (v : Nat) (p : Place) (bs : List Byte) (h : Memory.wf s.mem = true) :
    Memory.wf (s.storePlace a hint v p bs).mem = true := by
  cases p with
  | spad core off => exact s.setBytes_wf _ _ h
  | mem pa ctx dev =>
    simp only [State.storePlace]
    split
    · rw [State.l1Store_mem]; exact s.writeLine_wf _ _ _ h
    · exact s.mapWrite_wf _ _ _ h
    · exact h
    · exact h

/-! ## Reading after writing -/

theorem State.byte_setByte (s : State) (pa x : Nat) (b : Byte) :
    (s.setByte pa b).byte x = if x = pa then b else s.byte x := FMap.findD_store 0 s.mem pa x b

theorem State.byte_setBytes_out (s : State) (pa x : Nat) (bs : List Byte) (h : x < pa ∨ pa + bs.length ≤ x) :
    (s.setBytes pa bs).byte x = s.byte x := by
  induction bs generalizing s pa with
  | nil => rfl
  | cons b r ih =>
    simp only [List.length_cons] at h
    rw [State.setBytes, ih _ _ (by omega), State.byte_setByte, if_neg (by omega)]

theorem State.byte_setBytes_in (s : State) (pa k : Nat) (bs : List Byte) (h : k < bs.length) :
    (s.setBytes pa bs).byte (pa + k) = bs[k] := by
  induction bs generalizing s pa k with
  | nil => simp at h
  | cons b r ih =>
    cases k with
    | zero => simp only [State.setBytes, Nat.add_zero, List.getElem_cons_zero]; rw [State.byte_setBytes_out _ _ _ _ (by omega),
        State.byte_setByte, if_pos rfl]
    | succ k =>
      simp only [List.length_cons] at h
      have := ih (s.setByte pa b) (pa + 1) k (by omega)
      rw [State.setBytes, show pa + (k + 1) = pa + 1 + k by omega, this, List.getElem_cons_succ]

theorem State.setBytes_eq (s : State) (pa : Nat) (bs : List Byte) :
    s.setBytes pa bs = { s with mem := (s.setBytes pa bs).mem } := by
  induction bs generalizing s pa with
  | nil => rfl
  | cons b r ih => rw [State.setBytes, ih]; rfl

end Machine
end Sys2Proof
end

