-- ==== Sys2Proof/Laws/Issue.lean ====
section
/-!
SUPPORT. The start of a word's issue: what `State.front` answers when nothing is in the word's way, and the outcomes of `issue`.
-/

namespace Sys2Proof
namespace Machine

theorem State.raiseQuarter_full (s : State) (t q : Nat) (h : (s.thread t).quarter q = .full) : s.raiseQuarter t q = s := by
  simp [State.raiseQuarter, h]

theorem State.wakeFor_full (s : State) (i : Instr) (ts : List Nat)
    (h : ∀ t ∈ ts, ∀ n ∈ readsOf i ++ writesOf i, (s.thread t).quarter (quarterOf n) = .full) : s.wakeFor i ts = s := by
  have inner : ∀ t ∈ ts, ∀ l : List Nat, (∀ n ∈ l, (s.thread t).quarter (quarterOf n) = .full) →
      l.foldl (fun s n => s.raiseQuarter t (quarterOf n)) s = s := by
    intro t _ l hl
    induction l with
    | nil => rfl
    | cons n r ih =>
      rw [List.foldl_cons, State.raiseQuarter_full _ _ _ (hl n (by simp))]
      exact ih fun m hm => hl m (by simp [hm])
  unfold State.wakeFor
  induction ts with
  | nil => rfl
  | cons t r ih =>
    rw [List.foldl_cons, inner t (by simp) _ (h t (by simp))]
    exact ih (fun u hu => h u (by simp [hu])) fun u hu => inner u (by simp [hu])

theorem State.ready_awake (s : State) (G : Group) (i : Instr) (h : s.ready G i = true) :
    ∀ t ∈ G.lanes, ∀ n ∈ readsOf i ++ writesOf i, (s.thread t).waking (quarterOf n) = false := by
  intro t ht n hn
  simp only [State.ready, Bool.and_eq_true, List.all_eq_true] at h
  have := (h.1.1.1 t ht).1.1 n hn
  simpa using this.2

theorem earlyLane_of_true (s : State) (i : Instr) (h : Hdr) (clk t : Nat) (b : Bool)
    (e : s.earlyLane i h clk t true = false) : s.earlyLane i h clk t b = false := by
  cases b with
  | true => exact e
  | false => simp only [State.earlyLane, Bool.true_and, Bool.or_eq_false_iff] at e; simp [State.earlyLane, e.1]

theorem State.front_issues (s : State) (g : Nat) (G : Group) (i : Instr) (H : s.Issues g G i) :
    s.front i i.hdr = .go (s.issueEnv g G i) s := by
  have hact : ∀ t ∈ s.actives G i, t ∈ G.lanes := fun t ht => List.mem_of_mem_filter ht
  have hover : (G.lanes.filter fun t => decide (s.allotOf t < topReg i.uses)) = [] := by
    simp only [List.filter_eq_nil_iff, decide_eq_true_eq, not_lt]; exact H.allotted
  have hocc : (G.lanes.filter fun t => decide (topReg i.uses ≤ s.allotOf t)) = G.lanes := by
    simp only [List.filter_eq_self, decide_eq_true_eq]; exact H.allotted
  have hclk : s.clk G.core + s.gatherWait G.core G.quarter i = s.issueClk G i := rfl
  have hacts : G.lanes.filter (s.guardPasses i.hdr (s.issueClk G i)) = s.actives G i := rfl
  have hoff : (s.actives G i).filter (s.bankOff i) = [] := by
    simp only [List.filter_eq_nil_iff, State.bankOff, List.any_eq_true, not_exists, not_and]
    intro t ht n hn
    rw [H.banks t (hact t ht) n (by simp [hn])]; decide
  have hon : ((s.actives G i).filter fun t => !(s.bankOff i t)) = s.actives G i := by
    rw [List.filter_eq_self]
    intro t ht
    have := List.filter_eq_nil_iff.mp hoff t ht
    simpa using this
  have hwake : s.wakeFor i (s.actives G i) = s := s.wakeFor_full _ _ fun t ht => H.banks t (hact t ht)
  have hstill : s.stillWaking i (s.actives G i) = false := by
    rw [State.stillWaking, List.any_eq_false]
    intro t ht
    rw [Bool.not_eq_true, List.any_eq_false]
    intro n hn
    rw [Bool.not_eq_true]
    exact s.ready_awake G i H.ready t (hact t ht) n hn
  have hearly : ∀ b : Bool, (if s.enabled G.block G.core cStallShort = true then
      G.lanes.filter fun t => s.earlyLane i i.hdr (s.issueClk G i) t ((s.actives G i).contains t) else []) = [] := by
    intro _
    split
    · next h =>
      rw [List.filter_eq_nil_iff]
      intro t ht
      simp [earlyLane_of_true s i i.hdr _ t _ (H.onTime h t ht)]
    · rfl
  unfold State.front
  simp only [H.selected, H.there, H.ready, Bool.not_true, Bool.false_eq_true, if_false, hover, hocc, hclk, hacts, hearly true,
    List.isEmpty_nil, hoff, hon, hwake, hstill, H.queues]
  simp [State.issueEnv, allRaise]

/-- A word that issues with nothing in its way has its effect. -/
theorem issue_issues (s : State) (g : Nat) (G : Group) (i : Instr) (H : s.Issues g G i) (f : Env → State → State) :
    issue i i.hdr s f = .next (f (s.issueEnv g G i) s) := by
  simp [issue, State.front_issues s g G i H]

/-- A word with a selected group answers a next state, whatever is in its way. -/
theorem issue_goes (i : Instr) (h : Hdr) (s : State) (f : Env → State → State) (g : Nat) (G : Group) (hc : s.cur = some g)
    (hg : s.groups.find g = some G) : ∃ t, issue i h s f = .next t := by
  unfold issue
  split
  · next e =>
    exfalso
    simp only [State.front, hc, hg] at e
    grind
  all_goals exact ⟨_, rfl⟩

end Machine
end Sys2Proof
end

