-- ==== Sys2Proof/Laws/Threads.lean ====
section
/-!
SUPPORT. Threads under the operations that change some of them: lookups after an update, and the register quarters (R135 to R139).
-/

namespace Sys2Proof
namespace Machine

theorem State.thread_setThread (s : State) (t u : Nat) (T : Thread) :
    (s.setThread t T).thread u = if u = t then T else s.thread u := FMap.findD_put _ _ _ _ _

theorem State.thread_modThread (s : State) (t u : Nat) (f : Thread → Thread) :
    (s.modThread t f).thread u = if u = t then f (s.thread u) else s.thread u := by
  unfold State.modThread
  rw [State.thread_setThread]
  split
  · next h => rw [h]
  · rfl

theorem State.thread_modThreads_out (s : State) (ts : List Nat) (u : Nat) (f : Thread → Thread) (h : u ∉ ts) :
    (s.modThreads ts f).thread u = s.thread u := by
  unfold State.modThreads
  induction ts generalizing s with
  | nil => rfl
  | cons t r ih =>
    simp only [List.mem_cons, not_or] at h
    rw [List.foldl_cons, ih _ h.2, State.thread_modThread, if_neg h.1]

theorem State.thread_modThreads (s : State) (ts : List Nat) (u : Nat) (f : Thread → Thread) (h : u ∈ ts) (hn : ts.Nodup) :
    (s.modThreads ts f).thread u = f (s.thread u) := by
  unfold State.modThreads
  induction ts generalizing s with
  | nil => simp at h
  | cons t r ih =>
    rw [List.nodup_cons] at hn
    rw [List.foldl_cons]
    by_cases e : u ∈ r
    · rw [ih _ e hn.2, State.thread_modThread, if_neg (fun x => hn.1 (by rw [← x]; exact e))]
    · have ht : u = t := by simpa [e] using h
      have : (r.foldl (fun s t => s.modThread t f) (s.modThread t f)).thread u = (s.modThread t f).thread u :=
        State.thread_modThreads_out _ r u f e
      rw [this, State.thread_modThread, if_pos ht]

/-- Several threads change, and nothing else. -/
theorem State.modThreads_eq (s : State) (ts : List Nat) (f : Thread → Thread) :
    s.modThreads ts f = { s with threads := (s.modThreads ts f).threads } := by
  unfold State.modThreads
  induction ts generalizing s with
  | nil => rfl
  | cons t r ih => rw [List.foldl_cons, ih]; rfl

/-! ## Register quarters -/

theorem getD_listSet {α : Type} (l : List α) (n k : Nat) (x d : α) :
    (listSet l n x).getD k d = if k = n ∧ n < l.length then x else l.getD k d := by
  induction l generalizing n k with
  | nil => simp [listSet]
  | cons a t ih =>
    cases n with
    | zero => cases k <;> simp [listSet]
    | succ n =>
      cases k with
      | zero => simp [listSet]
      | succ k => have := ih n k; simp only [listSet, List.getD_cons_succ, List.length_cons, Nat.add_right_cancel_iff,
          Nat.add_lt_add_iff_right]; exact this

theorem find_clearQuarter (m : FMap Word) (q n : Nat) (h : quarterOf n ≠ q) : (clearQuarter m q).find n = m.find n := by
  unfold clearQuarter
  induction m with
  | nil => rfl
  | cons p t ih =>
    obtain ⟨k, v⟩ := p
    by_cases hk : quarterOf k = q
    · have : n ≠ k := fun e => h (e ▸ hk)
      simp [hk, FMap.find, this, ih]
    · simp [hk, FMap.find, ih]

/-- What a thread becomes when a quarter is lowered. -/
theorem State.thread_lowerQuarter (s : State) (t u q : Nat) (off : Bool) :
    (s.lowerQuarter t q off).thread u = if u = t then
      match (s.thread t).quarter q, off with
      | .off, _ => s.thread t
      | _, true => { s.thread t with
          quarters := listSet (s.thread t).quarters q .off, regs := clearQuarter (s.thread t).regs q,
          wakes := (s.thread t).wakes.del q, lost := (s.thread t).lost.put q s.nextId,
          lowered := (s.thread t).lowered.put q (s.rowState t q, s.nextId) }
      | .full, false => { s.thread t with
          quarters := listSet (s.thread t).quarters q .ret, wakes := (s.thread t).wakes.del q,
          lowered := (s.thread t).lowered.put q (s.rowState t q, s.nextId) }
      | .ret, false => s.thread t
      else s.thread u := by
  unfold State.lowerQuarter
  dsimp only
  by_cases h : u = t
  · subst h
    rw [if_pos rfl]
    cases hq : (s.thread u).quarter q <;> cases off <;> first | rfl | exact (State.thread_setThread _ _ _ _).trans (if_pos rfl)
  · rw [if_neg h]
    split <;> first | rfl | rw [State.thread_setThread, if_neg h]

theorem State.lowerQuarter_eq (s : State) (t q : Nat) (off : Bool) :
    s.lowerQuarter t q off = { s with threads := (s.lowerQuarter t q off).threads } := by
  unfold State.lowerQuarter
  dsimp only
  split <;> rfl

theorem Thread.quarter_lt (T : Thread) (q : Nat) (h : T.quarter q ≠ .off) : q < T.quarters.length := by
  by_contra hl
  exact h (List.getD_eq_default _ _ (Nat.le_of_not_lt hl))

theorem Thread.reg_off (T : Thread) (n : Nat) (h : T.quarter (quarterOf n) = .off) : T.reg n = 0 := if_pos h

theorem Thread.reg_on (T : Thread) (n : Nat) (h : T.quarter (quarterOf n) ≠ .off) : T.reg n = T.regs.findD n 0 := if_neg h

/-- A register reads the same in a thread of which its quarter is on or off alike and holds the same. -/
theorem Thread.reg_congr (T U : Thread) (n : Nat) (h : T.quarter (quarterOf n) = .off ↔ U.quarter (quarterOf n) = .off)
    (hv : U.quarter (quarterOf n) ≠ .off → T.regs.findD n 0 = U.regs.findD n 0) : T.reg n = U.reg n := by
  by_cases e : U.quarter (quarterOf n) = .off
  · rw [U.reg_off n e, T.reg_off n (h.mpr e)]
  · rw [U.reg_on n e, T.reg_on n (fun k => e (h.mp k)), hv e]

theorem quarter_listSet (T : Thread) (q k : Nat) (x : QState) (h : T.quarter q ≠ .off) :
    (listSet T.quarters q x).getD k .off = if k = q then x else T.quarter k := by
  rw [getD_listSet]
  simp only [T.quarter_lt q h, and_true]
  rfl

/-- A lowered quarter keeps its registers in RETENTION, and reads zero when it is OFF (R136, R139). -/
theorem State.reg_lowerQuarter (s : State) (t q n : Nat) (off : Bool) :
    ((s.lowerQuarter t q off).thread t).reg n = if off = true ∧ quarterOf n = q then 0 else (s.thread t).reg n := by
  rw [State.thread_lowerQuarter, if_pos rfl]
  generalize s.thread t = T
  split
  · next h =>
    split
    · next e => exact T.reg_off n (by rw [e.2]; exact h)
    · rfl
  · next h =>
    by_cases e : quarterOf n = q
    · rw [if_pos ⟨rfl, e⟩]
      exact Thread.reg_off _ n ((quarter_listSet T q _ .off h).trans (if_pos e))
    · rw [if_neg (fun k => e k.2)]
      refine Thread.reg_congr _ _ n ?_ fun _ => ?_
      · exact iff_of_eq (congrArg (· = QState.off) ((quarter_listSet T q _ .off h).trans (if_neg e)))
      · show (FMap.find (clearQuarter T.regs q) n).getD 0 = _
        rw [find_clearQuarter _ _ _ e]; rfl
  · next h =>
    rw [if_neg (fun k => by simp at k)]
    have hq : T.quarter q ≠ .off := by rw [h]; decide
    refine Thread.reg_congr _ _ n ?_ fun _ => rfl
    show (listSet T.quarters q QState.ret).getD (quarterOf n) .off = .off ↔ _
    rw [quarter_listSet T q _ _ hq]
    split
    · next e => rw [e]; exact iff_of_false (by decide) hq
    · rfl
  · rw [if_neg (fun k => by simp at k)]

/-- What a lowered quarter leaves of a thread. -/
theorem State.lowerQuarter_rest (s : State) (t u q : Nat) (off : Bool) :
    (s.lowerQuarter t q off).thread u = { s.thread u with
      quarters := ((s.lowerQuarter t q off).thread u).quarters
      regs := ((s.lowerQuarter t q off).thread u).regs
      wakes := ((s.lowerQuarter t q off).thread u).wakes
      lost := ((s.lowerQuarter t q off).thread u).lost
      lowered := ((s.lowerQuarter t q off).thread u).lowered } := by
  rw [State.thread_lowerQuarter]
  split
  · next h => subst h; split <;> rfl
  · rfl

end Machine
end Sys2Proof
end

