-- ==== Sys2Proof/Laws/Finish.lean ====
section
/-!
SUPPORT. The end of a word's issue: what retirement, the release hint and the fall to the next word do, and what a word of fixed
latency leaves in each lane.
-/

namespace Sys2Proof
namespace Machine

/-! ## Blocks -/

theorem State.modBside_eq (s : State) (b core : Nat) (f : BSide → BSide) :
    s.modBside b core f = { s with blocks := (s.modBside b core f).blocks } := by
  unfold State.modBside
  split <;> rfl

theorem State.block_modBlock (s : State) (b c : Nat) (f : Block → Block) (h : c ≠ b) : (s.modBlock b f).block c = s.block c := by
  simp [State.block, FMap.findD, FMap.find_adjust, h]

theorem State.block_modBlock_self (s : State) (b : Nat) (f : Block → Block) :
    (s.modBlock b f).block b = if (s.blocks.find b).isSome then f (s.block b) else s.block b := by
  simp only [State.block, FMap.findD, State.modBlock, FMap.find_adjust, if_pos]
  cases s.blocks.find b <;> rfl

theorem State.block_modBside (s : State) (b c core : Nat) (f : BSide → BSide) (h : c ≠ b) :
    (s.modBside b core f).block c = s.block c := by
  unfold State.modBside
  split <;> exact s.block_modBlock _ _ _ h

/-- A change of a block's side changes nothing else of the block. -/
theorem State.block_modBside_self (s : State) (b core : Nat) (f : BSide → BSide) :
    (s.modBside b core f).block b =
      { s.block b with lead := ((s.modBside b core f).block b).lead, follow := ((s.modBside b core f).block b).follow } := by
  unfold State.modBside
  split <;> rw [State.block_modBlock_self] <;> split <;> rfl

/-! ## Retirement and the release hint -/

theorem State.retire_eq (s : State) (G : Group) (ts : List Nat) :
    s.retire G ts = { s with threads := (s.retire G ts).threads, blocks := (s.retire G ts).blocks } := by
  unfold State.retire
  dsimp only
  split
  · rw [State.modBside_eq, State.modThreads_eq]
  · rw [State.modThreads_eq]

/-- Retirement counts a word in each thread that has not counted it before a save (R148). -/
theorem State.thread_retire (s : State) (G : Group) (ts : List Nat) (u : Nat) (h : u ∈ ts) (hn : ts.Nodup) :
    (s.retire G ts).thread u = { s.thread u with
      rcnt := if (s.thread u).again then (s.thread u).rcnt else (s.thread u).rcnt + 1, again := false } := by
  unfold State.retire
  dsimp only
  split
  · rw [State.modBside_eq]
    exact s.thread_modThreads ts u _ h hn
  · exact s.thread_modThreads ts u _ h hn

theorem State.thread_retire_out (s : State) (G : Group) (ts : List Nat) (u : Nat) (h : u ∉ ts) :
    (s.retire G ts).thread u = s.thread u := by
  unfold State.retire
  dsimp only
  split
  · rw [State.modBside_eq]
    exact s.thread_modThreads_out ts u _ h
  · exact s.thread_modThreads_out ts u _ h

theorem State.block_retire (s : State) (G : Group) (ts : List Nat) (b : Nat) (h : b ≠ G.block) :
    (s.retire G ts).block b = s.block b := by
  have e : (s.modThreads ts fun T => { T with rcnt := if T.again then T.rcnt else T.rcnt + 1, again := false }).block b =
      s.block b := by rw [State.modThreads_eq]; rfl
  unfold State.retire
  dsimp only
  split
  · rw [State.block_modBside _ _ _ _ _ h, e]
  · exact e

theorem State.block_retire_self (s : State) (G : Group) (ts : List Nat) :
    (s.retire G ts).block G.block = { s.block G.block with
      lead := { (s.block G.block).lead with retired := ((s.retire G ts).block G.block).lead.retired }
      follow := { (s.block G.block).follow with retired := ((s.retire G ts).block G.block).follow.retired } } := by
  have e : (s.modThreads ts fun T => { T with rcnt := if T.again then T.rcnt else T.rcnt + 1, again := false }).block G.block =
      s.block G.block := by rw [State.modThreads_eq]; rfl
  unfold State.retire
  dsimp only
  split
  · unfold State.modBside
    split <;> rw [State.block_modBlock_self, e] <;> split <;> rfl
  · rw [e]

theorem State.applyHint_eq (s : State) (h : Hdr) (ts : List Nat) :
    s.applyHint h ts = { s with threads := (s.applyHint h ts).threads } := by
  unfold State.applyHint
  split
  · rfl
  · next q _ =>
    induction ts generalizing s with
    | nil => rfl
    | cons t r ih => rw [List.foldl_cons, ih, State.lowerQuarter_eq]

theorem State.thread_applyHint_out (s : State) (h : Hdr) (ts : List Nat) (u : Nat) (hu : u ∉ ts) :
    (s.applyHint h ts).thread u = s.thread u := by
  unfold State.applyHint
  split
  · rfl
  · next q _ =>
    induction ts generalizing s with
    | nil => rfl
    | cons t r ih =>
      simp only [List.mem_cons, not_or] at hu
      rw [List.foldl_cons, ih _ hu.2, State.thread_lowerQuarter, if_neg hu.1]

theorem State.rowState_congr (s r : State) (u q : Nat) (h : r.thread u = s.thread u)
    (he : r = { s with threads := r.threads }) : r.rowState u q = s.rowState u q := by
  have hq : ∀ n, r.quarterHeld u q n = s.quarterHeld u q n := fun n => by rw [he]; rfl
  unfold State.rowState
  simp only [h, hq]

theorem State.thread_lowerQuarter_congr (s r : State) (u q : Nat) (off : Bool) (h : r.thread u = s.thread u)
    (hn : r.nextId = s.nextId) (hr : r.rowState u q = s.rowState u q) :
    (r.lowerQuarter u q off).thread u = (s.lowerQuarter u q off).thread u := by
  rw [State.thread_lowerQuarter, State.thread_lowerQuarter, if_pos rfl, if_pos rfl, h, hn, hr]

/-- The release hint of a word lowers one quarter of a thread, and no register reads anything else but where the quarter goes OFF
(R42, R136). -/
theorem State.thread_applyHint (s : State) (h : Hdr) (ts : List Nat) (u : Nat) (hu : u ∈ ts) (hn : ts.Nodup) :
    (s.applyHint h ts).thread u = { s.thread u with
      quarters := ((s.applyHint h ts).thread u).quarters, regs := ((s.applyHint h ts).thread u).regs
      wakes := ((s.applyHint h ts).thread u).wakes, lost := ((s.applyHint h ts).thread u).lost
      lowered := ((s.applyHint h ts).thread u).lowered } ∧
    ∀ n, ((s.applyHint h ts).thread u).reg n = if hintOff h (quarterOf n) then 0 else (s.thread u).reg n := by
  cases hh : h.hint with
  | none => simp [State.applyHint, hintOff, hh]
  | some q =>
    have main : (s.applyHint h ts).thread u = (s.lowerQuarter u q.quarter.val q.off).thread u := by
      simp only [State.applyHint, hh]
      induction ts generalizing s with
      | nil => simp at hu
      | cons t r ih =>
        rw [List.nodup_cons] at hn
        rw [List.foldl_cons]
        by_cases e : u ∈ r
        · have ne : u ≠ t := fun k => hn.1 (by rw [← k]; exact e)
          rw [ih _ e hn.2]
          have same : (s.lowerQuarter t q.quarter.val q.off).thread u = s.thread u := by
            rw [State.thread_lowerQuarter, if_neg ne]
          exact State.thread_lowerQuarter_congr _ _ _ _ _ same (by rw [State.lowerQuarter_eq]) (s.rowState_congr _ _ _ same (s.lowerQuarter_eq _ _ _))
        · have ht : u = t := by simpa [e] using hu
          subst ht
          have := State.thread_applyHint_out (s.lowerQuarter u q.quarter.val q.off) h r u e
          simpa only [State.applyHint, hh] using this
    rw [main]
    refine ⟨s.lowerQuarter_rest u u _ _, fun n => ?_⟩
    rw [State.reg_lowerQuarter]
    simp only [hintOff, hh, Bool.and_eq_true, beq_iff_eq]
    by_cases e : quarterOf n = q.quarter.val
    · simp [e]
    · have : ¬ q.quarter.val = quarterOf n := fun k => e k.symm
      simp [e, this]

/-! ## The fall to the next word -/

theorem classes_const (l : List Nat) (p : Nat) (h : l ≠ []) : classes (l.map fun t => (t, p)) = [(p, l)] := by
  have pcs : (l.map fun t => (t, p)).foldl (fun (a : List Nat) (m : Nat × Nat) => if a.contains m.2 then a else a ++ [m.2]) [] =
      [p] := by
    cases l with
    | nil => exact absurd rfl h
    | cons a r =>
      simp only [List.map_cons, List.foldl_cons]
      have : ∀ r : List Nat, (r.map fun t => (t, p)).foldl
          (fun (a : List Nat) (m : Nat × Nat) => if a.contains m.2 then a else a ++ [m.2]) [p] = [p] := by
        intro r
        induction r with
        | nil => rfl
        | cons b r ih => simpa using ih
      simpa using this r
  unfold classes
  rw [pcs]
  simp [List.filter_map, Function.comp_def]

theorem State.modSeqr_thread (s : State) (q u : Nat) (f : Seqr → Seqr) : (s.modSeqr q f).thread u = s.thread u := rfl

/-- An issue counts for the sequencer of its group. -/
theorem State.noteIssue_seqs (s : State) (G : Group) (clk : Nat) (gr : List (Nat × Nat)) :
    (s.noteIssue G clk gr).seqs = s.seqs.put G.seq (s.issuedSeqr (s.noteIssue G clk gr) G clk) := by
  unfold State.issuedSeqr
  rw [show (s.noteIssue G clk gr).seqr G.seq = _ from FMap.findD_put s.seqs G.seq G.seq _ Seqr.init, if_pos rfl]
  rfl

/-- A word that meets no cause and sends every lane to one program counter ends so (R36, R42, R148). -/
theorem Env.finish_went (E : Env) (s : State) (pc : Nat) (hl : E.G.lanes ≠ []) (hn : E.G.lanes.Nodup) (ho : E.occ = E.G.lanes)
    (hc : E.causes = []) : s.Went (E.finish s [] (E.G.lanes.map fun t => (t, pc))) E.g E.G E.h E.clk pc := by
  have hm : (E.G.lanes.map fun t => (t, pc)).map Prod.fst = E.G.lanes := by simp [Function.comp_def]
  have eq : E.finish s [] (E.G.lanes.map fun t => (t, pc)) =
      { (((s.noteIssue E.G E.clk (s.gatherOf E.G.core E.G.quarter E.i)).retire E.G E.G.lanes).applyHint E.h E.G.lanes).setGroup E.g (E.G.wentTo E.h E.clk pc) with
        freeCtr := s.freeCtr + 1 } := by
    unfold Env.finish
    simp only [hc, List.append_nil, List.any_nil, List.filter_false, List.contains_nil, Bool.not_false, List.filter_true, hm,
      List.find?_nil, List.filterMap_none, State.finish, List.isEmpty_nil, if_true, State.regroup, classes_const _ _ hl, ho]
    simp [Group.wentTo]
  rw [eq]
  set s2 := s.noteIssue E.G E.clk (s.gatherOf E.G.core E.G.quarter E.i) with hs2
  set s3 := s2.retire E.G E.G.lanes with hs3
  set s4 := s3.applyHint E.h E.G.lanes with hs4
  have rest4 : s4 = { s with threads := s4.threads, blocks := s4.blocks, seqs := s2.seqs } := by
    rw [hs4, State.applyHint_eq, hs3, State.retire_eq, hs2]
    simp [State.noteIssue, State.modSeqr]
  have blk4 : ∀ b, s4.block b = s3.block b := by intro b; rw [hs4, State.applyHint_eq]; rfl
  refine ⟨?_, ?_, ?_, ?_, ?_, ?_⟩
  · show { s4.setGroup E.g (E.G.wentTo E.h E.clk pc) with freeCtr := s.freeCtr + 1 } = _
    rw [rest4]
    exact congrArg (fun q => { s with
        threads := s4.threads, blocks := s4.blocks, seqs := q, groups := s.groups.put E.g (E.G.wentTo E.h E.clk pc)
        freeCtr := s.freeCtr + 1 }) (s.noteIssue_seqs E.G E.clk (s.gatherOf E.G.core E.G.quarter E.i))
  · intro b hb
    show s4.block b = _
    rw [blk4, hs3, State.block_retire _ _ _ _ hb]
    rfl
  · have k : s4.block E.G.block = s3.block E.G.block := blk4 _
    show s4.block E.G.block = { s.block E.G.block with
      lead := { (s.block E.G.block).lead with retired := (s4.block E.G.block).lead.retired }
      follow := { (s.block E.G.block).follow with retired := (s4.block E.G.block).follow.retired } }
    rw [k]
    exact State.block_retire_self s2 E.G E.G.lanes
  · intro u hu
    show s4.thread u = _
    rw [hs4, State.thread_applyHint_out _ _ _ _ hu, hs3, State.thread_retire_out _ _ _ _ hu]
    rfl
  · intro u hu
    show s4.thread u = { s.thread u with
      regs := (s4.thread u).regs, quarters := (s4.thread u).quarters, wakes := (s4.thread u).wakes, lost := (s4.thread u).lost
      lowered := (s4.thread u).lowered
      rcnt := if (s.thread u).again then (s.thread u).rcnt else (s.thread u).rcnt + 1, again := false }
    have a := (State.thread_applyHint s3 E.h E.G.lanes u hu hn).1
    have b := State.thread_retire s2 E.G E.G.lanes u hu hn
    rw [← hs4] at a
    rw [← hs3] at b
    rw [a, b]
    rfl
  · intro u hu n
    show (s4.thread u).reg n = _
    rw [hs4, (State.thread_applyHint s3 E.h E.G.lanes u hu hn).2 n, hs3, State.thread_retire s2 E.G E.G.lanes u hu hn]
    rfl

/-- The end of a word that falls through, for the environment of a word that issues with nothing in its way. -/
theorem State.Issues.fall {s : State} {g : Nat} {G : Group} {i : Instr} (H : s.Issues g G i) (r : State) :
    r.Went ((s.issueEnv g G i).finish r [] (s.issueEnv g G i).fall) g G i.hdr (s.issueClk G i) (G.pc + 8) :=
  (s.issueEnv g G i).finish_went r (G.pc + 8) H.lanes H.apart rfl rfl

/-- The end of a word that sends its lanes to a program counter. -/
theorem State.Issues.to {s : State} {g : Nat} {G : Group} {i : Instr} (H : s.Issues g G i) (r : State) (pc : Nat) :
    r.Went ((s.issueEnv g G i).finish r [] (G.lanes.map fun t => (t, pc))) g G i.hdr (s.issueClk G i) pc :=
  (s.issueEnv g G i).finish_went r pc H.lanes H.apart rfl rfl

end Machine
end Sys2Proof
end

