-- ==== Sys2Proof/Laws/Fixed.lean ====
section
/-!
SUPPORT. What a word of fixed latency leaves: the one lemma about `State.alu` (R8, R35, R38).
-/

namespace Sys2Proof
namespace Machine

/-! ## One thread -/

theorem Thread.reg_setReg (T : Thread) (n k : Nat) (x : Word) (h : T.quarter (quarterOf n) ≠ .off) :
    (T.setReg n x).reg k = if k = n then x else T.reg k := by
  by_cases e : k = n
  · subst e
    rw [if_pos rfl]
    have on : (T.setReg k x).reg k = (T.setReg k x).regs.findD k 0 := Thread.reg_on _ k h
    rw [on]
    exact (FMap.findD_store 0 _ _ _ _).trans (if_pos rfl)
  · rw [if_neg e]
    exact Thread.reg_congr _ _ k Iff.rfl fun _ => (FMap.findD_store 0 _ _ _ _).trans (if_neg e)

theorem bitOf_testBit (x n : Nat) : bitOf x n = x.testBit n := by
  simp [bitOf, bitsOf, Nat.testBit_eq_decide_div_mod_eq, Bool.beq_eq_decide_eq]

theorem Thread.pred_setPred (T : Thread) (k j : Nat) (b : Bool) (hk : k < 7) :
    (T.setPred k b).pred j = if j = k then b else T.pred j := by
  have h7 : k ≠ 7 := by omega
  have key : ∀ x : BitVec 8, bitOf (x ||| BitVec.ofNat 8 (2 ^ k)).toNat j = (bitOf x.toNat j || decide (j = k)) ∧
      bitOf (x &&& ~~~ BitVec.ofNat 8 (2 ^ k)).toNat j = (bitOf x.toNat j && !decide (j = k)) := by
    intro x
    simp only [bitOf_testBit, BitVec.testBit_toNat, BitVec.getLsbD_or, BitVec.getLsbD_and, BitVec.getLsbD_not,
      BitVec.getLsbD_ofNat, Nat.testBit_two_pow]
    by_cases e : j = k
    · subst e
      have : j < 8 := by omega
      simp [this]
    · have e2 : ¬ k = j := fun h => e h.symm
      by_cases hj : j < 8
      · simp [e, e2, hj]
      · have : x.getLsbD j = false := BitVec.getLsbD_of_ge _ _ (by omega)
        simp [e, e2, hj, this]
  unfold Thread.setPred Thread.pred
  rw [if_neg h7]
  have k7 : (k == 7) = false := beq_eq_false_iff_ne.mpr h7
  cases b <;> simp only [Bool.false_eq_true, if_false, if_true, key] <;> by_cases e : j = k <;> simp [e, k7]

/-- The value that a write leaves in its target. -/
def LaneWrite.val : LaneWrite → Word
  | .reg _ x => x
  | .pred _ b => if b then 1 else 0
  | .push _ _ => 0

/-- A write of fixed latency changes registers, predicates and the record of outstanding writes of its thread. -/
theorem Thread.writeFixed_rest (r : Nat) (T : Thread) (w : LaneWrite) :
    Thread.writeFixed r T w = { T with
      regs := (Thread.writeFixed r T w).regs, preds := (Thread.writeFixed r T w).preds
      fixed := (Thread.writeFixed r T w).fixed } := by
  cases w with
  | reg n x => rfl
  | pred k b =>
    by_cases h : k = 7
    · subst h; rfl
    · simp only [Thread.writeFixed, LaneWrite.dest, if_neg h, Thread.write, Thread.setPred]
  | push q x => rfl

theorem Thread.writes_rest (r : Nat) (T : Thread) (ws : List LaneWrite) :
    ws.foldl (Thread.writeFixed r) T = { T with
      regs := (ws.foldl (Thread.writeFixed r) T).regs, preds := (ws.foldl (Thread.writeFixed r) T).preds
      fixed := (ws.foldl (Thread.writeFixed r) T).fixed } := by
  induction ws generalizing T with
  | nil => rfl
  | cons w l ih => rw [List.foldl_cons, ih, Thread.writeFixed_rest]

theorem Thread.quarter_writes (r : Nat) (T : Thread) (ws : List LaneWrite) (q : Nat) :
    (ws.foldl (Thread.writeFixed r) T).quarter q = T.quarter q := by
  rw [Thread.writes_rest]; rfl

theorem Thread.reg_writeFixed (r : Nat) (T : Thread) (w : LaneWrite) (k : Nat)
    (h : ∀ n x, w = .reg n x → T.quarter (quarterOf n) ≠ .off) :
    (Thread.writeFixed r T w).reg k = match w with
      | .reg n x => if k = n then x else T.reg k
      | _ => T.reg k := by
  cases w with
  | reg n x => exact Thread.reg_setReg T n k x (h n x rfl)
  | pred j b =>
    refine Thread.reg_congr _ _ k ?_ fun _ => ?_ <;> rw [Thread.writeFixed_rest]
    · rfl
    · by_cases h : j = 7
      · subst h; rfl
      · simp only [Thread.writeFixed, LaneWrite.dest, if_neg h, Thread.write, Thread.setPred]
  | push q x => rfl

theorem Thread.pred_writeFixed (r : Nat) (T : Thread) (w : LaneWrite) (k : Nat) (h : ∀ j b, w = .pred j b → j ≤ 7) :
    (Thread.writeFixed r T w).pred k = match w with
      | .pred j b => if k = j ∧ j < 7 then b else T.pred k
      | _ => T.pred k := by
  cases w with
  | reg n x => rfl
  | pred j b =>
    have hj := h j b rfl
    by_cases e : j = 7
    · subst e; simp [Thread.writeFixed, LaneWrite.dest]
    · have lt : j < 7 := by omega
      have : (Thread.writeFixed r T (.pred j b)).pred k = (T.setPred j b).pred k := by
        simp only [Thread.writeFixed, LaneWrite.dest, if_neg e, Thread.write]; rfl
      rw [this, Thread.pred_setPred _ _ _ _ lt]
      simp [lt]
  | push q x => rfl

/-- A register or predicate that a list of writes does not name keeps its value. -/
theorem Thread.reg_writes_out (r : Nat) (T : Thread) (ws : List LaneWrite) (k : Nat) (h : ∀ x, LaneWrite.reg k x ∉ ws)
    (hq : ∀ n x, LaneWrite.reg n x ∈ ws → T.quarter (quarterOf n) ≠ .off) :
    (ws.foldl (Thread.writeFixed r) T).reg k = T.reg k := by
  induction ws generalizing T with
  | nil => rfl
  | cons w l ih =>
    have qs : ∀ q, (Thread.writeFixed r T w).quarter q = T.quarter q := fun q => Thread.quarter_writes r T [w] q
    rw [List.foldl_cons, ih _ (fun x hx => h x (by simp [hx])) (fun n x hx => by rw [qs]; exact hq n x (by simp [hx])),
      Thread.reg_writeFixed _ _ _ _ fun n x e => hq n x (by simp [e])]
    cases w with
    | reg n x => exact if_neg fun e => h x (by simp [e])
    | _ => rfl

theorem Thread.pred_writes_out (r : Nat) (T : Thread) (ws : List LaneWrite) (k : Nat) (h : ∀ b, LaneWrite.pred k b ∉ ws)
    (hq : ∀ j b, LaneWrite.pred j b ∈ ws → j ≤ 7) : (ws.foldl (Thread.writeFixed r) T).pred k = T.pred k := by
  induction ws generalizing T with
  | nil => rfl
  | cons w l ih =>
    rw [List.foldl_cons, ih _ (fun x hx => h x (by simp [hx])) (fun j b hx => hq j b (by simp [hx])),
      Thread.pred_writeFixed _ _ _ _ fun j b e => hq j b (by simp [e])]
    cases w with
    | pred n x => exact if_neg fun e => h x (by simp [e.1])
    | _ => rfl

theorem Thread.fixed_writes (r : Nat) (T : Thread) (ws : List LaneWrite) (x : FixedWrite) (h : x ∈ T.fixed) :
    x ∈ (ws.foldl (Thread.writeFixed r) T).fixed := by
  induction ws generalizing T with
  | nil => exact h
  | cons w l ih =>
    refine ih _ ?_
    unfold Thread.writeFixed
    split
    · exact h
    · simp [h]

/-- Each write of a list whose targets differ stands in its target, and is on record until it is readable. -/
theorem Thread.writes_in (r : Nat) (T : Thread) (ws : List LaneWrite) (hd : (ws.filterMap LaneWrite.dest).Nodup)
    (hq : ∀ n x, LaneWrite.reg n x ∈ ws → T.quarter (quarterOf n) ≠ .off) (hp : ∀ j b, LaneWrite.pred j b ∈ ws → j ≤ 7)
    (w : LaneWrite) (hw : w ∈ ws) :
    (∀ n x, w = .reg n x → (ws.foldl (Thread.writeFixed r) T).reg n = x) ∧
    (∀ k b, w = .pred k b → k < 7 → (ws.foldl (Thread.writeFixed r) T).pred k = b) ∧
    ∀ d, w.dest = some d → ∃ e ∈ (ws.foldl (Thread.writeFixed r) T).fixed, e.dest = d ∧ e.ready = r := by
  induction ws generalizing T with
  | nil => simp at hw
  | cons v l ih =>
    have qs : ∀ q, (Thread.writeFixed r T v).quarter q = T.quarter q := fun q => Thread.quarter_writes r T [v] q
    have hl : (l.filterMap LaneWrite.dest).Nodup := by
      rw [List.filterMap_cons] at hd
      split at hd
      · exact hd
      · exact (List.nodup_cons.mp hd).2
    have hq' : ∀ n x, LaneWrite.reg n x ∈ l → (Thread.writeFixed r T v).quarter (quarterOf n) ≠ .off :=
      fun n x hx => by rw [qs]; exact hq n x (by simp [hx])
    have hp' : ∀ j b, LaneWrite.pred j b ∈ l → j ≤ 7 := fun j b hx => hp j b (by simp [hx])
    rw [List.foldl_cons]
    rcases List.mem_cons.mp hw with e | hm
    · subst e
      have fresh : ∀ d, w.dest = some d → ∀ u ∈ l, u.dest ≠ some d := by
        intro d hwd u hu hud
        rw [List.filterMap_cons, hwd] at hd
        exact (List.nodup_cons.mp hd).1 (List.mem_filterMap.mpr ⟨u, hu, hud⟩)
      refine ⟨fun n x e => ?_, fun k b e hk => ?_, fun d hwd => ?_⟩
      · subst e
        rw [Thread.reg_writes_out _ _ _ _ (fun y hy => fresh (.reg n) rfl _ hy rfl) hq',
          Thread.reg_writeFixed _ _ _ _ fun m y e => hq m y (by simp [e])]
        exact if_pos rfl
      · subst e
        have dk : (LaneWrite.pred k b).dest = some (.pred k) := if_neg (by omega)
        rw [Thread.pred_writes_out _ _ _ _ (fun y hy => fresh (.pred k) dk _ hy (if_neg (by omega))) hp',
          Thread.pred_writeFixed _ _ _ _ fun m y e => hp m y (by simp [e])]
        exact if_pos ⟨rfl, hk⟩
      · refine ⟨⟨d, r, T.oldOf d⟩, Thread.fixed_writes _ _ _ _ ?_, rfl, rfl⟩
        simp [Thread.writeFixed, hwd]
    · exact ih _ hl hq' hp' hm

/-! ## The state -/

/-- The record of outstanding writes of a thread without those that are readable by a cycle. -/
def Thread.settledAt (T : Thread) (clk : Nat) : Thread := { T with fixed := T.fixed.filter fun w => decide (clk < w.ready) }

theorem State.writeFixed_eq (s : State) (clk lat : Nat) (outs : List (Nat × List LaneWrite)) :
    s.writeFixed clk lat outs = { s with threads := (s.writeFixed clk lat outs).threads } := by
  unfold State.writeFixed
  induction outs generalizing s with
  | nil => rfl
  | cons o l ih => rw [List.foldl_cons, ih]; rfl

theorem State.thread_writeFixed_out (s : State) (clk lat : Nat) (outs : List (Nat × List LaneWrite)) (u : Nat)
    (h : ∀ o ∈ outs, o.1 ≠ u) : (s.writeFixed clk lat outs).thread u = s.thread u := by
  unfold State.writeFixed
  induction outs generalizing s with
  | nil => rfl
  | cons o l ih =>
    rw [List.foldl_cons, ih _ fun p hp => h p (by simp [hp])]
    rw [State.thread_modThread, if_neg fun e => h o (by simp) e.symm]

theorem State.thread_writeFixed (s : State) (clk lat : Nat) (outs : List (Nat × List LaneWrite)) (o : Nat × List LaneWrite)
    (ho : o ∈ outs) (hn : (outs.map Prod.fst).Nodup) :
    (s.writeFixed clk lat outs).thread o.1 = o.2.foldl (Thread.writeFixed (clk + lat)) ((s.thread o.1).settledAt clk) := by
  induction outs generalizing s with
  | nil => simp at ho
  | cons p l ih =>
    rw [List.map_cons, List.nodup_cons] at hn
    have step : s.writeFixed clk lat (p :: l) = (s.writeFixed clk lat [p]).writeFixed clk lat l := rfl
    have one : ∀ u, (s.writeFixed clk lat [p]).thread u =
        if u = p.1 then p.2.foldl (Thread.writeFixed (clk + lat)) ((s.thread u).settledAt clk) else s.thread u := by
      intro u
      unfold State.writeFixed
      simp only [List.foldl_cons, List.foldl_nil]
      rw [State.thread_modThread]
      rfl
    rw [step]
    rcases List.mem_cons.mp ho with e | hm
    · subst e
      rw [State.thread_writeFixed_out _ _ _ _ _ fun q hq e => hn.1 (List.mem_map.mpr ⟨q, hq, e⟩), one, if_pos rfl]
    · rw [ih _ hm hn.2, one, if_neg fun e => hn.1 (List.mem_map.mpr ⟨o, hm, e⟩)]

theorem State.OnlySides.refl (b : Nat) (s : State) : State.OnlySides b s s := ⟨rfl, fun _ _ => rfl, rfl⟩

theorem State.OnlySides.trans {b : Nat} {s t u : State} (h : State.OnlySides b s t) (k : State.OnlySides b t u) :
    State.OnlySides b s u := by
  refine ⟨?_, fun c hc => (k.blocks c hc).trans (h.blocks c hc), ?_⟩
  · rw [k.rest, h.rest]
  · rw [k.block, h.block]

theorem State.onlySides_modBside (s : State) (b core : Nat) (f : BSide → BSide) : State.OnlySides b s (s.modBside b core f) :=
  ⟨s.modBside_eq _ _ _, fun _ hc => s.block_modBside _ _ _ _ hc, s.block_modBside_self _ _ _⟩

theorem State.onlySides_popQueues (s : State) (E : Env) : State.OnlySides E.G.block s (s.popQueues E) := by
  unfold State.popQueues
  split
  · exact .refl _ _
  · exact s.onlySides_modBside _ _ _

theorem State.onlySides_pushAll (s : State) (E : Env) (outs : List (Nat × List LaneWrite)) :
    State.OnlySides E.G.block s (s.pushAll E outs) := by
  unfold State.pushAll
  refine foldl_keeps (State.OnlySides E.G.block s) _ (fun a o ha => ?_) outs s (.refl _ _)
  refine foldl_keeps (State.OnlySides E.G.block s) _ (fun a w ha => ?_) o.2 a ha
  cases w with
  | push q x => exact ha.trans (a.onlySides_modBside _ _ _)
  | _ => exact ha

theorem State.OnlySides.thread {b : Nat} {s t : State} (h : State.OnlySides b s t) (u : Nat) : t.thread u = s.thread u := by
  rw [h.rest]; rfl

/-- Writes that push nothing. -/
theorem State.pushAll_none (s : State) (E : Env) (outs : List (Nat × List LaneWrite))
    (h : ∀ o ∈ outs, ∀ q x, LaneWrite.push q x ∉ o.2) : s.pushAll E outs = s := by
  unfold State.pushAll
  refine foldl_id _ _ _ fun o ho => foldl_id _ _ _ fun w hw => ?_
  cases w with
  | push q x => exact absurd hw (h o ho q x)
  | _ => rfl

/-! ## Queue registers -/

theorem State.bside_modBside (s : State) (b core : Nat) (f : BSide → BSide) (h : (s.blocks.find b).isSome) :
    (s.modBside b core f).bside b core = f (s.bside b core) := by
  have side : (s.modBside b core f).sideOf b core = s.sideOf b core := by
    unfold State.sideOf
    rw [s.block_modBside_self]
  unfold State.bside
  rw [side]
  unfold State.modBside
  split <;> rw [State.block_modBlock_self, if_pos h]

theorem State.there_modBside (s : State) (b core : Nat) (f : BSide → BSide) :
    ((s.modBside b core f).blocks.find b).isSome = (s.blocks.find b).isSome := by
  unfold State.modBside State.modBlock
  split <;> simp only [FMap.find_adjust, if_pos] <;> cases s.blocks.find b <;> rfl

/-- The queue registers of a side, popped. -/
theorem popped_getD (qs : List Nat) (m k : Nat) (l : List QReg) (hn : qs.Nodup) (hk : k < l.length) :
    (qs.foldl (fun l q => listSet l q { l.getD q QReg.init with entries := (l.getD q QReg.init).entries.drop m }) l).getD k QReg.init =
      if k ∈ qs then { l.getD k QReg.init with entries := (l.getD k QReg.init).entries.drop m } else l.getD k QReg.init := by
  induction qs generalizing l with
  | nil => simp
  | cons q r ih =>
    rw [List.nodup_cons] at hn
    rw [List.foldl_cons, ih _ hn.2 (by rw [listSet_length]; exact hk)]
    by_cases hq : q < l.length
    · rw [listSet_getD _ _ _ _ _ hq]
      by_cases e : k = q
      · subst e; simp [hn.1]
      · simp [e]
    · have ne : k ≠ q := by omega
      rw [listSet_out _ _ _ hq]
      simp [ne]

/-- The queue registers that a word reads lose one entry for each active lane. -/
theorem State.queue_popQueues (s : State) (E : Env) (k : Nat) (hb : (s.blocks.find E.G.block).isSome) (hn : (qReadsOf E.i).Nodup)
    (hk : k < (s.bside E.G.block E.G.core).queues.length) :
    ((s.popQueues E).bside E.G.block E.G.core).queues.getD k QReg.init =
      ((s.bside E.G.block E.G.core).queues.getD k QReg.init).after ((qReadsOf E.i).contains k) E.act.length [] := by
  unfold State.popQueues
  split
  · next e => simp [QReg.after, e]
  · next qs e =>
    rw [State.bside_modBside _ _ _ _ hb]
    dsimp only
    rw [popped_getD _ _ _ _ hn hk]
    simp only [QReg.after, List.contains_eq_mem, decide_eq_true_eq]
    split <;> simp

theorem QReg.after_after (Q : QReg) (rd : Bool) (m : Nat) (x y : List DWord) :
    (Q.after rd m x).after false 0 y = Q.after rd m (x ++ y) := by
  simp [QReg.after, List.drop_append, Nat.sub_sub]

theorem QReg.after_nil (Q : QReg) : Q.after false 0 [] = Q := by simp [QReg.after]

theorem QReg.push_after (Q : QReg) (x : DWord) : Q.push x = Q.after false 0 [x] := by
  unfold QReg.push QReg.after
  split
  · next h => simp [h]
  · next h => simp [List.drop_eq_nil_of_le (show [x].length ≤ Q.owed by simp; omega)]

theorem QReg.pushes_after (Q : QReg) (xs : List DWord) : xs.foldl QReg.push Q = Q.after false 0 xs := by
  induction xs generalizing Q with
  | nil => exact Q.after_nil.symm
  | cons x r ih => rw [List.foldl_cons, ih, QReg.push_after, QReg.after_after]; rfl

theorem State.queue_pushQueue (s : State) (b core q k : Nat) (xs : List DWord) (hb : (s.blocks.find b).isSome)
    (hk : k < (s.bside b core).queues.length) :
    ((s.pushQueue b core q xs).bside b core).queues.getD k QReg.init =
      ((s.bside b core).queues.getD k QReg.init).after false 0 (if q = k then xs else []) ∧
    k < ((s.pushQueue b core q xs).bside b core).queues.length := by
  unfold State.pushQueue
  rw [State.bside_modBside _ _ _ _ hb]
  dsimp only
  refine ⟨?_, by rw [listSet_length]; exact hk⟩
  rw [QReg.pushes_after]
  by_cases e : q = k
  · subst e
    rw [listSet_getD _ _ _ _ _ hk, if_pos rfl, if_pos rfl]
  · rw [if_neg e, QReg.after_nil]
    by_cases hq : q < (s.bside b core).queues.length
    · rw [listSet_getD _ _ _ _ _ hq, if_neg fun h => e h.symm]
    · rw [listSet_out _ _ _ hq]

theorem pushesTo_cons (q : Nat) (ws : List LaneWrite) (l : List (List LaneWrite)) :
    pushesTo q (ws :: l) = pushesTo q [ws] ++ pushesTo q l := by simp [pushesTo]

/-- What a word's lanes push is appended in the order of the lanes. -/
theorem State.queue_pushAll (s : State) (E : Env) (outs : List (Nat × List LaneWrite)) (k : Nat)
    (hb : (s.blocks.find E.G.block).isSome) (hk : k < (s.bside E.G.block E.G.core).queues.length) :
    ((s.pushAll E outs).bside E.G.block E.G.core).queues.getD k QReg.init =
      ((s.bside E.G.block E.G.core).queues.getD k QReg.init).after false 0
        (pushesTo k (outs.map Prod.snd)) := by
  suffices h : ∀ (new : List DWord) (a : State),
      (a.blocks.find E.G.block).isSome → k < (a.bside E.G.block E.G.core).queues.length →
      (a.bside E.G.block E.G.core).queues.getD k QReg.init =
        ((s.bside E.G.block E.G.core).queues.getD k QReg.init).after false 0 new →
      ((a.pushAll E outs).bside E.G.block E.G.core).queues.getD k QReg.init =
        ((s.bside E.G.block E.G.core).queues.getD k QReg.init).after false 0
          (new ++ pushesTo k (outs.map Prod.snd)) by
    simpa using h [] s hb hk (by simp [QReg.after])
  induction outs with
  | nil => intro new a _ _ e; simpa [State.pushAll, pushesTo] using e
  | cons o l ih =>
    intro new a there len e
    have inner : ∀ (ws : List LaneWrite) (new : List DWord) (a : State),
        (a.blocks.find E.G.block).isSome → k < (a.bside E.G.block E.G.core).queues.length →
        (a.bside E.G.block E.G.core).queues.getD k QReg.init =
          ((s.bside E.G.block E.G.core).queues.getD k QReg.init).after false 0 new →
        let c := a.pushAll E [(o.1, ws)]
        (c.blocks.find E.G.block).isSome ∧ k < (c.bside E.G.block E.G.core).queues.length ∧
        (c.bside E.G.block E.G.core).queues.getD k QReg.init =
          ((s.bside E.G.block E.G.core).queues.getD k QReg.init).after false 0
            (new ++ pushesTo k [ws]) := by
      intro ws
      induction ws with
      | nil => intro new a there len e; simpa [State.pushAll, pushesTo] using ⟨there, len, e⟩
      | cons w r iw =>
        intro new a there len e
        cases w with
        | push q x =>
          have p := a.queue_pushQueue E.G.block E.G.core q k [x] there len
          have := iw (new ++ if q = k then [x] else []) (a.pushQueue E.G.block E.G.core q [x])
            ((a.there_modBside _ _ _).trans there) p.2
            (by rw [p.1, e, QReg.after_after])
          have pt : pushesTo k [LaneWrite.push q x :: r] = (if q = k then [x] else []) ++ pushesTo k [r] := by
            by_cases h : q = k
            · simp [pushesTo, h]
            · simp [pushesTo, h]
          rw [pt, ← List.append_assoc]
          exact this
        | reg n x => exact iw new a there len e
        | pred n x => exact iw new a there len e
    have c := inner o.2 new a there len e
    have := ih _ (a.pushAll E [o]) c.1 c.2.1 c.2.2
    rw [List.map_cons, pushesTo_cons, ← List.append_assoc]
    exact this

/-! ## The word -/

/-- What a word pops and pushes stands in its queue registers. -/
theorem State.queued (s t : State) (G : Group) (i : Instr) (g : Nat) (outs : List (Nat × List LaneWrite)) (u : State)
    (h1 : u.blocks = (s.popQueues (s.issueEnv g G i)).blocks) (h2 : t.blocks = (u.pushAll (s.issueEnv g G i) outs).blocks) :
    s.Queued t G i (outs.map Prod.snd) := by
  intro hb hn q hq
  set E := s.issueEnv g G i with hE
  have bs : ∀ a c : State, a.blocks = c.blocks → ∀ b core, a.bside b core = c.bside b core := by
    intro a c e b core
    unfold State.bside State.sideOf State.block
    rw [e]
  have pop := s.queue_popQueues E q hb hn hq
  have there : ((s.popQueues E).blocks.find G.block).isSome := by
    unfold State.popQueues
    split
    · exact hb
    · exact (s.there_modBside _ _ _).trans hb
  have len : q < ((s.popQueues E).bside G.block G.core).queues.length := by
    unfold State.popQueues
    split
    · exact hq
    · show q < ((s.modBside G.block G.core _).bside G.block G.core).queues.length
      rw [State.bside_modBside _ _ _ _ hb]
      dsimp only
      generalize qReadsOf E.i = qs
      have : ∀ l : List QReg, (qs.foldl (fun l q => listSet l q { l.getD q QReg.init with
          entries := (l.getD q QReg.init).entries.drop E.act.length }) l).length = l.length := by
        induction qs with
        | nil => intro l; rfl
        | cons a r ih => intro l; rw [List.foldl_cons, ih, listSet_length]
      rw [this]; exact hq
  have push := u.queue_pushAll E outs q (by rw [h1]; exact there) (by rw [bs u _ h1]; exact len)
  rw [bs u _ h1] at push
  rw [bs t _ h2]
  refine push.trans ?_
  show (((s.popQueues E).bside E.G.block E.G.core).queues.getD q QReg.init).after _ _ _ = _
  rw [pop, QReg.after_after]
  rfl

/-- The effect of a word of fixed latency in whose active lanes no cause is raised, which writes registers and predicates that it
names, each once. -/
theorem State.alu_fixed (s : State) (i : Instr) (lat : Nat) (f : LV → Option LaneCause × List LaneWrite) (g : Nat) (G : Group)
    (H : s.Issues g G i) (hc : ∀ u ∈ s.actives G i, (f (s.lane G i u)).1 = none)
    (hw : ∀ v n x, LaneWrite.reg n x ∈ (f v).2 → n ∈ writesOf i)
    (hp : ∀ v j b, LaneWrite.pred j b ∈ (f v).2 → j ≤ 7)
    (hq : ∀ v q x, LaneWrite.push q x ∈ (f v).2 → q ∈ qWritesOf i)
    (hd : ∀ v, ((f v).2.filterMap LaneWrite.dest).Nodup) :
    ∃ r, s.Wrote r G i lat (fun v => (f v).2) ∧
      r.Went (s.alu lat f (s.issueEnv g G i)) g G i.hdr (s.issueClk G i) (G.pc + 8) := by
  set E := s.issueEnv g G i with hE
  have hact : ∀ u ∈ s.actives G i, u ∈ G.lanes := fun u hu => List.mem_of_mem_filter hu
  have hnd : (s.actives G i).Nodup := H.apart.filter _
  set good : List (Nat × List LaneWrite) := (s.actives G i).map fun u => (u, (f (s.lane G i u)).2) with hgood
  have lvs : ∀ u, E.lv s u = s.lane G i u := fun _ => rfl
  have hg1 : ((E.act.map fun t => (t, f (E.lv s t))).filterMap fun o => if o.2.1.isNone then some (o.1, o.2.2) else none) =
      good := by
    rw [List.filterMap_map, hgood, ← List.filterMap_eq_map]
    refine List.filterMap_congr fun u hu => ?_
    simp only [Function.comp_apply, lvs, hc u hu, Option.isNone_none, if_true]
  have hb1 : ((E.act.map fun t => (t, f (E.lv s t))).filterMap fun o => o.2.1) = [] := by
    rw [List.filterMap_map, List.filterMap_eq_nil_iff]
    intro u hu
    exact hc u hu
  have hfst : (good.map Prod.fst) = s.actives G i := by simp [hgood, Function.comp_def]
  set r := ((s.popQueues E).writeFixed E.clk lat good).pushAll E good with hr
  have halu : s.alu lat f E = E.finish r [] E.fall := by
    unfold State.alu
    dsimp only
    rw [hg1, hb1]
  rw [halu]
  refine ⟨r, ?_, H.fall r⟩
  have h1 := s.onlySides_popQueues E
  have h2 := ((s.popQueues E).writeFixed E.clk lat good).onlySides_pushAll E good
  have mem : ∀ u ∈ s.actives G i, (u, (f (s.lane G i u)).2) ∈ good := fun u hu => List.mem_map.mpr ⟨u, hu, rfl⟩
  have thOut : ∀ u, u ∉ s.actives G i → r.thread u = s.thread u := by
    intro u hu
    have ne : ∀ o ∈ good, o.1 ≠ u := fun o ho e => hu (by rw [← hfst]; exact List.mem_map.mpr ⟨o, ho, e⟩)
    rw [hr, h2.thread, State.thread_writeFixed_out _ _ _ _ _ ne, h1.thread]
  have thIn : ∀ u ∈ s.actives G i, r.thread u =
      (f (s.lane G i u)).2.foldl (Thread.writeFixed (s.issueClk G i + lat)) ((s.thread u).settledAt (s.issueClk G i)) := by
    intro u hu
    have a := State.thread_writeFixed (s.popQueues E) E.clk lat good _ (mem u hu) (hfst ▸ hnd)
    rw [hr, h2.thread, a, h1.thread]
    rfl
  have on : ∀ u ∈ s.actives G i, ∀ n x, LaneWrite.reg n x ∈ (f (s.lane G i u)).2 →
      ((s.thread u).settledAt (s.issueClk G i)).quarter (quarterOf n) ≠ .off := by
    intro u hu n x hx
    have : (s.thread u).quarter (quarterOf n) = .full := H.banks u (hact u hu) n (List.mem_append_right _ (hw _ n x hx))
    show (s.thread u).quarter (quarterOf n) ≠ .off
    rw [this]; decide
  have wf : ((s.popQueues E).writeFixed E.clk lat good).blocks = (s.popQueues E).blocks := by rw [State.writeFixed_eq]
  refine ⟨?_, ?_, ?_, ?_, thOut, ?_, ?_, ?_, ?_⟩
  · rw [hr, h2.rest, State.writeFixed_eq, h1.rest]
  · have a : State.OnlySides G.block s (s.popQueues E) := h1
    have b : State.OnlySides G.block { (s.popQueues E).writeFixed E.clk lat good with threads := s.threads }
        { r with threads := s.threads } := by
      refine ⟨?_, h2.blocks, h2.block⟩
      rw [hr, h2.rest]
    have c : ({ (s.popQueues E).writeFixed E.clk lat good with threads := s.threads } : State) = s.popQueues E := by
      rw [State.writeFixed_eq, h1.rest]
    rw [c] at b
    exact a.trans b
  · intro q1 q2
    have p1 : s.popQueues E = s := by
      unfold State.popQueues
      have : qReadsOf E.i = [] := q1
      rw [this]
    have p2 : ((s.popQueues E).writeFixed E.clk lat good).pushAll E good = (s.popQueues E).writeFixed E.clk lat good := by
      refine State.pushAll_none _ _ _ fun o ho q x hx => ?_
      obtain ⟨u, _, e⟩ := List.mem_map.mp ho
      rw [← e] at hx
      have := hq _ q x hx
      rw [q2] at this
      simp at this
    rw [hr, p2, wf, p1]
  · have := s.queued r G i g good ((s.popQueues E).writeFixed E.clk lat good) wf (by rw [hr])
    simpa [hgood, Function.comp_def] using this
  · intro u hu
    rw [thIn u hu, Thread.writes_rest]; rfl
  · intro u hu w hw'
    have := Thread.writes_in (s.issueClk G i + lat) ((s.thread u).settledAt (s.issueClk G i)) _ (hd _) (on u hu) (hp _) w hw'
    rw [thIn u hu]
    cases w with
    | reg n x => exact ⟨this.1 n x rfl, this.2.2 _ rfl⟩
    | pred k b => exact fun hk => ⟨this.2.1 k b rfl hk, this.2.2 _ (if_neg (by omega))⟩
    | push q x => exact True.intro
  · intro u hu n hn
    rw [thIn u hu, Thread.reg_writes_out _ _ _ _ hn (on u hu)]
    rfl
  · intro u hu k hk
    rw [thIn u hu, Thread.pred_writes_out _ _ _ _ hk (hp _)]
    rfl

end Machine
end Sys2Proof
end

