-- ==== Sys2Proof/Laws/Tracked.lean ====
section
/-!
SUPPORT. What a word with scoreboard-tracked results leaves: the one lemma about `State.tracked` (R8, R37).
-/

namespace Sys2Proof
namespace Machine

theorem State.popQueues_eq (s : State) (E : Env) : s.popQueues E = { s with blocks := (s.popQueues E).blocks } :=
  (s.onlySides_popQueues E).rest

theorem State.writeTracked_eq (s : State) (E : Env) (lat : Nat) (isLoad : Bool) (outs : List (Nat × List LaneWrite)) :
    s.writeTracked E lat isLoad outs = s.awaiting E.G.block (E.clk + lat) isLoad outs := by
  have e : ((laneResults outs).isEmpty && ([] : List (Nat × QState)).isEmpty) = (laneResults outs).isEmpty := Bool.and_true _
  exact congrArg (fun b : Bool => if b then s else _) e

theorem State.awaiting_blocks (s : State) (b ready : Nat) (isLoad : Bool) (outs : List (Nat × List LaneWrite)) :
    (s.awaiting b ready isLoad outs).blocks = s.blocks := by
  unfold State.awaiting
  split <;> rfl

/-- The sides of a block and a result on its way are independent. -/
theorem State.OnlySides.awaiting {b : Nat} {s t : State} (h : State.OnlySides b s t) (c ready : Nat) (isLoad : Bool)
    (outs : List (Nat × List LaneWrite)) : State.OnlySides b (s.awaiting c ready isLoad outs) (t.awaiting c ready isLoad outs) := by
  have bl : ∀ a : State, (a.awaiting c ready isLoad outs).blocks = a.blocks := fun a => a.awaiting_blocks _ _ _ _
  refine ⟨?_, fun d hd => ?_, ?_⟩
  · rw [bl, h.rest]
    unfold State.awaiting
    split <;> rfl
  · unfold State.block
    rw [bl, bl]
    exact h.blocks d hd
  · unfold State.block
    rw [bl, bl]
    exact h.block

/-- The effect of a word whose results the scoreboard tracks and in whose active lanes no cause is raised. -/
theorem State.tracked_sent (s : State) (i : Instr) (lat : Nat) (f : LV → Option LaneCause × List LaneWrite) (g : Nat) (G : Group)
    (H : s.Issues g G i) (hc : ∀ u ∈ s.actives G i, (f (s.lane G i u)).1 = none)
    (hq : ∀ v q x, LaneWrite.push q x ∈ (f v).2 → q ∈ qWritesOf i) :
    ∃ r, s.Sent r G i lat (fun v => (f v).2) ∧
      r.Went (s.tracked lat f (s.issueEnv g G i)) g G i.hdr (s.issueClk G i) (G.pc + 8) := by
  set E := s.issueEnv g G i with hE
  set good : List (Nat × List LaneWrite) := (s.actives G i).map fun u => (u, (f (s.lane G i u)).2) with hgood
  have lvs : ∀ u, E.lv s u = s.lane G i u := fun _ => rfl
  have hg1 : ((E.act.map fun t => (t, f (E.lv s t))).filterMap fun o => if o.2.1.isNone then some (o.1, o.2.2) else none) =
      good := by
    rw [List.filterMap_map, hgood, ← List.filterMap_eq_map]
    refine List.filterMap_congr fun u hu => ?_
    simp only [Function.comp_apply, lvs, hc u hu, Option.isNone_none, if_true]
  have hb1 : ((E.act.map fun t => (t, f (E.lv s t))).filterMap fun o => o.2.1) = [] := by
    rw [List.filterMap_map, List.filterMap_eq_nil_iff]
    intro u hu
    exact hc u hu
  set r := ((s.popQueues E).writeTracked E lat false good).pushAll E good with hr
  have halu : s.tracked lat f E = E.finish r [] E.fall := by
    unfold State.tracked
    dsimp only
    rw [hg1, hb1]
  rw [halu]
  refine ⟨r, ⟨?_, ?_, ?_⟩, H.fall r⟩
  · rw [hr, State.writeTracked_eq]
    exact ((s.onlySides_popQueues E).awaiting _ _ _ _).trans (State.onlySides_pushAll _ E good)
  · intro q1 q2
    have p1 : s.popQueues E = s := by
      unfold State.popQueues
      have : qReadsOf E.i = [] := q1
      rw [this]
    rw [hr, State.pushAll_none, State.writeTracked_eq, State.awaiting_blocks, p1]
    intro o ho q x hx
    obtain ⟨u, _, e⟩ := List.mem_map.mp ho
    rw [← e] at hx
    have := hq _ q x hx
    rw [q2] at this
    simp at this
  · have := s.queued r G i g good ((s.popQueues E).writeTracked E lat false good)
      (by rw [State.writeTracked_eq, State.awaiting_blocks]) (by rw [hr])
    simpa [hgood, Function.comp_def] using this

end Machine
end Sys2Proof
end

