-- ==== Sys2Proof/Laws/Uses.lean ====
section
/-!
SUPPORT. The operands of each word: one equation of `Instr.uses` per word, so that no proof unfolds the table.
-/

namespace Sys2Proof

theorem uses_nop (x0) : Instr.uses (.nop x0) = [] := rfl
theorem uses_mov (x0 d b) : Instr.uses (.mov x0 d b) = Use.dst d :: b.uses := rfl
theorem uses_movhi (x0 d a x3) : Instr.uses (.movhi x0 d a x3) = [Use.dst d, Use.src a] := rfl
theorem uses_iadd (x0 d a b) : Instr.uses (.iadd x0 d a b) = Use.dst d :: Use.src a :: b.uses := rfl
theorem uses_isub (x0 d a b) : Instr.uses (.isub x0 d a b) = Use.dst d :: Use.src a :: b.uses := rfl
theorem uses_iadds (x0 x1 d a b) : Instr.uses (.iadds x0 x1 d a b) = Use.dst d :: Use.src a :: b.uses := rfl
theorem uses_isubs (x0 x1 d a b) : Instr.uses (.isubs x0 x1 d a b) = Use.dst d :: Use.src a :: b.uses := rfl
theorem uses_imul (x0 d a b) : Instr.uses (.imul x0 d a b) = Use.dst d :: Use.src a :: b.uses := rfl
theorem uses_imulh (x0 x1 d a b) : Instr.uses (.imulh x0 x1 d a b) = Use.dst d :: Use.src a :: b.uses := rfl
theorem uses_lea (x0 x1 d a b) : Instr.uses (.lea x0 x1 d a b) = Use.dst d :: Use.src a :: b.uses := rfl
theorem uses_imin (x0 x1 d a b) : Instr.uses (.imin x0 x1 d a b) = Use.dst d :: Use.src a :: b.uses := rfl
theorem uses_imax (x0 x1 d a b) : Instr.uses (.imax x0 x1 d a b) = Use.dst d :: Use.src a :: b.uses := rfl
theorem uses_iand (x0 d a b) : Instr.uses (.iand x0 d a b) = Use.dst d :: Use.src a :: b.uses := rfl
theorem uses_ior (x0 d a b) : Instr.uses (.ior x0 d a b) = Use.dst d :: Use.src a :: b.uses := rfl
theorem uses_ixor (x0 d a b) : Instr.uses (.ixor x0 d a b) = Use.dst d :: Use.src a :: b.uses := rfl
theorem uses_shl (x0 d a b) : Instr.uses (.shl x0 d a b) = Use.dst d :: Use.src a :: b.uses := rfl
theorem uses_shr (x0 x1 d a b) : Instr.uses (.shr x0 x1 d a b) = Use.dst d :: Use.src a :: b.uses := rfl
theorem uses_rot (x0 d a b) : Instr.uses (.rot x0 d a b) = Use.dst d :: Use.src a :: b.uses := rfl
theorem uses_bfe (x0 x1 d a b) : Instr.uses (.bfe x0 x1 d a b) = Use.dst d :: Use.src a :: b.uses := rfl
theorem uses_hash32 (x0 d a b) : Instr.uses (.hash32 x0 d a b) = Use.dst d :: Use.src a :: b.uses := rfl
theorem uses_shfl (x0 x1 d a b) : Instr.uses (.shfl x0 x1 d a b) = Use.dst d :: Use.src a :: b.uses := rfl
theorem uses_imad (x0 d a b c) : Instr.uses (.imad x0 d a b c) = [Use.dst d, Use.src a, Use.src b, Use.src c] := rfl
theorem uses_bmux (x0 x1 x2 d a b c) : Instr.uses (.bmux x0 x1 x2 d a b c) = [Use.dst d, Use.src a, Use.src b, Use.src c] := rfl
theorem uses_shf (x0 x1 d a b c) : Instr.uses (.shf x0 x1 d a b c) = [Use.dst d, Use.src a, Use.src b, Use.src c] := rfl
theorem uses_bfi (x0 d a b c) : Instr.uses (.bfi x0 d a b c) = [Use.dst d, Use.src a, Use.src b, Use.src c] := rfl
theorem uses_prmt (x0 d a b c) : Instr.uses (.prmt x0 d a b c) = [Use.dst d, Use.src a, Use.src b, Use.src c] := rfl
theorem uses_imadw (x0 x1 d a b c) : Instr.uses (.imadw x0 x1 d a b c) = [Use.dst d 2, Use.src a, Use.src b, Use.src c 2] := rfl
theorem uses_iadd64 (x0 d a b) : Instr.uses (.iadd64 x0 d a b) = Use.dst d 2 :: Use.src a 2 :: b.uses 2 := rfl
theorem uses_isub64 (x0 d a b) : Instr.uses (.isub64 x0 d a b) = Use.dst d 2 :: Use.src a 2 :: b.uses 2 := rfl
theorem uses_imul64 (x0 d a b) : Instr.uses (.imul64 x0 d a b) = Use.dst d 2 :: Use.src a 2 :: b.uses 2 := rfl
theorem uses_lea64 (x0 x1 x2 d a b) : Instr.uses (.lea64 x0 x1 x2 d a b) = Use.dst d 2 :: Use.src a 2 :: b.uses := rfl
theorem uses_iabs (x0 d a) : Instr.uses (.iabs x0 d a) = [Use.dst d, Use.src a] := rfl
theorem uses_popc (x0 d a) : Instr.uses (.popc x0 d a) = [Use.dst d, Use.src a] := rfl
theorem uses_clz (x0 d a) : Instr.uses (.clz x0 d a) = [Use.dst d, Use.src a] := rfl
theorem uses_brev (x0 d a) : Instr.uses (.brev x0 d a) = [Use.dst d, Use.src a] := rfl
theorem uses_isetp (x0 x1 x2 x3 x4 x5 a b) : Instr.uses (.isetp x0 x1 x2 x3 x4 x5 a b) = Use.src a :: b.uses := rfl
theorem uses_isetp64 (x0 x1 x2 x3 x4 x5 a b) : Instr.uses (.isetp64 x0 x1 x2 x3 x4 x5 a b) = Use.src a 2 :: b.uses 2 := rfl
theorem uses_iset (x0 x1 x2 d a b) : Instr.uses (.iset x0 x1 x2 d a b) = [Use.dst d, Use.src a, Use.src b] := rfl
theorem uses_sel (x0 x1 d a b) : Instr.uses (.sel x0 x1 d a b) = [Use.dst d, Use.src a, Use.src b] := rfl
theorem uses_pset (x0 x1 x2 x3 x4) : Instr.uses (.pset x0 x1 x2 x3 x4) = [] := rfl
theorem uses_p2v (x0 d) : Instr.uses (.p2v x0 d) = [Use.dst d] := rfl
theorem uses_vote (x0 x1 x2 d) : Instr.uses (.vote x0 x1 x2 d) = [Use.dst d] := rfl
theorem uses_v2p (x0 x1 a) : Instr.uses (.v2p x0 x1 a) = [Use.src a] := rfl
theorem uses_s2v (x0 sr d) : Instr.uses (.s2v x0 sr d) = [Use.dst d (if sr.val = 17 ∨ sr.val = 18 then 2 else 1)] := rfl
theorem uses_v2s (x0 a) : Instr.uses (.v2s x0 a) = [Use.src a 2] := rfl
theorem uses_mov64 (x0 d b) : Instr.uses (.mov64 x0 d b) = Use.dst d 2 :: b.uses 2 := rfl
theorem uses_fadd (x0 x1 x2 d a b) : Instr.uses (.fadd x0 x1 x2 d a b) = Use.dst d :: Use.src a :: b.uses := rfl
theorem uses_fsub (x0 x1 x2 d a b) : Instr.uses (.fsub x0 x1 x2 d a b) = Use.dst d :: Use.src a :: b.uses := rfl
theorem uses_fmul (x0 x1 x2 d a b) : Instr.uses (.fmul x0 x1 x2 d a b) = Use.dst d :: Use.src a :: b.uses := rfl
theorem uses_fmin (x0 x1 d a b) : Instr.uses (.fmin x0 x1 d a b) = Use.dst d :: Use.src a :: b.uses := rfl
theorem uses_fmax (x0 x1 d a b) : Instr.uses (.fmax x0 x1 d a b) = Use.dst d :: Use.src a :: b.uses := rfl
theorem uses_fscale (x0 x1 d a b) : Instr.uses (.fscale x0 x1 d a b) = Use.dst d :: Use.src a :: b.uses := rfl
theorem uses_ffma (x0 x1 x2 d a b c) : Instr.uses (.ffma x0 x1 x2 d a b c) = [Use.dst d, Use.src a, Use.src b, Use.src c] := rfl
theorem uses_fdot2 (x0 x1 x2 d a b c) : Instr.uses (.fdot2 x0 x1 x2 d a b c) = [Use.dst d, Use.src a, Use.src b, Use.src c] := rfl
theorem uses_fmed3 (x0 x1 d a b c) : Instr.uses (.fmed3 x0 x1 d a b c) = [Use.dst d, Use.src a, Use.src b, Use.src c] := rfl
theorem uses_fsetp (x0 x1 x2 x3 x4 a b) : Instr.uses (.fsetp x0 x1 x2 x3 x4 a b) = Use.src a :: b.uses := rfl
theorem uses_fset (x0 x1 x2 d a b) : Instr.uses (.fset x0 x1 x2 d a b) = [Use.dst d, Use.src a, Use.src b] := rfl
theorem uses_cvtpk (x0 x1 x2 d a b) : Instr.uses (.cvtpk x0 x1 x2 d a b) = [Use.dst d, Use.src a, Use.src b] := rfl
theorem uses_fclass (x0 x1 d a) : Instr.uses (.fclass x0 x1 d a) = [Use.dst d, Use.src a] := rfl
theorem uses_frcp (x0 d a) : Instr.uses (.frcp x0 d a) = [Use.dst d, Use.src a] := rfl
theorem uses_frsq (x0 d a) : Instr.uses (.frsq x0 d a) = [Use.dst d, Use.src a] := rfl
theorem uses_fsqrt (x0 x1 d a) : Instr.uses (.fsqrt x0 x1 d a) = [Use.dst d, Use.src a] := rfl
theorem uses_fexp2 (x0 d a) : Instr.uses (.fexp2 x0 d a) = [Use.dst d, Use.src a] := rfl
theorem uses_flog2 (x0 d a) : Instr.uses (.flog2 x0 d a) = [Use.dst d, Use.src a] := rfl
theorem uses_fsin (x0 d a) : Instr.uses (.fsin x0 d a) = [Use.dst d, Use.src a] := rfl
theorem uses_fcos (x0 d a) : Instr.uses (.fcos x0 d a) = [Use.dst d, Use.src a] := rfl
theorem uses_ftanh (x0 d a) : Instr.uses (.ftanh x0 d a) = [Use.dst d, Use.src a] := rfl
theorem uses_frnd (x0 x1 d a) : Instr.uses (.frnd x0 x1 d a) = [Use.dst d, Use.src a] := rfl
theorem uses_cvt (x0 dst src x3 d a) : Instr.uses (.cvt x0 dst src x3 d a) = [Use.dst d dst.regs, Use.src a src.regs] := rfl
theorem uses_cbenc (x0 d a cb c) : Instr.uses (.cbenc x0 d a cb c) = [Use.dst d, Use.src a, Use.src (.v cb) 8 false, Use.src c] := rfl
theorem uses_cbdec (x0 x1 d a cb c) : Instr.uses (.cbdec x0 x1 d a cb c) = [Use.dst d, Use.src a, Use.src (.v cb) 8 false, Use.src c] := rfl
theorem uses_bra (x0 x1) : Instr.uses (.bra x0 x1) = [] := rfl
theorem uses_brd (x0 x1) : Instr.uses (.brd x0 x1) = [] := rfl
theorem uses_brx (x0 a) : Instr.uses (.brx x0 a) = [Use.src a 2 false] := rfl
theorem uses_call (x0 s x2) : Instr.uses (.call x0 s x2) = s.uses true := rfl
theorem uses_callx (x0 s a) : Instr.uses (.callx x0 s a) = s.uses true ++ [Use.src a 2 false] := rfl
theorem uses_ret (x0 s) : Instr.uses (.ret x0 s) = s.uses false := rfl
theorem uses_reform (x0 s) : Instr.uses (.reform x0 s) = s.uses false := rfl
theorem uses_land (x0) : Instr.uses (.land x0) = [] := rfl
theorem uses_gpin (x0) : Instr.uses (.gpin x0) = [] := rfl
theorem uses_gfree (x0) : Instr.uses (.gfree x0) = [] := rfl
theorem uses_exit (x0) : Instr.uses (.exit x0) = [] := rfl
theorem uses_yield (x0 x1) : Instr.uses (.yield x0 x1) = [] := rfl
theorem uses_nopw (x0 x1) : Instr.uses (.nopw x0 x1) = [] := rfl
theorem uses_bloop (x0 a x2) : Instr.uses (.bloop x0 a x2) = [⟨a, 1, true, true, false⟩] := rfl
theorem uses_ipref (x0 x1 x2 x3) : Instr.uses (.ipref x0 (some x1) x2 x3) = [] := rfl
theorem uses_ipref' (x0 a b) : Instr.uses (.ipref x0 none a b) = [Use.src a 2 false, Use.src b 1 false] := rfl
theorem uses_iprefInv (x0 a b) : Instr.uses (.iprefInv x0 a b) = [Use.src a 2 false, Use.src b 1 false] := rfl
theorem uses_launch (x0 d a b) : Instr.uses (.launch x0 d a b) = Use.dst d :: Use.src a 2 :: b.uses := rfl
theorem uses_evwait (x0 x1 d a b) : Instr.uses (.evwait x0 x1 d a b) = Use.dst d 2 :: Use.src a :: b.uses 2 := rfl
theorem uses_evsig (x0 x1 a b) : Instr.uses (.evsig x0 x1 a b) = Use.src a :: b.uses 2 := rfl
theorem uses_ld (x0 size x2 x3 d a b x7) : Instr.uses (.ld x0 size x2 x3 d a b x7) = Use.dst d size.regs (size != .b128) :: Use.src a 2 false :: b.uses 1 false := rfl
theorem uses_ldk (x0 size x2 d a b x6) : Instr.uses (.ldk x0 size x2 d a b x6) = Use.dst d size.regs (size != .b128) :: Use.src a 2 false :: b.uses 1 false := rfl
theorem uses_ldl (x0 size x2 x3 d a b x7) : Instr.uses (.ldl x0 size x2 x3 d a b x7) = Use.dst d size.regs (size != .b128) :: Use.src a 1 false :: b.uses 1 false := rfl
theorem uses_lds (x0 size x2 d a b x6) : Instr.uses (.lds x0 size x2 d a b x6) = Use.dst d size.regs (size != .b128) :: Use.src a 1 false :: b.uses 1 false := rfl
theorem uses_st (x0 size x2 d a b x6) : Instr.uses (.st x0 size x2 d a b x6) = Use.src d size.regs false :: Use.src a 2 false :: b.uses 1 false := rfl
theorem uses_stl (x0 size x2 d a b x6) : Instr.uses (.stl x0 size x2 d a b x6) = Use.src d size.regs false :: Use.src a 1 false :: b.uses 1 false := rfl
theorem uses_sts (x0 size d a b x5) : Instr.uses (.sts x0 size d a b x5) = Use.src d size.regs false :: Use.src a 1 false :: b.uses 1 false := rfl
theorem uses_ldw (x0 d a x3) : Instr.uses (.ldw x0 d a x3) = [Use.dst d 2, Use.src a 2 false] := rfl
theorem uses_stw (x0 d a x3) : Instr.uses (.stw x0 d a x3) = [Use.src d 2 false, Use.src a 2 false] := rfl
theorem uses_pref (x0 x1 a b) : Instr.uses (.pref x0 x1 a b) = Use.src a 2 :: b.uses := rfl
theorem uses_cctl (x0 x1 a b) : Instr.uses (.cctl x0 x1 a b) = Use.src a 2 :: b.uses := rfl
theorem uses_acp (x0 x1 x2 d a b) : Instr.uses (.acp x0 x1 x2 d a b) = Use.src d 1 false :: Use.src a 2 false :: b.uses 1 false := rfl
theorem uses_acwait (x0 x1 x2) : Instr.uses (.acwait x0 x1 x2) = [] := rfl
theorem uses_acqry (x0 d) : Instr.uses (.acqry x0 d) = [Use.dst d 2] := rfl
theorem uses_ldcb (x0 len d a b) : Instr.uses (.ldcb x0 len d a b) = Use.dst d len.regs (len == .l4) :: Use.src a 2 false :: b.uses 1 false := rfl
theorem uses_xlq (x0 d a b) : Instr.uses (.xlq x0 d a b) = Use.dst d 2 :: Use.src a 2 :: b.uses := rfl
theorem uses_amo (x0 x1 size x3 x4 d a b) : Instr.uses (.amo x0 x1 size x3 x4 d a b) = [Use.dst d size.regs false, Use.src a 2 false, Use.src b size.regs false] := rfl
theorem uses_waitv (x0 x1 x2 size x4 d a b) : Instr.uses (.waitv x0 x1 x2 size x4 d a b) = [Use.dst d size.regs false, Use.src a 2 false, Use.src b size.regs false] := rfl
theorem uses_cas (x0 size x2 x3 d a b c) : Instr.uses (.cas x0 size x2 x3 d a b c) = [Use.dst d size.regs false, Use.src a 2 false, Use.src b size.regs false, Use.src c size.regs false] := rfl
theorem uses_red (x0 x1 size x3 x4 a b) : Instr.uses (.red x0 x1 size x3 x4 a b) = [Use.src a 2 false, Use.src b size.regs false] := rfl
theorem uses_fence (x0 x1 x2) : Instr.uses (.fence x0 x1 x2) = [] := rfl
theorem uses_gbar (x0) : Instr.uses (.gbar x0) = [] := rfl
theorem uses_ssync (x0) : Instr.uses (.ssync x0) = [] := rfl
theorem uses_ordhead (x0) : Instr.uses (.ordhead x0) = [] := rfl
theorem uses_bar (x0 g) : Instr.uses (.bar x0 g) = g.uses := rfl
theorem uses_bara (x0 g) : Instr.uses (.bara x0 g) = g.uses := rfl
theorem uses_barw (x0 g) : Instr.uses (.barw x0 g) = g.uses := rfl
theorem uses_ctxopen (x0 x1 x2 x3 d) : Instr.uses (.ctxopen x0 x1 x2 x3 d) = [Use.dst d 1 false] := rfl
theorem uses_ctxset (x0 a) : Instr.uses (.ctxset x0 a) = [Use.src a 1 false] := rfl
theorem uses_ctxsettle (x0 a) : Instr.uses (.ctxsettle x0 a) = [Use.src a 1 false] := rfl
theorem uses_ctxvoid (x0 a) : Instr.uses (.ctxvoid x0 a) = [Use.src a 1 false] := rfl
theorem uses_ctxq (x0 d a) : Instr.uses (.ctxq x0 d a) = [Use.dst d 2 false, Use.src a 1 false] := rfl
theorem uses_ldcx (x0 size x2 d a b c) : Instr.uses (.ldcx x0 size x2 d a b c) = [Use.dst d size.regs false, Use.src a 2 false, Use.src b 1 false, Use.src c 1 false] := rfl
theorem uses_ctxwait (x0 x1 d a) : Instr.uses (.ctxwait x0 x1 d a) = [Use.dst d 1 false, Use.src a 1 false] := rfl
theorem uses_obres (x0 x1 x2 x3 a b) : Instr.uses (.obres x0 x1 x2 x3 a b) = [Use.src a 1 false, Use.src b 1 false] := rfl
theorem uses_obset (x0 x1 b) : Instr.uses (.obset x0 x1 b) = b.uses 1 false := rfl
theorem uses_obfree (x0 x1) : Instr.uses (.obfree x0 x1) = [] := rfl
theorem uses_cbld (x0 x1 cb) : Instr.uses (.cbld x0 x1 cb) = [Use.src (.v cb) 8 false] := rfl
theorem uses_mloop (x0 d desc) : Instr.uses (.mloop x0 d desc) = [Use.dst d 1 false, Use.src (.v desc) 16 false] := rfl
theorem uses_mwait (x0 a) : Instr.uses (.mwait x0 a) = [Use.src a 1 false] := rfl
theorem uses_mzero (x0 x1) : Instr.uses (.mzero x0 x1) = [] := rfl
theorem uses_accld (x0 x1 a b) : Instr.uses (.accld x0 x1 a b) = Use.src a 2 false :: b.uses 1 false := rfl
theorem uses_accst (x0 x1 a b) : Instr.uses (.accst x0 x1 a b) = Use.src a 2 false :: b.uses 1 false := rfl
theorem uses_mrd (x0 d x2 b) : Instr.uses (.mrd x0 d x2 b) = Use.dst d 1 false :: b.uses 1 false := rfl
theorem uses_mout (x0 x1 x2 x3 a b) : Instr.uses (.mout x0 x1 x2 x3 a b) = [Use.src a 2 false, Use.src b 1 false] := rfl
theorem uses_mprog (x0 d a) : Instr.uses (.mprog x0 d a) = [Use.dst d 2 false, Use.src a 1 false] := rfl
theorem uses_keybind (x0 x1 a) : Instr.uses (.keybind x0 x1 a) = [Use.src a 1 false] := rfl
theorem uses_push (x0 x1 x2 cmd) : Instr.uses (.push x0 x1 x2 cmd) = [Use.src (.v cmd) 16 false] := rfl
theorem uses_qbind (x0 x1 x2) : Instr.uses (.qbind x0 x1 x2) = [] := rfl
theorem uses_qpeek (x0 d x2 b) : Instr.uses (.qpeek x0 d x2 b) = Use.dst d 2 false :: b.uses 1 false := rfl
theorem uses_qcnt (x0 d x2) : Instr.uses (.qcnt x0 d x2) = [Use.dst d 1 false] := rfl
theorem uses_qdrain (x0 d x2) : Instr.uses (.qdrain x0 d x2) = [Use.dst d 1 false] := rfl
theorem uses_bkqry (x0 d) : Instr.uses (.bkqry x0 d) = [Use.dst d 2] := rfl
theorem uses_bkwake (x0 x1) : Instr.uses (.bkwake x0 x1) = [] := rfl
theorem uses_bkdrop (x0 x1 x2) : Instr.uses (.bkdrop x0 x1 x2) = [] := rfl
theorem uses_spwake (x0 d b) : Instr.uses (.spwake x0 d b) = Use.dst d :: b.uses := rfl
theorem uses_spdrop (x0 d b) : Instr.uses (.spdrop x0 d b) = Use.dst d :: b.uses := rfl
theorem uses_trap (x0 x1) : Instr.uses (.trap x0 x1) = [] := rfl
theorem uses_tret (x0) : Instr.uses (.tret x0) = [] := rfl
theorem uses_brk (x0 x1) : Instr.uses (.brk x0 x1) = [] := rfl
theorem uses_psafe (x0 x1) : Instr.uses (.psafe x0 x1) = [] := rfl
theorem uses_halt (x0) : Instr.uses (.halt x0) = [] := rfl
theorem uses_tclr (x0 a) : Instr.uses (.tclr x0 a) = [Use.src a 2 false] := rfl
theorem uses_trd (x0 d b) : Instr.uses (.trd x0 d b) = Use.dst d 2 false :: b.uses 1 false := rfl
theorem uses_ologq (x0 d b) : Instr.uses (.ologq x0 d b) = Use.dst d 2 false :: b.uses 1 false := rfl
theorem uses_sysrd (x0 d b) : Instr.uses (.sysrd x0 d b) = Use.dst d 2 false :: b.uses 1 false := rfl
theorem uses_cntrd (x0 d b) : Instr.uses (.cntrd x0 d b) = Use.dst d 2 false :: b.uses 1 false := rfl
theorem uses_tmask (x0 d a b) : Instr.uses (.tmask x0 d a b) = [Use.dst d 2 false, Use.src a 2 false, Use.src b 2 false] := rfl
theorem uses_syswr (x0 a b) : Instr.uses (.syswr x0 a b) = Use.src a 2 false :: b.uses 1 false := rfl
theorem uses_ilq (x0 d) : Instr.uses (.ilq x0 d) = [Use.dst d 2 false] := rfl
theorem uses_mbox (x0 x1 d a) : Instr.uses (.mbox x0 x1 d a) = [Use.dst d 2 false, Use.src a 2 false] := rfl
theorem uses_pairWord (x0 x1 s0 s1) : Instr.uses (.pairWord x0 x1 s0 s1) = s0.uses ++ s1.uses := rfl

end Sys2Proof
end

