-- ==== Sys2Proof/Laws/Words.lean ====
section
/-!
SUPPORT. From a meaning that calls `aluWord`, or `State.alu`, to what the word does: the writes of one register, of a pair and of
predicates.
-/

namespace Sys2Proof
namespace Machine

/-- A list of writes names only what a word declares (R26, R29), each target once. -/
structure Declared (i : Instr) (f : LV → List LaneWrite) : Prop where
  regs : ∀ v n x, LaneWrite.reg n x ∈ f v → n ∈ writesOf i
  preds : ∀ v j b, LaneWrite.pred j b ∈ f v → j ≤ 7
  queues : ∀ v q x, LaneWrite.push q x ∈ f v → q ∈ qWritesOf i
  once : ∀ v, ((f v).filterMap LaneWrite.dest).Nodup

theorem mem_writesOf (i : Instr) (u : Use) (n : Fin 240) (k : Nat) (hu : u ∈ i.uses) (hw : u.wr = true) (hr : u.r = .v n)
    (hk : k < u.n) : n.val + k ∈ writesOf i := by
  unfold writesOf
  rw [List.mem_flatMap]
  refine ⟨u, by simp [hu, hw], ?_⟩
  unfold useNums
  rw [hr]
  exact (mem_upFrom _ _ _).mpr ⟨by omega, by omega⟩

theorem mem_qWritesOf (i : Instr) (u : Use) (k : Fin 8) (hu : u ∈ i.uses) (hw : u.wr = true) (hr : u.r = .q k) :
    k.val ∈ qWritesOf i := by
  unfold qWritesOf
  rw [List.mem_filterMap]
  exact ⟨u, hu, by simp [hw, hr, Sys2Proof.Reg.queue?]⟩

theorem declared_w32 (i : Instr) (d : Reg) (x : LV → Word) (u : Use) (hu : u ∈ i.uses) (hw : u.wr = true) (hr : u.r = d)
    (hn : 1 ≤ u.n) : Declared i fun v => w32 d (x v) := by
  cases d with
  | v n =>
    refine ⟨fun v m y h => ?_, fun v j b h => ?_, fun v q y h => ?_, fun v => ?_⟩ <;> (try simp [w32] at h) <;> (try simp [w32])
    · rw [h.1]
      simpa using mem_writesOf i u n 0 hu hw hr (by omega)
    · simp [LaneWrite.dest]
  | q k =>
    refine ⟨fun v m y h => by simp [w32] at h, fun v j b h => by simp [w32] at h, fun v q y h => ?_, fun v => ?_⟩
    · simp only [w32, List.mem_singleton, LaneWrite.push.injEq] at h
      rw [h.1]; exact mem_qWritesOf i u k hu hw hr
    · exact List.nodup_nil
  | zero => refine ⟨fun v m y h => ?_, fun v j b h => ?_, fun v q y h => ?_, fun v => ?_⟩ <;> (try simp [w32] at h) <;> (try simp [w32])

theorem declared_w64 (i : Instr) (d : Reg) (x : LV → DWord) (u : Use) (hu : u ∈ i.uses) (hw : u.wr = true) (hr : u.r = d)
    (hn : 2 ≤ u.n) : Declared i fun v => w64 d (x v) := by
  cases d with
  | v n =>
    refine ⟨fun v m y h => ?_, fun v j b h => ?_, fun v q y h => ?_, fun v => ?_⟩ <;> (try simp [w64] at h) <;> (try simp [w64])
    · rcases h with h | h
      · rw [h.1]
        simpa using mem_writesOf i u n 0 hu hw hr (by omega)
      · rw [h.1]; exact mem_writesOf i u n 1 hu hw hr (by omega)
    · simp [LaneWrite.dest]
  | q k =>
    refine ⟨fun v m y h => by simp [w64] at h, fun v j b h => by simp [w64] at h, fun v q y h => ?_, fun v => ?_⟩
    · simp only [w64, List.mem_singleton, LaneWrite.push.injEq] at h
      rw [h.1]; exact mem_qWritesOf i u k hu hw hr
    · exact List.nodup_nil
  | zero => refine ⟨fun v m y h => ?_, fun v j b h => ?_, fun v q y h => ?_, fun v => ?_⟩ <;> (try simp [w64] at h) <;> (try simp [w64])

theorem declared_pred (i : Instr) (p : Fin 8) (x : LV → Bool) : Declared i fun v => [.pred p.val (x v)] := by
  refine ⟨fun v m y h => by simp at h, fun v j b h => ?_, fun v q y h => by simp at h, fun v => ?_⟩
  · simp at h; omega
  · cases h : (LaneWrite.pred p.val (x v)).dest <;> simp [h]

theorem declared_none (i : Instr) : Declared i fun _ => [] :=
  ⟨fun _ _ _ h => by simp at h, fun _ _ _ h => by simp at h, fun _ _ _ h => by simp at h, fun _ => by simp⟩

/-- A word of fixed latency that may raise causes, where it raises none. -/
theorem State.fixed_of_issue (s : State) (i : Instr) (lat : Nat) (f : LV → Option LaneCause × List LaneWrite) (g : Nat) (G : Group)
    (H : s.Issues g G i) (he : exec i s = issue i i.hdr s (State.alu lat f)) (hc : ∀ u ∈ s.actives G i, (f (s.lane G i u)).1 = none)
    (hd : Declared i fun v => (f v).2) :
    ∃ r t, exec i s = .next t ∧ s.Wrote r G i lat (fun v => (f v).2) ∧ r.Went t g G i.hdr (s.issueClk G i) (G.pc + 8) := by
  obtain ⟨r, h1, h2⟩ := s.alu_fixed i lat f g G H hc hd.regs hd.preds hd.queues hd.once
  exact ⟨r, _, he.trans (issue_issues s g G i H _), h1, h2⟩

/-- A word of the integer pipe. -/
theorem State.fixed_of_alu (s : State) (i : Instr) (lat : Nat) (f : LV → List LaneWrite)
    (he : exec i s = aluWord i i.hdr lat s f) (hd : Declared i f) : s.FixedWord i lat f := fun g G H =>
  s.fixed_of_issue i lat (fun v => (none, f v)) g G H he (fun _ _ => rfl) hd

/-- A word of the integer pipe that writes one register. -/
theorem State.fixed_w32 (s : State) (i : Instr) (lat : Nat) (d : Reg) (x : LV → Word) (u : Use)
    (he : exec i s = aluWord i i.hdr lat s fun v => w32 d (x v)) (hu : u ∈ i.uses) (hw : u.wr = true) (hr : u.r = d) (hn : 1 ≤ u.n) :
    s.FixedWord i lat fun v => w32 d (x v) := s.fixed_of_alu i lat _ he (declared_w32 i d x u hu hw hr hn)

/-- A word of the integer pipe that writes a register pair. -/
theorem State.fixed_w64 (s : State) (i : Instr) (lat : Nat) (d : Reg) (x : LV → DWord) (u : Use)
    (he : exec i s = aluWord i i.hdr lat s fun v => w64 d (x v)) (hu : u ∈ i.uses) (hw : u.wr = true) (hr : u.r = d) (hn : 2 ≤ u.n) :
    s.FixedWord i lat fun v => w64 d (x v) := s.fixed_of_alu i lat _ he (declared_w64 i d x u hu hw hr hn)

/-- A word of tracked results that may raise causes, where it raises none. -/
theorem State.tracked_of_issue (s : State) (i : Instr) (lat : Nat) (f : LV → Option LaneCause × List LaneWrite) (g : Nat) (G : Group)
    (H : s.Issues g G i) (he : exec i s = issue i i.hdr s (State.tracked lat f))
    (hc : ∀ u ∈ s.actives G i, (f (s.lane G i u)).1 = none) (hd : Declared i fun v => (f v).2) :
    ∃ r t, exec i s = .next t ∧ s.Sent r G i lat (fun v => (f v).2) ∧ r.Went t g G i.hdr (s.issueClk G i) (G.pc + 8) := by
  obtain ⟨r, h1, h2⟩ := s.tracked_sent i lat f g G H hc hd.queues
  exact ⟨r, _, he.trans (issue_issues s g G i H _), h1, h2⟩

end Machine
end Sys2Proof
end

