-- ==== Sys2Proof/Laws/Stops.lean ====
section
/-!
SUPPORT. Where threads go when their group divides (R100 to R103), and what a word leaves in whose lanes causes are raised (R310 to R314).
-/

namespace Sys2Proof
namespace Machine

theorem FMap.find_of_mem {α : Type} (m : FMap α) (p : Nat × α) (h : FMap.sorted m = true) (hp : p ∈ m) : m.find p.1 = some p.2 := by
  induction m with
  | nil => simp at hp
  | cons q t ih =>
    rcases List.mem_cons.mp hp with e | ht
    · subst e; simp [FMap.find]
    · have lt := FMap.sorted_lt _ _ h p ht
      have ne : p.1 ≠ q.1 := by omega
      unfold FMap.find
      simp only [ne, if_false]
      exact ih (FMap.sorted_tail _ _ h) ht

theorem mem_laneInsert (t u : Nat) (l : List Nat) : u ∈ laneInsert t l ↔ u = t ∨ u ∈ l := by
  induction l with
  | nil => simp [laneInsert]
  | cons a r ih =>
    unfold laneInsert
    split
    · simp
    · simp only [List.mem_cons, ih]; tauto

theorem mem_laneSort (u : Nat) (l : List Nat) : u ∈ laneSort l ↔ u ∈ l := by
  have : ∀ (acc : List Nat), u ∈ l.foldl (fun l t => laneInsert t l) acc ↔ u ∈ acc ∨ u ∈ l := by
    induction l with
    | nil => simp
    | cons a r ih => intro acc; rw [List.foldl_cons, ih, mem_laneInsert, List.mem_cons]; tauto
  simpa [laneSort] using this []

/-! ## Taking a slot -/

theorem State.takeSlot_eq (s : State) (g : Nat) : s.takeSlot g = { s with groups := (s.takeSlot g).groups } := by
  unfold State.takeSlot
  split
  · rfl
  · dsimp only
    split <;> rfl

/-- Taking a slot changes no program counter. -/
theorem State.pc_takeSlot (s : State) (g k : Nat) :
    ((s.takeSlot g).groups.find k).map Group.pc = (s.groups.find k).map Group.pc := by
  unfold State.takeSlot
  split
  · rfl
  · next G hG =>
    dsimp only
    split <;> simp only [State.setGroup, FMap.find_put] <;> split <;> simp_all

/-! ## Placed threads -/

/-- A thread lies in another group or in a bin at a program counter, and stays there while new groups are made. -/
def State.Placed (s : State) (g u pc : Nat) : Prop :=
  (∃ k G, (s.thread u).disp = .group k ∧ (k < s.nextId ∧ k ≠ g) ∧ s.groups.find k = some G ∧ G.pc = pc) ∨
  ∃ k B, (s.thread u).disp = .bin k ∧ s.bins.find k = some B ∧ B.pc = pc ∧ u ∈ B.threads

theorem State.Placed.pcOf {s : State} {g u pc : Nat} (h : s.Placed g u pc) : s.pcOf u = some pc := by
  unfold State.pcOf
  rcases h with ⟨k, G, hd, _, hg, hp⟩ | ⟨k, B, hd, hb, hp, _⟩
  · rw [hd]; simp [hg, hp]
  · rw [hd]; simp [hb, hp]

/-- What stays true while the threads of `lanes` are placed one after the other: those in `done` are, and no bin holds another one. -/
structure State.Placing (s : State) (g : Nat) (lanes : List Nat) (dest : Nat → Nat) (done : List Nat) : Prop where
  drawn : g < s.nextId
  sorted : FMap.sorted s.bins = true
  sub : ∀ u ∈ done, u ∈ lanes
  placed : ∀ u ∈ done, s.Placed g u (dest u)
  bins : ∀ p ∈ s.bins, ∀ u ∈ p.2.threads, u ∈ lanes → u ∈ done ∧ (s.thread u).disp = .bin p.1

theorem State.enrol_eq (s : State) (ts : List Nat) (g : Nat) : s.enrol ts g = { s with threads := (s.enrol ts g).threads } := by
  unfold State.enrol; exact s.modThreads_eq _ _

theorem State.modThread_disp (s : State) (ts : List Nat) (u : Nat) (d : Disp) :
    ((s.modThreads ts fun T => { T with disp := d }).thread u).disp = if u ∈ ts then d else (s.thread u).disp := by
  unfold State.modThreads
  induction ts generalizing s with
  | nil => rfl
  | cons t r ih =>
    rw [List.foldl_cons, ih]
    by_cases hr : u ∈ r
    · simp [hr]
    · rw [if_neg hr, State.thread_modThread]
      by_cases e : u = t
      · simp [e]
      · simp [e, hr]

theorem State.disp_enrol (s : State) (ts : List Nat) (g u : Nat) :
    ((s.enrol ts g).thread u).disp = if u ∈ ts then .group g else (s.thread u).disp := s.modThread_disp ts u _

/-- A new group for some threads. -/
theorem State.spawn_facts (s : State) (G : Group) (ts : List Nat) (pc : Nat) :
    (s.spawn G ts pc).nextId = s.nextId + 1 ∧ (s.spawn G ts pc).bins = s.bins ∧ (s.spawn G ts pc).mem = s.mem ∧
    (s.spawn G ts pc).blocks = s.blocks ∧ (s.spawn G ts pc).launches = s.launches ∧
    (∀ u, ((s.spawn G ts pc).thread u).disp = if u ∈ ts then .group s.nextId else (s.thread u).disp) ∧
    (∀ k, ((s.spawn G ts pc).groups.find k).map Group.pc = if k = s.nextId then some pc else (s.groups.find k).map Group.pc) := by
  unfold State.spawn
  dsimp only
  refine ⟨?_, ?_, ?_, ?_, ?_, fun u => ?_, fun k => ?_⟩
  · rw [State.takeSlot_eq, State.enrol_eq]; rfl
  · rw [State.takeSlot_eq, State.enrol_eq]; rfl
  · rw [State.takeSlot_eq, State.enrol_eq]; rfl
  · rw [State.takeSlot_eq, State.enrol_eq]; rfl
  · rw [State.takeSlot_eq, State.enrol_eq]; rfl
  · have : (((s.fresh.setGroup s.nextId { G with
        pc := pc, lanes := laneSort ts, slot := none, wait := none, deliver := none,
        resumeMask := G.resumeMask &&& laneMask ts }).enrol ts s.nextId).thread u).disp = _ := State.disp_enrol _ _ _ _
    rw [State.takeSlot_eq]
    exact this
  · rw [State.pc_takeSlot, State.enrol_eq]
    show ((FMap.put s.groups s.nextId _).find k).map Group.pc = _
    rw [FMap.find_put]
    split <;> rfl

theorem State.Placing.spawn {s : State} {g : Nat} {lanes done : List Nat} {dest : Nat → Nat} (h : s.Placing g lanes dest done)
    (G : Group) (ts : List Nat) (pc : Nat) (hts : ∀ u ∈ ts, u ∈ lanes ∧ u ∉ done ∧ dest u = pc) :
    (s.spawn G ts pc).Placing g lanes dest (ts ++ done) := by
  obtain ⟨h1, h2, _, _, _, h3, h4⟩ := s.spawn_facts G ts pc
  refine ⟨by rw [h1]; have := h.drawn; omega, by rw [h2]; exact h.sorted, fun u hu => ?_, fun u hu => ?_, fun p hp u hu hl => ?_⟩
  · rcases List.mem_append.mp hu with hm | hm
    · exact (hts u hm).1
    · exact h.sub u hm
  · by_cases hm : u ∈ ts
    · left
      have := h4 s.nextId
      rw [if_pos rfl] at this
      obtain ⟨G', hG, hp⟩ := Option.map_eq_some_iff.mp this
      exact ⟨s.nextId, G', by rw [h3, if_pos hm], ⟨by omega, by have := h.drawn; omega⟩, hG, hp.trans (hts u hm).2.2.symm⟩
    · have hd : u ∈ done := by simpa [hm] using hu
      rcases h.placed u hd with ⟨k, G', hd', hk, hg, hp⟩ | ⟨k, B, hd', hb, hp, hm'⟩
      · left
        have := h4 k
        rw [if_neg (by omega), hg] at this
        obtain ⟨G'', hG, hp'⟩ := Option.map_eq_some_iff.mp this
        exact ⟨k, G'', by rw [h3, if_neg hm, hd'], ⟨by omega, hk.2⟩, hG, hp'.trans hp⟩
      · right
        exact ⟨k, B, by rw [h3, if_neg hm, hd'], by rw [h2]; exact hb, hp, hm'⟩
  · rw [h2] at hp
    have := h.bins p hp u hu hl
    have hn : u ∉ ts := fun hm => (hts u hm).2.1 this.1
    exact ⟨by simp [this.1], by rw [h3, if_neg hn]; exact this.2⟩

/-- A bin becomes a group. -/
theorem State.formBin_facts (s : State) (k : Nat) (B : Bin) (c : Bool) :
    (s.formBin k B c).nextId = s.nextId + 1 ∧ (s.formBin k B c).bins = s.bins.del k ∧ (s.formBin k B c).mem = s.mem ∧
    (s.formBin k B c).blocks = s.blocks ∧ (s.formBin k B c).launches = s.launches ∧
    (∀ u, ((s.formBin k B c).thread u).disp = if u ∈ B.threads then .group s.nextId else (s.thread u).disp) ∧
    (∀ j, ((s.formBin k B c).groups.find j).map Group.pc = if j = s.nextId then some B.pc else (s.groups.find j).map Group.pc) := by
  unfold State.formBin
  dsimp only
  refine ⟨?_, ?_, ?_, ?_, ?_, fun u => ?_, fun j => ?_⟩
  · rw [State.enrol_eq]; rfl
  · rw [State.enrol_eq]; rfl
  · rw [State.enrol_eq]; rfl
  · rw [State.enrol_eq]; rfl
  · rw [State.enrol_eq]; rfl
  · exact State.disp_enrol _ _ _ _
  · rw [State.enrol_eq]
    show ((FMap.put s.groups s.nextId _).find j).map Group.pc = _
    rw [FMap.find_put]
    split <;> rfl

theorem State.Placing.formBin {s : State} {g : Nat} {lanes done : List Nat} {dest : Nat → Nat} (h : s.Placing g lanes dest done)
    (k : Nat) (B : Bin) (c : Bool) (hB : (k, B) ∈ s.bins) : (s.formBin k B c).Placing g lanes dest done := by
  obtain ⟨h1, h2, _, _, _, h3, h4⟩ := s.formBin_facts k B c
  have find : s.bins.find k = some B := FMap.find_of_mem _ _ h.sorted hB
  have inBin : ∀ u ∈ done, u ∈ B.threads → (s.thread u).disp = .bin k := fun u hu hm => (h.bins _ hB u hm (h.sub u hu)).2
  refine ⟨by rw [h1]; have := h.drawn; omega, by rw [h2]; exact FMap.sorted_del _ _ h.sorted, h.sub, fun u hu => ?_,
    fun p hp u hu hl => ?_⟩
  · rcases h.placed u hu with ⟨j, G', hd, hj, hg, hp⟩ | ⟨j, B', hd, hb, hp, hm⟩
    · left
      have hn : u ∉ B.threads := fun hm => by rw [inBin u hu hm] at hd; cases hd
      have := h4 j
      rw [if_neg (by omega), hg] at this
      obtain ⟨G'', hG, hp'⟩ := Option.map_eq_some_iff.mp this
      exact ⟨j, G'', by rw [h3, if_neg hn, hd], ⟨by omega, hj.2⟩, hG, hp'.trans hp⟩
    · by_cases e : j = k
      · subst e
        rw [find] at hb
        cases hb
        left
        have := h4 s.nextId
        rw [if_pos rfl] at this
        obtain ⟨G'', hG, hp'⟩ := Option.map_eq_some_iff.mp this
        exact ⟨s.nextId, G'', by rw [h3, if_pos hm], ⟨by omega, by have := h.drawn; omega⟩, hG, hp'.trans hp⟩
      · right
        have hn : u ∉ B.threads := fun hm' => by rw [inBin u hu hm'] at hd; cases hd; exact e rfl
        exact ⟨j, B', by rw [h3, if_neg hn, hd], by rw [h2, FMap.find_del_ne _ _ _ e]; exact hb, hp, hm⟩
  · rw [h2] at hp
    have hp' := FMap.mem_del _ _ _ hp
    have := h.bins p hp' u hu hl
    have ne : p.1 ≠ k := by
      intro e
      have a := FMap.find_of_mem _ _ (FMap.sorted_del _ k h.sorted) hp
      rw [e, FMap.find_del_self] at a
      cases a
    have hn : u ∉ B.threads := fun hm => by
      have := (h.bins _ hB u hm hl).2.symm.trans this.2
      cases this
      exact ne rfl
    exact ⟨this.1, by rw [h3, if_neg hn]; exact this.2⟩

/-- A thread that joins a bin points to it, and the bin holds it beside those that it held. -/
theorem State.binAdd_bin (s : State) (k : Nat) (B : Bin) (G : Group) (t : Nat) :
    ∃ B2 : Bin, s.binAdd k B G t = State.modThread { s with bins := s.bins.put k B2 } t (fun T => { T with disp := .bin k }) ∧
      B2.pc = B.pc ∧ B2.threads = laneInsert t B.threads := by
  refine ⟨_, rfl, ?_, ?_⟩ <;> dsimp only <;> (repeat' split) <;> rfl

/-- A thread joins a bin. -/
theorem State.Placing.binAdd {s : State} {g : Nat} {lanes done : List Nat} {dest : Nat → Nat} (h : s.Placing g lanes dest done)
    (k : Nat) (B : Bin) (G : Group) (t : Nat) (hl : t ∈ lanes) (hd : t ∉ done) (hp : dest t = B.pc)
    (hB : (k, B) ∈ s.bins ∨ (s.bins.find k = none ∧ B.threads = [])) : (s.binAdd k B G t).Placing g lanes dest (t :: done) := by
  obtain ⟨B2, e2, b2pc, b2ts⟩ := s.binAdd_bin k B G t
  rw [e2]
  have dsp : ∀ u, ((State.modThread { s with bins := s.bins.put k B2 } t fun T => { T with disp := .bin k }).thread u).disp =
      if u = t then .bin k else (s.thread u).disp := by
    intro u
    rw [State.thread_modThread]
    split <;> rfl
  have mem : ∀ u, u ∈ B.threads → ∀ C, s.bins.find k = some C → u ∈ C.threads := by
    intro u hu C hC
    rcases hB with hm | ⟨hn, _⟩
    · rw [FMap.find_of_mem _ _ h.sorted hm] at hC
      cases hC; exact hu
    · rw [hn] at hC; cases hC
  refine ⟨h.drawn, FMap.sorted_put _ _ _ h.sorted, ?_, fun u hu => ?_, fun p hp' u hu hl' => ?_⟩
  · intro u hu
    rcases List.mem_cons.mp hu with e | hm
    · rw [e]; exact hl
    · exact h.sub u hm
  · by_cases e : u = t
    · subst e
      right
      exact ⟨k, B2, by rw [dsp, if_pos rfl], FMap.find_put_self _ _ _, by rw [b2pc, hp], by rw [b2ts, mem_laneInsert]; exact .inl rfl⟩
    · have hm : u ∈ done := by simpa [e] using hu
      rcases h.placed u hm with ⟨j, G', hd', hj, hg, hp'⟩ | ⟨j, B', hd', hb, hp', hm'⟩
      · left
        exact ⟨j, G', by rw [dsp, if_neg e, hd'], hj, hg, hp'⟩
      · right
        by_cases ej : j = k
        · subst ej
          have same : B' = B := by
            rcases hB with hmB | ⟨hn, _⟩
            · rw [FMap.find_of_mem _ _ h.sorted hmB] at hb
              cases hb; rfl
            · rw [hn] at hb; cases hb
          subst same
          exact ⟨j, B2, by rw [dsp, if_neg e, hd'], FMap.find_put_self _ _ _, by rw [b2pc, hp'],
            by rw [b2ts, mem_laneInsert]; exact .inr hm'⟩
        · exact ⟨j, B', by rw [dsp, if_neg e, hd'], (FMap.find_put_ne _ _ _ _ ej).trans hb, hp', hm'⟩
  · rcases FMap.mem_put _ _ _ _ hp' with e | hm
    · subst e
      rw [b2ts, mem_laneInsert] at hu
      rcases hu with e | hu
      · subst e
        exact ⟨List.mem_cons_self, by rw [dsp, if_pos rfl]⟩
      · rcases hB with hmB | ⟨_, hn⟩
        · have := h.bins _ hmB u hu hl'
          have ne : u ≠ t := fun e => hd (e ▸ this.1)
          exact ⟨List.mem_cons_of_mem _ this.1, by rw [dsp, if_neg ne]; exact this.2⟩
        · rw [hn] at hu; simp at hu
    · have := h.bins p hm u hu hl'
      have ne : u ≠ t := fun e => hd (e ▸ this.1)
      exact ⟨List.mem_cons_of_mem _ this.1, by rw [dsp, if_neg ne]; exact this.2⟩

/-! ## Filing -/

theorem leastBy_mem {α : Type} (f : α → Nat) (l : List α) (x : α) (h : leastBy f l = some x) : x ∈ l := by
  induction l generalizing x with
  | nil => simp [leastBy] at h
  | cons a r ih =>
    unfold leastBy at h
    split at h
    · simp at h; simp [h]
    · next y hy =>
      split at h
      · simp only [Option.some.injEq] at h
        subst h
        exact List.mem_cons_of_mem _ (ih _ hy)
      · simp at h; simp [h]

theorem leastBy_some {α : Type} (f : α → Nat) (l : List α) (h : l ≠ []) : ∃ x, leastBy f l = some x := by
  cases l with
  | nil => exact absurd rfl h
  | cons a r =>
    unfold leastBy
    split
    · exact ⟨a, rfl⟩
    · split <;> exact ⟨_, rfl⟩

/-- A free thread that is filed lies in a bin at its program counter (R102). -/
theorem State.Placing.fileThread {s : State} {g : Nat} {lanes done : List Nat} {dest : Nat → Nat} (h : s.Placing g lanes dest done)
    (G : Group) (t : Nat) (hl : t ∈ lanes) (hd : t ∉ done) : (s.fileThread G (dest t) t).Placing g lanes dest (t :: done) := by
  unfold State.fileThread
  dsimp only
  have sub : ∀ p ∈ s.seqBins (seqOf t), p ∈ s.bins := fun p hp => List.mem_of_mem_filter hp
  split
  · next k B hk =>
    have hm := leastBy_mem _ _ _ hk
    rw [List.mem_filter] at hm
    have pc : B.pc = dest t := by
      have := hm.2
      simp only [Bool.and_eq_true, beq_iff_eq] at this
      exact this.1.1.2
    exact h.binAdd k B G t hl hd pc.symm (.inl (sub _ hm.1))
  · split
    · next n hn =>
      refine h.binAdd _ _ G t hl hd rfl (.inr ⟨?_, rfl⟩)
      have lt : n < Config.binsPerQuarter := by
        have := List.mem_of_find?_eq_some hn
        rw [mem_upFrom] at this
        omega
      have nk := List.find?_some hn
      by_contra hne
      obtain ⟨B, hB⟩ := Option.ne_none_iff_exists'.mp hne
      have mem : (binKey (seqOf t) n, B) ∈ s.bins := by
        clear nk hne
        revert hB
        generalize binKey (seqOf t) n = key
        generalize s.bins = m
        intro hB
        induction m with
        | nil => simp [FMap.find] at hB
        | cons p r ih =>
          obtain ⟨j, v⟩ := p
          unfold FMap.find at hB
          split at hB
          · next e => cases hB; simp [e]
          · exact List.mem_cons_of_mem _ (ih hB)
      have inSeq : (binKey (seqOf t) n, B) ∈ s.seqBins (seqOf t) := by
        unfold State.seqBins
        rw [List.mem_filter]
        refine ⟨mem, ?_⟩
        simp only [beq_iff_eq]
        unfold binKey
        rw [Nat.mul_add_div (by omega), Nat.div_eq_of_lt lt]
        omega
      have : binKey (seqOf t) n ∈ (s.seqBins (seqOf t)).map Prod.fst := List.mem_map.mpr ⟨_, inSeq, rfl⟩
      simp [this] at nk
    · next hnone =>
      split
      · next k B hk =>
        have hm := leastBy_mem _ _ _ hk
        have hmb : (k, B) ∈ s.bins := by
          split at hm
          · exact sub _ hm
          · exact sub _ (List.mem_of_mem_filter hm)
        refine (h.formBin k B true hmb).binAdd k _ G t hl hd rfl (.inr ⟨?_, rfl⟩)
        rw [(s.formBin_facts k B true).2.1]
        exact FMap.find_del_self _ _
      · next hfind =>
        exfalso
        by_cases e : s.seqBins (seqOf t) = []
        · rw [e] at hnone
          have : (upFrom 0 Config.binsPerQuarter).find? (fun n => !((([] : List (Nat × Bin)).map Prod.fst).contains (binKey (seqOf t) n))) =
              some 0 := by rfl
          rw [this] at hnone
          cases hnone
        · have ne : (if ((s.seqBins (seqOf t)).filter fun p => !p.2.candidate).isEmpty then s.seqBins (seqOf t)
              else (s.seqBins (seqOf t)).filter fun p => !p.2.candidate) ≠ [] := by
            split
            · exact e
            · next h => simpa using h
          obtain ⟨x, hx⟩ := leastBy_some (fun p : Nat × Bin => p.2.first) _ ne
          rw [hx] at hfind
          cases hfind

/-! ## A group that divides -/

/-- Other fields than threads, groups, bins and numbers stay when threads are placed. -/
structure State.SameRest (s t : State) : Prop where
  mem : t.mem = s.mem
  blocks : t.blocks = s.blocks
  launches : t.launches = s.launches
  kept : ∀ g, g < s.nextId → t.groups.find g = s.groups.find g
  grows : s.nextId ≤ t.nextId
  clk : ∀ c, t.clk c = s.clk c

theorem State.SameRest.trans {s t u : State} (h : s.SameRest t) (k : t.SameRest u) : s.SameRest u :=
  ⟨k.mem.trans h.mem, k.blocks.trans h.blocks, k.launches.trans h.launches,
    fun g hg => (k.kept g (by have := h.grows; omega)).trans (h.kept g hg), h.grows.trans k.grows, fun c => (k.clk c).trans (h.clk c)⟩

theorem State.SameRest.refl (s : State) : s.SameRest s := ⟨rfl, rfl, rfl, fun _ _ => rfl, Nat.le_refl _, fun _ => rfl⟩

theorem State.groups_takeSlot (s : State) (g k : Nat) (h : k ≠ g) : (s.takeSlot g).groups.find k = s.groups.find k := by
  unfold State.takeSlot
  split
  · rfl
  · dsimp only
    split <;> exact FMap.find_put_ne _ _ _ _ h

theorem State.spawn_rest (s : State) (G : Group) (ts : List Nat) (pc : Nat) : s.SameRest (s.spawn G ts pc) := by
  obtain ⟨h1, _, h3, h4, h5, _⟩ := s.spawn_facts G ts pc
  refine ⟨h3, h4, h5, fun g hg => ?_, by omega, fun c => ?_⟩
  · unfold State.spawn
    dsimp only
    rw [State.groups_takeSlot _ _ _ (by omega), State.enrol_eq]
    exact FMap.find_put_ne _ _ _ _ (by omega)
  · unfold State.spawn
    dsimp only
    rw [State.takeSlot_eq, State.enrol_eq]; rfl

theorem State.binAdd_rest (s : State) (k : Nat) (B : Bin) (G : Group) (t : Nat) : s.SameRest (s.binAdd k B G t) :=
  ⟨rfl, rfl, rfl, fun _ _ => rfl, Nat.le_refl _, fun _ => rfl⟩

theorem State.formBin_rest (s : State) (k : Nat) (B : Bin) (c : Bool) : s.SameRest (s.formBin k B c) := by
  obtain ⟨h1, _, h3, h4, h5, _⟩ := s.formBin_facts k B c
  refine ⟨h3, h4, h5, fun g hg => ?_, by omega, fun c => ?_⟩
  · unfold State.formBin
    dsimp only
    rw [State.enrol_eq]
    exact FMap.find_put_ne _ _ _ _ (by omega)
  · unfold State.formBin
    dsimp only
    rw [State.enrol_eq]; rfl

theorem State.fileThread_rest (s : State) (G : Group) (pc t : Nat) : s.SameRest (s.fileThread G pc t) := by
  unfold State.fileThread
  dsimp only
  split
  · exact s.binAdd_rest _ _ _ _
  · split
    · exact s.binAdd_rest _ _ _ _
    · split
      · exact (s.formBin_rest _ _ _).trans (State.binAdd_rest _ _ _ _ _)
      · exact .refl s

theorem mem_classes (moves : List (Nat × Nat)) (p : Nat × List Nat) (h : p ∈ classes moves) (u : Nat) :
    u ∈ p.2 ↔ (u, p.1) ∈ moves := by
  unfold classes at h
  obtain ⟨q, _, e⟩ := List.mem_map.mp h
  subst e
  simp

theorem classes_cover (moves : List (Nat × Nat)) (m : Nat × Nat) (h : m ∈ moves) : m.2 ∈ (classes moves).map Prod.fst := by
  have key : ∀ (l : List (Nat × Nat)) (acc : List Nat), (m.2 ∈ acc ∨ m ∈ l) →
      m.2 ∈ l.foldl (fun l m => if l.contains m.2 then l else l ++ [m.2]) acc := by
    intro l
    induction l with
    | nil => intro acc h; simpa using h
    | cons a r ih =>
      intro acc h
      rw [List.foldl_cons]
      refine ih _ ?_
      rcases h with h | h
      · left; split <;> simp [h]
      · rcases List.mem_cons.mp h with e | h
        · subst e; left; split
          · next hc => simpa using hc
          · simp
        · exact .inr h
  unfold classes
  simp only [List.map_map, Function.comp_def, List.map_id']
  exact key moves [] (.inr h)

theorem classes_nodup (moves : List (Nat × Nat)) : ((classes moves).map Prod.fst).Nodup := by
  have key : ∀ (l : List (Nat × Nat)) (acc : List Nat), acc.Nodup →
      (l.foldl (fun l m => if l.contains m.2 then l else l ++ [m.2]) acc).Nodup := by
    intro l
    induction l with
    | nil => intro acc h; exact h
    | cons a r ih =>
      intro acc h
      rw [List.foldl_cons]
      refine ih _ ?_
      split
      · exact h
      · next hc =>
        rw [List.nodup_append]
        refine ⟨h, by simp, fun x hx y hy e => ?_⟩
        simp at hy hc
        subst hy; subst e; exact hc hx
  unfold classes
  simp only [List.map_map, Function.comp_def, List.map_id']
  exact key moves [] List.nodup_nil

/-- New groups for classes of threads. -/
theorem State.Placing.spawns {s : State} {g : Nat} {lanes done : List Nat} {dest : Nat → Nat} (h : s.Placing g lanes dest done)
    (G : Group) (cs : List (Nat × List Nat)) (hn : (cs.map Prod.fst).Nodup)
    (hc : ∀ p ∈ cs, ∀ u ∈ p.2, u ∈ lanes ∧ u ∉ done ∧ dest u = p.1) :
    ∃ done', (cs.foldl (fun s p => s.spawn G p.2 p.1) s).Placing g lanes dest done' ∧
      s.SameRest (cs.foldl (fun s p => s.spawn G p.2 p.1) s) ∧ ∀ u, u ∈ done' ↔ u ∈ done ∨ ∃ p ∈ cs, u ∈ p.2 := by
  induction cs generalizing s done with
  | nil => exact ⟨done, h, .refl s, by simp⟩
  | cons p r ih =>
    rw [List.map_cons, List.nodup_cons] at hn
    have h1 := h.spawn G p.2 p.1 (hc p List.mem_cons_self)
    obtain ⟨d, k1, k2, k3⟩ := ih h1 hn.2 fun q hq u hu => by
      have a := hc q (List.mem_cons_of_mem _ hq) u hu
      refine ⟨a.1, fun hm => ?_, a.2.2⟩
      rcases List.mem_append.mp hm with hm | hm
      · have b := hc p List.mem_cons_self u hm
        exact hn.1 (List.mem_map.mpr ⟨q, hq, a.2.2.symm.trans b.2.2⟩)
      · exact a.2.1 hm
    refine ⟨d, k1, (s.spawn_rest _ _ _).trans k2, fun u => ?_⟩
    rw [k3, List.mem_append]
    simp only [List.mem_cons, exists_eq_or_imp]
    tauto

theorem State.Placing.files {s : State} {g : Nat} {lanes done : List Nat} {dest : Nat → Nat} (h : s.Placing g lanes dest done)
    (G : Group) (ms : List (Nat × Nat)) (hn : (ms.map Prod.fst).Nodup)
    (hc : ∀ m ∈ ms, m.1 ∈ lanes ∧ m.1 ∉ done ∧ dest m.1 = m.2) :
    ∃ done', (ms.foldl (fun s m => s.fileThread G m.2 m.1) s).Placing g lanes dest done' ∧
      s.SameRest (ms.foldl (fun s m => s.fileThread G m.2 m.1) s) ∧ ∀ u, u ∈ done' ↔ u ∈ done ∨ u ∈ ms.map Prod.fst := by
  induction ms generalizing s done with
  | nil => exact ⟨done, h, .refl s, by simp⟩
  | cons m r ih =>
    rw [List.map_cons, List.nodup_cons] at hn
    have a := hc m List.mem_cons_self
    have h1 := h.fileThread G m.1 a.1 a.2.1
    rw [a.2.2] at h1
    obtain ⟨d, k1, k2, k3⟩ := ih h1 hn.2 fun q hq => by
      have c := hc q (List.mem_cons_of_mem _ hq)
      refine ⟨c.1, fun hm => ?_, c.2.2⟩
      rcases List.mem_cons.mp hm with e | hm
      · exact hn.1 (List.mem_map.mpr ⟨q, hq, e⟩)
      · exact c.2.1 hm
    refine ⟨d, k1, (s.fileThread_rest _ _ _).trans k2, fun u => ?_⟩
    rw [k3, List.map_cons, List.mem_cons, List.mem_cons]
    tauto

/-- The threads of a group that divides go where they are sent, as fragments or through bins (R100). -/
theorem State.disperse_places (s : State) (g : Nat) (G : Group) (lanes : List Nat) (dest : Nat → Nat) (moves : List (Nat × Nat))
    (hp : s.Placing g lanes dest []) (hn : (moves.map Prod.fst).Nodup) (hm : ∀ m ∈ moves, m.1 ∈ lanes ∧ dest m.1 = m.2) :
    (∀ m ∈ moves, (s.disperse G moves).Placed g m.1 m.2) ∧ s.SameRest (s.disperse G moves) := by
  unfold State.disperse
  dsimp only
  set pinned := moves.filter fun m => (s.thread m.1).pinned with hpin
  set free := moves.filter fun m => !(s.thread m.1).pinned with hfree
  have inP : ∀ m, m ∈ pinned → m ∈ moves := fun m h => List.mem_of_mem_filter h
  have inF : ∀ m, m ∈ free → m ∈ moves := fun m h => List.mem_of_mem_filter h
  obtain ⟨d1, p1, r1, c1⟩ := hp.spawns G (classes pinned) (classes_nodup _) fun p h u hu => by
    rw [mem_classes _ _ h] at hu
    exact ⟨(hm _ (inP _ hu)).1, by simp, (hm _ (inP _ hu)).2⟩
  have d1mem : ∀ u, u ∈ d1 → ∃ pc, (u, pc) ∈ pinned := by
    intro u hu
    rw [c1] at hu
    rcases hu with h | ⟨p, hp', hu⟩
    · simp at h
    · exact ⟨p.1, (mem_classes _ _ hp' u).mp hu⟩
  have apart : ∀ m ∈ free, m.1 ∉ d1 := by
    intro m hf hd
    obtain ⟨pc, hpc⟩ := d1mem _ hd
    have a := (List.mem_filter.mp hf).2
    have b := (List.mem_filter.mp hpc).2
    simp only at a b
    rw [b] at a
    cases a
  have cover : ∀ m ∈ pinned, m.1 ∈ d1 := by
    intro m h
    rw [c1]
    right
    obtain ⟨p, hp', e⟩ := List.mem_map.mp (classes_cover _ m h)
    exact ⟨p, hp', (mem_classes _ _ hp' m.1).mpr (by rw [e]; exact h)⟩
  have split : ∀ m ∈ moves, m ∈ pinned ∨ m ∈ free := by
    intro m h
    cases e : (s.thread m.1).pinned
    · exact .inr (List.mem_filter.mpr ⟨h, by simp [e]⟩)
    · exact .inl (List.mem_filter.mpr ⟨h, e⟩)
  have fn : (free.map Prod.fst).Nodup := hn.sublist ((List.filter_sublist).map _)
  obtain ⟨d2, p2, r2, c2⟩ := p1.files G free fn fun m h => ⟨(hm _ (inF _ h)).1, apart _ h, (hm _ (inF _ h)).2⟩
  refine ⟨fun m h => ?_, r1.trans r2⟩
  have : m.1 ∈ d2 := by
    rw [c2]
    rcases split m h with a | a
    · exact .inl (cover m a)
    · exact .inr (List.mem_map.mpr ⟨m, a, rfl⟩)
  have := p2.placed _ this
  rwa [(hm m h).2] at this

/-! ## Registers and predicates -/

/-- The registers, predicates and quarters of every thread are the same in two states. -/
def State.SameData (s t : State) : Prop :=
  ∀ u, (t.thread u).regs = (s.thread u).regs ∧ (t.thread u).preds = (s.thread u).preds ∧
    (t.thread u).quarters = (s.thread u).quarters

theorem State.SameData.refl (s : State) : s.SameData s := fun _ => ⟨rfl, rfl, rfl⟩

theorem State.SameData.trans {s t u : State} (h : s.SameData t) (k : t.SameData u) : s.SameData u := fun v =>
  ⟨(k v).1.trans (h v).1, (k v).2.1.trans (h v).2.1, (k v).2.2.trans (h v).2.2⟩

theorem State.SameData.of_threads {s t : State} (h : t.threads = s.threads) : s.SameData t := fun u => by
  unfold State.thread; rw [h]; exact ⟨rfl, rfl, rfl⟩

theorem State.SameData.modThread (s : State) (t : Nat) (f : Thread → Thread)
    (hf : ∀ T, (f T).regs = T.regs ∧ (f T).preds = T.preds ∧ (f T).quarters = T.quarters) : s.SameData (s.modThread t f) := fun u => by
  rw [State.thread_modThread]
  split
  · exact hf _
  · exact ⟨rfl, rfl, rfl⟩

theorem State.SameData.modThreads (s : State) (ts : List Nat) (f : Thread → Thread)
    (hf : ∀ T, (f T).regs = T.regs ∧ (f T).preds = T.preds ∧ (f T).quarters = T.quarters) : s.SameData (s.modThreads ts f) := by
  unfold State.modThreads
  exact foldl_keeps (s.SameData ·) _ (fun a t h => h.trans (.modThread a t f hf)) ts s (.refl s)

theorem State.SameData.spawn (s : State) (G : Group) (ts : List Nat) (pc : Nat) : s.SameData (s.spawn G ts pc) := by
  unfold State.spawn
  dsimp only
  refine .trans ?_ (.of_threads (by rw [State.takeSlot_eq]))
  exact .trans (.of_threads rfl) (State.SameData.modThreads _ _ _ fun _ => ⟨rfl, rfl, rfl⟩)

theorem State.SameData.binAdd (s : State) (k : Nat) (B : Bin) (G : Group) (t : Nat) : s.SameData (s.binAdd k B G t) := by
  unfold State.binAdd
  dsimp only
  exact .trans (.of_threads rfl) (State.SameData.modThread _ _ _ fun _ => ⟨rfl, rfl, rfl⟩)

theorem State.SameData.formBin (s : State) (k : Nat) (B : Bin) (c : Bool) : s.SameData (s.formBin k B c) := by
  unfold State.formBin
  dsimp only
  exact .trans (.of_threads rfl) (State.SameData.modThreads _ _ _ fun _ => ⟨rfl, rfl, rfl⟩)

theorem State.SameData.fileThread (s : State) (G : Group) (pc t : Nat) : s.SameData (s.fileThread G pc t) := by
  unfold State.fileThread
  dsimp only
  split
  · exact .binAdd _ _ _ _ _
  · split
    · exact .binAdd _ _ _ _ _
    · split
      · exact .trans (.formBin _ _ _ _) (.binAdd _ _ _ _ _)
      · exact .refl s

theorem State.SameData.disperse (s : State) (G : Group) (moves : List (Nat × Nat)) : s.SameData (s.disperse G moves) := by
  unfold State.disperse
  dsimp only
  have sp : ∀ (a : State) (cs : List (Nat × List Nat)), a.SameData (cs.foldl (fun s p => s.spawn G p.2 p.1) a) := fun a cs =>
    foldl_keeps (a.SameData ·) _ (fun b p h => h.trans (.spawn b _ _ _)) cs a (.refl a)
  have fl : ∀ (a : State) (ms : List (Nat × Nat)), a.SameData (ms.foldl (fun s m => s.fileThread G m.2 m.1) a) := fun a ms =>
    foldl_keeps (a.SameData ·) _ (fun b p h => h.trans (.fileThread b _ _ _)) ms a (.refl a)
  exact (sp _ _).trans (fl _ _)

theorem State.deliver_threads (s : State) (g pc : Nat) (ts : List Nat) : s.SameData (s.deliver g pc ts) := by
  unfold State.deliver
  split
  · exact .refl s
  · split
    · exact .of_threads rfl
    · split
      · exact .refl s
      unfold State.enterHandler
      split
      · exact .refl s
      · exact (State.SameData.modThreads s ts (fun T => { T with fixed := [] }) fun _ => ⟨rfl, rfl, rfl⟩).trans (.of_threads rfl)

theorem State.finish_data (s : State) (g : Nat) (G : Group) (moves : List (Nat × Nat)) (cs : List LaneCause) (stopped : List Nat) :
    s.SameData (s.finish g G moves cs stopped) := by
  unfold State.finish
  split
  · unfold State.regroup
    split
    · exact .of_threads rfl
    · exact .of_threads rfl
    · exact .trans (.of_threads rfl) (.disperse _ _ _)
  · dsimp only
    refine .trans ?_ (State.deliver_threads _ _ _ _)
    split
    · exact .of_threads rfl
    · exact .trans (.of_threads rfl) (.disperse _ _ _)

theorem State.SameData.reg {s t : State} (h : s.SameData t) (u n : Nat) : (t.thread u).reg n = (s.thread u).reg n := by
  unfold Thread.reg Thread.quarter
  rw [(h u).1, (h u).2.2]

theorem State.SameData.pred {s t : State} (h : s.SameData t) (u k : Nat) : (t.thread u).pred k = (s.thread u).pred k := by
  unfold Thread.pred
  rw [(h u).2.1]

/-- The end of a word leaves registers and predicates as they are, but for a quarter that its release hint turns OFF. -/
theorem Env.finish_regs (E : Env) (s : State) (cs : List LaneCause) (moves : List (Nat × Nat)) (busy : Nat) (gone : List Nat)
    (hn : E.occ.Nodup) (u : Nat) :
    (∀ k, ((E.finish s cs moves busy gone).thread u).pred k = (s.thread u).pred k) ∧
    ∀ n, ((E.finish s cs moves busy gone).thread u).reg n =
      if u ∈ E.occ ∧ hintOff E.h (quarterOf n) = true then 0 else (s.thread u).reg n := by
  unfold Env.finish
  dsimp only
  set mv := moves.filter fun m => !(E.G.lanes.filter fun t => (E.causes ++ cs).any fun c => c.thread == t).contains m.1
  set a := (s.noteIssue E.G E.clk (s.gatherOf E.G.core E.G.quarter E.i)).retire E.G (mv.map Prod.fst ++ gone) with ha
  have ret : s.SameData a := by
    rw [ha]
    unfold State.retire
    dsimp only
    have m : (s.noteIssue E.G E.clk (s.gatherOf E.G.core E.G.quarter E.i)).SameData ((s.noteIssue E.G E.clk (s.gatherOf E.G.core E.G.quarter E.i)).modThreads (mv.map Prod.fst ++ gone) fun T =>
        { T with rcnt := if T.again then T.rcnt else T.rcnt + 1, again := false }) :=
      State.SameData.modThreads _ _ _ fun _ => ⟨rfl, rfl, rfl⟩
    split
    · exact .trans (.trans (.of_threads rfl) m) (.of_threads (by rw [State.modBside_eq]))
    · exact .trans (.of_threads rfl) m
  have fin : ∀ (b : State) (g : Nat) (G : Group) (ms : List (Nat × Nat)) (c : List LaneCause) (st : List Nat) (n : Nat),
      b.SameData { b.finish g G ms c st with freeCtr := n } := fun b g G ms c st n =>
    .trans (State.finish_data b g G ms c st) (.of_threads rfl)
  refine ⟨fun k => ?_, fun n => ?_⟩
  · rw [(fin _ _ _ _ _ _ _).pred]
    by_cases hu : u ∈ E.occ
    · have := (State.thread_applyHint a E.h E.occ u hu hn).1
      rw [this]
      exact ret.pred u k
    · rw [State.thread_applyHint_out _ _ _ _ hu]
      exact ret.pred u k
  · rw [(fin _ _ _ _ _ _ _).reg]
    by_cases hu : u ∈ E.occ
    · rw [(State.thread_applyHint a E.h E.occ u hu hn).2 n, ret.reg]
      simp [hu]
    · rw [State.thread_applyHint_out _ _ _ _ hu, ret.reg]
      simp [hu]

/-! ## A word that stops some lanes -/

theorem Group.recordAll_rest (G : Group) (pc : Nat) (cs : List LaneCause) :
    G.recordAll pc cs = { G with causes := (G.recordAll pc cs).causes, masks := (G.recordAll pc cs).masks
                                 faults := (G.recordAll pc cs).faults } := by
  unfold Group.recordAll
  induction cs generalizing G with
  | nil => rfl
  | cons c r ih => rw [List.foldl_cons, ih]; rfl

/-- What is recorded depends only on what a group has recorded before. -/
theorem Group.recordAll_congr (G H : Group) (pc : Nat) (cs : List LaneCause) (h1 : H.causes = G.causes) (h2 : H.masks = G.masks)
    (h3 : H.faults = G.faults) : (H.recordAll pc cs).causes = (G.recordAll pc cs).causes ∧
    (H.recordAll pc cs).masks = (G.recordAll pc cs).masks ∧ (H.recordAll pc cs).faults = (G.recordAll pc cs).faults := by
  unfold Group.recordAll
  induction cs generalizing G H with
  | nil => exact ⟨h1, h2, h3⟩
  | cons c r ih =>
    rw [List.foldl_cons, List.foldl_cons]
    refine ih _ _ ?_ ?_ ?_ <;> simp only [Group.record, h1, h2, h3]

/-- What `State.Stops` reads of the state before. -/
theorem State.Stops.from {s r t : State} {g : Nat} {G : Group} {cs : List LaneCause} {dest : Nat → Nat} (h : r.Stops t g G cs dest)
    (hm : r.mem = s.mem) (hl : r.launches = s.launches) (ht : (r.bside G.block G.core).tvec = (s.bside G.block G.core).tvec)
    (hb : (r.block G.block).launch = (s.block G.block).launch) (hg : r.handling G = s.handling G) : s.Stops t g G cs dest :=
  ⟨by rw [← ht]; exact h.group, by rw [← ht, ← hl, ← hg]; exact h.handled, by rw [← ht, ← hl, ← hb, ← hg]; exact h.aborted, h.others,
    h.mem.trans hm⟩

theorem State.thread_congr {s t : State} (h : t.threads = s.threads) (u : Nat) : t.thread u = s.thread u := by
  unfold State.thread; rw [h]

/-- The end of a word in some of whose lanes causes are raised. -/
theorem Env.finish_stops (E : Env) (s : State) (cs : List LaneCause) (moves : List (Nat × Nat)) (busy : Nat) (gone : List Nat)
    (dest : Nat → Nat) (hs : E.G.struck (E.causes ++ cs) ≠ []) (ha : s.Apart E.g E.G) (hn : (moves.map Prod.fst).Nodup)
    (hc : ∀ u ∈ E.G.lanes, u ∉ E.G.struck (E.causes ++ cs) → (u, dest u) ∈ moves)
    (hm : ∀ m ∈ moves, m.1 ∈ E.G.lanes ∧ dest m.1 = m.2) :
    s.Stops (E.finish s cs moves busy gone) E.g E.G (E.causes ++ cs) dest := by
  unfold Env.finish
  dsimp only
  set stopped := E.G.lanes.filter fun t => (E.causes ++ cs).any fun c => c.thread == t with hst
  have hstr : E.G.struck (E.causes ++ cs) = stopped := rfl
  rw [hstr] at hs
  set mv := moves.filter fun m => !stopped.contains m.1 with hmv
  set at_ := max E.G.readyAt (E.clk + max (max E.h.stall.val 1) busy)
  set G' : Group := { E.G with readyAt := at_, since := at_ } with hG'
  set a := ((s.noteIssue E.G E.clk (s.gatherOf E.G.core E.G.quarter E.i)).retire E.G (mv.map Prod.fst ++ gone)).applyHint E.h E.occ with haDef
  have aeq : a = { s with threads := a.threads, blocks := a.blocks, seqs := (s.noteIssue E.G E.clk (s.gatherOf E.G.core E.G.quarter E.i)).seqs } := by
    rw [haDef, State.applyHint_eq, State.retire_eq]
    simp [State.noteIssue, State.modSeqr]
  have ablk : a.block E.G.block = ((s.noteIssue E.G E.clk (s.gatherOf E.G.core E.G.quarter E.i)).retire E.G (mv.map Prod.fst ++ gone)).block E.G.block := by
    rw [haDef, State.applyHint_eq]; rfl
  have alaunch : (a.block E.G.block).launch = (s.block E.G.block).launch := by
    rw [ablk, State.block_retire_self]; rfl
  have atvec : (a.bside E.G.block E.G.core).tvec = (s.bside E.G.block E.G.core).tvec := by
    unfold State.bside State.sideOf
    rw [ablk, State.block_retire_self]
    show (if (if E.G.core = (s.block E.G.block).core then 0 else 1) = 0 then _ else _ : BSide).tvec =
      (if (if E.G.core = (s.block E.G.block).core then 0 else 1) = 0 then (s.block E.G.block).lead else (s.block E.G.block).follow).tvec
    split <;> rfl
  set cl := E.G.lanes.filterMap fun t => (E.causes ++ cs).find? fun c => c.thread == t with hcl
  have hfirst : E.G.firsts (E.causes ++ cs) = cl := rfl
  set R := ({ G' with lanes := stopped } : Group).recordAll G'.pc cl with hR
  have Req := Group.recordAll_rest ({ G' with lanes := stopped } : Group) G'.pc cl
  have Rrec := Group.recordAll_congr E.G ({ G' with lanes := stopped } : Group) E.G.pc cl rfl rfl rfl
  set s1 := a.setGroup E.g R with hs1
  set s2 := (if mv.isEmpty then s1 else s1.disperse G' mv) with hs2
  have notIn : ∀ m ∈ mv, m.1 ∉ stopped := by
    intro m hm' hx
    have := (List.mem_filter.mp hm').2
    simp [hx] at this
  have pl : s1.Placing E.g E.G.lanes dest [] := by
    refine ⟨?_, ?_, by simp, by simp, fun p hp u hu hl => ?_⟩
    · rw [hs1, aeq]; exact ha.drawn
    · rw [hs1, aeq]; exact ha.sorted
    · rw [hs1, aeq] at hp
      exact absurd hl (ha.free p hp u hu)
  have mvn : (mv.map Prod.fst).Nodup := hn.sublist ((List.filter_sublist).map _)
  have disp := s1.disperse_places E.g G' E.G.lanes dest mv pl mvn fun m h => hm m (List.mem_of_mem_filter h)
  have rest : s1.SameRest s2 := by
    rw [hs2]; split
    · exact .refl _
    · exact disp.2
  have placed : ∀ m ∈ mv, s2.Placed E.g m.1 m.2 := by
    intro m h
    rw [hs2, if_neg (by intro e; simp at e; rw [e] at h; simp at h)]
    exact disp.1 m h
  have found : s2.groups.find E.g = some R := by
    rw [rest.kept E.g (by rw [hs1, aeq]; exact ha.drawn), hs1]
    exact FMap.find_put_self _ _ _
  have s2bl : s2.blocks = a.blocks := rest.blocks
  have s2side : (s2.bside R.block R.core).tvec = (s.bside E.G.block E.G.core).tvec := by
    have : s2.bside R.block R.core = a.bside E.G.block E.G.core := by
      rw [hR, Req]; unfold State.bside State.sideOf State.block; rw [s2bl]
    rw [this, atvec]
  have s2launch : (s2.block R.block).launch = (s.block E.G.block).launch := by
    rw [hR, Req]; unfold State.block; rw [s2bl]; exact alaunch
  have s2la : s2.launches = s.launches := by rw [rest.launches, hs1, aeq]; rfl
  have s2mem : s2.mem = s.mem := by rw [rest.mem, hs1, aeq]; rfl
  have fin : a.finish E.g G' mv cl stopped = s2.deliver E.g G'.pc stopped := by
    unfold State.finish
    rw [if_neg (by simpa using hs)]
  rw [fin]
  have Rin : R.inHandler = E.G.inHandler := by rw [hR, Req]
  have s2clk : s2.clk R.core = s.clk E.G.core := by
    have a1 : s2.clk R.core = a.clk R.core := rest.clk R.core
    have a2 : R.core = E.G.core := by rw [hR, Req]
    rw [a1, a2, aeq]; rfl
  have Rhand : s2.handling R = s.handling E.G := by
    have a3 : R.enterAt = E.G.enterAt := by rw [hR, Req]
    unfold State.handling
    rw [Rin, a3, s2clk]
  have other : ∀ (t : State), t.bins = s2.bins → (∀ k, k ≠ E.g → t.groups.find k = s2.groups.find k) →
      (∀ u, u ∉ stopped → (t.thread u).disp = (s2.thread u).disp) → (∀ u, (s2.thread u).disp = .group E.g → u ∉ mv.map Prod.fst) →
      ∀ u ∈ E.G.lanes, u ∉ stopped → t.pcOf u = some (dest u) := by
    intro t hb hg hd hx u hu hns
    have inMv : (u, dest u) ∈ mv := List.mem_filter.mpr ⟨hc u hu hns, by simp [hns]⟩
    have := (placed _ inMv).pcOf
    rw [← this]
    unfold State.pcOf
    rw [hd u hns, hb]
    split
    · next k hk =>
      by_cases e : k = E.g
      · subst e
        exact absurd (List.mem_map.mpr ⟨_, inMv, rfl⟩) (hx u hk)
      · rw [hg k e]; simp only [hk]
    · next k hk => simp only [hk]
    · next hk => simp only [hk]
  have notg : ∀ u, (s2.thread u).disp = .group E.g → u ∉ mv.map Prod.fst := by
    intro u hd hin
    obtain ⟨m, hm', e⟩ := List.mem_map.mp hin
    rcases placed m hm' with ⟨k, _, h, hk, _⟩ | ⟨k, _, h, _⟩
    · rw [e, hd] at h
      cases h
      exact hk.2 rfl
    · rw [e, hd] at h
      cases h
  have recorded : R.lanes = stopped ∧ R.causes = (E.G.recordAll E.G.pc cl).causes ∧ R.masks = (E.G.recordAll E.G.pc cl).masks ∧
      R.faults = (E.G.recordAll E.G.pc cl).faults ∧ R.wait = E.G.wait := by
    refine ⟨?_, Rrec.1, Rrec.2.1, Rrec.2.2, ?_⟩ <;> rw [hR, Req]
  unfold State.deliver
  rw [found]
  dsimp only
  rw [s2side, Rhand, s2launch]
  by_cases hcase : (s.bside E.G.block E.G.core).tvec = 0 ∨ s.handling E.G = true
  · rw [if_pos hcase]
    have fnd : (FMap.adjust s2.groups E.g fun G => { G with deliver := none }).find E.g = some { R with deliver := none } := by
      rw [FMap.find_adjust, if_pos rfl, found]; rfl
    refine ⟨⟨_, fnd, recorded.1, recorded.2.1, recorded.2.2.1, recorded.2.2.2.1, recorded.2.2.2.2, fun h1 h2 => ?_⟩, fun h1 h2 => ?_,
      fun _ => ?_, ?_, s2mem⟩
    · rcases hcase with h | h
      · exact absurd h h1
      · unfold State.handling at h; rw [h2] at h; cases h
    · rcases hcase with h | h
      · exact absurd h h1
      · rw [h2] at h; cases h
    · show (FMap.adjust s2.launches (s.block E.G.block).launch fun L =>
        if L.ending ∨ L.state = .complete then L else { L with ending := true, status := stAborted }) = _
      rw [s2la]
      rfl
    · refine other _ rfl (fun k hk => ?_) (fun _ _ => rfl) notg
      show (FMap.adjust s2.groups E.g fun G => { G with deliver := none }).find k = _
      rw [FMap.find_adjust, if_neg hk]
  · rw [if_neg hcase]
    have hno := not_or.mp hcase
    rw [Rin]
    by_cases hin : E.G.inHandler = true
    · rw [if_pos hin]
      exact ⟨⟨R, found, recorded.1, recorded.2.1, recorded.2.2.1, recorded.2.2.2.1, recorded.2.2.2.2, fun _ h => by rw [hin] at h; cases h⟩,
        fun _ _ => s2la, fun h => absurd h hcase, other _ rfl (fun _ _ => rfl) (fun _ _ => rfl) notg, s2mem⟩
    rw [if_neg hin]
    unfold State.enterHandler
    rw [found]
    dsimp only
    set m := s2.modThreads stopped fun T => { T with fixed := [] } with hmt
    have meq : m = { s2 with threads := m.threads } := s2.modThreads_eq _ _
    refine ⟨⟨_, FMap.find_put_self _ _ _, rfl, recorded.2.1, recorded.2.2.1, recorded.2.2.2.1, recorded.2.2.2.2, fun _ _ => ?_⟩,
      fun _ _ => ?_, fun h => absurd h hcase, ?_, ?_⟩
    · exact ⟨s2side, rfl, rfl, rfl⟩
    · show m.launches = _
      rw [meq]; exact s2la
    · refine other _ ?_ (fun k hk => ?_) (fun u hu => ?_) notg
      · show m.bins = _
        rw [meq]
      · refine (FMap.find_put_ne _ _ _ _ hk).trans ?_
        rw [meq]
      · show (m.thread u).disp = _
        rw [hmt, State.thread_modThreads_out _ _ _ _ hu]
    · show m.mem = _
      rw [meq]; exact s2mem

/-- The end of a word without a cause that sends the lanes of its group to several program counters. -/
theorem Env.finish_divides (E : Env) (s : State) (moves : List (Nat × Nat)) (busy : Nat) (gone : List Nat) (dest : Nat → Nat)
    (hc : E.causes = []) (ha : s.Apart E.g E.G) (hn : (moves.map Prod.fst).Nodup) (h2 : 2 ≤ (classes moves).length)
    (hm : ∀ m ∈ moves, m.1 ∈ E.G.lanes ∧ dest m.1 = m.2) :
    (∀ m ∈ moves, (E.finish s [] moves busy gone).pcOf m.1 = some m.2) ∧ (E.finish s [] moves busy gone).mem = s.mem ∧
      (E.finish s [] moves busy gone).launches = s.launches := by
  unfold Env.finish
  dsimp only
  have none : (E.G.lanes.filter fun t => (E.causes ++ []).any fun c => c.thread == t) = [] := by simp [hc]
  rw [none]
  have mv : (moves.filter fun m => !([] : List Nat).contains m.1) = moves := by simp
  rw [mv]
  set at_ := max E.G.readyAt (E.clk + max (max E.h.stall.val 1) busy)
  set G' : Group := { E.G with readyAt := at_, since := at_ } with hG'
  set a := ((s.noteIssue E.G E.clk (s.gatherOf E.G.core E.G.quarter E.i)).retire E.G (moves.map Prod.fst ++ gone)).applyHint E.h E.occ with haDef
  have aeq : a = { s with threads := a.threads, blocks := a.blocks, seqs := (s.noteIssue E.G E.clk (s.gatherOf E.G.core E.G.quarter E.i)).seqs } := by
    rw [haDef, State.applyHint_eq, State.retire_eq]
    simp [State.noteIssue, State.modSeqr]
  have fin : ∀ cl, a.finish E.g G' moves cl [] = (a.delGroup E.g).disperse G' moves := by
    intro cl
    unfold State.finish State.regroup
    simp only [List.isEmpty_nil, if_true]
    split
    · next h => rw [h] at h2; simp at h2
    · next h => rw [h] at h2; simp at h2
    · rfl
  rw [fin]
  have pl : (a.delGroup E.g).Placing E.g E.G.lanes dest [] := by
    refine ⟨?_, ?_, by simp, by simp, fun p hp u hu hl => ?_⟩
    · rw [aeq]; exact ha.drawn
    · rw [aeq]; exact ha.sorted
    · rw [aeq] at hp
      exact absurd hl (ha.free p hp u hu)
  have disp := (a.delGroup E.g).disperse_places E.g G' E.G.lanes dest moves pl hn hm
  refine ⟨fun m h => (disp.1 m h).pcOf, ?_, ?_⟩
  · show ((a.delGroup E.g).disperse G' moves).mem = _
    rw [disp.2.mem, aeq]; rfl
  · show ((a.delGroup E.g).disperse G' moves).launches = _
    rw [disp.2.launches, aeq]; rfl

end Machine
end Sys2Proof
end

