-- ==== Sys2Proof/Laws/Branch.lean ====
section
/-!
SUPPORT. Where a branching word sends the lanes of its group (R98 to R100).
-/

namespace Sys2Proof
namespace Machine

/-- Two states that differ in threads, groups, bins and numbers only. -/
def State.SamePlaces (s t : State) : Prop :=
  t = { s with threads := t.threads, groups := t.groups, bins := t.bins, nextId := t.nextId }

theorem State.spawn_only (s : State) (G : Group) (ts : List Nat) (pc : Nat) : s.SamePlaces (s.spawn G ts pc) := by
  unfold State.spawn State.SamePlaces
  dsimp only
  rw [State.takeSlot_eq, State.enrol_eq]
  rfl

theorem State.binAdd_only (s : State) (k : Nat) (B : Bin) (G : Group) (t : Nat) : s.SamePlaces (s.binAdd k B G t) := rfl

theorem State.formBin_only (s : State) (k : Nat) (B : Bin) (c : Bool) : s.SamePlaces (s.formBin k B c) := by
  unfold State.formBin State.SamePlaces
  dsimp only
  rw [State.enrol_eq]
  rfl

theorem State.SamePlaces.trans {s t u : State} (h : s.SamePlaces t) (k : t.SamePlaces u) : s.SamePlaces u := by
  unfold State.SamePlaces at *
  rw [h] at k
  exact k

theorem State.fileThread_only (s : State) (G : Group) (pc t : Nat) : s.SamePlaces (s.fileThread G pc t) := by
  unfold State.fileThread
  dsimp only
  split
  · exact s.binAdd_only _ _ _ _
  · split
    · exact s.binAdd_only _ _ _ _
    · split
      · exact State.SamePlaces.trans (s.formBin_only _ _ _) (State.binAdd_only _ _ _ _ _)
      · rfl

theorem State.foldl_places {α : Type} (f : State → α → State) (h : ∀ (s : State) (x : α), s.SamePlaces (f s x)) (l : List α) (s : State) :
    s.SamePlaces (l.foldl f s) := by
  induction l generalizing s with
  | nil => rfl
  | cons x r ih => exact (h s x).trans (ih _)

theorem State.disperse_only (s : State) (G : Group) (moves : List (Nat × Nat)) : s.SamePlaces (s.disperse G moves) := by
  have sp : ∀ (s : State) (p : Nat × List Nat), s.SamePlaces (s.spawn G p.2 p.1) := fun s p => s.spawn_only G p.2 p.1
  unfold State.disperse
  dsimp only
  exact (State.foldl_places _ sp _ _).trans (State.foldl_places (fun (s : State) (m : Nat × Nat) => s.fileThread G m.2 m.1)
    (fun s m => s.fileThread_only _ _ _) _ _)

/-- All of a thread but its place is the same in two states. -/
def State.SameThreads (s t : State) : Prop := ∀ u, t.thread u = { s.thread u with disp := (t.thread u).disp }

theorem State.SameThreads.refl (s : State) : s.SameThreads s := fun _ => rfl

theorem State.SameThreads.trans {s t u : State} (h : s.SameThreads t) (k : t.SameThreads u) : s.SameThreads u := fun v => by
  have := k v
  rw [h v] at this
  exact this

theorem State.SameThreads.of_threads {s t : State} (h : t.threads = s.threads) : s.SameThreads t := fun u => by
  rw [State.thread_congr h]

theorem State.SameThreads.disps (s : State) (ts : List Nat) (d : Disp) :
    s.SameThreads (s.modThreads ts fun T => { T with disp := d }) := by
  unfold State.modThreads
  induction ts generalizing s with
  | nil => exact .refl s
  | cons t r ih =>
    refine State.SameThreads.trans ?_ (ih _)
    intro u
    rw [State.thread_modThread]
    split
    · next h => rw [h]
    · rfl

theorem State.SameThreads.spawn (s : State) (G : Group) (ts : List Nat) (pc : Nat) : s.SameThreads (s.spawn G ts pc) := by
  unfold State.spawn
  dsimp only
  refine State.SameThreads.trans ?_ (.of_threads (by rw [State.takeSlot_eq]))
  exact State.SameThreads.trans (.of_threads rfl) (State.SameThreads.disps _ ts _)

theorem State.SameThreads.binAdd (s : State) (k : Nat) (B : Bin) (G : Group) (t : Nat) : s.SameThreads (s.binAdd k B G t) := by
  intro u
  unfold State.binAdd
  dsimp only
  rw [State.thread_modThread]
  split
  · next h => rw [h]; rfl
  · rfl

theorem State.SameThreads.formBin (s : State) (k : Nat) (B : Bin) (c : Bool) : s.SameThreads (s.formBin k B c) := by
  unfold State.formBin
  dsimp only
  exact State.SameThreads.trans (.of_threads rfl) (State.SameThreads.disps _ B.threads _)

theorem State.SameThreads.fileThread (s : State) (G : Group) (pc t : Nat) : s.SameThreads (s.fileThread G pc t) := by
  unfold State.fileThread
  dsimp only
  split
  · exact .binAdd _ _ _ _ _
  · split
    · exact .binAdd _ _ _ _ _
    · split
      · exact (State.SameThreads.formBin _ _ _ _).trans (.binAdd _ _ _ _ _)
      · exact .refl s

theorem State.SameThreads.foldl {α : Type} (f : State → α → State) (h : ∀ (s : State) (x : α), s.SameThreads (f s x)) (l : List α) (s : State) :
    s.SameThreads (l.foldl f s) := by
  induction l generalizing s with
  | nil => exact .refl s
  | cons x r ih => exact (h s x).trans (ih _)

theorem State.SameThreads.disperse (s : State) (G : Group) (moves : List (Nat × Nat)) : s.SameThreads (s.disperse G moves) := by
  have sp : ∀ (s : State) (p : Nat × List Nat), s.SameThreads (s.spawn G p.2 p.1) := fun s p => .spawn s G p.2 p.1
  unfold State.disperse
  dsimp only
  exact (State.SameThreads.foldl _ sp _ _).trans (State.SameThreads.foldl
    (fun (s : State) (m : Nat × Nat) => s.fileThread G m.2 m.1) (fun s m => .fileThread s _ _ _) _ _)

/-- A thread keeps all that the end of a word leaves alone. -/
def Thread.Keeps (T U : Thread) : Prop :=
  U = { T with regs := U.regs, quarters := U.quarters, wakes := U.wakes, lost := U.lost, lowered := U.lowered, rcnt := U.rcnt, again := U.again }

theorem Thread.Keeps.refl (T : Thread) : T.Keeps T := rfl

theorem Thread.Keeps.trans {T U V : Thread} (h : T.Keeps U) (k : U.Keeps V) : T.Keeps V := by
  unfold Thread.Keeps at *
  rw [h] at k
  exact k

theorem State.foldl_keeps {α : Type} (f : State → α → State) (u : Nat) (h : ∀ (s : State) (x : α), (s.thread u).Keeps ((f s x).thread u)) (l : List α)
    (s : State) : (s.thread u).Keeps ((l.foldl f s).thread u) := by
  induction l generalizing s with
  | nil => exact .refl _
  | cons x r ih => exact (h s x).trans (ih _)

theorem State.setThread_keeps (s : State) (t u : Nat) (T : Thread) (h : (s.thread t).Keeps T) :
    (s.thread u).Keeps ((s.setThread t T).thread u) := by
  by_cases e : u = t
  · subst e
    simpa [State.setThread, State.thread, FMap.findD, FMap.find_put] using h
  · simp [State.setThread, State.thread, FMap.findD, FMap.find_put, e, Thread.Keeps]

theorem State.lower_keeps (s : State) (t q u : Nat) (off : Bool) : (s.thread u).Keeps ((s.lowerQuarter t q off).thread u) := by
  unfold State.lowerQuarter
  dsimp only
  split
  · exact .refl _
  · exact s.setThread_keeps t u _ rfl
  · exact s.setThread_keeps t u _ rfl
  · exact .refl _

theorem State.hint_keeps (s : State) (h : Hdr) (us : List Nat) (u : Nat) : (s.thread u).Keeps ((s.applyHint h us).thread u) := by
  unfold State.applyHint
  split
  · exact .refl _
  · exact State.foldl_keeps (fun (s : State) (t : Nat) => s.lowerQuarter t _ _) u (fun s t => s.lower_keeps t _ u _) us s

theorem State.retire_keeps (s : State) (G : Group) (ts : List Nat) (u : Nat) : (s.thread u).Keeps ((s.retire G ts).thread u) := by
  have m : (s.thread u).Keeps ((s.modThreads ts fun T =>
      { T with rcnt := if T.again then T.rcnt else T.rcnt + 1, again := false }).thread u) :=
    State.foldl_keeps (fun (s : State) (t : Nat) => s.modThread t fun T =>
      { T with rcnt := if T.again then T.rcnt else T.rcnt + 1, again := false }) u (fun s t => s.setThread_keeps t u _ rfl) ts s
  unfold State.retire
  dsimp only
  split
  · rw [State.modBside_eq]; exact m
  · exact m

/-- A word that meets no cause and gives each lane a program counter ends so. -/
theorem Env.finish_sends (E : Env) (s : State) (dest : Nat → Nat) (hl : E.G.lanes ≠ []) (hn : E.G.lanes.Nodup) (ho : E.occ = E.G.lanes)
    (hc : E.causes = []) (ha : s.Apart E.g E.G) :
    s.Sends (E.finish s [] (E.G.lanes.map fun u => (u, dest u))) E.g E.G E.h E.clk dest := by
  set moves := E.G.lanes.map fun u => (u, dest u) with hmv
  have fst : moves.map Prod.fst = E.G.lanes := by simp [hmv, Function.comp_def]
  by_cases one : ∃ pc, ∀ u ∈ E.G.lanes, dest u = pc
  · obtain ⟨pc, hpc⟩ := one
    have em : moves = E.G.lanes.map fun u => (u, pc) := List.map_congr_left fun u hu => by rw [hpc u hu]
    have W := E.finish_went s pc hl hn ho hc
    rw [em]
    refine ⟨fun u hu => ?_, fun p hp => ?_, ?_, fun u => ?_, W.regs⟩
    · have d : ((E.finish s [] (E.G.lanes.map fun u => (u, pc))).thread u).disp = .group E.g := by
        rw [W.lanes u hu]; exact ha.enrolled u hu
      unfold State.pcOf
      rw [d, W.rest]
      simp [FMap.find_put, Group.wentTo, hpc u hu]
    · obtain ⟨u, hu⟩ := List.exists_mem_of_ne_nil _ hl
      rw [← hp u hu, hpc u hu]; exact W
    · generalize E.finish s [] (E.G.lanes.map fun u => (u, pc)) = t at W ⊢
      have g1 : t.groups = s.groups.put E.g (E.G.wentTo E.h E.clk pc) := (congrArg State.groups W.rest).trans rfl
      have g2 : t.bins = s.bins := (congrArg State.bins W.rest).trans rfl
      have g3 : t.nextId = s.nextId := (congrArg State.nextId W.rest).trans rfl
      rw [g1, g2, g3]
      exact W.rest
    · by_cases hu : u ∈ E.G.lanes
      · conv_lhs => rw [W.lanes u hu]
        rw [W.lanes u hu]
      · rw [W.others u hu]
  · have two : 2 ≤ (classes moves).length := by
      by_contra h
      apply one
      obtain ⟨u, hu⟩ := List.exists_mem_of_ne_nil _ hl
      have c : ∀ v ∈ E.G.lanes, dest v ∈ (classes moves).map Prod.fst := fun v hv =>
        classes_cover moves (v, dest v) (List.mem_map.mpr ⟨v, hv, rfl⟩)
      have len : ((classes moves).map Prod.fst).length ≤ 1 := by rw [List.length_map]; omega
      refine ⟨dest u, fun v hv => ?_⟩
      have a := c u hu
      have b := c v hv
      generalize (classes moves).map Prod.fst = l at a b len
      match l, len with
      | [], _ => simp at a
      | [x], _ => simp at a b; rw [a, b]
      | _ :: _ :: _, h => simp at h
    have D := E.finish_divides s moves 0 [] dest hc ha (fst ▸ hn) two fun m hm => by
      obtain ⟨u, hu, rfl⟩ := List.mem_map.mp hm; exact ⟨hu, rfl⟩
    have shape : ∃ G' : Group, E.finish s [] moves = { (((s.noteIssue E.G E.clk (s.gatherOf E.G.core E.G.quarter E.i)).retire E.G E.G.lanes).applyHint E.h E.occ).delGroup E.g |>.disperse G' moves with
        freeCtr := s.freeCtr + 1 } := by
      refine ⟨{ E.G with
        readyAt := max E.G.readyAt (E.clk + max (max E.h.stall.val 1) 0), since := max E.G.readyAt (E.clk + max (max E.h.stall.val 1) 0) }, ?_⟩
      unfold Env.finish
      simp only [hc, List.append_nil, List.any_nil, List.filter_false, List.contains_nil, Bool.not_false, List.filter_true, fst,
        List.find?_nil, List.filterMap_none, State.finish, List.isEmpty_nil, if_true, State.regroup]
      match h : classes moves, two with
      | _ :: _ :: _, _ => rfl
    obtain ⟨G', hs⟩ := shape
    set a := ((s.noteIssue E.G E.clk (s.gatherOf E.G.core E.G.quarter E.i)).retire E.G E.G.lanes).applyHint E.h E.occ with haDef
    have aeq : a = { s with threads := a.threads, blocks := a.blocks, seqs := (s.noteIssue E.G E.clk (s.gatherOf E.G.core E.G.quarter E.i)).seqs } := by
      rw [haDef, State.applyHint_eq, State.retire_eq]
      simp [State.noteIssue, State.modSeqr]
    have P := (a.delGroup E.g).disperse_only G' moves
    have T := State.SameThreads.disperse (a.delGroup E.g) G' moves
    refine ⟨fun u hu => D.1 (u, dest u) (List.mem_map.mpr ⟨u, hu, rfl⟩), fun pc hpc => absurd ⟨pc, hpc⟩ one, ?_, fun u => ?_, fun u hu n => ?_⟩
    · rw [hs]
      unfold State.SamePlaces at P
      generalize (a.delGroup E.g).disperse G' moves = d at P
      rw [P]
      unfold State.delGroup
      rw [aeq]
      exact congrArg (fun q => { s with
        threads := d.threads, groups := d.groups, bins := d.bins, blocks := a.blocks, nextId := d.nextId
        seqs := q, freeCtr := s.freeCtr + 1 }) (s.noteIssue_seqs E.G E.clk (s.gatherOf E.G.core E.G.quarter E.i))
    · have e : (E.finish s [] moves).thread u = ((a.delGroup E.g).disperse G' moves).thread u := by rw [hs]; rfl
      rw [e, T u]
      have : (a.delGroup E.g).thread u = a.thread u := rfl
      have k : (s.thread u).Keeps (a.thread u) :=
        Thread.Keeps.trans (State.retire_keeps (s.noteIssue E.G E.clk (s.gatherOf E.G.core E.G.quarter E.i)) E.G E.G.lanes u) (State.hint_keeps _ E.h E.occ u)
      rw [this, k]
    · have := (E.finish_regs s [] moves 0 [] (ho ▸ hn) u).2 n
      rw [this, ho]
      simp [hu]

/-- A word at which its whole group waits ends so (R101). -/
theorem Env.await_halts (E : Env) (s : State) (w : Wait) (hl : E.G.lanes ≠ []) (hn : E.G.lanes.Nodup) (ho : E.occ = E.G.lanes)
    (hc : E.causes = []) : s.Halts (E.await s [] w) E.g E.G E.h E.clk w := by
  have none : E.stopped [] = [] := by simp [Env.stopped, hc]
  have keep : (E.G.lanes.filter fun t => !(E.stopped []).contains t) = E.G.lanes := by simp [none]
  have W := E.finish_went s E.G.pc hl hn ho hc
  have same : E.finish s [] [] 0 E.G.lanes = { E.finish s [] (E.G.lanes.map fun u => (u, E.G.pc)) with groups := s.groups.del E.g } := by
    have hm : (E.G.lanes.map fun u => (u, E.G.pc)).map Prod.fst = E.G.lanes := by simp [Function.comp_def]
    unfold Env.finish
    simp only [hc, List.append_nil, List.any_nil, List.filter_false, List.contains_nil, Bool.not_false, List.filter_true, hm,
      List.find?_nil, List.filterMap_none, State.finish, List.isEmpty_nil, if_true, State.regroup, classes_const _ _ hl,
      List.filter_nil, List.map_nil, List.nil_append]
    have c : classes [] = [] := rfl
    rw [c]
    simp only [State.delGroup, State.setGroup]
    rw [State.applyHint_eq, State.retire_eq]
    rfl
  have ne : E.G.lanes.isEmpty = false := by cases h : E.G.lanes <;> simp_all
  unfold Env.await
  dsimp only
  rw [keep, same, none]
  simp only [ne, Bool.false_eq_true, if_false, List.isEmpty_nil, if_true]
  refine ⟨⟨_, W, ?_⟩, ?_, fun k hk => ?_⟩
  · split <;> rfl
  · split
    · next h => simp [State.dropSlot, State.modGroup, State.setGroup, FMap.find_adjust, FMap.find_put, h]
    · next h => simp [State.setGroup, FMap.find_put, h]
  · split
    · simp [State.dropSlot, State.modGroup, State.setGroup, FMap.find_adjust, FMap.find_put, FMap.find_del_ne _ _ _ hk, hk]
    · simp [State.setGroup, FMap.find_put, FMap.find_del_ne _ _ _ hk, hk]

end Machine
end Sys2Proof
end

