-- ==== Sys2Proof/Laws/PerInstr.lean ====
section
/-!
SUPPORT. The register operands of every well-formed instruction lie as R28 and the tables require: an operand of n registers begins at a
multiple of n. One lemma per constructor of `Instr`.
-/

namespace Sys2Proof
namespace Laws

/-- The register operands of a well-formed instruction are aligned (R28, R163, R194, R277, R300). -/
def Alignment.Statement (i : Instr) : Prop := i.WellFormed → ∀ u ∈ i.uses, ∀ k : Fin 240, u.r = .v k → k.val % u.n = 0

/-- Of an aligned list of operands. -/
theorem Alignment.of_aligned (i : Instr) (h : i.aligned = true) : ∀ u ∈ i.uses, ∀ k : Fin 240, u.r = .v k → k.val % u.n = 0 := by
  intro u hu k hk
  have := List.all_eq_true.mp h u hu
  simpa [Use.aligned, hk] using this

/-- The checks of a word that is no pair word include the alignment. -/
theorem Alignment.of_checks (i : Instr) (h : i.wfErr = (if !i.immDefault then some .unusedNonzero
    else if !i.codesOk then some .reservedCode
    else if !i.aligned then some .oddRegister
    else if !i.uses.all Use.queueOk then some .queueRegister
    else if !queuesOnce i.uses then some .queueTwice
    else none)) : Alignment.Statement i := by
  intro hw
  refine Alignment.of_aligned i ?_
  have he := h.symm.trans hw.2
  cases ha : i.aligned with
  | true => rfl
  | false => cases hd : i.immDefault <;> cases hc : i.codesOk <;> simp [hd, hc, ha] at he

/-- The operands of a pair word are single registers. -/
theorem Alignment.of_pair (st p : Fin 8) (s0 s1 : PairSlot) : Alignment.Statement (.pairWord st p s0 s1) := by
  intro _
  refine Alignment.of_aligned _ ?_
  have hs : ∀ s : PairSlot, s.uses.all Use.aligned = true := by
    intro s
    cases s with
    | nop => rfl
    | op o da b r => cases da <;> cases b with
      | imm c => simp [PairSlot.uses, PairSrc.uses, Use.aligned, Nat.mod_one]
      | reg x => cases x <;> simp [PairSlot.uses, PairSrc.uses, Use.aligned, Use.src, Nat.mod_one]
  show (s0.uses ++ s1.uses).all Use.aligned = true
  rw [List.all_append, hs, hs]; rfl

theorem Alignment.nop (h : Hdr) : Alignment.Statement (.nop h) := Alignment.of_checks _ rfl
theorem Alignment.mov (h : Hdr) (d : Reg) (b : Src) : Alignment.Statement (.mov h d b) := Alignment.of_checks _ rfl
theorem Alignment.movhi (h : Hdr) (d a : Reg) (imm : Fin 262144) : Alignment.Statement (.movhi h d a imm) := Alignment.of_checks _ rfl
theorem Alignment.iadd (h : Hdr) (d a : Reg) (b : Src) : Alignment.Statement (.iadd h d a b) := Alignment.of_checks _ rfl
theorem Alignment.isub (h : Hdr) (d a : Reg) (b : Src) : Alignment.Statement (.isub h d a b) := Alignment.of_checks _ rfl
theorem Alignment.iadds (h : Hdr) (sg : Bool) (d a : Reg) (b : Src) : Alignment.Statement (.iadds h sg d a b) := Alignment.of_checks _ rfl
theorem Alignment.isubs (h : Hdr) (sg : Bool) (d a : Reg) (b : Src) : Alignment.Statement (.isubs h sg d a b) := Alignment.of_checks _ rfl
theorem Alignment.imul (h : Hdr) (d a : Reg) (b : Src) : Alignment.Statement (.imul h d a b) := Alignment.of_checks _ rfl
theorem Alignment.imulh (h : Hdr) (sg : Bool) (d a : Reg) (b : Src) : Alignment.Statement (.imulh h sg d a b) := Alignment.of_checks _ rfl
theorem Alignment.imad (h : Hdr) (d a b c : Reg) : Alignment.Statement (.imad h d a b c) := Alignment.of_checks _ rfl
theorem Alignment.imadw (h : Hdr) (sg : Bool) (d a b c : Reg) : Alignment.Statement (.imadw h sg d a b c) := Alignment.of_checks _ rfl
theorem Alignment.iadd64 (h : Hdr) (d a : Reg) (b : Src) : Alignment.Statement (.iadd64 h d a b) := Alignment.of_checks _ rfl
theorem Alignment.isub64 (h : Hdr) (d a : Reg) (b : Src) : Alignment.Statement (.isub64 h d a b) := Alignment.of_checks _ rfl
theorem Alignment.lea (h : Hdr) (n : Fin 8) (d a : Reg) (b : Src) : Alignment.Statement (.lea h n d a b) := Alignment.of_checks _ rfl
theorem Alignment.lea64 (h : Hdr) (n : Fin 8) (sg : Bool) (d a : Reg) (b : Src) : Alignment.Statement (.lea64 h n sg d a b) :=
  Alignment.of_checks _ rfl
theorem Alignment.imin (h : Hdr) (sg : Bool) (d a : Reg) (b : Src) : Alignment.Statement (.imin h sg d a b) := Alignment.of_checks _ rfl
theorem Alignment.imax (h : Hdr) (sg : Bool) (d a : Reg) (b : Src) : Alignment.Statement (.imax h sg d a b) := Alignment.of_checks _ rfl
theorem Alignment.iabs (h : Hdr) (d a : Reg) : Alignment.Statement (.iabs h d a) := Alignment.of_checks _ rfl
theorem Alignment.iand (h : Hdr) (d a : Reg) (b : Src) : Alignment.Statement (.iand h d a b) := Alignment.of_checks _ rfl
theorem Alignment.ior (h : Hdr) (d a : Reg) (b : Src) : Alignment.Statement (.ior h d a b) := Alignment.of_checks _ rfl
theorem Alignment.ixor (h : Hdr) (d a : Reg) (b : Src) : Alignment.Statement (.ixor h d a b) := Alignment.of_checks _ rfl
theorem Alignment.bmux (h : Hdr) (f1 f0 : Fin 16) (d a b c : Reg) : Alignment.Statement (.bmux h f1 f0 d a b c) := Alignment.of_checks _ rfl
theorem Alignment.shl (h : Hdr) (d a : Reg) (b : Src) : Alignment.Statement (.shl h d a b) := Alignment.of_checks _ rfl
theorem Alignment.shr (h : Hdr) (sg : Bool) (d a : Reg) (b : Src) : Alignment.Statement (.shr h sg d a b) := Alignment.of_checks _ rfl
theorem Alignment.shf (h : Hdr) (left : Bool) (d a b c : Reg) : Alignment.Statement (.shf h left d a b c) := Alignment.of_checks _ rfl
theorem Alignment.rot (h : Hdr) (d a : Reg) (b : Src) : Alignment.Statement (.rot h d a b) := Alignment.of_checks _ rfl
theorem Alignment.popc (h : Hdr) (d a : Reg) : Alignment.Statement (.popc h d a) := Alignment.of_checks _ rfl
theorem Alignment.clz (h : Hdr) (d a : Reg) : Alignment.Statement (.clz h d a) := Alignment.of_checks _ rfl
theorem Alignment.brev (h : Hdr) (d a : Reg) : Alignment.Statement (.brev h d a) := Alignment.of_checks _ rfl
theorem Alignment.bfe (h : Hdr) (sg : Bool) (d a : Reg) (b : Src) : Alignment.Statement (.bfe h sg d a b) := Alignment.of_checks _ rfl
theorem Alignment.bfi (h : Hdr) (d a b c : Reg) : Alignment.Statement (.bfi h d a b c) := Alignment.of_checks _ rfl
theorem Alignment.prmt (h : Hdr) (d a b c : Reg) : Alignment.Statement (.prmt h d a b c) := Alignment.of_checks _ rfl
theorem Alignment.isetp (h : Hdr) (cmp : Cmp) (sg : Bool) (op : PComb) (p : PSrc) (pd : Fin 8) (a : Reg) (b : Src) : Alignment.Statement (.isetp h cmp sg op p pd a b) :=
  Alignment.of_checks _ rfl
theorem Alignment.isetp64 (h : Hdr) (cmp : Cmp) (sg : Bool) (op : PComb) (p : PSrc) (pd : Fin 8) (a : Reg) (b : Src) : Alignment.Statement (.isetp64 h cmp sg op p pd a b) :=
  Alignment.of_checks _ rfl
theorem Alignment.iset (h : Hdr) (cmp : Cmp) (sg : Bool) (d a b : Reg) : Alignment.Statement (.iset h cmp sg d a b) := Alignment.of_checks _ rfl
theorem Alignment.sel (h : Hdr) (p : PSrc) (d a b : Reg) : Alignment.Statement (.sel h p d a b) := Alignment.of_checks _ rfl
theorem Alignment.pset (h : Hdr) (op : PsetOp) (pd : Fin 8) (pa pb : PSrc) : Alignment.Statement (.pset h op pd pa pb) := Alignment.of_checks _ rfl
theorem Alignment.p2v (h : Hdr) (d : Reg) : Alignment.Statement (.p2v h d) := Alignment.of_checks _ rfl
theorem Alignment.v2p (h : Hdr) (mask : Fin 128) (a : Reg) : Alignment.Statement (.v2p h mask a) := Alignment.of_checks _ rfl
theorem Alignment.hash32 (h : Hdr) (d a : Reg) (b : Src) : Alignment.Statement (.hash32 h d a b) := Alignment.of_checks _ rfl
theorem Alignment.shfl (h : Hdr) (mode : ShflMode) (d a : Reg) (b : Src) : Alignment.Statement (.shfl h mode d a b) := Alignment.of_checks _ rfl
theorem Alignment.vote (h : Hdr) (mode : VoteMode) (p : PSrc) (d : Reg) : Alignment.Statement (.vote h mode p d) := Alignment.of_checks _ rfl
theorem Alignment.s2v (h : Hdr) (sr : Fin 21) (d : Reg) : Alignment.Statement (.s2v h sr d) := Alignment.of_checks _ rfl
theorem Alignment.v2s (h : Hdr) (a : Reg) : Alignment.Statement (.v2s h a) := Alignment.of_checks _ rfl
theorem Alignment.imul64 (h : Hdr) (d a : Reg) (b : Src) : Alignment.Statement (.imul64 h d a b) := Alignment.of_checks _ rfl
theorem Alignment.mov64 (h : Hdr) (d : Reg) (b : Src) : Alignment.Statement (.mov64 h d b) := Alignment.of_checks _ rfl
theorem Alignment.fadd (h : Hdr) (fmt : FFmt) (rnd : Rnd) (d a : Reg) (b : Src) : Alignment.Statement (.fadd h fmt rnd d a b) :=
  Alignment.of_checks _ rfl
theorem Alignment.fsub (h : Hdr) (fmt : FFmt) (rnd : Rnd) (d a : Reg) (b : Src) : Alignment.Statement (.fsub h fmt rnd d a b) :=
  Alignment.of_checks _ rfl
theorem Alignment.fmul (h : Hdr) (fmt : FFmt) (rnd : Rnd) (d a : Reg) (b : Src) : Alignment.Statement (.fmul h fmt rnd d a b) :=
  Alignment.of_checks _ rfl
theorem Alignment.ffma (h : Hdr) (fmt : FFmt) (rnd : Rnd) (d a b c : Reg) : Alignment.Statement (.ffma h fmt rnd d a b c) := Alignment.of_checks _ rfl
theorem Alignment.fmin (h : Hdr) (fmt : FFmt) (d a : Reg) (b : Src) : Alignment.Statement (.fmin h fmt d a b) := Alignment.of_checks _ rfl
theorem Alignment.fmax (h : Hdr) (fmt : FFmt) (d a : Reg) (b : Src) : Alignment.Statement (.fmax h fmt d a b) := Alignment.of_checks _ rfl
theorem Alignment.fsetp (h : Hdr) (cmp : FCmp) (op : PComb) (p : PSrc) (pd : Fin 8) (a : Reg) (b : Src) : Alignment.Statement (.fsetp h cmp op p pd a b) :=
  Alignment.of_checks _ rfl
theorem Alignment.fset (h : Hdr) (cmp : FCmp) (fmt : FFmt) (d a b : Reg) : Alignment.Statement (.fset h cmp fmt d a b) := Alignment.of_checks _ rfl
theorem Alignment.fclass (h : Hdr) (fmt : FFmt) (d a : Reg) : Alignment.Statement (.fclass h fmt d a) := Alignment.of_checks _ rfl
theorem Alignment.frcp (h : Hdr) (d a : Reg) : Alignment.Statement (.frcp h d a) := Alignment.of_checks _ rfl
theorem Alignment.frsq (h : Hdr) (d a : Reg) : Alignment.Statement (.frsq h d a) := Alignment.of_checks _ rfl
theorem Alignment.fsqrt (h : Hdr) (rnd : Rnd) (d a : Reg) : Alignment.Statement (.fsqrt h rnd d a) := Alignment.of_checks _ rfl
theorem Alignment.fexp2 (h : Hdr) (d a : Reg) : Alignment.Statement (.fexp2 h d a) := Alignment.of_checks _ rfl
theorem Alignment.flog2 (h : Hdr) (d a : Reg) : Alignment.Statement (.flog2 h d a) := Alignment.of_checks _ rfl
theorem Alignment.fsin (h : Hdr) (d a : Reg) : Alignment.Statement (.fsin h d a) := Alignment.of_checks _ rfl
theorem Alignment.fcos (h : Hdr) (d a : Reg) : Alignment.Statement (.fcos h d a) := Alignment.of_checks _ rfl
theorem Alignment.ftanh (h : Hdr) (d a : Reg) : Alignment.Statement (.ftanh h d a) := Alignment.of_checks _ rfl
theorem Alignment.fscale (h : Hdr) (rnd : Rnd) (d a : Reg) (b : Src) : Alignment.Statement (.fscale h rnd d a b) := Alignment.of_checks _ rfl
theorem Alignment.frnd (h : Hdr) (rnd : Rnd) (d a : Reg) : Alignment.Statement (.frnd h rnd d a) := Alignment.of_checks _ rfl
theorem Alignment.fdot2 (h : Hdr) (fmt : FFmt) (rnd : Rnd) (d a b c : Reg) : Alignment.Statement (.fdot2 h fmt rnd d a b c) :=
  Alignment.of_checks _ rfl
theorem Alignment.fmed3 (h : Hdr) (fmt : FFmt) (d a b c : Reg) : Alignment.Statement (.fmed3 h fmt d a b c) := Alignment.of_checks _ rfl
theorem Alignment.cvt (h : Hdr) (dst src : CvtType) (rnd : Rnd) (d a : Reg) : Alignment.Statement (.cvt h dst src rnd d a) :=
  Alignment.of_checks _ rfl
theorem Alignment.cvtpk (h : Hdr) (fmt : FFmt) (rnd : Rnd) (d a b : Reg) : Alignment.Statement (.cvtpk h fmt rnd d a b) := Alignment.of_checks _ rfl
theorem Alignment.cbenc (h : Hdr) (d a : Reg) (cb : Fin 240) (c : Reg) : Alignment.Statement (.cbenc h d a cb c) := Alignment.of_checks _ rfl
theorem Alignment.cbdec (h : Hdr) (n : Fin 8) (d a : Reg) (cb : Fin 240) (c : Reg) : Alignment.Statement (.cbdec h n d a cb c) :=
  Alignment.of_checks _ rfl
theorem Alignment.bra (h : Hdr) (off : Fin 262144) : Alignment.Statement (.bra h off) := Alignment.of_checks _ rfl
theorem Alignment.brd (h : Hdr) (off : Fin 262144) : Alignment.Statement (.brd h off) := Alignment.of_checks _ rfl
theorem Alignment.brx (h : Hdr) (a : Reg) : Alignment.Statement (.brx h a) := Alignment.of_checks _ rfl
theorem Alignment.call (h : Hdr) (sel : Sel) (off : Fin 262144) : Alignment.Statement (.call h sel off) := Alignment.of_checks _ rfl
theorem Alignment.callx (h : Hdr) (sel : Sel) (a : Reg) : Alignment.Statement (.callx h sel a) := Alignment.of_checks _ rfl
theorem Alignment.ret (h : Hdr) (sel : Sel) : Alignment.Statement (.ret h sel) := Alignment.of_checks _ rfl
theorem Alignment.land (h : Hdr) : Alignment.Statement (.land h) := Alignment.of_checks _ rfl
theorem Alignment.reform (h : Hdr) (sel : Sel) : Alignment.Statement (.reform h sel) := Alignment.of_checks _ rfl
theorem Alignment.gpin (h : Hdr) : Alignment.Statement (.gpin h) := Alignment.of_checks _ rfl
theorem Alignment.gfree (h : Hdr) : Alignment.Statement (.gfree h) := Alignment.of_checks _ rfl
theorem Alignment.exit (h : Hdr) : Alignment.Statement (.exit h) := Alignment.of_checks _ rfl
theorem Alignment.yield (h : Hdr) (n : Option (Fin 262144)) : Alignment.Statement (.yield h n) := Alignment.of_checks _ rfl
theorem Alignment.bloop (h : Hdr) (a : Reg) (off : Fin 262144) : Alignment.Statement (.bloop h a off) := Alignment.of_checks _ rfl
theorem Alignment.ipref (h : Hdr) (arg : Option (Fin 262144)) (a b : Reg) : Alignment.Statement (.ipref h arg a b) := Alignment.of_checks _ rfl
theorem Alignment.iprefInv (h : Hdr) (a b : Reg) : Alignment.Statement (.iprefInv h a b) := Alignment.of_checks _ rfl
theorem Alignment.launch (h : Hdr) (d a : Reg) (b : Src) : Alignment.Statement (.launch h d a b) := Alignment.of_checks _ rfl
theorem Alignment.evwait (h : Hdr) (sc : Scope) (d a : Reg) (b : Src) : Alignment.Statement (.evwait h sc d a b) := Alignment.of_checks _ rfl
theorem Alignment.evsig (h : Hdr) (sc : Scope) (a : Reg) (b : Src) : Alignment.Statement (.evsig h sc a b) := Alignment.of_checks _ rfl
theorem Alignment.nopw (h : Hdr) (n : Option (Fin 262144)) : Alignment.Statement (.nopw h n) := Alignment.of_checks _ rfl
theorem Alignment.ld (h : Hdr) (size : Size) (sg : Bool) (hint : Hint) (d a : Reg) (b : Src) (disp : Fin 256) : Alignment.Statement (.ld h size sg hint d a b disp) :=
  Alignment.of_checks _ rfl
theorem Alignment.st (h : Hdr) (size : Size) (hint : Hint) (d a : Reg) (b : Src) (disp : Fin 256) : Alignment.Statement (.st h size hint d a b disp) :=
  Alignment.of_checks _ rfl
theorem Alignment.lds (h : Hdr) (size : Size) (sg : Bool) (d a : Reg) (b : Src) (disp : Fin 256) : Alignment.Statement (.lds h size sg d a b disp) :=
  Alignment.of_checks _ rfl
theorem Alignment.sts (h : Hdr) (size : Size) (d a : Reg) (b : Src) (disp : Fin 256) : Alignment.Statement (.sts h size d a b disp) :=
  Alignment.of_checks _ rfl
theorem Alignment.ldl (h : Hdr) (size : Size) (sg : Bool) (hint : Hint) (d a : Reg) (b : Src) (disp : Fin 256) : Alignment.Statement (.ldl h size sg hint d a b disp) :=
  Alignment.of_checks _ rfl
theorem Alignment.stl (h : Hdr) (size : Size) (hint : Hint) (d a : Reg) (b : Src) (disp : Fin 256) : Alignment.Statement (.stl h size hint d a b disp) :=
  Alignment.of_checks _ rfl
theorem Alignment.ldw (h : Hdr) (d a : Reg) (imm : Fin 262144) : Alignment.Statement (.ldw h d a imm) := Alignment.of_checks _ rfl
theorem Alignment.stw (h : Hdr) (d a : Reg) (imm : Fin 262144) : Alignment.Statement (.stw h d a imm) := Alignment.of_checks _ rfl
theorem Alignment.ldk (h : Hdr) (size : Size) (hint : Hint) (d a : Reg) (b : Src) (disp : Fin 256) : Alignment.Statement (.ldk h size hint d a b disp) :=
  Alignment.of_checks _ rfl
theorem Alignment.pref (h : Hdr) (hint : Hint) (a : Reg) (b : Src) : Alignment.Statement (.pref h hint a b) := Alignment.of_checks _ rfl
theorem Alignment.cctl (h : Hdr) (op : CctlOp) (a : Reg) (b : Src) : Alignment.Statement (.cctl h op a b) := Alignment.of_checks _ rfl
theorem Alignment.acp (h : Hdr) (tag : Fin 8) (hint : Hint) (d a : Reg) (b : Src) : Alignment.Statement (.acp h tag hint d a b) :=
  Alignment.of_checks _ rfl
theorem Alignment.acwait (h : Hdr) (mask n : Fin 256) : Alignment.Statement (.acwait h mask n) := Alignment.of_checks _ rfl
theorem Alignment.acqry (h : Hdr) (d : Reg) : Alignment.Statement (.acqry h d) := Alignment.of_checks _ rfl
theorem Alignment.ldcb (h : Hdr) (len : CbLen) (d a : Reg) (b : Src) : Alignment.Statement (.ldcb h len d a b) := Alignment.of_checks _ rfl
theorem Alignment.xlq (h : Hdr) (d a : Reg) (b : Src) : Alignment.Statement (.xlq h d a b) := Alignment.of_checks _ rfl
theorem Alignment.amo (h : Hdr) (op : AtomOp) (size : Size) (ord : Order) (sc : Scope) (d a b : Reg) : Alignment.Statement (.amo h op size ord sc d a b) :=
  Alignment.of_checks _ rfl
theorem Alignment.cas (h : Hdr) (size : Size) (ord : Order) (sc : Scope) (d a b c : Reg) : Alignment.Statement (.cas h size ord sc d a b c) :=
  Alignment.of_checks _ rfl
theorem Alignment.red (h : Hdr) (op : AtomOp) (size : Size) (ord : Order) (sc : Scope) (a b : Reg) : Alignment.Statement (.red h op size ord sc a b) :=
  Alignment.of_checks _ rfl
theorem Alignment.fence (h : Hdr) (ord : Order) (sc : Scope) : Alignment.Statement (.fence h ord sc) := Alignment.of_checks _ rfl
theorem Alignment.bar (h : Hdr) (arg : BarArg) : Alignment.Statement (.bar h arg) := Alignment.of_checks _ rfl
theorem Alignment.bara (h : Hdr) (arg : BarArg) : Alignment.Statement (.bara h arg) := Alignment.of_checks _ rfl
theorem Alignment.barw (h : Hdr) (arg : BarArg) : Alignment.Statement (.barw h arg) := Alignment.of_checks _ rfl
theorem Alignment.gbar (h : Hdr) : Alignment.Statement (.gbar h) := Alignment.of_checks _ rfl
theorem Alignment.ssync (h : Hdr) : Alignment.Statement (.ssync h) := Alignment.of_checks _ rfl
theorem Alignment.waitv (h : Hdr) (cmp : Cmp) (sg : Bool) (size : Size) (sc : Scope) (d a b : Reg) : Alignment.Statement (.waitv h cmp sg size sc d a b) :=
  Alignment.of_checks _ rfl
theorem Alignment.ctxopen (h : Hdr) (sc : Scope) (set : Bool) (try_ : Option (Fin 8)) (d : Reg) : Alignment.Statement (.ctxopen h sc set try_ d) :=
  Alignment.of_checks _ rfl
theorem Alignment.ctxset (h : Hdr) (a : Reg) : Alignment.Statement (.ctxset h a) := Alignment.of_checks _ rfl
theorem Alignment.ctxsettle (h : Hdr) (a : Reg) : Alignment.Statement (.ctxsettle h a) := Alignment.of_checks _ rfl
theorem Alignment.ctxvoid (h : Hdr) (a : Reg) : Alignment.Statement (.ctxvoid h a) := Alignment.of_checks _ rfl
theorem Alignment.ctxq (h : Hdr) (d a : Reg) : Alignment.Statement (.ctxq h d a) := Alignment.of_checks _ rfl
theorem Alignment.ldcx (h : Hdr) (size : Size) (sg : Bool) (d a b c : Reg) : Alignment.Statement (.ldcx h size sg d a b c) :=
  Alignment.of_checks _ rfl
theorem Alignment.ctxwait (h : Hdr) (sc : Scope) (d a : Reg) : Alignment.Statement (.ctxwait h sc d a) := Alignment.of_checks _ rfl
theorem Alignment.ordhead (h : Hdr) : Alignment.Statement (.ordhead h) := Alignment.of_checks _ rfl
theorem Alignment.obres (h : Hdr) (fmt : ObFmt) (len : Fin 4) (r : Fin 8) (a b : Reg) : Alignment.Statement (.obres h fmt len r a b) :=
  Alignment.of_checks _ rfl
theorem Alignment.obset (h : Hdr) (r : Fin 8) (b : Src) : Alignment.Statement (.obset h r b) := Alignment.of_checks _ rfl
theorem Alignment.obfree (h : Hdr) (r : Fin 8) : Alignment.Statement (.obfree h r) := Alignment.of_checks _ rfl
theorem Alignment.cbld (h : Hdr) (r : Fin 8) (cb : Fin 240) : Alignment.Statement (.cbld h r cb) := Alignment.of_checks _ rfl
theorem Alignment.mloop (h : Hdr) (d : Reg) (desc : Fin 240) : Alignment.Statement (.mloop h d desc) := Alignment.of_checks _ rfl
theorem Alignment.mwait (h : Hdr) (a : Reg) : Alignment.Statement (.mwait h a) := Alignment.of_checks _ rfl
theorem Alignment.mzero (h : Hdr) (t : Fin 8) : Alignment.Statement (.mzero h t) := Alignment.of_checks _ rfl
theorem Alignment.accld (h : Hdr) (t : Fin 8) (a : Reg) (b : Src) : Alignment.Statement (.accld h t a b) := Alignment.of_checks _ rfl
theorem Alignment.accst (h : Hdr) (t : Fin 8) (a : Reg) (b : Src) : Alignment.Statement (.accst h t a b) := Alignment.of_checks _ rfl
theorem Alignment.mrd (h : Hdr) (d : Reg) (t : Fin 8) (b : Src) : Alignment.Statement (.mrd h d t b) := Alignment.of_checks _ rfl
theorem Alignment.mout (h : Hdr) (fmt : MoutFmt) (t : Fin 8) (r : Fin 8) (a b : Reg) : Alignment.Statement (.mout h fmt t r a b) :=
  Alignment.of_checks _ rfl
theorem Alignment.mprog (h : Hdr) (d a : Reg) : Alignment.Statement (.mprog h d a) := Alignment.of_checks _ rfl
theorem Alignment.keybind (h : Hdr) (r : Fin 8) (a : Reg) : Alignment.Statement (.keybind h r a) := Alignment.of_checks _ rfl
theorem Alignment.push (h : Hdr) (pd : Fin 8) (kind : EngKind) (cmd : Fin 240) : Alignment.Statement (.push h pd kind cmd) :=
  Alignment.of_checks _ rfl
theorem Alignment.qbind (h : Hdr) (q : Fin 8) (b : QBinding) : Alignment.Statement (.qbind h q b) := Alignment.of_checks _ rfl
theorem Alignment.qpeek (h : Hdr) (d : Reg) (q : Fin 8) (b : Src) : Alignment.Statement (.qpeek h d q b) := Alignment.of_checks _ rfl
theorem Alignment.qcnt (h : Hdr) (d : Reg) (q : Fin 8) : Alignment.Statement (.qcnt h d q) := Alignment.of_checks _ rfl
theorem Alignment.qdrain (h : Hdr) (d : Reg) (q : Fin 8) : Alignment.Statement (.qdrain h d q) := Alignment.of_checks _ rfl
theorem Alignment.bkqry (h : Hdr) (d : Reg) : Alignment.Statement (.bkqry h d) := Alignment.of_checks _ rfl
theorem Alignment.bkwake (h : Hdr) (mask : Fin 16) : Alignment.Statement (.bkwake h mask) := Alignment.of_checks _ rfl
theorem Alignment.bkdrop (h : Hdr) (off : Bool) (mask : Fin 16) : Alignment.Statement (.bkdrop h off mask) := Alignment.of_checks _ rfl
theorem Alignment.spwake (h : Hdr) (d : Reg) (b : Src) : Alignment.Statement (.spwake h d b) := Alignment.of_checks _ rfl
theorem Alignment.spdrop (h : Hdr) (d : Reg) (b : Src) : Alignment.Statement (.spdrop h d b) := Alignment.of_checks _ rfl
theorem Alignment.trap (h : Hdr) (code : Fin 262144) : Alignment.Statement (.trap h code) := Alignment.of_checks _ rfl
theorem Alignment.tret (h : Hdr) : Alignment.Statement (.tret h) := Alignment.of_checks _ rfl
theorem Alignment.tclr (h : Hdr) (a : Reg) : Alignment.Statement (.tclr h a) := Alignment.of_checks _ rfl
theorem Alignment.trd (h : Hdr) (d : Reg) (b : Src) : Alignment.Statement (.trd h d b) := Alignment.of_checks _ rfl
theorem Alignment.tmask (h : Hdr) (d a b : Reg) : Alignment.Statement (.tmask h d a b) := Alignment.of_checks _ rfl
theorem Alignment.ologq (h : Hdr) (d : Reg) (b : Src) : Alignment.Statement (.ologq h d b) := Alignment.of_checks _ rfl
theorem Alignment.brk (h : Hdr) (code : Fin 262144) : Alignment.Statement (.brk h code) := Alignment.of_checks _ rfl
theorem Alignment.sysrd (h : Hdr) (d : Reg) (b : Src) : Alignment.Statement (.sysrd h d b) := Alignment.of_checks _ rfl
theorem Alignment.syswr (h : Hdr) (a : Reg) (b : Src) : Alignment.Statement (.syswr h a b) := Alignment.of_checks _ rfl
theorem Alignment.cntrd (h : Hdr) (d : Reg) (b : Src) : Alignment.Statement (.cntrd h d b) := Alignment.of_checks _ rfl
theorem Alignment.psafe (h : Hdr) (pd : Fin 8) : Alignment.Statement (.psafe h pd) := Alignment.of_checks _ rfl
theorem Alignment.ilq (h : Hdr) (d : Reg) : Alignment.Statement (.ilq h d) := Alignment.of_checks _ rfl
theorem Alignment.halt (h : Hdr) : Alignment.Statement (.halt h) := Alignment.of_checks _ rfl
theorem Alignment.mbox (h : Hdr) (sec : Bool) (d a : Reg) : Alignment.Statement (.mbox h sec d a) := Alignment.of_checks _ rfl
theorem Alignment.illegalEncoding (e : DecodeError) : Alignment.Statement (.illegalEncoding e) := Alignment.of_checks _ rfl
theorem Alignment.pairWord (stall : Fin 8) (pred : Fin 8) (s0 s1 : PairSlot) : Alignment.Statement (.pairWord stall pred s0 s1) :=
  Alignment.of_pair stall pred s0 s1
theorem Alignment.icacheFill (seq : Nat) : Alignment.Statement (.icacheFill seq) := Alignment.of_checks _ rfl
theorem Alignment.scoreboardResult (id : Nat) : Alignment.Statement (.scoreboardResult id) := Alignment.of_checks _ rfl
theorem Alignment.storeAck (id : Nat) : Alignment.Statement (.storeAck id) := Alignment.of_checks _ rfl
theorem Alignment.loggedAccessFault (entry : Nat) : Alignment.Statement (.loggedAccessFault entry) := Alignment.of_checks _ rfl
theorem Alignment.bankWakeComplete (w : WakeTarget) : Alignment.Statement (.bankWakeComplete w) := Alignment.of_checks _ rfl
theorem Alignment.binCandidateTimeout (seq bin : Nat) : Alignment.Statement (.binCandidateTimeout seq bin) := Alignment.of_checks _ rfl
theorem Alignment.slotWaitTimeout (group : Nat) : Alignment.Statement (.slotWaitTimeout group) := Alignment.of_checks _ rfl
theorem Alignment.yieldExpiry (group : Nat) : Alignment.Statement (.yieldExpiry group) := Alignment.of_checks _ rfl
theorem Alignment.joinRelease (seq recno : Nat) : Alignment.Statement (.joinRelease seq recno) := Alignment.of_checks _ rfl
theorem Alignment.gpinRelease (block pinned : Nat) : Alignment.Statement (.gpinRelease block pinned) := Alignment.of_checks _ rfl
theorem Alignment.evwaitMet (group : Nat) : Alignment.Statement (.evwaitMet group) := Alignment.of_checks _ rfl
theorem Alignment.barrierPhaseComplete (block side k : Nat) : Alignment.Statement (.barrierPhaseComplete block side k) := Alignment.of_checks _ rfl
theorem Alignment.gbarPhaseComplete (launch gang : Nat) : Alignment.Statement (.gbarPhaseComplete launch gang) := Alignment.of_checks _ rfl
theorem Alignment.ssyncComplete (launch : Nat) : Alignment.Statement (.ssyncComplete launch) := Alignment.of_checks _ rfl
theorem Alignment.waitvMet (group : Nat) : Alignment.Statement (.waitvMet group) := Alignment.of_checks _ rfl
theorem Alignment.waitvReread (group : Nat) : Alignment.Statement (.waitvReread group) := Alignment.of_checks _ rfl
theorem Alignment.acwaitMet (group : Nat) : Alignment.Statement (.acwaitMet group) := Alignment.of_checks _ rfl
theorem Alignment.acpComplete (id : Nat) : Alignment.Statement (.acpComplete id) := Alignment.of_checks _ rfl
theorem Alignment.ordheadReached (group : Nat) : Alignment.Statement (.ordheadReached group) := Alignment.of_checks _ rfl
theorem Alignment.ctxwaitReturn (group : Nat) : Alignment.Statement (.ctxwaitReturn group) := Alignment.of_checks _ rfl
theorem Alignment.psafeResolve (group : Nat) : Alignment.Statement (.psafeResolve group) := Alignment.of_checks _ rfl
theorem Alignment.mboxReply (group : Nat) : Alignment.Statement (.mboxReply group) := Alignment.of_checks _ rfl
theorem Alignment.queueReadResume (group : Nat) : Alignment.Statement (.queueReadResume group) := Alignment.of_checks _ rfl
theorem Alignment.handlerEntry (group : Nat) : Alignment.Statement (.handlerEntry group) := Alignment.of_checks _ rfl
theorem Alignment.mintGrant (part : Nat) : Alignment.Statement (.mintGrant part) := Alignment.of_checks _ rfl
theorem Alignment.contextSettle (tag : Nat) : Alignment.Statement (.contextSettle tag) := Alignment.of_checks _ rfl
theorem Alignment.contextVoid (tag : Nat) : Alignment.Statement (.contextVoid tag) := Alignment.of_checks _ rfl
theorem Alignment.ctxPoolTimeout (entry : Nat) : Alignment.Statement (.ctxPoolTimeout entry) := Alignment.of_checks _ rfl
theorem Alignment.clearingSettle (launch : Nat) : Alignment.Statement (.clearingSettle launch) := Alignment.of_checks _ rfl
theorem Alignment.recordCheck (q : Nat) : Alignment.Statement (.recordCheck q) := Alignment.of_checks _ rfl
theorem Alignment.launchReady (l : Nat) : Alignment.Statement (.launchReady l) := Alignment.of_checks _ rfl
theorem Alignment.blockDispatch (part : Nat) : Alignment.Statement (.blockDispatch part) := Alignment.of_checks _ rfl
theorem Alignment.blockExit (b : Nat) : Alignment.Statement (.blockExit b) := Alignment.of_checks _ rfl
theorem Alignment.launchComplete (l : Nat) : Alignment.Statement (.launchComplete l) := Alignment.of_checks _ rfl
theorem Alignment.gangReserveTimeout (l : Nat) : Alignment.Statement (.gangReserveTimeout l) := Alignment.of_checks _ rfl
theorem Alignment.exchangeTimeout (b : Nat) : Alignment.Statement (.exchangeTimeout b) := Alignment.of_checks _ rfl
theorem Alignment.preemptDeadlineTimeout (l : Nat) : Alignment.Statement (.preemptDeadlineTimeout l) := Alignment.of_checks _ rfl
theorem Alignment.preemptTierTimeout (l : Nat) : Alignment.Statement (.preemptTierTimeout l) := Alignment.of_checks _ rfl
theorem Alignment.noticeWindowExpiry (b : Nat) : Alignment.Statement (.noticeWindowExpiry b) := Alignment.of_checks _ rfl
theorem Alignment.drainTimeout (b : Nat) : Alignment.Statement (.drainTimeout b) := Alignment.of_checks _ rfl
theorem Alignment.save (b : Nat) : Alignment.Statement (.save b) := Alignment.of_checks _ rfl
theorem Alignment.restore (b : Nat) : Alignment.Statement (.restore b) := Alignment.of_checks _ rfl
theorem Alignment.flush (b : Nat) : Alignment.Statement (.flush b) := Alignment.of_checks _ rfl
theorem Alignment.checkedFlush (b : Nat) : Alignment.Statement (.checkedFlush b) := Alignment.of_checks _ rfl
theorem Alignment.schedEntryEnd (core : Nat) : Alignment.Statement (.schedEntryEnd core) := Alignment.of_checks _ rfl
theorem Alignment.overrunWatchdog (b : Nat) : Alignment.Statement (.overrunWatchdog b) := Alignment.of_checks _ rfl
theorem Alignment.pairModeChange (slice : Nat) : Alignment.Statement (.pairModeChange slice) := Alignment.of_checks _ rfl
theorem Alignment.pairDrainTimeout (slice : Nat) : Alignment.Statement (.pairDrainTimeout slice) := Alignment.of_checks _ rfl
theorem Alignment.autoPair (part : Nat) : Alignment.Statement (.autoPair part) := Alignment.of_checks _ rfl
theorem Alignment.autoUnpairTimeout (slice : Nat) : Alignment.Statement (.autoUnpairTimeout slice) := Alignment.of_checks _ rfl
theorem Alignment.assayTimeout (b : Nat) : Alignment.Statement (.assayTimeout b) := Alignment.of_checks _ rfl
theorem Alignment.assayMismatch (b : Nat) : Alignment.Statement (.assayMismatch b) := Alignment.of_checks _ rfl
theorem Alignment.assayPass (b : Nat) : Alignment.Statement (.assayPass b) := Alignment.of_checks _ rfl
theorem Alignment.mloopStart (core : Nat) : Alignment.Statement (.mloopStart core) := Alignment.of_checks _ rfl
theorem Alignment.mloopFetchFault (core : Nat) : Alignment.Statement (.mloopFetchFault core) := Alignment.of_checks _ rfl
theorem Alignment.mloopEnd (core : Nat) : Alignment.Statement (.mloopEnd core) := Alignment.of_checks _ rfl
theorem Alignment.engineAccept (inst : Nat) : Alignment.Statement (.engineAccept inst) := Alignment.of_checks _ rfl
theorem Alignment.receiptPost (inst : Nat) : Alignment.Statement (.receiptPost inst) := Alignment.of_checks _ rfl
theorem Alignment.copy (inst : Nat) : Alignment.Statement (.copy inst) := Alignment.of_checks _ rfl
theorem Alignment.gather (inst : Nat) : Alignment.Statement (.gather inst) := Alignment.of_checks _ rfl
theorem Alignment.scatter (inst : Nat) : Alignment.Statement (.scatter inst) := Alignment.of_checks _ rfl
theorem Alignment.fill (inst : Nat) : Alignment.Statement (.fill inst) := Alignment.of_checks _ rfl
theorem Alignment.stream (inst : Nat) : Alignment.Statement (.stream inst) := Alignment.of_checks _ rfl
theorem Alignment.lookup (inst : Nat) : Alignment.Statement (.lookup inst) := Alignment.of_checks _ rfl
theorem Alignment.insert (inst : Nat) : Alignment.Statement (.insert inst) := Alignment.of_checks _ rfl
theorem Alignment.sort (inst : Nat) : Alignment.Statement (.sort inst) := Alignment.of_checks _ rfl
theorem Alignment.merge (inst : Nat) : Alignment.Statement (.merge inst) := Alignment.of_checks _ rfl
theorem Alignment.hash (inst : Nat) : Alignment.Statement (.hash inst) := Alignment.of_checks _ rfl
theorem Alignment.sign (inst : Nat) : Alignment.Statement (.sign inst) := Alignment.of_checks _ rfl
theorem Alignment.linkDownTimeout (port : Nat) : Alignment.Statement (.linkDownTimeout port) := Alignment.of_checks _ rfl
theorem Alignment.lowRailHoldExpiry (cluster : Nat) : Alignment.Statement (.lowRailHoldExpiry cluster) := Alignment.of_checks _ rfl
theorem Alignment.railChangeComplete (cluster : Nat) : Alignment.Statement (.railChangeComplete cluster) := Alignment.of_checks _ rfl
theorem Alignment.hostCoherenceDrain (tenant lines : Nat) : Alignment.Statement (.hostCoherenceDrain tenant lines) := Alignment.of_checks _ rfl
theorem Alignment.operandLogEntryFreed (entry : Nat) : Alignment.Statement (.operandLogEntryFreed entry) := Alignment.of_checks _ rfl
theorem Alignment.iprefInvComplete (id : Nat) : Alignment.Statement (.iprefInvComplete id) := Alignment.of_checks _ rfl
theorem Alignment.ssvInboxMessageTaken (tenant : Nat) : Alignment.Statement (.ssvInboxMessageTaken tenant) := Alignment.of_checks _ rfl
theorem Alignment.hostMemoryAccess (a : HostAccess) : Alignment.Statement (.hostMemoryAccess a) := Alignment.of_checks _ rfl
theorem Alignment.registerWrite (pa : Nat) (v : DWord) : Alignment.Statement (.registerWrite pa v) := Alignment.of_checks _ rfl
theorem Alignment.bringUp (r : BootResult) : Alignment.Statement (.bringUp r) := Alignment.of_checks _ rfl
theorem Alignment.sqtailWrite (q : Nat) (v : Word) : Alignment.Statement (.sqtailWrite q v) := Alignment.of_checks _ rfl
theorem Alignment.sqctlResume (q : Nat) : Alignment.Statement (.sqctlResume q) := Alignment.of_checks _ rfl
theorem Alignment.sqctlSkip (q : Nat) : Alignment.Statement (.sqctlSkip q) := Alignment.of_checks _ rfl
theorem Alignment.eventCounterHostAdd (n : Nat) (v : DWord) : Alignment.Statement (.eventCounterHostAdd n v) := Alignment.of_checks _ rfl
theorem Alignment.dataFaultRetry (f : DataFault) : Alignment.Statement (.dataFaultRetry f) := Alignment.of_checks _ rfl
theorem Alignment.pairctlWrite (slice : Nat) (v : DWord) : Alignment.Statement (.pairctlWrite slice v) := Alignment.of_checks _ rfl
theorem Alignment.icinvWrite (v : DWord) : Alignment.Statement (.icinvWrite v) := Alignment.of_checks _ rfl
theorem Alignment.xlinvWrite (v : DWord) : Alignment.Statement (.xlinvWrite v) := Alignment.of_checks _ rfl
theorem Alignment.launchabortWrite (v : DWord) : Alignment.Statement (.launchabortWrite v) := Alignment.of_checks _ rfl
theorem Alignment.playoutWrite (v : DWord) : Alignment.Statement (.playoutWrite v) := Alignment.of_checks _ rfl
theorem Alignment.pengWrite (f : Nat) (v : DWord) : Alignment.Statement (.pengWrite f v) := Alignment.of_checks _ rfl
theorem Alignment.pevtWrite (f : Nat) (v : DWord) : Alignment.Statement (.pevtWrite f v) := Alignment.of_checks _ rfl
theorem Alignment.pmintWrite (f : Nat) (v : DWord) : Alignment.Statement (.pmintWrite f v) := Alignment.of_checks _ rfl
theorem Alignment.tenantWrite (u : Nat) (v : DWord) : Alignment.Statement (.tenantWrite u v) := Alignment.of_checks _ rfl
theorem Alignment.qownWrite (n : Nat) (v : DWord) : Alignment.Statement (.qownWrite n v) := Alignment.of_checks _ rfl
theorem Alignment.floorWrite (t : Nat) (v : DWord) : Alignment.Statement (.floorWrite t v) := Alignment.of_checks _ rfl
theorem Alignment.lowrailWrite (v : DWord) : Alignment.Statement (.lowrailWrite v) := Alignment.of_checks _ rfl
theorem Alignment.railcntClear (c : Nat) : Alignment.Statement (.railcntClear c) := Alignment.of_checks _ rfl
theorem Alignment.linkctlRetrain (p : Nat) : Alignment.Statement (.linkctlRetrain p) := Alignment.of_checks _ rfl
theorem Alignment.peerLinkRequest (port : Nat) (a : PeerAccess) : Alignment.Statement (.peerLinkRequest port a) := Alignment.of_checks _ rfl
theorem Alignment.linkFlitReceive (port : Nat) (f : Flit) : Alignment.Statement (.linkFlitReceive port f) := Alignment.of_checks _ rfl
theorem Alignment.linkTraining (port : Nat) (proof : PeerProof) : Alignment.Statement (.linkTraining port proof) := Alignment.of_checks _ rfl
theorem Alignment.nocPacketReceive (w : Flow) (crcOk tagOk : Bool) (f : DataFault) : Alignment.Statement (.nocPacketReceive w crcOk tagOk f) :=
  Alignment.of_checks _ rfl
theorem Alignment.powerControlTick (r : PowerReading) : Alignment.Statement (.powerControlTick r) := Alignment.of_checks _ rfl
theorem Alignment.dramModeCheck (group report : Nat) : Alignment.Statement (.dramModeCheck group report) := Alignment.of_checks _ rfl
theorem Alignment.undervoltInterval (s : Nat) : Alignment.Statement (.undervoltInterval s) := Alignment.of_checks _ rfl
theorem Alignment.lowRailUncorrectable (cluster : Nat) (f : DataFault) : Alignment.Statement (.lowRailUncorrectable cluster f) :=
  Alignment.of_checks _ rfl
theorem Alignment.junctionCrossing (slice level : Nat) (rising : Bool) (celsius : Int) : Alignment.Statement (.junctionCrossing slice level rising celsius) :=
  Alignment.of_checks _ rfl
theorem Alignment.icinvComplete : Alignment.Statement (.icinvComplete) := Alignment.of_checks _ rfl
theorem Alignment.xlinvComplete : Alignment.Statement (.xlinvComplete) := Alignment.of_checks _ rfl
theorem Alignment.cfgerrClear : Alignment.Statement (.cfgerrClear) := Alignment.of_checks _ rfl
theorem Alignment.evrctlOverflowClear : Alignment.Statement (.evrctlOverflowClear) := Alignment.of_checks _ rfl
theorem Alignment.evrlostClear : Alignment.Statement (.evrlostClear) := Alignment.of_checks _ rfl
theorem Alignment.mbxreplyRead : Alignment.Statement (.mbxreplyRead) := Alignment.of_checks _ rfl
theorem Alignment.bind : Alignment.Statement (.bind) := Alignment.of_checks _ rfl
theorem Alignment.unbind : Alignment.Statement (.unbind) := Alignment.of_checks _ rfl
theorem Alignment.lock : Alignment.Statement (.lock) := Alignment.of_checks _ rfl
theorem Alignment.start : Alignment.Statement (.start) := Alignment.of_checks _ rfl
theorem Alignment.unlock : Alignment.Statement (.unlock) := Alignment.of_checks _ rfl
theorem Alignment.query : Alignment.Statement (.query) := Alignment.of_checks _ rfl
theorem Alignment.keyprov : Alignment.Statement (.keyprov) := Alignment.of_checks _ rfl
theorem Alignment.keyrevoke : Alignment.Statement (.keyrevoke) := Alignment.of_checks _ rfl
theorem Alignment.extend : Alignment.Statement (.extend) := Alignment.of_checks _ rfl
theorem Alignment.secBadMessage : Alignment.Statement (.secBadMessage) := Alignment.of_checks _ rfl
theorem Alignment.getVersion : Alignment.Statement (.getVersion) := Alignment.of_checks _ rfl
theorem Alignment.getCapabilities : Alignment.Statement (.getCapabilities) := Alignment.of_checks _ rfl
theorem Alignment.negotiateAlgorithms : Alignment.Statement (.negotiateAlgorithms) := Alignment.of_checks _ rfl
theorem Alignment.getDigests : Alignment.Statement (.getDigests) := Alignment.of_checks _ rfl
theorem Alignment.getCertificate : Alignment.Statement (.getCertificate) := Alignment.of_checks _ rfl
theorem Alignment.challenge : Alignment.Statement (.challenge) := Alignment.of_checks _ rfl
theorem Alignment.getMeasurements : Alignment.Statement (.getMeasurements) := Alignment.of_checks _ rfl
theorem Alignment.spdmUnsupportedRequest : Alignment.Statement (.spdmUnsupportedRequest) := Alignment.of_checks _ rfl
theorem Alignment.dramWindow : Alignment.Statement (.dramWindow) := Alignment.of_checks _ rfl
theorem Alignment.coldReset : Alignment.Statement (.coldReset) := Alignment.of_checks _ rfl

end Laws
end Sys2Proof
end

