-- ==== Sys2Proof/Tests/Slice0.lean ====
section
/-!
SUPPORT. The author's tests: the decoding of words written out from the manual's tables, ill-formed terms that the checks refuse, states
that meet the hypotheses of the statements of `Certificates.Slice0.Obligations` (the theorems test_hyp_<statement>), and single steps.
-/

namespace Sys2Proof
namespace Tests
set_option Elab.async false
open Sys2Proof.Machine

/-! ## Words -/

/-- The header of the words below: stall 2, no guard, no hint. -/
def h : Hdr := ⟨2, false, 7, none⟩
/-- Words with their fields written out from the opcode tables of chapter 2 and the entries of the chapters: integerWords1. -/
def integerWords1 : List (DWord × Instr) :=
  [ (0x1380000000000000, .nop h),
    (0x138041003FC20000, .mov h (.v 4) (.imm 0x20000)),
    (0x13808101BFC3FFFF, .movhi h (.v 4) (.v 6) 0x3FFFF),
    (0x1380C10182000000, .iadd h (.v 4) (.v 6) (.reg (.v 8))),
    (0x13810101BFC00001, .isub h (.v 4) (.v 6) (.imm 1)),
    (0x1381410182000000, .iadds h false (.v 4) (.v 6) (.reg (.v 8))),
    (0x1381810182000100, .isubs h true (.v 4) (.v 6) (.reg (.v 8))),
    (0x1381C101BE000000, .imul h (.v 4) (.v 6) (.reg .zero)),
    (0x13820101BFC00007, .imulh h true (.v 4) (.v 6) (.imm 7)),
    (0x1382410182000009, .imad h (.v 4) (.v 6) (.v 8) (.v 9)),
    (0x138281018200010A, .imadw h true (.v 4) (.v 6) (.v 8) (.v 10)),
    (0x1382C10182000000, .iadd64 h (.v 4) (.v 6) (.reg (.v 8))),
    (0x13830101BFC3FFFF, .isub64 h (.v 4) (.v 6) (.imm 0x3FFFF)),
    (0x1383410182000700, .lea h 7 (.v 4) (.v 6) (.reg (.v 8))),
    (0x1383810182000B00, .lea64 h 3 true (.v 4) (.v 6) (.reg (.v 8))),
    (0x1383C10182000000, .imin h false (.v 4) (.v 6) (.reg (.v 8))),
    (0x1384010182000100, .imax h true (.v 4) (.v 6) (.reg (.v 8))),
    (0x1384410180000000, .iabs h (.v 4) (.v 6)),
    (0x1384810182000000, .iand h (.v 4) (.v 6) (.reg (.v 8))),
    (0x1384C10182000000, .ior h (.v 4) (.v 6) (.reg (.v 8))),
    (0x1385010182000000, .ixor h (.v 4) (.v 6) (.reg (.v 8))),
    (0x138541018200CA09, .bmux h 0xC 0xA (.v 4) (.v 6) (.v 8) (.v 9)),
    (0x13858101BFC0001F, .shl h (.v 4) (.v 6) (.imm 31)) ]

/-- Words with their fields written out from the opcode tables of chapter 2 and the entries of the chapters: integerWords2. -/
def integerWords2 : List (DWord × Instr) :=
  [ (0x1385C10182000100, .shr h true (.v 4) (.v 6) (.reg (.v 8))),
    (0x1386010182000109, .shf h true (.v 4) (.v 6) (.v 8) (.v 9)),
    (0x1386410182000000, .rot h (.v 4) (.v 6) (.reg (.v 8))),
    (0x1386810180000000, .popc h (.v 4) (.v 6)),
    (0x1386C10180000000, .clz h (.v 4) (.v 6)),
    (0x1387010180000000, .brev h (.v 4) (.v 6)),
    (0x1387410182000100, .bfe h true (.v 4) (.v 6) (.reg (.v 8))),
    (0x1387810182000009, .bfi h (.v 4) (.v 6) (.v 8) (.v 9)),
    (0x1387C10182000009, .prmt h (.v 4) (.v 6) (.v 8) (.v 9)),
    (0x13881AC182003D00, .isetp h .ge true .xor ⟨5, true⟩ 3 (.v 6) (.reg (.v 8))),
    (0x1388438182001100, .isetp64 h .ne false .and ⟨1, false⟩ 6 (.v 6) (.reg (.v 8))),
    (0x1388810182000C00, .iset h .gt true (.v 4) (.v 6) (.v 8)),
    (0x1388C10182000A00, .sel h ⟨2, true⟩ (.v 4) (.v 6) (.v 8)),
    (0x138900C00001A100, .pset h .or 3 ⟨1, false⟩ ⟨2, true⟩),
    (0x1389410000000000, .p2v h (.v 4)),
    (0x1389800180005500, .v2p h 0x55 (.v 6)),
    (0x1389C10182000000, .hash32 h (.v 4) (.v 6) (.reg (.v 8))),
    (0x138A0101BFC00051, .shfl h .down (.v 4) (.v 6) (.imm 17)),
    (0x138A410000002400, .vote h .any ⟨4, false⟩ (.v 4)),
    (0x138A810000001200, .s2v h 18 (.v 4)),
    (0x138AC00180001200, .v2s h (.v 6)),
    (0x138B010182000000, .imul64 h (.v 4) (.v 6) (.reg (.v 8))),
    (0x138B410001800000, .mov64 h (.v 4) (.reg (.v 6))) ]

/-- Words with their fields written out from the opcode tables of chapter 2 and the entries of the chapters: floatWords. -/
def floatWords : List (DWord × Instr) :=
  [ (0x1390010182000B00, .fadd h .bh2 .ru (.v 4) (.v 6) (.reg (.v 8))),
    (0x1390410182000100, .fsub h .f32 .rz (.v 4) (.v 6) (.reg (.v 8))),
    (0x13908101BFC00002, .fmul h .f32 .rn (.v 4) (.v 6) (.imm 2)),
    (0x1390C10182000609, .ffma h .h2 .rd (.v 4) (.v 6) (.v 8) (.v 9)),
    (0x1391010182000400, .fmin h .h2 (.v 4) (.v 6) (.reg (.v 8))),
    (0x1391410182000800, .fmax h .bh2 (.v 4) (.v 6) (.reg (.v 8))),
    (0x13919A8182002900, .fsetp h .geu .or ⟨1, true⟩ 2 (.v 6) (.reg (.v 8))),
    (0x1391C10182001600, .fset h .num .h2 (.v 4) (.v 6) (.v 8)),
    (0x1392010180000400, .fclass h .bf16 (.v 4) (.v 6)),
    (0x1392410180000000, .frcp h (.v 4) (.v 6)),
    (0x1392810180000000, .frsq h (.v 4) (.v 6)),
    (0x1392C10180000300, .fsqrt h .ru (.v 4) (.v 6)),
    (0x1393010180000000, .fexp2 h (.v 4) (.v 6)),
    (0x1393410180000000, .flog2 h (.v 4) (.v 6)),
    (0x1393810180000000, .fsin h (.v 4) (.v 6)),
    (0x1393C10180000000, .fcos h (.v 4) (.v 6)),
    (0x1394010180000000, .ftanh h (.v 4) (.v 6)),
    (0x1394410182000200, .fscale h .rd (.v 4) (.v 6) (.reg (.v 8))),
    (0x1394810180000100, .frnd h .rz (.v 4) (.v 6)),
    (0x1394C10182000809, .fdot2 h .bh2 .rn (.v 4) (.v 6) (.v 8) (.v 9)),
    (0x1395010182000409, .fmed3 h .h2 (.v 4) (.v 6) (.v 8) (.v 9)),
    (0x1395410180001D00, .cvt h .s32 .f32 .rz (.v 4) (.v 6)),
    (0x1395810182000500, .cvtpk h .h2 .rz (.v 4) (.v 6) (.v 8)),
    (0x1395C101840000F8, .cbenc h (.v 4) (.v 6) 16 .zero),
    (0x1396010184000509, .cbdec h 5 (.v 4) (.v 6) 16 (.v 9)) ]

/-- Words with their fields written out from the opcode tables of chapter 2 and the entries of the chapters: controlWords. -/
def controlWords : List (DWord × Instr) :=
  [ (0x13A000003FC3FFFF, .bra h 0x3FFFF),
    (0x13A040003FC00002, .brd h 2),
    (0x13A0800180000000, .brx h (.v 6)),
    (0x13A0C3003FC00002, .call h (.link 12) 2),
    (0x13A13E0180000000, .callx h .stack (.v 6)),
    (0x13A1400180000000, .ret h (.link 6)),
    (0x13A1800000000000, .land h),
    (0x13A1C03E00000000, .reform h .stack),
    (0x13A2000000000000, .gpin h),
    (0x13A2400000000000, .gfree h),
    (0x13A2800000000000, .exit h),
    (0x13A2C0003FC00009, .yield h (some 9)),
    (0x13A30001BFC00002, .bloop h (.v 6) 2),
    (0x13A3400182000000, .ipref h none (.v 6) (.v 8)),
    (0x13A3400182000100, .iprefInv h (.v 6) (.v 8)),
    (0x13A38101BFC00005, .launch h (.v 4) (.v 6) (.imm 5)),
    (0x13A3C10242000400, .evwait h .sys (.v 4) (.v 9) (.reg (.v 8))),
    (0x13A400027FC00001, .evsig h .dev (.v 9) (.imm 1)),
    (0x13A4400000000000, .nopw h none) ]

/-- Words with their fields written out from the opcode tables of chapter 2 and the entries of the chapters: memoryWords. -/
def memoryWords : List (DWord × Instr) :=
  [ (0x13B0010182002881, .ld h .b8 true .st (.v 4) (.v 6) (.reg (.v 8)) 0x81),
    (0x13B0410182001403, .st h .b128 .cg (.v 4) (.v 6) (.reg (.v 8)) 3),
    (0x13B0810182000100, .lds h .b16 false (.v 4) (.v 6) (.reg (.v 8)) 0),
    (0x13B0C10182000300, .sts h .b64 (.v 4) (.v 6) (.reg (.v 8)) 0),
    (0x13B10101BFC00008, .ldl h .b32 false .ca (.v 4) (.v 6) (.imm 8) 0),
    (0x13B14101BFC00008, .stl h .b32 .ca (.v 4) (.v 6) (.imm 8) 0),
    (0x13B18101BFC00008, .ldw h (.v 4) (.v 6) 8),
    (0x13B1C101BFC00008, .stw h (.v 4) (.v 6) 8),
    (0x13B20101BE000301, .ldk h .b64 .ca (.v 4) (.v 6) (.reg .zero) 1),
    (0x13B2400182001000, .pref h .cg (.v 6) (.reg (.v 8))),
    (0x13B2800182000200, .cctl h .ivtlb (.v 6) (.reg (.v 8))),
    (0x13B2C10182001300, .acp h 3 .cg (.v 4) (.v 6) (.reg (.v 8))),
    (0x13B300003FC00281, .acwait h 0x81 2),
    (0x13B3410000000000, .acqry h (.v 4)),
    (0x13B3810182000100, .ldcb h .l8 (.v 4) (.v 6) (.reg (.v 8))),
    (0x13B3C10182000000, .xlq h (.v 4) (.v 6) (.reg (.v 8))) ]

/-- Words with their fields written out from the opcode tables of chapter 2 and the entries of the chapters: orderWords. -/
def orderWords : List (DWord × Instr) :=
  [ (0x13C001018203E302, .amo h .fmax .b32 .sc .dev (.v 4) (.v 6) (.v 8)),
    (0x13C041018200CA0A, .cas h .b64 .acq .slc (.v 4) (.v 6) (.v 8) (.v 10)),
    (0x13C0800182011402, .red h .exch .b32 .rel .sys (.v 6) (.v 8)),
    (0x13C0C00000001800, .fence h .ar .blk),
    (0x13C100003FC0400F, .bar h (.imm 15 1024)),
    (0x13C1400240000000, .bara h (.reg (.v 9))),
    (0x13C180003FC00002, .barw h (.imm 2 0)),
    (0x13C1C00000000000, .gbar h),
    (0x13C2000000000000, .ssync h),
    (0x13C2410182015B00, .waitv h .le true .b32 .dev (.v 4) (.v 6) (.v 8)),
    (0x13C2810000005B00, .ctxopen h .dev true (some 2) (.v 4)),
    (0x13C2C00240000000, .ctxset h (.v 9)),
    (0x13C3000240000000, .ctxsettle h (.v 9)),
    (0x13C3400240000000, .ctxvoid h (.v 9)),
    (0x13C3810240000000, .ctxq h (.v 4) (.v 9)),
    (0x13C3C10182000909, .ldcx h .b16 true (.v 4) (.v 6) (.v 8) (.v 9)),
    (0x13C4010240000100, .ctxwait h .cls (.v 4) (.v 9)),
    (0x13C4400000000000, .ordhead h) ]

/-- Words with their fields written out from the opcode tables of chapter 2 and the entries of the chapters: matrixWords. -/
def matrixWords : List (DWord × Instr) :=
  [ (0x13D001C242000A00, .obres h .c4e8 2 7 (.v 9) (.v 8)),
    (0x13D041C03FC3FFFF, .obset h 7 (.imm 0x3FFFF)),
    (0x13D081C000000000, .obfree h 7),
    (0x13D0C1C004000000, .cbld h 7 16),
    (0x13D1010800000000, .mloop h (.v 4) 32),
    (0x13D1400240000000, .mwait h (.v 9)),
    (0x13D1814000000000, .mzero h 5),
    (0x13D1C141BFC00100, .accld h 5 (.v 6) (.imm 256)),
    (0x13D2014182000000, .accst h 5 (.v 6) (.reg (.v 8))),
    (0x13D241017FC00FFF, .mrd h (.v 4) 5 (.imm 4095)),
    (0x13D2814182001E00, .mout h .c4e8 5 7 (.v 6) (.v 8)),
    (0x13D2C10240000000, .mprog h (.v 4) (.v 9)),
    (0x13D301C240000000, .keybind h 7 (.v 9)) ]

/-- Words with their fields written out from the opcode tables of chapter 2 and the entries of the chapters: engineWords. -/
def engineWords : List (DWord × Instr) :=
  [ (0x13E0008400000300, .push h 2 .sec 16),
    (0x13E0403DC0000200, .qbind h 7 .vox),
    (0x13E0813C3FC00003, .qpeek h (.v 4) 0 (.imm 3)),
    (0x13E0C13DC0000000, .qcnt h (.v 4) 7),
    (0x13E1013C40000000, .qdrain h (.v 4) 1),
    (0x13E1410000000000, .bkqry h (.v 4)),
    (0x13E180003FC0000A, .bkwake h 0xA),
    (0x13E1C0003FC00018, .bkdrop h true 8),
    (0x13E201003FC0000F, .spwake h (.v 4) (.imm 15)),
    (0x13E241003FC0001F, .spdrop h (.v 4) (.imm 31)) ]

/-- Words with their fields written out from the opcode tables of chapter 2 and the entries of the chapters: systemWords. -/
def systemWords : List (DWord × Instr) :=
  [ (0x13F000003FC3FFFF, .trap h 0x3FFFF),
    (0x13F0400000000000, .tret h),
    (0x13F0800180000000, .tclr h (.v 6)),
    (0x13F0C1003FC00003, .trd h (.v 4) (.imm 3)),
    (0x13F1010182000000, .tmask h (.v 4) (.v 6) (.v 8)),
    (0x13F141003FC000C0, .ologq h (.v 4) (.imm 0xC0)),
    (0x13F180003FC00007, .brk h 7),
    (0x13F1C1003FC00101, .sysrd h (.v 4) (.imm 0x101)),
    (0x13F20001BFC00000, .syswr h (.v 6) (.imm 0)),
    (0x13F241003FC00005, .cntrd h (.v 4) (.imm 5)),
    (0x13F2804000000000, .psafe h 1),
    (0x13F2C10000000000, .ilq h (.v 4)),
    (0x13F3000000000000, .halt h),
    (0x13F3410180000100, .mbox h true (.v 4) (.v 6)) ]

theorem test_decode_integerWords1 : ∀ p ∈ integerWords1, decode p.1 = p.2 := by decide +kernel
theorem test_decode_integerWords2 : ∀ p ∈ integerWords2, decode p.1 = p.2 := by decide +kernel
theorem test_decode_floatWords : ∀ p ∈ floatWords, decode p.1 = p.2 := by decide +kernel
theorem test_decode_controlWords : ∀ p ∈ controlWords, decode p.1 = p.2 := by decide +kernel
theorem test_decode_memoryWords : ∀ p ∈ memoryWords, decode p.1 = p.2 := by decide +kernel
theorem test_decode_orderWords : ∀ p ∈ orderWords, decode p.1 = p.2 := by decide +kernel
theorem test_decode_matrixWords : ∀ p ∈ matrixWords, decode p.1 = p.2 := by decide +kernel
theorem test_decode_engineWords : ∀ p ∈ engineWords, decode p.1 = p.2 := by decide +kernel
theorem test_decode_systemWords : ∀ p ∈ systemWords, decode p.1 = p.2 := by decide +kernel

/-! ## A state in which each of these words may issue -/

/-- The conditions of `State.Issues`, evaluated. -/
def issues (s : State) (g : Nat) (G : Group) (i : Instr) : Bool :=
  decide (s.cur = some g) && decide (s.groups.find g = some G) && !G.lanes.isEmpty && decide G.lanes.Nodup && s.ready G i &&
    (G.lanes.all fun t => decide (topReg i.uses ≤ s.allotOf t)) &&
    (!s.enabled G.block G.core cStallShort || G.lanes.all fun t => !s.earlyLane i i.hdr (s.issueClk G i) t true) &&
    (G.lanes.all fun t => (readsOf i ++ writesOf i).all fun n => (s.thread t).quarter (quarterOf n) == .full) &&
    decide (s.queueGate G.block G.core i (s.actives G i).length = .pass)

theorem issues_of (s : State) (g : Nat) (G : Group) (i : Instr) (h : issues s g G i = true) : s.Issues g G i := by
  simp only [issues, Bool.and_eq_true, decide_eq_true_eq, List.all_eq_true, beq_iff_eq, Bool.or_eq_true, Bool.not_eq_true'] at h
  obtain ⟨⟨⟨⟨⟨⟨⟨⟨h1, h2⟩, h3⟩, h4⟩, h5⟩, h6⟩, h7⟩, h8⟩, h9⟩ := h
  refine ⟨h1, h2, by simpa using h3, h4, h5, fun t m => h6 t m, ?_, fun t m n k => h8 t m n k, h9⟩
  rintro e t m
  rcases h7 with h7 | h7
  · simp [h7] at e
  · exact h7 t m

/-- A group of two lanes on core 0. -/
def grp : Group where
  core := 0
  quarter := 0
  block := 1
  pc := 65536
  lanes := [0, 1]
  slot := some 0
  readyAt := 0
  since := 0
  oppsAt := 0
  candidate := false
  yieldLeft := 0
  wait := none
  causes := 0
  masks := []
  faults := []
  inHandler := false
  enterAt := 0
  resumePc := 0
  resumeMask := 0
  deliver := none
  memHold := []
  paused := none

/-- A thread of that group. -/
def thr (n : Nat) : Thread := { Thread.init with
  block := 1, ix := [n], tid := n, disp := .group 2, quarters := [.full, .full, .full, .full] }

/-- Two threads of a block that is all of its launch; the group is selected. -/
def st : State := { State.reset with
  cur := some 2, nextId := 3, threads := [(0, thr 0), (1, thr 1)], groups := [(2, grp)]
  launches := [(0, { Launch.init with lrec := fetchRec, state := .ready, nextBlock := 1 })]
  blocks := [(1, { Block.init with launch := 0, gslots := [0], residence := .resident })] }

theorem test_issues_integerWords1 : ∀ p ∈ integerWords1, st.Issues 2 grp p.2 :=
  fun p hp => issues_of _ _ _ _ ((show ∀ p ∈ integerWords1, issues st 2 grp p.2 = true by decide +kernel) p hp)
theorem test_issues_integerWords2 : ∀ p ∈ integerWords2, st.Issues 2 grp p.2 :=
  fun p hp => issues_of _ _ _ _ ((show ∀ p ∈ integerWords2, issues st 2 grp p.2 = true by decide +kernel) p hp)
theorem test_issues_floatWords : ∀ p ∈ floatWords, st.Issues 2 grp p.2 :=
  fun p hp => issues_of _ _ _ _ ((show ∀ p ∈ floatWords, issues st 2 grp p.2 = true by decide +kernel) p hp)
theorem test_issues_controlWords : ∀ p ∈ controlWords, st.Issues 2 grp p.2 :=
  fun p hp => issues_of _ _ _ _ ((show ∀ p ∈ controlWords, issues st 2 grp p.2 = true by decide +kernel) p hp)
theorem test_issues_memoryWords : ∀ p ∈ memoryWords, st.Issues 2 grp p.2 :=
  fun p hp => issues_of _ _ _ _ ((show ∀ p ∈ memoryWords, issues st 2 grp p.2 = true by decide +kernel) p hp)
theorem test_issues_orderWords : ∀ p ∈ orderWords, st.Issues 2 grp p.2 :=
  fun p hp => issues_of _ _ _ _ ((show ∀ p ∈ orderWords, issues st 2 grp p.2 = true by decide +kernel) p hp)
theorem test_issues_matrixWords : ∀ p ∈ matrixWords, st.Issues 2 grp p.2 :=
  fun p hp => issues_of _ _ _ _ ((show ∀ p ∈ matrixWords, issues st 2 grp p.2 = true by decide +kernel) p hp)
theorem test_issues_engineWords : ∀ p ∈ engineWords, st.Issues 2 grp p.2 :=
  fun p hp => issues_of _ _ _ _ ((show ∀ p ∈ engineWords, issues st 2 grp p.2 = true by decide +kernel) p hp)
theorem test_issues_systemWords : ∀ p ∈ systemWords, st.Issues 2 grp p.2 :=
  fun p hp => issues_of _ _ _ _ ((show ∀ p ∈ systemWords, issues st 2 grp p.2 = true by decide +kernel) p hp)

/-! ## Words: states that meet the hypotheses of the statements -/

/-- `st` with its threads changed. -/
def upT (f : Nat → Thread → Thread) : State := { st with threads := [(0, f 0 (thr 0)), (1, f 1 (thr 1))] }
/-- `st` with its group changed. -/
def upG (G : Group) : State := { st with groups := [(2, G)] }
/-- `st` with its block changed. -/
def upB (f : Block → Block) (s : State := st) : State := { s with blocks := s.blocks.adjust 1 f }
/-- `st` with its launch record changed. -/
def upR (f : LRec → LRec) (s : State := st) : State :=
  { s with launches := s.launches.adjust 0 fun L => { L with lrec := f L.lrec } }
/-- `st` with some registers. -/
def regs (rs : FMap Word) (s : State := st) : State := { s with threads := s.threads.map fun p => (p.1, { p.2 with regs := rs }) }
/-- DRAM, and a page at 0x10000 that maps to itself. -/
def paged (s : State := st) : State :=
  { s with tlb := [⟨0, 16, 0, fetchPte⟩], cfg := { s.cfg with dramcfg := 1 } }
/-- `st` with a store that has not been acknowledged. -/
def unreleased (s : State := st) : State := { s with pendStores := [(0, ⟨1, 0, 0, 0, 1⟩)] }
/-- `st` with maskable causes enabled. -/
def masked (s : State := st) : State := upB (fun B => { B with lead := { B.lead with trapMask := 0x45F000004 } }) s

/-- `Issues` with further hypotheses. -/
theorem also {p : Prop} (s : State) (g : Nat) (G : Group) (i : Instr) (a : issues s g G i = true) (b : p) : s.Issues g G i ∧ p :=
  ⟨issues_of s g G i a, b⟩

theorem apart_st : st.Apart 2 grp := ⟨by decide, by decide +kernel, by decide, by decide⟩

/-- Queue registers as source and as destination: a word of two lanes takes two entries of q0 and pushes two to q7. -/
theorem test_hyp_queue_operands :
    let s := upB fun B => { B with lead := { B.lead with queues := listSet (listSet B.lead.queues 0 ⟨[1, 2], 0, .none, 0⟩) 7 ⟨[], 0, .cgs, 0⟩ } }
    s.Issues 2 grp (.iadd h (.q 7) (.q 0) (.imm 1)) ∧ (s.blocks.find 1).isSome = true ∧
      (qReadsOf (.iadd h (.q 7) (.q 0) (.imm 1))).Nodup := also _ _ _ _ (by decide +kernel) (by decide +kernel)

/-- A shuffle with a lane above and a lane outside the group. -/
theorem test_hyp_LaneExchange : st.Issues 2 grp (.shfl h .up (.v 4) (.v 6) (.imm 1)) ∧ (grp.lanes.map laneOf).Nodup :=
  also _ _ _ _ (by decide +kernel) (by decide)

/-- The leader and the follower of a checked pair on cores 0 and 2. -/
def grpF : Group := { grp with core := 2, lanes := [2048, 2049] }
def stF (items : List Item) : State := { st with
  threads := [(0, thr 0), (1, thr 1), (2048, { thr 0 with disp := .group 3 }), (2049, { thr 1 with disp := .group 3 })]
  groups := [(2, grp), (3, grpF)], nextId := 4, cur := some 3
  blocks := [(1, { Block.init with launch := 0, follower := some 2, gslots := [0], residence := .resident, items := items })] }
/-- The values that the leader keeps for slots 0 and 1. -/
def kept2 : List Item := [⟨0, 0, 0, 9, 65536, 0, 7, 0, 8, 0, [], 0⟩, ⟨0, 1, 0, 9, 65536, 0, 7, 0, 8, 0, [], 0⟩]

theorem test_hyp_SpecialRegisters :
    (({ stF [] with cur := some 2 } : State).Issues 2 grp (.s2v h 13 (.v 4)) ∧ (stF []).paired 1 = true ∧
      (stF []).isFollower 1 0 = false ∧ (∀ u ∈ grp.lanes, u / 1024 = grp.core) ∧ (grp.lanes.map slotOf).Nodup) ∧
    ((stF kept2).Issues 3 grpF (.s2v h 14 (.v 4)) ∧ (stF kept2).isFollower 1 2 = true ∧
      (∀ u ∈ grpF.lanes, u / 1024 = grpF.core) ∧ (grpF.lanes.map slotOf).Nodup ∧
      ∀ u ∈ (stF kept2).actives grpF (.s2v h 14 (.v 4)), (stF kept2).leaderValue 1 (slotOf u) = some 7) ∧
    ((stF []).Issues 3 grpF (.s2v h 14 (.v 4)) ∧ (stF []).leaderValue 1 0 = none) :=
  ⟨also _ _ _ _ (by decide +kernel) (by decide +kernel), also _ _ _ _ (by decide +kernel) (by decide +kernel),
    also _ _ _ _ (by decide +kernel) (by decide +kernel)⟩

theorem test_hyp_numbers : (1 : Nat) ≠ 0 ∧ FVal.isFin (fp32.unpack 0x3F800000) = true ∧ fp32.unpack 0x7F800000 = .inf false ∧
    fp32.unpack 0xFF800000 = .inf true ∧ fp32.unpack 0x7FC00000 = .nan false ∧ fp32.unpack 0x7F800001 = .nan true ∧
    fp32.unpack 0x80000000 = .fin true 0 (-149) ∧ fp32.unpack 0xBF800000 = .fin true 0x800000 (-23) ∧
    fp32.unpack 1 = .fin false 1 (-149) ∧ fp16.unpack 0x7BFF = .fin false 0x7FF 5 ∧ bf16.unpack 0xFF80 = .inf true := by decide +kernel

/-- A codebook with a number, an infinity and a NaN, and scales that are and are not a NaN. -/
theorem test_hyp_Codebooks :
    let cb : List Word := [0x7F803F80, 0x7FC00000, 0, 0, 0, 0, 0, 0]
    let entry (k : Nat) : FVal := bf16.unpack ((cb.getD (k / 2) 0).toNat / 2 ^ (16 * (k % 2)) % 2 ^ 16)
    entry 0 = .fin false 0x80 (-7) ∧ entry 1 = .inf false ∧ entry 3 = .nan false ∧ (some 254 : Option Nat) ≠ some 255 ∧
      (∃ k, k < 16 ∧ (entry k).isNaN = false) := ⟨by decide +kernel, by decide +kernel, by decide +kernel, by decide, 0, by decide +kernel⟩

/-- A form of class 1 with no enabled condition, and one in which an invalid operation is enabled and met. -/
theorem test_hyp_FloatWords :
    let F (x : Src) : FloatForm := (.fadd h .f32 .rn (.v 4) (.v 6) x, 6, fun v =>
      ((w32 (.v 4) 0), { inv := (fp32.unpack (v.r32 (.v 6)).toNat).isSig }))
    (st.Issues 2 grp (.fadd h .f32 .rn (.v 4) (.v 6) (.imm 0)) ∧ st.fpRaised grp (F (.imm 0)) = []) ∧
    let s := masked (regs [(6, 0x7F800001)])
    s.Issues 2 grp (.fadd h .f32 .rn (.v 4) (.v 6) (.imm 0)) ∧ s.fpRaised grp (F (.imm 0)) ≠ [] ∧ s.Apart 2 grp :=
  ⟨also _ _ _ _ (by decide +kernel) (by decide +kernel),
    also _ _ _ _ (by decide +kernel) ⟨by decide +kernel, ⟨by decide, by decide +kernel, by decide, by decide⟩⟩⟩

theorem test_hyp_PairWords :
    let i := Instr.pairWord 2 7 (.op .fmul (.v 4) (.reg (.v 6)) .rz) (.op .isub (.v 8) (.imm 255) .rn)
    st.Issues 2 grp i ∧ pairDests (.op .fmul (.v 4) (.reg (.v 6)) .rz) (.op .isub (.v 8) (.imm 255) .rn) = true ∧
      ∀ c : FCond, st.fpRaised grp (i, 6, fun _ => ([], c)) = [] :=
  also _ _ _ _ (by decide +kernel) ⟨by decide, by intro c; rcases c with ⟨_ | _, _ | _, _ | _, _ | _, _ | _⟩ <;> decide +kernel⟩

/-- Branches within the address space, an empty and a full return stack, and a free join record. -/
theorem test_hyp_DirectBranches :
    (st.Issues 2 grp (.bra h 0x3FFFF) ∧ st.Apart 2 grp ∧ (0 : Int) ≤ 65536 + 8 * (BitVec.ofNat 18 0x3FFFF).toInt ∧
      65536 + 8 * (BitVec.ofNat 18 0x3FFFF).toInt < 2 ^ 52) ∧
    (st.Issues 2 grp (.call h .stack 2) ∧ ∀ u ∈ grp.lanes, (st.thread u).retStack.length < 8) ∧
    st.Issues 2 grp (.call h (.link 12) 2) ∧ st.Issues 2 grp (.bloop h (.v 6) 2) ∧ st.Issues 2 grp (.bloop h .zero 2) ∧
    (let s := upT fun _ T => { T with retStack := [65544] };
      s.Issues 2 grp (.ret h .stack) ∧ ∀ u ∈ s.actives grp (.ret h .stack), (s.thread u).retStack ≠ []) ∧
    (st.Issues 2 grp (.brd h 2) ∧ (∀ p ∈ st.threads, ∀ r ∈ p.2.joinStack, r.recno ≠ 0) ∧
      ∀ u ∈ grp.lanes, (st.thread u).joinStack.length < 12) :=
  ⟨also _ _ _ _ (by decide +kernel) ⟨apart_st, by decide, by decide⟩, also _ _ _ _ (by decide +kernel) (by decide +kernel),
    issues_of _ _ _ _ (by decide +kernel), issues_of _ _ _ _ (by decide +kernel), issues_of _ _ _ _ (by decide +kernel),
    also _ _ _ _ (by decide +kernel) (by decide +kernel), also _ _ _ _ (by decide +kernel) (by decide +kernel)⟩

/-- A page with a word of LAND at 0x10000. -/
def landed (s : State := st) : State := (paged s).setBytes 0x10000 (leBytes (encodeNat (.land h)) 8)

theorem test_hyp_IndirectTargets :
    (65537 % 8 ≠ 0) ∧ ((2 ^ 52 : Nat) % 8 = 0 ∧ Config.transEnd % 8 = 0 ∧ Config.transEnd - 8 < Config.transEnd ∧ Config.transEnd ≤ 2 ^ 52) ∧
    (st.entryFor 0 0 0 65536).1 = none ∧ ((landed).entryFor 0 0 0 65536).1 = some fetchPte ∧
    (let e := ((landed).entryFor 0 0 0 65536).2;
      let w := (e.fetchWord 65536).toNat;
      bitsOf fetchPte.toNat 44 4 = ((landed).recOf 1).world ∧ bitOf fetchPte.toNat 56 = true ∧ bitsOf fetchPte.toNat 59 2 = 0 ∧
        65536 < e.dramSize ∧ w / 2 ^ 46 % 2 ^ 9 = 0x086 ∧ w / 2 ^ 63 % 2 = 0) ∧
    (let e := ((landed).entryFor 0 0 0 65544).2;
      ¬ ((e.fetchWord 65544).toNat / 2 ^ 46 % 2 ^ 9 = 0x086)) ∧
    ¬ 65536 < (({ st with tlb := [⟨0, 16, 0, fetchPte⟩] } : State).entryFor 0 0 0 65536).2.dramSize := by decide +kernel

theorem test_hyp_IndirectBranches :
    let s := landed (regs [(6, 0x10000)])
    s.Apart 2 grp ∧ (s.Issues 2 grp (.brx h (.v 6)) ∧ (s.indirects true ([0, 1].map fun u => (u, 0x10000))).1 = []) ∧
    (s.Issues 2 grp (.ret h (.link 6)) ∧ (s.indirects false ([0, 1].map fun u => (u, 0x10000))).1 = []) ∧
    (s.Issues 2 grp (.callx h .stack (.v 6)) ∧ ∀ u ∈ grp.lanes, (s.thread u).retStack.length < 8) ∧
    s.Issues 2 grp (.callx h (.link 12) (.v 6)) :=
  ⟨⟨by decide, by decide +kernel, by decide, by decide⟩, also _ _ _ _ (by decide +kernel) (by decide +kernel),
    also _ _ _ _ (by decide +kernel) (by decide +kernel), also _ _ _ _ (by decide +kernel) (by decide +kernel),
    issues_of _ _ _ _ (by decide +kernel)⟩

theorem test_hyp_HoldingBack :
    let s2 := upR fun R => { R with dm := 2 }
    st.Issues 2 grp (.land h) ∧ st.Issues 2 grp (.nopw h none) ∧ st.Issues 2 grp (.yield h (some 300)) ∧ st.Issues 2 grp (.gfree h) ∧
    (s2.Issues 2 grp (.nopw h (some 9)) ∧ (s2.recOf 1).dm = 2) ∧ (s2.Issues 2 grp (.yield h (some 300)) ∧ st.Apart 2 grp) :=
  ⟨issues_of _ _ _ _ (by decide +kernel), issues_of _ _ _ _ (by decide +kernel), issues_of _ _ _ _ (by decide +kernel),
    issues_of _ _ _ _ (by decide +kernel), also _ _ _ _ (by decide +kernel) (by decide +kernel),
    also _ _ _ _ (by decide +kernel) apart_st⟩

theorem test_hyp_LeavingGroups :
    let s := landed (regs [(6, 0x10000)])
    (st.Issues 2 grp (.exit h) ∧ st.Apart 2 grp) ∧ st.Issues 2 grp (.reform h .stack) ∧
    (s.Issues 2 grp (.reform h (.link 6)) ∧ (s.indirects true ([0, 1].map fun u => (u, 0x10000))).1 = []) ∧
    (st.Issues 2 grp (.gpin h) ∧ FMap.sorted st.threads = true ∧ st.actives grp (.gpin h) = grp.lanes ∧
      (∀ u ∈ grp.lanes, u ∈ st.pinnedOf 1 0 0) ∧ ∀ u ∈ st.pinnedOf 1 0 0, u ∈ grp.lanes) ∧
    -- a third thread of the pinned group is elsewhere
    (let s3 : State := { st with threads := st.threads ++ [(2, { thr 2 with disp := .bin 0 })] };
      s3.Issues 2 grp (.gpin h) ∧ FMap.sorted s3.threads = true ∧ s3.actives grp (.gpin h) = grp.lanes ∧
      (∀ u ∈ grp.lanes, u ∈ s3.pinnedOf 1 0 0) ∧ 2 ∈ s3.pinnedOf 1 0 0 ∧ 2 ∉ grp.lanes ∧ s3.gpinPc 2 ≠ some grp.pc) :=
  ⟨also _ _ _ _ (by decide +kernel) apart_st, issues_of _ _ _ _ (by decide +kernel), also _ _ _ _ (by decide +kernel) (by decide +kernel),
    also _ _ _ _ (by decide +kernel) (by decide +kernel), also _ _ _ _ (by decide +kernel) (by decide +kernel)⟩

theorem test_hyp_Prefetches :
    (st.Issues 2 grp (.ipref h (some 2) (.v 0) (.v 0)) ∧ (st.actives grp (.ipref h (some 2) (.v 0) (.v 0))).head? = some 0) ∧
    (let s := paged (regs [(6, 0x10000), (8, 128)]);
      s.Issues 2 grp (.ipref h none (.v 6) (.v 8)) ∧ (s.rangeLines 0 0 0 false 0x10000 0x10080 1025).1 = [1024, 1025] ∧
      s.icache.length + 1025 * (grp.lanes.length + 1) ≤ 65536 ∧
      s.Issues 2 grp (.iprefInv h (.v 6) (.v 8)) ∧ s.releasedFor 1 .dev grp.lanes = true) ∧
    ((unreleased).Issues 2 grp (.iprefInv h (.v 6) (.v 8)) ∧ (unreleased).releasedFor 1 .dev grp.lanes = false) ∧
    -- IPREF with a queue register as its base
    (let s := upB fun B => { B with lead := { B.lead with queues := listSet B.lead.queues 0 ⟨[1, 2], 0, .none, 0⟩ } };
      s.Issues 2 grp (.ipref h none (.q 0) (.v 8)) ∧ qReadsOf (.ipref h none (.q 0) (.v 8)) ≠ []) :=
  ⟨also _ _ _ _ (by decide +kernel) (by decide +kernel),
    also _ _ _ _ (by decide +kernel) ⟨by decide +kernel, by decide +kernel, issues_of _ _ _ _ (by decide +kernel), by decide +kernel⟩,
    also _ _ _ _ (by decide +kernel) (by decide +kernel), also _ _ _ _ (by decide +kernel) (by decide +kernel)⟩

/-- Stream queue 5: enabled, for device submits, in the partition of the launch, with a ring at 0x20000. -/
def sq5 (Q : StreamQ → StreamQ := id) (s : State := st) : State :=
  { s with sqs := [(5, Q { StreamQ.init with enable := true, devSub := true, base := 0x20000, size := 1 })], cfg := { s.cfg with dramcfg := 1 } }

theorem test_hyp_Launches :
    ((upT fun _ T => { T with ctx := 7 }).thread 0).ctx ≠ 0 ∧ (st.thread 0).ctx = 0 ∧ (st.sq 5).enable = false ∧
    ((sq5).sq 5).enable = true ∧ ((sq5).sq 5).stopped = false ∧ ((sq5).sq 5).devSub = true ∧ 0x20000 + 256 ≤ (sq5).dramSize ∧
    (let Q := (sq5 fun Q => { Q with tail := 2 }).sq 5;
      (Q.tail + 2 ^ 32 - Q.head) % 2 ^ 32 = 2 ^ Q.size) ∧
    (let s := paged (sq5 id (regs [(6, 0x10000)]));
      let i := Instr.launch h (.v 4) (.v 6) (.imm 5);
      let reads := s.launchReads ((s.actives grp i).map fun u => (u, ((s.lane grp i u).r64 (.v 6)).toNat));
      (s.Issues 2 grp i ∧ s.paired 1 = false ∧ reads.1 = [] ∧ reads.2.2.releasedFor 1 .dev (s.actives grp i) = true ∧
        ∀ u ∈ s.actives grp i, (s.thread u).ctx = 0) ∧
      let r := unreleased s
      r.Issues 2 grp i ∧ (r.launchReads ((r.actives grp i).map fun u => (u, ((r.lane grp i u).r64 (.v 6)).toNat))).1 = [] ∧
        (r.launchReads ((r.actives grp i).map fun u => (u, ((r.lane grp i u).r64 (.v 6)).toNat))).2.2.releasedFor 1 .dev (r.actives grp i) = false ∧
        r.actives grp i ≠ []) := by
  refine ⟨by decide +kernel, by decide +kernel, by decide +kernel, by decide +kernel, by decide +kernel, by decide +kernel,
    by decide +kernel, by decide +kernel, also _ _ _ _ (by decide +kernel) (by decide +kernel),
    also _ _ _ _ (by decide +kernel) (by decide +kernel)⟩

/-- A partition that is granted all event counters. -/
def counted (s : State := st) : State :=
  { s with cfg := { s.cfg with parts := [(0, { PartRegs.init with pevt := 4096 * 2 ^ 16, pmint := 4 })] } }

theorem test_hyp_EventCounters :
    let i := Instr.evsig h .dev (.v 9) (.imm 1)
    let j := Instr.evwait h .dev (.v 4) (.v 9) (.imm 0)
    ((counted).Issues 2 grp i ∧ (∀ u ∈ (counted).actives grp i, (((counted).lane grp i u).r32 (.v 9)).toNat < 4096 ∧
      (counted).granted 0 (((counted).lane grp i u).r32 (.v 9)).toNat = true) ∧ (counted).paired 1 = false ∧
      (∀ u ∈ (counted).actives grp i, (counted).threadOpen ((counted).thread u) = true) ∧
      (counted).releasedFor 1 .dev ((counted).actives grp i) = true ∧ ∀ u ∈ (counted).actives grp i, ((counted).thread u).ctx = 0) ∧
    -- threads in context 7
    (let s := { counted (upT fun _ T => { T with ctx := 7, ctxGen := 1 }) with
        ctxs := [(7, { Ctx.init with gen := 1, depth := 1, owner := 1, state := .opened })] };
      s.Issues 2 grp i ∧ (∀ u ∈ s.actives grp i, s.threadOpen (s.thread u) = true ∧ (s.thread u).ctx = 7 ∧
        s.granted 0 ((s.lane grp i u).r32 (.v 9)).toNat = true) ∧ s.releasedFor 1 .dev (s.actives grp i) = true ∧ s.actives grp i ≠ []) ∧
    (let s := unreleased (counted);
      s.Issues 2 grp i ∧ s.releasedFor 1 .dev (s.actives grp i) = false ∧ s.actives grp i ≠ [] ∧
      (∀ u ∈ s.actives grp i, s.threadOpen (s.thread u) = true) ∧
      ∀ u ∈ s.actives grp i, s.granted 0 ((s.lane grp i u).r32 (.v 9)).toNat = true) ∧
    (counted).Issues 2 grp j ∧ (counted).actives grp j ≠ [] :=
  ⟨also _ _ _ _ (by decide +kernel) (by decide +kernel), also _ _ _ _ (by decide +kernel) (by decide +kernel),
    also _ _ _ _ (by decide +kernel) (by decide +kernel), also _ _ _ _ (by decide +kernel) (by decide +kernel)⟩

/-! ## Memory -/

/-- A lane's sources; its context is in the first generation of its tag. -/
def src (t a b c : Nat) (ctx : Nat := 0) : LaneSrc := ⟨t, ctx, false, a, b, c, 0, if ctx = 0 then 0 else 1⟩
/-- A log entry of a word of core 0. -/
def entry (i : Instr) (ls : List LaneSrc) : LogEntry := ⟨0, 1, i, 65536, laneMask (ls.map LaneSrc.thread), 0, [], ls, [], false, false, 0, 3, 0⟩
/-- A state with that entry as number 3. -/
def logged (e : LogEntry) (s : State := st) : State := { s with opLog := [(3, e)], nextId := 4 }

/-- The conditions of `State.Passes`, evaluated. -/
def passes (s : State) (id : Nat) (e : LogEntry) : Bool :=
  decide (s.opLog.find id = some e) && !e.dormant && s.awake e.block && !s.paired e.block &&
    (e.lanes.all fun l => coreOf l.thread == (s.block (s.thread l.thread).block).core) &&
    (s.lanesCheck e.instr e.lanes).1.isEmpty && (s.lanesCheck e.instr e.lanes).2.2.atomReady e (s.lanesCheck e.instr e.lanes).2.1 &&
    (s.lanesCheck e.instr e.lanes).2.2.placesReady e
      (if isShared e.instr then (s.lanesCheck e.instr e.lanes).2.1.take 1 else (s.lanesCheck e.instr e.lanes).2.1) &&
    ((s.lanesCheck e.instr e.lanes).2.1.flatMap Prod.snd).all (fun sp => sp.bank.all fun b =>
      !(s.lanesCheck e.instr e.lanes).2.2.dropPending e.block b.1 b.2 e.age)

theorem passes_of (s : State) (id : Nat) (e : LogEntry) (h : passes s id e = true) : s.Passes id e := by
  rw [passes, Bool.and_eq_true] at h
  obtain ⟨h0, h9⟩ := h
  simp only [Bool.and_eq_true, decide_eq_true_eq, List.all_eq_true, beq_iff_eq, Bool.not_eq_true', List.isEmpty_iff] at h0
  obtain ⟨⟨⟨⟨⟨⟨⟨h1, h2⟩, h3⟩, h4⟩, h5⟩, h6⟩, h7⟩, h8⟩ := h0
  exact { there := h1, live := h2, awake := h3, alone := h4, leads := h5, clear := h6, synced := h7, placed := h8, settled := h9 }

/-- `Passes` with further hypotheses. -/
theorem alsoPasses {p : Prop} (s : State) (id : Nat) (e : LogEntry) (a : passes s id e = true) (b : p) : s.Passes id e ∧ p :=
  ⟨passes_of s id e a, b⟩

/-- A store to the line of an older store of its thread, and one that has none before it. -/
theorem test_hyp_LoggedWords :
    let i := Instr.stw h (.v 4) (.v 6) 0
    let s := logged (entry i [src 0 0x10000 0 0]) (paged (regs [(6, 0x10000)]))
    let f (v : LV) : Nat × Nat × Nat := ((v.r64 (.v 6)).toNat, 0, (v.r64 (.v 4)).toNat)
    (st.Issues 2 grp i ∧ st.paired 1 = false ∧ (st.block 1).itemNo = [] ∧ st.lineConflict i (st.kept grp i f) = false) ∧
    s.Issues 2 grp i ∧ s.lineConflict i (s.kept grp i f) = true :=
  ⟨also _ _ _ _ (by decide +kernel) (by decide +kernel), also _ _ _ _ (by decide +kernel) (by decide +kernel)⟩

/-- A block of 512 bytes of scratchpad and of private memory, with bank 0 FULL. -/
def roomy (s : State := st) : State := { upR (fun R => { R with spad := 512, stride := 512, privBase := 0x10000 }) (paged s) with
  spadBanks := [(0, .full)] }

/-- Addresses at which the checks part: unaligned, outside every window, unmapped, mapped, the last byte of a window and the first
beyond it, an OFF bank, and pages of each kind. -/
theorem test_hyp_AddressChecks :
    (0x10001 : Int) % 4 ≠ 0 ∧ (0x10000 : Int) % 4 = 0 ∧ ((2 ^ 52 : Int) % 4 = 0) ∧
    (((roomy).recOf 1).spad = 512 ∧ (roomy).spadBank 0 0 = .full ∧ (st).spadBank 0 0 = .off ∧ ((roomy).recOf 1).stride = 512) ∧
    (Config.scratchBase ≤ Config.scratchBase + 511 ∧ Config.scratchBase + 511 < Config.privBase ∧ Config.transEnd ≤ Config.scratchBase) ∧
    (st.entryFor 0 0 0 0x10000).1 = none ∧ ((roomy).entryFor 0 0 0 0x10000).1 = some fetchPte ∧
    (roomy).phys 0x10000 = .dram ∧ (roomy).phys 0x20000000000 = .none ∧ (roomy).phys Config.ctlBase = .control ∧
    (roomy).phys Config.rbBase = .readback ∧ bitsOf (fetchPte ||| 0x1000000000000000).toNat 59 2 = 2 ∧
    bitsOf (fetchPte ||| 0x0800000000000000).toNat 59 2 = 1 := by decide +kernel

/-- A gang of two blocks: the first block's peer 1 is the second. -/
def gangRec : LRec := { fetchRec with
  spad := 512, levels := [⟨false, .blk, 0, 32⟩, ⟨false, .cls, 0, 2⟩, ⟨true, .cls, 0, 1⟩] }
def gang : State := { st with
  launches := [(0, { Launch.init with lrec := gangRec, state := .ready, nextBlock := 2 })]
  blocks := [(1, { Block.init with launch := 0, gslots := [0], residence := .resident }),
    (4, { Block.init with launch := 0, index := 1, core := 1, gslots := [0], residence := .resident })]
  spadBanks := [(0, .full), (16, .full)], nextId := 5 }

theorem test_hyp_peer_window :
    gang.gangPeer 1 1 = some 4 ∧ 1 < (gang.recOf 1).gangSize ∧ (511 : Nat) < (gang.recOf 1).spad ∧
    gang.spadBank (gang.block 4).core 0 = .full ∧ ({ gang with spadBanks := [] } : State).spadBank 1 0 = .off := by decide +kernel

/-- Loads that pass: from memory, from a line of the L1, from the scratchpad, and of all lanes as one. -/
theorem test_hyp_LoadsDeliver :
    (let e := entry (.ld h .b32 false .ca (.v 4) (.v 6) (.imm 0) 0) [src 0 0x10000 0 0, src 1 0x10004 0 0];
      let s := logged e (paged);
      s.Passes 3 e ∧ qWritesOf e.instr = [] ∧ ∀ o ∈ s.spots e, ∀ sp ∈ o.2, sp.place = none → sp.vaddr % 64 + sp.len ≤ 64) ∧
    (let e := entry (.ld h .b8 true .ca (.v 4) (.v 6) (.imm 0) 0) [src 0 0x10000 0 0];
      let s := logged e { paged with l1 := [⟨0, 1024, 0, 0, 1024, 0x80⟩] };
      s.Passes 3 e ∧ s.spots e = [(src 0 0x10000 0 0, [⟨none, 0x10000, 1⟩])] ∧
        ∀ o ∈ s.spots e, ∀ sp ∈ o.2, sp.place = none → sp.vaddr % 64 + sp.len ≤ 64) ∧
    (let e := entry (.lds h .b16 false (.v 4) (.v 6) (.imm 0) 0) [src 0 510 0 0];
      let s := logged e roomy;
      s.Passes 3 e ∧ ∀ o ∈ s.spots e, ∀ sp ∈ o.2, sp.place.isSome = true) ∧
    (let e := entry (.ldk h .b64 .ca (.v 4) (.v 6) (.imm 0) 0) [src 0 0x10000 0 0, src 1 0x10000 0 0];
      (logged e paged).Passes 3 e ∧ ((logged e paged).spots e).length = 2) ∧
    (let e := entry (.ldcb h .l16 (.v 4) (.v 6) (.imm 0)) [src 0 0x1003C 0 0];
      (logged e paged).Passes 3 e ∧ ∀ o ∈ (logged e paged).spots e, ∀ sp ∈ o.2, sp.place.isSome = true) ∧
    (let e := entry (.ldl h .b32 false .ca (.v 4) (.v 6) (.imm 0) 0) [src 0 508 0 0];
      (logged e roomy).Passes 3 e ∧ (logged e roomy).spots e ≠ []) ∧
    let e := entry (.ldw h (.v 4) (.v 6) 0) [src 0 0x10000 0 0]
    (logged e paged).Passes 3 e :=
  ⟨alsoPasses _ _ _ (by decide +kernel) (by decide +kernel), alsoPasses _ _ _ (by decide +kernel) (by decide +kernel),
    alsoPasses _ _ _ (by decide +kernel) (by decide +kernel), alsoPasses _ _ _ (by decide +kernel) (by decide +kernel),
    alsoPasses _ _ _ (by decide +kernel) (by decide +kernel), alsoPasses _ _ _ (by decide +kernel) (by decide +kernel),
    passes_of _ _ _ (by decide +kernel)⟩

/-- Context 1, OPEN, of the block, with context 2 nested in it. -/
def ctxs : FMap Ctx :=
  [(1, { Ctx.init with gen := 1, depth := 1, owner := 1, state := .opened }), (2, { Ctx.init with gen := 1, parent := 1, depth := 2, owner := 1, state := .opened })]

/-- Stores that pass: of two lanes to one byte, to the scratchpad, and in a context. -/
theorem test_hyp_StoresWrite :
    (let e := entry (.st h .b8 .ca (.v 4) (.v 6) (.imm 0) 0) [src 0 0x10000 0 5, src 1 0x10000 0 6];
      let s := logged e paged;
      s.Passes 3 e ∧ (∀ o ∈ s.spots e, o.2.length = 1) ∧ (∀ o ∈ s.spots e, o.1.ctx = 0 ∧ s.ctxGone 0 o.1.gen = false ∧ ∀ sp ∈ o.2, s.phys ((sp.home).getD 0) = .dram) ∧
        ((s.lanesCheck e.instr e.lanes).2.2.storeLanes e (s.spots e)).1 = [] ∧ ∃ o ∈ s.spots e, ∃ sp ∈ o.2, sp.line.isSome) ∧
    (let e := entry (.sts h .b64 (.v 4) (.v 6) (.imm 0) 0) [src 0 504 0 5];
      let s := logged e roomy;
      s.Passes 3 e ∧ (∀ o ∈ s.spots e, ∀ sp ∈ o.2, sp.line = none) ∧
        ((s.lanesCheck e.instr e.lanes).2.2.storeLanes e (s.spots e)).1 = []) ∧
    (let e := entry (.stw h (.v 4) (.v 6) 0) [src 0 0x10038 0 5 2];
      let s := logged e { paged with ctxs := ctxs };
      s.Passes 3 e ∧ (∀ c ∈ s.chainOf 2, c < 65536) ∧ (∀ o ∈ s.spots e, o.1.ctx = 2 ∧ s.ctxGone 2 o.1.gen = false ∧ ∀ sp ∈ o.2, sp.line.isSome ∧
          (sp.home.getD 0) % 64 + 8 ≤ 64) ∧ ((s.lanesCheck e.instr e.lanes).2.2.storeLanes e (s.spots e)).1 = []) ∧
    let e := entry (.stl h .b32 .ca (.v 4) (.v 6) (.imm 0) 0) [src 0 508 0 5]
    (logged e roomy).Passes 3 e ∧ ((logged e roomy).spots e) ≠ [] :=
  ⟨alsoPasses _ _ _ (by decide +kernel) (by decide +kernel), alsoPasses _ _ _ (by decide +kernel) (by decide +kernel),
    alsoPasses _ _ _ (by decide +kernel) (by decide +kernel), alsoPasses _ _ _ (by decide +kernel) (by decide +kernel)⟩

/-- An atomic with the value that it leaves in range, in memory and in the scratchpad, with and without a result. -/
theorem test_hyp_AtomicsPerform :
    (let l := src 0 0x10000 1 0;
      let e := entry (.amo h .add .b32 .sc .dev (.v 4) (.v 6) (.v 8)) [l];
      let s := logged e paged;
      s.Passes 3 e ∧ s.spots e = [(l, [⟨some (.mem 0x10000 0 false), 0x10000, 4⟩])] ∧ isAtomic e.instr = true ∧ qWritesOf e.instr = [] ∧
        (s.recOf 1).dm ≠ 1 ∧ s.phys 0x10000 = .dram ∧ s.ctxGone l.ctx l.gen = false ∧ (atomWrite e.instr l 0).getD 0 < 2 ^ 32) ∧
    (let l := src 0 504 0 7;
      let e := entry (.cas h .b64 .rlx .blk (.v 4) (.v 6) (.v 8) (.v 10)) [{ l with a := Config.scratchBase + 504 }];
      let s := logged e roomy;
      s.Passes 3 e ∧ (s.spots e).map (fun o => o.2.map Spot.home) = [[some (spadPa 0 504)]] ∧ (atomWrite e.instr l 0).getD 0 < 2 ^ 64) ∧
    let l := src 0 0x10000 1 0
    let e := entry (.red h .exch .b32 .rel .dev (.v 6) (.v 8)) [l]
    (logged e paged).Passes 3 e ∧ (logged e paged).spots e = [(l, [⟨some (.mem 0x10000 0 false), 0x10000, 4⟩])] :=
  ⟨alsoPasses _ _ _ (by decide +kernel) (by decide +kernel), alsoPasses _ _ _ (by decide +kernel) (by decide +kernel),
    alsoPasses _ _ _ (by decide +kernel) (by decide +kernel)⟩

theorem test_hyp_AtomicOperations : (0xFFFFFFFF : Nat) < 2 ^ 32 ∧ (0xFFFFFFFFFFFFFFFF : Nat) < 2 ^ 64 := by decide

/-- ACP with room and with 255 copies under its tag; ACWAIT with its counts low and high; ACQRY with its eight counts. -/
theorem test_hyp_CopyWords :
    let i := Instr.acp h 3 .cg (.v 4) (.v 6) (.reg (.v 8))
    let full := upT fun _ T => { T with acp := [1, 1, 1, 255, 0, 0, 0, 0] }
    (st.Issues 2 grp i ∧ st.paired 1 = false ∧ st.lineConflict i (st.kept grp i fun v => ((v.r64 (.v 6)).toNat, 0, 0)) = false ∧
      ∀ u ∈ st.actives grp i, (st.thread u).acp.getD 3 0 < 255) ∧
    (full.Issues 2 grp i ∧ ∃ u ∈ full.actives grp i, 255 ≤ (full.thread u).acp.getD 3 0) ∧
    (st.Issues 2 grp (.acwait h 0xFF 0) ∧ (∀ u ∈ [0, 1], (st.thread u).acpEcc = [] ∧ ∀ k, k < 8 → (st.thread u).acp.getD k 0 ≤ 0)) ∧
    (full.Issues 2 grp (.acwait h 0x08 254) ∧ ¬ (full.thread 0).acp.getD 3 0 ≤ 254) ∧
    full.Issues 2 grp (.acqry h (.v 4)) ∧ ∀ u ∈ [0, 1], (full.thread u).acp.length = 8 ∧ ∀ k, k < 8 → (full.thread u).acp.getD k 0 < 256 :=
  ⟨also _ _ _ _ (by decide +kernel) (by decide +kernel), also _ _ _ _ (by decide +kernel) (by decide +kernel),
    also _ _ _ _ (by decide +kernel) (by decide +kernel), also _ _ _ _ (by decide +kernel) (by decide +kernel),
    also _ _ _ _ (by decide +kernel) (by decide +kernel)⟩

/-- A result that is readable and one that is not yet, an acknowledgement, lines to drain, a copy, and waits whose tests are met. -/
theorem test_hyp_MemoryEvents :
    (let p : Inflight := ⟨1, 2, [⟨0, .reg 4, 7⟩, ⟨1, .pred 3, 1⟩], true, 0, []⟩;
      let s := { st with inflight := [(3, p)] };
      s.inflight.find 3 = some p ∧ p.ready ≤ s.clk 0 ∧ (p.writes.map fun w => (w.thread, w.dest)).Nodup ∧
        p.drops = [] ∧ s.notLost 0 4 2 = true ∧ (s.thread 0).quarter (quarterOf 4) ≠ .off ∧ s.clk 0 < 1) ∧
    -- an SPDROP that is still to lower bank 0, and one that an earlier access to the bank holds up
    (let p : Inflight := ⟨1, 3, [⟨0, .reg 4, 2⟩], false, 0, [(0, .ret)]⟩;
      let s : State := { roomy with inflight := [(3, p)], nextId := 4 };
      let e := entry (.lds h .b16 false (.v 4) (.v 6) (.imm 0) 0) [src 0 510 0 0];
      s.inflight.find 3 = some p ∧ p.ready ≤ s.clk 0 ∧ s.spadBusy 1 0 0 3 = false ∧
        ({ s with opLog := [(2, { e with age := 2 })] } : State).spadBusy 1 0 0 3 = true) ∧
    ((unreleased).pendStores.find 0).isSome = true ∧ (0 < 3 ∧ 3 ≤ ({ st with drain := [(9, 3)] } : State).drain.findD 9 0) ∧
    (let c : AcpCopy := ⟨0, 1, 0, 3, [(0x10000, 16)], 0, 0, 2, 0x10000⟩;
      let s := { roomy with acps := [(3, c)] };
      s.acps.find 3 = some c ∧ (∀ p ∈ s.acps, p.1 < 3 → p.2.thread = 0 → p.2.tag ≠ 3) ∧ (∀ r ∈ c.srcs, s.owned (r.1 / 64) = false) ∧
        (s.copyBytes c).length ≤ 32) ∧
    (let G := { grp with wait := some (.acwait 8 0 [0, 1]) };
      (upG G).groups.find 2 = some G ∧ ∀ u ∈ [0, 1], ((upG G).thread u).acpEcc = [] ∧ ∀ k, k < 8 → ((upG G).thread u).acp.getD k 0 ≤ 0) ∧
    (4095 : Nat) < 4096 ∧
    (let G := { grp with wait := some (.evwait .dev (.v 4) [src 0 9 0 0] [(0, 5)]) };
      (upG G).groups.find 2 = some G ∧ (∀ l ∈ [src 0 9 0 0], (FMap.find ([(0, 5)] : FMap Nat) l.thread).isSome) ∧
        (upG G).loadsDone [0] = true ∧ Scope.dev ≠ .blk ∧ ∀ q, Reg.v 4 ≠ .q q) := by
  refine ⟨by decide +kernel, by decide +kernel, by decide +kernel, by decide +kernel, by decide +kernel, by decide +kernel, by decide, ?_⟩
  exact ⟨by decide +kernel, by decide +kernel, by decide +kernel, by decide, by decide +kernel⟩

/-- A store in context 9, whose set of the L2 holds eight cells, without a pool. -/
def poolEntry (at_ : Nat) : LogEntry := { entry (.stw h (.v 4) (.v 6) 0) [src 0 0x10000 0 5 9] with poolAt := at_ }
def pooled (at_ : Nat) : State := logged (poolEntry at_) { paged with
  now := 100 * Config.us, ctxs := [(9, { Ctx.init with gen := 1, depth := 1, owner := 1, state := .opened })]
  cells := (upFrom 10 8).map fun k => (1024 * 65536 + k, ⟨0, 1⟩) }

theorem set_full (n x : Nat) : (pooled n).overlayFits (List.replicate 9 (x, 0)) = false := by
  have p : (pooled n).poolPlaces 0 = 0 := rfl
  simp [State.overlayFits, List.replicate, List.eraseDups, List.eraseDupsBy, List.eraseDupsBy.loop, sublistsOf, sumOf, p]

theorem pool_blocked (n : Nat) : (pooled n).poolBlocked 9 0x10000 = true := by
  have e : (pooled n).poolBlocked 9 0x10000 = !(pooled n).overlayFits (List.replicate 9 (Config.cellSet 1024, 0)) := rfl
  rw [e, set_full]; rfl

/-- A load whose lanes all fail, and a store that meets the overlay full and that has waited 100 µs for a place in it. -/
theorem test_hyp_LateFaults :
    (let e := entry (.ld h .b32 false .ca (.v 4) (.v 6) (.imm 0) 0) [src 0 0x10000 0 0, src 1 0x10004 0 0];
      let s := logged e;
      s.opLog.find 3 = some e ∧ e.dormant = false ∧ s.awake 1 = true ∧ s.paired 1 = false ∧
        (∀ l ∈ e.lanes, coreOf l.thread = (s.block (s.thread l.thread).block).core) ∧ s.groups.find 2 = some grp ∧ grp.wait = none ∧
        (∀ l ∈ e.lanes, l.thread ∈ grp.lanes ∧ (s.thread l.thread).disp = .group 2) ∧ e.lanes ≠ [] ∧ (e.lanes.map LaneSrc.thread).Nodup ∧
        isLoadWord e.instr = true ∧ isLdcx e.instr = false ∧ (s.lanesCheck e.instr e.lanes).2.1 = [] ∧
        (s.lanesCheck e.instr e.lanes).2.2.placesReady e [] = true) ∧
    ∀ n, n = 0 ∨ n = 1 →
      let e := poolEntry n
      let s := pooled n
      s.opLog.find 3 = some e ∧ (s.lanesCheck e.instr e.lanes).1 = [] ∧
        (s.lanesCheck e.instr e.lanes).2.1 = [(src 0 0x10000 0 5 9, [⟨some (.mem 0x10000 9 false), 0x10000, 8⟩])] ∧
        s.phys 0x10000 = .dram ∧ s.ctxGone 9 1 = false ∧ isStoreWord e.instr = true ∧ (n = 1 → e.poolAt + 100 * Config.us ≤ s.now + 1) ∧
        (s.lanesCheck e.instr e.lanes).2.2.placesReady e (s.lanesCheck e.instr e.lanes).2.1 = true ∧ s.poolBlocked 9 0x10000 = true := by
  refine ⟨by decide +kernel, ?_⟩
  rintro n (rfl | rfl) <;>
    exact ⟨by decide +kernel, by decide +kernel, by decide +kernel, by decide +kernel, by decide +kernel, by decide, by decide, by decide +kernel,
      pool_blocked _⟩

/-! ## Ordering -/

/-- The first arrival of two, the last of two, and a thread that has already arrived. -/
theorem test_hyp_Arrivals :
    (15 < 16 ∧ (st.blocks.find 1).isSome = true ∧ (st.thread 0).block = 1 ∧ 0 / 1024 = 0 ∧ (st.threads.find 0).isSome = true ∧
      FMap.sorted st.threads = true ∧ (st.thread 0).barPending.getLsbD 15 = false ∧ 0 + 1 < 2) ∧
    (let s := upB fun B => { B with lead := { B.lead with barriers := [(15, ⟨2, 1, 0⟩)] } };
      ((s.bside 1 0).barriers.findD 15 Barrier.init).arrivals + 1 = 2 ∧ (s.thread 1).barPending.getLsbD 15 = false) ∧
    ((upT fun _ T => { T with barPending := 0x8000 }).thread 0).barPending.getLsbD 15 = true := by decide +kernel

/-- A gang launch. -/
def gangSt : State := { gang with cur := some 2 }

theorem test_hyp_OrderingWords :
    st.Issues 2 grp (.fence h .rel .dev) ∧
    (st.Issues 2 grp (.fence h .sc .dev) ∧ st.released 1 .dev = true ∧ st.loadsDone grp.lanes = true) ∧
    ((unreleased).Issues 2 grp (.fence h .ar .blk) ∧ (unreleased).released 1 .blk = false) ∧
    ((unreleased).Issues 2 grp (.bar h (.imm 15 1024)) ∧
      (unreleased).releasedFor 1 .blk ((unreleased).actives grp (.bar h (.imm 15 1024))) = false) ∧
    (st.Issues 2 grp (.bar h (.imm 0 1)) ∧ st.Apart 2 grp ∧ st.actives grp (.bar h (.imm 0 1)) ≠ []) ∧
    st.Issues 2 grp (.bara h (.reg (.v 9))) ∧ st.Issues 2 grp (.barw h (.imm 2 0)) ∧
    ((upT fun _ T => { T with barPending := 4 }).Issues 2 grp (.barw h (.imm 2 0)) ∧
      bitOf ((upT fun _ T => { T with barPending := 4 }).thread 0).barPending.toNat 2 = true) ∧
    (st.Issues 2 grp (.gbar h) ∧ (st.recOf 1).levels.find? Level.gang = none) ∧
    (gangSt.Issues 2 grp (.gbar h) ∧ ((gangSt.recOf 1).levels.find? Level.gang).isSome = true ∧ gangSt.releasedFor 1 .cls grp.lanes = true) ∧
    (st.Issues 2 grp (.ssync h) ∧ (st.recOf 1).dm ≠ 1 ∧ (st.recOf 1).dm ≠ 2 ∧ st.releasedFor 1 .dev grp.lanes = true ∧
      (∀ u ∈ grp.lanes, ∀ k ∈ (st.thread u).acp, k = 0) ∧ st.engines = [] ∧ st.opLog = []) ∧
    (let s := upR fun R => { R with dm := 1 };
      s.Issues 2 grp (.ssync h) ∧ (s.recOf 1).dm = 1 ∧ s.Apart 2 grp) ∧
    (let i := Instr.waitv h .le true .b32 .dev (.v 4) (.v 6) (.v 8);
      st.Issues 2 grp i ∧ st.lineConflict i (st.kept grp i fun v => ((v.r64 (.v 6)).toNat, (v.r32 (.v 8)).toNat, 0)) = false) ∧
    (let s := upR fun R => { R with dm := 1 };
      s.Issues 2 grp (.ordhead h) ∧ (s.recOf 1).dm = 1) ∧
    (st.Issues 2 grp (.ordhead h) ∧ (st.recOf 1).dm ≠ 1 ∧ st.actives grp (.ordhead h) ≠ []) := by
  refine ⟨issues_of _ _ _ _ (by decide +kernel), also _ _ _ _ (by decide +kernel) (by decide +kernel),
    also _ _ _ _ (by decide +kernel) (by decide +kernel), also _ _ _ _ (by decide +kernel) (by decide +kernel),
    also _ _ _ _ (by decide +kernel) ⟨apart_st, by decide +kernel⟩, issues_of _ _ _ _ (by decide +kernel), issues_of _ _ _ _ (by decide +kernel),
    also _ _ _ _ (by decide +kernel) (by decide +kernel), also _ _ _ _ (by decide +kernel) (by decide +kernel),
    also _ _ _ _ (by decide +kernel) (by decide +kernel), also _ _ _ _ (by decide +kernel) (by decide +kernel),
    also _ _ _ _ (by decide +kernel) ⟨by decide +kernel, ⟨by decide, by decide +kernel, by decide, by decide⟩⟩,
    also _ _ _ _ (by decide +kernel) (by decide +kernel), also _ _ _ _ (by decide +kernel) (by decide +kernel),
    also _ _ _ _ (by decide +kernel) (by decide +kernel)⟩

/-- A word whose guard passes in no lane. -/
theorem test_hyp_no_active_lane :
    let i := Instr.ordhead ⟨2, true, 7, none⟩
    st.Issues 2 grp i ∧ st.actives grp i = [] := also _ _ _ _ (by decide +kernel) (by decide +kernel)

/-- `st` with a wait of its group. -/
def waits (w : Wait) (s : State := st) : State := { s with groups := [(2, { grp with wait := some w })] }

theorem test_hyp_WaitsEnd :
    (FMap.sorted (waits (.bar 3 [0, 1])).groups = true ∧ (∀ u ∈ [0, 1], bitOf ((waits (.bar 3 [0, 1])).thread u).barPending.toNat 3 = false) ∧
      st.sideOf 1 0 = 0) ∧
    (∃ x ∈ [(0, 3), (1, 4)], x.2 = 3) ∧
    (let s : State := { waits .gbar gang with blocks := gang.blocks.adjust 1 fun B => { B with gbarIn := [0, 1] } };
      1 ∈ s.gangBlocks 0 0 ∧ (s.gangBlocks 0 0).length = (s.launch 0).lrec.gangSize ∧
        (∀ b ∈ s.gangBlocks 0 0, (s.block b).residence = .exited ∨
          ((s.block b).residence = .resident ∧ ∀ u ∈ s.blockThreads b, u ∈ (s.block b).gbarIn)) ∧
        ∃ b ∈ s.gangBlocks 0 0, (s.block b).gbarIn ≠ []) ∧
    (let s := upB (fun B => { B with ssyncIn := [0, 1] }) (waits .ssync);
      1 ∈ s.launchBlocks 0 ∧ (s.launchBlocks 0).length = (s.launch 0).lrec.blockCount ∧
        (∀ b ∈ s.launchBlocks 0, (s.block b).residence = .resident ∧ ∀ u ∈ s.blockThreads b, u ∈ (s.block b).ssyncIn) ∧
        ∃ b ∈ s.launchBlocks 0, (s.block b).ssyncIn ≠ []) ∧
    ((st.block 1).index = (st.launchOf 1).head ∧ st.loadsDone [0, 1] = true) ∧
    (let e := entry (.waitv h .le true .b32 .dev (.v 4) (.v 6) (.v 8)) [src 0 0x10000 0 0];
      let s := logged e (waits (.waitv 3) paged);
      s.opLog.find 3 = some e ∧ e.dormant = false ∧ s.awake 1 = true ∧ s.paired 1 = false ∧
        (∀ l ∈ e.lanes, coreOf l.thread = (s.block (s.thread l.thread).block).core) ∧
        (s.lanesCheck e.instr e.lanes).1 = [] ∧ e.queued = [] ∧
        (∀ o ∈ s.spots e, ∀ sp ∈ o.2, sp.place.isSome = true ∧ sp.bank = none ∧ ∀ l ∈ sp.line, s.owned l = false) ∧
        (e.lanes.map LaneSrc.thread).Nodup ∧ s.loadsBefore (e.lanes.map LaneSrc.thread) e.age = true ∧
        ∀ o ∈ s.spots e, s.spotNat (s.accOf o.1.thread 0) 0 o.2 ≤ 0) ∧
    (let e := entry (.waitv h .eq true .b32 .dev (.v 4) (.v 6) (.v 8)) [src 0 0x10000 0 0, src 1 0x10000 1 0];
      let s := logged e (waits (.waitv 3) paged);
      (s.spots e).map (fun o => (s.spotNat (s.accOf o.1.thread 0) 0 o.2, o.1.b)) = [(0, 0), (0, 1)]) ∧
    (let G := { grp with slot := none };
      let s := { upG G with seqs := [(0, { Seqr.init with opps := 64 })] };
      64 ≤ s.oppsNow 0 1 - G.oppsAt ∧ G.candidate = false ∧
        (∀ p ∈ s.groups.filter (fun p => p.2.seq == 0 && p.2.slot.isNone && p.2.wait.isNone), G.since = p.2.since ∧ 2 ≤ p.1)) ∧
    (upG { grp with yieldLeft := 1 }).yieldOver { grp with yieldLeft := 1 } = true := by
  refine ⟨by decide +kernel, ⟨(0, 3), by decide, rfl⟩, by decide +kernel, by decide +kernel, by decide +kernel, by decide +kernel, by decide +kernel,
    by decide +kernel, by decide +kernel⟩

theorem test_hyp_SequencerEvents :
    (let s := { (upT fun _ T => { T with joinStack := [⟨5, 65600⟩] }) with groups := [(2, { grp with wait := some .join })] };
      FMap.sorted s.threads = true ∧ s.joinReady 0 5 = true ∧ s.members 0 5 = [0, 1] ∧
        (∀ u ∈ s.members 0 5, ((s.thread u).topRec.map JoinRec.pc) = some 65600) ∧
        (∀ u ∈ s.members 0 5, (s.thread u).disp = .group 2) ∧ 2 < s.nextId ∧ s.groups.find 2 = some { grp with wait := some .join }) ∧
    (let s := waits .gpin;
      (s.block 1).follower = none ∧ s.pinnedOf 1 0 0 = [0, 1] ∧ ∀ u ∈ s.pinnedOf 1 0 0, s.gpinPc u = some 65536) ∧
    (({ st with seqs := [(0, { Seqr.init with frozen := some 1024 })] } : State).seqr 0).frozen = some 1024 ∧
    ({ st with iprefInv := [(2, ([0, 1], [(1024, 2)]))] } : State).iprefInv.find 2 = some ([0, 1], [(1024, 2)]) ∧
    (let s := { st with bins := [(3, ⟨1, 65600, [0], 0, false, [(0, (0, 0))], grp⟩)], seqs := [(0, { Seqr.init with opps := 64 })] };
      s.bins.find (16 * 0 + 3) = some ⟨1, 65600, [0], 0, false, [(0, (0, 0))], grp⟩ ∧ 64 ≤ s.oppsNow 0 1 - 0) := by decide +kernel

/-! ## Contexts -/

/-- The mint has tags, and context 1 of the block is OPEN with context 2 nested in it. -/
def minted (s : State := st) : State := { counted s with ctxs := ctxs }

theorem test_hyp_ContextWords :
    let i := Instr.ctxopen h .dev true (some 2) (.v 4)
    ((counted).Issues 2 grp i ∧ (counted).paired 1 = false ∧ ((counted).actives grp i).head? = some 0 ∧ (counted).ctxDepth 0 < 15 ∧
      (∀ v ∈ (counted).actives grp i, ((counted).thread v).ctx = 0 ∧ ((counted).thread v).ctxGen = 0 ∧ (counted).genOf 0 = 0) ∧ (counted).mintQ.findD 0 [] = [] ∧ (counted).lowestTag = some 1 ∧
      (counted).liveTags 0 < ((counted).partRegs 0).pmint) ∧
    (st.Issues 2 grp i ∧ (st.partRegs 0).pmint ≤ st.liveTags 0) ∧ st.Issues 2 grp (.ctxopen h .blk false none (.v 4)) ∧
    (let s := { (upT fun _ T => { T with ctx := 3 }) with ctxs := [(3, { Ctx.init with depth := 15, state := .opened })] };
      s.Issues 2 grp i ∧ ¬ s.ctxDepth 3 < 15 ∧ s.Apart 2 grp) ∧
    ((minted (regs [(9, 0x10001)])).Issues 2 grp (.ctxset h (.v 9)) ∧ (minted).ctx 1 = { Ctx.init with gen := 1, depth := 1, owner := 1, state := .opened } ∧
      ((minted).block 1).ctx = 0) ∧
    ((minted (regs [(9, 0x20001)])).Issues 2 grp (.ctxset h (.v 9)) ∧ ((minted).ctx 1).gen ≠ 2) ∧
    ((minted (regs [(9, 0x10002)])).Issues 2 grp (.ctxsettle h (.v 9)) ∧ (∀ p ∈ ctxs, p.1 ≠ 2 → p.2.parent = 2 → p.2.state ≠ .opened) ∧
      (minted).loadsDone [0, 1] = true) ∧
    (let s : State := { minted (regs [(9, 0x10002)]) with inflight := [(2, ⟨1, 2, [⟨0, .reg 40, 7⟩], true, 9, []⟩)] };
      s.Issues 2 grp (.ctxsettle h (.v 9)) ∧ s.loadsDone (s.actives grp (.ctxsettle h (.v 9))) = false) ∧
    ((minted (regs [(9, 0x10001)])).Issues 2 grp (.ctxvoid h (.v 9)) ∧ (minted).openBelow 1 = [1, 2] ∧ (minted).engines = []) ∧
    ((minted (regs [(9, 0x10001)])).Issues 2 grp (.ctxsettle h (.v 9)) ∧ ∃ p ∈ ctxs, p.1 ≠ 1 ∧ p.2.parent = 1 ∧ p.2.state = .opened) ∧
    st.Issues 2 grp (.ctxq h (.v 4) (.v 9)) ∧
    ((minted (regs [(9, 0x10002)])).Issues 2 grp (.ctxwait h .cls (.v 4) (.v 9)) ∧ ((minted).ctx 2).tenant = ((minted).recOf 1).tenant) ∧
    ((minted (regs [(9, 0x10000)])).Issues 2 grp (.ctxwait h .cls (.v 4) (.v 9)) ∧ 0x10000 ≠ 0 ∧ 0x10000 % 65536 = 0) := by
  refine ⟨also _ _ _ _ (by decide +kernel) (by decide +kernel), also _ _ _ _ (by decide +kernel) (by decide +kernel),
    issues_of _ _ _ _ (by decide +kernel), also _ _ _ _ (by decide +kernel) ⟨by decide +kernel, ⟨by decide, by decide +kernel, by decide, by decide⟩⟩,
    also _ _ _ _ (by decide +kernel) (by decide +kernel), also _ _ _ _ (by decide +kernel) (by decide +kernel),
    also _ _ _ _ (by decide +kernel) (by decide +kernel), also _ _ _ _ (by decide +kernel) (by decide +kernel),
    also _ _ _ _ (by decide +kernel) (by decide +kernel), also _ _ _ _ (by decide +kernel) ⟨(2, _), List.mem_cons_of_mem _ (List.mem_cons_self ..), by decide, rfl, rfl⟩,
    issues_of _ _ _ _ (by decide +kernel), also _ _ _ _ (by decide +kernel) (by decide +kernel),
    also _ _ _ _ (by decide +kernel) (by decide +kernel)⟩

/-- Context 1 settling, with written bytes in some lines. -/
def settling (s : State := st) (ls : List Nat := [1024]) : State := { counted s with
  ctxs := [(1, { Ctx.init with gen := 1, depth := 1, owner := 1, state := .settling, waitStores := 3 })]
  cells := ls.map fun l => (l * 65536 + 1, ⟨0xAB, 1⟩) }

/-- The conditions of `State.CanSettle`, evaluated, for a context whose release is not made yet. -/
theorem canSettle (s : State) (tag : Nat)
    (a : (s.ctx tag).state = .settling ∧ (s.ctx tag).settled = false ∧ ((s.ctx tag).parent = 0 → (s.ctx tag).held = []) ∧
      FMap.sorted s.cells = true ∧ (tag < 65536 ∧ (s.ctx tag).parent < 65536 ∧ tag ∉ s.chainOf (s.ctx tag).parent ∧
        ∀ k ∈ s.chainOf (s.ctx tag).parent, k < 65536))
    (b : s.storesBefore (s.ctx tag).owner (s.ctx tag).waitStores = true ∧
      ((s.ctx tag).scope = .sys → s.drain.findD (s.ctx tag).tenant 0 = 0) ∧
      (∀ p ∈ s.engines, ∀ c ∈ p.2, c.ctx = tag → c.heldDm1 = true ∨ c.ended ≠ none) ∧ s.ctxQuiet tag = true ∧
      ∀ p ∈ s.ctxs, p.1 ≠ tag → p.2.parent = tag → p.2.state = .retired) : s.CanSettle tag :=
  ⟨a.1, a.2.1, .inr ⟨b.1, b.2.1, b.2.2.1, b.2.2.2.1, b.2.2.2.2⟩, a.2.2.1, a.2.2.2.1, a.2.2.2.2⟩

theorem test_hyp_ContextEvents :
    (let r := MintReq.open_ 2 [0, 1] 0 .dev true none (.v 4) 3;
      let s := { counted with mintQ := [(0, [r])] };
      s.mintQ.findD 0 [] = [r] ∧ s.liveTags 0 < (s.partRegs 0).pmint ∧ s.lowestTag = some 1 ∧ s.paired (s.thread 0).block = false ∧
        ∀ v ∈ [0, 1], (s.thread v).disp ≠ .exited) ∧
    (let s := { st with mintQ := [(0, [.block 0 5])] };
      s.mintQ.findD 0 [] = [.block 0 5] ∧ (s.partRegs 0).pmint ≤ s.liveTags 0) ∧
    ((settling).CanSettle 1 ∧ ((settling).ctx 1).isBlock = false ∧ ((settling).cellsOf 1).length ≤ 1) ∧
    ((settling st [1024, 1025]).CanSettle 1 ∧ ¬ ((settling st [1024, 1025]).cellsOf 1).length ≤ 1) ∧
    (let C : Ctx := { Ctx.init with gen := 1, state := .settling, settled := true, held := [.evsig 9 5] };
      let s := { st with ctxs := [(1, C)] };
      (s.ctx 1).held = [.evsig 9 5] ∧ (s.ctx 1).parent = 0 ∧ (s.ctx 1).settled = true) ∧
    (let s := { st with ctxs := [(1, { Ctx.init with gen := 1, state := .voiding })] };
      (s.ctx 1).state = .voiding ∧ (∀ p ∈ s.ctxs, p.1 ≠ 1 → p.2.parent = 1 → p.2.state = .retired) ∧ s.engines = []) ∧
    (let s := upB (fun B => { B with ctx := 1, residence := .exited }) (upR (fun R => { R with dm := 1 }) (settling));
      s.CanSettle 1 ∧ (s.launch 0).lrec.dm = 1 ∧ (s.block 1).index = (s.launch 0).head ∧ (s.block 1).residence = .exited ∧
        FMap.sorted s.blocks = true ∧ (s.cellsOf 1).length ≤ 1) ∧
    (let s := { waits (.ctxwait .dev (.v 4) [src 0 0x10002 0 0, src 1 0 0 0]) with ctxs := [(2, { Ctx.init with gen := 1, settled := true })] };
      s.loadsDone [0, 1] = true ∧ (s.ctx 2).state = .retired ∧ (s.ctx 2).gen = 1 ∧ FMap.sorted s.groups = true) := by
  refine ⟨by decide +kernel, by decide +kernel, ⟨canSettle _ _ (by decide +kernel) (by decide +kernel), by decide +kernel⟩,
    ⟨canSettle _ _ (by decide +kernel) (by decide +kernel), by decide +kernel⟩, by decide +kernel, by decide +kernel,
    ⟨canSettle _ _ (by decide +kernel) (by decide +kernel), by decide +kernel⟩, by decide +kernel⟩

/-! ## Records and the matrix unit -/

/-- Record 0 of the block: BF16, of 4,096 bytes at offset 0. -/
def rec0 : Record := ⟨false, none, .bf16, 0, 0, 4096, 0, 0⟩
def withRecs (rs : FMap Record) (s : State := st) : State :=
  upB (fun B => { B with lead := { B.lead with records := rs } }) (upR (fun R => { R with obquota := 8192 }) s)

/-- A descriptor of one step over records 0 and 1, into tile 0. -/
def desc1 : List DWord := [0x10000, 0x10000, 0, 0, 0x10000001, 0, 0, 0]
def loop1 : MLoop := ⟨1, desc1, rec0, { rec0 with off := 4096 }, .queued, 0, 0, [], none, false, 0, 0, false, 2⟩
/-- A state with an MLOOP in the queue of core 0. -/
def looped (m : MLoop) (s : State := st) : State :=
  { upB (fun B => { B with lead := { B.lead with token := 1, mloops := [m] } }) (withRecs [(0, rec0), (1, { rec0 with off := 4096 })] (paged s)) with
    mqueue := [(0, [(1, 1)])] }

theorem test_hyp_RecordWords :
    let s := withRecs [] (regs [(8, 4096)])
    FMap.sorted s.blocks = true ∧ (s.blocks.find 1).isSome = true ∧
    -- a reservation of 4,096 bytes, one that is too small, and one that overlaps
    s.Issues 2 grp (.obres h .bf16 0 7 (.v 9) (.v 8)) ∧ ((regs [(8, 3072)]).Issues 2 grp (.obres h .bf16 0 7 (.v 9) (.v 8)) ∧ 3072 % 1024 = 0) ∧
    ((withRecs [(0, rec0)] (regs [(8, 4096)])).Issues 2 grp (.obres h .bf16 0 7 (.v 9) (.v 8)) ∧ st.Apart 2 grp) ∧
    ((withRecs [(0, rec0)]).Issues 2 grp (.obset h 0 (.imm 63)) ∧ ((withRecs [(0, rec0)]).bside 1 0).records.find 0 = some rec0 ∧
      ((withRecs [(0, rec0)]).bside 1 0).mloops = []) ∧
    ((withRecs [(0, { rec0 with fmt := .c4 })]).Issues 2 grp (.obset h 0 (.imm 0x3FFC0)) ∧ (BitVec.ofNat 18 0x3FFC0).toInt = -64) ∧
    (withRecs [(0, { rec0 with keyed := some 5 })]).Issues 2 grp (.obfree h 0) ∧ (withRecs [(0, { rec0 with fmt := .c4 })]).Issues 2 grp (.cbld h 0 16) ∧
    ((looped loop1).Issues 2 grp (.obfree h 0) ∧ loop1.names 0 = true) ∧
    ((looped { loop1 with state := .stopped }).Issues 2 grp (.obfree h 1) ∧ loop1.names 1 = true) ∧
    (let s := { (withRecs [(0, rec0)]) with sec := { Sec.init with keys := [(0, ⟨5, 0, 0⟩)] } };
      s.Issues 2 grp (.keybind h 0 (.v 9)) ∧ s.sec.keys.find 0 = some ⟨5, 0, 0⟩ ∧ (s.recOf 1).world = 0 ∧ (s.recOf 1).tenant = 0) ∧
    ((withRecs [(0, rec0)] (regs [(9, 0x80000000)])).Issues 2 grp (.keybind h 0 (.v 9)) ∧ (0x80000000 : Word).getLsbD 31 = true) := by
  refine ⟨by decide +kernel, by decide +kernel, issues_of _ _ _ _ (by decide +kernel), also _ _ _ _ (by decide +kernel) (by decide),
    also _ _ _ _ (by decide +kernel) apart_st, also _ _ _ _ (by decide +kernel) (by decide +kernel), also _ _ _ _ (by decide +kernel) (by decide +kernel),
    issues_of _ _ _ _ (by decide +kernel), issues_of _ _ _ _ (by decide +kernel), also _ _ _ _ (by decide +kernel) (by decide +kernel),
    also _ _ _ _ (by decide +kernel) (by decide +kernel), also _ _ _ _ (by decide +kernel) (by decide +kernel),
    also _ _ _ _ (by decide +kernel) (by decide +kernel)⟩

/-- The registers of a descriptor from v32. -/
def descRegs (ds : List DWord) : FMap Word :=
  (ds.zipIdx.flatMap fun p => [(32 + 2 * p.2, p.1.setWidth 32), (33 + 2 * p.2, p.1.extractLsb' 32 32)]).filter fun p => p.2 != 0

theorem test_hyp_MatrixWords :
    let i := Instr.mloop h (.v 4) 32
    let s := withRecs [(0, rec0), (1, { rec0 with off := 4096 })] (regs (descRegs desc1))
    (s.Issues 2 grp i ∧ s.paired 1 = false ∧ FMap.sorted s.blocks = true ∧ (s.actives grp i).head? = some 0 ∧
      (s.thread 0).pinned = true ∧ (∀ v ∈ s.pinnedOf 1 0 0, v ∈ grp.lanes) ∧ (∀ p ∈ s.threads, p.1 ∈ s.actives grp i) ∧
      (List.range 8).map (fun j => (s.lane grp i 0).rv (32 + 2 * j + 1) ++ (s.lane grp i 0).rv (32 + 2 * j)) = desc1 ∧
      s.tileHeld 1 0 0 = false ∧ s.tileBusy 1 0 0 = false ∧ s.loopsFull 0 = false) ∧
    (∀ p ∈ ([(0x40000, [0x10000]), (0x10000000, []), (0x110000001, [])] : List (Nat × List Nat)), p.1 ≠ 0x10000001) ∧
    -- the group is only part of its pinned group
    ({ st with threads := st.threads ++ [(2, { thr 2 with disp := .bin 0 })] } : State).pinnedOf 1 0 0 = [0, 1, 2] ∧
    ((looped loop1 (regs [(9, 1)])).Issues 2 grp (.mwait h (.v 9)) ∧ (1 + 2 ^ 32 - loop1.token) % 2 ^ 32 < 2 ^ 31) ∧
    ((looped { loop1 with state := .stopped, fault := some ⟨0, 7, 0, 0⟩ } (regs [(9, 1)])).Issues 2 grp (.mwait h (.v 9)) ∧ st.Apart 2 grp) ∧
    (looped { loop1 with state := .stopped, fault := some ⟨0, 7, 0, 0⟩, reported := true } (regs [(9, 1)])).Issues 2 grp (.mwait h (.v 9)) ∧
    (looped { loop1 with state := .ended } (regs [(9, 1)])).Issues 2 grp (.mwait h (.v 9)) ∧
    st.Issues 2 grp (.mprog h (.v 4) (.v 9)) ∧ (st.Issues 2 grp (.mzero h 0) ∧ st.tileHeld 1 0 0 = false ∧ st.tileBusy 1 0 0 = false) ∧
    st.Issues 2 grp (.mrd h (.v 4) 0 (.imm 4095)) ∧ st.tileKnown 1 0 0 ∧
    st.Issues 2 grp (.accld h 0 (.v 6) (.imm 256)) ∧ st.Issues 2 grp (.accst h 0 (.v 6) (.imm 256)) ∧
    ((withRecs [(0, { rec0 with fmt := .c4e8, cbLoaded := true })]).Issues 2 grp (.mout h .c4e8 0 0 (.v 6) (.v 8))) ∧
    ((regs [(6, 2)]).Issues 2 grp (.accld h 0 (.v 6) (.imm 256)) ∧ 2 % 4 ≠ 0) := by
  refine ⟨also _ _ _ _ (by decide +kernel) (by decide +kernel), by decide, by decide +kernel, also _ _ _ _ (by decide +kernel) (by decide +kernel),
    also _ _ _ _ (by decide +kernel) apart_st, issues_of _ _ _ _ (by decide +kernel), issues_of _ _ _ _ (by decide +kernel), issues_of _ _ _ _ (by decide +kernel),
    also _ _ _ _ (by decide +kernel) (by decide +kernel), issues_of _ _ _ _ (by decide +kernel), by unfold State.tileKnown; decide +kernel, issues_of _ _ _ _ (by decide +kernel),
    issues_of _ _ _ _ (by decide +kernel), issues_of _ _ _ _ (by decide +kernel), also _ _ _ _ (by decide +kernel) (by decide)⟩

/-- Whether the running MLOOP of core 0 ends, and whether it stops. -/
def loopEnds (s : State) : Option Bool := (s.runLoop 0).map fun x => match x.2.2.1 with
  | .ended _ => true
  | .stopped _ _ => false
  | .wait => false
def loopStops (s : State) : Option Bool := (s.runLoop 0).map fun x => match x.2.2.1 with
  | .stopped _ _ => true
  | _ => false

theorem test_hyp_MatrixEvents :
    ((looped loop1).mqueue.findD 0 [] = [(1, 1)] ∧ loop1 ∈ ((looped loop1).bside 1 0).mloops ∧ (looped loop1).acknowledged 1 2 = true ∧
      (unreleased (looped loop1)).acknowledged 1 2 = false) ∧
    loopEnds (looped { loop1 with state := .running }) = some true ∧
    loopStops ({ looped { loop1 with state := .running } with tlb := [] }) = some true ∧
    ((⟨[.fin false 1 0, .fin false 1 0, .fin false 1 0, .fin false 1 0], 0, false⟩ : Quad).xs.length = 4) := by decide +kernel

/-! ## Queues, banks and engines -/

theorem test_hyp_QueueAndBankWords :
    let q (Q : QReg) : State := upB fun B => { B with lead := { B.lead with queues := listSet B.lead.queues 7 Q } }
    FMap.sorted st.blocks = true ∧ FMap.sorted st.threads = true ∧
    (st.Issues 2 grp (.push h 2 .sec 16) ∧ st.serving 0 .sec = []) ∧
    (st.Issues 2 grp (.qbind h 7 .vox) ∧ (st.bside 1 0).queues.getD 7 QReg.init = QReg.init) ∧
    ((q ⟨[1], 0, .none, 0⟩).Issues 2 grp (.qbind h 7 .vox) ∧ st.Apart 2 grp) ∧ st.Issues 2 grp (.qpeek h (.v 4) 0 (.imm 3)) ∧
    st.Issues 2 grp (.qcnt h (.v 4) 7) ∧ (st.Issues 2 grp (.qdrain h (.v 4) 7)) ∧ (q ⟨[1], 2, .none, 0⟩).Issues 2 grp (.qdrain h (.v 4) 7) ∧
    (q ⟨[1], 0, .cgs, 0⟩).Issues 2 grp (.qdrain h (.v 4) 7) ∧ st.Issues 2 grp (.bkqry h (.v 4)) ∧
    ((upT fun _ T => { T with quarters := [.full, .ret, .off, .full] }).Issues 2 grp (.bkwake h 0x6) ∧
      ∀ u ∈ grp.lanes, (st.thread u).quarters.length = 4) ∧
    st.Issues 2 grp (.bkdrop h true 8) ∧ st.Issues 2 grp (.spwake h (.v 4) (.imm 15)) ∧ st.Issues 2 grp (.spdrop h (.v 4) (.imm 31)) ∧
    (let s := { roomy with cfg := { roomy.cfg with qown := [(0, 0xF00000000)] } };
      s.Issues 2 grp (.spdrop h (.v 4) (.imm 16)) ∧ s.quarterOwner 0 0 = some (s.recOf 1).tenant ∧ s.bankShared 1 0 0 = false ∧
        s.spadBusy 1 0 0 s.nextId = false ∧ s.dropPending 1 0 0 s.nextId = false ∧
      -- an earlier access to the bank, and an earlier SPDROP of it
      let e := entry (.lds h .b16 false (.v 40) (.v 6) (.imm 0) 0) [src 0 510 0 0]
      let s1 : State := { s with opLog := [(2, { e with age := 2 })] }
      let s2 : State := { s with inflight := [(2, ⟨1, 2, [⟨0, .reg 40, 2⟩], false, 0, [(0, .ret)]⟩)] }
      s1.Issues 2 grp (.spdrop h (.v 4) (.imm 16)) ∧ s1.spadBusy 1 0 0 s1.nextId = true ∧
        s2.Issues 2 grp (.spdrop h (.v 4) (.imm 16)) ∧ s2.dropPending 1 0 0 s2.nextId = true) := by
  refine ⟨by decide +kernel, by decide +kernel, also _ _ _ _ (by decide +kernel) (by decide +kernel), also _ _ _ _ (by decide +kernel) (by decide +kernel),
    also _ _ _ _ (by decide +kernel) apart_st, issues_of _ _ _ _ (by decide +kernel), issues_of _ _ _ _ (by decide +kernel), issues_of _ _ _ _ (by decide +kernel),
    issues_of _ _ _ _ (by decide +kernel), issues_of _ _ _ _ (by decide +kernel), issues_of _ _ _ _ (by decide +kernel), also _ _ _ _ (by decide +kernel) (by decide +kernel),
    issues_of _ _ _ _ (by decide +kernel), issues_of _ _ _ _ (by decide +kernel), issues_of _ _ _ _ (by decide +kernel),
    also _ _ _ _ (by decide +kernel) ⟨by decide +kernel, by decide +kernel, by decide +kernel, by decide +kernel,
      also _ _ _ _ (by decide +kernel) ⟨by decide +kernel, also _ _ _ _ (by decide +kernel) (by decide +kernel)⟩⟩⟩

/-- A copy of four bytes from 0x10000 to 0x10800, with its receipt for queue register 0. -/
def copyCmd : List DWord := [0x200, 0, 0x10000, 0x10800, 0, 1, 0, 0]
/-- A command of the block. -/
def cmd (k : EngKind) (ds : List DWord) : EngCmd :=
  { id := 2, kind := k, dwords := ds, thread := 0, block := 1, ctx := 0, tenant := 0, world := 0, part := 0, entry := 9, heldDm1 := false,
    accepted := false, next := 0, new := 0, unplaced := 0, ended := none, owned := [], maps := [], accNo := 0, poolAt := 0, bad := none }
/-- The command, accepted, with the page at 0x10000. -/
def taken (k : EngKind) (ds : List DWord) : EngCmd := { cmd k ds with accepted := true, owned := [(1024, 64)], maps := [(16, fetchPte)] }
/-- A state with the command at an engine. -/
def engaged (n : Nat) (c : EngCmd) (s : State := paged) : State := { s with engines := [(n, [c])] }
/-- A page table of 16 buckets with the page at 0x10000. -/
def walked (s : State := paged) : State :=
  let s1 := ({ s with cfg := { s.cfg with xlroot := [(0, 0x40001)] } }).setBytes 0x40000 (leBytes 0x50004 8)
  (s1.setBytes (s1.bucketAddr 0x40000 0 16) (leBytes fetchPte.toNat 8)).setBytes (s1.bucketAddr 0x40000 0 16 + 8) (leBytes 0x10000 8)
/-- The partition has every engine. -/
def engined (s : State := st) : State := { s with cfg := { s.cfg with parts := [(0, { PartRegs.init with peng := 0xFFFFFF })] } }

theorem test_hyp_EngineQueues :
    (let e := entry (.push h 2 .cgs 16) [src 0 0x200 0 0];
      let s := logged e engined;
      s.opLog.find 3 = some e ∧ e.dormant = false ∧ s.awake 1 = true ∧ s.paired 1 = false ∧ s.ctxGone 0 0 = false ∧ s.storesBefore 1 e.age = true ∧
        s.loadsBefore [0] e.age = true ∧ (s.recOf 1).dm ≠ 1 ∧ (∀ p ∈ s.opLog, p.2.age < e.age → ∀ m ∈ p.2.lanes, m.thread ≠ 0) ∧ (s.leadQ 1 0).entries.length + (s.leadQ 1 0).reserved + 2 ≤ 64 ∧
        (∃ n ∈ s.serving 0 .cgs, (s.engQ n).length < 8) ∧ toMemory (dwordsOf (leBytes 0x200 64) 8) = false) ∧
    (let e := entry (.push h 2 .sec 16) [src 0 0x200 0 0];
      let s := { logged e with engines := [(22, List.replicate 8 (cmd .sec [])), (23, List.replicate 8 (cmd .sec []))] };
      ∀ n ∈ (engined s).serving 0 .sec, 8 ≤ ((engined s).engQ n).length) ∧
    (let s := engaged 0 (cmd .cgs copyCmd) walked;
      (s.engQ 0).find? (fun x => !x.accepted && x.ended.isNone) = some (cmd .cgs copyCmd) ∧ s.pushedBefore (cmd .cgs copyCmd) = false ∧
        s.acceptance (cmd .cgs copyCmd) = .takes [(16, fetchPte)] [(1056, 1)]) ∧
    (let s := engaged 0 (cmd .cgs copyCmd);
      s.acceptance (cmd .cgs copyCmd) = .fails 7 0x10800 2 (some [])) ∧
    (let c := (cmd .cgs copyCmd).done 0;
      let s := engaged 0 c;
      ((s.engQ 0).find? fun c => c.ended.isSome) = some c ∧ toMemory c.dwords = false ∧ (s.block 1).residence ≠ .exited ∧
        receiptQ c.dwords < (s.block 1).lead.queues.length ∧ (s.block 1).follower ≠ some (s.block 1).core) ∧
    (let c := (taken .cgs [0x80200, 0x10000, 0x10000, 0x10800, 0, 1, 0, 0]).done 0;
      toMemory c.dwords = true ∧ c.receiptPa = 0x10000 ∧ (walked).phys 0x10000 = .dram) := by decide +kernel

/-- Whether an engine's access comes to an address of DRAM. -/
def comesTo {E : Type} (r : Except E (Nat × Bool)) (P : Nat) : Bool := match r with
  | .ok x => x == (P, false)
  | .error _ => false
theorem comesTo_ok {E : Type} {r : Except E (Nat × Bool)} {P : Nat} (h : comesTo r P = true) : r = .ok (P, false) := by
  cases r with
  | ok x => simpa [comesTo] using h
  | error e => simp [comesTo] at h

/-- The ranges that a command reads and writes lie in DRAM. -/
def reads (c : EngCmd) (s : State) (e P len : Nat) : Prop :=
  ∀ i, i < len → s.engRead c true (e + i) = .ok (P + i, false) ∧ s.engRead c false (e + i) = .ok (P + i, false) ∧
    s.engWait c (P + i) = false ∧ s.phys (P + i) = .dram
def writes (c : EngCmd) (s : State) (e P len : Nat) : Prop :=
  ∀ i, i < len → s.engAddr c ⟨false, true, false, 4⟩ (e + i) = .ok (P + i, false) ∧ s.phys (P + i) = .dram ∧
    (c.maps.find ((e + i) / 4096)).isSome

theorem reads_of {c : EngCmd} {s : State} {e P len : Nat} (h : ((List.range len).all fun i =>
    comesTo (s.engRead c true (e + i)) (P + i) && comesTo (s.engRead c false (e + i)) (P + i) && !s.engWait c (P + i) &&
      s.phys (P + i) == .dram) = true) : reads c s e P len := fun i hi => by
  have := List.all_eq_true.1 h i (List.mem_range.2 hi)
  simp only [Bool.and_eq_true, Bool.not_eq_true', beq_iff_eq] at this
  exact ⟨comesTo_ok this.1.1.1, comesTo_ok this.1.1.2, this.1.2, this.2⟩

theorem writes_of {c : EngCmd} {s : State} {e P len : Nat} (h : ((List.range len).all fun i =>
    comesTo (s.engAddr c ⟨false, true, false, 4⟩ (e + i)) (P + i) && s.phys (P + i) == .dram &&
      (c.maps.find ((e + i) / 4096)).isSome) = true) : writes c s e P len := fun i hi => by
  have := List.all_eq_true.1 h i (List.mem_range.2 hi)
  simp only [Bool.and_eq_true, beq_iff_eq] at this
  exact ⟨comesTo_ok this.1.1, this.1.2, this.2⟩

theorem test_hyp_EngineWork_cgs :
    (let c := taken .cgs copyCmd;
      (engaged 0 c).engQ 0 = [c] ∧ c.next + 1 = 1 ∧ reads c (engaged 0 c) 0x10000 0x10000 4 ∧ writes c (engaged 0 c) 0x10800 0x10800 4) ∧
    -- a gather and a scatter of element 0 under limit 1, and an index that is not below its limit
    (let c := taken .cgs [0x201, 0, 0x10000, 0x10800, 0x10400, 1, 1, 0];
      reads c (engaged 0 c) 0x10400 0x10400 4 ∧ leNat ((List.range 4).map fun i => (engaged 0 c).byte (0x10400 + i)) < 1 ∧
        1 ≤ leNat ((List.range 4).map fun i => ((engaged 0 c).setByte 0x10400 1).byte (0x10400 + i))) ∧
    (let c := taken .cgs [0x204, 0, 7, 0x10800, 0, 1, 0, 0];
      let s := upB (fun B => { B with lead := { B.lead with queues := listSet B.lead.queues 7 ⟨[5], 0, .cgs, 0⟩ } }) (engaged 0 c);
      (s.leadQ 1 7).entries = [5] ∧ (s.blocks.find 1).isSome = true ∧ 7 < (s.block 1).lead.queues.length ∧
        ∀ p ∈ s.engines, ∀ o ∈ p.2, o.block = 1 → o.id < 2 → o.ended ≠ none) := by
  exact ⟨⟨by decide +kernel, by decide +kernel, reads_of (by decide +kernel), writes_of (by decide +kernel)⟩, ⟨reads_of (by decide +kernel), by decide +kernel, by decide +kernel⟩, by decide +kernel⟩

theorem test_hyp_EngineWork_vox :
    let ds : List DWord := [0, 0, 0x10000, 0x10F00, 0x10F80, 1, 0, 4]
    let c := taken .vox ds
    let s := engaged 12 c
    let bad := s.setBytes 0x10F00 [0, 0, 0, 0, 0, 0, 0, 0x80]
    let hash := (hash32 0 0).toNat % 16
    (reads c s 0x10F00 0x10F00 8 ∧ writes c s 0x10F80 0x10F80 4) ∧ 2 ^ 63 ≤ leNat ((List.range 8).map fun i => bad.byte (0x10F00 + i)) ∧
      leNat ((List.range 8).map fun i => s.byte (0x10F00 + i)) = 0 ∧ s.byte (0x10000 + 8 * (hash * 8)) = 0 ∧
      0x10000 + 8 * ((16 + hash) * 8 + 7) + 8 ≤ 0x10F80 := by
  exact ⟨⟨reads_of (by decide +kernel), writes_of (by decide +kernel)⟩, by decide +kernel, by decide +kernel, by decide +kernel, by decide +kernel⟩

theorem test_hyp_EngineWork_sort :
    let ds : List DWord := [0x800, 0, 0x10000, 0x10040, 0x10080, 0x100C0, 2, 0x10100]
    let c := taken .sort ds
    let s := engaged 18 c
    reads c s 0x10000 0x10000 8 ∧ reads c s 0x10040 0x10040 8 ∧ writes c s 0x10080 0x10080 8 ∧ writes c s 0x100C0 0x100C0 8 ∧
      writes c s 0x10100 0x10100 32 ∧ 0x10080 + 8 ≤ 0x100C0 ∧ 0x100C0 + 8 ≤ 0x10100 := by
  exact ⟨reads_of (by decide +kernel), reads_of (by decide +kernel), writes_of (by decide +kernel), writes_of (by decide +kernel), writes_of (by decide +kernel), by decide +kernel, by decide +kernel⟩

theorem test_hyp_EngineWork_sec :
    (let c := taken .sec [0, 0, 0x10000, 0x10040, 5, 0, 0, 0];
      reads c (engaged 22 c) 0x10000 0x10000 5 ∧ writes c (engaged 22 c) 0x10040 0x10040 48) ∧
    (let c := taken .sec [1, 0, 0x10000, 0x10040, 1, 0, 0, 0];
      reads c (engaged 22 c) 0x10000 0x10000 48 ∧ writes c (engaged 22 c) 0x10040 0x10040 3373) ∧ (0 : Nat) ≠ 1 ∧ ¬ (0 : Nat) ≠ 0 := by
  exact ⟨⟨reads_of (by decide +kernel), writes_of (by decide +kernel)⟩, ⟨reads_of (by decide +kernel), writes_of (by decide +kernel)⟩, by decide, by decide⟩

/-! ## Traps and system words -/

theorem test_hyp_TrapWords :
    let hG := { grp with inHandler := true, resumePc := 65600 }
    (st.Issues 2 grp (.trap h 0x3FFFF) ∧ st.actives grp (.trap h 0x3FFFF) ≠ [] ∧ st.Apart 2 grp) ∧
    (st.Issues 2 grp (.brk h 7) ∧ (st.bside 1 0).trapMask.getLsbD 30 = false) ∧
    ((masked).Issues 2 grp (.brk h 7) ∧ ((masked).bside 1 0).trapMask.getLsbD 30 = true) ∧
    (st.Issues 2 grp (.tret h) ∧ grp.inHandler = false) ∧
    ((upG { hG with causes := 8 }).Issues 2 { hG with causes := 8 } (.tret h) ∧ (st.bside 1 0).tvec = 0) ∧
    (let s := upB (fun B => { B with lead := { B.lead with tvec := 65536 } }) (upG { hG with causes := 8 });
      s.Issues 2 { hG with causes := 8 } (.tret h) ∧ (s.bside 1 0).tvec ≠ 0) ∧
    ((upG hG).Issues 2 hG (.tret h) ∧ (upG hG).opLog = [] ∧ hG.paused = none) ∧
    (let G := { hG with paused := some .gbar }; (upG G).Issues 2 G (.tret h) ∧ (upG G).opLog = []) ∧
    (let e := { entry (.waitv h .ne false .b32 .dev (.v 4) (.v 6) (.v 8)) [src 0 0x10000 0 0] with faulted := 1 };
      let s := { upG hG with opLog := [(1, e)] };
      s.Issues 2 hG (.tret h) ∧ s.opLog.find 1 = some e ∧ FMap.sorted s.opLog = true ∧ isWaitv e.instr = true ∧ e.faulted ≠ 0 ∧
        ∃ l ∈ e.lanes, l.thread ∈ hG.lanes) ∧
    (let e := { entry (.ld h .b32 false .ca (.v 4) (.v 6) (.imm 0) 0) [src 0 0x10000 0 0] with faulted := 1 };
      let s := { upG hG with opLog := [(1, e)] };
      s.Issues 2 hG (.tret h) ∧ (∀ p ∈ s.opLog, p.1 < s.nextId ∧ p.2.replay = false) ∧ e.faulted ≠ 0 ∧ ∃ l ∈ e.lanes, l.thread ∈ hG.lanes) ∧
    st.Issues 2 grp (.tclr h (.v 6)) ∧ st.Issues 2 grp (.trd h (.v 4) (.imm 0x103)) ∧ st.Issues 2 grp (.tmask h (.v 4) (.v 6) (.v 8)) ∧
    st.Issues 2 grp (.ologq h (.v 4) (.imm 0xC0)) ∧
    (st.cur = some 2 ∧ st.groups.find 2 = some grp ∧ grp.lanes ≠ [] ∧ st.allotOf 0 = 240) ∧
    (let G := { grp with deliver := some ⟨65544, [0, 1]⟩ };
      (upG G).groups.find 2 = some G ∧ (st.block 1).residence = .resident) := by
  refine ⟨also _ _ _ _ (by decide +kernel) ⟨by decide +kernel, apart_st⟩, also _ _ _ _ (by decide +kernel) (by decide +kernel),
    also _ _ _ _ (by decide +kernel) (by decide +kernel), also _ _ _ _ (by decide +kernel) (by decide +kernel), also _ _ _ _ (by decide +kernel) (by decide +kernel),
    also _ _ _ _ (by decide +kernel) (by decide +kernel), also _ _ _ _ (by decide +kernel) (by decide +kernel), also _ _ _ _ (by decide +kernel) (by decide +kernel),
    also _ _ _ _ (by decide +kernel) (by decide +kernel), also _ _ _ _ (by decide +kernel) (by decide +kernel),
    issues_of _ _ _ _ (by decide +kernel), issues_of _ _ _ _ (by decide +kernel), issues_of _ _ _ _ (by decide +kernel), issues_of _ _ _ _ (by decide +kernel),
    by decide +kernel, by decide +kernel⟩

theorem test_hyp_SystemWords :
    let w1 := upR fun R => { R with world := 1 }
    st.Issues 2 grp (.sysrd h (.v 4) (.imm 0x100)) ∧ (w1.Issues 2 grp (.sysrd h (.v 4) (.imm 0x100)) ∧ (w1.recOf 1).world ≠ 0 ∧ w1.Apart 2 grp) ∧
    st.Issues 2 grp (.syswr h (.v 6) (.imm 0)) ∧ (w1.Issues 2 grp (.syswr h (.v 6) (.imm 0x101)) ∧ (w1.recOf 1).world ≠ 0) ∧
    ((stF kept2).Issues 3 grpF (.cntrd h (.v 4) (.imm 0)) ∧ ∀ u ∈ (stF kept2).actives grpF (.cntrd h (.v 4) (.imm 0)),
      (stF kept2).leaderValue 1 (slotOf u) = some 7) ∧
    (({ stF [] with cur := some 2 } : State).Issues 2 grp (.ilq h (.v 4)) ∧ (stF []).isFollower 1 0 = false) ∧
    ((stF []).Issues 3 grpF (.ilq h (.v 4)) ∧ (stF []).leaderValue 1 0 = none) ∧
    (st.Issues 2 grp (.psafe h 1) ∧ (st.block 1).notice = false) ∧
    ((upB fun B => { B with notice := true }).Issues 2 grp (.psafe h 1) ∧ st.Apart 2 grp) ∧
    (st.Issues 2 grp (.halt h) ∧ st.paired 1 = false) ∧ st.Issues 2 grp (.mbox h true (.v 4) (.v 6)) ∧
    (w1.Issues 2 grp (.mbox h true (.v 4) (.v 6)) ∧ (w1.recOf 1).world ≠ 0) ∧
    ((waits (.queue [0] 2)).groups.find 2 = some { grp with wait := some (.queue [0] 2) } ∧
      ((upB (fun B => { B with lead := { B.lead with queues := [⟨[], 2, .none, 0⟩] } })).bside 1 0).queues.getD 0 QReg.init = ⟨[], 2, .none, 0⟩) ∧
    ((waits (.psafe 1 [0])).block 1).residence = .resident ∧ (waits (.mbox false (.v 4) 5 [0])).paired 1 = false ∧
    ((waits (.mbox false (.v 4) 5 [0])).groups.find 2).map Group.paused = some none ∧
    ({ st with inbox := [(0, List.replicate 16 (0, 0))] } : State).inbox.find 0 = some (List.replicate 16 (0, 0)) ∧
    ({ st with sec := { Sec.init with replies := [(3, 9)] } } : State).sec.replies.find (2 + 1) = some 9 ∧
    ((upT fun _ T => { T with wakes := [(1, 24)] }).thread 0).wakes.find 1 = some 24 ∧
    ({ st with spadWakes := [(15, 64)] } : State).spadWakes.find (16 * 0 + 15) = some 64 := by
  refine ⟨issues_of _ _ _ _ (by decide +kernel), also _ _ _ _ (by decide +kernel) ⟨by decide +kernel, ⟨by decide, by decide +kernel, by decide, by decide⟩⟩,
    issues_of _ _ _ _ (by decide +kernel), also _ _ _ _ (by decide +kernel) (by decide +kernel), also _ _ _ _ (by decide +kernel) (by decide +kernel),
    also _ _ _ _ (by decide +kernel) (by decide +kernel), also _ _ _ _ (by decide +kernel) (by decide +kernel), also _ _ _ _ (by decide +kernel) (by decide +kernel),
    also _ _ _ _ (by decide +kernel) apart_st, also _ _ _ _ (by decide +kernel) (by decide +kernel), issues_of _ _ _ _ (by decide +kernel),
    also _ _ _ _ (by decide +kernel) (by decide +kernel), by decide +kernel, by decide +kernel, by decide +kernel, by decide +kernel, by decide +kernel,
    by decide +kernel, by decide +kernel, by decide +kernel⟩

/-! ## Launches -/

/-- One slice for partition 0, whose quarters belong to tenant 0 of world 0. -/
def placed (s : State := st) : State :=
  { s with cfg := { s.cfg with playout := 1, dramcfg := 1, tenants := [(0, 0x8000000000000000)], qown := (List.range 4).map fun c => (c, 0xF00000000) } }
/-- A record of one block of one group (Tables 4-1 and 4-3). -/
def words1 : List DWord := [0x10000, 0x80001, 0, 0, 0, 0, 0, 0, 0, 7, 0x20, 0x100000001, 0x1C00000001, 0, 0, 0, 0, 0, 0x1F000000000]
def rec1 : LRec := recordOf (words1 ++ List.replicate 13 0)
/-- A queue whose first record lies at 0x20000. -/
def ring : StreamQ := { StreamQ.init with enable := true, base := 0x20000, size := 1, tail := 1 }
/-- A state in which the record stands at the head of queue 0. -/
def offered (ws : List DWord := words1) : State :=
  ({ placed with sqs := [(0, ring)] }).setBytes 0x20000 (ws.flatMap fun (w : DWord) => leBytes w.toNat 8)
/-- A state with a launch of that record beside the first one. -/
def launchAt (f : Launch → Launch) (s : State := placed) : State :=
  { s with nextId := 4, launches := s.launches.put 3 (f { Launch.init with lrec := rec1 }) }

theorem test_hyp_LaunchEvents_queues :
    (∀ p ∈ st.sec.streams, (0 : Nat) ∈ p.2.ifs → p.2.state = 0 ∨ p.2.state = 2) ∧
    -- doorbells at both ends of the ring of two entries, and one past it
    (((2 : Word).toNat + 2 ^ 32 - (st.sq 0).head) % 2 ^ 32 ≤ 2 ∧ ¬ ((3 : Word).toNat + 2 ^ 32 - (st.sq 0).head) % 2 ^ 32 ≤ 2) ∧
    (st.sq 0).enable = false ∧
    (let Q := offered.sq 0;
      Q.enable = true ∧ Q.stopped = false ∧ Q.head ≠ Q.tail ∧ Q.base + 256 ≤ offered.dramSize) ∧
    (({ offered with sqs := [(0, { ring with base := 2 ^ 40 })] } : State).dramSize < 2 ^ 40 + 256) ∧
    (offered.recordCheck 0 (words1 ++ List.replicate 13 0) = (0, 0) ∧ rec1.blockCount = 1) ∧
    ((List.range 32).map fun k => BitVec.ofNat 64 (leNat ((List.range 8).map fun j => offered.byte (0x20000 + 8 * k + j)))) =
      words1 ++ List.replicate 13 0 ∧
    -- version 2, and a level whose extent is 0
    ((offered.recordCheck 0 (listSet (words1 ++ List.replicate 13 0) 1 0x80002)) = (1, 0) ∧
      (offered.recordCheck 0 (listSet (words1 ++ List.replicate 13 0) 10 0)) = (2, 0)) := by
  decide +kernel

theorem test_hyp_LaunchEvents_ready :
    (let s := launchAt fun L => { L with state := .checked };
      (s.launch 3).state = .checked ∧ (s.launch 3).ending = false ∧ (s.launch 3).lrec.waitEn = false ∧ (s.launch 3).prev = none ∧
        (s.sq (s.launch 3).queue).stopped = false) ∧
    -- behind a launch that has failed, until the host resumes the queue
    (let s := { launchAt fun L => { L with state := .checked } with sqs := [(0, { ring with stopped := true, launchStop := true })] };
      (s.launch 3).queue = 0 ∧ (s.sq 0).stopped = true ∧ (s.sq 0).launchStop = true) ∧
    (let s := launchAt fun L => { L with state := .checked, prev := some 0 };
      s.launches.find 0 = some (s.launch 0) ∧ (s.launch 0).state ≠ .complete ∧ (s.sq (s.launch 3).queue).overlap = false) := by
  decide +kernel

/-- The site that R90 gives the first block. -/
def site1 : Site := ⟨1, none, [0], 0, 0⟩

theorem test_hyp_LaunchEvents_dispatch :
    let s := launchAt fun L => { L with state := .ready }
    s.firstFit 0 = some (3, .fresh 0 1, [site1]) ∧ FMap.sorted s.blocks = true ∧ (∀ p ∈ s.blocks, p.1 < s.nextId) ∧
      (∀ p ∈ s.groups, p.1 < s.nextId) ∧
      (let R := (s.launch 3).lrec
       R.needsCtx = false ∧ R.gangLevel = none ∧ R.teamSize = 1 ∧ R.il < 2 ∧ 0 < R.groupCount) := by
  decide +kernel

theorem test_hyp_LaunchEvents_gang :
    let gang : LRec := { rec1 with ticket := 5, levels := [⟨false, .blk, 0, 32⟩, ⟨false, .blk, 1, 16⟩, ⟨true, .slc, 3, 1⟩, ⟨false, .dev, 4, 1⟩], spad := 0x200000 }
    let at_ (top now : Nat) : State := { launchAt (fun L => { L with lrec := gang, state := .ready, topSince := top }) with now := now }
    let holds (s : State) : Bool := (s.launch 3).lrec.gangLevel.isSome && (s.launch 3).gangRoom.isNone &&
      (s.ranked 0).head?.map Prod.fst == some 3 && s.nextOffer 3 == some (.fresh 0 16) && (s.planOffer 3 (.fresh 0 16)).isNone
    (holds (at_ 0 7) = true ∧ ((at_ 0 7).launch 3).topSince = 0) ∧
    (holds (at_ 8 100) = true ∧ (at_ 8 100).now + 1 < ((at_ 8 100).launch 3).topSince + 50 * 114000) ∧
    (let s := at_ 8 (50 * 114000 + 7); holds s = true ∧ (s.launch 3).topSince ≠ 0 ∧ (s.launch 3).topSince + 50 * 114000 ≤ s.now + 1) := by
  decide +kernel

theorem test_hyp_LaunchEvents_exit :
    (FMap.sorted st.blocks = true ∧ FMap.sorted st.ctxs = true ∧ (st.block 1).residence = .resident ∧ (st.block 1).follower = none ∧
      ¬ ∀ p ∈ st.threads, p.2.block = 1 → p.2.disp = .exited) ∧
    (let s := upT fun _ T => { T with disp := .exited };
      (∀ p ∈ s.threads, p.2.block = 1 → p.2.disp = .exited) ∧ (∀ p ∈ s.acps, p.2.block ≠ 1) ∧ (∀ p ∈ s.opLog, p.2.block = 1 → p.2.dormant = true) ∧
        (∀ p ∈ s.engines, ∀ c ∈ p.2, c.block = 1 → c.heldDm1 = true) ∧ (∀ m ∈ (s.block 1).lead.mloops, m.active = false) ∧
        s.released 1 (((s.recOf 1).levels.getD 1 ⟨false, .blk, 0, 0⟩).scope) = true ∧ s.ctxs = [] ∧ (s.block 1).follower = none) ∧
    -- a block with a context of its own, and with one that it opened
    (let s := upB (fun B => { B with ctx := 5 }) { upT (fun _ T => { T with disp := .exited }) with
        ctxs := [(5, { Ctx.init with owner := 1, state := .opened }), (6, { Ctx.init with owner := 1, state := .opened })] };
      (∀ p ∈ s.ctxs, p.2.owner = 1 → p.2.state ≠ .retired → p.1 = (s.block 1).ctx ∨ p.2.state = .opened) ∧ (s.block 1).ctx ≠ 0 ∧
        (s.block 1).ctx ∉ ((s.ownCtxs 1).filter (· != (s.block 1).ctx)).flatMap s.openBelow) := by
  decide +kernel

theorem test_hyp_LaunchEvents_end :
    (FMap.sorted st.blocks = true ∧ FMap.sorted st.ctxs = true ∧ (st.launch 0).ending = false ∧ (st.block 1).residence ≠ .exited) ∧
    (let s := upB fun B => { B with residence := .exited };
      (s.launch 0).state = .ready ∧ (s.launch 0).nextBlock = (s.launch 0).lrec.blockCount ∧ s.mintQ = [] ∧
        (∀ p ∈ s.blocks, p.2.launch = 0 → p.2.residence = .exited ∧ p.2.ctx = 0) ∧ (s.sq (s.launch 0).queue).notify = false) ∧
    -- the completion record at 0x10010 of a page that the launch may store to
    (let s := upB (fun B => { B with residence := .exited }) (upR (fun R => { R with status := 0x10010 }) (walked paged));
      let R := (s.launch 0).lrec;
      R.status ≠ 0 ∧ R.status < 2 ^ 52 ∧ s.walk R.tenant R.status = some fetchPte ∧
        s.pageCheck ⟨0, 0, 0, 0, R.tenant, R.world, 0, true⟩ Need.store fetchPte (framePa fetchPte R.status) = none ∧ R.status < Config.transEnd ∧
        s.phys (framePa fetchPte R.status) = .dram) ∧
    (let s := { st with launches := st.launches.adjust 0 fun L => { L with ending := true, status := 6 } };
      (s.launch 0).ending = true ∧ (∀ p ∈ s.sec.streams, (s.launch 0).queue ∈ p.2.ifs → p.2.state = 0 ∨ p.2.state = 2) ∧ (s.launch 0).status ≠ 0) := by
  decide +kernel

/-! ## Pre-emption, checked execution and data faults -/

/-- The block, changed, at a time. -/
def blockAt (f : Block → Block) (now : Nat) (s : State := st) : State := { upB f s with now := now }
/-- An urgent launch that has found no room since the start. -/
def urgent (now : Nat) (s : State := st) : State :=
  { launchAt (fun L => { L with lrec := { rec1 with deadline := 1 }, state := .ready }) { s with
      launches := s.launches.adjust 0 fun L => { L with lrec := { L.lrec with tier := 3 } } } with now := now }
/-- A block of the same launch that is saved. -/
def savedToo (f : Block → Block) (s : State := st) : State :=
  { s with blocks := s.blocks.put 2 (f { Block.init with launch := 0, index := 1, residence := .saved, gslots := [0] }) }

theorem test_hyp_PreemptionEvents_choice :
    (FMap.sorted st.blocks = true ∧ st.blocks.find 1 = some (st.block 1) ∧ (st.block 1).residence = .resident ∧ (st.recOf 1).gangLevel = none ∧
      FMap.sorted st.launches = true ∧ (st.block 1).follower = none) ∧
    (let s := urgent (10 * 114000);
      (s.launch 3).state = .ready ∧ (s.launch 3).ending = false ∧ s.nextOffer 3 = some (.fresh 0 1) ∧ s.planOffer 3 (.fresh 0 1) = none ∧
        (s.launch 3).lrec.deadline ≠ 0 ∧ (s.launch 3).noRoomSince + 10 * 114000 ≤ s.now ∧ s.victimFor 3 (fun _ => true) = some 1) ∧
    (let s := urgent (100 * 114000);
      (s.launch 3).noRoomSince + 100 * 114000 ≤ s.now ∧ s.victimFor 3 (fun V => decide ((s.launch 3).lrec.tier < V.lrec.tier)) = some 1) := by
  decide +kernel

theorem test_hyp_PreemptionEvents_kinds :
    -- the window of a notice has passed and a group is not quiet
    (let s := blockAt (fun B => { B with notice := true, chosen := 2 }) 0;
      s.block 1 = { st.block 1 with notice := true, chosen := 2 } ∧
        (s.block 1).noticeAt + (s.partRegs (s.launch 0).part).noticewin ≤ s.clk 0 + (s.partRegs (s.launch 0).part).noticewin ∧
        (∃ p ∈ s.groups, p.2.block = 1 ∧ p.2.wait = none)) ∧
    (let s := blockAt (fun B => { B with notice := true, chosen := 2 }) (10 ^ 12);
      (s.block 1).noticeAt + (s.partRegs (s.launch 0).part).noticewin ≤ s.clk 0 ∧ ∃ p ∈ s.groups, p.2.block = 1 ∧ p.2.wait = none) ∧
    (let s := blockAt (fun B => { B with chosen := 1 }) (10 ^ 12);
      (s.block 1).chosen = 1 ∧ (s.block 1).chosenAt + 4 * (s.partRegs (s.launch 0).part).drainth ≤ s.clk 0) ∧
    (let s := savedToo id { upG { grp with wait := some (.waitv 3) } with now := 50 * 114000 };
      (s.block 2).residence = .saved ∧ (s.block 2).launch = (s.block 1).launch ∧ (s.block 2).waitingSince + 50 * 114000 ≤ s.now ∧
        (s.launch 0).ending = false ∧ s.planRestore 0 [2] = none ∧ (∀ p ∈ s.blocks, p.2.exchange ≠ some 2) ∧ s.exchangeVictim 2 = some 1) ∧
    -- SAVE with the save area
    (let room (s : State) : State := { s with cfg := { s.cfg with parts := [(0, { PartRegs.init with psavesize := 64 })] } };
      let s := room (upB fun B => { B with chosen := 2 });
      let u := room (upB fun B => { B with chosen := 2, going := true });
      ((s.block 1).chosen = 2 ∧ (s.block 1).going = false ∧ (s.block 1).notice = false ∧
        s.savedBytes (s.launch 0).part + (s.recOf 1).imageSize ≤ 0x10000 * (s.partRegs (s.launch 0).part).psavesize) ∧
      (u.block 1).going = true ∧ u.saveReady 1 = true ∧ (u.block 1).exchange = none ∧ (u.block 1).follower = none ∧ FMap.sorted u.threads = true ∧
        (∀ p ∈ u.inflight, p.2.block ≠ 1) ∧ ∀ p ∈ u.threads, p.1 / 1024 ≠ 64 + 1 ∧
          (p.2.block = 1 → p.1 / 1024 = (u.block 1).core ∧ p.2.ix.headD 0 < 1024 ∧
            ∀ r ∈ u.threads, r.2.block = 1 → r.2.ix.headD 0 = p.2.ix.headD 0 → r = p)) ∧
    -- FLUSH of a block with a context, exposed and not, and of a checked block
    (let c (x : Bool) : Ctx := { Ctx.init with owner := 1, state := .opened, exposed := x };
      let s (x : Bool) : State := { upB (fun B => { B with chosen := 3, ctx := 5 }) with ctxs := [(5, c x)] };
      ((s true).block 1).chosen = 3 ∧ ((s true).block 1).notice = false ∧ ((s true).block 1).exchange = none ∧
        ((s true).block 1).ctx ≠ 0 ∧ ((s true).block 1).ctx < 65536 ∧ ((s true).ctx 5).state = .opened ∧
        (∃ k ∈ (s true).openBelow 5, ((s true).ctx k).exposed = true) ∧ (∀ k ∈ (s false).openBelow 5, ((s false).ctx k).exposed = false)) ∧
    -- the watchdog of the schedule
    (let s := upB fun B => { B with overLen := 10, overrun := 40 };
      (s.block 1).overLen ≠ 0 ∧ 4 * (s.block 1).overLen ≤ (s.block 1).overrun ∧ FMap.sorted s.ctxs = true) := by
  decide +kernel

/-- The image of a block of one group. -/
def image1 : Image := ⟨0, [], [], [], [], [], [], []⟩

theorem test_hyp_PreemptionEvents_restore :
    let s : State := { savedToo (fun B => { B with image := some image1 }) placed with
      threads := [(0, thr 0), (1, thr 1), (1024 * 66, { thr 5 with block := 2, ix := [0] })] }
    FMap.sorted s.blocks = true ∧ s.blocks.find 2 = some (s.block 2) ∧ (s.block 2).image = some image1 ∧
      s.firstFit 0 = some (0, .restore [2], [site1]) ∧ FMap.sorted image1.spad = true ∧ FMap.sorted s.threads = true ∧
      (s.block 2).follower = none ∧ (s.recOf 2).il < 2 ∧
      ∀ p ∈ s.threads, (p.1 / 1024 = 64 + 2 → p.2.block = 2 ∧ p.1 % 1024 / 32 < 1) ∧
        ∀ n, n < 32 → p.1 ≠ 1024 * 1 + 32 * 0 + n := by
  decide +kernel

/-- Two entries of 2,048 cycles for core 0: quarter 0, then quarters 0 and 1. -/
def scheduled : State :=
  { placed with now := 10 ^ 9, cfg := { placed.cfg with sched := [(0, 0x8000000100000800), (1, 0x8000000300000800)] } }

theorem test_hyp_PreemptionEvents_schedule :
    (scheduled.schedEntries 0 = [⟨0, 1, 2048⟩, ⟨1, 3, 2048⟩] ∧ scheduled.schedNow 0 = some ⟨0, 1, 2048⟩ ∧
      (scheduled.schedAt 0).2.1 + 2048 ≤ scheduled.clk 0 ∧
      (((scheduled.schedEntries 0).filter fun x => decide (0 < x.no)) ++ scheduled.schedEntries 0).head? = some ⟨1, 3, 2048⟩ ∧
      (3 : Nat).testBit 0 = true ∧ scheduled.quarterOwner 0 0 = some 0 ∧ (scheduled.debt.find 0).getD 0 ≤ 2048) ∧
    -- a debt of 100 cycles, and an entry of no quarter
    (({ scheduled with debt := [(0, 100)] } : State).debt.find 0).getD 0 = 100 ∧
    ((({ scheduled with cfg := { scheduled.cfg with sched := [(0, 0x8000000000000800)] } } : State).schedEntries 0) = [⟨0, 0, 2048⟩] ∧
      ∀ q, q < 4 → (0 : Nat).testBit q = false) := by
  decide +kernel

/-- PAIRCTL of slice 0. -/
def pairIs (P : PairCtl) (now : Nat) (s : State := st) : State := { s with pairs := [(0, P)], now := now }
def changing (p : Bool) (step : Nat) : PairCtl := { PairCtl.init with state := 1, toPaired := p, step := step }

theorem test_hyp_CheckedEvents_pairs :
    ((pairIs (changing true 2) 0).pairOf 0).state = 1 ∧ ((pairIs (changing true 2) 0).pairOf 0).step = 2 ∧
    (st.blocks.filter fun p => p.2.residence == .resident && p.2.core / 4 == 0).map Prod.fst = [1] ∧
    ((upB fun B => { B with residence := .exited }).blocks.filter fun p => p.2.residence == .resident && p.2.core / 4 == 0).map Prod.fst = [] ∧
    ((pairIs (changing true 3) 0).clk 0 < 0 + 512 ∧ (pairIs (changing true 5) 0).clk 0 < 0 + 64) ∧
    (512 ≤ (pairIs (changing true 3) 1000000).clk 0 ∧ 64 ≤ (pairIs (changing false 5) 1000000).clk 0) ∧
    (((pairIs (changing true 4) 0).rail 0).changing = false ∧ ((pairIs (changing true 4) 0).rail 1).changing = false) ∧
    (let s := pairIs (changing true 2) (100 * 114000);
      (s.pairOf 0).stepAt + 100 * 114000 ≤ s.now ∧ s.drainUnits 0 = [1]) ∧
    -- auto mode pairs for a waiting IL2 launch and unpairs for an IL0 launch
    (let s := pairIs { PairCtl.init with auto := true } 0 (launchAt fun L => { L with lrec := { rec1 with il := 2 }, state := .ready });
      (∀ x ∈ s.partSlices 0, (s.pairOf x).state ≠ 2 ∧ ¬ ((s.pairOf x).state = 1 ∧ (s.pairOf x).toPaired = true)) ∧
        (∃ p ∈ s.ranked 0, 2 ≤ p.2.lrec.il) ∧ (s.partSlices 0).find? (fun x => (s.pairOf x).state == 0 && (s.pairOf x).auto) = some 0) ∧
    (let s := pairIs { PairCtl.init with auto := true, state := 2 } (100 * 114000) (launchAt fun L => { L with state := .ready });
      (s.pairOf 0).state = 2 ∧ (s.pairOf 0).req = false ∧ (∀ b ∈ [1], (s.recOf b).il < 2) ∧ s.slicePart 0 = some 0 ∧
        (∀ p ∈ s.ranked 0, p.2.lrec.il < 2) ∧ (∃ p ∈ s.ranked 0, (s.launch p.1).state = .ready ∧ (s.launch p.1).ending = false ∧
          (s.launch p.1).noRoomSince + 100 * 114000 ≤ s.now) ∧
        s.nextOffer 3 = some (.fresh 0 1) ∧ s.planOffer 3 (.fresh 0 1) = none) := by
  decide +kernel

/-- An item that a core sent. -/
def sent (side data : Nat) : Item := ⟨side, 3, 0, 1, 65536, 0x10000, data, 0, 4, 0, [], 0⟩
/-- The pair of cores runs the block at an integrity level, with a context that may be exposed. -/
def checked (il : Nat) (items : List Item) (exp : Bool := false) (f : Block → Block := id) : State :=
  upB (fun B => { f B with ctx := 5 }) (upR (fun R => { R with il := il })
    { stF items with ctxs := [(5, { Ctx.init with owner := 1, state := .opened, exposed := exp })] })

/-- A value that waits for its counterpart for 1,000 us. -/
def overdue (side : Nat) : Bool :=
  let s : State := { checked 2 [sent side 7] with now := 1000 * 114000 }
  (s.block 1).items.find? (fun i => (decide (i.kind < 8) || i.kind == kindMark) && decide (i.since + 1000 * 114000 ≤ s.now)) == some (sent side 7)
/-- Both slices of the partition are paired. -/
def twoPairs : State := { checked 3 [] with
  cfg := { State.reset.cfg with playout := 2 }, pairs := [(0, { PairCtl.init with state := 2 }), (1, { PairCtl.init with state := 2 })] }

theorem test_hyp_CheckedEvents_assay :
    (let s := checked 2 [sent 0 7, sent 1 7];
      FMap.sorted s.blocks = true ∧ FMap.sorted s.launches = true ∧ (s.block 1).follower.isSome ∧ (s.launch 0).ending = false ∧
        (s.launches.find 0).isSome ∧ (s.launch 0).state ≠ .complete ∧ (s.block 1).residence = .resident ∧ (s.block 1).core / 4 < 16 ∧
        (∀ i ∈ (s.block 1).items, ∀ j ∈ (s.block 1).items, i.kind < 8 → j.kind < 8 → i.side = 0 → j.side ≠ 0 → i.slot = j.slot → i.n = j.n →
          i.kind = j.kind ∧ i.addr = j.addr ∧ i.data = j.data ∧ i.extra = j.extra ∧ i.size = j.size)) ∧
    (checked 2 [sent 0 7, sent 1 8]).differing 1 = some (sent 0 7, sent 1 8) := by
  decide +kernel

theorem test_hyp_CheckedEvents_outcomes :
    overdue 0 = true ∧ overdue 1 = true ∧
    ((checked 2 [] true).blockExposed 1 = true ∧ (checked 2 [] false).blockExposed 1 = false ∧
      ((checked 2 [] false fun B => { B with ownRerun := true }).block 1).ownRerun = true ∧ (checked 2 []).otherPair 0 0 = false ∧
      (∀ k ∈ (checked 2 [] true).openBelow 5, ((checked 2 [] true).ctx k).exposed = true)) ∧
    twoPairs.otherPair 0 0 = true ∧
    -- a checked block that is to be flushed, exposed and not
    (let s (exp : Bool) := checked 2 [] exp fun B => { B with chosen := 3 };
      ((s true).block 1).chosen = 3 ∧ ((s true).block 1).notice = false ∧ ((s true).block 1).exchange = none ∧
        ((s true).block 1).follower.isSome ∧ (s true).blockExposed 1 = true ∧ (s false).blockExposed 1 = false) ∧
    (let s := checked 2 [] false fun B => { B with residence := .exited };
      (s.block 1).residence = .exited ∧ (s.ctx 5).owner = 1 ∧ (s.ctx 5).state = .opened) := by
  decide +kernel

/-- A data fault of lane 0 at 0x10000. -/
def dfault (struct : Nat) (ok : Bool) (addr : Nat := 0x10000) : DataFault := ⟨0, addr, struct, ok⟩
/-- A fault has a site of the block 1, and so it has without the line in which it was found. -/
def siteIs (s : State) (f : DataFault) (x : FaultSite) : Prop :=
  s.faultSite f = x ∧ (s.dropFaulty f).faultSite f = x ∧ x.block = 1 ∧ s.faultLive f = true ∧ (s.dropFaulty f).faultLive f = true

theorem test_hyp_CheckedEvents_data_faults :
    (st.blocks.find 1 = some (st.block 1) ∧ (st.block 1).residence = .resident ∧ (st.launches.find 0).isSome ∧ (st.launch 0).ending = false ∧
      (st.launch 0).state ≠ .complete ∧ (st.thread 0).disp = .group 2 ∧ FMap.sorted st.blocks = true ∧ (dfault 0 true).struct ≠ 2 ∧
      (dfault 2 true).struct = 2 ∧ (dfault 0 false).retryOk = false) ∧
    ((upR fun R => { R with il := 1 }).blockExposed 1 = false ∧ ((upB (fun B => { B with ownRerun := true })).block 1).ownRerun = true ∧
      (st.recOf 1).il = 0) ∧
    (let e := entry (.ld h .b32 false .ca (.v 4) (.v 6) (.imm 0) 0) [src 0 0x10000 0 0];
      siteIs (logged e) (dfault 0 false) (.entry 3 e) ∧ isShared e.instr = false ∧ e.lanes.map LaneSrc.thread = [0]) ∧
    (let a : AcpCopy := ⟨0, 1, 0, 2, [], 64, 0, 3, 0x10000⟩;
      siteIs { st with acps := [(3, a)] } (dfault 0 false) (.copy 3 a)) ∧
    (siteIs st (dfault 0 false) (.fetch 1 2 65536) ∧ st.groups.find 2 = some grp ∧ grp.wait = none ∧
      ∀ u ∈ grp.lanes, (st.thread u).disp = .group 2) ∧
    siteIs st (dfault 0 false 0x20000) (.lane 1 65536) ∧
    siteIs (checked 2 []) (dfault 2 true 0x20000) (.lane 1 65536) := by
  simp only [siteIs]
  decide +kernel

/-! ## The host's events, the SEC, links and power -/

/-- Stream 3 holds queue 0 of world 0 and port 0. -/
def stream3 (state : Nat) (s : State := placed) : State :=
  { s with sec := { s.sec with streams := [(3, ⟨state, 9, [0, 96], 0⟩)], bootStep := 8 }, sqs := [(0, StreamQ.init)] }
/-- Two partitions of six slices; partition 0 has engine 0 and counters 0 to 15, and 65,000 tags. -/
def parted : State := { State.reset with cfg := { State.reset.cfg with
  playout := 0x6000006, parts := [(0, { PartRegs.init with peng := 1, pevt := 0x100000, pmint := 65000 }), (6, PartRegs.init)] } }
/-- Two slices of partition 0 without a block. -/
def empty0 : State := { State.reset with cfg := { State.reset.cfg with playout := 0x2 } }

theorem test_hyp_ConfigurationWrites_layout :
    (FMap.sorted (stream3 2).sec.streams = true ∧ (∃ x ∈ (stream3 2).sec.streams, x.2.state ≠ 0) ∧ ((stream3 2).stream 3).state = 2 ∧
      ((stream3 3).stream 3).state = 3 ∧ st.sec.streams = []) ∧
    -- sizes 6 and 6 are legal, 5 and a partition at slice 1 of two are not
    ((∀ k, k < 12 → 0x6000006 / 2 ^ (4 * k) % 16 ≠ 0 → 0x6000006 / 2 ^ (4 * k) % 16 = 6 ∧ k % 6 = 0 ∧ k + 6 ≤ 12 ∧
        ∀ j, j < 12 → k < j → j < k + 6 → 0x6000006 / 2 ^ (4 * j) % 16 = 0) ∧
      (0x5 / 2 ^ (4 * 0) % 16 = 5 ∧ 0x20 / 2 ^ (4 * 1) % 16 = 2 ∧ 1 % 2 ≠ 0)) ∧
    -- a slice that a block holds cannot move; in the second state both slices of partition 0 can
    (placed.slicePart 0 = some 0 ∧ (∃ p ∈ placed.blocks, p.2.residence = .resident ∧ p.2.core / 4 = 0)) ∧
    (∀ k, k < 2 → empty0.slicePart k = some 0 ∧ (∀ p ∈ empty0.blocks, p.2.residence = .resident → p.2.core / 4 ≠ k) ∧
      (∀ p ∈ empty0.blocks, p.2.image.isSome → (empty0.launch p.2.launch).part ≠ 0) ∧ empty0.liveTags 0 = 0 ∧
      (∀ q ∈ empty0.sqs, q.2.enable = true → q.2.part ≠ 0) ∧ (empty0.pairOf k).req = false ∧ (empty0.pairOf k).auto = false ∧
      (empty0.pairOf k).state = 0) := by
  refine ⟨by decide +kernel, ?_, by decide +kernel, by decide +kernel⟩
  exact ⟨by decide +kernel, by decide +kernel⟩

/-- A block of core 0 has its home in quarter 0, and none in quarter 1. -/
theorem test_hyp_ConfigurationWrites_homes : placed.homedIn 0 0 = [1] ∧ placed.homedIn 0 1 = [] ∧ FMap.sorted placed.blocks = true := by
  decide +kernel

theorem test_hyp_ConfigurationWrites_partitions :
    (6 < 12 ∧ parted.cfg.playout / 2 ^ (4 * 6) % 16 ≠ 0 ∧ parted.cfg.playout / 2 ^ (4 * 1) % 16 = 0 ∧ parted.sec.streams = []) ∧
    -- a world of stream 3 in partition 0
    (bitOf ((stream3 2).tenantReg 0) 63 = true ∧ (stream3 2).streamWorld ((stream3 2).stream 3) = some (bitsOf ((stream3 2).tenantReg 0) 48 4) ∧
      bitsOf ((stream3 2).tenantReg 0) 40 4 = 0 ∧ (stream3 2).cfg.playout / 2 ^ (4 * 0) % 16 ≠ 0) ∧
    -- engine 0 is the other partition's; engine 1 is free, and it is not while it serves another partition
    (bitOf 1 0 = true ∧ bitOf (parted.partRegs 6).peng 0 = false ∧ (0, parted.partRegs 0) ∈ parted.cfg.parts ∧ bitOf (parted.partRegs 0).peng 0 = true ∧
      bitOf (parted.partRegs 0).peng 1 = false ∧ parted.engQ 1 = [] ∧
      ∃ c ∈ ({ parted with engines := [(1, [{ cmd .cgs copyCmd with part := 0 }])] } : State).engQ 1, c.part ≠ 6) ∧
    -- counters 4090 to 4106, 15 to 16 and 16 to 17; tags 536 and 535
    (4096 < 4090 + 16 ∧ (15 ≤ 15 ∧ 15 < 15 + 2 ∧ bitsOf (parted.partRegs 0).pevt 0 12 ≤ 15 ∧
        15 < bitsOf (parted.partRegs 0).pevt 0 12 + bitsOf (parted.partRegs 0).pevt 16 13) ∧
      bitsOf (parted.partRegs 0).pevt 0 12 + bitsOf (parted.partRegs 0).pevt 16 13 ≤ 16) ∧
    (65535 < 536 + sumOf ((parted.cfg.parts.filter fun p => p.1 != 6).map fun p => p.2.pmint) ∧
      535 + sumOf ((parted.cfg.parts.filter fun p => p.1 != 6).map fun p => p.2.pmint) ≤ 65535) := by
  decide +kernel

theorem test_hyp_ConfigurationWrites_tenants :
    -- tenant 0 holds quarters and tenant 1 does not; a budget of 13,500 and one more
    (placed.quarterOwner 0 0 = some 0 ∧ (∀ c, c < 48 → ∀ q, q < 4 → placed.quarterOwner c q ≠ some 1) ∧
      (∀ p ∈ placed.launches, p.2.lrec.tenant = 1 → p.2.state = .complete) ∧
      sumOf ((placed.cfg.tenants.filter fun p => p.1 != 1).map fun p => if bitOf p.2.toNat 32 then p.2.toNat % 2 ^ 14 else 0) = 0) ∧
    -- quarter 0 of core 0 is taken, quarter 1 of core 4 of another slice is not; tenant 9 is not valid
    ((∃ p ∈ placed.threads, p.1 / 256 = 4 * 0 + 0 ∧ p.2.disp ≠ .exited) ∧ (∀ p ∈ placed.threads, p.1 / 256 ≠ 4 * 3 + 1) ∧
      bitOf (placed.tenantReg 9) 63 = false ∧ (bitOf (placed.tenantReg 0) 63 = true ∧ 3 / 4 ∈ placed.partSlices (bitsOf (placed.tenantReg 0) 40 4))) ∧
    (placed.cfg.pcap < 1201 ∧ sumOf ((upFrom 0 4).map fun k => if k = 1 then 1200 else placed.floorOf k) ≤ placed.cfg.pcap) ∧
    (bitsOf (0x28A00C80000 : DWord).toNat 32 10 < bitsOf (0x28A02BC0000 : DWord).toNat 16 10 ∧ 560 ≤ 700) := by
  decide +kernel

theorem test_hyp_HostEvents :
    let up (n : Nat) : State := { State.reset with sec := { Sec.init with bootStep := n } }
    ({ st with icinv := true } : State).icinv = true ∧
    (({ st with xlinv := [5] } : State).xlinv = 5 :: [] ∧ st.engines = []) ∧
    -- XLINV of the page at 0x5000 of tenant 0, and a command that has the page at 0x10000
    (let s : State := { st with xlinv := [0x5000000], engines := [(0, [{ cmd .cgs copyCmd with maps := [(16, fetchPte)] }])] };
      s.xlinv = 0x5000000 :: [] ∧ bitsOf (0x5000000 : DWord).toNat 24 40 = 5 ∧ ∀ p ∈ s.engines, ∀ c ∈ p.2, ∀ m ∈ c.maps,
        m.1 / 2 ^ (pageShift (pteSize m.2) - 12) ≠ 5 / 2 ^ (pageShift (pteSize m.2) - 12)) ∧
    ((0x80000000 : DWord).getLsbD 31 = true ∧ FMap.sorted st.launches = true ∧ (∃ p ∈ st.launches, p.2.queue = 0 ∧ p.2.state ≠ .complete) ∧
      ∀ p ∈ st.launches, p.2.queue ≠ 7) ∧
    ((up 3).sec.bootFailed = false ∧ (⟨4, true, 0xFFF, 0⟩ : BootResult).step = (up 3).sec.bootStep + 1 ∧
      (up 1).sec.bootFailed = false ∧ (⟨2, true, 0xFFF, 0⟩ : BootResult).step = (up 1).sec.bootStep + 1) ∧
    (∀ x ∈ st.sec.streams, x.2.state = 0) ∧ st.sec.hostBusy = false ∧
    -- a line of DRAM, an address that nothing holds, and a register
    (0x10000 % 64 + 64 ≤ 64 ∧ placed.owned (0x10000 / 64) = false ∧ 0x10000 + 64 ≤ placed.dramSize ∧ 0x10000 + 64 ≤ 0x30000000000) ∧
    (placed.owned (0x200000000000 / 64) = false ∧ placed.phys 0x200000000000 = .none) ∧
    (0xF00C0000000 + 0x6000 < 0xF00C2000000 ∧ (0xF00C0000000 + 0x6000) % 8 = 0 ∧ placed.owned ((0xF00C0000000 + 0x6000) / 64) = false) := by
  decide +kernel

/-- A message of the host at the head of the SEC's queue. -/
def told (m : DWord) (s : State := stream3 0) : State := { s with sec := { s.sec with queue := [(9, m)] } }
/-- The blob of a key: kind, slot and world. -/
def blobAt (kind slot : Byte) : State := (told 0x0730000000010000).setBytes 0x10000 [1, kind, slot, 0, 0]

theorem test_hyp_SecureEvents_streams :
    (2 ≤ (told 0x0130000000000005).sec.bootStep ∧ (0x0130000000000005 : DWord).toNat / 2 ^ 52 % 16 = 3 ∧
      (0x0130000000000005 : DWord).toNat / 2 ^ 56 = 1 ∧ (0x0130000000000005 : DWord).toNat / 2 ^ 48 % 16 = 0 ∧
      (0x0130000000000005 : DWord).toNat % 2 ^ 48 = 5) ∧
    (((stream3 0).stream 3).state = 0 ∧ (stream3 0).streamWorld ((stream3 0).stream 3) = some 0 ∧ ((stream3 0).sq 5).world = 0 ∧
      ({ stream3 0 with sqs := [(0, StreamQ.init), (5, { StreamQ.init with world := 1 })] } : State).streamWorld ((stream3 0).stream 3) = some 0 ∧
      (({ stream3 0 with sqs := [(0, StreamQ.init), (5, { StreamQ.init with world := 1 })] } : State).sq 5).world = 1) ∧
    (((stream3 0).stream 4).ifs = [] ∧ ((stream3 0).stream 4).state = 0) ∧
    -- queue 0 is locked in stream 3 and bound to stream 4
    (let s : State := { stream3 1 with sec := { (stream3 1).sec with streams := [(3, ⟨1, 9, [0, 96], 0⟩), (4, ⟨0, 0, [0], 0⟩)] } };
      (s.stream 4).state = 0 ∧ ∃ j ∈ (s.stream 4).ifs, ∃ x ∈ s.sec.streams, x.2.state ≠ 0 ∧ j ∈ x.2.ifs) ∧
    (((stream3 1).stream 3).owner = 9 % 64 ∧ ((stream3 1).stream 3).owner ≠ 8 % 64 ∧ ((stream3 1).stream 3).state = 1) := by
  decide +kernel

theorem test_hyp_SecureEvents_keys :
    (let s := blobAt 0 5;
      3 ≤ s.sec.bootStep ∧ 0x10000 % 64 = 0 ∧ 0x10000 + 1152 ≤ s.dramSize ∧ (s.byte 0x10000).toNat = 1 ∧ (s.byte 0x10001).toNat = 0 ∧
        (s.byte 0x10002).toNat < 64 ∧ (∀ i, i < 11 → s.byte (0x10005 + i) = 0) ∧ s.sec.keys.find 5 = none) ∧
    (let s := { blobAt 0 5 with sec := { (blobAt 0 5).sec with keys := [(5, ⟨1, 0, 0⟩)] } };
      (s.sec.keys.find 5).isSome) ∧
    ((blobAt 1 0).byte 0x10001 = 1 ∧ (blobAt 1 0).sec.linkSecret = none ∧ (blobAt 2 0).byte 0x10001 = 2) ∧
    ((0x0800000000000005 : DWord).toNat / 2 ^ 56 = 8 ∧ (0x0800000000000005 : DWord).toNat % 2 ^ 48 < 64) ∧
    (let s := withRecs [(0, { rec0 with keyed := some 5 })]; (s.bside 1 0).records.find 0 = some { rec0 with keyed := some 5 } ∧ s.awake 1 = true) ∧
    (({ rec0 with keyed := some 5 } : Record).keyed = some 5 ∧
      (looped { loop1 with recA := { rec0 with keyed := some 5 } }).bside 1 0 ≠ BSide.init) ∧
    -- EXTEND of register 8 from 0x10000
    ((0x0900800000010000 : DWord).toNat / 2 ^ 56 = 9 ∧ (0x0900800000010000 : DWord).toNat % 2 ^ 48 / 2 ^ 44 = 8 ∧
      (0x0900800000010000 : DWord).toNat % 2 ^ 44 % 64 = 0 ∧ (0x0900800000010000 : DWord).toNat % 2 ^ 44 + 48 ≤ placed.dramSize) := by
  decide +kernel

theorem test_hyp_SecureEvents_spdm :
    (let s (order : Nat) (code : Byte) : State := { (stream3 0).setBytes 0x10000 [0x12, code] with
        sec := { (stream3 0).sec with spdmBusy := true, spdmctl := 0x10004, spdmOrder := order } };
      (s 0 0x84).sec.spdmBusy = true ∧ 3 ≤ (s 0 0x84).sec.bootStep ∧
        (((s 0 0x84).bytes ((s 0 0x84).sec.spdmctl.toNat / 2 ^ 14 % 2 ^ 30 * 2 ^ 14) ((s 0 0x84).sec.spdmctl.toNat % 2 ^ 14)).getD 1 0).toNat = 0x84 ∧
        (((s 3 0x82).bytes 0x10000 4).getD 1 0).toNat = 0x82 ∧ (((s 3 0x82).bytes 0x10000 4).getD 2 0).toNat % 16 = 0 ∧
        (s 0 0xE1).sec.spdmOrder < 1 ∧ 1 ≤ (s 1 0xE1).sec.spdmOrder ∧ (0x7F : Nat) ∉ [0x84, 0xE1, 0xE3, 0x81, 0x82, 0x83, 0xE0]) ∧
    (FMap.sorted (stream3 2).sec.streams = true ∧ (stream3 2).streamWorld ((stream3 2).stream 3) = some 0 ∧
      (stream3 2).streamWorld ((stream3 2).stream 3) ≠ some 1) := by
  decide +kernel

/-- A request for the measurement block `n`, after the algorithms are agreed. -/
def asked (n : Byte) : State := { (stream3 0).setBytes 0x10000 [0x12, 0xE0, 0, n] with
  sec := { (stream3 0).sec with spdmBusy := true, spdmctl := 0x10004, spdmOrder := 3 } }

theorem test_hyp_SecureEvents_measurements :
    (∀ n : Byte, n ∈ [1, 16, 0x20, 0x2F, 0x30, 17, 0x1F, 0x31, 0xFE] → let req := (asked n).bytes 0x10000 4;
      (req.getD 1 0).toNat = 0xE0 ∧ (req.getD 2 0).getLsbD 0 = false ∧ req.getD 3 0 = n) ∧
    3 ≤ (asked 1).sec.spdmOrder ∧ 0x10000 + 49 + 100 ≤ (asked 1).dramSize ∧ 3 ≤ (asked 1).sec.bootStep ∧
    ((asked 1).stream 2).state = 0 ∧ ((asked 1).linkOf 0).state = 0 := by
  decide +kernel

/-- A packet of world 0 between two ports, with the keys drawn. -/
theorem test_hyp_SecureEvents_packets :
    let s := { stream3 2 with sec := { (stream3 2).sec with nocKeys := [(0, 5)], nocCounters := [] } };
    FMap.sorted s.sec.nocCounters = true ∧ FMap.sorted s.sec.streams = true ∧ isFlow ⟨0, 1, 0⟩ = true ∧ isFlow ⟨1, 0, 0⟩ = true ∧
      (s.sec.nocKeys.find 0).isSome ∧ (s.stream 3).state = 2 ∧ s.streamWorld (s.stream 3) = some 0 := by
  decide +kernel

/-- Step 2 of the bring-up: its image starts, or it is the first that does not. -/
theorem test_hyp_HostEvents_images :
    (∀ k ∈ [0], imageStarts k = true) ∨ ∃ k, [0] = [] ++ k :: [] ∧ (∀ x ∈ ([] : List Nat), imageStarts x = true) ∧ imageStarts k = false := by
  cases e : imageStarts 0
  · exact .inr ⟨0, rfl, by simp, e⟩
  · exact .inl (by simpa using e)

/-- Link port 0, changed. -/
def linked (f : Link → Link) (s : State := stream3 2) : State := { s with links := [(0, f { Link.init with enable := true, state := 2 })] }

theorem test_hyp_PowerEvents_links :
    (let s := { placed with now := 16000 * 114000 };
      bitOf s.cfg.dramcfg 0 = true ∧ s.cfg.drammode.findD 0 0 ≠ 1 ∧ s.cfg.drammode.findD 0 0 = 0 ∧ s.modeAt.findD 0 0 + 16000 * 114000 ≤ s.now ∧
        s.windowAt + 10 * 114000 ≤ s.now ∧ s.powerAt + 114000 ≤ s.now ∧ s.lowRail.checkedAt + 1000 * 114000 ≤ s.now) ∧
    (placed.now < placed.modeAt.findD 0 0 + 16000 * 114000 ∧ placed.now < placed.windowAt + 10 * 114000 ∧ placed.now < placed.powerAt + 114000 ∧
      placed.now < placed.lowRail.checkedAt + 1000 * 114000) ∧
    (placed.accountOf .host = some 256 ∧ placed.accountOf (.thread 0) = some 0 ∧ (⟨.host, 0, 1, true, true⟩ : DramRequest).group < 12) ∧
    (((linked fun L => { L with state := 0 }).linkOf 0).enable = true ∧ ((linked fun L => { L with state := 1 }).linkOf 0).state = 1) ∧
    (2 ≤ ((linked fun L => { L with replays := 8 }).linkOf 0).state ∧ 8 ≤ ((linked fun L => { L with replays := 8 }).linkOf 0).replays) ∧
    (96 + 0 ∈ ((linked id).stream 3).ifs ∧ 96 + 1 ∉ ((linked id).stream 3).ifs) ∧
    -- a flit of the stream, and one of none at a port of none
    ((linked id).portStream 0 = some (3, (linked id).stream 3) ∧ ((linked id).stream 3).state = 2 ∧ ((linked id).linkOf 0).expected = 0) ∧
    (linked id placed).portStream 0 = none ∧
    (∀ x, 0x10000 / 64 ≤ x → x < 0x10000 / 64 + 2 → (linked id).owned x = false) ∧
    (let L := (linked fun L => { L with wbase := 0x10000, wsize := 1 }).linkOf 0; L.wbase ≤ 0x10000 ∧ 0x10000 + 64 ≤ L.wbase + 0x10000 * L.wsize) ∧
    ¬ ((linked id).linkOf 0).wbase + 0x10000 * ((linked id).linkOf 0).wsize ≥ 0x10000 + 64 := by
  refine ⟨by decide +kernel, by decide +kernel, by decide +kernel, by decide +kernel, by decide +kernel, by decide +kernel, by decide +kernel,
    by decide +kernel, fun x h1 h2 => ?_, by decide +kernel, by decide +kernel⟩
  have : ∀ n, n < 2 → (linked id).owned (1024 + n) = false := by decide +kernel
  have e := this (x - 1024) (by omega)
  rwa [show 1024 + (x - 1024) = x by omega] at e

theorem test_hyp_PowerEvents_rails :
    let low (f : Rail → Rail) (now : Nat) : State := { st with rails := [(0, f { Rail.init with high := false })], now := now }
    ((low (fun R => { R with changing := true }) 0).rail 0).changing = true ∧
    (((low (fun R => { R with holdUntil := 5 }) 5).rail 0).holdUntil ≠ 0 ∧ ((low (fun R => { R with holdUntil := 5 }) 5).rail 0).holdUntil ≤ 5) ∧
    (st.lowRail.floor ≤ st.lowRail.setpoint ∧ st.lowRail.setpoint ≤ st.lowRail.ceiling ∧ ((low id 0).rail 0).high = false ∧ st.lowRail.auto = true ∧
      st.lowRail.thresh < 17 ∧ st.lowRail.lastUncorr = 0 ∧ st.lowRail.counts = []) ∧
    (st.lowRail.raiseAt = 0 ∧ ¬ ((⟨false, true, 700, 560, 620, 16, 0, 1, [], 0⟩ : LowRail).raiseAt - 1 + 2 * 114000 ≤ 0)) ∧
    (st.junction.findD 3 0 + 1 = 1 ∧ maxOf (st.junction.store 0 3 1).vals = 1 ∧ maxOf (FMap.vals ([] : FMap Nat)) < 2 ∧
      ({ st with junction := [(3, 2)] } : State).junction.findD 3 0 = 2 ∧ maxOf (FMap.vals (FMap.store 0 ([] : FMap Nat) 3 2)) = 2 ∧
      maxOf (FMap.vals (FMap.store 0 ([] : FMap Nat) 3 3)) = 3) ∧
    ((st.pairOf 0).state ≠ 2 ∧ (st.blocks.any fun p => p.2.residence == .resident && p.2.core == 0 && (st.launch p.2.launch).lrec.tier == 0) = true) := by
  decide +kernel

/-- A junction temperature of 200 is at or above every level, and one of 0 is below it, whatever the ordering code. -/
theorem test_hyp_PowerEvents_limits : ∀ level : Nat, 1 ≤ level → level ≤ 3 →
    ((if Config.orderingCode = 1 then 105 else 125) + 5 * ((level : Int) - 2) : Int) ≤ 200 ∧
      (0 : Int) < (if Config.orderingCode = 1 then 105 else 125) + 5 * ((level : Int) - 2) := by
  intro level h1 h2
  split <;> omega

/-! ## Steps -/

/-- The state that a step of the words starts from: an IADD of v6 and 7 into v4, where the next step fetches it. -/
def fetched : State := State.reset.withFetchWord 64 0x1380C101BFC00007

theorem test_hyp_StepRunsTheWord_event : ({ st with agenda := [.event .coldReset] } : State).agenda = .event .coldReset :: [] := rfl

theorem test_hyp_StepRunsTheWord :
    let word := 0x1380C101BFC00007
    let s := State.reset.withFetchWord 64 word
    let s0 : State := { s with freeCtr := s.freeCtr + 1, agenda := [] }
    let s1 := s0.passTurns 0
    s.agenda = .issue 0 :: [] ∧ s.sec.bootFailed = false ∧ s0.seqOpen 0 = true ∧
      (match s0.candidates 0 with
      | .slot g :: _ => match s1.groups.find g with
        | some G => decide (s1.joining G = []) && G.pc % 8 == 0 &&
          (match s1.fetchPa (G.core / 2) (s1.recOf G.block).tenant (s1.recOf G.block).world G.pc with
          | (.ok pa, u) => u.icache.find (pa / 64) == some (u.memLine (pa / 64)) &&
            decodeBytes (u.bytes pa 8) == .iadd h (.v 4) (.v 6) (.imm 7)
          | _ => false)
        | none => false
      | _ => false) = true := by
  decide +kernel

/-- The value of a register of slot 0 after a step. -/
def stepReg (w n : Nat) : Option Word := match step (State.reset.withFetchWord 64 w) with
  | .next t => some ((t.thread 0).reg n)
  | _ => none
/-- R147 gives IADD the sum; every register is 0 at the entry of the block but v0.w, the argument 0 (R75). -/
theorem test_step_iadd : stepReg 0x1380C101BFC00007 4 = some 7 := by decide +kernel
theorem test_step_mov : stepReg 0x138041003FC20000 4 = some 0xFFFE0000 := by decide +kernel
/-- The same word as the host asks for it. -/
theorem test_table_word : decodeTableWord 64 0x138041003FC20000 = some (.mov h (.v 4) (.imm 0x20000)) := by decide +kernel

theorem test_hyp_FailedBringUpStays :
    let s : State := { State.reset with sec := { Sec.init with bootFailed := true }, agenda := [.tick 114] }
    s.sec.bootFailed = true ∧ (∀ m ∈ s.agenda, m = .tick 114) ∧ (match step s with
      | .next _ => true
      | _ => false) = true := by
  decide +kernel

theorem test_hyp_MemoryStaysCanonical :
    Memory.wf fetched.mem = true ∧ (match step fetched with
      | .next _ => true
      | _ => false) = true := by
  decide +kernel

/-! ## Words that the decoder reads and refuses -/

/-- Words that the manual works out (Table 3-5, the ends of chapters 5 to 13, Table 18-7). -/
def workedWords : List (DWord × Instr) :=
  [ (0x2380C10141800000, .iadd ⟨4, false, 7, none⟩ (.v 4) (.v 5) (.reg (.v 6))),
    (0xEE40211800850060, .pairWord 6 7 (.op .fadd (.v 8) (.reg (.v 70)) .rn) (.op .iadd (.v 20) (.imm 1) .rn)),
    (0x2380C1013FF7FFFD, .iadd ⟨4, false, 7, some ⟨true, 1⟩⟩ (.v 4) (.v 4) (.imm 0x3FFFD)),
    (0x03A2800000000000, .exit ⟨0, false, 7, none⟩),
    (0x00A000003FC3FFFD, .bra ⟨0, false, 1, none⟩ 0x3FFFD),
    (0x3390C2024280000B, .ffma ⟨6, false, 7, none⟩ .f32 .rn (.v 8) (.v 9) (.v 10) (.v 11)),
    (0x03C3C5013E000309, .ldcx ⟨0, false, 7, none⟩ .b64 false (.v 20) (.v 4) .zero (.v 9)),
    (0x03C0428101808B07, .cas ⟨0, false, 7, none⟩ .b32 .acq .dev (.v 10) (.v 4) (.v 6) (.v 7)),
    (0x03C0C00000002300, .fence ⟨0, false, 7, none⟩ .sc .dev),
    (0x03C100003FC00803, .bar ⟨0, false, 7, none⟩ (.imm 3 128)),
    (0x03D0004282C00200, .obres ⟨0, false, 7, none⟩ .c4e8 0 1 (.v 10) (.v 11)),
    (0x03D1018800000000, .mloop ⟨0, false, 7, none⟩ (.v 6) 32),
    (0x03E0C17CC0000000, .qcnt ⟨0, false, 7, none⟩ (.v 5) 3),
    (0x03F000003FC00005, .trap ⟨0, false, 7, none⟩ 5),
    (0x03F0800100000000, .tclr ⟨0, false, 7, none⟩ (.v 4)),
    (0x03F1020283000000, .tmask ⟨0, false, 7, none⟩ (.v 8) (.v 10) (.v 12)),
    (0x03D3004300000000, .keybind ⟨0, false, 7, none⟩ 1 (.v 12)),
    (0x03D1400180000000, .mwait ⟨0, false, 7, none⟩ (.v 6)),
    (0x03D2800083400000, .mout ⟨0, false, 7, none⟩ .bf16 0 0 (.v 2) (.v 13)),
    (0x03F0CC003FC00207, .trd ⟨0, false, 7, none⟩ (.v 48) (.imm 0x207)) ]
theorem test_decode_workedWords : ∀ p ∈ workedWords, decode p.1 = p.2 := by decide +kernel

/-- One ill-formed term for each check of WellFormed, and the reason that it refuses it with. -/
def illFormed : List (Instr × DecodeError) :=
  [ (.fadd h .f32 .rz (.v 8) (.v 9) (.imm 1), .unusedNonzero),
    (.fence h .rlx .dev, .reservedCode),
    (.iadd64 h (.v 5) (.v 6) (.reg (.v 8)), .oddRegister),
    (.mloop h (.q 0) 32, .queueRegister),
    (.iadd h (.v 4) (.q 3) (.reg (.q 3)), .queueTwice),
    (.pairWord 0 7 (.op .iadd (.v 20) (.imm 1) .rz) .nop, .unusedNonzero),
    (.pairWord 0 7 (.op .iadd (.v 20) (.imm 1) .rn) (.op .fadd (.v 20) (.reg (.v 70)) .rn), .pairRule 71),
    (.pairWord 0 7 (.op .iadd (.v 20) (.reg (.v 21)) .rn) (.op .fadd (.v 22) (.reg (.v 23)) .rn), .pairRule 24),
    (.pairWord 0 7 (.op .iadd (.v 20) (.reg (.q 1)) .rn) .nop, .pairRule 21) ]
theorem test_illFormed_refused : ∀ p ∈ illFormed, p.1.wfErr = some p.2 := by decide +kernel
theorem test_pairWord_wellFormed : Instr.WellFormed (.pairWord 6 7 (.op .fadd (.v 8) (.reg (.v 70)) .rn) (.op .iadd (.v 20) (.imm 1) .rn)) :=
  ⟨rfl, by decide +kernel⟩
theorem test_controlWords_wellFormed : ∀ p ∈ controlWords, p.2.isWord = true ∧ p.2.wfErr = none := by decide +kernel
/-- An event is not a word. -/
theorem test_event_refused : Instr.isWord .coldReset = false := rfl

/-- Words that are no instruction (R27, R28, R31, R32, R42, R43). -/
def illegalWords : List (DWord × DecodeError) :=
  [ (0x13FFC00000000000, .unassignedOpcode),
    (0x138041003E800000, .badRegister),
    (0x1380000000000001, .unusedNonzero),
    (0x1380C10181840000, .badHint),
    (0x8F00000000000000, .pairReserved) ]
theorem test_illegalWords : ∀ p ∈ illegalWords, decode p.1 = .illegalEncoding p.2 := by decide +kernel

/-! ## One step of single words, with values worked by hand from their entries -/

/-- What a word leaves in register `n` of slot 0, from v6 and v8. -/
def leaves (i : Instr) (a b : Word) (n : Nat) : Option Word :=
  match exec i (regs (([(6, a), (8, b)] : FMap Word).filter fun p => p.2 != 0)) with
  | .next t => some ((t.thread 0).reg n)
  | _ => none
theorem test_iadd_wraps : leaves (.iadd h (.v 4) (.v 6) (.reg (.v 8))) 0xFFFFFFFF 1 4 = some 0 := by decide +kernel
theorem test_iadds_saturates : leaves (.iadds h true (.v 4) (.v 6) (.reg (.v 8))) 0x7FFFFFFF 1 4 = some 0x7FFFFFFF := by decide +kernel
theorem test_isubs_saturates : leaves (.isubs h false (.v 4) (.v 6) (.reg (.v 8))) 3 5 4 = some 0 := by decide +kernel
theorem test_isub_order : leaves (.isub h (.v 4) (.v 6) (.reg (.v 8))) 3 5 4 = some 0xFFFFFFFE := by decide +kernel
theorem test_imulh_signed : leaves (.imulh h true (.v 4) (.v 6) (.reg (.v 8))) 0xFFFFFFFF 2 4 = some 0xFFFFFFFF := by decide +kernel
theorem test_imulh_unsigned : leaves (.imulh h false (.v 4) (.v 6) (.reg (.v 8))) 0xFFFFFFFF 2 4 = some 1 := by decide +kernel
theorem test_iadd64_carry : leaves (.iadd64 h (.v 4) (.v 6) (.reg (.v 8))) 0xFFFFFFFF 1 5 = some 1 := by decide +kernel
theorem test_fadd : leaves (.fadd h .f32 .rn (.v 4) (.v 6) (.reg (.v 8))) 0x3F800000 0x40000000 4 = some 0x40400000 := by decide +kernel
theorem test_fmul_h2 : leaves (.fmul h .h2 .rn (.v 4) (.v 6) (.reg (.v 8))) 0x3C004000 0x40003C00 4 = some 0x40004000 := by decide +kernel
theorem test_popc : leaves (.popc h (.v 4) (.v 6)) 0xF0F00001 0 4 = some 9 := by decide +kernel
theorem test_source_is_destination : leaves (.iadd h (.v 6) (.v 6) (.reg (.v 6))) 5 0 6 = some 10 := by decide +kernel

/-- The program counter of the group after a word. -/
def goesTo (i : Instr) : Option Nat := match exec i st with
  | .next t => (t.groups.find 2).map Group.pc
  | _ => none
/-- R110: a displacement counts words from the branch itself. -/
theorem test_bra_back : goesTo (.bra h 0x3FFFD) = some (65536 - 24) := by decide +kernel
theorem test_next_word : goesTo (.nop h) = some 65544 := by decide +kernel

end Tests
end Sys2Proof
end

-- ==== The memory stays canonical ====
section
/-!
The memory stays in its canonical form (log 1). A step is made of functions that give a new state;
the memory changes only in the operations whose rules stand in Laws (`State.setBytes_wf`,
`State.zeroBytes_wf`, `State.storePlace_wf` and the like). For every function `f` between those and
`step` there is one lemma `f_wf`, in the order of the model: it cites the lemmas of the functions
that `f` calls, along the branches of `f`. `exec_wf` collects the instructions and `step_wf` the
moves.
-/

namespace Sys2Proof
namespace Machine

variable {s : State}

/-! ## Groups, slots and bins

The rules of the operations that every part of the model uses, and what groups, slots, bins and joins do with them
(R101 to R117). -/

/-- The memory of a state is in its canonical form. A definition of its own, so that a goal about a long state speaks of the
state and not of its `mem` field. -/
def State.MemWf (s : State) : Prop := Memory.wf s.mem = true

/-- The states that an outcome goes on with have a canonical memory. -/
def OutcomeWf (o : Host.Outcome State Fault Refusal) : Prop := ∀ t, o = .next t → t.MemWf

theorem outcomeWf_next : OutcomeWf (.next s) ↔ s.MemWf :=
  ⟨fun h => h s rfl, fun h _ he => by cases he; exact h⟩

/-- A choice between two states keeps the canonical form if both do. -/
theorem ite_wf {c : Prop} [Decidable c] {t u : State} (ht : t.MemWf) (hu : u.MemWf) :
    (if c then t else u).MemWf := by
  split
  · exact ht
  · exact hu

/-- A fold of state changes keeps the canonical form if each change does. -/
theorem foldl_wf {α : Type} {f : State → α → State} {l : List α}
    (hf : ∀ {t : State} {a}, t.MemWf → (f t a).MemWf) (hs : s.MemWf) : (l.foldl f s).MemWf :=
  List.foldlRecOn l f (motive := State.MemWf) hs fun _ h _ _ => hf h

/-- A state taken out of a pair whose second part is known to be canonical. -/
theorem snd_wf_of_eq {α : Type} {x : α × State} {a : α} {t : State} (he : x = (a, t)) (h : x.2.MemWf) :
    t.MemWf := by
  rw [he] at h
  exact h

/-- The same for a triple. -/
theorem snd_snd_wf_of_eq {α β : Type} {x : α × β × State} {a : α} {b : β} {t : State}
    (he : x = (a, b, t)) (h : x.2.2.MemWf) : t.MemWf := by
  rw [he] at h
  exact h

theorem State.raiseQuarter_wf {t q} (hs : s.MemWf) : (s.raiseQuarter t q).MemWf := by
  rw [State.MemWf, State.raiseQuarter_mem]
  exact hs

theorem State.lowerQuarter_wf {t q off} (hs : s.MemWf) : (s.lowerQuarter t q off).MemWf := by
  rw [State.MemWf, State.lowerQuarter_mem]
  exact hs

theorem State.l1Store_wf {a hint v pa bs} (hs : s.MemWf) : (s.l1Store a hint v pa bs).MemWf := by
  rw [State.MemWf, State.l1Store_mem]
  exact hs

theorem State.modThread_wf {t f} (hs : s.MemWf) : (s.modThread t f).MemWf := hs

theorem State.setGroup_wf {g G} (hs : s.MemWf) : (s.setGroup g G).MemWf := hs

theorem State.modGroup_wf {g f} (hs : s.MemWf) : (s.modGroup g f).MemWf := hs

theorem State.delGroup_wf {g} (hs : s.MemWf) : (s.delGroup g).MemWf := hs

theorem State.modBlock_wf {b f} (hs : s.MemWf) : (s.modBlock b f).MemWf := hs

theorem State.modLaunch_wf {l f} (hs : s.MemWf) : (s.modLaunch l f).MemWf := hs

theorem State.modCtx_wf {t f} (hs : s.MemWf) : (s.modCtx t f).MemWf := hs

theorem State.fresh_wf (hs : s.MemWf) : s.fresh.MemWf := hs

theorem State.modThreads_wf {ts f} (hs : s.MemWf) : (s.modThreads ts f).MemWf := by
  unfold State.modThreads
  exact foldl_wf (fun h => h) hs

theorem State.modBside_wf {b core f} (hs : s.MemWf) : (s.modBside b core f).MemWf :=
  ite_wf (State.modBlock_wf hs) (State.modBlock_wf hs)

theorem State.takeSlot_wf {g} (hs : s.MemWf) : (s.takeSlot g).MemWf := by
  unfold State.takeSlot
  split
  · exact hs
  · extract_lets c
    split <;> exact State.setGroup_wf hs

theorem State.dropSlot_wf {g} (hs : s.MemWf) : (s.dropSlot g).MemWf :=
  hs

theorem State.beginWait_wf {g w} (hs : s.MemWf) : (s.beginWait g w).MemWf :=
  hs

theorem State.enrol_wf {ts g} (hs : s.MemWf) : (s.enrol ts g).MemWf :=
  State.modThreads_wf hs

theorem State.spawn_wf {G ts pc} (hs : s.MemWf) : (s.spawn G ts pc).MemWf :=
  State.takeSlot_wf (State.enrol_wf hs)

theorem State.binAdd_wf {k B G t} (hs : s.MemWf) : (s.binAdd k B G t).MemWf :=
  hs

theorem State.formBin_wf {k B asCandidate} (hs : s.MemWf) : (s.formBin k B asCandidate).MemWf :=
  State.enrol_wf hs

theorem State.fileThread_wf {G pc t} (hs : s.MemWf) : (s.fileThread G pc t).MemWf := by
  unfold State.fileThread
  extract_lets q all fits fresh opens
  split
  · exact State.binAdd_wf hs
  · split
    · exact State.binAdd_wf hs
    · split
      · exact State.binAdd_wf (State.formBin_wf hs)
      · exact hs

theorem State.disperse_wf {G moves} (hs : s.MemWf) : (s.disperse G moves).MemWf :=
  foldl_wf (fun ht => State.fileThread_wf ht) (foldl_wf (fun ht => State.spawn_wf ht) hs)

theorem State.regroup_wf {g G moves} (hs : s.MemWf) : (s.regroup g G moves).MemWf := by
  unfold State.regroup
  split
  · exact State.delGroup_wf hs
  · exact State.setGroup_wf hs
  · exact State.disperse_wf (State.delGroup_wf hs)

theorem State.endLaunch_wf {l status} (hs : s.MemWf) : (s.endLaunch l status).MemWf :=
  hs

theorem State.enterHandler_wf {g resumePc ts} (hs : s.MemWf) :
    (s.enterHandler g resumePc ts).MemWf := by
  unfold State.enterHandler
  split
  · exact hs
  · exact State.setGroup_wf (State.modThreads_wf hs)

theorem State.deliver_wf {g resumePc ts} (hs : s.MemWf) : (s.deliver g resumePc ts).MemWf := by
  unfold State.deliver
  split
  · exact hs
  · exact ite_wf (State.endLaunch_wf (State.modGroup_wf hs)) (ite_wf hs (State.enterHandler_wf hs))

theorem State.finish_wf {g G moves causes stopped} (hs : s.MemWf) :
    (s.finish g G moves causes stopped).MemWf :=
  ite_wf (State.regroup_wf hs) (State.deliver_wf (ite_wf (State.setGroup_wf hs) (State.disperse_wf
      (State.setGroup_wf hs))))

theorem State.resume_wf {g pc} (hs : s.MemWf) : (s.resume g pc).MemWf := by
  unfold State.resume
  split
  · exact hs
  · exact ite_wf (State.setGroup_wf hs) (State.takeSlot_wf (State.setGroup_wf hs))

theorem State.leave_wf {ts} (hs : s.MemWf) : (s.leave ts).MemWf :=
  hs

theorem State.gather_wf {ts pc} (hs : s.MemWf) : (s.gather ts pc).MemWf := by
  unfold State.gather
  extract_lets srcs g
  clear_value srcs g
  split
  · exact hs
  · exact State.modGroup_wf (State.spawn_wf (State.leave_wf hs))

theorem State.joinRelease_wf {seq recno} (hs : s.MemWf) : (s.joinRelease seq recno).MemWf :=
  State.gather_wf (foldl_wf (fun ht => State.gather_wf ht) (State.modThreads_wf hs))

theorem State.gpinRelease_wf {b core p} (hs : s.MemWf) : (s.gpinRelease b core p).MemWf :=
  State.gather_wf (State.modThreads_wf hs)

/-! ## Translation and the L1

Page-table walks, the checks of an address and the L1 of a core (R177 to R190). They read memory and
leave it as it is. -/

theorem State.enterCtx_wf {t tag} (hs : s.MemWf) : (s.enterCtx t tag).MemWf :=
  hs

theorem State.tlbAdd_wf {cluster tenant e pte} (hs : s.MemWf) :
    (s.tlbAdd cluster tenant e pte).MemWf :=
  hs

theorem State.entryFor_wf {cluster tenant world e} (hs : s.MemWf) :
    (s.entryFor cluster tenant world e).2.MemWf := by
  unfold State.entryFor
  split
  · exact hs
  · split
    · exact ite_wf (State.tlbAdd_wf hs) hs
    · exact hs

theorem State.sendFlit_wf {port} (hs : s.MemWf) : (s.sendFlit port).MemWf :=
  hs

theorem State.translate_wf {a need e} (hs : s.MemWf) : (s.translate a need e).2.MemWf := by
  unfold State.translate
  split
  next s1 he => exact snd_wf_of_eq he (State.entryFor_wf hs)
  next s1 he =>
    have hs1 : s1.MemWf := snd_wf_of_eq he (State.entryFor_wf hs)
    extract_lets pa
    split <;> exact hs1

/-- Only the translation of an address changes the state, by its TLB entry. -/
theorem State.resolve_wf {a need bad rg e n} (hs : s.MemWf) :
    (s.resolve a need bad rg e n).2.MemWf := by
  unfold State.resolve
  extract_lets fin scratch priv x o
  have hfin : ∀ r, r.2.MemWf → (fin r).2.MemWf := by
    intro r hr
    unfold fin
    split
    · split <;> exact hr
    · exact hr
  have hscratch : ∀ o, (scratch o).2.MemWf := by
    intro o
    unfold scratch
    split <;> exact hs
  have hpriv : ∀ o, (priv o).2.MemWf := by
    intro o
    unfold priv
    split
    · split
      · exact State.translate_wf hs
      · exact hs
    · exact hs
  clear_value fin scratch priv x o
  split
  · exact hs
  split
  · split
    · exact hs
    · exact hfin _ (hscratch _)
  · split
    · exact hs
    · exact hfin _ (hpriv _)
  · split
    · exact hs
    split
    · exact hfin _ (State.translate_wf hs)
    split
    · split
      · split
        · exact hfin _ hs
        · exact hs
      · exact hs
    split
    · exact hfin _ (hscratch _)
    · exact hfin _ (hpriv _)

theorem State.l1Touch_wf {l hint} (hs : s.MemWf) : (s.l1Touch l hint).MemWf :=
  hs

theorem State.l1Fill_wf {l hint} (hs : s.MemWf) : (s.l1Fill l hint).MemWf :=
  hs

theorem State.l1Drop_wf {p} (hs : s.MemWf) : (s.l1Drop p).MemWf :=
  hs

theorem State.l1DropTenant_wf {core tenant} (hs : s.MemWf) : (s.l1DropTenant core tenant).MemWf :=
  hs

theorem State.l1Sync_wf {a vaddr pa bs} (hs : s.MemWf) : (s.l1Sync a vaddr pa bs).MemWf :=
  hs

theorem State.loadPlace_wf {a hint vaddr p n} (hs : s.MemWf) :
    (s.loadPlace a hint vaddr p n).2.MemWf := by
  cases p with
  | spad core off => exact hs
  | mem pa ctx dev =>
    simp only [State.loadPlace]
    split
    · split
      · exact hs
      · split
        · exact State.l1Sync_wf hs
        · exact State.l1Fill_wf hs
    · exact State.sendFlit_wf hs
    · exact hs

theorem State.l1Hit_wf {a hint vaddr n r1 t} (hs : s.MemWf) (he : s.l1Hit a hint vaddr n = some (r1, t)) :
    t.MemWf := by
  unfold State.l1Hit at he
  split at he
  · cases he
  · split at he
    · cases he
      exact State.l1Touch_wf hs
    · cases he

theorem State.acquire_wf {core tenant sc} (hs : s.MemWf) : (s.acquire core tenant sc).MemWf :=
  ite_wf hs (State.l1DropTenant_wf hs)

theorem State.acquireGroup_wf {G sc} (hs : s.MemWf) : (s.acquireGroup G sc).MemWf :=
  State.acquire_wf hs

/-! ## The issue of a word

Operands, results and the frame of a word (`issue`, `event`, `aluWord`, `onceWord`): a word keeps
the canonical form if its own effect does. -/

/-- The states in the answer of `State.front` are canonical. -/
def Front.Wf : Front → Prop
  | .absent => True
  | .wait s | .stop s | .go _ s => s.MemWf

/-- The states in the answer of `State.meet` are canonical. -/
def Meet.Wf : Meet → Prop
  | .wait s | .act s | .take _ s => s.MemWf
  | .alone => True

theorem State.wakeFor_wf {i ts} (hs : s.MemWf) : (s.wakeFor i ts).MemWf :=
  foldl_wf (fun ht => foldl_wf (fun ht1 => State.raiseQuarter_wf ht1) ht) hs

theorem State.retire_wf {G ts} (hs : s.MemWf) : (s.retire G ts).MemWf :=
  ite_wf (State.modBside_wf (State.modThreads_wf hs)) (State.modThreads_wf hs)

theorem State.noteIssue_wf {G clk grants} (hs : s.MemWf) : (s.noteIssue G clk grants).MemWf :=
  hs

theorem State.front_wf {i h} (hs : s.MemWf) : Front.Wf (s.front i h) := by
  unfold State.front
  split
  · trivial
  split
  · trivial
  split
  · exact hs
  dsimp only
  refine iteInduction (fun _ => ?_) fun _ => iteInduction (fun _ => ?_) fun _ => ?_
  · exact State.finish_wf (State.retire_wf (State.noteIssue_wf hs))
  · exact State.wakeFor_wf hs
  split
  · refine iteInduction (motive := State.MemWf) (fun _ => ?_) fun _ => ?_
    · exact State.wakeFor_wf hs
    · exact State.beginWait_wf (State.wakeFor_wf hs)
  · exact State.wakeFor_wf hs
  · exact State.wakeFor_wf hs

theorem State.popQueues_wf {E} (hs : s.MemWf) : (s.popQueues E).MemWf := by
  unfold State.popQueues
  split
  · exact hs
  · exact State.modBside_wf hs

theorem State.pushQueue_wf {b core q xs} (hs : s.MemWf) : (s.pushQueue b core q xs).MemWf :=
  State.modBside_wf hs

theorem State.pushAll_wf {E outs} (hs : s.MemWf) : (s.pushAll E outs).MemWf := by
  refine foldl_wf (fun {t} {a} ht => foldl_wf (fun {t1} {a1} ht1 => ?_) ht) hs
  split
  · exact State.pushQueue_wf ht1
  · exact ht1

theorem State.writeFixed_wf {clk lat outs} (hs : s.MemWf) : (s.writeFixed clk lat outs).MemWf := by
  unfold State.writeFixed
  exact foldl_wf (fun h => h) hs

theorem State.writeTracked_wf {E lat isLoad outs drops} (hs : s.MemWf) :
    (s.writeTracked E lat isLoad outs drops).MemWf := by
  unfold State.writeTracked
  extract_lets ws x
  have hx : x.MemWf := State.fresh_wf hs
  exact ite_wf hs hx

theorem State.results_wf {b core origin isLoad outs} (hs : s.MemWf) :
    (s.results b core origin isLoad outs).MemWf := by
  unfold State.results
  extract_lets s1 ws x
  have hs1 : s1.MemWf := by
    unfold s1
    refine foldl_wf (fun {t} {a} ht => foldl_wf (fun {t1} {a1} ht1 => ?_) ht) hs
    split
    · exact State.pushQueue_wf ht1
    · exact ht1
  have hx : x.MemWf := State.fresh_wf hs1
  exact ite_wf hs1 hx

theorem State.applyHint_wf {h ts} (hs : s.MemWf) : (s.applyHint h ts).MemWf := by
  unfold State.applyHint
  split
  · exact hs
  · exact foldl_wf (fun ht => State.lowerQuarter_wf ht) hs

theorem Env.finish_wf {E causes moves busy gone} (hs : s.MemWf) :
    (Env.finish E s causes moves busy gone).MemWf := by
  unfold Env.finish
  extract_lets all stopped mv s1 at_ x G x1
  have hs1 : s1.MemWf := State.applyHint_wf (State.retire_wf (State.noteIssue_wf hs))
  have hx1 : x1.MemWf := State.finish_wf hs1
  exact hx1

theorem Env.await_wf {E causes w} (hs : s.MemWf) : (Env.await E s causes w).MemWf :=
  ite_wf (Env.finish_wf hs) (ite_wf (ite_wf (State.dropSlot_wf (State.setGroup_wf (Env.finish_wf
      hs))) (State.setGroup_wf (Env.finish_wf hs))) (ite_wf (State.beginWait_wf (State.spawn_wf
      (Env.finish_wf hs))) (State.modGroup_wf (State.spawn_wf (Env.finish_wf hs)))))

/-- The frame of every word: what is left to show is that the effect of the word keeps the canonical form. -/
theorem issue_wf {i h f} (hf : ∀ E t, t.MemWf → (f E t).MemWf) (hs : s.MemWf) :
    OutcomeWf (issue i h s f) := by
  have hfront := State.front_wf (i := i) (h := h) hs
  unfold issue
  revert hfront
  cases s.front i h with
  | absent => exact fun _ _ he => nomatch he
  | wait s1 => exact fun h1 => outcomeWf_next.2 h1
  | stop s1 => exact fun h1 => outcomeWf_next.2 h1
  | go E s1 => exact fun h1 => outcomeWf_next.2 (hf E s1 h1)

/-- The frame of every event: what is left to show is that the effect of the event keeps the canonical form. -/
theorem event_wf {c f} (hf : (f s).MemWf) (hs : s.MemWf) : OutcomeWf (event s c f) := by
  unfold event
  exact outcomeWf_next.2 (ite_wf hf hs)

theorem State.alu_wf {lat f E} (hs : s.MemWf) : (State.alu lat f E s).MemWf :=
  Env.finish_wf (State.pushAll_wf (State.writeFixed_wf (State.popQueues_wf hs)))

theorem aluWord_wf {i h lat f} (hs : s.MemWf) : OutcomeWf (aluWord i h lat s f) :=
  issue_wf (fun _ _ h => State.alu_wf h) hs

theorem State.tracked_wf {lat f E} (hs : s.MemWf) : (State.tracked lat f E s).MemWf :=
  Env.finish_wf (State.pushAll_wf (State.writeTracked_wf (State.popQueues_wf hs)))

theorem onceWord_wf {i h f} (hf : ∀ E t, t.MemWf → (f E t).MemWf) (hs : s.MemWf) :
    OutcomeWf (onceWord i h s f) :=
  issue_wf (fun E t h => Env.finish_wf (State.popQueues_wf (hf E t h))) hs

theorem State.keepValue_wf {b slot pc x} (hs : s.MemWf) : (s.keepValue b slot pc x).MemWf :=
  hs

theorem State.keepPlace_wf {b slot pc origin} (hs : s.MemWf) :
    (s.keepPlace b slot pc origin).MemWf :=
  hs

theorem State.fillPlace_wf {b slot origin x} (hs : s.MemWf) : (s.fillPlace b slot origin x).MemWf :=
  hs

theorem State.takeValue_wf {b slot} (hs : s.MemWf) : (s.takeValue b slot).MemWf :=
  hs

theorem State.shared_wf {tr lat f wr E} (hs : s.MemWf) : (State.shared tr lat f wr E s).MemWf := by
  unfold State.shared
  extract_lets b run good
  have hrun : ∀ g, (run g).MemWf := fun _ => ite_wf (State.tracked_wf hs) (State.alu_wf hs)
  exact ite_wf (hrun _) (ite_wf (ite_wf (foldl_wf (fun h => State.takeValue_wf h) (hrun _)) hs)
    (foldl_wf (fun h => State.keepValue_wf h) (hrun _)))

theorem State.post_wf {b core slot kind pc addr data extra size ctx undo} (hs : s.MemWf) :
    (s.post b core slot kind pc addr data extra size ctx undo).MemWf :=
  ite_wf hs (State.modBlock_wf hs)

theorem State.postBranch_wf {E moves} (hs : s.MemWf) : (s.postBranch E moves).MemWf := by
  unfold State.postBranch
  exact foldl_wf (fun h => State.post_wf h) hs

theorem Env.branch_wf {E causes moves} (hs : s.MemWf) : (Env.branch E s causes moves).MemWf :=
  Env.finish_wf (State.postBranch_wf hs)

theorem State.mark_wf {b slot pc x} (hs : s.MemWf) : (s.mark b slot pc x).MemWf :=
  ite_wf hs (State.modBlock_wf hs)

theorem State.unmark_wf {b slot} (hs : s.MemWf) : (s.unmark b slot).MemWf :=
  hs

theorem State.meet_wf {b core pc cmds} (hs : s.MemWf) : Meet.Wf (s.meet b core pc cmds) := by
  unfold State.meet
  split
  · trivial
  split
  · split
    · exact foldl_wf State.takeValue_wf hs
    · extract_lets posted
      simp only [Meet.Wf]
      split
      · exact hs
      · exact foldl_wf State.post_wf hs
  · extract_lets open_ facing s1
    have h1 : s1.MemWf := foldl_wf (fun h => State.post_wf (State.unmark_wf h)) hs
    split
    · split <;> exact h1
    · exact foldl_wf State.mark_wf hs

/-! ## Fetch addresses

The physical address of a fetch, and the lines of a range of addresses (R106, R117, R129). -/

theorem State.fetchPa_wf {cluster tenant world pc} (hs : s.MemWf) :
    (s.fetchPa cluster tenant world pc).2.MemWf := by
  unfold State.fetchPa
  split
  · exact hs
  · split
    next s1 he1 => exact snd_wf_of_eq he1 (State.entryFor_wf hs)
    next s1 he1 =>
      have hs1 : s1.MemWf := snd_wf_of_eq he1 (State.entryFor_wf hs)
      extract_lets pa
      split <;> exact hs1

theorem State.icacheAdd_wf {pline} (hs : s.MemWf) : (s.icacheAdd pline).MemWf := by
  unfold State.icacheAdd
  split <;> exact hs

theorem State.indirect_wf {t target land} (hs : s.MemWf) : (s.indirect t target land).2.MemWf := by
  unfold State.indirect
  extract_lets R
  split
  · exact hs
  · split
    · exact hs
    · split
      next s1 he2 => exact snd_wf_of_eq he2 (State.fetchPa_wf hs)
      next s1 he2 =>
        have hs1 : s1.MemWf := snd_wf_of_eq he2 (State.fetchPa_wf hs)
        split <;> exact hs1

theorem State.indirects_wf {land ts} (hs : s.MemWf) : (s.indirects land ts).2.2.MemWf := by
  induction ts generalizing s with
  | nil => exact hs
  | cons t r ih =>
    unfold State.indirects
    split
    next c s1 he =>
      have hs1 : s1.MemWf := snd_wf_of_eq he (State.indirect_wf hs)
      split <;> exact ih hs1

theorem State.rangeLines_wf {core tenant world any a b n} (hs : s.MemWf) :
    (s.rangeLines core tenant world any a b n).2.MemWf := by
  induction n generalizing s a with
  | zero => exact hs
  | succ n ih =>
    unfold State.rangeLines
    split
    · exact hs
    extract_lets here rest
    have hhere : here.2.MemWf := by
      unfold here
      split
      · split
        · exact hs
        · split
          next he => exact snd_wf_of_eq he (State.entryFor_wf hs)
          next he => exact snd_wf_of_eq he (State.entryFor_wf hs)
      · split
        next he => exact snd_wf_of_eq he (State.fetchPa_wf hs)
        next he => exact snd_wf_of_eq he (State.fetchPa_wf hs)
    exact ih hhere

theorem State.resolveLines_wf {a need bad e n} (hs : s.MemWf) :
    (s.resolveLines a need bad e n).2.MemWf := by
  induction n generalizing s e with
  | zero => exact hs
  | succ n ih =>
    unfold State.resolveLines
    split
    next he => exact snd_wf_of_eq he (State.resolve_wf hs)
    next p s1 he =>
      have hs1 : s1.MemWf := snd_wf_of_eq he (State.resolve_wf hs)
      split
      next he => exact snd_wf_of_eq he (ih hs1)
      next he => exact snd_wf_of_eq he (ih hs1)

/-! ## Checks and entries of the operand log

The checks of an access lane by lane, and how a word takes its log entry (R191 to R193). -/

theorem State.partCheck_wf {a p} (hs : s.MemWf) : (s.partCheck a p).2.MemWf := by
  unfold State.partCheck
  extract_lets a1 v hit at_
  split
  · split <;> exact hs
  · split
    next s1 he1 => exact snd_wf_of_eq he1 (State.resolve_wf hs)
    next s1 he1 => exact snd_wf_of_eq he1 (State.resolve_wf hs)

theorem State.partResult_wf {i t p} (hs : s.MemWf) : (s.partResult i t p).2.MemWf := by
  unfold State.partResult
  extract_lets at_
  split
  · exact hs
  · split
    next s1 he1 => exact snd_wf_of_eq he1 (State.partCheck_wf hs)
    next s1 he1 => exact snd_wf_of_eq he1 (State.partCheck_wf hs)

theorem State.partResults_wf {i t ps} (hs : s.MemWf) : (s.partResults i t ps).2.2.MemWf := by
  induction ps generalizing s with
  | nil => exact hs
  | cons p r ih =>
    unfold State.partResults
    split
    next x s1 he =>
      have hs1 : s1.MemWf := snd_wf_of_eq he (State.partResult_wf hs)
      split <;> exact ih hs1

theorem State.partsCheck_wf {i t ps} (hs : s.MemWf) : (s.partsCheck i t ps).2.MemWf :=
  State.partResults_wf hs

theorem State.laneCheck_wf {i l} (hs : s.MemWf) : (s.laneCheck i l).2.MemWf := by
  unfold State.laneCheck
  split
  · exact hs
  · exact State.partsCheck_wf hs

theorem State.lanesCheck_wf {i ls} (hs : s.MemWf) : (s.lanesCheck i ls).2.2.MemWf := by
  induction ls generalizing s with
  | nil => exact hs
  | cons l r ih =>
    unfold State.lanesCheck
    split
    next x s1 he =>
      have hs1 : s1.MemWf := snd_wf_of_eq he (State.laneCheck_wf hs)
      split
      · split <;> exact hs1
      · split <;> exact ih hs1

theorem State.logEntry_wf {E ls} (hs : s.MemWf) : (s.logEntry E ls).MemWf :=
  hs

theorem State.wakeSpots_wf {sps} (hs : s.MemWf) : (s.wakeSpots sps).MemWf := by
  refine foldl_wf (fun {t} {a} ht => ?_) hs
  split
  · exact ite_wf (State.setSpad_wf _ _ _ _ ht) ht
  · exact ht

theorem State.postLanes_wf {E ls item} (hs : s.MemWf) : (s.postLanes E ls item).1.MemWf := by
  unfold State.postLanes
  split
  · exact hs
  · exact List.foldlRecOn _ _ (motive := fun r : State × List LaneSrc => r.1.MemWf) hs
      fun _ h _ _ => State.post_wf h

theorem logWord_wf {i h src item} (hs : s.MemWf) : OutcomeWf (logWord i h s src item) := by
  refine issue_wf (fun E t ht => ?_) hs
  extract_lets ls r
  have hr : r.1.MemWf := by
    unfold r
    split
    · exact State.postLanes_wf ht
    · exact ht
  exact ite_wf ht (Env.finish_wf (ite_wf hr (State.logEntry_wf hr)))

theorem State.unbin_wf {ts} (hs : s.MemWf) : (s.unbin ts).MemWf := by
  refine foldl_wf (fun {t} {a} ht => ?_) hs
  split
  · split
    · exact State.takeSlot_wf (State.enrol_wf (State.setGroup_wf (State.fresh_wf (ite_wf ht ht))))
    · exact ht
  · exact ht

theorem State.lateCauses_wf {g pc cs} (hs : s.MemWf) : (s.lateCauses g pc cs).MemWf := by
  unfold State.lateCauses
  split
  · exact hs
  · extract_lets G1
    split
    · exact State.deliver_wf (State.setGroup_wf hs)
    · exact State.setGroup_wf hs
    · exact ite_wf (State.deliver_wf (State.setGroup_wf hs)) (State.setGroup_wf hs)
    · exact ite_wf (State.deliver_wf (State.setGroup_wf (State.modThreads_wf hs))) (ite_wf
          (State.deliver_wf (State.setGroup_wf hs)) (State.setGroup_wf hs))

theorem State.lateFaults_wf {pc cs} (hs : s.MemWf) : (s.lateFaults pc cs).MemWf :=
  foldl_wf (fun ht => State.lateCauses_wf ht) (State.unbin_wf hs)

theorem State.markFaulted_wf {id cs} (hs : s.MemWf) : (s.markFaulted id cs).MemWf :=
  hs

/-! ## Accesses to memory

Loads, stores, atomics and copies: every byte is written through `State.storePlace`, `State.writeNat` or `State.setBytes`. -/

theorem State.readSpots_wf {s0 : State} {a hint sps} (hs : s.MemWf) :
    (s0.readSpots s a hint sps).2.MemWf := by
  induction sps generalizing s with
  | nil => exact hs
  | cons sp r ih =>
    refine ih ?_
    split
    · dsimp only
      cases h : s.l1Hit a hint sp.vaddr sp.len with
      | none => exact hs
      | some x => exact State.l1Hit_wf hs h
    · exact State.loadPlace_wf hs

theorem State.expose_wf {tag} (hs : s.MemWf) : (s.expose tag).MemWf := by
  unfold State.expose
  exact foldl_wf (fun h => h) hs

theorem State.addDrain_wf {tenant n} (hs : s.MemWf) : (s.addDrain tenant n).MemWf :=
  ite_wf hs hs

theorem State.atomLink_wf {i a pa ctx port} (hs : s.MemWf) : (s.atomLink i a pa ctx port).2.MemWf :=
  hs

theorem State.atomDram_wf {i a l vaddr pa ctx} (hs : s.MemWf) :
    (s.atomDram i a l vaddr pa ctx).2.MemWf := by
  unfold State.atomDram
  extract_lets n tag old own s1
  have hs1 : s1.MemWf := by
    unfold s1
    split
    · exact State.addDrain_wf (State.l1Store_wf (State.writeLine_wf _ _ _ _ hs))
    · exact State.l1Sync_wf hs
  exact ite_wf (State.expose_wf hs1) hs1

theorem State.atomLane_wf {i a l sp} (hs : s.MemWf) : (s.atomLane i a l sp).2.MemWf := by
  unfold State.atomLane
  extract_lets n
  split
  · extract_lets old s1
    have hs1 : s1.MemWf := by
      unfold s1
      split
      · exact State.writeNat_wf _ _ _ _ hs
      · exact hs
    exact ite_wf (State.expose_wf hs1) hs1
  · split
    · exact State.atomLink_wf hs
    · exact State.atomDram_wf hs
  · exact hs

theorem State.deliverWrites_wf {e outs} (hs : s.MemWf) : (s.deliverWrites e outs).MemWf :=
  State.results_wf hs

theorem State.readLanes_wf {s0 : State} {e ls} (hs : s.MemWf) :
    (s0.readLanes s e ls).2.MemWf := by
  induction ls generalizing s with
  | nil => exact hs
  | cons l r ih =>
    obtain ⟨l, sps⟩ := l
    unfold State.readLanes
    extract_lets ctx x s1
    have hx : x.2.MemWf := State.readSpots_wf hs
    have hs1 : s1.MemWf := by
      unfold s1
      split
      · exact ite_wf hx (State.expose_wf hx)
      · exact hx
    split
    · exact hs1
    · exact ih hs1

theorem State.checkedStore_wf {b core l ctx pa bs put} (hput : (put s).MemWf) (hs : s.MemWf) :
    (s.checkedStore b core l ctx pa bs put).MemWf :=
  ite_wf (ite_wf (State.modBlock_wf hs) (State.modBlock_wf hs)) (ite_wf (State.modBlock_wf hput)
      (State.modBlock_wf hput))

theorem State.storeSpot_wf {b core hint l sp bs t} (hs : s.MemWf)
    (he : s.storeSpot b core hint l sp bs = some t) : t.MemWf := by
  unfold State.storeSpot at he
  split at he
  · cases he
    exact hs
  · cases he
    exact State.storePlace_wf _ _ _ _ _ _ hs
  · split at he
    · cases he
      exact hs
    · split at he
      · cases he
      · split at he
        · cases he
          exact State.checkedStore_wf (State.storePlace_wf _ _ _ _ _ _ hs) hs
        · cases he
          exact State.storePlace_wf _ _ _ _ _ _ hs

theorem State.storeLanes_wf {e ls} (hs : s.MemWf) : (s.storeLanes e ls).2.MemWf := by
  induction ls generalizing s with
  | nil => exact hs
  | cons l r ih =>
    obtain ⟨l, _ | ⟨sp, sps⟩⟩ := l
    · exact ih hs
    · simp only [State.storeLanes]
      split
      next h => exact ih (State.storeSpot_wf hs h)
      · exact ih hs

theorem State.addPending_wf {e ctx sps} (hs : s.MemWf) : (s.addPending e ctx sps).MemWf := by
  unfold State.addPending
  extract_lets core p x
  have hx : x.MemWf := State.fresh_wf hs
  exact ite_wf hs hx

theorem State.atomLanes_wf {e ls} (hs : s.MemWf) : (s.atomLanes e ls).2.2.MemWf := by
  induction ls generalizing s with
  | nil => exact hs
  | cons l r ih =>
    obtain ⟨l, _ | ⟨sp, sps⟩⟩ := l
    · exact ih hs
    · simp only [State.atomLanes]
      split
      · exact ih hs
      next old t he =>
        have ht : t.MemWf := by
          split at he
          · cases he; exact hs
          split at he
          · cases he; exact hs
          split at he
          · cases he; exact hs
          · split at he
            · cases he
            · exact snd_wf_of_eq (Option.some.inj he) (State.atomLane_wf hs)
          · exact snd_wf_of_eq (Option.some.inj he) (State.atomLane_wf hs)
        exact ih (ite_wf ht ht)

theorem State.takeTickets_wf {n} (hs : s.MemWf) : (s.takeTickets n).MemWf :=
  hs

theorem State.afterAtomic_wf {e n} (hs : s.MemWf) : (s.afterAtomic e n).MemWf :=
  ite_wf (State.acquire_wf (ite_wf (State.takeTickets_wf hs) hs)) (ite_wf (State.takeTickets_wf hs)
      hs)

theorem State.startCopies_wf {e tag oks} (hs : s.MemWf) : (s.startCopies e tag oks).MemWf := by
  refine foldl_wf (fun {t} {a} ht => ?_) hs
  split
  · extract_lets s1 c x1
    have hs1 : s1.MemWf := ite_wf (State.modThread_wf ht) ht
    have hx1 : x1.MemWf := State.fresh_wf hs1
    exact hx1
  · exact ht

theorem State.perform_wf {e oks} (hs : s.MemWf) : (s.perform e oks).2.MemWf := by
  unfold State.perform
  extract_lets ctx
  split
  · exact State.deliverWrites_wf (State.readLanes_wf hs)
  split
  · exact State.addPending_wf (State.storeLanes_wf hs)
  split
  · exact State.deliverWrites_wf (State.afterAtomic_wf (State.atomLanes_wf hs))
  split
  · exact State.startCopies_wf hs
  · exact hs

theorem State.endReplay_wf {g} (hs : s.MemWf) : (s.endReplay g).MemWf := by
  unfold State.endReplay
  split
  · exact hs
  · refine ite_wf hs ?_
    split
    · split
      · exact State.setGroup_wf hs
      · exact State.resume_wf hs
    · exact State.beginWait_wf (State.setGroup_wf hs)
    · exact hs

theorem State.endReplays_wf (hs : s.MemWf) : s.endReplays.MemWf := by
  unfold State.endReplays
  exact foldl_wf (fun h => State.endReplay_wf h) hs

theorem State.dropEntry_wf {id} (hs : s.MemWf) : (s.dropEntry id).MemWf :=
  State.endReplays_wf hs

theorem State.uncount_wf {e ts} (hs : s.MemWf) : (s.uncount e ts).MemWf := by
  unfold State.uncount
  split
  · exact ite_wf hs (State.modThreads_wf hs)
  · exact hs

theorem State.faultLanes_wf {id e cs} (hs : s.MemWf) : (s.faultLanes id e cs).MemWf :=
  State.endReplays_wf (State.lateFaults_wf (State.markFaulted_wf (State.uncount_wf hs)))

/-! ## Matrix words

Records, tiles, the steps of an MLOOP, and the words of the matrix unit (R286 to R301). -/

/-- The state that a matrix word goes on with is canonical. -/
def MatStep.Wf : MatStep → Prop
  | .go s => s.MemWf
  | _ => True

theorem MatStep.ite_wf {c : Prop} [Decidable c] {x y : MatStep} (hx : x.Wf) (hy : y.Wf) :
    (if c then x else y).Wf :=
  iteInduction (motive := MatStep.Wf) (fun _ => hx) fun _ => hy

theorem State.setTile_wf {core j l} (hs : s.MemWf) : (s.setTile core j l).MemWf :=
  State.setBytes_wf _ _ _ hs

theorem State.zeroTile_wf {core j} (hs : s.MemWf) : (s.zeroTile core j).MemWf :=
  State.zeroBytes_wf _ _ _ hs

theorem State.claimTile_wf {b core t} (hs : s.MemWf) : (s.claimTile b core t).MemWf :=
  ite_wf hs (State.modBside_wf (State.zeroTile_wf hs))

theorem State.spoilTile_wf {b core t} (hs : s.MemWf) : (s.spoilTile b core t).MemWf :=
  State.modBside_wf hs

theorem State.setRecord_wf {b core r R} (hs : s.MemWf) : (s.setRecord b core r R).MemWf :=
  State.modBside_wf hs

theorem State.zeroKeyed_wf {b core R} (hs : s.MemWf) : (s.zeroKeyed b core R).MemWf :=
  ite_wf (State.zeroOb_wf _ _ _ hs) hs

theorem State.dropRecord_wf {b core r} (hs : s.MemWf) : (s.dropRecord b core r).MemWf := by
  unfold State.dropRecord
  split
  · exact State.modBside_wf (State.zeroKeyed_wf hs)
  · exact hs

theorem State.fetchPart_wf {a ecc keyed e} (hs : s.MemWf) : (s.fetchPart a ecc keyed e).2.MemWf := by
  unfold State.fetchPart
  split
  · exact hs
  · split
    · exact hs
    · split
      next s1 he2 => exact snd_wf_of_eq he2 (State.entryFor_wf hs)
      next s1 he2 =>
        have hs1 : s1.MemWf := snd_wf_of_eq he2 (State.entryFor_wf hs)
        extract_lets pa
        split
        · split
          · exact hs1
          · split <;> exact hs1
        · split
          · exact hs1
          · split
            · exact hs1
            · split <;> exact hs1

theorem State.fetchParts_wf {a ecc key ps bs} (hs : s.MemWf) :
    (s.fetchParts a ecc key ps bs).2.MemWf := by
  induction ps generalizing s bs with
  | nil => exact hs
  | cons p r ih =>
    unfold State.fetchParts
    split
    next he => exact snd_wf_of_eq he (State.fetchPart_wf hs)
    next pa s1 he =>
      have hs1 : s1.MemWf := snd_wf_of_eq he (State.fetchPart_wf hs)
      split
      · exact hs1
      · exact ih hs1

theorem State.fetchUnit_wf {a ecc m key x i j} (hs : s.MemWf) :
    (s.fetchUnit a ecc m key x i j).2.MemWf :=
  State.fetchParts_wf hs

theorem State.fetchRows_wf {a ecc m keys need old step n us} (hs : s.MemWf) :
    (s.fetchRows a ecc m keys need old step n us).2.MemWf := by
  induction n generalizing s us with
  | zero => exact hs
  | succ n ih =>
    unfold State.fetchRows
    extract_lets r x
    split
    · split
      next he => exact ih (snd_wf_of_eq he (State.fetchUnit_wf hs))
      next he => exact snd_wf_of_eq he (State.fetchUnit_wf hs)
      next he => exact snd_wf_of_eq he (State.fetchUnit_wf hs)
    · exact ih hs

theorem State.runSteps_wf {a ecc keys n m need old tile} (hs : s.MemWf) :
    (s.runSteps a ecc keys n m need old tile).2.MemWf := by
  induction n generalizing s m need old tile with
  | zero => exact hs
  | succ n ih =>
    unfold State.runSteps
    split
    next he => exact snd_wf_of_eq he (State.fetchRows_wf hs)
    next he => exact snd_wf_of_eq he (State.fetchRows_wf hs)
    next he => exact ih (snd_wf_of_eq he (State.fetchRows_wf hs))

theorem State.runLoop_wf {core ecc b m x t} (hs : s.MemWf) (he : s.runLoop core ecc = some (b, m, x, t)) :
    t.MemWf := by
  obtain ⟨p, -, he⟩ := Option.map_eq_some_iff.1 he
  cases he
  exact State.runSteps_wf hs

theorem State.modLoop_wf {b core t f} (hs : s.MemWf) : (s.modLoop b core t f).MemWf :=
  State.modBside_wf hs

theorem State.loopMove_wf {core t} (hs : s.MemWf) (he : s.loopMove core = some t) : t.MemWf := by
  obtain ⟨p, -, he⟩ := Option.bind_eq_some_iff.1 he
  dsimp only at he
  split at he
  · cases he
  split at he
  · split at he
    · split at he
      next hu => cases he; exact State.modLoop_wf (snd_wf_of_eq hu (State.fetchUnit_wf hs))
      · cases he
    · cases he; exact State.modLoop_wf hs
  · cases he; exact State.modLoop_wf (State.setTile_wf hs)

theorem State.loopMoves_wf {core n} (hs : s.MemWf) : (s.loopMoves core n).MemWf := by
  induction n generalizing s with
  | zero => exact hs
  | succ n ih =>
    unfold State.loopMoves
    split
    next he => exact ih (State.loopMove_wf hs he)
    · exact hs

theorem State.loopsGo_wf (hs : s.MemWf) : s.loopsGo.MemWf :=
  foldl_wf (fun ht => ite_wf (State.loopMoves_wf ht) ht) hs

theorem State.refillLoops_wf {core} (hs : s.MemWf) : (s.refillLoops core).MemWf :=
  hs

theorem State.dequeueLoop_wf {b core t} (hs : s.MemWf) : (s.dequeueLoop b core t).MemWf :=
  hs

theorem State.dirtyLoop_wf {b core m} (hs : s.MemWf) : (s.dirtyLoop b core m).MemWf :=
  hs

theorem State.putResult_wf {b core m tile} (hs : s.MemWf) : (s.putResult b core m tile).MemWf :=
  State.setTile_wf hs

theorem execMloopStart_wf {core} (hs : s.MemWf) : OutcomeWf (execMloopStart core s) := by
  refine event_wf ?_ hs
  split
  · exact hs
  · exact ite_wf (State.refillLoops_wf (State.dequeueLoop_wf (State.modLoop_wf hs)))
        (State.modLoop_wf hs)

theorem execMloopEnd_wf {core} (hs : s.MemWf) : OutcomeWf (execMloopEnd core s) := by
  refine event_wf ?_ hs
  split
  next snd he =>
    have hsnd : snd.MemWf := State.runLoop_wf hs he
    exact State.refillLoops_wf (State.modLoop_wf (State.dequeueLoop_wf (State.putResult_wf
        (State.dirtyLoop_wf hsnd))))
  · exact hs

theorem State.stopLoop_wf {core ecc} (hs : s.MemWf) : (s.stopLoop core ecc).MemWf := by
  unfold State.stopLoop
  split
  next s1 he =>
    have hs1 : s1.MemWf := State.runLoop_wf hs he
    exact State.refillLoops_wf (State.modLoop_wf (State.dequeueLoop_wf (ite_wf (State.dirtyLoop_wf
        hs1) (State.putResult_wf (State.dirtyLoop_wf hs1)))))
  · exact hs

theorem execMloopFetchFault_wf {core} (hs : s.MemWf) : OutcomeWf (execMloopFetchFault core s) :=
  event_wf (State.stopLoop_wf hs) hs

theorem matWord_wf {i h shape f} (hf : ∀ E t l, t.MemWf → MatStep.Wf (f E t l)) (hs : s.MemWf) :
    OutcomeWf (matWord i h s shape f) := by
  refine issue_wf (fun E t ht => ?_) hs
  split
  · exact Env.finish_wf ht
  next l _ _ =>
  have hstep := hf E t l ht
  refine ite_wf (Env.finish_wf ht) (ite_wf (Env.finish_wf ht) (ite_wf (Env.finish_wf ht) ?_))
  split
  · exact ht
  · exact Env.finish_wf ht
  next he => rw [he] at hstep; exact Env.finish_wf hstep

theorem State.recordGate_wf {b core r go} (hgo : MatStep.Wf go) : MatStep.Wf (s.recordGate b core r go) := by
  unfold State.recordGate
  extract_lets ms
  split
  · exact trivial
  · split
    · exact trivial
    · exact hgo

theorem execObres_wf {h fmt len r a b} (hs : s.MemWf) : OutcomeWf (execObres h fmt len r a b s) := by
  refine matWord_wf (fun E t l ht => ?_) hs
  extract_lets blk core off size S
  split
  · exact trivial
  · exact State.setRecord_wf ht

theorem execObset_wf {h r b} (hs : s.MemWf) : OutcomeWf (execObset h r b s) := by
  refine matWord_wf (fun E t l ht => ?_) hs
  extract_lets x
  split
  · exact trivial
  · refine State.recordGate_wf ?_
    split
    · exact trivial
    · exact State.setRecord_wf ht

theorem execObfree_wf {h r} (hs : s.MemWf) : OutcomeWf (execObfree h r s) := by
  refine matWord_wf (fun E t l ht => ?_) hs
  split
  · exact ht
  · exact State.recordGate_wf (State.dropRecord_wf ht)

theorem execCbld_wf {h r cb} (hs : s.MemWf) : OutcomeWf (execCbld h r cb s) := by
  refine matWord_wf (fun E t l ht => ?_) hs
  extract_lets v
  split
  · exact trivial
  · refine State.recordGate_wf ?_
    split
    · exact trivial
    · exact State.setRecord_wf ht

theorem execKeybind_wf {h r a} (hs : s.MemWf) : OutcomeWf (execKeybind h r a s) := by
  refine matWord_wf (fun E t l ht => ?_) hs
  extract_lets b x slot bind provisioned
  split
  · exact trivial
  · split
    · exact trivial
    · exact State.recordGate_wf (ite_wf (State.setRecord_wf ht) (State.setRecord_wf
          (State.zeroKeyed_wf ht)))

theorem execMloop_wf {h d desc} (hs : s.MemWf) : OutcomeWf (execMloop h d desc s) := by
  refine matWord_wf (fun E t l ht => ?_) hs
  extract_lets b core v dw S tok m0 m q s2 s3
  have hs2 : s2.MemWf := State.modBside_wf (State.claimTile_wf ht)
  have hs3 : s3.MemWf := hs2
  split
  · exact trivial
  · split
    · exact trivial
    · exact State.writeTracked_wf (State.fresh_wf hs3)

theorem execMwait_wf {h a} (hs : s.MemWf) : OutcomeWf (execMwait h a s) := by
  refine issue_wf (fun E t ht => ?_) hs
  extract_lets b core q key
  split
  · exact Env.finish_wf ht
  · refine ite_wf (Env.finish_wf ht) ?_
    extract_lets t1 age cov
    split
    · exact Env.finish_wf (State.modLoop_wf ht)
    · split
      · refine ite_wf ht ?_
        extract_lets s2
        have hs2 : s2.MemWf := State.modLoop_wf ht
        exact hs2
      · exact ite_wf ht (Env.finish_wf (State.modBside_wf ht))

theorem execMprog_wf {h d a} (hs : s.MemWf) : OutcomeWf (execMprog h d a s) :=
  issue_wf (fun _ _ h => State.shared_wf h) hs

theorem execMzero_wf {h t} (hs : s.MemWf) : OutcomeWf (execMzero h t s) := by
  refine matWord_wf (fun E t1 l ht => ?_) hs
  extract_lets b core
  split
  · exact trivial
  · split
    · exact trivial
    · exact State.spoilTile_wf (State.zeroTile_wf (State.claimTile_wf ht))

theorem execMrd_wf {h d t b} (hs : s.MemWf) : OutcomeWf (execMrd h d t b s) :=
  issue_wf (fun _ _ ht => ite_wf (Env.finish_wf ht) (ite_wf (Env.finish_wf ht) (ite_wf ht
      (State.tracked_wf (State.claimTile_wf ht))))) hs

theorem State.postRows_wf {E l} (hs : s.MemWf) : (s.postRows E l).MemWf :=
  foldl_wf State.post_wf hs

theorem tileWord_wf {i h t a b r al st} (hs : s.MemWf) : OutcomeWf (tileWord i h t a b r al st s) := by
  refine matWord_wf (fun E t1 l ht => ?_) hs
  extract_lets blk core v base stride R side cb words data n x lane ls
  clear_value blk core base stride R lane ls
  have hgo : MatStep.Wf (.go ((if st then t1.postRows E (lane l) else t1).logEntry E ls)) :=
    State.logEntry_wf (ite_wf (State.postRows_wf ht) ht)
  exact MatStep.ite_wf trivial <| MatStep.ite_wf trivial <| MatStep.ite_wf trivial <|
    MatStep.ite_wf trivial <| MatStep.ite_wf trivial <| MatStep.ite_wf trivial hgo

theorem State.storePieces_wf {b core l ps t} (hs : s.MemWf) (he : s.storePieces b core l ps = some t) :
    t.MemWf := by
  induction ps generalizing s with
  | nil => cases he; exact hs
  | cons p r ih =>
    unfold State.storePieces at he
    split at he
    next hp => exact ih (State.storeSpot_wf hs hp) he
    · cases he

theorem State.storeRows_wf {e l sps t} (hs : s.MemWf) (he : s.storeRows e l sps = some t) : t.MemWf :=
  State.storePieces_wf hs he

theorem State.performTile_wf {e l sps} (hs : s.MemWf) : (s.performTile e l sps).2.MemWf := by
  have hclaim : (((tileNamed e.instr).map (s.claimTile e.block (e.seq / 4))).getD s).MemWf := by
    cases tileNamed e.instr with
    | none => exact hs
    | some t => exact State.claimTile_wf hs
  unfold State.performTile
  extract_lets b core u
  split
  · exact State.spoilTile_wf (foldl_wf (State.setBytes_wf _ _ _) (State.readSpots_wf hclaim))
  · split
    next h => exact State.addPending_wf (State.storeRows_wf hclaim h)
    · exact hclaim

/-! ## Launches and event counters

The words that append a record to a ring or signal a counter (R92 to R97). -/

theorem State.noteCounters_wf (hs : s.MemWf) : s.noteCounters.MemWf :=
  hs

theorem State.addCounter_wf {n v} (hs : s.MemWf) : (s.addCounter n v).MemWf :=
  hs

theorem State.modSq_wf {q f} (hs : s.MemWf) : (s.modSq q f).MemWf :=
  hs

theorem State.modSq_submits_wf {q f m} (hs : s.MemWf) :
    ({ s.modSq q f with submits := m } : State).MemWf :=
  hs

theorem State.ringAppend_wf {q rec_ tenant world tier} (hs : s.MemWf) :
    (s.ringAppend q rec_ tenant world tier).MemWf :=
  State.modSq_submits_wf (ite_wf (State.setBytes_wf _ _ _ hs) hs)

theorem State.hold_wf {tag w} (hs : s.MemWf) : (s.hold tag w).MemWf :=
  hs

theorem State.launchRead_wf {t a} (hs : s.MemWf) : (s.launchRead t a).2.MemWf := by
  unfold State.launchRead
  extract_lets T acc bad
  split
  · exact hs
  · split
    next s2 he1 => exact snd_wf_of_eq he1 (State.resolveLines_wf hs)
    next s2 he1 => exact snd_wf_of_eq he1 (State.resolveLines_wf hs)

theorem State.launchReads_wf {ts} (hs : s.MemWf) : (s.launchReads ts).2.2.MemWf := by
  induction ts generalizing s with
  | nil => exact hs
  | cons t r ih =>
    unfold State.launchReads
    split
    next x s1 he =>
      have hs1 : s1.MemWf := snd_wf_of_eq he (State.launchRead_wf hs)
      split <;> exact ih hs1

theorem State.launchLane_wf {b t q w} (hs : s.MemWf) : (s.launchLane b t q w).2.MemWf := by
  unfold State.launchLane
  extract_lets ctx R part
  split
  · exact State.hold_wf hs
  split
  · exact hs
  split
  · exact hs
  · exact State.ringAppend_wf hs

theorem State.launchLanes_wf {b qOf ts} (hs : s.MemWf) : (s.launchLanes b qOf ts).2.MemWf := by
  induction ts generalizing s with
  | nil => exact hs
  | cons t r ih => exact ih (State.launchLane_wf hs)

theorem execLaunch_wf {h d a b} (hs : s.MemWf) : OutcomeWf (execLaunch h d a b s) := by
  refine issue_wf (fun E t ht => ?_) hs
  have hread := State.launchReads_wf (ts := E.act.map fun u => (u, ((E.lv t u).r64 a).toNat)) ht
  extract_lets blk qOf
  split
  next cs ok u hu =>
  rw [hu] at hread
  split
  · exact ht
  extract_lets done
  have hdone : ∀ v vals, v.MemWf → (done v vals).MemWf := fun v vals hv =>
    Env.finish_wf (State.pushAll_wf (State.writeTracked_wf (State.popQueues_wf hv)))
  have hmeet := State.meet_wf (b := blk) (core := E.G.core) (pc := E.G.pc)
    (cmds := ok.map fun o => (o.1, leNat (bytesOf o.2) * 2 ^ 32 + qOf o.1)) hread
  split
  next he => rw [he] at hmeet; exact hmeet
  next he => rw [he] at hmeet; exact hdone _ _ hmeet
  · exact hdone _ _ (State.launchLanes_wf hread)
  next he =>
    rw [he] at hmeet
    exact hdone _ _ (foldl_wf (fun h => State.keepValue_wf h) (State.launchLanes_wf hmeet))

theorem execEvwait_wf {h sc d a b} (hs : s.MemWf) : OutcomeWf (execEvwait h sc d a b s) :=
  issue_wf (fun _ _ ht => ite_wf (Env.finish_wf (State.popQueues_wf ht)) (State.noteCounters_wf
      (Env.await_wf (State.popQueues_wf ht)))) hs

theorem execEvsig_wf {h sc a b} (hs : s.MemWf) : OutcomeWf (execEvsig h sc a b s) := by
  refine issue_wf (fun E t ht => ?_) hs
  extract_lets blk priv ok1 bad ok vals act done
  have hact : ∀ v, v.MemWf → (act v).MemWf := fun v =>
    foldl_wf fun h => by
      dsimp only
      split
      · exact State.hold_wf h
      · exact State.addCounter_wf h
  have hdone : ∀ v, v.MemWf → (done v).MemWf := fun v hv =>
    Env.finish_wf (State.popQueues_wf hv)
  split
  · exact ht
  have hmeet := State.meet_wf (b := blk) (core := E.G.core) (pc := E.G.pc)
    (cmds := vals.map fun v => (v.1, v.2.1 + v.2.2.toNat * 2 ^ 32)) ht
  split
  next he => rw [he] at hmeet; exact hmeet
  next he => rw [he] at hmeet; exact hdone _ hmeet
  · exact hdone _ (hact _ ht)
  next he => rw [he] at hmeet; exact hdone _ (foldl_wf (fun h => State.keepValue_wf h) (hact _ hmeet))

theorem execEventCounterHostAdd_wf {n v} (hs : s.MemWf) :
    OutcomeWf (execEventCounterHostAdd n v s) :=
  event_wf hs hs

theorem execEvwaitMet_wf {group} (hs : s.MemWf) : OutcomeWf (execEvwaitMet group s) := by
  refine event_wf ?_ hs
  split
  · exact hs
  · split
    · exact ite_wf (State.finish_wf (State.setGroup_wf (State.modThreads_wf hs))) (State.resume_wf
          (State.results_wf (State.acquireGroup_wf hs)))
    · exact hs

/-! ## Engines

Engine commands: their elements, their ranges, their receipts and PUSH (R265 to R280). An
element step keeps the state only where it goes on. -/

/-- The state after an element that has been done is canonical. -/
def ElemStep.Wf : ElemStep → Prop
  | .ok s _ => s.MemWf
  | .halt _ _ => True

theorem State.setEngQ_wf {inst l} (hs : s.MemWf) : (s.setEngQ inst l).MemWf :=
  hs

theorem State.modCmd_wf {id f} (hs : s.MemWf) : (s.modCmd id f).MemWf :=
  hs

theorem State.modQueues_wf {b q f} (hs : s.MemWf) : (s.modQueues b q f).MemWf := by
  unfold State.modQueues
  exact foldl_wf (fun h => State.modBside_wf h) hs

theorem State.popLead_wf {b q} (hs : s.MemWf) : (s.popLead b q).MemWf :=
  State.modQueues_wf hs

theorem State.enqueueCmd_wf {c t} (hs : s.MemWf) (he : s.enqueueCmd c = some t) : t.MemWf := by
  unfold State.enqueueCmd at he
  split at he
  · cases he
  · split at he
    · split at he
      · cases he
        exact State.setEngQ_wf hs
      · cases he
        exact State.modQueues_wf (State.setEngQ_wf hs)
    · cases he

theorem State.engFlit_wf {pa} (hs : s.MemWf) : (s.engFlit pa).MemWf := by
  unfold State.engFlit
  split
  · exact State.sendFlit_wf hs
  · exact hs

theorem State.engWrite_wf {c pa bs} (hs : s.MemWf) : (s.engWrite c pa bs).MemWf := by
  unfold State.engWrite
  split
  · exact State.addDrain_wf (State.writeLine_wf _ _ _ _ hs)
  · exact State.mapWrite_wf _ _ _ _ hs
  · exact State.engFlit_wf hs

theorem State.wakeAt_wf {pa} (hs : s.MemWf) : (s.wakeAt pa).MemWf :=
  State.wakeSpots_wf hs

theorem State.pushOutcome_wf {entry t ok} (hs : s.MemWf) : (s.pushOutcome entry t ok).MemWf := by
  unfold State.pushOutcome
  split
  · exact hs
  · extract_lets n core s1 it s2 rest q
    have hs1 : s1.MemWf := State.results_wf hs
    have hs2 : s2.MemWf := ite_wf (State.modBlock_wf hs1) hs1
    exact ite_wf (State.dropEntry_wf hs2) hs2

theorem State.pushFault_wf {entry c} (hs : s.MemWf) : (s.pushFault entry c).MemWf := by
  unfold State.pushFault
  split
  · exact hs
  · extract_lets rest n it s1 id2 q mine e1 e2 x1
    have hs1 : s1.MemWf := ite_wf (State.modBlock_wf hs) hs
    have hx1 : x1.MemWf := State.fresh_wf hs1
    exact ite_wf (State.faultLanes_wf hs1) (State.faultLanes_wf hx1)

theorem State.cancelCmds_wf {p} (hs : s.MemWf) : (s.cancelCmds p).MemWf := by
  unfold State.cancelCmds
  extract_lets live
  refine foldl_wf (fun {t} {a} ht => ?_) hs
  extract_lets s1
  have hs1 : s1.MemWf := ite_wf ht (State.pushOutcome_wf ht)
  refine ite_wf (State.modCmd_wf hs1) ?_
  split
  · exact State.modCmd_wf hs1
  · exact hs1

theorem execPush_wf {h pd kind cmd} (hs : s.MemWf) : OutcomeWf (execPush h pd kind cmd s) :=
  issue_wf (fun _ _ ht => Env.finish_wf (ite_wf (State.postLanes_wf ht) (State.logEntry_wf
      (State.postLanes_wf ht)))) hs

theorem State.pushLanes_wf {id e kind ls} (hs : s.MemWf) : (s.pushLanes id e kind ls).MemWf := by
  induction ls generalizing s with
  | nil => exact hs
  | cons l r ih =>
    have hfresh : s.fresh.MemWf := hs
    refine ih (ite_wf (State.pushOutcome_wf (State.hold_wf hfresh)) ?_)
    split
    · exact State.pushOutcome_wf hs
    next t ht =>
      have hnew : t.MemWf := State.enqueueCmd_wf hfresh ht
      have hadj : ∀ m, ({ t with opLog := m } : State).MemWf := fun _ => hnew
      exact ite_wf (State.cancelCmds_wf (hadj _)) (hadj _)

theorem State.pushTake_wf {id e ls} (hs : s.MemWf) : (s.pushTake id e ls).MemWf := by
  induction ls generalizing s with
  | nil => exact hs
  | cons l r ih =>
    unfold State.pushTake
    extract_lets slot hit
    split
    · exact ih hs
    · exact ih (ite_wf (State.pushOutcome_wf (State.modBlock_wf hs)) (State.pushFault_wf (State.modBlock_wf
          hs)))

theorem State.pushGo_wf {id e kind} (hs : s.MemWf) : (s.pushGo id e kind).MemWf :=
  ite_wf (State.pushTake_wf hs) (State.pushLanes_wf hs)

theorem execQbind_wf {h q b} (hs : s.MemWf) : OutcomeWf (execQbind h q b s) :=
  issue_wf (fun _ _ ht => ite_wf (Env.finish_wf ht) (ite_wf (Env.finish_wf ht) (Env.finish_wf
      (State.modBside_wf ht)))) hs

theorem execQpeek_wf {h d q b} (hs : s.MemWf) : OutcomeWf (execQpeek h d q b s) :=
  issue_wf (fun _ _ h => State.shared_wf h) hs

theorem execQcnt_wf {h d q} (hs : s.MemWf) : OutcomeWf (execQcnt h d q s) :=
  issue_wf (fun _ _ h => State.shared_wf h) hs

theorem execQdrain_wf {h d q} (hs : s.MemWf) : OutcomeWf (execQdrain h d q s) :=
  issue_wf (fun _ _ ht => ite_wf (Env.finish_wf ht) (ite_wf (Env.finish_wf ht) (ite_wf ht
      (State.tracked_wf (State.modBside_wf ht))))) hs

theorem execQueueReadResume_wf {group} (hs : s.MemWf) : OutcomeWf (execQueueReadResume group s) := by
  refine event_wf ?_ hs
  split
  · exact State.resume_wf hs
  · exact hs

theorem State.l1DropRuns_wf {runs} (hs : s.MemWf) : (s.l1DropRuns runs).MemWf :=
  hs

theorem State.accept_wf {inst c} (hs : s.MemWf) : (s.accept inst c).MemWf := by
  unfold State.accept
  split
  · exact ite_wf (State.l1DropRuns_wf (State.modCmd_wf (State.fresh_wf hs))) (State.pushOutcome_wf
        (State.l1DropRuns_wf (State.modCmd_wf (State.fresh_wf hs))))
  · extract_lets gone s1
    have hgone : gone.MemWf := hs
    have hs1 : s1.MemWf := ite_wf hgone (State.modQueues_wf hgone)
    refine ite_wf ?_ (State.pushFault_wf hs1)
    split
    · exact State.endLaunch_wf hgone
    · exact State.modCmd_wf hs

theorem execEngineAccept_wf {inst} (hs : s.MemWf) : OutcomeWf (execEngineAccept inst s) := by
  refine event_wf ?_ hs
  split
  · exact State.accept_wf hs
  · exact hs

theorem State.postReceipt_wf {c r} (hs : s.MemWf) : (s.postReceipt c r).MemWf :=
  ite_wf (State.l1DropRuns_wf (State.engWrite_wf hs)) (ite_wf hs (State.modQueues_wf hs))

theorem execReceiptPost_wf {inst} (hs : s.MemWf) : OutcomeWf (execReceiptPost inst s) := by
  refine event_wf ?_ hs
  split
  · split
    · exact ite_wf (State.wakeAt_wf hs) (State.postReceipt_wf (State.setEngQ_wf hs))
    · exact hs
  · exact hs

theorem State.elemRead_wf {c devOk side e n f} (hf : ∀ t bs, t.MemWf → ElemStep.Wf (f t bs))
    (hs : s.MemWf) : ElemStep.Wf (s.elemRead c devOk side e n f) := by
  unfold State.elemRead
  split
  · trivial
  split
  · trivial
  split
  · trivial
  · exact hf _ _ (State.engFlit_wf hs)

theorem State.elemWrite_wf {c side e bs f} (hf : ∀ t, t.MemWf → ElemStep.Wf (f t)) (hs : s.MemWf) :
    ElemStep.Wf (s.elemWrite c side e bs f) := by
  unfold State.elemWrite
  split
  · trivial
  split
  · trivial
  split
  · trivial
  · exact hf _ (State.engWrite_wf hs)

theorem State.haltedAt_wf {t} (hs : s.MemWf) : (s.haltedAt t).MemWf :=
  hs

theorem State.cgsElem_wf {c} (hs : s.MemWf) : ElemStep.Wf (s.cgsElem c) := by
  unfold State.cgsElem
  extract_lets ds op z k lim devOk put source e indexed q
  have hput : ∀ t j bs, t.MemWf → ElemStep.Wf (put t j bs) := fun t j bs =>
    State.elemWrite_wf fun u hu => hu
  have hsource : ∀ t j k, t.MemWf → ElemStep.Wf (source t j k) := fun t j k =>
    State.elemRead_wf fun u bs hu => hput u k bs hu
  have hindexed : ∀ f, (∀ t x, t.MemWf → ElemStep.Wf (f t x)) → ElemStep.Wf (indexed f) := fun f hf =>
    State.elemRead_wf (fun u bs hu => iteInduction (fun _ => trivial) fun _ => hf _ _ hu) hs
  split
  · exact hsource _ _ _ hs
  split
  · exact hindexed _ fun t x => hsource t x k
  split
  · exact hindexed _ fun t x => hsource t k x
  split
  · exact hput _ _ _ hs
  split
  · trivial
  · exact hput _ _ _ (State.popLead_wf hs)

theorem State.readSlots_wf {c ps acc f} (hf : ∀ t l, t.MemWf → ElemStep.Wf (f t l)) (hs : s.MemWf) :
    ElemStep.Wf (s.readSlots c ps acc f) := by
  induction ps generalizing s acc with
  | nil => exact hf _ _ hs
  | cons p r ih => exact State.elemRead_wf (fun t bs ht => ih ht) hs

theorem State.voxElem_wf {c} (hs : s.MemWf) : ElemStep.Wf (s.voxElem c) := by
  unfold State.voxElem
  extract_lets ds j res key q
  have hres : ∀ t c r, t.MemWf → ElemStep.Wf (res t c r) := fun t c r =>
    State.elemWrite_wf fun u hu => hu
  have hkey : ∀ t x, t.MemWf → ElemStep.Wf (key t x) := by
    intro t x ht
    simp only [key]
    split
    · exact hres _ _ _ ht
    refine State.readSlots_wf (fun u slots hu => ?_) ht
    split
    · exact hres _ _ _ hu
    split
    · split
      · exact State.elemWrite_wf (fun v hv => hres _ _ _ hv) hu
      · exact hres _ _ _ hu
    · exact hres _ _ _ hu
  split
  · split
    · trivial
    · exact hkey _ _ (State.popLead_wf hs)
  · exact State.elemRead_wf (fun t bs ht => hkey _ _ ht) hs

theorem State.runElems_wf {elem fin last n c} (helem : ∀ t c, t.MemWf → ElemStep.Wf (elem t c))
    (hs : s.MemWf) : (State.runElems elem fin last n s c).1.MemWf := by
  induction n generalizing s c with
  | zero => exact hs
  | succ n ih =>
    have h := helem s c hs
    simp only [State.runElems]
    split
    · exact hs
    split
    next he => rw [he] at h; exact ih h
    · exact State.haltedAt_wf hs

theorem State.readRange_wf {c side e len n t bs} (hs : s.MemWf)
    (he : s.readRange c side e len n = .ok (t, bs)) : t.MemWf := by
  induction n generalizing s e len t bs with
  | zero => cases he; exact hs
  | succ n ih =>
    unfold State.readRange at he
    split at he
    · cases he; exact hs
    dsimp only at he
    split at he
    · cases he
    split at he
    · cases he
    split at he
    · cases he
    split at he
    · cases he
    next hr => cases he; exact ih (State.engFlit_wf hs) hr

theorem State.writeRange_wf {c side e bs n t} (hs : s.MemWf) (he : s.writeRange c side e bs n = .ok t) :
    t.MemWf := by
  induction n generalizing s e bs with
  | zero => cases he; exact hs
  | succ n ih =>
    have h := State.elemWrite_wf (c := c) (side := side) (e := e) (bs := bs.take (64 - e % 64))
      (f := fun s => .ok s c) (fun _ h => h) hs
    simp only [State.writeRange] at he
    split at he
    · cases he; exact hs
    split at he
    next hw => rw [hw] at h; exact ih h he
    · cases he

theorem State.finishRange_wf {c x} (hx : ∀ t, x = .ok t → t.MemWf) (hs : s.MemWf) :
    (s.finishRange c x).1.MemWf := by
  cases x with
  | ok t => exact hx t rfl
  | error p => exact State.haltedAt_wf hs

theorem exists_of_bind_eq_ok {ε α β : Type} {x : Except ε α} {f : α → Except ε β} {b : β}
    (h : x.bind f = .ok b) : ∃ a, x = .ok a ∧ f a = .ok b := by
  cases x with
  | error e => cases h
  | ok a => exact ⟨a, rfl, h⟩

theorem exists_of_map_eq_ok {ε α β : Type} {x : Except ε α} {f : α → β} {b : β}
    (h : x.map f = .ok b) : ∃ a, x = .ok a ∧ f a = b := by
  cases x with
  | error e => cases h
  | ok a => exact ⟨a, rfl, Except.ok.inj h⟩

theorem State.sortWork_wf {c} (hs : s.MemWf) : (s.sortWork c).1.MemWf := by
  unfold State.sortWork
  extract_lets ds n na kw pieces keys vals less
  have hvals : ∀ {u v bs}, u.MemWf → vals u = .ok (v, bs) → v.MemWf := by
    intro u v bs hu hv
    unfold vals at hv
    split at hv
    · exact State.readRange_wf hu hv
    · cases hv; exact hu
  split
  · exact State.finishRange_wf (fun t ht => nomatch ht) hs
  next t kb vb he =>
  have ht : t.MemWf := by
    obtain ⟨⟨u, kb'⟩, hk, he⟩ := exists_of_bind_eq_ok he
    obtain ⟨⟨v, vb'⟩, hv, he⟩ := exists_of_map_eq_ok he
    cases he
    exact hvals (State.readRange_wf hs hk) hv
  extract_lets ps a b out s0 r1 r2 r3
  have h1 : ∀ u, r1 = .ok u → u.MemWf := fun u hu => State.writeRange_wf (s := s0) ht hu
  clear_value r1
  have h2 : ∀ u, r2 = .ok u → u.MemWf := by
    intro u hu
    unfold r2 at hu
    split at hu
    · split at hu
      · exact State.writeRange_wf (h1 _ rfl) hu
      · cases hu; exact h1 _ rfl
    · exact h1 u hu
  clear_value r2
  have h3 : ∀ u, r3 = .ok u → u.MemWf := by
    intro u hu
    unfold r3 at hu
    split at hu
    · split at hu
      · exact State.writeRange_wf (h2 _ rfl) hu
      · cases hu; exact h2 _ rfl
    · exact h2 u hu
  exact State.finishRange_wf h3 hs

theorem State.secWork_wf {c} (hs : s.MemWf) : (s.secWork c).1.MemWf := by
  unfold State.secWork
  extract_lets ds slot len
  split
  · exact hs
  split
  next x h => exact State.finishRange_wf (fun t ht => nomatch ht) hs
  next t m h => exact State.finishRange_wf (fun u hu => State.writeRange_wf (State.readRange_wf hs h) hu) hs

theorem State.work_wf {c} (hs : s.MemWf) : (s.work c).1.MemWf := by
  unfold State.work
  split
  · exact State.runElems_wf (fun _ _ => State.cgsElem_wf) hs
  · exact State.runElems_wf (fun _ _ => State.voxElem_wf) hs
  · exact State.sortWork_wf hs
  · exact State.secWork_wf hs

theorem workWord_wf {kind op inst} (hs : s.MemWf) : OutcomeWf (workWord kind op inst s) := by
  refine event_wf ?_ hs
  split
  · exact State.modCmd_wf (State.work_wf hs)
  · exact hs

/-! ## Contexts

The mint, and the settling and voiding of contexts (R209 to R229). A settled cell is merged by `State.mergeCell`. -/

theorem State.openCtx_wf {tag parent sc owner tenant part isBlock} (hs : s.MemWf) :
    (s.openCtx tag parent sc owner tenant part isBlock).MemWf :=
  hs

theorem State.serveOpen_wf {tag b core lanes parent sc set pd d origin} (hs : s.MemWf) :
    (s.serveOpen tag b core lanes parent sc set pd d origin).MemWf := by
  unfold State.serveOpen
  extract_lets s1 x s2 s3
  have h2 : s2.MemWf := State.results_wf (State.openCtx_wf hs)
  have h3 : s3.MemWf := by
    simp only [s3]
    split
    · exact foldl_wf (fun h => State.enterCtx_wf h) h2
    · exact h2
  split
  · exact foldl_wf (fun h => State.fillPlace_wf h) h3
  · exact h3

theorem State.mintServe_wf {part} (hs : s.MemWf) : (s.mintServe part).MemWf := by
  unfold State.mintServe
  split
  · extract_lets s1
    have h1 : s1.MemWf := hs
    split
    · split
      · exact h1
      · exact State.serveOpen_wf h1
    · exact h1
  · exact hs

theorem State.mintAll_wf {part n} (hs : s.MemWf) : (s.mintAll part n).MemWf := by
  induction n generalizing s with
  | zero => exact hs
  | succ n ih => exact ite_wf (ih (State.mintServe_wf hs)) hs

theorem State.keepOpen_wf {E lanes origin} (hs : s.MemWf) : (s.keepOpen E lanes origin).MemWf :=
  ite_wf (foldl_wf (fun ht => State.keepPlace_wf ht) hs) hs

theorem State.mintQ_wf {q} (hs : s.MemWf) : ({ s with mintQ := q } : State).MemWf :=
  hs

theorem execCtxopen_wf {h sc set try_ d} (hs : s.MemWf) : OutcomeWf (execCtxopen h sc set try_ d s) := by
  refine issue_wf (fun E t ht => ?_) hs
  extract_lets b cs ok c pd put x part s2 s3
  have hput : ∀ u x, u.MemWf → (put u x).MemWf := fun u x hu =>
    ite_wf (foldl_wf (fun h => ite_wf h (State.enterCtx_wf h)) (State.writeTracked_wf hu))
      (State.writeTracked_wf hu)
  have h2 : s2.MemWf := State.mintAll_wf ht
  have h3 : s3.MemWf := ite_wf (foldl_wf (fun h => State.keepValue_wf h) h2) h2
  refine ite_wf (Env.finish_wf ht) (ite_wf ?_ (ite_wf ?_ ?_))
  · exact ite_wf (Env.finish_wf (hput _ _ (foldl_wf (fun h => State.takeValue_wf h) ht))) ht
  · split
    · exact ite_wf (Env.finish_wf (State.serveOpen_wf (State.keepOpen_wf h2))) (Env.finish_wf (hput _ _ h3))
    · exact Env.finish_wf (hput _ _ h3)
  · exact Env.finish_wf (State.keepOpen_wf (State.mintQ_wf (State.fresh_wf ht)))

theorem execMintGrant_wf {part} (hs : s.MemWf) : OutcomeWf (execMintGrant part s) :=
  event_wf (State.mintServe_wf hs) hs

theorem execCtxset_wf {h a} (hs : s.MemWf) : OutcomeWf (execCtxset h a s) :=
  issue_wf (fun _ _ ht => ite_wf (ite_wf (Env.finish_wf (foldl_wf (fun ht1 => State.enterCtx_wf ht1)
      (foldl_wf (fun ht1 => State.takeValue_wf ht1) ht))) ht) (Env.finish_wf (foldl_wf (fun ht1 =>
      State.enterCtx_wf ht1) (ite_wf (foldl_wf (fun ht1 => State.keepValue_wf ht1) ht) ht)))) hs

theorem State.gatherSides_wf {b core ts} (hs : s.MemWf) : Meet.Wf (s.gatherSides b core ts) := by
  unfold State.gatherSides
  extract_lets here
  split
  · trivial
  split
  · split
    · exact foldl_wf (fun h => State.takeValue_wf h) hs
    · exact foldl_wf (fun h => by split <;> exact h) hs
  split
  · exact foldl_wf (fun h => h) hs
  · exact hs

theorem State.beginSettle_wf {tag} (hs : s.MemWf) : (s.beginSettle tag).MemWf :=
  ite_wf (State.expose_wf (State.modCtx_wf hs)) (State.modCtx_wf hs)

theorem State.beginVoid_wf {tag} (hs : s.MemWf) : (s.beginVoid tag).MemWf :=
  State.cancelCmds_wf (foldl_wf (fun ht => State.modCtx_wf ht) hs)

theorem State.startRetire_wf {h lanes settle} (hs : s.MemWf) :
    (s.startRetire h lanes settle).MemWf :=
  ite_wf (State.beginSettle_wf (foldl_wf (fun ht => State.enterCtx_wf ht) hs)) (State.beginVoid_wf
      (foldl_wf (fun ht => State.enterCtx_wf ht) hs))

theorem retireWord_wf {i h a settle} (hs : s.MemWf) : OutcomeWf (retireWord i h a settle s) := by
  refine issue_wf (fun E t ht => ?_) hs
  extract_lets b hd handles naming G hold act causes
  have hact : ∀ u, u.MemWf → (act u).2.MemWf := fun u hu =>
    List.foldlRecOn _ _ (motive := fun r : List Nat × State => r.2.MemWf) hu fun r hr x _ =>
      iteInduction (motive := fun r : List Nat × State => r.2.MemWf) (fun _ => State.startRetire_wf hr)
        fun _ => hr
  split
  · exact ht
  have hmeet := State.gatherSides_wf (b := b) (core := E.G.core) (ts := E.act) ht
  split
  · exact Env.finish_wf (hact _ ht)
  next he => rw [he] at hmeet; exact hmeet
  next he =>
    rw [he] at hmeet
    exact Env.finish_wf (foldl_wf (fun h => State.keepValue_wf h) (hact _ hmeet))
  next he =>
    rw [he] at hmeet
    refine Env.finish_wf (foldl_wf (fun h => ?_) hmeet)
    dsimp only
    split
    · exact State.enterCtx_wf h
    · exact h

theorem execCtxq_wf {h d a} (hs : s.MemWf) : OutcomeWf (execCtxq h d a s) :=
  issue_wf (fun _ _ h => State.shared_wf h) hs

theorem execLdcx_wf {h size sg d a b c} (hs : s.MemWf) : OutcomeWf (execLdcx h size sg d a b c s) :=
  issue_wf (fun _ _ ht => ite_wf ht (Env.finish_wf (ite_wf (ite_wf (State.modBlock_wf ht) ht)
      (State.logEntry_wf (ite_wf (State.modBlock_wf ht) ht))))) hs

theorem execCtxwait_wf {h sc d a} (hs : s.MemWf) : OutcomeWf (execCtxwait h sc d a s) :=
  issue_wf (fun _ _ ht => ite_wf (Env.finish_wf ht) (Env.await_wf ht)) hs

theorem execCtxwaitReturn_wf {group} (hs : s.MemWf) : OutcomeWf (execCtxwaitReturn group s) := by
  refine event_wf ?_ hs
  split
  · exact hs
  · exact State.resume_wf (ite_wf (foldl_wf (fun ht => State.takeValue_wf ht) (State.results_wf
        (State.acquireGroup_wf hs))) (ite_wf (foldl_wf (fun ht => State.keepValue_wf ht)
        (State.results_wf (State.acquireGroup_wf hs))) (State.results_wf (State.acquireGroup_wf
        hs))))

theorem State.applyRed_wf {op n pa b tenant} (hs : s.MemWf) : (s.applyRed op n pa b tenant).MemWf :=
  State.l1Drop_wf (State.addDrain_wf (State.setBytes_wf _ _ _ hs))

theorem State.applyHeld_wf {w r1 t} (hs : s.MemWf) (he : s.applyHeld w = some (r1, t)) :
    t.MemWf := by
  cases w with
  | launch =>
    simp only [State.applyHeld] at he
    split at he
    · cases he; exact State.ringAppend_wf hs
    · cases he
  | evsig => cases he; exact State.addCounter_wf hs
  | red => cases he; exact State.applyRed_wf hs
  | eng c =>
    simp only [State.applyHeld] at he
    split at he
    · obtain ⟨u, hu, he⟩ := Option.map_eq_some_iff.1 he
      cases he
      exact State.enqueueCmd_wf (State.fresh_wf hs) hu
    split at he
    · cases he
    · cases he; exact hs

theorem State.applyAll_wf {tag n} (hs : s.MemWf) : (s.applyAll tag n).MemWf := by
  induction n generalizing s with
  | zero => exact hs
  | succ n ih =>
    simp only [State.applyAll]
    split
    · exact hs
    split
    · exact hs
    next t he =>
      have ht : t.MemWf := State.applyHeld_wf hs he
      exact ht
    next t he =>
      have ht : t.MemWf := State.applyHeld_wf hs he
      exact ih ht

theorem State.retireCtx_wf {tag settled} (hs : s.MemWf) : (s.retireCtx tag settled).MemWf :=
  hs

theorem State.mergeCell_wf {parent pline c} (hs : s.MemWf) : (s.mergeCell parent pline c).MemWf :=
  ite_wf (foldl_wf (fun ht => State.setByte_wf _ _ _ ht) hs) hs

theorem State.mergeOne_wf {tag key cell} (hs : s.MemWf) : (s.mergeOne tag key cell).MemWf := by
  unfold State.mergeOne
  extract_lets c pline s1 s2
  have h2 : s2.MemWf := State.l1Drop_wf (State.mergeCell_wf (s := { s with cells := s.cells.del key }) hs)
  split
  · exact State.addDrain_wf h2
  · exact h2

theorem State.passOn_wf {tag} (hs : s.MemWf) : (s.passOn tag).MemWf :=
  ite_wf (State.modCtx_wf hs) hs

theorem State.settleRest_wf {tag} (hs : s.MemWf) : (s.settleRest tag).MemWf := by
  unfold State.settleRest
  extract_lets s1
  have h1 : s1.MemWf := ite_wf (State.modCtx_wf hs) (State.applyAll_wf hs)
  exact ite_wf (State.retireCtx_wf h1) h1

theorem State.settleStep_wf {tag} (hs : s.MemWf) : (s.settleStep tag).MemWf := by
  unfold State.settleStep
  split
  · exact State.settleRest_wf hs
  extract_lets s1
  have h1 : s1.MemWf := by
    simp only [s1]
    split
    · exact State.mergeOne_wf hs
    · exact hs
  split
  · exact State.settleRest_wf (s := (s1.passOn tag).modCtx tag _) (State.passOn_wf h1)
  · exact h1

theorem execContextSettle_wf {tag} (hs : s.MemWf) : OutcomeWf (execContextSettle tag s) :=
  event_wf (State.settleStep_wf hs) hs

theorem State.dropCells_wf {tag} (hs : s.MemWf) : (s.dropCells tag).MemWf :=
  hs

theorem execContextVoid_wf {tag} (hs : s.MemWf) : OutcomeWf (execContextVoid tag s) :=
  event_wf hs hs

theorem State.reopenBlockCtx_wf {b} (hs : s.MemWf) : (s.reopenBlockCtx b).MemWf :=
  ite_wf hs (State.openCtx_wf (foldl_wf (fun ht => State.retireCtx_wf (State.dropCells_wf ht))
      (State.cancelCmds_wf hs)))

/-! ## Branches, joins and the instruction cache

The words of class 0 (R110 to R131). -/

theorem execBra_wf {h off} (hs : s.MemWf) : OutcomeWf (execBra h off s) := by
  refine issue_wf (fun E t ht => ?_) hs
  split <;> exact Env.branch_wf ht

theorem execBrd_wf {h off} (hs : s.MemWf) : OutcomeWf (execBrd h off s) := by
  refine issue_wf (fun E t ht => ?_) hs
  split
  · exact Env.finish_wf ht
  · exact ite_wf (Env.finish_wf (State.modThreads_wf ht)) (Env.finish_wf ht)

theorem execBrx_wf {h a} (hs : s.MemWf) : OutcomeWf (execBrx h a s) :=
  issue_wf (fun _ _ h => Env.branch_wf (State.indirects_wf h)) hs

theorem State.link_wf {E sel ts} (hs : s.MemWf) : (s.link E sel ts).MemWf := by
  cases sel with
  | stack => exact State.modThreads_wf hs
  | link n => exact State.writeFixed_wf hs

theorem execCall_wf {h sel off} (hs : s.MemWf) : OutcomeWf (execCall h sel off s) := by
  refine issue_wf (fun E t ht => ?_) hs
  split
  · exact Env.branch_wf ht
  · exact Env.branch_wf (State.link_wf ht)

theorem execCallx_wf {h sel a} (hs : s.MemWf) : OutcomeWf (execCallx h sel a s) := by
  refine issue_wf (fun E t ht => ?_) hs
  split
  next s2 he =>
    have hs2 : s2.MemWf := snd_snd_wf_of_eq he (State.indirects_wf ht)
    exact Env.branch_wf (State.link_wf hs2)

theorem execRet_wf {h sel} (hs : s.MemWf) : OutcomeWf (execRet h sel s) := by
  refine issue_wf (fun E t ht => ?_) hs
  split
  · exact Env.branch_wf (State.modThreads_wf ht)
  · split
    next s2 he =>
      have hs2 : s2.MemWf := snd_snd_wf_of_eq he (State.indirects_wf ht)
      exact Env.branch_wf hs2

theorem execLand_wf {h} (hs : s.MemWf) : OutcomeWf (execLand h s) :=
  onceWord_wf (fun _ _ h => h) hs

theorem execReform_wf {h sel} (hs : s.MemWf) : OutcomeWf (execReform h sel s) := by
  refine issue_wf (fun E t ht => ?_) hs
  extract_lets r ok ts s2 rest x G leave s3
  have hr : r.2.2.MemWf := by
    unfold r
    split
    · exact ht
    · exact State.indirects_wf ht
  have hs2 : s2.MemWf := State.postBranch_wf (State.modThreads_wf hr)
  have hs3 : s3.MemWf := Env.finish_wf hs2
  exact foldl_wf (fun ht1 => State.fileThread_wf ht1) hs3

theorem execGpin_wf {h} (hs : s.MemWf) : OutcomeWf (execGpin h s) :=
  issue_wf (fun _ _ ht => ite_wf (Env.finish_wf ht) (foldl_wf (fun ht1 => ite_wf
      (State.gpinRelease_wf ht1) ht1) (State.beginWait_wf (State.spawn_wf (Env.finish_wf
      (State.modThreads_wf ht)))))) hs

theorem execGfree_wf {h} (hs : s.MemWf) : OutcomeWf (execGfree h s) :=
  issue_wf (fun _ _ ht => ite_wf (Env.finish_wf (State.modThreads_wf ht)) (State.spawn_wf
      (Env.finish_wf (State.modThreads_wf ht)))) hs

theorem State.dropLoads_wf {ts} (hs : s.MemWf) : (s.dropLoads ts).MemWf :=
  hs

theorem State.barComplete_wf {b core k} (hs : s.MemWf) : (s.barComplete b core k).MemWf :=
  State.modBside_wf (State.modThreads_wf hs)

theorem State.barExit_wf {b core} (hs : s.MemWf) : (s.barExit b core).MemWf :=
  foldl_wf (fun ht => ite_wf (State.barComplete_wf ht) ht) hs

theorem execExit_wf {h} (hs : s.MemWf) : OutcomeWf (execExit h s) :=
  issue_wf (fun _ _ ht => State.barExit_wf (State.dropLoads_wf (State.modThreads_wf (Env.finish_wf
      ht)))) hs

theorem execYield_wf {h n} (hs : s.MemWf) : OutcomeWf (execYield h n s) :=
  issue_wf (fun _ _ ht => ite_wf (State.modGroup_wf (Env.finish_wf ht)) (Env.finish_wf ht)) hs

theorem execBloop_wf {h a off} (hs : s.MemWf) : OutcomeWf (execBloop h a off s) :=
  issue_wf (fun _ _ h => Env.branch_wf (State.writeFixed_wf h)) hs

theorem State.prefetchLines_wf {ls} (hs : s.MemWf) : (s.prefetchLines ls).MemWf := by
  unfold State.prefetchLines
  exact foldl_wf (fun h => State.icacheAdd_wf h) hs

theorem execIpref_wf {h arg a b} (hs : s.MemWf) : OutcomeWf (execIpref h arg a b s) :=
  onceWord_wf (fun _ _ ht => foldl_wf (fun ht1 => State.prefetchLines_wf (State.rangeLines_wf ht1))
      ht) hs

theorem State.icacheDrop_wf {ranges} (hs : s.MemWf) : (s.icacheDrop ranges).MemWf :=
  hs

theorem execIprefInv_wf {h a b} (hs : s.MemWf) : OutcomeWf (execIprefInv h a b s) := by
  refine issue_wf (fun E t ht => ?_) hs
  split
  · exact ht
  extract_lets R r s2 s2f s3
  have h2 : s2.MemWf :=
    List.foldlRecOn _ _ (motive := fun r : List (Nat × Nat) × State => r.2.MemWf) ht
      fun _ h _ _ => State.rangeLines_wf h
  refine Env.finish_wf ?_
  simp only [s3]
  split <;> exact h2

theorem execNopw_wf {h n} (hs : s.MemWf) : OutcomeWf (execNopw h n s) :=
  issue_wf (fun _ _ ht => ite_wf (Env.finish_wf ht) (Env.finish_wf ht)) hs

theorem execJoinRelease_wf {seq recno} (hs : s.MemWf) : OutcomeWf (execJoinRelease seq recno s) :=
  event_wf (State.joinRelease_wf hs) hs

theorem execGpinRelease_wf {block pinned} (hs : s.MemWf) :
    OutcomeWf (execGpinRelease block pinned s) :=
  event_wf (foldl_wf (fun ht => ite_wf (State.gpinRelease_wf ht) ht) hs) hs

theorem execIcacheFill_wf {seq} (hs : s.MemWf) : OutcomeWf (execIcacheFill seq s) :=
  event_wf (State.icacheAdd_wf hs) hs

theorem execIprefInvComplete_wf {id} (hs : s.MemWf) : OutcomeWf (execIprefInvComplete id s) := by
  refine event_wf ?_ hs
  split
  · extract_lets x1
    have hx1 : x1.MemWf := State.icacheDrop_wf hs
    exact hx1
  · exact hs

theorem execBinCandidateTimeout_wf {seq bin} (hs : s.MemWf) :
    OutcomeWf (execBinCandidateTimeout seq bin s) :=
  event_wf hs hs

theorem execSlotWaitTimeout_wf {group} (hs : s.MemWf) : OutcomeWf (execSlotWaitTimeout group s) :=
  event_wf hs hs

theorem execYieldExpiry_wf {group} (hs : s.MemWf) : OutcomeWf (execYieldExpiry group s) :=
  event_wf hs hs

/-! ## Ordering

Atomics, fences, barriers and waits (R238 to R257). -/

theorem execAmo_wf {h op size ord sc d a b} (hs : s.MemWf) :
    OutcomeWf (execAmo h op size ord sc d a b s) :=
  logWord_wf hs

theorem execCas_wf {h size ord sc d a b c} (hs : s.MemWf) :
    OutcomeWf (execCas h size ord sc d a b c s) :=
  logWord_wf hs

theorem execRed_wf {h op size ord sc a b} (hs : s.MemWf) :
    OutcomeWf (execRed h op size ord sc a b s) :=
  logWord_wf hs

theorem execFence_wf {h ord sc} (hs : s.MemWf) : OutcomeWf (execFence h ord sc s) :=
  issue_wf (fun _ _ ht => ite_wf (Env.finish_wf ht) (ite_wf (Env.finish_wf ht) (ite_wf ht
      (Env.finish_wf (State.acquireGroup_wf (ite_wf (State.takeTickets_wf ht) ht)))))) hs

theorem State.arrive_wf {b core t k count} (hs : s.MemWf) : (s.arrive b core t k count).MemWf :=
  ite_wf hs (ite_wf (State.barComplete_wf (State.modBside_wf (State.modThread_wf hs)))
      (State.modBside_wf (State.modThread_wf hs)))

theorem State.arriveAll_wf {E arg} (hs : s.MemWf) : (s.arriveAll E arg).MemWf := by
  unfold State.arriveAll
  exact foldl_wf (fun h => State.arrive_wf h) hs

theorem execBar_wf {h arg} (hs : s.MemWf) : OutcomeWf (execBar h arg s) :=
  issue_wf (fun _ _ ht => ite_wf (Env.finish_wf ht) (ite_wf ht (ite_wf (Env.finish_wf
      (State.arriveAll_wf ht)) (foldl_wf (fun ht1 => State.beginWait_wf (State.spawn_wf ht1))
      (Env.finish_wf (State.arriveAll_wf ht)))))) hs

theorem execBara_wf {h arg} (hs : s.MemWf) : OutcomeWf (execBara h arg s) :=
  issue_wf (fun _ _ ht => ite_wf (Env.finish_wf ht) (ite_wf ht (Env.finish_wf (State.arriveAll_wf
      ht)))) hs

theorem execBarw_wf {h arg} (hs : s.MemWf) : OutcomeWf (execBarw h arg s) :=
  issue_wf (fun _ _ ht => ite_wf (Env.finish_wf ht) (ite_wf (Env.finish_wf ht) (Env.await_wf ht)))
      hs

theorem execBarrierPhaseComplete_wf {block side k} (hs : s.MemWf) :
    OutcomeWf (execBarrierPhaseComplete block side k s) := by
  refine event_wf (foldl_wf (fun {t} {a} ht => ?_) hs) hs
  split
  · exact State.resume_wf (State.setGroup_wf ht)
  · exact ht

theorem execGbar_wf {h} (hs : s.MemWf) : OutcomeWf (execGbar h s) := by
  refine issue_wf (fun E t ht => ?_) hs
  split
  · exact Env.finish_wf ht
  · exact ite_wf (Env.finish_wf ht) (ite_wf ht (Env.await_wf (State.modBlock_wf ht)))

theorem State.wakeBlocks_wf {bs w sc} (hs : s.MemWf) : (s.wakeBlocks bs w sc).MemWf := by
  unfold State.wakeBlocks
  extract_lets gs
  refine foldl_wf (fun {t} {a} ht => ?_) hs
  split
  · exact ite_wf (State.resume_wf (State.acquireGroup_wf (State.setGroup_wf ht))) (State.modGroup_wf
        (State.acquireGroup_wf (State.setGroup_wf ht)))
  · exact ht

theorem execGbarPhaseComplete_wf {launch gang} (hs : s.MemWf) :
    OutcomeWf (execGbarPhaseComplete launch gang s) :=
  event_wf (State.wakeBlocks_wf (foldl_wf (fun ht => State.modBlock_wf ht) hs)) hs

theorem execSsync_wf {h} (hs : s.MemWf) : OutcomeWf (execSsync h s) :=
  issue_wf (fun _ _ ht => ite_wf (Env.finish_wf ht) (ite_wf (Env.finish_wf ht) (ite_wf ht
      (Env.await_wf (State.modBlock_wf ht))))) hs

theorem execSsyncComplete_wf {launch} (hs : s.MemWf) : OutcomeWf (execSsyncComplete launch s) :=
  event_wf (State.wakeBlocks_wf (foldl_wf (fun ht => State.modBlock_wf ht) hs)) hs

theorem execWaitv_wf {h cmp sg size sc d a b} (hs : s.MemWf) :
    OutcomeWf (execWaitv h cmp sg size sc d a b s) :=
  issue_wf (fun _ _ ht => ite_wf (Env.finish_wf ht) (ite_wf ht (Env.await_wf (State.logEntry_wf
      ht)))) hs

theorem State.reread_wf {e r1 t} (hs : s.MemWf) (he : s.reread e = some (r1, t)) : t.MemWf := by
  unfold State.reread at he
  split at he
  next oks u hu =>
    have hcheck : u.MemWf := snd_snd_wf_of_eq hu (State.lanesCheck_wf hs)
    split at he
    · cases he
    · cases he
      refine List.foldlRecOn _ _ (motive := fun r : List (LaneSrc × Bool) × State => r.2.MemWf) hcheck ?_
      intro r hr o _
      dsimp only
      split
      · exact hr
      split
      · exact State.readSpots_wf hr
      · exact hr
  · cases he

theorem State.waitvNow_wf {g r1 r2 r3 t} (hs : s.MemWf) (he : s.waitvNow g = some (r1, r2, r3, t)) :
    t.MemWf := by
  obtain ⟨p, -, he⟩ := Option.bind_eq_some_iff.1 he
  obtain ⟨r, hr, he⟩ := Option.map_eq_some_iff.1 he
  cases he
  exact State.reread_wf hs hr

theorem execWaitvReread_wf {group} (hs : s.MemWf) : OutcomeWf (execWaitvReread group s) := by
  refine event_wf ?_ hs
  split
  next t he =>
    have ht : t.MemWf := State.waitvNow_wf hs he
    exact ht
  · exact hs

theorem execWaitvMet_wf {group} (hs : s.MemWf) : OutcomeWf (execWaitvMet group s) := by
  refine event_wf ?_ hs
  split
  next s1 _ he _ =>
    have hs1 : s1.MemWf := State.waitvNow_wf hs he
    extract_lets s2
    have hs2 : s2.MemWf := State.deliverWrites_wf (State.acquireGroup_wf hs1)
    exact State.resume_wf hs2
  · exact hs

theorem execOrdhead_wf {h} (hs : s.MemWf) : OutcomeWf (execOrdhead h s) :=
  issue_wf (fun _ _ ht => ite_wf (Env.finish_wf ht) (ite_wf (Env.finish_wf ht) (Env.await_wf ht)))
      hs

theorem execOrdheadReached_wf {group} (hs : s.MemWf) : OutcomeWf (execOrdheadReached group s) := by
  refine event_wf ?_ hs
  split
  · exact State.resume_wf (State.acquireGroup_wf hs)
  · exact hs

theorem execClearingSettle_wf {launch} (hs : s.MemWf) : OutcomeWf (execClearingSettle launch s) := by
  refine event_wf ?_ hs
  split
  · exact hs
  · exact ite_wf (State.modLaunch_wf (State.settleStep_wf hs)) (State.settleStep_wf hs)

/-! ## Placing blocks

A block starts in cleared storage (R89, R137). -/

theorem State.modPair_wf {slice f} (hs : s.MemWf) : (s.modPair slice f).MemWf :=
  hs

theorem State.startGroup_wf {b core g run at_} (hs : s.MemWf) :
    (s.startGroup b core g run at_).MemWf := by
  unfold State.startGroup
  extract_lets B R ts k entry G s1
  have h1 : s1.MemWf := foldl_wf (fun h => h) hs
  clear_value s1
  exact State.takeSlot_wf h1

theorem State.fullBank_wf {core k} (hs : s.MemWf) : (s.fullBank core k).MemWf := by
  unfold State.fullBank
  extract_lets s1
  have hs1 : s1.MemWf := ite_wf (State.zeroBytes_wf _ _ _ hs) hs
  exact hs1

theorem State.settleAt_wf {b x} (hs : s.MemWf) : (s.settleAt b x).MemWf :=
  hs

theorem State.startBlock_wf {b x} (hs : s.MemWf) : (s.startBlock b x).MemWf := by
  unfold State.startBlock
  extract_lets s0 size cores
  have h0 : s0.MemWf := hs
  refine foldl_wf (fun {u c} hu => ?_) h0
  extract_lets s1 s2 at_
  have h2 : s2.MemWf := State.zeroBytes_wf _ _ _ (foldl_wf (fun h => State.fullBank_wf h) hu)
  exact foldl_wf (fun h => State.startGroup_wf h) h2

/-! ## The event ring

A record of the event ring is written to memory (R388). -/

theorem State.evr_wf {E} (hs : s.MemWf) : ({ s with evr := E } : State).MemWf :=
  hs

theorem State.evPost_wf {kind source detail value} (hs : s.MemWf) :
    (s.evPost kind source detail value).MemWf :=
  ite_wf (State.evr_wf hs) (State.evr_wf (ite_wf (State.setBytes_wf _ _ _ hs) hs))

theorem State.writeRecord_wf {tenant world addr bs} (hs : s.MemWf) :
    (s.writeRecord tenant world addr bs).MemWf := by
  unfold State.writeRecord
  extract_lets a
  refine ite_wf hs ?_
  split
  · exact hs
  · extract_lets pa
    split
    · exact hs
    · split
      · exact State.setBytes_wf _ _ _ hs
      · exact State.mapWrite_wf _ _ _ _ hs
      · exact hs

/-! ## Queues, launches and dispatch

From a record in a queue to blocks that run and launches that end (R78 to R92). -/

theorem State.launches_submits_wf {ls m} (hs : s.MemWf) :
    ({ s with launches := ls, submits := m } : State).MemWf :=
  hs

theorem State.stopQueue_wf {q status failed} (hs : s.MemWf) : (s.stopQueue q status failed).MemWf :=
  hs

theorem State.doorbell_wf {q v} (hs : s.MemWf) : (s.doorbell q v).MemWf :=
  ite_wf hs (State.stopQueue_wf hs)

theorem State.resumeQueue_wf {q} (hs : s.MemWf) : (s.resumeQueue q).MemWf :=
  ite_wf (State.modSq_wf (ite_wf hs hs)) hs

theorem State.skipRecord_wf {q} (hs : s.MemWf) : (s.skipRecord q).MemWf := by
  unfold State.skipRecord
  extract_lets Q x
  have hx : x.MemWf := State.modSq_wf hs
  exact ite_wf hx hs

theorem execSqtailWrite_wf {q v} (hs : s.MemWf) : OutcomeWf (execSqtailWrite q v s) :=
  event_wf (State.doorbell_wf hs) hs

theorem execSqctlResume_wf {q} (hs : s.MemWf) : OutcomeWf (execSqctlResume q s) :=
  event_wf (State.resumeQueue_wf hs) hs

theorem execSqctlSkip_wf {q} (hs : s.MemWf) : OutcomeWf (execSqctlSkip q s) :=
  event_wf (State.skipRecord_wf hs) hs

theorem execRecordCheck_wf {q} (hs : s.MemWf) : OutcomeWf (execRecordCheck q s) := by
  refine event_wf (ite_wf (State.stopQueue_wf hs) (ite_wf (State.stopQueue_wf (ite_wf hs (State.writeRecord_wf
      hs))) ?_)) hs
  exact State.modSq_wf (State.launches_submits_wf (s := s.fresh) hs)

theorem execLaunchReady_wf {l} (hs : s.MemWf) : OutcomeWf (execLaunchReady l s) :=
  event_wf hs hs

theorem State.foundRoom_wf {l} (hs : s.MemWf) : (s.foundRoom l).MemWf :=
  hs

theorem State.askTags_wf {l first n} (hs : s.MemWf) : (s.askTags l first n).MemWf :=
  hs

theorem State.makeBlocks_wf {l first n} (hs : s.MemWf) : (s.makeBlocks l first n).MemWf := by
  unfold State.makeBlocks
  exact foldl_wf (fun h => h) hs

theorem State.startAll_wf {bs xs} (hs : s.MemWf) : (s.startAll bs xs).MemWf := by
  unfold State.startAll
  exact foldl_wf (fun h => State.startBlock_wf h) hs

theorem State.dispatchUnit_wf {l o xs} (hs : s.MemWf) : (s.dispatchUnit l o xs).MemWf := by
  cases o with
  | restore => exact hs
  | place bs => exact State.foundRoom_wf (State.startAll_wf hs)
  | fresh first n =>
    simp only [State.dispatchUnit]
    have hasked : ∀ p k, ((((s.modLaunch l fun L => { L with nextBlock := L.nextBlock + n }).askTags l first n).mintAll
        p k)).MemWf := fun _ _ => State.mintAll_wf (State.askTags_wf (State.modLaunch_wf hs))
    exact ite_wf (ite_wf (State.foundRoom_wf (State.startAll_wf (hasked _ _))) (hasked _ _))
      (State.foundRoom_wf (State.startAll_wf (State.makeBlocks_wf (State.modLaunch_wf hs))))

theorem execBlockDispatch_wf {part} (hs : s.MemWf) : OutcomeWf (execBlockDispatch part s) := by
  refine event_wf ?_ hs
  split
  · exact State.dispatchUnit_wf hs
  · exact hs

theorem State.stampTops_wf (hs : s.MemWf) : s.stampTops.MemWf :=
  hs

theorem execGangReserveTimeout_wf {l} (hs : s.MemWf) : OutcomeWf (execGangReserveTimeout l s) :=
  event_wf hs hs

theorem State.emptyBanks_wf {cores banks} (hs : s.MemWf) : (s.emptyBanks cores banks).MemWf :=
  foldl_wf (fun ht => foldl_wf (fun ht1 => ite_wf ht1 (State.setSpad_wf _ _ _ _ ht1)) ht) hs

theorem State.vacate_wf {b r} (hs : s.MemWf) : (s.vacate b r).MemWf :=
  State.emptyBanks_wf hs

theorem State.dropMatrix_wf {b} (hs : s.MemWf) : (s.dropMatrix b).MemWf := by
  unfold State.dropMatrix
  extract_lets s1
  have hs1 : s1.MemWf := foldl_wf (fun ht => State.modBside_wf (foldl_wf (fun ht1 =>
      State.dropRecord_wf ht1) ht)) hs
  exact hs1

theorem State.dropIssue_wf {b} (hs : s.MemWf) : (s.dropIssue b).MemWf :=
  hs

theorem State.voidNow_wf {ts} (hs : s.MemWf) : (s.voidNow ts).MemWf :=
  foldl_wf (fun ht => State.retireCtx_wf (State.dropCells_wf ht)) (State.cancelCmds_wf hs)

theorem State.dropEngines_wf {b} (hs : s.MemWf) : (s.dropEngines b).MemWf :=
  State.cancelCmds_wf hs

theorem State.voidOpen_wf {b} (hs : s.MemWf) : (s.voidOpen b).MemWf :=
  foldl_wf (fun ht => ite_wf (State.beginVoid_wf ht) ht) hs

theorem State.countTransient_wf {l core} (hs : s.MemWf) : (s.countTransient l core).MemWf :=
  hs

theorem execBlockExit_wf {b} (hs : s.MemWf) : OutcomeWf (execBlockExit b s) := by
  refine event_wf ?_ hs
  extract_lets B s1 s2
  have h1 : s1.MemWf := State.vacate_wf (State.dropIssue_wf (State.dropMatrix_wf (State.voidOpen_wf hs)))
  have h2 : s2.MemWf := ite_wf (State.countTransient_wf h1) h1
  exact ite_wf h1 (ite_wf h2 (State.beginSettle_wf h2))

theorem State.endBlocks_wf {l} (hs : s.MemWf) : (s.endBlocks l).MemWf := by
  unfold State.endBlocks
  extract_lets bs s1 rest
  have h1 : s1.MemWf := foldl_wf (fun h => State.vacate_wf (State.dropIssue_wf (State.voidNow_wf
    (State.dropEngines_wf (State.dropMatrix_wf h))))) hs
  clear_value s1
  exact h1

theorem State.unready_wf {q order} (hs : s.MemWf) : (s.unready q order).MemWf :=
  hs

theorem execLaunchComplete_wf {l} (hs : s.MemWf) : OutcomeWf (execLaunchComplete l s) := by
  refine event_wf ?_ hs
  extract_lets L R status done s1 s2 s3 s4 s5
  have hs1 : s1.MemWf := ite_wf (State.endBlocks_wf hs) hs
  have hs2 : s2.MemWf := ite_wf hs1 (State.writeRecord_wf hs1)
  have hs3 : s3.MemWf := ite_wf (State.addCounter_wf hs2) hs2
  have hs4 : s4.MemWf := ite_wf (State.evPost_wf hs3) hs3
  have hs5 : s5.MemWf := ite_wf hs4 (State.unready_wf (State.stopQueue_wf hs4))
  exact hs5

/-! ## Memory words

The words of class 3 and the events that end their waits (R182 to R203). -/

theorem execLd_wf {h size sg hint d a b disp} (hs : s.MemWf) :
    OutcomeWf (execLd h size sg hint d a b disp s) :=
  logWord_wf hs

theorem execSt_wf {h size hint d a b disp} (hs : s.MemWf) :
    OutcomeWf (execSt h size hint d a b disp s) :=
  logWord_wf hs

theorem execLds_wf {h size sg d a b disp} (hs : s.MemWf) :
    OutcomeWf (execLds h size sg d a b disp s) :=
  logWord_wf hs

theorem execSts_wf {h size d a b disp} (hs : s.MemWf) : OutcomeWf (execSts h size d a b disp s) :=
  logWord_wf hs

theorem execLdl_wf {h size sg hint d a b disp} (hs : s.MemWf) :
    OutcomeWf (execLdl h size sg hint d a b disp s) :=
  logWord_wf hs

theorem execStl_wf {h size hint d a b disp} (hs : s.MemWf) :
    OutcomeWf (execStl h size hint d a b disp s) :=
  logWord_wf hs

theorem execLdw_wf {h d a imm} (hs : s.MemWf) : OutcomeWf (execLdw h d a imm s) :=
  logWord_wf hs

theorem execStw_wf {h d a imm} (hs : s.MemWf) : OutcomeWf (execStw h d a imm s) :=
  logWord_wf hs

theorem execLdk_wf {h size hint d a b disp} (hs : s.MemWf) :
    OutcomeWf (execLdk h size hint d a b disp s) :=
  logWord_wf hs

theorem execLdcb_wf {h len d a b} (hs : s.MemWf) : OutcomeWf (execLdcb h len d a b s) :=
  logWord_wf hs

theorem State.prefetchLane_wf {t hint e} (hs : s.MemWf) : (s.prefetchLane t hint e).MemWf := by
  unfold State.prefetchLane
  extract_lets T ctx a
  refine ite_wf hs ?_
  split
  · exact ite_wf hs (State.l1Touch_wf hs)
  · split
    next s1 he1 =>
      have hs1 : s1.MemWf := snd_wf_of_eq he1 (State.resolve_wf hs)
      exact State.loadPlace_wf hs1
    next s1 _ he2 => exact snd_wf_of_eq he2 (State.resolve_wf hs)

theorem execPref_wf {h hint a b} (hs : s.MemWf) : OutcomeWf (execPref h hint a b s) :=
  onceWord_wf (fun _ _ ht => foldl_wf (fun ht1 => State.prefetchLane_wf ht1) ht) hs

theorem State.cctlLane_wf {t op e} (hs : s.MemWf) : (s.cctlLane t op e).MemWf := by
  cases op with
  | ivall => exact State.l1DropTenant_wf hs
  | ivl => exact ite_wf hs (State.l1Drop_wf hs)
  | ivtlb => exact ite_wf hs hs

theorem execCctl_wf {h op a b} (hs : s.MemWf) : OutcomeWf (execCctl h op a b s) :=
  onceWord_wf (fun _ _ ht => foldl_wf (fun ht1 => State.cctlLane_wf ht1) ht) hs

theorem execAcp_wf {h tag hint d a b} (hs : s.MemWf) : OutcomeWf (execAcp h tag hint d a b s) :=
  issue_wf (fun _ _ ht => ite_wf ht (Env.finish_wf (ite_wf (State.modThreads_wf (State.postLanes_wf
      ht)) (State.logEntry_wf (State.modThreads_wf (State.postLanes_wf ht)))))) hs

theorem State.acpErrors_wf {mask ts} (hs : s.MemWf) : (s.acpErrors mask ts).2.MemWf :=
  State.modThreads_wf hs

theorem execAcwait_wf {h mask n} (hs : s.MemWf) : OutcomeWf (execAcwait h mask n s) :=
  issue_wf (fun _ _ ht => ite_wf (Env.finish_wf (State.acpErrors_wf ht)) (Env.await_wf ht)) hs

theorem execAcqry_wf {h d} (hs : s.MemWf) : OutcomeWf (execAcqry h d s) :=
  issue_wf (fun _ _ h => State.shared_wf h) hs

theorem execXlq_wf {h d a b} (hs : s.MemWf) : OutcomeWf (execXlq h d a b s) :=
  issue_wf (fun _ _ ht => State.shared_wf (foldl_wf (fun ht1 => ite_wf ht1 (State.entryFor_wf ht1))
      ht)) hs

theorem State.deliverResult_wf {p} (hs : s.MemWf) : (s.deliverResult p).MemWf := by
  refine foldl_wf (fun {t} {a} ht => ?_) hs
  split
  · exact ite_wf (State.modThread_wf ht) ht
  · exact State.modThread_wf ht

theorem execScoreboardResult_wf {id} (hs : s.MemWf) : OutcomeWf (execScoreboardResult id s) := by
  refine event_wf ?_ hs
  split
  · extract_lets s1
    have hs1 : s1.MemWf := foldl_wf (fun ht => ite_wf ht (State.setSpad_wf _ _ _ _ ht))
        (State.deliverResult_wf hs)
    exact hs1
  · exact hs

theorem execStoreAck_wf {id} (hs : s.MemWf) : OutcomeWf (execStoreAck id s) := by
  refine event_wf ?_ hs
  split
  · exact State.addDrain_wf hs
  · exact hs

theorem execHostCoherenceDrain_wf {tenant lines} (hs : s.MemWf) :
    OutcomeWf (execHostCoherenceDrain tenant lines s) :=
  event_wf hs hs

theorem execAcpComplete_wf {id} (hs : s.MemWf) : OutcomeWf (execAcpComplete id s) := by
  refine event_wf ?_ hs
  split
  · exact hs
  · extract_lets bs s1 x1
    have hs1 : s1.MemWf := State.setBytes_wf _ _ _ hs
    have hx1 : x1.MemWf := State.modThread_wf hs1
    exact hx1

theorem execAcwaitMet_wf {group} (hs : s.MemWf) : OutcomeWf (execAcwaitMet group s) := by
  refine event_wf ?_ hs
  split
  · exact hs
  · split
    · exact ite_wf (State.resume_wf (State.acpErrors_wf hs)) (State.finish_wf (State.setGroup_wf
          (State.modThreads_wf (State.acpErrors_wf hs))))
    · exact hs

/-! ## Banks

Words and events of register quarters and scratchpad banks (R135 to R153). -/

theorem execBkqry_wf {h d} (hs : s.MemWf) : OutcomeWf (execBkqry h d s) :=
  issue_wf (fun _ _ h => State.shared_wf h) hs

theorem execBkwake_wf {h mask} (hs : s.MemWf) : OutcomeWf (execBkwake h mask s) :=
  onceWord_wf (fun _ _ ht => foldl_wf (fun ht1 => foldl_wf (fun ht2 => State.raiseQuarter_wf ht2)
      ht1) ht) hs

theorem execBkdrop_wf {h off mask} (hs : s.MemWf) : OutcomeWf (execBkdrop h off mask s) :=
  onceWord_wf (fun _ _ ht => foldl_wf (fun ht1 => foldl_wf (fun ht2 => State.lowerQuarter_wf ht2)
      ht1) ht) hs

theorem spadWord_wf {i h d b drop} (hs : s.MemWf) : OutcomeWf (spadWord i h d b drop s) :=
  issue_wf (fun _ _ ht => ite_wf ht (Env.finish_wf (State.pushAll_wf (State.writeTracked_wf
      (State.popQueues_wf (foldl_wf (fun ht1 => ite_wf ht1 (State.setSpad_wf _ _ _ _ ht1)) ht))))))
      hs

theorem execBankWakeComplete_wf {w} (hs : s.MemWf) : OutcomeWf (execBankWakeComplete w s) := by
  unfold execBankWakeComplete
  split <;> exact event_wf hs hs

/-! ## Events of the operand log

An entry is performed, waits or faults (R191 to R193, R214). -/

/-- The states in the answer of `State.access` are canonical. -/
def Access.Wf : Access → Prop
  | .none => True
  | .passed s | .made s | .faults _ s | .noRoom _ s => s.MemWf

theorem State.keepLdcx_wf {e cs oks} (hs : s.MemWf) : (s.keepLdcx e cs oks).MemWf :=
  ite_wf hs (State.modBlock_wf hs)

theorem State.performAny_wf {e oks} (hs : s.MemWf) : (s.performAny e oks).2.MemWf := by
  unfold State.performAny
  split
  · exact State.performTile_wf hs
  · exact State.performTile_wf hs
  · exact State.performTile_wf hs
  · exact State.perform_wf hs

theorem State.takeLdcx_wf {e} (hs : s.MemWf) : Access.Wf (s.takeLdcx e) := by
  unfold State.takeLdcx
  extract_lets its cs vals s1 s2
  have h1 : s1.MemWf := foldl_wf (fun h => h) hs
  have h2 : s2.MemWf := State.deliverWrites_wf h1
  split
  · split <;> exact h2
  · trivial

theorem State.access_wf {id e} (hs : s.MemWf) : Access.Wf (s.access id e) := by
  have hcheck := State.lanesCheck_wf (i := e.instr) (ls := e.lanes) hs
  unfold State.access
  split
  · trivial
  split
  · exact State.takeLdcx_wf hs
  split
  next cs oks s1 he =>
  rw [he] at hcheck
  extract_lets woken passed few r full
  have hpassed : Access.Wf passed := by
    simp only [passed]
    split
    · trivial
    · exact State.wakeSpots_wf hcheck
  have hr : r.2.MemWf := State.performAny_wf (State.keepLdcx_wf hcheck)
  split
  · trivial
  split
  · split
    · exact hpassed
    · exact hcheck
  split
  · split
    · exact hpassed
    · trivial
  split
  · exact hr
  split <;> exact hr

theorem execOperandLogEntryFreed_wf {entry} (hs : s.MemWf) :
    OutcomeWf (execOperandLogEntryFreed entry s) := by
  unfold execOperandLogEntryFreed
  split
  · exact outcomeWf_next.2 hs
  split
  · exact event_wf (State.pushGo_wf hs) hs
  next e _ _ _ =>
  have hacc := State.access_wf (id := entry) (e := e) hs
  split
  next h => rw [h] at hacc; exact outcomeWf_next.2 hacc
  next h => rw [h] at hacc; exact outcomeWf_next.2 (State.dropEntry_wf hacc)
  · exact outcomeWf_next.2 (ite_wf hs hs)
  · exact outcomeWf_next.2 hs

theorem execLoggedAccessFault_wf {entry} (hs : s.MemWf) :
    OutcomeWf (execLoggedAccessFault entry s) := by
  unfold execLoggedAccessFault
  split
  · exact outcomeWf_next.2 hs
  next e _ =>
  have hacc := State.access_wf (id := entry) (e := e) hs
  split
  next h => rw [h] at hacc; exact outcomeWf_next.2 (State.faultLanes_wf hacc)
  · exact outcomeWf_next.2 hs

theorem execCtxPoolTimeout_wf {entry} (hs : s.MemWf) :
    OutcomeWf (execCtxPoolTimeout entry s) := by
  unfold execCtxPoolTimeout
  split
  · exact outcomeWf_next.2 hs
  next e _ =>
  have hacc := State.access_wf (id := entry) (e := e) hs
  split
  next h => rw [h] at hacc; exact outcomeWf_next.2 (ite_wf (State.faultLanes_wf hacc) hs)
  · exact outcomeWf_next.2 hs

/-! ## System words

Traps, system registers and mailboxes (R310 to R346). -/

theorem execIllegalEncoding_wf {e} (hs : s.MemWf) : OutcomeWf (execIllegalEncoding e s) := by
  unfold execIllegalEncoding
  split
  · exact fun _ he => nomatch he
  next g G _ =>
    have hfin : ∀ G1 cs, (((s.noteIssue G (s.clk G.core) []).finish g G1 [] cs G.lanes)).MemWf :=
      fun _ _ => State.finish_wf (State.noteIssue_wf hs)
    exact outcomeWf_next.2 (hfin _ _)

theorem actOnce_wf {i h f} (hf : ∀ E t l, t.MemWf → (f E t l).MemWf) (hs : s.MemWf) :
    OutcomeWf (actOnce i h s f) := by
  refine issue_wf (fun E t ht => ?_) hs
  split
  · exact Env.finish_wf ht
  · exact hf E t _ ht

theorem trapWord_wf {i h cause code} (hs : s.MemWf) : OutcomeWf (trapWord i h cause code s) :=
  issue_wf (fun _ _ h => Env.finish_wf h) hs

theorem execTrap_wf {h code} (hs : s.MemWf) : OutcomeWf (execTrap h code s) :=
  trapWord_wf hs

theorem execBrk_wf {h code} (hs : s.MemWf) : OutcomeWf (execBrk h code s) :=
  issue_wf (fun _ _ h => Env.finish_wf h) hs

theorem State.replayEntry_wf {ts id} (hs : s.MemWf) : (s.replayEntry ts id).MemWf := by
  unfold State.replayEntry
  split
  · exact hs
  · extract_lets mine rest mask e1 e2 s1 x1
    have hs1 : s1.MemWf := hs
    have hx1 : x1.MemWf := State.fresh_wf hs1
    exact ite_wf hs (ite_wf hs1 hx1)

theorem execTret_wf {h} (hs : s.MemWf) : OutcomeWf (execTret h s) := by
  refine actOnce_wf (fun E t l ht => ?_) hs
  have hreplay : (t.opLog.keys.foldl (fun s id => s.replayEntry E.G.lanes id) t).MemWf :=
    foldl_wf (fun h => State.replayEntry_wf h) ht
  refine ite_wf (Env.finish_wf ht) (ite_wf ?_ (ite_wf ?_ ?_))
  · exact ite_wf (State.endLaunch_wf (Env.finish_wf ht)) (Env.finish_wf ht)
  · exact State.endReplay_wf (State.modGroup_wf (Env.finish_wf hreplay))
  · exact Env.finish_wf hreplay

theorem execTclr_wf {h a} (hs : s.MemWf) : OutcomeWf (execTclr h a s) :=
  actOnce_wf (fun _ _ _ ht => Env.finish_wf ht) hs

theorem execTrd_wf {h d b} (hs : s.MemWf) : OutcomeWf (execTrd h d b s) :=
  issue_wf (fun _ _ h => State.alu_wf h) hs

theorem execTmask_wf {h d a b} (hs : s.MemWf) : OutcomeWf (execTmask h d a b s) :=
  actOnce_wf (fun _ _ _ ht => Env.finish_wf (State.writeFixed_wf (State.modBside_wf ht))) hs

theorem execOlogq_wf {h d b} (hs : s.MemWf) : OutcomeWf (execOlogq h d b s) :=
  issue_wf (fun _ _ h => State.alu_wf h) hs

theorem execSysrd_wf {h d b} (hs : s.MemWf) : OutcomeWf (execSysrd h d b s) :=
  issue_wf (fun _ _ ht => ite_wf (State.shared_wf ht) (Env.finish_wf ht)) hs

theorem State.modPart_wf {p f} (hs : s.MemWf) : (s.modPart p f).MemWf :=
  hs

theorem execSyswr_wf {h a b} (hs : s.MemWf) : OutcomeWf (execSyswr h a b s) :=
  actOnce_wf (fun _ _ _ ht => ite_wf (Env.finish_wf ht) (Env.finish_wf
    (ite_wf (State.modBside_wf ht) (ite_wf (State.modPart_wf ht) (ite_wf (State.modPart_wf ht) ht))))) hs

theorem execCntrd_wf {h d b} (hs : s.MemWf) : OutcomeWf (execCntrd h d b s) :=
  issue_wf (fun _ _ h => State.shared_wf h) hs

theorem execPsafe_wf {h pd} (hs : s.MemWf) : OutcomeWf (execPsafe h pd s) :=
  issue_wf (fun _ _ ht => ite_wf (Env.finish_wf (State.writeTracked_wf ht)) (ite_wf (Env.finish_wf
      ht) (Env.await_wf ht))) hs

theorem State.psafeEnd_wf {g x} (hs : s.MemWf) : (s.psafeEnd g x).MemWf := by
  unfold State.psafeEnd
  split
  · split
    · exact State.resume_wf (State.results_wf hs)
    · exact hs
  · exact hs

theorem execPsafeResolve_wf {group} (hs : s.MemWf) : OutcomeWf (execPsafeResolve group s) :=
  event_wf (State.psafeEnd_wf hs) hs

theorem execIlq_wf {h d} (hs : s.MemWf) : OutcomeWf (execIlq h d s) :=
  issue_wf (fun _ _ h => State.shared_wf h) hs

theorem execHalt_wf {h} (hs : s.MemWf) : OutcomeWf (execHalt h s) := by
  refine actOnce_wf (fun E t l ht => ?_) hs
  have hmeet := State.meet_wf (b := E.G.block) (core := E.G.core) (pc := E.G.pc)
    (cmds := [(l, (encode (.halt h)).toNat)]) ht
  dsimp only
  split
  · exact State.endLaunch_wf (Env.finish_wf ht)
  next he => rw [he] at hmeet; exact hmeet
  next he => rw [he] at hmeet; exact State.endLaunch_wf (Env.finish_wf (State.keepValue_wf hmeet))
  next he => rw [he] at hmeet; exact Env.finish_wf hmeet

theorem execMbox_wf {h sec d a} (hs : s.MemWf) : OutcomeWf (execMbox h sec d a s) := by
  refine actOnce_wf (fun E t l ht => ?_) hs
  extract_lets b msg wait send
  have hwait : ∀ u, u.MemWf → (wait u).MemWf := fun u hu => Env.await_wf hu
  have hsend : ∀ u, u.MemWf → (send u).MemWf := fun u hu => ite_wf (hwait u hu) (hwait u hu)
  have hmeet := State.meet_wf (b := b) (core := E.G.core) (pc := E.G.pc)
    (cmds := [(l, msg.toNat * 2 + bitNat sec)]) ht
  split
  · exact Env.finish_wf ht
  split
  · exact hsend _ ht
  next he => rw [he] at hmeet; exact hmeet
  next he => rw [he] at hmeet; exact hsend _ (State.keepValue_wf hmeet)
  next he => rw [he] at hmeet; exact hwait _ hmeet

theorem State.mboxAnswer_wf {g G sec msg ls r1 t} (hs : s.MemWf)
    (he : s.mboxAnswer g G sec msg ls = some (r1, t)) : t.MemWf := by
  unfold State.mboxAnswer at he
  split at he
  · obtain ⟨_, -, he⟩ := Option.map_eq_some_iff.1 he
    cases he
    exact State.takeValue_wf hs
  split at he
  · obtain ⟨_, -, he⟩ := Option.map_eq_some_iff.1 he
    cases he
    exact hs
  dsimp only at he
  split at he
  · cases he; exact hs
  · cases he; exact hs

theorem State.mboxReady_wf {g r1 r2 r3 r4 t} (hs : s.MemWf)
    (he : s.mboxReady g = some (r1, r2, r3, r4, t)) : t.MemWf := by
  unfold State.mboxReady at he
  split at he
  · split at he
    · obtain ⟨r, hr, he⟩ := Option.map_eq_some_iff.1 he
      cases he
      exact State.mboxAnswer_wf hs hr
    · cases he
  · cases he

theorem execMboxReply_wf {group} (hs : s.MemWf) : OutcomeWf (execMboxReply group s) := by
  refine event_wf ?_ hs
  split
  · exact hs
  next s1 he =>
    have hs1 : s1.MemWf := State.mboxReady_wf hs he
    exact ite_wf (State.modGroup_wf (State.results_wf (ite_wf (State.keepValue_wf hs1) hs1)))
        (State.resume_wf (State.results_wf (ite_wf (State.keepValue_wf hs1) hs1)))

theorem execSsvInboxMessageTaken_wf {tenant} (hs : s.MemWf) :
    OutcomeWf (execSsvInboxMessageTaken tenant s) :=
  event_wf hs hs

theorem execHandlerEntry_wf {group} (hs : s.MemWf) : OutcomeWf (execHandlerEntry group s) := by
  refine event_wf ?_ hs
  split
  · exact State.deliver_wf hs
  · exact hs

theorem State.postCause_wf {g cause} (hs : s.MemWf) : (s.postCause g cause).MemWf := by
  unfold State.postCause
  split
  · exact State.lateCauses_wf hs
  · exact hs

/-! ## Saved blocks

A saved image is cut out of the memory, and its bytes are put back one by one (R319). -/

theorem State.rename_wf {f} (hs : s.MemWf) : (s.rename f).MemWf :=
  hs

theorem State.unslice_wf {pa m} (hs : s.MemWf) : (s.unslice pa m).MemWf :=
  foldl_wf (fun ht => State.setByte_wf _ _ _ ht) hs

theorem State.packGroup_wf {g} (hs : s.MemWf) : (s.packGroup g).MemWf := by
  unfold State.packGroup
  split
  · exact hs
  · extract_lets dm2 again s1 s2
    have hs1 : s1.MemWf := by
      unfold s1
      clear_value again
      split
      · exact State.modThreads_wf hs
      · exact hs
    have hs2 : s2.MemWf := by
      unfold s2
      split <;> exact hs1
    exact State.setGroup_wf hs2

theorem State.deliverAll_wf {b} (hs : s.MemWf) : (s.deliverAll b).MemWf := by
  unfold State.deliverAll
  extract_lets s1
  have hs1 : s1.MemWf := foldl_wf (fun ht => ite_wf (State.deliverResult_wf ht) ht) hs
  exact hs1

theorem State.saveBlock_wf {b} (hs : s.MemWf) : (s.saveBlock b).MemWf := by
  unfold State.saveBlock
  extract_lets s0 B c name recs mine s1 bins opens kept s2 s3 I keyed loop mq s4 s5 s6
  have h1 : s1.MemWf :=
    foldl_wf (fun h => State.modThread_wf h)
      (foldl_wf (fun h => State.packGroup_wf h) (State.deliverAll_wf hs))
  have h2 : s2.MemWf := h1
  have h3 : s3.MemWf := foldl_wf (fun h => State.zeroKeyed_wf h) h2
  have h4 : s4.MemWf := h3
  have h5 : s5.MemWf := State.vacate_wf (State.rename_wf h4)
  exact State.modLaunch_wf (State.modBlock_wf (State.refillLoops_wf h5))

theorem State.restoreBank_wf {core at_ pieces k} (hs : s.MemWf) :
    (s.restoreBank core at_ pieces k).MemWf :=
  ite_wf (State.fullBank_wf hs) (ite_wf hs hs)

theorem State.restoreJoins_wf {b seq} (hs : s.MemWf) : (s.restoreJoins b seq).MemWf := by
  unfold State.restoreJoins
  exact foldl_wf (fun h => State.modThreads_wf h) hs

theorem State.restoreGroup_wf {g} (hs : s.MemWf) : (s.restoreGroup g).MemWf := by
  unfold State.restoreGroup
  split
  · exact hs
  extract_lets part
  have hpart : ∀ u k ts, u.MemWf → (part u k ts).MemWf := fun u k ts hu =>
    ite_wf (State.takeSlot_wf (State.enrol_wf (State.setGroup_wf hu))) (State.enrol_wf (State.setGroup_wf hu))
  clear_value part
  split
  · exact hs
  · exact foldl_wf (fun h => hpart _ _ _ (State.fresh_wf h)) (hpart _ _ _ (State.delGroup_wf hs))

theorem State.restoreBin_wf {B} (hs : s.MemWf) : (s.restoreBin B).MemWf := by
  refine foldl_wf (fun {t} {a} ht => ?_) hs
  extract_lets ts came x carry
  split
  · exact State.modThreads_wf ht
  · exact foldl_wf (fun ht1 => State.fileThread_wf ht1) ht

theorem State.restoreBlock_wf {b x} (hs : s.MemWf) : (s.restoreBlock b x).MemWf := by
  unfold State.restoreBlock
  split
  · exact State.startBlock_wf hs
  · extract_lets c s1 size s2 s3 s4 s5 ob s6 dirty s7 name s8 seqs s9 s10 moved s11 part opens s111
        s12
    have hs1 : s1.MemWf := State.settleAt_wf hs
    have hs2 : s2.MemWf := foldl_wf (fun ht => State.restoreBank_wf ht) hs1
    have hs3 : s3.MemWf := State.unslice_wf (State.zeroBytes_wf _ _ _ hs2)
    have hs4 : s4.MemWf := foldl_wf (fun ht => State.zeroTile_wf ht) hs3
    have hs5 : s5.MemWf := foldl_wf (fun ht => State.setByte_wf _ _ _ ht) hs4
    have hs6 : s6.MemWf := State.unslice_wf (State.zeroOb_wf _ _ _ hs5)
    have hs7 : s7.MemWf := hs6
    have hs8 : s8.MemWf := State.rename_wf hs7
    have hs9 : s9.MemWf := foldl_wf (fun ht => State.restoreJoins_wf ht) hs8
    have hs10 : s10.MemWf := foldl_wf (fun ht => State.restoreGroup_wf ht) hs9
    have hs11 : s11.MemWf := foldl_wf (fun ht => State.restoreBin_wf ht) hs10
    have hs111 : s111.MemWf := ite_wf hs11 hs11
    have hs12 : s12.MemWf := State.acquire_wf (State.refillLoops_wf hs111)
    refine foldl_wf (fun {t} {a} ht => ?_) hs12
    split
    · exact State.psafeEnd_wf ht
    · exact ht

theorem State.restoreAll_wf {l bs xs} (hs : s.MemWf) : (s.restoreAll l bs xs).MemWf := by
  unfold State.restoreAll
  exact foldl_wf (fun h => State.restoreBlock_wf h) hs

theorem execRestore_wf {b} (hs : s.MemWf) : OutcomeWf (execRestore b s) := by
  unfold execRestore
  extract_lets next
  refine event_wf ?_ hs
  clear_value next
  split
  · exact State.restoreAll_wf hs
  · exact hs

/-! ## Pre-emption and schedules

Notices, SAVE, FLUSH and the schedule of tenants (R316 to R322). -/

theorem State.giveNotice_wf {b} (hs : s.MemWf) : (s.giveNotice b).MemWf :=
  ite_wf (foldl_wf (fun ht => State.postCause_wf ht) (State.modBlock_wf hs)) hs

theorem State.choose_wf {b kind} (hs : s.MemWf) : (s.choose b kind).MemWf :=
  foldl_wf (fun ht => ite_wf (State.modBlock_wf ht) (State.giveNotice_wf (State.modBlock_wf ht))) hs

theorem State.halt_wf {b} (hs : s.MemWf) : (s.halt b).MemWf := by
  unfold State.halt
  exact foldl_wf (fun h => h) hs

theorem execNoticeWindowExpiry_wf {b} (hs : s.MemWf) : OutcomeWf (execNoticeWindowExpiry b s) :=
  event_wf (State.halt_wf hs) hs

theorem State.preemptFor_wf {l ok} (hs : s.MemWf) : (s.preemptFor l ok).MemWf := by
  unfold State.preemptFor
  split
  · exact State.modLaunch_wf (State.choose_wf hs)
  · exact hs

theorem execPreemptDeadlineTimeout_wf {l} (hs : s.MemWf) :
    OutcomeWf (execPreemptDeadlineTimeout l s) := by
  unfold execPreemptDeadlineTimeout
  extract_lets ok
  exact event_wf (State.preemptFor_wf hs) hs

theorem execPreemptTierTimeout_wf {l} (hs : s.MemWf) : OutcomeWf (execPreemptTierTimeout l s) := by
  unfold execPreemptTierTimeout
  extract_lets ok
  exact event_wf (State.preemptFor_wf hs) hs

theorem execDrainTimeout_wf {b} (hs : s.MemWf) : OutcomeWf (execDrainTimeout b s) := by
  unfold execDrainTimeout
  extract_lets B
  exact event_wf (State.choose_wf hs) hs

theorem execExchangeTimeout_wf {b} (hs : s.MemWf) : OutcomeWf (execExchangeTimeout b s) := by
  unfold execExchangeTimeout
  extract_lets B us
  refine event_wf ?_ hs
  split
  · exact State.modBlock_wf (State.choose_wf hs)
  · exact hs

theorem State.exchangeRoom_wf {ex} (hs : s.MemWf) : (s.exchangeRoom ex).MemWf := by
  unfold State.exchangeRoom
  split
  · exact hs
  refine ite_wf hs ?_
  split
  · exact State.restoreAll_wf hs
  · exact hs

theorem execSave_wf {b} (hs : s.MemWf) : OutcomeWf (execSave b s) := by
  unfold execSave
  extract_lets bs B done
  exact event_wf (ite_wf (State.exchangeRoom_wf (foldl_wf (fun h => State.saveBlock_wf h) hs)) (State.halt_wf
      hs)) hs

theorem State.rerunBlock_wf {b} (hs : s.MemWf) : (s.rerunBlock b).MemWf :=
  State.modLaunch_wf (State.modBlock_wf (State.vacate_wf (State.dropIssue_wf (State.dropMatrix_wf
    (State.dropEngines_wf (State.reopenBlockCtx_wf hs))))))

theorem State.withdraw_wf {bs} (hs : s.MemWf) : (s.withdraw bs).MemWf := by
  unfold State.withdraw
  exact foldl_wf (fun h => h) hs

theorem execFlush_wf {b} (hs : s.MemWf) : OutcomeWf (execFlush b s) :=
  event_wf (ite_wf (foldl_wf (fun h => State.modBlock_wf h) hs)
    (State.exchangeRoom_wf (foldl_wf (fun h => State.rerunBlock_wf h) hs))) hs

theorem execCheckedFlush_wf {b} (hs : s.MemWf) : OutcomeWf (execCheckedFlush b s) :=
  event_wf (ite_wf (State.withdraw_wf hs)
    (State.exchangeRoom_wf (foldl_wf (fun h => State.modBlock_wf (State.rerunBlock_wf h)) hs))) hs

theorem State.enterEntry_wf {core at_ prev e n} (hs : s.MemWf) :
    (s.enterEntry core at_ prev e n).MemWf := by
  induction n generalizing s e with
  | zero => exact hs
  | succ n ih => exact ite_wf (ih hs) hs

theorem execSchedEntryEnd_wf {core} (hs : s.MemWf) : OutcomeWf (execSchedEntryEnd core s) := by
  refine event_wf ?_ hs
  split
  · exact State.enterEntry_wf hs
  · exact hs

theorem State.overrunFor_wf {core cycles} (hs : s.MemWf) : (s.overrunFor core cycles).MemWf := by
  unfold State.overrunFor
  exact foldl_wf (fun h => h) hs

theorem State.discardLoops_wf {b} (hs : s.MemWf) : (s.discardLoops b).MemWf := by
  unfold State.discardLoops
  exact foldl_wf (fun h => State.modBside_wf h) hs

theorem execOverrunWatchdog_wf {b} (hs : s.MemWf) : OutcomeWf (execOverrunWatchdog b s) := by
  unfold execOverrunWatchdog
  extract_lets B
  refine event_wf ?_ hs
  extract_lets tag below s1 debt s2 s3
  have hs1 : s1.MemWf := State.voidNow_wf (State.cancelCmds_wf (State.discardLoops_wf hs))
  have hs2 : s2.MemWf := State.modBlock_wf hs1
  have hs3 : s3.MemWf := foldl_wf (fun ht => State.postCause_wf ht) hs2
  exact ite_wf hs3 (State.endLaunch_wf hs3)

/-! ## Checked blocks and rails

Pairs, mismatches and rail changes (R325 to R332). -/

theorem State.moveRail_wf {c high} (hs : s.MemWf) : (s.moveRail c high).MemWf :=
  ite_wf hs hs

theorem execRailChangeComplete_wf {cluster} (hs : s.MemWf) :
    OutcomeWf (execRailChangeComplete cluster s) :=
  event_wf hs hs

theorem State.startChange_wf {slice toPaired} (hs : s.MemWf) :
    (s.startChange slice toPaired).MemWf :=
  hs

theorem State.obeyRequest_wf {slice} (hs : s.MemWf) : (s.obeyRequest slice).MemWf := by
  unfold State.obeyRequest
  split
  · exact State.startChange_wf hs
  · exact hs

theorem execPairctlWrite_wf {slice v} (hs : s.MemWf) : OutcomeWf (execPairctlWrite slice v s) :=
  event_wf (State.obeyRequest_wf hs) hs

theorem State.invalidateSlice_wf {slice} (hs : s.MemWf) : (s.invalidateSlice slice).MemWf :=
  hs

theorem State.issueReset_wf {slice} (hs : s.MemWf) : (s.issueReset slice).MemWf :=
  foldl_wf (fun ht => State.setSpad_wf _ _ _ _ ht) hs

theorem State.raiseSlice_wf {slice} (hs : s.MemWf) : (s.raiseSlice slice).MemWf :=
  State.moveRail_wf (State.moveRail_wf hs)

theorem State.toStep_wf {slice n} (hs : s.MemWf) : (s.toStep slice n).MemWf :=
  hs

theorem State.stepChange_wf {slice} (hs : s.MemWf) : (s.stepChange slice).MemWf := by
  unfold State.stepChange
  extract_lets P
  split
  · exact State.toStep_wf (State.invalidateSlice_wf hs)
  · exact ite_wf (State.toStep_wf (State.raiseSlice_wf hs)) (State.toStep_wf (State.issueReset_wf
        hs))
  · exact State.toStep_wf (State.issueReset_wf hs)
  · exact State.obeyRequest_wf (State.modPair_wf hs)
  · exact hs

theorem execPairModeChange_wf {slice} (hs : s.MemWf) : OutcomeWf (execPairModeChange slice s) :=
  event_wf (State.stepChange_wf hs) hs

theorem execPairDrainTimeout_wf {slice} (hs : s.MemWf) : OutcomeWf (execPairDrainTimeout slice s) := by
  unfold execPairDrainTimeout
  extract_lets P
  exact event_wf (foldl_wf (fun ht => State.choose_wf ht) hs) hs

theorem execAutoPair_wf {part} (hs : s.MemWf) : OutcomeWf (execAutoPair part s) := by
  refine event_wf ?_ hs
  split
  · exact State.startChange_wf hs
  · exact hs

theorem execAutoUnpairTimeout_wf {slice} (hs : s.MemWf) :
    OutcomeWf (execAutoUnpairTimeout slice s) :=
  event_wf hs hs

theorem State.rerunFor_wf {b own} (hs : s.MemWf) : (s.rerunFor b own).MemWf :=
  State.modBlock_wf (State.rerunBlock_wf hs)

theorem State.mismatches_mmSeq_wf {ms n} (hs : s.MemWf) :
    ({ s with mismatches := ms, mmSeq := n } : State).MemWf :=
  hs

theorem State.mismatchRecord_wf {b slot kind pc diff} (hs : s.MemWf) :
    (s.mismatchRecord b slot kind pc diff).MemWf :=
  State.evPost_wf (State.mismatches_mmSeq_wf hs)

theorem State.recordAssayIn_wf {g} (hs : s.MemWf) : (s.recordAssayIn g).MemWf := by
  unfold State.recordAssayIn
  split
  · extract_lets G1 s1
    have hs1 : s1.MemWf := State.setGroup_wf hs
    split <;> exact hs1
  · exact hs

theorem State.recordAssay_wf {b} (hs : s.MemWf) : (s.recordAssay b).MemWf := by
  unfold State.recordAssay
  exact foldl_wf (fun h => State.recordAssayIn_wf h) hs

theorem State.mismatch_wf {b slot kind pc diff} (hs : s.MemWf) :
    (s.mismatch b slot kind pc diff).MemWf := by
  unfold State.mismatch
  extract_lets slice lasting bs s1 s2 s3 gone s4 s5
  have h1 : s1.MemWf := State.mismatchRecord_wf hs
  have h2 : s2.MemWf := ite_wf (State.evPost_wf (State.modPair_wf h1)) h1
  have h3 : s3.MemWf := foldl_wf (fun h => State.recordAssay_wf h) h2
  have h4 : s4.MemWf := foldl_wf (fun h => ite_wf (State.endLaunch_wf h) h) h3
  have h5 : s5.MemWf := foldl_wf (fun h => ite_wf (State.dropIssue_wf (State.dropEngines_wf
    (State.dropMatrix_wf h))) (State.rerunFor_wf h)) h4
  exact State.issueReset_wf h5

theorem execAssayMismatch_wf {b} (hs : s.MemWf) : OutcomeWf (execAssayMismatch b s) := by
  refine event_wf ?_ hs
  split
  · exact State.mismatch_wf hs
  · exact hs

theorem execAssayTimeout_wf {b} (hs : s.MemWf) : OutcomeWf (execAssayTimeout b s) := by
  refine event_wf ?_ hs
  split
  · exact ite_wf (State.mismatch_wf hs) (State.mismatch_wf hs)
  · exact hs

theorem execAssayPass_wf {b} (hs : s.MemWf) : OutcomeWf (execAssayPass b s) :=
  event_wf (State.beginSettle_wf (State.modBlock_wf (ite_wf (State.countTransient_wf hs) hs))) hs

/-! ## Data faults

The retry of a fault, and what a failed retry comes to (R323, R324). -/

theorem State.workBad_wf {line c} (hs : s.MemWf) : (s.workBad line c).1.MemWf :=
  State.work_wf hs

theorem State.eccEntry_wf {f id e} (hs : s.MemWf) : (s.eccEntry f id e).MemWf := by
  unfold State.eccEntry
  extract_lets c mine rest own log x
  have hx : x.MemWf := State.fresh_wf hs
  exact ite_wf (State.faultLanes_wf hs) (ite_wf (State.faultLanes_wf hs) (State.faultLanes_wf hx))

theorem State.eccCopy_wf {f id c} (hs : s.MemWf) : (s.eccCopy f id c).MemWf :=
  hs

theorem State.eccCmd_wf {f c} (hs : s.MemWf) : (s.eccCmd f c).MemWf :=
  State.workBad_wf hs

theorem State.eccAt_wf {f x} (hs : s.MemWf) : (s.eccAt f x).MemWf := by
  cases x with
  | loop => exact State.stopLoop_wf hs
  | entry id e => exact State.eccEntry_wf hs
  | copy id c => exact State.eccCopy_wf hs
  | cmd c => exact State.eccCmd_wf hs
  | fetch b g pc =>
    simp only [State.eccAt]
    split
    · exact State.lateFaults_wf hs
    · exact hs
  | lane => exact State.lateFaults_wf hs

theorem State.eccLane_wf {f} (hs : s.MemWf) : (s.eccLane f).MemWf :=
  State.eccAt_wf hs

theorem State.failedRetry_wf {f} (hs : s.MemWf) : (s.failedRetry f).MemWf := by
  refine ite_wf hs ?_
  split
  · exact State.eccLane_wf hs
  · exact ite_wf (State.eccLane_wf hs) (ite_wf (State.endLaunch_wf hs) (State.rerunFor_wf hs))
  · exact State.mismatch_wf hs

theorem State.dropFaulty_wf {f} (hs : s.MemWf) : (s.dropFaulty f).MemWf :=
  ite_wf (State.l1Drop_wf hs) hs

theorem execDataFaultRetry_wf {f} (hs : s.MemWf) : OutcomeWf (execDataFaultRetry f s) :=
  event_wf (ite_wf (State.countTransient_wf (State.dropFaulty_wf hs)) (State.failedRetry_wf
      (State.dropFaulty_wf hs))) hs

/-! ## Lane words with their own effect

The integer words that are no `aluWord`. -/

theorem execShfl_wf {h mode d a b} (hs : s.MemWf) : OutcomeWf (execShfl h mode d a b s) :=
  issue_wf (fun _ _ h => State.alu_wf h) hs

theorem execVote_wf {h mode p d} (hs : s.MemWf) : OutcomeWf (execVote h mode p d s) :=
  issue_wf (fun _ _ h => State.alu_wf h) hs

theorem execS2v_wf {h sr d} (hs : s.MemWf) : OutcomeWf (execS2v h sr d s) :=
  issue_wf (fun _ _ ht => ite_wf (State.shared_wf ht) (State.alu_wf ht)) hs

theorem execV2s_wf {h a} (hs : s.MemWf) : OutcomeWf (execV2s h a s) :=
  issue_wf (fun _ _ ht => Env.finish_wf (foldl_wf (fun ht1 => State.modThread_wf ht1)
      (State.popQueues_wf ht))) hs

/-! ## Floating-point words

The frames of floating-point words, and the words that have none of them. -/

theorem fpWord_wf {i h d f} (hs : s.MemWf) : OutcomeWf (fpWord i h d s f) :=
  issue_wf (fun _ _ h => State.alu_wf h) hs

theorem execFsetp_wf {h cmp op p pd a b} (hs : s.MemWf) :
    OutcomeWf (execFsetp h cmp op p pd a b s) :=
  issue_wf (fun _ _ h => State.alu_wf h) hs

theorem sfunWord_wf {i h d a f} (hs : s.MemWf) : OutcomeWf (sfunWord i h d a s f) :=
  issue_wf (fun _ _ h => State.tracked_wf h) hs

theorem execFsqrt_wf {h rnd d a} (hs : s.MemWf) : OutcomeWf (execFsqrt h rnd d a s) :=
  sfunWord_wf hs

theorem execCvt_wf {h dst src rnd d a} (hs : s.MemWf) : OutcomeWf (execCvt h dst src rnd d a s) :=
  issue_wf (fun _ _ h => State.alu_wf h) hs

theorem execPairWord_wf {stall pred s0 s1} (hs : s.MemWf) :
    OutcomeWf (execPairWord stall pred s0 s1 s) :=
  issue_wf (fun _ _ h => State.alu_wf h) hs

/-! ## The security controller

Streams, keys and messages (R360 to R378). -/

theorem State.modSec_wf {f} (hs : s.MemWf) : (s.modSec f).MemWf :=
  hs

theorem State.setStream_wf {k m} (hs : s.MemWf) : (s.setStream k m).MemWf :=
  hs

theorem State.streamError_wf {k reason} (hs : s.MemWf) : (s.streamError k reason).MemWf :=
  ite_wf (State.evPost_wf (foldl_wf (fun ht => foldl_wf (fun ht1 => State.endLaunch_wf ht1)
      (State.stopQueue_wf ht)) (State.setStream_wf hs))) hs

theorem State.doBind_wf {k i} (hs : s.MemWf) : (s.doBind k i).2.MemWf := by
  unfold State.doBind
  extract_lets m
  split
  · exact hs
  · split
    · exact hs
    · exact State.setStream_wf hs

theorem State.doUnbind_wf {k i} (hs : s.MemWf) : (s.doUnbind k i).2.MemWf := by
  unfold State.doUnbind
  extract_lets m
  split
  · exact hs
  · exact State.setStream_wf hs

theorem State.doLock_wf {k owner} (hs : s.MemWf) : (s.doLock k owner).2.MemWf := by
  unfold State.doLock
  extract_lets m
  split
  · exact hs
  · split
    · exact hs
    · split
      · exact hs
      · exact State.setStream_wf hs

theorem State.deriveKeys_wf {k port} (hs : s.MemWf) : (s.deriveKeys k port).MemWf :=
  hs

theorem State.doStart_wf {k who} (hs : s.MemWf) : (s.doStart k who).2.MemWf := by
  unfold State.doStart
  extract_lets m
  split
  · exact hs
  · split
    · exact hs
    · exact foldl_wf (fun ht => State.deriveKeys_wf ht) (State.setStream_wf hs)

theorem State.doUnlock_wf {k who} (hs : s.MemWf) : (s.doUnlock k who).2.MemWf := by
  unfold State.doUnlock
  extract_lets m
  split
  · exact hs
  · split
    · exact hs
    · exact State.setStream_wf hs

theorem State.doQuery_wf {k} (hs : s.MemWf) : (s.doQuery k).2.MemWf :=
  hs

theorem State.doKeyprov_wf {pa} (hs : s.MemWf) : (s.doKeyprov pa).2.MemWf := by
  unfold State.doKeyprov
  split
  · exact hs
  · extract_lets blob b
    split
    · exact hs
    · split
      · exact hs
      · split
        · exact hs
        · split
          · split
            · exact hs
            · exact State.modSec_wf hs
          · split
            · exact hs
            · exact State.modSec_wf hs

theorem State.unbindSlot_wf {slot} (hs : s.MemWf) : (s.unbindSlot slot).MemWf :=
  foldl_wf (fun ht => foldl_wf (fun ht1 => foldl_wf (fun ht2 => State.setRecord_wf (ite_wf
      (State.zeroKeyed_wf ht2) ht2)) ht1) ht) hs

theorem State.extendMeas_wf {k d} (hs : s.MemWf) : (s.extendMeas k d).MemWf :=
  hs

theorem State.doExtend_wf {arg} (hs : s.MemWf) : (s.doExtend arg).2.MemWf := by
  unfold State.doExtend
  extract_lets k pa
  split
  · exact hs
  · exact State.extendMeas_wf hs

theorem State.secEnd_wf {r} (hs : s.MemWf) : (s.secEnd r).MemWf := by
  unfold State.secEnd
  split
  · exact hs
  · exact State.modSec_wf hs

theorem secEvent_wf {op f} (hf : ∀ who k arg, (f s who k arg).2.MemWf) (hs : s.MemWf) :
    OutcomeWf (secEvent op s f) := by
  refine event_wf ?_ hs
  split
  · exact State.secEnd_wf (hf _ _ _)
  · exact hs

theorem execBind_wf (hs : s.MemWf) : OutcomeWf (execBind s) :=
  secEvent_wf (fun _ _ _ => State.doBind_wf hs) hs

theorem execUnbind_wf (hs : s.MemWf) : OutcomeWf (execUnbind s) :=
  secEvent_wf (fun _ _ _ => State.doUnbind_wf hs) hs

theorem execLock_wf (hs : s.MemWf) : OutcomeWf (execLock s) :=
  secEvent_wf (fun _ _ _ => State.doLock_wf hs) hs

theorem execStart_wf (hs : s.MemWf) : OutcomeWf (execStart s) :=
  secEvent_wf (fun _ _ _ => State.doStart_wf hs) hs

theorem execUnlock_wf (hs : s.MemWf) : OutcomeWf (execUnlock s) :=
  secEvent_wf (fun _ _ _ => State.doUnlock_wf hs) hs

theorem execQuery_wf (hs : s.MemWf) : OutcomeWf (execQuery s) :=
  secEvent_wf (fun _ _ _ => State.doQuery_wf hs) hs

theorem execKeyprov_wf (hs : s.MemWf) : OutcomeWf (execKeyprov s) := by
  unfold execKeyprov
  split
  · exact outcomeWf_next.2 hs
  · exact secEvent_wf (fun _ _ _ => State.doKeyprov_wf hs) hs

theorem execExtend_wf (hs : s.MemWf) : OutcomeWf (execExtend s) :=
  secEvent_wf (fun _ _ _ => State.doExtend_wf hs) hs

theorem execKeyrevoke_wf (hs : s.MemWf) : OutcomeWf (execKeyrevoke s) := by
  refine event_wf ?_ hs
  split
  · exact ite_wf (State.unbindSlot_wf hs) (State.secEnd_wf (State.modSec_wf (State.unbindSlot_wf
        hs)))
  · exact hs

theorem execSecBadMessage_wf (hs : s.MemWf) : OutcomeWf (execSecBadMessage s) :=
  event_wf (State.secEnd_wf hs) hs

theorem State.drawKeys_wf (hs : s.MemWf) : s.drawKeys.MemWf :=
  hs

theorem State.sendPacket_wf {w} (hs : s.MemWf) : (s.sendPacket w).MemWf :=
  hs

theorem execNocPacketReceive_wf {w crcOk tagOk f} (hs : s.MemWf) :
    OutcomeWf (execNocPacketReceive w crcOk tagOk f s) :=
  event_wf (ite_wf (ite_wf (State.failedRetry_wf hs) (ite_wf (State.countTransient_wf hs) hs))
      (ite_wf (foldl_wf (fun ht => State.streamError_wf ht) (State.failedRetry_wf
      (State.sendPacket_wf hs))) (State.sendPacket_wf hs))) hs

/-! ## Power, DRAM and reset

The power controller, rails, DRAM windows and the cold reset, whose memory is empty (R354 to R398). -/

theorem State.chooseRail_wf {alloc c} (hs : s.MemWf) : (s.chooseRail alloc c).MemWf :=
  ite_wf (State.moveRail_wf hs) (ite_wf hs (ite_wf (State.moveRail_wf hs) (ite_wf hs (ite_wf (ite_wf
      (State.moveRail_wf hs) hs) (ite_wf (State.moveRail_wf hs) hs)))))

theorem State.setBudgets_wf {f} (hs : s.MemWf) : (s.setBudgets f).MemWf :=
  hs

theorem State.newInterval_wf (hs : s.MemWf) : s.newInterval.MemWf :=
  hs

theorem State.demand_wf {d} (hs : s.MemWf) : ({ s with demand := d } : State).MemWf :=
  hs

theorem execPowerControlTick_wf {r} (hs : s.MemWf) : OutcomeWf (execPowerControlTick r s) :=
  event_wf (State.newInterval_wf (State.setBudgets_wf (foldl_wf (fun h => State.chooseRail_wf h)
    (State.demand_wf hs)))) hs

theorem execDramWindow_wf (hs : s.MemWf) : OutcomeWf (execDramWindow s) :=
  event_wf hs hs

theorem State.chargeDram_wf (hs : s.MemWf) : s.chargeDram.MemWf :=
  hs

theorem execDramModeCheck_wf {group report} (hs : s.MemWf) :
    OutcomeWf (execDramModeCheck group report s) := by
  refine event_wf ?_ hs
  extract_lets s1 x
  have hs1 : s1.MemWf := hs
  exact ite_wf hs1 (State.evPost_wf hs1)

theorem State.countErrors_wf {c corr uncorr} (hs : s.MemWf) : (s.countErrors c corr uncorr).MemWf :=
  hs

theorem State.spreadErrors_wf {n cs} (hs : s.MemWf) : (s.spreadErrors n cs).MemWf := by
  induction cs generalizing s n with
  | nil => exact hs
  | cons c r ih =>
    cases r with
    | nil => exact State.countErrors_wf hs
    | cons d r =>
      refine ih ?_
      exact hs

theorem execUndervoltInterval_wf {n} (hs : s.MemWf) : OutcomeWf (execUndervoltInterval n s) := by
  refine event_wf ?_ hs
  extract_lets s1 L quiet v
  have hs1 : s1.MemWf := ite_wf hs (State.spreadErrors_wf hs)
  exact hs1

theorem State.raiseRail_wf (hs : s.MemWf) : s.raiseRail.MemWf :=
  ite_wf hs hs

theorem execLowRailUncorrectable_wf {cluster f} (hs : s.MemWf) :
    OutcomeWf (execLowRailUncorrectable cluster f s) := by
  refine event_wf ?_ hs
  extract_lets s1 x s2 s3 s4
  have hs1 : s1.MemWf := State.moveRail_wf hs
  have hs2 : s2.MemWf := hs1
  have hs3 : s3.MemWf := State.countErrors_wf (State.raiseRail_wf hs2)
  have hs4 : s4.MemWf := State.evPost_wf hs3
  exact ite_wf (State.dropFaulty_wf hs4) (State.failedRetry_wf (State.dropFaulty_wf hs4))

theorem execLowRailHoldExpiry_wf {cluster} (hs : s.MemWf) :
    OutcomeWf (execLowRailHoldExpiry cluster s) := by
  unfold execLowRailHoldExpiry
  extract_lets r
  exact event_wf hs hs

theorem State.coldReset_wf (s : State) : s.coldReset.MemWf := by
  rfl

theorem State.obeyHeat_wf (hs : s.MemWf) : s.obeyHeat.MemWf :=
  ite_wf (State.coldReset_wf _) (ite_wf (State.setBudgets_wf (foldl_wf (fun ht => ite_wf ht
      (State.moveRail_wf ht)) hs)) hs)

theorem State.junction_wf {j} (hs : s.MemWf) : ({ s with junction := j } : State).MemWf :=
  hs

theorem execJunctionCrossing_wf {slice level rising celsius} (hs : s.MemWf) :
    OutcomeWf (execJunctionCrossing slice level rising celsius s) := by
  unfold execJunctionCrossing
  extract_lets now
  exact event_wf (State.obeyHeat_wf (State.evPost_wf (State.junction_wf hs))) hs

theorem execColdReset_wf (s : State) : OutcomeWf (execColdReset s) :=
  outcomeWf_next.2 s.coldReset_wf

/-! ## Links

Link ports, and the accesses of a peer (R379 to R389). -/

theorem State.modLink_wf {p f} (hs : s.MemWf) : (s.modLink p f).MemWf :=
  hs

theorem State.linkTo_wf {p state} (hs : s.MemWf) : (s.linkTo p state).MemWf :=
  State.evPost_wf hs

theorem State.linkDown_wf {p} (hs : s.MemWf) : (s.linkDown p).MemWf :=
  foldl_wf (fun ht => State.failedRetry_wf ht) (foldl_wf (fun ht => State.streamError_wf ht)
      (State.linkTo_wf (State.modLink_wf hs)))

theorem execLinkDownTimeout_wf {port} (hs : s.MemWf) : OutcomeWf (execLinkDownTimeout port s) := by
  unfold execLinkDownTimeout
  extract_lets L
  exact event_wf (State.linkDown_wf hs) hs

theorem execLinkTraining_wf {port x} (hs : s.MemWf) : OutcomeWf (execLinkTraining port x s) := by
  unfold execLinkTraining
  extract_lets L
  exact event_wf (ite_wf (State.linkTo_wf hs) (State.linkTo_wf (State.modLink_wf hs))) hs

theorem execLinkctlRetrain_wf {p} (hs : s.MemWf) : OutcomeWf (execLinkctlRetrain p s) :=
  event_wf (State.linkDown_wf hs) hs

theorem State.takeHeader_wf {p f} (hs : s.MemWf) : (s.takeHeader p f).MemWf := by
  unfold State.takeHeader
  extract_lets L moved s1
  have hs1 : s1.MemWf := ite_wf (State.modLink_wf hs) hs
  split
  · exact hs1
  · exact State.modLink_wf hs1

theorem execLinkFlitReceive_wf {port f} (hs : s.MemWf) : OutcomeWf (execLinkFlitReceive port f s) := by
  unfold execLinkFlitReceive
  extract_lets L
  refine event_wf (ite_wf (State.modLink_wf hs) ?_) hs
  extract_lets s1
  have hs1 : s1.MemWf := State.takeHeader_wf hs
  refine ite_wf hs1 (ite_wf hs1 ?_)
  split
  · exact State.modLink_wf hs1
  · exact ite_wf (State.streamError_wf hs1) (State.modLink_wf hs1)

theorem State.peerReply_wf {r} (hs : s.MemWf) : ({ s with peerReply := r } : State).MemWf :=
  hs

theorem execPeerLinkRequest_wf {port a} (hs : s.MemWf) : OutcomeWf (execPeerLinkRequest port a s) := by
  unfold execPeerLinkRequest
  split
  · exact event_wf (State.peerReply_wf (State.sendFlit_wf hs)) hs
  · exact event_wf (ite_wf (State.peerReply_wf (State.sendFlit_wf (State.setBytes_wf _ _ _ hs)))
      (State.peerReply_wf (State.sendFlit_wf hs))) hs

/-! ## Registers

Writes to the registers of the control window (R347 to R391). -/

theorem State.modCfg_wf {f} (hs : s.MemWf) : (s.modCfg f).MemWf :=
  hs

theorem State.refuse_wf {code} (hs : s.MemWf) : (s.refuse code).MemWf :=
  hs

theorem State.frozenWrite_wf {ks} (hs : s.MemWf) : (s.frozenWrite ks).MemWf := by
  unfold State.frozenWrite
  exact foldl_wf (fun h => State.streamError_wf h) hs

theorem State.unlessFrozen_wf {ks f} (hf : (f s).MemWf) (hs : s.MemWf) : (s.unlessFrozen ks f).MemWf :=
  ite_wf hf (State.frozenWrite_wf hs)

theorem execIcinvWrite_wf {v} (hs : s.MemWf) : OutcomeWf (execIcinvWrite v s) :=
  outcomeWf_next.2 hs

theorem execIcinvComplete_wf (hs : s.MemWf) : OutcomeWf (execIcinvComplete s) :=
  event_wf hs hs

theorem State.xlinvStart_wf {v} (hs : s.MemWf) : (s.xlinvStart v).MemWf :=
  hs

theorem execXlinvWrite_wf {v} (hs : s.MemWf) : OutcomeWf (execXlinvWrite v s) :=
  outcomeWf_next.2 (State.xlinvStart_wf hs)

theorem State.xlinvDo_wf {v} (hs : s.MemWf) : (s.xlinvDo v).MemWf :=
  hs

theorem execXlinvComplete_wf (hs : s.MemWf) : OutcomeWf (execXlinvComplete s) := by
  refine event_wf ?_ hs
  split
  · extract_lets x1
    have hx1 : x1.MemWf := State.xlinvDo_wf hs
    exact hx1
  · exact hs

theorem State.abortQueue_wf {v} (hs : s.MemWf) : (s.abortQueue v).MemWf := by
  unfold State.abortQueue
  extract_lets q ls x
  have hx : x.MemWf := State.stopQueue_wf (foldl_wf (fun ht => State.endLaunch_wf ht) hs)
  exact ite_wf hs hx

theorem execLaunchabortWrite_wf {v} (hs : s.MemWf) : OutcomeWf (execLaunchabortWrite v s) :=
  outcomeWf_next.2 (State.abortQueue_wf hs)

theorem State.writePlayout_wf {v} (hs : s.MemWf) : (s.writePlayout v).MemWf :=
  State.unlessFrozen_wf (ite_wf (State.refuse_wf hs) (ite_wf (State.refuse_wf hs) (State.modCfg_wf hs))) hs

theorem execPlayoutWrite_wf {v} (hs : s.MemWf) : OutcomeWf (execPlayoutWrite v s) :=
  outcomeWf_next.2 (State.writePlayout_wf hs)

theorem execCfgerrClear_wf (hs : s.MemWf) : OutcomeWf (execCfgerrClear s) :=
  outcomeWf_next.2 (State.refuse_wf hs)

theorem State.partWrite_wf {f g} (hg : (g s).MemWf) (hs : s.MemWf) : (s.partWrite f g).MemWf :=
  ite_wf hs (State.unlessFrozen_wf hg hs)

theorem State.writePeng_wf {f v} (hs : s.MemWf) : (s.writePeng f v).MemWf :=
  State.partWrite_wf (ite_wf (State.refuse_wf hs) (ite_wf (State.refuse_wf hs) (State.modPart_wf hs))) hs

theorem execPengWrite_wf {f v} (hs : s.MemWf) : OutcomeWf (execPengWrite f v s) :=
  outcomeWf_next.2 (State.writePeng_wf hs)

theorem State.writePevt_wf {f v} (hs : s.MemWf) : (s.writePevt f v).MemWf :=
  State.partWrite_wf (ite_wf (State.refuse_wf hs) (ite_wf (State.refuse_wf hs) (State.modPart_wf hs))) hs

theorem execPevtWrite_wf {f v} (hs : s.MemWf) : OutcomeWf (execPevtWrite f v s) :=
  outcomeWf_next.2 (State.writePevt_wf hs)

theorem State.writePmint_wf {f v} (hs : s.MemWf) : (s.writePmint f v).MemWf :=
  State.partWrite_wf (ite_wf (State.refuse_wf hs) (State.modPart_wf hs)) hs

theorem execPmintWrite_wf {f v} (hs : s.MemWf) : OutcomeWf (execPmintWrite f v s) :=
  outcomeWf_next.2 (State.writePmint_wf hs)

theorem State.writeArea_wf {f k v} (hs : s.MemWf) : (s.writeArea f k v).MemWf :=
  State.partWrite_wf (ite_wf (State.refuse_wf hs) (State.modPart_wf hs)) hs

theorem State.writeTenant_wf {u v} (hs : s.MemWf) : (s.writeTenant u v).MemWf :=
  State.unlessFrozen_wf (ite_wf (State.refuse_wf hs) (ite_wf (State.refuse_wf hs) (State.modCfg_wf hs))) hs

theorem execTenantWrite_wf {u v} (hs : s.MemWf) : OutcomeWf (execTenantWrite u v s) :=
  event_wf (State.writeTenant_wf hs) hs

theorem State.clearHome_wf {core b} (hs : s.MemWf) : (s.clearHome core b).MemWf :=
  State.modBside_wf (foldl_wf (fun ht => State.zeroKeyed_wf ht) hs)

theorem State.clearQuarterState_wf {core q} (hs : s.MemWf) : (s.clearQuarterState core q).MemWf :=
  foldl_wf (fun h => State.setSpad_wf _ _ _ _ h) (State.zeroOb_wf _ _ _
    (foldl_wf (fun h => State.zeroTile_wf h) (foldl_wf (fun h => State.clearHome_wf h) hs)))

theorem State.writeQown_wf {n v} (hs : s.MemWf) : (s.writeQown n v).MemWf :=
  State.unlessFrozen_wf (ite_wf (State.refuse_wf hs) (ite_wf (State.refuse_wf hs)
    (foldl_wf (fun h => State.clearQuarterState_wf h) (State.modCfg_wf hs)))) hs

theorem execQownWrite_wf {n v} (hs : s.MemWf) : OutcomeWf (execQownWrite n v s) :=
  event_wf (State.writeQown_wf hs) hs

theorem State.writeFloor_wf {t v} (hs : s.MemWf) : (s.writeFloor t v).MemWf :=
  ite_wf (State.refuse_wf hs) (State.modCfg_wf hs)

theorem execFloorWrite_wf {t v} (hs : s.MemWf) : OutcomeWf (execFloorWrite t v s) :=
  event_wf (State.writeFloor_wf hs) hs

theorem State.writeLowrail_wf {v} (hs : s.MemWf) : (s.writeLowrail v).MemWf :=
  ite_wf (State.refuse_wf hs) hs

theorem execLowrailWrite_wf {v} (hs : s.MemWf) : OutcomeWf (execLowrailWrite v s) :=
  outcomeWf_next.2 (State.writeLowrail_wf hs)

theorem execRailcntClear_wf {c} (hs : s.MemWf) : OutcomeWf (execRailcntClear c s) :=
  outcomeWf_next.2 hs

theorem execEvrctlOverflowClear_wf (hs : s.MemWf) : OutcomeWf (execEvrctlOverflowClear s) :=
  outcomeWf_next.2 (State.evr_wf hs)

theorem execEvrlostClear_wf (hs : s.MemWf) : OutcomeWf (execEvrlostClear s) :=
  outcomeWf_next.2 (State.evr_wf hs)

theorem State.readMbx_wf (hs : s.MemWf) : s.readMbx.MemWf :=
  hs

theorem execMbxreplyRead_wf (hs : s.MemWf) : OutcomeWf (execMbxreplyRead s) :=
  outcomeWf_next.2 (State.readMbx_wf hs)

theorem State.takeMeas5_wf (hs : s.MemWf) : s.takeMeas5.MemWf :=
  ite_wf hs (State.extendMeas_wf hs)

theorem State.writeSqctl_wf {q v} (hs : s.MemWf) : (s.writeSqctl q v).MemWf := by
  refine State.unlessFrozen_wf ?_ hs
  extract_lets s1 s2 s3
  have h1 : s1.MemWf := State.modSq_wf hs
  have h2 : s2.MemWf := ite_wf (State.takeMeas5_wf h1) h1
  have h3 : s3.MemWf := ite_wf (State.skipRecord_wf h2) h2
  exact ite_wf (State.resumeQueue_wf h3) h3

theorem State.writeSqring_wf {q size v} (hs : s.MemWf) : (s.writeSqring q size v).MemWf :=
  State.unlessFrozen_wf (ite_wf hs (ite_wf (State.modSq_wf hs) (State.modSq_wf hs))) hs

theorem State.writeMbx_wf {v} (hs : s.MemWf) : (s.writeMbx v).MemWf :=
  ite_wf hs (State.modSec_wf hs)

theorem State.writeSpdm_wf {v} (hs : s.MemWf) : (s.writeSpdm v).MemWf :=
  ite_wf hs (State.modSec_wf hs)

theorem State.writeEvr_wf {k v} (hs : s.MemWf) : (s.writeEvr k v).MemWf := by
  unfold State.writeEvr
  extract_lets E put
  have hput : ∀ E, (put E).MemWf := fun E => hs
  split
  · exact hput _
  · exact ite_wf hs (hput _)
  · exact ite_wf hs (hput _)
  · exact hput _
  · exact hput _
  · exact hs

theorem State.writeLink_wf {p k v} (hs : s.MemWf) : (s.writeLink p k v).MemWf := by
  unfold State.writeLink
  split
  · exact ite_wf (State.linkDown_wf (State.modLink_wf hs)) (State.modLink_wf hs)
  · exact State.modLink_wf hs
  · exact State.modLink_wf hs
  · exact hs

theorem State.writePartReg_wf {f k v} (hs : s.MemWf) : (s.writePartReg f k v).MemWf := by
  unfold State.writePartReg
  split
  · exact State.writePeng_wf hs
  · exact State.writePmint_wf hs
  · exact State.writePevt_wf hs
  · exact State.writeArea_wf hs
  · exact State.writeArea_wf hs
  · exact State.writeArea_wf hs
  · exact State.writeArea_wf hs
  · exact hs

theorem State.writeSq_wf {q k v} (hs : s.MemWf) : (s.writeSq q k v).MemWf := by
  unfold State.writeSq
  split
  · exact State.writeSqctl_wf hs
  · exact State.writeSqring_wf hs
  · exact State.writeSqring_wf hs
  · exact ite_wf hs (State.doorbell_wf hs)
  · exact hs

theorem State.writeXlroot_wf {u v} (hs : s.MemWf) : (s.writeXlroot u v).MemWf :=
  State.unlessFrozen_wf (State.modCfg_wf hs) hs

theorem State.writeSched_wf {n j v} (hs : s.MemWf) : (s.writeSched n j v).MemWf :=
  State.modCfg_wf hs

theorem State.writeHostacct_wf {v} (hs : s.MemWf) : (s.writeHostacct v).MemWf :=
  ite_wf (State.refuse_wf hs) (State.modCfg_wf hs)

theorem State.writePairctl_wf {x v} (hs : s.MemWf) : (s.writePairctl x v).MemWf :=
  State.obeyRequest_wf hs

theorem State.ctlWrite_wf {o v} (hs : s.MemWf) : (s.ctlWrite o v).MemWf :=
  ite_wf (State.writeSq_wf hs) <|
  ite_wf hs <|
  ite_wf (State.xlinvStart_wf hs) <|
  ite_wf (State.abortQueue_wf hs) <|
  ite_wf (State.writeXlroot_wf hs) <|
  ite_wf (State.writeSched_wf hs) <|
  ite_wf (State.writePairctl_wf hs) <|
  ite_wf (State.writePlayout_wf hs) <|
  ite_wf (State.refuse_wf hs) <|
  ite_wf (State.writePartReg_wf hs) <|
  ite_wf (State.writeQown_wf hs) <|
  ite_wf (State.writeTenant_wf hs) <|
  ite_wf (State.modCfg_wf hs) <|
  ite_wf (State.writeFloor_wf hs) <|
  ite_wf (State.writeHostacct_wf hs) <|
  ite_wf (State.writeMbx_wf hs) <|
  ite_wf (State.writeSpdm_wf hs) <|
  ite_wf (State.writeEvr_wf hs) <|
  ite_wf (State.writeLowrail_wf hs) <|
  ite_wf hs <|
  ite_wf hs <|
  ite_wf (State.writeLink_wf hs) <|
  ite_wf (State.addCounter_wf hs) hs

theorem State.rbWrite_wf {o v} (hs : s.MemWf) : (s.rbWrite o v).MemWf :=
  ite_wf (State.modCfg_wf hs) hs

theorem execRegisterWrite_wf {pa v} (hs : s.MemWf) : OutcomeWf (execRegisterWrite pa v s) :=
  event_wf (ite_wf (State.ctlWrite_wf hs) (State.rbWrite_wf hs)) hs

/-! ## SPDM

The requests of the host to the security controller. -/

theorem State.spdmEnd_wf {bs} (hs : s.MemWf) : (s.spdmEnd bs).MemWf :=
  State.modSec_wf (ite_wf (State.setBytes_wf _ _ _ hs) hs)

theorem spdmEvent_wf {code after next slot} (hs : s.MemWf) :
    OutcomeWf (spdmEvent code after next slot s) :=
  event_wf (ite_wf (State.spdmEnd_wf hs) (ite_wf (State.spdmEnd_wf hs) (State.modSec_wf
      (State.spdmEnd_wf hs)))) hs

theorem execSpdmUnsupportedRequest_wf (hs : s.MemWf) : OutcomeWf (execSpdmUnsupportedRequest s) :=
  event_wf (State.spdmEnd_wf hs) hs

/-! ## The host

Accesses of the host to memory, and the bring-up (R6, R375, R395). -/

theorem State.hostTouch_wf {pa} (hs : s.MemWf) : (s.hostTouch pa).MemWf := by
  unfold State.hostTouch
  split
  · exact ite_wf (State.setSpad_wf _ _ _ _ hs) hs
  · exact State.sendFlit_wf hs
  · exact hs

theorem State.hostPut_wf {pa bs} (hs : s.MemWf) : (s.hostPut pa bs).MemWf := by
  unfold State.hostPut
  split
  · exact State.setBytes_wf _ _ _ hs
  · exact State.mapWrite_wf _ _ _ _ hs
  · exact hs

theorem State.hostReg_wf {pa v} (hs : s.MemWf) : (s.hostReg pa v).MemWf := by
  unfold State.hostReg
  split
  · exact State.ctlWrite_wf hs
  · exact State.rbWrite_wf hs
  · exact hs

theorem State.hostRead_wf {pa n} (hs : s.MemWf) : (s.hostRead pa n).MemWf := by
  refine ite_wf ?_ hs
  extract_lets bs s1 s2
  have hs1 : s1.MemWf := State.hostTouch_wf hs
  have hs2 : s2.MemWf := ite_wf (State.readMbx_wf hs1) hs1
  exact hs2

theorem State.hostWrite_wf {pa bs} (hs : s.MemWf) : (s.hostWrite pa bs).MemWf := by
  refine ite_wf ?_ hs
  extract_lets s1 s2 x
  have hs1 : s1.MemWf := State.hostTouch_wf hs
  have hs2 : s2.MemWf := ite_wf (State.hostReg_wf hs1) hs1
  have hx : x.MemWf := State.hostPut_wf hs2
  exact hx

theorem execHostMemoryAccess_wf {a} (hs : s.MemWf) : OutcomeWf (execHostMemoryAccess a s) := by
  unfold execHostMemoryAccess
  split
  · exact event_wf (State.hostRead_wf hs) hs
  · exact event_wf (State.hostWrite_wf hs) hs

theorem State.measureBoot_wf {k} (hs : s.MemWf) : (s.measureBoot k).MemWf :=
  hs

theorem State.bootTo_wf {ks} (hs : s.MemWf) : (s.bootTo ks).MemWf := by
  unfold State.bootTo
  exact foldl_wf (fun h => h) hs

theorem State.bootAction_wf {r} (hs : s.MemWf) : (s.bootAction r).MemWf := by
  unfold State.bootAction
  split
  · exact State.measureBoot_wf (State.bootTo_wf hs)
  · exact State.bootTo_wf hs
  · exact State.drawKeys_wf (State.modCfg_wf hs)
  · exact hs

theorem execBringUp_wf {r} (hs : s.MemWf) : OutcomeWf (execBringUp r s) :=
  event_wf (ite_wf (State.modSec_wf hs) (ite_wf (State.modSec_wf (State.bootAction_wf hs))
      (State.modSec_wf (State.bootTo_wf hs)))) hs

/-! ## Every instruction

One arm per instruction: the frame of a word where it says everything, else the lemma of the word. -/

/-- Every instruction and every event keeps the canonical form. -/
theorem exec_wf {i} (hs : s.MemWf) : OutcomeWf (exec i s) := by
  cases i with
  | nop | mov | movhi | iadd | isub | iadds | isubs | imul | imulh | imad | imadw | iadd64
  | isub64 | lea | lea64 | imin | imax | iabs | iand | ior | ixor | bmux | shl | shr | shf
  | rot | popc | clz | brev | bfe | bfi | prmt | isetp | isetp64 | iset | sel | pset | p2v
  | v2p | hash32 => exact aluWord_wf hs
  | shfl => exact execShfl_wf hs
  | vote => exact execVote_wf hs
  | s2v => exact execS2v_wf hs
  | v2s => exact execV2s_wf hs
  | imul64 | mov64 => exact aluWord_wf hs
  | fadd | fsub | fmul | ffma | fmin | fmax => exact fpWord_wf hs
  | fsetp => exact execFsetp_wf hs
  | fset | fclass => exact fpWord_wf hs
  | frcp | frsq => exact sfunWord_wf hs
  | fsqrt => exact execFsqrt_wf hs
  | fexp2 | flog2 | fsin | fcos | ftanh => exact sfunWord_wf hs
  | fscale | frnd | fdot2 | fmed3 => exact fpWord_wf hs
  | cvt => exact execCvt_wf hs
  | cvtpk | cbenc | cbdec => exact fpWord_wf hs
  | bra => exact execBra_wf hs
  | brd => exact execBrd_wf hs
  | brx => exact execBrx_wf hs
  | call => exact execCall_wf hs
  | callx => exact execCallx_wf hs
  | ret => exact execRet_wf hs
  | land => exact execLand_wf hs
  | reform => exact execReform_wf hs
  | gpin => exact execGpin_wf hs
  | gfree => exact execGfree_wf hs
  | exit => exact execExit_wf hs
  | yield => exact execYield_wf hs
  | bloop => exact execBloop_wf hs
  | ipref => exact execIpref_wf hs
  | iprefInv => exact execIprefInv_wf hs
  | launch => exact execLaunch_wf hs
  | evwait => exact execEvwait_wf hs
  | evsig => exact execEvsig_wf hs
  | nopw => exact execNopw_wf hs
  | ld => exact execLd_wf hs
  | st => exact execSt_wf hs
  | lds => exact execLds_wf hs
  | sts => exact execSts_wf hs
  | ldl => exact execLdl_wf hs
  | stl => exact execStl_wf hs
  | ldw => exact execLdw_wf hs
  | stw => exact execStw_wf hs
  | ldk => exact execLdk_wf hs
  | pref => exact execPref_wf hs
  | cctl => exact execCctl_wf hs
  | acp => exact execAcp_wf hs
  | acwait => exact execAcwait_wf hs
  | acqry => exact execAcqry_wf hs
  | ldcb => exact execLdcb_wf hs
  | xlq => exact execXlq_wf hs
  | amo => exact execAmo_wf hs
  | cas => exact execCas_wf hs
  | red => exact execRed_wf hs
  | fence => exact execFence_wf hs
  | bar => exact execBar_wf hs
  | bara => exact execBara_wf hs
  | barw => exact execBarw_wf hs
  | gbar => exact execGbar_wf hs
  | ssync => exact execSsync_wf hs
  | waitv => exact execWaitv_wf hs
  | ctxopen => exact execCtxopen_wf hs
  | ctxset => exact execCtxset_wf hs
  | ctxsettle | ctxvoid => exact retireWord_wf hs
  | ctxq => exact execCtxq_wf hs
  | ldcx => exact execLdcx_wf hs
  | ctxwait => exact execCtxwait_wf hs
  | ordhead => exact execOrdhead_wf hs
  | obres => exact execObres_wf hs
  | obset => exact execObset_wf hs
  | obfree => exact execObfree_wf hs
  | cbld => exact execCbld_wf hs
  | mloop => exact execMloop_wf hs
  | mwait => exact execMwait_wf hs
  | mzero => exact execMzero_wf hs
  | accld | accst => exact tileWord_wf hs
  | mrd => exact execMrd_wf hs
  | mout => exact tileWord_wf hs
  | mprog => exact execMprog_wf hs
  | keybind => exact execKeybind_wf hs
  | push => exact execPush_wf hs
  | qbind => exact execQbind_wf hs
  | qpeek => exact execQpeek_wf hs
  | qcnt => exact execQcnt_wf hs
  | qdrain => exact execQdrain_wf hs
  | bkqry => exact execBkqry_wf hs
  | bkwake => exact execBkwake_wf hs
  | bkdrop => exact execBkdrop_wf hs
  | spwake | spdrop => exact spadWord_wf hs
  | trap => exact execTrap_wf hs
  | tret => exact execTret_wf hs
  | tclr => exact execTclr_wf hs
  | trd => exact execTrd_wf hs
  | tmask => exact execTmask_wf hs
  | ologq => exact execOlogq_wf hs
  | brk => exact execBrk_wf hs
  | sysrd => exact execSysrd_wf hs
  | syswr => exact execSyswr_wf hs
  | cntrd => exact execCntrd_wf hs
  | psafe => exact execPsafe_wf hs
  | ilq => exact execIlq_wf hs
  | halt => exact execHalt_wf hs
  | mbox => exact execMbox_wf hs
  | illegalEncoding => exact execIllegalEncoding_wf hs
  | pairWord => exact execPairWord_wf hs
  | icacheFill => exact execIcacheFill_wf hs
  | scoreboardResult => exact execScoreboardResult_wf hs
  | storeAck => exact execStoreAck_wf hs
  | loggedAccessFault => exact execLoggedAccessFault_wf hs
  | bankWakeComplete => exact execBankWakeComplete_wf hs
  | binCandidateTimeout => exact execBinCandidateTimeout_wf hs
  | slotWaitTimeout => exact execSlotWaitTimeout_wf hs
  | yieldExpiry => exact execYieldExpiry_wf hs
  | joinRelease => exact execJoinRelease_wf hs
  | gpinRelease => exact execGpinRelease_wf hs
  | evwaitMet => exact execEvwaitMet_wf hs
  | barrierPhaseComplete => exact execBarrierPhaseComplete_wf hs
  | gbarPhaseComplete => exact execGbarPhaseComplete_wf hs
  | ssyncComplete => exact execSsyncComplete_wf hs
  | waitvMet => exact execWaitvMet_wf hs
  | waitvReread => exact execWaitvReread_wf hs
  | acwaitMet => exact execAcwaitMet_wf hs
  | acpComplete => exact execAcpComplete_wf hs
  | ordheadReached => exact execOrdheadReached_wf hs
  | ctxwaitReturn => exact execCtxwaitReturn_wf hs
  | psafeResolve => exact execPsafeResolve_wf hs
  | mboxReply => exact execMboxReply_wf hs
  | queueReadResume => exact execQueueReadResume_wf hs
  | handlerEntry => exact execHandlerEntry_wf hs
  | mintGrant => exact execMintGrant_wf hs
  | contextSettle => exact execContextSettle_wf hs
  | contextVoid => exact execContextVoid_wf hs
  | ctxPoolTimeout => exact execCtxPoolTimeout_wf hs
  | clearingSettle => exact execClearingSettle_wf hs
  | recordCheck => exact execRecordCheck_wf hs
  | launchReady => exact execLaunchReady_wf hs
  | blockDispatch => exact execBlockDispatch_wf hs
  | blockExit => exact execBlockExit_wf hs
  | launchComplete => exact execLaunchComplete_wf hs
  | gangReserveTimeout => exact execGangReserveTimeout_wf hs
  | exchangeTimeout => exact execExchangeTimeout_wf hs
  | preemptDeadlineTimeout => exact execPreemptDeadlineTimeout_wf hs
  | preemptTierTimeout => exact execPreemptTierTimeout_wf hs
  | noticeWindowExpiry => exact execNoticeWindowExpiry_wf hs
  | drainTimeout => exact execDrainTimeout_wf hs
  | save => exact execSave_wf hs
  | restore => exact execRestore_wf hs
  | flush => exact execFlush_wf hs
  | checkedFlush => exact execCheckedFlush_wf hs
  | schedEntryEnd => exact execSchedEntryEnd_wf hs
  | overrunWatchdog => exact execOverrunWatchdog_wf hs
  | pairModeChange => exact execPairModeChange_wf hs
  | pairDrainTimeout => exact execPairDrainTimeout_wf hs
  | autoPair => exact execAutoPair_wf hs
  | autoUnpairTimeout => exact execAutoUnpairTimeout_wf hs
  | assayTimeout => exact execAssayTimeout_wf hs
  | assayMismatch => exact execAssayMismatch_wf hs
  | assayPass => exact execAssayPass_wf hs
  | mloopStart => exact execMloopStart_wf hs
  | mloopFetchFault => exact execMloopFetchFault_wf hs
  | mloopEnd => exact execMloopEnd_wf hs
  | engineAccept => exact execEngineAccept_wf hs
  | receiptPost => exact execReceiptPost_wf hs
  | copy | gather | scatter | fill | stream | lookup | insert | sort | merge | hash | sign =>
    exact workWord_wf hs
  | linkDownTimeout => exact execLinkDownTimeout_wf hs
  | lowRailHoldExpiry => exact execLowRailHoldExpiry_wf hs
  | railChangeComplete => exact execRailChangeComplete_wf hs
  | hostCoherenceDrain => exact execHostCoherenceDrain_wf hs
  | operandLogEntryFreed => exact execOperandLogEntryFreed_wf hs
  | iprefInvComplete => exact execIprefInvComplete_wf hs
  | ssvInboxMessageTaken => exact execSsvInboxMessageTaken_wf hs
  | hostMemoryAccess => exact execHostMemoryAccess_wf hs
  | registerWrite => exact execRegisterWrite_wf hs
  | bringUp => exact execBringUp_wf hs
  | sqtailWrite => exact execSqtailWrite_wf hs
  | sqctlResume => exact execSqctlResume_wf hs
  | sqctlSkip => exact execSqctlSkip_wf hs
  | eventCounterHostAdd => exact execEventCounterHostAdd_wf hs
  | dataFaultRetry => exact execDataFaultRetry_wf hs
  | pairctlWrite => exact execPairctlWrite_wf hs
  | icinvWrite v => exact execIcinvWrite_wf (v := v) hs
  | xlinvWrite => exact execXlinvWrite_wf hs
  | launchabortWrite => exact execLaunchabortWrite_wf hs
  | playoutWrite => exact execPlayoutWrite_wf hs
  | pengWrite => exact execPengWrite_wf hs
  | pevtWrite => exact execPevtWrite_wf hs
  | pmintWrite => exact execPmintWrite_wf hs
  | tenantWrite => exact execTenantWrite_wf hs
  | qownWrite => exact execQownWrite_wf hs
  | floorWrite => exact execFloorWrite_wf hs
  | lowrailWrite => exact execLowrailWrite_wf hs
  | railcntClear => exact execRailcntClear_wf hs
  | linkctlRetrain => exact execLinkctlRetrain_wf hs
  | peerLinkRequest => exact execPeerLinkRequest_wf hs
  | linkFlitReceive => exact execLinkFlitReceive_wf hs
  | linkTraining => exact execLinkTraining_wf hs
  | nocPacketReceive => exact execNocPacketReceive_wf hs
  | powerControlTick => exact execPowerControlTick_wf hs
  | dramModeCheck => exact execDramModeCheck_wf hs
  | undervoltInterval => exact execUndervoltInterval_wf hs
  | lowRailUncorrectable => exact execLowRailUncorrectable_wf hs
  | junctionCrossing => exact execJunctionCrossing_wf hs
  | icinvComplete => exact execIcinvComplete_wf hs
  | xlinvComplete => exact execXlinvComplete_wf hs
  | cfgerrClear => exact execCfgerrClear_wf hs
  | evrctlOverflowClear => exact execEvrctlOverflowClear_wf hs
  | evrlostClear => exact execEvrlostClear_wf hs
  | mbxreplyRead => exact execMbxreplyRead_wf hs
  | bind => exact execBind_wf hs
  | unbind => exact execUnbind_wf hs
  | lock => exact execLock_wf hs
  | start => exact execStart_wf hs
  | unlock => exact execUnlock_wf hs
  | query => exact execQuery_wf hs
  | keyprov => exact execKeyprov_wf hs
  | keyrevoke => exact execKeyrevoke_wf hs
  | extend => exact execExtend_wf hs
  | secBadMessage => exact execSecBadMessage_wf hs
  | getVersion | getCapabilities | negotiateAlgorithms | getDigests | getCertificate
  | challenge | getMeasurements => exact spdmEvent_wf hs
  | spdmUnsupportedRequest => exact execSpdmUnsupportedRequest_wf hs
  | dramWindow => exact execDramWindow_wf hs
  | coldReset => exact execColdReset_wf s

/-! ## From a candidate to its word

Fetch and the candidates of a sequencer (R101 to R109). -/

/-- The states in the answer of `State.attempt` are canonical. -/
def Attempt.Wf : Attempt → Prop
  | .skip s | .done s | .run _ s => s.MemWf

theorem State.cachedLine_wf {pline l} (hs : s.MemWf) : (s.cachedLine pline l).2.MemWf := by
  unfold State.cachedLine
  split <;> exact hs

theorem State.fetch_wf {G} (hs : s.MemWf) : (s.fetch G).2.MemWf := by
  unfold State.fetch
  extract_lets R
  split
  next s1 he => exact snd_wf_of_eq he (State.fetchPa_wf hs)
  next s1 he =>
    have hs1 : s1.MemWf := snd_wf_of_eq he (State.fetchPa_wf hs)
    split
    · exact hs1
    · extract_lets r
      have hr : r.2.MemWf := State.cachedLine_wf hs1
      exact hr

theorem State.fetchFault_wf {g G cause} (hs : s.MemWf) : (s.fetchFault g G cause).MemWf :=
  State.finish_wf hs

theorem State.freeze_wf {q pline} (hs : s.MemWf) : (s.freeze q pline).MemWf :=
  hs

theorem State.passTurns_wf {q} (hs : s.MemWf) : (s.passTurns q).MemWf := by
  refine foldl_wf (fun {t} {a} ht => ?_) hs
  split
  · split
    · exact ite_wf (State.modBside_wf (State.modGroup_wf ht)) ht
    · exact ite_wf (State.modBside_wf (State.modGroup_wf ht)) ht
    · exact ht
  · exact ht

theorem State.endTurn_wf {s0 : State} {q c} (hs : s.MemWf) : (s0.endTurn q c s).MemWf := by
  unfold State.endTurn
  split
  · split
    · exact State.modBside_wf hs
    · exact hs
  · exact hs

theorem State.evictSlot_wf {q} (hs : s.MemWf) : (s.evictSlot q).MemWf := by
  unfold State.evictSlot
  split
  · exact State.setGroup_wf hs
  · exact hs

theorem State.seat_wf {q c} (hs : s.MemWf) : (s.seat q c).2.MemWf := by
  cases c with
  | slot g => exact hs
  | bare g => exact State.takeSlot_wf (State.modGroup_wf (ite_wf (State.evictSlot_wf hs) hs))
  | bin k =>
    simp only [State.seat]
    split
    · exact hs
    · exact State.takeSlot_wf (State.formBin_wf (ite_wf (State.evictSlot_wf hs) hs))

theorem State.joinSplit_wf {g G ts} (hs : s.MemWf) : (s.joinSplit g G ts).MemWf :=
  ite_wf (State.beginWait_wf hs) (State.beginWait_wf (State.spawn_wf (State.setGroup_wf hs)))

theorem State.attempt_wf {q c} (hs : s.MemWf) : Attempt.Wf (s.attempt q c) := by
  have hseat := State.seat_wf (q := q) (c := c) hs
  unfold State.attempt
  split
  next he => rw [he] at hseat; exact hseat
  next g t he =>
  rw [he] at hseat
  split
  · exact hseat
  next G _ =>
  have hfetch := State.fetch_wf (G := G) hseat
  dsimp only
  split
  · exact State.joinSplit_wf hseat
  split
  next hf => rw [hf] at hfetch; exact State.fetchFault_wf hfetch
  next hf => rw [hf] at hfetch; exact State.freeze_wf hfetch
  next hf => rw [hf] at hfetch; exact hfetch

theorem State.restamp_wf {g} (hs : s.MemWf) : (s.restamp g).MemWf :=
  hs

/-! ## Issue opportunities and the passing of time

What a move of the agenda or of the device does. -/

/-- Induction on the candidates: each attempt either ends the opportunity or hands a canonical state to the next one. -/
theorem State.tryCands_wf {q cs} (hs : s.MemWf) : OutcomeWf (State.tryCands q cs s) := by
  induction cs generalizing s with
  | nil => exact outcomeWf_next.2 hs
  | cons c r ih =>
    have hatt := State.attempt_wf (q := q) (c := c) hs
    simp only [State.tryCands]
    split
    next he => rw [he] at hatt; exact ih hatt
    next he => rw [he] at hatt; exact outcomeWf_next.2 hatt
    next i s1 he =>
    rw [he] at hatt
    have hexec := exec_wf (i := i) hatt
    split
    next t ht =>
      have hcur : ({ t with cur := none } : State).MemWf := hexec t ht
      split
      · refine outcomeWf_next.2 (State.endTurn_wf ?_)
        split
        · exact State.restamp_wf hcur
        · exact hcur
      · exact ih hcur
    · exact hexec

theorem State.issueAt_wf {q} (hs : s.MemWf) : OutcomeWf (s.issueAt q) := by
  unfold State.issueAt
  split
  · exact State.tryCands_wf (State.passTurns_wf hs)
  · exact outcomeWf_next.2 hs

theorem State.emptyTurns_wf {core cycles} (hs : s.MemWf) : (s.emptyTurns core cycles).MemWf :=
  foldl_wf (fun ht => ite_wf (State.modBside_wf ht) ht) hs

theorem State.now_wf {n} (hs : s.MemWf) : ({ s with now := n } : State).MemWf :=
  hs

theorem State.seqs_rails_wf {qs rs} (hs : s.MemWf) : ({ s with seqs := qs, rails := rs } : State).MemWf :=
  hs

theorem State.groups_wf {gs} (hs : s.MemWf) : ({ s with groups := gs } : State).MemWf :=
  hs

theorem State.passTime_wf {dt} (hs : s.MemWf) : (s.passTime dt).MemWf :=
  State.groups_wf (State.now_wf (State.chargeDram_wf (foldl_wf
    (fun h => State.emptyTurns_wf (State.overrunFor_wf h))
    (State.seqs_rails_wf (State.loopsGo_wf (State.stampTops_wf hs))))))

theorem State.tick_wf {dt} (hs : s.MemWf) : (s.tick dt).MemWf :=
  ite_wf (State.now_wf hs) (State.passTime_wf hs)

theorem firstChange_wf {f is t} (hf : ∀ i, OutcomeWf (f i)) (he : firstChange s f is = some t) :
    t.MemWf := by
  induction is with
  | nil => cases he
  | cons i r ih =>
    simp only [firstChange] at he
    split at he
    next u hu =>
      split at he
      · exact ih he
      · cases he; exact hf i _ hu
    · exact ih he

theorem firstIssue_wf {qs o} (hs : s.MemWf) (he : firstIssue s qs = some o) : OutcomeWf o := by
  induction qs with
  | nil => cases he
  | cons q r ih =>
    have hq := State.issueAt_wf (q := q) hs
    simp only [firstIssue] at he
    split at he
    next u hu =>
      split at he
      · exact ih he
      · cases he; rw [hu] at hq; exact hq
    · cases he; exact hq

theorem State.auto_wf (hs : s.MemWf) : OutcomeWf s.auto := by
  unfold State.auto
  split
  · exact outcomeWf_next.2 (State.tick_wf hs)
  split
  next h => exact outcomeWf_next.2 (firstChange_wf (fun _ => exec_wf hs) h)
  split
  next h => exact firstIssue_wf hs h
  · exact outcomeWf_next.2 (State.tick_wf hs)

theorem State.move_wf {m} (hs : s.MemWf) : OutcomeWf (s.move m) := by
  cases m with
  | event i =>
    simp only [State.move]
    split
    · exact exec_wf hs
    · exact outcomeWf_next.2 hs
  | issue q =>
    simp only [State.move]
    split
    · exact outcomeWf_next.2 hs
    · exact State.issueAt_wf hs
  | tick dt => exact outcomeWf_next.2 (State.tick_wf hs)

/-! ## The step -/

/-- One step keeps the canonical form. -/
theorem step_wf (hs : s.MemWf) : OutcomeWf (step s) := by
  unfold step
  split
  · exact State.move_wf hs
  · exact State.auto_wf hs

end Machine
end Sys2Proof
end

section

namespace Sys2Proof
namespace Machine

/-- Settles O59: every function that `step` is made of keeps `State.MemWf`. -/
theorem memoryStaysCanonical : Obligations.MemoryStaysCanonical := by
  intro s t hs he
  exact step_wf hs t he

end Machine
end Sys2Proof
end

section
namespace Sys2Proof

/-! ## Fields of a word -/

/-- Each field of a full word has the bits that Table 2-1 gives it. -/
structure Fields.Fits (f : Fields) : Prop where
  stall : f.stall < 16
  pneg : f.pneg < 2
  pred : f.pred < 8
  opc : f.opc < 512
  d : f.d < 256
  a : f.a < 256
  b : f.b < 256
  qh : f.qh < 16
  c : f.c < 262144

theorem Fields.toNat_lt {f : Fields} (hf : f.Fits) : f.toNat < 2 ^ 63 := by
  obtain ⟨hst, hpn, hpr, ho, hd, ha, hb, hq, hc⟩ := hf
  simp only [Fields.toNat]
  omega

/-- The fields of a word lie apart, so each is read back. -/
theorem Fields.ofNat_toNat {f : Fields} (hf : f.Fits) : Fields.ofNat f.toNat = f := by
  obtain ⟨st, pn, pr, o, d, a, b, q, c⟩ := f
  obtain ⟨hst, hpn, hpr, ho, hd, ha, hb, hq, hc⟩ := hf
  simp only [Fields.ofNat, Fields.toNat, bitsOf, Fields.mk.injEq] at *
  refine ⟨?_, ?_, ?_, ?_, ?_, ?_, ?_, ?_, ?_⟩ <;> omega

@[simp] theorem bitsOf_eq_self {x w : Nat} (h : x < 2 ^ w) : bitsOf x 0 w = x := by
  simp [bitsOf, Nat.mod_eq_of_lt h]

@[simp] theorem bitsOf_mul {k x lo w : Nat} (hk : k = 2 ^ lo) (h : x < 2 ^ w) : bitsOf (k * x) lo w = x := by
  subst hk
  rw [bitsOf, Nat.mul_div_cancel_left _ (Nat.two_pow_pos lo), Nat.mod_eq_of_lt h]

/-- What lies below a field does not show in it. -/
@[simp] theorem bitsOf_drop_low {l x lo w : Nat} (hl : l < 2 ^ lo) (hx : 2 ^ lo ∣ x) : bitsOf (l + x) lo w = bitsOf x lo w := by
  rw [bitsOf, bitsOf, Nat.add_div_of_dvd_left hx, Nat.div_eq_of_lt hl, Nat.zero_add]

/-- What lies above a field does not show in it. -/
@[simp] theorem bitsOf_drop_high {l x lo w : Nat} (hx : 2 ^ (lo + w) ∣ x) : bitsOf (l + x) lo w = bitsOf l lo w := by
  obtain ⟨y, rfl⟩ := hx
  rw [bitsOf, bitsOf, Nat.pow_add, Nat.mul_assoc, Nat.add_mul_div_left _ _ (Nat.two_pow_pos lo), Nat.add_mul_mod_self_left]

theorem bitNat_lt (b : Bool) : bitNat b < 2 := by cases b <;> decide

@[simp] theorem bitNat_beq_one (b : Bool) : (bitNat b == 1) = b := by cases b <;> rfl

/-! ## Codes -/

@[simp] theorem Rnd.ofCode_code (r : Rnd) : Rnd.ofCode r.code = .ok r := by cases r <;> rfl
@[simp] theorem Size.ofCode_code (z : Size) : Size.ofCode z.code = .ok z := by cases z <;> rfl
@[simp] theorem FFmt.ofCode_code (f : FFmt) : FFmt.ofCode f.code = .ok f := by cases f <;> rfl
@[simp] theorem Scope.ofCode_code (c : Scope) : Scope.ofCode c.code = .ok c := by cases c <;> rfl
@[simp] theorem Order.ofCode_code (o : Order) : Order.ofCode o.code = .ok o := by cases o <;> rfl
@[simp] theorem Hint.ofCode_code (n : Hint) : Hint.ofCode n.code = .ok n := by cases n <;> rfl
@[simp] theorem Cmp.ofCode_code (c : Cmp) : Cmp.ofCode c.code = .ok c := by cases c <;> rfl
@[simp] theorem FCmp.ofCode_code (c : FCmp) : FCmp.ofCode c.code = .ok c := by cases c <;> rfl
@[simp] theorem PComb.ofCode_code (o : PComb) : PComb.ofCode o.code = .ok o := by cases o <;> rfl
@[simp] theorem PsetOp.ofCode_code (o : PsetOp) : PsetOp.ofCode o.code = .ok o := by cases o <;> rfl
@[simp] theorem ShflMode.ofCode_code (m : ShflMode) : ShflMode.ofCode m.code = .ok m := by cases m <;> rfl
@[simp] theorem VoteMode.ofCode_code (m : VoteMode) : VoteMode.ofCode m.code = .ok m := by cases m <;> rfl
@[simp] theorem CvtType.ofCode_code (t : CvtType) : CvtType.ofCode t.code = .ok t := by cases t <;> rfl
@[simp] theorem AtomOp.ofCode_code (o : AtomOp) : AtomOp.ofCode o.code = .ok o := by cases o <;> rfl
@[simp] theorem CctlOp.ofCode_code (o : CctlOp) : CctlOp.ofCode o.code = .ok o := by cases o <;> rfl
@[simp] theorem CbLen.ofCode_code (n : CbLen) : CbLen.ofCode n.code = .ok n := by cases n <;> rfl
@[simp] theorem ObFmt.ofCode_code (f : ObFmt) : ObFmt.ofCode f.code = .ok f := by cases f <;> rfl
@[simp] theorem MoutFmt.ofCode_code (f : MoutFmt) : MoutFmt.ofCode f.code = .ok f := by cases f <;> rfl
@[simp] theorem EngKind.ofCode_code (k : EngKind) : EngKind.ofCode k.code = .ok k := by cases k <;> rfl
@[simp] theorem QBinding.ofCode_code (b : QBinding) : QBinding.ofCode b.code = .ok b := by cases b <;> rfl
@[simp] theorem PairOp.ofCode_code (o : PairOp) : PairOp.ofCode o.code = .ok o := by cases o <;> rfl

theorem Rnd.code_lt (r : Rnd) : r.code < 4 := by cases r <;> decide
theorem Size.code_lt (z : Size) : z.code < 8 := by cases z <;> decide
theorem FFmt.code_lt (f : FFmt) : f.code < 8 := by cases f <;> decide
theorem Scope.code_lt (c : Scope) : c.code < 8 := by cases c <;> decide
theorem Order.code_lt (o : Order) : o.code < 8 := by cases o <;> decide
theorem Hint.code_lt (n : Hint) : n.code < 4 := by cases n <;> decide
theorem Cmp.code_lt (c : Cmp) : c.code < 8 := by cases c <;> decide
theorem FCmp.code_lt (c : FCmp) : c.code < 16 := by cases c <;> decide
theorem PComb.code_lt (o : PComb) : o.code < 4 := by cases o <;> decide
theorem PsetOp.code_lt (o : PsetOp) : o.code < 4 := by cases o <;> decide
theorem ShflMode.code_lt (m : ShflMode) : m.code < 4 := by cases m <;> decide
theorem VoteMode.code_lt (m : VoteMode) : m.code < 4 := by cases m <;> decide
theorem CvtType.code_lt (t : CvtType) : t.code < 16 := by cases t <;> decide
theorem AtomOp.code_lt (o : AtomOp) : o.code < 16 := by cases o <;> decide
theorem CctlOp.code_lt (o : CctlOp) : o.code < 8 := by cases o <;> decide
theorem CbLen.code_lt (n : CbLen) : n.code < 4 := by cases n <;> decide
theorem ObFmt.code_lt (f : ObFmt) : f.code < 4 := by cases f <;> decide
theorem MoutFmt.code_lt (f : MoutFmt) : f.code < 4 := by cases f <;> decide
theorem EngKind.code_lt (k : EngKind) : k.code < 4 := by cases k <;> decide
theorem QBinding.code_lt (b : QBinding) : b.code < 4 := by cases b <;> decide
theorem PairOp.code_pos (o : PairOp) : 0 < o.code := by cases o <;> decide
theorem PairOp.code_lt (o : PairOp) : o.code < 64 := by cases o <;> decide

/-! ## Registers and sources -/

@[simp] theorem Reg.ofCode_code (r : Reg) : Reg.ofCode r.code = .ok r := by
  cases r with
  | v n => simp [Reg.ofCode, Reg.code]
  | q k => simp [Reg.ofCode, Reg.code]
  | zero => rfl

theorem Reg.ofCode_of_lt {n : Nat} (h : n < 240) : Reg.ofCode n = .ok (.v ⟨n, h⟩) := by
  simp [Reg.ofCode, h]

theorem Reg.code_lt (r : Reg) : r.code < 249 := by
  cases r with
  | v n => exact Nat.lt_of_lt_of_le n.isLt (by decide)
  | q k => simp only [Reg.code]; omega
  | zero => decide

/-- A field that is read as a register has eight bits, and is not the mark of an immediate. -/
theorem Reg.lt_of_ofCode {n : Nat} {r : Reg} (h : Reg.ofCode n = .ok r) : n < 249 := by
  unfold Reg.ofCode at h
  split at h
  · omega
  · split at h
    · omega
    · split at h
      · omega
      · cases h

@[simp] theorem Src.ofFields_reg (h : Hdr) (o d a : Nat) (r : Reg) (c : Nat) : Src.ofFields (enc h o d a r.code c) = .ok (.reg r) := by
  have hne : r.code ≠ 255 := by have := r.code_lt; omega
  simp [Src.ofFields, enc, hne]

@[simp] theorem Src.ofFields_imm (h : Hdr) (o d a : Nat) (c : Fin 262144) : Src.ofFields (enc h o d a 255 c.val) = .ok (.imm c) := by
  simp [Src.ofFields, enc]

theorem Src.ofFields_code (h : Hdr) (o d a m : Nat) (b : Src) : Src.ofFields (enc h o d a b.bcode (b.ccode m)) = .ok b := by
  cases b with
  | reg r => exact Src.ofFields_reg h o d a r m
  | imm c => exact Src.ofFields_imm h o d a c

theorem Src.lt_of_ofFields {f : Fields} {b : Src} (h : Src.ofFields f = .ok b) : f.b < 256 := by
  unfold Src.ofFields at h
  split at h
  · omega
  · split at h
    next he => have := Reg.lt_of_ofCode he; omega
    · cases h

/-! ## The header -/

@[simp] theorem Hdr.ofFields_enc (h : Hdr) (o d a b c : Nat) : Hdr.ofFields (enc h o d a b c) = .ok h := by
  obtain ⟨st, pn, pr, hint⟩ := h
  cases hint with
  | none => simp [Hdr.ofFields, enc, Hdr.qh]
  | some q =>
    obtain ⟨off, quarter⟩ := q
    have hbit : bitOf (8 + 4 * bitNat off + quarter.val) 2 = off := by
      have hlow : bitsOf (8 + 4 * bitNat off + quarter.val) 2 1 = bitNat off := by
        have := bitNat_lt off
        simp only [bitsOf]
        omega
      rw [bitOf, hlow, bitNat_beq_one]
    have hquarter : Fin.ofNat 4 (8 + 4 * bitNat off + quarter.val) = quarter := by
      apply Fin.ext
      simp only [Fin.ofNat]
      omega
    have hge : 8 ≤ 8 + 4 * bitNat off + quarter.val := by omega
    simp [-Fin.ofNat_eq_cast, Hdr.ofFields, enc, Hdr.qh, hbit, hquarter, hge]

theorem Hdr.qh_lt (h : Hdr) : h.qh < 16 := by
  unfold Hdr.qh
  split
  · decide
  next q _ => have := bitNat_lt q.off; omega

/-! ## Words that are read back -/

/-- The reading of the fields by the class of their opcode (Table 2-9), once header and register fields are read. -/
def readClass (o : Nat) (f : Fields) (h : Hdr) (d a : Reg) (b : Src) : Except DecodeError Instr :=
  match o / 64 with
  | 0 => rawAlu h (o % 64) f d a b
  | 1 => rawFloat h (o % 64) f d a b
  | 2 => rawControl h (o % 64) f d a b
  | 3 => rawMemory h (o % 64) f d a b
  | 4 => rawOrder h (o % 64) f d a b
  | 5 => rawMatrix h (o % 64) f d a b
  | 6 => rawEngine h (o % 64) f d a b
  | _ => rawSystem h (o % 64) f d a b

theorem rawFull_eq_readClass {f : Fields} {h : Hdr} {d a : Reg} {b : Src} (hh : Hdr.ofFields f = .ok h)
    (hd : Reg.ofCode f.d = .ok d) (ha : Reg.ofCode f.a = .ok a) (hb : Src.ofFields f = .ok b) :
    rawFull f = readClass f.opc f h d a b := by
  simp only [rawFull, hh, hd, ha, hb]
  rfl

/-- The word of a full instruction has its fields in their ranges, and they name the instruction. -/
structure Instr.Reads (i : Instr) : Prop where
  fits : i.fields.Fits
  raw : rawFull i.fields = .ok i

/-- A form is read back if each of its register fields can be read, and its class gives the form from what they are read as. -/
theorem Instr.Reads.of_fields {i : Instr} {h : Hdr} {o d a b c : Nat} {rd ra : Reg} {sb : Src} (hi : i.fields = enc h o d a b c)
    (hd : Reg.ofCode d = .ok rd) (ha : Reg.ofCode a = .ok ra) (hb : Src.ofFields (enc h o d a b c) = .ok sb) (ho : o < 512)
    (hc : c < 262144) (hr : readClass o (enc h o d a b c) h rd ra sb = .ok i) : i.Reads := by
  have hd' := Reg.lt_of_ofCode hd
  have ha' := Reg.lt_of_ofCode ha
  refine ⟨?_, ?_⟩
  · rw [hi]
    exact ⟨h.stall.isLt, bitNat_lt h.pneg, h.pred.isLt, ho, (by simp only [enc]; omega), (by simp only [enc]; omega),
      Src.lt_of_ofFields hb, h.qh_lt, hc⟩
  · rw [hi, rawFull_eq_readClass (Hdr.ofFields_enc ..) hd ha hb]
    exact hr

/-- A form with a B source: its register fields are read, and in the register form C[17:0] is `m` (R27). -/
theorem Instr.Reads.source {i : Instr} {h : Hdr} {o d a m : Nat} {rd ra : Reg} {b : Src} (hi : i.fields = encS h o d a b m)
    (hd : Reg.ofCode d = .ok rd) (ha : Reg.ofCode a = .ok ra) (hr : readClass o (encS h o d a b m) h rd ra b = .ok i)
    (ho : o < 512) (hm : m < 262144) : i.Reads :=
  .of_fields hi hd ha (Src.ofFields_code ..) ho (by cases b with
    | reg r => exact hm
    | imm c => exact c.isLt) hr

/-- A form whose B is a register. -/
theorem Instr.Reads.reg {i : Instr} {h : Hdr} {o d a c : Nat} {rd ra b : Reg} (hi : i.fields = enc h o d a b.code c)
    (hd : Reg.ofCode d = .ok rd) (ha : Reg.ofCode a = .ok ra) (hr : readClass o (enc h o d a b.code c) h rd ra (.reg b) = .ok i)
    (ho : o < 512) (hc : c < 262144) : i.Reads :=
  .of_fields hi hd ha (Src.ofFields_reg ..) ho hc hr

/-- A form whose B is unused. -/
theorem Instr.Reads.noB {i : Instr} {h : Hdr} {o d a c : Nat} {rd ra : Reg} (hi : i.fields = enc h o d a 0 c)
    (hd : Reg.ofCode d = .ok rd) (ha : Reg.ofCode a = .ok ra) (hr : readClass o (enc h o d a 0 c) h rd ra (.reg (.v 0)) = .ok i)
    (ho : o < 512) (hc : c < 262144) : i.Reads :=
  .reg (b := .v 0) hi hd ha hr ho hc

/-- A form that has only an immediate form. -/
theorem Instr.Reads.imm {i : Instr} {h : Hdr} {o d a : Nat} {c : Fin 262144} {rd ra : Reg} (hi : i.fields = enc h o d a 255 c.val)
    (hd : Reg.ofCode d = .ok rd) (ha : Reg.ofCode a = .ok ra) (hr : readClass o (enc h o d a 255 c.val) h rd ra (.imm c) = .ok i)
    (ho : o < 512) : i.Reads :=
  .of_fields hi hd ha (Src.ofFields_imm ..) ho c.isLt hr

@[simp] theorem Reg.ofCode_zero : Reg.ofCode 0 = .ok (.v 0) := rfl

@[simp] theorem Reg.code_mod (r : Reg) : r.code % 256 = r.code :=
  Nat.mod_eq_of_lt (Nat.lt_trans r.code_lt (by decide))

/-- Modifiers stand above C[7:0]. -/
@[simp] theorem mod_drop_high {l m : Nat} (hm : 256 ∣ m) : (l + m) % 256 = l % 256 := by
  obtain ⟨k, rfl⟩ := hm
  exact Nat.add_mul_mod_self_left ..

@[simp] theorem bind_exceptOk {α β : Type} (x : α) (f : α → Except DecodeError β) : (Except.ok x >>= f) = f x := rfl

@[simp] theorem enc_c (h : Hdr) (o d a b c : Nat) : (enc h o d a b c).c = c := rfl
@[simp] theorem enc_d (h : Hdr) (o d a b c : Nat) : (enc h o d a b c).d = d := rfl
@[simp] theorem enc_a (h : Hdr) (o d a b c : Nat) : (enc h o d a b c).a = a := rfl
@[simp] theorem enc_b (h : Hdr) (o d a b c : Nat) : (enc h o d a b c).b = b := rfl
@[simp] theorem encS_c (h : Hdr) (o d a m : Nat) (b : Src) : (encS h o d a b m).c = b.ccode m := rfl
@[simp] theorem encS_d (h : Hdr) (o d a m : Nat) (b : Src) : (encS h o d a b m).d = d := rfl
@[simp] theorem encS_a (h : Hdr) (o d a m : Nat) (b : Src) : (encS h o d a b m).a = a := rfl

/-- A modifier of a form with a B source is read back: from its bits in the register form, and as the default in the immediate form. -/
theorem Src.mod_ccode {b : Src} {m lo w dflt v : Nat} (hi : b.isImm = true → dflt = v) (hr : bitsOf m lo w = v) :
    b.mod (b.ccode m) lo w dflt = v := by
  cases b with
  | reg r => exact hr
  | imm c => exact hi rfl

theorem PSrc.bits_lt (p : PSrc) : p.bits < 16 := by
  have := bitNat_lt p.neg
  simp only [PSrc.bits]
  omega

@[simp] theorem Src.asReg_reg (r : Reg) : (Src.reg r).asReg = .ok r := rfl
@[simp] theorem Src.asImm_imm (c : Fin 262144) : (Src.imm c).asImm = .ok c := rfl

theorem Fin.ofNat_eq_of_mod {k n : Nat} [NeZero k] {x : Fin k} (h : n % k = x.val) : Fin.ofNat k n = x := Fin.ext h

theorem PSrc.ofBits_eq {p : PSrc} {c lo : Nat} (h : bitsOf c lo 4 = p.bits) : PSrc.ofBits c lo = p := by
  obtain ⟨k, neg⟩ := p
  have hb := bitNat_lt neg
  have hk : bitsOf c lo 3 = k.val := by
    simp only [bitsOf, PSrc.bits] at *
    omega
  have hn : bitsOf c (lo + 3) 1 = bitNat neg := by
    simp only [bitsOf, PSrc.bits, Nat.pow_add, ← Nat.div_div_eq_div_mul] at *
    omega
  simp [PSrc.ofBits, hk, bitOf, hn]

@[simp] theorem small_val (k : Fin 8) : small k.val = .ok k := by simp [small]
@[simp] theorem vreg_val (n : Fin 240) : vreg n.val = .ok n := by simp [vreg]
@[simp] theorem qfield_val (q : Fin 8) : qfield (240 + q.val) = .ok q := by simp [qfield]
@[simp] theorem Sel.ofCode_code (x : Sel) : Sel.ofCode x.code = .ok x := by
  cases x with
  | stack => rfl
  | link n => simp [Sel.ofCode, Sel.code, show n.val ≠ 248 by omega]

theorem Reg.ofCode_small (k : Fin 8) : Reg.ofCode k.val = .ok (.v ⟨k.val, by omega⟩) := Reg.ofCode_of_lt _
theorem Reg.ofCode_vreg (n : Fin 240) : Reg.ofCode n.val = .ok (.v n) := Reg.ofCode_of_lt n.isLt
theorem Reg.ofCode_queue (q : Fin 8) : Reg.ofCode (240 + q.val) = .ok (.q q) := Reg.ofCode_code (.q q)
theorem Reg.ofCode_sel (x : Sel) : ∃ r, Reg.ofCode x.code = .ok r := by
  cases x with
  | stack => exact ⟨.zero, rfl⟩
  | link n => exact ⟨.v n, Reg.ofCode_vreg n⟩

/-- The predicate that ISETP, ISETP64 and FSETP combine with is absent without a combining operation, as in the immediate form. -/
theorem Src.comb_ccode {b : Src} {op : PComb} {p : PSrc} (hd : b.isImm = true → op = .none) (hc : op = .none → p = ⟨0, false⟩) :
    b.mod (b.ccode (combC op p)) 12 2 0 = op.code ∧ b.psrc (b.ccode (combC op p)) = p := by
  have hop := op.code_lt
  have hp := p.bits_lt
  refine ⟨Src.mod_ccode (fun hb => by rw [hd hb]; rfl) (by simp (disch := omega) [combC]), ?_⟩
  cases b with
  | reg r => exact PSrc.ofBits_eq (by simp (disch := omega) [Src.ccode, combC])
  | imm c => exact (hc (hd rfl)).symm

/-- The rounding mode and the format of a form with a B source. -/
theorem Src.rounding_ccode {b : Src} {rnd : Rnd} {fmt : FFmt} (hd : b.isImm = true → fmt = .f32 ∧ rnd = .rn) :
    b.mod (b.ccode (256 * rnd.code + 1024 * fmt.code)) 8 2 0 = rnd.code ∧
      b.mod (b.ccode (256 * rnd.code + 1024 * fmt.code)) 10 3 0 = fmt.code := by
  have hr := rnd.code_lt
  have hf := fmt.code_lt
  refine ⟨Src.mod_ccode (fun hb => ?_) (by simp (disch := omega)), Src.mod_ccode (fun hb => ?_) (by simp (disch := omega))⟩ <;>
    · obtain ⟨rfl, rfl⟩ := hd hb
      rfl

theorem memC_lt (size : Size) (sg : Bool) (hint : Hint) (disp : Fin 256) : memC size sg hint disp < 262144 := by
  have hz := size.code_lt
  have hs := bitNat_lt sg
  have hn := hint.code_lt
  simp only [memC]
  omega

/-- What an access has beside its registers: size, sign, hint and displacement (Table 8-10). -/
structure Src.MemMods (b : Src) (size : Size) (sg : Bool) (hint : Hint) (disp : Fin 256) : Prop where
  size_eq : b.mod (b.ccode (memC size sg hint disp)) 8 3 2 = size.code
  sign_eq : b.mod (b.ccode (memC size sg hint disp)) 11 1 0 = bitNat sg
  hint_eq : b.mod (b.ccode (memC size sg hint disp)) 12 2 0 = hint.code
  disp_eq : b.mod (b.ccode (memC size sg hint disp)) 0 8 0 = disp.val

theorem Src.memMods {b : Src} {size : Size} {sg : Bool} {hint : Hint} {disp : Fin 256}
    (hd : b.isImm = true → size = .b32 ∧ sg = false ∧ hint = .ca ∧ disp = 0) : b.MemMods size sg hint disp := by
  have hz := size.code_lt
  have hs := bitNat_lt sg
  have hn := hint.code_lt
  refine ⟨Src.mod_ccode (fun hb => ?_) (by simp (disch := omega) [memC]), Src.mod_ccode (fun hb => ?_) (by simp (disch := omega) [memC]),
    Src.mod_ccode (fun hb => ?_) (by simp (disch := omega) [memC]), Src.mod_ccode (fun hb => ?_) (by simp (disch := omega) [memC])⟩ <;>
    · obtain ⟨rfl, rfl, rfl, rfl⟩ := hd hb
      rfl

end Sys2Proof
end

section
namespace Sys2Proof

/-! ## Forms with modifiers

Each form whose fields hold more than registers and an immediate: its codes lie apart, and an immediate form has the defaults (R27).
A lemma that serves several forms takes the form as a function of what is read back. -/

variable {o : Nat} {h : Hdr} {d a b c : Reg} {x : Src}

theorem Reg.code_v (n : Fin 240) : (Reg.v n).code = n.val := rfl

theorem Reg.code_lt_C (r : Reg) : r.code < 262144 := Nat.lt_trans r.code_lt (by decide)

/-- Forms with a third source register and nothing beside it. -/
theorem Instr.Reads.third (F : Reg → Instr) (hi : (F c).fields = enc h o d.code a.code b.code c.code)
    (hr : ∀ f, readClass o f h d a (.reg b) = (do .ok (F (← Reg.ofCode (f.c % 256))))) (ho : o < 512) : (F c).Reads :=
  .reg hi (Reg.ofCode_code d) (Reg.ofCode_code a) (by simp [hr]) ho c.code_lt_C

/-- Forms with a local number in D. -/
theorem Instr.Reads.localD (F : Fin 8 → Instr) {r : Fin 8} (hi : (F r).fields = enc h o r.val 0 0 0)
    (hr : ∀ f, readClass o f h (.v ⟨r.val, by omega⟩) (.v 0) (.reg (.v 0)) = (do .ok (F (← small f.d)))) (ho : o < 512) :
    (F r).Reads :=
  .noB hi (Reg.ofCode_small r) Reg.ofCode_zero (by simp [hr]) ho (by decide)

/-- Forms with a sign in bit 8, which an immediate form has as `dflt`. -/
theorem Instr.Reads.signed (dflt : Bool) (F : Bool → Instr) {sg : Bool}
    (hi : (F sg).fields = encS h o d.code a.code x (256 * bitNat sg)) (hd : x.isImm = true → sg = dflt)
    (hr : ∀ f, readClass o f h d a x = .ok (F (x.mod f.c 8 1 (bitNat dflt) == 1))) (ho : o < 512) : (F sg).Reads := by
  have hlt := bitNat_lt sg
  have hsg : x.mod (x.ccode (256 * bitNat sg)) 8 1 (bitNat dflt) = bitNat sg :=
    Src.mod_ccode (fun hx => by rw [hd hx]) (by simp (disch := omega))
  exact .source hi (Reg.ofCode_code d) (Reg.ofCode_code a) (by simp [hr, hsg]) ho (by omega)

/-- Forms with a flag in bit 8 beside a third source register. -/
theorem Instr.Reads.flagged (F : Bool → Reg → Instr) {sg : Bool}
    (hi : (F sg c).fields = enc h o d.code a.code b.code (c.code + 256 * bitNat sg))
    (hr : ∀ f, readClass o f h d a (.reg b) = (do .ok (F (bitOf f.c 8) (← Reg.ofCode (f.c % 256))))) (ho : o < 512) :
    (F sg c).Reads := by
  have hlt := bitNat_lt sg
  have hc := c.code_lt
  exact .reg hi (Reg.ofCode_code d) (Reg.ofCode_code a) (by simp (disch := omega) [hr, bitOf]) ho (by omega)

theorem combC_lt (op : PComb) (p : PSrc) : combC op p < 262144 := by
  have hop := op.code_lt
  have hp := p.bits_lt
  simp only [combC]
  omega

/-- ISETP and ISETP64: comparison, sign and destination predicate lie in D. -/
theorem Instr.Reads.isetp (F : Cmp → Bool → PComb → PSrc → Fin 8 → Instr) {cmp : Cmp} {sg : Bool} {op : PComb} {p : PSrc} {pd : Fin 8}
    (hi : (F cmp sg op p pd).fields = encS h o (isetpD cmp sg pd) a.code x (combC op p)) (hd : x.isImm = true → op = .none)
    (hc : op = .none → p = ⟨0, false⟩)
    (hr : ∀ f d, readClass o f h d a x = (do
      .ok (F (← Cmp.ofCode (bitsOf f.d 3 3)) (bitOf f.d 6) (← PComb.ofCode (x.mod f.c 12 2 0)) (x.psrc f.c) (Fin.ofNat 8 f.d))))
    (ho : o < 512) : (F cmp sg op p pd).Reads := by
  have hcmp := cmp.code_lt
  have hsg := bitNat_lt sg
  have hlt : isetpD cmp sg pd < 240 := by simp only [isetpD]; omega
  have hpd : Fin.ofNat 8 (isetpD cmp sg pd) = pd := Fin.ofNat_eq_of_mod (by simp only [isetpD]; omega)
  have hcode : bitsOf (isetpD cmp sg pd) 3 3 = cmp.code := by simp (disch := omega) [isetpD]
  have hsign : bitsOf (isetpD cmp sg pd) 6 1 = bitNat sg := by simp (disch := omega) [isetpD]
  obtain ⟨hop, hp⟩ := Src.comb_ccode hd hc
  exact .source hi (Reg.ofCode_of_lt hlt) (Reg.ofCode_code a)
    (by simp [-Fin.ofNat_eq_cast, hr, bitOf, hpd, hcode, hsign, hop, hp]) ho (combC_lt op p)

/-- Forms with a format and a rounding mode and a B source. -/
theorem Instr.Reads.rounding (F : FFmt → Rnd → Instr) {fmt : FFmt} {rnd : Rnd}
    (hi : (F fmt rnd).fields = encS h o d.code a.code x (256 * rnd.code + 1024 * fmt.code))
    (hd : x.isImm = true → fmt = .f32 ∧ rnd = .rn)
    (hr : ∀ f, readClass o f h d a x = (do .ok (F (← FFmt.ofCode (x.mod f.c 10 3 0)) (← Rnd.ofCode (x.mod f.c 8 2 0)))))
    (ho : o < 512) : (F fmt rnd).Reads := by
  have hlr := rnd.code_lt
  have hlf := fmt.code_lt
  obtain ⟨hrnd, hfmt⟩ := Src.rounding_ccode hd
  exact .source hi (Reg.ofCode_code d) (Reg.ofCode_code a) (by simp [hr, hrnd, hfmt]) ho (by omega)

/-- Forms with a format and a rounding mode beside a third source register. -/
theorem Instr.Reads.roundingThird (F : FFmt → Rnd → Reg → Instr) {fmt : FFmt} {rnd : Rnd}
    (hi : (F fmt rnd c).fields = enc h o d.code a.code b.code (c.code + 256 * rnd.code + 1024 * fmt.code))
    (hr : ∀ f, readClass o f h d a (.reg b) = (do
      .ok (F (← FFmt.ofCode (bitsOf f.c 10 3)) (← Rnd.ofCode (bitsOf f.c 8 2)) (← Reg.ofCode (f.c % 256)))))
    (ho : o < 512) : (F fmt rnd c).Reads := by
  have hlr := rnd.code_lt
  have hlf := fmt.code_lt
  have hlc := c.code_lt
  exact .reg hi (Reg.ofCode_code d) (Reg.ofCode_code a) (by simp (disch := omega) [hr]) ho (by omega)

/-- FMIN and FMAX. -/
theorem Instr.Reads.format (F : FFmt → Instr) {fmt : FFmt} (hi : (F fmt).fields = encS h o d.code a.code x (1024 * fmt.code))
    (hd : x.isImm = true → fmt = .f32) (hr : ∀ f, readClass o f h d a x = (do .ok (F (← FFmt.ofCode (x.mod f.c 10 3 0)))))
    (ho : o < 512) : (F fmt).Reads := by
  have hlf := fmt.code_lt
  have hfmt : x.mod (x.ccode (1024 * fmt.code)) 10 3 0 = fmt.code :=
    Src.mod_ccode (fun hx => by rw [hd hx]; rfl) (by simp (disch := omega))
  exact .source hi (Reg.ofCode_code d) (Reg.ofCode_code a) (by simp [hr, hfmt]) ho (by omega)

/-- Forms with one source and a rounding mode. -/
theorem Instr.Reads.roundingUnary (F : Rnd → Instr) {rnd : Rnd} (hi : (F rnd).fields = enc h o d.code a.code 0 (256 * rnd.code))
    (hr : ∀ f, readClass o f h d a (.reg (.v 0)) = (do .ok (F (← Rnd.ofCode (bitsOf f.c 8 2))))) (ho : o < 512) :
    (F rnd).Reads := by
  have hlr := rnd.code_lt
  exact .noB hi (Reg.ofCode_code d) (Reg.ofCode_code a) (by simp (disch := omega) [hr]) ho (by omega)

/-- RET and REFORM. -/
theorem Instr.Reads.select (F : Sel → Instr) {s : Sel} (hi : (F s).fields = enc h o 0 s.code 0 0)
    (hr : ∀ f a, readClass o f h (.v 0) a (.reg (.v 0)) = (do .ok (F (← Sel.ofCode f.a)))) (ho : o < 512) : (F s).Reads := by
  obtain ⟨r, hs⟩ := Reg.ofCode_sel s
  exact .noB hi Reg.ofCode_zero hs (by simp [hr]) ho (by decide)

/-- YIELD and NOPW. -/
theorem Instr.Reads.count (F : Option (Fin 262144) → Instr) {n : Option (Fin 262144)} (hi : (F n).fields = encCount h o n)
    (hr : ∀ f x, readClass o f h (.v 0) (.v 0) x = (do .ok (F (← countOf f x)))) (ho : o < 512) : (F n).Reads := by
  cases n with
  | none => exact .noB hi Reg.ofCode_zero Reg.ofCode_zero (by rw [hr]; rfl) ho (by decide)
  | some k => exact .imm hi Reg.ofCode_zero Reg.ofCode_zero (by rw [hr]; rfl) ho

/-- LD and LDL. -/
theorem Instr.Reads.access (F : Size → Bool → Hint → Fin 256 → Instr) {size : Size} {sg : Bool} {hint : Hint} {disp : Fin 256}
    (hi : (F size sg hint disp).fields = encS h o d.code a.code x (memC size sg hint disp))
    (hd : x.isImm = true → size = .b32 ∧ sg = false ∧ hint = .ca ∧ disp = 0)
    (hr : ∀ f, readClass o f h d a x = (do
      .ok (F (← Size.ofCode (x.mod f.c 8 3 2)) (x.mod f.c 11 1 0 == 1) (← Hint.ofCode (x.mod f.c 12 2 0))
        (Fin.ofNat 256 (x.mod f.c 0 8 0))))) (ho : o < 512) : (F size sg hint disp).Reads := by
  obtain ⟨hsize, hsign, hhint, hdisp⟩ := Src.memMods hd
  exact .source hi (Reg.ofCode_code d) (Reg.ofCode_code a) (by simp [hr, hsize, hsign, hhint, hdisp]) ho (memC_lt ..)

/-- ST, STL and LDK, which have no sign. -/
theorem Instr.Reads.unsignedAccess (F : Size → Hint → Fin 256 → Instr) {size : Size} {hint : Hint} {disp : Fin 256}
    (hi : (F size hint disp).fields = encS h o d.code a.code x (memC size false hint disp))
    (hd : x.isImm = true → size = .b32 ∧ hint = .ca ∧ disp = 0)
    (hr : ∀ f, readClass o f h d a x = (do
      .ok (F (← Size.ofCode (x.mod f.c 8 3 2)) (← Hint.ofCode (x.mod f.c 12 2 0)) (Fin.ofNat 256 (x.mod f.c 0 8 0)))))
    (ho : o < 512) : (F size hint disp).Reads := by
  obtain ⟨hsize, -, hhint, hdisp⟩ := Src.memMods (sg := false) fun hx => ⟨(hd hx).1, rfl, (hd hx).2⟩
  exact .source hi (Reg.ofCode_code d) (Reg.ofCode_code a) (by simp [hr, hsize, hhint, hdisp]) ho (memC_lt ..)

/-- BAR, BARA and BARW. -/
theorem Instr.Reads.barrier (F : BarArg → Instr) {g : BarArg} (hi : (F g).fields = encBar h o g)
    (hr : ∀ f a x, readClass o f h (.v 0) a x = (do .ok (F (← barArg f a x)))) (ho : o < 512) : (F g).Reads := by
  cases g with
  | reg r => exact .noB hi Reg.ofCode_zero (Reg.ofCode_code r) (by rw [hr]; rfl) ho (by decide)
  | imm id n =>
    have hid : Fin.ofNat 16 (id.val + 16 * n.val) = id := Fin.ofNat_eq_of_mod (by omega)
    have hn : Fin.ofNat 2048 n.val = n := Fin.ofNat_eq_of_mod (by omega)
    exact .imm (c := ⟨id.val + 16 * n.val, by omega⟩) hi Reg.ofCode_zero Reg.ofCode_zero
      (by simp (disch := omega) [-Fin.ofNat_eq_cast, hr, barArg, hid, hn]) ho

/-! ### Class 0 -/

theorem bmux_reads {f1 f0 : Fin 16} : (Instr.bmux h f1 f0 d a b c).Reads := by
  have hc := c.code_lt
  refine .reg rfl (Reg.ofCode_code d) (Reg.ofCode_code a) ?_ (by decide) (by omega)
  change (do .ok (Instr.bmux h (Fin.ofNat 16 (bitsOf _ 12 4)) (Fin.ofNat 16 (bitsOf _ 8 4)) d a b (← Reg.ofCode (_ % 256)))) = _
  simp (disch := omega)

theorem lea_reads {n : Fin 8} (hd : x.isImm = true → n = 2) : (Instr.lea h n d a x).Reads := by
  have hn : x.mod (x.ccode (256 * n.val)) 8 3 2 = n.val :=
    Src.mod_ccode (fun hx => by rw [hd hx]; rfl) (by simp (disch := omega))
  refine .source rfl (Reg.ofCode_code d) (Reg.ofCode_code a) ?_ (by decide) (by omega)
  change Except.ok (Instr.lea h (Fin.ofNat 8 (x.mod _ 8 3 2)) d a x) = _
  simp [hn]

theorem lea64_reads {n : Fin 8} {sg : Bool} (hd : x.isImm = true → n = 2 ∧ sg = true) : (Instr.lea64 h n sg d a x).Reads := by
  have hlt := bitNat_lt sg
  have hn : x.mod (x.ccode (256 * n.val + 2048 * bitNat sg)) 8 3 2 = n.val :=
    Src.mod_ccode (fun hx => by rw [(hd hx).1]; rfl) (by simp (disch := omega))
  have hsg : x.mod (x.ccode (256 * n.val + 2048 * bitNat sg)) 11 1 1 = bitNat sg :=
    Src.mod_ccode (fun hx => by rw [(hd hx).2]; rfl) (by simp (disch := omega))
  refine .source rfl (Reg.ofCode_code d) (Reg.ofCode_code a) ?_ (by decide) (by omega)
  change Except.ok (Instr.lea64 h (Fin.ofNat 8 (x.mod _ 8 3 2)) (x.mod _ 11 1 1 == 1) d a x) = _
  simp [hn, hsg]

theorem iset_reads {cmp : Cmp} {sg : Bool} : (Instr.iset h cmp sg d a b).Reads := by
  have hcmp := cmp.code_lt
  have hsg := bitNat_lt sg
  refine .reg rfl (Reg.ofCode_code d) (Reg.ofCode_code a) ?_ (by decide) (by omega)
  change (do .ok (Instr.iset h (← Cmp.ofCode (bitsOf _ 8 3)) (bitOf _ 11) d a b)) = _
  simp (disch := omega) [bitOf]

theorem sel_reads {p : PSrc} : (Instr.sel h p d a b).Reads := by
  have hlt := p.bits_lt
  have hp : PSrc.ofBits (256 * p.bits) 8 = p := PSrc.ofBits_eq (by simp (disch := omega))
  refine .reg rfl (Reg.ofCode_code d) (Reg.ofCode_code a) ?_ (by decide) (by omega)
  change Except.ok (Instr.sel h (PSrc.ofBits _ 8) d a b) = _
  rw [enc_c, hp]

theorem pset_reads {op : PsetOp} {pd : Fin 8} {p q : PSrc} : (Instr.pset h op pd p q).Reads := by
  have hop := op.code_lt
  have hltp := p.bits_lt
  have hltq := q.bits_lt
  have hp : PSrc.ofBits (256 * p.bits + 4096 * q.bits + 65536 * op.code) 8 = p := PSrc.ofBits_eq (by simp (disch := omega))
  have hq : PSrc.ofBits (256 * p.bits + 4096 * q.bits + 65536 * op.code) 12 = q := PSrc.ofBits_eq (by simp (disch := omega))
  refine .noB rfl (Reg.ofCode_small pd) Reg.ofCode_zero ?_ (by decide) (by omega)
  change (do .ok (Instr.pset h (← PsetOp.ofCode (bitsOf _ 16 2)) (← small _) (PSrc.ofBits _ 8) (PSrc.ofBits _ 12))) = _
  simp (disch := omega) [hp, hq]

theorem v2p_reads {m : Fin 128} : (Instr.v2p h m a).Reads := by
  refine .noB rfl Reg.ofCode_zero (Reg.ofCode_code a) ?_ (by decide) (by omega)
  change Except.ok (Instr.v2p h (Fin.ofNat 128 (bitsOf _ 8 7)) a) = _
  simp (disch := omega)

theorem shfl_reads {mode : ShflMode} (hd : ∀ n, x = .imm n → n.val < 32) : (Instr.shfl h mode d a x).Reads := by
  have hm := mode.code_lt
  cases x with
  | reg r =>
    refine .reg rfl (Reg.ofCode_code d) (Reg.ofCode_code a) ?_ (by decide) (by omega)
    change (do .ok (Instr.shfl h (← ShflMode.ofCode (bitsOf _ 8 2)) d a (.reg r))) = _
    simp (disch := omega)
  | imm n =>
    have hn := hd n rfl
    have hlow : Fin.ofNat 262144 (n.val % 32) = n := Fin.ofNat_eq_of_mod (by omega)
    refine .imm (c := ⟨n.val + 32 * mode.code, by omega⟩) rfl (Reg.ofCode_code d) (Reg.ofCode_code a) ?_ (by decide)
    change (do .ok (Instr.shfl h (← ShflMode.ofCode (bitsOf _ 5 2)) d a (.imm (Fin.ofNat 262144 (_ % 32))))) = _
    simp (disch := omega) [-Fin.ofNat_eq_cast, hlow]

theorem vote_reads {mode : VoteMode} {p : PSrc} : (Instr.vote h mode p d).Reads := by
  have hm := mode.code_lt
  have hlt := p.bits_lt
  have hp : PSrc.ofBits (256 * p.bits + 4096 * mode.code) 8 = p := PSrc.ofBits_eq (by simp (disch := omega))
  refine .noB rfl (Reg.ofCode_code d) Reg.ofCode_zero ?_ (by decide) (by omega)
  change (do .ok (Instr.vote h (← VoteMode.ofCode (bitsOf _ 12 2)) (PSrc.ofBits _ 8) d)) = _
  simp (disch := omega) [hp]

theorem s2v_reads {sr : Fin 21} : (Instr.s2v h sr d).Reads := by
  refine .noB rfl (Reg.ofCode_code d) Reg.ofCode_zero ?_ (by decide) (by omega)
  change (if hs : bitsOf _ 8 5 < 21 then Except.ok (Instr.s2v h ⟨bitsOf _ 8 5, hs⟩ d) else .error DecodeError.reservedCode) = _
  simp (disch := omega)

theorem v2s_reads : (Instr.v2s h a).Reads := by
  refine .noB rfl Reg.ofCode_zero (Reg.ofCode_code a) ?_ (by decide) (by decide)
  change (if bitsOf _ 8 5 = 18 then Except.ok (Instr.v2s h a) else .error DecodeError.reservedCode) = _
  rw [enc_c]
  exact if_pos (by decide)

/-! ### Class 1 -/

theorem fsetp_reads {cmp : FCmp} {op : PComb} {p : PSrc} {pd : Fin 8} (hd : x.isImm = true → op = .none)
    (hc : op = .none → p = ⟨0, false⟩) : (Instr.fsetp h cmp op p pd a x).Reads := by
  have hcmp := cmp.code_lt
  have hpd : Fin.ofNat 8 (pd.val + 8 * cmp.code) = pd := Fin.ofNat_eq_of_mod (by omega)
  have hcode : bitsOf (pd.val + 8 * cmp.code) 3 4 = cmp.code := by simp (disch := omega)
  obtain ⟨hop, hp⟩ := Src.comb_ccode hd hc
  refine .source rfl (Reg.ofCode_of_lt (by omega)) (Reg.ofCode_code a) ?_ (by decide) (combC_lt op p)
  change (do .ok (Instr.fsetp h (← FCmp.ofCode (bitsOf _ 3 4)) (← PComb.ofCode (x.mod _ 12 2 0)) (x.psrc _) (Fin.ofNat 8 _) a x)) = _
  simp [-Fin.ofNat_eq_cast, hpd, hcode, hop, hp]

theorem cvtpk_reads {fmt : FFmt} {rnd : Rnd} : (Instr.cvtpk h fmt rnd d a b).Reads := by
  have hr := rnd.code_lt
  have hf := fmt.code_lt
  refine .reg rfl (Reg.ofCode_code d) (Reg.ofCode_code a) ?_ (by decide) (by omega)
  change (do .ok (Instr.cvtpk h (← FFmt.ofCode (bitsOf _ 10 3)) (← Rnd.ofCode (bitsOf _ 8 2)) d a b)) = _
  simp (disch := omega)

theorem fmed3_reads {fmt : FFmt} : (Instr.fmed3 h fmt d a b c).Reads := by
  have hf := fmt.code_lt
  have hc := c.code_lt
  refine .reg rfl (Reg.ofCode_code d) (Reg.ofCode_code a) ?_ (by decide) (by omega)
  change (do .ok (Instr.fmed3 h (← FFmt.ofCode (bitsOf _ 10 3)) d a b (← Reg.ofCode (_ % 256)))) = _
  simp (disch := omega)

theorem fscale_reads {rnd : Rnd} (hd : x.isImm = true → rnd = .rn) : (Instr.fscale h rnd d a x).Reads := by
  have hr := rnd.code_lt
  have hrnd : x.mod (x.ccode (256 * rnd.code)) 8 2 0 = rnd.code :=
    Src.mod_ccode (fun hx => by rw [hd hx]; rfl) (by simp (disch := omega))
  refine .source rfl (Reg.ofCode_code d) (Reg.ofCode_code a) ?_ (by decide) (by omega)
  change (do .ok (Instr.fscale h (← Rnd.ofCode (x.mod _ 8 2 0)) d a x)) = _
  simp [hrnd]

theorem fset_reads {cmp : FCmp} {fmt : FFmt} : (Instr.fset h cmp fmt d a b).Reads := by
  have hcmp := cmp.code_lt
  have hf := fmt.code_lt
  refine .reg rfl (Reg.ofCode_code d) (Reg.ofCode_code a) ?_ (by decide) (by omega)
  change (do .ok (Instr.fset h (← FCmp.ofCode (bitsOf _ 8 4)) (← FFmt.ofCode (bitsOf _ 12 3)) d a b)) = _
  simp (disch := omega)

theorem fclass_reads {fmt : FFmt} : (Instr.fclass h fmt d a).Reads := by
  have hf := fmt.code_lt
  refine .noB rfl (Reg.ofCode_code d) (Reg.ofCode_code a) ?_ (by decide) (by omega)
  change (do .ok (Instr.fclass h (← FFmt.ofCode (bitsOf _ 8 3)) d a)) = _
  simp (disch := omega)

theorem cvt_reads {dst src : CvtType} {rnd : Rnd} : (Instr.cvt h dst src rnd d a).Reads := by
  have hr := rnd.code_lt
  have hdst := dst.code_lt
  have hsrc := src.code_lt
  refine .noB rfl (Reg.ofCode_code d) (Reg.ofCode_code a) ?_ (by decide) (by omega)
  change (do .ok (Instr.cvt h (← CvtType.ofCode (bitsOf _ 10 4)) (← CvtType.ofCode (bitsOf _ 14 4)) (← Rnd.ofCode (bitsOf _ 8 2)) d a)) = _
  simp (disch := omega)

theorem cbenc_reads {cb : Fin 240} : (Instr.cbenc h d a cb c).Reads := by
  refine .reg (b := .v cb) rfl (Reg.ofCode_code d) (Reg.ofCode_code a) ?_ (by decide) (c.code_lt_C)
  change (do .ok (Instr.cbenc h d a (← vreg _) (← Reg.ofCode (_ % 256)))) = _
  simp [Reg.code_v]

theorem cbdec_reads {n : Fin 8} {cb : Fin 240} : (Instr.cbdec h n d a cb c).Reads := by
  have hc := c.code_lt
  refine .reg (b := .v cb) rfl (Reg.ofCode_code d) (Reg.ofCode_code a) ?_ (by decide) (by omega)
  change (do .ok (Instr.cbdec h (Fin.ofNat 8 (bitsOf _ 8 3)) d a (← vreg _) (← Reg.ofCode (_ % 256)))) = _
  simp (disch := omega) [Reg.code_v]

/-! ### Class 2 -/

theorem call_reads {s : Sel} {n : Fin 262144} : (Instr.call h s n).Reads := by
  obtain ⟨r, hr⟩ := Reg.ofCode_sel s
  refine .imm rfl hr Reg.ofCode_zero ?_ (by decide)
  change (do .ok (Instr.call h (← Sel.ofCode s.code) n)) = _
  simp

theorem callx_reads {s : Sel} : (Instr.callx h s a).Reads := by
  obtain ⟨r, hr⟩ := Reg.ofCode_sel s
  refine .noB rfl hr (Reg.ofCode_code a) ?_ (by decide) (by decide)
  change (do .ok (Instr.callx h (← Sel.ofCode s.code) a)) = _
  simp

theorem ipref_reads {arg : Option (Fin 262144)} (hc : ∀ n, arg = some n → a = .v 0 ∧ b = .v 0) : (Instr.ipref h arg a b).Reads := by
  cases arg with
  | none =>
    refine .reg rfl Reg.ofCode_zero (Reg.ofCode_code a) ?_ (by decide) (by decide)
    change (if bitOf _ 8 then Except.ok (Instr.iprefInv h a b) else .ok (.ipref h none a b) : Except DecodeError Instr) = _
    rw [enc_c]
    exact if_neg (by decide)
  | some n =>
    obtain ⟨rfl, rfl⟩ := hc n rfl
    exact .imm rfl Reg.ofCode_zero Reg.ofCode_zero rfl (by decide)

theorem iprefInv_reads : (Instr.iprefInv h a b).Reads := by
  refine .reg rfl Reg.ofCode_zero (Reg.ofCode_code a) ?_ (by decide) (by decide)
  change (if bitOf _ 8 then Except.ok (Instr.iprefInv h a b) else .ok (.ipref h none a b) : Except DecodeError Instr) = _
  rw [enc_c]
  exact if_pos (by decide)

/-- The scope of EVWAIT and EVSIG, which an immediate form has as DEV. -/
theorem Src.scope_ccode {sc : Scope} (hd : x.isImm = true → sc = .dev) : x.mod (x.ccode (256 * sc.code)) 8 3 3 = sc.code := by
  have hlt := sc.code_lt
  exact Src.mod_ccode (fun hx => by rw [hd hx]; rfl) (by simp (disch := omega))

theorem evwait_reads {sc : Scope} (hd : x.isImm = true → sc = .dev) : (Instr.evwait h sc d a x).Reads := by
  have hlt := sc.code_lt
  refine .source rfl (Reg.ofCode_code d) (Reg.ofCode_code a) ?_ (by decide) (by omega)
  change (do .ok (Instr.evwait h (← Scope.ofCode (x.mod _ 8 3 3)) d a x)) = _
  simp [Src.scope_ccode hd]

theorem evsig_reads {sc : Scope} (hd : x.isImm = true → sc = .dev) : (Instr.evsig h sc a x).Reads := by
  have hlt := sc.code_lt
  refine .source rfl Reg.ofCode_zero (Reg.ofCode_code a) ?_ (by decide) (by omega)
  change (do .ok (Instr.evsig h (← Scope.ofCode (x.mod _ 8 3 3)) a x)) = _
  simp [Src.scope_ccode hd]

/-! ### Class 3 -/

theorem lds_reads {size : Size} {sg : Bool} {disp : Fin 256} (hd : x.isImm = true → size = .b32 ∧ sg = false ∧ disp = 0) :
    (Instr.lds h size sg d a x disp).Reads := by
  obtain ⟨hsize, hsign, -, hdisp⟩ := Src.memMods (hint := .ca) fun hx => ⟨(hd hx).1, (hd hx).2.1, rfl, (hd hx).2.2⟩
  refine .source rfl (Reg.ofCode_code d) (Reg.ofCode_code a) ?_ (by decide) (memC_lt ..)
  change (do .ok (Instr.lds h (← Size.ofCode (x.mod _ 8 3 2)) (x.mod _ 11 1 0 == 1) d a x (Fin.ofNat 256 (x.mod _ 0 8 0)))) = _
  simp [hsize, hsign, hdisp]

theorem sts_reads {size : Size} {disp : Fin 256} (hd : x.isImm = true → size = .b32 ∧ disp = 0) :
    (Instr.sts h size d a x disp).Reads := by
  obtain ⟨hsize, -, -, hdisp⟩ := Src.memMods (sg := false) (hint := .ca) fun hx => ⟨(hd hx).1, rfl, rfl, (hd hx).2⟩
  refine .source rfl (Reg.ofCode_code d) (Reg.ofCode_code a) ?_ (by decide) (memC_lt ..)
  change (do .ok (Instr.sts h (← Size.ofCode (x.mod _ 8 3 2)) d a x (Fin.ofNat 256 (x.mod _ 0 8 0)))) = _
  simp [hsize, hdisp]

theorem pref_reads {hint : Hint} (hd : x.isImm = true → hint = .ca) : (Instr.pref h hint a x).Reads := by
  have hlt := hint.code_lt
  have hhint : x.mod (x.ccode (4096 * hint.code)) 12 2 0 = hint.code :=
    Src.mod_ccode (fun hx => by rw [hd hx]; rfl) (by simp (disch := omega))
  refine .source rfl Reg.ofCode_zero (Reg.ofCode_code a) ?_ (by decide) (by omega)
  change (do .ok (Instr.pref h (← Hint.ofCode (x.mod _ 12 2 0)) a x)) = _
  simp [hhint]

theorem cctl_reads {op : CctlOp} (hd : x.isImm = true → op = .ivl) : (Instr.cctl h op a x).Reads := by
  have hlt := op.code_lt
  have hop : x.mod (x.ccode (256 * op.code)) 8 3 0 = op.code :=
    Src.mod_ccode (fun hx => by rw [hd hx]; rfl) (by simp (disch := omega))
  refine .source rfl Reg.ofCode_zero (Reg.ofCode_code a) ?_ (by decide) (by omega)
  change (do .ok (Instr.cctl h (← CctlOp.ofCode (x.mod _ 8 3 0)) a x)) = _
  simp [hop]

theorem acp_reads {tag : Fin 8} {hint : Hint} (hd : x.isImm = true → tag = 0 ∧ hint = .ca) : (Instr.acp h tag hint d a x).Reads := by
  have hlt := hint.code_lt
  have htag : x.mod (x.ccode (256 * tag.val + 4096 * hint.code)) 8 3 0 = tag.val :=
    Src.mod_ccode (fun hx => by rw [(hd hx).1]; rfl) (by simp (disch := omega))
  have hhint : x.mod (x.ccode (256 * tag.val + 4096 * hint.code)) 12 2 0 = hint.code :=
    Src.mod_ccode (fun hx => by rw [(hd hx).2]; rfl) (by simp (disch := omega))
  refine .source rfl (Reg.ofCode_code d) (Reg.ofCode_code a) ?_ (by decide) (by omega)
  change (do .ok (Instr.acp h (Fin.ofNat 8 (x.mod _ 8 3 0)) (← Hint.ofCode (x.mod _ 12 2 0)) d a x)) = _
  simp [htag, hhint]

theorem acwait_reads {mask n : Fin 256} : (Instr.acwait h mask n).Reads := by
  have hmask : Fin.ofNat 256 (mask.val + 256 * n.val) = mask := Fin.ofNat_eq_of_mod (by omega)
  have hn : Fin.ofNat 256 n.val = n := Fin.ofNat_eq_of_mod (by omega)
  refine .imm (c := ⟨mask.val + 256 * n.val, by omega⟩) rfl Reg.ofCode_zero Reg.ofCode_zero ?_ (by decide)
  change Except.ok (Instr.acwait h (Fin.ofNat 256 (mask.val + 256 * n.val)) (Fin.ofNat 256 (bitsOf (mask.val + 256 * n.val) 8 8))) = _
  simp (disch := omega) [-Fin.ofNat_eq_cast, hmask, hn]

theorem ldcb_reads {len : CbLen} (hd : x.isImm = true → len = .l4) : (Instr.ldcb h len d a x).Reads := by
  have hlt := len.code_lt
  have hlen : x.mod (x.ccode (256 * len.code)) 8 2 0 = len.code :=
    Src.mod_ccode (fun hx => by rw [hd hx]; rfl) (by simp (disch := omega))
  refine .source rfl (Reg.ofCode_code d) (Reg.ofCode_code a) ?_ (by decide) (by omega)
  change (do .ok (Instr.ldcb h (← CbLen.ofCode (x.mod _ 8 2 0)) d a x)) = _
  simp [hlen]

/-! ### Class 4 -/

theorem amo_reads {op : AtomOp} {size : Size} {ord : Order} {sc : Scope} : (Instr.amo h op size ord sc d a b).Reads := by
  have hop := op.code_lt
  have hsize := size.code_lt
  have hord := ord.code_lt
  have hsc := sc.code_lt
  refine .reg rfl (Reg.ofCode_code d) (Reg.ofCode_code a) ?_ (by decide) (by omega)
  change (do .ok (Instr.amo h (← AtomOp.ofCode (bitsOf _ 14 4)) (← Size.ofCode (bitsOf _ 0 3)) (← Order.ofCode (bitsOf _ 11 3))
    (← Scope.ofCode (bitsOf _ 8 3)) d a b)) = _
  simp (disch := omega)

theorem red_reads {op : AtomOp} {size : Size} {ord : Order} {sc : Scope} : (Instr.red h op size ord sc a b).Reads := by
  have hop := op.code_lt
  have hsize := size.code_lt
  have hord := ord.code_lt
  have hsc := sc.code_lt
  refine .reg rfl Reg.ofCode_zero (Reg.ofCode_code a) ?_ (by decide) (by omega)
  change (do .ok (Instr.red h (← AtomOp.ofCode (bitsOf _ 14 4)) (← Size.ofCode (bitsOf _ 0 3)) (← Order.ofCode (bitsOf _ 11 3))
    (← Scope.ofCode (bitsOf _ 8 3)) a b)) = _
  simp (disch := omega)

theorem cas_reads {size : Size} {ord : Order} {sc : Scope} : (Instr.cas h size ord sc d a b c).Reads := by
  have hsize := size.code_lt
  have hord := ord.code_lt
  have hsc := sc.code_lt
  have hc := c.code_lt
  refine .reg rfl (Reg.ofCode_code d) (Reg.ofCode_code a) ?_ (by decide) (by omega)
  change (do .ok (Instr.cas h (← Size.ofCode (bitsOf _ 14 3)) (← Order.ofCode (bitsOf _ 11 3)) (← Scope.ofCode (bitsOf _ 8 3)) d a b
    (← Reg.ofCode (_ % 256)))) = _
  simp (disch := omega)

theorem fence_reads {ord : Order} {sc : Scope} : (Instr.fence h ord sc).Reads := by
  have hord := ord.code_lt
  have hsc := sc.code_lt
  refine .noB rfl Reg.ofCode_zero Reg.ofCode_zero ?_ (by decide) (by omega)
  change (do .ok (Instr.fence h (← Order.ofCode (bitsOf _ 11 3)) (← Scope.ofCode (bitsOf _ 8 3)))) = _
  simp (disch := omega)

theorem waitv_reads {cmp : Cmp} {sg : Bool} {size : Size} {sc : Scope} : (Instr.waitv h cmp sg size sc d a b).Reads := by
  have hcmp := cmp.code_lt
  have hsg := bitNat_lt sg
  have hsize := size.code_lt
  have hsc := sc.code_lt
  refine .reg rfl (Reg.ofCode_code d) (Reg.ofCode_code a) ?_ (by decide) (by omega)
  change (do .ok (Instr.waitv h (← Cmp.ofCode (bitsOf _ 11 3)) (bitOf _ 14) (← Size.ofCode (bitsOf _ 15 3)) (← Scope.ofCode (bitsOf _ 8 3))
    d a b)) = _
  simp (disch := omega) [bitOf]

theorem ctxopen_reads {sc : Scope} {set : Bool} {pd : Option (Fin 8)} : (Instr.ctxopen h sc set pd d).Reads := by
  have hsc := sc.code_lt
  have hset := bitNat_lt set
  cases pd with
  | none =>
    have htry : bitsOf (256 * sc.code + 2048 * bitNat set) 12 1 = 0 := by simp only [bitsOf]; omega
    refine .noB rfl (Reg.ofCode_code d) Reg.ofCode_zero ?_ (by decide) (show 256 * sc.code + 2048 * bitNat set + 0 < 262144 by omega)
    change (do .ok (Instr.ctxopen h (← Scope.ofCode (bitsOf _ 8 3)) (bitOf _ 11)
      (if bitOf _ 12 then some (Fin.ofNat 8 (bitsOf _ 13 3)) else none) d)) = _
    simp (disch := omega) [bitOf, htry]
  | some k =>
    have htry : bitsOf (256 * sc.code + 2048 * bitNat set + (4096 + 8192 * k.val)) 12 1 = 1 := by simp only [bitsOf]; omega
    have hk : bitsOf (256 * sc.code + 2048 * bitNat set + (4096 + 8192 * k.val)) 13 3 = k.val := by simp only [bitsOf]; omega
    refine .noB rfl (Reg.ofCode_code d) Reg.ofCode_zero ?_ (by decide)
      (show 256 * sc.code + 2048 * bitNat set + (4096 + 8192 * k.val) < 262144 by omega)
    change (do .ok (Instr.ctxopen h (← Scope.ofCode (bitsOf _ 8 3)) (bitOf _ 11)
      (if bitOf _ 12 then some (Fin.ofNat 8 (bitsOf _ 13 3)) else none) d)) = _
    simp (disch := omega) [bitOf, htry, hk]

theorem ldcx_reads {size : Size} {sg : Bool} : (Instr.ldcx h size sg d a b c).Reads := by
  have hsize := size.code_lt
  have hsg := bitNat_lt sg
  have hc := c.code_lt
  refine .reg rfl (Reg.ofCode_code d) (Reg.ofCode_code a) ?_ (by decide) (by omega)
  change (do .ok (Instr.ldcx h (← Size.ofCode (bitsOf _ 8 3)) (bitOf _ 11) d a b (← Reg.ofCode (_ % 256)))) = _
  simp (disch := omega) [bitOf]

theorem ctxwait_reads {sc : Scope} : (Instr.ctxwait h sc d a).Reads := by
  have hsc := sc.code_lt
  refine .noB rfl (Reg.ofCode_code d) (Reg.ofCode_code a) ?_ (by decide) (by omega)
  change (do .ok (Instr.ctxwait h (← Scope.ofCode (bitsOf _ 8 3)) d a)) = _
  simp (disch := omega)

/-! ### Classes 5 to 7 -/

theorem obres_reads {fmt : ObFmt} {len : Fin 4} {r : Fin 8} : (Instr.obres h fmt len r a b).Reads := by
  have hf := fmt.code_lt
  refine .reg rfl (Reg.ofCode_small r) (Reg.ofCode_code a) ?_ (by decide) (by omega)
  change (do .ok (Instr.obres h (← ObFmt.ofCode (bitsOf _ 8 2)) (Fin.ofNat 4 (bitsOf _ 10 2)) (← small _) a b)) = _
  simp (disch := omega)

theorem obset_reads {r : Fin 8} : (Instr.obset h r x).Reads := by
  refine .source rfl (Reg.ofCode_small r) Reg.ofCode_zero ?_ (by decide) (by decide)
  change (do .ok (Instr.obset h (← small r.val) x)) = _
  simp

theorem cbld_reads {r : Fin 8} {cb : Fin 240} : (Instr.cbld h r cb).Reads := by
  refine .reg (b := .v cb) rfl (Reg.ofCode_small r) Reg.ofCode_zero ?_ (by decide) (by decide)
  change (do .ok (Instr.cbld h (← small r.val) (← vreg cb.val))) = _
  simp

theorem mloop_reads {desc : Fin 240} : (Instr.mloop h d desc).Reads := by
  refine .noB rfl (Reg.ofCode_code d) (Reg.ofCode_vreg desc) ?_ (by decide) (by decide)
  change (do .ok (Instr.mloop h d (← vreg desc.val))) = _
  simp

/-- ACCLD and ACCST. -/
theorem Instr.Reads.tileAccess (F : Fin 8 → Instr) {t : Fin 8} (hi : (F t).fields = encS h o t.val a.code x 0)
    (hr : ∀ f d, readClass o f h d a x = (do .ok (F (← small f.d)))) (ho : o < 512) : (F t).Reads :=
  .source hi (Reg.ofCode_small t) (Reg.ofCode_code a) (by simp [hr]) ho (by decide)

theorem mrd_reads {t : Fin 8} : (Instr.mrd h d t x).Reads := by
  refine .source rfl (Reg.ofCode_code d) (Reg.ofCode_small t) ?_ (by decide) (by decide)
  change (do .ok (Instr.mrd h d (← small t.val) x)) = _
  simp

theorem mout_reads {fmt : MoutFmt} {t r : Fin 8} : (Instr.mout h fmt t r a b).Reads := by
  have hf := fmt.code_lt
  refine .reg rfl (Reg.ofCode_small t) (Reg.ofCode_code a) ?_ (by decide) (by omega)
  change (do .ok (Instr.mout h (← MoutFmt.ofCode (bitsOf _ 8 2)) (← small _) (Fin.ofNat 8 (bitsOf _ 10 3)) a b)) = _
  simp (disch := omega)

theorem keybind_reads {r : Fin 8} : (Instr.keybind h r a).Reads := by
  refine .noB rfl (Reg.ofCode_small r) (Reg.ofCode_code a) ?_ (by decide) (by decide)
  change (do .ok (Instr.keybind h (← small r.val) a)) = _
  simp

theorem push_reads {pd : Fin 8} {kind : EngKind} {cmd : Fin 240} : (Instr.push h pd kind cmd).Reads := by
  have hk := kind.code_lt
  refine .noB rfl (Reg.ofCode_small pd) (Reg.ofCode_vreg cmd) ?_ (by decide) (by omega)
  change (do .ok (Instr.push h (← small _) (← EngKind.ofCode (bitsOf _ 8 2)) (← vreg _))) = _
  simp (disch := omega)

theorem qbind_reads {q : Fin 8} {bd : QBinding} : (Instr.qbind h q bd).Reads := by
  have hb := bd.code_lt
  refine .noB rfl Reg.ofCode_zero (Reg.ofCode_queue q) ?_ (by decide) (by omega)
  change (do .ok (Instr.qbind h (← qfield _) (← QBinding.ofCode (bitsOf _ 8 2)))) = _
  simp (disch := omega)

theorem qpeek_reads {q : Fin 8} : (Instr.qpeek h d q x).Reads := by
  refine .source rfl (Reg.ofCode_code d) (Reg.ofCode_queue q) ?_ (by decide) (by decide)
  change (do .ok (Instr.qpeek h d (← qfield (240 + q.val)) x)) = _
  simp

/-- QCNT and QDRAIN. -/
theorem Instr.Reads.queue (F : Fin 8 → Instr) {q : Fin 8} (hi : (F q).fields = enc h o d.code (240 + q.val) 0 0)
    (hr : ∀ f a, readClass o f h d a (.reg (.v 0)) = (do .ok (F (← qfield f.a)))) (ho : o < 512) : (F q).Reads :=
  .noB hi (Reg.ofCode_code d) (Reg.ofCode_queue q) (by simp [hr]) ho (by decide)

theorem bkwake_reads {m : Fin 16} : (Instr.bkwake h m).Reads := by
  have hm : Fin.ofNat 16 m.val = m := Fin.ofNat_eq_of_mod (by omega)
  refine .imm (c := ⟨m.val, by omega⟩) rfl Reg.ofCode_zero Reg.ofCode_zero ?_ (by decide)
  change Except.ok (Instr.bkwake h (Fin.ofNat 16 m.val)) = _
  rw [hm]

theorem bkdrop_reads {off : Bool} {m : Fin 16} : (Instr.bkdrop h off m).Reads := by
  have ho := bitNat_lt off
  have hm : Fin.ofNat 16 (m.val + 16 * bitNat off) = m := Fin.ofNat_eq_of_mod (by omega)
  refine .imm (c := ⟨m.val + 16 * bitNat off, by omega⟩) rfl Reg.ofCode_zero Reg.ofCode_zero ?_ (by decide)
  change Except.ok (Instr.bkdrop h (bitOf (m.val + 16 * bitNat off) 4) (Fin.ofNat 16 (m.val + 16 * bitNat off))) = _
  simp (disch := omega) [-Fin.ofNat_eq_cast, bitOf, hm]

theorem mbox_reads {sec : Bool} : (Instr.mbox h sec d a).Reads := by
  have hs := bitNat_lt sec
  refine .noB rfl (Reg.ofCode_code d) (Reg.ofCode_code a) ?_ (by decide) (by omega)
  change Except.ok (Instr.mbox h (bitOf _ 8) d a) = _
  simp (disch := omega) [bitOf]

end Sys2Proof
end

section
namespace Sys2Proof

/-- The check that a form without a combining operation names no predicate (R143). -/
theorem PSrc.of_absentOk {op : PComb} {p : PSrc} (hc : (op != .none || (p.k == 0 && !p.neg)) = true) (hop : op = .none) :
    p = ⟨0, false⟩ := by
  subst hop
  obtain ⟨k, neg⟩ := p
  simpa using hc

/-- Every full word with allowed codes is read back from its fields. -/
theorem Instr.reads_of_full {i : Instr} (hfull : i.isFull = true) (hd : i.immDefault = true) (hc : i.codesOk = true) : i.Reads := by
  cases i with
  | nop | land | gpin | gfree | exit | gbar | ssync | ordhead | tret | halt => exact .noB rfl Reg.ofCode_zero Reg.ofCode_zero rfl (by decide) (by decide)
  | mov h d x | mov64 h d x | spwake h d x | spdrop h d x | trd h d x | ologq h d x | sysrd h d x | cntrd h d x =>
    exact .source rfl (Reg.ofCode_code d) Reg.ofCode_zero rfl (by decide) (by decide)
  | syswr h a x => exact .source rfl Reg.ofCode_zero (Reg.ofCode_code a) rfl (by decide) (by decide)
  | iadd h d a x | isub h d a x | imul h d a x | iadd64 h d a x | isub64 h d a x | iand h d a x | ior h d a x | ixor h d a x
  | shl h d a x | rot h d a x | hash32 h d a x | imul64 h d a x | launch h d a x | xlq h d a x =>
    exact .source rfl (Reg.ofCode_code d) (Reg.ofCode_code a) rfl (by decide) (by decide)
  | movhi h d a | ldw h d a | stw h d a => exact .imm rfl (Reg.ofCode_code d) (Reg.ofCode_code a) rfl (by decide)
  | bra | brd | trap | brk => exact .imm rfl Reg.ofCode_zero Reg.ofCode_zero rfl (by decide)
  | bloop h a => exact .imm rfl Reg.ofCode_zero (Reg.ofCode_code a) rfl (by decide)
  | iabs h d a | popc h d a | clz h d a | brev h d a | frcp h d a | frsq h d a | fexp2 h d a | flog2 h d a | fsin h d a
  | fcos h d a | ftanh h d a | ctxq h d a | mprog h d a => exact .noB rfl (Reg.ofCode_code d) (Reg.ofCode_code a) rfl (by decide) (by decide)
  | p2v h d | acqry h d | bkqry h d | ilq h d => exact .noB rfl (Reg.ofCode_code d) Reg.ofCode_zero rfl (by decide) (by decide)
  | brx h a | ctxset h a | ctxsettle h a | ctxvoid h a | mwait h a | tclr h a =>
    exact .noB rfl Reg.ofCode_zero (Reg.ofCode_code a) rfl (by decide) (by decide)
  | imad h d a b => exact .third (.imad h d a b) rfl (fun _ => rfl) (by decide)
  | bfi h d a b => exact .third (.bfi h d a b) rfl (fun _ => rfl) (by decide)
  | prmt h d a b => exact .third (.prmt h d a b) rfl (fun _ => rfl) (by decide)
  | tmask h d a b => exact .reg rfl (Reg.ofCode_code d) (Reg.ofCode_code a) rfl (by decide) (by decide)
  | iadds h _ d a x => exact .signed true (.iadds h · d a x) rfl (by simpa [immDefault, imp_iff_not_or] using hd) (fun _ => rfl) (by decide)
  | isubs h _ d a x => exact .signed true (.isubs h · d a x) rfl (by simpa [immDefault, imp_iff_not_or] using hd) (fun _ => rfl) (by decide)
  | imulh h _ d a x => exact .signed true (.imulh h · d a x) rfl (by simpa [immDefault, imp_iff_not_or] using hd) (fun _ => rfl) (by decide)
  | imin h _ d a x => exact .signed true (.imin h · d a x) rfl (by simpa [immDefault, imp_iff_not_or] using hd) (fun _ => rfl) (by decide)
  | imax h _ d a x => exact .signed true (.imax h · d a x) rfl (by simpa [immDefault, imp_iff_not_or] using hd) (fun _ => rfl) (by decide)
  | shr h _ d a x => exact .signed false (.shr h · d a x) rfl (by simpa [immDefault, imp_iff_not_or] using hd) (fun _ => rfl) (by decide)
  | bfe h _ d a x => exact .signed false (.bfe h · d a x) rfl (by simpa [immDefault, imp_iff_not_or] using hd) (fun _ => rfl) (by decide)
  | imadw h _ d a b => exact .flagged (.imadw h · d a b ·) rfl (fun _ => rfl) (by decide)
  | shf h _ d a b => exact .flagged (.shf h · d a b ·) rfl (fun _ => rfl) (by decide)
  | bmux => exact bmux_reads
  | lea => exact lea_reads (by simpa [immDefault, imp_iff_not_or] using hd)
  | lea64 => exact lea64_reads (by simpa [immDefault, imp_iff_not_or] using hd)
  | isetp h cmp sg op p pd a x =>
    exact .isetp (.isetp h · · · · · a x) rfl (by simpa [immDefault, imp_iff_not_or] using hd) (PSrc.of_absentOk hc) (fun _ _ => rfl) (by decide)
  | isetp64 h cmp sg op p pd a x =>
    exact .isetp (.isetp64 h · · · · · a x) rfl (by simpa [immDefault, imp_iff_not_or] using hd) (PSrc.of_absentOk hc) (fun _ _ => rfl) (by decide)
  | iset => exact iset_reads
  | sel => exact sel_reads
  | pset => exact pset_reads
  | v2p => exact v2p_reads
  | shfl => exact shfl_reads (by rintro n rfl; simpa [immDefault] using hd)
  | vote => exact vote_reads
  | s2v => exact s2v_reads
  | v2s => exact v2s_reads
  | fadd h _ _ d a x => exact .rounding (.fadd h · · d a x) rfl (by simpa [immDefault, imp_iff_not_or] using hd) (fun _ => rfl) (by decide)
  | fsub h _ _ d a x => exact .rounding (.fsub h · · d a x) rfl (by simpa [immDefault, imp_iff_not_or] using hd) (fun _ => rfl) (by decide)
  | fmul h _ _ d a x => exact .rounding (.fmul h · · d a x) rfl (by simpa [immDefault, imp_iff_not_or] using hd) (fun _ => rfl) (by decide)
  | ffma h _ _ d a b => exact .roundingThird (.ffma h · · d a b ·) rfl (fun _ => rfl) (by decide)
  | fdot2 h _ _ d a b => exact .roundingThird (.fdot2 h · · d a b ·) rfl (fun _ => rfl) (by decide)
  | cvtpk => exact cvtpk_reads
  | fmed3 => exact fmed3_reads
  | fmin h _ d a x => exact .format (.fmin h · d a x) rfl (by simpa [immDefault, imp_iff_not_or] using hd) (fun _ => rfl) (by decide)
  | fmax h _ d a x => exact .format (.fmax h · d a x) rfl (by simpa [immDefault, imp_iff_not_or] using hd) (fun _ => rfl) (by decide)
  | fsetp => exact fsetp_reads (by simpa [immDefault, imp_iff_not_or] using hd) (PSrc.of_absentOk hc)
  | fscale => exact fscale_reads (by simpa [immDefault, imp_iff_not_or] using hd)
  | fset => exact fset_reads
  | fclass => exact fclass_reads
  | fsqrt h _ d a => exact .roundingUnary (.fsqrt h · d a) rfl (fun _ => rfl) (by decide)
  | frnd h _ d a => exact .roundingUnary (.frnd h · d a) rfl (fun _ => rfl) (by decide)
  | cvt => exact cvt_reads
  | cbenc => exact cbenc_reads
  | cbdec => exact cbdec_reads
  | call => exact call_reads
  | callx => exact callx_reads
  | ret h => exact .select (.ret h) rfl (fun _ _ => rfl) (by decide)
  | reform h => exact .select (.reform h) rfl (fun _ _ => rfl) (by decide)
  | yield h => exact .count (.yield h) rfl (fun _ _ => rfl) (by decide)
  | nopw h => exact .count (.nopw h) rfl (fun _ _ => rfl) (by decide)
  | ipref => exact ipref_reads (by rintro n rfl; simpa [codesOk] using hc)
  | iprefInv => exact iprefInv_reads
  | evwait => exact evwait_reads (by simpa [immDefault, imp_iff_not_or] using hd)
  | evsig => exact evsig_reads (by simpa [immDefault, imp_iff_not_or] using hd)
  | ld h _ _ _ d a x =>
    exact .access (.ld h · · · d a x ·) rfl (by simpa [immDefault, imp_iff_not_or, and_assoc] using hd) (fun _ => rfl) (by decide)
  | ldl h _ _ _ d a x =>
    exact .access (.ldl h · · · d a x ·) rfl (by simpa [immDefault, imp_iff_not_or, and_assoc] using hd) (fun _ => rfl) (by decide)
  | st h _ _ d a x =>
    exact .unsignedAccess (.st h · · d a x ·) rfl (by simpa [immDefault, imp_iff_not_or, and_assoc] using hd) (fun _ => rfl) (by decide)
  | stl h _ _ d a x =>
    exact .unsignedAccess (.stl h · · d a x ·) rfl (by simpa [immDefault, imp_iff_not_or, and_assoc] using hd) (fun _ => rfl) (by decide)
  | ldk h _ _ d a x =>
    exact .unsignedAccess (.ldk h · · d a x ·) rfl (by simpa [immDefault, imp_iff_not_or, and_assoc] using hd) (fun _ => rfl) (by decide)
  | lds => exact lds_reads (by simpa [immDefault, imp_iff_not_or, and_assoc] using hd)
  | sts => exact sts_reads (by simpa [immDefault, imp_iff_not_or] using hd)
  | pref => exact pref_reads (by simpa [immDefault, imp_iff_not_or] using hd)
  | cctl => exact cctl_reads (by simpa [immDefault, imp_iff_not_or] using hd)
  | acp => exact acp_reads (by simpa [immDefault, imp_iff_not_or] using hd)
  | acwait => exact acwait_reads
  | ldcb => exact ldcb_reads (by simpa [immDefault, imp_iff_not_or] using hd)
  | amo => exact amo_reads
  | red => exact red_reads
  | cas => exact cas_reads
  | fence => exact fence_reads
  | bar h => exact .barrier (.bar h) rfl (fun _ _ _ => rfl) (by decide)
  | bara h => exact .barrier (.bara h) rfl (fun _ _ _ => rfl) (by decide)
  | barw h => exact .barrier (.barw h) rfl (fun _ _ _ => rfl) (by decide)
  | waitv => exact waitv_reads
  | ctxopen => exact ctxopen_reads
  | ldcx => exact ldcx_reads
  | ctxwait => exact ctxwait_reads
  | obres => exact obres_reads
  | obset => exact obset_reads
  | obfree h => exact .localD (.obfree h) rfl (fun _ => rfl) (by decide)
  | cbld => exact cbld_reads
  | mloop => exact mloop_reads
  | mzero h => exact .localD (.mzero h) rfl (fun _ => rfl) (by decide)
  | accld h _ a x => exact .tileAccess (.accld h · a x) rfl (fun _ _ => rfl) (by decide)
  | accst h _ a x => exact .tileAccess (.accst h · a x) rfl (fun _ _ => rfl) (by decide)
  | mrd => exact mrd_reads
  | mout => exact mout_reads
  | keybind => exact keybind_reads
  | push => exact push_reads
  | qbind => exact qbind_reads
  | qpeek => exact qpeek_reads
  | qcnt h d => exact .queue (.qcnt h d) rfl (fun _ _ => rfl) (by decide)
  | qdrain h d => exact .queue (.qdrain h d) rfl (fun _ _ => rfl) (by decide)
  | bkwake => exact bkwake_reads
  | bkdrop => exact bkdrop_reads
  | psafe h => exact .localD (.psafe h) rfl (fun _ => rfl) (by decide)
  | mbox => exact mbox_reads
  | _ => cases hfull

/-! ## Pair words -/

theorem PairSlot.toNat_lt (x : PairSlot) : x.toNat < 2 ^ 28 := by
  cases x with
  | nop => decide
  | op o da b rnd =>
    have ho := o.code_lt
    have hda := da.code_lt
    have hr := rnd.code_lt
    cases b with
    | reg r =>
      have hb := r.code_lt
      simp only [PairSlot.toNat]
      omega
    | imm n =>
      simp only [PairSlot.toNat]
      omega

/-- The fields of a pair slot (Table 2-7) lie apart, so each is read back. -/
theorem PairSlot.ofNat_toNat (x : PairSlot) : PairSlot.ofNat x.toNat = .ok x := by
  cases x with
  | nop => rfl
  | op o da b rnd =>
    have hpos := o.code_pos
    have ho := o.code_lt
    have hda := da.code_lt
    have hr := rnd.code_lt
    cases b with
    | reg r =>
      have hb := r.code_lt
      have hop : bitsOf (PairSlot.op o da (.reg r) rnd).toNat 22 6 = o.code := by simp only [PairSlot.toNat, bitsOf]; omega
      have hdest : bitsOf (PairSlot.op o da (.reg r) rnd).toNat 14 8 = da.code := by simp only [PairSlot.toNat, bitsOf]; omega
      have hsrc : bitsOf (PairSlot.op o da (.reg r) rnd).toNat 6 8 = r.code := by simp only [PairSlot.toNat, bitsOf]; omega
      have hrnd : bitsOf (PairSlot.op o da (.reg r) rnd).toNat 0 2 = rnd.code := by simp only [PairSlot.toNat, bitsOf]; omega
      have hreg : bitsOf (PairSlot.op o da (.reg r) rnd).toNat 5 1 = 0 := by simp only [PairSlot.toNat, bitsOf]; omega
      simp [PairSlot.ofNat, bitOf, hop, hdest, hsrc, hrnd, hreg, hpos.ne']
    | imm n =>
      have hop : bitsOf (PairSlot.op o da (.imm n) rnd).toNat 22 6 = o.code := by simp only [PairSlot.toNat, bitsOf]; omega
      have hdest : bitsOf (PairSlot.op o da (.imm n) rnd).toNat 14 8 = da.code := by simp only [PairSlot.toNat, bitsOf]; omega
      have hsrc : bitsOf (PairSlot.op o da (.imm n) rnd).toNat 6 8 = n.val := by simp only [PairSlot.toNat, bitsOf]; omega
      have hrnd : bitsOf (PairSlot.op o da (.imm n) rnd).toNat 0 2 = rnd.code := by simp only [PairSlot.toNat, bitsOf]; omega
      have himm : bitsOf (PairSlot.op o da (.imm n) rnd).toNat 5 1 = 1 := by simp only [PairSlot.toNat, bitsOf]; omega
      simp [PairSlot.ofNat, bitOf, hop, hdest, hsrc, hrnd, himm, hpos.ne']

variable {st p : Fin 8} {s0 s1 : PairSlot}

theorem encodeNat_pairWord_lt : encodeNat (.pairWord st p s0 s1) < 2 ^ 64 := by
  have h0 := s0.toNat_lt
  have h1 := s1.toNat_lt
  simp only [encodeNat]
  omega

theorem bitOf_encodeNat_pairWord : bitOf (encodeNat (.pairWord st p s0 s1)) 63 = true := by
  have h0 := s0.toNat_lt
  have h1 := s1.toNat_lt
  have hbit : bitsOf (encodeNat (.pairWord st p s0 s1)) 63 1 = 1 := by
    simp only [encodeNat, bitsOf]
    omega
  rw [bitOf, hbit]
  rfl

/-- The fields of a pair word (Table 2-6) lie apart, so each is read back. -/
theorem rawPair_encodeNat : rawPair (encodeNat (.pairWord st p s0 s1)) = .ok (.pairWord st p s0 s1) := by
  have h0 := s0.toNat_lt
  have h1 := s1.toNat_lt
  have hzero : bitsOf (encodeNat (.pairWord st p s0 s1)) 56 1 = 0 := by simp only [encodeNat, bitsOf]; omega
  have hst : bitsOf (encodeNat (.pairWord st p s0 s1)) 60 3 = st.val := by simp only [encodeNat, bitsOf]; omega
  have hp : bitsOf (encodeNat (.pairWord st p s0 s1)) 57 3 = p.val := by simp only [encodeNat, bitsOf]; omega
  have hs0 : bitsOf (encodeNat (.pairWord st p s0 s1)) 28 28 = s0.toNat := by simp only [encodeNat, bitsOf]; omega
  have hs1 : bitsOf (encodeNat (.pairWord st p s0 s1)) 0 28 = s1.toNat := by simp only [encodeNat, bitsOf]; omega
  simp [rawPair, bitOf, hzero, hst, hp, hs0, hs1, PairSlot.ofNat_toNat]

/-! ## Decoding what is encoded -/

theorem encode_toNat {i : Instr} (hi : encodeNat i < 2 ^ 64) : (encode i).toNat = encodeNat i := by
  rw [encode, BitVec.toNat_ofNat, Nat.mod_eq_of_lt hi]

/-- A word is decoded as it is read if its operands pass their checks: a pair word by bit 63, and a full word without it (R24, R43). -/
theorem decode_encode_of_rawPair {i : Instr} (htop : bitOf (encode i).toNat 63 = true) (hraw : rawPair (encode i).toNat = .ok i)
    (hw : i.wfErr = none) : decode (encode i) = i := by
  simp [decode, decodeE, htop, hraw, hw]

theorem decode_encode_of_rawFull {i : Instr} (htop : bitOf (encode i).toNat 63 = false)
    (hraw : rawFull (Fields.ofNat (encode i).toNat) = .ok i) (hw : i.wfErr = none) : decode (encode i) = i := by
  simp [decode, decodeE, htop, hraw, hw]

theorem Instr.encodeNat_of_full {i : Instr} (hfull : i.isFull = true) : encodeNat i = i.fields.toNat := by
  cases i with
  | pairWord => cases hfull
  | _ => rfl

/-- The codes of a full word without errors are those that R27 and the encoding tables allow. -/
theorem Instr.codes_of_wfErr {i : Instr} (hfull : i.isFull = true) (hw : i.wfErr = none) :
    i.immDefault = true ∧ i.codesOk = true := by
  unfold Instr.wfErr at hw
  split at hw
  · cases hfull
  · cases hd : i.immDefault <;> cases hc : i.codesOk <;> simp_all

theorem decode_encode_full {i : Instr} (hfull : i.isFull = true) (hw : i.wfErr = none) : decode (encode i) = i := by
  obtain ⟨hd, hc⟩ := Instr.codes_of_wfErr hfull hw
  obtain ⟨hfits, hraw⟩ := Instr.reads_of_full hfull hd hc
  have hlt := Fields.toNat_lt hfits
  have hnat : (encode i).toNat = i.fields.toNat := by
    rw [encode_toNat] <;> rw [Instr.encodeNat_of_full hfull]
    omega
  have htop : bitOf i.fields.toNat 63 = false := by
    rw [bitOf, bitsOf, Nat.div_eq_of_lt hlt]
    rfl
  exact decode_encode_of_rawFull (hnat ▸ htop) (by rw [hnat, Fields.ofNat_toNat hfits, hraw]) hw

theorem decode_encode_pairWord (hw : (Instr.pairWord st p s0 s1).wfErr = none) :
    decode (encode (.pairWord st p s0 s1)) = .pairWord st p s0 s1 := by
  have hnat : (encode (.pairWord st p s0 s1)).toNat = encodeNat (.pairWord st p s0 s1) := encode_toNat encodeNat_pairWord_lt
  exact decode_encode_of_rawPair (hnat ▸ bitOf_encodeNat_pairWord) (hnat ▸ rawPair_encodeNat) hw

/-- Settles O56: the fields of a word lie apart, each is read back as what it encodes, and the class of the opcode gives the form. -/
theorem decodeEncode : Obligations.DecodeEncode := by
  rintro i ⟨hword, hw⟩
  unfold Instr.isWord at hword
  split at hword
  · exact decode_encode_pairWord hw
  · exact decode_encode_full hword hw

end Sys2Proof
end

section
namespace Sys2Proof
namespace Machine

/-! ## A line and its words (R24, R106) -/

theorem leNat_lt (l : List Byte) : leNat l < 2 ^ (8 * l.length) := by
  induction l with
  | nil => decide
  | cons b t ih =>
    rw [leNat, List.length_cons, Nat.mul_succ, Nat.pow_add]
    have := b.isLt
    omega

theorem leNat_append (l r : List Byte) : leNat (l ++ r) = leNat l + 2 ^ (8 * l.length) * leNat r := by
  induction l with
  | nil => simp [leNat]
  | cons b t ih =>
    rw [List.cons_append, leNat, ih, leNat, List.length_cons, Nat.mul_succ, Nat.pow_add]
    ring

theorem upFrom_add (lo m n : Nat) : upFrom lo (m + n) = upFrom lo m ++ upFrom (lo + m) n := by
  induction m generalizing lo with
  | zero => simp [upFrom]
  | succ m ih =>
    rw [Nat.add_right_comm, upFrom, upFrom, ih, List.cons_append, Nat.add_assoc, Nat.add_comm 1]

theorem State.bytes_length (s : State) (pa n : Nat) : (s.bytes pa n).length = n := by
  rw [State.bytes, List.length_map, upFrom_length]

theorem State.bytes_add (s : State) (pa m n : Nat) : s.bytes pa (m + n) = s.bytes pa m ++ s.bytes (pa + m) n := by
  rw [State.bytes, upFrom_add, List.map_append]
  rfl

/-- The bytes from an offset of a line on, as the line's own number gives them. -/
theorem State.memLine_toNat_div (s : State) (l : Nat) {at_ : Nat} (h : at_ + 8 ≤ 64) :
    (s.memLine l).toNat / 2 ^ (8 * at_) % 2 ^ 64 = leNat (s.bytes (64 * l + at_) 8) := by
  have hsize := leNat_lt (s.bytes (64 * l) 64)
  rw [State.bytes_length] at hsize
  have hline : (s.memLine l).toNat = leNat (s.bytes (64 * l) 64) := by
    rw [State.memLine, lineOf, BitVec.toNat_ofNat, show 512 = 8 * 64 from rfl, Nat.mod_eq_of_lt hsize]
  have hcut : s.bytes (64 * l) 64 =
      s.bytes (64 * l) at_ ++ (s.bytes (64 * l + at_) 8 ++ s.bytes (64 * l + at_ + 8) (64 - at_ - 8)) := by
    rw [← State.bytes_add, ← State.bytes_add]
    exact congrArg (s.bytes (64 * l)) (by omega)
  have hlow := leNat_lt (s.bytes (64 * l) at_)
  have hmid := leNat_lt (s.bytes (64 * l + at_) 8)
  rw [State.bytes_length] at hlow hmid
  rw [hline, hcut, leNat_append, leNat_append, State.bytes_length, State.bytes_length, Nat.add_mul_div_left _ _ (Nat.two_pow_pos _), Nat.div_eq_of_lt hlow, Nat.zero_add,
    Nat.add_mul_mod_self_left]
  exact Nat.mod_eq_of_lt hmid

theorem lineWord_memLine (s : State) {pa : Nat} (h : pa % 8 = 0) :
    decode (lineWord (s.memLine (pa / 64)) (pa % 64)) = decodeBytes (s.bytes pa 8) := by
  have hat : 64 * (pa / 64) + pa % 64 = pa := Nat.div_add_mod pa 64
  have hword := State.memLine_toNat_div s (pa / 64) (at_ := pa % 64) (by omega)
  rw [hat] at hword
  rw [decodeBytes, List.take_of_length_le (State.bytes_length s pa 8).le, lineWord, ← hword]
  exact congrArg decode (BitVec.eq_of_toNat_eq (by simp))

/-! ## An opportunity runs the word that the program counter names (R104, R106) -/

theorem framePa_mod_eight (d : DWord) (e : Nat) : framePa d e % 8 = e % 8 := by
  have hpage : ∃ k, 2 ^ pageShift (pteSize d) = 8 * k := by
    unfold pageShift
    split
    · exact ⟨2 ^ 9, rfl⟩
    · split
      · exact ⟨2 ^ 13, rfl⟩
      · exact ⟨2 ^ 18, rfl⟩
  obtain ⟨k, hk⟩ := hpage
  rw [framePa, pteFrame, hk, Nat.add_mod, Nat.mod_mul_right_mod]
  omega

theorem State.fetchPa_mod_eight {s u : State} {c tn w pc pa : Nat} (h : s.fetchPa c tn w pc = (.ok pa, u)) : pa % 8 = pc % 8 := by
  unfold State.fetchPa at h
  split at h
  · cases h
  · split at h
    · cases h
    · dsimp only at h
      split at h
      · cases h
      · cases h
        exact framePa_mod_eight _ _

theorem State.fetch_word {s u : State} {G : Group} {pa : Nat} (hpc : G.pc % 8 = 0)
    (hpa : s.fetchPa (G.core / 2) (s.recOf G.block).tenant (s.recOf G.block).world G.pc = (.ok pa, u))
    (hline : u.icache.find (pa / 64) = some (u.memLine (pa / 64))) : s.fetch G = (.word (decodeBytes (u.bytes pa 8)), u) := by
  have hpa' : s.fetchPa (clusterOf G.core) (s.recOf G.block).tenant (s.recOf G.block).world G.pc = (.ok pa, u) := hpa
  have hmod : pa % 8 = 0 := (State.fetchPa_mod_eight hpa).trans hpc
  have hcached : u.cachedLine (pa / 64) (u.memLine (pa / 64)) = (u.memLine (pa / 64), u) := if_pos (.inl rfl)
  simp only [State.fetch, hpa', hline, hcached, lineWord_memLine u hmod]

theorem State.attempt_slot {s u : State} {q g pa : Nat} {G : Group} (hg : s.groups.find g = some G) (hjoin : s.joining G = [])
    (hpc : G.pc % 8 = 0)
    (hpa : s.fetchPa (G.core / 2) (s.recOf G.block).tenant (s.recOf G.block).world G.pc = (.ok pa, u))
    (hline : u.icache.find (pa / 64) = some (u.memLine (pa / 64))) :
    s.attempt q (.slot g) = .run (decodeBytes (u.bytes pa 8)) { u with cur := some g } := by
  have hseat : s.seat q (.slot g) = (some g, s) := rfl
  simp [State.attempt, hseat, hg, hjoin, State.fetch_word hpc hpa hline]

theorem State.tryCands_run {s u t : State} {q g : Nat} {c : Cand} {cs : List Cand} {i : Instr}
    (hrun : s.attempt q c = .run i { u with cur := some g }) (hexec : exec i { u with cur := some g } = .next t) :
    State.tryCands q (c :: cs) s =
      if (s.seqr q).lastIssue < (t.seqr q).lastIssue then .next (s.endTurn q c ({ t with cur := none }.restamp g))
      else State.tryCands q cs { t with cur := none } := by
  rw [State.tryCands]
  simp only [hrun, hexec, issuedBetween, decide_eq_true_eq]

theorem step_issue {s : State} {q : Nat} {r : List Move} (hr : s.agenda = .issue q :: r) (hup : s.sec.bootFailed = false)
    (hopen : State.seqOpen { s with freeCtr := s.freeCtr + 1, agenda := r } q = true) :
    step s = State.tryCands q (State.candidates { s with freeCtr := s.freeCtr + 1, agenda := r } q)
      (State.passTurns { s with freeCtr := s.freeCtr + 1, agenda := r } q) := by
  have hstep : step s = State.move { s with freeCtr := s.freeCtr + 1, agenda := r } (.issue q) := by rw [step, hr]
  rw [hstep]
  exact (if_neg (by simp [hup])).trans (if_pos hopen)

/-- Settles O57: the worked words by evaluation; a step by what a candidate in a slot comes to, whose cached line holds the bytes at its
program counter. -/
theorem stepRunsTheWord : Obligations.StepRunsTheWord := by
  refine ⟨by decide +kernel, fun s i r hr => ?_, ?_⟩
  · rw [step, hr]
    rfl
  · intro s q r g cs G pa u i hr hup s0 s1 hopen hcands hg hjoin hpc hpa hline hi t hexec
    have hrun := State.attempt_slot (q := q) hg hjoin hpc hpa hline
    rw [hi] at hrun
    have hstep : step s = State.tryCands q (.slot g :: cs) s1 := by rw [step_issue hr hup hopen, hcands]
    rw [hstep, State.tryCands_run hrun hexec]
    exact ⟨fun h => if_pos h, fun h => if_neg h⟩

end Machine
end Sys2Proof
end

section
/-!
SUPPORT. The pair word: its slots as Table 2-8 says, what it declares and the causes of its conditions (R43 to R48, R158).
-/

namespace Sys2Proof

theorem signedOf_eq_toInt (x w : Nat) : signedOf x w = (BitVec.ofNat w x).toInt := by
  rw [signedOf, BitVec.toInt_eq_toNat_cond, BitVec.toNat_ofNat]
  cases w with
  | zero => simp [Nat.mod_one]
  | succ n =>
    have htwo : 2 ^ (n + 1) = 2 * 2 ^ n := Nat.pow_succ'
    push_cast
    split <;> split <;> omega

/-- Two halves of a word packed as R155 packs them. -/
theorem ofNat_add_shift_eq_append (x : Nat) (h : x < 2 ^ 16) :
    BitVec.ofNat 32 (x + x * 2 ^ 16) = (BitVec.ofNat 16 x ++ BitVec.ofNat 16 x : BitVec 32) := by
  apply BitVec.eq_of_toNat_eq
  rw [BitVec.toNat_append, BitVec.toNat_ofNat, BitVec.toNat_ofNat, Nat.mod_eq_of_lt h, ← Nat.shiftLeft_add_eq_or_of_lt h,
    Nat.shiftLeft_eq]
  omega

theorem mul_four_eq_shiftLeft (y : Word) : y * 4 = y <<< 2 := by
  apply BitVec.eq_of_toNat_eq
  simp [Nat.shiftLeft_eq]

namespace Machine

/-- A lane raises no cause where none of the conditions that it meets is enabled (R158). -/
theorem LV.fpCause_eq_none {v : LV} {c : FCond} (h : (v.s.fpCauses v.t c).head? = none) : v.fpCause c = none := by
  simp only [State.fpCauses, List.head?_eq_none_iff, List.map_eq_nil_iff, List.filter_eq_nil_iff, List.mem_cons,
    List.not_mem_nil, or_false, forall_eq_or_imp, forall_eq] at h
  obtain ⟨hinv, hdz, hof, huf, hnx⟩ := h
  exact (if_neg hinv).trans ((if_neg hdz).trans ((if_neg hof).trans ((if_neg huf).trans (if_neg hnx))))

theorem State.fpCause_of_fpRaised {s : State} {G : Group} {F : FloatForm} (h : s.fpRaised G F = []) {u : Nat}
    (hu : u ∈ s.actives G F.1) : (s.lane G F.1 u).fpCause (F.2.2 (s.lane G F.1 u)).2 = none := by
  refine LV.fpCause_eq_none (?_ : (s.fpCauses u _).head? = none)
  have hnone := List.filterMap_eq_nil_iff.mp h u hu
  exact Option.map_eq_none_iff.mp hnone

theorem halfImm_lt : ∀ b : Fin 256, (fp16.roundZ .rn (decide (signedOf b.val 8 < 0)) (signedOf b.val 8).natAbs 0).bits < 2 ^ 16 := by
  decide +kernel

theorem slotLatency_op_eq (o : PairOp) (da : Reg) (b : PairSrc) (r : Rnd) : slotLatency (.op o da b r) =
    if o ∈ [.imul, .fadd, .fsub, .fmul, .fmin, .fmax, .faddH2, .fmulH2, .cvtF32S32] then 6 else 4 := by
  cases o <;> rfl

theorem declared_append {i : Instr} {f k : LV → List LaneWrite} (hf : Declared i f) (hk : Declared i k)
    (hapart : ∀ v, ((f v).filterMap LaneWrite.dest).Disjoint ((k v).filterMap LaneWrite.dest)) :
    Declared i fun v => f v ++ k v where
  regs v n x h := (List.mem_append.mp h).elim (hf.regs v n x) (hk.regs v n x)
  preds v j b h := (List.mem_append.mp h).elim (hf.preds v j b) (hk.preds v j b)
  queues v q x h := (List.mem_append.mp h).elim (hf.queues v q x) (hk.queues v q x)
  once v := by
    rw [List.filterMap_append]
    exact (hf.once v).append (hk.once v) (hapart v)

theorem declared_pairSlot {i : Instr} {S : PairSlot} (h : ∀ u ∈ S.uses, u ∈ i.uses) : Declared i fun v => (v.pairSlot S).1 := by
  cases S with
  | nop => exact declared_none i
  | op o da b r => exact declared_w32 i da _ ⟨da, 1, o.readsDA, true, false⟩ (h _ List.mem_cons_self) rfl rfl (Nat.le_refl 1)

theorem dest_w32_disjoint {a b : Reg} (h : a ≠ b ∨ a = .zero) (x y : Word) :
    ((w32 a x).filterMap LaneWrite.dest).Disjoint ((w32 b y).filterMap LaneWrite.dest) := by
  cases a with
  | zero => exact List.disjoint_nil_left _
  | q k => exact List.disjoint_nil_left _
  | v n =>
    cases b with
    | zero => exact List.disjoint_nil_right _
    | q k => exact List.disjoint_nil_right _
    | v m =>
      have hne : n ≠ m := by simpa using h
      simpa [w32, LaneWrite.dest, List.Disjoint] using Fin.val_ne_of_ne hne

theorem pairSlots_apart {s0 s1 : PairSlot} (h : pairDests s0 s1 = true) (v : LV) :
    ((v.pairSlot s0).1.filterMap LaneWrite.dest).Disjoint ((v.pairSlot s1).1.filterMap LaneWrite.dest) := by
  cases s0 with
  | nop => exact List.disjoint_nil_left _
  | op o a b r =>
    cases s1 with
    | nop => exact List.disjoint_nil_right _
    | op o' a' b' r' => exact dest_w32_disjoint (by simpa [pairDests, PairSlot.dest?] using h) _ _

theorem declared_pairWord {stall pred : Fin 8} {s0 s1 : PairSlot} (h : pairDests s0 s1 = true) :
    Declared (.pairWord stall pred s0 s1) fun v => (v.pairSlot s0).1 ++ (v.pairSlot s1).1 :=
  declared_append (declared_pairSlot fun _ hu => List.mem_append_left _ hu) (declared_pairSlot fun _ hu => List.mem_append_right _ hu)
    (pairSlots_apart h)

/-- A pair word none of whose lanes raises a cause. -/
theorem State.pairWord_fixed {s : State} {stall pred : Fin 8} {s0 s1 : PairSlot} {g : Nat} {G : Group}
    (hd : pairDests s0 s1 = true) (H : s.Issues g G (.pairWord stall pred s0 s1))
    (hc : s.fpRaised G (.pairWord stall pred s0 s1, max (slotLatency s0) (slotLatency s1), fun v =>
      ((v.pairSlot s0).1 ++ (v.pairSlot s1).1, (v.pairSlot s0).2.or (v.pairSlot s1).2)) = []) :
    ∃ r t, exec (.pairWord stall pred s0 s1) s = .next t ∧
      s.Wrote r G (.pairWord stall pred s0 s1) (max (slotLatency s0) (slotLatency s1))
        (fun v => (v.pairSlot s0).1 ++ (v.pairSlot s1).1) ∧
      r.Went t g G (Instr.pairWord stall pred s0 s1).hdr (s.issueClk G (.pairWord stall pred s0 s1)) (G.pc + 8) :=
  s.fixed_of_issue _ _ (fun v => (v.fpCause ((v.pairSlot s0).2.or (v.pairSlot s1).2), (v.pairSlot s0).1 ++ (v.pairSlot s1).1)) g G H rfl
    (fun _ hu => State.fpCause_of_fpRaised hc hu) (declared_pairWord hd)

end Machine

open Machine

/-- Settles O15: the model's slots are those of Table 2-8, operation by operation, and the word is one of fixed latency. -/
theorem pairWords : Obligations.PairWords := by
  intro s stall pred s0 s1 g G i imm value slot lat F hd H hc
  have himm : ∀ o b, imm o b = pairImm o b := by
    intro o b
    have hn := signedOf_eq_toInt b.val 8
    cases o with
    | fadd | fsub | fmul | fmin | fmax => simp [imm, pairImm, PairOp.float, hn]
    | faddH2 | fmulH2 =>
      simp only [imm, pairImm, PairOp.float, PairOp.half, ← hn]
      exact (ofNat_add_shift_eq_append _ (halfImm_lt b)).symm
    | _ => simp [imm, pairImm, PairOp.float, PairOp.half, hn]
  have hvalue : ∀ o rnd x y, value o rnd x y = pairResult o x y rnd := by
    intro o rnd x y
    cases o with
    | iminS | imaxS | iminZ | imaxZ => simp only [value, pairResult, ← not_lt, ite_not]
    | lea => exact congrArg (fun z => (x + z, ({} : FCond))) (mul_four_eq_shiftLeft y)
    | _ => rfl
  have hslot : slot = fun S v => v.pairSlot S := by
    funext S v
    cases S with
    | nop => rfl
    | op o da b rnd =>
      cases b with
      | reg r =>
        simp only [slot, hvalue]
        rfl
      | imm n =>
        simp only [slot, hvalue, himm]
        rfl
  have hlat : lat = slotLatency := by
    funext S
    cases S with
    | nop => rfl
    | op o da b rnd => exact (slotLatency_op_eq o da b rnd).symm
  simp only [F, hslot, hlat] at hc ⊢
  exact State.pairWord_fixed hd H hc

end Sys2Proof
end

section
/-!
SUPPORT. The end of a group's wait (R101), the delivery of results (R37), and the events of memory: acknowledgements, drains, copies and
event counters (R83, R96, R136, R196, R201, R237).
-/

namespace Sys2Proof

theorem FMap.filterMap_put {α β : Type} {m : FMap α} {n : Nat} {x : α} {f : Nat × α → Option β} (hx : f (n, x) = none)
    (hold : ∀ y, m.find n = some y → f (n, y) = none) : (m.put n x).filterMap f = m.filterMap f := by
  induction m with
  | nil => simp [FMap.put, hx]
  | cons p t ih =>
    obtain ⟨k, v⟩ := p
    rw [FMap.put]
    split
    · simp [hx]
    · split
      next h =>
        subst h
        simp [hx, hold v (by simp [FMap.find])]
      next h =>
        rw [List.filterMap_cons, List.filterMap_cons, ih fun y hy => hold y (by rw [FMap.find, if_neg h, hy])]

namespace Machine

/-! ## The end of a wait -/

theorem State.find_groups_setGroup (s : State) (g k : Nat) (G : Group) :
    (s.setGroup g G).groups.find k = if k = g then some G else s.groups.find k := FMap.find_put _ _ _ _

theorem State.takeSlot_of_find {s : State} {g : Nat} {G : Group} (h : s.groups.find g = some G) :
    s.takeSlot g = s.setGroup g { G with
      slot := s.freeSlot G.seq, since := s.clk G.core, oppsAt := s.oppsNow G.seq G.block
      candidate := (s.freeSlot G.seq).isSome && G.candidate } := by
  unfold State.takeSlot
  rw [h]
  dsimp only
  cases s.freeSlot G.seq <;> simp

/-- A group without a slot counts for no slot, whatever else changes in it. -/
theorem State.freeSlot_setGroup {s : State} {g : Nat} {G H : Group} (h : s.groups.find g = some G) (hG : G.slot = none)
    (hH : H.slot = none) (q : Nat) : (s.setGroup g H).freeSlot q = s.freeSlot q := by
  have held : (s.setGroup g H).slotsHeld q = s.slotsHeld q := by
    refine FMap.filterMap_put (by simp [hH]) fun y hy => ?_
    rw [h] at hy
    cases hy
    simp [hG]
  unfold State.freeSlot
  rw [held]

theorem State.resume_of_slot {s : State} {g pc : Nat} {G : Group} (h : s.groups.find g = some G) (hs : G.slot.isSome = true) :
    s.resume g pc = s.setGroup g { G with wait := none, pc := pc } := by
  unfold State.resume
  rw [h]
  exact if_pos hs

theorem State.resume_without_slot {s : State} {g pc : Nat} {G : Group} (h : s.groups.find g = some G) (hs : G.slot = none) :
    s.resume g pc = (s.setGroup g { G with wait := none, pc := pc }).takeSlot g := by
  unfold State.resume
  rw [h]
  exact if_neg (by simp [hs])

theorem State.resume_resumes {s : State} {g : Nat} {G : Group} (h : s.groups.find g = some G) (pc : Nat) :
    s.Resumes (s.resume g pc) g G pc := by
  cases hs : G.slot with
  | some k =>
    rw [State.resume_of_slot h (by simp [hs])]
    refine ⟨rfl, ⟨_, FMap.find_put_self _ _ _, rfl, fun _ => rfl, fun _ => by simp [hs]⟩, fun k hk => FMap.find_put_ne _ _ _ _ hk⟩
  | none =>
    rw [State.resume_without_slot h hs, State.takeSlot_of_find (FMap.find_put_self _ _ _)]
    refine ⟨rfl, ⟨_, FMap.find_put_self _ _ _, rfl, fun hsome => ?_, fun hfree => ?_⟩, fun k hk => ?_⟩
    · rw [hs] at hsome
      cases hsome
    · exact (congrArg Option.isSome (State.freeSlot_setGroup (H := { G with wait := none, pc := pc }) h hs hs G.seq)).trans hfree
    · exact (FMap.find_put_ne _ _ _ _ hk).trans (FMap.find_put_ne _ _ _ _ hk)

/-! ## Results (R37) -/

/-- One write of a result that becomes visible, but not in a quarter that has gone OFF since its word was issued (R136). -/
def State.deliverWrite (origin : Nat) (s : State) (w : RegWrite) : State :=
  match w.dest with
  | .reg n =>
    if s.notLost w.thread n origin && (s.thread w.thread).quarter (quarterOf n) != .off then
      s.modThread w.thread fun T => T.setReg n w.val
    else s
  | .pred k => s.modThread w.thread fun T => T.setPred k (w.val != 0)

theorem State.deliverResult_eq (s : State) (p : Inflight) : s.deliverResult p = p.writes.foldl (State.deliverWrite p.origin) s := rfl

theorem Thread.setPred_rest (T : Thread) (k : Nat) (b : Bool) : T.setPred k b = { T with preds := (T.setPred k b).preds } := by
  unfold Thread.setPred
  split <;> rfl

theorem Thread.pred_setPred_ne (T : Thread) {k j : Nat} (b : Bool) (h : j ≠ k) : (T.setPred k b).pred j = T.pred j := by
  rcases Nat.lt_trichotomy k 7 with hk | rfl | hk
  · rw [Thread.pred_setPred _ _ _ _ hk, if_neg h]
  · rfl
  · have hzero : BitVec.ofNat 8 (2 ^ k) = 0#8 := by
      obtain ⟨d, rfl⟩ := Nat.exists_eq_add_of_le hk
      exact BitVec.eq_of_toNat_eq (by simp [Nat.pow_add])
    unfold Thread.setPred
    rw [if_neg (by omega), hzero, BitVec.or_zero, BitVec.not_zero, BitVec.and_allOnes, ite_self]

theorem State.deliverWrite_rest (o : Nat) (s : State) (w : RegWrite) :
    s.deliverWrite o w = { s with threads := (s.deliverWrite o w).threads } := by
  unfold State.deliverWrite
  split
  · split <;> rfl
  · rfl

theorem State.deliverWrites_rest (o : Nat) (s : State) (ws : List RegWrite) :
    ws.foldl (State.deliverWrite o) s = { s with threads := (ws.foldl (State.deliverWrite o) s).threads } := by
  induction ws generalizing s with
  | nil => rfl
  | cons w r ih =>
    rw [List.foldl_cons, ih, State.deliverWrite_rest]

/-- A delivery changes registers and predicates only. -/
theorem State.thread_deliverWrite (o : Nat) (s : State) (w : RegWrite) (u : Nat) : (s.deliverWrite o w).thread u =
    { s.thread u with regs := ((s.deliverWrite o w).thread u).regs, preds := ((s.deliverWrite o w).thread u).preds } := by
  unfold State.deliverWrite
  split
  · split
    · rw [State.thread_modThread]
      split <;> rfl
    · rfl
  · rw [State.thread_modThread]
    split
    · rw [Thread.setPred_rest]
    · rfl

theorem State.thread_deliverWrites (o : Nat) (s : State) (ws : List RegWrite) (u : Nat) : (ws.foldl (State.deliverWrite o) s).thread u =
    { s.thread u with
      regs := ((ws.foldl (State.deliverWrite o) s).thread u).regs, preds := ((ws.foldl (State.deliverWrite o) s).thread u).preds } := by
  induction ws generalizing s with
  | nil => rfl
  | cons w r ih =>
    rw [List.foldl_cons, ih, State.thread_deliverWrite]

theorem State.quarter_deliverWrites (o : Nat) (s : State) (ws : List RegWrite) (u q : Nat) :
    ((ws.foldl (State.deliverWrite o) s).thread u).quarter q = (s.thread u).quarter q := by
  rw [State.thread_deliverWrites]
  rfl

theorem State.notLost_deliverWrites (o : Nat) (s : State) (ws : List RegWrite) (u n m : Nat) :
    (ws.foldl (State.deliverWrite o) s).notLost u n m = s.notLost u n m := by
  unfold State.notLost
  rw [State.thread_deliverWrites]

theorem State.reg_deliverWrite {o : Nat} {s : State} {w : RegWrite} {n : Nat} (hd : w.dest = .reg n)
    (hlost : s.notLost w.thread n o = true) (hon : (s.thread w.thread).quarter (quarterOf n) ≠ .off) :
    ((s.deliverWrite o w).thread w.thread).reg n = w.val := by
  unfold State.deliverWrite
  rw [hd]
  dsimp only
  rw [if_pos (by simp [hlost, hon]), State.thread_modThread, if_pos rfl, Thread.reg_setReg _ _ _ _ hon, if_pos rfl]

theorem State.reg_deliverWrite_ne {o : Nat} {s : State} {w : RegWrite} {u n : Nat} (h : w.thread = u → w.dest ≠ .reg n) :
    ((s.deliverWrite o w).thread u).reg n = (s.thread u).reg n := by
  unfold State.deliverWrite
  split
  next m hm =>
    split
    next hc =>
      rw [State.thread_modThread]
      split
      next hu =>
        subst hu
        rw [Thread.reg_setReg _ _ _ _ (by simpa using (Bool.and_eq_true_iff.mp hc).2), if_neg]
        rintro rfl
        exact h rfl hm
      next => rfl
    next => rfl
  next k hk =>
    rw [State.thread_modThread]
    split
    · rw [Thread.setPred_rest]
      rfl
    · rfl

theorem State.pred_deliverWrite {o : Nat} {s : State} {w : RegWrite} {k : Nat} (hd : w.dest = .pred k) (hk : k < 7) :
    ((s.deliverWrite o w).thread w.thread).pred k = (w.val != 0) := by
  unfold State.deliverWrite
  rw [hd]
  dsimp only
  rw [State.thread_modThread, if_pos rfl, Thread.pred_setPred _ _ _ _ hk, if_pos rfl]

theorem State.pred_deliverWrite_ne {o : Nat} {s : State} {w : RegWrite} {u k : Nat} (h : w.thread = u → w.dest ≠ .pred k) :
    ((s.deliverWrite o w).thread u).pred k = (s.thread u).pred k := by
  unfold State.deliverWrite
  split
  next m hm =>
    split
    · rw [State.thread_modThread]
      split <;> rfl
    · rfl
  next j hj =>
    rw [State.thread_modThread]
    split
    next hu =>
      subst hu
      refine Thread.pred_setPred_ne _ _ ?_
      rintro rfl
      exact h rfl hj
    next => rfl

theorem State.reg_deliverWrites_out {o : Nat} {s : State} {ws : List RegWrite} {u n : Nat}
    (h : ∀ w ∈ ws, w.thread = u → w.dest ≠ .reg n) : ((ws.foldl (State.deliverWrite o) s).thread u).reg n = (s.thread u).reg n := by
  induction ws generalizing s with
  | nil => rfl
  | cons w r ih =>
    rw [List.foldl_cons, ih fun x hx => h x (List.mem_cons_of_mem _ hx), State.reg_deliverWrite_ne (h w List.mem_cons_self)]

theorem State.pred_deliverWrites_out {o : Nat} {s : State} {ws : List RegWrite} {u k : Nat}
    (h : ∀ w ∈ ws, w.thread = u → w.dest ≠ .pred k) : ((ws.foldl (State.deliverWrite o) s).thread u).pred k = (s.thread u).pred k := by
  induction ws generalizing s with
  | nil => rfl
  | cons w r ih =>
    rw [List.foldl_cons, ih fun x hx => h x (List.mem_cons_of_mem _ hx), State.pred_deliverWrite_ne (h w List.mem_cons_self)]

/-- A write among others is the last one to its target, where each target is named once. -/
theorem writes_split {ws : List RegWrite} {w : RegWrite} (hn : (ws.map fun w => (w.thread, w.dest)).Nodup) (hw : w ∈ ws) :
    ∃ a b, ws = a ++ w :: b ∧ ∀ x ∈ b, x.thread = w.thread → x.dest ≠ w.dest := by
  obtain ⟨a, b, rfl⟩ := List.append_of_mem hw
  refine ⟨a, b, rfl, fun x hx ht hd => ?_⟩
  rw [List.map_append, List.map_cons] at hn
  exact (List.nodup_cons.mp (List.nodup_append.mp hn).2.1).1 (List.mem_map.mpr ⟨x, hx, by rw [ht, hd]⟩)

theorem State.reg_deliverWrites {o : Nat} {s : State} {ws : List RegWrite} {w : RegWrite} {n : Nat}
    (hn : (ws.map fun w => (w.thread, w.dest)).Nodup) (hw : w ∈ ws) (hd : w.dest = .reg n)
    (hlost : s.notLost w.thread n o = true) (hon : (s.thread w.thread).quarter (quarterOf n) ≠ .off) :
    ((ws.foldl (State.deliverWrite o) s).thread w.thread).reg n = w.val := by
  obtain ⟨a, b, rfl, hb⟩ := writes_split hn hw
  rw [List.foldl_append, List.foldl_cons, State.reg_deliverWrites_out fun x hx ht => hd ▸ hb x hx ht]
  exact State.reg_deliverWrite hd ((State.notLost_deliverWrites _ _ _ _ _ _).trans hlost)
    (by rwa [State.quarter_deliverWrites])

theorem State.pred_deliverWrites {o : Nat} {s : State} {ws : List RegWrite} {w : RegWrite} {k : Nat}
    (hn : (ws.map fun w => (w.thread, w.dest)).Nodup) (hw : w ∈ ws) (hd : w.dest = .pred k) (hk : k < 7) :
    ((ws.foldl (State.deliverWrite o) s).thread w.thread).pred k = (w.val != 0) := by
  obtain ⟨a, b, rfl, hb⟩ := writes_split hn hw
  rw [List.foldl_append, List.foldl_cons, State.pred_deliverWrites_out fun x hx ht => hd ▸ hb x hx ht]
  exact State.pred_deliverWrite hd hk

end Machine
end Sys2Proof
end

section
/-!
SUPPORT. The events of memory, clause by clause (R37, R83, R96, R136, R196, R201, R203, R237).
-/

namespace Sys2Proof
namespace Machine

/-! ## SCOREBOARD_RESULT -/

/-- What a result on its way makes of the registers and predicates when it becomes visible. -/
structure State.Delivered (s t : State) (p : Inflight) : Prop where
  wrote : ∀ w ∈ p.writes, match w.dest with
    | .reg n => s.notLost w.thread n p.origin = true → (s.thread w.thread).quarter (quarterOf n) ≠ .off →
        (t.thread w.thread).reg n = w.val
    | .pred k => k < 7 → (t.thread w.thread).pred k = decide (w.val ≠ 0)
  regs : ∀ u n, (∀ w ∈ p.writes, w.thread = u → w.dest ≠ .reg n) → (t.thread u).reg n = (s.thread u).reg n
  preds : ∀ u k, (∀ w ∈ p.writes, w.thread = u → w.dest ≠ .pred k) → (t.thread u).pred k = (s.thread u).pred k

theorem State.deliverResult_delivered {s : State} {p : Inflight} (hn : (p.writes.map fun w => (w.thread, w.dest)).Nodup) :
    s.Delivered (s.deliverResult p) p where
  wrote w hw := by
    cases hd : w.dest with
    | reg n => exact fun hlost hon => State.reg_deliverWrites hn hw hd hlost hon
    | pred k =>
      refine fun hk => (State.pred_deliverWrites hn hw hd hk).trans ?_
      simp [bne, BEq.beq]
  regs u n h := State.reg_deliverWrites_out h
  preds u k h := State.pred_deliverWrites_out h

theorem State.spadBank_setSpad (s : State) (core k : Nat) (x : QState) : (s.setSpad core k x).spadBank core k = x := by
  have put : ∀ y, (s.spadBanks.put (16 * core + k) y).findD (16 * core + k) .off = y := fun y =>
    (FMap.findD_put _ _ _ _ _).trans (if_pos rfl)
  have del : (s.spadBanks.del (16 * core + k)).findD (16 * core + k) .off = .off := by
    rw [FMap.findD, FMap.find_del_self]
    rfl
  unfold State.setSpad
  cases h : s.spadBank core k <;> cases x
  case full.full => exact h
  case full.ret | ret.ret | off.ret => exact put .ret
  case full.off | ret.off | off.off => exact del
  case ret.full | off.full => exact put .full

theorem execScoreboardResult_of_due {s : State} {id : Nat} {p : Inflight} (h : s.inflight.find id = some p) (hdue : s.resultDue p = true) :
    exec (.scoreboardResult id) s = .next { p.drops.foldl (fun s d =>
      if s.spadBank (d.1 / 16) (d.1 % 16) = .off then s else s.setSpad (d.1 / 16) (d.1 % 16) d.2) (s.deliverResult p) with
        inflight := s.inflight.del id } := by
  simp only [exec_scoreboardResult, execScoreboardResult, event, h, Option.any_some, hdue, if_true]

theorem execScoreboardResult_early {s : State} {id : Nat} {p : Inflight} (h : s.inflight.find id = some p)
    (hdue : s.resultDue p = false) : exec (.scoreboardResult id) s = .next s := by
  simp [execScoreboardResult, event, h, hdue]

theorem State.deliverResult_rest (s : State) (p : Inflight) : s.deliverResult p = { s with threads := (s.deliverResult p).threads } :=
  State.deliverWrites_rest _ _ _

theorem State.scoreboardResult_delivers {s : State} {id : Nat} {p : Inflight} (h : s.inflight.find id = some p)
    (hready : p.ready ≤ s.clk p.core) (hdrops : p.drops = []) (hn : (p.writes.map fun w => (w.thread, w.dest)).Nodup) :
    ∃ t, exec (.scoreboardResult id) s = .next t ∧ t = { s with threads := t.threads, inflight := s.inflight.del id } ∧
      s.Delivered t p := by
  refine ⟨_, execScoreboardResult_of_due h (by simp [State.resultDue, hready, hdrops]), ?_, ?_⟩
  · rw [hdrops, List.foldl_nil, State.deliverResult_rest]
  · obtain ⟨wrote, regs, preds⟩ := State.deliverResult_delivered (s := s) hn
    rw [hdrops, List.foldl_nil]
    exact ⟨wrote, regs, preds⟩

theorem State.scoreboardResult_waits {s : State} {id : Nat} {p : Inflight} (h : s.inflight.find id = some p)
    (hwait : s.clk p.core < p.ready ∨ ∃ d ∈ p.drops, s.spadBusy p.block (d.1 / 16) (d.1 % 16) p.origin = true) :
    exec (.scoreboardResult id) s = .next s := by
  refine execScoreboardResult_early h (Bool.eq_false_iff.mpr fun hdue => ?_)
  simp only [State.resultDue, Bool.and_eq_true, decide_eq_true_eq, List.all_eq_true, Bool.not_eq_true'] at hdue
  obtain ⟨hready, hfree⟩ := hdue
  rcases hwait with hlt | ⟨d, hd, hbusy⟩
  · omega
  · exact Bool.false_ne_true ((hfree d hd).symm.trans hbusy)

theorem State.scoreboardResult_drops {s : State} {id k : Nat} {x : QState} {p : Inflight} (h : s.inflight.find id = some p)
    (hdrops : p.drops = [(k, x)]) (hready : p.ready ≤ s.clk p.core) (hfree : s.spadBusy p.block (k / 16) (k % 16) p.origin = false) :
    ∃ t, exec (.scoreboardResult id) s = .next t ∧ t.inflight = s.inflight.del id ∧
      t.spadBank (k / 16) (k % 16) = if s.spadBank (k / 16) (k % 16) = .off then .off else x := by
  refine ⟨_, execScoreboardResult_of_due h (by simp [State.resultDue, hready, hdrops, hfree]), rfl, ?_⟩
  have hbank : (s.deliverResult p).spadBank (k / 16) (k % 16) = s.spadBank (k / 16) (k % 16) := by
    rw [State.deliverResult_rest]
    rfl
  rw [hdrops, List.foldl_cons, List.foldl_nil, hbank]
  split
  next hoff => exact hbank.trans hoff
  next => exact State.spadBank_setSpad _ _ _ _

/-! ## STORE_ACK and HOST_COHERENCE_DRAIN (R237) -/

theorem State.addDrain_rest (s : State) (tenant n : Nat) : s.addDrain tenant n = { s with drain := (s.addDrain tenant n).drain } := by
  unfold State.addDrain
  split <;> rfl

theorem State.drain_addDrain (s : State) (tenant n u : Nat) :
    (s.addDrain tenant n).drain.findD u 0 = s.drain.findD u 0 + if u = tenant then n else 0 := by
  unfold State.addDrain
  split
  next h => simp [h]
  next =>
    rw [FMap.findD_store]
    split
    next h => rw [h]
    next => rfl

theorem State.storeAck_drains {s : State} {id : Nat} {p : PendStore} (h : s.pendStores.find id = some p) :
    ∃ t, exec (.storeAck id) s = .next t ∧ t = { s with pendStores := s.pendStores.del id, drain := t.drain } ∧
      ∀ u, t.drain.findD u 0 = s.drain.findD u 0 + if u = p.tenant then p.lines else 0 := by
  refine ⟨State.addDrain { s with pendStores := s.pendStores.del id } p.tenant p.lines, ?_, State.addDrain_rest _ _ _,
    State.drain_addDrain _ _ _⟩
  simp [execStoreAck, event, h]

theorem State.hostDrain_lowers {s : State} {u n : Nat} (hpos : 0 < n) (hle : n ≤ s.drain.findD u 0) :
    ∃ t, exec (.hostCoherenceDrain u n) s = .next t ∧ t = { s with drain := t.drain } ∧
      ∀ v, t.drain.findD v 0 = s.drain.findD v 0 - if v = u then n else 0 := by
  refine ⟨{ s with drain := s.drain.store 0 u (s.drain.findD u 0 - n) }, ?_, rfl, fun v => ?_⟩
  · simp [execHostCoherenceDrain, event, hpos, hle]
  · dsimp only
    rw [FMap.findD_store]
    split
    next h => rw [h]
    next => rfl

/-! ## ACP_COMPLETE (R201, R202) and ACWAIT_MET (R203) -/

theorem State.byte_setBytes_padded (s : State) (X x n : Nat) {bs : List Byte} (h : bs.length ≤ n) :
    (s.setBytes X (bs ++ List.replicate (n - bs.length) 0)).byte x = if X ≤ x ∧ x < X + n then bs.getD (x - X) 0 else s.byte x := by
  have hlen : (bs ++ List.replicate (n - bs.length) (0 : Byte)).length = n := by
    rw [List.length_append, List.length_replicate]
    omega
  split
  next hin =>
    obtain ⟨k, rfl⟩ := Nat.exists_eq_add_of_le hin.1
    rw [State.byte_setBytes_in _ _ _ _ (by omega), Nat.add_sub_cancel_left, List.getElem_append, List.getD_eq_getElem?_getD]
    split
    next hk => rw [List.getElem?_eq_getElem hk, Option.getD_some]
    next hk => rw [List.getElem_replicate, List.getElem?_eq_none (by omega), Option.getD_none]
  next hout => exact State.byte_setBytes_out _ _ _ _ (by omega)

theorem State.acpComplete_copies {s : State} {id : Nat} {c : AcpCopy} (h : s.acps.find id = some c)
    (holdest : ∀ p ∈ s.acps, p.1 < id → p.2.thread = c.thread → p.2.tag ≠ c.tag)
    (hfree : ∀ r ∈ c.srcs, s.owned (r.1 / 64) = false) (hlen : (s.copyBytes c).length ≤ 32) :
    ∃ t, exec (.acpComplete id) s = .next t ∧
      t = { s with mem := t.mem, acps := s.acps.del id, threads := s.threads.put c.thread { s.thread c.thread with
        acp := listSet (s.thread c.thread).acp c.tag ((s.thread c.thread).acp.getD c.tag 0 - 1) } } ∧
      ∀ x, t.byte x = if spadPa (c.thread / 1024) c.dst ≤ x ∧ x < spadPa (c.thread / 1024) c.dst + 32 then
        (s.copyBytes c).getD (x - spadPa (c.thread / 1024) c.dst) 0 else s.byte x := by
  have hold : s.acpOldest id c = true := by
    simp only [State.acpOldest, List.all_eq_true, Bool.or_eq_true, decide_eq_true_eq, bne_iff_ne, ne_eq]
    intro p hp
    have := holdest p hp
    by_cases h1 : id ≤ p.1 <;> by_cases h2 : p.2.thread = c.thread <;> simp_all
  have hall : (c.srcs.all fun r => !s.owned (r.1 / 64)) = true := List.all_eq_true.mpr fun r hr => by simp [hfree r hr]
  have hexec : exec (.acpComplete id) s = .next { (s.setBytes (spadPa (coreOf c.thread) c.dst) (s.copyBytes c ++
      List.replicate (32 - (s.copyBytes c).length) 0)).modThread c.thread fun T =>
        { T with acp := listSet T.acp c.tag (T.acp.getD c.tag 0 - 1) } with acps := s.acps.del id } := by
    simp only [exec_acpComplete, execAcpComplete, event, h, hold, hall, Bool.and_self, if_true]
  refine ⟨_, hexec, ?_, fun x => State.byte_setBytes_padded s _ x 32 hlen⟩
  rw [State.setBytes_eq]
  rfl

theorem State.acpErrors_none {s : State} {mask : Nat} {ts : List Nat} (h : ∀ u ∈ ts, (s.thread u).acpEcc = []) :
    s.acpErrors mask ts = ([], s) := by
  have hnone : (s.acpErrors mask ts).1 = [] := List.filterMap_eq_nil_iff.mpr fun t ht => by simp [h t ht]
  have hpair : s.acpErrors mask ts = ((s.acpErrors mask ts).1, s.modThreads ((s.acpErrors mask ts).1.map LaneCause.thread)
    fun T => { T with acpEcc := T.acpEcc.filter fun p => !bitOf mask p.1 }) := rfl
  rw [hpair, hnone]
  rfl

theorem State.acwaitMet_resumes {s : State} {g : Nat} {G : Group} {mask n : Nat} {ls : List Nat} (hg : s.groups.find g = some G)
    (hw : G.wait = some (.acwait mask n ls))
    (hmet : ∀ u ∈ ls, (s.thread u).acpEcc = [] ∧ ∀ k, k < 8 → mask.testBit k = true → (s.thread u).acp.getD k 0 ≤ n) :
    ∃ t, exec (.acwaitMet g) s = .next t ∧ s.Resumes t g G (G.pc + 8) := by
  have hall : (ls.all fun t => (s.thread t).acpMet mask n) = true := by
    refine List.all_eq_true.mpr fun u hu => List.all_eq_true.mpr fun k hk => ?_
    have := (hmet u hu).2 k (by simpa using ((mem_upFrom _ _ _).mp hk).2)
    rw [bitOf_testBit]
    cases hb : mask.testBit k <;> simp_all
  refine ⟨_, ?_, State.resume_resumes hg (G.pc + 8)⟩
  simp only [exec_acwaitMet, execAcwaitMet, event, State.acwaitMet, hg, hw, hall, if_true,
    State.acpErrors_none fun u hu => (hmet u hu).1, List.isEmpty_nil]

/-! ## Event counters (R83) and EVWAIT_MET (R96) -/

theorem State.hostAdd_adds (s : State) {n : Nat} (x : DWord) (hn : n < 4096) :
    ∃ t, exec (.eventCounterHostAdd n x) s = .next t ∧ t = { s with counters := t.counters, groups := t.groups } ∧
      ∀ k, t.counter k = s.counter k + if k = n then x else 0 := by
  refine ⟨s.addCounter n x, ?_, rfl, fun k => ?_⟩
  · simp [execEventCounterHostAdd, event, hn]
  · refine (FMap.findD_store _ _ _ _ _).trans ?_
    split
    next h => rw [h]
    next => exact (BitVec.add_zero _).symm

theorem State.results_of_no_queue {s : State} {b core origin : Nat} {isLoad : Bool} {outs : List (Nat × List LaneWrite)}
    (h : ∀ o ∈ outs, ∀ q x, LaneWrite.push q x ∉ o.2) :
    s.results b core origin isLoad outs = if laneResults outs = [] then s else { s with
      nextId := s.nextId + 1
      inflight := s.inflight.put s.nextId ⟨b, origin, laneResults outs, isLoad, s.clk core, []⟩ } := by
  unfold State.results
  dsimp only
  rw [foldl_id _ outs s]
  · change (if (laneResults outs).isEmpty = true then s else _) = _
    simp only [List.isEmpty_iff]
    rfl
  · refine fun o ho => foldl_id _ o.2 s fun w hw => ?_
    cases w with
    | push q x => exact absurd hw (h o ho q x)
    | reg n x => rfl
    | pred k b => rfl

/-- Results that go to no queue register change nothing but what is on its way. -/
theorem State.results_rest {s : State} {b core origin : Nat} {isLoad : Bool} {outs : List (Nat × List LaneWrite)}
    (h : ∀ o ∈ outs, ∀ q x, LaneWrite.push q x ∉ o.2) : s.results b core origin isLoad outs = { s with
      nextId := (s.results b core origin isLoad outs).nextId, inflight := (s.results b core origin isLoad outs).inflight } := by
  rw [State.results_of_no_queue h]
  split <;> rfl

theorem State.inflight_results {s : State} {b core origin : Nat} {isLoad : Bool} {outs : List (Nat × List LaneWrite)}
    (h : ∀ o ∈ outs, ∀ q x, LaneWrite.push q x ∉ o.2) : (s.results b core origin isLoad outs).inflight =
      if laneResults outs = [] then s.inflight
      else s.inflight.put s.nextId ⟨b, origin, laneResults outs, isLoad, s.clk core, []⟩ := by
  rw [State.results_of_no_queue h, apply_ite State.inflight]

theorem push_not_mem_w64 {d : Reg} (h : ∀ q, d ≠ .q q) (y : DWord) (q : Nat) (x : DWord) : LaneWrite.push q x ∉ w64 d y := by
  cases d with
  | v n => simp [w64]
  | q k => exact absurd rfl (h k)
  | zero => simp [w64]

theorem push_not_mem_w32 {d : Reg} (h : ∀ q, d ≠ .q q) (y : Word) (q : Nat) (x : DWord) : LaneWrite.push q x ∉ w32 d y := by
  cases d with
  | v n => simp [w32]
  | q k => exact absurd rfl (h k)
  | zero => simp [w32]

theorem State.unboundNow_of_no_queue {s : State} {G : Group} {d : Reg} (h : ∀ q, d ≠ .q q) : s.unboundNow G d = false := by
  cases d with
  | v n => rfl
  | q k => exact absurd rfl (h k)
  | zero => rfl

theorem State.acquireGroup_of_wide {s : State} {G : Group} {sc : Scope} (h : sc ≠ .blk) : s.acquireGroup G sc =
    { s with l1 := s.l1.filter fun l => !(l.core == G.core && l.tenant == (s.recOf G.block).tenant) } := if_neg h

theorem State.evwaitMet_resumes {s : State} {g : Nat} {G : Group} {sc : Scope} {d : Reg} {ls : List LaneSrc} {met : FMap Nat}
    (hg : s.groups.find g = some G) (hw : G.wait = some (.evwait sc d ls met)) (hmet : ∀ l ∈ ls, (met.find l.thread).isSome)
    (hdone : s.loadsDone (ls.map LaneSrc.thread) = true) (hsc : sc ≠ .blk) (hd : ∀ q, d ≠ .q q) :
    let ws := laneResults (ls.map fun l => (l.thread, w64 d (BitVec.ofNat 64
      (if (s.recOf G.block).dm = 2 then l.b else met.findD l.thread 0))))
    ∃ r t : State, exec (.evwaitMet g) s = .next t ∧ r.Resumes t g G (G.pc + 8) ∧
      r.l1 = (s.l1.filter fun l => !(l.core == G.core && l.tenant == (s.recOf G.block).tenant)) ∧
      r = { s with l1 := r.l1, nextId := r.nextId, inflight := r.inflight } ∧
      r.inflight = if ws = [] then s.inflight else s.inflight.put s.nextId ⟨G.block, s.nextId, ws, false, s.clk G.core, []⟩ := by
  intro ws
  have hexec : exec (.evwaitMet g) s = .next (((s.acquireGroup G sc).results G.block G.core s.nextId false
      (ls.map fun l => (l.thread, w64 d (BitVec.ofNat 64 (if (s.recOf G.block).dm = 2 then l.b else met.findD l.thread 0))))).resume g
        (G.pc + 8)) := by
    simp only [exec_evwaitMet, execEvwaitMet, event, State.evwaitMet, hg, hw, List.all_eq_true.mpr hmet, hdone, Bool.and_self, if_true,
      State.unboundNow_of_no_queue hd, Bool.false_eq_true, if_false]
  have hpush : ∀ o ∈ ls.map fun l => (l.thread, w64 d (BitVec.ofNat 64 (if (s.recOf G.block).dm = 2 then l.b else met.findD l.thread 0))),
      ∀ q x, LaneWrite.push q x ∉ o.2 := fun o ho q x => by
    obtain ⟨l, hl, rfl⟩ := List.mem_map.mp ho
    exact push_not_mem_w64 hd _ q x
  rw [State.acquireGroup_of_wide hsc] at hexec
  have hrest := State.results_rest (s := { s with l1 := s.l1.filter fun l => !(l.core == G.core && l.tenant == (s.recOf G.block).tenant) })
    (b := G.block) (core := G.core) (origin := s.nextId) (isLoad := false) hpush
  refine ⟨_, _, hexec, State.resume_resumes ?_ _, congrArg State.l1 hrest, ?_, State.inflight_results hpush⟩
  · exact (congrArg (fun r => r.groups.find g) hrest).trans hg
  · exact hrest.trans (by rw [congrArg State.l1 hrest])

end Machine

open Machine

/-- Settles O33: each event by what its own lemma says that it leaves. -/
theorem memoryEvents : Obligations.MemoryEvents := by
  refine ⟨fun s id p h => ⟨fun hready hdrops hn => ?_, State.scoreboardResult_waits h, fun k x hdrops hready hfree =>
      State.scoreboardResult_drops h hdrops hready hfree⟩,
    fun s id p h => State.storeAck_drains h, fun s u n hpos hle => State.hostDrain_lowers hpos hle,
    fun s id c h holdest hfree hlen => State.acpComplete_copies h holdest hfree hlen,
    fun s g G mask n ls hg hw hmet => State.acwaitMet_resumes hg hw hmet,
    fun s n x hn => State.hostAdd_adds s x hn,
    fun s g G sc d ls met hg hw hmet hdone hsc hd => State.evwaitMet_resumes hg hw hmet hdone hsc hd⟩
  obtain ⟨t, hexec, hrest, wrote, regs, preds⟩ := State.scoreboardResult_delivers h hready hdrops hn
  exact ⟨t, hexec, hrest, wrote, regs, preds⟩

end Sys2Proof
end

section
/-!
SUPPORT. The events that let groups go on together: barriers, gangs and supersteps (R252 to R255); and the ends of the waits for the
clearing head, for a slot and after YIELD (R101, R127, R257).
-/

namespace Sys2Proof

theorem FMap.mem_of_find {α : Type} {m : FMap α} {n : Nat} {x : α} (h : m.find n = some x) : (n, x) ∈ m := by
  induction m with
  | nil => cases h
  | cons p t ih =>
    obtain ⟨k, v⟩ := p
    rw [FMap.find] at h
    split at h
    next hk =>
      cases h
      exact hk ▸ List.mem_cons_self
    next => exact List.mem_cons_of_mem _ (ih h)

theorem FMap.nodup_keys {α : Type} {m : FMap α} (h : FMap.sorted m = true) : (m.map Prod.fst).Nodup := by
  induction m with
  | nil => exact List.nodup_nil
  | cons p t ih =>
    refine List.nodup_cons.mpr ⟨fun hp => ?_, ih (FMap.sorted_tail p t h)⟩
    obtain ⟨q, hq, heq⟩ := List.mem_map.mp hp
    exact absurd heq (Nat.ne_of_gt (FMap.sorted_lt p t h q hq))

/-- A fold in which the step at one element brings about what the others keep. -/
theorem foldl_reaches {σ α : Type} {P Q : σ → Prop} {f : σ → α → σ} {l : List α} {a : α} (hn : l.Nodup) (ha : a ∈ l)
    (hP : ∀ s b, b ≠ a → P s → P (f s b)) (hstep : ∀ s, P s → Q (f s a)) (hQ : ∀ s b, b ≠ a → Q s → Q (f s b)) {s : σ} (h : P s) :
    Q (l.foldl f s) := by
  induction l generalizing s with
  | nil => cases ha
  | cons b r ih =>
    obtain ⟨hb, hr⟩ := List.nodup_cons.mp hn
    by_cases hba : b = a
    · subst hba
      exact List.foldlRecOn r f (hstep s h) fun t ht c hc => hQ t c (fun hcb => hb (hcb ▸ hc)) ht
    · exact ih hr ((List.mem_cons.mp ha).resolve_left (Ne.symm hba)) (hP s b hba h)

namespace Machine

/-! ## A group goes on after its earlier loads (R238) -/

/-- A group of a state is a group that has waited, at the next word and with the hold of its earlier loads. -/
def State.GoneOn (t : State) (g : Nat) (G : Group) : Prop :=
  ∃ H, t.groups.find g = some H ∧ H.pc = G.pc + 8 ∧ H.wait = none ∧ H.lanes = G.lanes ∧ H.memHold = G.memHold ++ [.loads G.lanes]

theorem State.Resumes.goneOn {s t : State} {g : Nat} {G : Group} (h : s.Resumes t g (G.afterLoads G.lanes) (G.pc + 8)) : t.GoneOn g G := by
  obtain ⟨H, hfind, hH, -, -⟩ := h.group
  rw [hH] at hfind
  exact ⟨_, hfind, rfl, rfl, rfl, rfl⟩

theorem State.GoneOn.congr {s t : State} {g : Nat} {G : Group} (h : s.GoneOn g G) (hg : t.groups.find g = s.groups.find g) :
    t.GoneOn g G := by
  obtain ⟨H, hfind, hrest⟩ := h
  exact ⟨H, hg.trans hfind, hrest⟩

theorem State.resume_rest (s : State) (g pc : Nat) : s.resume g pc = { s with groups := (s.resume g pc).groups } := by
  cases h : s.groups.find g with
  | some G => exact (State.resume_resumes h pc).rest
  | none => rw [State.resume, h]

theorem State.find_resume_ne (s : State) {g k : Nat} (pc : Nat) (hk : k ≠ g) :
    (s.resume g pc).groups.find k = s.groups.find k := by
  cases h : s.groups.find g with
  | some G => exact (State.resume_resumes h pc).others k hk
  | none => rw [State.resume, h]

/-! ## BARRIER_PHASE_COMPLETE (R252, R253) -/

/-- A group whose barrier phase is complete goes on. -/
def State.barGo (s : State) (g : Nat) : State :=
  match s.groups.find g with
  | some G => (s.setGroup g (G.afterLoads G.lanes)).resume g (G.pc + 8)
  | none => s

theorem State.barGo_of_find {s : State} {g : Nat} {G : Group} (h : s.groups.find g = some G) :
    s.barGo g = (s.setGroup g (G.afterLoads G.lanes)).resume g (G.pc + 8) := by
  rw [State.barGo, h]

theorem State.barGo_rest (s : State) (g : Nat) : s.barGo g = { s with groups := (s.barGo g).groups } := by
  cases h : s.groups.find g with
  | some G =>
    rw [State.barGo_of_find h, State.resume_rest]
    rfl
  | none => rw [State.barGo, h]

theorem State.find_barGo_ne (s : State) {g k : Nat} (hk : k ≠ g) : (s.barGo g).groups.find k = s.groups.find k := by
  cases h : s.groups.find g with
  | some G =>
    rw [State.barGo_of_find h, State.find_resume_ne _ _ hk]
    exact FMap.find_put_ne _ _ _ _ hk
  | none => rw [State.barGo, h]

theorem State.barGo_goneOn {s : State} {g : Nat} {G : Group} (h : s.groups.find g = some G) : (s.barGo g).GoneOn g G := by
  rw [State.barGo_of_find h]
  exact (State.resume_resumes (FMap.find_put_self _ _ _) _).goneOn

theorem State.barGroups_nodup {s : State} (h : FMap.sorted s.groups = true) (b side k : Nat) : (s.barGroups b side k).Nodup :=
  (FMap.nodup_keys h).sublist (List.filter_sublist.map _)

theorem State.barrier_completes {s : State} {g k side : Nat} {G : Group} (hsort : FMap.sorted s.groups = true)
    (hg : s.groups.find g = some G) (hside : s.sideOf G.block G.core = side) (hfreed : s.barFreed k G = true) :
    ∃ t, exec (.barrierPhaseComplete G.block side k) s = .next t ∧ t = { s with groups := t.groups } ∧ t.GoneOn g G := by
  have hmem : g ∈ s.barGroups G.block side k :=
    List.mem_map.mpr ⟨(g, G), List.mem_filter.mpr ⟨FMap.mem_of_find hg, by simp [hside, hfreed]⟩, rfl⟩
  have hexec : exec (.barrierPhaseComplete G.block side k) s = .next ((s.barGroups G.block side k).foldl State.barGo s) := by
    have hsome : (!(s.barGroups G.block side k).isEmpty) = true := by
      rw [List.isEmpty_eq_false_iff_exists_mem.mpr ⟨g, hmem⟩]
      rfl
    exact congrArg Host.Outcome.next (if_pos hsome)
  refine ⟨_, hexec, foldl_reaches (P := fun r : State => r.groups.find g = some G ∧ r = { s with groups := r.groups })
    (Q := fun r : State => r = { s with groups := r.groups } ∧ r.GoneOn g G) (State.barGroups_nodup hsort _ _ _) hmem ?_ ?_ ?_ ⟨hg, rfl⟩⟩
  · rintro r h hne ⟨hfind, hrest⟩
    refine ⟨(State.find_barGo_ne r (Ne.symm hne)).trans hfind, ?_⟩
    rw [State.barGo_rest, hrest]
  · rintro r ⟨hfind, hrest⟩
    refine ⟨?_, State.barGo_goneOn hfind⟩
    rw [State.barGo_rest, hrest]
  · rintro r h hne ⟨hrest, hgone⟩
    refine ⟨?_, hgone.congr (State.find_barGo_ne r (Ne.symm hne))⟩
    rw [State.barGo_rest, hrest]

/-! ## GBAR_PHASE_COMPLETE and SSYNC_COMPLETE (R254, R255) -/

/-- A group that waits in a way, or that a handler has broken in on in such a wait, goes on after an acquire. -/
def State.wakeGroup (w : Wait) (sc : Scope) (s : State) (g : Nat) : State :=
  match s.groups.find g with
  | some G =>
    let s1 := (s.setGroup g (G.afterLoads G.lanes)).acquireGroup G sc
    if G.wait == some w then s1.resume g (G.pc + 8) else s1.modGroup g fun G => { G with paused := none }
  | none => s

/-- The groups of some blocks that wait in a way, or were broken in on in such a wait. -/
def State.waitersOf (s : State) (bs : List Nat) (w : Wait) : List Nat :=
  (s.groups.filter fun p => bs.contains p.2.block && (p.2.wait == some w || p.2.paused == some w)).map Prod.fst

theorem State.wakeBlocks_eq (s : State) (bs : List Nat) (w : Wait) (sc : Scope) :
    s.wakeBlocks bs w sc = (s.waitersOf bs w).foldl (State.wakeGroup w sc) s := rfl

theorem State.acquireGroup_rest (s : State) (G : Group) (sc : Scope) :
    s.acquireGroup G sc = { s with l1 := (s.acquireGroup G sc).l1 } := by
  unfold State.acquireGroup State.acquire
  split <;> rfl

theorem State.acquireGroup_l1_subset (s : State) (G : Group) (sc : Scope) : ∀ x ∈ (s.acquireGroup G sc).l1, x ∈ s.l1 := by
  unfold State.acquireGroup State.acquire
  split
  · exact fun _ hx => hx
  · exact fun _ hx => List.mem_of_mem_filter hx

theorem State.acquireGroup_l1 {s : State} {G : Group} {sc : Scope} (hsc : sc ≠ .blk) :
    ∀ x ∈ (s.acquireGroup G sc).l1, ¬ (x.core = G.core ∧ x.tenant = (s.recOf G.block).tenant) := by
  rw [State.acquireGroup_of_wide hsc]
  rintro x hx ⟨hcore, htenant⟩
  have := (List.mem_filter.mp hx).2
  simp [hcore, htenant] at this

/-- Some L1 lines go, and groups change; nothing else differs. -/
structure State.Woken (s t : State) : Prop where
  rest : t = { s with groups := t.groups, l1 := t.l1 }
  l1 : ∀ x ∈ t.l1, x ∈ s.l1

theorem State.Woken.refl (s : State) : s.Woken s := ⟨rfl, fun _ h => h⟩

theorem State.Woken.trans {s t u : State} (h : s.Woken t) (k : t.Woken u) : s.Woken u :=
  ⟨by rw [k.rest, h.rest], fun x hx => h.l1 x (k.l1 x hx)⟩

theorem State.woken_acquireGroup (s : State) (g : Nat) (G H : Group) (sc : Scope) : s.Woken ((s.setGroup g H).acquireGroup G sc) :=
  ⟨by rw [State.acquireGroup_rest]; rfl, State.acquireGroup_l1_subset (s.setGroup g H) G sc⟩

theorem State.woken_resume (s : State) (g pc : Nat) : s.Woken (s.resume g pc) :=
  ⟨by rw [State.resume_rest], by rw [State.resume_rest]; exact fun _ h => h⟩

theorem State.woken_wakeGroup (w : Wait) (sc : Scope) (s : State) (g : Nat) : s.Woken (s.wakeGroup w sc g) := by
  unfold State.wakeGroup
  split
  next G hg =>
    dsimp only
    split
    · exact (s.woken_acquireGroup g G _ sc).trans (State.woken_resume _ _ _)
    · exact (s.woken_acquireGroup g G _ sc).trans ⟨rfl, fun _ h => h⟩
  next => exact .refl s

theorem State.groups_acquireGroup (s : State) (G : Group) (sc : Scope) : (s.acquireGroup G sc).groups = s.groups := by
  rw [State.acquireGroup_rest]

theorem State.find_wakeGroup_ne (w : Wait) (sc : Scope) (s : State) {g k : Nat} (hk : k ≠ g) :
    (s.wakeGroup w sc g).groups.find k = s.groups.find k := by
  unfold State.wakeGroup
  split
  next G hg =>
    have hput : ((s.setGroup g (G.afterLoads G.lanes)).acquireGroup G sc).groups.find k = s.groups.find k := by
      rw [State.groups_acquireGroup]
      exact FMap.find_put_ne _ _ _ _ hk
    dsimp only
    split
    · exact (State.find_resume_ne _ _ hk).trans hput
    · rw [State.modGroup_groups, FMap.find_adjust, if_neg hk, hput]
  next => rfl

theorem State.wakeGroup_of_find {w : Wait} {sc : Scope} {s : State} {g : Nat} {G : Group} (hg : s.groups.find g = some G)
    (hw : G.wait = some w) :
    s.wakeGroup w sc g = ((s.setGroup g (G.afterLoads G.lanes)).acquireGroup G sc).resume g (G.pc + 8) := by
  unfold State.wakeGroup
  rw [hg]
  exact if_pos (by simp [hw])

theorem State.wakeGroup_goneOn {w : Wait} {sc : Scope} {s : State} {g : Nat} {G : Group} (hg : s.groups.find g = some G)
    (hw : G.wait = some w) : (s.wakeGroup w sc g).GoneOn g G := by
  rw [State.wakeGroup_of_find hg hw]
  refine (State.resume_resumes ?_ _).goneOn
  rw [State.groups_acquireGroup]
  exact FMap.find_put_self _ _ _

theorem State.wakeGroup_l1 {w : Wait} {sc : Scope} {s : State} {g : Nat} {G : Group} (hg : s.groups.find g = some G)
    (hw : G.wait = some w) (hsc : sc ≠ .blk) :
    ∀ x ∈ (s.wakeGroup w sc g).l1, ¬ (x.core = G.core ∧ x.tenant = (s.recOf G.block).tenant) := by
  rw [State.wakeGroup_of_find hg hw, State.resume_rest]
  exact State.acquireGroup_l1 (s := s.setGroup g _) hsc

theorem State.Woken.recOf {s t : State} (h : s.Woken t) (b : Nat) : t.recOf b = s.recOf b := by
  rw [h.rest]
  rfl

/-- A group that waits in a way goes on when the groups of its block that do so are woken, after the acquire. -/
theorem State.wakeBlocks_goneOn {s : State} {bs : List Nat} {w : Wait} {sc : Scope} {g : Nat} {G : Group}
    (hsort : FMap.sorted s.groups = true) (hg : s.groups.find g = some G) (hw : G.wait = some w) (hb : G.block ∈ bs) :
    s.Woken (s.wakeBlocks bs w sc) ∧ (s.wakeBlocks bs w sc).GoneOn g G ∧
      (sc ≠ .blk → ∀ x ∈ (s.wakeBlocks bs w sc).l1, ¬ (x.core = G.core ∧ x.tenant = (s.recOf G.block).tenant)) := by
  have hmem : g ∈ s.waitersOf bs w := List.mem_map.mpr ⟨(g, G), List.mem_filter.mpr ⟨FMap.mem_of_find hg, by simp [hb, hw]⟩, rfl⟩
  rw [State.wakeBlocks_eq]
  refine foldl_reaches (P := fun r => s.Woken r ∧ r.groups.find g = some G)
    (Q := fun r => s.Woken r ∧ r.GoneOn g G ∧ (sc ≠ .blk → ∀ x ∈ r.l1, ¬ (x.core = G.core ∧ x.tenant = (s.recOf G.block).tenant)))
    ((FMap.nodup_keys hsort).sublist (List.filter_sublist.map _)) hmem ?_ ?_ ?_ ⟨.refl s, hg⟩
  · rintro r h hne ⟨hwoken, hfind⟩
    exact ⟨hwoken.trans (State.woken_wakeGroup _ _ _ _), (State.find_wakeGroup_ne _ _ _ (Ne.symm hne)).trans hfind⟩
  · rintro r ⟨hwoken, hfind⟩
    refine ⟨hwoken.trans (State.woken_wakeGroup _ _ _ _), State.wakeGroup_goneOn hfind hw, fun hsc => ?_⟩
    rw [← hwoken.recOf]
    exact State.wakeGroup_l1 hfind hw hsc
  · rintro r h hne ⟨hwoken, hgone, hl1⟩
    have hstep := State.woken_wakeGroup w sc r h
    exact ⟨hwoken.trans hstep, hgone.congr (State.find_wakeGroup_ne _ _ _ (Ne.symm hne)), fun hsc x hx => hl1 hsc x (hstep.l1 x hx)⟩

/-- Each of some blocks is changed. -/
theorem State.modBlocks_rest (s : State) (bs : List Nat) (f : Block → Block) :
    bs.foldl (fun s b => s.modBlock b f) s = { s with blocks := (bs.foldl (fun s b => s.modBlock b f) s).blocks } := by
  induction bs generalizing s with
  | nil => rfl
  | cons b r ih =>
    rw [List.foldl_cons, ih]
    rfl

/-- What changes of some blocks leave of every block, and what they bring about in each of them. -/
theorem State.block_modBlocks {β : Type} (p : Block → β) {f : Block → Block} (hf : ∀ B, p (f B) = p B) (s : State) (bs : List Nat) (c : Nat) :
    p ((bs.foldl (fun s b => s.modBlock b f) s).block c) = p (s.block c) := by
  refine foldl_same (fun r : State => p (r.block c)) _ (fun r b => ?_) bs s
  by_cases h : c = b
  · subst h
    rw [State.block_modBlock_self]
    split
    · exact hf _
    · rfl
  · rw [State.block_modBlock _ _ _ _ h]

/-- What a change brings about in every block, and what an empty block has, holds of the blocks that are changed. -/
theorem State.modBlocks_brings {q : Block → Prop} {f : Block → Block} (hf : ∀ B, q (f B)) (hinit : q Block.init) {s : State} {bs : List Nat}
    {c : Nat} (hc : c ∈ bs) : q ((bs.foldl (fun s b => s.modBlock b f) s).block c) := by
  have here : ∀ r : State, q ((r.modBlock c f).block c) := by
    intro r
    rw [State.block_modBlock_self]
    split
    next => exact hf _
    next hnone =>
      rw [State.block, FMap.findD, Option.not_isSome_iff_eq_none.mp hnone]
      exact hinit
  have kept : ∀ (r : State) (b : Nat), q (r.block c) → q ((r.modBlock b f).block c) := by
    intro r b h
    by_cases hb : c = b
    · exact hb ▸ here r
    · rwa [State.block_modBlock _ _ _ _ hb]
  induction bs generalizing s with
  | nil => cases hc
  | cons b r ih =>
    rcases List.mem_cons.mp hc with rfl | hr
    · exact Sys2Proof.foldl_keeps (fun r : State => q (r.block c)) _ kept r _ (here s)
    · exact ih hr

theorem State.recOf_modBlocks {f : Block → Block} (hf : ∀ B, (f B).launch = B.launch) (s : State) (bs : List Nat) (b : Nat) :
    (bs.foldl (fun s b => s.modBlock b f) s).recOf b = s.recOf b := by
  have hl := State.block_modBlocks Block.launch hf s bs b
  have hr := congrArg State.launches (State.modBlocks_rest s bs f)
  unfold State.recOf State.launchOf State.launch
  rw [hl, hr]

theorem State.allIn_of {s : State} {bs : List Nat} {arrived : Block → List Nat}
    (h : ∀ b ∈ bs, (s.block b).residence = .exited ∨
      ((s.block b).residence = .resident ∧ ∀ u ∈ s.blockThreads b, u ∈ arrived (s.block b))) : s.allIn bs arrived = true := by
  refine List.all_eq_true.mpr fun b hb => ?_
  rcases h b hb with he | ⟨hr, hin⟩
  · simp [he]
  · simpa [hr] using hin

/-- The blocks of a phase of GBAR or SSYNC are woken: their waiting groups go on, and what counted the arrivals is empty. -/
theorem State.phase_wakes {s : State} {bs : List Nat} {w : Wait} {sc : Scope} {g : Nat} {G : Group} {arrived : Block → List Nat}
    {f : Block → Block} (hf : ∀ B, (f B).launch = B.launch) (hempty : ∀ B, arrived (f B) = []) (hinit : arrived Block.init = [])
    (hsort : FMap.sorted s.groups = true) (hg : s.groups.find g = some G) (hw : G.wait = some w) (hb : G.block ∈ bs) :
    let t := (bs.foldl (fun s b => s.modBlock b f) s).wakeBlocks bs w sc
    t.GoneOn g G ∧ (∀ b ∈ bs, arrived (t.block b) = []) ∧
      (sc ≠ .blk → ∀ x ∈ t.l1, ¬ (x.core = G.core ∧ x.tenant = (s.recOf G.block).tenant)) := by
  intro t
  have hgroups : (bs.foldl (fun s b => s.modBlock b f) s).groups = s.groups := by
    rw [State.modBlocks_rest]
  obtain ⟨hwoken, hgone, hl1⟩ := State.wakeBlocks_goneOn (s := bs.foldl (fun s b => s.modBlock b f) s) (sc := sc)
    (hgroups.symm ▸ hsort) (hgroups.symm ▸ hg) hw hb
  refine ⟨hgone, fun b hbs => ?_, ?_⟩
  · have hblock : t.block b = (bs.foldl (fun s b => s.modBlock b f) s).block b := by
      have h := congrArg (fun r : State => r.block b) hwoken.rest
      exact h
    rw [hblock]
    exact State.modBlocks_brings (q := fun B => arrived B = []) hempty hinit hbs
  · rwa [State.recOf_modBlocks hf] at hl1

theorem State.gbar_completes {s : State} {g l n : Nat} {G : Group} (hsort : FMap.sorted s.groups = true) (hg : s.groups.find g = some G)
    (hw : G.wait = some .gbar) (hb : G.block ∈ s.gangBlocks l n) (hsize : (s.gangBlocks l n).length = (s.launch l).lrec.gangSize)
    (hall : ∀ b ∈ s.gangBlocks l n, (s.block b).residence = .exited ∨
      ((s.block b).residence = .resident ∧ ∀ u ∈ s.blockThreads b, u ∈ (s.block b).gbarIn))
    (hsome : ∃ b ∈ s.gangBlocks l n, (s.block b).gbarIn ≠ []) :
    ∃ t, exec (.gbarPhaseComplete l n) s = .next t ∧ t.GoneOn g G ∧ (∀ b ∈ s.gangBlocks l n, (t.block b).gbarIn = []) ∧
      (∀ v ∈ (s.launch l).lrec.gangLevel, v.scope ≠ .blk → ∀ x ∈ t.l1, ¬ (x.core = G.core ∧ x.tenant = (s.recOf G.block).tenant)) := by
  have hdone : s.gbarDone l n = true := by
    simp only [State.gbarDone, Bool.and_eq_true, beq_iff_eq, List.any_eq_true]
    exact ⟨⟨hsize, State.allIn_of hall⟩, by simpa using hsome⟩
  obtain ⟨hgone, hin, hl1⟩ := State.phase_wakes (arrived := Block.gbarIn) (f := fun B => { B with gbarIn := [] })
    (sc := ((s.launch l).lrec.gangLevel.map Level.scope).getD .dev) (fun _ => rfl) (fun _ => rfl) rfl hsort hg hw hb
  refine ⟨_, congrArg Host.Outcome.next (if_pos hdone), hgone, hin, fun v hv hsc => hl1 ?_⟩
  rw [Option.mem_def.mp hv]
  exact hsc

theorem State.ssync_completes {s : State} {g l : Nat} {G : Group} (hsort : FMap.sorted s.groups = true) (hg : s.groups.find g = some G)
    (hw : G.wait = some .ssync) (hb : G.block ∈ s.launchBlocks l) (hsize : (s.launchBlocks l).length = (s.launch l).lrec.blockCount)
    (hall : ∀ b ∈ s.launchBlocks l, (s.block b).residence = .exited ∨
      ((s.block b).residence = .resident ∧ ∀ u ∈ s.blockThreads b, u ∈ (s.block b).ssyncIn))
    (hsome : ∃ b ∈ s.launchBlocks l, (s.block b).ssyncIn ≠ []) :
    ∃ t, exec (.ssyncComplete l) s = .next t ∧ t.GoneOn g G ∧ (∀ b ∈ s.launchBlocks l, (t.block b).ssyncIn = []) ∧
      ∀ x ∈ t.l1, ¬ (x.core = G.core ∧ x.tenant = (s.recOf G.block).tenant) := by
  have hdone : s.ssyncDone l = true := by
    simp only [State.ssyncDone, Bool.and_eq_true, beq_iff_eq, List.any_eq_true]
    exact ⟨⟨hsize, State.allIn_of hall⟩, by simpa using hsome⟩
  obtain ⟨hgone, hin, hl1⟩ := State.phase_wakes (arrived := Block.ssyncIn) (f := fun B => { B with ssyncIn := [] }) (sc := .dev)
    (fun _ => rfl) (fun _ => rfl) rfl hsort hg hw hb
  exact ⟨_, congrArg Host.Outcome.next (if_pos hdone), hgone, hin, hl1 (by decide)⟩

/-! ## ORDHEAD_REACHED, SLOT_WAIT_TIMEOUT and YIELD_EXPIRY (R101, R127, R257) -/

theorem State.ordhead_resumes {s : State} {g : Nat} {G : Group} {ls : List Nat} (hg : s.groups.find g = some G)
    (hw : G.wait = some (.ordhead ls)) (hhead : (s.block G.block).index = (s.launchOf G.block).head) (hdone : s.loadsDone ls = true) :
    ∃ t, exec (.ordheadReached g) s = .next t ∧
      State.Resumes { s with l1 := s.l1.filter fun l => !(l.core == G.core && l.tenant == (s.recOf G.block).tenant) } t g G (G.pc + 8) := by
  have hreached : s.ordheadDone g = true := by simp [State.ordheadDone, hg, hw, hhead, hdone]
  rw [← State.acquireGroup_of_wide (show Scope.dev ≠ .blk by decide)]
  refine ⟨_, ?_, State.resume_resumes ((congrArg (·.find g) (State.groups_acquireGroup s G .dev)).trans hg) (G.pc + 8)⟩
  simp only [exec_ordheadReached, execOrdheadReached, event, hreached, if_true, hg]

theorem State.slotWait_ends {s : State} {g : Nat} {G : Group} (hg : s.groups.find g = some G) (hslot : G.slot = none) (hw : G.wait = none)
    (hcand : G.candidate = false) (hold : 64 ≤ s.oppsNow G.seq G.block - G.oppsAt)
    (hroom : ((s.groups.filter fun p => p.2.seq == G.seq && p.2.slot.isNone && p.2.wait.isNone).filter fun p => p.2.candidate).length < 16)
    (hfirst : ∀ p ∈ s.groups.filter fun p => p.2.seq == G.seq && p.2.slot.isNone && p.2.wait.isNone,
      p.2.candidate = true ∨ G.since < p.2.since ∨ (G.since = p.2.since ∧ g ≤ p.1)) :
    exec (.slotWaitTimeout g) s = .next { s with groups := s.groups.adjust g fun G => { G with candidate := true } } := by
  have hmine : (s.groups.filter fun p => p.2.seq == G.seq && p.2.slotless) =
      s.groups.filter fun p => p.2.seq == G.seq && p.2.slot.isNone && p.2.wait.isNone := by
    simp only [Group.slotless, Bool.and_assoc]
  have hout : s.slotTimedOut g = true := by
    simp only [State.slotTimedOut, hg, hmine, Bool.and_eq_true, decide_eq_true_eq, List.all_eq_true, Bool.or_eq_true, beq_iff_eq,
      Bool.not_eq_true', or_assoc]
    exact ⟨⟨⟨⟨by simp [Group.slotless, hslot, hw], hcand⟩, hold⟩, hroom⟩, hfirst⟩
  exact congrArg Host.Outcome.next (if_pos hout)

theorem State.yield_ends {s : State} {g : Nat} {G : Group} (hg : s.groups.find g = some G) (hleft : G.yieldLeft ≠ 0)
    (hover : s.yieldOver G = true) :
    exec (.yieldExpiry g) s = .next { s with groups := s.groups.adjust g fun G => { G with yieldLeft := 0 } } := by
  simp only [exec_yieldExpiry, execYieldExpiry, event, hg, bne_iff_ne.mpr hleft, hover, Bool.and_self, if_true]
  rfl

end Machine
end Sys2Proof
end

section
/-!
SUPPORT. WAITV (R256): its checks and reads change nothing but translations, cached lines and what has been sent over links; what its
lanes read, and the two events that a re-read makes possible.
-/

namespace Sys2Proof

theorem upFrom_eq_range' (lo n : Nat) : upFrom lo n = List.range' lo n := by
  induction n generalizing lo with
  | zero => rfl
  | succ n ih => rw [upFrom, ih, List.range'_succ]

theorem map_upFrom {β : Type} (f : Nat → β) (lo n : Nat) : (upFrom lo n).map f = (List.range n).map fun k => f (lo + k) := by
  rw [upFrom_eq_range', List.range'_eq_map_range, List.map_map]
  rfl

namespace Machine

/-! ## States that differ in caches and links only -/

/-- Nothing differs between two states but the TLBs, the L1s and the links. -/
def State.OnlyCaches (s t : State) : Prop := t = { s with tlb := t.tlb, l1 := t.l1, links := t.links }

theorem State.OnlyCaches.refl (s : State) : s.OnlyCaches s := rfl

theorem State.OnlyCaches.trans {s t u : State} (h : s.OnlyCaches t) (k : t.OnlyCaches u) : s.OnlyCaches u := by
  unfold State.OnlyCaches at *
  rw [k, h]

theorem State.OnlyCaches.of_eq {α : Type} {s t : State} {x : α × State} {a : α} (he : x = (a, t)) (h : s.OnlyCaches x.2) :
    s.OnlyCaches t := by
  subst he
  exact h

section
variable {s t : State} (h : s.OnlyCaches t)
include h

theorem State.OnlyCaches.freeCtr : t.freeCtr = s.freeCtr := by rw [h]
theorem State.OnlyCaches.threads : t.threads = s.threads := by rw [h]
theorem State.OnlyCaches.groups : t.groups = s.groups := by rw [h]
theorem State.OnlyCaches.bins : t.bins = s.bins := by rw [h]
theorem State.OnlyCaches.opLog : t.opLog = s.opLog := by rw [h]
theorem State.OnlyCaches.assayed : t.assayed = s.assayed := by rw [h]
theorem State.OnlyCaches.debt : t.debt = s.debt := by rw [h]
theorem State.OnlyCaches.mem : t.mem = s.mem := by rw [h]

theorem State.OnlyCaches.thread (u : Nat) : t.thread u = s.thread u := by
  rw [h]
  rfl

theorem State.OnlyCaches.seqr (q : Nat) : t.seqr q = s.seqr q := by
  rw [h]
  rfl

theorem State.OnlyCaches.byte (x : Nat) : t.byte x = s.byte x := by
  rw [h]
  rfl

theorem State.OnlyCaches.viewByte (tag x : Nat) : t.viewByte tag x = s.viewByte tag x := by
  rw [h]
  rfl

theorem State.OnlyCaches.phys (x : Nat) : t.phys x = s.phys x := by
  rw [h]
  rfl

theorem State.OnlyCaches.spadBank (core k : Nat) : t.spadBank core k = s.spadBank core k := by
  rw [h]
  rfl

theorem State.OnlyCaches.physBank (q k : Nat) : t.physBank q k = s.physBank q k := by
  rw [h]
  rfl

theorem State.OnlyCaches.tileOpen (core j : Nat) : t.tileOpen core j = s.tileOpen core j := by
  rw [h]
  rfl

theorem State.OnlyCaches.keyedOb (x : Nat) : t.keyedOb x = s.keyedOb x := by
  rw [h]
  rfl

theorem State.OnlyCaches.keyedStart (x : Nat) : t.keyedStart x = s.keyedStart x := by
  rw [h]
  rfl

theorem State.OnlyCaches.dirtyOb (x : Nat) : t.dirtyOb x = s.dirtyOb x := by
  rw [h]
  rfl

theorem State.OnlyCaches.spawnDword (u i : Nat) : t.spawnDword u i = s.spawnDword u i := by
  rw [h]
  rfl

theorem State.OnlyCaches.blockAtSlot (core i : Nat) : t.blockAtSlot core i = s.blockAtSlot core i := by
  rw [h]
  rfl

theorem State.OnlyCaches.recordAt (core off : Nat) : t.recordAt core off = s.recordAt core off := by
  simp only [State.recordAt, h.blockAtSlot]

theorem State.OnlyCaches.coreReadback (core off : Nat) : t.coreReadback core off = s.coreReadback core off := by
  have hthread : t.thread = s.thread := funext h.thread
  have hseqr : t.seqr = s.seqr := funext h.seqr
  have hspad : t.spadBank = s.spadBank := funext₂ h.spadBank
  have hphys : t.physBank = s.physBank := funext₂ h.physBank
  have hblock : t.blockAtSlot = s.blockAtSlot := funext₂ h.blockAtSlot
  have hrecord : t.recordAt = s.recordAt := funext₂ h.recordAt
  unfold State.coreReadback
  rw [h.freeCtr, h.groups, h.bins, h.opLog, h.assayed, h.debt, hthread, hseqr, hspad, hphys, hblock, hrecord]

/-- What a core's map shows does not hang on caches and links. -/
theorem State.OnlyCaches.mapByte (core off : Nat) : t.mapByte core off = s.mapByte core off := by
  simp only [State.mapByte, h.freeCtr, h.threads, h.thread, h.byte, h.spadBank, h.tileOpen, h.keyedOb, h.keyedStart, h.dirtyOb,
    h.spawnDword, h.coreReadback]

theorem State.OnlyCaches.placeByte (ctx x : Nat) : t.placeByte ctx x = s.placeByte ctx x := by
  simp only [State.placeByte, h.freeCtr, h.phys, h.mapByte, h.viewByte]

end

theorem State.onlyCaches_entryFor (s : State) (cluster tenant world e : Nat) : s.OnlyCaches (s.entryFor cluster tenant world e).2 := by
  unfold State.entryFor
  split
  · exact .refl s
  · split
    · dsimp only
      split <;> rfl
    · exact .refl s

theorem State.onlyCaches_translate (s : State) (a : Acc) (need : Need) (e : Nat) : s.OnlyCaches (s.translate a need e).2 := by
  unfold State.translate
  split
  next s1 he => exact .of_eq he (s.onlyCaches_entryFor _ _ _ _)
  next s1 he =>
    have h1 : s.OnlyCaches s1 := .of_eq he (s.onlyCaches_entryFor _ _ _ _)
    dsimp only
    split <;> exact h1

theorem State.onlyCaches_resolve (s : State) (a : Acc) (need : Need) (bad : Bool) (rg : Region) (e : Int) (n : Nat) :
    s.OnlyCaches (s.resolve a need bad rg e n).2 := by
  unfold State.resolve
  extract_lets fin scratch priv x o
  have hfin : ∀ r, s.OnlyCaches r.2 → s.OnlyCaches (fin r).2 := by
    intro r hr
    unfold fin
    split
    · split <;> exact hr
    · exact hr
  have hscratch : ∀ o, s.OnlyCaches (scratch o).2 := fun o => by
    unfold scratch
    split <;> exact .refl s
  have hpriv : ∀ o, s.OnlyCaches (priv o).2 := fun o => by
    unfold priv
    split
    · split
      · exact s.onlyCaches_translate _ _ _
      · exact .refl s
    · exact .refl s
  clear_value fin scratch priv
  split
  · exact .refl s
  · cases rg with
    | scratch =>
      dsimp only
      split
      · exact .refl s
      · exact hfin _ (hscratch _)
    | priv =>
      dsimp only
      split
      · exact .refl s
      · exact hfin _ (hpriv _)
    | any =>
      dsimp only
      split
      · exact .refl s
      · split
        · exact hfin _ (s.onlyCaches_translate _ _ _)
        · split
          · split
            · split
              · exact hfin _ (.refl s)
              · exact .refl s
            · exact .refl s
          · split
            · exact hfin _ (hscratch _)
            · exact hfin _ (hpriv _)

theorem State.onlyCaches_partCheck (s : State) (a : Acc) (p : Part) : s.OnlyCaches (s.partCheck a p).2 := by
  unfold State.partCheck
  dsimp only
  split
  · split <;> exact .refl s
  · split
    next he => exact .of_eq he (s.onlyCaches_resolve _ _ _ _ _ _)
    next he => exact .of_eq he (s.onlyCaches_resolve _ _ _ _ _ _)

theorem State.onlyCaches_partResult (s : State) (i : Instr) (t : Nat) (p : Part) : s.OnlyCaches (s.partResult i t p).2 := by
  unfold State.partResult
  dsimp only
  split
  · exact .refl s
  · split
    next he => exact .of_eq he (s.onlyCaches_partCheck _ _)
    next he => exact .of_eq he (s.onlyCaches_partCheck _ _)

theorem State.onlyCaches_partResults (s : State) (i : Instr) (t : Nat) (ps : List Part) : s.OnlyCaches (s.partResults i t ps).2.2 := by
  induction ps generalizing s with
  | nil => exact .refl s
  | cons p r ih =>
    unfold State.partResults
    split
    next x s1 he =>
      have h1 : s.OnlyCaches s1 := .of_eq he (s.onlyCaches_partResult _ _ _)
      split <;> exact h1.trans (ih s1)

theorem State.onlyCaches_laneCheck (s : State) (i : Instr) (l : LaneSrc) : s.OnlyCaches (s.laneCheck i l).2 := by
  unfold State.laneCheck
  split
  · exact .refl s
  · exact s.onlyCaches_partResults _ _ _

theorem State.onlyCaches_lanesCheck (s : State) (i : Instr) (ls : List LaneSrc) : s.OnlyCaches (s.lanesCheck i ls).2.2 := by
  induction ls generalizing s with
  | nil => exact .refl s
  | cons l r ih =>
    unfold State.lanesCheck
    split
    next x s1 he =>
      have h1 : s.OnlyCaches s1 := .of_eq he (s.onlyCaches_laneCheck _ _)
      split
      · split <;> exact h1
      · split <;> exact h1.trans (ih s1)

/-- Where no lane has a cause, every lane passes, with its spots. -/
theorem State.lanesCheck_lanes {s : State} {i : Instr} (hi : isShared i = false) {ls : List LaneSrc} (h : (s.lanesCheck i ls).1 = []) :
    (s.lanesCheck i ls).2.1.map Prod.fst = ls := by
  induction ls generalizing s with
  | nil => rfl
  | cons l r ih =>
    rw [State.lanesCheck] at h ⊢
    cases hx : s.laneCheck i l with
    | mk x s1 =>
      simp only [hx, hi, Bool.false_eq_true, if_false] at h ⊢
      cases x with
      | error c => cases h
      | ok sp => exact congrArg (l :: ·) (ih h)

/-! ## What the lanes read -/

theorem State.l2Bytes_eq {s t : State} (h : s.OnlyCaches t) {a : Acc} (ha : a.side ≠ 1) (ctx pa n : Nat) :
    t.l2Bytes a ctx pa n = (List.range n).map fun k => s.placeByte ctx (pa + k) := by
  rw [State.l2Bytes, map_upFrom]
  simp only [if_neg ha, h.placeByte]

theorem State.bytes_eq {s t : State} (h : s.OnlyCaches t) (core off n : Nat) :
    t.bytes (spadPa core off) n = (List.range n).map fun k => s.byte (spadPa core (off + k)) := by
  unfold State.bytes
  rw [map_upFrom, h]
  refine List.map_congr_left fun k _ => ?_
  rw [spadPa, spadPa, Nat.add_assoc]
  rfl

/-- A place read under .cg gives what the accessor sees there, and changes caches and links only. -/
theorem State.loadPlace_cg {s t : State} (h : s.OnlyCaches t) {a : Acc} (ha : a.side ≠ 1) (ctx v : Nat) (p : Place) (n : Nat) :
    (t.loadPlace a .cg v p n).1 = (List.range n).map (s.spotByte a ctx ⟨some p, v, n⟩) ∧ s.OnlyCaches (t.loadPlace a .cg v p n).2 := by
  cases p with
  | spad core off => exact ⟨State.bytes_eq h core off n, h⟩
  | mem pa c dev =>
    have hbytes := State.l2Bytes_eq h ha c pa n
    simp only [State.loadPlace, if_neg ha, if_true]
    split
    · exact ⟨hbytes, h.trans rfl⟩
    · exact ⟨hbytes, h.trans rfl⟩
    · exact ⟨hbytes, h⟩

theorem State.readSpots_cg {s t : State} (h : s.OnlyCaches t) {a : Acc} (ha : a.side ≠ 1) (s0 : State) (ctx : Nat) {sps : List Spot}
    (hsome : sps.all (fun sp => sp.place.isSome) = true) :
    (s0.readSpots t a .cg sps).1 = sps.flatMap (fun sp => (List.range sp.len).map (s.spotByte a ctx sp)) ∧
      s.OnlyCaches (s0.readSpots t a .cg sps).2 := by
  induction sps generalizing t with
  | nil => exact ⟨rfl, h⟩
  | cons sp r ih =>
    obtain ⟨hsp, hr⟩ := Bool.and_eq_true_iff.mp hsome
    obtain ⟨p, hp⟩ := Option.isSome_iff_exists.mp hsp
    obtain ⟨place, v, n⟩ := sp
    obtain rfl : place = some p := hp
    obtain ⟨hbytes, hcaches⟩ := State.loadPlace_cg h ha ctx v p n
    obtain ⟨hrest, hend⟩ := ih hcaches hr
    refine ⟨?_, hend⟩
    rw [List.flatMap_cons, ← hrest, ← hbytes]
    rfl

/-- What a lane of a WAITV reads. -/
def State.waitvValue (s : State) (o : LaneSrc × List Spot) : Nat :=
  s.spotNat (s.accOf o.1.thread (s.liveCtx o.1.ctx o.1.gen)) (s.liveCtx o.1.ctx o.1.gen) o.2

/-- A lane of a WAITV meets its test. -/
def State.waitvMet (s : State) (i : Instr) (o : LaneSrc × List Spot) : Bool := waitvHolds i (s.waitvValue o) o.1.b

/-- A lane of a WAITV after a re-read, with the value that has met its test. -/
def State.rereadLane (s : State) (i : Instr) (o : LaneSrc × List Spot) : LaneSrc × Bool :=
  if s.waitvMet i o then ({ o.1 with c := s.waitvValue o }, true) else (o.1, false)

/-- One lane of a re-read (R256). -/
def rereadStep (e : LogEntry) (r : List (LaneSrc × Bool) × State) (o : LaneSrc × List Spot) : List (LaneSrc × Bool) × State :=
  if e.queued.contains o.1.thread then (r.1 ++ [(o.1, true)], r.2)
  else
    let y := r.2.readSpots r.2 (r.2.accOf o.1.thread (r.2.liveCtx o.1.ctx o.1.gen)) .cg o.2
    let x := leNat y.1
    if waitvHolds e.instr x o.1.b then (r.1 ++ [({ o.1 with c := x }, true)], y.2) else (r.1 ++ [(o.1, false)], r.2)

theorem State.accOf_side {s : State} {t : Nat} (h : coreOf t = (s.block (s.thread t).block).core) (ctx : Nat) : (s.accOf t ctx).side ≠ 1 := by
  simp [State.accOf, h]

theorem rereadStep_eq {s : State} {e : LogEntry} {r : List (LaneSrc × Bool) × State} (h : s.OnlyCaches r.2) (hq : e.queued = [])
    {o : LaneSrc × List Spot} (hcore : coreOf o.1.thread = (s.block (s.thread o.1.thread).block).core)
    (hsome : o.2.all (fun sp => sp.place.isSome) = true) :
    (rereadStep e r o).1 = r.1 ++ [s.rereadLane e.instr o] ∧ s.OnlyCaches (rereadStep e r o).2 := by
  have hacc : r.2.accOf o.1.thread (r.2.liveCtx o.1.ctx o.1.gen) = s.accOf o.1.thread (s.liveCtx o.1.ctx o.1.gen) := by
    rw [h]
    rfl
  obtain ⟨hbytes, hend⟩ := State.readSpots_cg h (State.accOf_side hcore (s.liveCtx o.1.ctx o.1.gen)) r.2
    (s.liveCtx o.1.ctx o.1.gen) hsome
  have hvalue : leNat (r.2.readSpots r.2 (s.accOf o.1.thread (s.liveCtx o.1.ctx o.1.gen)) .cg o.2).1 = s.waitvValue o :=
    congrArg leNat hbytes
  have hstep : rereadStep e r o =
      if s.waitvMet e.instr o then (r.1 ++ [({ o.1 with c := s.waitvValue o }, true)],
        (r.2.readSpots r.2 (s.accOf o.1.thread (s.liveCtx o.1.ctx o.1.gen)) .cg o.2).2)
      else (r.1 ++ [(o.1, false)], r.2) := by
    rw [rereadStep, hq, hacc]
    dsimp only
    rw [hvalue]
    rfl
  rw [hstep, State.rereadLane]
  by_cases hm : s.waitvMet e.instr o = true
  · rw [if_pos hm, if_pos hm]
    exact ⟨rfl, hend⟩
  · rw [if_neg hm, if_neg hm]
    exact ⟨rfl, h⟩

theorem rereadSteps_eq {s : State} {e : LogEntry} (hq : e.queued = []) {oks : List (LaneSrc × List Spot)}
    {r : List (LaneSrc × Bool) × State} (h : s.OnlyCaches r.2)
    (hcore : ∀ o ∈ oks, coreOf o.1.thread = (s.block (s.thread o.1.thread).block).core)
    (hsome : ∀ o ∈ oks, o.2.all (fun sp => sp.place.isSome) = true) :
    (oks.foldl (rereadStep e) r).1 = r.1 ++ oks.map (s.rereadLane e.instr) ∧ s.OnlyCaches (oks.foldl (rereadStep e) r).2 := by
  induction oks generalizing r with
  | nil => exact ⟨(List.append_nil _).symm, h⟩
  | cons o t ih =>
    obtain ⟨hstep, hcaches⟩ := rereadStep_eq h hq (hcore o List.mem_cons_self) (hsome o List.mem_cons_self)
    obtain ⟨hrest, hend⟩ := ih hcaches (fun p hp => hcore p (List.mem_cons_of_mem _ hp)) fun p hp => hsome p (List.mem_cons_of_mem _ hp)
    rw [List.foldl_cons, List.map_cons]
    exact ⟨by rw [hrest, hstep, List.append_assoc]; rfl, hend⟩

/-- The entry of a WAITV none of whose lanes had met its test, after a re-read. -/
def State.rereadEntry (s : State) (e : LogEntry) : LogEntry :=
  { e with
    lanes := (s.spots e).map fun o => if s.waitvMet e.instr o then { o.1 with c := s.waitvValue o } else o.1
    queued := ((s.spots e).filter (s.waitvMet e.instr)).map fun o => o.1.thread
    freed := true }

/-- Nothing is in the way of a re-read: the checks pass, no bank sleeps, and no engine owns a line. -/
structure State.Rereads (s : State) (id : Nat) (e : LogEntry) : Prop extends s.Live id e where
  own : isShared e.instr = false
  clear : (s.lanesCheck e.instr e.lanes).1 = []
  fresh : e.queued = []
  free : ∀ o ∈ s.spots e, ∀ sp ∈ o.2, (∀ x, sp.bank = some x → s.bankAsleep x.1 x.2 = false) ∧ ∀ l, sp.line = some l → s.owned l = false
  placed : ∀ o ∈ s.spots e, o.2.all (fun sp => sp.place.isSome) = true

theorem State.Rereads.lanes {s : State} {id : Nat} {e : LogEntry} (H : s.Rereads id e) : (s.spots e).map Prod.fst = e.lanes :=
  State.lanesCheck_lanes H.own H.clear

theorem State.Rereads.lead {s : State} {id : Nat} {e : LogEntry} (H : s.Rereads id e) :
    ∀ o ∈ s.spots e, coreOf o.1.thread = (s.block (s.thread o.1.thread).block).core := fun o ho =>
  H.leads o.1 (H.lanes ▸ List.mem_map_of_mem ho)

/-- A spot keeps a re-read from being made: its bank sleeps, or an engine owns its line. -/
def State.spotHeld (s : State) (sp : Spot) : Bool :=
  match sp.bank with
  | some b => s.bankAsleep b.1 b.2
  | none => (match sp.line with
    | some l => s.owned l
    | none => false)

theorem State.reread_of_free {s : State} {e : LogEntry} (hclear : (s.lanesCheck e.instr e.lanes).1 = [])
    (hfree : ((s.spots e).flatMap Prod.snd).any (s.lanesCheck e.instr e.lanes).2.2.spotHeld = false) :
    s.reread e = (fun r : List (LaneSrc × Bool) × State => some ({ e with
        lanes := r.1.map Prod.fst, freed := true, queued := (r.1.filter Prod.snd).map fun p => p.1.thread }, r.2))
      ((s.spots e).foldl (rereadStep e) ([], (s.lanesCheck e.instr e.lanes).2.2)) := by
  unfold State.reread
  unfold State.spots at *
  generalize s.lanesCheck e.instr e.lanes = C at *
  obtain ⟨cs, oks, s1⟩ := C
  obtain rfl : cs = [] := hclear
  exact if_neg (fun h => Bool.false_ne_true (hfree.symm.trans h))

theorem State.Rereads.reread {s : State} {id : Nat} {e : LogEntry} (H : s.Rereads id e) :
    ∃ r, s.reread e = some (s.rereadEntry e, r) ∧ s.OnlyCaches r := by
  have hcaches := s.onlyCaches_lanesCheck e.instr e.lanes
  have hfree : ((s.spots e).flatMap Prod.snd).any (s.lanesCheck e.instr e.lanes).2.2.spotHeld = false := by
    refine List.any_eq_false.mpr fun sp hsp => ?_
    obtain ⟨o, ho, hin⟩ := List.mem_flatMap.mp hsp
    obtain ⟨hbank, hline⟩ := H.free o ho sp hin
    have hheld : (s.lanesCheck e.instr e.lanes).2.2.spotHeld sp = s.spotHeld sp := by
      rw [hcaches]
      rfl
    rw [hheld, State.spotHeld]
    cases hb : sp.bank with
    | some b => simp [hbank b hb]
    | none =>
      cases hl : sp.line with
      | some l => simp [hline l hl]
      | none => simp
  obtain ⟨hlanes, hend⟩ := rereadSteps_eq H.fresh (r := ([], (s.lanesCheck e.instr e.lanes).2.2)) hcaches H.lead H.placed
  refine ⟨_, (State.reread_of_free H.clear hfree).trans ?_, hend⟩
  have hmap : (((s.spots e).map (s.rereadLane e.instr)).map Prod.fst) = (s.rereadEntry e).lanes := by
    rw [List.map_map]
    refine List.map_congr_left fun o _ => ?_
    simp only [Function.comp_apply, State.rereadLane]
    split <;> rfl
  have hqueued : ((((s.spots e).map (s.rereadLane e.instr)).filter Prod.snd).map fun p => p.1.thread) = (s.rereadEntry e).queued := by
    have hmet : (Prod.snd ∘ s.rereadLane e.instr) = s.waitvMet e.instr := funext fun o => by
      simp only [Function.comp_apply, State.rereadLane]
      split <;> simp_all
    rw [List.filter_map, List.map_map, hmet]
    refine List.map_congr_left fun o _ => ?_
    simp only [Function.comp_apply, State.rereadLane]
    split <;> rfl
  dsimp only
  rw [hlanes, List.nil_append, hmap, hqueued]
  rfl

/-! ## WAITV_MET and WAITV_REREAD -/

theorem State.OnlyCaches.acquireGroup {s t : State} (h : s.OnlyCaches t) (G : Group) (sc : Scope) :
    t.acquireGroup G sc = { s with tlb := t.tlb, links := t.links, l1 := (t.acquireGroup G sc).l1 } := by
  rw [State.acquireGroup_rest]
  generalize (t.acquireGroup G sc).l1 = x
  unfold State.OnlyCaches at h
  generalize t.tlb = tlb, t.links = links, t.l1 = l1 at *
  subst h
  rfl

theorem State.rereadEntry_threads {s : State} {id : Nat} {e : LogEntry} (H : s.Rereads id e) :
    (s.rereadEntry e).lanes.map LaneSrc.thread = e.lanes.map LaneSrc.thread := by
  rw [← H.lanes, List.map_map, State.rereadEntry, List.map_map]
  refine List.map_congr_left fun o _ => ?_
  simp only [Function.comp_apply]
  split <;> rfl

theorem State.waitvNow_of_rereads {s : State} {g id : Nat} {G : Group} {e : LogEntry} (hg : s.groups.find g = some G)
    (hw : G.wait = some (.waitv id)) (H : s.Rereads id e) :
    ∃ r, s.waitvNow g = some (id, e, s.rereadEntry e, r) ∧ s.OnlyCaches r := by
  obtain ⟨r, hr, hcaches⟩ := H.reread
  refine ⟨r, ?_, hcaches⟩
  simp only [State.waitvNow, State.waitvEntry, hg, hw, H.there, H.live, Option.bind_some, Bool.false_eq_true, if_false, hr, Option.map_some]

theorem State.waitvReread_marks {s : State} {g id : Nat} {G : Group} {e : LogEntry} (hg : s.groups.find g = some G)
    (hw : G.wait = some (.waitv id)) (H : s.Rereads id e) (hsome : ∃ o ∈ s.spots e, s.waitvMet e.instr o = true)
    (hnot : ∃ o ∈ s.spots e, s.waitvMet e.instr o = false) :
    ∃ t, exec (.waitvReread g) s = .next t ∧ t.mem = s.mem ∧ t.groups = s.groups ∧ t.opLog = s.opLog.put id (s.rereadEntry e) := by
  obtain ⟨r, hnow, hcaches⟩ := State.waitvNow_of_rereads hg hw H
  have hlt : 0 < (s.rereadEntry e).queued.length ∧ (s.rereadEntry e).queued.length < (s.rereadEntry e).lanes.length := by
    obtain ⟨o, ho, hmet⟩ := hsome
    obtain ⟨o', ho', hmet'⟩ := hnot
    simp only [State.rereadEntry, List.length_map]
    exact ⟨List.length_pos_of_mem (List.mem_filter.mpr ⟨ho, hmet⟩),
      List.length_filter_lt_length_iff_exists.mpr ⟨o', ho', by simp [hmet']⟩⟩
  refine ⟨{ r with opLog := r.opLog.put id (s.rereadEntry e) }, ?_, hcaches.mem, hcaches.groups, ?_⟩
  · simp only [exec_waitvReread, execWaitvReread, event, hnow, H.fresh, List.length_nil, hlt, and_self, decide_true, if_true]
  · exact congrArg (·.put id (s.rereadEntry e)) hcaches.opLog

theorem State.waitvMet_resumes {s : State} {g id : Nat} {G : Group} {e : LogEntry} (hg : s.groups.find g = some G)
    (hw : G.wait = some (.waitv id)) (H : s.Rereads id e) (hall : ∀ o ∈ s.spots e, s.waitvMet e.instr o = true)
    (hdone : s.loadsBefore (e.lanes.map LaneSrc.thread) e.age = true)
    (hpush : ∀ n q x, LaneWrite.push q x ∉ loadWrites e.instr n) :
    let ws := laneResults ((s.spots e).map fun o => (o.1.thread, loadWrites e.instr (s.waitvValue o)))
    ∃ (r t : State), exec (.waitvMet g) s = .next t ∧ r.Resumes t g G (G.pc + 8) ∧ r.mem = s.mem ∧ r.opLog = s.opLog.del id ∧
      (scopeOf e.instr ≠ .blk → ∀ y ∈ r.l1, ¬ (y.core = G.core ∧ y.tenant = (s.recOf G.block).tenant)) ∧
      r.inflight = if ws = [] then s.inflight else s.inflight.put s.nextId ⟨e.block, e.age, ws, true, s.clk (e.seq / 4), []⟩ := by
  intro ws
  obtain ⟨r, hnow, hcaches⟩ := State.waitvNow_of_rereads hg hw H
  have hqueued : (s.rereadEntry e).queued.length = (s.rereadEntry e).lanes.length := by
    simp only [State.rereadEntry, List.length_map, List.filter_eq_self.mpr hall]
  have hmet : s.waitvDone g = true := by
    simp only [State.waitvDone, hnow, hqueued, State.rereadEntry_threads H, decide_true, Bool.true_and]
    exact hdone
  have hlanes : (s.rereadEntry e).lanes.map (fun l => (l.thread, loadWrites (s.rereadEntry e).instr l.c)) =
      (s.spots e).map fun o => (o.1.thread, loadWrites e.instr (s.waitvValue o)) := by
    rw [State.rereadEntry, List.map_map]
    refine List.map_congr_left fun o ho => ?_
    simp only [Function.comp_apply, hall o ho, if_true]
  have hout : ∀ o ∈ (s.spots e).map fun o => (o.1.thread, loadWrites e.instr (s.waitvValue o)), ∀ q x, LaneWrite.push q x ∉ o.2 := by
    intro o ho q x
    obtain ⟨p, hp, rfl⟩ := List.mem_map.mp ho
    exact hpush _ q x
  have hexec : exec (.waitvMet g) s = .next (State.resume { (r.acquireGroup G (scopeOf e.instr)).results e.block (e.seq / 4) e.age true
      ((s.spots e).map fun o => (o.1.thread, loadWrites e.instr (s.waitvValue o))) with
        opLog := ((r.acquireGroup G (scopeOf e.instr)).results e.block (e.seq / 4) e.age true
          ((s.spots e).map fun o => (o.1.thread, loadWrites e.instr (s.waitvValue o)))).opLog.del id } g (G.pc + 8)) := by
    simp only [exec_waitvMet, execWaitvMet, event, hmet, if_true, hnow, hg, hlanes]
    rfl
  have hacq := hcaches.acquireGroup G (scopeOf e.instr)
  have hres := State.results_rest (s := r.acquireGroup G (scopeOf e.instr)) (b := e.block) (core := e.seq / 4) (origin := e.age)
    (isLoad := true) hout
  have hrec : r.recOf G.block = s.recOf G.block := by
    rw [hcaches]
    rfl
  refine ⟨_, _, hexec, State.resume_resumes ?_ _, ?_, ?_, fun hsc => ?_, (State.inflight_results hout).trans ?_⟩
  · have hgroups := congrArg State.groups hacq
    have hkept := congrArg State.groups hres
    exact (congrArg (·.find g) (hkept.trans hgroups)).trans hg
  · have hmem := congrArg State.mem hacq
    have hkept := congrArg State.mem hres
    exact hkept.trans hmem
  · have hlog := congrArg State.opLog hacq
    have hkept := congrArg State.opLog hres
    exact congrArg (·.del id) (hkept.trans hlog)
  · have hl1 := congrArg State.l1 hres
    have hout := State.acquireGroup_l1 (s := r) (G := G) hsc
    rw [hrec] at hout
    exact fun y hy => hout y (hl1 ▸ hy)
  · rw [hacq]
    rfl

/-- What a WAITV of 32 or 64 bits delivers. -/
theorem loadWrites_waitv {h : Hdr} {cmp : Cmp} {sg : Bool} {size : Size} {sc : Scope} {d a b : Reg} (hsize : size = .b32 ∨ size = .b64)
    (hd : ∀ q, d ≠ .q q) (x : Nat) : loadWrites (.waitv h cmp sg size sc d a b) x =
      if size = .b64 then w64 d (BitVec.ofNat 64 x) else w32 d (BitVec.ofNat 32 x) := by
  have hlow : lowWord (BitVec.ofNat 64 x) = BitVec.ofNat 32 x := BitVec.eq_of_toNat_eq (by simp [lowWord])
  have hhigh : highWord (BitVec.ofNat 64 x) = BitVec.ofNat 32 (x / 2 ^ 32) := BitVec.eq_of_toNat_eq (by simp [highWord]; omega)
  rcases hsize with rfl | rfl <;> cases d with
  | v n => simp [loadWrites, loadWords, extendTo32, wRegs, w32, w64, hlow, hhigh]
  | q k => exact absurd rfl (hd k)
  | zero => simp [loadWrites, wRegs, w32, w64]

theorem Cmp.holds_eq (c : Cmp) (m n : Int) : Cmp.holds c m n = match c with
    | .eq => decide (m = n)
    | .ne => decide (m ≠ n)
    | .lt => decide (m < n)
    | .le => decide (m ≤ n)
    | .gt => decide (n < m)
    | .ge => decide (n ≤ m) := by
  cases c <;> simp [Cmp.holds, bne, Bool.beq_eq_decide_eq]

/-- The test of a WAITV of 32 or 64 bits. -/
theorem waitvHolds_eq {h : Hdr} {cmp : Cmp} {sg : Bool} {size : Size} {sc : Scope} {d a b : Reg} (hsize : size = .b32 ∨ size = .b64)
    (x y : Nat) : waitvHolds (.waitv h cmp sg size sc d a b) x y = Cmp.holds cmp
      (if sg then (BitVec.ofNat (if size = .b64 then 64 else 32) x).toInt else x)
      (if sg then (BitVec.ofNat (if size = .b64 then 64 else 32) y).toInt else y) := by
  rcases hsize with rfl | rfl <;> simp only [waitvHolds, signedOf_eq_toInt] <;> rfl

end Machine

open Machine

/-- Settles O37: the barriers, gangs and supersteps by the groups that they wake, the others by the end of their own group's wait. -/
theorem waitsEnd : Obligations.WaitsEnd := by
  intro s g G hsort hg tenant l1 onward
  refine ⟨fun k ls side hw hclear hside => State.barrier_completes hsort hg hside ?_,
    fun k ls side hw hk hclear hside => State.barrier_completes hsort hg hside ?_,
    fun l n hw hb hsize hall hsome => State.gbar_completes hsort hg hw hb hsize hall hsome,
    fun l hw hb hsize hall hsome => State.ssync_completes hsort hg hw hb hsize hall hsome,
    fun ls hw hhead hdone => State.ordhead_resumes hg hw hhead hdone,
    ?_, fun Q hslot hw hcand hQ hold hroom hfirst => ?_, fun hleft hover => State.yield_ends hg hleft hover⟩
  · simp only [State.barFreed, hw, Thread.barPend, beq_self_eq_true, Bool.true_and, List.all_eq_true, Bool.not_eq_true']
    exact hclear
  · obtain ⟨x, hx, rfl⟩ := hk
    simp only [State.barFreed, hw, Thread.barPend, Bool.and_eq_true, List.any_eq_true, beq_iff_eq, List.all_eq_true, Bool.not_eq_true']
    exact ⟨⟨x, hx, rfl⟩, hclear⟩
  · intro id e h cmp sg size sc d a b hw hlive hinstr hclear hfresh hfree hnodup hsize hd x w num holds met hplaced
    have H : s.Rereads id e := ⟨hlive, by rw [hinstr]; rfl, hclear, hfresh, hfree, hplaced⟩
    have hmet : met = s.waitvMet e.instr := funext fun o => by
      rw [State.waitvMet, hinstr, waitvHolds_eq hsize, Cmp.holds_eq]
      rfl
    have hwrites : ∀ n, loadWrites e.instr n =
        if size = .b64 then w64 d (BitVec.ofNat 64 n) else w32 d (BitVec.ofNat 32 n) := fun n => by
      rw [hinstr, loadWrites_waitv hsize hd]
    have hpush : ∀ n q y, LaneWrite.push q y ∉ loadWrites e.instr n := fun n q y => by
      rw [hwrites]
      split
      · exact push_not_mem_w64 hd _ _ _
      · exact push_not_mem_w32 hd _ _ _
    refine ⟨fun hall hdone => ?_, fun hsome hnot => ?_⟩
    · have hres := State.waitvMet_resumes hg hw H (hmet ▸ hall) hdone hpush
      simp only [hwrites] at hres
      rw [hinstr] at hres
      exact hres
    · have hres := State.waitvReread_marks hg hw H (hmet ▸ hsome) (hmet ▸ hnot)
      rw [hmet]
      exact hres
  · subst hQ
    exact ⟨_, State.slotWait_ends hg hslot hw hcand hold hroom hfirst, rfl⟩

end Sys2Proof
end

section
/-!
The words of traps: the statement asks of a TMASK whose destination is a queue register what R29 asks of the words that may name one.
The decoder refuses such a word, the statement does not exclude it, and the model's TMASK pushes nothing.
-/

namespace Sys2Proof
open Machine

/-! ## A TMASK that names a queue register -/

namespace TmaskQueue

/-- A group of one lane. -/
def group : Group where
  core := 0
  quarter := 0
  block := 1
  pc := 65536
  lanes := [0]
  slot := some 0
  readyAt := 0
  since := 0
  oppsAt := 0
  candidate := false
  yieldLeft := 0
  wait := none
  causes := 0
  masks := []
  faults := []
  inHandler := false
  enterAt := 0
  resumePc := 0
  resumeMask := 0
  deliver := none
  memHold := []
  paused := none

/-- The side of its block: q7 is bound, and empty. -/
def side : BSide := { BSide.init with queues := listSet BSide.init.queues 7 ⟨[], 0, .cgs, 0⟩ }

/-- The group is selected. -/
def state : State := { State.reset with
  cur := some 2
  nextId := 3
  threads := [(0, { Thread.init with block := 1, disp := .group 2, quarters := [.full, .full, .full, .full] })]
  groups := [(2, group)]
  launches := [(0, { Launch.init with lrec := fetchRec, state := .ready, nextBlock := 1 })]
  blocks := [(1, { Block.init with launch := 0, gslots := [0], residence := .resident, lead := side })] }

def header : Hdr := ⟨2, false, 7, none⟩

/-- `TMASK q7, v6, v8`. -/
def word : Instr := .tmask header (.q 7) (.v 6) (.v 8)

/-- The decoder does not yield this word. -/
theorem decode_encode_word_ne : decode (encode word) ≠ word := by decide +kernel

theorem issues : state.Issues 2 group word where
  selected := rfl
  there := rfl
  lanes := by decide
  apart := by decide
  ready := by decide +kernel
  allotted := by decide +kernel
  onTime := by decide +kernel
  banks := by decide +kernel
  queues := by decide +kernel

/-- The entries of q7 on the side of the group. -/
def entries (s : State) : List DWord := ((s.bside 1 0).queues.getD 7 QReg.init).entries

/-- The model's TMASK leaves q7 empty. -/
theorem entries_exec {t : State} (h : exec word state = .next t) : entries t = [] := by
  have hrun : (match exec word state with
      | .next t => decide (entries t = [])
      | _ => false) = true := by decide +kernel
  rw [h] at hrun
  exact of_decide_eq_true hrun

/-- The end of an issue changes no queue register. -/
theorem entries_of_went {r t : State} {g clk pc : Nat} {h : Hdr} (H : r.Went t g group h clk pc) : entries t = entries r := by
  have hcore : (t.block 1).core = (r.block 1).core := by
    have h := congrArg Block.core H.block
    exact h
  have hlead : (t.block 1).lead.queues = (r.block 1).lead.queues := by
    have h := congrArg (·.lead.queues) H.block
    exact h
  have hfollow : (t.block 1).follow.queues = (r.block 1).follow.queues := by
    have h := congrArg (·.follow.queues) H.block
    exact h
  unfold entries State.bside State.sideOf
  rw [hcore]
  split
  · simp only [if_true, hlead]
  · simp only [one_ne_zero, if_false, hfollow]

end TmaskQueue

/-- Refutes O47: the clause for TMASK asks by `State.Wrote` that a destination q7 receives the old mask, where the model's TMASK, which the
decoder never yields with a queue register (R29), pushes nothing. The statement lacks `∀ q, d ≠ .q q`. -/
theorem not_trapWords : ¬ Obligations.TrapWords := by
  rintro ⟨hwords, -, -⟩
  obtain ⟨-, -, -, -, -, htmask, -⟩ := hwords TmaskQueue.state TmaskQueue.header 0 (.q 7) (.v 6) (.v 8) (.imm 0) 2 TmaskQueue.group rfl
  obtain ⟨r, hwrote, t, hexec, hwent⟩ := (htmask TmaskQueue.issues).2 0 (by decide +kernel)
  have hpushed := congrArg QReg.entries (hwrote.queues (by decide +kernel) (by decide +kernel) 7 (by decide +kernel))
  have hempty : TmaskQueue.entries r = [] := (TmaskQueue.entries_of_went hwent).symm.trans (TmaskQueue.entries_exec hexec)
  exact absurd (hpushed.symm.trans hempty) (by decide +kernel)

end Sys2Proof
end

