-- ==== Sys2Proof/Proofs/PreemptionEvents.lean ====
section
/-!
SAVE: the statement asks that no thread stands where a saved block's threads go, yet nothing keeps a thread from coming to stand there
while the groups are put away. `State.packGroup` marks each lane of a group that waits in a word that issues again, and marking a lane
that has no thread makes one (`State.modThreads`).
-/

namespace Sys2Proof
open Machine

/-! ## A SAVE that puts an empty thread over a saved one -/

namespace SaveOverwrites

/-- A group that waits in BARW, a word that issues again after a restore. Lane 66560 = 1024 * (64 + 1) has no thread: it is the slot under
which the thread of lane 0 is to stand once block 1 is saved. -/
def group : Group where
  core := 0
  quarter := 0
  block := 1
  pc := 65536
  lanes := [0, 66560]
  slot := none
  readyAt := 0
  since := 0
  oppsAt := 0
  candidate := false
  yieldLeft := 0
  wait := some (.barw [])
  causes := 0
  masks := []
  faults := []
  inHandler := false
  enterAt := 0
  resumePc := 0
  resumeMask := 0
  deliver := none
  memHold := []
  paused := none

/-- Chosen for a SAVE that has begun. -/
def block : Block := { Block.init with launch := 0, gslots := [0], residence := .resident, chosen := 2, going := true }

/-- The only thread of the block, %ix 0. -/
def thread : Thread := { Thread.init with block := 1, disp := .group 2, ix := [0, 0, 0] }

/-- Block 1 on core 0, ready to be saved. -/
def state : State := { State.reset with
  nextId := 3
  threads := [(0, thread)]
  groups := [(2, group)]
  launches := [(0, { Launch.init with state := .ready, nextBlock := 1 })]
  blocks := [(1, block)] }

/-- The block of the thread that stands in the saved slot. -/
def owner (s : State) : Nat := (s.thread 66560).block

/-- After the SAVE an empty thread stands there. -/
theorem owner_exec {t : State} (h : exec (.save 1) state = .next t) : owner t = 0 := by
  have hrun : (match exec (.save 1) state with
      | .next t => decide (owner t = 0)
      | _ => false) = true := by decide +kernel
  rw [h] at hrun
  exact of_decide_eq_true hrun

end SaveOverwrites

/-- Refutes O50: the clause of SAVE that a block's threads stand, as they were, under the slots of core 64 + b. A group that waits in a word
that issues again may hold a lane without a thread; putting it away makes an empty thread of that lane, which replaces the saved one. The
statement lacks that the lanes of the block's groups are threads of the block. -/
theorem not_preemptionEvents : ¬ Obligations.PreemptionEvents := by
  rintro ⟨hblock, -⟩
  obtain ⟨-, -, -, -, -, -, hsave, -⟩ := hblock SaveOverwrites.state 1 SaveOverwrites.block (by decide +kernel) rfl rfl
    (by decide +kernel) (by decide +kernel)
  obtain ⟨t, I, hexec, -, -, -, -, -, -, -, -, -, -, hthreads⟩ :=
    hsave rfl rfl (by decide +kernel) rfl rfl (by decide +kernel) (by decide +kernel) (by decide +kernel)
  obtain ⟨hT, -⟩ := hthreads (0, SaveOverwrites.thread) (by decide +kernel) rfl
  have hone : SaveOverwrites.owner t = 1 := congrArg Thread.block hT
  exact absurd (hone.symm.trans (SaveOverwrites.owner_exec hexec)) (by decide)

end Sys2Proof
end

