-- ==== Sys2Proof/Proofs/HostEvents.lean ====
section
/-!
The accesses of the host (R378, R379), the registers of the control window (R6), and the bring-up (R375, R395).
-/

namespace Sys2Proof

theorem bitOf_toNat {w : Nat} (v : BitVec w) (n : Nat) : bitOf v.toNat n = v.getLsbD n := by
  rw [Machine.bitOf_testBit, BitVec.testBit_toNat]

theorem FMap.find_of_not_mem {α : Type} {m : FMap α} {n : Nat} (h : n ∉ m.map Prod.fst) : m.find n = none := by
  cases hx : m.find n with
  | none => rfl
  | some x => exact absurd (List.mem_map_of_mem (FMap.mem_of_find hx)) h

/-- A map that lists the values of a function at rising keys. -/
theorem FMap.find_map_upFrom {α : Type} (f : Nat → α) (lo n k : Nat) (h : lo ≤ k ∧ k < lo + n) :
    FMap.find ((upFrom lo n).map fun j => (j, f j)) k = some (f k) := by
  induction n generalizing lo with
  | zero => omega
  | succ n ih =>
    rw [upFrom, List.map_cons, FMap.find]
    split
    next e => rw [e]
    next e => exact ih (lo + 1) (by omega)

namespace Machine

/-! ## Invalidations of translations (R190) -/

theorem xlinvTenant_iff {v : DWord} {u : Nat} : xlinvTenant v.toNat u = true ↔ v.getLsbD 1 = true ∨ bitsOf v.toNat 16 8 = u := by
  simp only [xlinvTenant, bitOf_toNat, Bool.or_eq_true, beq_iff_eq]

theorem xlinvPage_iff {v : DWord} {p size : Nat} : xlinvPage v.toNat p size = true ↔
    v.getLsbD 0 = true ∨ p / 2 ^ (pageShift size - 12) = bitsOf v.toNat 24 40 / 2 ^ (pageShift size - 12) := by
  simp only [xlinvPage, bitOf_toNat, Bool.or_eq_true, beq_iff_eq]

theorem State.xlinvHeld_eq_false {s : State} {v : Nat}
    (h : ∀ p ∈ s.engines, ∀ c ∈ p.2, xlinvTenant v c.tenant = true → ∀ m ∈ c.maps, ¬ xlinvPage v m.1 (pteSize m.2) = true) :
    s.xlinvHeld v = false := by
  refine List.any_eq_false.mpr fun p hp hany => ?_
  obtain ⟨c, hc, hcovers⟩ := List.any_eq_true.mp hany
  obtain ⟨ht, hmaps⟩ := Bool.and_eq_true_iff.mp hcovers
  obtain ⟨m, hm, hpage⟩ := List.any_eq_true.mp hmaps
  exact h p hp c hc ht m hm hpage

/-- A page that an invalidation covers lies in one 2 MiB with the page of the write. -/
theorem mib2_of_xlinvPage {v x : Nat} (h : xlinvPage v (x / 64) 0 = true ∨ xlinvPage v (x / 64) 1 = true ∨ xlinvPage v (x / 64) 2 = true) :
    (bitOf v 0 || x / 2 ^ 15 == bitsOf v 24 40 / 2 ^ 9) = true := by
  simp only [xlinvPage, pageShift, Bool.or_eq_true, beq_iff_eq] at h ⊢
  by_cases hall : bitOf v 0 = true
  · exact .inl hall
  · norm_num [hall] at h ⊢
    omega

theorem State.exec_xlinvComplete_of {s : State} {v : DWord} {r : List DWord} (hx : s.xlinv = v :: r) (hheld : s.xlinvHeld v.toNat = false) :
    exec .xlinvComplete s = .next { s.xlinvDo v.toNat with xlinv := r } := by
  simp [execXlinvComplete, event, hx, hheld]

theorem State.mem_xlinvDo_tlb {s : State} {v : Nat} {x : TlbEntry} : x ∈ (s.xlinvDo v).tlb ↔
    x ∈ s.tlb ∧ ¬ (xlinvTenant v x.tenant = true ∧ xlinvPage v x.page (pteSize x.pte) = true) := by
  simp only [State.xlinvDo, List.mem_filter, Bool.not_eq_true', Bool.and_eq_true, ← Bool.not_eq_true]

theorem State.mem_xlinvDo_l1 {s : State} {v : Nat} {l : L1Line} : l ∈ (s.xlinvDo v).l1 ↔
    l ∈ s.l1 ∧ ¬ (xlinvTenant v l.tenant = true ∧ (bitOf v 0 || l.vline / 2 ^ 15 == bitsOf v 24 40 / 2 ^ 9) = true) := by
  simp only [State.xlinvDo, State.l1Drop, List.mem_filter, Bool.not_eq_true', Bool.and_eq_true, ← Bool.not_eq_true]

/-! ## The end of several launches (R316) -/

/-- A launch ends with a status, if it goes on. -/
def Launch.ended (status : Nat) (L : Launch) : Launch :=
  if L.ending ∨ L.state = .complete then L else { L with ending := true, status := status }

theorem Launch.ended_of_ending {st : Nat} {L : Launch} (h : L.ending = true ∨ L.state = .complete) : L.ended st = L := if_pos h

theorem Launch.ended_ended (st : Nat) (L : Launch) : (L.ended st).ended st = L.ended st := by
  by_cases h : L.ending = true ∨ L.state = .complete
  · rw [Launch.ended_of_ending h, Launch.ended_of_ending h]
  · refine Launch.ended_of_ending (.inl ?_)
    rw [Launch.ended, if_neg h]

theorem State.endLaunch_eq (s : State) (l st : Nat) : s.endLaunch l st = { s with launches := s.launches.adjust l (Launch.ended st) } := rfl

theorem State.endLaunches_eq (ls : List Nat) (st : Nat) (s : State) :
    ls.foldl (fun s l => s.endLaunch l st) s = { s with launches := (ls.foldl (fun s l => s.endLaunch l st) s).launches } := by
  induction ls generalizing s with
  | nil => rfl
  | cons l r ih => exact ih (s.endLaunch l st)

theorem State.find_endLaunches (ls : List Nat) (st : Nat) (s : State) (k : Nat) :
    (ls.foldl (fun s l => s.endLaunch l st) s).launches.find k =
      if k ∈ ls then (s.launches.find k).map (Launch.ended st) else s.launches.find k := by
  induction ls generalizing s with
  | nil => rfl
  | cons l r ih =>
    rw [List.foldl_cons, ih, State.endLaunch_eq, FMap.find_adjust]
    have htwice : Launch.ended st ∘ Launch.ended st = Launch.ended st := funext (Launch.ended_ended st)
    by_cases hr : k ∈ r <;> by_cases hl : k = l <;> simp [hr, hl, htwice]

/-- The launches of a queue that are not complete. -/
def State.liveOn (s : State) (q : Nat) : List Nat :=
  (s.launches.filter fun p => p.2.queue == q && p.2.state != .complete).map Prod.fst

theorem State.mem_liveOn {s : State} {q l : Nat} {L : Launch} (hs : FMap.sorted s.launches = true) (hL : s.launches.find l = some L) :
    l ∈ s.liveOn q ↔ L.queue = q ∧ L.state ≠ .complete := by
  simp only [State.liveOn, List.mem_map, List.mem_filter, Bool.and_eq_true, beq_iff_eq, bne_iff_ne]
  constructor
  · rintro ⟨p, ⟨hp, hlive⟩, rfl⟩
    rw [FMap.find_of_mem _ p hs hp, Option.some.injEq] at hL
    exact hL ▸ hlive
  · exact fun hlive => ⟨(l, L), ⟨FMap.mem_of_find hL, hlive⟩, rfl⟩

theorem State.liveOn_eq_nil {s : State} {q : Nat} :
    s.liveOn q = [] ↔ ∀ p ∈ s.launches, ¬ (p.2.queue = q ∧ p.2.state ≠ .complete) := by
  simp [State.liveOn, List.filter_eq_nil_iff]

theorem State.abortQueue_of_none {s : State} {v : DWord}
    (h : v.getLsbD 31 = false ∨ 96 ≤ v.toNat % 2 ^ 7 ∨ s.liveOn (v.toNat % 2 ^ 7) = []) : s.abortQueue v.toNat = s := by
  refine if_pos ?_
  rw [bitOf_toNat, Bool.not_eq_true', List.isEmpty_iff, bitsOf, pow_zero, Nat.div_one]
  exact h

theorem State.abortQueue_of_live {s : State} {v : DWord} (hv : v.getLsbD 31 = true) (hq : v.toNat % 2 ^ 7 < 96)
    (h : s.liveOn (v.toNat % 2 ^ 7) ≠ []) : s.abortQueue v.toNat =
      { ((s.liveOn (v.toNat % 2 ^ 7)).foldl (fun s l => s.endLaunch l stAborted) s).stopQueue (v.toNat % 2 ^ 7) stAborted false with
        abortBusy := true } := by
  have hbits : bitsOf v.toNat 0 7 = v.toNat % 2 ^ 7 := by rw [bitsOf, pow_zero, Nat.div_one]
  unfold State.abortQueue
  rw [hbits, bitOf_toNat, hv]
  refine if_neg ?_
  rintro (hno | hge | hnil)
  · cases hno
  · omega
  · exact h (List.isEmpty_iff.mp hnil)

theorem State.sq_stopQueue (s : State) (q st : Nat) (failed : Bool) (k : Nat) : (s.stopQueue q st failed).sq k = if k = q then
    { s.sq q with
      stopped := true, status := if s.streamState q = 3 then 0xFE else st
      failedCheck := failed || ((s.sq q).failedCheck && (s.sq q).stopped), skipMade := (s.sq q).skipMade && (s.sq q).stopped
      launchStop := st == stFault || st == stAborted || ((s.sq q).launchStop && (s.sq q).stopped) } else s.sq k :=
  FMap.findD_put _ _ _ _ _

/-! ## Bring-up (R375, R395) -/

/-- A measurement of boot after another. -/
def State.measAfter (s : State) (k : Nat) : BitVec 384 :=
  BitVec.ofNat 384 (leNat (sha384 (leBytes (s.sec.meas.findD k 0).toNat 48 ++ leBytes (Config.imageDigest k).toNat 48)))

theorem State.find_measureBoot (s : State) (k j : Nat) :
    (s.measureBoot k).sec.meas.find j = if j = k then some (s.measAfter k) else s.sec.meas.find j := FMap.find_put _ _ _ _

theorem State.measAfter_measureBoot {s : State} {k j : Nat} (h : j ≠ k) : (s.measureBoot k).measAfter j = s.measAfter j := by
  have hfind : (s.measureBoot k).sec.meas.findD j 0 = s.sec.meas.findD j 0 := by
    rw [FMap.findD, State.find_measureBoot, if_neg h, ← FMap.findD]
  rw [State.measAfter, hfind, State.measAfter]

theorem State.measureAll_eq (ks : List Nat) (s : State) : ks.foldl State.measureBoot s =
    { s with sec := { s.sec with meas := (ks.foldl State.measureBoot s).sec.meas } } := by
  induction ks generalizing s with
  | nil => rfl
  | cons k r ih => exact ih (s.measureBoot k)

theorem State.find_measureAll (ks : List Nat) (hks : ks.Nodup) (s : State) (j : Nat) :
    (ks.foldl State.measureBoot s).sec.meas.find j = if j ∈ ks then some (s.measAfter j) else s.sec.meas.find j := by
  induction ks generalizing s with
  | nil => rfl
  | cons k r ih =>
    obtain ⟨hk, hr⟩ := List.nodup_cons.mp hks
    rw [List.foldl_cons, ih hr, State.find_measureBoot]
    by_cases hj : j = k
    · subst hj
      simp [hk]
    · simp [hj, State.measAfter_measureBoot hj]

theorem State.bootTo_of_all {s : State} {ks : List Nat} (h : ∀ k ∈ ks, imageStarts k = true) : s.bootTo ks = ks.foldl State.measureBoot s := by
  rw [State.bootTo, List.takeWhile_eq_self_iff.mpr h]

theorem State.bootTo_of_split {s : State} {before after : List Nat} {k : Nat} (h : ∀ x ∈ before, imageStarts x = true)
    (hk : imageStarts k = false) : s.bootTo (before ++ k :: after) = before.foldl State.measureBoot s := by
  rw [State.bootTo, List.takeWhile_append_of_pos h, List.takeWhile_cons_of_neg (by simp [hk]), List.append_nil]

theorem bootImages_nodup (n : Nat) : (bootImages n).Nodup := by
  unfold bootImages
  split
  · decide
  · split <;> decide

/-- What is measured in a step whose images may start. -/
def bootMeasured (n : Nat) : List Nat := if n = 2 then [0, 4] else bootImages n

theorem bootMeasured_nodup (n : Nat) : (bootMeasured n).Nodup := by
  unfold bootMeasured
  split
  · decide
  · exact bootImages_nodup n

theorem State.bootAction_of_ne {s : State} {r : BootResult} (h : ∀ k ∈ bootImages r.step, imageStarts k = true) (h4 : r.step ≠ 4) :
    s.bootAction r = (bootMeasured r.step).foldl State.measureBoot s := by
  unfold State.bootAction
  split
  next e =>
    rw [e] at h ⊢
    exact congrArg (fun u : State => u.measureBoot 4) (State.bootTo_of_all h)
  next e =>
    rw [e] at h ⊢
    exact State.bootTo_of_all h
  next e => exact absurd e h4
  next h2 h3 _ =>
    rw [bootMeasured, if_neg h2, bootImages, if_neg h2, if_neg h3]
    rfl

theorem State.bootAction_four {s : State} {r : BootResult} (h4 : r.step = 4) :
    s.bootAction r = (s.modCfg fun C => { C with dramcfg := foundGroups r }).drawKeys := by
  unfold State.bootAction
  rw [h4]
  rfl

theorem foundGroups_eq (r : BootResult) :
    foundGroups r = if Config.orderingCode = 2 then 0xFF else r.fitted % 4096 + (if r.cap = 0 then 0 else 2 ^ 16) := by
  unfold foundGroups
  by_cases h : r.cap = 0 <;> simp [h, bitNat]

theorem State.exec_bringUp_of {s : State} {r : BootResult} (hfail : s.sec.bootFailed = false) (hnext : r.step = s.sec.bootStep + 1)
    (hle : r.step ≤ 8) : exec (.bringUp r) s = .next (if !r.ok then s.modSec fun S => { S with bootFailed := true }
      else if (bootImages r.step).all imageStarts then (s.bootAction r).modSec fun S => { S with bootStep := r.step }
      else (s.bootTo (bootImages r.step)).modSec fun S => { S with bootFailed := true }) := by
  rw [exec_bringUp, execBringUp, event, hfail, decide_eq_true ⟨hnext, hle⟩]
  rfl

/-- A step of the bring-up passes: what it leaves measured, and what step 4 draws. -/
theorem State.bringUp_passes {s : State} {r : BootResult} (h : ∀ k ∈ bootImages r.step, imageStarts k = true) :
    let t := (s.bootAction r).modSec fun S => { S with bootStep := r.step }
    t = { s with cfg := t.cfg, sec := { s.sec with
      bootStep := r.step, meas := t.sec.meas, nocKeys := t.sec.nocKeys, nocCounters := t.sec.nocCounters } } ∧
    t.cfg = (if r.step = 4 then { s.cfg with dramcfg := foundGroups r } else s.cfg) ∧
    (if r.step = 4 then t.sec.nocCounters = [] ∧ ∀ w, w < 16 → t.sec.nocKeys.find w = some (Config.nocKey s.freeCtr w)
      else t.sec.nocKeys = s.sec.nocKeys ∧ t.sec.nocCounters = s.sec.nocCounters) ∧
    ∀ k, t.sec.meas.find k = if k ∈ bootMeasured r.step then some (s.measAfter k) else s.sec.meas.find k := by
  intro t
  by_cases h4 : r.step = 4
  · have ht : t = ((s.modCfg fun C => { C with dramcfg := foundGroups r }).drawKeys).modSec fun S => { S with bootStep := r.step } :=
      congrArg (fun u : State => u.modSec fun S => { S with bootStep := r.step }) (State.bootAction_four h4)
    rw [ht, if_pos h4, if_pos h4, h4]
    exact ⟨rfl, rfl, ⟨rfl, fun w hw => FMap.find_map_upFrom _ 0 16 w (by omega)⟩, fun k => rfl⟩
  · have ht : t = ((bootMeasured r.step).foldl State.measureBoot s).modSec fun S => { S with bootStep := r.step } :=
      congrArg (fun u : State => u.modSec fun S => { S with bootStep := r.step }) (State.bootAction_of_ne h h4)
    have hmeas := State.find_measureAll (bootMeasured r.step) (bootMeasured_nodup _) s
    rw [ht, if_neg h4, if_neg h4]
    rw [State.measureAll_eq] at hmeas ⊢
    exact ⟨rfl, rfl, ⟨rfl, rfl⟩, hmeas⟩

/-- A step of the bring-up whose images may not all start: those before the first that may not are measured. -/
theorem State.bringUp_stops {s : State} {n : Nat} {before after : List Nat} {k : Nat} (himages : bootImages n = before ++ k :: after)
    (h : ∀ x ∈ before, imageStarts x = true) (hk : imageStarts k = false) :
    let t := (s.bootTo (bootImages n)).modSec fun S => { S with bootFailed := true }
    t = { s with sec := { s.sec with bootFailed := true, meas := t.sec.meas } } ∧
    ∀ j, t.sec.meas.find j = if j ∈ before then some (s.measAfter j) else s.sec.meas.find j := by
  intro t
  have ht : t = (before.foldl State.measureBoot s).modSec fun S => { S with bootFailed := true } :=
    congrArg (fun u : State => u.modSec fun S => { S with bootFailed := true }) (himages ▸ State.bootTo_of_split h hk)
  have hnodup : before.Nodup := ((himages ▸ bootImages_nodup n : (before ++ k :: after).Nodup)).of_append_left
  have hmeas := State.find_measureAll before hnodup s
  rw [ht]
  rw [State.measureAll_eq] at hmeas ⊢
  exact ⟨rfl, hmeas⟩

/-! ## Registers by their addresses (R6) -/

theorem State.exec_registerWrite_ctl {s : State} {o : Nat} {v : DWord} (h8 : o % 8 = 0) (ho : o < 0x1000000) :
    exec (.registerWrite (0xF00C0000000 + o) v) s = .next (s.ctlWrite o v) := by
  have hin : (0xF00C0000000 + o) % 8 = 0 ∧ Config.ctlBase ≤ 0xF00C0000000 + o ∧ 0xF00C0000000 + o < Config.rbEnd := by
    norm_num [Config.ctlBase, Config.rbEnd]
    omega
  have hctl : 0xF00C0000000 + o < Config.rbBase := by
    norm_num [Config.rbBase]
    omega
  have hoff : 0xF00C0000000 + o - Config.ctlBase = o := Nat.add_sub_cancel_left _ _
  rw [exec_registerWrite, execRegisterWrite, event, if_pos (decide_eq_true hin), if_pos hctl, hoff]

section
variable {s : State} {v : DWord}

theorem State.ctlWrite_sq {q k : Nat} (hq : q < 96) (hk : k < 8) : s.ctlWrite (0x40 * q + 8 * k) v = s.writeSq q k v.toNat := by
  have hno : (0x40 * q + 8 * k) / 0x40 = q := by omega
  have hreg : (0x40 * q + 8 * k) % 0x40 / 8 = k := by omega
  rw [State.ctlWrite, hno, hreg]
  exact if_pos (by omega)

theorem State.ctlWrite_xlroot {u : Nat} (hu : u < 256) : s.ctlWrite (0x3000 + 8 * u) v = s.writeXlroot u v.toNat := by
  have hno : (0x3000 + 8 * u - 0x3000) / 8 = u := by omega
  rw [State.ctlWrite, hno]
  simp (disch := omega) only [if_pos, if_neg]

theorem State.ctlWrite_sched {n j : Nat} (hn : n < 48) (hj : j < 8) : s.ctlWrite (0x4000 + 0x40 * n + 8 * j) v = s.writeSched n j v.toNat := by
  have hno : (0x4000 + 0x40 * n + 8 * j - 0x4000) / 0x40 = n := by omega
  have hreg : (0x4000 + 0x40 * n + 8 * j) % 0x40 / 8 = j := by omega
  rw [State.ctlWrite, hno, hreg]
  simp (disch := omega) only [if_pos, if_neg]

theorem State.ctlWrite_pairctl {x : Nat} (hx : x < 12) : s.ctlWrite (0x5000 + 8 * x) v = s.writePairctl x v.toNat := by
  have hno : (0x5000 + 8 * x - 0x5000) / 8 = x := by omega
  rw [State.ctlWrite, hno]
  simp (disch := omega) only [if_pos, if_neg]

theorem State.ctlWrite_part {f k : Nat} (hf : f < 12) (hk : k < 8) :
    s.ctlWrite (0x6100 + 8 * k + 0x40 * f) v = s.writePartReg f k v.toNat := by
  have hno : (0x6100 + 8 * k + 0x40 * f - 0x6100) / 0x40 = f := by omega
  have hreg : (0x6100 + 8 * k + 0x40 * f) % 0x40 / 8 = k := by omega
  rw [State.ctlWrite, hno, hreg]
  simp (disch := omega) only [if_pos, if_neg]

theorem State.ctlWrite_qown {n : Nat} (hn : n < 48) : s.ctlWrite (0x6800 + 8 * n) v = s.writeQown n v.toNat := by
  have hno : (0x6800 + 8 * n - 0x6800) / 8 = n := by omega
  rw [State.ctlWrite, hno]
  simp (disch := omega) only [if_pos, if_neg]

theorem State.ctlWrite_tenant {u : Nat} (hu : u < 256) : s.ctlWrite (0x7000 + 8 * u) v = s.writeTenant u v.toNat := by
  have hno : (0x7000 + 8 * u - 0x7000) / 8 = u := by omega
  rw [State.ctlWrite, hno]
  simp (disch := omega) only [if_pos, if_neg]

theorem State.ctlWrite_floor {i : Nat} (hi : i < 4) : s.ctlWrite (0x7808 + 8 * i) v = s.writeFloor i v.toNat := by
  have hno : (0x7808 + 8 * i - 0x7808) / 8 = i := by omega
  rw [State.ctlWrite, hno]
  simp (disch := omega) only [if_pos, if_neg]

theorem State.ctlWrite_evr {k : Nat} (hk : k < 6) : s.ctlWrite (0x8000 + 8 * k) v = s.writeEvr k v.toNat := by
  have hno : (0x8000 + 8 * k - 0x8000) / 8 = k := by omega
  rw [State.ctlWrite, hno]
  simp (disch := omega) only [if_pos, if_neg]

theorem State.ctlWrite_railcnt {c : Nat} (hc : c < 24) :
    s.ctlWrite (0x8140 + 8 * c) v = { s with lowRail := { s.lowRail with counts := s.lowRail.counts.del c } } := by
  have hno : (0x8140 + 8 * c - 0x8140) / 8 = c := by omega
  rw [State.ctlWrite, hno]
  simp (disch := omega) only [if_pos, if_neg]

theorem State.ctlWrite_counter {n : Nat} (hn : n < 4096) : s.ctlWrite (0x10000 + 8 * n) v = s.addCounter n v := by
  have hno : (0x10000 + 8 * n - 0x10000) / 8 = n := by omega
  rw [State.ctlWrite, hno]
  simp (disch := omega) only [if_pos, if_neg]

theorem State.writeSq_tail_eq {q : Nat} (hq : q < 96) : .next (s.writeSq q 4 v.toNat) = exec (.sqtailWrite q (v.setWidth 32)) s := by
  rw [exec_sqtailWrite, execSqtailWrite, event, decide_eq_true hq, BitVec.toNat_setWidth]
  by_cases h : s.streamState q = 3 <;> simp [State.writeSq, h]

theorem State.toNat_sched_writeSched (n j : Nat) (x : Nat) : (((s.writeSched n j x).cfg.sched.findD (8 * n + j) 0).toNat) =
    bitsOf x 63 1 * 2 ^ 63 + bitsOf x 32 4 * 2 ^ 32 + x % 2 ^ 32 := by
  have hput : (s.writeSched n j x).cfg.sched.findD (8 * n + j) 0 =
      BitVec.ofNat 64 (bitsOf x 63 1 * 2 ^ 63 + bitsOf x 32 4 * 2 ^ 32 + x % 2 ^ 32) := (FMap.findD_store 0 _ _ _ _).trans (if_pos rfl)
  rw [hput, BitVec.toNat_ofNat]
  refine Nat.mod_eq_of_lt ?_
  unfold bitsOf
  omega

theorem State.writeXlroot_of_unlocked (h : ∀ x ∈ s.sec.streams, x.2.state = 0) (u x : Nat) :
    s.writeXlroot u x = s.modCfg fun C => { C with xlroot := C.xlroot.store 0 u (BitVec.ofNat 64 (bitsOf x 7 37 * 2 ^ 7 + x % 2)) } := by
  have hnone : s.frozenBy (fun m => s.worldTenant m u) = [] := by
    rw [State.frozenBy, List.map_eq_nil_iff, List.filter_eq_nil_iff]
    intro y hy
    simp [h y hy]
  rw [State.writeXlroot, State.unlessFrozen, hnone]
  rfl

theorem State.toNat_xlroot_writeXlroot (h : ∀ x ∈ s.sec.streams, x.2.state = 0) (u x : Nat) :
    ((s.writeXlroot u x).cfg.xlroot.findD u 0).toNat = bitsOf x 7 37 * 2 ^ 7 + x % 2 := by
  have hput : (s.writeXlroot u x).cfg.xlroot.findD u 0 = BitVec.ofNat 64 (bitsOf x 7 37 * 2 ^ 7 + x % 2) := by
    rw [State.writeXlroot_of_unlocked h]
    exact (FMap.findD_store 0 _ _ _ _).trans (if_pos rfl)
  rw [hput, BitVec.toNat_ofNat]
  refine Nat.mod_eq_of_lt ?_
  unfold bitsOf
  omega

end

/-! ## Accesses by address (R378, R379) -/

theorem State.phys_dram {s : State} {pa : Nat} (h : pa < 0x30000000000) (hd : pa < s.dramSize) : s.phys pa = .dram := by
  rw [State.phys, if_pos h, if_pos hd]

/-- The two windows of registers. -/
theorem State.phys_window {s : State} {pa : Nat} (h : 0xF00C0000000 ≤ pa) (hlt : pa < 0xF00C2000000) :
    s.phys pa = if pa < Config.rbBase then .control else .readback := by
  have hcore : ¬ (Config.coreBase ≤ pa ∧ pa < Config.ctlBase) := fun hc => Nat.not_lt.mpr h hc.2
  have hctl : (Config.ctlBase ≤ pa ∧ pa < Config.rbBase) = (pa < Config.rbBase) := propext (and_iff_right h)
  rw [State.phys, if_neg (by omega), if_neg (by omega), if_neg (by omega), if_neg hcore]
  simp only [hctl]
  by_cases hc : pa < Config.rbBase
  · rw [if_pos hc, if_pos hc]
  · rw [if_neg hc, if_neg hc, if_pos ⟨Nat.not_lt.mp hc, hlt⟩]

/-- An access of at most one line meets the line of its address only. -/
theorem State.hostFree_of_line {s : State} {pa n : Nat} (hline : pa % 64 + n ≤ 64) (h : s.owned (pa / 64) = false) :
    s.hostFree pa n = true := by
  refine List.all_eq_true.mpr fun x hx => ?_
  rw [mem_upFrom] at hx
  have hx : x = pa / 64 := by omega
  rw [hx, h]
  rfl

theorem State.exec_hostRead {s : State} {pa n : Nat} (hn : 1 ≤ n) (hline : pa % 64 + n ≤ 64) (h : s.owned (pa / 64) = false) :
    exec (.hostMemoryAccess (.read pa n)) s = .next (s.hostRead pa n) := by
  rw [exec_hostMemoryAccess, execHostMemoryAccess]
  dsimp only
  rw [event, State.hostFree_of_line hline h, decide_eq_true ⟨hn, hline⟩]
  rfl

theorem State.exec_hostWrite {s : State} {pa : Nat} {bs : List Byte} (hn : 1 ≤ bs.length) (hline : pa % 64 + bs.length ≤ 64)
    (h : s.owned (pa / 64) = false) : exec (.hostMemoryAccess (.write pa bs)) s = .next (s.hostWrite pa bs) := by
  rw [exec_hostMemoryAccess, execHostMemoryAccess]
  dsimp only
  rw [event, State.hostFree_of_line hline h, decide_eq_true ⟨hn, hline⟩]
  rfl

theorem State.hostAnswers_all_of {s : State} {pa n : Nat} (h : ∀ x, pa ≤ x → x < pa + n → s.hostAnswers x = true) :
    (upFrom pa n).all s.hostAnswers = true :=
  List.all_eq_true.mpr fun x hx => h x ((mem_upFrom pa n x).mp hx).1 ((mem_upFrom pa n x).mp hx).2

theorem State.hostAnswers_all_none {s : State} {pa n : Nat} (hn : 1 ≤ n) (h : s.phys pa = .none) :
    (upFrom pa n).all s.hostAnswers = false := by
  refine List.all_eq_false.mpr ⟨pa, (mem_upFrom pa n pa).mpr (by omega), ?_⟩
  rw [State.hostAnswers, h]
  exact Bool.false_ne_true

theorem State.hostAnswers_dram {s : State} {x : Nat} (h : s.phys x = .dram) : s.hostAnswers x = true := by
  rw [State.hostAnswers, h]

section
variable {s : State} {pa n : Nat} (hd : pa + n ≤ s.dramSize) (hlt : pa + n ≤ 0x30000000000)
include hd hlt

theorem State.phys_of_fitted {x : Nat} (_ : pa ≤ x) (hx : x < pa + n) : s.phys x = .dram :=
  State.phys_dram (Nat.lt_of_lt_of_le hx hlt) (Nat.lt_of_lt_of_le hx hd)

theorem State.hostAnswers_of_fitted : (upFrom pa n).all s.hostAnswers = true :=
  State.hostAnswers_all_of fun _ hx hn => State.hostAnswers_dram (State.phys_of_fitted hd hlt hx hn)

theorem State.hostRead_dram (hn : 1 ≤ n) :
    s.hostRead pa n = { s with hostReply := some ((upFrom pa n).map s.byte), hostBusErr := false } := by
  have hpa : s.phys pa = .dram := State.phys_of_fitted hd hlt (Nat.le_refl pa) (by omega)
  have hbytes : (upFrom pa n).map s.hostByte = (upFrom pa n).map s.byte := by
    refine List.map_congr_left fun x hx => ?_
    rw [mem_upFrom] at hx
    rw [State.hostByte, State.phys_of_fitted hd hlt hx.1 hx.2]
  have htouch : s.hostTouch pa = s := by rw [State.hostTouch, hpa]
  have hreply : meetsReply pa n = false := decide_eq_false fun hmeets => by
    have habove : 0xF00C0000000 + 0x7908 < pa + n := hmeets.2
    omega
  rw [State.hostRead, State.hostAnswers_of_fitted hd hlt, htouch, hbytes, hreply]
  rfl

end

theorem State.hostWrite_dram {s : State} {pa : Nat} {bs : List Byte} (hd : pa + bs.length ≤ s.dramSize)
    (hlt : pa + bs.length ≤ 0x30000000000) (hn : 1 ≤ bs.length) :
    s.hostWrite pa bs = { s.setBytes pa bs with hostReply := none, hostBusErr := false } := by
  have hpa : s.phys pa = .dram := State.phys_of_fitted hd hlt (Nat.le_refl pa) (by omega)
  have htouch : s.hostTouch pa = s := by rw [State.hostTouch, hpa]
  have hreg (v : DWord) : s.hostReg pa v = s := by rw [State.hostReg, hpa]
  have hput : s.hostPut pa bs = s.setBytes pa bs := by rw [State.hostPut, hpa]
  rw [State.hostWrite, State.hostAnswers_of_fitted hd hlt, htouch]
  simp only [hreg, ite_self, hput, if_true]

/-- A dword that the host writes to a window of registers. -/
theorem State.hostWrite_window {s : State} {pa : Nat} {bs : List Byte} (h : 0xF00C0000000 ≤ pa) (hlt : pa < 0xF00C2000000)
    (h8 : pa % 8 = 0) (hlen : bs.length = 8) :
    s.hostWrite pa bs = { s.hostReg pa (BitVec.ofNat 64 (leNat bs)) with hostReply := none, hostBusErr := false } := by
  have hwindow (u : State) {x : Nat} (hx : 0xF00C0000000 ≤ x) (hxlt : x < 0xF00C2000000) :
      u.phys x = .control ∨ u.phys x = .readback := by
    rw [State.phys_window hx hxlt]
    exact (em (x < Config.rbBase)).imp (fun hc => if_pos hc) (fun hc => if_neg hc)
  have hanswers : (upFrom pa bs.length).all s.hostAnswers = true := by
    refine State.hostAnswers_all_of fun x hx hxn => ?_
    rw [State.hostAnswers]
    rcases hwindow s (by omega : 0xF00C0000000 ≤ x) (by omega) with e | e <;> rw [e]
  have htouch : s.hostTouch pa = s := by
    rw [State.hostTouch]
    rcases hwindow s h hlt with e | e <;> rw [e]
  have hput (u : State) : u.hostPut pa bs = u := by
    rw [State.hostPut]
    rcases hwindow u h hlt with e | e <;> rw [e]
  rw [State.hostWrite, hanswers, htouch, if_pos rfl]
  simp only [h8, hlen, and_self, if_true, hput]

theorem State.exec_registerWrite_window {s : State} {pa : Nat} {v : DWord} (h : 0xF00C0000000 ≤ pa) (hlt : pa < 0xF00C2000000)
    (h8 : pa % 8 = 0) : exec (.registerWrite pa v) s = .next (s.hostReg pa v) := by
  have hreg : s.hostReg pa v = if pa < Config.rbBase then s.ctlWrite (pa - Config.ctlBase) v else s.rbWrite (pa - Config.rbBase) v := by
    rw [State.hostReg, State.phys_window h hlt]
    by_cases hc : pa < Config.rbBase
    · rw [if_pos hc, if_pos hc]
    · rw [if_neg hc, if_neg hc]
  rw [exec_registerWrite, execRegisterWrite, event, if_pos (decide_eq_true ⟨h8, h, hlt⟩), hreg]

theorem State.hostRead_none {s : State} {pa n : Nat} (hn : 1 ≤ n) (h : s.phys pa = .none) :
    s.hostRead pa n = { s with hostReply := none, hostBusErr := true } := by
  rw [State.hostRead, State.hostAnswers_all_none hn h]
  rfl

theorem State.hostWrite_none {s : State} {pa : Nat} {bs : List Byte} (hn : 1 ≤ bs.length) (h : s.phys pa = .none) :
    s.hostWrite pa bs = { s with hostReply := none, hostBusErr := true } := by
  rw [State.hostWrite, State.hostAnswers_all_none hn h]
  rfl

end Machine

open Machine

/-- The clause of O53 for XLINV. -/
theorem hostEvents_xlinv (s : State) (v : DWord) (r : List DWord) (hx : s.xlinv = v :: r) :
    let tenant (u : Nat) : Prop := v.getLsbD 1 = true ∨ bitsOf v.toNat 16 8 = u
    let page (p size : Nat) : Prop := v.getLsbD 0 = true ∨ p / 2 ^ (pageShift size - 12) = bitsOf v.toNat 24 40 / 2 ^ (pageShift size - 12)
    (∀ p ∈ s.engines, ∀ c ∈ p.2, tenant c.tenant → ∀ m ∈ c.maps, ¬ page m.1 (pteSize m.2)) →
    ∃ t, exec .xlinvComplete s = .next t ∧ t = { s with tlb := t.tlb, l1 := t.l1, xlinv := r } ∧
      (∀ x, x ∈ t.tlb ↔ x ∈ s.tlb ∧ ¬ (tenant x.tenant ∧ page x.page (pteSize x.pte))) ∧
      (∀ l ∈ t.l1, l ∈ s.l1) ∧ (∀ l ∈ s.l1, ¬ tenant l.tenant → l ∈ t.l1) ∧
      ∀ l ∈ s.l1, tenant l.tenant → page (l.vline / 64) 0 ∨ page (l.vline / 64) 1 ∨ page (l.vline / 64) 2 → l ∉ t.l1 := by
  intro tenant page hfree
  have htenant (u : Nat) : tenant u ↔ xlinvTenant v.toNat u = true := xlinvTenant_iff.symm
  have hpage (p size : Nat) : page p size ↔ xlinvPage v.toNat p size = true := xlinvPage_iff.symm
  simp only [htenant, hpage] at hfree ⊢
  refine ⟨_, State.exec_xlinvComplete_of hx (State.xlinvHeld_eq_false hfree), rfl, fun x => State.mem_xlinvDo_tlb,
    fun l hl => (State.mem_xlinvDo_l1.mp hl).1, fun l hl ht => State.mem_xlinvDo_l1.mpr ⟨hl, fun hc => ht hc.1⟩,
    fun l _ ht hp hl => (State.mem_xlinvDo_l1.mp hl).2 ⟨ht, mib2_of_xlinvPage hp⟩⟩

/-- The clause of O53 for LAUNCHABORT. -/
theorem hostEvents_launchabort (s : State) (v : DWord) :
    let q := v.toNat % 2 ^ 7
    let live (p : Nat × Launch) : Prop := p.2.queue = q ∧ p.2.state ≠ .complete
    (v.getLsbD 31 = false ∨ 96 ≤ q ∨ (∀ p ∈ s.launches, ¬ live p) → exec (.launchabortWrite v) s = .next s) ∧
    (FMap.sorted s.launches = true → v.getLsbD 31 = true → q < 96 → (∃ p ∈ s.launches, live p) → ∃ t, exec (.launchabortWrite v) s = .next t ∧
      t = { s with launches := t.launches, sqs := t.sqs, abortBusy := true } ∧ (t.sq q).stopped = true ∧
      (∀ k, k ≠ q → t.sq k = s.sq k) ∧ ∀ l L, s.launches.find l = some L → t.launches.find l = some
        (if L.queue = q ∧ L.state ≠ .complete ∧ L.ending = false then { L with ending := true, status := 7 } else L)) := by
  intro q live
  rw [exec_launchabortWrite, execLaunchabortWrite]
  constructor
  · intro h
    rw [State.abortQueue_of_none (h.imp_right (Or.imp_right State.liveOn_eq_nil.mpr))]
  · rintro hsorted hv hq ⟨p, hp, hlive⟩
    have hne : s.liveOn q ≠ [] := fun hnil => State.liveOn_eq_nil.mp hnil p hp hlive
    rw [State.abortQueue_of_live hv hq hne]
    have hfind := State.find_endLaunches (s.liveOn q) stAborted s
    rw [State.endLaunches_eq] at hfind ⊢
    refine ⟨_, rfl, rfl, ?_, fun k hk => (State.sq_stopQueue _ q _ _ k).trans (if_neg hk), fun l L hL => ?_⟩
    · exact congrArg StreamQ.stopped ((State.sq_stopQueue _ q _ _ q).trans (if_pos rfl))
    · refine (hfind l).trans ?_
      simp only [State.mem_liveOn hsorted hL, hL, Option.map_some]
      by_cases hin : L.queue = q ∧ L.state ≠ .complete
      · rw [if_pos hin, Launch.ended]
        cases hend : L.ending <;> simp [hin.1, hin.2, stAborted]
      · rw [if_neg hin, if_neg fun hc => hin ⟨hc.1, hc.2.1⟩]

/-- The clause of O53 for the steps of the bring-up. -/
theorem hostEvents_bringUp (s : State) (r : BootResult) (hfail : s.sec.bootFailed = false) (hnext : r.step = s.sec.bootStep + 1)
    (hle : r.step ≤ 8) :
    let images : List Nat := if r.step = 2 then [0] else if r.step = 3 then [1, 2, 3] else []
    let measured (t : State) (ks : List Nat) : Prop := ∀ k, t.sec.meas.find k = if k ∈ ks then
      some (BitVec.ofNat 384 (leNat (sha384 (leBytes (s.sec.meas.findD k 0).toNat 48 ++ leBytes (Config.imageDigest k).toNat 48))))
      else s.sec.meas.find k
    (r.ok = false → exec (.bringUp r) s = .next { s with sec := { s.sec with bootFailed := true } }) ∧
    (r.ok = true → (∀ k ∈ images, imageStarts k = true) → ∃ t : State, exec (.bringUp r) s = .next t ∧
      t = { s with cfg := t.cfg, sec := { s.sec with
        bootStep := r.step, meas := t.sec.meas, nocKeys := t.sec.nocKeys, nocCounters := t.sec.nocCounters } } ∧
      t.cfg = (if r.step = 4 then { s.cfg with
        dramcfg := if Config.orderingCode = 2 then 0xFF else r.fitted % 4096 + (if r.cap = 0 then 0 else 2 ^ 16) } else s.cfg) ∧
      (if r.step = 4 then t.sec.nocCounters = [] ∧ ∀ w, w < 16 → t.sec.nocKeys.find w = some (Config.nocKey s.freeCtr w)
        else t.sec.nocKeys = s.sec.nocKeys ∧ t.sec.nocCounters = s.sec.nocCounters) ∧
      measured t (if r.step = 2 then [0, 4] else images)) ∧
    (r.ok = true → ∀ before k after, images = before ++ k :: after → (∀ x ∈ before, imageStarts x = true) → imageStarts k = false →
      ∃ t : State, exec (.bringUp r) s = .next t ∧ t = { s with sec := { s.sec with bootFailed := true, meas := t.sec.meas } } ∧
        measured t before) := by
  intro images measured
  rw [State.exec_bringUp_of hfail hnext hle]
  refine ⟨fun hok => ?_, fun hok hall => ?_, fun hok before k after himages hbefore hk => ?_⟩
  · rw [hok]
    rfl
  · have hstarts : (bootImages r.step).all imageStarts = true := List.all_eq_true.mpr hall
    rw [hok, hstarts, ← foundGroups_eq]
    exact ⟨_, rfl, State.bringUp_passes hall⟩
  · have hnot : (bootImages r.step).all imageStarts = false :=
      List.all_eq_false.mpr ⟨k, by rw [show bootImages r.step = _ from himages]; simp, by simp [hk]⟩
    rw [hok, hnot]
    exact ⟨_, rfl, State.bringUp_stops himages hbefore hk⟩

/-- The clause of O53 for the registers of the control window. -/
theorem hostEvents_registers (s : State) (v : DWord) :
    let ctl := 0xF00C0000000
    let at_ (o : Nat) : Host.Outcome State Fault Refusal := exec (.registerWrite (ctl + o) v) s
    at_ 0x2000 = exec (.icinvWrite v) s ∧ at_ 0x2008 = exec (.xlinvWrite v) s ∧ at_ 0x2010 = exec (.launchabortWrite v) s ∧
    at_ 0x6000 = exec (.playoutWrite v) s ∧ at_ 0x6008 = exec .cfgerrClear s ∧ at_ 0x8028 = exec .evrlostClear s ∧
    at_ 0x8100 = exec (.lowrailWrite v) s ∧ at_ 0x8008 = .next (if s.evr.enable then s else { s with evr := { s.evr with
      base := bitsOf v.toNat 12 32 * 2 ^ 12 } }) ∧
    at_ 0x8010 = .next (if s.evr.enable then s else { s with evr := { s.evr with size := v.toNat % 16 } }) ∧
    at_ 0x8018 = .next { s with evr := { s.evr with head := v.toNat % 2 ^ 32 } } ∧ at_ 0x8020 = .next s ∧
    at_ 0x7800 = .next { s with cfg := { s.cfg with pcap := v.toNat % 2 ^ 16 } } ∧
    (∀ q, q < 96 → at_ (0x40 * q + 0x18) = .next s ∧ at_ (0x40 * q + 0x20) = exec (.sqtailWrite q (v.setWidth 32)) s) ∧
    (∀ x, x < 12 → at_ (0x5000 + 8 * x) = exec (.pairctlWrite x v) s) ∧
    (∀ f, f < 12 → at_ (0x6100 + 0x40 * f) = exec (.pengWrite f v) s ∧ at_ (0x6108 + 0x40 * f) = exec (.pmintWrite f v) s ∧
      at_ (0x6110 + 0x40 * f) = exec (.pevtWrite f v) s) ∧
    (∀ n, n < 48 → at_ (0x6800 + 8 * n) = exec (.qownWrite n v) s ∧
      ∀ j, j < 8 → ∃ t : State, at_ (0x4000 + 0x40 * n + 8 * j) = .next t ∧ t = { s with cfg := { s.cfg with sched := t.cfg.sched } } ∧
        (t.cfg.sched.findD (8 * n + j) 0).toNat = bitsOf v.toNat 63 1 * 2 ^ 63 + bitsOf v.toNat 32 4 * 2 ^ 32 + v.toNat % 2 ^ 32) ∧
    (∀ u, u < 256 → at_ (0x7000 + 8 * u) = exec (.tenantWrite u v) s ∧
      ((∀ x ∈ s.sec.streams, x.2.state = 0) → ∃ t : State, at_ (0x3000 + 8 * u) = .next t ∧
        t = { s with cfg := { s.cfg with xlroot := t.cfg.xlroot } } ∧
        (t.cfg.xlroot.findD u 0).toNat = bitsOf v.toNat 7 37 * 2 ^ 7 + v.toNat % 2)) ∧
    (∀ i, i < 4 → at_ (0x7808 + 8 * i) = exec (.floorWrite i v) s) ∧
    (∀ n, n < 4096 → at_ (0x10000 + 8 * n) = exec (.eventCounterHostAdd n v) s) ∧
    (∀ c, c < 24 → at_ (0x8140 + 8 * c) = exec (.railcntClear c) s) ∧
    (s.sec.hostBusy = true → at_ 0x7900 = .next s) ∧
    (s.sec.hostBusy = false → at_ 0x7900 = .next
      { s with sec := { s.sec with hostMsg := v, hostBusy := true, queue := s.sec.queue ++ [(0, v)] } }) := by
  intro ctl at_
  have hat {o : Nat} (h8 : o % 8 = 0) (ho : o < 0x1000000) : at_ o = .next (s.ctlWrite o v) := State.exec_registerWrite_ctl h8 ho
  have hfixed {o : Nat} {t : State} (h8 : o % 8 = 0) (ho : o < 0x1000000) (h : s.ctlWrite o v = t) : at_ o = .next t :=
    (hat h8 ho).trans (congrArg _ h)
  have hpart {f k : Nat} (hf : f < 12) (hk : k < 8) : at_ (0x6100 + 8 * k + 0x40 * f) = .next (s.writePartReg f k v.toNat) :=
    hfixed (by omega) (by omega) (State.ctlWrite_part hf hk)
  have hevr {k : Nat} (hk : k < 6) : at_ (0x8000 + 8 * k) = .next (s.writeEvr k v.toNat) :=
    hfixed (by omega) (by omega) (State.ctlWrite_evr hk)
  have hsq {q k : Nat} (hq : q < 96) (hk : k < 8) : at_ (0x40 * q + 8 * k) = .next (s.writeSq q k v.toNat) :=
    hfixed (by omega) (by omega) (State.ctlWrite_sq hq hk)
  have hmbx : at_ 0x7900 = .next (s.writeMbx v) := hfixed rfl (by decide) rfl
  refine ⟨hfixed rfl (by decide) rfl, hfixed rfl (by decide) rfl, hfixed rfl (by decide) rfl, hfixed rfl (by decide) rfl,
    hfixed rfl (by decide) rfl, hevr (k := 5) (by decide), hfixed rfl (by decide) rfl, hevr (k := 1) (by decide),
    hevr (k := 2) (by decide), hevr (k := 3) (by decide), hevr (k := 4) (by decide), hfixed rfl (by decide) rfl,
    fun q hq => ⟨hsq (k := 3) hq (by decide), (hsq (k := 4) hq (by decide)).trans (State.writeSq_tail_eq hq)⟩, fun x hx => ?_,
    fun f hf => ⟨hpart (k := 0) hf (by decide), hpart (k := 1) hf (by decide), hpart (k := 2) hf (by decide)⟩,
    fun n hn => ⟨?_, fun j hj => ⟨_, hfixed (by omega) (by omega) (State.ctlWrite_sched hn hj), rfl, State.toNat_sched_writeSched n j _⟩⟩,
    fun u hu => ⟨?_, fun hstreams => ⟨_, hfixed (by omega) (by omega) (State.ctlWrite_xlroot hu), ?_,
      State.toNat_xlroot_writeXlroot hstreams u _⟩⟩, fun i hi => ?_, fun n hn => ?_, fun c hc => ?_, fun hbusy => ?_, fun hbusy => ?_⟩
  · rw [hfixed (by omega) (by omega) (State.ctlWrite_pairctl hx), exec_pairctlWrite, execPairctlWrite, event,
      if_pos (decide_eq_true hx)]
    rfl
  · rw [hfixed (by omega) (by omega) (State.ctlWrite_qown hn), exec_qownWrite, execQownWrite, event,
      if_pos (decide_eq_true (show n < Config.cores from hn))]
  · rw [hfixed (by omega) (by omega) (State.ctlWrite_tenant hu), exec_tenantWrite, execTenantWrite, event, if_pos (decide_eq_true hu)]
  · rw [State.writeXlroot_of_unlocked hstreams]
    rfl
  · rw [hfixed (by omega) (by omega) (State.ctlWrite_floor hi), exec_floorWrite, execFloorWrite, event, if_pos (decide_eq_true hi)]
  · rw [hfixed (by omega) (by omega) (State.ctlWrite_counter hn), exec_eventCounterHostAdd, execEventCounterHostAdd, event,
      if_pos (decide_eq_true hn)]
  · exact hfixed (by omega) (by omega) (State.ctlWrite_railcnt hc)
  · rw [hmbx, State.writeMbx, if_pos hbusy]
  · rw [hmbx, State.writeMbx, if_neg (by simp [hbusy])]
    rfl

/-- Settles O53, by what each access does at its address and by the images that a step of the bring-up measures. -/
theorem hostEvents : Obligations.HostEvents := by
  intro s ctl
  refine ⟨fun v => ⟨rfl, rfl⟩, fun h => ?_, fun v r hx => hostEvents_xlinv s v r hx, fun v => hostEvents_launchabort s v, fun c => rfl, rfl,
    rfl, rfl, fun r hfail hnext hle => hostEvents_bringUp s r hfail hnext hle, fun v => hostEvents_registers s v,
    fun pa n hn hline howned => ⟨fun hd hlt => ?_, fun hnone => ?_⟩,
    fun pa bs hn hline howned => ⟨fun hd hlt => ?_, fun hnone => ?_, fun hlo hhi h8 hlen => ?_⟩⟩
  · rw [exec_icinvComplete, execIcinvComplete, event, if_pos h]
  · rw [State.exec_hostRead hn hline howned, State.hostRead_dram hd hlt hn]
  · rw [State.exec_hostRead hn hline howned, State.hostRead_none hn hnone]
  · rw [State.exec_hostWrite hn hline howned, State.hostWrite_dram hd hlt hn]
    refine ⟨_, rfl, ?_, fun a => ?_⟩
    · rw [State.setBytes_eq]
    · have h := State.byte_setBytes_padded s pa a bs.length (Nat.le_refl bs.length)
      rw [Nat.sub_self, List.replicate_zero, List.append_nil] at h
      exact h
  · rw [State.exec_hostWrite hn hline howned, State.hostWrite_none hn hnone]
  · rw [State.exec_hostWrite hn hline howned, State.hostWrite_window hlo hhi h8 hlen, State.exec_registerWrite_window hlo hhi h8]
    exact ⟨_, rfl, rfl⟩

end Sys2Proof
end

