-- ==== Sys2Proof/Proofs/Launches.lean ====
section
/-!
LAUNCH (R95): the append to a stream queue's ring, and what the word leaves of its lanes' statuses.
-/

namespace Sys2Proof

theorem leBytes_getElem (x n k : Nat) (h : k < (leBytes x n).length) : (leBytes x n)[k] = BitVec.ofNat 8 (x / 256 ^ k) := by
  induction n generalizing x k with
  | zero => simp [leBytes] at h
  | succ n ih =>
    cases k with
    | zero =>
      refine BitVec.eq_of_toNat_eq ?_
      simp only [leBytes, List.getElem_cons_zero, BitVec.toNat_ofNat, pow_zero, Nat.div_one]
      omega
    | succ k =>
      simp only [leBytes, List.length_cons, Nat.add_lt_add_iff_right] at h
      simp only [leBytes, List.getElem_cons_succ, ih (x / 256) k h, Nat.div_div_eq_div_mul, pow_succ']

/-- A byte of a dword, as the number of the byte counts. -/
theorem ofNat_div_eq_extract (d : DWord) (k : Nat) : BitVec.ofNat 8 (d.toNat / 256 ^ k) = d.extractLsb' (8 * k) 8 := by
  refine BitVec.eq_of_toNat_eq ?_
  rw [BitVec.toNat_ofNat, BitVec.extractLsb'_toNat, Nat.shiftRight_eq_div_pow, pow_mul, show (2 : Nat) ^ 8 = 256 from rfl]

namespace Machine

theorem bytesOf_length (ds : List DWord) : (bytesOf ds).length = 8 * ds.length := by
  induction ds with
  | nil => rfl
  | cons d r ih =>
    rw [bytesOf, List.flatMap_cons, List.length_append, leBytes_length, ← bytesOf, ih, List.length_cons]
    omega

theorem bytesOf_getElem (ds : List DWord) (k : Nat) (h : k < (bytesOf ds).length) :
    (bytesOf ds)[k] = (ds.getD (k / 8) 0).extractLsb' (8 * (k % 8)) 8 := by
  induction ds generalizing k with
  | nil => simp [bytesOf] at h
  | cons d r ih =>
    have hcons : bytesOf (d :: r) = leBytes d.toNat 8 ++ bytesOf r := List.flatMap_cons
    simp only [hcons]
    by_cases hk : k < 8
    · rw [List.getElem_append_left (by rw [leBytes_length]; exact hk), leBytes_getElem, ofNat_div_eq_extract, Nat.div_eq_of_lt hk,
        Nat.mod_eq_of_lt hk]
      rfl
    · obtain ⟨j, rfl⟩ := Nat.exists_eq_add_of_le' (Nat.not_lt.mp hk)
      have hright : (leBytes d.toNat 8).length ≤ j + 8 := by
        rw [leBytes_length]
        omega
      have hdiv : (j + 8) / 8 = j / 8 + 1 := by omega
      have hmod : (j + 8) % 8 = j % 8 := by omega
      rw [List.getElem_append_right hright, hdiv, hmod, List.getD_cons_succ, ← ih j (by
        rw [hcons, List.length_append, leBytes_length] at h
        omega)]
      simp only [leBytes_length, Nat.add_sub_cancel]

/-! ## One lane (R95, R79) -/

theorem State.sqUsable_iff {s : State} {q part : Nat} : s.sqUsable q part = true ↔
    q ≤ 95 ∧ (s.sq q).enable = true ∧ (s.sq q).stopped = false ∧ (s.sq q).part = part ∧ (s.sq q).devSub = true := by
  simp [State.sqUsable, and_assoc]

theorem State.sqFull_iff {s : State} {q : Nat} : s.sqFull q = true ↔
    ((s.sq q).tail + 2 ^ 32 - (s.sq q).head) % 2 ^ 32 = (s.sq q).entries := beq_iff_eq

theorem State.ringAppend_fits {s : State} {q : Nat} {w : RecWords} {tenant world tier : Nat}
    (h : (s.sq q).slot (s.sq q).tail + 256 ≤ s.dramSize) : s.ringAppend q w tenant world tier =
      { s.setBytes ((s.sq q).slot (s.sq q).tail) (bytesOf w) with
        sqs := s.sqs.put q { s.sq q with tail := ((s.sq q).tail + 1) % 2 ^ 32 }
        submits := s.submits.put (submitKey q (s.sq q).tail) (world, tenant, tier) } := by
  simp only [State.ringAppend, if_pos h]
  rw [State.setBytes_eq]
  rfl

theorem State.ringAppend_unfitted {s : State} {q : Nat} {w : RecWords} {tenant world tier : Nat}
    (h : ¬ (s.sq q).slot (s.sq q).tail + 256 ≤ s.dramSize) : s.ringAppend q w tenant world tier =
      { s with
        sqs := s.sqs.put q { s.sq q with tail := ((s.sq q).tail + 1) % 2 ^ 32 }
        submits := s.submits.put (submitKey q (s.sq q).tail) (world, tenant, tier) } := by
  simp only [State.ringAppend, if_neg h]
  rfl

theorem State.ringAppend_eq (s : State) (q : Nat) (w : RecWords) (tenant world tier : Nat) : s.ringAppend q w tenant world tier =
    { s with
      mem := (s.ringAppend q w tenant world tier).mem, sqs := s.sqs.put q { s.sq q with tail := ((s.sq q).tail + 1) % 2 ^ 32 }
      submits := (s.ringAppend q w tenant world tier).submits } := by
  by_cases h : (s.sq q).slot (s.sq q).tail + 256 ≤ s.dramSize
  · rw [State.ringAppend_fits h, State.setBytes_eq]
  · rw [State.ringAppend_unfitted h]

section
variable {s : State} {b t q : Nat} {w : RecWords}

theorem State.launchLane_held (h : (s.thread t).ctx ≠ 0) : s.launchLane b t q w =
    (3, s.hold (s.thread t).ctx (.launch w q (s.partOf b) (s.recOf b).tenant (s.recOf b).world (s.recOf b).tier)) := if_pos h

theorem State.launchLane_unusable (h : (s.thread t).ctx = 0) (hu : ¬ s.sqUsable q (s.partOf b) = true) : s.launchLane b t q w = (2, s) :=
  (if_neg (not_not.mpr h)).trans (if_pos (by simpa using hu))

theorem State.launchLane_full (h : (s.thread t).ctx = 0) (hu : s.sqUsable q (s.partOf b) = true) (hf : s.sqFull q = true) :
    s.launchLane b t q w = (1, s) :=
  (if_neg (not_not.mpr h)).trans ((if_neg (by simpa using hu)).trans (if_pos hf))

theorem State.launchLane_appends (h : (s.thread t).ctx = 0) (hu : s.sqUsable q (s.partOf b) = true) (hf : ¬ s.sqFull q = true) :
    s.launchLane b t q w = (0, s.ringAppend q w (s.recOf b).tenant (s.recOf b).world (s.recOf b).tier) :=
  (if_neg (not_not.mpr h)).trans ((if_neg (by simpa using hu)).trans (if_neg hf))

end

/-! ## Rings and caches -/

/-- Nothing differs between two states but the rings of the stream queues, the TLBs, the L1s and the links. -/
def State.OnlyRings (s t : State) : Prop :=
  t = { s with tlb := t.tlb, l1 := t.l1, links := t.links, mem := t.mem, sqs := t.sqs, submits := t.submits }

theorem State.OnlyRings.refl (s : State) : s.OnlyRings s := rfl

theorem State.OnlyRings.trans {s t u : State} (h : s.OnlyRings t) (k : t.OnlyRings u) : s.OnlyRings u := by
  unfold State.OnlyRings at *
  rw [k, h]

theorem State.OnlyCaches.onlyRings {s t : State} (h : s.OnlyCaches t) : s.OnlyRings t := by
  unfold State.OnlyCaches at h
  unfold State.OnlyRings
  rw [h]

section
variable {s t : State} (h : s.OnlyRings t)
include h

theorem State.OnlyRings.thread (u : Nat) : t.thread u = s.thread u := by
  rw [h]
  rfl

theorem State.OnlyRings.paired (b : Nat) : t.paired b = s.paired b := by
  rw [h]
  rfl

theorem State.OnlyRings.clk (core : Nat) : t.clk core = s.clk core := by
  rw [h]
  rfl

theorem State.OnlyRings.gatherFrom (core q : Nat) (per : List Nat) (c n : Nat) :
    t.gatherFrom core q per c n = s.gatherFrom core q per c n := by
  have hbudget : t.grantBudget core = s.grantBudget core := by
    rw [h]
    rfl
  have hgrants (c : Nat) : t.grantsOf core q c = s.grantsOf core q c := by
    rw [h]
    rfl
  induction n generalizing per c with
  | zero => rfl
  | succ n ih => simp only [State.gatherFrom, hbudget, hgrants, ih]

theorem State.OnlyRings.issueClk (G : Group) (i : Instr) : t.issueClk G i = s.issueClk G i := by
  simp only [State.issueClk, State.gatherWait, State.gatherOf, h.clk, h.gatherFrom]

theorem State.OnlyRings.guardPasses (hd : Hdr) (clk u : Nat) : t.guardPasses hd clk u = s.guardPasses hd clk u := by
  have hfree : t.freeCtr = s.freeCtr := by rw [h]
  simp only [State.guardPasses, LV.pv, LV.T, h.thread, hfree]

theorem State.OnlyRings.actives (G : Group) (i : Instr) : t.actives G i = s.actives G i := by
  rw [State.actives, h.issueClk]
  exact List.filter_congr fun u _ => h.guardPasses _ _ u

theorem State.OnlyRings.issueEnv (g : Nat) (G : Group) (i : Instr) : t.issueEnv g G i = s.issueEnv g G i := by
  simp only [State.issueEnv, h.issueClk, h.actives]

end

theorem State.onlyRings_ringAppend (s : State) (q : Nat) (w : RecWords) (tenant world tier : Nat) :
    s.OnlyRings (s.ringAppend q w tenant world tier) := by
  by_cases h : (s.sq q).slot (s.sq q).tail + 256 ≤ s.dramSize
  · rw [State.ringAppend_fits h, State.setBytes_eq]
    rfl
  · rw [State.ringAppend_unfitted h]
    rfl

theorem State.onlyRings_launchLane {s : State} {t : Nat} (h : (s.thread t).ctx = 0) (b q : Nat) (w : RecWords) :
    s.OnlyRings (s.launchLane b t q w).2 := by
  by_cases hu : s.sqUsable q (s.partOf b) = true
  · by_cases hf : s.sqFull q = true
    · rw [State.launchLane_full h hu hf]
      exact .refl s
    · rw [State.launchLane_appends h hu hf]
      exact s.onlyRings_ringAppend _ _ _ _ _
  · rw [State.launchLane_unusable h hu]
    exact .refl s

theorem State.onlyRings_launchLanes {s : State} (b : Nat) (qOf : Nat → Nat) {ls : List (Nat × RecWords)}
    (h : ∀ o ∈ ls, (s.thread o.1).ctx = 0) : s.OnlyRings (s.launchLanes b qOf ls).2 := by
  induction ls generalizing s with
  | nil => exact .refl s
  | cons o r ih =>
    have hlane := State.onlyRings_launchLane (h o List.mem_cons_self) b (qOf o.1) o.2
    exact hlane.trans (ih fun p hp => (congrArg Thread.ctx (hlane.thread p.1)).trans (h p (List.mem_cons_of_mem o hp)))

theorem State.launchLanes_lanes (s : State) (b : Nat) (qOf : Nat → Nat) (ls : List (Nat × RecWords)) :
    (s.launchLanes b qOf ls).1.map Prod.fst = ls.map Prod.fst := by
  induction ls generalizing s with
  | nil => rfl
  | cons o r ih => exact congrArg (o.1 :: ·) (ih _)

theorem State.onlyCaches_resolveLines (s : State) (a : Acc) (need : Need) (bad : Bool) (e n : Nat) :
    s.OnlyCaches (s.resolveLines a need bad e n).2 := by
  induction n generalizing s e with
  | zero => exact .refl s
  | succ n ih =>
    unfold State.resolveLines
    split
    next he => exact .of_eq he (s.onlyCaches_resolve _ _ _ _ _ _)
    next s1 he =>
      have h1 : s.OnlyCaches s1 := .of_eq he (s.onlyCaches_resolve _ _ _ _ _ _)
      split
      next hr => exact h1.trans (.of_eq hr (ih s1 _))
      next hr => exact h1.trans (.of_eq hr (ih s1 _))

theorem State.onlyCaches_launchRead (s : State) (t a : Nat) : s.OnlyCaches (s.launchRead t a).2 := by
  unfold State.launchRead
  dsimp only
  split
  · exact .refl s
  · split
    next he => exact .of_eq he (s.onlyCaches_resolveLines _ _ _ _ _)
    next he => exact .of_eq he (s.onlyCaches_resolveLines _ _ _ _ _)

theorem State.onlyCaches_launchReads (s : State) (ls : List (Nat × Nat)) : s.OnlyCaches (s.launchReads ls).2.2 := by
  induction ls generalizing s with
  | nil => exact .refl s
  | cons o r ih =>
    have hrest : s.OnlyCaches ((s.launchRead o.1 o.2).2.launchReads r).2.2 := (s.onlyCaches_launchRead o.1 o.2).trans (ih _)
    unfold State.launchReads
    dsimp only
    split <;> exact hrest

/-- Where no lane has a cause, every lane has read its record. -/
theorem State.launchReads_lanes {s : State} {ls : List (Nat × Nat)} (h : (s.launchReads ls).1 = []) :
    (s.launchReads ls).2.1.map Prod.fst = ls.map Prod.fst := by
  induction ls generalizing s with
  | nil => rfl
  | cons o r ih =>
    unfold State.launchReads at h ⊢
    dsimp only at h ⊢
    split at h
    next => cases h
    next => exact congrArg (o.1 :: ·) (ih h)

/-! ## The word -/

/-- The effect of tracked results that are computed from a state and sent from it. -/
theorem State.sent_pushAll (s : State) (g : Nat) (G : Group) (i : Instr) (lat : Nat) (f : LV → List LaneWrite)
    (hq : ∀ v q x, LaneWrite.push q x ∈ f v → q ∈ qWritesOf i) :
    let E := s.issueEnv g G i
    let outs := (s.actives G i).map fun u => (u, f (s.lane G i u))
    s.Sent (((s.popQueues E).writeTracked E lat false outs).pushAll E outs) G i lat f := by
  intro E outs
  refine ⟨?_, fun hreads hwrites => ?_, ?_⟩
  · rw [State.writeTracked_eq]
    exact ((s.onlySides_popQueues E).awaiting _ _ _ _).trans (State.onlySides_pushAll _ E outs)
  · have hpop : s.popQueues E = s := by
      rw [State.popQueues, show qReadsOf E.i = [] from hreads]
    rw [State.pushAll_none, State.writeTracked_eq, State.awaiting_blocks, hpop]
    intro o ho q x hx
    obtain ⟨u, _, rfl⟩ := List.mem_map.mp ho
    have hmem := hq _ q x hx
    rw [hwrites] at hmem
    cases hmem
  · have hqueued := s.queued _ G i g outs ((s.popQueues E).writeTracked E lat false outs)
      (by rw [State.writeTracked_eq, State.awaiting_blocks]) rfl
    simpa [outs, Function.comp_def] using hqueued

/-- A value that a list of pairs holds for one of its first parts. -/
theorem map_find_of_nodup {β : Type} {l : List (Nat × β)} (h : (l.map Prod.fst).Nodup) (d : β) :
    (l.map Prod.fst).map (fun u => (u, ((l.find? fun x => x.1 == u).map Prod.snd).getD d)) = l := by
  induction l with
  | nil => rfl
  | cons p r ih =>
    obtain ⟨hp, hr⟩ := List.nodup_cons.mp h
    refine List.cons_eq_cons.mpr ⟨by simp, ?_⟩
    conv_rhs => rw [← ih hr]
    refine List.map_congr_left fun u hu => ?_
    rw [List.find?_cons_of_neg]
    exact fun he => hp (beq_iff_eq.mp he ▸ hu)

section
variable {s : State} {h : Hdr} {d a : Reg} {b : Src} {g : Nat} {G : Group}

/-- What the lanes of a LAUNCH read. -/
def State.launchWords (s : State) (G : Group) (i : Instr) (a : Reg) : List LaneCause × List (Nat × RecWords) × State :=
  s.launchReads ((s.actives G i).map fun u => (u, ((s.lane G i u).r64 a).toNat))

theorem State.launchWords_lanes {i : Instr} (hc : (s.launchWords G i a).1 = []) :
    (s.launchWords G i a).2.1.map Prod.fst = s.actives G i := by
  refine (State.launchReads_lanes hc).trans ?_
  rw [List.map_map]
  exact List.map_id _

theorem State.onlyCaches_launchWords (s : State) (G : Group) (i : Instr) (a : Reg) : s.OnlyCaches (s.launchWords G i a).2.2 :=
  s.onlyCaches_launchReads _

/-- LAUNCH of a block on one core whose lanes all have read their records. -/
theorem State.exec_launch_alone (H : s.Issues g G (.launch h d a b)) (halone : s.paired G.block = false)
    (hc : (s.launchWords G (.launch h d a b) a).1 = []) :
    let i := Instr.launch h d a b
    let E := s.issueEnv g G i
    let p := (s.launchWords G i a).2.2
    let done := p.launchLanes G.block (fun u => ((s.lane G i u).s32 b).toNat) (s.launchWords G i a).2.1
    let outs := done.1.map fun v => (v.1, w32 d (BitVec.ofNat 32 v.2))
    exec i s = .next (if s.actives G i ≠ [] ∧ p.releasedFor G.block .dev (s.actives G i) = false then s
      else E.finish (((done.2.popQueues E).writeTracked E 0 false outs).pushAll E outs) [] E.fall) := by
  intro i E p done outs
  have hwords : s.launchReads ((s.issueEnv g G i).act.map fun t => (t, (((s.issueEnv g G i).lv s t).r64 a).toNat)) =
      ([], (s.launchWords G i a).2.1, p) := Prod.ext hc rfl
  have hmeet (cmds : List (Nat × Nat)) : p.meet (s.issueEnv g G i).G.block (s.issueEnv g G i).G.core (s.issueEnv g G i).G.pc cmds =
      .alone := by
    have hp : p.paired G.block = false := ((s.onlyCaches_launchWords G i a).onlyRings.paired G.block).trans halone
    rw [State.meet, show p.paired (s.issueEnv g G i).G.block = false from hp]
    rfl
  have hlanes : (s.launchWords G i a).2.1.map Prod.fst = s.actives G i := State.launchWords_lanes hc
  have hempty : (!(s.launchWords G i a).2.1.isEmpty) = true ↔ s.actives G i ≠ [] := by
    rw [Bool.not_eq_true', List.isEmpty_eq_false_iff, ← hlanes, ne_eq, ne_eq, List.map_eq_nil_iff]
  refine (issue_issues s g G i H _).trans (congrArg Host.Outcome.next ?_)
  simp only [hwords, hmeet, hempty, hlanes, Bool.not_eq_true']
  rfl

/-- LAUNCH completes with the statuses of its lanes. -/
theorem State.launch_completes (H : s.Issues g G (.launch h d a b)) (halone : s.paired G.block = false)
    (hc : (s.launchWords G (.launch h d a b) a).1 = [])
    (hr : (s.launchWords G (.launch h d a b) a).2.2.releasedFor G.block .dev (s.actives G (.launch h d a b)) = true)
    (hctx : ∀ u ∈ s.actives G (.launch h d a b), (s.thread u).ctx = 0) :
    let i := Instr.launch h d a b
    let done := (s.launchWords G i a).2.2.launchLanes G.block (fun u => ((s.lane G i u).s32 b).toNat) (s.launchWords G i a).2.1
    ∃ r t, exec i s = .next t ∧ done.1.map Prod.fst = s.actives G i ∧
      done.2.Sent r G i 0 (fun v => w32 d (BitVec.ofNat 32 (((done.1.find? fun x => x.1 == v.t).map Prod.snd).getD 0))) ∧
      r.Went t g G h (s.issueClk G i) (G.pc + 8) := by
  intro i done
  have hcaches := (s.onlyCaches_launchWords G i a).onlyRings
  have hreads := State.launchWords_lanes hc
  have hlanes : done.1.map Prod.fst = s.actives G i := (State.launchLanes_lanes _ _ _ _).trans hreads
  have hrings : s.OnlyRings done.2 := by
    refine hcaches.trans (State.onlyRings_launchLanes _ _ fun o ho => ?_)
    rw [hcaches.thread]
    exact hctx o.1 (hreads ▸ List.mem_map_of_mem ho)
  have hnodup : (done.1.map Prod.fst).Nodup := by
    rw [hlanes]
    exact H.apart.filter _
  set f : LV → List LaneWrite := fun v => w32 d (BitVec.ofNat 32 (((done.1.find? fun x => x.1 == v.t).map Prod.snd).getD 0)) with hf
  have houts : (done.2.actives G i).map (fun u => (u, f (done.2.lane G i u))) = done.1.map fun v => (v.1, w32 d (BitVec.ofNat 32 v.2)) := by
    rw [hrings.actives, ← hlanes]
    conv_rhs => rw [← map_find_of_nodup hnodup 0]
    rw [List.map_map (l := done.1.map Prod.fst)]
    rfl
  have hsent := done.2.sent_pushAll g G i 0 f fun v q x hx =>
    (declared_w32 i d (fun v => BitVec.ofNat 32 (((done.1.find? fun x => x.1 == v.t).map Prod.snd).getD 0)) (Use.dst d)
      (by rw [uses_launch]; exact List.mem_cons_self) rfl rfl (Nat.le_refl 1)).queues v q x hx
  simp only [houts, hrings.issueEnv] at hsent
  refine ⟨_, _, (State.exec_launch_alone H halone hc).trans ?_, hlanes, hsent, H.fall _⟩
  rw [if_neg]
  rintro ⟨-, hno⟩
  rw [hr] at hno
  cases hno

end

end Machine

open Machine

/-- Settles O22: a lane's append by the cases of R95, and the word by what its lanes' appends leave. -/
theorem launches : Obligations.Launches := by
  constructor
  · intro s b t q w ctx R part Q n usable full pa L
    have husable : usable ↔ s.sqUsable q (s.partOf b) = true := State.sqUsable_iff.symm
    have hfull : full ↔ s.sqFull q = true := State.sqFull_iff.symm
    refine ⟨fun h => State.launchLane_held h, fun h hu => State.launchLane_unusable h (mt husable.mpr hu),
      fun h hu hf => State.launchLane_full h (husable.mp hu) (hfull.mp hf), fun h hu hf => ?_⟩
    have hL : L = (0, s.ringAppend q w R.tenant R.world R.tier) :=
      State.launchLane_appends h (husable.mp hu) (mt hfull.mpr hf)
    rw [hL]
    refine ⟨rfl, State.ringAppend_eq s q w _ _ _, fun hfits hlen => ?_, fun hout => ?_⟩
    · have hbyte (x : Nat) : (s.ringAppend q w R.tenant R.world R.tier).byte x = (s.setBytes pa (bytesOf w)).byte x := by
        rw [State.ringAppend_fits hfits]
        rfl
      have hbytes : (bytesOf w).length = 256 := by rw [bytesOf_length, hlen]
      refine ⟨fun k hk => ?_, fun x hx => ?_⟩
      · rw [hbyte, State.byte_setBytes_in _ _ _ _ (by omega), bytesOf_getElem]
      · rw [hbyte, State.byte_setBytes_out _ _ _ _ (by omega)]
    · have hno : ¬ (s.sq q).slot (s.sq q).tail + 256 ≤ s.dramSize := Nat.not_le.mpr hout
      rw [State.ringAppend_unfitted hno]
  · intro s h d a b g G i qOf reads H halone hc
    exact ⟨fun hne hno => (State.exec_launch_alone H halone hc).trans (congrArg Host.Outcome.next (if_pos ⟨hne, hno⟩)),
      fun hr hctx => State.launch_completes H halone hc hr hctx⟩

end Sys2Proof
end

