-- ==== Sys2Proof/Proofs/EventCounters.lean ====
section
/-!
EVSIG and EVWAIT (R96, R97, R217): the adds of several lanes, the work that they hold with a context, and the tests that a wait has met.
-/

namespace Sys2Proof

theorem FMap.find_map_keyed {α β : Type} (m : FMap α) (k : Nat) {f : Nat × α → Nat × β} (hf : ∀ p, (f p).1 = p.1) :
    FMap.find (m.map f) k = (m.find k).map fun x => (f (k, x)).2 := by
  induction m with
  | nil => rfl
  | cons p r ih =>
    obtain ⟨j, x⟩ := p
    have hkey : f (j, x) = (j, (f (j, x)).2) := Prod.ext (hf (j, x)) rfl
    rw [List.map_cons, hkey, FMap.find, FMap.find]
    split
    next e => rw [e, Option.map_some]
    next => exact ih

namespace Machine

/-! ## The adds of several lanes -/

theorem State.addCounter_eq (s : State) (n : Nat) (v : DWord) :
    s.addCounter n v = { s with counters := (s.addCounter n v).counters, groups := (s.addCounter n v).groups } := rfl

theorem State.counter_addCounter (s : State) (n k : Nat) (v : DWord) :
    (s.addCounter n v).counter k = if k = n then s.counter k + v else s.counter k := by
  refine (FMap.findD_store 0 _ _ _ _).trans ?_
  by_cases h : k = n
  · rw [if_pos h, if_pos h, h]
  · rw [if_neg h, if_neg h]
    rfl

/-- What a lane of EVSIG does (R97, R217): a thread, a counter and a value. -/
def State.signal (s : State) (v : Nat × Nat × DWord) : State :=
  if (s.thread v.1).ctx ≠ 0 then s.hold (s.thread v.1).ctx (.evsig v.2.1 v.2.2) else s.addCounter v.2.1 v.2.2

theorem State.signal_base {s : State} {v : Nat × Nat × DWord} (h : (s.thread v.1).ctx = 0) : s.signal v = s.addCounter v.2.1 v.2.2 :=
  if_neg (not_not.mpr h)

theorem State.signal_held {s : State} {v : Nat × Nat × DWord} {c : Nat} (hc : c ≠ 0) (h : (s.thread v.1).ctx = c) :
    s.signal v = s.hold c (.evsig v.2.1 v.2.2) := by
  rw [State.signal, h, if_pos hc]

theorem State.signals_base {s : State} {vs : List (Nat × Nat × DWord)} (h : ∀ v ∈ vs, (s.thread v.1).ctx = 0) :
    vs.foldl State.signal s =
      { s with counters := (vs.foldl State.signal s).counters, groups := (vs.foldl State.signal s).groups } ∧
    ∀ n, (vs.foldl State.signal s).counter n = s.counter n + ((vs.filter fun v => v.2.1 == n).map fun v => v.2.2).sum := by
  induction vs generalizing s with
  | nil => exact ⟨rfl, fun n => (BitVec.add_zero _).symm⟩
  | cons v r ih =>
    have hstep := State.signal_base (h v List.mem_cons_self)
    obtain ⟨heq, hsum⟩ := ih (s := s.addCounter v.2.1 v.2.2) fun w hw => h w (List.mem_cons_of_mem v hw)
    rw [List.foldl_cons, hstep]
    refine ⟨heq, fun n => ?_⟩
    rw [hsum, State.counter_addCounter]
    by_cases hn : v.2.1 = n
    · rw [if_pos hn.symm, List.filter_cons_of_pos (by simpa using hn), List.map_cons, List.sum_cons, BitVec.add_assoc]
    · rw [if_neg fun e => hn e.symm, List.filter_cons_of_neg (by simpa using hn)]

theorem State.ctx_hold (s : State) (c : Nat) (w : Held) : (s.hold c w).ctx c = { s.ctx c with held := (s.ctx c).held ++ [w] } :=
  (FMap.findD_put _ _ _ _ _).trans (if_pos rfl)

theorem State.find_hold_ne (s : State) {c k : Nat} (w : Held) (h : k ≠ c) : (s.hold c w).ctxs.find k = s.ctxs.find k :=
  FMap.find_put_ne _ _ _ _ h

theorem State.signals_held {s : State} {vs : List (Nat × Nat × DWord)} {c : Nat} (hc : c ≠ 0) (h : ∀ v ∈ vs, (s.thread v.1).ctx = c) :
    vs.foldl State.signal s = { s with ctxs := (vs.foldl State.signal s).ctxs } ∧
    (∀ k, k ≠ c → (vs.foldl State.signal s).ctxs.find k = s.ctxs.find k) ∧
    (vs.foldl State.signal s).ctx c = { s.ctx c with held := (s.ctx c).held ++ vs.map fun v => .evsig v.2.1 v.2.2 } := by
  induction vs generalizing s with
  | nil => exact ⟨rfl, fun _ _ => rfl, by rw [List.map_nil, List.append_nil]; rfl⟩
  | cons v r ih =>
    have hstep := State.signal_held hc (h v List.mem_cons_self)
    obtain ⟨heq, hfind, hctx⟩ := ih (s := s.hold c (.evsig v.2.1 v.2.2)) fun w hw => h w (List.mem_cons_of_mem v hw)
    rw [List.foldl_cons, hstep]
    refine ⟨heq, fun k hk => (hfind k hk).trans (s.find_hold_ne _ hk), ?_⟩
    rw [hctx, State.ctx_hold, List.append_assoc, List.map_cons, List.singleton_append]

/-! ## Tests that a wait has met (R96) -/

/-- A lane's test, once met, stays met. -/
def State.metWith (s : State) (m : FMap Nat) (l : LaneSrc) : FMap Nat :=
  if (m.find l.thread).isNone && decide (l.b ≤ (s.counter l.a).toNat) then m.put l.thread (s.counter l.a).toNat else m

theorem State.find_metWith_self {s : State} {m : FMap Nat} {l : LaneSrc} (h : m.find l.thread = none) :
    (s.metWith m l).find l.thread = if l.b ≤ (s.counter l.a).toNat then some (s.counter l.a).toNat else none := by
  unfold State.metWith
  by_cases hb : l.b ≤ (s.counter l.a).toNat
  · rw [if_pos (by simp [h, hb]), if_pos hb, FMap.find_put_self]
  · rw [if_neg (by simp [hb]), if_neg hb, h]

theorem State.find_metWith_ne {s : State} {m : FMap Nat} {l : LaneSrc} {k : Nat} (h : k ≠ l.thread) : (s.metWith m l).find k = m.find k := by
  unfold State.metWith
  split
  · exact FMap.find_put_ne _ _ _ _ h
  · rfl

theorem State.find_metWith_all (s : State) {ls : List LaneSrc} (hn : (ls.map LaneSrc.thread).Nodup) {m : FMap Nat}
    (hm : ∀ l ∈ ls, m.find l.thread = none) : ∀ l ∈ ls, (ls.foldl s.metWith m).find l.thread =
      if l.b ≤ (s.counter l.a).toNat then some (s.counter l.a).toNat else none := by
  have hkeep (r : List LaneSrc) (k : Nat) (hk : k ∉ r.map LaneSrc.thread) (m : FMap Nat) : (r.foldl s.metWith m).find k = m.find k := by
    induction r generalizing m with
    | nil => rfl
    | cons l r ih =>
      rw [List.map_cons, List.mem_cons, not_or] at hk
      exact (ih hk.2 _).trans (State.find_metWith_ne hk.1)
  induction ls generalizing m with
  | nil => exact fun l hl => absurd hl List.not_mem_nil
  | cons l r ih =>
    obtain ⟨hl, hr⟩ := List.nodup_cons.mp hn
    intro x hx
    rcases List.mem_cons.mp hx with rfl | hx
    · rw [List.foldl_cons, hkeep r _ hl]
      exact State.find_metWith_self (hm x List.mem_cons_self)
    · refine ih hr (fun y hy => ?_) x hx
      have hne : y.thread ≠ l.thread := fun e => hl (e ▸ List.mem_map_of_mem hy)
      exact (State.find_metWith_ne hne).trans (hm y (List.mem_cons_of_mem l hy))

theorem State.noteCounters_eq (s : State) : s.noteCounters = { s with groups := s.noteCounters.groups } := rfl

theorem State.wait_noteCounters {s : State} {g : Nat} {G : Group} {sc : Scope} {d : Reg} {ls : List LaneSrc} {met : FMap Nat}
    (hg : s.groups.find g = some G) (hw : G.wait = some (.evwait sc d ls met)) :
    (s.noteCounters.groups.find g).bind Group.wait = some (.evwait sc d ls (ls.foldl s.metWith met)) := by
  unfold State.noteCounters
  rw [FMap.find_map_keyed]
  · rw [hg]
    simp only [Option.map_some, hw]
    rfl
  · intro p
    split <;> rfl

/-! ## EVSIG -/

section
variable {s : State} {h : Hdr} {sc : Scope} {d a : Reg} {b : Src} {g : Nat} {G : Group} {i : Instr}

/-- No lane raises PRIV where every counter exists and is granted (R96, R97). -/
theorem State.counterPriv_eq_nil (hok : ∀ u ∈ s.actives G i,
      ((s.lane G i u).r32 a).toNat < 4096 ∧ s.granted (s.launchOf G.block).part ((s.lane G i u).r32 a).toNat = true) :
    s.counterPriv (s.issueEnv g G i) a = [] := by
  unfold State.counterPriv allRaise
  rw [List.map_eq_nil_iff, List.filter_eq_nil_iff]
  intro u hu
  obtain ⟨hlt, hgranted⟩ := hok u hu
  have hnot : ¬ 4096 ≤ ((s.lane G i u).r32 a).toNat := Nat.not_le.mpr hlt
  have hpart : s.granted (s.partOf G.block) ((s.lane G i u).r32 a).toNat = true := hgranted
  simp [hnot, hpart, show (s.issueEnv g G i).lv s u = s.lane G i u from rfl, show (s.issueEnv g G i).G = G from rfl]

/-- What the lanes of an EVSIG signal. -/
def State.signals (s : State) (G : Group) (i : Instr) (a : Reg) (b : Src) : List (Nat × Nat × DWord) :=
  (s.actives G i).map fun u => (u, ((s.lane G i u).r32 a).toNat, (s.lane G i u).s64 b)

theorem State.exec_evsig_alone (H : s.Issues g G (.evsig h sc a b)) (hok : ∀ u ∈ s.actives G (.evsig h sc a b),
      ((s.lane G (.evsig h sc a b) u).r32 a).toNat < 4096 ∧
        s.granted (s.launchOf G.block).part ((s.lane G (.evsig h sc a b) u).r32 a).toNat = true)
    (halone : s.paired G.block = false) (hopen : ∀ u ∈ s.actives G (.evsig h sc a b), s.threadOpen (s.thread u) = true) :
    exec (.evsig h sc a b) s = .next (
      if s.actives G (.evsig h sc a b) ≠ [] ∧ s.releasedFor G.block sc (s.actives G (.evsig h sc a b)) = false then s
      else (s.issueEnv g G (.evsig h sc a b)).finish
        (((s.signals G (.evsig h sc a b) a b).foldl State.signal s).popQueues (s.issueEnv g G (.evsig h sc a b))) []
        (s.issueEnv g G (.evsig h sc a b)).fall) := by
  have hpriv := State.counterPriv_eq_nil (g := g) hok
  have hact : (s.issueEnv g G (.evsig h sc a b)).act = s.actives G (.evsig h sc a b) := rfl
  have hall : (s.actives G (.evsig h sc a b)).filter (fun t => s.threadOpen (s.thread t)) = s.actives G (.evsig h sc a b) :=
    List.filter_eq_self.mpr hopen
  have hbad : (s.actives G (.evsig h sc a b)).filter (fun t => !s.threadOpen (s.thread t)) = [] :=
    List.filter_eq_nil_iff.mpr fun u hu => by simp [hopen u hu]
  have hmeet (cmds : List (Nat × Nat)) : s.meet (s.issueEnv g G (.evsig h sc a b)).G.block (s.issueEnv g G (.evsig h sc a b)).G.core
      (s.issueEnv g G (.evsig h sc a b)).G.pc cmds = .alone := by
    rw [State.meet, show s.paired (s.issueEnv g G (.evsig h sc a b)).G.block = false from halone]
    rfl
  refine (issue_issues s g G _ H _).trans (congrArg Host.Outcome.next ?_)
  simp only [hpriv, hact, List.any_nil, Bool.not_false, List.filter_true, hall, hbad, hmeet, allRaise, List.map_nil, List.append_nil,
    Bool.not_eq_true', List.isEmpty_eq_false_iff]
  rfl

end

end Machine

open Machine

theorem eventCounters_evsig (s : State) (h : Hdr) (sc : Scope) (a : Reg) (b : Src) (g : Nat) (G : Group) :
    let i := Instr.evsig h sc a b
    let ok : Prop := ∀ u ∈ s.actives G i,
      ((s.lane G i u).r32 a).toNat < 4096 ∧ s.granted (s.launchOf G.block).part ((s.lane G i u).r32 a).toNat = true
    let num (u : Nat) : Nat := ((s.lane G i u).r32 a).toNat
    let val (u : Nat) : DWord := (s.lane G i u).s64 b
    s.Issues g G i → ok → s.paired G.block = false → (∀ u ∈ s.actives G i, s.threadOpen (s.thread u) = true) →
      let us := s.actives G i
      let done (q : State) : Prop := ∃ r t, exec i s = .next t ∧ State.OnlySides G.block q r ∧
        r.Went t g G h (s.issueClk G i) (G.pc + 8)
      (s.releasedFor G.block sc us = true → (∀ u ∈ us, (s.thread u).ctx = 0) →
        ∃ q, done q ∧ q = { s with counters := q.counters, groups := q.groups } ∧
          ∀ n, q.counter n = s.counter n + ((us.filter fun u => num u == n).map val).sum) ∧
      (s.releasedFor G.block sc us = true → ∀ c, c ≠ 0 → us ≠ [] → (∀ u ∈ us, (s.thread u).ctx = c) →
        ∃ q, done q ∧ q = { s with ctxs := q.ctxs } ∧ (∀ k, k ≠ c → q.ctxs.find k = s.ctxs.find k) ∧
          q.ctx c = { s.ctx c with held := (s.ctx c).held ++ us.map fun u => .evsig (num u) (val u) }) ∧
      (s.releasedFor G.block sc us = false → us ≠ [] → exec i s = .next s) := by
  intro i ok num val H hok halone hopen us done
  have hexec := State.exec_evsig_alone H hok halone hopen
  have hgoes (hr : s.releasedFor G.block sc us = true) : done ((s.signals G i a b).foldl State.signal s) := by
    refine ⟨_, _, hexec.trans (congrArg Host.Outcome.next (if_neg ?_)), State.onlySides_popQueues _ (s.issueEnv g G i), H.fall _⟩
    rintro ⟨-, hno⟩
    cases hr.symm.trans hno
  have hctx (c : Nat) (hc : ∀ u ∈ us, (s.thread u).ctx = c) : ∀ v ∈ s.signals G i a b, (s.thread v.1).ctx = c := by
    intro v hv
    obtain ⟨u, hu, rfl⟩ := List.mem_map.mp hv
    exact hc u hu
  refine ⟨fun hr h0 => ⟨_, hgoes hr, (State.signals_base (hctx 0 h0)).1, fun n => ?_⟩, fun hr c hc _ hall => ⟨_, hgoes hr, ?_⟩,
    fun hno hne => hexec.trans (congrArg Host.Outcome.next (if_pos ⟨hne, hno⟩))⟩
  · rw [(State.signals_base (hctx 0 h0)).2, State.signals, List.filter_map, List.map_map]
    rfl
  · obtain ⟨heq, hfind, hheld⟩ := State.signals_held hc (hctx c hall)
    refine ⟨heq, hfind, ?_⟩
    rw [hheld, State.signals, List.map_map]
    rfl

theorem eventCounters_evwait (s : State) (h : Hdr) (sc : Scope) (d a : Reg) (b : Src) (g : Nat) (G : Group) :
    let i := Instr.evwait h sc d a b
    let ok : Prop := ∀ u ∈ s.actives G i,
      ((s.lane G i u).r32 a).toNat < 4096 ∧ s.granted (s.launchOf G.block).part ((s.lane G i u).r32 a).toNat = true
    s.Issues g G i → ok → s.actives G i ≠ [] →
      let ls : List LaneSrc := (s.actives G i).map fun u =>
        ⟨u, (s.thread u).ctx, !s.threadOpen (s.thread u), ((s.lane G i u).r32 a).toNat, ((s.lane G i u).s64 b).toNat, 0, 0,
          (s.thread u).ctxGen⟩
      ∃ r u t met, exec i s = .next t ∧ State.OnlySides G.block s r ∧ r.Halts u g G h (s.issueClk G i) (.evwait sc d ls []) ∧
        t = { u with groups := t.groups } ∧ (t.groups.find g).bind Group.wait = some (.evwait sc d ls met) ∧
        ∀ l ∈ ls, met.find l.thread = if l.b ≤ (s.counter l.a).toNat then some (s.counter l.a).toNat else none := by
  intro i ok H hok hne ls
  set E := s.issueEnv g G i with hE
  have hpriv : s.counterPriv E a = [] := State.counterPriv_eq_nil hok
  have hsides := s.onlySides_popQueues E
  have hhalts : (s.popQueues E).Halts (E.await (s.popQueues E) [] (.evwait sc d ls [])) g G h (s.issueClk G i) (.evwait sc d ls []) :=
    E.await_halts _ _ H.lanes H.apart rfl rfl
  have hcounter : (E.await (s.popQueues E) [] (.evwait sc d ls [])).counter = s.counter := by
    obtain ⟨w, hwent, hw⟩ := hhalts.rest
    have hcounters : (E.await (s.popQueues E) [] (.evwait sc d ls [])).counters = s.counters := by
      rw [hw, hwent.rest, hsides.rest]
    funext n
    rw [State.counter, hcounters, State.counter]
  obtain ⟨K, hK, hwait⟩ := hhalts.group
  have hexec : exec i s = .next (E.await (s.popQueues E) [] (.evwait sc d ls [])).noteCounters := by
    refine (issue_issues s g G i H _).trans (congrArg Host.Outcome.next ?_)
    have hact : (s.issueEnv g G i).act = s.actives G i := rfl
    simp only [← hE, hpriv, List.any_nil, Bool.not_false, List.filter_true]
    rw [if_neg]
    · rfl
    · rw [hE, hact, List.isEmpty_iff]
      exact hne
  refine ⟨_, _, _, _, hexec, hsides, hhalts, State.noteCounters_eq _, State.wait_noteCounters hK (by rw [hwait]), ?_⟩
  have hmet := State.find_metWith_all (E.await (s.popQueues E) [] (.evwait sc d ls [])) (ls := ls) (m := [])
    (by
      rw [List.map_map]
      exact (List.map_id _).symm ▸ H.apart.filter _)
    fun _ _ => rfl
  simp only [hcounter] at hmet
  exact hmet

/-- Settles O23: EVSIG by the signals of its lanes, one after the other, and EVWAIT by the tests that its lanes have met at once. -/
theorem eventCounters : Obligations.EventCounters := by
  intro s h sc d a b g G ok num val
  exact ⟨fun H hok halone hopen => eventCounters_evsig s h sc a b g G H hok halone hopen,
    fun H hok hne => eventCounters_evwait s h sc d a b g G H hok hne⟩

end Sys2Proof
end

