-- ==== Sys2Proof/Proofs/StreamQueues.lean ====
section
/-!
Stream queues (R78 to R80), the check of their records (R67, R68) and the readiness of launches (R81).
-/

namespace Sys2Proof
namespace Machine

/-! ## A queue stops, goes on, and passes a record over (R79, R80) -/

/-- A queue has stopped with a status, and no other queue differs; a stop after FAULT or ABORTED is not forgotten. -/
def State.SqStops (s t : State) (q status : Nat) : Prop :=
  (∀ k, k ≠ q → t.sq k = s.sq k) ∧
    t.sq q = { s.sq q with
      stopped := true, status := status, failedCheck := (t.sq q).failedCheck, skipMade := (t.sq q).skipMade
      launchStop := (t.sq q).launchStop } ∧ ((s.sq q).stopped = true → (s.sq q).launchStop = true → (t.sq q).launchStop = true)

/-- A queue that no stream in ERROR or CONFIG_LOCKED holds. -/
theorem State.streamState_of_free {s : State} {q : Nat} (h : ∀ p ∈ s.sec.streams, q ∈ p.2.ifs → p.2.state = 0 ∨ p.2.state = 2) :
    s.streamState q = 0 ∨ s.streamState q = 2 := by
  unfold State.streamState
  split
  next p hp =>
    have hholds := List.find?_some hp
    simp only [Bool.and_eq_true, List.contains_iff_mem] at hholds
    exact h p (List.mem_of_find?_eq_some hp) hholds.2
  next => exact .inl rfl

theorem State.sq_stopQueue_of_sqs {s u : State} (hsqs : u.sqs = s.sqs) (q st : Nat) (failed : Bool) (k : Nat) :
    (u.stopQueue q st failed).sq k = if k = q then
      { s.sq q with
        stopped := true, status := if u.streamState q = 3 then 0xFE else st
        failedCheck := failed || ((s.sq q).failedCheck && (s.sq q).stopped), skipMade := (s.sq q).skipMade && (s.sq q).stopped
        launchStop := st == stFault || st == stAborted || ((s.sq q).launchStop && (s.sq q).stopped) } else s.sq k := by
  have hsq (j : Nat) : u.sq j = s.sq j := by rw [State.sq, hsqs, State.sq]
  rw [State.sq_stopQueue, hsq, hsq]

theorem State.failedCheck_stopQueue (s : State) (q st : Nat) : ((s.stopQueue q st true).sq q).failedCheck = true :=
  congrArg StreamQ.failedCheck ((State.sq_stopQueue s q st true q).trans (if_pos rfl))

theorem State.stops_of_sqs {s u : State} (hsqs : u.sqs = s.sqs) {q : Nat} (hfree : u.streamState q ≠ 3) (st : Nat) (failed : Bool) :
    s.SqStops (u.stopQueue q st failed) q st := by
  have hself := (State.sq_stopQueue_of_sqs hsqs q st failed q).trans (if_pos rfl)
  rw [if_neg hfree] at hself
  refine ⟨fun k hk => (State.sq_stopQueue_of_sqs hsqs q st failed k).trans (if_neg hk), ?_, fun hstopped hlaunch => ?_⟩
  · rw [hself]
  · rw [hself]
    simp [hstopped, hlaunch]

theorem State.doorbell_in_range {s : State} {q v : Nat} (h : (v + 2 ^ 32 - (s.sq q).head) % 2 ^ 32 ≤ (s.sq q).entries ∧
    (v + 2 ^ 32 - (s.sq q).tail) % 2 ^ 32 ≤ (s.sq q).entries) : s.doorbell q v = s.modSq q fun Q => { Q with tail := v } := if_pos h

theorem State.doorbell_out_of_range {s : State} {q v : Nat} (h : ¬ ((v + 2 ^ 32 - (s.sq q).head) % 2 ^ 32 ≤ (s.sq q).entries ∧
    (v + 2 ^ 32 - (s.sq q).tail) % 2 ^ 32 ≤ (s.sq q).entries)) : s.doorbell q v = s.stopQueue q 0xFF false := if_neg h

theorem State.sq_of_put {s t : State} {q : Nat} {Q : StreamQ} (h : t.sqs = s.sqs.put q Q) (k : Nat) :
    t.sq k = if k = q then Q else s.sq k := by
  rw [State.sq, h, FMap.findD_put]
  rfl

theorem State.sq_of_put_self {s t : State} {q : Nat} {Q : StreamQ} (h : t.sqs = s.sqs.put q Q) : t.sq q = Q :=
  (State.sq_of_put h q).trans (if_pos rfl)

theorem State.sq_of_put_ne {s t : State} {q k : Nat} {Q : StreamQ} (h : t.sqs = s.sqs.put q Q) (hk : k ≠ q) : t.sq k = s.sq k :=
  (State.sq_of_put h k).trans (if_neg hk)

theorem State.resumeQueue_running {s : State} {q : Nat} (h : (s.sq q).stopped = false) : s.resumeQueue q = s :=
  if_neg fun hc => by rw [h] at hc; cases hc.1

theorem State.resumeQueue_stopped {s : State} {q : Nat} (h : (s.sq q).stopped = true) (hfree : s.streamState q ≠ 3) :
    s.resumeQueue q = { s with
      submits := if (s.sq q).failedCheck = true ∧ (s.sq q).skipMade = false then s.submits.del (submitKey q (s.sq q).head) else s.submits
      sqs := s.sqs.put q { s.sq q with stopped := false, failedCheck := false, skipMade := false, launchStop := false } } := by
  refine (if_pos ⟨h, hfree⟩).trans ?_
  by_cases hc : (s.sq q).failedCheck = true ∧ (s.sq q).skipMade = false
  · have hc' : (s.sq q).failedCheck = true ∧ (!(s.sq q).skipMade) = true := by simpa using hc
    simp only [if_pos hc, if_pos hc']
    rfl
  · have hc' : ¬ ((s.sq q).failedCheck = true ∧ (!(s.sq q).skipMade) = true) := by simpa using hc
    simp only [if_neg hc, if_neg hc']
    rfl

theorem State.skipRecord_failed {s : State} {q : Nat}
    (h : (s.sq q).stopped = true ∧ (s.sq q).failedCheck = true ∧ (s.sq q).skipMade = false) : s.skipRecord q =
      { s.modSq q fun Q => { Q with head := (Q.head + 1) % 2 ^ 32, skipMade := true } with
        submits := s.submits.del (submitKey q (s.sq q).head) } := if_pos (by simpa using h)

theorem State.skipRecord_else {s : State} {q : Nat}
    (h : ¬ ((s.sq q).stopped = true ∧ (s.sq q).failedCheck = true ∧ (s.sq q).skipMade = false)) : s.skipRecord q = s :=
  if_neg (by simpa using h)

/-! ## The check of a record (R67, R68) -/

theorem dwordsOf_eq_map (l : List Byte) (n : Nat) :
    dwordsOf l n = (List.range n).map fun k => BitVec.ofNat 64 (leNat ((l.drop (8 * k)).take 8)) := by
  induction n generalizing l with
  | zero => rfl
  | succ n ih =>
    rw [dwordsOf, ih, List.range_succ_eq_map, List.map_cons, List.map_map]
    refine List.cons_eq_cons.mpr ⟨rfl, List.map_congr_left fun k _ => ?_⟩
    rw [List.drop_drop, Function.comp_apply, Nat.mul_succ, Nat.add_comm]

theorem upFrom_drop_take (lo n a k : Nat) (h : a + k ≤ n) : ((upFrom lo n).drop a).take k = upFrom (lo + a) k := by
  obtain ⟨r, rfl⟩ := Nat.exists_eq_add_of_le h
  rw [Nat.add_assoc, upFrom_add, upFrom_add, List.drop_left' (upFrom_length lo a), List.take_left' (upFrom_length _ k)]

/-- The dwords of a record as they lie in memory. -/
theorem State.dwordsOf_bytes (s : State) (pa : Nat) : dwordsOf (s.bytes pa 256) 32 = (List.range 32).map fun k =>
    BitVec.ofNat 64 (leNat ((List.range 8).map fun j => s.byte (pa + 8 * k + j))) := by
  rw [dwordsOf_eq_map]
  refine List.map_congr_left fun k hk => ?_
  have hk : k < 32 := List.mem_range.mp hk
  rw [State.bytes, ← List.map_drop, ← List.map_take, upFrom_drop_take _ _ _ _ (by omega), map_upFrom]

theorem State.recordCheck_illegal {s : State} {q : Nat} {ws : RecWords} (h : fieldsLegal ws = false) : s.recordCheck q ws = (1, 0) :=
  if_pos (by rw [h]; rfl)

theorem bitsOf_toNat_eq_one {w lo n : Nat} (v : BitVec w) (hn : 1 ≤ n) : bitsOf v.toNat lo n = 1 ↔ v.extractLsb' lo n = 1#n := by
  rw [← BitVec.toNat_inj, BitVec.extractLsb'_toNat, BitVec.toNat_ofNat, Nat.shiftRight_eq_div_pow, bitsOf,
    Nat.mod_eq_of_lt (Nat.one_lt_two_pow (by omega))]

/-- Limits whose breach is BAD-FIELD (Table 4-3). -/
theorem fieldsLegal_eq_false {ws : RecWords}
    (h : (recordOf ws).dm = 3 ∨ (ws.getD 1 0).extractLsb' 0 4 ≠ 1 ∨ (recordOf ws).codeBase % 256 ≠ 0 ∨ (recordOf ws).spad % 256 ≠ 0 ∨
      (recordOf ws).stride % 64 ≠ 0 ∨ (recordOf ws).obquota % 4096 ≠ 0 ∨ (recordOf ws).privBase % 64 ≠ 0 ∨
      (recordOf ws).status % 16 ≠ 0) : fieldsLegal ws = false := by
  rw [Bool.eq_false_iff]
  intro hlegal
  simp only [fieldsLegal, Bool.and_eq_true, beq_iff_eq, bne_iff_ne, decide_eq_true_eq] at hlegal
  obtain ⟨⟨⟨⟨⟨⟨⟨⟨⟨⟨⟨⟨hversion, hdm⟩, -⟩, hcode⟩, -⟩, hspad⟩, -⟩, hstride⟩, hob⟩, -⟩, hpriv⟩, -⟩, hstatus⟩ := hlegal
  have hv : (ws.getD 1 0).extractLsb' 0 4 = 1 := (bitsOf_toNat_eq_one _ (by decide)).mp hversion
  tauto

/-! ## Records of the device in memory (R68) -/

/-- Nothing differs between two states but bytes of memory and registers of threads. -/
def State.OnlyBytes (s t : State) : Prop := t = { s with mem := t.mem, threads := t.threads }

theorem State.OnlyBytes.refl (s : State) : s.OnlyBytes s := rfl

theorem State.OnlyBytes.trans {s t u : State} (h : s.OnlyBytes t) (k : t.OnlyBytes u) : s.OnlyBytes u := by
  unfold State.OnlyBytes at *
  rw [k, h]

section
variable {s t : State} (h : s.OnlyBytes t)
include h

theorem State.OnlyBytes.sqs : t.sqs = s.sqs := by rw [h]
theorem State.OnlyBytes.launches : t.launches = s.launches := by rw [h]

theorem State.OnlyBytes.streamState (q : Nat) : t.streamState q = s.streamState q := by
  rw [h]
  rfl

end

theorem State.onlyBytes_setBytes (s : State) (pa : Nat) (bs : List Byte) : s.OnlyBytes (s.setBytes pa bs) := by
  rw [State.setBytes_eq]
  rfl

theorem State.onlyBytes_raiseQuarter (s : State) (t q : Nat) : s.OnlyBytes (s.raiseQuarter t q) := by
  unfold State.raiseQuarter
  dsimp only
  split <;> rfl

theorem State.onlyBytes_mapSet (s : State) (core off : Nat) (b : Byte) : s.OnlyBytes (s.mapSet core off b) := by
  unfold State.mapSet
  split
  · dsimp only
    split
    · exact (s.onlyBytes_raiseQuarter _ _).trans rfl
    · exact .refl s
  · split
    · rfl
    · exact .refl s

theorem State.onlyBytes_mapWrite (s : State) (core off : Nat) (bs : List Byte) : s.OnlyBytes (s.mapWrite core off bs) := by
  induction bs generalizing s off with
  | nil => exact .refl s
  | cons b r ih => exact (s.onlyBytes_mapSet core off b).trans (ih _ _)

theorem State.onlyBytes_writeRecord (s : State) (tenant world addr : Nat) (bs : List Byte) :
    s.OnlyBytes (s.writeRecord tenant world addr bs) := by
  unfold State.writeRecord
  dsimp only
  split
  · exact .refl s
  · split
    · exact .refl s
    · split
      · exact .refl s
      · split
        · exact s.onlyBytes_setBytes _ _
        · exact s.onlyBytes_mapWrite _ _ _
        · exact .refl s

/-- Where the record of a failed check is written, if it is (R68). -/
def State.failRecord (s : State) (R : LRec) (r : Nat × Nat) : State :=
  if R.status = 0 ∨ R.status % 16 ≠ 0 then s else s.writeRecord R.tenant R.world R.status (completionBytes 0 r.2 r.1 0)

theorem State.onlyBytes_failRecord (s : State) (R : LRec) (r : Nat × Nat) : s.OnlyBytes (s.failRecord R r) := by
  unfold State.failRecord
  split
  · exact .refl s
  · exact s.onlyBytes_writeRecord _ _ _ _

/-! ## RECORD_CHECK (R68, R79, R80) -/

theorem State.exec_recordCheck_idle {s : State} {q : Nat} (h : s.checkDue q = false) : exec (.recordCheck q) s = .next s := by
  rw [exec_recordCheck, execRecordCheck, event, h]
  rfl

section
variable {s : State} {q : Nat}

theorem State.checkDue_iff (hq : q < 96) (hfree : s.streamState q = 0 ∨ s.streamState q = 2) : s.checkDue q = true ↔
    (s.sq q).enable = true ∧ (s.sq q).stopped = false ∧ (s.sq q).head ≠ (s.sq q).tail := by
  have h1 : s.streamState q ≠ 1 := by omega
  have h3 : s.streamState q ≠ 3 := by omega
  simp [State.checkDue, hq, h1, h3, and_assoc]

/-- The words of the record at the head of a queue. -/
def State.headRecord (s : State) (q : Nat) : RecWords := dwordsOf (s.bytes ((s.sq q).slot (s.sq q).head) 256) 32

theorem State.exec_recordCheck_unfitted (hdue : s.checkDue q = true) (h : s.dramSize < (s.sq q).slot (s.sq q).head + 256) :
    exec (.recordCheck q) s = .next (s.stopQueue q 0xFD true) := by
  rw [exec_recordCheck, execRecordCheck, event, if_pos hdue]
  exact congrArg Host.Outcome.next (if_pos h)

theorem State.exec_recordCheck_fails (hdue : s.checkDue q = true) (h : ¬ s.dramSize < (s.sq q).slot (s.sq q).head + 256)
    (hcode : (s.recordCheck q (s.headRecord q)).1 ≠ 0) : exec (.recordCheck q) s =
      .next ((s.failRecord (recordOf (s.headRecord q)) (s.recordCheck q (s.headRecord q))).stopQueue q
        (s.recordCheck q (s.headRecord q)).1 true) := by
  rw [exec_recordCheck, execRecordCheck, event, if_pos hdue]
  exact congrArg Host.Outcome.next ((if_neg h).trans (if_pos hcode))

/-- The launch that a record makes. -/
def State.newLaunch (s : State) (q : Nat) (R : LRec) : Launch :=
  { Launch.init with lrec := R, queue := q, part := (s.sq q).part, order := s.nextId, prev := (s.sq q).last }

theorem State.exec_recordCheck_passes (hdue : s.checkDue q = true) (h : ¬ s.dramSize < (s.sq q).slot (s.sq q).head + 256)
    (hcode : (s.recordCheck q (s.headRecord q)).1 = 0) : exec (.recordCheck q) s = .next { s with
      nextId := s.nextId + 1, launches := s.launches.put s.nextId (s.newLaunch q (recordOf (s.headRecord q)))
      submits := s.submits.del (submitKey q (s.sq q).head)
      sqs := s.sqs.put q { s.sq q with head := ((s.sq q).head + 1) % 2 ^ 32, last := some s.nextId } } := by
  rw [exec_recordCheck, execRecordCheck, event, if_pos hdue]
  exact congrArg Host.Outcome.next ((if_neg h).trans (if_neg (not_not.mpr hcode)))

end

/-! ## LAUNCH_READY (R81) -/

theorem State.readyDue_iff {s : State} {l : Nat} {L : Launch} (hl : s.launches.find l = some L) (hstate : L.state = .checked)
    (hending : L.ending = false) : s.readyDue l = true ↔
      (L.lrec.waitEn = true → L.lrec.threshold.toNat ≤ (s.counter L.lrec.waitCtr).toNat) ∧
      (∀ k P, L.prev = some k → s.launches.find k = some P →
        P.state = .complete ∨ ((s.sq L.queue).overlap = true ∧ s.allDispatched k = true)) ∧
      ¬ ((s.sq L.queue).stopped = true ∧ (s.sq L.queue).launchStop = true) := by
  have hlaunch : s.launch l = L := by rw [State.launch, FMap.findD, hl, Option.getD_some]
  cases hp : L.prev with
  | none =>
    simp only [State.readyDue, hlaunch, hl, hstate, hending, hp, reduceCtorEq, false_implies, implies_true]
    simp [imp_iff_not_or]
  | some k =>
    have hone (φ : Nat → Launch → Prop) : (∀ j P, some k = some j → s.launches.find j = some P → φ j P) ↔
        ∀ P, s.launches.find k = some P → φ k P := ⟨fun h P => h k P rfl, fun h j P hj => Option.some.inj hj ▸ h P⟩
    rw [hone]
    cases hk : s.launches.find k with
    | none =>
      simp only [State.readyDue, hlaunch, hl, hstate, hending, hp, hk, reduceCtorEq, false_implies, implies_true]
      simp [imp_iff_not_or]
    | some P =>
      have hP : s.launch k = P := by rw [State.launch, FMap.findD, hk, Option.getD_some]
      simp only [State.readyDue, hlaunch, hl, hstate, hending, hp, hk, hP, Option.some.injEq, forall_eq']
      simp [imp_iff_not_or, and_assoc]

end Machine

open Machine

/-- The clauses of O49 for a stream queue. -/
theorem launchEvents_queues (s : State) (q : Nat) (hq : q < 96)
    (hstreams : ∀ p ∈ s.sec.streams, q ∈ p.2.ifs → p.2.state = 0 ∨ p.2.state = 2) :
    let Q := s.sq q
    let n := 2 ^ (if Q.size = 0 ∨ 13 ≤ Q.size then 1 else Q.size)
    let gap (a b : Nat) : Nat := (a + 2 ^ 32 - b) % 2 ^ 32
    (∀ v : Word,
      (gap v.toNat Q.head ≤ n ∧ gap v.toNat Q.tail ≤ n → exec (.sqtailWrite q v) s = .next { s with sqs := s.sqs.put q { Q with tail := v.toNat } }) ∧
      (¬ (gap v.toNat Q.head ≤ n ∧ gap v.toNat Q.tail ≤ n) →
        ∃ t, exec (.sqtailWrite q v) s = .next t ∧ t = { s with sqs := t.sqs } ∧ s.SqStops t q 0xFF)) ∧
    (∃ t, exec (.sqctlResume q) s = .next t ∧ t = { s with sqs := t.sqs, submits := t.submits } ∧ (∀ k, k ≠ q → t.sq k = s.sq k) ∧
      t.submits = (if Q.stopped ∧ Q.failedCheck ∧ Q.skipMade = false then s.submits.del (submitKey q Q.head) else s.submits) ∧
      t.sq q = if Q.stopped then { Q with stopped := false, failedCheck := false, skipMade := false, launchStop := false } else Q) ∧
    (∃ t, exec (.sqctlSkip q) s = .next t ∧ t = { s with sqs := t.sqs, submits := t.submits } ∧ (∀ k, k ≠ q → t.sq k = s.sq k) ∧
      t.sq q = if Q.stopped ∧ Q.failedCheck ∧ Q.skipMade = false then { Q with head := (Q.head + 1) % 2 ^ 32, skipMade := true } else Q) ∧
    ((Q.enable = false ∨ Q.stopped = true ∨ Q.head = Q.tail) → exec (.recordCheck q) s = .next s) := by
  intro Q n gap
  have hfree := State.streamState_of_free hstreams
  have hnot : s.streamState q ≠ 3 := by omega
  refine ⟨fun v => ?_, ?_, ?_, fun h => State.exec_recordCheck_idle ?_⟩
  · have hexec : exec (.sqtailWrite q v) s = .next (s.doorbell q v.toNat) := by
      rw [exec_sqtailWrite, execSqtailWrite, event, if_pos (by simp [hq, hnot])]
    rw [hexec]
    refine ⟨fun h => congrArg _ (State.doorbell_in_range h), fun h => ?_⟩
    rw [State.doorbell_out_of_range h]
    exact ⟨_, rfl, rfl, State.stops_of_sqs rfl hnot _ _⟩
  · have hexec : exec (.sqctlResume q) s = .next (s.resumeQueue q) := by
      rw [exec_sqctlResume, execSqctlResume, event, if_pos (decide_eq_true hq)]
    refine ⟨_, hexec, ?_⟩
    by_cases hstopped : Q.stopped = true
    · rw [State.resumeQueue_stopped hstopped hnot]
      refine ⟨rfl, fun k hk => State.sq_of_put_ne rfl hk, ?_, (State.sq_of_put_self rfl).trans (if_pos hstopped).symm⟩
      simp only [hstopped, true_and, Q]
    · rw [State.resumeQueue_running (Bool.eq_false_iff.mpr hstopped)]
      exact ⟨rfl, fun _ _ => rfl, (if_neg fun hc => hstopped hc.1).symm, (if_neg hstopped).symm⟩
  · have hexec : exec (.sqctlSkip q) s = .next (s.skipRecord q) := by
      rw [exec_sqctlSkip, execSqctlSkip, event, if_pos (decide_eq_true hq)]
    refine ⟨_, hexec, ?_⟩
    by_cases hskip : Q.stopped = true ∧ Q.failedCheck = true ∧ Q.skipMade = false
    · rw [State.skipRecord_failed hskip, if_pos hskip]
      exact ⟨rfl, fun k hk => State.sq_of_put_ne rfl hk, State.sq_of_put_self rfl⟩
    · rw [State.skipRecord_else hskip, if_neg hskip]
      exact ⟨rfl, fun _ _ => rfl, rfl⟩
  · rw [Bool.eq_false_iff, ne_eq, State.checkDue_iff hq hfree]
    rintro ⟨henable, hstopped, hne⟩
    rcases h with h | h | h
    · cases henable.symm.trans h
    · cases hstopped.symm.trans h
    · exact hne h

/-- The clauses of O49 for the check of the record at the head of a queue. -/
theorem launchEvents_check (s : State) (q : Nat) (hq : q < 96)
    (hstreams : ∀ p ∈ s.sec.streams, q ∈ p.2.ifs → p.2.state = 0 ∨ p.2.state = 2) :
    let Q := s.sq q
    let n := 2 ^ (if Q.size = 0 ∨ 13 ≤ Q.size then 1 else Q.size)
    Q.enable = true → Q.stopped = false → Q.head ≠ Q.tail →
      let pa := Q.base + 256 * (Q.head % n)
      let ws : RecWords := (List.range 32).map fun k => BitVec.ofNat 64 (leNat ((List.range 8).map fun j => s.byte (pa + 8 * k + j)))
      let R := recordOf ws
      let code := s.recordCheck q ws
      (s.dramSize < pa + 256 → ∃ t, exec (.recordCheck q) s = .next t ∧ t = { s with sqs := t.sqs } ∧ s.SqStops t q 0xFD ∧
        (t.sq q).failedCheck = true) ∧
      (pa + 256 ≤ s.dramSize →
        (R.dm = 3 ∨ (ws.getD 1 0).extractLsb' 0 4 ≠ 1 ∨ R.codeBase % 256 ≠ 0 ∨ R.spad % 256 ≠ 0 ∨ R.stride % 64 ≠ 0 ∨ R.obquota % 4096 ≠ 0 ∨
          R.privBase % 64 ≠ 0 ∨ R.status % 16 ≠ 0 → code = (1, 0)) ∧
        (code.1 ≠ 0 → ∃ t, exec (.recordCheck q) s = .next t ∧ s.SqStops t q code.1 ∧ (t.sq q).failedCheck = true ∧ t.launches = s.launches ∧
          (R.status = 0 ∨ R.status % 16 ≠ 0 → t.mem = s.mem)) ∧
        (code.1 = 0 → ∃ t, exec (.recordCheck q) s = .next t ∧
          t = { s with nextId := s.nextId + 1, launches := t.launches, submits := t.submits, sqs := t.sqs } ∧
          t.sq q = { Q with head := (Q.head + 1) % 2 ^ 32, last := some s.nextId } ∧ (∀ k, k ≠ q → t.sq k = s.sq k) ∧
          t.launches = s.launches.put s.nextId { (t.launch s.nextId) with lrec := R, queue := q, part := Q.part, state := .checked, prev := Q.last
                                                                          nextBlock := 0, ending := false })) := by
  intro Q n henable hstopped hne pa ws R code
  have hfree := State.streamState_of_free hstreams
  have hnot : s.streamState q ≠ 3 := by omega
  have hdue : s.checkDue q = true := (State.checkDue_iff hq hfree).mpr ⟨henable, hstopped, hne⟩
  have hwords : s.headRecord q = ws := State.dwordsOf_bytes s _
  refine ⟨fun hout => ?_, fun hfits => ⟨fun hbad => State.recordCheck_illegal (fieldsLegal_eq_false hbad), fun hcode => ?_,
    fun hcode => ?_⟩⟩
  · exact ⟨_, State.exec_recordCheck_unfitted hdue hout, rfl, State.stops_of_sqs rfl hnot _ _, s.failedCheck_stopQueue q _⟩
  · have hexec := State.exec_recordCheck_fails hdue (Nat.not_lt.mpr hfits) (by rw [hwords]; exact hcode)
    rw [hwords] at hexec
    have hbytes := s.onlyBytes_failRecord R code
    have hstream : (s.failRecord R code).streamState q ≠ 3 := fun e => hnot ((hbytes.streamState q).symm.trans e)
    have hkept : R.status = 0 ∨ R.status % 16 ≠ 0 → (s.failRecord R code).mem = s.mem := fun hstatus => congrArg State.mem (if_pos hstatus)
    have hlaunches := hbytes.launches
    have hsqs := hbytes.sqs
    generalize s.failRecord R code = u at hexec hstream hkept hlaunches hsqs
    exact ⟨_, hexec, State.stops_of_sqs hsqs hstream _ _, u.failedCheck_stopQueue q _, hlaunches, hkept⟩
  · have hzero : (s.recordCheck q (s.headRecord q)).1 = 0 := (congrArg (fun w => (s.recordCheck q w).1) hwords).trans hcode
    have hexec := State.exec_recordCheck_passes hdue (Nat.not_lt.mpr hfits) hzero
    rw [hwords] at hexec
    refine ⟨_, hexec, rfl, State.sq_of_put_self rfl, fun k hk => State.sq_of_put_ne rfl hk, ?_⟩
    have hlaunch (u : State) (hu : u.launches = s.launches.put s.nextId (s.newLaunch q R)) : u.launch s.nextId = s.newLaunch q R := by
      rw [State.launch, hu, FMap.findD_put, if_pos rfl]
    rw [hlaunch _ rfl]
    rfl

/-- The clauses of O49 for the readiness of a launch. -/
theorem launchEvents_ready (s : State) (l : Nat) (L : Launch) (hl : s.launches.find l = some L) (hstate : L.state = .checked)
    (hending : L.ending = false) :
    let Q := s.sq L.queue
    let due : Prop := (L.lrec.waitEn = true → L.lrec.threshold.toNat ≤ (s.counter L.lrec.waitCtr).toNat) ∧
      (∀ k P, L.prev = some k → s.launches.find k = some P → P.state = .complete ∨ (Q.overlap = true ∧ s.allDispatched k = true)) ∧
      ¬ (Q.stopped = true ∧ Q.launchStop = true)
    (due → exec (.launchReady l) s = .next { s with
      launches := s.launches.adjust l fun L => { L with state := .ready, readyAt := s.now, noRoomSince := s.now } }) ∧
    (¬ due → exec (.launchReady l) s = .next s) := by
  intro Q due
  have hdue := State.readyDue_iff hl hstate hending
  rw [exec_launchReady, execLaunchReady, event]
  exact ⟨fun h => congrArg _ (if_pos (hdue.mpr h)), fun h => congrArg _ (if_neg (mt hdue.mp h))⟩

end Sys2Proof
end

