-- ==== Sys2Proof/Proofs/BlockDispatch.lean ====
section
/-!
The dispatch of a block (R74, R75, R84, R86): the choice of a core, and the issue groups in which the threads of a block start.
-/

namespace Sys2Proof

/-- The least element of a rising list: of equals the first. -/
theorem Machine.leastBy_least {f : Nat → Nat} {l : List Nat} (hl : l.Pairwise (· < ·)) {x : Nat} (h : Machine.leastBy f l = some x) :
    ∀ y ∈ l, f x < f y ∨ f x = f y ∧ x ≤ y := by
  induction l generalizing x with
  | nil => cases h
  | cons a r ih =>
    obtain ⟨ha, hr⟩ := List.pairwise_cons.mp hl
    rw [Machine.leastBy] at h
    split at h
    next hnone =>
      cases r with
      | nil =>
        intro y hy
        rw [List.mem_singleton.mp hy, Option.some.inj h]
        exact .inr ⟨rfl, Nat.le_refl _⟩
      | cons b t =>
        obtain ⟨z, hz⟩ := Machine.leastBy_some f (b :: t) (List.cons_ne_nil b t)
        cases hnone.symm.trans hz
    next z hz =>
      have hleast := ih hr hz
      intro y hy
      split at h
      next hlt =>
        cases h
        rcases List.mem_cons.mp hy with rfl | hy
        · exact .inl hlt
        · exact hleast y hy
      next hge =>
        cases h
        rcases List.mem_cons.mp hy with rfl | hy
        · exact .inr ⟨rfl, Nat.le_refl _⟩
        · have hlt := ha y hy
          rcases hleast y hy with h | ⟨h, -⟩ <;> omega

theorem FMap.put_eq_append {α : Type} {m : FMap α} {n : Nat} (x : α) (h : ∀ p ∈ m, p.1 < n) : m.put n x = m ++ [(n, x)] := by
  induction m with
  | nil => rfl
  | cons p r ih =>
    obtain ⟨k, v⟩ := p
    have hk : k < n := h (k, v) List.mem_cons_self
    rw [FMap.put, if_neg (by omega), if_neg (by omega), ih fun q hq => h q (List.mem_cons_of_mem _ hq)]
    rfl

theorem FMap.find_filter_key {α : Type} (m : FMap α) (p : Nat → Bool) (k : Nat) :
    FMap.find (m.filter fun q => p q.1) k = if p k then m.find k else none := by
  induction m with
  | nil => simp [FMap.find]
  | cons q r ih =>
    obtain ⟨j, v⟩ := q
    by_cases hj : p j = true
    · rw [List.filter_cons_of_pos (p := fun q : Nat × α => p q.1) hj, FMap.find, FMap.find]
      by_cases hkj : k = j
      · rw [if_pos hkj, if_pos hkj, hkj, if_pos hj]
      · rw [if_neg hkj, if_neg hkj, ih]
    · rw [List.filter_cons_of_neg (p := fun q : Nat × α => p q.1) hj, ih, FMap.find]
      by_cases hkj : k = j
      · rw [hkj, if_neg hj, if_neg hj]
      · rw [if_neg hkj]

theorem FMap.find_isSome_of_mem {α : Type} {m : FMap α} {p : Nat × α} (h : p ∈ m) : (m.find p.1).isSome = true := by
  induction m with
  | nil => cases h
  | cons q r ih =>
    obtain ⟨k, v⟩ := q
    rw [FMap.find]
    split
    · rfl
    next hne =>
      rcases List.mem_cons.mp h with rfl | h
      · exact absurd rfl hne
      · exact ih h

namespace Machine

theorem upFrom_pairwise (lo n : Nat) : (upFrom lo n).Pairwise (· < ·) := by
  rw [upFrom_eq_range']
  exact List.pairwise_lt_range'

theorem State.byte_zeroBytes (s : State) (pa n x : Nat) : (s.zeroBytes pa n).byte x = if pa ≤ x ∧ x < pa + n then 0 else s.byte x := by
  have hfind := FMap.find_filter_key s.mem (fun k => decide (k < pa) || decide (pa + n ≤ k)) x
  have hbyte : (s.zeroBytes pa n).byte x = (FMap.find (s.mem.filter fun p => decide (p.1 < pa) || decide (pa + n ≤ p.1)) x).getD 0 := rfl
  rw [hbyte, hfind]
  by_cases h : pa ≤ x ∧ x < pa + n
  · rw [if_pos h, if_neg (by simp; omega), Option.getD_none]
  · rw [if_neg h, if_pos (by simp; omega)]
    rfl

theorem State.launch_of_find {s : State} {l : Nat} {L : Launch} (h : s.launches.find l = some L) : s.launch l = L := by
  rw [State.launch, FMap.findD, h, Option.getD_some]

theorem State.launch_modLaunch_self {s : State} {l : Nat} {L : Launch} (h : s.launches.find l = some L) (f : Launch → Launch) :
    (s.modLaunch l f).launch l = f L := by
  refine State.launch_of_find ?_
  rw [State.modLaunch_launches, FMap.find_adjust, if_pos rfl, h, Option.map_some]

/-! ## One issue group (R74, R75) -/

/-- The issue group in which overall group `g` of a block starts on a run of slots. -/
def LRec.startingGroup (R : LRec) (b core g run at_ : Nat) : Group where
  core := core
  quarter := run / 8
  block := b
  pc := (R.codeBase + ((R.roles[(roleOf R.roles 0 g).1]?).map Role.entry).getD 0) % 2 ^ 52
  lanes := upFrom (1024 * core + 32 * run) 32
  slot := none
  readyAt := at_
  since := at_
  oppsAt := 0
  candidate := false
  yieldLeft := 0
  wait := none
  causes := 0
  masks := []
  faults := []
  inHandler := false
  enterAt := 0
  resumePc := 0
  resumeMask := 0
  deliver := none
  memHold := []
  paused := none

/-- A thread of a block as it starts in an issue group. -/
def State.starting (s : State) (b g k u : Nat) : Thread :=
  { (s.recOf b).startThread b (s.block b).index (s.block b).ctx g (laneOf u) with disp := .group k, ctxGen := s.genOf (s.block b).ctx }

/-- The threads of an issue group stand in their slots. -/
def State.placeThreads (s : State) (f : Nat → Thread) (ts : List Nat) : State := ts.foldl (fun s t => s.setThread t (f t)) s

theorem State.placeThreads_eq (s : State) (f : Nat → Thread) (ts : List Nat) :
    s.placeThreads f ts = { s with threads := (s.placeThreads f ts).threads } := by
  induction ts generalizing s with
  | nil => rfl
  | cons t r ih => exact ih (s.setThread t (f t))

theorem State.thread_placeThreads (s : State) (f : Nat → Thread) (ts : List Nat) (u : Nat) :
    (s.placeThreads f ts).thread u = if u ∈ ts then f u else s.thread u := by
  induction ts generalizing s with
  | nil => rfl
  | cons t r ih =>
    refine (ih (s.setThread t (f t))).trans ?_
    rw [State.thread_setThread]
    by_cases hr : u ∈ r
    · rw [if_pos hr, if_pos (List.mem_cons_of_mem t hr)]
    · by_cases ht : u = t
      · rw [if_neg hr, if_pos ht, if_pos (ht ▸ List.mem_cons_self), ht]
      · rw [if_neg hr, if_neg ht, if_neg (by simp [ht, hr])]

theorem State.foldl_setThread_genOf (s : State) (k : Nat) (f : Nat → Nat → Thread) (ts : List Nat) :
    ts.foldl (fun s t => s.setThread t (f (s.genOf k) t)) s = s.placeThreads (f (s.genOf k)) ts := by
  induction ts generalizing s with
  | nil => rfl
  | cons t r ih => exact ih (s.setThread t (f (s.genOf k) t))

theorem State.startGroup_eq_takeSlot (s : State) (b core g run at_ : Nat) : s.startGroup b core g run at_ =
    ((s.placeThreads (s.starting b g s.nextId) (upFrom (1024 * core + 32 * run) 32)).fresh.setGroup s.nextId
      ((s.recOf b).startingGroup b core g run at_)).takeSlot s.nextId := by
  have hplace := s.foldl_setThread_genOf (s.block b).ctx (fun e u =>
    { (s.recOf b).startThread b (s.block b).index (s.block b).ctx g (laneOf u) with disp := .group s.nextId, ctxGen := e })
    (upFrom (1024 * core + 32 * run) 32)
  exact congrArg (fun t : State => (t.fresh.setGroup s.nextId ((s.recOf b).startingGroup b core g run at_)).takeSlot s.nextId) hplace

/-- Nothing differs between two states but threads, issue groups and the next number. -/
def State.OnlyStarts (s t : State) : Prop := t = { s with threads := t.threads, groups := t.groups, nextId := t.nextId }

theorem State.OnlyStarts.trans {s t u : State} (h : s.OnlyStarts t) (k : t.OnlyStarts u) : s.OnlyStarts u := by
  unfold State.OnlyStarts at *
  rw [k, h]

section
variable {s t : State} (h : s.OnlyStarts t)
include h

theorem State.OnlyStarts.blocks : t.blocks = s.blocks := by rw [h]
theorem State.OnlyStarts.launches : t.launches = s.launches := by rw [h]
theorem State.OnlyStarts.mem : t.mem = s.mem := by rw [h]

theorem State.OnlyStarts.starting (b g k u : Nat) : t.starting b g k u = s.starting b g k u := by
  rw [h]
  rfl

theorem State.OnlyStarts.recOf (b : Nat) : t.recOf b = s.recOf b := by
  rw [h]
  rfl

end

theorem State.onlyStarts_setThread (s : State) (t : Nat) (T : Thread) : s.OnlyStarts (s.setThread t T) := rfl

theorem State.onlyStarts_placeThreads (s : State) (f : Nat → Thread) (ts : List Nat) : s.OnlyStarts (s.placeThreads f ts) := by
  induction ts generalizing s with
  | nil => rfl
  | cons t r ih => exact (s.onlyStarts_setThread t (f t)).trans (ih _)

theorem State.onlyStarts_takeSlot (s : State) (k : Nat) : s.OnlyStarts (s.takeSlot k) := by
  rw [State.takeSlot_eq]
  rfl

theorem State.onlyStarts_setGroup (s : State) (k : Nat) (G : Group) : s.OnlyStarts (s.fresh.setGroup k G) := rfl

theorem State.onlyStarts_startGroup (s : State) (b core g run at_ : Nat) : s.OnlyStarts (s.startGroup b core g run at_) := by
  rw [State.startGroup_eq_takeSlot]
  exact ((s.onlyStarts_placeThreads _ _).trans (State.onlyStarts_setGroup _ _ _)).trans (State.onlyStarts_takeSlot _ _)

theorem State.nextId_takeSlot (s : State) (k : Nat) : (s.takeSlot k).nextId = s.nextId := by
  rw [State.takeSlot_eq]

theorem State.nextId_placeThreads (s : State) (f : Nat → Thread) (ts : List Nat) : (s.placeThreads f ts).nextId = s.nextId := by
  rw [State.placeThreads_eq]

theorem State.groups_placeThreads (s : State) (f : Nat → Thread) (ts : List Nat) : (s.placeThreads f ts).groups = s.groups := by
  rw [State.placeThreads_eq]

theorem State.nextId_startGroup (s : State) (b core g run at_ : Nat) : (s.startGroup b core g run at_).nextId = s.nextId + 1 := by
  rw [State.startGroup_eq_takeSlot, State.nextId_takeSlot]
  exact congrArg Nat.succ (s.nextId_placeThreads _ _)

theorem State.thread_takeSlot (s : State) (k u : Nat) : (s.takeSlot k).thread u = s.thread u := by
  rw [State.takeSlot_eq]
  rfl

theorem State.thread_fresh_setGroup (s : State) (k : Nat) (G : Group) (u : Nat) : (s.fresh.setGroup k G).thread u = s.thread u := rfl

theorem State.thread_startGroup (s : State) (b core g run at_ u : Nat) : (s.startGroup b core g run at_).thread u =
    if u ∈ upFrom (1024 * core + 32 * run) 32 then s.starting b g s.nextId u else s.thread u := by
  rw [State.startGroup_eq_takeSlot, State.thread_takeSlot, State.thread_fresh_setGroup, State.thread_placeThreads]

theorem State.find_startGroup_self (s : State) (b core g run at_ : Nat) : ∃ G,
    (s.startGroup b core g run at_).groups.find s.nextId = some G ∧ G = { (s.recOf b).startingGroup b core g run at_ with
      slot := G.slot, since := G.since, oppsAt := G.oppsAt, candidate := G.candidate } := by
  rw [State.startGroup_eq_takeSlot]
  generalize s.placeThreads _ _ = t
  generalize (s.recOf b).startingGroup b core g run at_ = G
  rw [State.takeSlot_of_find (s := t.fresh.setGroup s.nextId G) (FMap.find_put_self _ _ _)]
  exact ⟨_, FMap.find_put_self _ _ _, rfl⟩

theorem State.find_startGroup_ne (s : State) (b core g run at_ : Nat) {k : Nat} (hk : k ≠ s.nextId) :
    (s.startGroup b core g run at_).groups.find k = s.groups.find k := by
  rw [State.startGroup_eq_takeSlot, State.groups_takeSlot _ _ _ hk]
  have hgroups := s.groups_placeThreads (s.starting b g s.nextId) (upFrom (1024 * core + 32 * run) 32)
  generalize s.placeThreads _ _ = t at hgroups ⊢
  rw [← hgroups]
  exact FMap.find_put_ne _ _ _ _ hk

/-! ## The groups of a block -/

/-- Overall group `g` of a block has started on a run of slots. -/
def State.Begun (s : State) (b core g run : Nat) : Prop := ∃ k G, k < s.nextId ∧ s.groups.find k = some G ∧
  (∃ at_, G = { (s.recOf b).startingGroup b core g run at_ with
    slot := G.slot, since := G.since, oppsAt := G.oppsAt, candidate := G.candidate }) ∧
  ∀ u ∈ upFrom (1024 * core + 32 * run) 32, s.thread u = s.starting b g k u

theorem State.begun_startGroup (s : State) (b core g run at_ : Nat) : (s.startGroup b core g run at_).Begun b core g run := by
  obtain ⟨G, hG, hstarts⟩ := s.find_startGroup_self b core g run at_
  have honly := s.onlyStarts_startGroup b core g run at_
  refine ⟨s.nextId, G, (s.nextId_startGroup b core g run at_).symm ▸ Nat.lt_succ_self _, hG, ⟨at_, ?_⟩, fun u hu => ?_⟩
  · rw [honly.recOf]
    exact hstarts
  · rw [honly.starting, State.thread_startGroup, if_pos hu]

/-- Another group of the block that starts on other slots leaves it as it is. -/
theorem State.Begun.startGroup {s : State} {b core g run : Nat} (h : s.Begun b core g run) {g' run' : Nat} (hne : run' ≠ run) (at_ : Nat) :
    (s.startGroup b core g' run' at_).Begun b core g run := by
  obtain ⟨k, G, hk, hG, hstarts, hthreads⟩ := h
  have honly := s.onlyStarts_startGroup b core g' run' at_
  refine ⟨k, G, ?_, (s.find_startGroup_ne b core g' run' at_ (Nat.ne_of_lt hk)).trans hG, ?_, fun u hu => ?_⟩
  · rw [State.nextId_startGroup]
    exact Nat.lt_succ_of_lt hk
  · rw [honly.recOf]
    exact hstarts
  · rw [honly.starting, State.thread_startGroup, if_neg, hthreads u hu]
    rw [mem_upFrom] at hu ⊢
    omega

/-- The groups of a block start, each on its run of slots. -/
def State.startGroups (s : State) (b core at_ : Nat) (rs : List (Nat × Nat)) : State :=
  rs.foldl (fun s r => s.startGroup b core r.2 r.1 at_) s

theorem State.onlyStarts_startGroups (s : State) (b core at_ : Nat) (rs : List (Nat × Nat)) :
    s.OnlyStarts (s.startGroups b core at_ rs) := by
  induction rs generalizing s with
  | nil => rfl
  | cons r t ih => exact (s.onlyStarts_startGroup b core r.2 r.1 at_).trans (ih _)

theorem State.Begun.startGroups {s : State} {b core g run : Nat} (h : s.Begun b core g run) (at_ : Nat) {rs : List (Nat × Nat)}
    (hne : ∀ r ∈ rs, r.1 ≠ run) : (s.startGroups b core at_ rs).Begun b core g run := by
  induction rs generalizing s with
  | nil => exact h
  | cons r t ih =>
    exact ih (h.startGroup (hne r List.mem_cons_self) at_) fun q hq => hne q (List.mem_cons_of_mem r hq)

theorem State.begun_startGroups (s : State) (b core at_ : Nat) {rs : List (Nat × Nat)} (hn : (rs.map Prod.fst).Nodup) :
    ∀ r ∈ rs, (s.startGroups b core at_ rs).Begun b core r.2 r.1 := by
  induction rs generalizing s with
  | nil => exact fun r hr => absurd hr List.not_mem_nil
  | cons r t ih =>
    obtain ⟨hr, ht⟩ := List.nodup_cons.mp hn
    intro q hq
    rcases List.mem_cons.mp hq with rfl | hq
    · exact (s.begun_startGroup b core q.2 q.1 at_).startGroups at_ fun p hp e => hr (e ▸ List.mem_map_of_mem hp)
    · exact ih (s.startGroup b core r.2 r.1 at_) ht q hq

/-! ## One block (R75, R140) -/

/-- Nothing differs between two states but bytes of memory and the power of scratchpad banks. -/
def State.OnlyBanks (s t : State) : Prop := t = { s with mem := t.mem, spadBanks := t.spadBanks, spadWakes := t.spadWakes }

theorem State.OnlyBanks.trans {s t u : State} (h : s.OnlyBanks t) (k : t.OnlyBanks u) : s.OnlyBanks u := by
  unfold State.OnlyBanks at *
  rw [k, h]

theorem State.onlyBanks_fullBank (s : State) (core k : Nat) : s.OnlyBanks (s.fullBank core k) := by
  unfold State.fullBank
  dsimp only
  split <;> rfl

/-- The banks of a block's scratchpad are FULL. -/
def State.fullBanks (s : State) (core : Nat) (ks : List Nat) : State := ks.foldl (fun s k => s.fullBank core k) s

theorem State.onlyBanks_fullBanks (s : State) (core : Nat) (ks : List Nat) : s.OnlyBanks (s.fullBanks core ks) := by
  induction ks generalizing s with
  | nil => rfl
  | cons k r ih => exact (s.onlyBanks_fullBank core k).trans (ih _)

/-- A block at its site, with nothing of an earlier run. -/
def State.settleAnew (s : State) (b : Nat) (x : Site) : State :=
  (s.settleAt b x).modBlock b fun B => { B with
    lead := BSide.init, follow := BSide.init, ran := 0, items := [], itemNo := [], matched := 0, gbarIn := [], ssyncIn := [] }

/-- A block at its site on one core, its scratchpad zero and no thread there yet. -/
def State.readyAt (s : State) (b : Nat) (x : Site) : State :=
  ((s.settleAnew b x).fullBanks x.core (banksOf x.spadAt ((s.settleAnew b x).recOf b).spad)).zeroBytes (spadPa x.core x.spadAt)
    ((s.settleAnew b x).recOf b).spad

theorem State.startBlock_alone (s : State) (b : Nat) {x : Site} (hx : x.follower = none) : ∃ at_,
    s.startBlock b x = (s.readyAt b x).startGroups b x.core at_ x.runs.zipIdx := by
  refine ⟨(s.settleAnew b x).clk x.core + 0, ?_⟩
  unfold State.startBlock
  rw [hx]
  simp only [List.foldl_cons, List.foldl_nil, if_pos]
  rfl

theorem State.onlyBanks_readyAt (s : State) (b : Nat) (x : Site) : (s.settleAnew b x).OnlyBanks (s.readyAt b x) :=
  ((s.settleAnew b x).onlyBanks_fullBanks _ _).trans rfl

theorem State.byte_readyAt (s : State) (b : Nat) (x : Site) {k : Nat} (hk : k < ((s.settleAnew b x).recOf b).spad) :
    (s.readyAt b x).byte (spadPa x.core (x.spadAt + k)) = 0 := by
  have hpa : spadPa x.core (x.spadAt + k) = spadPa x.core x.spadAt + k := by
    unfold spadPa
    omega
  rw [State.readyAt, State.byte_zeroBytes, if_pos (by omega)]

theorem State.block_settleAnew {s : State} {b : Nat} {B : Block} (h : s.blocks.find b = some B) (x : Site) :
    (s.settleAnew b x).block b = { B with
      core := x.core, follower := x.follower, gslots := x.runs, spadAt := x.spadAt, obAt := x.obAt
      home := x.runs.headD 0 / 8, residence := .resident, dispatchedAt := s.clk x.core, notice := false, chosen := 0, going := false
      exchange := none, overrun := 0, overLen := 0, image := none
      lead := BSide.init, follow := BSide.init, ran := 0, items := [], itemNo := [], matched := 0, gbarIn := [], ssyncIn := [] } := by
  simp only [State.block, FMap.findD, State.settleAnew, State.settleAt, State.modBlock, FMap.find_adjust, if_true, h, Option.map_some,
    Option.getD_some]

/-! ## The unit that is dispatched (R84, R86) -/

theorem mem_rankInsert {p q : Nat × Launch} {r : List (Nat × Launch)} : q ∈ rankInsert p r ↔ q = p ∨ q ∈ r := by
  induction r with
  | nil => simp [rankInsert]
  | cons a r ih =>
    rw [rankInsert]
    split
    · exact List.mem_cons
    · rw [List.mem_cons, ih, List.mem_cons]
      tauto

theorem mem_foldl_rankInsert {q : Nat × Launch} (l acc : List (Nat × Launch)) :
    q ∈ l.foldl (fun r p => rankInsert p r) acc ↔ q ∈ l ∨ q ∈ acc := by
  induction l generalizing acc with
  | nil => simp
  | cons a r ih =>
    rw [List.foldl_cons, ih, mem_rankInsert, List.mem_cons]
    tauto

theorem State.mem_launches_of_ranked {s : State} {part : Nat} {p : Nat × Launch} (h : p ∈ s.ranked part) : p ∈ s.launches := by
  rcases (mem_foldl_rankInsert _ _).mp h with h | h
  · exact (List.mem_filter.mp h).1
  · cases h

theorem State.firstFit_some {s : State} {part l : Nat} {o : Offer} {xs : List Site} (h : s.firstFit part = some (l, o, xs)) :
    (∃ L, s.launches.find l = some L) ∧ s.nextOffer l = some o ∧ s.planOffer l o = some xs := by
  obtain ⟨p, hp, hfits⟩ := List.exists_of_findSome?_eq_some h
  obtain ⟨o', ho, hplan⟩ := Option.bind_eq_some_iff.mp hfits
  obtain ⟨xs', hxs, heq⟩ := Option.map_eq_some_iff.mp hplan
  obtain ⟨rfl, rfl, rfl⟩ : p.1 = l ∧ o' = o ∧ xs' = xs := by simpa using heq
  exact ⟨Option.isSome_iff_exists.mp (FMap.find_isSome_of_mem (State.mem_launches_of_ranked hp)), ho, hxs⟩

theorem State.nextOffer_fresh {s : State} {l first n : Nat} (h : s.nextOffer l = some (.fresh first n)) :
    s.blocksIn l .waiting = [] ∧ first = (s.launch l).nextBlock := by
  unfold State.nextOffer at h
  dsimp only at h
  split at h
  · cases h
  · split at h
    · split at h <;> cases h
    next hwaiting =>
      split at h
      · cases h
        exact ⟨hwaiting, rfl⟩
      · cases h

/-- Insertion by index. -/
def indexInsert (acc : List (Nat × Nat)) (p : Nat × Block) : List (Nat × Nat) :=
  (acc.takeWhile fun q : Nat × Nat => decide (q.2 < p.2.index)) ++ (p.1, p.2.index) ::
    (acc.dropWhile fun q : Nat × Nat => decide (q.2 < p.2.index))

theorem length_foldl_indexInsert (bs : FMap Block) (acc : List (Nat × Nat)) :
    (bs.foldl indexInsert acc).length = acc.length + bs.length := by
  induction bs generalizing acc with
  | nil => rfl
  | cons p r ih =>
    have hsplit := congrArg List.length (List.takeWhile_append_dropWhile (p := fun q : Nat × Nat => decide (q.2 < p.2.index)) (l := acc))
    rw [List.length_append] at hsplit
    rw [List.foldl_cons, ih, indexInsert, List.length_append, List.length_cons, List.length_cons]
    omega

theorem State.blocksIn_eq (s : State) (l : Nat) (r : Residence) : s.blocksIn l r =
    ((s.blocks.filter fun p => p.2.launch == l && p.2.residence == r).foldl indexInsert []).map Prod.fst := rfl

theorem State.filter_of_blocksIn_nil {s : State} {l : Nat} {r : Residence} (h : s.blocksIn l r = []) :
    (s.blocks.filter fun p => p.2.launch == l && p.2.residence == r) = [] := by
  have hlen := congrArg List.length h
  rw [State.blocksIn_eq, List.length_map, length_foldl_indexInsert] at hlen
  exact List.eq_nil_of_length_eq_zero (by simpa using hlen)

/-! ## The choice of a core (R86) -/

theorem State.coresFor_pairwise (s : State) (part il : Nat) (ever : Bool) : (s.coresFor part il ever).Pairwise (· < ·) := by
  unfold State.coresFor
  dsimp only
  refine List.pairwise_flatMap.mpr ⟨fun x _ => upFrom_pairwise _ _, ?_⟩
  refine List.Pairwise.imp (R := (· < ·)) (fun {a c} hac y hy z hz => ?_) ((upFrom_pairwise _ _).filter _)
  rw [mem_upFrom] at hy hz
  split at hy <;> split at hz <;> omega

theorem State.openCores_pairwise (s : State) (l : Nat) : (s.openCores l).Pairwise (· < ·) := (s.coresFor_pairwise _ _ _).filter _

theorem State.teamOn_one (s : State) (l core : Nat) (S : BSide) : s.teamOn l core [S] =
    (s.siteOn (s.launch l).lrec core S).map fun x => ([x], s.ghost l S x) := by
  rw [State.teamOn]
  cases s.siteOn (s.launch l).lrec core S <;> rfl

/-- A unit of one block goes to the open core with the fewest resident blocks that has room for it, the lowest among equals. -/
theorem State.planUnit_one {s : State} {l : Nat} {cores : List Nat} (hcores : cores.Pairwise (· < ·))
    (hgang : (s.launch l).lrec.gangLevel = none) (hteam : (s.launch l).lrec.teamSize = 1) {x : Site}
    (h : s.planUnit l cores = some [x]) : ∃ c ∈ cores, s.siteOn (s.launch l).lrec c BSide.init = some x ∧
      ∀ d ∈ cores, (s.siteOn (s.launch l).lrec d BSide.init).isSome →
        (s.residents c).length < (s.residents d).length ∨ (s.residents c).length = (s.residents d).length ∧ c ≤ d := by
  have hunit : s.planUnit l cores = s.teamsOn l cores [[BSide.init]] := by
    rw [State.planUnit, hgang, hteam]
    rfl
  have hfits (d : Nat) : (s.teamOn l d [BSide.init]).isSome = (s.siteOn (s.launch l).lrec d BSide.init).isSome := by
    rw [State.teamOn_one, Option.isSome_map]
  rw [hunit, State.teamsOn] at h
  split at h
  · cases h
  next c hc =>
    have hleast := leastBy_least (hcores.filter _) hc
    obtain ⟨hmem, -⟩ := List.mem_filter.mp (leastBy_mem _ _ _ hc)
    rw [State.teamOn_one] at h
    cases hsite : s.siteOn (s.launch l).lrec c BSide.init with
    | none =>
      rw [hsite] at h
      cases h
    | some y =>
      rw [hsite] at h
      obtain rfl : y = x := by simpa [State.teamsOn] using h
      exact ⟨c, hmem, hsite, fun d hd hd' => hleast d (List.mem_filter.mpr ⟨hd, (hfits d).trans hd'⟩)⟩

/-- What a site is on a core without a follower. -/
theorem State.siteOn_some {s : State} {R : LRec} {c : Nat} {S : BSide} {x : Site} (hil : R.il < 2) (h : s.siteOn R c S = some x) :
    x.core = c ∧ x.follower = none ∧ x.runs.Nodup ∧ x.runs.length = R.groupCount := by
  have hil : ¬ 2 ≤ R.il := by omega
  unfold State.siteOn at h
  simp only [if_neg hil] at h
  split at h
  next hroom =>
    split at h
    next _ _ r _ _ hr =>
      obtain rfl := Option.some.inj h
      have hmem := List.mem_of_find?_eq_some hr
      have hnodup := (upFrom_pairwise 0 32).imp (S := (· ≠ ·)) Nat.ne_of_lt
      generalize hruns : ((upFrom 0 32).filter fun r => [c].all fun c => s.runFree c R r) = runs at hroom hmem
      have hruns' : runs.Nodup := hruns ▸ hnodup.filter _
      refine ⟨rfl, rfl, List.Nodup.sublist (List.take_sublist _ _) (List.nodup_cons.mpr ⟨by simp, hruns'.filter _⟩), ?_⟩
      have hlen : (runs.filter (· != r)).length + 1 = runs.length := by
        rw [← hruns'.erase_eq_filter, List.length_erase_of_mem hmem]
        have := List.length_pos_of_mem hmem
        omega
      rw [List.length_take, List.length_cons, hlen]
      omega
    next => cases h
  · cases h

/-! ## BLOCK_DISPATCH of one block without a context -/

/-- A block of a launch comes to be, and waits for its place. -/
def State.beginBlock (s : State) (l first : Nat) : State :=
  { s.modLaunch l fun L => { L with nextBlock := L.nextBlock + 1 } with
    nextId := s.nextId + 1
    blocks := s.blocks.put s.nextId { Block.init with launch := l, index := first, residence := .waiting, waitingSince := s.now } }

theorem State.makeBlocks_one (s : State) (l first : Nat) :
    (s.modLaunch l fun L => { L with nextBlock := L.nextBlock + 1 }).makeBlocks l first 1 = s.beginBlock l first := rfl

theorem State.blocksIn_beginBlock {s : State} {l : Nat} (hwaiting : s.blocksIn l .waiting = [])
    (hkeys : ∀ p ∈ s.blocks, p.1 < s.nextId) (first : Nat) : (s.beginBlock l first).blocksIn l .waiting = [s.nextId] := by
  have hblocks : (s.beginBlock l first).blocks = s.blocks ++ [(s.nextId, { Block.init with
    launch := l, index := first, residence := .waiting, waitingSince := s.now })] := FMap.put_eq_append _ hkeys
  have hnone := State.filter_of_blocksIn_nil hwaiting
  rw [State.blocksIn_eq, hblocks, List.filter_append, hnone]
  simp [indexInsert]

theorem State.dispatchUnit_fresh_one {s : State} {l first : Nat} {x : Site} (hctx : (s.launch l).lrec.needsCtx = false)
    (hwaiting : s.blocksIn l .waiting = []) (hkeys : ∀ p ∈ s.blocks, p.1 < s.nextId) :
    s.dispatchUnit l (.fresh first 1) [x] = ((s.beginBlock l first).startBlock s.nextId x).foundRoom l := by
  unfold State.dispatchUnit
  dsimp only
  rw [if_neg (by rw [hctx]; decide), State.makeBlocks_one, State.blocksIn_beginBlock hwaiting hkeys]
  rfl

theorem State.exec_blockDispatch_fresh {s : State} {part l first n : Nat} {xs : List Site}
    (h : s.firstFit part = some (l, .fresh first n, xs)) :
    exec (.blockDispatch part) s = .next (s.dispatchUnit l (.fresh first n) xs) := by
  have hnext : s.dispatchNext part = some (l, .fresh first n, xs) := by
    rw [State.dispatchNext, h]
  rw [exec_blockDispatch, execBlockDispatch, event, if_pos (by rw [hnext]; rfl), hnext]

/-! ## What a block finds at its start (R75) -/

section
variable {s : State} {b : Nat} {B : Block} (hB : s.blocks.find b = some B) {x : Site} (hx : x.follower = none)
include hx

theorem State.launches_startBlock : (s.startBlock b x).launches = s.launches := by
  obtain ⟨at_, hstart⟩ := s.startBlock_alone b hx
  have hbanks := s.onlyBanks_readyAt b x
  rw [hstart, (State.onlyStarts_startGroups _ _ _ _ _).launches, hbanks]
  rfl

theorem State.begun_startBlock (hruns : x.runs.Nodup) : ∀ r ∈ x.runs.zipIdx, (s.startBlock b x).Begun b x.core r.2 r.1 := by
  obtain ⟨at_, hstart⟩ := s.startBlock_alone b hx
  rw [hstart]
  exact State.begun_startGroups _ _ _ _ (by rwa [List.zipIdx_map_fst])

include hB

theorem State.block_startBlock : (s.startBlock b x).block b = { B with
    core := x.core, follower := x.follower, gslots := x.runs, spadAt := x.spadAt, obAt := x.obAt
    home := x.runs.headD 0 / 8, residence := .resident, dispatchedAt := s.clk x.core, notice := false, chosen := 0, going := false
    exchange := none, overrun := 0, overLen := 0, image := none
    lead := BSide.init, follow := BSide.init, ran := 0, items := [], itemNo := [], matched := 0, gbarIn := [], ssyncIn := [] } := by
  obtain ⟨at_, hstart⟩ := s.startBlock_alone b hx
  have hbanks := s.onlyBanks_readyAt b x
  rw [hstart, State.block, (State.onlyStarts_startGroups _ _ _ _ _).blocks, hbanks]
  exact State.block_settleAnew hB x

theorem State.recOf_startBlock : (s.startBlock b x).recOf b = (s.launch B.launch).lrec := by
  rw [State.recOf, State.launchOf, State.block_startBlock hB hx, State.launch, State.launches_startBlock hx]
  rfl

theorem State.byte_startBlock {k : Nat} (hk : k < (s.launch B.launch).lrec.spad) :
    (s.startBlock b x).byte (spadPa x.core (x.spadAt + k)) = 0 := by
  obtain ⟨at_, hstart⟩ := s.startBlock_alone b hx
  have hrec : (s.settleAnew b x).recOf b = (s.launch B.launch).lrec := by
    rw [State.recOf, State.launchOf, State.block_settleAnew hB]
    rfl
  have hzero := s.byte_readyAt b x (hrec.symm ▸ hk)
  rw [hstart, State.byte, (State.onlyStarts_startGroups _ _ _ _ _).mem]
  exact hzero

end

/-! ## The threads of a block as they start -/

section
variable (R : LRec) (b index ctx g lane : Nat)

/-- The registers that a thread may use (R74). -/
def LRec.allotAt (R : LRec) (g : Nat) : Nat := ((R.roles[(roleOf R.roles 0 g).1]?).map Role.allot).getD 0

theorem LRec.quarter_startThread {q : Nat} (hq : q < 4) :
    (R.startThread b index ctx g lane).quarter q = if 64 * q < R.allotAt g then .full else .off := by
  have hquarters : (R.startThread b index ctx g lane).quarters = (upFrom 0 4).map fun q => if 64 * q < R.allotAt g then .full else .off := rfl
  rw [Thread.quarter, hquarters, map_upFrom, List.getD_eq_getElem?_getD, List.getElem?_map, List.getElem?_range hq, Option.map_some,
    Option.getD_some, Nat.zero_add]

theorem LRec.reg_startThread {n : Nat} (hn : n < R.allotAt g) : (R.startThread b index ctx g lane).reg n =
    if n = 0 then R.arg.setWidth 32 else if n = 1 then R.arg.extractLsb' 32 32 else 0 := by
  have hregs : (R.startThread b index ctx g lane).regs.findD n 0 = if n = 1 then highWord R.arg else if n = 0 then lowWord R.arg else 0 := by
    change FMap.findD (FMap.store 0 (FMap.store 0 [] 0 (lowWord R.arg)) 1 (highWord R.arg)) n 0 = _
    rw [FMap.findD_store, FMap.findD_store]
    rfl
  have hlow : lowWord R.arg = R.arg.setWidth 32 := by
    rw [lowWord, BitVec.ofNat_toNat]
  have hhigh : highWord R.arg = R.arg.extractLsb' 32 32 := by
    rw [highWord, BitVec.extractLsb', Nat.shiftRight_eq_div_pow]
  rw [Thread.reg, hregs, hlow, hhigh]
  by_cases hn0 : n < 2
  · have hon : (R.startThread b index ctx g lane).quarter (quarterOf n) ≠ .off := by
      rw [quarterOf, LRec.quarter_startThread _ _ _ _ _ _ (by omega), if_pos (by omega)]
      decide
    rw [if_neg hon]
    interval_cases n <;> rfl
  · simp [show n ≠ 0 by omega, show n ≠ 1 by omega]

theorem LRec.tid_startThread : (R.startThread b index ctx g lane).tid =
    index * ((R.levels.head?).map Level.extent).getD 0 + 32 * g + lane := by
  have hextent : (R.levels.headD ⟨false, .blk, 0, 0⟩).extent = ((R.levels.head?).map Level.extent).getD 0 := by
    cases R.levels <;> rfl
  rw [← hextent, Nat.add_assoc]
  rfl

end

/-- A group of a block as it starts, and its threads. -/
theorem State.Begun.group {s : State} {b core g run first : Nat} {R : LRec} (h : s.Begun b core g run)
    (hblock : (s.block b).index = first ∧ (s.block b).ctx = 0) (hR : s.recOf b = R) :
    ∃ k G, s.groups.find k = some G ∧ G.pc = (R.codeBase + ((R.roles[(roleOf R.roles 0 g).1]?).map Role.entry).getD 0) % 2 ^ 52 ∧
      G.lanes = (List.range 32).map (1024 * core + 32 * run + ·) ∧
      G.core = core ∧ G.block = b ∧ G.wait = none ∧ G.causes = 0 ∧ G.inHandler = false ∧
      ∀ u ∈ G.lanes,
        let T := s.thread u
        T.disp = .group k ∧ T.pinned = true ∧ T.ctx = 0 ∧ T.preds = 0x80 ∧ T.fixed = [] ∧ T.pgrp = g ∧
          T.tid = first * ((R.levels.head?).map Level.extent).getD 0 + 32 * g + u % 32 ∧ (T.acp.all fun n => n == 0) = true ∧
          (∀ n, n < R.allotAt g → T.reg n = if n = 0 then R.arg.setWidth 32 else if n = 1 then R.arg.extractLsb' 32 32 else 0) ∧
          ∀ n, n < 4 → T.quarter n = if 64 * n < R.allotAt g then .full else .off := by
  obtain ⟨k, G, -, hG, ⟨at_, hstarts⟩, hthreads⟩ := h
  obtain ⟨hindex, hctx⟩ := hblock
  rw [hR] at hstarts
  have hlanes : G.lanes = upFrom (1024 * core + 32 * run) 32 := by rw [hstarts]; rfl
  have hrange : upFrom (1024 * core + 32 * run) 32 = (List.range 32).map (1024 * core + 32 * run + ·) := by
    rw [upFrom_eq_range', List.range'_eq_map_range]
  refine ⟨k, G, hG, ?_, hlanes.trans hrange, ?_, ?_, ?_, ?_, ?_, fun u hu => ?_⟩
  · rw [hstarts]; rfl
  · rw [hstarts]; rfl
  · rw [hstarts]; rfl
  · rw [hstarts]; rfl
  · rw [hstarts]; rfl
  · rw [hstarts]; rfl
  · rw [hthreads u (hlanes ▸ hu), State.starting, hR, hindex, hctx]
    exact ⟨rfl, rfl, rfl, rfl, rfl, rfl, R.tid_startThread b first 0 g (laneOf u), rfl,
      fun n hn => R.reg_startThread b first 0 g (laneOf u) hn, fun n hn => R.quarter_startThread b first 0 g (laneOf u) hn⟩

end Machine

open Machine

/-- The clause of O49 for the dispatch of a block (R74, R75, R84, R86). -/
theorem launchEvents_dispatch (s : State) (part l first : Nat) (x : Site) (hfits : s.firstFit part = some (l, .fresh first 1, [x]))
    (hkeys : ∀ p ∈ s.blocks, p.1 < s.nextId) :
    let L := s.launch l
    let R := L.lrec
    R.needsCtx = false → R.gangLevel = none → R.teamSize = 1 → R.il < 2 →
    (x.core ∈ s.openCores l ∧ s.siteOn R x.core BSide.init = some x ∧ ∀ c ∈ s.openCores l, (s.siteOn R c BSide.init).isSome →
      (s.residents x.core).length < (s.residents c).length ∨ (s.residents x.core).length = (s.residents c).length ∧ x.core ≤ c) ∧
    ∃ t : State, exec (.blockDispatch part) s = .next t ∧ (t.launch l).nextBlock = L.nextBlock + 1 ∧
      (let B := t.block s.nextId
       B.launch = l ∧ B.index = first ∧ B.core = x.core ∧ B.follower = none ∧ B.gslots = x.runs ∧ B.spadAt = x.spadAt ∧ B.obAt = x.obAt ∧
         B.ctx = 0 ∧ B.residence = .resident ∧ B.lead = BSide.init) ∧
      (∀ k, k < R.spad → t.byte (spadPa x.core (x.spadAt + k)) = 0) ∧
      ∀ g, g < R.groupCount →
        let run := x.runs.getD g 0
        let entry := ((R.roles[(roleOf R.roles 0 g).1]?).map Role.entry).getD 0
        let allot := ((R.roles[(roleOf R.roles 0 g).1]?).map Role.allot).getD 0
        ∃ k G, t.groups.find k = some G ∧ G.pc = (R.codeBase + entry) % 2 ^ 52 ∧ G.lanes = (List.range 32).map (1024 * x.core + 32 * run + ·) ∧
          G.core = x.core ∧ G.block = s.nextId ∧ G.wait = none ∧ G.causes = 0 ∧ G.inHandler = false ∧
          ∀ u ∈ G.lanes,
            let T := t.thread u
            T.disp = .group k ∧ T.pinned = true ∧ T.ctx = 0 ∧ T.preds = 0x80 ∧ T.fixed = [] ∧ T.pgrp = g ∧
              T.tid = first * ((R.levels.head?).map Level.extent).getD 0 + 32 * g + u % 32 ∧ (T.acp.all fun n => n == 0) = true ∧
              (∀ n, n < allot → T.reg n = if n = 0 then R.arg.setWidth 32 else if n = 1 then R.arg.extractLsb' 32 32 else 0) ∧
              ∀ n, n < 4 → T.quarter n = if 64 * n < allot then .full else .off := by
  intro L R hctx hgang hteam hil
  obtain ⟨⟨L', hL⟩, hoffer, hplan⟩ := State.firstFit_some hfits
  obtain ⟨hwaiting, rfl⟩ := State.nextOffer_fresh hoffer
  obtain ⟨c, hopen, hsite, hleast⟩ := State.planUnit_one (s.openCores_pairwise l) hgang hteam hplan
  obtain ⟨rfl, hfollower, hnodup, hlength⟩ := State.siteOn_some hil hsite
  refine ⟨⟨hopen, hsite, hleast⟩, _, (State.exec_blockDispatch_fresh hfits).trans
    (congrArg Host.Outcome.next (State.dispatchUnit_fresh_one hctx hwaiting hkeys)), ?_⟩
  have hB : (s.beginBlock l L.nextBlock).blocks.find s.nextId = some { Block.init with
      launch := l, index := L.nextBlock, residence := .waiting, waitingSince := s.now } := FMap.find_put_self _ _ _
  have hbegin : (s.beginBlock l L.nextBlock).launches.find l = some { L with nextBlock := L.nextBlock + 1 } := by
    have hLL : L = L' := State.launch_of_find hL
    have hadjust : (s.beginBlock l L.nextBlock).launches = s.launches.adjust l fun L => { L with nextBlock := L.nextBlock + 1 } := rfl
    rw [hadjust, FMap.find_adjust, if_pos rfl, hL, hLL, Option.map_some]
  have hbegun := State.begun_startBlock (s := s.beginBlock l L.nextBlock) (b := s.nextId) hfollower hnodup
  have hblock := State.block_startBlock hB hfollower
  have hrec := (State.recOf_startBlock hB hfollower).trans (congrArg Launch.lrec (State.launch_of_find hbegin))
  have hbyte (k : Nat) (hk : k < R.spad) :=
    State.byte_startBlock hB hfollower (k := k) (by rw [State.launch_of_find hbegin]; exact hk)
  have hlaunches := State.launches_startBlock (s := s.beginBlock l L.nextBlock) (b := s.nextId) hfollower
  generalize (s.beginBlock l L.nextBlock).startBlock s.nextId x = u at hbegun hblock hrec hbyte hlaunches ⊢
  have hfound : (u.foundRoom l).launch l = { L with nextBlock := L.nextBlock + 1, noRoomSince := u.now, gangRoom := none } := by
    rw [State.foundRoom, State.launch_modLaunch_self ((congrArg (FMap.find · l) hlaunches).trans hbegin)]
  have hsame : (u.foundRoom l).block s.nextId = u.block s.nextId := rfl
  refine ⟨by rw [hfound], ?_, hbyte, fun g hg => ?_⟩
  · rw [hsame, hblock]
    exact ⟨rfl, rfl, rfl, hfollower, rfl, rfl, rfl, rfl, rfl, rfl⟩
  · have hg : g < x.runs.length := hlength ▸ hg
    have hrun : x.runs.getD g 0 = x.runs[g] := (List.getD_eq_getElem _ _ hg)
    have hmem : (x.runs[g], g) ∈ x.runs.zipIdx := List.mk_mem_zipIdx_iff_getElem?.mpr (List.getElem?_eq_getElem hg)
    rw [hrun]
    exact (hbegun _ hmem).group (first := L.nextBlock) (by rw [hblock]; exact ⟨rfl, rfl⟩) hrec

end Sys2Proof
end

