-- ==== Sys2Proof/Proofs/GangRoom.lean ====
section
/-!
A region held for a gang whose launch holds the top rank (R88).
-/

namespace Sys2Proof
namespace Machine

/-- Since when a launch has held the top rank while its gang waits. -/
def State.stampTop (s : State) (l : Nat) (L : Launch) : Launch :=
  { L with topSince := if s.gangOnTop l then (if L.topSince = 0 then s.now + 1 else L.topSince) else 0 }

section
variable {s : State} {l : Nat} {L : Launch} (hl : s.launches.find l = some L)
include hl

theorem State.gangOnTop_of (hgang : L.lrec.gangLevel ≠ none) (htop : ((s.ranked L.part).head?.map Prod.fst) = some l)
    (hwaits : ∃ o, s.nextOffer l = some o ∧ s.planOffer l o = none) : s.gangOnTop l = true := by
  obtain ⟨o, hoffer, hplan⟩ := hwaits
  rw [State.gangOnTop, State.launch_of_find hl, htop, hoffer]
  simpa [hplan] using Option.isSome_iff_ne_none.mpr hgang

theorem State.topSince_stampTops (htop : s.gangOnTop l = true) :
    (s.stampTops.launch l).topSince = if L.topSince = 0 then s.now + 1 else L.topSince := by
  have hfind : s.stampTops.launches.find l = some { L with topSince := if L.topSince = 0 then s.now + 1 else L.topSince } := by
    have hmap : s.stampTops.launches = s.launches.map fun p => (p.1, s.stampTop p.1 p.2) := rfl
    rw [hmap, FMap.find_map_keyed (f := fun p => (p.1, s.stampTop p.1 p.2)) _ _ fun _ => rfl, hl, Option.map_some, State.stampTop, htop, if_pos rfl]
  rw [State.launch_of_find hfind]

theorem State.gangWaits_iff (htop : s.gangOnTop l = true) (hroom : L.gangRoom = none) :
    s.gangWaits l = true ↔ L.topSince ≠ 0 ∧ L.topSince + 50 * 114000 ≤ s.now + 1 := by
  have hus : (Config.us : Nat) = 114000 := rfl
  simp [State.gangWaits, State.launch_of_find hl, htop, hroom, hus]

end

end Machine

open Machine

/-- The clause of O49 for the region that is held for a gang (R88). -/
theorem launchEvents_gang (s : State) (l : Nat) (L : Launch) (hl : s.launches.find l = some L) (hgang : L.lrec.gangLevel ≠ none)
    (hroom : L.gangRoom = none) (hhead : ((s.ranked L.part).head?.map Prod.fst) = some l)
    (hwaits : ∃ o, s.nextOffer l = some o ∧ s.planOffer l o = none) :
    (s.stampTops.launch l).topSince = (if L.topSince = 0 then s.now + 1 else L.topSince) ∧
    (L.topSince = 0 ∨ s.now + 1 < L.topSince + 50 * 114000 → exec (.gangReserveTimeout l) s = .next s) ∧
    (L.topSince ≠ 0 → L.topSince + 50 * 114000 ≤ s.now + 1 →
    exec (.gangReserveTimeout l) s = .next { s with launches := s.launches.adjust l fun L => { L with gangRoom := s.nearestRegion l } }) := by
  have htop := State.gangOnTop_of hl hgang hhead hwaits
  have hdue := State.gangWaits_iff hl htop hroom
  rw [exec_gangReserveTimeout, execGangReserveTimeout, event]
  exact ⟨State.topSince_stampTops hl htop, fun h => congrArg _ (if_neg fun hg => by rw [hdue] at hg; omega),
    fun h0 h => congrArg _ (if_pos (hdue.mpr ⟨h0, h⟩))⟩

end Sys2Proof
end

