-- ==== Sys2Proof/Proofs/CancelledWork.lean ====
section
/-!
What is left of a block's work when its commands are cancelled (R216, R265, R267), and what the cancelling leaves as it is.
-/

namespace Sys2Proof
namespace Machine

/-! ## The frame of a cancelling -/

/-- Nothing differs between two states but the commands of the engines, what waits for them, and what the follower of a block is to receive:
every group is one that was there, of the same block. -/
structure State.Stays (s t : State) : Prop where
  same : t = { s with
    nextId := t.nextId, inflight := t.inflight, opLog := t.opLog, groups := t.groups, blocks := t.blocks, engines := t.engines }
  groups : ∀ p ∈ t.groups, ∃ q ∈ s.groups, q.2.block = p.2.block
  blocks : ∀ k, t.blocks.find k = (s.blocks.find k).map fun B => { B with items := (t.block k).items }

theorem State.block_eq_of_find {s : State} {b : Nat} {B : Block} (h : s.blocks.find b = some B) : s.block b = B := by
  rw [State.block, FMap.findD, h, Option.getD_some]

theorem State.find_block_items (s : State) (k : Nat) :
    s.blocks.find k = (s.blocks.find k).map fun B => { B with items := (s.block k).items } := by
  cases h : s.blocks.find k with
  | none => rfl
  | some B => rw [State.block_eq_of_find h, Option.map_some]

theorem State.Stays.refl (s : State) : s.Stays s := ⟨rfl, fun p hp => ⟨p, hp, rfl⟩, s.find_block_items⟩

theorem State.Stays.trans {s t u : State} (h : s.Stays t) (k : t.Stays u) : s.Stays u where
  same := by
    rw [k.same, h.same]
  groups p hp := by
    obtain ⟨q, hq, hqp⟩ := k.groups p hp
    obtain ⟨r, hr, hrq⟩ := h.groups q hq
    exact ⟨r, hr, hrq.trans hqp⟩
  blocks n := by
    rw [k.blocks, h.blocks, Option.map_map]
    rfl

/-- What changes neither groups nor blocks stays. -/
theorem State.stays_of_same {s t : State} (same : t = { s with
    nextId := t.nextId, inflight := t.inflight, opLog := t.opLog, engines := t.engines }) : s.Stays t := by
  have hgroups : t.groups = s.groups := by rw [same]
  have hblocks : t.blocks = s.blocks := by rw [same]
  refine ⟨?_, fun p hp => ⟨p, hgroups ▸ hp, rfl⟩, fun k => ?_⟩
  · rw [same]
  · have hblock : t.block k = s.block k := by rw [State.block, hblocks, State.block]
    rw [hblocks, hblock]
    exact s.find_block_items k

theorem State.stays_foldl {α : Type} (f : State → α → State) (hf : ∀ (s : State) a, s.Stays (f s a)) (l : List α) (s : State) :
    s.Stays (l.foldl f s) := by
  induction l generalizing s with
  | nil => exact .refl s
  | cons a r ih => exact (hf s a).trans (ih _)

/-! ## Groups whose replays are over (R315) -/

theorem State.stays_of_groups {s t : State} (same : t = { s with groups := t.groups })
    (hgroups : ∀ p ∈ t.groups, ∃ q ∈ s.groups, q.2.block = p.2.block) : s.Stays t := by
  have hblocks : t.blocks = s.blocks := by rw [same]
  refine ⟨?_, hgroups, fun k => ?_⟩
  · rw [same]
  · have hblock : t.block k = s.block k := by rw [State.block, hblocks, State.block]
    rw [hblocks, hblock]
    exact s.find_block_items k

theorem State.stays_setGroup {s : State} {g : Nat} {G H : Group} (h : s.groups.find g = some G) (hb : H.block = G.block) :
    s.Stays (s.setGroup g H) := by
  refine State.stays_of_groups rfl fun p hp => ?_
  rcases FMap.mem_put _ _ _ _ hp with rfl | hp
  · exact ⟨(g, G), FMap.mem_of_find h, hb.symm⟩
  · exact ⟨p, hp, rfl⟩

theorem State.stays_modGroup {s : State} (g : Nat) {f : Group → Group} (hf : ∀ G, (f G).block = G.block) : s.Stays (s.modGroup g f) := by
  refine State.stays_of_groups rfl fun p hp => ?_
  obtain ⟨q, hq, rfl⟩ := List.mem_map.mp hp
  refine ⟨q, hq, ?_⟩
  split
  · exact (hf q.2).symm
  · rfl

theorem State.stays_takeSlot (s : State) (g : Nat) : s.Stays (s.takeSlot g) := by
  cases h : s.groups.find g with
  | none =>
    rw [State.takeSlot, h]
    exact .refl s
  | some G =>
    rw [State.takeSlot_of_find h]
    exact State.stays_setGroup h rfl

theorem State.stays_resume (s : State) (g pc : Nat) : s.Stays (s.resume g pc) := by
  cases h : s.groups.find g with
  | none =>
    rw [State.resume, h]
    exact .refl s
  | some G =>
    have hset := State.stays_setGroup (H := { G with wait := none, pc := pc }) h rfl
    rw [State.resume, h]
    dsimp only
    split
    · exact hset
    · exact hset.trans (State.stays_takeSlot _ g)

theorem State.stays_dropSlot (s : State) (g : Nat) : s.Stays (s.dropSlot g) := State.stays_modGroup g fun _ => rfl

theorem State.stays_beginWait (s : State) (g : Nat) (w : Wait) : s.Stays (s.beginWait g w) :=
  (State.stays_modGroup (f := fun G => { G with wait := some w }) g fun _ => rfl).trans (State.stays_dropSlot _ g)

theorem State.stays_endReplay (s : State) (g : Nat) : s.Stays (s.endReplay g) := by
  cases h : s.groups.find g with
  | none =>
    rw [State.endReplay, h]
    exact .refl s
  | some G =>
    rw [State.endReplay, h]
    dsimp only
    split
    · exact .refl s
    · split
      · split
        · exact State.stays_setGroup h rfl
        · exact s.stays_resume g _
      · exact (State.stays_setGroup (H := { G with pc := G.resumePc - 8 }) h rfl).trans (State.stays_beginWait _ g _)
      · exact .refl s

theorem State.stays_endReplays (s : State) : s.Stays s.endReplays := State.stays_foldl _ (fun s (p : Nat × Group) => s.stays_endReplay p.1) s.groups s

theorem State.stays_dropEntry (s : State) (id : Nat) : s.Stays (s.dropEntry id) :=
  (State.stays_of_same (t := { s with opLog := s.opLog.del id }) rfl).trans (State.stays_endReplays _)

/-! ## Cancelled commands (R216, R265, R267) -/

theorem State.stays_results_pred (s : State) (b core origin t k : Nat) (ok : Bool) :
    s.Stays (s.results b core origin false [(t, [.pred k ok])]) := State.stays_of_same rfl

theorem State.stays_receiving (s : State) (b : Nat) (f : Block → List Item) : s.Stays (s.modBlock b fun B => { B with items := f B }) := by
  refine ⟨rfl, fun p hp => ⟨p, hp, rfl⟩, fun k => ?_⟩
  have hfind := FMap.find_adjust s.blocks b k fun B => { B with items := f B }
  rw [State.modBlock_blocks, hfind, State.block, FMap.findD, State.modBlock_blocks, hfind]
  split
  · cases s.blocks.find k <;> rfl
  · exact s.find_block_items k

theorem State.stays_opLog (s : State) (m : FMap LogEntry) : s.Stays { s with opLog := m } := State.stays_of_same rfl

theorem State.stays_pushOutcome (s : State) (entry t : Nat) (ok : Bool) : s.Stays (s.pushOutcome entry t ok) := by
  unfold State.pushOutcome
  split
  · exact .refl s
  next e _ =>
    dsimp only
    refine State.Stays.trans (s.stays_results_pred e.block (e.seq / 4) e.age t (pushPred e.instr) ok) ?_
    generalize s.results _ _ _ _ _ = u
    split
    · refine State.Stays.trans ?_ (State.stays_dropEntry _ _)
      split
      · exact u.stays_receiving _ fun B => B.items ++ _
      · exact .refl u
    · refine State.Stays.trans ?_ (State.stays_opLog _ _)
      split
      · exact u.stays_receiving _ fun B => B.items ++ _
      · exact .refl u

theorem State.stays_modCmd (s : State) (id : Nat) (f : EngCmd → EngCmd) : s.Stays (s.modCmd id f) := State.stays_of_same rfl

theorem State.stays_cancelCmds (s : State) (p : EngCmd → Bool) : s.Stays (s.cancelCmds p) := by
  refine State.stays_foldl _ (fun s c => ?_) _ s
  have houtcome : s.Stays (if c.accepted || c.heldDm1 then s else s.pushOutcome c.entry c.thread true) := by
    split
    · exact .refl s
    · exact s.stays_pushOutcome _ _ _
  refine houtcome.trans ?_
  generalize (if c.accepted || c.heldDm1 then s else s.pushOutcome c.entry c.thread true) = u
  split
  · exact u.stays_modCmd _ _
  · split
    · exact u.stays_modCmd _ _
    · exact State.stays_of_same rfl

end Machine
end Sys2Proof
end

