-- ==== Sys2Proof/Proofs/BlockExits.lean ====
section
/-!
The exit of a block (R126, R218): the contexts that it leaves open void, its matrix work and its threads go, it gives up its room, and its own
context begins to settle.
-/

namespace Sys2Proof

theorem FMap.del_of_find_none {α : Type} {m : FMap α} {n : Nat} (h : m.find n = none) : m.del n = m := by
  induction m with
  | nil => rfl
  | cons p r ih =>
    obtain ⟨k, v⟩ := p
    rw [FMap.find] at h
    split at h
    · cases h
    next hne => rw [FMap.del, if_neg hne, ih h]

theorem FMap.mem_keys_del {α : Type} {m : FMap α} {n k : Nat} (h : k ∈ (m.del n).keys) : k ∈ m.keys ∧ k ≠ n := by
  induction m with
  | nil => cases h
  | cons p r ih =>
    obtain ⟨j, v⟩ := p
    rw [FMap.del] at h
    split at h
    · exact ⟨List.mem_cons_of_mem _ (ih h).1, (ih h).2⟩
    next hne =>
      rcases List.mem_cons.mp h with rfl | h
      · exact ⟨List.mem_cons_self, fun e => hne e.symm⟩
      · exact ⟨List.mem_cons_of_mem _ (ih h).1, (ih h).2⟩

/-- A table is empty when each of its keys has been removed. -/
theorem FMap.foldl_del_eq_nil {α : Type} {ks : List Nat} {m : FMap α} (h : ∀ k ∈ m.keys, k ∈ ks) : ks.foldl FMap.del m = [] := by
  induction ks generalizing m with
  | nil => exact List.map_eq_nil_iff.mp (List.eq_nil_iff_forall_not_mem.mpr fun k hk => List.not_mem_nil (h k hk))
  | cons n r ih =>
    refine ih fun k hk => ?_
    obtain ⟨hmem, hne⟩ := FMap.mem_keys_del hk
    exact (List.mem_cons.mp (h k hmem)).resolve_left hne

theorem FMap.keys_adjust {α : Type} (m : FMap α) (n : Nat) (f : α → α) : (m.adjust n f).keys = m.keys := by
  rw [FMap.keys, FMap.keys, FMap.adjust, List.map_map]
  refine List.map_congr_left fun p _ => ?_
  rw [Function.comp_apply]
  split <;> rfl

namespace Machine

/-! ## Contexts that void (R216) -/

/-- Contexts void or settle between two states, and none opens. -/
structure State.Voids (s t : State) : Prop where
  launches : t.launches = s.launches
  sorted : FMap.sorted s.ctxs = true → FMap.sorted t.ctxs = true
  owner : ∀ k, (t.ctx k).owner = (s.ctx k).owner
  gen : ∀ k, (t.ctx k).gen = (s.ctx k).gen
  opened : ∀ k, (t.ctx k).state = .opened → (s.ctx k).state = .opened
  blocks : ∀ k, t.blocks.find k = (s.blocks.find k).map fun B => { B with items := (t.block k).items }

theorem State.Voids.refl (s : State) : s.Voids s := ⟨rfl, id, fun _ => rfl, fun _ => rfl, fun _ => id, s.find_block_items⟩

theorem State.Voids.trans {s t u : State} (h : s.Voids t) (k : t.Voids u) : s.Voids u where
  launches := k.launches.trans h.launches
  sorted := k.sorted ∘ h.sorted
  owner n := (k.owner n).trans (h.owner n)
  gen n := (k.gen n).trans (h.gen n)
  opened n := h.opened n ∘ k.opened n
  blocks n := by
    rw [k.blocks, h.blocks, Option.map_map]
    rfl

theorem State.Voids.block {s t : State} (h : s.Voids t) (k : Nat) : t.block k = { s.block k with items := (t.block k).items } := by
  have hfind := h.blocks k
  cases hk : s.blocks.find k with
  | none =>
    rw [hk] at hfind
    rw [State.block, State.block, FMap.findD, FMap.findD, hk, hfind]
    rfl
  | some B =>
    rw [hk] at hfind
    rw [State.block_eq_of_find hk]
    exact State.block_eq_of_find hfind

theorem State.Stays.voids {s t : State} (h : s.Stays t) : s.Voids t := by
  have hctxs : t.ctxs = s.ctxs := by rw [h.same]
  have hctx (k : Nat) : t.ctx k = s.ctx k := by rw [State.ctx, hctxs, State.ctx]
  refine ⟨?_, fun hs => hctxs ▸ hs, fun k => ?_, fun k => ?_, fun k => ?_, h.blocks⟩
  · rw [h.same]
  · rw [hctx]
  · rw [hctx]
  · rw [hctx]; exact id

theorem State.ctx_modCtx (s : State) (tag : Nat) (f : Ctx → Ctx) (k : Nat) :
    (s.modCtx tag f).ctx k = if k = tag then f (s.ctx tag) else s.ctx k := FMap.findD_put _ _ _ _ _

theorem State.ctx_modCtx_self (s : State) (tag : Nat) (f : Ctx → Ctx) : (s.modCtx tag f).ctx tag = f (s.ctx tag) :=
  (s.ctx_modCtx tag f tag).trans (if_pos rfl)

/-- A change of one context that does not open it. -/
theorem State.voids_modCtx (s : State) (tag : Nat) {f : Ctx → Ctx} (howner : ∀ c, (f c).owner = c.owner) (hgen : ∀ c, (f c).gen = c.gen)
    (hopened : ∀ c, (f c).state = .opened → c.state = .opened) : s.Voids (s.modCtx tag f) := by
  have hcase (k : Nat) (P : Ctx → Prop) (hself : k = tag → P (f (s.ctx tag))) (hne : P (s.ctx k)) : P ((s.modCtx tag f).ctx k) := by
    rw [State.ctx_modCtx]
    split
    next h => exact hself h
    next => exact hne
  refine ⟨rfl, FMap.sorted_put _ _ _, fun k => ?_, fun k => ?_, fun k => ?_, fun k => s.find_block_items k⟩
  · exact hcase k (fun c => c.owner = (s.ctx k).owner) (fun h => h ▸ howner _) rfl
  · exact hcase k (fun c => c.gen = (s.ctx k).gen) (fun h => h ▸ hgen _) rfl
  · exact hcase k (fun c => c.state = .opened → (s.ctx k).state = .opened) (fun h => h ▸ hopened _) id

theorem State.voids_foldl {f : State → Nat → State} (hf : ∀ (s : State) a, s.Voids (f s a)) (l : List Nat) (s : State) :
    s.Voids (l.foldl f s) := by
  induction l generalizing s with
  | nil => exact .refl s
  | cons a r ih => exact (hf s a).trans (ih _)

/-- A context that a step closes stays closed. -/
theorem State.closed_foldl {f : State → Nat → State} (hf : ∀ (s : State) a, s.Voids (f s a)) {k : Nat} {l : List Nat} (hk : k ∈ l) {s : State}
    (hclose : ∀ t : State, s.Voids t → ((f t k).ctx k).state ≠ .opened) : ((l.foldl f s).ctx k).state ≠ .opened := by
  induction l generalizing s with
  | nil => cases hk
  | cons a r ih =>
    rcases List.mem_cons.mp hk with rfl | hk
    · exact fun h => hclose s (.refl s) ((State.voids_foldl hf r _).opened k h)
    · exact ih hk fun t ht => hclose t ((hf s a).trans ht)

/-- One context begins to void. -/
def State.toVoid (s : State) (t : Nat) : State := s.modCtx t fun c => { c with state := .voiding, held := [] }

theorem State.voids_toVoid (s : State) (t : Nat) : s.Voids (s.toVoid t) :=
  s.voids_modCtx t (fun _ => rfl) (fun _ => rfl) fun _ h => nomatch h

theorem State.beginVoid_eq (s : State) (tag : Nat) : s.beginVoid tag =
    ((s.openBelow tag).foldl State.toVoid s).cancelCmds fun c => (s.openBelow tag).contains c.ctx := rfl

theorem State.voids_beginVoid (s : State) (tag : Nat) : s.Voids (s.beginVoid tag) := by
  rw [State.beginVoid_eq]
  exact (State.voids_foldl State.voids_toVoid _ s).trans (State.stays_cancelCmds _ _).voids

theorem State.find_ctxs_of_opened {s : State} {k : Nat} (h : (s.ctx k).state = .opened) : s.ctxs.find k = some (s.ctx k) := by
  cases hf : s.ctxs.find k with
  | none =>
    rw [State.ctx, FMap.findD, hf] at h
    cases h
  | some C => rw [State.ctx, FMap.findD, hf, Option.getD_some]

theorem State.mem_openBelow_self {s : State} {k : Nat} (h : (s.ctx k).state = .opened) : k ∈ s.openBelow k := by
  have hwithin : s.within k k = true := by
    by_cases h0 : k = 0
    · simp [State.within, h0]
    · simp [State.within, State.chainOf, State.chain, h0]
  exact List.mem_map_of_mem (f := Prod.fst)
    (List.mem_filter.mpr ⟨FMap.mem_of_find (State.find_ctxs_of_opened h), by simp [h, hwithin]⟩)

theorem State.closed_beginVoid {s : State} {k : Nat} (h : (s.ctx k).state = .opened) : ((s.beginVoid k).ctx k).state ≠ .opened := by
  rw [State.beginVoid_eq]
  intro hopen
  refine State.closed_foldl State.voids_toVoid (State.mem_openBelow_self h) (s := s) (fun t _ => ?_)
    ((State.stays_cancelCmds _ _).voids.opened k hopen)
  rw [State.toVoid, State.ctx_modCtx_self]
  exact fun h => nomatch h

/-- An OPEN context of a block, other than its own, begins to void. -/
def State.closeFor (b : Nat) (s : State) (t : Nat) : State :=
  if t != s.blockCtx b && (s.ctx t).state == .opened then s.beginVoid t else s

theorem State.voids_closeFor (b : Nat) (s : State) (t : Nat) : s.Voids (State.closeFor b s t) := by
  unfold State.closeFor
  split
  · exact s.voids_beginVoid t
  · exact .refl s

theorem State.voids_voidOpen (s : State) (b : Nat) : s.Voids (s.voidOpen b) := State.voids_foldl (State.voids_closeFor b) _ s

theorem State.closed_closeFor {b : Nat} {s : State} {k : Nat} (hk : k ≠ s.blockCtx b) : ((State.closeFor b s k).ctx k).state ≠ .opened := by
  unfold State.closeFor
  by_cases h : (s.ctx k).state = .opened
  · rw [if_pos (by simp [hk, h])]
    exact State.closed_beginVoid h
  · rw [if_neg (by simp [h])]
    exact h

/-- No context of the block but its own is OPEN any more. -/
theorem State.closed_voidOpen {s : State} {b k : Nat} (howner : (s.ctx k).owner = b) (hk : k ≠ (s.block b).ctx) :
    ((s.voidOpen b).ctx k).state ≠ .opened := by
  intro hopen
  have hs := (s.voids_voidOpen b).opened k hopen
  have hmem : k ∈ s.ownCtxs b := List.mem_map_of_mem (f := Prod.fst)
    (List.mem_filter.mpr ⟨FMap.mem_of_find (State.find_ctxs_of_opened hs), by simp [howner, hs]⟩)
  refine State.closed_foldl (State.voids_closeFor b) hmem (s := s) (fun t ht => State.closed_closeFor ?_) hopen
  rw [State.blockCtx, ht.block]
  exact hk

/-! ## A context begins to settle (R215, R219) -/

theorem State.voids_exposing (s : State) (t : Nat) : s.Voids (s.modCtx t fun c => { c with exposed := true }) :=
  s.voids_modCtx t (fun _ => rfl) (fun _ => rfl) fun _ h => h

theorem State.state_foldl_exposing (l : List Nat) (s : State) (k : Nat) :
    ((l.foldl (fun s t => s.modCtx t fun c => { c with exposed := true }) s).ctx k).state = (s.ctx k).state := by
  induction l generalizing s with
  | nil => rfl
  | cons a r ih =>
    refine (ih _).trans ?_
    rw [State.ctx_modCtx]
    split
    next h => rw [h]
    next => rfl

theorem State.foldl_modCtx_same (l : List Nat) (f : Ctx → Ctx) (s : State) :
    l.foldl (fun s t => s.modCtx t f) s = { s with ctxs := (l.foldl (fun s t => s.modCtx t f) s).ctxs } := by
  induction l generalizing s with
  | nil => rfl
  | cons a r ih => exact ih (s.modCtx a f)

theorem State.beginSettle_same (s : State) (tag : Nat) : s.beginSettle tag = { s with ctxs := (s.beginSettle tag).ctxs } := by
  unfold State.beginSettle
  dsimp only
  split
  · rw [State.expose, State.foldl_modCtx_same]
    rfl
  · rfl

theorem State.voids_beginSettle (s : State) (tag : Nat) : s.Voids (s.beginSettle tag) := by
  have hset := s.voids_modCtx tag (f := fun c => { c with state := .settling, waitStores := s.nextId, merging := false }) (fun _ => rfl)
    (fun _ => rfl) fun _ h => nomatch h
  unfold State.beginSettle
  dsimp only
  split
  · exact hset.trans (State.voids_foldl State.voids_exposing _ _)
  · exact hset

theorem State.state_beginSettle (s : State) (tag : Nat) : ((s.beginSettle tag).ctx tag).state = .settling := by
  have hset : ((s.modCtx tag fun c => { c with state := .settling, waitStores := s.nextId, merging := false }).ctx tag).state = .settling := by
    rw [State.ctx_modCtx_self]
  unfold State.beginSettle
  dsimp only
  split
  · exact (State.state_foldl_exposing _ _ _).trans hset
  · exact hset

/-! ## The matrix work of a block goes (R285, R298) -/

theorem State.zeroKeyed_same (s : State) (b core : Nat) (R : Record) :
    s.zeroKeyed b core R = { s with mem := (s.zeroKeyed b core R).mem, obDirty := (s.zeroKeyed b core R).obDirty } := by
  unfold State.zeroKeyed
  split <;> rfl

theorem State.dropRecord_same (s : State) (b core r : Nat) : s.dropRecord b core r = { s with
    mem := (s.dropRecord b core r).mem, obDirty := (s.dropRecord b core r).obDirty, blocks := (s.dropRecord b core r).blocks } := by
  unfold State.dropRecord
  split
  next R _ =>
    rw [State.zeroKeyed_same]
    unfold State.modBside
    split <;> rfl
  next => rfl

/-- Nothing differs between two states but blocks, bytes of memory and the queues of the matrix units. -/
def State.OnlyMatrix (s t : State) : Prop := t = { s with mem := t.mem, obDirty := t.obDirty, blocks := t.blocks, mqueue := t.mqueue }

theorem State.OnlyMatrix.trans {s t u : State} (h : s.OnlyMatrix t) (k : t.OnlyMatrix u) : s.OnlyMatrix u := by
  unfold State.OnlyMatrix at *
  rw [k, h]

theorem State.onlyMatrix_foldl {f : State → Nat → State} (hf : ∀ (s : State) a, s.OnlyMatrix (f s a)) (l : List Nat) (s : State) :
    s.OnlyMatrix (l.foldl f s) := by
  induction l generalizing s with
  | nil => rfl
  | cons a r ih => exact (hf s a).trans (ih _)

theorem State.onlyMatrix_dropRecord (s : State) (b core r : Nat) : s.OnlyMatrix (s.dropRecord b core r) := by
  unfold State.OnlyMatrix
  rw [State.dropRecord_same]

theorem State.onlyMatrix_modBside (s : State) (b core : Nat) (f : BSide → BSide) : s.OnlyMatrix (s.modBside b core f) := by
  unfold State.modBside
  split <;> rfl

/-- The side of a block on a core holds no matrix work any more. -/
def State.clearSide (b : Nat) (s : State) (c : Nat) : State :=
  ((s.bside b c).records.keys.foldl (fun s r => s.dropRecord b c r) s).modBside b c fun S => { S with mloops := [], tiles := [] }

theorem State.onlyMatrix_clearSide (b : Nat) (s : State) (c : Nat) : s.OnlyMatrix (State.clearSide b s c) :=
  (State.onlyMatrix_foldl (fun s r => s.onlyMatrix_dropRecord b c r) _ s).trans (State.onlyMatrix_modBside _ _ _ _)

theorem State.onlyMatrix_mqueue (s : State) (m : FMap (List (Nat × Nat))) : s.OnlyMatrix { s with mqueue := m } := rfl

theorem State.onlyMatrix_dropMatrix (s : State) (b : Nat) : s.OnlyMatrix (s.dropMatrix b) :=
  (State.onlyMatrix_foldl (State.onlyMatrix_clearSide b) (s.coresOf b) s).trans (State.onlyMatrix_mqueue _ _)

theorem State.sideOf_core {s : State} {b : Nat} {B : Block} (h : s.blocks.find b = some B) : s.sideOf b B.core = 0 := by
  rw [State.sideOf, State.block_eq_of_find h, if_pos rfl]

theorem State.bside_core {s : State} {b : Nat} {B : Block} (h : s.blocks.find b = some B) : s.bside b B.core = B.lead := by
  rw [State.bside, State.sideOf_core h, if_pos rfl, State.block_eq_of_find h]

theorem State.find_modBlock {s : State} {b : Nat} {B : Block} (h : s.blocks.find b = some B) (f : Block → Block) :
    (s.modBlock b f).blocks.find b = some (f B) ∧ ∀ k, k ≠ b → (s.modBlock b f).blocks.find k = s.blocks.find k := by
  rw [State.modBlock_blocks]
  refine ⟨?_, fun k hk => ?_⟩
  · rw [FMap.find_adjust, if_pos rfl, h, Option.map_some]
  · rw [FMap.find_adjust, if_neg hk]

theorem State.find_modBside_core {s : State} {b : Nat} {B : Block} (h : s.blocks.find b = some B) (f : BSide → BSide) :
    (s.modBside b B.core f).blocks.find b = some { B with lead := f B.lead } ∧
    ∀ k, k ≠ b → (s.modBside b B.core f).blocks.find k = s.blocks.find k := by
  rw [State.modBside, State.sideOf_core h, if_pos rfl]
  exact State.find_modBlock h _

theorem State.find_dropRecord {s : State} {b : Nat} {B : Block} (h : s.blocks.find b = some B) (r : Nat) :
    (s.dropRecord b B.core r).blocks.find b = some { B with lead := { B.lead with records := B.lead.records.del r } } ∧
    ∀ k, k ≠ b → (s.dropRecord b B.core r).blocks.find k = s.blocks.find k := by
  have hrecord : s.record b B.core r = B.lead.records.find r := by rw [State.record, State.bside_core h]
  unfold State.dropRecord
  rw [hrecord]
  cases hr : B.lead.records.find r with
  | none => exact ⟨by rw [h, FMap.del_of_find_none hr], fun _ _ => rfl⟩
  | some R =>
    have hblocks : (s.zeroKeyed b B.core R).blocks = s.blocks := by rw [State.zeroKeyed_same]
    dsimp only
    generalize s.zeroKeyed b B.core R = u at hblocks
    rw [← hblocks] at h ⊢
    exact State.find_modBside_core h _

theorem State.find_dropRecords {s : State} {b : Nat} {B : Block} (h : s.blocks.find b = some B) (rs : List Nat) :
    (rs.foldl (fun s r => s.dropRecord b B.core r) s).blocks.find b =
      some { B with lead := { B.lead with records := rs.foldl FMap.del B.lead.records } } ∧
    ∀ k, k ≠ b → (rs.foldl (fun s r => s.dropRecord b B.core r) s).blocks.find k = s.blocks.find k := by
  induction rs generalizing s B with
  | nil => exact ⟨h, fun _ _ => rfl⟩
  | cons r t ih =>
    obtain ⟨hself, hne⟩ := State.find_dropRecord h r
    obtain ⟨hself', hne'⟩ := ih hself
    exact ⟨hself', fun k hk => (hne' k hk).trans (hne k hk)⟩

/-- A block on one core holds no matrix work any more, and other blocks are as they were. -/
theorem State.find_dropMatrix {s : State} {b : Nat} {B : Block} (h : s.blocks.find b = some B) (hf : B.follower = none) :
    (s.dropMatrix b).blocks.find b = some { B with lead := { B.lead with records := [], mloops := [], tiles := [] } } ∧
    ∀ k, k ≠ b → (s.dropMatrix b).blocks.find k = s.blocks.find k := by
  have hcores : s.coresOf b = [B.core] := by rw [State.coresOf, State.block_eq_of_find h, hf]
  have hblocks : (s.dropMatrix b).blocks = (State.clearSide b s B.core).blocks := by
    rw [State.dropMatrix, hcores]
    rfl
  obtain ⟨hself, hne⟩ := State.find_dropRecords h B.lead.records.keys
  rw [FMap.foldl_del_eq_nil fun k hk => hk] at hself
  rw [hblocks, State.clearSide, State.bside_core h]
  obtain ⟨hself', hne'⟩ := State.find_modBside_core hself fun S => { S with mloops := [], tiles := [] }
  exact ⟨hself', fun k hk => (hne' k hk).trans (hne k hk)⟩

/-! ## A block gives up its room (R140) -/

theorem State.onlyBanks_setSpad (s : State) (core k : Nat) (q : QState) : s.OnlyBanks (s.setSpad core k q) := by
  unfold State.setSpad
  dsimp only
  split <;> rfl

theorem State.onlyBanks_foldl {f : State → Nat → State} (hf : ∀ (s : State) a, s.OnlyBanks (f s a)) (l : List Nat) (s : State) :
    s.OnlyBanks (l.foldl f s) := by
  induction l generalizing s with
  | nil => rfl
  | cons a r ih => exact (hf s a).trans (ih _)

theorem State.onlyBanks_emptyBanks (s : State) (cores banks : List Nat) : s.OnlyBanks (s.emptyBanks cores banks) := by
  refine State.onlyBanks_foldl (fun s c => State.onlyBanks_foldl (fun s k => ?_) banks s) cores s
  dsimp only
  split
  · rfl
  · exact s.onlyBanks_setSpad _ _ _

/-- A block as it has given up its room. -/
def Block.away (B : Block) (r : Residence) : Block :=
  { B with residence := r, notice := false, chosen := 0, going := false, exchange := none }

theorem State.vacate_eq (s : State) (b : Nat) (r : Residence) : s.vacate b r = (s.modBlock b fun B => B.away r).emptyBanks (s.coresOf b)
    (banksOf (s.block b).spadAt (s.recOf b).spad) := rfl

theorem State.onlyBanks_vacate (s : State) (b : Nat) (r : Residence) : (s.modBlock b fun B => B.away r).OnlyBanks (s.vacate b r) := by
  rw [State.vacate_eq]
  exact State.onlyBanks_emptyBanks _ _ _

/-! ## BLOCK_EXIT (R218) -/

/-- The state in which a block has left its core. -/
def State.left (s : State) (b : Nat) : State := (((s.voidOpen b).dropMatrix b).dropIssue b).vacate b .exited

/-- What has gone with a block that has left its core. -/
structure State.HasLeft (s t : State) (b : Nat) : Prop where
  threads : ∀ p ∈ t.threads, p.2.block ≠ b
  groups : ∀ p ∈ t.groups, p.2.block ≠ b
  bins : ∀ p ∈ t.bins, p.2.block ≠ b
  opLog : ∀ p ∈ t.opLog, p.2.block ≠ b
  inflight : ∀ p ∈ t.inflight, p.2.block ≠ b
  self : (t.block b).residence = .exited ∧ (t.block b).lead.mloops = [] ∧ (t.block b).lead.records = [] ∧ (t.block b).lead.tiles = []
  others : ∀ u, u ≠ b → (t.block u).residence = (s.block u).residence

theorem ne_of_mem_filter_bne {α : Type} {m : FMap α} {f : α → Nat} {b : Nat} :
    ∀ p ∈ m.filter fun p => f p.2 != b, f p.2 ≠ b := fun p hp => by simpa using (List.mem_filter.mp hp).2

theorem State.ctxs_dropMatrix (s : State) (b : Nat) : (s.dropMatrix b).ctxs = s.ctxs := by rw [s.onlyMatrix_dropMatrix b]

theorem State.launches_dropMatrix (s : State) (b : Nat) : (s.dropMatrix b).launches = s.launches := by rw [s.onlyMatrix_dropMatrix b]

theorem State.ctxs_dropIssue (s : State) (b : Nat) : (s.dropIssue b).ctxs = s.ctxs := rfl

theorem State.launches_dropIssue (s : State) (b : Nat) : (s.dropIssue b).launches = s.launches := rfl

theorem State.blocks_dropIssue (s : State) (b : Nat) : (s.dropIssue b).blocks = s.blocks := rfl

theorem State.ctxs_vacate (s : State) (b : Nat) (r : Residence) : (s.vacate b r).ctxs = s.ctxs := by
  rw [s.onlyBanks_vacate b r]
  rfl

theorem State.launches_vacate (s : State) (b : Nat) (r : Residence) : (s.vacate b r).launches = s.launches := by
  rw [s.onlyBanks_vacate b r]
  rfl

theorem State.ctxs_left (s : State) (b : Nat) : (s.left b).ctxs = (s.voidOpen b).ctxs := by
  rw [State.left, State.ctxs_vacate, State.ctxs_dropIssue, State.ctxs_dropMatrix]

theorem State.launches_left (s : State) (b : Nat) : (s.left b).launches = s.launches := by
  rw [State.left, State.launches_vacate, State.launches_dropIssue, State.launches_dropMatrix]
  exact (s.voids_voidOpen b).launches

section
variable {s : State} {b : Nat} {B : Block} (hB : s.blocks.find b = some B) (hf : B.follower = none)
include hB hf

theorem State.find_left : (s.left b).blocks.find b = some ({ B with
      items := ((s.voidOpen b).block b).items
      lead := { B.lead with records := [], mloops := [], tiles := [] } }.away .exited) ∧
    ∀ k, k ≠ b → (s.left b).blocks.find k = (s.voidOpen b).blocks.find k := by
  have hvoid := (s.voids_voidOpen b).blocks b
  rw [hB, Option.map_some] at hvoid
  obtain ⟨hself, hne⟩ := State.find_dropMatrix hvoid hf
  rw [← State.blocks_dropIssue _ b] at hself hne
  have hblocks : (s.left b).blocks = ((((s.voidOpen b).dropMatrix b).dropIssue b).modBlock b fun B => B.away .exited).blocks := by
    rw [State.left, State.onlyBanks_vacate]
  generalize ((s.voidOpen b).dropMatrix b).dropIssue b = u at hself hne hblocks
  obtain ⟨hself', hne'⟩ := State.find_modBlock hself fun B => B.away .exited
  rw [hblocks]
  exact ⟨hself', fun k hk => (hne' k hk).trans (hne k hk)⟩

theorem State.hasLeft_left : s.HasLeft (s.left b) b := by
  obtain ⟨hself, hne⟩ := State.find_left hB hf
  have hsame : s.left b = { ((s.voidOpen b).dropMatrix b).dropIssue b with
      blocks := (s.left b).blocks, mem := (s.left b).mem, spadBanks := (s.left b).spadBanks, spadWakes := (s.left b).spadWakes } := by
    have honly := State.onlyBanks_vacate (((s.voidOpen b).dropMatrix b).dropIssue b) b .exited
    rw [State.left, honly]
    rfl
  have hblock := State.block_eq_of_find hself
  refine ⟨?_, ?_, ?_, ?_, ?_, ?_, fun u hu => ?_⟩
  · rw [hsame]
    exact ne_of_mem_filter_bne
  · rw [hsame]
    exact ne_of_mem_filter_bne
  · rw [hsame]
    exact ne_of_mem_filter_bne
  · rw [hsame]
    exact ne_of_mem_filter_bne
  · rw [hsame]
    exact ne_of_mem_filter_bne
  · rw [hblock]
    exact ⟨rfl, rfl, rfl, rfl⟩
  · have hu : (s.left b).block u = (s.voidOpen b).block u := by rw [State.block, FMap.findD, hne u hu, State.block, FMap.findD]
    rw [hu, (s.voids_voidOpen b).block]

end

/-- What follows when a block has left its core: a re-run is counted, and the block's own context begins to settle. -/
def State.settleLeft (s : State) (B : Block) : State :=
  let s2 := if B.ownRerun then s.countTransient B.launch B.core else s
  if B.ctx = 0 then s2 else s2.beginSettle B.ctx

theorem State.countTransient_same (s : State) (l core : Nat) : s.countTransient l core =
    { s with launches := (s.countTransient l core).launches, transient := (s.countTransient l core).transient } := rfl

theorem State.keys_countTransient (s : State) (l core : Nat) : (s.countTransient l core).launches.keys = s.launches.keys :=
  FMap.keys_adjust s.launches l fun L => { L with transient := L.transient + 1 }

/-- Whether a re-run is counted. -/
def State.counted (s : State) (B : Block) : State := if B.ownRerun then s.countTransient B.launch B.core else s

theorem State.counted_same (s : State) (B : Block) : s.counted B =
    { s with launches := (s.counted B).launches, transient := (s.counted B).transient } := by
  unfold State.counted
  split
  · exact s.countTransient_same _ _
  · rfl

theorem State.keys_counted (s : State) (B : Block) : (s.counted B).launches.keys = s.launches.keys := by
  unfold State.counted
  split
  · exact s.keys_countTransient _ _
  · rfl

theorem State.settleLeft_base {s : State} {B : Block} (h : B.ctx = 0) : s.settleLeft B = s.counted B := if_pos h

theorem State.settleLeft_ctx {s : State} {B : Block} (h : B.ctx ≠ 0) : s.settleLeft B = (s.counted B).beginSettle B.ctx := if_neg h

theorem State.settleLeft_same (s : State) (B : Block) : s.settleLeft B = { s with
    launches := (s.counted B).launches, transient := (s.counted B).transient, ctxs := (s.settleLeft B).ctxs } := by
  by_cases h : B.ctx = 0
  · rw [State.settleLeft_base h, State.counted_same]
  · rw [State.settleLeft_ctx h, State.beginSettle_same, State.counted_same]

theorem State.HasLeft.settleLeft {s t : State} {b : Nat} (h : s.HasLeft t b) (B : Block) : s.HasLeft (t.settleLeft B) b := by
  rw [State.settleLeft_same]
  exact ⟨h.threads, h.groups, h.bins, h.opLog, h.inflight, h.self, h.others⟩

theorem State.ctx_counted (s : State) (B : Block) (k : Nat) : (s.counted B).ctx k = s.ctx k := by
  rw [State.counted_same]
  rfl

/-- No context opens, changes its owner or its generation while what a block leaves is settled. -/
theorem State.ctx_settleLeft (s : State) (B : Block) (k : Nat) : ((s.settleLeft B).ctx k).owner = (s.ctx k).owner ∧
    ((s.settleLeft B).ctx k).gen = (s.ctx k).gen ∧ (((s.settleLeft B).ctx k).state = .opened → (s.ctx k).state = .opened) := by
  by_cases h : B.ctx = 0
  · rw [State.settleLeft_base h, State.ctx_counted]
    exact ⟨rfl, rfl, id⟩
  · rw [State.settleLeft_ctx h, ← s.ctx_counted B]
    have hvoids := (s.counted B).voids_beginSettle B.ctx
    exact ⟨hvoids.owner k, hvoids.gen k, hvoids.opened k⟩

theorem State.sorted_settleLeft {s : State} (h : FMap.sorted s.ctxs = true) (B : Block) : FMap.sorted (s.settleLeft B).ctxs = true := by
  have hctxs : (s.counted B).ctxs = s.ctxs := by rw [State.counted_same]
  by_cases h0 : B.ctx = 0
  · rw [State.settleLeft_base h0, hctxs]
    exact h
  · rw [State.settleLeft_ctx h0]
    exact ((s.counted B).voids_beginSettle B.ctx).sorted (hctxs ▸ h)

section
variable {s : State} {b : Nat} {B : Block} (hB : s.blocks.find b = some B) (hf : B.follower = none)
include hB hf

theorem State.paired_of_alone : s.paired b = false := by
  rw [State.paired, State.block_eq_of_find hB, hf]
  rfl

theorem State.exec_blockExit_ready (h : s.exitReady b = true) : exec (.blockExit b) s = .next ((s.left b).settleLeft B) := by
  rw [exec_blockExit, execBlockExit, event, if_pos h]
  dsimp only
  rw [State.paired_of_alone hB hf, State.block_eq_of_find hB]
  rfl

theorem State.exitReady_iff (hctxs : FMap.sorted s.ctxs = true) (hres : B.residence = .resident) : s.exitReady b = true ↔
    (∀ p ∈ s.threads, p.2.block = b → p.2.disp = .exited) ∧ (∀ p ∈ s.acps, p.2.block ≠ b) ∧
      (∀ p ∈ s.opLog, p.2.block = b → p.2.dormant = true) ∧ (∀ p ∈ s.engines, ∀ c ∈ p.2, c.block = b → c.heldDm1 = true) ∧
      (∀ m ∈ B.lead.mloops, m.active = false) ∧ s.released b ((s.recOf b).levels.getD 1 ⟨false, .blk, 0, 0⟩).scope = true ∧
      ∀ p ∈ s.ctxs, p.2.owner = b → p.2.state ≠ .retired → p.1 = B.ctx ∨ p.2.state = .opened := by
  have hcores : s.coresOf b = [B.core] := by rw [State.coresOf, State.block_eq_of_find hB, hf]
  have hctx : (∀ p ∈ s.ctxs, p.2.owner = b → p.2.state ≠ .retired → p.1 = B.ctx ∨ p.2.state = .opened) ↔
      ((s.ownCtxs b).all fun t => t == B.ctx || (s.ctx t).state == .opened) = true := by
    simp only [State.ownCtxs, List.all_map, List.all_eq_true, List.mem_filter, Bool.and_eq_true, beq_iff_eq, bne_iff_ne, Function.comp_apply,
      Bool.or_eq_true, and_imp]
    refine forall₂_congr fun p hp => ?_
    have hself : s.ctx p.1 = p.2 := by rw [State.ctx, FMap.findD, FMap.find_of_mem _ _ hctxs hp, Option.getD_some]
    rw [hself]
  have hthreads : (s.blockThreads b).isEmpty = true ↔ ∀ p ∈ s.threads, p.2.block = b → p.2.disp = .exited := by
    simp [State.blockThreads, List.isEmpty_iff, List.filter_eq_nil_iff, Thread.occupied]
  rw [hctx, ← hthreads]
  simp [State.exitReady, State.block_eq_of_find hB, hres, hcores, State.bside_core hB, State.paired_of_alone hB hf, LRec.exitScope,
    imp_iff_not_or, and_assoc]

end

end Machine

open Machine

/-- The clause of O49 for the exit of a block (R126, R218). -/
theorem launchEvents_exit (s : State) (b : Nat) (B : Block) (hctxs : FMap.sorted s.ctxs = true) (hB : s.blocks.find b = some B)
    (hres : B.residence = .resident) (hf : B.follower = none) :
    let R := s.recOf b
    let ended : Prop := (∀ p ∈ s.threads, p.2.block = b → p.2.disp = .exited) ∧ (∀ p ∈ s.acps, p.2.block ≠ b) ∧
      (∀ p ∈ s.opLog, p.2.block = b → p.2.dormant = true) ∧ (∀ p ∈ s.engines, ∀ c ∈ p.2, c.block = b → c.heldDm1 = true) ∧
      (∀ m ∈ B.lead.mloops, m.active = false) ∧ s.released b (R.levels.getD 1 ⟨false, .blk, 0, 0⟩).scope = true ∧
      ∀ p ∈ s.ctxs, p.2.owner = b → p.2.state ≠ .retired → p.1 = B.ctx ∨ p.2.state = .opened
    (¬ ended → exec (.blockExit b) s = .next s) ∧
    (ended → ∃ t : State, exec (.blockExit b) s = .next t ∧ (t.block b).residence = .exited ∧ (∀ p ∈ t.threads, p.2.block ≠ b) ∧
      (∀ p ∈ t.groups, p.2.block ≠ b) ∧ (∀ p ∈ t.bins, p.2.block ≠ b) ∧ (∀ p ∈ t.opLog, p.2.block ≠ b) ∧
      (∀ p ∈ t.inflight, p.2.block ≠ b) ∧ (t.block b).lead.mloops = [] ∧ (t.block b).lead.records = [] ∧ (t.block b).lead.tiles = [] ∧
      (∀ p ∈ t.ctxs, p.2.owner = b → p.1 ≠ B.ctx → p.2.state ≠ .opened) ∧
      (B.ctx ≠ 0 → B.ctx ∉ ((s.ownCtxs b).filter (· != B.ctx)).flatMap s.openBelow →
        (t.ctx B.ctx).state = .settling ∧ (t.ctx B.ctx).gen = (s.ctx B.ctx).gen) ∧
      (∀ u, u ≠ b → (t.block u).residence = (s.block u).residence) ∧ t.launches.keys = s.launches.keys) := by
  intro R ended
  have hready : s.exitReady b = true ↔ ended := State.exitReady_iff hB hf hctxs hres
  refine ⟨fun h => ?_, fun h => ⟨_, State.exec_blockExit_ready hB hf (hready.mpr h), ?_⟩⟩
  · rw [exec_blockExit, execBlockExit, event, if_neg (mt hready.mp h)]
  · have hleft := (State.hasLeft_left hB hf).settleLeft B
    obtain ⟨hexited, hmloops, hrecords, htiles⟩ := hleft.self
    have hvoid := s.voids_voidOpen b
    have hctx (k : Nat) : (s.left b).ctx k = (s.voidOpen b).ctx k := by rw [State.ctx, State.ctxs_left, State.ctx]
    refine ⟨hexited, hleft.threads, hleft.groups, hleft.bins, hleft.opLog, hleft.inflight, hmloops, hrecords, htiles, fun p hp howner hne => ?_,
      fun h0 _ => ?_, hleft.others, ?_⟩
    · have hsorted := State.sorted_settleLeft ((State.ctxs_left s b).symm ▸ hvoid.sorted hctxs) B
      have hself : ((s.left b).settleLeft B).ctx p.1 = p.2 := by
        rw [State.ctx, FMap.findD, FMap.find_of_mem _ _ hsorted hp, Option.getD_some]
      obtain ⟨hsame, -, hopened⟩ := (s.left b).ctx_settleLeft B p.1
      rw [hself, hctx] at hsame hopened
      rw [howner, hvoid.owner] at hsame
      exact fun hopen => State.closed_voidOpen hsame.symm (by rw [State.block_eq_of_find hB]; exact hne) (hopened hopen)
    · obtain ⟨-, hgen, -⟩ := (s.left b).ctx_settleLeft B B.ctx
      refine ⟨?_, hgen.trans ?_⟩
      · rw [State.settleLeft_ctx h0]
        exact State.state_beginSettle _ _
      · rw [hctx, hvoid.gen]
    · rw [State.settleLeft_same]
      exact (State.keys_counted _ _).trans (congrArg FMap.keys (s.launches_left b))

end Sys2Proof
end

