-- ==== Sys2Proof/Proofs/EndedBlocks.lean ====
section
/-!
The blocks of a launch that ends before they exit (R316): their groups go, and the contexts that they own retire.
-/

namespace Sys2Proof
namespace Machine

/-- Work of blocks goes between two states: no group and no live context comes to be, and launches, queues and counters are as they were. -/
structure State.Clears (s t : State) : Prop where
  launches : t.launches = s.launches
  sqs : t.sqs = s.sqs
  sec : t.sec = s.sec
  counters : t.counters = s.counters
  groups : ∀ p ∈ t.groups, ∃ q ∈ s.groups, q.2.block = p.2.block
  sorted : FMap.sorted s.ctxs = true → FMap.sorted t.ctxs = true
  owner : ∀ k, (t.ctx k).owner = (s.ctx k).owner
  live : ∀ k, (t.ctx k).state ≠ .retired → (s.ctx k).state ≠ .retired

theorem State.Clears.refl (s : State) : s.Clears s :=
  ⟨rfl, rfl, rfl, rfl, fun p hp => ⟨p, hp, rfl⟩, id, fun _ => rfl, fun _ => id⟩

theorem State.Clears.trans {s t u : State} (h : s.Clears t) (k : t.Clears u) : s.Clears u where
  launches := k.launches.trans h.launches
  sqs := k.sqs.trans h.sqs
  sec := k.sec.trans h.sec
  counters := k.counters.trans h.counters
  groups p hp := by
    obtain ⟨q, hq, hqp⟩ := k.groups p hp
    obtain ⟨r, hr, hrq⟩ := h.groups q hq
    exact ⟨r, hr, hrq.trans hqp⟩
  sorted := k.sorted ∘ h.sorted
  owner n := (k.owner n).trans (h.owner n)
  live n := h.live n ∘ k.live n

/-- What changes no context, and no group but to remove it. -/
theorem State.clears_of_eqs {s t : State} (hlaunches : t.launches = s.launches) (hsqs : t.sqs = s.sqs) (hsec : t.sec = s.sec)
    (hcounters : t.counters = s.counters) (hctxs : t.ctxs = s.ctxs) (hgroups : ∀ p ∈ t.groups, ∃ q ∈ s.groups, q.2.block = p.2.block) :
    s.Clears t := by
  have hctx (k : Nat) : t.ctx k = s.ctx k := by rw [State.ctx, hctxs, State.ctx]
  exact ⟨hlaunches, hsqs, hsec, hcounters, hgroups, fun h => hctxs ▸ h, fun k => by rw [hctx], fun k => by rw [hctx]; exact id⟩

theorem State.Stays.clears {s t : State} (h : s.Stays t) : s.Clears t := by
  refine State.clears_of_eqs ?_ ?_ ?_ ?_ ?_ h.groups
  · rw [h.same]
  · rw [h.same]
  · rw [h.same]
  · rw [h.same]
  · rw [h.same]

theorem State.OnlyMatrix.clears {s t : State} (h : s.OnlyMatrix t) : s.Clears t := by
  have hgroups : t.groups = s.groups := by rw [h]
  refine State.clears_of_eqs ?_ ?_ ?_ ?_ ?_ fun p hp => ⟨p, hgroups ▸ hp, rfl⟩
  · rw [h]
  · rw [h]
  · rw [h]
  · rw [h]
  · rw [h]

theorem State.OnlyBanks.clears {s t : State} (h : s.OnlyBanks t) : s.Clears t := by
  have hgroups : t.groups = s.groups := by rw [h]
  refine State.clears_of_eqs ?_ ?_ ?_ ?_ ?_ fun p hp => ⟨p, hgroups ▸ hp, rfl⟩
  · rw [h]
  · rw [h]
  · rw [h]
  · rw [h]
  · rw [h]

theorem State.clears_foldl {f : State → Nat → State} (hf : ∀ (s : State) a, s.Clears (f s a)) (l : List Nat) (s : State) :
    s.Clears (l.foldl f s) := by
  induction l generalizing s with
  | nil => exact .refl s
  | cons a r ih => exact (hf s a).trans (ih _)

theorem State.clears_dropIssue (s : State) (b : Nat) : s.Clears (s.dropIssue b) :=
  State.clears_of_eqs rfl rfl rfl rfl rfl fun p hp => ⟨p, (List.mem_filter.mp hp).1, rfl⟩

theorem State.clears_modBlock (s : State) (b : Nat) (f : Block → Block) : s.Clears (s.modBlock b f) :=
  State.clears_of_eqs rfl rfl rfl rfl rfl fun p hp => ⟨p, hp, rfl⟩

theorem State.clears_vacate (s : State) (b : Nat) (r : Residence) : s.Clears (s.vacate b r) :=
  (s.clears_modBlock b fun B => B.away r).trans (s.onlyBanks_vacate b r).clears

theorem State.clears_engines (s : State) (m : FMap (List EngCmd)) : s.Clears { s with engines := m } :=
  State.clears_of_eqs rfl rfl rfl rfl rfl fun p hp => ⟨p, hp, rfl⟩

theorem State.clears_dropEngines (s : State) (b : Nat) : s.Clears (s.dropEngines b) :=
  (s.stays_cancelCmds _).clears.trans (State.clears_engines _ _)

/-! ## Contexts that retire at once (R216, R316) -/

/-- A context voids at once. -/
def State.retireNow (s : State) (t : Nat) : State := (s.dropCells t).retireCtx t (s.ctx t).settled

theorem State.ctx_retireNow (s : State) (t k : Nat) :
    (s.retireNow t).ctx k = if k = t then { s.ctx t with state := .retired, settled := (s.ctx t).settled, held := [] } else s.ctx k :=
  State.ctx_modCtx (s.dropCells t) t (fun c => { c with state := .retired, settled := (s.ctx t).settled, held := [] }) k

theorem State.clears_retireNow (s : State) (t : Nat) : s.Clears (s.retireNow t) := by
  refine ⟨rfl, rfl, rfl, rfl, fun p hp => ⟨p, hp, rfl⟩, FMap.sorted_put _ _ _, fun k => ?_, fun k => ?_⟩
  · rw [State.ctx_retireNow]
    split
    next h => rw [h]
    next => rfl
  · rw [State.ctx_retireNow]
    split
    next => exact fun h => absurd rfl h
    next => exact id

theorem State.retired_foldl_retireNow {l : List Nat} {k : Nat} (hk : k ∈ l) (s : State) :
    ((l.foldl State.retireNow s).ctx k).state = .retired := by
  induction l generalizing s with
  | nil => cases hk
  | cons a r ih =>
    rcases List.mem_cons.mp hk with rfl | hk
    · by_contra hlive
      refine (State.clears_foldl State.clears_retireNow r (s.retireNow k)).live k hlive ?_
      rw [State.ctx_retireNow, if_pos rfl]
    · exact ih hk _

theorem State.voidNow_eq (s : State) (ts : List Nat) : s.voidNow ts = ts.foldl State.retireNow (s.cancelCmds fun c => ts.contains c.ctx) := rfl

theorem State.clears_voidNow (s : State) (ts : List Nat) : s.Clears (s.voidNow ts) := by
  rw [State.voidNow_eq]
  exact (s.stays_cancelCmds _).clears.trans (State.clears_foldl State.clears_retireNow _ _)

theorem State.mem_ownCtxs {s : State} {b k : Nat} (howner : (s.ctx k).owner = b) (hlive : (s.ctx k).state ≠ .retired) : k ∈ s.ownCtxs b := by
  have hfind : s.ctxs.find k = some (s.ctx k) := by
    cases hf : s.ctxs.find k with
    | none =>
      rw [State.ctx, FMap.findD, hf] at hlive
      exact absurd rfl hlive
    | some C => rw [State.ctx, FMap.findD, hf, Option.getD_some]
  exact List.mem_map_of_mem (f := Prod.fst) (List.mem_filter.mpr ⟨FMap.mem_of_find hfind, by simp [howner, hlive]⟩)

/-! ## The end of a block (R316) -/

/-- A block of a launch that ends leaves its core. -/
def State.endBlock (s : State) (b : Nat) : State :=
  ((((s.dropMatrix b).dropEngines b).voidNow (s.ownCtxs b)).dropIssue b).vacate b .exited

theorem State.clears_endBlock (s : State) (b : Nat) : s.Clears (s.endBlock b) :=
  ((((s.onlyMatrix_dropMatrix b).clears.trans (State.clears_dropEngines _ b)).trans (State.clears_voidNow _ _)).trans
    (State.clears_dropIssue _ b)).trans (State.clears_vacate _ b _)

/-- A block has no group and owns no live context. -/
def State.Bare (s : State) (b : Nat) : Prop :=
  (∀ p ∈ s.groups, p.2.block ≠ b) ∧ ∀ k, (s.ctx k).owner = b → (s.ctx k).state = .retired

theorem State.Clears.bare {s t : State} (h : s.Clears t) {b : Nat} (hb : s.Bare b) : t.Bare b := by
  refine ⟨fun p hp => ?_, fun k hk => ?_⟩
  · obtain ⟨q, hq, hqp⟩ := h.groups p hp
    rw [← hqp]
    exact hb.1 q hq
  · by_contra hlive
    exact h.live k hlive (hb.2 k ((h.owner k).symm.trans hk))

theorem State.bare_endBlock (s : State) (b : Nat) : (s.endBlock b).Bare b := by
  refine (State.clears_vacate _ b _).bare ⟨ne_of_mem_filter_bne, ?_⟩
  generalize hts : s.ownCtxs b = ts
  intro k hk
  by_contra hlive
  have hbefore := (s.onlyMatrix_dropMatrix b).clears.trans (State.clears_dropEngines _ b)
  generalize (s.dropMatrix b).dropEngines b = u at hk hlive hbefore
  have hall := hbefore.trans ((u.clears_voidNow ts).trans (State.clears_dropIssue _ b))
  have hmem : k ∈ ts := hts ▸ State.mem_ownCtxs ((hall.owner k).symm.trans hk) (hall.live k hlive)
  refine (State.clears_dropIssue _ b).live k hlive ?_
  rw [State.voidNow_eq]
  exact State.retired_foldl_retireNow hmem _

theorem State.bare_foldl_endBlock {l : List Nat} {b : Nat} (hb : b ∈ l) (s : State) : (l.foldl State.endBlock s).Bare b := by
  induction l generalizing s with
  | nil => cases hb
  | cons a r ih =>
    rcases List.mem_cons.mp hb with rfl | hb
    · exact (State.clears_foldl State.clears_endBlock r _).bare (s.bare_endBlock b)
    · exact ih hb _

theorem State.clears_mintQ (s : State) (m : FMap (List MintReq)) : s.Clears { s with mintQ := m } :=
  State.clears_of_eqs rfl rfl rfl rfl rfl fun p hp => ⟨p, hp, rfl⟩

theorem State.endBlocks_eq (s : State) (l : Nat) : s.endBlocks l =
    { (s.launchBlocks l).foldl State.endBlock s with mintQ := (s.endBlocks l).mintQ } := rfl

theorem State.clears_endBlocks (s : State) (l : Nat) : s.Clears (s.endBlocks l) := by
  rw [State.endBlocks_eq]
  exact (State.clears_foldl State.clears_endBlock _ s).trans (State.clears_mintQ _ _)

theorem State.bare_endBlocks {s : State} {l b : Nat} (hb : b ∈ s.launchBlocks l) : (s.endBlocks l).Bare b := by
  rw [State.endBlocks_eq]
  exact (State.clears_mintQ _ _).bare (State.bare_foldl_endBlock hb s)

end Machine
end Sys2Proof
end

