-- ==== Sys2Proof/Proofs/LaunchEnds.lean ====
section
/-!
The completion of a launch (R82, R316): when it is over, its completion record, its signal, and what leaves the tables. Then O49 from its
clauses.
-/

namespace Sys2Proof
namespace Machine

/-! ## When a launch is over (R82) -/

section
variable {s : State} {l : Nat}

theorem State.noTagAsked_iff : s.noTagAsked l = true ↔ ∀ p ∈ s.mintQ, ∀ r ∈ p.2, ∀ i, r ≠ .block l i := by
  simp only [State.noTagAsked, List.all_eq_true]
  refine forall₂_congr fun p _ => forall₂_congr fun r _ => ?_
  cases r with
  | block k j => simp
  | open_ => simp

theorem State.ctxOver_iff (b : Nat) : s.ctxOver b = true ↔ (s.block b).ctx = 0 ∨ (s.ctx (s.block b).ctx).owner ≠ b ∨
    (s.ctx (s.block b).ctx).state = .retired := by
  simp [State.ctxOver, or_assoc]

theorem State.blocksOver_iff (hs : FMap.sorted s.blocks = true) : (s.launchBlocks l).all s.blockOver = true ↔
    ∀ p ∈ s.blocks, p.2.launch = l → p.2.residence = .exited ∧
      (p.2.ctx = 0 ∨ (s.ctx p.2.ctx).owner ≠ p.1 ∨ (s.ctx p.2.ctx).state = .retired) := by
  simp only [State.launchBlocks, List.all_map, List.all_eq_true, List.mem_filter, beq_iff_eq, Function.comp_apply, and_imp]
  refine forall₂_congr fun p hp => ?_
  have hblock : s.block p.1 = p.2 := State.block_eq_of_find (FMap.find_of_mem _ _ hs hp)
  rw [State.blockOver, Bool.and_eq_true, beq_iff_eq, State.ctxOver_iff, hblock]

theorem State.launchOver_iff {L : Launch} (hl : s.launches.find l = some L) (hs : FMap.sorted s.blocks = true) (he : L.ending = false) :
    s.launchOver l = true ↔ L.state = .ready ∧ L.nextBlock = L.lrec.blockCount ∧ (∀ p ∈ s.mintQ, ∀ r ∈ p.2, ∀ i, r ≠ .block l i) ∧
      ∀ p ∈ s.blocks, p.2.launch = l → p.2.residence = .exited ∧
        (p.2.ctx = 0 ∨ (s.ctx p.2.ctx).owner ≠ p.1 ∨ (s.ctx p.2.ctx).state = .retired) := by
  rw [← State.noTagAsked_iff, ← State.blocksOver_iff hs]
  simp only [State.launchOver, State.launch_of_find hl, hl, he, Option.isSome_some, Bool.true_and, Bool.false_or, Bool.and_eq_true,
    beq_iff_eq, and_assoc]

theorem State.launchOver_of_ending {L : Launch} (hl : s.launches.find l = some L) (he : L.ending = true) : s.launchOver l = true := by
  simp [State.launchOver, State.launch_of_find hl, hl, he]

/-- The blocks that have completed are those that have exited, when all of them have. -/
theorem State.length_blocksOver (hs : FMap.sorted s.blocks = true)
    (hover : ∀ p ∈ s.blocks, p.2.launch = l → p.2.residence = .exited ∧
      (p.2.ctx = 0 ∨ (s.ctx p.2.ctx).owner ≠ p.1 ∨ (s.ctx p.2.ctx).state = .retired)) :
    ((s.launchBlocks l).filter s.blockOver).length = (s.blocks.filter fun p => p.2.launch == l && p.2.residence == .exited).length := by
  have hall := List.all_eq_true.mp ((State.blocksOver_iff hs).mpr hover)
  rw [List.filter_eq_self.mpr hall, State.launchBlocks, List.length_map]
  refine congrArg List.length (List.filter_congr fun p hp => ?_)
  cases hlaunch : p.2.launch == l with
  | false => rfl
  | true => simp [(hover p hp (beq_iff_eq.mp hlaunch)).1]

end

/-! ## The record, the signal and the post (R82, R383) -/

/-- The completion record is written where the launch asks for one. -/
def State.recorded (s : State) (R : LRec) (bs : List Byte) : State :=
  if R.status = 0 then s else s.writeRecord R.tenant R.world R.status bs

/-- The signal add of a launch. -/
def State.signalled (s : State) (R : LRec) (done : Bool) : State :=
  if done && R.sigEn then s.addCounter R.sigCtr (BitVec.ofNat 64 R.sigInc) else s

/-- A post to the event ring, if it is asked for. -/
def State.posted (s : State) (goes : Bool) (source status value : Nat) : State :=
  if goes then s.evPost 1 source status value else s

/-- A launch and its blocks leave the tables. -/
def State.forget (s : State) (l : Nat) : State :=
  { s with
    launches := s.launches.del l
    blocks := s.blocks.filter fun p => p.2.launch != l
    abortBusy := s.abortBusy && s.launches.any fun p => p.1 != l && p.2.ending }

/-- The state after the record, the signal and the post of a launch. -/
def State.closing (s s1 : State) (l status : Nat) : State :=
  let L := s.launch l
  ((s1.recorded L.lrec (completionBytes ((s.launchBlocks l).filter s.blockOver).length 0 status L.transient)).signalled L.lrec
    (status == stDone)).posted ((s.sq L.queue).notify && s.streamState L.queue != 3) L.queue status L.lrec.status

theorem State.onlyBytes_recorded (s : State) (R : LRec) (bs : List Byte) : s.OnlyBytes (s.recorded R bs) := by
  unfold State.recorded
  split
  · exact .refl s
  · exact s.onlyBytes_writeRecord _ _ _ _

theorem State.evPost_same (s : State) (kind source detail value : Nat) : s.evPost kind source detail value =
    { s with mem := (s.evPost kind source detail value).mem, evr := (s.evPost kind source detail value).evr } := by
  unfold State.evPost
  dsimp only
  split
  · rfl
  · split
    · rw [State.setBytes_eq]
    · rfl

theorem State.posted_same (s : State) (goes : Bool) (source status value : Nat) : s.posted goes source status value =
    { s with mem := (s.posted goes source status value).mem, evr := (s.posted goes source status value).evr } := by
  unfold State.posted
  split
  · exact s.evPost_same _ _ _ _
  · rfl

theorem State.signalled_same (s : State) (R : LRec) (done : Bool) : s.signalled R done =
    { s with counters := (s.signalled R done).counters, groups := (s.signalled R done).groups } := by
  unfold State.signalled
  split
  · exact s.addCounter_eq _ _
  · rfl

theorem State.signalled_not_done (s : State) (R : LRec) : s.signalled R false = s := if_neg (by simp)

theorem State.counter_signalled_done (s : State) (R : LRec) (n : Nat) : (s.signalled R true).counter n =
    s.counter n + if R.sigEn = true ∧ n = R.sigCtr then BitVec.ofNat 64 R.sigInc else 0 := by
  unfold State.signalled
  by_cases hsig : R.sigEn = true
  · rw [if_pos (by simp [hsig]), State.counter_addCounter]
    by_cases hn : n = R.sigCtr
    · rw [if_pos hn, if_pos ⟨hsig, hn⟩]
    · rw [if_neg hn, if_neg fun h => hn h.2]
      exact (BitVec.add_zero _).symm
  · rw [if_neg (by simp [hsig]), if_neg fun h => hsig h.1]
    exact (BitVec.add_zero _).symm

/-- What the record, the signal and the post of a launch leave as it is. -/
theorem State.closing_same (s s1 : State) (l status : Nat) : s.closing s1 l status = { s1 with
    mem := (s.closing s1 l status).mem, threads := (s.closing s1 l status).threads, evr := (s.closing s1 l status).evr
    counters := (s.closing s1 l status).counters, groups := (s.closing s1 l status).groups } := by
  unfold State.closing
  dsimp only
  have hrec := s1.onlyBytes_recorded (s.launch l).lrec
    (completionBytes ((s.launchBlocks l).filter s.blockOver).length 0 status (s.launch l).transient)
  generalize s1.recorded _ _ = u at hrec ⊢
  rw [State.posted_same, State.signalled_same, hrec]

theorem State.counter_closing_done (s : State) (l n : Nat) : (s.closing s l stDone).counter n = s.counter n +
    if (s.launch l).lrec.sigEn = true ∧ n = (s.launch l).lrec.sigCtr then BitVec.ofNat 64 (s.launch l).lrec.sigInc else 0 := by
  unfold State.closing
  dsimp only
  have hrec := s.onlyBytes_recorded (s.launch l).lrec
    (completionBytes ((s.launchBlocks l).filter s.blockOver).length 0 stDone (s.launch l).transient)
  generalize s.recorded _ _ = u at hrec ⊢
  have hcounter : u.counter n = s.counter n := by rw [State.counter, hrec, State.counter]
  have hpost := (u.signalled (s.launch l).lrec (stDone == stDone)).posted_same
    ((s.sq (s.launch l).queue).notify && s.streamState (s.launch l).queue != 3) (s.launch l).queue stDone (s.launch l).lrec.status
  rw [State.counter, hpost, ← hcounter]
  exact u.counter_signalled_done (s.launch l).lrec n

theorem State.mem_closing_quiet {s : State} {l : Nat} (hquiet : (s.sq (s.launch l).queue).notify = false) (s1 : State) (status : Nat) :
    (s.closing s1 l status).mem = (s1.recorded (s.launch l).lrec
      (completionBytes ((s.launchBlocks l).filter s.blockOver).length 0 status (s.launch l).transient)).mem := by
  unfold State.closing
  dsimp only
  rw [hquiet, State.posted, if_neg (by simp), State.signalled_same]

/-- What does not end well leaves counters and groups as they are. -/
theorem State.closing_not_done {s : State} {l status : Nat} (h : status ≠ stDone) (s1 : State) :
    (s.closing s1 l status).counters = s1.counters ∧ (s.closing s1 l status).groups = s1.groups := by
  unfold State.closing
  dsimp only
  have hrec := s1.onlyBytes_recorded (s.launch l).lrec
    (completionBytes ((s.launchBlocks l).filter s.blockOver).length 0 status (s.launch l).transient)
  generalize s1.recorded _ _ = u at hrec ⊢
  rw [beq_false_of_ne h, State.signalled_not_done, State.posted_same, hrec]
  exact ⟨rfl, rfl⟩

/-! ## The bytes of a completion record (R82) -/

theorem completionBytes_eq (n transient : Nat) : completionBytes n 0 0 transient =
    bytesOf [BitVec.ofNat 32 n ++ (0 : Word), BitVec.ofNat 64 (transient % 2 ^ 32)] := by
  have hcode : (BitVec.ofNat 32 n ++ (0 : Word) : DWord).toNat = n % 2 ^ 32 * 2 ^ 32 := by
    rw [BitVec.toNat_append, BitVec.toNat_ofNat]
    simp [Nat.shiftLeft_eq]
  have htransient : (BitVec.ofNat 64 (transient % 2 ^ 32)).toNat = transient % 2 ^ 32 := by
    rw [BitVec.toNat_ofNat, Nat.mod_eq_of_lt (by omega)]
  rw [bytesOf, List.flatMap_cons, List.flatMap_cons, List.flatMap_nil, List.append_nil, hcode, htransient, completionBytes]
  simp

theorem getElem_bytesOf_pair (lo hi : DWord) {k : Nat} (h : k < (bytesOf [lo, hi]).length) :
    (bytesOf [lo, hi])[k] = (hi ++ lo).extractLsb' (8 * k) 8 := by
  have hk : k < 16 := by rwa [bytesOf_length] at h
  rw [bytesOf_getElem]
  by_cases hlow : k < 8
  · rw [BitVec.extractLsb'_append_eq_of_add_le (by omega), Nat.div_eq_of_lt hlow, Nat.mod_eq_of_lt hlow]
    rfl
  · have hdiv : k / 8 = 1 := by omega
    have hmod : 8 * (k % 8) = 8 * k - 64 := by omega
    rw [BitVec.extractLsb'_append_eq_of_le (by omega), hdiv, hmod]
    rfl

/-- A record that translates to DRAM lies there. -/
theorem State.writeRecord_dram {s : State} {tenant world addr : Nat} {bs : List Byte} {d : DWord} (haddr : addr < 2 ^ 52)
    (hend : addr < Config.transEnd) (hwalk : s.walk tenant addr = some d)
    (hcheck : s.pageCheck ⟨0, 0, 0, 0, tenant, world, 0, true⟩ Need.store d (framePa d addr) = none)
    (hphys : s.phys (framePa d addr) = .dram) : s.writeRecord tenant world addr bs = s.setBytes (framePa d addr) bs := by
  have hok : ¬ (2 ^ 52 ≤ addr ∨ Config.transEnd ≤ addr) := by omega
  unfold State.writeRecord
  dsimp only
  rw [if_neg hok, hwalk]
  dsimp only
  rw [hcheck]
  dsimp only
  rw [hphys]

theorem State.byte_setBytes_bytesOf_pair (s : State) (pa : Nat) (lo hi : DWord) (x : Nat) : (s.setBytes pa (bytesOf [lo, hi])).byte x =
    if pa ≤ x ∧ x < pa + 16 then (hi ++ lo).extractLsb' (8 * (x - pa)) 8 else s.byte x := by
  have hlen : (bytesOf [lo, hi]).length = 16 := bytesOf_length _
  by_cases hx : pa ≤ x ∧ x < pa + 16
  · obtain ⟨k, rfl⟩ := Nat.exists_eq_add_of_le hx.1
    have hk : k < (bytesOf [lo, hi]).length := by omega
    rw [if_pos hx, State.byte_setBytes_in _ _ _ _ hk, getElem_bytesOf_pair, Nat.add_sub_cancel_left]
  · rw [if_neg hx, State.byte_setBytes_out _ _ _ _ (by omega)]

/-! ## The launch leaves the tables -/

theorem State.find_forget (s : State) (l : Nat) : (s.forget l).launches.find l = none ∧
    (∀ p ∈ (s.forget l).blocks, p.2.launch ≠ l) ∧ ∀ k, k ≠ l → (s.forget l).launches.find k = s.launches.find k :=
  ⟨FMap.find_del_self _ _, ne_of_mem_filter_bne, fun _ hk => FMap.find_del_ne _ _ _ hk⟩

/-- A launch as another of its queue has ended with FAULT or ABORTED. -/
def State.unreadyOne (s : State) (q order : Nat) (p : Nat × Launch) : Nat × Launch :=
  if p.2.queue = q ∧ order < p.2.order ∧ p.2.state = .ready ∧ !(s.blocks.any fun x => x.2.launch == p.1 && x.2.residence != .waiting) then
    (p.1, { p.2 with state := .checked }) else p

theorem State.unreadyOne_facts (s : State) (q order : Nat) (p : Nat × Launch) :
    (s.unreadyOne q order p).1 = p.1 ∧ (s.unreadyOne q order p).2.lrec = p.2.lrec := by
  unfold State.unreadyOne
  split <;> exact ⟨rfl, rfl⟩

theorem State.lrec_unready (s : State) (q order k : Nat) :
    ((s.unready q order).launches.find k).map Launch.lrec = (s.launches.find k).map Launch.lrec := by
  have hmap : (s.unready q order).launches = s.launches.map (s.unreadyOne q order) := rfl
  rw [hmap, FMap.find_map_keyed _ _ fun p => (s.unreadyOne_facts q order p).1, Option.map_map]
  exact congrArg (Option.map · _) (funext fun L => (s.unreadyOne_facts q order (k, L)).2)

/-! ## LAUNCH_COMPLETE -/

theorem State.exec_launchComplete_done {s : State} {l : Nat} (hover : s.launchOver l = true) (he : (s.launch l).ending = false) :
    exec (.launchComplete l) s = .next ((s.closing s l stDone).forget l) := by
  rw [exec_launchComplete, execLaunchComplete, event, if_pos hover]
  simp only [he, State.closing, State.posted, State.signalled, State.recorded, State.forget]
  simp

theorem State.exec_launchComplete_ended {s : State} {l : Nat} (hover : s.launchOver l = true) (he : (s.launch l).ending = true)
    (hstatus : (s.launch l).status ≠ stDone) : exec (.launchComplete l) s =
      .next ((((s.closing (s.endBlocks l) l (s.launch l).status).stopQueue (s.launch l).queue (s.launch l).status false).unready
        (s.launch l).queue (s.launch l).order).forget l) := by
  rw [exec_launchComplete, execLaunchComplete, event, if_pos hover]
  simp only [he, State.closing, State.posted, State.signalled, State.recorded, State.forget]
  simp [hstatus]

end Machine

open Machine

/-- The clause of O49 for a launch whose blocks have completed (R82). -/
theorem launchEvents_complete (s : State) (l : Nat) (L : Launch) (hl : s.launches.find l = some L) (hs : FMap.sorted s.blocks = true)
    (he : L.ending = false) :
    let R := L.lrec
    let done : Prop := L.state = .ready ∧ L.nextBlock = R.blockCount ∧ (∀ p ∈ s.mintQ, ∀ r ∈ p.2, ∀ i, r ≠ .block l i) ∧
      ∀ p ∈ s.blocks, p.2.launch = l → p.2.residence = .exited ∧
        (p.2.ctx = 0 ∨ (s.ctx p.2.ctx).owner ≠ p.1 ∨ (s.ctx p.2.ctx).state = .retired)
    let gone (t : State) : Prop := t.launches.find l = none ∧ (∀ p ∈ t.blocks, p.2.launch ≠ l) ∧
      ∀ k, k ≠ l → (t.launches.find k).map Launch.lrec = (s.launches.find k).map Launch.lrec
    let code : DWord := BitVec.ofNat 32 (s.blocks.filter fun p => p.2.launch == l && p.2.residence == .exited).length ++ (0 : Word)
    (¬ done → exec (.launchComplete l) s = .next s) ∧
    (done → ∃ t : State, exec (.launchComplete l) s = .next t ∧ gone t ∧ t.sqs = s.sqs ∧
      (∀ n, t.counter n = s.counter n + if R.sigEn = true ∧ n = R.sigCtr then BitVec.ofNat 64 R.sigInc else 0) ∧
      (R.status = 0 → (s.sq L.queue).notify = false → t.mem = s.mem) ∧
      ∀ d, R.status ≠ 0 → (s.sq L.queue).notify = false → R.status < 2 ^ 52 → s.walk R.tenant R.status = some d →
        s.pageCheck ⟨0, 0, 0, 0, R.tenant, R.world, 0, true⟩ Need.store d (framePa d R.status) = none →
        R.status < Config.transEnd → s.phys (framePa d R.status) = .dram →
        ∀ x, t.byte x = if framePa d R.status ≤ x ∧ x < framePa d R.status + 16 then
          ((BitVec.ofNat 64 (L.transient % 2 ^ 32)) ++ code).extractLsb' (8 * (x - framePa d R.status)) 8 else s.byte x) := by
  intro R done gone code
  have hlaunch := State.launch_of_find hl
  have hover := State.launchOver_iff hl hs he
  refine ⟨fun h => ?_, fun h => ⟨_, State.exec_launchComplete_done (hover.mpr h) (by rw [hlaunch]; exact he), ?_⟩⟩
  · rw [exec_launchComplete, execLaunchComplete, event, if_neg (mt hover.mp h)]
  · obtain ⟨-, -, -, hblocks⟩ := h
    have hsame := s.closing_same s l stDone
    have hcounter := s.counter_closing_done l
    have hmem (hquiet : (s.sq L.queue).notify = false) : (s.closing s l stDone).mem = (s.recorded R (bytesOf
        [code, BitVec.ofNat 64 (L.transient % 2 ^ 32)])).mem := by
      rw [State.mem_closing_quiet (by rw [hlaunch]; exact hquiet), hlaunch, State.length_blocksOver hs hblocks, ← completionBytes_eq]
      rfl
    rw [hlaunch] at hcounter
    generalize s.closing s l stDone = u at hsame hcounter hmem ⊢
    obtain ⟨hnone, hgone, hothers⟩ := u.find_forget l
    have hlaunches : u.launches = s.launches := by rw [hsame]
    have hsqs : u.sqs = s.sqs := by rw [hsame]
    refine ⟨⟨hnone, hgone, fun k hk => ?_⟩, hsqs, hcounter, fun h0 hquiet => ?_,
      fun d h0 hquiet haddr hwalk hcheck hend hphys x => ?_⟩
    · rw [hothers k hk, hlaunches]
    · refine (hmem hquiet).trans ?_
      rw [State.recorded, if_pos h0]
    · have hbyte : (u.forget l).byte x = (s.recorded R (bytesOf [code, BitVec.ofNat 64 (L.transient % 2 ^ 32)])).byte x := by
        rw [State.byte, State.byte, ← hmem hquiet]
        rfl
      rw [hbyte, State.recorded, if_neg h0, State.writeRecord_dram haddr hend hwalk hcheck hphys, State.byte_setBytes_bytesOf_pair]

/-- The clause of O49 for a launch that ends before its blocks have completed (R80, R316). -/
theorem launchEvents_ended (s : State) (l : Nat) (L : Launch) (hl : s.launches.find l = some L) (hctxs : FMap.sorted s.ctxs = true)
    (he : L.ending = true) (hstreams : ∀ p ∈ s.sec.streams, L.queue ∈ p.2.ifs → p.2.state = 0 ∨ p.2.state = 2) (hstatus : L.status ≠ 0) :
    ∃ t : State, exec (.launchComplete l) s = .next t ∧
      (t.launches.find l = none ∧ (∀ p ∈ t.blocks, p.2.launch ≠ l) ∧
        ∀ k, k ≠ l → (t.launches.find k).map Launch.lrec = (s.launches.find k).map Launch.lrec) ∧ t.counters = s.counters ∧
      (t.sq L.queue).stopped = true ∧ (t.sq L.queue).status = L.status ∧
      (L.status = 6 ∨ L.status = 7 → (t.sq L.queue).launchStop = true) ∧ (t.sq L.queue).head = (s.sq L.queue).head ∧
      (∀ p ∈ t.groups, (s.block p.2.block).launch ≠ l ∨ s.blocks.find p.2.block = none) ∧
      ∀ p ∈ t.ctxs, p.2.state ≠ .retired → (s.block p.2.owner).launch ≠ l ∨ s.blocks.find p.2.owner = none := by
  have hlaunch := State.launch_of_find hl
  refine ⟨_, State.exec_launchComplete_ended (State.launchOver_of_ending hl he) (by rw [hlaunch]; exact he) (by rw [hlaunch]; exact hstatus), ?_⟩
  rw [hlaunch]
  have hclears := s.clears_endBlocks l
  have hsame := s.closing_same (s.endBlocks l) l L.status
  obtain ⟨hcounters, hgroups⟩ := State.closing_not_done (s := s) (l := l) (status := L.status) hstatus (s.endBlocks l)
  have hbare (b : Nat) (hb : b ∈ s.launchBlocks l) := State.bare_endBlocks hb
  generalize s.endBlocks l = e at hclears hsame hcounters hgroups hbare
  generalize s.closing e l L.status = u at hsame hcounters hgroups ⊢
  have hother (b : Nat) (hb : b ∉ s.launchBlocks l) : (s.block b).launch ≠ l ∨ s.blocks.find b = none := by
    cases hfind : s.blocks.find b with
    | none => exact .inr rfl
    | some B =>
      refine .inl fun hmine => hb (List.mem_map_of_mem (f := Prod.fst) (List.mem_filter.mpr ⟨FMap.mem_of_find hfind, ?_⟩))
      rw [State.block_eq_of_find hfind] at hmine
      exact beq_iff_eq.mpr hmine
  have hsqs : u.sqs = s.sqs := by rw [hsame]; exact hclears.sqs
  have hsec : u.sec = s.sec := by rw [hsame]; exact hclears.sec
  have hlaunches : u.launches = s.launches := by rw [hsame]; exact hclears.launches
  have hctxs' : u.ctxs = e.ctxs := by rw [hsame]
  have hstream : u.streamState L.queue ≠ 3 := by
    have hfree : u.streamState L.queue = 0 ∨ u.streamState L.queue = 2 := State.streamState_of_free (by rw [hsec]; exact hstreams)
    omega
  have hsq := (State.sq_stopQueue_of_sqs hsqs L.queue L.status false L.queue).trans (if_pos rfl)
  rw [if_neg hstream] at hsq
  obtain ⟨hnone, hgone, hothers⟩ := ((u.stopQueue L.queue L.status false).unready L.queue L.order).find_forget l
  have hsqt : ((((u.stopQueue L.queue L.status false).unready L.queue L.order).forget l).sq L.queue) =
      (u.stopQueue L.queue L.status false).sq L.queue := rfl
  refine ⟨⟨hnone, hgone, fun k hk => ?_⟩, hcounters.trans hclears.counters, ?_, ?_, fun hstop => ?_, ?_, fun p hp => ?_, fun p hp hlive => ?_⟩
  · rw [hothers k hk, State.lrec_unready]
    exact congrArg (fun m : FMap Launch => (m.find k).map Launch.lrec) hlaunches
  · rw [hsqt, hsq]
  · rw [hsqt, hsq]
  · rw [hsqt, hsq]
    rcases hstop with h | h <;> simp [h, stFault, stAborted]
  · rw [hsqt, hsq]
  · refine hother _ fun hb => (hbare _ hb).1 p ?_ rfl
    exact hgroups ▸ hp
  · refine hother _ fun hb => hlive ?_
    have hp : p ∈ e.ctxs := hctxs' ▸ hp
    have hself : e.ctx p.1 = p.2 := by rw [State.ctx, FMap.findD, FMap.find_of_mem _ _ (hclears.sorted hctxs) hp, Option.getD_some]
    have hretired := (hbare _ hb).2 p.1
    rw [hself] at hretired
    exact hretired rfl

/-- Settles O49: stream queues, the check of records, readiness, the dispatch and the exit of blocks, the region of a gang, and the completion of
launches, each from its clause. -/
theorem launchEvents : Obligations.LaunchEvents := by
  unfold Obligations.LaunchEvents
  refine ⟨fun s q hq hstreams => ?_, launchEvents_ready, fun s part l first x hfits _ hkeys _ => launchEvents_dispatch s part l first x hfits hkeys,
    launchEvents_gang, fun s b B _ hctxs hB hres hf => launchEvents_exit s b B hctxs hB hres hf, fun s l L hl hs hctxs => ?_⟩
  · obtain ⟨htail, hresume, hskip, hidle⟩ := launchEvents_queues s q hq hstreams
    exact ⟨htail, hresume, hskip, hidle, launchEvents_check s q hq hstreams⟩
  · have hcomplete := launchEvents_complete s l L hl hs
    exact ⟨fun he => (hcomplete he).1, fun he => (hcomplete he).2, launchEvents_ended s l L hl hctxs⟩

end Sys2Proof
end

