-- ==== Sys2Proof/Proofs/IndirectTargets.lean ====
section
/-!
The checks of an indirect branch target (R106, R111, Table 5-2).
-/

namespace Sys2Proof
namespace Machine

theorem State.phys_eq_dram_iff (s : State) (pa : Nat) : s.phys pa = .dram ↔ pa < s.dramSize ∧ pa < 0x30000000000 := by
  refine ⟨fun h => ?_, fun ⟨hfit, hlow⟩ => State.phys_dram hlow hfit⟩
  unfold State.phys at h
  split at h
  · next hlow =>
    split at h
    · next hfit => exact ⟨hfit, hlow⟩
    · cases h
  · repeat' split at h
    all_goals cases h

theorem isLand_iff (w : DWord) : isLand w = true ↔ w.toNat / 2 ^ 46 % 2 ^ 9 = 0x086 ∧ w.toNat / 2 ^ 63 % 2 = 0 := by
  simp [isLand, bitOf, bitsOf]

/-! ## The address of a fetch (R106) -/

/-- A fetch may read the page of an entry at a physical address: a NORMAL page of the world, with execute permission, in fitted DRAM. -/
def State.Fetchable (s : State) (world : Nat) (d : DWord) (pa : Nat) : Prop :=
  bitsOf d.toNat 44 4 = world ∧ bitOf d.toNat 56 = true ∧ bitsOf d.toNat 59 2 = 0 ∧ pa < s.dramSize ∧ pa < 0x30000000000

section
variable {s : State} {c tenant world x : Nat}

theorem State.fetchPa_beyond (h : Config.transEnd ≤ x) : s.fetchPa c tenant world x = (.error cXlate, s) := if_pos h

theorem State.fetchPa_untranslated (h : x < Config.transEnd) (he : (s.entryFor c tenant world x).1 = none) :
    s.fetchPa c tenant world x = (.error cXlate, (s.entryFor c tenant world x).2) := by
  rw [State.fetchPa, if_neg (Nat.not_le.mpr h)]
  generalize s.entryFor c tenant world x = e at he
  obtain ⟨entry, u⟩ := e
  subst he
  rfl

/-- What a fetch in a translated page answers, by the entry of the page. -/
theorem State.fetchPa_translated {d : DWord} (h : x < Config.transEnd) (he : (s.entryFor c tenant world x).1 = some d) :
    ((s.entryFor c tenant world x).2.Fetchable world d (framePa d x) →
      s.fetchPa c tenant world x = (.ok (framePa d x), (s.entryFor c tenant world x).2)) ∧
    (¬ (s.entryFor c tenant world x).2.Fetchable world d (framePa d x) →
      s.fetchPa c tenant world x = (.error cPerm, (s.entryFor c tenant world x).2)) := by
  rw [State.fetchPa, if_neg (Nat.not_le.mpr h)]
  generalize s.entryFor c tenant world x = e at he
  obtain ⟨entry, u⟩ := e
  subst he
  have hbad : (pteWorld d ≠ world ∨ (!pteX d) = true ∨ pteType d ≠ 0 ∨ u.phys (framePa d x) ≠ .dram) ↔
      ¬ u.Fetchable world d (framePa d x) := by
    simp only [State.Fetchable, ne_eq, State.phys_eq_dram_iff, pteWorld, pteX, pteType]
    cases bitOf d.toNat 56
    · simp
    · simp only [Bool.not_true, Bool.false_eq_true, false_or, true_and]
      tauto
  exact ⟨fun hgood => if_neg fun hc => hbad.mp hc hgood, fun hno => if_pos (hbad.mpr hno)⟩

end

/-! ## The checks in their order (Table 5-2) -/

section
variable {s : State} {t x : Nat} {land : Bool}

theorem State.indirect_misaligned (h : x % 8 ≠ 0) : s.indirect t x land = (some (.plain t cJtAlign), s) := if_pos h

theorem State.indirect_beyond (h8 : x % 8 = 0) (h : 2 ^ 52 ≤ x ∨ Config.transEnd ≤ x) :
    s.indirect t x land = (some ⟨t, cXlate, x % 2 ^ 52, 0⟩, s) := by
  rw [State.indirect, if_neg (not_not.mpr h8)]
  by_cases hbig : 2 ^ 52 ≤ x
  · exact if_pos hbig
  · rw [if_neg hbig, State.fetchPa_beyond (h.resolve_left hbig), Nat.mod_eq_of_lt (Nat.not_le.mp hbig)]

/-- A target that no fetch may read raises what the fetch would raise. -/
theorem State.indirect_unreadable {cause : Nat} {u : State} (h8 : x % 8 = 0) (h : x < 2 ^ 52)
    (hf : s.fetchPa (clusterOf (coreOf t)) (s.recOf (s.thread t).block).tenant (s.recOf (s.thread t).block).world x = (.error cause, u)) :
    s.indirect t x land = (some ⟨t, cause, x, 0⟩, u) := by
  rw [State.indirect, if_neg (not_not.mpr h8), if_neg (Nat.not_le.mpr h), hf]

/-- A target that a fetch may read is asked for LAND, where that check is made. -/
theorem State.indirect_readable {pa : Nat} {u : State} (h8 : x % 8 = 0) (h : x < 2 ^ 52)
    (hf : s.fetchPa (clusterOf (coreOf t)) (s.recOf (s.thread t).block).tenant (s.recOf (s.thread t).block).world x = (.ok pa, u)) :
    s.indirect t x land = if land = true ∧ isLand (u.fetchWord pa) = false then (some (.plain t cJtLand), u) else (none, u) := by
  rw [State.indirect, if_neg (not_not.mpr h8), if_neg (Nat.not_le.mpr h), hf]
  simp

end

end Machine

open Machine

/-- Settles O17: the checks are made in the order of Table 5-2, each by what a fetch of the target would answer. -/
theorem indirectTargets : Obligations.IndirectTargets := by
  intro s t x land R c e
  refine ⟨State.indirect_misaligned, State.indirect_beyond, fun h8 htrans hlow => ⟨fun hnone => ?_, fun d hd => ?_⟩⟩
  · exact State.indirect_unreadable h8 hlow (State.fetchPa_untranslated htrans hnone)
  · obtain ⟨hok, hperm⟩ := State.fetchPa_translated htrans hd
    have hland := isLand_iff (e.2.fetchWord (framePa d x))
    refine ⟨fun hbad => State.indirect_unreadable h8 hlow (hperm hbad), fun hgood hl hno => ?_, fun hgood hyes => ?_⟩
    · rw [State.indirect_readable h8 hlow (hok hgood)]
      exact if_pos ⟨hl, Bool.eq_false_iff.mpr fun hw => hno (hland.mp hw)⟩
    · rw [State.indirect_readable h8 hlow (hok hgood)]
      exact if_neg fun ⟨hl, hw⟩ => Bool.eq_false_iff.mp hw (hland.mpr (hyes hl))

end Sys2Proof
end

