-- ==== Sys2Proof/Proofs/BranchWords.lean ====
section
/-!
Branching words (R110, R117 to R121, R128): where they send their lanes, the assay items that they post (Table 13-5), and the links of calls.
-/

namespace Sys2Proof
namespace Machine

/-! ## Assay items (R327) -/

theorem State.OnlyItems.refl (b : Nat) (s : State) : s.OnlyItems b s := ⟨rfl, fun _ => rfl, fun _ _ => rfl, rfl⟩

theorem State.OnlyItems.trans {b : Nat} {s t u : State} (h : s.OnlyItems b t) (k : t.OnlyItems b u) : s.OnlyItems b u where
  rest := by rw [k.rest, h.rest]
  alone hs := by
    have ht := h.alone hs
    rw [k.alone (by rw [ht]; exact hs), ht]
  blocks c hc := (k.blocks c hc).trans (h.blocks c hc)
  block := by rw [k.block, h.block]

theorem State.onlyItems_post (s : State) (b core slot kind pc addr data extra size ctx : Nat) (undo : List (Nat × Nat)) :
    s.OnlyItems b (s.post b core slot kind pc addr data extra size ctx undo) := by
  unfold State.post
  split
  · exact .refl b s
  · next hpaired =>
    refine ⟨rfl, fun halone => absurd (by rw [halone]; rfl) hpaired, fun c hc => s.block_modBlock _ _ _ hc, ?_⟩
    rw [State.block_modBlock_self]
    split
    · dsimp only
      split <;> rfl
    · rfl

theorem State.onlyItems_postBranch (s : State) (E : Env) (moves : List (Nat × Nat)) : s.OnlyItems E.G.block (s.postBranch E moves) := by
  unfold State.postBranch
  exact Sys2Proof.foldl_keeps (s.OnlyItems E.G.block) _ (fun _ _ h => h.trans (State.onlyItems_post _ _ _ _ _ _ _ _ _ _ _ _)) moves s (.refl _ s)

/-! ## The lanes of a branching word -/

/-- A group stands apart also where only what its threads hold has changed. -/
theorem State.Apart.congr {s t : State} {g : Nat} {G : Group} (h : s.Apart g G) (hid : t.nextId = s.nextId) (hbins : t.bins = s.bins)
    (hdisp : ∀ u, (t.thread u).disp = (s.thread u).disp) : t.Apart g G :=
  ⟨hid ▸ h.drawn, fun u hu => (hdisp u).trans (h.enrolled u hu), hbins ▸ h.sorted, hbins ▸ h.free⟩

theorem State.OnlyItems.apart {b : Nat} {s t : State} (h : s.OnlyItems b t) {g : Nat} {G : Group} (ha : s.Apart g G) : t.Apart g G := by
  rw [h.rest]
  exact ha.congr rfl rfl fun _ => rfl

theorem State.Changed.apart {s t : State} {ts : List Nat} {f : Nat → Thread → Thread} (h : s.Changed t ts f)
    (hdisp : ∀ u T, (f u T).disp = T.disp) {g : Nat} {G : Group} (ha : s.Apart g G) : t.Apart g G := by
  refine ha.congr (by rw [h.rest]) (by rw [h.rest]) fun u => ?_
  by_cases hu : u ∈ ts
  · rw [h.there u hu, hdisp]
  · rw [h.others u hu]

theorem State.Wrote.apart {s t : State} {G : Group} {i : Instr} {lat : Nat} {f : LV → List LaneWrite} (h : s.Wrote t G i lat f) {g : Nat}
    (ha : s.Apart g G) : t.Apart g G := by
  refine ha.congr (by rw [h.rest]) (by rw [h.rest]) fun u => ?_
  by_cases hu : u ∈ s.actives G i
  · rw [h.lanes u hu]
  · rw [h.others u hu]

theorem find?_map_pair (ts : List Nat) (f : Nat → Nat) (u : Nat) :
    (ts.map fun t => (t, f t)).find? (fun m => m.1 == u) = if u ∈ ts then some (u, f u) else none := by
  induction ts with
  | nil => rfl
  | cons t r ih =>
    rw [List.map_cons, List.find?_cons]
    by_cases h : t = u
    · simp [h]
    · rw [show (t == u) = false from beq_eq_false_iff_ne.mpr h, ih]
      simp [show u ≠ t from fun e => h e.symm]

/-- The lanes that branch go to their targets, and the others to the next word. -/
theorem Env.movesTo_map (E : Env) (ts : List Nat) (f : Nat → Nat) :
    E.movesTo (ts.map fun t => (t, f t)) = E.G.lanes.map fun u => (u, if u ∈ ts then f u else E.G.pc + 8) := by
  unfold Env.movesTo
  refine List.map_congr_left fun u _ => ?_
  rw [find?_map_pair]
  by_cases h : u ∈ ts
  · rw [if_pos h, if_pos h]
  · rw [if_neg h, if_neg h]

/-- The end of a branching word that raises no cause. -/
theorem State.Issues.branch_sends {s : State} {g : Nat} {G : Group} {i : Instr} (H : s.Issues g G i) {r : State} (ha : r.Apart g G)
    (dest : Nat → Nat) : ∃ q, r.OnlyItems G.block q ∧
      q.Sends ((s.issueEnv g G i).branch r [] (G.lanes.map fun u => (u, dest u))) g G i.hdr (s.issueClk G i) dest :=
  ⟨_, r.onlyItems_postBranch (s.issueEnv g G i) _, (s.issueEnv g G i).finish_sends _ dest H.lanes H.apart rfl rfl
    ((r.onlyItems_postBranch (s.issueEnv g G i) _).apart ha)⟩

theorem passing_nil (act : List Nat) : passing act [] = act := by simp [passing]

theorem allRaise_eq_nil {ts : List Nat} {p : Nat → Bool} {c : Nat} (h : ∀ t ∈ ts, p t = false) : allRaise (ts.filter p) c = [] := by
  rw [List.filter_eq_nil_iff.mpr fun t ht => by simp [h t ht]]
  rfl

/-- The target of a direct branch within the address space (R110). -/
theorem directTarget_within {pc : Nat} {off : Fin 262144} (h0 : 0 ≤ (pc : Int) + 8 * (BitVec.ofNat 18 off.val).toInt)
    (h1 : (pc : Int) + 8 * (BitVec.ofNat 18 off.val).toInt < 2 ^ 52) :
    directTarget pc off = .ok ((pc : Int) + 8 * (BitVec.ofNat 18 off.val).toInt).toNat := by
  have himm : imm18 off = (BitVec.ofNat 18 off.val).toInt := signedOf_eq_toInt off.val 18
  unfold directTarget
  rw [himm]
  exact if_neg (by omega)

/-! ## Links, counters and records -/

theorem State.changed_modThreads (s : State) {ts : List Nat} (hn : ts.Nodup) (f : Thread → Thread) :
    s.Changed (s.modThreads ts f) ts fun _ => f :=
  ⟨s.modThreads_eq ts f, fun u hu => s.thread_modThreads ts u f hu hn, fun u hu => s.thread_modThreads_out ts u f hu⟩

theorem QReg.after_quiet (Q : QReg) (m : Nat) : Q.after false m [] = Q := by simp [QReg.after]

/-- The writes of a word that names no queue register, as it makes them without an end of its own. -/
theorem State.Issues.wrote_writeFixed {s : State} {g : Nat} {G : Group} {i : Instr} (H : s.Issues g G i) (lat : Nat)
    {f : LV → List LaneWrite} (hd : Declared i f) (hreads : qReadsOf i = []) (hpush : ∀ v q x, LaneWrite.push q x ∉ f v) :
    s.Wrote (s.writeFixed (s.issueClk G i) lat ((s.actives G i).map fun u => (u, f (s.lane G i u)))) G i lat f := by
  set outs := (s.actives G i).map fun u => (u, f (s.lane G i u)) with houts
  set r := s.writeFixed (s.issueClk G i) lat outs with hr
  have hrest : r = { s with threads := r.threads } := s.writeFixed_eq _ _ _
  have hfst : outs.map Prod.fst = s.actives G i := by simp [houts, Function.comp_def]
  have hout : ∀ u, u ∉ s.actives G i → r.thread u = s.thread u := fun u hu =>
    State.thread_writeFixed_out _ _ _ _ _ fun o ho e => hu (hfst ▸ List.mem_map.mpr ⟨o, ho, e⟩)
  have hin : ∀ u ∈ s.actives G i, r.thread u =
      (f (s.lane G i u)).foldl (Thread.writeFixed (s.issueClk G i + lat)) ((s.thread u).settledAt (s.issueClk G i)) := fun u hu =>
    State.thread_writeFixed s _ lat outs (u, f (s.lane G i u)) (List.mem_map.mpr ⟨u, hu, rfl⟩) (hfst ▸ H.apart.filter _)
  have hon : ∀ u ∈ s.actives G i, ∀ n x, LaneWrite.reg n x ∈ f (s.lane G i u) →
      ((s.thread u).settledAt (s.issueClk G i)).quarter (quarterOf n) ≠ .off := by
    intro u hu n x hx
    show (s.thread u).quarter (quarterOf n) ≠ .off
    rw [H.banks u (List.mem_of_mem_filter hu) n (List.mem_append_right _ (hd.regs _ n x hx))]
    decide
  refine ⟨?_, ?_, fun _ _ => by rw [hrest], ?_, hout, ?_, ?_, ?_, ?_⟩
  · rw [hrest]
  · rw [hrest]
    exact .refl _ s
  · intro _ _ q _
    have hnone : pushesTo q ((s.actives G i).map fun u => f (s.lane G i u)) = [] := by
      simp only [pushesTo, List.flatMap_eq_nil_iff, List.mem_map, forall_exists_index, and_imp, List.filterMap_eq_nil_iff]
      rintro _ u _ rfl w hw
      cases w with
      | push k x => exact absurd hw (hpush _ k x)
      | _ => rfl
    rw [hnone, hreads, hrest]
    exact (QReg.after_quiet _ _).symm
  · intro u hu
    rw [hin u hu, Thread.writes_rest]
    rfl
  · intro u hu w hw
    obtain ⟨hreg, hpred, hfixed⟩ := Thread.writes_in (s.issueClk G i + lat) _ _ (hd.once _) (hon u hu) (hd.preds _) w hw
    rw [hin u hu]
    cases w with
    | reg n x => exact ⟨hreg n x rfl, hfixed _ rfl⟩
    | pred k b => exact fun hk => ⟨hpred k b rfl hk, hfixed _ (if_neg (by omega))⟩
    | push q x => trivial
  · intro u hu n hn
    rw [hin u hu, Thread.reg_writes_out _ _ _ _ hn (hon u hu)]
    rfl
  · intro u hu k hk
    rw [hin u hu, Thread.pred_writes_out _ _ _ _ hk (hd.preds _)]
    rfl

end Machine
end Sys2Proof
end

