-- ==== Sys2Proof/Proofs/DirectBranches.lean ====
section
/-!
Direct branches and calls, returns by the return stack, BRD and BLOOP (R110, R117, R118, R120, R121, R128).
-/

namespace Sys2Proof
namespace Machine

/-- A branching word, whose effect beside the branch leads to `r`, sends the lanes of its group to `dest`. -/
def State.Branches (s r : State) (g : Nat) (G : Group) (i : Instr) (dest : Nat → Nat) : Prop :=
  ∃ q t, exec i s = .next t ∧ r.OnlyItems G.block q ∧ q.Sends t g G i.hdr (s.issueClk G i) dest

section
variable {s : State} {g : Nat} {G : Group} {h : Hdr} {off : Fin 262144}

theorem State.Issues.branches {i : Instr} (H : s.Issues g G i) {r : State} (ha : r.Apart g G) (ts : List Nat) (f : Nat → Nat)
    (he : exec i s = .next ((s.issueEnv g G i).branch r [] ((s.issueEnv g G i).movesTo (ts.map fun t => (t, f t))))) :
    s.Branches r g G i fun u => if u ∈ ts then f u else G.pc + 8 := by
  obtain ⟨q, hitems, hsends⟩ := H.branch_sends ha fun u => if u ∈ ts then f u else G.pc + 8
  rw [Env.movesTo_map] at he
  exact ⟨q, _, he, hitems, hsends⟩

theorem State.actives_nodup {i : Instr} (H : s.Issues g G i) : (s.actives G i).Nodup := H.apart.filter _

/-- RET by the return stack (R121). -/
theorem State.Issues.ret_stack (H : s.Issues g G (.ret h .stack)) (ha : s.Apart g G)
    (hne : ∀ u ∈ s.actives G (.ret h .stack), (s.thread u).retStack ≠ []) :
    ∃ r, s.Changed r (s.actives G (.ret h .stack)) (fun _ T => { T with retStack := T.retStack.dropLast }) ∧
      s.Branches r g G (.ret h .stack) fun u =>
        if u ∈ s.actives G (.ret h .stack) then (s.thread u).retStack.getLast?.getD 0 else G.pc + 8 := by
  have hcauses : allRaise ((s.actives G (.ret h .stack)).filter fun t => (s.thread t).retStack.isEmpty) cCallDepth = [] :=
    allRaise_eq_nil fun u hu => by simpa using hne u hu
  have hchanged := s.changed_modThreads (State.actives_nodup H) fun T => { T with retStack := T.retStack.dropLast }
  refine ⟨_, hchanged, H.branches (hchanged.apart (fun _ _ => rfl) ha) _ _ ?_⟩
  rw [exec_ret, execRet]
  refine (issue_issues s g G _ H _).trans ?_
  simp only [State.issueEnv, hcauses, passing_nil]

section
variable (h0 : 0 ≤ (G.pc : Int) + 8 * (BitVec.ofNat 18 off.val).toInt) (h1 : (G.pc : Int) + 8 * (BitVec.ofNat 18 off.val).toInt < 2 ^ 52)
include h0 h1

/-- BRA within the address space (R117). -/
theorem State.Issues.bra_branches (H : s.Issues g G (.bra h off)) (ha : s.Apart g G) : s.Branches s g G (.bra h off) fun u =>
    if u ∈ s.actives G (.bra h off) then ((G.pc : Int) + 8 * (BitVec.ofNat 18 off.val).toInt).toNat else G.pc + 8 := by
  refine H.branches ha _ (fun _ => _) ?_
  rw [exec_bra, execBra]
  refine (issue_issues s g G _ H _).trans ?_
  simp only [State.issueEnv, directTarget_within h0 h1]

/-- CALL within the address space, where no lane meets a full return stack (R120). -/
theorem State.Issues.call_branches {sel : Sel} (H : s.Issues g G (.call h sel off))
    (hfull : s.fullStacks sel (s.actives G (.call h sel off)) = [])
    (ha : (s.link (s.issueEnv g G (.call h sel off)) sel (s.actives G (.call h sel off))).Apart g G) :
    s.Branches (s.link (s.issueEnv g G (.call h sel off)) sel (s.actives G (.call h sel off))) g G (.call h sel off) fun u =>
      if u ∈ s.actives G (.call h sel off) then ((G.pc : Int) + 8 * (BitVec.ofNat 18 off.val).toInt).toNat else G.pc + 8 := by
  refine H.branches ha _ (fun _ => _) ?_
  rw [exec_call, execCall]
  refine (issue_issues s g G _ H _).trans ?_
  simp only [State.issueEnv, directTarget_within h0 h1, hfull, passing_nil]

/-- BLOOP counts down in each active lane and branches where the count is not over (R128). -/
theorem State.Issues.bloop_branches {a : Reg} (H : s.Issues g G (.bloop h a off))
    (ha : (s.writeFixed (s.issueClk G (.bloop h a off)) 4
      ((s.actives G (.bloop h a off)).map fun u => (u, w32 a ((s.lane G (.bloop h a off) u).r32 a - 1)))).Apart g G) :
    s.Branches (s.writeFixed (s.issueClk G (.bloop h a off)) 4
      ((s.actives G (.bloop h a off)).map fun u => (u, w32 a ((s.lane G (.bloop h a off) u).r32 a - 1)))) g G (.bloop h a off) fun u =>
      if u ∈ s.actives G (.bloop h a off) ∧ (s.lane G (.bloop h a off) u).r32 a ≠ 1 then
        ((G.pc : Int) + 8 * (BitVec.ofNat 18 off.val).toInt).toNat else G.pc + 8 := by
  have hbr := H.branches ha ((s.actives G (.bloop h a off)).filter fun t => decide ((s.lane G (.bloop h a off) t).r32 a - 1 ≠ 0))
    (fun _ => ((G.pc : Int) + 8 * (BitVec.ofNat 18 off.val).toInt).toNat) ?_
  · simpa only [List.mem_filter, decide_eq_true_eq, ne_eq, sub_eq_zero] using hbr
  · rw [exec_bloop, execBloop]
    refine (issue_issues s g G _ H _).trans ?_
    simp only [State.issueEnv, directTarget_within h0 h1, passing_nil]
    rfl

end

/-! ## BRD -/

/-- A live record of a sequencer's threads has a number (R115). -/
def State.RecordUsed (s : State) (seq k : Nat) : Prop :=
  ∃ p ∈ s.threads, p.1 / 256 = seq ∧ p.2.disp ≠ .exited ∧ ∃ r ∈ p.2.joinStack, r.recno = k

/-- A record takes the lowest number that is free (R115, R118). -/
theorem State.freeRecord_least {s : State} {seq : Nat} (hfree : ∃ k, k < 4096 ∧ ¬ s.RecordUsed seq k) :
    ¬ s.RecordUsed seq (s.freeRecord seq) ∧ ∀ j, j < s.freeRecord seq → s.RecordUsed seq j := by
  have hmem : ∀ k, ((s.threads.filter fun p => seqOf p.1 == seq && p.2.occupied).flatMap fun p =>
      p.2.joinStack.map JoinRec.recno).contains k = true ↔ s.RecordUsed seq k := by
    intro k
    simp only [List.contains_eq_mem, List.mem_flatMap, List.mem_filter, List.mem_map, decide_eq_true_eq, State.RecordUsed, seqOf,
      Thread.occupied, Bool.and_eq_true, beq_iff_eq, bne_iff_ne, and_assoc]
  unfold State.freeRecord
  dsimp only
  generalize ((s.threads.filter fun p => seqOf p.1 == seq && p.2.occupied).flatMap fun p => p.2.joinStack.map JoinRec.recno) = used at hmem
  obtain ⟨k, hk, hno⟩ := hfree
  cases hfind : (upFrom 0 4096).find? fun n => !used.contains n with
  | none =>
    have hall := List.find?_eq_none.mp hfind k ((mem_upFrom _ _ _).mpr ⟨Nat.zero_le _, by omega⟩)
    exact absurd ((hmem k).mp (by simpa using hall)) hno
  | some n =>
    obtain ⟨hn, as, bs, hsplit, hbefore⟩ := List.find?_eq_some_iff_append.mp hfind
    refine ⟨fun hused => absurd ((hmem n).mpr hused) (by simpa using hn), fun j (hj : j < n) => ?_⟩
    have hjmem : j ∈ upFrom 0 4096 := (mem_upFrom _ _ _).mpr ⟨Nat.zero_le _, by
      have := (mem_upFrom 0 4096 n).mp (hsplit ▸ List.mem_append_right _ List.mem_cons_self)
      omega⟩
    have hsorted := upFrom_pairwise 0 4096
    rw [hsplit] at hjmem hsorted
    rcases List.mem_append.mp hjmem with hin | hin
    · exact (hmem j).mp (by simpa using hbefore j hin)
    · rcases List.mem_cons.mp hin with rfl | hlater
      · omega
      · have := (List.pairwise_cons.mp (List.pairwise_append.mp hsorted).2.1).1 j hlater
        omega

/-- BRD pushes one record in each active lane (R118). -/
theorem State.Issues.brd_went (H : s.Issues g G (.brd h off)) (h0 : 0 ≤ (G.pc : Int) + 8 * (BitVec.ofNat 18 off.val).toInt)
    (h1 : (G.pc : Int) + 8 * (BitVec.ofNat 18 off.val).toInt < 2 ^ 52)
    (hdepth : ∀ u ∈ s.actives G (.brd h off), (s.thread u).joinStack.length < 12) :
    ∃ r t, s.Changed r (s.actives G (.brd h off)) (fun _ T => { T with
        joinStack := T.joinStack ++ [⟨s.freeRecord G.seq, ((G.pc : Int) + 8 * (BitVec.ofNat 18 off.val).toInt).toNat⟩] }) ∧
      exec (.brd h off) s = .next t ∧ r.Went t g G h (s.issueClk G (.brd h off)) (G.pc + 8) := by
  have hdeep : (s.actives G (.brd h off)).filter (fun t => decide (12 ≤ (s.thread t).joinStack.length)) = [] :=
    List.filter_eq_nil_iff.mpr fun u hu => by simpa using hdepth u hu
  refine ⟨_, _, s.changed_modThreads (State.actives_nodup H) _, ?_, H.fall _⟩
  rw [exec_brd, execBrd]
  refine (issue_issues s g G _ H _).trans ?_
  simp only [State.issueEnv, directTarget_within h0 h1, hdeep, List.isEmpty_nil, if_true]

end

end Machine

open Machine

/-- Settles O16: each word by where it sends the lanes of its group, and by what it does to return stacks, link pairs and join records. -/
theorem directBranches : Obligations.DirectBranches := by
  intro s h off a n g G ha x goes
  refine ⟨?_, fun h0 h1 => ⟨fun H => H.bra_branches h0 h1 ha, ?_, ?_, ?_⟩⟩
  · rintro sel H rfl i hne
    exact H.ret_stack ha hne
  · intro sel H i dest
    cases sel with
    | stack =>
      intro hroom
      have hchanged := s.changed_modThreads (State.actives_nodup H) fun T => { T with retStack := T.retStack ++ [G.pc + 8] }
      exact ⟨_, hchanged, H.call_branches h0 h1 (allRaise_eq_nil fun u hu => by simpa using hroom u hu)
        (hchanged.apart (fun _ _ => rfl) ha)⟩
    | link k =>
      have hwrote := H.wrote_writeFixed 4 (declared_w64 i (.v k) (fun _ => BitVec.ofNat 64 (G.pc + 8)) _ List.mem_cons_self rfl rfl le_rfl)
        rfl fun v => push_not_mem_w64 (d := .v k) (fun _ e => nomatch e) _
      exact ⟨_, hwrote, H.call_branches h0 h1 rfl (hwrote.apart ha)⟩
  · intro hreg H i
    have hquiet : ∀ q, a ≠ .q q := by
      rintro q rfl
      exact hreg.elim (fun e => nomatch e) (fun e => nomatch e)
    have hreads : qReadsOf i = [] := by
      rcases hreg with rfl | rfl <;> rfl
    have hwrote := H.wrote_writeFixed 4 (declared_w32 i a (fun v => v.r32 a - 1) _ List.mem_cons_self rfl rfl le_rfl) hreads
      fun v => push_not_mem_w32 hquiet _
    exact ⟨_, hwrote, H.bloop_branches h0 h1 (hwrote.apart ha)⟩
  · intro H i used hfree hdepth
    obtain ⟨hno, hlower⟩ := State.freeRecord_least hfree
    obtain ⟨r, t, hchanged, hexec, hwent⟩ := H.brd_went h0 h1 hdepth
    exact ⟨_, r, t, hno, hlower, hchanged, hexec, hwent⟩

end Sys2Proof
end

