-- ==== Sys2Proof/Proofs/IndirectBranches.lean ====
section
/-!
Indirect calls: the statement asks of a CALLX whose target stands in a queue register that the entry be popped, as R29 asks of the words
that may name one. The decoder refuses such a word, the statement does not exclude it, and the model's CALLX pops nothing.
-/

namespace Sys2Proof
open Machine

/-! ## A CALLX that names a queue register -/

namespace CallxQueue

/-- The side of the group's block: q7 is no stream's, and holds one address. -/
def side : BSide := { BSide.init with queues := listSet BSide.init.queues 7 ⟨[0x10000], 0, .none, 0⟩ }

/-- The group of one lane is selected, and the page at 0x10000 maps to itself; a word of LAND stands there. -/
def state : State := State.setBytes { TmaskQueue.state with
  blocks := [(1, { Block.init with launch := 0, gslots := [0], residence := .resident, lead := side })]
  tlb := [⟨0, 16, 0, fetchPte⟩]
  cfg := { State.reset.cfg with dramcfg := 1 } } 0x10000 (leBytes (encodeNat (.land TmaskQueue.header)) 8)

/-- `CALLX v12, q7`. -/
def word : Instr := .callx TmaskQueue.header (.link 12) (.q 7)

/-- The decoder does not yield this word. -/
theorem decode_encode_word_ne : decode (encode word) ≠ word := by decide +kernel

theorem issues : state.Issues 2 TmaskQueue.group word where
  selected := rfl
  there := rfl
  lanes := by decide
  apart := by decide
  ready := by decide +kernel
  allotted := by decide +kernel
  onTime := by decide +kernel
  banks := by decide +kernel
  queues := by decide +kernel

theorem apart : state.Apart 2 TmaskQueue.group where
  drawn := by decide
  enrolled := by decide +kernel
  sorted := by decide
  free := by decide

/-- The model's CALLX leaves the address in q7. -/
theorem entries_exec {t : State} (h : exec word state = .next t) : TmaskQueue.entries t = [0x10000] := by
  have hrun : (match exec word state with
      | .next t => decide (TmaskQueue.entries t = [0x10000])
      | _ => false) = true := by decide +kernel
  rw [h] at hrun
  exact of_decide_eq_true hrun

/-- The posting of items changes no queue register. -/
theorem entries_of_items {r q : State} (h : r.OnlyItems 1 q) : TmaskQueue.entries q = TmaskQueue.entries r := by
  unfold TmaskQueue.entries State.bside State.sideOf
  rw [h.block]

end CallxQueue

/-- Refutes O18: the clause for CALLX with a link pair asks by `State.Wrote` that a source q7 loses the entry that the lane reads, where the
model's CALLX, which the decoder never yields with a queue register (R29), pops nothing. The statement lacks `∀ q, a ≠ .q q`. -/
theorem not_indirectBranches : ¬ Obligations.IndirectBranches := by
  intro hall
  obtain ⟨-, -, hcallx⟩ := hall CallxQueue.state TmaskQueue.header (.q 7) 0 (.link 12) 2 TmaskQueue.group CallxQueue.apart
  obtain ⟨r, r', ⟨rfl, -⟩, hwrote, q, t, hexec, hitems, hsends⟩ := hcallx CallxQueue.issues (by decide +kernel)
  have hpopped := congrArg QReg.entries (hwrote.queues (by decide +kernel) (by decide +kernel) 7 (by decide +kernel))
  have hwent := hsends.together 0x10000 (by decide +kernel)
  have hleft : TmaskQueue.entries r' = [0x10000] :=
    (CallxQueue.entries_of_items hitems).symm.trans ((TmaskQueue.entries_of_went hwent).symm.trans (CallxQueue.entries_exec hexec))
  exact absurd (hpopped.symm.trans hleft) (by decide +kernel)

end Sys2Proof
end

