-- ==== Sys2Proof/Proofs/HoldingBack.lean ====
section
/-!
LAND, GFREE, and the words that hold their group back for some time (R122, R125, R127, R131).
-/

namespace Sys2Proof
namespace Machine

/-! ## A word after which the lanes that stay are at one program counter -/

/-- The state in which a word has been counted: it is noted and retired, and its release hint is applied (R42, R148, R358). -/
def Env.counted (E : Env) (s : State) (ts : List Nat) : State :=
  ((s.noteIssue E.G E.clk (s.gatherOf E.G.core E.G.quarter E.i)).retire E.G ts).applyHint E.h E.occ

/-- The group of a word that keeps some lanes, at a program counter. -/
def Env.keeping (E : Env) (l : List Nat) (pc busy : Nat) : Group :=
  { E.G with
    pc := pc, lanes := l, readyAt := max E.G.readyAt (E.clk + max (max E.h.stall.val 1) busy)
    since := max E.G.readyAt (E.clk + max (max E.h.stall.val 1) busy) }

theorem Env.counted_rest (E : Env) (s : State) (ts : List Nat) : E.counted s ts = { s with
    threads := (E.counted s ts).threads, blocks := (E.counted s ts).blocks, seqs := (E.counted s ts).seqs } := by
  unfold Env.counted
  rw [State.applyHint_eq, State.retire_eq]
  rfl

theorem Env.counted_keeps (E : Env) (s : State) (ts : List Nat) (u : Nat) : (s.thread u).Keeps ((E.counted s ts).thread u) :=
  (State.retire_keeps (s.noteIssue E.G E.clk (s.gatherOf E.G.core E.G.quarter E.i)) E.G ts u).trans (State.hint_keeps _ E.h E.occ u)

/-- The end of a word without a cause that sends the lanes `l` to one program counter, while the lanes `gone` have left. -/
theorem Env.finish_keeping (E : Env) (s : State) {l : List Nat} (pc busy : Nat) (gone : List Nat) (hl : l ≠ []) (hc : E.causes = []) :
    E.finish s [] (l.map fun t => (t, pc)) busy gone =
      { (E.counted s (l ++ gone)).setGroup E.g (E.keeping l pc busy) with freeCtr := s.freeCtr + 1 } := by
  have hfst : (l.map fun t => (t, pc)).map Prod.fst = l := by simp [Function.comp_def]
  unfold Env.finish
  simp only [hc, List.append_nil, List.any_nil, List.filter_false, List.contains_nil, Bool.not_false, List.filter_true, hfst,
    List.find?_nil, List.filterMap_none, State.finish, List.isEmpty_nil, if_true, State.regroup, classes_const _ _ hl]
  rfl

/-! ## Words that hold their group back -/

/-- A word has gone on to the next one and its group is `H` after it, other than `State.Went` says. -/
def State.WentAs (s t : State) (g : Nat) (G : Group) (h : Hdr) (clk : Nat) (H : Group) : Prop :=
  ∃ r, s.Went r g G h clk (G.pc + 8) ∧ t = { r with groups := t.groups } ∧ t.groups.find g = some H ∧
    ∀ k, k ≠ g → t.groups.find k = s.groups.find k

section
variable {s : State} {g : Nat} {G : Group} {i : Instr}

/-- A word that marks its group to be passed over, or that keeps it busy. -/
theorem State.Issues.wentAs (H : s.Issues g G i) (left busy : Nat) :
    s.WentAs ({ s.issueEnv g G i with G := { G with yieldLeft := left } : Env }.finish s [] (s.issueEnv g G i).fall busy) g G i.hdr
      (s.issueClk G i) { G with
        yieldLeft := left, pc := G.pc + 8, readyAt := max G.readyAt (s.issueClk G i + max (max i.hdr.stall.val 1) busy)
        since := max G.readyAt (s.issueClk G i + max (max i.hdr.stall.val 1) busy) } := by
  set E : Env := { s.issueEnv g G i with G := { G with yieldLeft := left } } with hE
  have hplain := (s.issueEnv g G i).finish_keeping s (G.pc + 8) 0 [] H.lanes rfl
  have hheld := E.finish_keeping s (G.pc + 8) busy [] H.lanes rfl
  have hgroups : (E.counted s (G.lanes ++ [])).groups = s.groups := by rw [Env.counted_rest]
  have hfall : (s.issueEnv g G i).fall = G.lanes.map fun t => (t, G.pc + 8) := rfl
  refine ⟨_, H.fall s, ?_, ?_, fun k hk => ?_⟩
  · rw [hfall, hplain, hheld]
    rfl
  · rw [hfall, hheld]
    exact FMap.find_put_self _ _ _
  · rw [hfall, hheld]
    exact (FMap.find_put_ne _ _ _ _ hk).trans (by rw [hgroups])

theorem State.WentAs.modGroup {t : State} {h : Hdr} {clk : Nat} {H : Group} (hw : s.WentAs t g G h clk H) (f : Group → Group) :
    s.WentAs (t.modGroup g f) g G h clk (f H) := by
  obtain ⟨r, hwent, hrest, hgroup, hothers⟩ := hw
  refine ⟨r, hwent, ?_, ?_, fun k hk => ?_⟩
  · rw [hrest]
    rfl
  · show (t.groups.adjust g f).find g = _
    rw [FMap.find_adjust, if_pos rfl, hgroup]
    rfl
  · show (t.groups.adjust g f).find k = _
    rw [FMap.find_adjust, if_neg hk]
    exact hothers k hk

end

/-- The number of an immediate operand that may be absent. -/
def immOr0 : Option (Fin 262144) → Int
  | none => 0
  | some c => (BitVec.ofNat 18 c.val).toInt

theorem imm18_eq (c : Fin 262144) : imm18 c = (BitVec.ofNat 18 c.val).toInt := signedOf_eq_toInt c.val 18

theorem yieldCount_eq (n : Option (Fin 262144)) : yieldCount n = min 255 (immOr0 n).toNat := by
  cases n with
  | none => rfl
  | some c => exact congrArg (fun x : Int => min 255 x.toNat) (imm18_eq c)

section
variable {s : State} {g : Nat} {G : Group} {h : Hdr} {n : Option (Fin 262144)}

theorem State.land_went (H : s.Issues g G (.land h)) :
    ∃ t, exec (.land h) s = .next t ∧ s.Went t g G h (s.issueClk G (.land h)) (G.pc + 8) := by
  refine ⟨_, ?_, H.fall s⟩
  rw [exec_land, execLand]
  exact issue_issues s g G _ H _

theorem State.exec_nopw_issues (H : s.Issues g G (.nopw h n)) : exec (.nopw h n) s = .next (
    if (s.recOf G.block).dm = 2 then { s.issueEnv g G (.nopw h n) with G := { G with yieldLeft := (immOr0 n).toNat } : Env }.finish s []
      (s.issueEnv g G (.nopw h n)).fall
    else (s.issueEnv g G (.nopw h n)).finish s [] (s.issueEnv g G (.nopw h n)).fall (immOr0 n).toNat) := by
  cases n with
  | none => exact issue_issues s g G _ H _
  | some c =>
    rw [show immOr0 (some c) = imm18 c from (imm18_eq c).symm]
    exact issue_issues s g G _ H _

theorem State.exec_yield_issues (H : s.Issues g G (.yield h n)) : exec (.yield h n) s = .next (
    let t := { s.issueEnv g G (.yield h n) with G := { G with yieldLeft := s.passMark G (min 255 (immOr0 n).toNat) } : Env }.finish s []
      (s.issueEnv g G (.yield h n)).fall
    if min 255 (immOr0 n).toNat = 0 then t.modGroup g fun G' => { G' with since := s.issueClk G (.yield h n) } else t) := by
  rw [exec_yield, execYield]
  refine (issue_issues s g G _ H _).trans ?_
  rw [yieldCount_eq]
  rfl

end

/-- A group that YIELD has marked may issue again after so many further opportunities of its sequencer (R127). -/
theorem State.yieldOver_passMark {s u : State} {G H : Group} {k : Nat} (hs : (s.recOf G.block).dm ≠ 2) (hu : (u.recOf G.block).dm ≠ 2)
    (hblock : H.block = G.block) (hseq : H.seq = G.seq) (hleft : H.yieldLeft = s.passMark G k) :
    u.yieldOver H = true ↔ k = 0 ∨ (s.seqr G.seq).opps + k < (u.seqr G.seq).opps := by
  unfold State.yieldOver
  rw [hleft, hblock, hseq, State.passMark, if_neg hs]
  by_cases hk : k = 0
  · simp [hk]
  · rw [if_neg hk]
    simp only [hk, bne_iff_ne.mpr hu, Bool.true_and, Bool.or_eq_true, beq_iff_eq, decide_eq_true_eq, false_or]
    omega

/-! ## GFREE (R125) -/

section
variable {s : State} {g : Nat} {G : Group} {h : Hdr}

/-- The state in which the active lanes of GFREE are free. -/
def State.freed (s : State) (ts : List Nat) : State := s.modThreads ts fun T => { T with pinned := false }

theorem State.thread_freed (s : State) {ts : List Nat} (hn : ts.Nodup) (u : Nat) :
    (s.freed ts).thread u = { s.thread u with pinned := (s.thread u).pinned && !ts.contains u } := by
  unfold State.freed
  by_cases hu : u ∈ ts
  · rw [State.thread_modThreads _ _ _ _ hu hn]
    simp [hu]
  · rw [State.thread_modThreads_out _ _ _ _ hu]
    simp [hu]

/-- What GFREE leaves of the lanes of its group: each is at the next word, an active one is free, and the lanes are together with those
that do as they do. -/
structure State.Frees (s t : State) (G : Group) (act : List Nat) : Prop where
  mem : t.mem = s.mem
  lanes : ∀ u ∈ G.lanes, t.pcOf u = some (G.pc + 8) ∧ (t.thread u).joinStack = (s.thread u).joinStack ∧
    (t.thread u).pinned = ((s.thread u).pinned && !act.contains u)
  together : ∀ u ∈ G.lanes, ∀ w ∈ G.lanes, (t.thread u).disp = (t.thread w).disp ↔ (u ∈ act ↔ w ∈ act)

/-- GFREE by all lanes of the group, or by none. -/
theorem State.Issues.frees_whole {i : Instr} (H : s.Issues g G i) (ha : s.Apart g G)
    (hall : (∀ u ∈ G.lanes, u ∈ s.actives G i) ∨ s.actives G i = []) :
    s.Frees ((s.issueEnv g G i).finish (s.freed (s.actives G i)) [] (s.issueEnv g G i).fall) G (s.actives G i) := by
  have hthread := s.thread_freed (State.actives_nodup H)
  have hrest : s.freed (s.actives G i) = { s with threads := (s.freed (s.actives G i)).threads } := s.modThreads_eq _ _
  have hwent := H.fall (s.freed (s.actives G i))
  generalize (s.issueEnv g G i).finish (s.freed (s.actives G i)) [] (s.issueEnv g G i).fall = t at hwent ⊢
  have hdisp : ∀ u ∈ G.lanes, (t.thread u).disp = .group g := fun u hu => by
    rw [hwent.lanes u hu, hthread]
    exact ha.enrolled u hu
  refine ⟨?_, fun u hu => ⟨?_, ?_, ?_⟩, fun u hu w hw => iff_of_true ((hdisp u hu).trans (hdisp w hw).symm) ?_⟩
  · rw [hwent.rest, hrest]
  · unfold State.pcOf
    rw [hdisp u hu, hwent.rest]
    simp [FMap.find_put, Group.wentTo]
  · rw [hwent.lanes u hu, hthread]
  · rw [hwent.lanes u hu, hthread]
  · rcases hall with hall | hnone
    · exact iff_of_true (hall u hu) (hall w hw)
    · simp [hnone]

/-- GFREE by some lanes of the group, which leave it together. -/
theorem State.Issues.frees_part {i : Instr} (H : s.Issues g G i) (ha : s.Apart g G) {rest : List Nat}
    (hne : rest ≠ []) (G' : Group) :
    s.Frees (((s.issueEnv g G i).finish (s.freed (s.actives G i)) [] (rest.map fun t => (t, G.pc + 8)) 0 (s.actives G i)).spawn G'
      (s.actives G i) (G.pc + 8)) G (s.actives G i) := by
  have hthread := s.thread_freed (State.actives_nodup H)
  have heq : s.freed (s.actives G i) = { s with threads := (s.freed (s.actives G i)).threads } := s.modThreads_eq _ _
  rw [Env.finish_keeping _ _ _ _ _ hne rfl]
  set E := s.issueEnv g G i
  set a := E.counted (s.freed (s.actives G i)) (rest ++ s.actives G i) with ha'
  have harest : a = { s with threads := a.threads, blocks := a.blocks, seqs := a.seqs } := by
    rw [ha', Env.counted_rest, heq]
  set b : State := { a.setGroup E.g (E.keeping rest (G.pc + 8) 0) with freeCtr := (s.freed (s.actives G i)).freeCtr + 1 } with hb
  have hkeeps : ∀ u, (b.thread u).joinStack = (s.thread u).joinStack ∧
      (b.thread u).pinned = ((s.thread u).pinned && !(s.actives G i).contains u) ∧ (b.thread u).disp = (s.thread u).disp := by
    intro u
    have hk : b.thread u = a.thread u := rfl
    have hkeep := E.counted_keeps (s.freed (s.actives G i)) (rest ++ s.actives G i) u
    rw [hthread] at hkeep
    rw [hk, hkeep]
    exact ⟨rfl, rfl, rfl⟩
  have hid : b.nextId = s.nextId := by
    show a.nextId = _
    rw [harest]
  have hg : g ≠ b.nextId := by
    rw [hid]
    exact Nat.ne_of_lt ha.drawn
  obtain ⟨-, -, hmem, -, -, hdisp, hpc⟩ := b.spawn_facts G' (s.actives G i) (G.pc + 8)
  have hsame := State.SameThreads.spawn b G' (s.actives G i) (G.pc + 8)
  have hdisp' : ∀ u ∈ G.lanes, ((b.spawn G' (s.actives G i) (G.pc + 8)).thread u).disp =
      if u ∈ s.actives G i then .group b.nextId else .group g := fun u hu => by
    rw [hdisp, (hkeeps u).2.2, ha.enrolled u hu]
  refine ⟨?_, fun u hu => ⟨?_, ?_, ?_⟩, fun u hu w hw => ?_⟩
  · rw [hmem]
    show a.mem = _
    rw [harest]
  · unfold State.pcOf
    rw [hdisp' u hu]
    by_cases hact : u ∈ s.actives G i
    · rw [if_pos hact]
      dsimp only
      rw [hpc, if_pos rfl]
    · rw [if_neg hact]
      dsimp only
      rw [hpc, if_neg hg]
      exact congrArg (Option.map Group.pc) (FMap.find_put_self _ _ _)
  · rw [hsame u]
    exact (hkeeps u).1
  · rw [hsame u]
    exact (hkeeps u).2.1
  · rw [hdisp' u hu, hdisp' w hw]
    by_cases h1 : u ∈ s.actives G i <;> by_cases h2 : w ∈ s.actives G i <;> simp [h1, h2, hg, hg.symm]

theorem State.Issues.gfree_frees (H : s.Issues g G (.gfree h)) (ha : s.Apart g G) :
    ∃ t, exec (.gfree h) s = .next t ∧ s.Frees t G (s.actives G (.gfree h)) := by
  set act := s.actives G (.gfree h) with hact
  refine ⟨_, issue_issues s g G _ H _, ?_⟩
  show s.Frees (if (G.lanes.filter fun t => !act.contains t).isEmpty = true ∨ act.isEmpty = true then
      (s.issueEnv g G (.gfree h)).finish (s.freed act) [] (s.issueEnv g G (.gfree h)).fall
    else ((s.issueEnv g G (.gfree h)).finish (s.freed act) [] ((G.lanes.map fun t => (t, G.pc + 8)).filter fun m => !act.contains m.1) 0
      act).spawn { G with readyAt := s.issueClk G (.gfree h) + max h.stall.val 1 } act (G.pc + 8)) G act
  split
  · next hwhole =>
    refine H.frees_whole ha (hwhole.imp (fun hrest u hu => ?_) List.isEmpty_iff.mp)
    simpa using List.filter_eq_nil_iff.mp (List.isEmpty_iff.mp hrest) u hu
  · next hpart =>
    rw [List.filter_map]
    exact H.frees_part ha (fun hrest => hpart (.inl (List.isEmpty_iff.mpr hrest))) _

end

end Machine

open Machine

/-- Settles O19: LAND and the holding words by the end of a word that goes on to the next one, GFREE by whether its lanes are the group. -/
theorem holdingBack : Obligations.HoldingBack := by
  intro s h n g G num went
  have hnum : num = immOr0 n := by cases n <;> rfl
  have hexec : ∀ {i : Instr} {t : State} {H : Group}, exec i s = .next t → s.WentAs t g G h (s.issueClk G i) H → went i H := by
    rintro i t H hex ⟨r, hwent, hrest⟩
    exact ⟨r, t, hex, hwent, hrest⟩
  refine ⟨State.land_went, fun H => ?_, fun H => ?_, fun H ha => ?_⟩
  · intro c
    rw [hnum]
    have hex := State.exec_nopw_issues H
    split
    · next hdm =>
      rw [if_pos hdm] at hex
      have hw := H.wentAs (immOr0 n).toNat 0
      rw [Nat.max_zero] at hw
      exact hexec hex hw
    · next hdm =>
      rw [if_neg hdm] at hex
      have hw := H.wentAs G.yieldLeft (immOr0 n).toNat
      rw [show max (max (Instr.nopw h n).hdr.stall.val 1) (immOr0 n).toNat = max (max (immOr0 n).toNat h.stall.val) 1 by
        rw [Nat.max_comm, ← Nat.max_assoc]; rfl] at hw
      exact hexec hex hw
  · intro c k
    have hk : k = min 255 (immOr0 n).toNat := by rw [← hnum]
    have hex := State.exec_yield_issues H
    rw [← hk] at hex
    have hw := H.wentAs (s.passMark G k) 0
    rw [Nat.max_zero] at hw
    refine ⟨s.passMark G k, ?_, fun hdm => ?_, fun hdm u hu H' hblock hseq hleft => State.yieldOver_passMark hdm hu hblock hseq hleft⟩
    · dsimp only at hex
      split
      · next h0 =>
        rw [if_pos h0] at hex
        exact hexec hex (hw.modGroup _)
      · next h0 =>
        rw [if_neg h0] at hex
        exact hexec hex hw
    · unfold State.passMark
      by_cases h0 : k = 0
      · rw [if_pos h0, h0]
      · rw [if_neg h0, if_pos hdm]
  · obtain ⟨t, hex, hfrees⟩ := H.gfree_frees ha
    exact ⟨t, hex, hfrees.mem, hfrees.lanes, hfrees.together⟩

end Sys2Proof
end

