-- ==== Sys2Proof/Proofs/Prefetches.lean ====
section
/-!
The shared instruction cache (R106 to R109), IPREF and IPREF.inv (R129, R130).
-/

namespace Sys2Proof

theorem FMap.length_put_le {α : Type} (m : FMap α) (n : Nat) (x : α) : (m.put n x).length ≤ m.length + 1 := by
  induction m with
  | nil => simp [FMap.put]
  | cons p t ih =>
    rw [FMap.put]
    split
    · exact le_rfl
    · split
      · exact Nat.le_succ _
      · exact Nat.succ_le_succ ih

theorem FMap.length_del_le {α : Type} (m : FMap α) (n : Nat) : (m.del n).length ≤ m.length := by
  induction m with
  | nil => exact le_rfl
  | cons p t ih =>
    rw [FMap.del]
    split
    · exact ih.trans (Nat.le_succ _)
    · exact Nat.succ_le_succ ih

namespace Machine

/-! ## One line (R106, R109) -/

theorem State.icacheAdd_rest (s : State) (l : Nat) : s.icacheAdd l = { s with icache := (s.icacheAdd l).icache } := by
  unfold State.icacheAdd
  split <;> rfl

theorem State.icache_icacheAdd_of_find {s : State} {l : Nat} {x : Line} (h : s.icache.find l = some x) :
    (s.icacheAdd l).icache = s.icache := by
  rw [State.icacheAdd, h]

theorem State.icache_icacheAdd_of_none {s : State} {l : Nat} (h : s.icache.find l = none) :
    (s.icacheAdd l).icache = (s.icacheRoom l).put l (s.memLine l) := by
  rw [State.icacheAdd, h]

/-- A line that enters is there, with the contents that it had or has in memory. -/
theorem State.find_icacheAdd_self (s : State) (l : Nat) :
    (s.icacheAdd l).icache.find l = some ((s.icache.find l).getD (s.memLine l)) := by
  cases h : s.icache.find l with
  | some x => rw [State.icache_icacheAdd_of_find h, h, Option.getD_some]
  | none => rw [State.icache_icacheAdd_of_none h, FMap.find_put_self, Option.getD_none]

/-- A line that enters changes no other, but for one that makes room in a full cache. -/
theorem State.find_icacheAdd_ne (s : State) {l k : Nat} (hk : k ≠ l) : (s.icacheAdd l).icache.find k = s.icache.find k ∨
    ((s.icacheAdd l).icache.find k = none ∧ s.icache.find l = none ∧ Config.icacheLines ≤ s.icache.length) := by
  cases h : s.icache.find l with
  | some x => rw [State.icache_icacheAdd_of_find h]; exact .inl rfl
  | none =>
    rw [State.icache_icacheAdd_of_none h, FMap.find_put_ne _ _ _ _ hk, State.icacheRoom]
    split
    · exact .inl rfl
    · next hfull =>
      by_cases hv : k = s.icache.keys.getD ((Config.freeWord s.freeCtr l).toNat % Config.icacheLines) 0
      · rw [← hv, FMap.find_del_self]
        exact .inr ⟨rfl, rfl, Nat.not_lt.mp hfull⟩
      · exact .inl (FMap.find_del_ne _ _ _ hv)

theorem State.length_icacheAdd_le (s : State) (l : Nat) : (s.icacheAdd l).icache.length ≤ s.icache.length + 1 := by
  cases h : s.icache.find l with
  | some x => rw [State.icache_icacheAdd_of_find h]; exact Nat.le_succ _
  | none =>
    rw [State.icache_icacheAdd_of_none h]
    refine (FMap.length_put_le _ _ _).trans (Nat.succ_le_succ ?_)
    unfold State.icacheRoom
    split
    · exact le_rfl
    · exact FMap.length_del_le _ _

/-! ## Several lines (R129) -/

/-- The instruction cache has taken at most `n` lines, each as it stands in memory; while there was room it has lost none. -/
structure State.Prefetched (s t : State) (n : Nat) : Prop where
  rest : t = { s with tlb := t.tlb, icache := t.icache }
  lines : ∀ l x, t.icache.find l = some x → s.icache.find l = some x ∨ x = s.memLine l
  size : t.icache.length ≤ s.icache.length + n
  kept : s.icache.length + n ≤ Config.icacheLines → ∀ l x, s.icache.find l = some x → t.icache.find l = some x

theorem State.Prefetched.of_tlb {s t : State} (h : t = { s with tlb := t.tlb }) : s.Prefetched t 0 := by
  have hcache : t.icache = s.icache := by rw [h]
  refine ⟨?_, fun l x hx => .inl (hcache ▸ hx), hcache ▸ le_rfl, fun _ l x hx => hcache ▸ hx⟩
  rw [hcache]
  exact h

theorem State.Prefetched.trans {s t u : State} {n m : Nat} (h : s.Prefetched t n) (k : t.Prefetched u m) : s.Prefetched u (n + m) where
  rest := by rw [k.rest, h.rest]
  lines l x hx := (k.lines l x hx).elim (h.lines l x) fun hmem => .inr (by rw [hmem, h.rest]; rfl)
  size := by
    have := h.size
    have := k.size
    omega
  kept hroom l x hx := by
    have := h.size
    exact k.kept (by omega) l x (h.kept (by omega) l x hx)

theorem State.Prefetched.mono {s t : State} {n m : Nat} (h : s.Prefetched t n) (hle : n ≤ m) : s.Prefetched t m where
  rest := h.rest
  lines := h.lines
  size := h.size.trans (Nat.add_le_add_left hle _)
  kept hroom := h.kept ((Nat.add_le_add_left hle _).trans hroom)

theorem State.Prefetched.isSome {s t : State} {n l : Nat} (h : s.Prefetched t n) (hroom : s.icache.length + n ≤ Config.icacheLines)
    (hl : (s.icache.find l).isSome) : (t.icache.find l).isSome := by
  obtain ⟨x, hx⟩ := Option.isSome_iff_exists.mp hl
  rw [h.kept hroom l x hx]
  rfl

theorem State.prefetched_icacheAdd (s : State) (l : Nat) : s.Prefetched (s.icacheAdd l) 1 where
  rest := by
    rw [State.icacheAdd_rest]
  lines k x hx := by
    by_cases hk : k = l
    · subst hk
      rw [State.find_icacheAdd_self, Option.some_inj] at hx
      subst hx
      cases h : s.icache.find k with
      | some y => exact .inl rfl
      | none => exact .inr rfl
    · rcases s.find_icacheAdd_ne hk with hsame | ⟨hnone, -, -⟩
      · exact .inl (hsame ▸ hx)
      · rw [hnone] at hx
        cases hx
  size := s.length_icacheAdd_le l
  kept hroom k x hx := by
    by_cases hk : k = l
    · subst hk
      rw [State.find_icacheAdd_self, hx, Option.getD_some]
    · rcases s.find_icacheAdd_ne hk with hsame | ⟨-, -, hfull⟩
      · rw [hsame, hx]
      · omega

theorem State.prefetched_prefetchLines (s : State) (ls : List Nat) : s.Prefetched (s.prefetchLines ls) ls.length := by
  unfold State.prefetchLines
  induction ls generalizing s with
  | nil => exact .of_tlb rfl
  | cons l r ih => exact ((s.prefetched_icacheAdd l).trans (ih _)).mono (by rw [List.length_cons, Nat.add_comm])

/-- While there is room, every requested line is there. -/
theorem State.isSome_prefetchLines {s : State} {ls : List Nat} (hroom : s.icache.length + ls.length ≤ Config.icacheLines) {l : Nat}
    (hl : l ∈ ls) : ((s.prefetchLines ls).icache.find l).isSome := by
  induction ls generalizing s with
  | nil => cases hl
  | cons k r ih =>
    have hsize := s.length_icacheAdd_le k
    have hroom' : (s.icacheAdd k).icache.length + r.length ≤ Config.icacheLines := by
      rw [List.length_cons] at hroom
      omega
    rcases List.mem_cons.mp hl with rfl | hin
    · exact ((s.icacheAdd l).prefetched_prefetchLines r).isSome hroom' (by rw [State.find_icacheAdd_self]; rfl)
    · exact ih hroom' hin

/-! ## The lines of a range (R129, R130) -/

theorem State.entryFor_tlb (s : State) (c tenant world e : Nat) :
    (s.entryFor c tenant world e).2 = { s with tlb := (s.entryFor c tenant world e).2.tlb } := by
  unfold State.entryFor
  split
  · rfl
  · split
    · dsimp only
      split <;> rfl
    · rfl

theorem State.fetchPa_tlb (s : State) (c tenant world pc : Nat) :
    (s.fetchPa c tenant world pc).2 = { s with tlb := (s.fetchPa c tenant world pc).2.tlb } := by
  have hentry := s.entryFor_tlb c tenant world pc
  unfold State.fetchPa
  generalize s.entryFor c tenant world pc = e at hentry
  obtain ⟨d, u⟩ := e
  split
  · rfl
  · cases d with
    | none => exact hentry
    | some d =>
      dsimp only
      split <;> exact hentry

/-- What the next line of a range adds, and the state after its translation. -/
def State.lineAt (s : State) (core tenant world : Nat) (any : Bool) (at_ : Nat) : Option Nat × State :=
  if any then
    if Config.transEnd ≤ at_ then (none, s)
    else match s.entryFor (clusterOf core) tenant world at_ with
      | (some d, s1) => (if pteWorld d = world then some (framePa d at_ / 64) else none, s1)
      | (none, s1) => (none, s1)
  else match s.fetchPa (clusterOf core) tenant world at_ with
    | (.ok pa, s1) => (some (pa / 64), s1)
    | (.error _, s1) => (none, s1)

theorem State.lineAt_tlb (s : State) (core tenant world : Nat) (any : Bool) (at_ : Nat) :
    (s.lineAt core tenant world any at_).2 = { s with tlb := (s.lineAt core tenant world any at_).2.tlb } := by
  have hentry := s.entryFor_tlb (clusterOf core) tenant world at_
  have hfetch := s.fetchPa_tlb (clusterOf core) tenant world at_
  unfold State.lineAt
  generalize s.entryFor (clusterOf core) tenant world at_ = e at hentry
  generalize s.fetchPa (clusterOf core) tenant world at_ = f at hfetch
  obtain ⟨d, u⟩ := e
  obtain ⟨pa, v⟩ := f
  split
  · split
    · rfl
    · cases d <;> exact hentry
  · cases pa <;> exact hfetch

theorem State.rangeLines_succ (s : State) (core tenant world : Nat) (any : Bool) (x y n : Nat) :
    s.rangeLines core tenant world any x y (n + 1) = if y ≤ x then ([], s) else
      let here := s.lineAt core tenant world any x
      let rest := here.2.rangeLines core tenant world any ((x / 64 + 1) * 64) y n
      (here.1.toList ++ rest.1, rest.2) := by
  have hjoin : ∀ (o : Option Nat) (ls : List Nat), (match o with
      | some l => l :: ls
      | none => ls) = o.toList ++ ls := fun o _ => by cases o <;> rfl
  rw [State.rangeLines]
  split
  · rfl
  · exact congrArg (fun ls => (ls, ((s.lineAt core tenant world any x).2.rangeLines core tenant world any ((x / 64 + 1) * 64) y n).2))
      (hjoin _ _)

theorem State.rangeLines_tlb (s : State) (core tenant world : Nat) (any : Bool) (x y n : Nat) :
    (s.rangeLines core tenant world any x y n).2 = { s with tlb := (s.rangeLines core tenant world any x y n).2.tlb } := by
  induction n generalizing s x with
  | zero => rfl
  | succ n ih =>
    rw [State.rangeLines_succ]
    split
    · rfl
    · dsimp only
      rw [ih, State.lineAt_tlb]

theorem State.length_rangeLines_le (s : State) (core tenant world : Nat) (any : Bool) (x y n : Nat) :
    (s.rangeLines core tenant world any x y n).1.length ≤ n := by
  induction n generalizing s x with
  | zero => exact le_rfl
  | succ n ih =>
    rw [State.rangeLines_succ]
    split
    · exact Nat.zero_le _
    · dsimp only
      have hrest := ih (s.lineAt core tenant world any x).2 ((x / 64 + 1) * 64)
      have hhere : (s.lineAt core tenant world any x).1.toList.length ≤ 1 := by
        cases (s.lineAt core tenant world any x).1 <;> simp
      rw [List.length_append]
      omega

/-! ## IPREF (R129) -/

/-- The lines of a range are requested. -/
def State.prefetchRange (core tenant world : Nat) (s : State) (r : Nat × Nat) : State :=
  (s.rangeLines core tenant world false r.1 r.2 1025).2.prefetchLines (s.rangeLines core tenant world false r.1 r.2 1025).1

theorem State.prefetched_prefetchRange (core tenant world : Nat) (s : State) (r : Nat × Nat) :
    s.Prefetched (State.prefetchRange core tenant world s r) 1025 :=
  ((State.Prefetched.of_tlb (s.rangeLines_tlb core tenant world false r.1 r.2 1025)).trans (State.prefetched_prefetchLines _ _)).mono (by
    rw [Nat.zero_add]
    exact s.length_rangeLines_le core tenant world false r.1 r.2 1025)

theorem State.isSome_prefetchRange {core tenant world : Nat} {s : State} {r : Nat × Nat}
    (hroom : s.icache.length + 1025 ≤ Config.icacheLines) {l : Nat}
    (hl : l ∈ (s.rangeLines core tenant world false r.1 r.2 1025).1) :
    ((State.prefetchRange core tenant world s r).icache.find l).isSome := by
  have hlen := s.length_rangeLines_le core tenant world false r.1 r.2 1025
  refine State.isSome_prefetchLines ?_ hl
  rw [s.rangeLines_tlb core tenant world false r.1 r.2 1025]
  exact (Nat.add_le_add_left hlen _).trans hroom

theorem State.prefetched_prefetchRanges (core tenant world : Nat) (s : State) (rs : List (Nat × Nat)) :
    s.Prefetched (rs.foldl (State.prefetchRange core tenant world) s) (1025 * rs.length) := by
  induction rs generalizing s with
  | nil => exact .of_tlb rfl
  | cons r l ih => exact ((State.prefetched_prefetchRange core tenant world s r).trans (ih _)).mono (by rw [List.length_cons]; omega)

/-- The lines of the first range are there after all, while there is room for the lines of all. -/
theorem State.isSome_prefetchRanges {core tenant world : Nat} {s : State} {r : Nat × Nat} {rs : List (Nat × Nat)}
    (hroom : s.icache.length + 1025 * (rs.length + 1) ≤ Config.icacheLines) {l : Nat}
    (hl : l ∈ (s.rangeLines core tenant world false r.1 r.2 1025).1) :
    (((r :: rs).foldl (State.prefetchRange core tenant world) s).icache.find l).isSome := by
  have hsize := (State.prefetched_prefetchRange core tenant world s r).size
  have hlater := State.prefetched_prefetchRanges core tenant world (State.prefetchRange core tenant world s r) rs
  have hfirst : s.icache.length + 1025 ≤ Config.icacheLines := by
    rw [Nat.mul_succ] at hroom
    exact (Nat.add_le_add_left (Nat.le_add_left _ _) _).trans hroom
  rw [List.foldl_cons]
  refine hlater.isSome ?_ (State.isSome_prefetchRange hfirst hl)
  rw [Nat.mul_succ] at hroom
  omega

/-- The ranges of IPREF: four lines at the target of a direct form, and the range of each active lane of a register form. -/
def State.iprefRanges (s : State) (G : Group) (i : Instr) (arg : Option (Fin 262144)) (a b : Reg) : List (Nat × Nat) :=
  match arg with
  | some off => if (s.actives G i).isEmpty then [] else match directTarget G.pc off with
    | .ok x => [(x / 64 * 64, x / 64 * 64 + 256)]
    | .error _ => []
  | none => (s.actives G i).map fun u => (s.lane G i u).iprefRange a b

section
variable {s : State} {g : Nat} {G : Group} {h : Hdr} {arg : Option (Fin 262144)} {a b : Reg}

/-- The state in which IPREF has requested its lines. -/
def State.prefetching (s : State) (G : Group) (i : Instr) (arg : Option (Fin 262144)) (a b : Reg) : State :=
  (s.iprefRanges G i arg a b).foldl (State.prefetchRange G.core (s.recOf G.block).tenant (s.recOf G.block).world) s

theorem State.exec_ipref_issues (H : s.Issues g G (.ipref h arg a b)) : exec (.ipref h arg a b) s = .next (
    (s.issueEnv g G (.ipref h arg a b)).finish ((s.prefetching G (.ipref h arg a b) arg a b).popQueues
      (s.issueEnv g G (.ipref h arg a b))) [] (s.issueEnv g G (.ipref h arg a b)).fall) := by
  cases arg <;> exact issue_issues s g G _ H _

theorem State.length_iprefRanges_le {i : Instr} : (s.iprefRanges G i arg a b).length ≤ G.lanes.length + 1 := by
  unfold State.iprefRanges
  cases arg with
  | none =>
    rw [List.length_map]
    exact (List.length_filter_le _ _).trans (Nat.le_succ _)
  | some off =>
    dsimp only
    split
    · exact Nat.zero_le _
    · split
      · exact Nat.succ_le_succ (Nat.zero_le _)
      · exact Nat.zero_le _

/-- The first range is that of the first active lane. -/
theorem State.iprefRanges_none_of_head {i : Instr} {u : Nat} (hu : (s.actives G i).head? = some u) :
    ∃ rs, s.iprefRanges G i none a b = (s.lane G i u).iprefRange a b :: rs := by
  obtain ⟨us, hus⟩ := List.head?_eq_some_iff.mp hu
  exact ⟨_, by rw [State.iprefRanges, hus]; rfl⟩

theorem State.iprefRanges_some_of_head {i : Instr} {u x : Nat} {off : Fin 262144} (hu : (s.actives G i).head? = some u)
    (hx : directTarget G.pc off = .ok x) : s.iprefRanges G i (some off) a b = [(x / 64 * 64, x / 64 * 64 + 256)] := by
  obtain ⟨us, hus⟩ := List.head?_eq_some_iff.mp hu
  rw [State.iprefRanges, hus, hx]
  rfl

end

/-! ## IPREF.inv (R130) -/

/-- The lines of a range join those that are to be invalidated. -/
def State.invRange (core tenant world : Nat) (p : List (Nat × Nat) × State) (r : Nat × Nat) : List (Nat × Nat) × State :=
  (p.1 ++ (p.2.rangeLines core tenant world true r.1 r.2 1025).1.map fun l => (l, 1), (p.2.rangeLines core tenant world true r.1 r.2 1025).2)

theorem State.invRanges_tlb (core tenant world : Nat) (p : List (Nat × Nat) × State) (rs : List (Nat × Nat)) :
    (rs.foldl (State.invRange core tenant world) p).2 = { p.2 with tlb := (rs.foldl (State.invRange core tenant world) p).2.tlb } := by
  induction rs generalizing p with
  | nil => rfl
  | cons r l ih =>
    rw [List.foldl_cons, ih, State.invRange, State.rangeLines_tlb]

theorem State.mem_invRanges_of_mem {core tenant world : Nat} {p : List (Nat × Nat) × State} {x : Nat × Nat} (hx : x ∈ p.1)
    (rs : List (Nat × Nat)) : x ∈ (rs.foldl (State.invRange core tenant world) p).1 :=
  Sys2Proof.foldl_keeps (fun q : List (Nat × Nat) × State => x ∈ q.1) (State.invRange core tenant world)
    (fun _ _ h => List.mem_append_left _ h) rs p hx

section
variable {s : State} {g : Nat} {G : Group} {h : Hdr} {a b : Reg}

/-- What IPREF.inv is to invalidate, and the state after the translations. -/
def State.invalidating (s : State) (G : Group) (i : Instr) (a b : Reg) : List (Nat × Nat) × State :=
  ((s.actives G i).map fun u => (s.lane G i u).iprefRange a b).foldl
    (State.invRange G.core (s.recOf G.block).tenant (s.recOf G.block).world) ([], s)

/-- The state in which an invalidation of lines has started, if there are any, for some waiting threads. -/
def State.startInv (s : State) (lanes : List Nat) (lines : List (Nat × Nat)) : State :=
  if lines.isEmpty then s else { s.fresh with iprefInv := s.iprefInv.put s.nextId (lanes, lines) }

theorem State.startInv_of_tlb {s t : State} (h : t = { s with tlb := t.tlb }) (lanes : List Nat) (lines : List (Nat × Nat)) :
    t.startInv lanes lines = if lines = [] then { s with tlb := (t.startInv lanes lines).tlb }
      else { s with tlb := (t.startInv lanes lines).tlb, nextId := s.nextId + 1, iprefInv := s.iprefInv.put s.nextId (lanes, lines) } := by
  unfold State.startInv
  cases lines with
  | nil => exact h
  | cons x r =>
    rw [h]
    rfl

theorem State.exec_iprefInv_unreleased (H : s.Issues g G (.iprefInv h a b)) (hr : s.releasedFor G.block .dev G.lanes = false) :
    exec (.iprefInv h a b) s = .next s := by
  rw [exec_iprefInv, execIprefInv]
  refine (issue_issues s g G _ H _).trans (congrArg _ ?_)
  exact if_pos (Bool.not_eq_true' _ ▸ hr)

theorem State.exec_iprefInv_released (H : s.Issues g G (.iprefInv h a b)) (hr : s.releasedFor G.block .dev G.lanes = true) :
    exec (.iprefInv h a b) s = .next ((s.issueEnv g G (.iprefInv h a b)).finish
      ((s.invalidating G (.iprefInv h a b) a b).2.startInv G.lanes (s.invalidating G (.iprefInv h a b) a b).1) []
      (s.issueEnv g G (.iprefInv h a b)).fall) := by
  have hall : (G.lanes.filter fun t => !((s.issueEnv g G (.iprefInv h a b)).stopped []).contains t) = G.lanes := by
    simp [Env.stopped, State.issueEnv]
  rw [exec_iprefInv, execIprefInv]
  refine (issue_issues s g G _ H _).trans (congrArg _ ?_)
  refine (if_neg (Bool.not_eq_true _ ▸ congrArg not hr)).trans ?_
  conv_rhs => rw [← hall]
  rfl

/-- While its invalidation is under way, a group with a lane of the word issues nothing. -/
theorem State.groupIssues_of_iprefInv {s : State} {id : Nat} {us : List Nat} {lines : List (Nat × Nat)}
    (h : s.iprefInv.find id = some (us, lines)) {H : Group} (hu : ∃ u ∈ us, u ∈ H.lanes) : s.groupIssues H = false := by
  obtain ⟨u, hmem, hlane⟩ := hu
  have hheld : s.noIprefInv H.lanes = false :=
    List.all_eq_false.mpr ⟨_, FMap.mem_of_find h, by simpa using ⟨u, hmem, hlane⟩⟩
  rw [State.groupIssues, hheld, Bool.and_false]

end

end Machine

open Machine

/-- The clause of O21 for IPREF: the lines are requested range by range, and then the word ends. -/
theorem prefetches_ipref (s : State) (h : Hdr) (arg : Option (Fin 262144)) (a b : Reg) (g : Nat) (G : Group)
    (H : s.Issues g G (.ipref h arg a b)) :
    ∃ q r t : State, exec (.ipref h arg a b) s = .next t ∧ r.Went t g G h (s.issueClk G (.ipref h arg a b)) (G.pc + 8) ∧
      State.OnlySides G.block q r ∧ (qReadsOf (.ipref h arg a b) = [] → r = q) ∧
      s.Prefetched q (1025 * (G.lanes.length + 1)) ∧ q = s.prefetching G (.ipref h arg a b) arg a b := by
  refine ⟨_, _, _, State.exec_ipref_issues H, H.fall _, State.onlySides_popQueues _ (s.issueEnv g G (.ipref h arg a b)), fun hq => ?_,
    (State.prefetched_prefetchRanges _ _ _ s _).mono (Nat.mul_le_mul_left _ State.length_iprefRanges_le), rfl⟩
  unfold State.popQueues
  rw [show qReadsOf (s.issueEnv g G (.ipref h arg a b)).i = [] from hq]

/-- Settles O21: IPREF by the lines that each range requests, IPREF.inv by the lines that it collects. -/
theorem prefetches : Obligations.Prefetches := by
  intro s h arg a b g G R range
  refine ⟨fun H => ?_, fun H hr => ?_, State.exec_iprefInv_unreleased⟩
  · obtain ⟨q, r, t, hexec, hwent, hsides, hquiet, hpre, hq⟩ := prefetches_ipref s h arg a b g G H
    refine ⟨q, r, t, hexec, hwent, hpre.rest, hsides, hquiet, hpre.lines, fun hroom => ⟨hpre.kept hroom, fun u hu => ?_⟩⟩
    rw [hq, State.prefetching]
    cases arg with
    | none =>
      intro l hl
      obtain ⟨rs, hrs⟩ := State.iprefRanges_none_of_head (a := a) (b := b) hu
      have hlen := State.length_iprefRanges_le (s := s) (G := G) (arg := none) (a := a) (b := b) (i := .ipref h none a b)
      rw [hrs] at hlen ⊢
      rw [List.length_cons] at hlen
      exact State.isSome_prefetchRanges ((Nat.add_le_add_left (Nat.mul_le_mul_left _ hlen) _).trans hroom) hl
    | some off =>
      intro h0 h1 l hl
      rw [State.iprefRanges_some_of_head hu (directTarget_within h0 h1)]
      refine State.isSome_prefetchRanges (rs := []) ?_ hl
      exact (Nat.add_le_add_left (Nat.mul_le_mul_left _ (Nat.succ_le_succ (Nat.zero_le _))) _).trans hroom
  · have hexec := State.exec_iprefInv_released H hr
    have htlb := State.invRanges_tlb G.core R.tenant R.world ([], s)
      ((s.actives G (.iprefInv h a b)).map fun u => (s.lane G (.iprefInv h a b) u).iprefRange a b)
    have hwent := H.fall ((s.invalidating G (.iprefInv h a b) a b).2.startInv G.lanes (s.invalidating G (.iprefInv h a b) a b).1)
    refine ⟨(s.invalidating G (.iprefInv h a b) a b).1, _, _, hexec, hwent, ?_, fun hne H' hu => ?_, fun u hu l hl => ?_⟩
    · exact State.startInv_of_tlb htlb _ _
    · refine State.groupIssues_of_iprefInv (id := (s.invalidating G (.iprefInv h a b) a b).2.nextId)
        (lines := (s.invalidating G (.iprefInv h a b) a b).1) ?_ hu
      rw [hwent.rest, State.startInv, if_neg (by simpa using hne)]
      exact FMap.find_put_self _ _ _
    · obtain ⟨us, hus⟩ := List.head?_eq_some_iff.mp hu
      rw [State.invalidating, hus]
      exact State.mem_invRanges_of_mem (p := State.invRange G.core R.tenant R.world ([], s) (range (.iprefInv h a b) u))
        (List.mem_append_right _ (List.mem_map_of_mem hl)) _

end Sys2Proof
end

