-- ==== Sys2Proof/Proofs/SequencerEvents.lean ====
section
/-!
Joins, pinned groups and bins (R103, R112, R113, R124), and the events of the instruction cache (R108, R130).
-/

namespace Sys2Proof

/-- An entry that a pass over a map keeps under its key is found there. -/
theorem FMap.find_filterMap_of_find {α β : Type} {m : FMap α} {n : Nat} {x : α} {y : β} {f : Nat × α → Option (Nat × β)}
    (hkey : ∀ p q, f p = some q → q.1 = p.1) (h : m.find n = some x) (hf : f (n, x) = some (n, y)) :
    FMap.find (m.filterMap f) n = some y := by
  induction m with
  | nil => cases h
  | cons p t ih =>
    obtain ⟨k, v⟩ := p
    rw [FMap.find] at h
    by_cases hk : n = k
    · subst hk
      rw [if_pos rfl, Option.some_inj] at h
      subst h
      rw [List.filterMap_cons, hf]
      exact if_pos rfl
    · rw [if_neg hk] at h
      rw [List.filterMap_cons]
      cases hp : f (k, v) with
      | none => exact ih h
      | some q =>
        have hq : n ≠ q.1 := by
          rw [hkey _ _ hp]
          exact hk
        exact (if_neg hq).trans (ih h)

theorem nodup_eraseDups : ∀ l : List Nat, l.eraseDups.Nodup
  | [] => List.nodup_nil
  | a :: l => by
    rw [List.eraseDups_cons, List.nodup_cons]
    exact ⟨by simp, nodup_eraseDups _⟩
termination_by l => l.length
decreasing_by exact Nat.lt_succ_of_le (List.length_filter_le _ _)

namespace Machine

/-! ## Threads that leave their groups for a new one -/

/-- A thread lies in a group that has been numbered and knows it, at a program counter. -/
def State.Seated (s : State) (u k pc : Nat) : Prop :=
  (s.thread u).disp = .group k ∧ k < s.nextId ∧ ∃ G, s.groups.find k = some G ∧ u ∈ G.lanes ∧ G.pc = pc

theorem State.Seated.pcOf {s : State} {u k pc : Nat} (h : s.Seated u k pc) : s.pcOf u = some pc := by
  obtain ⟨hdisp, -, G, hfind, -, hpc⟩ := h
  unfold State.pcOf
  rw [hdisp]
  exact (congrArg (Option.map Group.pc) hfind).trans (congrArg some hpc)

/-- A thread whose group other threads leave stays where it is. -/
theorem State.Seated.leave {s : State} {u k pc : Nat} (h : s.Seated u k pc) {ts : List Nat} (hu : u ∉ ts) : (s.leave ts).Seated u k pc := by
  obtain ⟨hdisp, hk, G, hfind, hlane, hpc⟩ := h
  have hstays : u ∈ G.lanes.filter fun t => !ts.contains t := List.mem_filter.mpr ⟨hlane, by simpa using hu⟩
  have hne : (G.lanes.filter fun t => !ts.contains t).isEmpty = false := by
    rw [List.isEmpty_eq_false_iff_exists_mem]
    exact ⟨u, hstays⟩
  refine ⟨hdisp, hk, { G with lanes := G.lanes.filter fun t => !ts.contains t }, ?_, hstays, hpc⟩
  refine FMap.find_filterMap_of_find (fun p q hq => ?_) hfind ?_
  · dsimp only at hq
    split at hq
    · cases hq
    · rw [← Option.some.inj hq]
  · dsimp only
    rw [hne]
    rfl

/-- What gathering some threads, which lie in groups, leads to: they form the group with the next number, and the others stay where they
are (R112, R124). -/
structure State.Gathers (s t : State) (ts : List Nat) (pc : Nat) : Prop where
  mem : t.mem = s.mem
  nextId : t.nextId = s.nextId + 1
  threads : s.SameThreads t
  seated : ∀ u ∈ ts, t.Seated u s.nextId pc
  others : ∀ u, u ∉ ts → ∀ k p, s.Seated u k p → t.Seated u k p

/-- A new group seats its threads, and leaves the others in theirs. -/
theorem State.spawn_gathers (s : State) (G : Group) (ts : List Nat) (pc : Nat) : s.Gathers (s.spawn G ts pc) ts pc := by
  obtain ⟨hid, -, hmem, -, -, hdisp, -⟩ := s.spawn_facts G ts pc
  have hrest := s.spawn_rest G ts pc
  refine ⟨hmem, hid, .spawn s G ts pc, fun u hu => ⟨by rw [hdisp, if_pos hu], by omega, ?_⟩, fun u hu k p h => ?_⟩
  · unfold State.spawn
    dsimp only
    rw [State.takeSlot_of_find (by rw [State.enrol_eq]; exact FMap.find_put_self _ _ _)]
    exact ⟨_, FMap.find_put_self _ _ _, (mem_laneSort u ts).mpr hu, rfl⟩
  · obtain ⟨hd, hk, hfind⟩ := h
    exact ⟨by rw [hdisp, if_neg hu, hd], by omega, by rw [hrest.kept k hk]; exact hfind⟩

/-- A change of what a group has to deliver moves no thread. -/
theorem State.Gathers.modGroup {s t : State} {ts : List Nat} {pc : Nat} (h : s.Gathers t ts pc) (g : Nat) {f : Group → Group}
    (hlanes : ∀ G, (f G).lanes = G.lanes) (hpc : ∀ G, (f G).pc = G.pc) : s.Gathers (t.modGroup g f) ts pc := by
  have hseat : ∀ u k p, t.Seated u k p → (t.modGroup g f).Seated u k p := by
    rintro u k p ⟨hd, hk, G, hfind, hlane, hp⟩
    refine ⟨hd, hk, if k = g then f G else G, ?_, ?_, ?_⟩
    · show (t.groups.adjust g f).find k = _
      rw [FMap.find_adjust, hfind]
      split <;> rfl
    · split
      · rw [hlanes]; exact hlane
      · exact hlane
    · split
      · rw [hpc]; exact hp
      · exact hp
  exact ⟨h.mem, h.nextId, h.threads, fun u hu => hseat _ _ _ (h.seated u hu), fun u hu k p hs => hseat _ _ _ (h.others u hu k p hs)⟩

/-- Threads that lie in groups gather (R112, R124). -/
theorem State.gather_gathers {s : State} {ts : List Nat} (hne : ts ≠ []) (hs : ∀ u ∈ ts, ∃ k p, s.Seated u k p) (pc : Nat) :
    s.Gathers (s.gather ts pc) ts pc := by
  have hsrcs : (ts.filterMap s.groupOf).eraseDups.filterMap s.groups.find ≠ [] := by
    obtain ⟨u, hu⟩ := List.exists_mem_of_ne_nil ts hne
    obtain ⟨k, p, hd, -, G, hfind, -⟩ := hs u hu
    have hgroup : s.groupOf u = some k := by rw [State.groupOf, hd]
    exact List.ne_nil_of_mem (List.mem_filterMap.mpr ⟨k, List.mem_eraseDups.mpr (List.mem_filterMap.mpr ⟨u, hu, hgroup⟩), hfind⟩)
  obtain ⟨G, r, hsrc⟩ := List.exists_cons_of_ne_nil hsrcs
  unfold State.gather
  rw [hsrc]
  dsimp only
  have hspawn := ((s.leave ts).spawn_gathers { r.foldl Group.merge G with yieldLeft := 0 } ts pc).modGroup (s.leave ts).nextId
    (f := fun H => { H with deliver := (r.foldl Group.merge G).deliver }) (fun _ => rfl) fun _ => rfl
  exact ⟨hspawn.mem, hspawn.nextId, hspawn.threads, hspawn.seated, fun u hu k p h => hspawn.others u hu k p (h.leave hu)⟩

/-- Several lists of threads gather one after the other: each in a group of its own. -/
structure State.GathersAll (s t : State) (parts : List (List Nat)) (pc : Nat) : Prop where
  mem : t.mem = s.mem
  threads : s.SameThreads t
  seated : ∀ ts ∈ parts, ∃ k, s.nextId ≤ k ∧ ∀ u ∈ ts, t.Seated u k pc
  others : ∀ u, (∀ ts ∈ parts, u ∉ ts) → ∀ k p, s.Seated u k p → t.Seated u k p
  apart : ∀ ts ∈ parts, ∀ us ∈ parts, ∀ u ∈ ts, ∀ v ∈ us, (t.thread u).disp = (t.thread v).disp → ts = us

theorem State.GathersAll.cons_nil {s t : State} {parts : List (List Nat)} {pc : Nat} (h : s.GathersAll t parts pc) :
    s.GathersAll t ([] :: parts) pc where
  mem := h.mem
  threads := h.threads
  seated := List.forall_mem_cons.mpr ⟨⟨s.nextId, le_rfl, fun _ hu => (List.not_mem_nil hu).elim⟩, h.seated⟩
  others u hu := h.others u fun us hus => hu us (List.mem_cons_of_mem _ hus)
  apart := by
    rintro us hus vs hvs u hu v hv
    rcases List.mem_cons.mp hus with rfl | hus
    · cases hu
    rcases List.mem_cons.mp hvs with rfl | hvs
    · cases hv
    exact h.apart us hus vs hvs u hu v hv

theorem State.GathersAll.cons {s t w : State} {ts : List Nat} {parts : List (List Nat)} {pc : Nat} (hfirst : s.Gathers t ts pc)
    (h : t.GathersAll w parts pc) (hout : ∀ us ∈ parts, ∀ u ∈ us, u ∉ ts) : s.GathersAll w (ts :: parts) pc := by
  have hin : ∀ u ∈ ts, w.Seated u s.nextId pc := fun u hu =>
    h.others u (fun us hus hmem => hout us hus u hmem hu) _ _ (hfirst.seated u hu)
  have hlater : ∀ us ∈ parts, ∃ k, s.nextId < k ∧ ∀ v ∈ us, w.Seated v k pc := fun us hus => by
    obtain ⟨k, hk, hseat⟩ := h.seated us hus
    rw [hfirst.nextId] at hk
    exact ⟨k, hk, hseat⟩
  have hdiffer : ∀ us ∈ parts, ∀ v ∈ us, ∀ u ∈ ts, (w.thread u).disp ≠ (w.thread v).disp := fun us hus v hv u hu heq => by
    obtain ⟨k, hk, hseat⟩ := hlater us hus
    have hsame := (hin u hu).1.symm.trans (heq.trans (hseat v hv).1)
    rw [Disp.group.injEq] at hsame
    omega
  refine ⟨h.mem.trans hfirst.mem, hfirst.threads.trans h.threads, List.forall_mem_cons.mpr ⟨⟨s.nextId, le_rfl, hin⟩, fun us hus => ?_⟩,
    fun u hu k p hs => h.others u (fun us hus => hu us (List.mem_cons_of_mem _ hus)) k p (hfirst.others u (hu ts List.mem_cons_self) k p hs), ?_⟩
  · obtain ⟨k, hk, hseat⟩ := hlater us hus
    exact ⟨k, hk.le, hseat⟩
  · rintro us hus vs hvs u hu v hv heq
    rcases List.mem_cons.mp hus with hts | hus' <;> rcases List.mem_cons.mp hvs with hts' | hvs'
    · exact hts.trans hts'.symm
    · exact absurd heq (hdiffer vs hvs' v hv u (hts ▸ hu))
    · exact absurd heq.symm (hdiffer us hus' u hu v (hts' ▸ hv))
    · exact h.apart us hus' vs hvs' u hu v hv heq

theorem State.foldl_gather {parts : List (List Nat)} (pc : Nat) {s : State} (hapart : parts.Pairwise List.Disjoint)
    (hs : ∀ ts ∈ parts, ∀ u ∈ ts, ∃ k p, s.Seated u k p) :
    s.GathersAll (parts.foldl (fun st ts => st.gather ts pc) s) parts pc := by
  induction parts generalizing s with
  | nil => exact ⟨rfl, .refl s, fun _ h => (List.not_mem_nil h).elim, fun _ _ _ _ h => h, fun _ h => (List.not_mem_nil h).elim⟩
  | cons ts r ih =>
    obtain ⟨hhead, hapart'⟩ := List.pairwise_cons.mp hapart
    have hs' : ∀ us ∈ r, ∀ u ∈ us, ∃ k p, s.Seated u k p := fun us hus => hs us (List.mem_cons_of_mem _ hus)
    by_cases hne : ts = []
    · subst hne
      exact (ih hapart' hs').cons_nil
    · have hfirst := State.gather_gathers hne (hs ts List.mem_cons_self) pc
      have hout : ∀ us ∈ r, ∀ u ∈ us, u ∉ ts := fun us hus u hu hin => hhead us hus hin hu
      refine .cons hfirst (ih hapart' fun us hus u hu => ?_) hout
      obtain ⟨k, p, hseat⟩ := hs' us hus u hu
      exact ⟨k, p, hfirst.others u (hout us hus u hu) k p hseat⟩

/-! ## Joins (R112) -/

theorem State.members_nodup {s : State} (h : FMap.sorted s.threads = true) (q n : Nat) : (s.members q n).Nodup :=
  (FMap.nodup_keys h).sublist (List.filter_sublist.map _)

theorem State.pinnedOf_nodup {s : State} (h : FMap.sorted s.threads = true) (b core p : Nat) : (s.pinnedOf b core p).Nodup :=
  (FMap.nodup_keys h).sublist (List.filter_sublist.map _)

/-- Each thread of a list that lies in a group has a group that has been numbered and knows it. -/
def State.Housed (s : State) (us : List Nat) : Prop := ∀ u ∈ us, ∀ g, (s.thread u).disp = .group g →
  g < s.nextId ∧ ∀ G, s.groups.find g = some G → u ∈ G.lanes

/-- A thread that waits in a group for a wait is seated there. -/
theorem State.Housed.seated {s : State} {us : List Nat} (h : s.Housed us) {u g : Nat} {G : Group} (hu : u ∈ us)
    (hgroup : s.groupOf u = some g) (hfind : s.groups.find g = some G) : s.Seated u g G.pc := by
  have hdisp : (s.thread u).disp = .group g := by
    unfold State.groupOf at hgroup
    split at hgroup
    · next k hk => rw [hk, Option.some.inj hgroup]
    · cases hgroup
  obtain ⟨hlt, hlane⟩ := h u hu g hdisp
  exact ⟨hdisp, hlt, G, hfind, hlane G hfind, rfl⟩

theorem State.atJoin_group {s : State} {u : Nat} (h : s.atJoin u = true) :
    ∃ g G, s.groupOf u = some g ∧ s.groups.find g = some G := by
  unfold State.atJoin at h
  split at h
  · next g hg =>
    split at h
    · next G hG => exact ⟨g, G, hg, hG⟩
    · cases h
  · cases h

theorem State.gpinPc_group {s : State} {u pc : Nat} (h : s.gpinPc u = some pc) :
    ∃ g G, s.groupOf u = some g ∧ s.groups.find g = some G := by
  unfold State.gpinPc at h
  split at h
  · next g hg =>
    split at h
    · next G hG => exact ⟨g, G, hg, hG⟩
    · cases h
  · cases h

/-- The lists of threads that a join releases together: the pinned ones of each pinned group, and the free ones (R112). -/
def State.joinParts (s : State) (ms : List Nat) : List (List Nat) :=
  (distinct (fun t => (s.thread t).pgrp) (ms.filter fun t => (s.thread t).pinned)).map
    (fun p => (ms.filter fun t => (s.thread t).pinned).filter fun t => (s.thread t).pgrp == p) ++
  [ms.filter fun t => !(s.thread t).pinned]

theorem State.joinParts_disjoint (s : State) (ms : List Nat) : (s.joinParts ms).Pairwise List.Disjoint := by
  refine List.pairwise_append.mpr ⟨?_, List.pairwise_singleton _ _, ?_⟩
  · refine List.pairwise_map.mpr ((nodup_eraseDups _).imp fun hne u hu hv => hne ?_)
    rw [List.mem_filter, beq_iff_eq] at hu hv
    exact hu.2.symm.trans hv.2
  · rintro ts hts us hus u hu hv
    obtain ⟨p, -, rfl⟩ := List.mem_map.mp hts
    rw [List.mem_singleton.mp hus, List.mem_filter] at hv
    have hpin := (List.mem_filter.mp (List.mem_filter.mp hu).1).2
    simp [hpin] at hv

theorem State.mem_of_mem_joinParts {s : State} {ms ts : List Nat} {u : Nat} (hts : ts ∈ s.joinParts ms) (hu : u ∈ ts) : u ∈ ms := by
  rcases List.mem_append.mp hts with h | h
  · obtain ⟨p, -, rfl⟩ := List.mem_map.mp h
    exact List.mem_of_mem_filter (List.mem_of_mem_filter hu)
  · rw [List.mem_singleton.mp h] at hu
    exact List.mem_of_mem_filter hu

/-- The part of a pinned member is its pinned group. -/
theorem State.pinned_joinPart {s : State} {ms : List Nat} {u : Nat} (hu : u ∈ ms) (hpin : (s.thread u).pinned = true) :
    ((ms.filter fun t => (s.thread t).pinned).filter fun t => (s.thread t).pgrp == (s.thread u).pgrp) ∈ s.joinParts ms ∧
      u ∈ (ms.filter fun t => (s.thread t).pinned).filter fun t => (s.thread t).pgrp == (s.thread u).pgrp := by
  have hmem : u ∈ ms.filter fun t => (s.thread t).pinned := List.mem_filter.mpr ⟨hu, hpin⟩
  exact ⟨List.mem_append_left _ (List.mem_map.mpr ⟨_, List.mem_eraseDups.mpr (List.mem_map_of_mem hmem), rfl⟩),
    List.mem_filter.mpr ⟨hmem, beq_self_eq_true _⟩⟩

theorem State.exists_joinPart {s : State} {ms : List Nat} {u : Nat} (hu : u ∈ ms) : ∃ ts ∈ s.joinParts ms, u ∈ ts := by
  cases hpin : (s.thread u).pinned with
  | true => exact ⟨_, State.pinned_joinPart hu hpin⟩
  | false => exact ⟨_, List.mem_append_right _ List.mem_cons_self, List.mem_filter.mpr ⟨hu, by rw [hpin]; rfl⟩⟩

/-- A join releases its members part by part, at the program counter of their records. -/
theorem State.joinRelease_eq {s : State} {q n pc : Nat} (hne : s.members q n ≠ [])
    (hpc : ∀ u ∈ s.members q n, ((s.thread u).topRec.map JoinRec.pc) = some pc) :
    s.joinRelease q n = (s.joinParts (s.members q n)).foldl (fun st ts => st.gather ts pc)
      (s.modThreads (s.members q n) fun T => { T with joinStack := T.joinStack.dropLast }) := by
  obtain ⟨u, us, hms⟩ := List.exists_cons_of_ne_nil hne
  have htop := hpc u (hms ▸ List.mem_cons_self)
  unfold State.joinRelease
  dsimp only
  rw [State.joinParts, List.foldl_append, List.foldl_map, hms]
  simp only [htop, Option.getD_some]
  rfl

/-- The members of a record whose join is ready go on together, pinned group by pinned group (R112). -/
theorem State.joinRelease_releases {s : State} {q n pc : Nat} (hsort : FMap.sorted s.threads = true) (hready : s.joinReady q n = true)
    (hhoused : s.Housed (s.members q n)) (hpc : ∀ u ∈ s.members q n, ((s.thread u).topRec.map JoinRec.pc) = some pc) :
    (s.joinRelease q n).mem = s.mem ∧ ∀ u ∈ s.members q n, (s.joinRelease q n).pcOf u = some pc ∧
      ((s.joinRelease q n).thread u).joinStack = (s.thread u).joinStack.dropLast ∧
      ((s.joinRelease q n).thread u).pinned = (s.thread u).pinned ∧
      ∀ v ∈ s.members q n, (s.thread u).pinned = true → (s.thread v).pinned = true →
        (((s.joinRelease q n).thread u).disp = ((s.joinRelease q n).thread v).disp ↔ (s.thread u).pgrp = (s.thread v).pgrp) := by
  obtain ⟨hne, hall⟩ : s.members q n ≠ [] ∧ ∀ u ∈ s.members q n, s.atJoin u = true := by
    simp only [State.joinReady, Bool.and_eq_true, Bool.not_eq_true', List.all_eq_true] at hready
    exact ⟨by simpa using hready.1, fun u hu => (hready.2 u hu).1⟩
  set popped := s.modThreads (s.members q n) fun T => { T with joinStack := T.joinStack.dropLast } with hpopped
  have hchanged := s.changed_modThreads (State.members_nodup hsort q n) fun T => { T with joinStack := T.joinStack.dropLast }
  rw [← hpopped] at hchanged
  have hseated : ∀ ts ∈ s.joinParts (s.members q n), ∀ u ∈ ts, ∃ k p, popped.Seated u k p := by
    intro ts hts u hu
    have hmem := State.mem_of_mem_joinParts hts hu
    obtain ⟨g, G, hgroup, hfind⟩ := State.atJoin_group (hall u hmem)
    obtain ⟨hdisp, hlt, hG⟩ := hhoused.seated hmem hgroup hfind
    refine ⟨g, G.pc, ?_, ?_, ?_⟩
    · rw [hchanged.there u hmem]
      exact hdisp
    · rw [hchanged.rest]
      exact hlt
    · rw [hchanged.rest]
      exact hG
  have hgathers := State.foldl_gather pc (s.joinParts_disjoint (s.members q n)) hseated
  rw [State.joinRelease_eq hne hpc]
  generalize (s.joinParts (s.members q n)).foldl (fun st ts => st.gather ts pc) popped = t at hgathers ⊢
  refine ⟨hgathers.mem.trans (by rw [hchanged.rest]), fun u hu => ⟨?_, ?_, ?_, fun v hv hpu hpv => ⟨fun heq => ?_, fun heq => ?_⟩⟩⟩
  · obtain ⟨ts, hts, hin⟩ := State.exists_joinPart (s := s) hu
    obtain ⟨k, -, hseat⟩ := hgathers.seated ts hts
    exact (hseat u hin).pcOf
  · rw [hgathers.threads u, hchanged.there u hu]
  · rw [hgathers.threads u, hchanged.there u hu]
  · obtain ⟨hpart, hin⟩ := State.pinned_joinPart hu hpu
    obtain ⟨hpart', hin'⟩ := State.pinned_joinPart hv hpv
    have hsame := hgathers.apart _ hpart _ hpart' u hin v hin' heq
    rw [hsame] at hin
    exact beq_iff_eq.mp (List.mem_filter.mp hin).2
  · obtain ⟨hpart, hin⟩ := State.pinned_joinPart hu hpu
    obtain ⟨-, hin'⟩ := State.pinned_joinPart hv hpv
    obtain ⟨k, -, hseat⟩ := hgathers.seated _ hpart
    rw [← heq] at hin'
    exact (hseat u hin).1.trans (hseat v hin').1.symm

/-! ## Pinned groups (R124) -/

theorem State.gpinReady_of {s : State} {b core p pc : Nat} (hne : s.pinnedOf b core p ≠ [])
    (hpc : ∀ u ∈ s.pinnedOf b core p, s.gpinPc u = some pc) : s.gpinReady b core p = true := by
  obtain ⟨u, us, hus⟩ := List.exists_cons_of_ne_nil hne
  rw [hus] at hpc
  unfold State.gpinReady
  rw [hus]
  simp only [hpc u List.mem_cons_self, Option.isSome_some, Bool.true_and, List.all_eq_true, beq_iff_eq]
  exact fun v hv => hpc v (List.mem_cons_of_mem _ hv)

/-- The threads of a pinned group that wait at one GPIN go on as one pinned group at the next word. -/
theorem State.gpinRelease_releases {s : State} {b core p pc : Nat} (hsort : FMap.sorted s.threads = true)
    (hne : s.pinnedOf b core p ≠ []) (hpc : ∀ u ∈ s.pinnedOf b core p, s.gpinPc u = some pc) (hhoused : s.Housed (s.pinnedOf b core p)) :
    (s.gpinRelease b core p).mem = s.mem ∧ ∀ u ∈ s.pinnedOf b core p, (s.gpinRelease b core p).pcOf u = some (pc + 8) ∧
      ((s.gpinRelease b core p).thread u).pinned = true ∧ ((s.gpinRelease b core p).thread u).disp = .group s.nextId := by
  have hchanged := s.changed_modThreads (State.pinnedOf_nodup hsort b core p) fun T => { T with pinned := true }
  have heq : s.gpinRelease b core p = (s.modThreads (s.pinnedOf b core p) fun T => { T with pinned := true }).gather
      (s.pinnedOf b core p) (pc + 8) := by
    obtain ⟨u, us, hus⟩ := List.exists_cons_of_ne_nil hne
    rw [hus] at hpc
    unfold State.gpinRelease
    rw [hus]
    dsimp only
    rw [hpc u List.mem_cons_self, Option.getD_some]
  have hgathers := State.gather_gathers (s := s.modThreads (s.pinnedOf b core p) fun T => { T with pinned := true }) hne
    (fun u hu => by
      obtain ⟨g, G, hgroup, hfind⟩ := State.gpinPc_group (hpc u hu)
      obtain ⟨hdisp, hlt, hG⟩ := hhoused.seated hu hgroup hfind
      exact ⟨g, G.pc, by rw [hchanged.there u hu]; exact hdisp, by rw [hchanged.rest]; exact hlt, by rw [hchanged.rest]; exact hG⟩) (pc + 8)
  have hid : (s.modThreads (s.pinnedOf b core p) fun T => { T with pinned := true }).nextId = s.nextId := by rw [hchanged.rest]
  rw [heq]
  refine ⟨hgathers.mem.trans (by rw [hchanged.rest]), fun u hu => ⟨(hgathers.seated u hu).pcOf, ?_, ?_⟩⟩
  · rw [hgathers.threads u, hchanged.there u hu]
  · rw [(hgathers.seated u hu).1, hid]

/-- The lines that stay are those that lie outside every range (R130). -/
theorem State.icacheDrop_eq (s : State) (ranges : List (Nat × Nat)) : s.icacheDrop ranges =
    { s with icache := s.icache.filter fun p => ranges.all fun r => decide (p.1 < r.1 ∨ r.1 + r.2 ≤ p.1) } := by
  have hkept (p : Nat × Line) : (!ranges.any fun r => decide (r.1 ≤ p.1 ∧ p.1 < r.1 + r.2)) =
      ranges.all fun r => decide (p.1 < r.1 ∨ r.1 + r.2 ≤ p.1) := by
    simp only [List.not_any_eq_all_not, ← decide_not, Nat.not_le, Nat.not_lt, not_and_or]
  simp only [State.icacheDrop, hkept]

end Machine

open Machine

/-- Settles O38: joins and pinned groups by how their threads gather, the other events each by its own condition. -/
theorem sequencerEvents : Obligations.SequencerEvents := by
  intro s placed
  refine ⟨fun q n pc hsort hready hplaced hpc => ?_, fun b p pc halone hsort hne hpc hplaced => ?_, fun q l hfrozen => ?_,
    fun id g ranges hfind => ?_, fun q n B hfind hcand hold => ?_⟩
  · have hexec : exec (.joinRelease q n) s = .next (s.joinRelease q n) := by
      rw [exec_joinRelease, execJoinRelease, event, hready]
      rfl
    exact ⟨_, hexec, State.joinRelease_releases hsort hready hplaced hpc⟩
  · have hready := State.gpinReady_of hne hpc
    have hexec : exec (.gpinRelease b p) s = .next (s.gpinRelease b (s.block b).core p) := by
      have hcores : s.coresOf b = [(s.block b).core] := by rw [State.coresOf, halone]
      rw [exec_gpinRelease, execGpinRelease, event, hcores]
      simp only [List.any_cons, List.any_nil, Bool.or_false, hready, if_true, List.foldl_cons, List.foldl_nil]
    obtain ⟨hmem, hgo⟩ := State.gpinRelease_releases hsort hne hpc hplaced
    exact ⟨_, s.nextId, hexec, hmem, hgo⟩
  · have hexec : exec (.icacheFill q) s = .next ((s.icacheAdd l).modSeqr q fun Q => { Q with frozen := none }) := by
      rw [exec_icacheFill, execIcacheFill, event, hfrozen]
      rfl
    refine ⟨_, hexec, ?_, s.find_icacheAdd_self l, fun k hk => s.find_icacheAdd_ne hk⟩
    rw [State.icacheAdd_rest]
    rfl
  · rw [exec_iprefInvComplete, execIprefInvComplete, event, hfind]
    simp only [State.icacheDrop_eq, Option.isSome_some, if_true]
  · have htimed : s.binTimedOut q n = true := by
      unfold State.binTimedOut
      rw [show s.bins.find (binKey q n) = some B from hfind]
      simp only [hcand, Bool.not_false, Bool.true_and, decide_eq_true_eq]
      exact hold
    rw [exec_binCandidateTimeout, execBinCandidateTimeout, event, htimed]
    rfl

end Sys2Proof
end
